-- ==== Sys2Proof/Word.lean ====
section
/-! DEFINITION. The word types of the Apeth (R2, R21, R119) and the banks of registers named by a bit field. -/

namespace Sys2Proof

/-- One byte of any memory (R2). -/
abbrev Byte := BitVec 8

/-- An s-register, a program counter, a virtual address (R21, R302). -/
abbrev Word := BitVec 64

/-- A parcel of the V-stream and a word of the A-stream (R15). -/
abbrev Parcel := BitVec 32

/-- A 1-KiB vector register or stream-register entry (R119, R128). -/
abbrev VReg := BitVec 8192

/-- A mask register: one bit a byte cell (R37). -/
abbrev Mask := BitVec 1024

/-- A bank of 2^n registers of one kind, named by an n-bit field. -/
abbrev Bank (α : Type) (n : Nat) := Vector α (2 ^ n)

/-- Bytes of a memory that differ from zero, by rising address. -/
abbrev Mem := List (Nat × Byte)

end Sys2Proof
end

