-- ==== Sys2Proof/Syntax.lean ====
section
/-! DEFINITION. The steps of the Apeth: one constructor per row of the opcode table (the words of the three streams and the
events), with the operand types they carry (R20 to R50; the payloads of the events are named by the rule of each row). -/

namespace Sys2Proof

/-- Access sizes of 1, 2, 4 and 8 bytes (R27 AMO minor 3:2, WAIT.M imm 1:0). -/
inductive MemSize where
  | b1 | b2 | b4 | b8
  deriving DecidableEq, Repr

/-- The order field of an atomic (R27 AMO minor 1:0). -/
inductive AmoOrder where
  | plain | acq | rel | acqrel
  deriving DecidableEq, Repr

/-- The order of a load (R23). -/
inductive LdOrder where
  | plain | acq | sc
  deriving DecidableEq, Repr

/-- The order of a store (R23). -/
inductive StOrder where
  | plain | rel | sc
  deriving DecidableEq, Repr

/-- The branch hint (R24). -/
inductive Hint where
  | prepare | taken | notTaken
  deriving DecidableEq, Repr

/-- The scope of a FENCE (R27, R342). -/
inductive FenceScope where
  | core | cluster | die | domain | survive
  deriving DecidableEq, Repr

/-- The order of a FENCE (R27). -/
inductive FenceOrder where
  | acq | rel | acqrel | sc
  deriving DecidableEq, Repr

/-- What QPOP pops (R27, R106). -/
inductive PopSrc where
  | rq
  | vq (j : BitVec 2)
  deriving DecidableEq, Repr

/-- The element types of the V-stream (R36); code 0xF is reserved and names none. -/
inductive VTy where
  | i8 | i16 | i32 | i64 | n8 | n16 | n32 | n64 | f32 | f16 | bf16 | e4m3 | e5m2 | e2m1 | i4
  deriving DecidableEq, Repr

/-- What follows the 64-bit part of a V instruction (R31): nothing, a literal, or a strided run. -/
inductive VExt where
  | none
  | lit (value : BitVec 32)
  | run (vc : BitVec 11) (sb sa sd : BitVec 5) (count : BitVec 6)
  deriving DecidableEq, Repr

/-- The fields of a 64-bit or 96-bit V instruction other than its opcode and length (R31). -/
structure VFields where
  modifier : BitVec 12
  vb : BitVec 11
  va : BitVec 11
  vd : BitVec 11
  sense : Bool
  mask : BitVec 4
  ty : VTy
  ext : VExt
  deriving DecidableEq, Repr

/-- The bits of a long-map hint cell, which may hold anything (R18). -/
inductive VRaw where
  | w64 (bits : BitVec 64)
  | w96 (bits : BitVec 96)
  deriving DecidableEq, Repr

/-- The fields of an M word other than its opcode and the bits that are always zero (R44, R46). -/
structure MFields where
  locC : BitVec 32
  rs : Bool
  cs : Bool
  count : BitVec 14
  rnd : BitVec 3
  rot : Bool
  epi : BitVec 5
  acc : BitVec 3
  locB : BitVec 32
  locA : BitVec 32
  seq : BitVec 8
  sat : Bool
  trb : Bool
  d64 : Bool
  clr : Bool
  rply : Bool
  sigInc : BitVec 8
  sigSem : BitVec 8
  waitThr : BitVec 16
  waitSem : BitVec 8
  deriving DecidableEq, Repr

/-- The operation of an atomic (R27, R99). -/
inductive AmoOp where
  | add | and | or | xor | min | max | minu | maxu | swap | cas | faddF32 | faddBf16
  deriving DecidableEq, Repr

/-- What a peer part or the fabric answers to an outstanding access (R423, R424). -/
inductive Reply where
  /-- The bytes read, and whether some position was not resident or not valid. -/
  | data (bytes : List Byte) (miss : Bool)
  /-- A store or atomic without a result was performed. -/
  | done
  /-- The target's export check refused the unit. -/
  | prot
  /-- The target's line was poisoned. -/
  | uncorr
  /-- The target's line belongs to an unrecoverable stripe (R454). -/
  | selvedge
  /-- The unit was declared lost. -/
  | lost
  /-- The protected store was performed but no parity holder in service kept it (R445). -/
  | doneNotDurable
  /-- An atomic was performed and gives its old value, but its protected write was not kept (R445). -/
  | oldNotDurable (bytes : List Byte)
  deriving DecidableEq, Repr

/-- A vertical link (R326). -/
inductive LinkName where
  | vaultColumn (vault : BitVec 6) (column : BitVec 3)
  | coreLink (core : BitVec 8)
  deriving DecidableEq, Repr

/-- What the patrol scrub finds in a word (R328). -/
inductive ScrubResult where
  | clean | corrected | uncorrectable
  deriving DecidableEq, Repr

/-- A layer of the stack (R9). -/
inductive Layer where
  | mx | vx | vault
  deriving DecidableEq, Repr

/-- An access of the host through the port (R384): device memory, the boot staging window (R396), the debug window (R400). -/
inductive HostAcc where
  | memRead (addr : BitVec 48) (len : Nat)
  | memWrite (addr : BitVec 48) (bytes : List Byte)
  | stagingRead (off : BitVec 22) (len : Nat)
  | stagingWrite (off : BitVec 22) (bytes : List Byte)
  | debugRead (off : BitVec 25) (len : Nat)
  | registerRead (fn : BitVec 6) (off : BitVec 26)
  deriving DecidableEq, Repr

/-- What built-in test finds in the silicon (R395, R396): whether every entry of the cached map is right, and the map that full test makes. -/
structure BootResult where
  cachedGood : Bool
  repairMap : List Byte
  deriving DecidableEq, Repr

/-- Who writes a register that the host and the Miller can write (R363, R391): the host, through a function's BAR0, or the Miller. -/
inductive Issuer where
  | host (fn : BitVec 6)
  | miller
  deriving DecidableEq, Repr

/-- A packet of the network engine as it arrives (R402, R409). -/
structure Packet where
  /-- The receiving endpoint. -/
  ep : BitVec 10
  /-- The sending peer's entry as the receiver names it, with the message number of that connection. -/
  peer : Nat
  msg : Nat
  /-- The earliest message of the connection that its source has not ended. -/
  oldest : Nat
  /-- Packet index within the message and the message's length. -/
  index : Nat
  len : Nat
  /-- A WRITE carries its key, offset and target counter; a SEND its tag. -/
  write : Bool
  ordered : Bool
  tag : Word
  rkey : BitVec 32
  raddr : Word
  tcnt : BitVec 32
  bytes : List Byte
  deriving DecidableEq, Repr

/-- What a peer answers to a packet (R409, R410, R411); `noConnection` says that the peer requires what R402 does not list. -/
inductive PacketAck where
  | placed
  | notReady
  | failed (status : BitVec 8)
  | noConnection
  deriving DecidableEq, Repr

/-- What a remote-access unit does at its target (R419, R421); `rel` marks a release (R344). -/
inductive UnitKind where
  /-- A read; `fresh` says that a fresh unit of a core store counts as missing (R272), as it does for a load but not for KLD or a copy. -/
  | load (fresh : Bool)
  | store (rel : Bool)
  | amo (op : AmoOp) (size : MemSize) (cmp : Word) (rel : Bool)
  deriving DecidableEq, Repr

/-- A parity update (R444). -/
structure ParityUpd where
  range : Bool
  block : Nat
  off : Nat
  bytes : List Byte
  deriving DecidableEq, Repr

/-- The header of a stripe: what the payload is (R419, R421, R433, R437, R444, R453, R454). -/
inductive Body where
  /-- A remote-access unit: source core, COPY path, count of its stream, the count at which the stream's last SHUTTLE_LOSS was delivered
  (R431), kind, target address, length, job. -/
  | unit (core : BitVec 8) (copy : Bool) (count since : BitVec 32) (kind : UnitKind) (addr : Nat) (len : Nat) (job : BitVec 16)
  /-- Stripe number `index` of a message. -/
  | msg (id : Nat) (mbox : BitVec 12) (len : Nat) (index : Nat) (job : BitVec 16)
  /-- A management message. -/
  | mgmt
  /-- One 192-byte-fragment stripe of a rebuilt parity block, written from byte `off` on. -/
  | block (range : Bool) (block : Nat) (off : Nat)
  /-- A parity update. -/
  | parity (upd : ParityUpd)
  /-- A substitute's request to a data owner of a stripe: freeze it, or release it. -/
  | freeze (range : Bool) (stripe : Nat) (release : Bool)
  /-- A data owner's answer: the stripe is frozen. -/
  | frozen (range : Bool) (stripe : Nat)
  /-- A substitute's read of a member's block of a stripe. -/
  | blockRead (range : Bool) (stripe : Nat)
  /-- The block's bytes from byte `off` on, or that the member cannot give the block. -/
  | blockData (range : Bool) (stripe : Nat) (off : Nat)
  | noBlock (range : Bool) (stripe : Nat)
  deriving DecidableEq, Repr

/-- What a loss notice tells the target of: a unit of a stream, by its count (R431), or a stripe of a message (R435). -/
inductive LostItem where
  | unit (core : BitVec 8) (copy : Bool) (count : BitVec 32)
  | msg (id : Nat)
  deriving DecidableEq, Repr

/-- Whose loss a notice tells: of a stream, or of a message. Its number is the unit's count or the message's id. -/
inductive LostKind where
  | unit (core : BitVec 8) (copy : Bool)
  | msg
  deriving DecidableEq, Repr

/-- What a notice of a kind and a number tells of. -/
def LostKind.item (number : Nat) : LostKind → LostItem
  | .unit core copy => .unit core copy (BitVec.ofNat 32 number)
  | .msg => .msg number

/-- What a part tells of itself beside a link: that it has come out of a reset (R432), and, to its group, its sv.cfg.EN (R445). -/
structure PartNews where
  reset : Bool
  enabled : Option Bool
  deriving DecidableEq, Repr

/-- One fragment of a stripe (R426, R427). -/
structure Fragment where
  src : BitVec 10
  seq : BitVec 32
  cls : BitVec 3
  k : Nat
  m : Nat
  index : Nat
  len : Nat
  body : Body
  bytes : List Byte
  deriving DecidableEq, Repr

/-- What the acknowledgement of a stripe says (R428, R431, R435, R437, R446). -/
inductive StripeAck where
  | performed (reply : Reply)
  | msgRefused
  | msgEnded (code : BitVec 8)
  | mgmtFull
  | parityRefused
  | lossNoticed (lost : LostItem)
  deriving DecidableEq, Repr

/-- The steps of the machine. The words of the A-, V- and M-streams come first; from `mWordCompletion` on stand the events. -/
inductive Instr where
  /-- ADD (R89): Adds two s-registers modulo 2^64. -/
  | add (sd sa sb : BitVec 6)
  /-- SUB (R89): Subtracts sb from sa modulo 2^64. -/
  | sub (sd sa sb : BitVec 6)
  /-- MUL (R89): Writes the low 64 bits of the product. -/
  | mul (sd sa sb : BitVec 6)
  /-- MULH (R89): Writes the high 64 bits of the signed product. -/
  | mulh (sd sa sb : BitVec 6)
  /-- DIV (R90): Signed division rounded toward zero, with the fixed outcomes of R90. -/
  | div (sd sa sb : BitVec 6)
  /-- DIVU (R90): Unsigned division. -/
  | divu (sd sa sb : BitVec 6)
  /-- REM (R90): Signed remainder. -/
  | rem (sd sa sb : BitVec 6)
  /-- REMU (R90): Unsigned remainder. -/
  | remu (sd sa sb : BitVec 6)
  /-- AND (R89): Bitwise AND of two s-registers. -/
  | and (sd sa sb : BitVec 6)
  /-- OR (R89): Bitwise OR of two s-registers. -/
  | or (sd sa sb : BitVec 6)
  /-- XOR (R89): Bitwise XOR of two s-registers. -/
  | xor (sd sa sb : BitVec 6)
  /-- SHL (R89): Shifts sa left by sb, giving 0 for amounts of 64 or more. -/
  | shl (sd sa sb : BitVec 6)
  /-- SHR (R89): Logical right shift of sa by sb. -/
  | shr (sd sa sb : BitVec 6)
  /-- SRA (R89): Arithmetic right shift of sa by sb. -/
  | sra (sd sa sb : BitVec 6)
  /-- MIN (R89): Signed minimum. -/
  | min (sd sa sb : BitVec 6)
  /-- MAX (R89): Signed maximum. -/
  | max (sd sa sb : BitVec 6)
  /-- CLZ (R89): Counts leading zero bits of sa. -/
  | clz (sd sa : BitVec 6)
  /-- POPC (R89): Counts one bits of sa. -/
  | popc (sd sa : BitVec 6)
  /-- SEXT_I8 (R89): Sign-extends bits 7:0 of sa. -/
  | sextI8 (sd sa : BitVec 6)
  /-- SEXT_I16 (R89): Sign-extends bits 15:0 of sa. -/
  | sextI16 (sd sa : BitVec 6)
  /-- SEXT_I32 (R89): Sign-extends bits 31:0 of sa. -/
  | sextI32 (sd sa : BitVec 6)
  /-- ZEXT_N8 (R89): Zero-extends bits 7:0 of sa. -/
  | zextN8 (sd sa : BitVec 6)
  /-- ZEXT_N16 (R89): Zero-extends bits 15:0 of sa. -/
  | zextN16 (sd sa : BitVec 6)
  /-- ZEXT_N32 (R89): Zero-extends bits 31:0 of sa. -/
  | zextN32 (sd sa : BitVec 6)
  /-- CMP_EQ (R92): Sets a predicate when sa equals sb. -/
  | cmpEq (pd : BitVec 4) (sa sb : BitVec 6)
  /-- CMP_NE (R92): Sets a predicate when sa differs from sb. -/
  | cmpNe (pd : BitVec 4) (sa sb : BitVec 6)
  /-- CMP_LT (R92): Signed less-than compare into a predicate. -/
  | cmpLt (pd : BitVec 4) (sa sb : BitVec 6)
  /-- CMP_LE (R92): Signed less-or-equal compare into a predicate. -/
  | cmpLe (pd : BitVec 4) (sa sb : BitVec 6)
  /-- CMP_LTU (R92): Unsigned less-than compare into a predicate. -/
  | cmpLtu (pd : BitVec 4) (sa sb : BitVec 6)
  /-- CMP_LEU (R92): Unsigned less-or-equal compare into a predicate. -/
  | cmpLeu (pd : BitVec 4) (sa sb : BitVec 6)
  /-- CMP_ALL (R92): Sets a predicate when every bit of sb is set in sa. -/
  | cmpAll (pd : BitVec 4) (sa sb : BitVec 6)
  /-- CMP_ANY (R92): Sets a predicate when sa and sb share a set bit. -/
  | cmpAny (pd : BitVec 4) (sa sb : BitVec 6)
  /-- PAND (R92): ANDs two predicates, optionally inverting the second. -/
  | pand (pd pa pb : BitVec 4) (inv : Bool)
  /-- POR (R92): ORs two predicates, optionally inverting the second. -/
  | por (pd pa pb : BitVec 4) (inv : Bool)
  /-- SEL (R92): Selects sa or sb by a predicate named in the minor field. -/
  | sel (sd : BitVec 6) (pk : BitVec 4) (sa sb : BitVec 6)
  /-- AMO_ADD (R99): Atomic add at the owner, returning the old value. -/
  | amoAdd (sd sa sb : BitVec 6) (size : MemSize) (ord : AmoOrder)
  /-- AMO_AND (R99): Atomic AND at the owner. -/
  | amoAnd (sd sa sb : BitVec 6) (size : MemSize) (ord : AmoOrder)
  /-- AMO_OR (R99): Atomic OR at the owner. -/
  | amoOr (sd sa sb : BitVec 6) (size : MemSize) (ord : AmoOrder)
  /-- AMO_XOR (R99): Atomic XOR at the owner. -/
  | amoXor (sd sa sb : BitVec 6) (size : MemSize) (ord : AmoOrder)
  /-- AMO_MIN (R99): Atomic signed minimum at the owner. -/
  | amoMin (sd sa sb : BitVec 6) (size : MemSize) (ord : AmoOrder)
  /-- AMO_MAX (R99): Atomic signed maximum at the owner. -/
  | amoMax (sd sa sb : BitVec 6) (size : MemSize) (ord : AmoOrder)
  /-- AMO_MINU (R99): Atomic unsigned minimum at the owner. -/
  | amoMinu (sd sa sb : BitVec 6) (size : MemSize) (ord : AmoOrder)
  /-- AMO_MAXU (R99): Atomic unsigned maximum at the owner. -/
  | amoMaxu (sd sa sb : BitVec 6) (size : MemSize) (ord : AmoOrder)
  /-- SWAP (R99): Atomic exchange at the owner. -/
  | swap (sd sa sb : BitVec 6) (size : MemSize) (ord : AmoOrder)
  /-- CAS (R99): Atomic compare-and-swap against the expected value in sd. -/
  | cas (sd sa sb : BitVec 6) (size : MemSize) (ord : AmoOrder)
  /-- AMO_FADD (R99): Atomic floating add in FP32 or BF16 rounded at the owner. -/
  | amoFadd (sd sa sb : BitVec 6) (f32 : Bool) (ord : AmoOrder)
  /-- ADDI (R91): Adds a sign-extended 14-bit immediate. -/
  | addi (sd sa : BitVec 6) (imm : BitVec 14)
  /-- ANDI (R91): ANDs with a sign-extended immediate. -/
  | andi (sd sa : BitVec 6) (imm : BitVec 14)
  /-- ORI (R91): ORs with a sign-extended immediate. -/
  | ori (sd sa : BitVec 6) (imm : BitVec 14)
  /-- XORI (R91): XORs with a sign-extended immediate. -/
  | xori (sd sa : BitVec 6) (imm : BitVec 14)
  /-- SHLI (R91): Shifts left by an immediate amount 0-127. -/
  | shli (sd sa : BitVec 6) (amount : BitVec 7)
  /-- SHRI (R91): Logical right shift by an immediate amount. -/
  | shri (sd sa : BitVec 6) (amount : BitVec 7)
  /-- SRAI (R91): Arithmetic right shift by an immediate amount. -/
  | srai (sd sa : BitVec 6) (amount : BitVec 7)
  /-- CMPI_EQ (R92): Sets a predicate when sa equals the immediate. -/
  | cmpiEq (pd : BitVec 4) (sa : BitVec 6) (imm : BitVec 14)
  /-- CMPI_LT (R92): Signed less-than compare with the immediate. -/
  | cmpiLt (pd : BitVec 4) (sa : BitVec 6) (imm : BitVec 14)
  /-- CMPI_LTU (R92): Unsigned less-than compare with the sign-extended immediate. -/
  | cmpiLtu (pd : BitVec 4) (sa : BitVec 6) (imm : BitVec 14)
  /-- MOVI (R22): Loads a sign-extended 20-bit immediate. -/
  | movi (sd : BitVec 6) (imm : BitVec 20)
  /-- LSI (R22): Shifts sd left by 20 and inserts a 20-bit immediate. -/
  | lsi (sd : BitVec 6) (imm : BitVec 20)
  /-- ADDPC (R22): Writes pc plus four times a signed immediate. -/
  | addpc (sd : BitVec 6) (imm : BitVec 20)
  /-- PB (R93): Prepares a branch target in a b-register with a fetch hint. -/
  | pb (b : BitVec 3) (hint : Hint) (disp : BitVec 21)
  /-- BR (R94): Takes a prepared branch when the predicate holds. -/
  | br (b : BitVec 3) (pk : BitVec 4) (sense : Bool)
  /-- BRL (R94): Calls a prepared branch, writing the return address to a link register. -/
  | brl (b : BitVec 3) (pk : BitVec 4) (sense : Bool) (link : BitVec 6)
  /-- BLOOP (R94): Branches and decrements a loop counter while it is nonzero. -/
  | bloop (b : BitVec 3) (pk : BitVec 4) (sense : Bool) (lc : BitVec 2)
  /-- LD_I8 (R96): Loads a signed byte, writing p14 from the residency flag. -/
  | ldI8 (sd sa : BitVec 6) (ord : LdOrder) (strict : Bool) (off : BitVec 11)
  /-- LD_N8 (R96): Loads an unsigned byte. -/
  | ldN8 (sd sa : BitVec 6) (ord : LdOrder) (strict : Bool) (off : BitVec 11)
  /-- LD_I16 (R96): Loads a signed halfword. -/
  | ldI16 (sd sa : BitVec 6) (ord : LdOrder) (strict : Bool) (off : BitVec 11)
  /-- LD_N16 (R96): Loads an unsigned halfword. -/
  | ldN16 (sd sa : BitVec 6) (ord : LdOrder) (strict : Bool) (off : BitVec 11)
  /-- LD_I32 (R96): Loads a signed word. -/
  | ldI32 (sd sa : BitVec 6) (ord : LdOrder) (strict : Bool) (off : BitVec 11)
  /-- LD_N32 (R96): Loads an unsigned word. -/
  | ldN32 (sd sa : BitVec 6) (ord : LdOrder) (strict : Bool) (off : BitVec 11)
  /-- LD_B64 (R96): Loads a doubleword. -/
  | ldB64 (sd sa : BitVec 6) (ord : LdOrder) (strict : Bool) (off : BitVec 11)
  /-- LDQ (R97): Loads 1,024 bytes as one entry of a stream register. -/
  | ldq (q : BitVec 4) (sa : BitVec 6) (acq strict : Bool) (off : BitVec 11)
  /-- ST_B8 (R96): Stores a byte. -/
  | stB8 (sd sa : BitVec 6) (ord : StOrder) (off : BitVec 11)
  /-- ST_B16 (R96): Stores a halfword. -/
  | stB16 (sd sa : BitVec 6) (ord : StOrder) (off : BitVec 11)
  /-- ST_B32 (R96): Stores a word. -/
  | stB32 (sd sa : BitVec 6) (ord : StOrder) (off : BitVec 11)
  /-- ST_B64 (R96): Stores a doubleword. -/
  | stB64 (sd sa : BitVec 6) (ord : StOrder) (off : BitVec 11)
  /-- FENCE (R101): Orders covered accesses of the named paths at the given scope. -/
  | fence (scope : FenceScope) (ord : FenceOrder) (paths : BitVec 5)
  /-- SEM_SIG (R103): Adds sa to a core semaphore after earlier own-store accesses complete. -/
  | semSig (sem : BitVec 8) (sa : BitVec 6)
  /-- SEM_ACQ (R103): Waits until a semaphore reaches sa and subtracts it. -/
  | semAcq (sd : BitVec 6) (sem : BitVec 8) (sa : BitVec 6)
  /-- SEM_RD (R103): Reads a semaphore count without waiting. -/
  | semRd (sd : BitVec 6) (sem : BitVec 8)
  /-- MQPUSH (R106): Appends a 64-bit value to an M queue, stalling while full. -/
  | mqpush (mq : BitVec 2) (sa : BitVec 6)
  /-- QPOP (R106): Pops an entry of rq or a vq queue, trapping on a fault entry. -/
  | qpop (sd : BitVec 6) (src : PopSrc)
  /-- MQ_FLUSH (R106): Discards unpopped entries of one or all M queues. -/
  | mqFlush (sd : BitVec 6) (which : Option (BitVec 2))
  /-- CP_FLUSH (R113): Discards the first blocked copy command and all behind it. -/
  | cpFlush (sd : BitVec 6)
  /-- CP (R108): Queues a two-dimensional copy command from six record registers. -/
  | cp (sa : BitVec 6)
  /-- CP_BOLT (R109): Queues a copy that builds steering tiles through the Bolter. -/
  | cpBolt (sa : BitVec 6)
  /-- CP_Q (R110): Queues a copy that appends its bytes to a stream register. -/
  | cpQ (q : BitVec 4) (sa : BitVec 6)
  /-- SPAWN (R74): Creates a bobbin from five record registers. -/
  | spawn (sd sa : BitVec 6)
  /-- SUSPEND (R75): Posts a stop request, optionally arming a line monitor. -/
  | suspend (sa : BitVec 6)
  /-- EXIT (R76): Ends the strand once its streams and accesses complete. -/
  | exit
  /-- SEAM (R50): Marks a seam where the A-stream may stop. -/
  | seam (id : BitVec 22)
  /-- WAIT_M (R77): Waits until a memory value differs from the expected value. -/
  | waitM (sd sa : BitVec 6) (size : MemSize)
  /-- SPIN (R78): Marks a spin loop and starts the spin timer. -/
  | spin
  /-- PAGEREQ (R315): Requests residency of a page without waiting. -/
  | pagereq (sa : BitVec 6)
  /-- CRR (R115): Reads a control register. -/
  | crr (sd : BitVec 6) (num : BitVec 10)
  /-- CRW (R115): Writes a control register, re-arming the handler when it is c.evec. -/
  | crw (num : BitVec 10) (sa : BitVec 6)
  /-- SETTC (R117): Checks and writes a tile descriptor. -/
  | settc (t : BitVec 4) (sa : BitVec 6)
  /-- TRAP (R118): Raises the SOFT trap with a 10-bit code. -/
  | trap (code : BitVec 10)
  /-- GRD (R29): Guards the next A-stream word by a predicate. -/
  | grd (sense : Bool) (pk : BitVec 4)
  /-- PBR (R93): Prepares a branch target from an s-register. -/
  | pbr (b : BitVec 3) (sa : BitVec 6) (hint : Hint)
  /-- LCSET (R95): Sets an A-sequencer loop counter. -/
  | lcset (lc : BitVec 2) (sa : BitVec 6)
  /-- JOIN (R288): Joins a skein, creating it if needed. -/
  | join (sd sa : BitVec 6)
  /-- LEAVE (R289): Leaves a skein, counting an arrival if owed. -/
  | leave (sd sa : BitVec 6)
  /-- BAR_NEW (R292): Obtains a handle to the skein's barrier. -/
  | barNew (sd : BitVec 6) (pk : BitVec 4) (sa : BitVec 6)
  /-- BAR_ARV (R293): Arrives at the skein's barrier as a release. -/
  | barArv (sd sa : BitVec 6)
  /-- BAR_WT (R294): Waits for a barrier phase to complete. -/
  | barWt (sd sa sb : BitVec 6)
  /-- BAR_REL (R295): Drops the strand's barrier reference. -/
  | barRel (sa : BitVec 6)
  /-- MPATH (R297): Finds the merge-path split point for a diagonal. -/
  | mpath (sd sa sb : BitVec 6)
  /-- LQ_POST (R379): Posts a launch descriptor to a DEVICE-mode queue. -/
  | lqPost (sd sa sb : BitVec 6)
  /-- PNL_DEF (R319): Defines a panel over extent storage. -/
  | pnlDef (sd : BitVec 6) (pk : BitVec 4) (sa : BitVec 6)
  /-- KVB_MAP (R323): Looks up or allocates a block-table slot for a name. -/
  | kvbMap (sd : BitVec 6) (pk : BitVec 4) (alloc : Bool) (sa : BitVec 6)
  /-- KVB_SHARE (R323): Maps a new name to an existing block's slot. -/
  | kvbShare (sd sa sb : BitVec 6)
  /-- KVB_FREE (R323): Unmaps a name and frees the slot at zero references. -/
  | kvbFree (sd sa : BitVec 6)
  /-- KVB_INVAL (R323): Clears position-valid bits of a block. -/
  | kvbInval (sd sa sb : BitVec 6)
  /-- NET_POST (R406): Posts a network work request. -/
  | netPost (sd sa : BitVec 6)
  /-- NET_WAIT (R411): Waits on a completion counter. -/
  | netWait (sd sa sb : BitVec 6)
  /-- MSG_SEND (R434): Posts a Shuttle message send record. -/
  | msgSend (sd sa : BitVec 6)
  /-- MSG_RECV (R434): Posts a Shuttle receive record to a mailbox. -/
  | msgRecv (sd sa : BitVec 6)
  /-- NOP (R30): Hint no-op word of major 0x3E that does nothing. -/
  | nop (x : BitVec 26)
  /-- VNOP (R173): Long-form V no-op. -/
  | vnop (f : VFields)
  /-- VSEAM (R173): Long-form V seam marker. -/
  | vseam (f : VFields)
  /-- VHALT (R173): Halts the V sequencer until the strand ends or stops. -/
  | vhalt (f : VFields)
  /-- VWAIT (R173): Waits until a semaphore reaches a threshold without decrementing. -/
  | vwait (f : VFields)
  /-- VSIG (R173): Signals a semaphore after earlier V work is performed. -/
  | vsig (f : VFields)
  /-- VJMP (R173): Jumps by a parcel displacement. -/
  | vjmp (f : VFields)
  /-- VLOOP (R174): Starts a V hardware loop. -/
  | vloop (f : VFields)
  /-- VMOV (R175): Moves active elements. -/
  | vmov (f : VFields)
  /-- VMOVI (R175): Fills active elements with a literal. -/
  | vmovi (f : VFields)
  /-- VINS (R175): Inserts element 0 of va at an index of vd. -/
  | vins (f : VFields)
  /-- VSWAP (R175): Exchanges active elements of two registers. -/
  | vswap (f : VFields)
  /-- VPOP (R176): Pops a stream-register entry into vd. -/
  | vpop (f : VFields)
  /-- VPUSH (R176): Appends 8 bytes to a vq queue. -/
  | vpush (f : VFields)
  /-- VQDROP (R176): Pops and discards a stream-register entry. -/
  | vqdrop (f : VFields)
  /-- VADD (R177): Element-wise addition. -/
  | vadd (f : VFields)
  /-- VSUB (R177): Element-wise subtraction. -/
  | vsub (f : VFields)
  /-- VMUL (R177): Element-wise multiplication. -/
  | vmul (f : VFields)
  /-- VMULH (R177): High half of integer products. -/
  | vmulh (f : VFields)
  /-- VFMA (R177): Fused c + a·b. -/
  | vfma (f : VFields)
  /-- VFMS (R177): Fused a·b − c. -/
  | vfms (f : VFields)
  /-- VFNMA (R177): Fused c − a·b. -/
  | vfnma (f : VFields)
  /-- VMIN (R177): Element-wise minimum. -/
  | vmin (f : VFields)
  /-- VMAX (R177): Element-wise maximum. -/
  | vmax (f : VFields)
  /-- VABS (R177): Element-wise absolute value. -/
  | vabs (f : VFields)
  /-- VNEG (R177): Element-wise negation. -/
  | vneg (f : VFields)
  /-- VAVG (R177): Element-wise average. -/
  | vavg (f : VFields)
  /-- VABSD (R177): Element-wise absolute difference. -/
  | vabsd (f : VFields)
  /-- VCLAMP (R177): Clamps a between b and c. -/
  | vclamp (f : VFields)
  /-- VSIGN (R177): Applies the sign of b to a. -/
  | vsign (f : VFields)
  /-- VSCALE (R180): Multiplies by a power of two. -/
  | vscale (f : VFields)
  /-- VDOT4 (R178): Four-term dot products into 32-bit elements. -/
  | vdot4 (f : VFields)
  /-- VDOT2 (R178): Two-term dot products into 32-bit elements. -/
  | vdot2 (f : VFields)
  /-- VMULW (R179): Widening multiplication into two registers. -/
  | vmulw (f : VFields)
  /-- VADDW (R179): Widening addition into two registers. -/
  | vaddw (f : VFields)
  /-- VRINT (R180): Rounds to an integral value in the type. -/
  | vrint (f : VFields)
  /-- VMULQ (R177): Saturating rounded fixed-point multiply. -/
  | vmulq (f : VFields)
  /-- VLUT (R180): Table lookup indexed by bytes of vb. -/
  | vlut (f : VFields)
  /-- VFREXP (R180): Extracts the binary exponent. -/
  | vfrexp (f : VFields)
  /-- VCMP_EQ (R181): Equality compare into a mask. -/
  | vcmpEq (f : VFields)
  /-- VCMP_NE (R181): Inequality compare into a mask. -/
  | vcmpNe (f : VFields)
  /-- VCMP_LT (R181): Less-than compare into a mask. -/
  | vcmpLt (f : VFields)
  /-- VCMP_LE (R181): Less-or-equal compare into a mask. -/
  | vcmpLe (f : VFields)
  /-- VCMP_UNORD (R181): Marks elements where an operand is a NaN. -/
  | vcmpUnord (f : VFields)
  /-- VCMP_ORD (R181): Marks elements where neither operand is a NaN. -/
  | vcmpOrd (f : VFields)
  /-- VSEL (R175): Selects va or vb per mask bit. -/
  | vsel (f : VFields)
  /-- VCLASS (R182): Marks elements whose class is in a literal set. -/
  | vclass (f : VFields)
  /-- KAND (R183): ANDs two masks. -/
  | kand (f : VFields)
  /-- KOR (R183): ORs two masks. -/
  | kor (f : VFields)
  /-- KXOR (R183): XORs two masks. -/
  | kxor (f : VFields)
  /-- KNOT (R183): Inverts a mask. -/
  | knot (f : VFields)
  /-- KPOPC (R183): Counts active elements of a mask. -/
  | kpopc (f : VFields)
  /-- KFIRST (R183): Keeps only the lowest set mask bit. -/
  | kfirst (f : VFields)
  /-- VTOK (R183): Converts nonzero elements to mask bits. -/
  | vtok (f : VFields)
  /-- KTOV (R183): Converts mask bits to all-ones elements. -/
  | ktov (f : VFields)
  /-- KSET (R183): Sets the first c elements of a mask. -/
  | kset (f : VFields)
  /-- VAND (R184): Element-wise AND. -/
  | vand (f : VFields)
  /-- VOR (R184): Element-wise OR. -/
  | vor (f : VFields)
  /-- VXOR (R184): Element-wise XOR. -/
  | vxor (f : VFields)
  /-- VNOT (R184): Element-wise NOT. -/
  | vnot (f : VFields)
  /-- VANDN (R184): Element-wise a AND NOT b. -/
  | vandn (f : VFields)
  /-- VBSEL (R184): Bitwise select by the third source. -/
  | vbsel (f : VFields)
  /-- VSHL (R184): Per-element left shift. -/
  | vshl (f : VFields)
  /-- VSHR (R184): Per-element logical right shift. -/
  | vshr (f : VFields)
  /-- VSRA (R184): Per-element arithmetic right shift. -/
  | vsra (f : VFields)
  /-- VCLZ (R184): Per-element leading zeros. -/
  | vclz (f : VFields)
  /-- VPOPC (R184): Per-element population count. -/
  | vpopc (f : VFields)
  /-- VBREV (R184): Per-element bit reversal. -/
  | vbrev (f : VFields)
  /-- VCVT (R185): Converts elements between formats. -/
  | vcvt (f : VFields)
  /-- VPACK (R186): Narrows and packs two registers. -/
  | vpack (f : VFields)
  /-- VUNPK (R179): Widens elements into two registers. -/
  | vunpk (f : VFields)
  /-- VMXQ (R187): Quantises 1,024 elements into MX blocks. -/
  | vmxq (f : VFields)
  /-- VMXD (R187): Dequantises MX blocks. -/
  | vmxd (f : VFields)
  /-- VRQ (R188): Requantises FP32 elements to INT8 or INT4. -/
  | vrq (f : VFields)
  /-- VEXP2 (R189): Correctly rounded 2^a. -/
  | vexp2 (f : VFields)
  /-- VLOG2 (R189): Correctly rounded log2 a. -/
  | vlog2 (f : VFields)
  /-- VRCP (R189): Correctly rounded reciprocal. -/
  | vrcp (f : VFields)
  /-- VRSQ (R189): Correctly rounded reciprocal square root. -/
  | vrsq (f : VFields)
  /-- VSQRT (R189): Correctly rounded square root. -/
  | vsqrt (f : VFields)
  /-- VSIN (R189): Correctly rounded sine. -/
  | vsin (f : VFields)
  /-- VCOS (R189): Correctly rounded cosine. -/
  | vcos (f : VFields)
  /-- VTANH (R189): Correctly rounded hyperbolic tangent. -/
  | vtanh (f : VFields)
  /-- VSIGM (R189): Correctly rounded logistic sigmoid. -/
  | vsigm (f : VFields)
  /-- VERF (R189): Correctly rounded error function. -/
  | verf (f : VFields)
  /-- VROT (R191): Rotates elements along an axis. -/
  | vrot (f : VFields)
  /-- VBCST (R191): Broadcasts one element along an axis or register. -/
  | vbcst (f : VFields)
  /-- VRSUM (R192): Sum reduction along an axis. -/
  | vrsum (f : VFields)
  /-- VRMAX (R192): Maximum reduction. -/
  | vrmax (f : VFields)
  /-- VRMIN (R192): Minimum reduction. -/
  | vrmin (f : VFields)
  /-- VRMAXI (R193): Maximum reduction carrying an index. -/
  | vrmaxi (f : VFields)
  /-- VRMINI (R193): Minimum reduction carrying an index. -/
  | vrmini (f : VFields)
  /-- VSCAN (R194): Inclusive prefix sums. -/
  | vscan (f : VFields)
  /-- VSHFT (R191): Shifts elements along an axis with zero fill. -/
  | vshft (f : VFields)
  /-- VRSUMW (R192): Widening sum reduction. -/
  | vrsumw (f : VFields)
  /-- VPERM (R195): Permutes elements by an index vector. -/
  | vperm (f : VFields)
  /-- VTRN (R195): Transposes elements within blocks. -/
  | vtrn (f : VFields)
  /-- VZIP (R195): Interleaves two registers. -/
  | vzip (f : VFields)
  /-- VUZP (R195): De-interleaves two registers. -/
  | vuzp (f : VFields)
  /-- VCXS (R196): One bitonic compare-exchange stage with payloads. -/
  | vcxs (f : VFields)
  /-- VCOMP (R197): Compresses active elements. -/
  | vcomp (f : VFields)
  /-- VEXPD (R197): Expands elements into active positions. -/
  | vexpd (f : VFields)
  /-- VRAND (R198): Fills lanes with Philox random bits. -/
  | vrand (f : VFields)
  /-- VLD (R200): Contiguous vector load. -/
  | vld (f : VFields)
  /-- VLDS (R200): Row-strided vector load. -/
  | vlds (f : VFields)
  /-- VST (R200): Contiguous vector store. -/
  | vst (f : VFields)
  /-- VSTS (R200): Row-strided vector store. -/
  | vsts (f : VFields)
  /-- VLDX (R201): Gather load. -/
  | vldx (f : VFields)
  /-- VSTX (R201): Scatter store. -/
  | vstx (f : VFields)
  /-- KLD (R203): Loads a mask from memory. -/
  | kld (f : VFields)
  /-- KST (R203): Stores a mask to memory. -/
  | kst (f : VFields)
  /-- VSTM (R202): Stores active elements contiguously. -/
  | vstm (f : VFields)
  /-- V_HINT (R42): Long-map hint no-op cell. -/
  | vHint (w : VRaw)
  /-- VNOP_SHORT (R43): Short V no-op. -/
  | vnopShort
  /-- VSEAM_SHORT (R50): Short V seam marker. -/
  | vseamShort (id : BitVec 22)
  /-- VHALT_SHORT (R43): Short V halt. -/
  | vhaltShort
  /-- VMOV_SHORT (R43): Moves a whole register. -/
  | vmovShort (vd va : BitVec 11)
  /-- VSWAP_SHORT (R43): Exchanges whole registers. -/
  | vswapShort (vd va : BitVec 11)
  /-- VPOP_SHORT (R43): Pops a q entry into a whole register. -/
  | vpopShort (vd va : BitVec 11)
  /-- VQDROP_SHORT (R43): Pops and discards a q entry. -/
  | vqdropShort (va : BitVec 11)
  /-- VNOT_SHORT (R43): Whole-register NOT. -/
  | vnotShort (vd va : BitVec 11)
  /-- VAND_SHORT (R43): Whole-register AND into vd. -/
  | vandShort (vd va : BitVec 11)
  /-- VOR_SHORT (R43): Whole-register OR into vd. -/
  | vorShort (vd va : BitVec 11)
  /-- VXOR_SHORT (R43): Whole-register XOR into vd. -/
  | vxorShort (vd va : BitVec 11)
  /-- VANDN_SHORT (R43): Whole-register AND NOT into vd. -/
  | vandnShort (vd va : BitVec 11)
  /-- KAND_SHORT (R43): mk := mk AND ma. -/
  | kandShort (mk ma : BitVec 4)
  /-- KOR_SHORT (R43): mk := mk OR ma. -/
  | korShort (mk ma : BitVec 4)
  /-- KXOR_SHORT (R43): mk := mk XOR ma. -/
  | kxorShort (mk ma : BitVec 4)
  /-- KNOT_SHORT (R43): mk := NOT ma. -/
  | knotShort (mk ma : BitVec 4)
  /-- VADD_F32_SHORT (R43): vd := vd + va in FP32 at RNE. -/
  | vaddF32Short (vd va : BitVec 11)
  /-- VSUB_F32_SHORT (R43): vd := vd − va in FP32. -/
  | vsubF32Short (vd va : BitVec 11)
  /-- VMUL_F32_SHORT (R43): vd := vd · va in FP32. -/
  | vmulF32Short (vd va : BitVec 11)
  /-- VMIN_F32_SHORT (R43): FP32 minimum into vd. -/
  | vminF32Short (vd va : BitVec 11)
  /-- VMAX_F32_SHORT (R43): FP32 maximum into vd. -/
  | vmaxF32Short (vd va : BitVec 11)
  /-- VABS_F32_SHORT (R43): FP32 absolute value. -/
  | vabsF32Short (vd va : BitVec 11)
  /-- VNEG_F32_SHORT (R43): FP32 negation. -/
  | vnegF32Short (vd va : BitVec 11)
  /-- VEXP2_F32_SHORT (R43): FP32 2^a. -/
  | vexp2F32Short (vd va : BitVec 11)
  /-- VADD_BF16_SHORT (R43): BF16 addition into vd. -/
  | vaddBf16Short (vd va : BitVec 11)
  /-- VSUB_BF16_SHORT (R43): BF16 subtraction into vd. -/
  | vsubBf16Short (vd va : BitVec 11)
  /-- VMUL_BF16_SHORT (R43): BF16 multiplication into vd. -/
  | vmulBf16Short (vd va : BitVec 11)
  /-- VMIN_BF16_SHORT (R43): BF16 minimum into vd. -/
  | vminBf16Short (vd va : BitVec 11)
  /-- VMAX_BF16_SHORT (R43): BF16 maximum into vd. -/
  | vmaxBf16Short (vd va : BitVec 11)
  /-- VADD_I32_SHORT (R43): INT32 addition into vd. -/
  | vaddI32Short (vd va : BitVec 11)
  /-- VSUB_I32_SHORT (R43): INT32 subtraction into vd. -/
  | vsubI32Short (vd va : BitVec 11)
  /-- VMUL_I32_SHORT (R43): INT32 multiplication into vd. -/
  | vmulI32Short (vd va : BitVec 11)
  /-- VMIN_I32_SHORT (R43): INT32 minimum into vd. -/
  | vminI32Short (vd va : BitVec 11)
  /-- VMAX_I32_SHORT (R43): INT32 maximum into vd. -/
  | vmaxI32Short (vd va : BitVec 11)
  /-- VADD_I16_SHORT (R43): INT16 addition into vd. -/
  | vaddI16Short (vd va : BitVec 11)
  /-- VSUB_I16_SHORT (R43): INT16 subtraction into vd. -/
  | vsubI16Short (vd va : BitVec 11)
  /-- VADD_I8_SHORT (R43): INT8 addition into vd. -/
  | vaddI8Short (vd va : BitVec 11)
  /-- VSUB_I8_SHORT (R43): INT8 subtraction into vd. -/
  | vsubI8Short (vd va : BitVec 11)
  /-- V_HINT_SHORT (R43): Short-map hint no-op cell. -/
  | vHintShort (op : BitVec 4) (vd va : BitVec 11)
  /-- MNOP (R231): M word that only waits and signals. -/
  | mnop (f : MFields)
  /-- MHALT (R231): Stops the M sequencer starting words. -/
  | mhalt (f : MFields)
  /-- MSEAM (R231): M-stream seam marker. -/
  | mseam (f : MFields)
  /-- MREPLY (R232): Posts a payload to rq. -/
  | mreply (f : MFields)
  /-- MLOOP (R233): Starts an M hardware loop from a count or popped entry. -/
  | mloop (f : MFields)
  /-- MEND (R233): Ends an M loop iteration. -/
  | mend (f : MFields)
  /-- MJMP (R234): Jumps by a word displacement. -/
  | mjmp (f : MFields)
  /-- MFENCE (R231): Waits for all earlier M words to complete. -/
  | mfence (f : MFields)
  /-- MBRK (R235): Stops the M sequencer with a BRK fault entry. -/
  | mbrk (f : MFields)
  /-- QSTEP (R241): Performs one Quern step on 8-bit or FP4 lanes. -/
  | qstep (f : MFields)
  /-- QSTEP_I4 (R241): Performs one Quern step on INT4 lanes into two tiles. -/
  | qstepI4 (f : MFields)
  /-- QDRAIN (R244): Waits for earlier words and empties every slot. -/
  | qdrain (f : MFields)
  /-- M_BOLT (R245): Builds N steering tiles through the Bolter. -/
  | mBolt (f : MFields)
  /-- QCB (R246): Replaces a steering tile's codebooks and scale. -/
  | qcb (f : MFields)
  /-- QSCL (R238): Replaces a slot's scale array. -/
  | qscl (f : MFields)
  /-- QWIN (R237): Fills a gather-window slot. -/
  | qwin (f : MFields)
  /-- QREL (R239): Releases a gather-window slot. -/
  | qrel (f : MFields)
  /-- QSKIP (R242): Advances the rotation number of later steps. -/
  | qskip (f : MFields)
  /-- QNZ (R243): Replies with a steering tile's entry counts. -/
  | qnz (f : MFields)
  /-- MMA_I8 (R248): Dense INT8 matrix multiply-accumulate. -/
  | mmaI8 (f : MFields)
  /-- MMA_E4M3 (R248): Dense E4M3 matrix multiply-accumulate. -/
  | mmaE4m3 (f : MFields)
  /-- MMA_E5M2 (R248): Dense E5M2 matrix multiply-accumulate. -/
  | mmaE5m2 (f : MFields)
  /-- MMA_BF16 (R248): Dense BF16 matrix multiply-accumulate. -/
  | mmaBf16 (f : MFields)
  /-- MMA_MX4 (R248): Dense MXFP4 matrix multiply-accumulate with scales. -/
  | mmaMx4 (f : MFields)
  /-- MMA_G_I8 (R250): Gathered-row INT8 multiply-accumulate. -/
  | mmaGI8 (f : MFields)
  /-- MMA_G_E4M3 (R250): Gathered-row E4M3 multiply-accumulate. -/
  | mmaGE4m3 (f : MFields)
  /-- MMA_G_E5M2 (R250): Gathered-row E5M2 multiply-accumulate. -/
  | mmaGE5m2 (f : MFields)
  /-- MMA_G_BF16 (R250): Gathered-row BF16 multiply-accumulate. -/
  | mmaGBf16 (f : MFields)
  /-- MMA_G_MX4 (R250): Gathered-row MXFP4 multiply-accumulate. -/
  | mmaGMx4 (f : MFields)
  /-- MMA_MSK_I8 (R251): Masked INT8 multiply-accumulate. -/
  | mmaMskI8 (f : MFields)
  /-- MMA_MSK_E4M3 (R251): Masked E4M3 multiply-accumulate. -/
  | mmaMskE4m3 (f : MFields)
  /-- MMA_MSK_E5M2 (R251): Masked E5M2 multiply-accumulate. -/
  | mmaMskE5m2 (f : MFields)
  /-- MMA_MSK_BF16 (R251): Masked BF16 multiply-accumulate. -/
  | mmaMskBf16 (f : MFields)
  /-- MMA_MSK_MX4 (R251): Masked MXFP4 multiply-accumulate. -/
  | mmaMskMx4 (f : MFields)
  /-- MMLD (R249): Copies a B tile into the Runner B buffer. -/
  | mmld (f : MFields)
  /-- YCLR (R253): Clears an accumulator tile. -/
  | yclr (f : MFields)
  /-- YLD (R253): Loads an accumulator tile from core store. -/
  | yld (f : MFields)
  /-- YST (R253): Stores an accumulator tile to core store. -/
  | yst (f : MFields)
  /-- YMOV (R253): Copies one accumulator tile to another. -/
  | ymov (f : MFields)
  /-- YADD (R253): Adds one accumulator tile into another. -/
  | yadd (f : MFields)
  /-- YMAX (R253): Element-wise maximum of two tiles. -/
  | ymax (f : MFields)
  /-- YFILL (R253): Fills a tile from a row or column vector. -/
  | yfill (f : MFields)
  /-- YRED (R254): Reduces a tile along an axis to core store. -/
  | yred (f : MFields)
  /-- YSCL (R253): Scales a tile by a power of two. -/
  | yscl (f : MFields)
  /-- YSWAP (R253): Exchanges two accumulator tiles. -/
  | yswap (f : MFields)
  /-- EPI (R256): Drains a tile to core store with scaling and conversion. -/
  | epi (f : MFields)
  /-- MTRN (R252): Transposes a data tile. -/
  | mtrn (f : MFields)
  /-- M_HINT (R49): M-map hint no-op word. -/
  | mHint (w : BitVec 192)
  /-- M_WORD_COMPLETION (R224): A started M word finishes its writes and performs its signal and reply in order. -/
  | mWordCompletion (core : BitVec 8)
  /-- ACCESS_COMPLETION (R87): An outstanding memory request's reply or acknowledgement returns and writes its destination. -/
  | accessCompletion (core : BitVec 8) (id : Nat) (reply : Reply)
  /-- COPY_START (R112): The copy unit starts a queued command once its wait holds and earlier commands have started. -/
  | copyStart (core : BitVec 8)
  /-- COPY_COMPLETION (R112): A copy command's writes complete and its signal is performed in issue order. -/
  | copyCompletion (core : BitVec 8)
  /-- COPY_FAULT (R114): A running copy meets a fault and stops, recording the COPY trap. -/
  | copyFault (core : BitVec 8)
  /-- TRAP_DELIVERY (R265): A pending trap is delivered to the handler or kills the strand. -/
  | trapDelivery (core : BitVec 8)
  /-- DISTRIBUTOR_SELECTION (R280): Every 2 ac the distributor selects the front READY bobbin for an idle core. -/
  | distributorSelection
  /-- BINDING (R67): A SELECTED bobbin becomes BOUND once its save area is resident and its state restored. -/
  | binding (core : BitVec 8)
  /-- EXPRESS_PREEMPTION (R281): A stop with cause 1 is posted for an uncovered level-127 bobbin. -/
  | expressPreemption
  /-- STARVATION_PREEMPTION (R282): A READY bobbin's wait clock reaches STARV and a cause-2 stop is posted. -/
  | starvationPreemption (slot : Nat)
  /-- PROGRESS_STOP (R283): A covered wait reaches the progress interval and a stop with cause 5-7 is posted. -/
  | progressStop (slot : Nat)
  /-- STOP_COMPLETION (R72): A stop completes after streams reach the seam and accesses drain, and the record is written. -/
  | stopCompletion (core : BitVec 8)
  /-- STOP_TIMEOUT (R267): A stop or EXIT not complete after 2 ms raises SEAM_INTEGRITY and loses the strand. -/
  | stopTimeout (core : BitVec 8)
  /-- MONITOR_WAKE (R75): A write visible at DIE scope to a monitored line wakes the bobbin. -/
  | monitorWake (slot : Nat)
  /-- WAIT_M_RECHECK (R77): A waiting WAIT.M re-reads its location on a write or after 1 µs. -/
  | waitMRecheck (core : BitVec 8)
  /-- FRAME_FILL (R130): A claimed frame finishes its zero-fill. -/
  | frameFill (core : BitVec 8) (unit : Nat)
  /-- FRAME_SAVE (R131): A HELD frame finishes its write to the owner's save area. -/
  | frameSave (core : BitVec 8) (owner unit : Nat) (uncorr : Bool)
  /-- FRAME_LOAD (R133): A saved unit finishes loading at binding. -/
  | frameLoad (core : BitVec 8) (unit : Nat) (uncorr : Bool)
  /-- CORE_OFFLINE (R300): An uncorrectable error in core state takes the core offline. -/
  | coreOffline (core : BitVec 8)
  /-- PAGE_RESIDENT (R314): The memory processor makes a requested page resident. -/
  | pageResident (backing page : Nat)
  /-- LANE_SWAP (R326): A lane whose replays pass the threshold is swapped for a spare. -/
  | laneSwap (link : LinkName)
  /-- VAULT_COLUMN_TRAINING (R327): A vault column finishes retraining after a warm reset. -/
  | vaultColumnTraining (vault : BitVec 6) (column : BitVec 3) (spares : BitVec 5) (failed : Bool)
  /-- PATROL_SCRUB (R328): The patrol scrub reads and corrects a memory word. -/
  | patrolScrub (addr : BitVec 48) (result : ScrubResult)
  /-- WQ_TAIL_WRITE (R363): A TAIL write rings a work queue's doorbell. -/
  | wqTailWrite (by_ : Issuer) (q : BitVec 12) (value : Word)
  /-- WQ_CFG_WRITE (R361): A write to wq.cfg enables or disables a queue and clears errors. -/
  | wqCfgWrite (fn : BitVec 6) (q : BitVec 12) (value : Word)
  /-- ABORT (R369): Writing ABORT cancels the launch at the head of the queue. -/
  | abort (fn : BitVec 6) (q : BitVec 12)
  /-- DISPATCH_STEP (R368): The queue processor performs one dispatch step for the chosen queue. -/
  | dispatchStep
  /-- CONDITION_EVALUATION (R371): The queue processor re-evaluates a waiting launch's conditions. -/
  | conditionEvaluation (q : BitVec 12)
  /-- LAUNCH_COMPLETION (R375): A launch completes, writing its record and performing its signal actions. -/
  | launchCompletion (launch : Nat)
  /-- HOST_ACCESS (R384): The host reads or writes device memory through the port. -/
  | hostAccess (acc : HostAcc)
  /-- ALLOC (R386): Mailbox command that allocates frames and returns a handle. -/
  | alloc (fn : BitVec 6)
  /-- FREE (R386): Mailbox command that frees a handle. -/
  | free (fn : BitVec 6)
  /-- BACK (R386): Mailbox command that backs a page by a host-window frame. -/
  | back (fn : BitVec 6)
  /-- EVICT (R386): Mailbox command that copies a page to the host and clears RES. -/
  | evict (fn : BitVec 6)
  /-- FETCH (R386): Mailbox command that copies a page from the host and sets RES. -/
  | fetch (fn : BitVec 6) (bytes : List Byte)
  /-- QUERY (R386): Mailbox command that returns a page's frame entry. -/
  | query (fn : BitVec 6)
  /-- GRANT (R386): Mailbox command that grants or revokes a physical range for a function. -/
  | grant (fn : BitVec 6)
  /-- QUEUE (R386): Mailbox command that sets a queue's function and priority. -/
  | queue (fn : BitVec 6)
  /-- ATTEST (R394): Mailbox command that writes a signed attestation report. -/
  | attest (fn : BitVec 6) (salt : List Byte)
  /-- KVCLEAR (R332): Mailbox command that unmaps every block-table name of a function. -/
  | kvclear (fn : BitVec 6)
  /-- EV_HEAD_WRITE (R388): The host advances the event-ring HEAD, letting pending PAGE events be written. -/
  | evHeadWrite (value : BitVec 32)
  /-- MILLER_ACCESS (R391): A Miller load or store is checked against its allowed ranges. -/
  | millerAccess (addr : Word) (size : MemSize) (store : Option Word)
  /-- BT_GO (R396): Writing GO starts built-in test, identity and the firmware check. -/
  | btGo
  /-- BOOT_SEQUENCE_END (R396): The boot sequence ends, BUSY clears and vector 0 is sent. -/
  | bootSequenceEnd (result : BootResult)
  /-- COLD (R395): Writing rs.ctl COLD starts a cold reset. -/
  | cold
  /-- WARM (R395): Writing rs.ctl WARM starts a warm reset. -/
  | warm
  /-- COLD_RESET_INPUT (R395): Power-on or PERST# causes a cold reset. -/
  | coldResetInput
  /-- FUNCTION_LEVEL_RESET (R395): A PCI Express FLR resets one function. -/
  | functionLevelReset (fn : BitVec 6)
  /-- POWER_CLAMP (R398): Every 10 µs while power exceeds PLIM a clock steps down 50 MHz. -/
  | powerClamp (watts : BitVec 12)
  /-- THERMAL_CLAMP (R398): Every 10 µs above 105 °C the hot layer's clock steps down. -/
  | thermalClamp (layer : Layer) (sixteenths : BitVec 16)
  /-- EMERGENCY_CLAMP (R398): A sensor above 115 °C drops every layer to 500 MHz. -/
  | emergencyClamp (layer : Layer) (sixteenths : BitVec 16)
  /-- CLAMP_RELEASE (R398): Every 100 µs after a clamp clears the clock rises 50 MHz. -/
  | clampRelease (layer : Layer)
  /-- CLOCK_CHANGE (R397): A requested layer clock change takes effect. -/
  | clockChange (layer : Layer)
  /-- TEMPERATURE_SAMPLE (R142): The column sensor is sampled every 1 µs into c.ctemp. -/
  | temperatureSample (core : BitVec 8) (sixteenths : BitVec 16)
  /-- SEND (R409): The engine runs a SEND request from its send queue. -/
  | send (ep : BitVec 10)
  /-- WRITE (R409): The engine runs an RMA WRITE request. -/
  | write (ep : BitVec 10)
  /-- RECV (R409): The engine takes a RECV request as a matchable buffer. -/
  | recv (ep : BitVec 10)
  /-- EXPOSE (R408): The engine exposes a region under a key. -/
  | expose (ep : BitVec 10)
  /-- WITHDRAW (R408): The engine removes an exposed key. -/
  | withdraw (ep : BitVec 10)
  /-- PACKET_ARRIVAL (R409): A UET packet arrives and is matched, placed and acknowledged. -/
  | packetArrival (p : Packet)
  /-- PACKET_ACKNOWLEDGEMENT (R409): An acknowledgement arrives and may complete a request or trigger fast retransmission. -/
  | packetAcknowledgement (req : Nat) (index : Nat) (ack : PacketAck)
  /-- PACKET_TIMEOUT (R410): A packet unacknowledged for 50 µs is retransmitted or the request fails. -/
  | packetTimeout (req : Nat) (index : Nat)
  /-- NOT_READY_RETRY (R410): A refused SEND is retried every 10 µs up to 64 tries. -/
  | notReadyRetry (req : Nat)
  /-- LINK_STATE_CHANGE (R415): A peer link goes down or comes up. -/
  | linkStateChange (port : BitVec 4) (up : Bool)
  /-- LINK_STATE_NOTICE (R415): A part learns of a link or part state change and resets its stream state. -/
  | linkStateNotice (part : BitVec 10) (dim : BitVec 4) (up : Bool) (news : PartNews)
  /-- RST (R416): Writing RST retrains a peer link. -/
  | rst (port : BitVec 4) (miller : Bool)
  /-- RELAB_WRITE (R414): A write to pf.relab changes the relabelling unless PERM is invalid. -/
  | relabWrite (value : Word) (miller : Bool)
  /-- FLIT_DROP (R415): A forwarded flit waiting over 1 µs is dropped. -/
  | flitDrop (port : BitVec 4)
  /-- FRAGMENT_ARRIVAL (R428): A stripe fragment arrives and is buffered or decoded and performed. -/
  | fragmentArrival (frag : Fragment)
  /-- STRIPE_ACKNOWLEDGEMENT (R429): A stripe's acknowledgement reaches the source. -/
  | stripeAcknowledgement (dst : BitVec 10) (seq : BitVec 32) (ack : StripeAck)
  /-- RECEIVER_TIMEOUT (R429): A decode buffer short of k fragments after TMO requests retransmission. -/
  | receiverTimeout (src : BitVec 10) (seq : BitVec 32)
  /-- DECODE_BUFFER_FREE (R429): A buffer still short after a further TMO is freed. -/
  | decodeBufferFree (src : BitVec 10) (seq : BitVec 32)
  /-- SENDER_RETRANSMISSION (R429): A source with no acknowledgement after 3 × TMO resends the stripe. -/
  | senderRetransmission (dst : BitVec 10) (seq : BitVec 32)
  /-- RETRANSMISSION_REQUEST (R429): A receiver's retransmission request reaches the source. -/
  | retransmissionRequest (dst : BitVec 10) (seq : BitVec 32)
  /-- STRIPE_LOSS (R430): A stripe unacknowledged 3 × TMO after its retransmission is lost. -/
  | stripeLoss (dst : BitVec 10) (seq : BitVec 32)
  /-- LOSS_NOTICE (R431): A loss notice reaches the target, which marks the stream broken. -/
  | lossNotice (src : BitVec 10) (seq : BitVec 32) (kind : LostKind) (number : Nat)
  /-- HOLD_EXPIRY (R449): Held traffic for an unreachable label is declared lost after sv.hold. -/
  | holdExpiry (label : BitVec 10)
  /-- MESSAGE_REFUSAL_RETRY (R435): A refused message is retried every 10 µs up to 64 times. -/
  | messageRefusalRetry (msg : Nat)
  /-- MANAGEMENT_MESSAGE_SEND (R437): Writing GO in pf.mctl sends a management message. -/
  | managementMessageSend (value : Word)
  /-- MANAGEMENT_MESSAGE_ARRIVAL (R437): A management message lands in the target Miller's ring. -/
  | managementMessageArrival (src : BitVec 10) (bytes : List Byte)
  /-- PARITY_UPDATE (R444): A parity update arrives at a holder and is XORed in and acknowledged. -/
  | parityUpdate (src : BitVec 10) (seq : BitVec 32) (upd : ParityUpd)
  /-- PARITY_ACKNOWLEDGEMENT (R445): A holder's acknowledgement makes a protected store durable. -/
  | parityAcknowledgement (dst : BitVec 10) (seq : BitVec 32) (refused : Bool)
  /-- PARITY_RESEND (R446): An unacknowledged parity update is resent every 3 × TMO. -/
  | parityResend (dst : BitVec 10) (seq : BitVec 32)
  /-- MEMBER_LOSS (R449): A group member is declared lost and the group becomes DEGRADED. -/
  | memberLoss (member : BitVec 3)
  /-- REBUILD (R453): Writing sv.rebuild GO starts the rebuild on a substitute. -/
  | rebuild
  /-- STRIPE_FREEZE (R454): A data owner answers a freeze after its updates of the stripe are acknowledged. -/
  | stripeFreeze (range : Bool) (stripe : Nat) (substitute : BitVec 10) (release : Bool)
  /-- STRIPE_REBUILD (R453): A frozen stripe's block is rebuilt and its P and Q sent. -/
  | stripeRebuild (range : Bool) (stripe : Nat) (blocks : List (Nat × List Byte))
  /-- SV_CFG_WRITE (R455): A write to sv.cfg enables or disables Selvedge under its rules. -/
  | svCfgWrite (value : Word)
  /-- REGISTER_WRITE (R3): A write to a host register with no behaviour of its own. -/
  | registerWrite (by_ : Issuer) (off : BitVec 26) (value : Word)
  /-- PF_SUBST_WRITE (R452): A write to a pf.subst entry redirects a logical label to a substitute and releases held traffic for it. -/
  | pfSubstWrite (k : BitVec 4) (value : Word) (miller : Bool)
  /-- MESSAGE_ENGINE_SEND (R434): The message engine takes the next posted send record in post order, reads its source and sends its stripes. -/
  | messageEngineSend
  /-- ETHERNET_LINK_STATE_CHANGE (R411): An Ethernet port's link goes down or comes up. -/
  | ethernetLinkStateChange (port : Bool) (up : Bool)
  /-- LOSS_NOTICE_REPEAT (R431): A loss notice not yet acknowledged by the target is sent again. -/
  | lossNoticeRepeat (dst : BitVec 10) (seq : BitVec 32) (kind : LostKind) (number : Nat)
  deriving DecidableEq, Repr

end Sys2Proof
end

