-- ==== Sys2Proof/Config.lean ====
section
/-! DEFINITION. What the manual leaves open, as constants without a body (assumption 2, 8, 9), and the counts that R1 fixes. -/

namespace Sys2Proof.Config

/-- Nanoseconds that pass on c.time with one step of the machine (R115 gives no rule for how many); indexed by the fresh counter. -/
opaque elapsed : Nat → Nat

/-- What a source whose events the model does not keep counts with one step (R141, R399): the source, the step, and the core, or 192 for
the die. -/
opaque eventCount : BitVec 8 → Nat → Nat → Nat

/-- The value of a correctly rounded transcendental result where the model's bounded computation cannot decide the rounding (R189). -/
opaque roundingCase : BitVec 8 → BitVec 32 → BitVec 32 → BitVec 32

/-- The sign of VTANH and VERF of −0, which R189 does not state; true is −0. -/
opaque oddZero : BitVec 8 → Bool

/-- A byte of the steering tile at which a Bolter pair mismatch is found: R209 and R245 call it partly written. The first index is the
fresh counter, the second the byte's offset in the tile. -/
opaque boltPartial : Nat → Nat → BitVec 8

/-- Entropy value of a transmitted packet (R410 says only that it is fresh). -/
opaque entropy : Nat → BitVec 32

/-- LASTERR of a SEND or WRITE whose source the engine may no longer read, for which R411 lists no status. -/
opaque localStatus : BitVec 8

/-- What the engines of the part read from a poisoned line, for which R329 has no row; indexed by the fresh counter and the address. -/
opaque poisonByte : Nat → Nat → BitVec 8

/-- Bytes of the firmware image's header, and what the header of an image says (R392 does not give its layout): whether magic, version and
size are right, the public key, and the entry. -/
opaque firmwareHeader : Nat
opaque headerSound : List (BitVec 8) → Bool
opaque headerKey : List (BitVec 8) → List (BitVec 8)
opaque imageEntry : List (BitVec 8) → BitVec 64

/-- The vendor key hash held in the boot ROM (R392). -/
opaque vendorHash : List (BitVec 8)

/-- RSASSA-PSS (R392, R394): whether a public key verifies the signature in a header over a hash, and the signature that a seed's device key
makes of a hash with a salt. -/
opaque signatureGood : List (BitVec 8) → List (BitVec 8) → List (BitVec 8) → Bool
opaque signature : BitVec 512 → List (BitVec 8) → List (BitVec 8) → Nat

/-- The PUF (R393): the helper data that an enrolment makes, indexed by the fresh counter, the seed that helper data gives, and the device
public key of a seed. -/
opaque pufHelper : Nat → BitVec 8192
opaque deviceSeed : BitVec 8192 → BitVec 512
opaque publicModulus : BitVec 512 → BitVec 4096
opaque publicExponent : BitVec 512 → BitVec 32

/-- What a repair map says (R396 does not give its layout): the physical core of each logical core (R298), the spare lanes left to each of the
512 columns (R326, R333) and those that the link of each core uses. -/
opaque mapCore : List (BitVec 8) → Nat → Fin 200
opaque mapSpares : List (BitVec 8) → Nat → Nat
opaque mapLanes : List (BitVec 8) → Nat → Nat

/-- The order attribute that another part has set for one of its physical addresses (R420), which its peers are not told; indexed by the
peer-window slot and the address. -/
opaque peerOrder : Nat → Nat → BitVec 2

/-- Link-layer replays of a peer port in a step (R415, R416), which no event of the table shows; indexed by the fresh counter and the port. -/
opaque replays : Nat → Nat → BitVec 16

/-- FAULT of a bobbin that a reserved STATE makes LOST, as a place in the list of R258's codes (R65 names none of them); indexed by the fresh
counter. -/
opaque reservedFault : Nat → Fin 21

/-- Logical cores of a die (R1). -/
abbrev cores : Nat := 192

/-- Slots of the bobbin pool (R62). -/
abbrev poolSlots : Nat := 262144

/-- Monitor entries of the cluster (R79). -/
abbrev monitorEntries : Nat := 4096

/-- Skein-directory entries (R286) and barriers (R290). -/
abbrev skeinEntries : Nat := 4096
abbrev barriers : Nat := 1024

/-- Active launches of the package (R369). -/
abbrev activeLaunches : Nat := 1024

/-- Bytes of a save area (R64). -/
abbrev saveArea : Nat := 0x241000

/-- Pending page requests (R314). -/
abbrev pageRequests : Nat := 4096

/-- Decode buffers (R428). -/
abbrev decodeBuffers : Nat := 512

end Sys2Proof.Config
end

