-- ==== Sys2Proof/Decode.lean ====
section
/-! DEFINITION. The encodings of the three streams: the words taken apart into fields, the opcode maps, the rules a field value must
meet (R16 to R50), decoding that is total on all bits, the encoder, and the word of an opcode-table row. -/

namespace Sys2Proof

/-- The decode traps of R16. -/
inductive DecodeFault where
  /-- Illegal instruction. -/
  | illegal
  /-- Illegal length. -/
  | illegalLen
  /-- Illegal operand. -/
  | illegalOp
  deriving DecidableEq, Repr

/-- An instruction under a condition on its bits. -/
def whenB (ok : Bool) (i : Instr) : Option Instr := if ok then some i else none

/-- The first fault of a list of checks (R17). -/
def firstFault : List (Bool × DecodeFault) → Option DecodeFault
  | [] => none
  | (bad, f) :: rest => if bad then some f else firstFault rest

/-! ## A words -/

/-- The fields of an A word in format AR; the other formats of R20 join neighbours of these. -/
structure AWord where
  maj : BitVec 6
  sd : BitVec 6
  sa : BitVec 6
  sb : BitVec 6
  minor : BitVec 8
  deriving DecidableEq, Repr

/-- R20. -/
def AWord.ofParcel (w : Parcel) : AWord :=
  ⟨w.extractLsb' 26 6, w.extractLsb' 20 6, w.extractLsb' 14 6, w.extractLsb' 8 6, w.extractLsb' 0 8⟩

/-- R20. -/
def AWord.toParcel (a : AWord) : Parcel := a.maj ++ a.sd ++ a.sa ++ a.sb ++ a.minor

/-- AI 13:0 (R20). -/
def AWord.imm14 (a : AWord) : BitVec 14 := a.sb ++ a.minor

/-- AL 19:0 (R20). -/
def AWord.imm20 (a : AWord) : BitVec 20 := a.sa ++ a.sb ++ a.minor

/-- AX 13:10 (R20). -/
def AWord.sub (a : AWord) : BitVec 4 := a.sb.extractLsb' 2 4

/-- AX 9:0 (R20). -/
def AWord.imm10 (a : AWord) : BitVec 10 := a.sb.extractLsb' 0 2 ++ a.minor

/-- AM 13:11 (R20). -/
def AWord.order (a : AWord) : BitVec 3 := a.sb.extractLsb' 3 3

/-- AM 10:0 (R20). -/
def AWord.off (a : AWord) : BitVec 11 := a.sb.extractLsb' 0 3 ++ a.minor

/-- BR 15:0 (R20). -/
def AWord.control (a : AWord) : BitVec 16 := a.sa.extractLsb' 0 2 ++ a.sb ++ a.minor

/-- A word of format AI. -/
def AWord.ofImm14 (maj sd sa : BitVec 6) (imm : BitVec 14) : AWord := ⟨maj, sd, sa, imm.extractLsb' 8 6, imm.extractLsb' 0 8⟩

/-- A word of format AL. -/
def AWord.ofImm20 (maj sd : BitVec 6) (imm : BitVec 20) : AWord :=
  ⟨maj, sd, imm.extractLsb' 14 6, imm.extractLsb' 8 6, imm.extractLsb' 0 8⟩

/-- A word of format AX. -/
def AWord.ofSub (maj sd sa : BitVec 6) (sub : BitVec 4) (imm : BitVec 10) : AWord :=
  ⟨maj, sd, sa, sub ++ imm.extractLsb' 8 2, imm.extractLsb' 0 8⟩

/-- A word of format AM. -/
def AWord.ofMem (maj sd sa : BitVec 6) (ord : BitVec 3) (off : BitVec 11) : AWord :=
  ⟨maj, sd, sa, ord ++ off.extractLsb' 8 3, off.extractLsb' 0 8⟩

/-- A word of format BR. -/
def AWord.ofBranch (b : BitVec 3) (pk : BitVec 4) (sense : Bool) (sel : BitVec 2) (ctl : BitVec 16) : AWord :=
  ⟨0x12, b ++ pk.extractLsb' 1 3, pk.extractLsb' 0 1 ++ BitVec.ofBool sense ++ sel ++ ctl.extractLsb' 14 2, ctl.extractLsb' 8 6,
    ctl.extractLsb' 0 8⟩

/-- A 4-bit name in a 6-bit field whose bits 5:4 are zero. -/
def wide6 (x : BitVec 4) : BitVec 6 := 0#2 ++ x

/-- Bits 5:4 of a field are zero. -/
def top2 (x : BitVec 6) : Bool := x.extractLsb' 4 2 == 0

/-- Bits 3:0 of a field. -/
def bot4 (x : BitVec 6) : BitVec 4 := x.extractLsb' 0 4

/-- R27, AMO minor 3:2. -/
def MemSize.ofCode (c : BitVec 2) : MemSize :=
  match c with
  | 0#2 => .b1
  | 1#2 => .b2
  | 2#2 => .b4
  | _ => .b8

/-- R27. -/
def MemSize.code : MemSize → BitVec 2
  | .b1 => 0
  | .b2 => 1
  | .b4 => 2
  | .b8 => 3

/-- The number of bytes of an access size. -/
def MemSize.bytes : MemSize → Nat
  | .b1 => 1
  | .b2 => 2
  | .b4 => 4
  | .b8 => 8

/-- R27, AMO minor 1:0. -/
def AmoOrder.ofCode (c : BitVec 2) : AmoOrder :=
  match c with
  | 0#2 => .plain
  | 1#2 => .acq
  | 2#2 => .rel
  | _ => .acqrel

/-- R27. -/
def AmoOrder.code : AmoOrder → BitVec 2
  | .plain => 0
  | .acq => 1
  | .rel => 2
  | .acqrel => 3

/-- R24. -/
def Hint.ofCode (c : BitVec 2) : Option Hint :=
  match c with
  | 0#2 => some .prepare
  | 1#2 => some .taken
  | 2#2 => some .notTaken
  | _ => none

/-- R24. -/
def Hint.code : Hint → BitVec 2
  | .prepare => 0
  | .taken => 1
  | .notTaken => 2

/-- R23: the order of a load and whether it is strict. -/
def loadOrder (c : BitVec 3) : Option (LdOrder × Bool) :=
  match c with
  | 0#3 => some (.plain, false)
  | 1#3 => some (.acq, false)
  | 2#3 => some (.sc, false)
  | 4#3 => some (.plain, true)
  | 5#3 => some (.acq, true)
  | 6#3 => some (.sc, true)
  | _ => none

/-- R23. -/
def LdOrder.code : LdOrder → BitVec 2
  | .plain => 0
  | .acq => 1
  | .sc => 2

/-- R23. -/
def StOrder.ofCode (c : BitVec 3) : Option StOrder :=
  match c with
  | 0#3 => some .plain
  | 1#3 => some .rel
  | 2#3 => some .sc
  | _ => none

/-- R23. -/
def StOrder.code : StOrder → BitVec 3
  | .plain => 0
  | .rel => 1
  | .sc => 2

/-- R27, FENCE imm 9:7. -/
def FenceScope.ofCode (c : BitVec 3) : Option FenceScope :=
  match c with
  | 0#3 => some .core
  | 1#3 => some .cluster
  | 2#3 => some .die
  | 3#3 => some .domain
  | 4#3 => some .survive
  | _ => none

/-- R27. -/
def FenceScope.code : FenceScope → BitVec 3
  | .core => 0
  | .cluster => 1
  | .die => 2
  | .domain => 3
  | .survive => 4

/-- R27, FENCE imm 6:5. -/
def FenceOrder.ofCode (c : BitVec 2) : FenceOrder :=
  match c with
  | 0#2 => .acq
  | 1#2 => .rel
  | 2#2 => .acqrel
  | _ => .sc

/-- R27. -/
def FenceOrder.code : FenceOrder → BitVec 2
  | .acq => 0
  | .rel => 1
  | .acqrel => 2
  | .sc => 3

/-- R27, QPOP sb 2:0. -/
def PopSrc.ofCode (c : BitVec 3) : Option PopSrc :=
  match c with
  | 0#3 => some .rq
  | 1#3 => some (.vq 0)
  | 2#3 => some (.vq 1)
  | 3#3 => some (.vq 2)
  | 4#3 => some (.vq 3)
  | _ => none

/-- R27. -/
def PopSrc.code : PopSrc → BitVec 3
  | .rq => 0
  | .vq j => j.setWidth 3 + 1

/-- R27, MQ.FLUSH sb 2:0: a queue, or all. -/
def flushOf (c : BitVec 3) : Option (Option (BitVec 2)) :=
  match c with
  | 0#3 => some (some 0)
  | 1#3 => some (some 1)
  | 2#3 => some (some 2)
  | 3#3 => some (some 3)
  | 4#3 => some none
  | _ => none

/-- R27. -/
def flushCode : Option (BitVec 2) → BitVec 3
  | some j => j.setWidth 3
  | none => 4

/-- IOP (R27, R89). -/
def iopOf (a : AWord) : Option Instr :=
  match a.minor with
  | 0x00#8 => some (.add a.sd a.sa a.sb)
  | 0x01#8 => some (.sub a.sd a.sa a.sb)
  | 0x02#8 => some (.mul a.sd a.sa a.sb)
  | 0x03#8 => some (.mulh a.sd a.sa a.sb)
  | 0x04#8 => some (.div a.sd a.sa a.sb)
  | 0x05#8 => some (.divu a.sd a.sa a.sb)
  | 0x06#8 => some (.rem a.sd a.sa a.sb)
  | 0x07#8 => some (.remu a.sd a.sa a.sb)
  | 0x08#8 => some (.and a.sd a.sa a.sb)
  | 0x09#8 => some (.or a.sd a.sa a.sb)
  | 0x0A#8 => some (.xor a.sd a.sa a.sb)
  | 0x0B#8 => some (.shl a.sd a.sa a.sb)
  | 0x0C#8 => some (.shr a.sd a.sa a.sb)
  | 0x0D#8 => some (.sra a.sd a.sa a.sb)
  | 0x0E#8 => some (.min a.sd a.sa a.sb)
  | 0x0F#8 => some (.max a.sd a.sa a.sb)
  | 0x10#8 => whenB (a.sb == 0) (.clz a.sd a.sa)
  | 0x11#8 => whenB (a.sb == 0) (.popc a.sd a.sa)
  | 0x12#8 => whenB (a.sb == 0) (.sextI8 a.sd a.sa)
  | 0x13#8 => whenB (a.sb == 0) (.sextI16 a.sd a.sa)
  | 0x14#8 => whenB (a.sb == 0) (.sextI32 a.sd a.sa)
  | 0x15#8 => whenB (a.sb == 0) (.zextN8 a.sd a.sa)
  | 0x16#8 => whenB (a.sb == 0) (.zextN16 a.sd a.sa)
  | 0x17#8 => whenB (a.sb == 0) (.zextN32 a.sd a.sa)
  | _ => none

/-- PAND and POR operands (R27). -/
def predOk (a : AWord) : Bool := top2 a.sd && top2 a.sa && a.sb.extractLsb' 4 1 == 0

/-- CMPG (R27, R92). -/
def cmpgOf (a : AWord) : Option Instr :=
  match a.minor.extractLsb' 4 4, a.minor.extractLsb' 0 4 with
  | 0#4, 0#4 => whenB (top2 a.sd) (.cmpEq (bot4 a.sd) a.sa a.sb)
  | 0#4, 1#4 => whenB (top2 a.sd) (.cmpNe (bot4 a.sd) a.sa a.sb)
  | 0#4, 2#4 => whenB (top2 a.sd) (.cmpLt (bot4 a.sd) a.sa a.sb)
  | 0#4, 3#4 => whenB (top2 a.sd) (.cmpLe (bot4 a.sd) a.sa a.sb)
  | 0#4, 4#4 => whenB (top2 a.sd) (.cmpLtu (bot4 a.sd) a.sa a.sb)
  | 0#4, 5#4 => whenB (top2 a.sd) (.cmpLeu (bot4 a.sd) a.sa a.sb)
  | 0#4, 6#4 => whenB (top2 a.sd) (.cmpAll (bot4 a.sd) a.sa a.sb)
  | 0#4, 7#4 => whenB (top2 a.sd) (.cmpAny (bot4 a.sd) a.sa a.sb)
  | 0#4, 8#4 => whenB (predOk a) (.pand (bot4 a.sd) (bot4 a.sa) (bot4 a.sb) (a.sb.getLsbD 5))
  | 0#4, 9#4 => whenB (predOk a) (.por (bot4 a.sd) (bot4 a.sa) (bot4 a.sb) (a.sb.getLsbD 5))
  | 1#4, pk => some (.sel a.sd pk a.sa a.sb)
  | _, _ => none

/-- AMO (R27, R99). -/
def amoOf (a : AWord) : Option Instr :=
  let size := MemSize.ofCode (a.minor.extractLsb' 2 2)
  let ord := AmoOrder.ofCode (a.minor.extractLsb' 0 2)
  match a.minor.extractLsb' 4 4 with
  | 0#4 => some (.amoAdd a.sd a.sa a.sb size ord)
  | 1#4 => some (.amoAnd a.sd a.sa a.sb size ord)
  | 2#4 => some (.amoOr a.sd a.sa a.sb size ord)
  | 3#4 => some (.amoXor a.sd a.sa a.sb size ord)
  | 4#4 => some (.amoMin a.sd a.sa a.sb size ord)
  | 5#4 => some (.amoMax a.sd a.sa a.sb size ord)
  | 6#4 => some (.amoMinu a.sd a.sa a.sb size ord)
  | 7#4 => some (.amoMaxu a.sd a.sa a.sb size ord)
  | 8#4 => some (.swap a.sd a.sa a.sb size ord)
  | 9#4 => some (.cas a.sd a.sa a.sb size ord)
  | 10#4 =>
    match size with
    | .b2 => some (.amoFadd a.sd a.sa a.sb false ord)
    | .b4 => some (.amoFadd a.sd a.sa a.sb true ord)
    | _ => none
  | _ => none

/-- BRG (R24, R94). -/
def brgOf (a : AWord) : Option Instr :=
  let b := a.sd.extractLsb' 3 3
  let pk : BitVec 4 := a.sd.extractLsb' 0 3 ++ a.sa.extractLsb' 5 1
  let sense := a.sa.getLsbD 4
  match a.sa.extractLsb' 2 2 with
  | 0#2 => whenB (a.control == 0) (.br b pk sense)
  | 1#2 => whenB (a.control.extractLsb' 6 10 == 0) (.brl b pk sense (a.control.extractLsb' 0 6))
  | 2#2 => whenB (a.control.extractLsb' 2 14 == 0) (.bloop b pk sense (a.control.extractLsb' 0 2))
  | _ => none

/-- PB (R20, R22, R24). -/
def pbOf (a : AWord) : Option Instr :=
  (Hint.ofCode (a.sd.extractLsb' 1 2)).map fun h =>
    .pb (a.sd.extractLsb' 3 3) h (a.sd.extractLsb' 0 1 ++ a.sa ++ a.sb ++ a.minor)

/-- SYNC (R27). -/
def syncOf (a : AWord) : Option Instr :=
  match a.sub with
  | 0#4 =>
    match FenceScope.ofCode (a.imm10.extractLsb' 7 3) with
    | some sc => whenB (a.sd == 0 && a.sa == 0) (.fence sc (FenceOrder.ofCode (a.imm10.extractLsb' 5 2)) (a.imm10.extractLsb' 0 5))
    | none => none
  | 1#4 => whenB (a.sd == 0 && a.imm10.extractLsb' 8 2 == 0) (.semSig (a.imm10.extractLsb' 0 8) a.sa)
  | 2#4 => whenB (a.imm10.extractLsb' 8 2 == 0) (.semAcq a.sd (a.imm10.extractLsb' 0 8) a.sa)
  | 3#4 => whenB (a.sa == 0 && a.imm10.extractLsb' 8 2 == 0) (.semRd a.sd (a.imm10.extractLsb' 0 8))
  | _ => none

/-- QUE (R27). -/
def queOf (a : AWord) : Option Instr :=
  match a.minor with
  | 0x00#8 => whenB (a.sd.extractLsb' 2 4 == 0 && a.sb == 0) (.mqpush (a.sd.extractLsb' 0 2) a.sa)
  | 0x01#8 =>
    match PopSrc.ofCode (a.sb.extractLsb' 0 3) with
    | some p => whenB (a.sb.extractLsb' 3 3 == 0 && a.sa == 0) (.qpop a.sd p)
    | none => none
  | 0x02#8 =>
    match flushOf (a.sb.extractLsb' 0 3) with
    | some w => whenB (a.sb.extractLsb' 3 3 == 0 && a.sa == 0) (.mqFlush a.sd w)
    | none => none
  | 0x03#8 => whenB (a.sa == 0 && a.sb == 0) (.cpFlush a.sd)
  | 0x04#8 => whenB (a.sd == 0 && a.sb == 0) (.cp a.sa)
  | 0x05#8 => whenB (a.sd == 0 && a.sb == 0) (.cpBolt a.sa)
  | 0x06#8 => whenB (a.sd == 0 && top2 a.sb) (.cpQ (bot4 a.sb) a.sa)
  | _ => none

/-- STR (R27, R50, R73). -/
def strOf (a : AWord) : Option Instr :=
  match a.sub with
  | 0#4 => whenB (a.imm10 == 0) (.spawn a.sd a.sa)
  | 1#4 => whenB (a.sd == 0 && a.imm10 == 0) (.suspend a.sa)
  | 2#4 => whenB (a.sd == 0 && a.sa == 0 && a.imm10 == 0) .exit
  | 3#4 => some (.seam (a.sd ++ a.sa ++ a.imm10))
  | 4#4 => whenB (a.imm10.extractLsb' 2 8 == 0) (.waitM a.sd a.sa (MemSize.ofCode (a.imm10.extractLsb' 0 2)))
  | 5#4 => whenB (a.sd == 0 && a.sa == 0 && a.imm10 == 0) .spin
  | 6#4 => whenB (a.sd == 0 && a.imm10 == 0) (.pagereq a.sa)
  | _ => none

/-- SYS (R27). -/
def sysOf (a : AWord) : Option Instr :=
  match a.sub with
  | 0#4 => whenB (a.sa == 0) (.crr a.sd a.imm10)
  | 1#4 => whenB (a.sd == 0) (.crw a.imm10 a.sa)
  | 2#4 => whenB (a.sd == 0 && a.imm10.extractLsb' 4 6 == 0) (.settc (a.imm10.extractLsb' 0 4) a.sa)
  | 3#4 => whenB (a.sd == 0 && a.sa == 0) (.trap a.imm10)
  | 4#4 => whenB (a.sd == 0 && a.sa == 0 && a.imm10.extractLsb' 5 5 == 0) (.grd (a.imm10.getLsbD 4) (a.imm10.extractLsb' 0 4))
  | 5#4 =>
    match Hint.ofCode (a.imm10.extractLsb' 0 2) with
    | some h => whenB (a.sd.extractLsb' 3 3 == 0 && a.imm10.extractLsb' 2 8 == 0) (.pbr (a.sd.extractLsb' 0 3) a.sa h)
    | none => none
  | 6#4 => whenB (a.sd == 0 && a.imm10.extractLsb' 2 8 == 0) (.lcset (a.imm10.extractLsb' 0 2) a.sa)
  | _ => none

/-- CLU (R287). -/
def cluOf (a : AWord) : Option Instr :=
  match a.minor with
  | 0x00#8 => whenB (a.sb == 0) (.join a.sd a.sa)
  | 0x01#8 => whenB (a.sb == 0) (.leave a.sd a.sa)
  | 0x02#8 => whenB (top2 a.sb) (.barNew a.sd (bot4 a.sb) a.sa)
  | 0x03#8 => whenB (a.sb == 0) (.barArv a.sd a.sa)
  | 0x04#8 => some (.barWt a.sd a.sa a.sb)
  | 0x05#8 => whenB (a.sd == 0 && a.sb == 0) (.barRel a.sa)
  | 0x06#8 => some (.mpath a.sd a.sa a.sb)
  | _ => none

/-- PKG (R27, R319, R323, R379, R406, R411, R434). -/
def pkgOf (a : AWord) : Option Instr :=
  match a.minor with
  | 0x00#8 => some (.lqPost a.sd a.sa a.sb)
  | 0x01#8 => whenB (top2 a.sb) (.pnlDef a.sd (bot4 a.sb) a.sa)
  | 0x02#8 => whenB (a.sb.extractLsb' 5 1 == 0) (.kvbMap a.sd (bot4 a.sb) (a.sb.getLsbD 4) a.sa)
  | 0x03#8 => some (.kvbShare a.sd a.sa a.sb)
  | 0x04#8 => whenB (a.sb == 0) (.kvbFree a.sd a.sa)
  | 0x05#8 => some (.kvbInval a.sd a.sa a.sb)
  | 0x06#8 => whenB (a.sb == 0) (.netPost a.sd a.sa)
  | 0x07#8 => some (.netWait a.sd a.sa a.sb)
  | 0x08#8 => whenB (a.sb == 0) (.msgSend a.sd a.sa)
  | 0x09#8 => whenB (a.sb == 0) (.msgRecv a.sd a.sa)
  | _ => none

/-- A load (R23, R96). -/
def loadOf (a : AWord) (mk : BitVec 6 → BitVec 6 → LdOrder → Bool → BitVec 11 → Instr) : Option Instr :=
  (loadOrder a.order).map fun o => mk a.sd a.sa o.1 o.2 a.off

/-- A store (R23, R96). -/
def storeOf (a : AWord) (mk : BitVec 6 → BitVec 6 → StOrder → BitVec 11 → Instr) : Option Instr :=
  (StOrder.ofCode a.order).map fun o => mk a.sd a.sa o a.off

/-- LDQ (R26, R97). -/
def ldqOf (a : AWord) : Option Instr :=
  match a.order with
  | 0#3 => whenB (top2 a.sd) (.ldq (bot4 a.sd) a.sa false false a.off)
  | 1#3 => whenB (top2 a.sd) (.ldq (bot4 a.sd) a.sa true false a.off)
  | 4#3 => whenB (top2 a.sd) (.ldq (bot4 a.sd) a.sa false true a.off)
  | 5#3 => whenB (top2 a.sd) (.ldq (bot4 a.sd) a.sa true true a.off)
  | _ => none

/-- A shift immediate: bits 13:7 are zero (R22). -/
def shiftOf (a : AWord) (mk : BitVec 6 → BitVec 6 → BitVec 7 → Instr) : Option Instr :=
  whenB (a.imm14.extractLsb' 7 7 == 0) (mk a.sd a.sa (a.imm14.extractLsb' 0 7))

/-- The instruction that an A word's fields name, before the checks of `aFault` (R26, R27). -/
def aInstr (a : AWord) : Option Instr :=
  match a.maj with
  | 0x01#6 => iopOf a
  | 0x02#6 => cmpgOf a
  | 0x03#6 => amoOf a
  | 0x04#6 => some (.addi a.sd a.sa a.imm14)
  | 0x05#6 => some (.andi a.sd a.sa a.imm14)
  | 0x06#6 => some (.ori a.sd a.sa a.imm14)
  | 0x07#6 => some (.xori a.sd a.sa a.imm14)
  | 0x08#6 => shiftOf a .shli
  | 0x09#6 => shiftOf a .shri
  | 0x0A#6 => shiftOf a .srai
  | 0x0B#6 => whenB (top2 a.sd) (.cmpiEq (bot4 a.sd) a.sa a.imm14)
  | 0x0C#6 => whenB (top2 a.sd) (.cmpiLt (bot4 a.sd) a.sa a.imm14)
  | 0x0D#6 => whenB (top2 a.sd) (.cmpiLtu (bot4 a.sd) a.sa a.imm14)
  | 0x0E#6 => some (.movi a.sd a.imm20)
  | 0x0F#6 => some (.lsi a.sd a.imm20)
  | 0x10#6 => some (.addpc a.sd a.imm20)
  | 0x11#6 => pbOf a
  | 0x12#6 => brgOf a
  | 0x18#6 => loadOf a .ldI8
  | 0x19#6 => loadOf a .ldN8
  | 0x1A#6 => loadOf a .ldI16
  | 0x1B#6 => loadOf a .ldN16
  | 0x1C#6 => loadOf a .ldI32
  | 0x1D#6 => loadOf a .ldN32
  | 0x1E#6 => loadOf a .ldB64
  | 0x1F#6 => ldqOf a
  | 0x20#6 => storeOf a .stB8
  | 0x21#6 => storeOf a .stB16
  | 0x22#6 => storeOf a .stB32
  | 0x23#6 => storeOf a .stB64
  | 0x28#6 => syncOf a
  | 0x29#6 => queOf a
  | 0x2A#6 => strOf a
  | 0x2B#6 => sysOf a
  | 0x2C#6 => cluOf a
  | 0x2D#6 => pkgOf a
  | 0x3E#6 => some (.nop (a.sd ++ a.sa ++ a.sb ++ a.minor))
  | _ => none

/-- Whether a number names a control register (R115). -/
def isControlRegister (n : BitVec 10) : Bool :=
  n ≤ 0x006 || (0x010 ≤ n && n ≤ 0x013) || (0x018 ≤ n && n ≤ 0x01B) || (0x020 ≤ n && n ≤ 0x02F) ||
    (0x040 ≤ n && n ≤ 0x043) || (0x080 ≤ n && n ≤ 0x09F)

/-- The field values that an A word's own entry excludes; all raise ILLEGAL. -/
def aFault (i : Instr) : Option DecodeFault :=
  match i with
  | .crr _ n => firstFault [(!isControlRegister n, .illegal)]
  | .crw n _ => firstFault [(!isControlRegister n, .illegal)]
  | .fence _ _ paths => firstFault [(paths == 0, .illegal)]
  | .spawn _ sa => firstFault [(60 ≤ sa, .illegal)]
  | .cp sa => firstFault [(59 ≤ sa, .illegal)]
  | .cpBolt sa => firstFault [(59 ≤ sa, .illegal)]
  | .cpQ _ sa => firstFault [(59 ≤ sa, .illegal)]
  | .mpath _ sa _ => firstFault [(sa == 63, .illegal)]
  | .pnlDef _ _ sa => firstFault [(sa == 63, .illegal)]
  | _ => none

/-- Decoding of an A word. -/
def decodeA (w : Parcel) : Except DecodeFault Instr :=
  match aInstr (AWord.ofParcel w) with
  | none => .error .illegal
  | some i =>
    match aFault i with
    | some f => .error f
    | none => .ok i

/-- An AR word of IOP, CMPG, CLU or PKG. -/
def arWord (maj : BitVec 6) (minor : BitVec 8) (sd sa sb : BitVec 6) : AWord := ⟨maj, sd, sa, sb, minor⟩

/-- An AMO word (R27). -/
def amoWord (op : BitVec 4) (sd sa sb : BitVec 6) (size : MemSize) (ord : AmoOrder) : AWord :=
  ⟨0x03, sd, sa, sb, op ++ size.code ++ ord.code⟩

/-- A load word (R23). -/
def loadWord (maj sd sa : BitVec 6) (ord : LdOrder) (strict : Bool) (off : BitVec 11) : AWord :=
  AWord.ofMem maj sd sa (BitVec.ofBool strict ++ ord.code) off

/-- The fields of the word of an A instruction. -/
def aParts (i : Instr) : Option AWord :=
  match i with
  | .add sd sa sb => some (arWord 0x01 0x00 sd sa sb)
  | .sub sd sa sb => some (arWord 0x01 0x01 sd sa sb)
  | .mul sd sa sb => some (arWord 0x01 0x02 sd sa sb)
  | .mulh sd sa sb => some (arWord 0x01 0x03 sd sa sb)
  | .div sd sa sb => some (arWord 0x01 0x04 sd sa sb)
  | .divu sd sa sb => some (arWord 0x01 0x05 sd sa sb)
  | .rem sd sa sb => some (arWord 0x01 0x06 sd sa sb)
  | .remu sd sa sb => some (arWord 0x01 0x07 sd sa sb)
  | .and sd sa sb => some (arWord 0x01 0x08 sd sa sb)
  | .or sd sa sb => some (arWord 0x01 0x09 sd sa sb)
  | .xor sd sa sb => some (arWord 0x01 0x0A sd sa sb)
  | .shl sd sa sb => some (arWord 0x01 0x0B sd sa sb)
  | .shr sd sa sb => some (arWord 0x01 0x0C sd sa sb)
  | .sra sd sa sb => some (arWord 0x01 0x0D sd sa sb)
  | .min sd sa sb => some (arWord 0x01 0x0E sd sa sb)
  | .max sd sa sb => some (arWord 0x01 0x0F sd sa sb)
  | .clz sd sa => some (arWord 0x01 0x10 sd sa 0)
  | .popc sd sa => some (arWord 0x01 0x11 sd sa 0)
  | .sextI8 sd sa => some (arWord 0x01 0x12 sd sa 0)
  | .sextI16 sd sa => some (arWord 0x01 0x13 sd sa 0)
  | .sextI32 sd sa => some (arWord 0x01 0x14 sd sa 0)
  | .zextN8 sd sa => some (arWord 0x01 0x15 sd sa 0)
  | .zextN16 sd sa => some (arWord 0x01 0x16 sd sa 0)
  | .zextN32 sd sa => some (arWord 0x01 0x17 sd sa 0)
  | .cmpEq pd sa sb => some (arWord 0x02 0x00 (wide6 pd) sa sb)
  | .cmpNe pd sa sb => some (arWord 0x02 0x01 (wide6 pd) sa sb)
  | .cmpLt pd sa sb => some (arWord 0x02 0x02 (wide6 pd) sa sb)
  | .cmpLe pd sa sb => some (arWord 0x02 0x03 (wide6 pd) sa sb)
  | .cmpLtu pd sa sb => some (arWord 0x02 0x04 (wide6 pd) sa sb)
  | .cmpLeu pd sa sb => some (arWord 0x02 0x05 (wide6 pd) sa sb)
  | .cmpAll pd sa sb => some (arWord 0x02 0x06 (wide6 pd) sa sb)
  | .cmpAny pd sa sb => some (arWord 0x02 0x07 (wide6 pd) sa sb)
  | .pand pd pa pb inv => some (arWord 0x02 0x08 (wide6 pd) (wide6 pa) (BitVec.ofBool inv ++ 0#1 ++ pb))
  | .por pd pa pb inv => some (arWord 0x02 0x09 (wide6 pd) (wide6 pa) (BitVec.ofBool inv ++ 0#1 ++ pb))
  | .sel sd pk sa sb => some (arWord 0x02 (1#4 ++ pk) sd sa sb)
  | .amoAdd sd sa sb size ord => some (amoWord 0 sd sa sb size ord)
  | .amoAnd sd sa sb size ord => some (amoWord 1 sd sa sb size ord)
  | .amoOr sd sa sb size ord => some (amoWord 2 sd sa sb size ord)
  | .amoXor sd sa sb size ord => some (amoWord 3 sd sa sb size ord)
  | .amoMin sd sa sb size ord => some (amoWord 4 sd sa sb size ord)
  | .amoMax sd sa sb size ord => some (amoWord 5 sd sa sb size ord)
  | .amoMinu sd sa sb size ord => some (amoWord 6 sd sa sb size ord)
  | .amoMaxu sd sa sb size ord => some (amoWord 7 sd sa sb size ord)
  | .swap sd sa sb size ord => some (amoWord 8 sd sa sb size ord)
  | .cas sd sa sb size ord => some (amoWord 9 sd sa sb size ord)
  | .amoFadd sd sa sb f32 ord => some (amoWord 10 sd sa sb (if f32 then .b4 else .b2) ord)
  | .addi sd sa imm => some (AWord.ofImm14 0x04 sd sa imm)
  | .andi sd sa imm => some (AWord.ofImm14 0x05 sd sa imm)
  | .ori sd sa imm => some (AWord.ofImm14 0x06 sd sa imm)
  | .xori sd sa imm => some (AWord.ofImm14 0x07 sd sa imm)
  | .shli sd sa n => some (AWord.ofImm14 0x08 sd sa (0#7 ++ n))
  | .shri sd sa n => some (AWord.ofImm14 0x09 sd sa (0#7 ++ n))
  | .srai sd sa n => some (AWord.ofImm14 0x0A sd sa (0#7 ++ n))
  | .cmpiEq pd sa imm => some (AWord.ofImm14 0x0B (wide6 pd) sa imm)
  | .cmpiLt pd sa imm => some (AWord.ofImm14 0x0C (wide6 pd) sa imm)
  | .cmpiLtu pd sa imm => some (AWord.ofImm14 0x0D (wide6 pd) sa imm)
  | .movi sd imm => some (AWord.ofImm20 0x0E sd imm)
  | .lsi sd imm => some (AWord.ofImm20 0x0F sd imm)
  | .addpc sd imm => some (AWord.ofImm20 0x10 sd imm)
  | .pb b h d => some ⟨0x11, b ++ h.code ++ d.extractLsb' 20 1, d.extractLsb' 14 6, d.extractLsb' 8 6, d.extractLsb' 0 8⟩
  | .br b pk sense => some (AWord.ofBranch b pk sense 0 0)
  | .brl b pk sense link => some (AWord.ofBranch b pk sense 1 (0#10 ++ link))
  | .bloop b pk sense lc => some (AWord.ofBranch b pk sense 2 (0#14 ++ lc))
  | .ldI8 sd sa ord strict off => some (loadWord 0x18 sd sa ord strict off)
  | .ldN8 sd sa ord strict off => some (loadWord 0x19 sd sa ord strict off)
  | .ldI16 sd sa ord strict off => some (loadWord 0x1A sd sa ord strict off)
  | .ldN16 sd sa ord strict off => some (loadWord 0x1B sd sa ord strict off)
  | .ldI32 sd sa ord strict off => some (loadWord 0x1C sd sa ord strict off)
  | .ldN32 sd sa ord strict off => some (loadWord 0x1D sd sa ord strict off)
  | .ldB64 sd sa ord strict off => some (loadWord 0x1E sd sa ord strict off)
  | .ldq q sa acq strict off => some (AWord.ofMem 0x1F (wide6 q) sa (BitVec.ofBool strict ++ 0#1 ++ BitVec.ofBool acq) off)
  | .stB8 sd sa ord off => some (AWord.ofMem 0x20 sd sa ord.code off)
  | .stB16 sd sa ord off => some (AWord.ofMem 0x21 sd sa ord.code off)
  | .stB32 sd sa ord off => some (AWord.ofMem 0x22 sd sa ord.code off)
  | .stB64 sd sa ord off => some (AWord.ofMem 0x23 sd sa ord.code off)
  | .fence scope ord paths => some (AWord.ofSub 0x28 0 0 0 (scope.code ++ ord.code ++ paths))
  | .semSig sem sa => some (AWord.ofSub 0x28 0 sa 1 (0#2 ++ sem))
  | .semAcq sd sem sa => some (AWord.ofSub 0x28 sd sa 2 (0#2 ++ sem))
  | .semRd sd sem => some (AWord.ofSub 0x28 sd 0 3 (0#2 ++ sem))
  | .mqpush mq sa => some (arWord 0x29 0x00 (0#4 ++ mq) sa 0)
  | .qpop sd src => some (arWord 0x29 0x01 sd 0 (0#3 ++ src.code))
  | .mqFlush sd which => some (arWord 0x29 0x02 sd 0 (0#3 ++ flushCode which))
  | .cpFlush sd => some (arWord 0x29 0x03 sd 0 0)
  | .cp sa => some (arWord 0x29 0x04 0 sa 0)
  | .cpBolt sa => some (arWord 0x29 0x05 0 sa 0)
  | .cpQ q sa => some (arWord 0x29 0x06 0 sa (wide6 q))
  | .spawn sd sa => some (AWord.ofSub 0x2A sd sa 0 0)
  | .suspend sa => some (AWord.ofSub 0x2A 0 sa 1 0)
  | .exit => some (AWord.ofSub 0x2A 0 0 2 0)
  | .seam id => some (AWord.ofSub 0x2A (id.extractLsb' 16 6) (id.extractLsb' 10 6) 3 (id.extractLsb' 0 10))
  | .waitM sd sa size => some (AWord.ofSub 0x2A sd sa 4 (0#8 ++ size.code))
  | .spin => some (AWord.ofSub 0x2A 0 0 5 0)
  | .pagereq sa => some (AWord.ofSub 0x2A 0 sa 6 0)
  | .crr sd num => some (AWord.ofSub 0x2B sd 0 0 num)
  | .crw num sa => some (AWord.ofSub 0x2B 0 sa 1 num)
  | .settc t sa => some (AWord.ofSub 0x2B 0 sa 2 (0#6 ++ t))
  | .trap code => some (AWord.ofSub 0x2B 0 0 3 code)
  | .grd sense pk => some (AWord.ofSub 0x2B 0 0 4 (0#5 ++ BitVec.ofBool sense ++ pk))
  | .pbr b sa h => some (AWord.ofSub 0x2B (0#3 ++ b) sa 5 (0#8 ++ h.code))
  | .lcset lc sa => some (AWord.ofSub 0x2B 0 sa 6 (0#8 ++ lc))
  | .join sd sa => some (arWord 0x2C 0x00 sd sa 0)
  | .leave sd sa => some (arWord 0x2C 0x01 sd sa 0)
  | .barNew sd pk sa => some (arWord 0x2C 0x02 sd sa (wide6 pk))
  | .barArv sd sa => some (arWord 0x2C 0x03 sd sa 0)
  | .barWt sd sa sb => some (arWord 0x2C 0x04 sd sa sb)
  | .barRel sa => some (arWord 0x2C 0x05 0 sa 0)
  | .mpath sd sa sb => some (arWord 0x2C 0x06 sd sa sb)
  | .lqPost sd sa sb => some (arWord 0x2D 0x00 sd sa sb)
  | .pnlDef sd pk sa => some (arWord 0x2D 0x01 sd sa (wide6 pk))
  | .kvbMap sd pk al sa => some (arWord 0x2D 0x02 sd sa (0#1 ++ BitVec.ofBool al ++ pk))
  | .kvbShare sd sa sb => some (arWord 0x2D 0x03 sd sa sb)
  | .kvbFree sd sa => some (arWord 0x2D 0x04 sd sa 0)
  | .kvbInval sd sa sb => some (arWord 0x2D 0x05 sd sa sb)
  | .netPost sd sa => some (arWord 0x2D 0x06 sd sa 0)
  | .netWait sd sa sb => some (arWord 0x2D 0x07 sd sa sb)
  | .msgSend sd sa => some (arWord 0x2D 0x08 sd sa 0)
  | .msgRecv sd sa => some (arWord 0x2D 0x09 sd sa 0)
  | .nop x => some ⟨0x3E, x.extractLsb' 20 6, x.extractLsb' 14 6, x.extractLsb' 8 6, x.extractLsb' 0 8⟩
  | _ => none

/-! ## V instructions: operands -/

/-- R36. -/
def VTy.ofCode (c : BitVec 4) : Option VTy :=
  match c with
  | 0x0#4 => some .i8
  | 0x1#4 => some .i16
  | 0x2#4 => some .i32
  | 0x3#4 => some .i64
  | 0x4#4 => some .n8
  | 0x5#4 => some .n16
  | 0x6#4 => some .n32
  | 0x7#4 => some .n64
  | 0x8#4 => some .f32
  | 0x9#4 => some .f16
  | 0xA#4 => some .bf16
  | 0xB#4 => some .e4m3
  | 0xC#4 => some .e5m2
  | 0xD#4 => some .e2m1
  | 0xE#4 => some .i4
  | _ => none

/-- R36. -/
def VTy.code : VTy → BitVec 4
  | .i8 => 0x0
  | .i16 => 0x1
  | .i32 => 0x2
  | .i64 => 0x3
  | .n8 => 0x4
  | .n16 => 0x5
  | .n32 => 0x6
  | .n64 => 0x7
  | .f32 => 0x8
  | .f16 => 0x9
  | .bf16 => 0xA
  | .e4m3 => 0xB
  | .e5m2 => 0xC
  | .e2m1 => 0xD
  | .i4 => 0xE

/-- Bits of an element (R163). -/
def VTy.bits : VTy → Nat
  | .i8 | .n8 | .e4m3 | .e5m2 => 8
  | .i16 | .n16 | .f16 | .bf16 => 16
  | .i32 | .n32 | .f32 => 32
  | .i64 | .n64 => 64
  | .e2m1 | .i4 => 4

/-- Elements of a register: n of R163. -/
def VTy.lanes (t : VTy) : Nat := 8192 / t.bits

/-- A floating type. -/
def VTy.isFloat : VTy → Bool
  | .f32 | .f16 | .bf16 | .e4m3 | .e5m2 | .e2m1 => true
  | _ => false

/-- A signed integer type (R5, R36). -/
def VTy.isSigned : VTy → Bool
  | .i8 | .i16 | .i32 | .i64 | .i4 => true
  | _ => false

/-- R165: INT. -/
def tyInt : List VTy := [.i8, .i16, .i32, .i64, .n8, .n16, .n32, .n64]
/-- R165: I4. -/
def tyI4 : List VTy := [.i4]
/-- R165: FLT. -/
def tyFlt : List VTy := [.f32, .f16, .bf16]
/-- R165: F8. -/
def tyF8 : List VTy := [.e4m3, .e5m2]
/-- R165: W1, every type of whole bytes. -/
def tyW1 : List VTy := tyInt ++ tyFlt ++ tyF8
/-- R165: ALL. -/
def tyAll : List VTy := tyW1 ++ [.e2m1, .i4]
/-- R179: the sources that VMULW and VADDW widen. -/
def tyWiden : List VTy := [.i8, .i16, .i32, .n8, .n16, .n32, .f16, .bf16, .e4m3, .e5m2]

/-- The modifier classes of R38. -/
inductive VClass where
  | f | c | x | g | l | n | z
  deriving DecidableEq, Repr

/-- What a register field of an opcode names. -/
inductive VRole where
  /-- Not used: zero (R34). -/
  | unused
  /-- A vector register (R34 as destination, or where the entry admits no other). -/
  | reg
  /-- A source of R34 and R35. -/
  | src
  /-- A mask in bits 3:0 (R42). -/
  | mask
  /-- A q register only (R176). -/
  | queue
  /-- An index in bits 1:0 or 7:0 (R173, R176). -/
  | idx2
  | idx8
  /-- Nothing but the literal (R166, R199). -/
  | litOnly
  /-- A format code (R40). -/
  | fmt
  deriving DecidableEq, Repr

/-- Whether an entry needs, takes or refuses the literal form (R166). -/
inductive LitRule where
  | ok | need | no
  deriving DecidableEq, Repr

/-- When the sat bit is legal (R38). -/
inductive SatRule where
  | never | ints | always
  deriving DecidableEq, Repr

/-- The decode rules of one opcode of the long map; an empty type list marks an untyped opcode (R165). -/
structure VSpec where
  cls : VClass
  types : List VTy
  vd : VRole := .reg
  va : VRole := .src
  vb : VRole := .unused
  third : Bool := false
  lit : LitRule := .ok
  sat : SatRule := .never
  rounds : Bool := false
  unmasked : Bool := false
  run : Bool := false
  deriving DecidableEq, Repr

/-- R173 to R203: the rules of each cell of the long map; the long form of VPOP, whose elements are typed, takes a mask (DESIGN CHOICE,
assumption 104). -/
def vSpec (op : BitVec 8) : Option VSpec :=
  match op.toNat with
  | 0x01 | 0x03 => some { cls := .z, types := [], vd := .unused, va := .unused, lit := .no, unmasked := true }
  | 0x04 | 0x05 => some { cls := .n, types := [], vd := .idx8, va := .unused, lit := .no, unmasked := true }
  | 0x06 => some { cls := .z, types := [], vd := .unused, va := .unused, vb := .litOnly, lit := .need, unmasked := true }
  | 0x07 => some { cls := .n, types := [], vd := .idx2, va := .unused, vb := .litOnly, lit := .need, unmasked := true }
  | 0x08 => some { cls := .z, types := tyAll, run := true }
  | 0x09 => some { cls := .z, types := tyAll, va := .unused, vb := .litOnly, lit := .need }
  | 0x0A => some { cls := .z, types := tyW1, vb := .litOnly, lit := .need }
  | 0x0B => some { cls := .z, types := tyAll, va := .reg, run := true }
  | 0x0C => some { cls := .z, types := tyAll, va := .queue, lit := .no, run := true }
  | 0x0D => some { cls := .z, types := [], vd := .idx2, lit := .no, unmasked := true }
  | 0x0E => some { cls := .z, types := [], vd := .unused, va := .queue, lit := .no, unmasked := true }
  | 0x10 | 0x11 | 0x12 => some { cls := .f, types := tyInt ++ tyI4 ++ tyFlt, vb := .src, sat := .always, rounds := true, run := true }
  | 0x13 => some { cls := .f, types := tyInt, vb := .src, run := true }
  | 0x14 | 0x15 | 0x16 => some { cls := .f, types := tyInt ++ tyFlt, vb := .src, third := true, sat := .always, rounds := true, run := true }
  | 0x17 | 0x18 => some { cls := .f, types := tyAll, vb := .src, run := true }
  | 0x19 | 0x1A => some { cls := .f, types := tyInt ++ tyI4 ++ tyFlt, sat := .ints, run := true }
  | 0x1B => some { cls := .f, types := tyInt ++ tyFlt, vb := .src, rounds := true, run := true }
  | 0x1C => some { cls := .f, types := tyInt ++ tyFlt, vb := .src, sat := .always, rounds := true, run := true }
  | 0x1D => some { cls := .f, types := tyAll, vb := .src, third := true, run := true }
  | 0x1E => some { cls := .f, types := tyInt ++ tyI4 ++ tyFlt, vb := .src, sat := .ints, run := true }
  | 0x1F => some { cls := .f, types := tyFlt, vb := .src, sat := .always, rounds := true, run := true }
  | 0x20 => some { cls := .f, types := [.i8, .n8] ++ tyF8, vb := .src, third := true, sat := .ints, rounds := true, run := true }
  | 0x21 => some { cls := .f, types := [.i16, .n16, .f16, .bf16], vb := .src, third := true, sat := .ints, rounds := true, run := true }
  | 0x22 | 0x23 => some { cls := .f, types := tyWiden, vb := .src, sat := .ints, rounds := true, run := true }
  | 0x24 => some { cls := .f, types := tyFlt, rounds := true, run := true }
  | 0x25 => some { cls := .f, types := [.i8, .i16, .i32], vb := .src, run := true }
  | 0x26 => some { cls := .f, types := tyInt ++ tyFlt ++ tyF8, vb := .src, lit := .no, run := true }
  | 0x27 => some { cls := .f, types := tyFlt, run := true }
  | 0x30 | 0x31 | 0x32 | 0x33 => some { cls := .c, types := tyW1, vd := .mask, vb := .src }
  | 0x34 | 0x35 => some { cls := .c, types := tyFlt ++ tyF8, vd := .mask, vb := .src }
  | 0x36 => some { cls := .z, types := tyAll, vb := .src, run := true }
  | 0x37 => some { cls := .c, types := tyFlt ++ tyF8, vd := .mask, vb := .litOnly, lit := .need }
  | 0x38 | 0x39 | 0x3A => some { cls := .z, types := [], vd := .mask, va := .mask, vb := .mask, unmasked := true }
  | 0x3B | 0x3D => some { cls := .z, types := [], vd := .mask, va := .mask, unmasked := true }
  | 0x3C => some { cls := .z, types := tyW1, va := .mask, unmasked := true }
  | 0x3E => some { cls := .z, types := tyW1, vd := .mask }
  | 0x3F => some { cls := .z, types := tyW1, va := .mask }
  | 0x40 => some { cls := .z, types := tyW1, vd := .mask, va := .unused, vb := .litOnly, lit := .need, unmasked := true }
  | 0x50 | 0x51 | 0x52 | 0x54 => some { cls := .f, types := tyAll, vb := .src, run := true }
  | 0x53 => some { cls := .f, types := tyAll, run := true }
  | 0x55 => some { cls := .f, types := tyAll, vb := .src, third := true, run := true }
  | 0x56 | 0x57 | 0x58 => some { cls := .f, types := tyInt ++ tyI4, vb := .src, run := true }
  | 0x59 | 0x5A | 0x5B => some { cls := .f, types := tyInt ++ tyI4, run := true }
  | 0x60 => some { cls := .f, types := tyAll, vb := .fmt, lit := .no, sat := .always, rounds := true, run := true }
  | 0x61 => some { cls := .f, types := [.i16, .n16, .i32, .n32, .i64, .n64, .i8], vb := .src, lit := .no, sat := .always, run := true }
  | 0x62 => some { cls := .f, types := [.i8, .i16, .i32, .n8, .n16, .n32, .i4], run := true }
  | 0x63 | 0x64 => some { cls := .f, types := tyFlt, vb := .fmt, lit := .no, rounds := true, unmasked := true, run := true }
  | 0x65 => some { cls := .f, types := [.i8, .i4], vb := .src, third := true, run := true }
  | 0x70 | 0x71 | 0x72 | 0x73 | 0x74 | 0x75 | 0x76 | 0x77 | 0x78 | 0x79 =>
    some { cls := .f, types := tyFlt, sat := .always, rounds := true, run := true }
  | 0x80 | 0x81 | 0x88 => some { cls := .x, types := tyAll, run := true }
  | 0x82 | 0x87 => some { cls := .x, types := tyInt ++ tyFlt, run := true }
  | 0x83 | 0x84 => some { cls := .x, types := tyInt ++ tyFlt ++ tyF8, run := true }
  | 0x85 | 0x86 => some { cls := .x, types := [.f32, .i32, .n32], vb := .src, run := true }
  | 0x89 => some { cls := .x, types := [.i8, .n8, .i16, .n16, .f16, .bf16], run := true }
  | 0x90 | 0x92 | 0x93 => some { cls := .x, types := tyW1, vb := .src, run := true }
  | 0x91 => some { cls := .x, types := [.i8, .n8, .e4m3, .e5m2, .i16, .n16, .f16, .bf16, .i32, .n32, .f32], run := true }
  | 0x94 => some { cls := .x, types := tyInt ++ tyFlt, vb := .src, run := true }
  | 0x95 | 0x96 => some { cls := .x, types := tyW1, run := true }
  | 0x97 => some { cls := .g, types := [.n32], va := .unused, run := true }
  | 0xA0 | 0xA1 | 0xA2 | 0xA3 => some { cls := .l, types := tyAll, va := .reg, vb := .litOnly }
  | 0xA4 | 0xA5 => some { cls := .l, types := [.i32, .n32, .f32, .i64, .n64], va := .reg, vb := .reg, lit := .no }
  | 0xA6 | 0xA7 => some { cls := .l, types := [], vd := .mask, va := .reg, vb := .litOnly, unmasked := true }
  | 0xA8 => some { cls := .l, types := tyW1, va := .reg, vb := .litOnly }
  | _ => none

/-- LIT (R34). -/
abbrev regLit : BitVec 11 := 1567

/-- R35: a constant source that the type does not take; an untyped instruction reads constants as .n64 (assumption 20). -/
def constBad (t : VTy) (r : BitVec 11) : Bool :=
  (r == 1558 && !t.isFloat && !t.isSigned) || (r == 1563 && (!t.isFloat || t == .e2m1)) || (r == 1564 && !t.isFloat)

/-- R34: whether a field names something its role may not use; `lit` says that LIT is legal in it. -/
def roleIllegalOp (role : VRole) (t : VTy) (lit : Bool) (r : BitVec 11) : Bool :=
  match role with
  | .reg => 1536 ≤ r
  | .src => (1566 ≤ r && !(lit && r == regLit)) || constBad t r
  | .queue => !(1536 ≤ r && r ≤ 1551)
  | .litOnly => r == regLit && !lit
  | .fmt => r == regLit
  | _ => false

/-- R34, R40, R42, R173: whether a field holds bits its role requires to be zero. -/
def roleIllegal (role : VRole) (r : BitVec 11) : Bool :=
  match role with
  | .unused => r != 0
  | .mask => r.extractLsb' 4 7 != 0
  | .idx2 => r.extractLsb' 2 9 != 0
  | .idx8 => r.extractLsb' 8 3 != 0
  | .litOnly => r != regLit && r != 0
  | .fmt => r != regLit && (r.extractLsb' 4 7 != 0 || r.extractLsb' 0 4 == 0xF)
  | _ => false

/-- The destination format of VCVT, VMXQ and VMXD (R40). -/
def fmtOf (vb : BitVec 11) : VTy := (VTy.ofCode (vb.extractLsb' 0 4)).getD .i8

/-- Registers of 1 KiB that `a` elements of type `t` fill. -/
def regSpan (t : VTy) (a : Nat) : Nat := a * t.bits / 8192

/-- Registers that an instruction touches from vd and from va on (R179, R185, R187, R193, R196). -/
def vSpans (op : BitVec 8) (t : VTy) (vb : BitVec 11) : Nat × Nat :=
  match op.toNat with
  | 0x22 | 0x23 | 0x62 | 0x85 | 0x86 | 0x94 => (2, 1)
  | 0x60 =>
    let d := fmtOf vb
    if t.bits < d.bits then (d.bits / t.bits, 1) else (1, t.bits / d.bits)
  | 0x63 => (2, t.bits / 8)
  | 0x64 => (t.bits / 8, 2)
  | _ => (1, 1)

/-- R190 to R197: the values of bits 63:52 that an X-class entry allows. Every entry but the reductions and VBCST, of which R191 to R193 say it,
also refuses W together with axis 1 (DESIGN CHOICE, assumption 32). -/
def vAxisOk (op : BitVec 8) (t : VTy) (m : BitVec 12) : Bool :=
  let col := m.getLsbD 11
  let x := (m.extractLsb' 0 11).toNat
  let n := if col then 16 else 512 / t.bits
  let bit0 := x ≤ 1 && !(x == 1 && col)
  match op.toNat with
  | 0x80 => decide (x < n)
  | 0x88 => decide (x % 1024 ≤ n)
  | 0x81 => if 1024 ≤ x then !col && decide (x % 1024 < t.lanes) else decide (x < n)
  | 0x82 | 0x83 | 0x84 | 0x85 | 0x86 | 0x87 | 0x95 | 0x96 => bit0
  | 0x89 => bit0 && !col
  | 0x90 => bit0 && !(x == 1 && t.bits == 8)
  | 0x91 => x == 0 && !col
  | 0x92 | 0x93 => decide (x ≤ 1)
  | 0x94 =>
    let lg := Nat.log2 n
    decide (x / 256 = 0) && decide (x % 16 < lg) && (decide (x / 16 ≤ lg) || x / 16 == 15)
  | _ => false

/-- R38, R165: whether the modifier breaks its class's layout. -/
def vModBad (op : BitVec 8) (sp : VSpec) (t : VTy) (vb : BitVec 11) (m : BitVec 12) : Bool :=
  match sp.cls with
  | .f =>
    let flt := t.isFloat || (op == 0x60 && (fmtOf vb).isFloat)
    let mode := (m.extractLsb' 9 3).toNat
    let satBad := m.getLsbD 8 && !(sp.sat == .always || (sp.sat == .ints && !flt))
    if flt then
      satBad || 4 < mode || (mode != 4 && m.extractLsb' 0 7 != 0) || (!sp.rounds && (mode != 0 || m.getLsbD 7))
    else satBad || mode != 0 || m.extractLsb' 0 8 != 0
  | .c => m.extractLsb' 8 4 != 0 || m.extractLsb' 0 7 != 0
  | .x => !vAxisOk op t m
  | .g => m.extractLsb' 8 4 != 0
  | .l => !(op == 0xA1 || op == 0xA3) && m != 0
  | .n => false
  | .z => m != 0

/-- The literal of an instruction, if it is in the literal form. -/
def VFields.literal (f : VFields) : Option (BitVec 32) :=
  match f.ext with
  | .lit v => some v
  | _ => none

/-- R39: every register the run touches from `r` on lies in 0 to 1535. -/
def runRangeBad (r : BitVec 11) (stride : BitVec 5) (count : Nat) (span : Nat) : Bool :=
  let last : Int := r.toNat + stride.toInt * count
  r < 1536 && (1536 < r.toNat + span || last < 0 || 1536 < last + span)

/-- Strides and repeat count as R39 and R204 want them: no stride on a q register, a constant or an unused field, a run only where
allowed. -/
def runBad (sp : VSpec) (f : VFields) (sb sa sd : BitVec 5) (count : BitVec 6) : Bool :=
  let fixed (role : VRole) (r : BitVec 11) : Bool :=
    !(role == .reg || role == .src || role == .queue) || (1536 ≤ r && r ≤ 1565)
  (!sp.run && (sb != 0 || sa != 0 || sd != 0 || count != 0)) ||
    (sd != 0 && fixed sp.vd f.vd) || (sa != 0 && fixed sp.va f.va) || (sb != 0 && fixed sp.vb f.vb)

/-- R175, R174, R182: literals that the entry excludes. -/
def litBad (op : BitVec 8) (t : VTy) (v : BitVec 32) : Bool :=
  match op.toNat with
  | 0x07 => v.toInt < 4
  | 0x0A => t.lanes ≤ v.toNat
  | 0x37 => v.extractLsb' 9 23 != 0
  | _ => false

/-- The element type in which an instruction reads constants: an untyped one reads them as .n64 (assumption 20). -/
def VSpec.constTy (sp : VSpec) (t : VTy) : VTy := if sp.types.isEmpty then .n64 else t

/-- The decode fault of a long-map instruction other than VSEAM (R16, R17). -/
def vFaultOf (op : BitVec 8) (sp : VSpec) (f : VFields) : Option DecodeFault :=
  let t := f.ty
  let lit := f.literal.isSome
  let (vc, sb, sa, sd, count) := match f.ext with
    | .run vc sb sa sd count => (vc, sb, sa, sd, count)
    | _ => (0, 0, 0, 0, 0)
  let isRun := match f.ext with
    | .run .. => true
    | _ => false
  let spans := vSpans op t f.vb
  let ct := sp.constTy t
  firstFault [
    (if sp.types.isEmpty then t != .i8 else !sp.types.contains t, .illegal),
    (sp.unmasked && (f.mask != 0 || f.sense), .illegal),
    (sp.lit == .need && !lit, .illegal),
    (lit != (f.vb == regLit) && f.ext != .none, .illegal),
    (vModBad op sp t f.vb f.modifier, .illegal),
    (roleIllegal sp.vd f.vd || roleIllegal sp.va f.va || roleIllegal sp.vb f.vb, .illegal),
    ((op == 0x63 || op == 0x64) && f.vb != regLit && !([0xB, 0xC, 0xD].contains (f.vb.toNat % 16)), .illegal),
    (match f.literal with
      | some v => litBad op t v
      | none => false, .illegal),
    (runBad sp f sb sa sd count, .illegal),
    (isRun && !sp.third && vc != 0, .illegal),
    (lit && sp.lit == .no, .illegalOp),
    (roleIllegalOp sp.vd ct false f.vd || roleIllegalOp sp.va ct false f.va || roleIllegalOp sp.vb ct lit f.vb, .illegalOp),
    (isRun && sp.third && roleIllegalOp .src ct false vc, .illegalOp),
    (op == 0x64 && 1536 ≤ f.va, .illegalOp),
    ((sp.vd == .reg && runRangeBad f.vd sd count.toNat spans.1) ||
      ((sp.va == .reg || sp.va == .src) && runRangeBad f.va sa count.toNat spans.2) ||
      ((sp.vb == .reg || sp.vb == .src) && runRangeBad f.vb sb count.toNat 1), .illegalOp)]

/-- VSEAM: bits 40:19 are the identifier and all else is zero (R42). -/
def vseamFault (f : VFields) : Option DecodeFault :=
  firstFault [(f.modifier != 0 || f.vb != 0 || f.sense || f.mask != 0 || f.ty != .i8 ||
    !(f.ext == .none || f.ext == .run 0 0 0 0 0), .illegal)]

/-- The decode fault of a long-map instruction. -/
def vFault (op : BitVec 8) (f : VFields) : Option DecodeFault :=
  if op == 0x02 then vseamFault f else (vSpec op).elim (some .illegal) fun sp => vFaultOf op sp f

/-- The element type of a typed short cell; the untyped ones move whole registers (R43). -/
def shortTy (op : BitVec 8) : VTy :=
  let n := op.toNat
  if 0x11 ≤ n && n ≤ 0x18 then .f32
  else if 0x19 ≤ n && n ≤ 0x1D then .bf16
  else if 0x20 ≤ n && n ≤ 0x24 then .i32
  else if 0x25 ≤ n && n ≤ 0x26 then .i16
  else if 0x27 ≤ n && n ≤ 0x28 then .i8
  else .n64

/-- Bits 10:4 of a mask field are zero (R43). -/
def high7 (x : BitVec 11) : Bool := x.extractLsb' 4 7 == 0

/-- Bits 3:0 of a mask field. -/
def low4 (x : BitVec 11) : BitVec 4 := x.extractLsb' 0 4

/-- The decode fault of a short cell (R34, R43): reserved cells, fields that must be zero, then register names. -/
def vShortFault (op : BitVec 8) (vd va : BitVec 11) : Option DecodeFault :=
  let n := op.toNat
  if 0xF0 ≤ n || n == 0x02 then none
  else if n == 0 || (0x1E ≤ n && n ≤ 0x1F) || 0x29 ≤ n then some .illegal
  else if n == 0x01 || n == 0x03 then firstFault [(vd != 0 || va != 0, .illegal)]
  else if 0x0D ≤ n && n ≤ 0x10 then firstFault [(!high7 vd || !high7 va, .illegal)]
  else if n == 0x07 then firstFault [(vd != 0, .illegal), (roleIllegalOp .queue .n64 false va, .illegalOp)]
  else
    let role : VRole := if n == 0x05 then .reg else if n == 0x06 then .queue else .src
    firstFault [(roleIllegalOp .reg .n64 false vd || roleIllegalOp role (shortTy op) false va, .illegalOp)]

/-! ## V instructions: maps and words -/

/-- The long map (R42). Lean's compiler has no code for a constructor with operands past the 245th, so what builds an `Instr` by these
maps is noncomputable; the step reads the fields themselves (assumption 22). -/
noncomputable def vInstr (op : BitVec 8) (f : VFields) : Option Instr :=
  match op with
  | 0x01#8 => some (.vnop f)
  | 0x02#8 => some (.vseam f)
  | 0x03#8 => some (.vhalt f)
  | 0x04#8 => some (.vwait f)
  | 0x05#8 => some (.vsig f)
  | 0x06#8 => some (.vjmp f)
  | 0x07#8 => some (.vloop f)
  | 0x08#8 => some (.vmov f)
  | 0x09#8 => some (.vmovi f)
  | 0x0A#8 => some (.vins f)
  | 0x0B#8 => some (.vswap f)
  | 0x0C#8 => some (.vpop f)
  | 0x0D#8 => some (.vpush f)
  | 0x0E#8 => some (.vqdrop f)
  | 0x10#8 => some (.vadd f)
  | 0x11#8 => some (.vsub f)
  | 0x12#8 => some (.vmul f)
  | 0x13#8 => some (.vmulh f)
  | 0x14#8 => some (.vfma f)
  | 0x15#8 => some (.vfms f)
  | 0x16#8 => some (.vfnma f)
  | 0x17#8 => some (.vmin f)
  | 0x18#8 => some (.vmax f)
  | 0x19#8 => some (.vabs f)
  | 0x1A#8 => some (.vneg f)
  | 0x1B#8 => some (.vavg f)
  | 0x1C#8 => some (.vabsd f)
  | 0x1D#8 => some (.vclamp f)
  | 0x1E#8 => some (.vsign f)
  | 0x1F#8 => some (.vscale f)
  | 0x20#8 => some (.vdot4 f)
  | 0x21#8 => some (.vdot2 f)
  | 0x22#8 => some (.vmulw f)
  | 0x23#8 => some (.vaddw f)
  | 0x24#8 => some (.vrint f)
  | 0x25#8 => some (.vmulq f)
  | 0x26#8 => some (.vlut f)
  | 0x27#8 => some (.vfrexp f)
  | 0x30#8 => some (.vcmpEq f)
  | 0x31#8 => some (.vcmpNe f)
  | 0x32#8 => some (.vcmpLt f)
  | 0x33#8 => some (.vcmpLe f)
  | 0x34#8 => some (.vcmpUnord f)
  | 0x35#8 => some (.vcmpOrd f)
  | 0x36#8 => some (.vsel f)
  | 0x37#8 => some (.vclass f)
  | 0x38#8 => some (.kand f)
  | 0x39#8 => some (.kor f)
  | 0x3A#8 => some (.kxor f)
  | 0x3B#8 => some (.knot f)
  | 0x3C#8 => some (.kpopc f)
  | 0x3D#8 => some (.kfirst f)
  | 0x3E#8 => some (.vtok f)
  | 0x3F#8 => some (.ktov f)
  | 0x40#8 => some (.kset f)
  | 0x50#8 => some (.vand f)
  | 0x51#8 => some (.vor f)
  | 0x52#8 => some (.vxor f)
  | 0x53#8 => some (.vnot f)
  | 0x54#8 => some (.vandn f)
  | 0x55#8 => some (.vbsel f)
  | 0x56#8 => some (.vshl f)
  | 0x57#8 => some (.vshr f)
  | 0x58#8 => some (.vsra f)
  | 0x59#8 => some (.vclz f)
  | 0x5A#8 => some (.vpopc f)
  | 0x5B#8 => some (.vbrev f)
  | 0x60#8 => some (.vcvt f)
  | 0x61#8 => some (.vpack f)
  | 0x62#8 => some (.vunpk f)
  | 0x63#8 => some (.vmxq f)
  | 0x64#8 => some (.vmxd f)
  | 0x65#8 => some (.vrq f)
  | 0x70#8 => some (.vexp2 f)
  | 0x71#8 => some (.vlog2 f)
  | 0x72#8 => some (.vrcp f)
  | 0x73#8 => some (.vrsq f)
  | 0x74#8 => some (.vsqrt f)
  | 0x75#8 => some (.vsin f)
  | 0x76#8 => some (.vcos f)
  | 0x77#8 => some (.vtanh f)
  | 0x78#8 => some (.vsigm f)
  | 0x79#8 => some (.verf f)
  | 0x80#8 => some (.vrot f)
  | 0x81#8 => some (.vbcst f)
  | 0x82#8 => some (.vrsum f)
  | 0x83#8 => some (.vrmax f)
  | 0x84#8 => some (.vrmin f)
  | 0x85#8 => some (.vrmaxi f)
  | 0x86#8 => some (.vrmini f)
  | 0x87#8 => some (.vscan f)
  | 0x88#8 => some (.vshft f)
  | 0x89#8 => some (.vrsumw f)
  | 0x90#8 => some (.vperm f)
  | 0x91#8 => some (.vtrn f)
  | 0x92#8 => some (.vzip f)
  | 0x93#8 => some (.vuzp f)
  | 0x94#8 => some (.vcxs f)
  | 0x95#8 => some (.vcomp f)
  | 0x96#8 => some (.vexpd f)
  | 0x97#8 => some (.vrand f)
  | 0xA0#8 => some (.vld f)
  | 0xA1#8 => some (.vlds f)
  | 0xA2#8 => some (.vst f)
  | 0xA3#8 => some (.vsts f)
  | 0xA4#8 => some (.vldx f)
  | 0xA5#8 => some (.vstx f)
  | 0xA6#8 => some (.kld f)
  | 0xA7#8 => some (.kst f)
  | 0xA8#8 => some (.vstm f)
  | _ => none

/-- The cell of the long map that an instruction stands in, and its fields (R42). -/
def vParts (i : Instr) : Option (BitVec 8 × VFields) :=
  match i with
  | .vnop f => some (0x01#8, f)
  | .vseam f => some (0x02#8, f)
  | .vhalt f => some (0x03#8, f)
  | .vwait f => some (0x04#8, f)
  | .vsig f => some (0x05#8, f)
  | .vjmp f => some (0x06#8, f)
  | .vloop f => some (0x07#8, f)
  | .vmov f => some (0x08#8, f)
  | .vmovi f => some (0x09#8, f)
  | .vins f => some (0x0A#8, f)
  | .vswap f => some (0x0B#8, f)
  | .vpop f => some (0x0C#8, f)
  | .vpush f => some (0x0D#8, f)
  | .vqdrop f => some (0x0E#8, f)
  | .vadd f => some (0x10#8, f)
  | .vsub f => some (0x11#8, f)
  | .vmul f => some (0x12#8, f)
  | .vmulh f => some (0x13#8, f)
  | .vfma f => some (0x14#8, f)
  | .vfms f => some (0x15#8, f)
  | .vfnma f => some (0x16#8, f)
  | .vmin f => some (0x17#8, f)
  | .vmax f => some (0x18#8, f)
  | .vabs f => some (0x19#8, f)
  | .vneg f => some (0x1A#8, f)
  | .vavg f => some (0x1B#8, f)
  | .vabsd f => some (0x1C#8, f)
  | .vclamp f => some (0x1D#8, f)
  | .vsign f => some (0x1E#8, f)
  | .vscale f => some (0x1F#8, f)
  | .vdot4 f => some (0x20#8, f)
  | .vdot2 f => some (0x21#8, f)
  | .vmulw f => some (0x22#8, f)
  | .vaddw f => some (0x23#8, f)
  | .vrint f => some (0x24#8, f)
  | .vmulq f => some (0x25#8, f)
  | .vlut f => some (0x26#8, f)
  | .vfrexp f => some (0x27#8, f)
  | .vcmpEq f => some (0x30#8, f)
  | .vcmpNe f => some (0x31#8, f)
  | .vcmpLt f => some (0x32#8, f)
  | .vcmpLe f => some (0x33#8, f)
  | .vcmpUnord f => some (0x34#8, f)
  | .vcmpOrd f => some (0x35#8, f)
  | .vsel f => some (0x36#8, f)
  | .vclass f => some (0x37#8, f)
  | .kand f => some (0x38#8, f)
  | .kor f => some (0x39#8, f)
  | .kxor f => some (0x3A#8, f)
  | .knot f => some (0x3B#8, f)
  | .kpopc f => some (0x3C#8, f)
  | .kfirst f => some (0x3D#8, f)
  | .vtok f => some (0x3E#8, f)
  | .ktov f => some (0x3F#8, f)
  | .kset f => some (0x40#8, f)
  | .vand f => some (0x50#8, f)
  | .vor f => some (0x51#8, f)
  | .vxor f => some (0x52#8, f)
  | .vnot f => some (0x53#8, f)
  | .vandn f => some (0x54#8, f)
  | .vbsel f => some (0x55#8, f)
  | .vshl f => some (0x56#8, f)
  | .vshr f => some (0x57#8, f)
  | .vsra f => some (0x58#8, f)
  | .vclz f => some (0x59#8, f)
  | .vpopc f => some (0x5A#8, f)
  | .vbrev f => some (0x5B#8, f)
  | .vcvt f => some (0x60#8, f)
  | .vpack f => some (0x61#8, f)
  | .vunpk f => some (0x62#8, f)
  | .vmxq f => some (0x63#8, f)
  | .vmxd f => some (0x64#8, f)
  | .vrq f => some (0x65#8, f)
  | .vexp2 f => some (0x70#8, f)
  | .vlog2 f => some (0x71#8, f)
  | .vrcp f => some (0x72#8, f)
  | .vrsq f => some (0x73#8, f)
  | .vsqrt f => some (0x74#8, f)
  | .vsin f => some (0x75#8, f)
  | .vcos f => some (0x76#8, f)
  | .vtanh f => some (0x77#8, f)
  | .vsigm f => some (0x78#8, f)
  | .verf f => some (0x79#8, f)
  | .vrot f => some (0x80#8, f)
  | .vbcst f => some (0x81#8, f)
  | .vrsum f => some (0x82#8, f)
  | .vrmax f => some (0x83#8, f)
  | .vrmin f => some (0x84#8, f)
  | .vrmaxi f => some (0x85#8, f)
  | .vrmini f => some (0x86#8, f)
  | .vscan f => some (0x87#8, f)
  | .vshft f => some (0x88#8, f)
  | .vrsumw f => some (0x89#8, f)
  | .vperm f => some (0x90#8, f)
  | .vtrn f => some (0x91#8, f)
  | .vzip f => some (0x92#8, f)
  | .vuzp f => some (0x93#8, f)
  | .vcxs f => some (0x94#8, f)
  | .vcomp f => some (0x95#8, f)
  | .vexpd f => some (0x96#8, f)
  | .vrand f => some (0x97#8, f)
  | .vld f => some (0xA0#8, f)
  | .vlds f => some (0xA1#8, f)
  | .vst f => some (0xA2#8, f)
  | .vsts f => some (0xA3#8, f)
  | .vldx f => some (0xA4#8, f)
  | .vstx f => some (0xA5#8, f)
  | .kld f => some (0xA6#8, f)
  | .kst f => some (0xA7#8, f)
  | .vstm f => some (0xA8#8, f)
  | _ => none

/-- The M map (R49). -/
noncomputable def mInstr (op : BitVec 8) (f : MFields) : Option Instr :=
  match op with
  | 0x01#8 => some (.mnop f)
  | 0x02#8 => some (.mhalt f)
  | 0x03#8 => some (.mseam f)
  | 0x04#8 => some (.mreply f)
  | 0x05#8 => some (.mloop f)
  | 0x06#8 => some (.mend f)
  | 0x07#8 => some (.mjmp f)
  | 0x08#8 => some (.mfence f)
  | 0x09#8 => some (.mbrk f)
  | 0x10#8 => some (.qstep f)
  | 0x11#8 => some (.qstepI4 f)
  | 0x12#8 => some (.qdrain f)
  | 0x13#8 => some (.mBolt f)
  | 0x14#8 => some (.qcb f)
  | 0x15#8 => some (.qscl f)
  | 0x16#8 => some (.qwin f)
  | 0x17#8 => some (.qrel f)
  | 0x18#8 => some (.qskip f)
  | 0x19#8 => some (.qnz f)
  | 0x20#8 => some (.mmaI8 f)
  | 0x21#8 => some (.mmaE4m3 f)
  | 0x22#8 => some (.mmaE5m2 f)
  | 0x23#8 => some (.mmaBf16 f)
  | 0x24#8 => some (.mmaMx4 f)
  | 0x28#8 => some (.mmaGI8 f)
  | 0x29#8 => some (.mmaGE4m3 f)
  | 0x2A#8 => some (.mmaGE5m2 f)
  | 0x2B#8 => some (.mmaGBf16 f)
  | 0x2C#8 => some (.mmaGMx4 f)
  | 0x30#8 => some (.mmaMskI8 f)
  | 0x31#8 => some (.mmaMskE4m3 f)
  | 0x32#8 => some (.mmaMskE5m2 f)
  | 0x33#8 => some (.mmaMskBf16 f)
  | 0x34#8 => some (.mmaMskMx4 f)
  | 0x35#8 => some (.mmld f)
  | 0x40#8 => some (.yclr f)
  | 0x41#8 => some (.yld f)
  | 0x42#8 => some (.yst f)
  | 0x43#8 => some (.ymov f)
  | 0x44#8 => some (.yadd f)
  | 0x45#8 => some (.ymax f)
  | 0x46#8 => some (.yfill f)
  | 0x47#8 => some (.yred f)
  | 0x48#8 => some (.yscl f)
  | 0x49#8 => some (.yswap f)
  | 0x4A#8 => some (.epi f)
  | 0x4B#8 => some (.mtrn f)
  | _ => none

/-- The cell of the M map that a word stands in, and its fields (R49). -/
def mParts (i : Instr) : Option (BitVec 8 × MFields) :=
  match i with
  | .mnop f => some (0x01#8, f)
  | .mhalt f => some (0x02#8, f)
  | .mseam f => some (0x03#8, f)
  | .mreply f => some (0x04#8, f)
  | .mloop f => some (0x05#8, f)
  | .mend f => some (0x06#8, f)
  | .mjmp f => some (0x07#8, f)
  | .mfence f => some (0x08#8, f)
  | .mbrk f => some (0x09#8, f)
  | .qstep f => some (0x10#8, f)
  | .qstepI4 f => some (0x11#8, f)
  | .qdrain f => some (0x12#8, f)
  | .mBolt f => some (0x13#8, f)
  | .qcb f => some (0x14#8, f)
  | .qscl f => some (0x15#8, f)
  | .qwin f => some (0x16#8, f)
  | .qrel f => some (0x17#8, f)
  | .qskip f => some (0x18#8, f)
  | .qnz f => some (0x19#8, f)
  | .mmaI8 f => some (0x20#8, f)
  | .mmaE4m3 f => some (0x21#8, f)
  | .mmaE5m2 f => some (0x22#8, f)
  | .mmaBf16 f => some (0x23#8, f)
  | .mmaMx4 f => some (0x24#8, f)
  | .mmaGI8 f => some (0x28#8, f)
  | .mmaGE4m3 f => some (0x29#8, f)
  | .mmaGE5m2 f => some (0x2A#8, f)
  | .mmaGBf16 f => some (0x2B#8, f)
  | .mmaGMx4 f => some (0x2C#8, f)
  | .mmaMskI8 f => some (0x30#8, f)
  | .mmaMskE4m3 f => some (0x31#8, f)
  | .mmaMskE5m2 f => some (0x32#8, f)
  | .mmaMskBf16 f => some (0x33#8, f)
  | .mmaMskMx4 f => some (0x34#8, f)
  | .mmld f => some (0x35#8, f)
  | .yclr f => some (0x40#8, f)
  | .yld f => some (0x41#8, f)
  | .yst f => some (0x42#8, f)
  | .ymov f => some (0x43#8, f)
  | .yadd f => some (0x44#8, f)
  | .ymax f => some (0x45#8, f)
  | .yfill f => some (0x46#8, f)
  | .yred f => some (0x47#8, f)
  | .yscl f => some (0x48#8, f)
  | .yswap f => some (0x49#8, f)
  | .epi f => some (0x4A#8, f)
  | .mtrn f => some (0x4B#8, f)
  | _ => none

/-- The short map (R43) on the fields vd and va. -/
noncomputable def vShortInstr (op : BitVec 8) (vd va : BitVec 11) : Option Instr :=
  match op with
  | 0x01#8 => some .vnopShort
  | 0x02#8 => some (.vseamShort (va ++ vd))
  | 0x03#8 => some .vhaltShort
  | 0x04#8 => some (.vmovShort vd va)
  | 0x05#8 => some (.vswapShort vd va)
  | 0x06#8 => some (.vpopShort vd va)
  | 0x07#8 => some (.vqdropShort va)
  | 0x08#8 => some (.vnotShort vd va)
  | 0x09#8 => some (.vandShort vd va)
  | 0x0A#8 => some (.vorShort vd va)
  | 0x0B#8 => some (.vxorShort vd va)
  | 0x0C#8 => some (.vandnShort vd va)
  | 0x0D#8 => some (.kandShort (low4 vd) (low4 va))
  | 0x0E#8 => some (.korShort (low4 vd) (low4 va))
  | 0x0F#8 => some (.kxorShort (low4 vd) (low4 va))
  | 0x10#8 => some (.knotShort (low4 vd) (low4 va))
  | 0x11#8 => some (.vaddF32Short vd va)
  | 0x12#8 => some (.vsubF32Short vd va)
  | 0x13#8 => some (.vmulF32Short vd va)
  | 0x14#8 => some (.vminF32Short vd va)
  | 0x15#8 => some (.vmaxF32Short vd va)
  | 0x16#8 => some (.vabsF32Short vd va)
  | 0x17#8 => some (.vnegF32Short vd va)
  | 0x18#8 => some (.vexp2F32Short vd va)
  | 0x19#8 => some (.vaddBf16Short vd va)
  | 0x1A#8 => some (.vsubBf16Short vd va)
  | 0x1B#8 => some (.vmulBf16Short vd va)
  | 0x1C#8 => some (.vminBf16Short vd va)
  | 0x1D#8 => some (.vmaxBf16Short vd va)
  | 0x20#8 => some (.vaddI32Short vd va)
  | 0x21#8 => some (.vsubI32Short vd va)
  | 0x22#8 => some (.vmulI32Short vd va)
  | 0x23#8 => some (.vminI32Short vd va)
  | 0x24#8 => some (.vmaxI32Short vd va)
  | 0x25#8 => some (.vaddI16Short vd va)
  | 0x26#8 => some (.vsubI16Short vd va)
  | 0x27#8 => some (.vaddI8Short vd va)
  | 0x28#8 => some (.vsubI8Short vd va)
  | _ => none

/-- The cell of the short map that an instruction stands in, with its fields vd and va (R43). -/
def vShortParts (i : Instr) : Option (BitVec 8 × BitVec 11 × BitVec 11) :=
  match i with
  | .vnopShort => some (0x01#8, 0, 0)
  | .vseamShort id => some (0x02#8, id.extractLsb' 0 11, id.extractLsb' 11 11)
  | .vhaltShort => some (0x03#8, 0, 0)
  | .vmovShort vd va => some (0x04#8, vd, va)
  | .vswapShort vd va => some (0x05#8, vd, va)
  | .vpopShort vd va => some (0x06#8, vd, va)
  | .vqdropShort va => some (0x07#8, 0, va)
  | .vnotShort vd va => some (0x08#8, vd, va)
  | .vandShort vd va => some (0x09#8, vd, va)
  | .vorShort vd va => some (0x0A#8, vd, va)
  | .vxorShort vd va => some (0x0B#8, vd, va)
  | .vandnShort vd va => some (0x0C#8, vd, va)
  | .kandShort mk ma => some (0x0D#8, mk.setWidth 11, ma.setWidth 11)
  | .korShort mk ma => some (0x0E#8, mk.setWidth 11, ma.setWidth 11)
  | .kxorShort mk ma => some (0x0F#8, mk.setWidth 11, ma.setWidth 11)
  | .knotShort mk ma => some (0x10#8, mk.setWidth 11, ma.setWidth 11)
  | .vaddF32Short vd va => some (0x11#8, vd, va)
  | .vsubF32Short vd va => some (0x12#8, vd, va)
  | .vmulF32Short vd va => some (0x13#8, vd, va)
  | .vminF32Short vd va => some (0x14#8, vd, va)
  | .vmaxF32Short vd va => some (0x15#8, vd, va)
  | .vabsF32Short vd va => some (0x16#8, vd, va)
  | .vnegF32Short vd va => some (0x17#8, vd, va)
  | .vexp2F32Short vd va => some (0x18#8, vd, va)
  | .vaddBf16Short vd va => some (0x19#8, vd, va)
  | .vsubBf16Short vd va => some (0x1A#8, vd, va)
  | .vmulBf16Short vd va => some (0x1B#8, vd, va)
  | .vminBf16Short vd va => some (0x1C#8, vd, va)
  | .vmaxBf16Short vd va => some (0x1D#8, vd, va)
  | .vaddI32Short vd va => some (0x20#8, vd, va)
  | .vsubI32Short vd va => some (0x21#8, vd, va)
  | .vmulI32Short vd va => some (0x22#8, vd, va)
  | .vminI32Short vd va => some (0x23#8, vd, va)
  | .vmaxI32Short vd va => some (0x24#8, vd, va)
  | .vaddI16Short vd va => some (0x25#8, vd, va)
  | .vsubI16Short vd va => some (0x26#8, vd, va)
  | .vaddI8Short vd va => some (0x27#8, vd, va)
  | .vsubI8Short vd va => some (0x28#8, vd, va)
  | .vHintShort op vd va => some (0xF#4 ++ op, vd, va)
  | _ => none
/-- What the bits of a V or M instruction name, before they are one `Instr` (assumption 22). -/
inductive Decoded where
  | vShort (op : BitVec 8) (vd va : BitVec 11)
  | vLong (op : BitVec 8) (f : VFields)
  | vHint (raw : VRaw)
  | m (op : BitVec 8) (f : MFields)
  | mHint (w : BitVec 192)
  deriving DecidableEq, Repr

/-- The instruction that decoded bits stand for. -/
noncomputable def Decoded.instr : Decoded → Option Instr
  | .vShort op vd va => if 0xF0 ≤ op then some (.vHintShort (op.extractLsb' 0 4) vd va) else vShortInstr op vd va
  | .vLong op f => vInstr op f
  | .vHint raw => some (.vHint raw)
  | .m op f => mInstr op f
  | .mHint w => some (.mHint w)

/-- A legal encoding, or its decode trap. -/
def orFault (f : Option DecodeFault) (d : Decoded) : Except DecodeFault Decoded :=
  match f with
  | some e => .error e
  | none => .ok d

/-- Reading of a 32-bit V instruction (R31, R32, R43). -/
def readVShort (w : Parcel) : Except DecodeFault Decoded :=
  let op := w.extractLsb' 2 8
  let vd := w.extractLsb' 10 11
  let va := w.extractLsb' 21 11
  orFault (vShortFault op vd va) (.vShort op vd va)

/-- The fields of the 64-bit part, with the type code not yet read (R31). -/
def vFieldsOf (x : BitVec 64) (ty : VTy) (ext : VExt) : VFields :=
  { modifier := x.extractLsb' 52 12, vb := x.extractLsb' 41 11, va := x.extractLsb' 30 11, vd := x.extractLsb' 19 11,
    sense := x.getLsbD 18, mask := x.extractLsb' 14 4, ty := ty, ext := ext }

/-- What the third parcel holds (R31). -/
def vExtOf (vb : BitVec 11) (p2 : Parcel) : VExt :=
  if vb == regLit then .lit p2
  else .run (p2.extractLsb' 21 11) (p2.extractLsb' 16 5) (p2.extractLsb' 11 5) (p2.extractLsb' 6 5) (p2.extractLsb' 0 6)

/-- Reading of the 64-bit part with what follows it (R33, R42). -/
def readVLong (x : BitVec 64) (ext : VExt) (raw : VRaw) : Except DecodeFault Decoded :=
  let op := x.extractLsb' 2 8
  if 0xF0 ≤ op then .ok (.vHint raw)
  else
    match VTy.ofCode (x.extractLsb' 10 4) with
    | none => .error .illegal
    | some ty =>
      let f := vFieldsOf x ty ext
      orFault (vFault op f) (.vLong op f)

/-- Parcels of a V instruction by bits 1:0 of the first (R31). -/
def vLength (p0 : Parcel) : Option Nat :=
  match p0.extractLsb' 0 2 with
  | 0#2 => some 1
  | 1#2 => some 2
  | 2#2 => some 3
  | _ => none

/-- Reading of a V instruction from three parcels, of which it uses as many as its length says (R31). -/
def readV (p0 p1 p2 : Parcel) : Except DecodeFault Decoded :=
  let x : BitVec 64 := p1 ++ p0
  match vLength p0 with
  | some 1 => readVShort p0
  | some 2 => readVLong x .none (.w64 x)
  | some _ => readVLong x (vExtOf (x.extractLsb' 41 11) p2) (.w96 (p2 ++ x))
  | none => .error .illegalLen

/-- The 64-bit part of a V instruction (R31). -/
def vWord (op : BitVec 8) (f : VFields) (len : BitVec 2) : BitVec 64 :=
  f.modifier ++ f.vb ++ f.va ++ f.vd ++ BitVec.ofBool f.sense ++ f.mask ++ f.ty.code ++ op ++ len

/-- The parcels of a 64-bit pattern. -/
def parcels2 (x : BitVec 64) : List Parcel := [x.extractLsb' 0 32, x.extractLsb' 32 32]

/-- The parcels of a long-map instruction. -/
def vParcels (op : BitVec 8) (f : VFields) : List Parcel :=
  match f.ext with
  | .none => parcels2 (vWord op f 1)
  | .lit v => parcels2 (vWord op f 2) ++ [v]
  | .run vc sb sa sd count => parcels2 (vWord op f 2) ++ [vc ++ sb ++ sa ++ sd ++ count]

/-- The parcel of a short cell (R31). -/
def vShortWord (op : BitVec 8) (vd va : BitVec 11) : Parcel := va ++ vd ++ op ++ 0#2

/-- R18: the length of a hint cell agrees with its bits 1:0, and its opcode is a hint cell. -/
def vRawOk : VRaw → Bool
  | .w64 x => x.extractLsb' 0 2 == 1 && 0xF0 ≤ x.extractLsb' 2 8
  | .w96 x => x.extractLsb' 0 2 == 2 && 0xF0 ≤ x.extractLsb' 2 8

/-- The parcels of a hint cell. -/
def vRawParcels : VRaw → List Parcel
  | .w64 x => parcels2 x
  | .w96 x => [x.extractLsb' 0 32, x.extractLsb' 32 32, x.extractLsb' 64 32]

/-! ## M words -/

/-- The fields of an M word (R44, R46). -/
def mFieldsOf (w : BitVec 192) : MFields :=
  { locC := w.extractLsb' 160 32, rs := w.getLsbD 159, cs := w.getLsbD 158, count := w.extractLsb' 140 14,
    rnd := w.extractLsb' 137 3, rot := w.getLsbD 136, epi := w.extractLsb' 131 5, acc := w.extractLsb' 128 3,
    locB := w.extractLsb' 96 32, locA := w.extractLsb' 64 32, seq := w.extractLsb' 56 8, sat := w.getLsbD 52, trb := w.getLsbD 51,
    d64 := w.getLsbD 50, clr := w.getLsbD 49, rply := w.getLsbD 48, sigInc := w.extractLsb' 40 8, sigSem := w.extractLsb' 32 8,
    waitThr := w.extractLsb' 16 16, waitSem := w.extractLsb' 8 8 }

/-- The M word of an opcode and its fields (R44, R46). -/
def mWord (op : BitVec 8) (f : MFields) : BitVec 192 :=
  f.locC ++ BitVec.ofBool f.rs ++ BitVec.ofBool f.cs ++ 0#4 ++ f.count ++ f.rnd ++ BitVec.ofBool f.rot ++ f.epi ++ f.acc ++
    f.locB ++ f.locA ++ f.seq ++ 0#3 ++ BitVec.ofBool f.sat ++ BitVec.ofBool f.trb ++ BitVec.ofBool f.d64 ++ BitVec.ofBool f.clr ++
    BitVec.ofBool f.rply ++ f.sigInc ++ f.sigSem ++ f.waitThr ++ f.waitSem ++ op

/-- A locator (R47). -/
inductive Loc where
  | none
  | csa (addr : BitVec 21)
  | td (t : BitVec 4)
  | mq (q : BitVec 2)
  deriving DecidableEq, Repr

/-- R47: a locator, unless its kind is reserved or a bit that must be zero is not. -/
def locOf (x : BitVec 32) : Option Loc :=
  match x.extractLsb' 29 3 with
  | 0#3 => if x.extractLsb' 0 29 == 0 then some .none else Option.none
  | 1#3 => if x.extractLsb' 21 8 == 0 then some (.csa (x.extractLsb' 0 21)) else Option.none
  | 2#3 => if x.extractLsb' 4 25 == 0 then some (.td (x.extractLsb' 0 4)) else Option.none
  | 3#3 => if x.extractLsb' 2 27 == 0 then some (.mq (x.extractLsb' 0 2)) else Option.none
  | _ => Option.none

/-- Which kinds a locator column allows (R228); `given` is false where the table gives the word no locator. -/
structure LocCol where
  t : Bool
  s : Bool
  n : Bool
  deriving DecidableEq, Repr

/-- The locator columns of R228. -/
def colN : LocCol := ⟨false, false, true⟩
/-- T. -/
def colT : LocCol := ⟨true, false, false⟩
/-- S. -/
def colS : LocCol := ⟨false, true, false⟩
/-- T or S. -/
def colTS : LocCol := ⟨true, true, false⟩
/-- T or N. -/
def colTN : LocCol := ⟨true, false, true⟩

/-- R228: the locator is of a kind its column allows. -/
def LocCol.allows (c : LocCol) (l : Loc) : Bool :=
  match l with
  | .none => c.n
  | .csa _ => c.s
  | .td _ => c.t
  | .mq _ => c.t || c.s

/-- R47: a CSA address is a multiple of 64. -/
def Loc.aligned : Loc → Bool
  | .csa a => a.extractLsb' 0 6 == 0
  | _ => true

/-- The fields that a word takes beside its wait and signal (R228). -/
structure MSpec where
  a : LocCol := colN
  b : LocCol := colN
  c : LocCol := colN
  acc : Bool := false
  count : BitVec 14 := 0
  rot : Bool := false
  epi : Bool := false
  trb : Bool := false
  d64 : Bool := false
  clr : Bool := false
  rply : Bool := false
  deriving DecidableEq, Repr

/-- R228. -/
def mSpec (op : BitVec 8) : Option MSpec :=
  match op.toNat with
  | 0x01 | 0x02 => some {}
  | 0x08 => some { rply := true }
  | 0x09 => some { count := 0x3FFF }
  | 0x10 | 0x11 => some { a := colTS, b := colS, acc := true, count := 1, rot := true, d64 := true, clr := true, rply := true }
  | 0x12 => some { rply := true }
  | 0x13 => some { a := colS, b := colS, count := 0x3FFF, d64 := true, rply := true }
  | 0x14 => some { a := colTS, b := colS, rply := true }
  | 0x15 => some { a := colS, b := colS, rply := true }
  | 0x16 => some { a := colS, b := colS, count := 3, d64 := true, rply := true }
  | 0x17 => some { b := colS, rply := true }
  | 0x18 => some { count := 0x3FFF }
  | 0x19 => some { a := colTS }
  | 0x20 | 0x21 | 0x22 | 0x23 => some { a := colT, b := colTN, acc := true, trb := true, clr := true, rply := true }
  | 0x24 => some { a := colT, b := colTN, c := colS, acc := true, trb := true, clr := true, rply := true }
  | 0x28 | 0x29 | 0x2A | 0x2B | 0x2C => some { a := colS, b := colTN, c := colS, acc := true, trb := true, clr := true, rply := true }
  | 0x30 | 0x31 | 0x32 | 0x33 | 0x34 => some { a := colT, b := colTN, c := colS, acc := true, trb := true, clr := true, rply := true }
  | 0x35 => some { b := colT, trb := true, rply := true }
  | 0x40 => some { acc := true, rply := true }
  | 0x41 | 0x42 => some { a := colS, acc := true, rply := true }
  | 0x43 | 0x44 | 0x45 | 0x49 => some { acc := true, count := 7, rply := true }
  | 0x46 => some { a := colS, acc := true, count := 1, rply := true }
  | 0x47 => some { a := colS, acc := true, count := 3, rply := true }
  | 0x48 => some { acc := true, count := 0x3FFF, rply := true }
  | 0x4A => some { a := colS, b := ⟨false, true, true⟩, c := ⟨false, true, true⟩, acc := true, count := 1, epi := true, rply := true }
  | 0x4B => some { a := colT, b := colT, rply := true }
  | _ => none

/-- R45: a zero threshold or increment goes with a zero semaphore. -/
def semFieldsBad (f : MFields) : Bool := (f.waitThr == 0 && f.waitSem != 0) || (f.sigInc == 0 && f.sigSem != 0)

/-- Locators that break R47. -/
def locsBad (f : MFields) : Bool := (locOf f.locA).isNone || (locOf f.locB).isNone || (locOf f.locC).isNone

/-- R48, R255: field values that EPI excludes. -/
def epiBad (f : MFields) : Bool :=
  let e := f.epi.toNat
  e == 0 || 9 < e || 4 < f.rnd || (e ≤ 3 && f.rnd != 0) || (f.sat && (e ≤ 3 || 8 ≤ e)) || (f.seq != 0 && f.rnd != 4) ||
    (f.count != 0 && e != 3)

/-- R255: EPI's locator columns, which its other fields fix. -/
def epiCols (f : MFields) : LocCol × LocCol :=
  let e := f.epi.toNat
  (if f.rs || f.cs then colS else colN, if e == 2 || e == 3 || 8 ≤ e then colS else colN)

/-- A locator's column refuses it, or its address is not aligned (R47, R228). -/
def locBad (c : LocCol) (x : BitVec 32) : Bool :=
  match locOf x with
  | some l => !c.allows l || !l.aligned
  | none => true

/-- A locator stands where the table gives the word none (R228, assumption 21). -/
def locExtra (c : LocCol) (x : BitVec 32) : Bool := c == colN && x != 0

/-- The decode fault of a word that R228 gives its fields (R16, R17). -/
def mFaultOf (op : BitVec 8) (sp : MSpec) (f : MFields) : Option DecodeFault :=
  let cols := if sp.epi then epiCols f else (sp.b, sp.c)
  firstFault [
    (semFieldsBad f, .illegal),
    ((!sp.acc && f.acc != 0) || f.count &&& ~~~sp.count != 0 || (!sp.rot && f.rot), .illegal),
    (!sp.epi && (f.epi != 0 || f.rnd != 0 || f.rs || f.cs || f.seq != 0 || f.sat), .illegal),
    ((!sp.trb && f.trb) || (!sp.d64 && f.d64) || (!sp.clr && f.clr) || (!sp.rply && f.rply), .illegal),
    (locsBad f, .illegal),
    (locExtra sp.a f.locA || locExtra sp.b f.locB || locExtra sp.c f.locC, .illegal),
    (sp.epi && epiBad f, .illegal),
    (op == 0x09 && (f.sigInc != 0 || f.sigSem != 0), .illegal),
    (op == 0x16 && f.count.extractLsb' 0 2 == 0, .illegal),
    (op == 0x13 && (f.count.extractLsb' 0 2 == 0 || f.count.extractLsb' 2 12 == 0), .illegal),
    (locBad sp.a f.locA || locBad cols.1 f.locB || locBad cols.2 f.locC, .illegalOp),
    (op == 0x11 && f.acc.getLsbD 0, .illegalOp)]

/-- The fields that every control word of R48 holds at zero. -/
def ctlZero (f : MFields) : Bool :=
  f.seq == 0 && !f.sat && !f.trb && !f.d64 && !f.clr && !f.rply

/-- Parcel 2 is zero but for locator C and the count. -/
def parcel2Zero (f : MFields) : Bool := !f.rs && !f.cs && f.rnd == 0 && !f.rot && f.epi == 0 && f.acc == 0

/-- Locator C and the count are zero. -/
def countZero (f : MFields) : Bool := f.locC == 0 && f.count == 0

/-- Parcel 1 names a loop counter and nothing else (R48). -/
def loopField (f : MFields) : Bool := f.locB == 0 && f.locA.extractLsb' 26 6 == 0 && f.locA.extractLsb' 0 24 == 0

/-- The decode fault of a control word (R48, R233). -/
def mCtlFault (op : BitVec 8) (f : MFields) : Option DecodeFault :=
  let plain := ctlZero f && parcel2Zero f
  match op.toNat with
  | 0x03 => firstFault [(!plain || !countZero f || f.locB != 0 || f.locA.extractLsb' 22 10 != 0 || f.waitThr != 0 || f.waitSem != 0 ||
      f.sigInc != 0 || f.sigSem != 0, .illegal)]
  | 0x04 => firstFault [(semFieldsBad f || !plain || !countZero f, .illegal)]
  | 0x05 => firstFault [
      (semFieldsBad f || !plain || !loopField f || (locOf f.locC).isNone || (f.locC != 0 && f.count != 0), .illegal),
      (match locOf f.locC with
        | some (.mq _) => false
        | some .none => false
        | _ => true, .illegalOp)]
  | 0x06 => firstFault [(semFieldsBad f || !plain || !countZero f || !loopField f, .illegal)]
  | _ => firstFault [(semFieldsBad f || !plain || !countZero f || f.locB != 0 || f.locA.extractLsb' 24 8 != 0, .illegal)]

/-- The decode fault of an M word. -/
def mFault (op : BitVec 8) (f : MFields) : Option DecodeFault :=
  if 0x03 ≤ op && op ≤ 0x07 then mCtlFault op f else (mSpec op).elim (some .illegal) fun sp => mFaultOf op sp f

/-- The bits of an M word that are always zero (R44, R46). -/
def mZeroBits (w : BitVec 192) : Bool := w.extractLsb' 53 3 == 0 && w.extractLsb' 154 4 == 0

/-- Reading of an M word. -/
def readM (w : BitVec 192) : Except DecodeFault Decoded :=
  let op := w.extractLsb' 0 8
  if 0xF0 ≤ op then .ok (.mHint w)
  else if !mZeroBits w then .error .illegal
  else orFault (mFault op (mFieldsOf w)) (.m op (mFieldsOf w))

/-- The instruction of what was read. -/
noncomputable def toInstr (r : Except DecodeFault Decoded) : Except DecodeFault Instr :=
  match r with
  | .error f => .error f
  | .ok d =>
    match d.instr with
    | some i => .ok i
    | none => .error .illegal

/-- Decoding of a V instruction. -/
noncomputable def decodeV (p0 p1 p2 : Parcel) : Except DecodeFault Instr := toInstr (readV p0 p1 p2)

/-- Decoding of an M word. -/
noncomputable def decodeM (w : BitVec 192) : Except DecodeFault Instr := toInstr (readM w)

/-- The six parcels of an M word. -/
def mParcels (w : BitVec 192) : List Parcel :=
  [w.extractLsb' 0 32, w.extractLsb' 32 32, w.extractLsb' 64 32, w.extractLsb' 96 32, w.extractLsb' 128 32, w.extractLsb' 160 32]

/-! ## All instructions -/

/-- The decode fault that an instruction's field values raise. -/
def instrFault (i : Instr) : Option DecodeFault :=
  match vParts i with
  | some (op, f) => vFault op f
  | none =>
    match mParts i with
    | some (op, f) => mFault op f
    | none =>
      match vShortParts i with
      | some (op, vd, va) => vShortFault op vd va
      | none => aFault i

/-- The words of an instruction, in parcels from the lowest address on; an event has none. -/
def encode (i : Instr) : List Parcel :=
  match aParts i with
  | some a => [a.toParcel]
  | none =>
    match vParts i with
    | some (op, f) => vParcels op f
    | none =>
      match vShortParts i with
      | some (op, vd, va) => [vShortWord op vd va]
      | none =>
        match mParts i with
        | some (op, f) => mParcels (mWord op f)
        | none =>
          match i with
          | .vHint w => vRawParcels w
          | .mHint w => mParcels w
          | _ => []

/-- An answer without the reason of a refusal. -/
def okInstr : Except DecodeFault Instr → Option Instr
  | .ok i => some i
  | .error _ => none

/-- The instruction in the bits of an opcode-table row: 32-bit rows stand for a word of the A-stream or a short V cell, longer ones
for the instruction of that length. -/
noncomputable def decodeTableWord (nbits w : Nat) : Option Instr :=
  let p (k : Nat) : Parcel := BitVec.ofNat 32 (w >>> (32 * k))
  if nbits ≤ 32 then
    match decodeA (p 0) with
    | .ok i => some i
    | .error _ => if vLength (p 0) == some 1 then okInstr (decodeV (p 0) 0 0) else none
  else if nbits ≤ 96 then okInstr (decodeV (p 0) (p 1) (p 2))
  else okInstr (decodeM (BitVec.ofNat 192 w))

end Sys2Proof
end

