-- ==== Sys2Proof/Machine/State.lean ====
section
/-! DEFINITION. Everything the manual gives the part to hold, as plain data, and the machine right after a cold reset. Each field
cites the rule that names it; INVENTORY.md lists them with their reset values. -/

namespace Sys2Proof.Machine

open Sys2Proof

/-- The model's own stops. No word of the three streams raises one. -/
inductive Fault where
  /-- Raised by HOST_ACCESS and MILLER_ACCESS at a physical address that R304 calls reserved: no address is there. Safe: the run stops
  where the manual says nothing happens. -/
  | reservedAddress
  deriving DecidableEq, Repr

/-- Why a step has no meaning. -/
inductive Refusal where
  /-- Raised by an arm of `exec` whose instruction has no meaning yet. Safe: the run stops. -/
  | notModelled (mnemonic : String)
  deriving DecidableEq, Repr

/-- The traps of R258. -/
inductive TrapCode where
  | illegal | illegalLen | illegalOp | misalign | prot | nonres | divZero | vArith | semOvf | queue | mFault | copy | soft
  | brkpt | watch | spawnRecord | uncorr | seamIntegrity | saveUncorr | shuttleLoss | selvedgeLoss
  deriving DecidableEq, Repr

/-- Where a trap arose (R260). -/
inductive Stream where
  | a | v | m | copy
  deriving DecidableEq, Repr

/-! ## One core -/

/-- An entry of a stream register (R124): its bytes, and whether all have arrived; `id` ties it to outstanding peer accesses. -/
structure QEntry where
  data : VReg
  ready : Bool
  id : Nat
  deriving DecidableEq, Repr

/-- An entry of rq (R106, R122). -/
structure RqEntry where
  fault : Bool
  payload : Word
  deriving DecidableEq, Repr

/-- What a copy command does (R108 to R110). -/
inductive CopyKind where
  | cp
  | bolt
  | toQ (q : BitVec 4)
  deriving DecidableEq, Repr

/-- A copy command as read at issue (R107); `met` says that its wait has been satisfied (R127). -/
structure CopyCmd where
  kind : CopyKind
  src : Word
  dst : Word
  rows : BitVec 32
  len : BitVec 32
  sstr : Word
  dstr : Word
  d64 : Bool
  cw : BitVec 2
  sinc : BitVec 8
  ssem : BitVec 8
  wthr : BitVec 16
  wsem : BitVec 8
  met : Bool
  deriving DecidableEq, Repr

/-- A started copy command (R112): how much of it is moved (bytes, tiles or stream-register entries), and whether the peer reads and
stores of its next piece have been issued. -/
structure CopyRun where
  cmd : CopyCmd
  moved : Nat
  asked : Bool
  sent : Bool
  deriving DecidableEq, Repr

/-- The state of a gather-window slot (R236). -/
inductive SlotState where
  | empty | filling | filled | releasing
  deriving DecidableEq, Repr

/-- A gather-window slot (R211, R236): KIND 1 is I8, 2 F4, 3 I4. -/
structure GatherSlot where
  st : SlotState
  tag : Nat
  kind : BitVec 2
  d64 : Bool
  rows : BitVec 131072
  scales : VReg
  deriving DecidableEq, Repr

/-- The Runner's B buffer (R249): bytes of the tile by offset. -/
structure BBuffer where
  ty : VTy
  k : Nat
  nb : Nat
  trb : Bool
  data : Mem
  deriving DecidableEq, Repr

/-- A started M word that has not completed (R222, R224). -/
structure MFlight where
  off : BitVec 32
  opcode : BitVec 8
  sigSem : BitVec 8
  sigInc : BitVec 8
  reply : Option Word
  fence : Bool
  drain : Bool
  qstep : Bool
  slot : Option (BitVec 2)
  deriving DecidableEq, Repr

/-- A hardware loop of the V sequencer (R174); `age` orders loops by their start. -/
structure VLoop where
  start : Word
  fin : Word
  active : Bool
  age : Nat
  deriving DecidableEq, Repr

/-- A hardware loop of the M sequencer (R233). -/
structure MLoop where
  start : Word
  active : Bool
  deriving DecidableEq, Repr

/-- The A sequencer: no strand, running, or standing at a SEAM word while a stop is in progress (R72). -/
inductive ASeq where
  | idle
  | running
  | atSeam (id : BitVec 22)
  deriving DecidableEq, Repr

/-- The V sequencer (R70, R173, R262); stopped by a trap, it resumes at the given address (R266). -/
inductive VSeq where
  | idle
  | running
  | halted
  | trapped (resume : Word)
  deriving DecidableEq, Repr

/-- The M sequencer (R70, R231, R235, R267). -/
inductive MSeq where
  | idle
  | running
  | halted
  | brk
  | faulted
  deriving DecidableEq, Repr

/-- A wait that R80 covers. -/
inductive WaitKind where
  | waitM | spin | barWt
  deriving DecidableEq, Repr

/-- A trap that waits for its delivery (R262, R264). -/
structure PendingTrap where
  code : TrapCode
  stream : Stream
  epc : Word
  eval : Word
  deriving DecidableEq, Repr

/-- A posted stop request (R72): its first cause, and the time its 2-ms limit ends (R267). -/
structure StopReq where
  cause : BitVec 4
  due : Nat
  deriving DecidableEq, Repr

/-- What an outstanding peer access does when its reply returns (R424). -/
inductive AccDest where
  | sreg (r : BitVec 6) (signed : Bool)
  | amo (r : BitVec 6)
  | ldq (q : BitVec 4) (entry : Nat)
  | store
  | blockA
  | blockV
  | copyRead
  | copyWrite
  deriving DecidableEq, Repr

/-- One unit of an outstanding peer access (R138, R419): units of one access share a group; `acq` marks an acquire (R344), `strict` a
strict load (R96), `p14` that its reply writes p14 (R96), `newer` and `newerP` that a younger word has written its register or p14, so that
the reply no longer does (R87). -/
structure Access where
  id : Nat
  group : Nat
  dest : AccDest
  va : Word
  off : Nat
  len : Nat
  got : Option Reply
  acq : Bool
  strict : Bool
  p14 : Bool
  newer : Bool
  newerP : Bool
  deriving DecidableEq, Repr

/-- A byte of a V access: its byte cell in the register, its address, and what a store writes there. -/
structure VItem where
  cell : Nat
  va : Word
  byte : Byte
  deriving DecidableEq, Repr

/-- A V memory access under way, with the operands it began with (R5, R199): the bytes still to be moved, by ascending element, and what
a load has read so far with its misses. -/
structure VAcc where
  todo : List VItem
  seen : List (VItem × Byte × Bool)
  deriving DecidableEq, Repr

/-- The state of a storage unit of the bound strand (R130, R131); `await` is a claim that waits for the frame whose save it started
(R132). -/
inductive UnitSt where
  | none | await | fill | load | own
  deriving DecidableEq, Repr

/-- A frame HELD for, or in SAVE of, a strand that stopped here (R131, R132). -/
structure HeldUnit where
  owner : Nat
  unit : Nat
  order : Nat
  saving : Bool
  fresh : Bool
  data : Mem
  poison : List Nat
  deriving DecidableEq, Repr

/-- An instruction store (R119, R120): the section's offset in the image, its size and its bytes by offset. -/
structure Section where
  off : Nat
  size : Nat
  bytes : Mem
  deriving DecidableEq, Repr

/-- A breakpoint or watchpoint register (R400). -/
structure DebugReg where
  addr : Word
  queue : BitVec 12
  enable : Bool
  deriving DecidableEq, Repr

/-- One logical core (R119), its sequencers and the strand bound to it. -/
structure Core where
  /-- Pool slot of the bound bobbin, and of the SELECTED bobbin in binding (R62, R67, R280). -/
  slot : Option Nat
  claimed : Option Nat
  /-- Launch of the bound strand, and the priority it was selected with (R63, R69). -/
  launch : Nat
  selPri : BitVec 7
  /-- Registers of the strand (R21, R70, R134). -/
  s : Bank Word 6
  b : Bank Word 3
  p : Bank Bool 4
  lc : Bank (BitVec 32) 2
  vlc : Bank (BitVec 32) 2
  mlc : Bank (BitVec 32) 2
  tc : Bank Word 4
  m : Bank Mask 4
  sem : Bank (BitVec 16) 8
  /-- Control registers of the strand (R115). -/
  srkey : Word
  srctr : Word
  aexc : Word
  vexc : Word
  evec : Word
  ecause : Word
  epc : Word
  eval : Word
  /-- The handler flag (R265), the re-arming of R266 and when the handler was entered (R267). -/
  inHandler : Bool
  rearmed : Bool
  handlerSince : Nat
  /-- The A sequencer (R72), its pc, and the GRD word that guards the word at pc (R29). -/
  aseq : ASeq
  pc : Word
  grd : Option Word
  /-- A wait of R80 with its start, the spin mark with its timer (R78), and when EXIT was first reached (R267). -/
  wait : Option (WaitKind × Nat)
  spin : Option (BitVec 22 × Nat)
  exitDue : Option Nat
  /-- Marker passages of the three streams since the binding (R458). -/
  passA : List (BitVec 22 × Nat)
  passV : List (BitVec 22 × Nat)
  passM : List (BitVec 22 × Nat)
  /-- The pending stop request (R72). -/
  stop : Option StopReq
  /-- The V sequencer (R170): pc, repetition of a run in progress with the flags gathered (R39, R168), loops (R174), trap, access under way,
  entries taken for an instruction that pops more than a stream register holds (R185). -/
  vseq : VSeq
  vpc : Word
  vrep : Nat
  vflags : BitVec 5
  vloop : Bank VLoop 2
  vtrap : Option PendingTrap
  vacc : Option VAcc
  vpop : List Nat
  /-- Waits of the instruction at vpc and of the word at mpc that have been satisfied: a later decrement does not make them wait again
  (R127). -/
  metV : Bool
  metM : Bool
  /-- The M sequencer (R222): pc, loops (R233), words in flight, step and rotation number (R217). -/
  mseq : MSeq
  mpc : Word
  mloop : Bank MLoop 2
  mflight : List MFlight
  stepNo : Nat
  sigma : Nat
  /-- Queues (R121), oldest entry first. -/
  q : Bank (List QEntry) 4
  mq : Bank (List Word) 2
  rq : List RqEntry
  vq : Bank (List Word) 2
  /-- Copy unit (R107, R112, R114): queued, started, and the trap of a stopped command. -/
  copyq : List CopyCmd
  copyRun : List CopyRun
  copyTrap : Option (TrapCode × Word)
  /-- Gather window (R211) and Runner B buffer (R249). -/
  gather : Bank GatherSlot 2
  bbuf : Option BBuffer
  /-- Core store by byte offset (R128) and accumulator store, tile k at k * 0x8000 (R212), with poisoned lines (R328). -/
  cs : Mem
  acc : Mem
  csPoison : List Nat
  accPoison : List Nat
  /-- Storage units 0-31 regions, 32-39 tiles (R130), freshness (R272), frames held for other strands (R131). -/
  units : Vector UnitSt 40
  fresh : BitVec 40
  held : List HeldUnit
  /-- outstanding peer accesses (R138, R424), replies for a blocked A access, recorded store faults and not-durable store. -/
  out : List Access
  replyA : List (Reply × Word)
  storeFaults : List (TrapCode × Word)
  ndur : Option Word
  /-- Instruction stores and the image they hold (R120, R303). -/
  codeBase : Word
  codeGen : BitVec 32
  imgSize : Nat
  secA : Section
  secV : Section
  secM : Section
  /-- Registers of the core (R140, R142, R299), what its counters have not counted yet (R141), and debug registers in force (R400). -/
  ev : Bank Word 4
  evsel : Bank Word 4
  tally : List (BitVec 8 × Nat)
  ctemp : Word
  phys : BitVec 8
  spare : Bool
  offline : Bool
  dbg : List DebugReg
  deriving DecidableEq, Repr

/-! ## Cluster -/

/-- A membership word (R64). -/
structure Member where
  id : BitVec 16
  valid : Bool
  nxt : Bool
  deriving DecidableEq, Repr

/-- The states of a bobbin (R65); FREE is a slot without an entry, and `reserved` stands for the codes 0x8 to 0xF. -/
inductive BobState where
  | ready | selected | bound | stopping | watch | done | lost
  | reserved (code : BitVec 3)
  deriving DecidableEq, Repr

/-- A bobbin record (R64). -/
structure Bobbin where
  code : Word
  seam : BitVec 22
  spn : Bool
  state : BobState
  pri : BitVec 7
  qid : BitVec 12
  save : Word
  index : Word
  arg : Word
  sk0 : Member
  sk1 : Member
  ext : Word
  fault : BitVec 10
  cause : BitVec 4
  hold : BitVec 8
  nstop : BitVec 32
  deriving DecidableEq, Repr

/-- A slot of the pool that is not FREE (R62): the record, its place (R68), its wait clock (R282), what stops are posted for it
(R281, R283), its launch (R63), which of its units the save area holds (R131), and a PRI assigned while it was SELECTED or bound (R69). -/
structure PoolEntry where
  slot : Nat
  bob : Bobbin
  place : Nat
  since : Nat
  covered : Option Nat
  progress : Option Nat
  launch : Nat
  saved : BitVec 40
  nextPri : Option (BitVec 7)
  deriving DecidableEq, Repr

/-- A monitor entry (R75, R79): the bytes it covers and whether one was written. -/
structure Monitor where
  slot : Nat
  order : Nat
  addrs : List Nat
  written : Bool
  deriving DecidableEq, Repr

/-- A skein of the directory (R286); members are pool slots. -/
structure Skein where
  launch : Nat
  id : BitVec 16
  members : List Nat
  phase : BitVec 32
  parts : List Nat
  arrived : List Nat
  ahead : List Nat
  bar : Option (BitVec 10)
  refs : List Nat
  deriving DecidableEq, Repr

/-! ## Memory of the die -/

/-- A page of a backing (R309, R314): its frame now, the frame that is its own (R386) and its flags; `host` says the host holds its
contents, `wanted` that a request is pending and its place in arrival order, `told` that its PAGE event was written, `askedAt` when the request
was posted (R388). -/
structure Page where
  pa : Nat
  own : Nat
  res : Bool
  pin : Bool
  host : Bool
  wanted : Option Nat
  told : Bool
  askedAt : Nat
  deriving DecidableEq, Repr

/-- Frames allocated together: a mailbox handle (R386) or a fresh extent (R367); their frame list stands at `list`, with room for `room`
entries (R308, R309). -/
structure Backing where
  id : Nat
  list : Nat
  room : Nat
  fn : BitVec 6
  handle : Bool
  psz : BitVec 3
  vault : Bool
  prot : Bool
  pages : List Page
  deriving DecidableEq, Repr

/-- An extent-table entry (R308). -/
structure Extent where
  idx : Nat
  base : Nat
  size : Nat
  psz : BitVec 3
  attr : BitVec 8
  back : Nat
  deriving DecidableEq, Repr

/-- A resident image (R61, R120). -/
structure Image where
  code : Nat
  size : Nat
  gen : BitVec 32
  deriving DecidableEq, Repr

/-- A defined panel (R317 to R320): its storage's virtual address in the launch and its shape. -/
structure Panel where
  num : Nat
  launch : Nat
  va : Nat
  es : Nat
  rows : Nat
  cols : Nat
  attr : BitVec 8
  pas : List Nat
  deriving DecidableEq, Repr

/-- A block-table slot in use (R322). -/
structure BlockSlot where
  num : Nat
  bitmap : BitVec 64
  count : Nat
  deriving DecidableEq, Repr

/-- A block-table name and the slot it maps to (R322). -/
structure BlockName where
  fn : BitVec 6
  name : BitVec 44
  slot : Nat
  deriving DecidableEq, Repr

/-! ## Package -/

/-- A condition or signal action (R366); `bad` says that a field that must be zero was not. -/
structure SemOp where
  addr : Nat
  op : BitVec 3
  w64 : Bool
  value : Word
  bad : Bool
  deriving DecidableEq, Repr

/-- A launch descriptor (R365). -/
structure LaunchDesc where
  code : Word
  proc : BitVec 16
  flags : BitVec 16
  n : BitVec 32
  ibase : Word
  arg : Word
  save : Word
  bind : Word
  crec : Word
  tag : Word
  wait0 : SemOp
  wait1 : SemOp
  sig0 : SemOp
  sig1 : SemOp
  deriving DecidableEq, Repr

/-- How far the queue processor is with a launch (R368, R369, R375). -/
inductive Stage where
  | check | waiting | translate | panels | create | running
  deriving DecidableEq, Repr

/-- A launch that the queue processor has read (R369, R376); `walked` counts the pages of its last extent that are translated (R368). -/
structure Launch where
  id : Nat
  q : BitVec 12
  fn : BitVec 6
  head : BitVec 32
  desc : LaunchDesc
  stage : Stage
  status : BitVec 8
  exts : List Extent
  walked : Nat
  ext : Word
  panels : List Nat
  created : Nat
  done : Nat
  lost : Nat
  first : BitVec 10
  faults : Nat
  start : Word
  deriving DecidableEq, Repr

/-- A work queue (R360 to R362) with the launch at its head. -/
structure WorkQueue where
  q : BitVec 12
  ring : Word
  fn : BitVec 6
  pri : BitVec 7
  sz : BitVec 4
  pm : Bool
  en : Bool
  tail : BitVec 32
  head : BitVec 32
  err : Bool
  ecause : BitVec 8
  waiting : Bool
  front : Option Launch
  deriving DecidableEq, Repr

/-- A grant of physical memory to a function (R386). -/
structure Grant where
  base : Nat
  size : Nat
  fn : BitVec 6
  writable : Bool
  deriving DecidableEq, Repr

/-- A function's mailbox (R385). -/
structure Mailbox where
  req : BitVec 512
  resp : BitVec 512
  busy : Bool
  code : BitVec 8
  err : BitVec 32
  deriving DecidableEq, Repr

/-- The PF event ring (R388). -/
structure EvRing where
  base : Word
  en : Bool
  ovf : Bool
  sz : BitVec 4
  tail : BitVec 32
  head : BitVec 32
  deriving DecidableEq, Repr

/-- A Miller filter (R390). -/
structure MillerFilter where
  limit : Word
  base : Word
  perm : BitVec 2
  deriving DecidableEq, Repr

/-- An access of the Miller to device physical space: the address, its bytes, and what a store writes. -/
structure MillerAcc where
  pa : Nat
  len : Nat
  store : Option Word
  deriving DecidableEq, Repr

/-- The Miller as the part holds it (R389 to R391), with the image that it runs, the entry it was started at (R392), and its accesses that
wait for memory. -/
structure Miller where
  lock : Bool
  run : Bool
  viol : BitVec 32
  flt : Bank MillerFilter 3
  irq : Bank Word 5
  ipend : BitVec 32
  tcm : Mem
  image : List Byte
  entry : Word
  linkResets : List (Nat × Nat)
  loaded : List Word
  waiting : List MillerAcc
  deriving DecidableEq, Repr

/-- The boot and trust block (R396); `cold` says which reset the next boot sequence follows, and `seed` is what the ROM keeps of the device's
identity (R393). -/
structure Boot where
  busy : Bool
  enrolled : Bool
  code : BitVec 8
  imglen : BitVec 32
  rmlen : BitVec 32
  resets : Word
  hv : Bool
  helper : VReg
  pubn : BitVec 4096
  pube : BitVec 32
  seed : BitVec 512
  cold : Bool
  deriving DecidableEq, Repr

/-- A layer's clock (R397), the levels of its power and its thermal clamp, and the highest last reading of its sensors (R398). -/
structure LayerClock where
  fnow : BitVec 16
  fceil : BitVec 16
  ftgt : BitVec 16
  power : BitVec 16
  heat : BitVec 16
  hot : BitVec 16
  deriving DecidableEq, Repr

/-- The power, clock and event block (R397 to R399). -/
structure Power where
  mx : LayerClock
  vx : LayerClock
  vault : LayerClock
  plim : BitVec 12
  pnow : BitVec 12
  emergency : Bool
  ev : Bank Word 6
  evsel : Bank Word 6
  deriving DecidableEq, Repr

/-! ## Network engine -/

/-- A posted work request (R405, R406) with the strand and launch that posted it. -/
structure WReq where
  raw : BitVec 512
  launch : Nat
  slot : Nat
  deriving DecidableEq, Repr

/-- An endpoint (R403) with its two queues (R406). -/
structure Endpoint where
  num : BitVec 10
  en : Bool
  lasterr : BitVec 8
  job : BitVec 24
  tbase : BitVec 48
  fn : BitVec 6
  sendq : List WReq
  recvq : List WReq
  deriving DecidableEq, Repr

/-- A packet of a request in flight (R410): its retransmissions, the later packets acknowledged without it (3 once it has left again for two
of them), when it last left, and whether a port that its request allows has been up since it first left (R411). -/
structure PacketSt where
  index : Nat
  tries : Nat
  acked : Bool
  missed : Nat
  sentAt : Nat
  left : Bool
  deriving DecidableEq, Repr

/-- A SEND or WRITE in flight (R407, R409), the retries after not-ready replies, and when the last such reply came (R410). -/
structure NetReq where
  id : Nat
  ep : BitVec 10
  req : WReq
  packets : List PacketSt
  retries : Nat
  refused : Option Nat
  deriving DecidableEq, Repr

/-- A posted RECV (R409) or an exposed region (R408). -/
structure NetBuf where
  ep : BitVec 10
  launch : Nat
  base : Word
  len : Nat
  key : BitVec 32
  tag : Word
  ign : Word
  ccnt : BitVec 32
  deriving DecidableEq, Repr

/-- A message in arrival (R409): where it goes and which packets are placed. -/
structure NetRx where
  ep : BitVec 10
  peer : Nat
  ordered : Bool
  msg : Nat
  len : Nat
  buf : NetBuf
  placed : List Nat
  finished : Bool
  deriving DecidableEq, Repr

/-- What leaves through the Ethernet ports (R402, R409, R410): a packet with the earliest request of its connection in flight, its endpoint's job and its peer's address-table entry (R403),
or the answer to one. -/
inductive NetOut where
  | packet (req : Nat) (oldest : Nat) (index : Nat) (ep : BitVec 10) (job : BitVec 24) (peer : List Byte) (raw : BitVec 512) (bytes : List Byte)
      (entropy : BitVec 32)
  | ack (ep : BitVec 10) (peer msg index : Nat) (what : PacketAck)
  deriving DecidableEq, Repr

/-- The network engine (R402 to R411); `waiting` holds packets whose placement waits for memory, as a store does (R314, R409). -/
structure Net where
  eps : List Endpoint
  cnts : List (BitVec 12 × Word)
  flight : List NetReq
  recvs : List NetBuf
  exposes : List NetBuf
  rx : List NetRx
  up0 : Bool
  up1 : Bool
  sent : List NetOut
  waiting : List Packet
  deriving DecidableEq, Repr

/-! ## Fabric and Selvedge -/

/-- A code-rate register (R427). -/
structure Rate where
  tmo : BitVec 8
  m : BitVec 3
  k : BitVec 2
  deriving DecidableEq, Repr

/-- A peer port (R416). -/
structure PeerPort where
  replay : BitVec 16
  drop : BitVec 16
  up : Bool
  deriving DecidableEq, Repr

/-- An export entry (R420). -/
structure ExportEntry where
  base : BitVec 48
  limit : BitVec 48
  en : Bool
  w : Bool
  prot : Bool
  order : BitVec 2
  job : BitVec 16
  deriving DecidableEq, Repr

/-- A substitution entry (R452). -/
structure Subst where
  en : Bool
  logical : BitVec 10
  phys : BitVec 10
  deriving DecidableEq, Repr

/-- A store stream this part sends on (R421), its count when a SHUTTLE_LOSS was last delivered, and the loss notices not yet
acknowledged (R431). -/
structure StreamOut where
  core : BitVec 8
  dst : BitVec 10
  copy : Bool
  count : BitVec 32
  since : BitVec 32
  deriving DecidableEq, Repr

/-- A unit that has arrived and waits for the units before it (R421); `refused` says that the export check failed at its arrival
(R420). -/
structure UnitIn where
  seq : BitVec 32
  refused : Bool
  count : BitVec 32
  since : BitVec 32
  kind : UnitKind
  addr : Nat
  len : Nat
  job : BitVec 16
  bytes : List Byte
  deriving DecidableEq, Repr

/-- A store stream this part receives (R421): how many units count as performed, the counts of its lost units, which mark it broken, and
the notices of counts not reached yet (R431). -/
structure StreamIn where
  src : BitVec 10
  core : BitVec 8
  copy : Bool
  count : BitVec 32
  lost : List (BitVec 32)
  waiting : List UnitIn
  noticed : List (BitVec 32)
  deriving DecidableEq, Repr

/-- A stripe sent and not acknowledged (R429): what it carries and when it last left; `left` says whether a fragment of it has left, which fixes
its code (R427). -/
structure StripeOut where
  left : Bool
  dst : BitVec 10
  seq : BitVec 32
  cls : BitVec 3
  k : Nat
  m : Nat
  body : Body
  data : List Byte
  len : Nat
  sentAt : Nat
  resent : Bool
  acc : Option (BitVec 8 × Nat)
  msg : Option Nat
  deriving DecidableEq, Repr

/-- A decode buffer (R428). -/
structure DecodeBuf where
  src : BitVec 10
  seq : BitVec 32
  cls : BitVec 3
  k : Nat
  len : Nat
  body : Body
  frags : List (Nat × List Byte)
  first : Nat
  asked : Bool
  deriving DecidableEq, Repr

/-- The record of a decoded stripe and of the answer it got (R427, R428). -/
structure StripeRecord where
  src : BitVec 10
  seq : BitVec 32
  ack : Option StripeAck
  deriving DecidableEq, Repr

/-- A message in sending (R434, R435): bytes of a stripe once it is sent, the stripes acknowledged, its refusals, and the code of its end while STATUS
is not written. -/
structure MsgSend where
  id : Nat
  laddr : Word
  len : Nat
  dest : BitVec 10
  mbox : BitVec 12
  cls : BitVec 3
  record : Word
  launch : Nat
  slot : Nat
  piece : Nat
  acked : List Nat
  refusals : Nat
  refusedAt : Option Nat
  ended : Option (BitVec 8)
  deriving DecidableEq, Repr

/-- A posted receive record (R433, R434). -/
structure MsgRecv where
  mbox : BitVec 12
  buf : Word
  cap : Nat
  record : Word
  launch : Nat
  deriving DecidableEq, Repr

/-- A message in arrival (R435): the stripes placed, the code of its end, whether STATUS is written, and the stripes that ended it, whose
acknowledgements follow STATUS (R456). -/
structure MsgRx where
  src : BitVec 10
  id : Nat
  len : Nat
  recv : MsgRecv
  placed : List Nat
  ended : Option (BitVec 8)
  told : Bool
  acks : List (BitVec 32)
  deriving DecidableEq, Repr

/-- What takes no sequence number and names the stripe that it answers (R427). -/
inductive Answer where
  | ack (what : StripeAck)
  | resendRequest
  | lossNotice (lost : LostItem)
  deriving DecidableEq, Repr

/-- What leaves through the peer ports (R418, R427): a fragment of a stripe, or a fragment of an answer to stripe `seq`, which with the class-0
code holds all of it; each with its path, none inside the part. A fragment may also go to a part that another one has replaced, named by its
physical label (R452). -/
inductive FabOut where
  | fragment (dst : BitVec 10) (path : Option Nat) (frag : Fragment)
  | toPart (part : BitVec 10) (path : Nat) (frag : Fragment)
  | answer (dst : BitVec 10) (path : Option Nat) (seq : BitVec 32) (index : Nat) (what : Answer)
  deriving DecidableEq, Repr

/-- The fabric unit (R412 to R438, R449, R452). -/
structure Fabric where
  label : BitVec 10
  perm : BitVec 40
  mask : BitVec 10
  dmask : BitVec 64
  rate : Bank Rate 3
  port : Vector PeerPort 10
  exps : Bank ExportEntry 5
  fjob : Bank (BitVec 16) 6
  subst : Bank Subst 4
  late : Word
  retx : Word
  loss : Word
  nobuf : Word
  mgmt : BitVec 1536
  mctl : Word
  mrx : Word
  mgmtNext : Nat
  down : List (BitVec 10 × BitVec 4)
  seqs : List (BitVec 10 × BitVec 32)
  outs : List StreamOut
  ins : List StreamIn
  stripes : List StripeOut
  /-- Stripes sent to parts, by physical label, that others have replaced since (R452). -/
  former : List (BitVec 10 × StripeOut)
  bufs : List DecodeBuf
  decoded : List StripeRecord
  /-- The highest sequence number decoded from each source part (R428). -/
  tops : List (BitVec 10 × BitVec 32)
  heldAt : List (BitVec 10 × BitVec 32 × Nat)
  /-- Answers held for want of a path, with the time since when (R449). -/
  heldAnswers : List (BitVec 10 × BitVec 32 × Answer × Nat)
  /-- Loss notices without answer, with the stripe that each names (R431). -/
  notices : List (BitVec 10 × BitVec 32 × LostItem)
  sends : List MsgSend
  recvs : List MsgRecv
  rx : List MsgRx
  sent : List FabOut
  deriving DecidableEq, Repr

/-- Who made a protected write: the strand of a pool slot, or its copy unit (R447). -/
structure Writer where
  slot : Nat
  copy : Bool
  deriving DecidableEq, Repr

/-- A parity update without acknowledgement (R444 to R446): the stripe that carries it, the update, store address, who stored, and whether the
store has been recorded as not durable. -/
structure ParityOut where
  dst : BitVec 10
  seq : BitVec 32
  upd : ParityUpd
  group : Nat
  writer : Option Writer
  va : Word
  unkept : Bool
  deriving DecidableEq, Repr

/-- The state of Selvedge (R455). -/
inductive SvState where
  | off | normal | degraded | failed
  deriving DecidableEq, Repr

/-- What waits for the durability of the protected writes it made (R447): the reply to a peer unit, a message's stripe, or a packet of
the network engine. -/
inductive Deferred where
  | unitReply (src : BitVec 10) (seq : BitVec 32) (reply : Reply)
  | msgStripe (src : BitVec 10) (seq : BitVec 32) (msg index stripes : Nat)
  | netPacket (ep : BitVec 10) (peer : Nat) (ordered : Bool) (msg index : Nat)
  deriving DecidableEq, Repr

/-- The read of a member's block of a stripe under rebuild (R453): the pieces that have come, or that the member has none. -/
structure BlockRead where
  stripe : Bool × Nat
  member : Nat
  absent : Bool
  parts : List (Nat × List Byte)
  deriving DecidableEq, Repr

/-- Selvedge (R439 to R455); `after` holds what waits for parity groups, `asked` the freezes not answered yet, `freed` the stripes that each
substitute has released here; at a substitute, `freezing` holds the stripes whose owners it has asked to
freeze them, `reads` the block reads of those, `releasing` those whose new P and Q are not acknowledged yet. -/
structure Selvedge where
  en : Bool
  /-- The members whose sv.cfg.EN this part has learnt to be 1 (R445). -/
  enabled : BitVec 8
  base0 : BitVec 48
  base1 : BitVec 48
  n0 : BitVec 32
  n1 : BitVec 32
  ndur : BitVec 32
  rebuild : Bool
  state : SvState
  lost : BitVec 8
  doneCount : BitVec 32
  hold : BitVec 16
  err : BitVec 32
  upd : BitVec 32
  pending : List ParityOut
  after : List (List Nat × Deferred)
  applied : List (BitVec 10 × BitVec 32)
  frozen : List (Bool × Nat)
  asked : List (Bool × Nat × BitVec 10)
  rebuilt : List (Bool × Nat)
  wantedFirst : List (Bool × Nat)
  freezing : List (Bool × Nat)
  /-- Freezes answered: range, stripe and data owner (R454). -/
  answered : List (Bool × Nat × Nat)
  reads : List BlockRead
  releasing : List (Bool × Nat)
  freed : List (BitVec 10 × Bool × Nat)
  deadLines : List Nat
  /-- Members that no path reaches, and since when (R449). -/
  cut : List (Nat × Nat)
  deriving DecidableEq, Repr

/-! ## The part -/

/-- Which agent of the selected core or of the part moves next (assumption 4). -/
inductive Turn where
  | trapDelivery | a | v | m | mDone | copyStart | copyDone | acquire | stopDone | frames | binding | distributor | scheduler | dispatch | launchEnd
  | memory | messages | network | nextCore
  deriving DecidableEq, Repr

/-- The whole part. -/
structure State where
  /-- The core whose turn it is and the other cores (assumption 5). -/
  cur : Nat
  core : Core
  parked : List (Nat × Core)
  /-- Which agent moves next; events that happen before it (assumption 4). -/
  turn : Turn
  agenda : List Instr
  /-- Index of the next free value (assumption 2) and of the next identifier of the model. -/
  freshVal : Nat
  nextId : Nat
  /-- Time base and layer clocks (R115). -/
  time : Nat
  clkMx : Word
  clkVx : Word
  clkVault : Word
  /-- Parts of a cycle that have passed on the layer clocks, in units of 1/1000. -/
  partMx : Nat
  partVx : Nat
  partVault : Nat
  /-- Physical memory (R304) with poisoned lines (R328), resident images (R120). -/
  mem : Mem
  poison : List Nat
  images : List Image
  /-- Cluster (R62, R68, R79, R278, R286, R290). -/
  pool : List PoolEntry
  nextPlace : Nat
  monitors : List Monitor
  prog : BitVec 10
  starv : BitVec 10
  skeins : List Skein
  barGen : List (BitVec 10 × BitVec 16)
  /-- Memory processor, panels, block-table store (R309, R314, R318, R322, R330, R333). -/
  backings : List Backing
  panels : List Panel
  blocks : BitVec 17
  blocksLock : Bool
  blockSlots : List BlockSlot
  blockNames : List BlockName
  eccCorr : BitVec 32
  eccUnc : BitVec 32
  uelast : BitVec 48
  vcol : Bank Word 6
  coreLanes : List (Nat × Nat)
  /-- The hard map (R326, R327): the columns and the core links as built-in test left them, and the columns that have not retrained since
  a warm reset. -/
  hardVcol : Bank Word 6
  hardLanes : List (Nat × Nat)
  retrain : List Nat
  /-- Queue processor (R359 to R376). -/
  queues : List WorkQueue
  launches : List Launch
  lastQueue : BitVec 12
  /-- Host, Miller, boot, power (R382 to R400); `kvDrop` lists functions whose names an FLR drops once the
  launches beside them have completed (R332). -/
  mailboxes : Bank Mailbox 6
  mbOrder : List (BitVec 6)
  grants : List Grant
  kvDrop : List (BitVec 6 × List Nat)
  evring : EvRing
  irqs : List (BitVec 6 × BitVec 11)
  hostRead : List (List Byte)
  /-- Accesses of the host that wait for memory, oldest first (R384). -/
  hostWait : List HostAcc
  miller : Miller
  boot : Boot
  power : Power
  /-- What the die's event counters have not counted yet (R399). -/
  tally : List (BitVec 8 × Nat)
  dbg : Vector DebugReg 12
  /-- Network engine, fabric, Selvedge. -/
  net : Net
  fab : Fabric
  sv : Selvedge
  deriving DecidableEq, Repr

/-- The image window's base (R303). -/
abbrev imgBase : Word := 0xFFFFFC0000000000#64

/-- A core right after a cold reset: no strand, every queue empty (R70, R115, R271); what no rule states is 0, TEMP of c.ctemp (R142) among it (DESIGN
CHOICE, assumption 3). -/
def Core.reset (phys : BitVec 8) : Core where
  slot := none
  claimed := none
  launch := 0
  selPri := 0
  s := Vector.replicate _ 0
  b := Vector.replicate _ 0
  p := Vector.replicate _ false
  lc := Vector.replicate _ 0
  vlc := Vector.replicate _ 0
  mlc := Vector.replicate _ 0
  tc := Vector.replicate _ 0
  m := Vector.replicate _ 0
  sem := Vector.replicate _ 0
  srkey := 0
  srctr := 0
  aexc := 0
  vexc := 0
  evec := 0
  ecause := 0
  epc := 0
  eval := 0
  inHandler := false
  rearmed := false
  handlerSince := 0
  aseq := .idle
  pc := imgBase
  grd := none
  wait := none
  spin := none
  exitDue := none
  passA := []
  passV := []
  passM := []
  stop := none
  vseq := .idle
  vpc := imgBase
  vrep := 0
  vflags := 0
  vloop := Vector.replicate _ ⟨0, 0, false, 0⟩
  vtrap := none
  vacc := none
  vpop := []
  metV := false
  metM := false
  mseq := .idle
  mpc := imgBase
  mloop := Vector.replicate _ ⟨0, false⟩
  mflight := []
  stepNo := 0
  sigma := 0
  q := Vector.replicate _ []
  mq := Vector.replicate _ []
  rq := []
  vq := Vector.replicate _ []
  copyq := []
  copyRun := []
  copyTrap := none
  gather := Vector.replicate _ ⟨.empty, 0, 0, false, 0, 0⟩
  bbuf := none
  cs := []
  acc := []
  csPoison := []
  accPoison := []
  units := Vector.replicate _ .none
  fresh := BitVec.allOnes 40
  held := []
  out := []
  replyA := []
  storeFaults := []
  ndur := none
  codeBase := 0
  codeGen := 0
  imgSize := 0
  secA := ⟨0, 0, []⟩
  secV := ⟨0, 0, []⟩
  secM := ⟨0, 0, []⟩
  ev := Vector.replicate _ 0
  evsel := Vector.replicate _ 0
  tally := []
  ctemp := 0
  phys := phys
  spare := false
  offline := false
  dbg := []

/-- The network engine after a reset (R403, R404). -/
def Net.reset : Net := ⟨[], [], [], [], [], [], true, true, [], []⟩

/-- The fabric unit after a reset (R414, R416, R420, R427). -/
def Fabric.reset : Fabric where
  label := 0
  perm := 0x9876543210#40
  mask := 0
  dmask := 0
  rate := (Vector.replicate _ ⟨8, 2, 2⟩).set 0 ⟨8, 1, 0⟩
  port := Vector.replicate _ ⟨0, 0, false⟩
  exps := Vector.replicate _ ⟨0, 0, false, false, false, 1, 0⟩
  fjob := Vector.replicate _ 0
  subst := Vector.replicate _ ⟨false, 0, 0⟩
  late := 0
  retx := 0
  loss := 0
  nobuf := 0
  mgmt := 0
  mctl := 0
  mrx := 0
  mgmtNext := 0
  down := []
  seqs := []
  outs := []
  ins := []
  stripes := []
  former := []
  bufs := []
  decoded := []
  tops := []
  heldAt := []
  heldAnswers := []
  notices := []
  sends := []
  recvs := []
  rx := []
  sent := []

/-- Selvedge after a reset (R455). -/
def Selvedge.reset : Selvedge :=
  ⟨false, 0, 0, 0, 0, 0, 0, false, .off, 0, 0, 10, 0, 0, [], [], [], [], [], [], [], [], [], [], [], [], [], []⟩

/-- The boot and trust block after a cold reset (R396). -/
def Boot.reset : Boot := ⟨false, false, 0xFF, 0, 0, 0, false, 0, 0, 0, 0, true⟩

/-- The power block after a reset (R397 to R399). -/
def Power.reset : Power where
  mx := ⟨2000, 2000, 2000, 2000, 2000, 0⟩
  vx := ⟨2000, 2000, 2000, 2000, 2000, 0⟩
  vault := ⟨2000, 2000, 2000, 2000, 2000, 0⟩
  plim := 1800
  pnow := 0
  emergency := false
  ev := Vector.replicate _ 0
  evsel := Vector.replicate _ 0

/-- The Miller after a reset (R390). -/
def Miller.reset : Miller :=
  ⟨false, false, 0, Vector.replicate _ ⟨0, 0, 0⟩, Vector.replicate _ 0, 0, [], [], 0, [], [], []⟩

/-- The part right after a cold reset (R395): nothing bound, nothing launched, the Miller held (R392). -/
def State.reset : State where
  cur := 0
  core := Core.reset 0
  parked := (List.range 191).map fun i => (i + 1, Core.reset (BitVec.ofNat 8 (i + 1)))
  turn := .a
  agenda := []
  freshVal := 0
  nextId := 1
  time := 0
  clkMx := 0
  clkVx := 0
  clkVault := 0
  partMx := 0
  partVx := 0
  partVault := 0
  mem := []
  poison := []
  images := []
  pool := []
  nextPlace := 0
  monitors := []
  prog := 20
  starv := 100
  skeins := []
  barGen := []
  backings := []
  panels := []
  blocks := 16384
  blocksLock := false
  blockSlots := []
  blockNames := []
  eccCorr := 0
  eccUnc := 0
  uelast := 0
  vcol := Vector.replicate _ 0x0000C6318C631800#64
  coreLanes := []
  hardVcol := Vector.replicate _ 0x0000C6318C631800#64
  hardLanes := []
  retrain := []
  queues := []
  launches := []
  lastQueue := 0
  mailboxes := Vector.replicate _ ⟨0, 0, false, 0, 0⟩
  mbOrder := []
  grants := []
  kvDrop := []
  evring := ⟨0, false, false, 0, 0, 0⟩
  irqs := []
  hostRead := []
  hostWait := []
  miller := Miller.reset
  boot := Boot.reset
  power := Power.reset
  tally := []
  dbg := Vector.replicate _ ⟨0, 0, false⟩
  net := Net.reset
  fab := Fabric.reset
  sv := Selvedge.reset

end Sys2Proof.Machine
end

