-- ==== Sys2Proof/Machine/Bits.lean ====
section
/-! DEFINITION. Bytes and little-endian values (R2), sparse memories in canonical form, and banks of registers. -/

namespace Sys2Proof.Machine

open Sys2Proof

/-! ## Bytes -/

/-- The value of bytes, the first least significant (R2). -/
def leNat : List Byte → Nat
  | [] => 0
  | b :: rest => b.toNat + 256 * leNat rest

/-- The low `n` bytes of a value, least significant first (R2). -/
def leBytes : Nat → Nat → List Byte
  | 0, _ => []
  | n + 1, x => BitVec.ofNat 8 x :: leBytes n (x / 256)

/-- A field of a value: `n` bits from bit `lo` on. -/
def bitsOf (x lo n : Nat) : Nat := (x >>> lo) % 2 ^ n

/-- Sign extension of the low `n` bits of a value (R5). -/
def signedOf (n x : Nat) : Int := let y := x % 2 ^ n; if 2 ^ n ≤ 2 * y then (y : Int) - 2 ^ n else y

/-- A signed value as an `n`-bit pattern. -/
def patternOf (n : Nat) (x : Int) : Nat := (x % (2 ^ n : Int)).toNat

/-- The least multiple of `k` at or above `x`. -/
def roundUp (x k : Nat) : Nat := (x + k - 1) / k * k

/-- A 64-bit value from a natural number. -/
def w64 (x : Nat) : Word := BitVec.ofNat 64 x

/-- Truth as 0 or 1. -/
def bit (b : Bool) : Nat := if b then 1 else 0

/-! ## Sparse memories -/

/-- The byte at an address; an unlisted address reads zero (assumption 1). -/
def memGet (m : Mem) (a : Nat) : Byte :=
  match m with
  | [] => 0
  | (k, b) :: rest => if k = a then b else if a < k then 0 else memGet rest a

/-- The bytes from an address on. -/
def memBytes : Nat → Nat → Mem → List Byte
  | 0, _, _ => []
  | n + 1, a, m =>
    match m.dropWhile (fun e => e.1 < a) with
    | [] => 0 :: memBytes n (a + 1) []
    | (k, b) :: rest => if k = a then b :: memBytes n (a + 1) rest else 0 :: memBytes n (a + 1) ((k, b) :: rest)

/-- Bytes with their addresses, those that differ from what an unlisted address reads. -/
def listed (a : Nat) : List Byte → Mem
  | [] => []
  | b :: rest => if b = 0 then listed (a + 1) rest else (a, b) :: listed (a + 1) rest

/-- Writing of consecutive bytes. -/
def memPut (m : Mem) (a : Nat) (bs : List Byte) : Mem :=
  m.filter (fun e => e.1 < a) ++ listed a bs ++ m.filter (fun e => a + bs.length ≤ e.1)

/-- Writing of one byte. -/
def memSet (m : Mem) (a : Nat) (b : Byte) : Mem := memPut m a [b]

/-- A range set to zero. -/
def memClear (m : Mem) (a n : Nat) : Mem := m.filter (fun e => e.1 < a || a + n ≤ e.1)

/-- The little-endian value of `n` bytes. -/
def memNat (m : Mem) (a n : Nat) : Nat := leNat (memBytes n a m)

/-- Addresses rise and no listed byte is zero: the canonical form. -/
def Memory.wf : Mem → Bool
  | [] => true
  | [(_, b)] => b != 0
  | (a, b) :: (a', b') :: rest => b != 0 && decide (a < a') && Memory.wf ((a', b') :: rest)

/-! ## Banks -/

/-- The register that a field names. -/
def bank {α : Type} {n : Nat} (b : Bank α n) (i : BitVec n) : α := b[i.toNat]'i.isLt

/-- The bank with one register changed. -/
def bankSet {α : Type} {n : Nat} (b : Bank α n) (i : BitVec n) (x : α) : Bank α n := b.set i.toNat x i.isLt

/-! ## Lists of records -/

/-- The records with the first one that meets `p` changed. -/
def updateFirst {α : Type} (p : α → Bool) (f : α → α) : List α → List α
  | [] => []
  | x :: rest => if p x then f x :: rest else x :: updateFirst p f rest

/-- The records without the first one that meets `p`. -/
def removeFirst {α : Type} (p : α → Bool) : List α → List α
  | [] => []
  | x :: rest => if p x then rest else x :: removeFirst p rest

/-- The record of least rank, the earliest of equals. -/
def leastBy {α : Type} (rank : α → Nat) : List α → Option α
  | [] => none
  | x :: rest =>
    match leastBy rank rest with
    | none => some x
    | some y => if rank x ≤ rank y then some x else some y

/-- The least number below `n` that a list does not hold. -/
def leastFree : Nat → Nat → List Nat → Option Nat
  | 0, _, _ => none
  | fuel + 1, k, used => if used.contains k then leastFree fuel (k + 1) used else some k

/-- Consecutive pieces of at most `k` items, none of them across a multiple of `k` from `start` on. -/
def pieces (k : Nat) : Nat → Nat → Nat → List (Nat × Nat)
  | 0, _, _ => []
  | fuel + 1, start, len =>
    if len = 0 then []
    else
      let n := min len (k - start % k)
      (start, n) :: pieces k fuel (start + n) (len - n)

/-- The clamp level of a layer: the lower one of its power and its thermal clamp (R398). -/
def LayerClock.clamp (l : LayerClock) : BitVec 16 := if l.power < l.heat then l.power else l.heat

end Sys2Proof.Machine
end

