-- ==== Sys2Proof/Machine/Stripes.lean ====
section
/-! DEFINITION. How the part sends on the fabric: labels and relabelling (R412), paths (R417, R418), stripes and their coding (R426,
R427), the units of remote accesses (R419 to R421), and the parity updates of protected stores (R441 to R446). -/

namespace Sys2Proof.Machine

open Sys2Proof

/-! ## GF(2^8) modulo 0x11D (R426) -/

/-- Doubling. -/
def gfDouble (x : Nat) : Nat := if 128 ≤ x then (2 * x) ^^^ 0x11D else 2 * x

/-- Product; the first argument is fuel for the bits of the second factor. -/
def gfMulAux : Nat → Nat → Nat → Nat
  | 0, _, _ => 0
  | n + 1, a, b => (if b % 2 = 1 then a else 0) ^^^ gfMulAux n (gfDouble a) (b / 2)

/-- Product. -/
def gfMul (a b : Nat) : Nat := gfMulAux 8 a b

/-- Powers. -/
def gfPow (a : Nat) : Nat → Nat
  | 0 => 1
  | n + 1 => gfMul a (gfPow a n)

/-- Inverse: the 254th power. -/
def gfInv (a : Nat) : Nat := gfPow a 254

/-- The coefficient a(j, i) of R426. -/
def codeCoeff (j i : Nat) : Nat := gfMul (8 + j) (gfInv ((8 + j) ^^^ i))

/-- Bytewise exclusive or. -/
def xorBytes : List Byte → List Byte → List Byte
  | a :: as, b :: bs => (a ^^^ b) :: xorBytes as bs
  | as, [] => as
  | [], bs => bs

/-- Bytes times a field element. -/
def gfScale (c : Nat) (bs : List Byte) : List Byte := bs.map fun b => BitVec.ofNat 8 (gfMul c b.toNat)

/-- Fragment `f` of a stripe's payload (R426): its data fragment, or the coding fragment f - k. -/
def fragmentBytes (k f : Nat) (data : List Byte) : List Byte :=
  let piece (i : Nat) : List Byte :=
    let d := (data.drop (192 * i)).take 192
    d ++ List.replicate (192 - d.length) 0
  if f < k then piece f
  else (List.range k).foldl (fun acc i => xorBytes acc (gfScale (codeCoeff (f - k) i) (piece i))) (List.replicate 192 0)

/-! ## Labels and paths -/

/-- PERM[i] (R412). -/
def permAt (f : Fabric) (i : Nat) : Nat := bitsOf f.perm.toNat (4 * i) 4

/-- The physical label of a logical one (R412). -/
def physOfLabel (f : Fabric) (l : Nat) : Nat :=
  (List.range 10).foldl (fun acc i => acc + bitsOf (l ^^^ f.mask.toNat) i 1 * 2 ^ permAt f i) 0

/-- The logical label of a physical one (R412). -/
def labelOfPhys (f : Fabric) (h : Nat) : Nat :=
  (List.range 10).foldl (fun acc i => acc + (bitsOf h (permAt f i) 1 ^^^ bitsOf f.mask.toNat i 1) * 2 ^ i) 0

/-- The enabled substitution entry of lowest number for a logical label (R452). -/
def substFor (f : Fabric) (l : Nat) : Option Subst := f.subst.toList.find? fun e => e.en && e.logical.toNat == l

/-- c.label (R115, R412, R452). -/
def ownLabel (f : Fabric) : Nat :=
  match f.subst.toList.find? (fun e => e.en && e.phys == f.label) with
  | some e => e.logical.toNat
  | none => labelOfPhys f f.label.toNat

/-- Whether the link of physical dimension `d` at physical label `h` is up, as this part knows it (R415). -/
def linkUp (f : Fabric) (h d : Nat) : Bool :=
  let other := h ^^^ 2 ^ d
  let own := f.label.toNat
  let here := h == own || other == own
  !(f.down.any fun e => (e.1.toNat == h || e.1.toNat == other) && e.2.toNat == d) &&
    (!here || (f.port.toList[d]?).any (·.up))

/-- Whether every link of a path is up. -/
def pathUp (f : Fabric) : Nat → List Nat → Bool
  | _, [] => true
  | h, d :: rest => linkUp f h d && pathUp f (h ^^^ 2 ^ d) rest

/-- The paths of R417 through dimensions `ds`, with detours through `extra`. -/
def pathsOver (ds extra : List Nat) : List (List Nat) :=
  (List.range ds.length).map (fun i => ds.drop i ++ ds.take i) ++ extra.map fun e => e :: ds ++ [e]

/-- The available paths to a physical label, over any ports (R452). -/
def partPaths (f : Fabric) (part : Nat) : List (List Nat) :=
  let ds := (List.range 10).filter fun i => bitsOf (f.label.toNat ^^^ part) i 1 == 1
  (pathsOver ds ((List.range 10).filter fun i => !ds.contains i)).filter (pathUp f f.label.toNat)

/-- The available paths to a logical label, in ascending path number, as physical dimensions (R417, R452). -/
def availablePaths (f : Fabric) (dst : Nat) (msg : Bool) : List (List Nat) :=
  match substFor f dst with
  | some e => partPaths f e.phys.toNat
  | none =>
    let ds := (List.range 10).filter fun i => bitsOf (ownLabel f ^^^ dst) i 1 == 1
    let extra := (List.range (if msg then 10 else 6)).filter fun i => !ds.contains i
    ((pathsOver ds extra).map (List.map (permAt f))).filter (pathUp f f.label.toNat)

/-- k of a code-rate register (R427). -/
def Rate.kOf (r : Rate) : Nat := 2 ^ r.k.toNat

/-! ## Stripes -/

/-- Whether a stripe is a message's, which may use all ten dimensions (R417). -/
def isMsgBody : Body → Bool
  | .msg .. => true
  | _ => false

/-- TMO of a class in nanoseconds (R427). -/
def tmoOf (f : Fabric) (cls : BitVec 3) : Nat := 500 * (bank f.rate cls).tmo.toNat

/-- A stripe of this part changed. -/
def updStripe (dst : BitVec 10) (seq : BitVec 32) (g : StripeOut → StripeOut) (s : State) : State :=
  { s with fab := { s.fab with stripes := updateFirst (fun x => x.dst == dst && x.seq == seq) g s.fab.stripes } }

/-- Fragment `i` of a stripe (R426). -/
def StripeOut.fragmentAt (f : Fabric) (st : StripeOut) (i : Nat) : Fragment :=
  ⟨BitVec.ofNat 10 (ownLabel f), st.seq, st.cls, st.k, st.m, i, st.len, st.body, fragmentBytes st.k i st.data⟩

/-- The fragments of a stripe leave, or the stripe is held while no path is available (R418, R449). The coding fragments are those in force
when the first fragment leaves (R427); k is fixed when the traffic is cut into stripes. -/
def emitStripe (st : StripeOut) (again : Bool) (s : State) : State :=
  let f := s.fab
  let own := st.dst.toNat == ownLabel f
  let paths := (availablePaths f st.dst.toNat (isMsgBody st.body)).length
  if !own && paths == 0 then
    let held := f.heldAt.any fun h => h.1 == st.dst && h.2.1 == st.seq
    if held then s else { s with fab := { f with heldAt := f.heldAt ++ [(st.dst, st.seq, s.time)] } }
  else
    let m := if st.left then st.m else (bank f.rate st.cls).m.toNat
    let s := updStripe st.dst st.seq (fun x => { x with left := true, m := m }) s
    let shift := st.seq.toNat + (if again then st.k + m else 0)
    let frags := (List.range (st.k + m)).map fun i =>
      FabOut.fragment st.dst (if own then none else some ((i + shift) % paths)) ({ st with m := m }.fragmentAt f i)
    { s with fab := { s.fab with sent := s.fab.sent ++ frags } }

/-- The next sequence number towards a part (R427). -/
def nextSeq (f : Fabric) (dst : BitVec 10) : BitVec 32 := ((f.seqs.find? fun e => e.1 == dst).map (·.2)).getD 0

/-- A new stripe takes the next sequence number and leaves (R427, R429). -/
def sendStripe (dst : BitVec 10) (cls : BitVec 3) (body : Body) (data : List Byte) (acc : Option (BitVec 8 × Nat)) (msg : Option Nat)
    (s : State) : State :=
  let f := s.fab
  let q := nextSeq f dst
  let r := bank f.rate cls
  let st : StripeOut := ⟨false, dst, q, cls, r.kOf, r.m.toNat, body, data, data.length, s.time, false, acc, msg⟩
  let seqs := (dst, q + 1) :: removeFirst (fun e => e.1 == dst) f.seqs
  emitStripe st false { s with fab := { f with seqs := seqs, stripes := f.stripes ++ [st] } }

/-- An answer to stripe `seq` of a part leaves with the class-0 code: fragment i on A_((i + seq) mod P) (R427); it is held while no path is
available (R449). -/
def sendAnswer (dst : BitVec 10) (seq : BitVec 32) (what : Answer) (s : State) : State :=
  let f := s.fab
  let own := dst.toNat == ownLabel f
  let paths := (availablePaths f dst.toNat false).length
  if !own && paths == 0 then { s with fab := { f with heldAnswers := f.heldAnswers ++ [(dst, seq, what, s.time)] } }
  else
    let frags := (List.range (1 + (bank f.rate 0).m.toNat)).map fun i =>
      FabOut.answer dst (if own then none else some ((i + seq.toNat) % paths)) seq i what
    { s with fab := { f with sent := f.sent ++ frags } }

/-- An acknowledgement leaves for a source part. -/
def sendAck (src : BitVec 10) (seq : BitVec 32) (ack : StripeAck) (s : State) : State := sendAnswer src seq (.ack ack) s

/-! ## Remote-access units (R419 to R421) -/

/-- The count of a stream of stores and atomics (R421). -/
def streamCount (f : Fabric) (core : BitVec 8) (dst : BitVec 10) (copy : Bool) : BitVec 32 :=
  ((f.outs.find? fun o => o.core == core && o.dst == dst && o.copy == copy).map (·.count)).getD 0

/-- The stream's count when a SHUTTLE_LOSS was last delivered (R431). -/
def streamSince (f : Fabric) (core : BitVec 8) (dst : BitVec 10) (copy : Bool) : BitVec 32 :=
  ((f.outs.find? fun o => o.core == core && o.dst == dst && o.copy == copy).map (·.since)).getD 0

/-- The marks of the selected core's broken streams clear for units issued from now on (R431). -/
def renewStreams (s : State) : State :=
  let own (o : StreamOut) : StreamOut := if o.core.toNat == s.cur then { o with since := o.count } else o
  { s with fab := { s.fab with outs := s.fab.outs.map own } }

/-- The mark of one broken stream of the selected core clears for units issued from now on (R431). -/
def renewOne (dst : BitVec 10) (copy : Bool) (s : State) : State :=
  let one (o : StreamOut) : StreamOut := if o.core.toNat == s.cur && o.dst == dst && o.copy == copy then { o with since := o.count } else o
  { s with fab := { s.fab with outs := s.fab.outs.map one } }

/-- Whether an outstanding access counts in its stream (R421). -/
def AccDest.counted : AccDest → Bool
  | .store => true
  | .amo _ => true
  | _ => false

/-- The stream advanced by one store or atomic unit. -/
def bumpStream (f : Fabric) (core : BitVec 8) (dst : BitVec 10) (copy : Bool) : Fabric :=
  let here (o : StreamOut) : Bool := o.core == core && o.dst == dst && o.copy == copy
  if f.outs.any here then { f with outs := updateFirst here (fun o => { o with count := o.count + 1 }) f.outs }
  else { f with outs := f.outs ++ [⟨core, dst, copy, 1, 0⟩] }

/-- The function of a launch (R378). -/
def launchFn (s : State) (id : Nat) : BitVec 6 := ((s.launches.find? fun l => l.id == id).map (·.fn)).getD 0

/-- The logical label that a peer-window slot names (R413). -/
def slotLabel (f : Fabric) (slot : Nat) : BitVec 10 := BitVec.ofNat 10 (ownLabel f / 64 * 64 + slot)

/-- One unit of an access of the selected core leaves for its target (R419 to R421). -/
def sendUnit (slot : Nat) (copy : Bool) (kind : UnitKind) (addr len : Nat) (data : List Byte) (id : Nat) (s : State) : State :=
  let core := BitVec.ofNat 8 s.cur
  let dst := slotLabel s.fab slot
  let n := streamCount s.fab core dst copy
  let job := bank s.fab.fjob (launchFn s s.core.launch)
  let since := streamSince s.fab core dst copy
  let s' := sendStripe dst 0 (.unit core copy n since kind addr len job) data (some (core, id)) none s
  match kind with
  | .load _ => s'
  | _ => { s' with fab := bumpStream s'.fab core dst copy }

/-- The units of an access at a peer-window address, at most 128 bytes and inside a 128-byte block (R419). -/
def peerUnits (off len : Nat) : List (Nat × Nat) := pieces 128 (len + 1) off len

/-- The s-register that an access writes, none for s0 (R21). -/
def AccDest.regs : AccDest → List (BitVec 6)
  | .sreg r _ => if r = 0 then [] else [r]
  | .amo r => if r = 0 then [] else [r]
  | _ => []

/-- Whether an access writes p14 (R96, R97). -/
def AccDest.preds : AccDest → List (BitVec 4)
  | .sreg _ _ => [14]
  | .ldq _ _ => [14]
  | _ => []

/-- An older access once a younger word has written the registers `rs` and the predicates `ps`: its reply leaves them as they are. A word
that reads its register still waits for it and raises its fault (R87, R350, R424). -/
def Access.overwritten (rs : List (BitVec 6)) (ps : List (BitVec 4)) (a : Access) : Access :=
  { a with newer := a.newer || rs.any a.dest.regs.contains, newerP := a.newerP || (a.p14 && ps.contains 14) }

/-- The registers `rs` and the predicates `ps` are written: the replies of older accesses leave them as they are. -/
def Core.overwrite (k : Core) (rs : List (BitVec 6)) (ps : List (BitVec 4)) : Core := { k with out := k.out.map (Access.overwritten rs ps) }

/-- An access of the selected core through a peer window leaves as its units, which stay outstanding (R138, R419). -/
def issueAccess (dest : AccDest) (copy : Bool) (kind : UnitKind) (va : Word) (slot off : Nat) (len : Nat) (data : List Byte)
    (acq strict : Bool) (s : State) : State :=
  let group := s.nextId
  (peerUnits off len).foldl
    (fun s u =>
      let id := s.nextId
      let rel := u.1 - off
      let acc : Access := ⟨id, group, dest, va + w64 rel, rel, u.2, none, acq, strict, !dest.preds.isEmpty, false, false⟩
      let s := { s with nextId := id + 1, core := { s.core with out := s.core.out ++ [acc] } }
      sendUnit slot copy kind u.1 u.2 ((data.drop rel).take u.2) id s)
    { s with core := s.core.overwrite dest.regs dest.preds }

/-! ## Parity updates (R440 to R446) -/

/-- The bound strand of the selected core, and its copy unit, as those who make a protected write. -/
def strandWriter (s : State) : Option Writer := s.core.slot.map fun x => ⟨x, false⟩
def copyWriter (s : State) : Option Writer := s.core.slot.map fun x => ⟨x, true⟩

/-- BASE and N of a protected range. -/
def svRange (v : Selvedge) (range : Bool) : Nat × Nat :=
  if range then (v.base1.toNat, v.n1.toNat) else (v.base0.toNat, v.n0.toNat)

/-- The range, block and byte in the block of an address in a data region (R440). -/
def svDataBlock (v : Selvedge) (pa : Nat) : Option (Bool × Nat × Nat) :=
  let inRange (r : Bool) : Option (Bool × Nat × Nat) :=
    let (base, n) := svRange v r
    if base ≤ pa && pa < base + 6 * n * 4096 then some (r, (pa - base) / 4096, (pa - base) % 4096) else none
  if !v.en then none
  else
    match inRange false with
    | some x => some x
    | none => inRange true

/-- Member index of this part in its group (R439). -/
def svMember (f : Fabric) : Nat := ownLabel f % 8

/-- The stripe and the data index of a data block of member `g` (R441). -/
def svStripe (g block : Nat) : Nat × Nat :=
  let t := block / 6
  let u := block % 6
  (8 * t + (g + 1 + u) % 8, u)

/-- The parity block of stripe `j` at its P holder and at its Q holder (R441). -/
def svParityBlocks (n j : Nat) : Nat × Nat := (6 * n + 2 * (j / 8), 6 * n + 2 * (j / 8) + 1)

/-- A member is a holder in service while it is not lost and its sv.cfg.EN is 1, as this part has learnt (R445, R449). -/
def svInService (v : Selvedge) (g : Nat) : Bool := v.enabled.getLsbD g && !v.lost.getLsbD g

/-- One parity update leaves for a holder, as a stripe of class 0 (R444). -/
def sendParity (g : Nat) (upd : ParityUpd) (group : Nat) (by_ : Option Writer) (va : Word) (s : State) : State :=
  let dst : BitVec 10 := BitVec.ofNat 10 (ownLabel s.fab / 8 * 8 + g)
  let q := nextSeq s.fab dst
  let s := sendStripe dst 0 (.parity upd) upd.bytes none none s
  { s with sv := { s.sv with upd := s.sv.upd + 1, pending := s.sv.pending ++ [⟨dst, q, upd, group, by_, va, false⟩] } }

/-- The updates of one protected unit: its old and new bytes at an address inside one block (R444). The answer says whether some
holder in service keeps the store (R445). -/
def protectedUnit (pa : Nat) (old new : List Byte) (by_ : Option Writer) (va : Word) (s : State) : State × Bool :=
  match svDataBlock s.sv pa with
  | none => (s, true)
  | some (r, block, off) =>
    let (j, i) := svStripe (svMember s.fab) block
    let n := (svRange s.sv r).2
    let delta := xorBytes old new
    let p := j % 8
    let q := (j + 1) % 8
    let group := s.nextId
    let s := { s with nextId := group + 1 }
    let s := if svInService s.sv p then sendParity p ⟨r, (svParityBlocks n j).1, off, delta⟩ group by_ va s else s
    let s := if svInService s.sv q then sendParity q ⟨r, (svParityBlocks n j).2, off, gfScale (gfPow 2 i) delta⟩ group by_ va s else s
    if svInService s.sv p || svInService s.sv q then (s, true)
    else ({ s with sv := { s.sv with ndur := s.sv.ndur + 1 } }, false)

/-! ## Export entries (R420) -/

/-- Whether an export entry admits a unit (R420, R443). -/
def exportFits (s : State) (write : Bool) (addr len : Nat) (job : BitVec 16) (e : ExportEntry) : Bool :=
  e.en && e.order != 3 && e.base.toNat ≤ addr && addr + len ≤ e.limit.toNat + 1 && e.job == job && (!write || e.w) &&
    (!e.prot || (List.range len).all fun i => (svDataBlock s.sv (addr + i)).isSome)

/-- The entry of lowest number that admits a unit. -/
def exportFor (s : State) (write : Bool) (addr len : Nat) (job : BitVec 16) : Option ExportEntry :=
  s.fab.exps.toList.find? (exportFits s write addr len job)

/-! ## Another part behind a label (R421, R427, R452) -/

/-- Whether a unit is a store or an atomic. -/
def unitCounts : UnitKind → Bool
  | .load _ => false
  | _ => true

/-- The physical label that serves a logical one (R412, R452). -/
def servingPart (f : Fabric) (l : Nat) : Nat :=
  match substFor f l with
  | some e => e.phys.toNat
  | none => physOfLabel f l

/-- Whether a stripe goes on to the part that takes over its label: one that has not left yet (R449), or a parity update, which is never given
up (R446). -/
def StripeOut.staysOn (st : StripeOut) : Bool :=
  !st.left ||
    match st.body with
    | .parity _ => true
    | _ => false

/-- The stream that a stripe counts in. -/
def StripeOut.stream (st : StripeOut) : Option (BitVec 8 × BitVec 10 × Bool) :=
  match st.body with
  | .unit core copy _ _ kind _ _ _ => if unitCounts kind then some (core, st.dst, copy) else none
  | _ => none

/-- How many of `sts` count in a stream. -/
def streamed (x : BitVec 8 × BitVec 10 × Bool) (sts : List StripeOut) : Nat := (sts.filter fun st => st.stream == some x).length

/-- The number that a stripe of `stay` takes at the part that has come behind its label. -/
def renumbered (stay : List StripeOut) (dst : BitVec 10) (seq : BitVec 32) : BitVec 32 :=
  match (stay.filter fun st => st.dst == dst).findIdx? fun st => st.seq == seq with
  | some i => BitVec.ofNat 32 i
  | none => seq

/-- A stripe as it goes to the part that has come behind its label: sequence numbers and stream counts start again. -/
def StripeOut.moved (stay : List StripeOut) (st : StripeOut) : StripeOut :=
  let before := stay.takeWhile (· != st)
  { st with
    seq := renumbered stay st.dst st.seq
    body := match st.body with
      | .unit core copy _ _ kind addr len job => .unit core copy (BitVec.ofNat 32 (streamed (core, st.dst, copy) before)) 0 kind addr len job
      | b => b }

/-- Other parts stand behind the labels `moved` from now on: what is kept for a pair of parts starts anew (R421, R427), and the stripes that
stay on are numbered for the new part. -/
def startPairs (moved : BitVec 10 → Bool) (s : State) : State :=
  let f := s.fab
  let stay := f.stripes.filter fun st => moved st.dst
  let labels := (stay.map (·.dst)).eraseDups
  let next (l : BitVec 10) : BitVec 10 × BitVec 32 := (l, BitVec.ofNat 32 (stay.filter fun st => st.dst == l).length)
  let seqs := labels.map next ++ f.seqs.filter fun e => !moved e.1
  let count (o : StreamOut) : StreamOut :=
    if moved o.dst then { o with count := BitVec.ofNat 32 (streamed (o.core, o.dst, o.copy) stay), since := 0 } else o
  let fab := { f with
    seqs := seqs, outs := f.outs.map count, ins := f.ins.filter fun i => !moved i.src,
    stripes := f.stripes.map fun st => if moved st.dst then st.moved stay else st,
    bufs := f.bufs.filter fun b => !moved b.src, decoded := f.decoded.filter fun d => !moved d.src,
    tops := f.tops.filter fun e => !moved e.1,
    heldAt := f.heldAt.map fun h => if moved h.1 then (h.1, renumbered stay h.1 h.2.1, h.2.2) else h,
    heldAnswers := f.heldAnswers.filter fun h => !moved h.1, notices := f.notices.filter fun n => !moved n.1 }
  let pending := s.sv.pending.map fun p => if moved p.dst then { p with seq := renumbered stay p.dst p.seq } else p
  { s with fab := fab, sv := { s.sv with pending := pending, applied := s.sv.applied.filter fun a => !moved a.1 } }

end Sys2Proof.Machine
end

