-- ==== Sys2Proof/Machine/Pool.lean ====
section
/-! DEFINITION. Cores in place and parked (assumption 5), the bobbin pool (R62 to R68), the skein directory and the barrier pool (R84
to R86, R286 to R296), and the ends of a bobbin (R67, R84, R131). -/

namespace Sys2Proof.Machine

open Sys2Proof

/-! ## Cores -/

/-- A core of the part. -/
def coreAt (s : State) (c : Nat) : Option Core :=
  if c = s.cur then some s.core else (s.parked.find? fun e => e.1 == c).map (·.2)

/-- The cores with their numbers. -/
def allCores (s : State) : List (Nat × Core) := (s.cur, s.core) :: s.parked

/-- The part with core `c` in place of the selected one. -/
def focus (c : Nat) (s : State) : State :=
  if c = s.cur then s
  else
    match s.parked.find? (fun e => e.1 == c) with
    | some (_, k) => { s with cur := c, core := k, parked := updateFirst (fun e => e.1 == c) (fun _ => (s.cur, s.core)) s.parked }
    | none => s

/-- What happens on core `c`, with the selected core back in place after it; nothing where there is no such core. -/
def onCore (c : Nat) (f : State → State) (s : State) : State :=
  if (coreAt s c).isSome then focus s.cur (f (focus c s)) else s

/-- The selected core changed. -/
def withCore (f : Core → Core) (s : State) : State := { s with core := f s.core }

/-! ## Events that are counted (R141, R399) -/

/-- The core's counters will count `n` events of a source (R141). -/
def Core.note (code : BitVec 8) (n : Nat) (k : Core) : Core := { k with tally := (code, n) :: k.tally }

/-- The die's counters will count `n` events of a source (R399). -/
def noteDie (code : BitVec 8) (n : Nat) (s : State) : State := { s with tally := (code, n) :: s.tally }

/-! ## The pool -/

/-- The bobbin in a pool slot. -/
def poolEntry (s : State) (slot : Nat) : Option PoolEntry := s.pool.find? fun e => e.slot == slot

/-- A pool entry changed. -/
def updEntry (slot : Nat) (f : PoolEntry → PoolEntry) (s : State) : State :=
  { s with pool := updateFirst (fun e => e.slot == slot) f s.pool }

/-- A bobbin record changed. -/
def updBob (slot : Nat) (f : Bobbin → Bobbin) (s : State) : State := updEntry slot (fun e => { e with bob := f e.bob }) s

/-- The pool entry of the bound strand of the selected core. -/
def boundEntry (s : State) : Option PoolEntry := s.core.slot.bind (poolEntry s)

/-- The launch of the bound strand. -/
def launchOf (s : State) (id : Nat) : Option Launch := s.launches.find? fun l => l.id == id

/-- A launch changed. -/
def updLaunch (id : Nat) (f : Launch → Launch) (s : State) : State :=
  { s with launches := updateFirst (fun l => l.id == id) f s.launches }

/-- The lowest-numbered FREE slot of the pool (R62). -/
def freeSlot (s : State) : Option Nat :=
  if Config.poolSlots ≤ s.pool.length then none else leastFree (s.pool.length + 1) 0 (s.pool.map (·.slot))

/-- A bobbin takes the back place and becomes READY; its wait clock starts (R68, R282). -/
def makeReady (slot : Nat) (s : State) : State :=
  let s' := updEntry slot
    (fun e => { e with place := s.nextPlace, since := s.time, covered := none, progress := none, bob := { e.bob with state := .ready } }) s
  { s' with nextPlace := s.nextPlace + 1 }

/-- A new bobbin in the lowest FREE slot (R62, R67, R74); the pool stays in ascending order of slots. -/
def createBobbin (b : Bobbin) (launch : Nat) (s : State) : Option State :=
  (freeSlot s).map fun slot =>
    noteDie 3 1 <| makeReady slot
      { s with pool := s.pool.takeWhile (·.slot < slot) ++ ⟨slot, b, 0, 0, none, none, launch, 0, none⟩ :: s.pool.dropWhile (·.slot < slot) }

/-! ## Skeins -/

/-- Whether a skein is the one of a launch and an id. -/
def skeinIs (launch : Nat) (id : BitVec 16) (k : Skein) : Bool := k.launch == launch && k.id == id

/-- The skein of a launch and an id. -/
def skeinOf (s : State) (launch : Nat) (id : BitVec 16) : Option Skein := s.skeins.find? (skeinIs launch id)

/-- A membership word with NXT clear if it names the skein. -/
def Member.opened (id : BitVec 16) (m : Member) : Member := if m.valid && m.id == id then { m with nxt := false } else m

/-- Phases that complete, complete: the next one opens with all members as participants and their held arrivals (R86, R289). The
answer counts the phases opened. -/
def settle : Nat → Skein → Skein × Nat
  | 0, k => (k, 0)
  | n + 1, k =>
    if k.members.isEmpty || !k.parts.all k.arrived.contains then (k, 0)
    else
      let r := settle n { k with phase := k.phase + 1, parts := k.members, arrived := k.ahead, ahead := [] }
      (r.1, r.2 + 1)

/-- A skein is put back after a change: its phases settle, and NXT clears in the members of an opened phase. -/
def putSkein (k : Skein) (s : State) : State :=
  let r := settle 3 k
  let s := { s with skeins := updateFirst (skeinIs k.launch k.id) (fun _ => r.1) s.skeins }
  if r.2 = 0 then s
  else
    { s with pool := s.pool.map fun e =>
        if e.launch == k.launch && r.1.members.contains e.slot then
          { e with bob := { e.bob with sk0 := e.bob.sk0.opened k.id, sk1 := e.bob.sk1.opened k.id } }
        else e }

/-- The generation of a barrier (R290). -/
def barGenOf (s : State) (b : BitVec 10) : BitVec 16 := ((s.barGen.find? fun e => e.1 == b).map (·.2)).getD 1

/-- A barrier freed: its generation rises, 65,535 followed by 1 (R290). -/
def freeBarrier (b : BitVec 10) (s : State) : State :=
  let g := barGenOf s b
  let g' : BitVec 16 := if g = 0xFFFF then 1 else g + 1
  { s with barGen := (b, g') :: removeFirst (fun e => e.1 == b) s.barGen }

/-- A member's barrier reference dropped (R291). -/
def dropRef (slot : Nat) (k : Skein) (s : State) : State :=
  if !k.refs.contains slot then s
  else
    let refs := k.refs.filter (· != slot)
    match k.bar with
    | some b =>
      if refs.isEmpty then
        freeBarrier b { s with skeins := updateFirst (skeinIs k.launch k.id) (fun k => { k with bar := none, refs := [] }) s.skeins }
      else { s with skeins := updateFirst (skeinIs k.launch k.id) (fun k => { k with refs := refs }) s.skeins }
    | none => s

/-- A strand leaves a skein (R289). -/
def leaveSkein (slot launch : Nat) (id : BitVec 16) (s : State) : State :=
  match skeinOf s launch id with
  | none => s
  | some k =>
    let s := dropRef slot k s
    match skeinOf s launch id with
    | none => s
    | some k =>
      let out (l : List Nat) : List Nat := l.filter (· != slot)
      let k := { k with members := out k.members, parts := out k.parts, arrived := out k.arrived, ahead := out k.ahead }
      if k.members.isEmpty then { s with skeins := removeFirst (skeinIs launch id) s.skeins } else putSkein k s

/-- No membership. -/
def Member.none : Member := ⟨0, false, false⟩

/-- A bobbin's memberships, which its end or loss drops (R84). -/
def dropMemberships (slot : Nat) (s : State) : State :=
  match poolEntry s slot with
  | none => s
  | some e =>
    let s := if e.bob.sk0.valid then leaveSkein slot e.launch e.bob.sk0.id s else s
    let s := if e.bob.sk1.valid then leaveSkein slot e.launch e.bob.sk1.id s else s
    updBob slot (fun b => { b with sk0 := .none, sk1 := .none }) s

/-! ## The end of a strand -/

/-- A core without a strand: sequencers, queues, frames of the strand and accesses are gone (R70, R131, R271); HELD frames stay. -/
def Core.unbind (k : Core) : Core :=
  { k with
    slot := none, aseq := .idle, grd := none, wait := none, spin := none, exitDue := none, passA := [], passV := [], passM := [],
    stop := none, inHandler := false, rearmed := false, vseq := .idle, vrep := 0, vflags := 0, vtrap := none, vacc := none, vpop := [], metV := false, metM := false,
    mseq := .idle, mflight := [],
    vloop := Vector.replicate _ ⟨0, 0, false, 0⟩, mloop := Vector.replicate _ ⟨0, false⟩, q := Vector.replicate _ [],
    mq := Vector.replicate _ [], rq := [], vq := Vector.replicate _ [], copyq := [], copyRun := [], copyTrap := none,
    gather := Vector.replicate _ ⟨.empty, 0, 0, false, 0, 0⟩, bbuf := none, cs := [], acc := [], csPoison := [], accPoison := [],
    units := Vector.replicate _ .none, fresh := BitVec.allOnes 40, out := [], replyA := [], storeFaults := [],
    ndur := none, dbg := [] }

/-- Every frame that a bobbin holds on any core becomes FREE (R131, R135). -/
def dropHeld (slot : Nat) (s : State) : State :=
  let out (k : Core) : Core := { k with held := k.held.filter fun h => h.owner != slot }
  { s with core := out s.core, parked := s.parked.map fun e => (e.1, out e.2) }

/-- The monitor entry of a strand or bobbin is given up. -/
def dropMonitor (slot : Nat) (s : State) : State := { s with monitors := s.monitors.filter fun m => m.slot != slot }

/-- What a stop on core `c` covered or served is settled: the stop completed, or lapsed with its strand (R72, R281, R283). -/
def stopServed (c : Nat) (s : State) : State :=
  let clear (o : Option Nat) : Option Nat := if o == some c then none else o
  { s with pool := s.pool.map fun e => { e with covered := clear e.covered, progress := clear e.progress } }

/-- The core that a bobbin is bound to, or claimed for, has no strand (R67). -/
def releaseCores (slot : Nat) (s : State) : State :=
  let out (k : Core) : Core :=
    if k.slot == some slot || k.claimed == some slot then { k.unbind with claimed := none } else k
  let s : State := match (allCores s).find? (fun c => c.2.slot == some slot) with
    | some c => stopServed c.1 s
    | none => s
  { s with core := out s.core, parked := s.parked.map fun e => (e.1, out e.2) }

/-- No slot of the pool: what a strand that is gone has left behind belongs to no other strand. -/
abbrev noSlot : Nat := Config.poolSlots

/-- The requests, messages and protected writes of a lost strand go on without it (R408, R436, R447): a strand that is given its slot later
does not wait for them. -/
def disown (slot : Nat) (s : State) : State :=
  let req (r : WReq) : WReq := if r.slot == slot then { r with slot := noSlot } else r
  let upd (p : ParityOut) : ParityOut := if p.writer.any (fun w => w.slot == slot) then { p with writer := none } else p
  { s with
    net := { s.net with
      flight := s.net.flight.map (fun r => { r with req := req r.req }),
      eps := s.net.eps.map fun e => { e with sendq := e.sendq.map req, recvq := e.recvq.map req } },
    fab := { s.fab with sends := s.fab.sends.map fun m => if m.slot == slot then { m with slot := noSlot } else m },
    sv := { s.sv with pending := s.sv.pending.map upd } }

/-- The code of a trap (R258). -/
def TrapCode.code : TrapCode → BitVec 10
  | .illegal => 0x001
  | .illegalLen => 0x002
  | .illegalOp => 0x003
  | .misalign => 0x004
  | .prot => 0x005
  | .nonres => 0x006
  | .divZero => 0x007
  | .vArith => 0x008
  | .semOvf => 0x009
  | .queue => 0x00A
  | .mFault => 0x00B
  | .copy => 0x00C
  | .soft => 0x00D
  | .brkpt => 0x00E
  | .watch => 0x00F
  | .spawnRecord => 0x010
  | .uncorr => 0x011
  | .seamIntegrity => 0x020
  | .saveUncorr => 0x021
  | .shuttleLoss => 0x030
  | .selvedgeLoss => 0x031

/-- The traps in the order of R258. -/
def TrapCode.all : Vector TrapCode 21 :=
  #v[.illegal, .illegalLen, .illegalOp, .misalign, .prot, .nonres, .divZero, .vArith, .semOvf, .queue, .mFault, .copy, .soft, .brkpt, .watch,
    .spawnRecord, .uncorr, .seamIntegrity, .saveUncorr, .shuttleLoss, .selvedgeLoss]

/-- A bobbin is LOST with a FAULT code: memberships dropped, frames free; the first loss of the launch is noted (R67, R84, R131,
R376). -/
def loseWith (slot : Nat) (code : BitVec 10) (s : State) : State :=
  match poolEntry s slot with
  | none => s
  | some e =>
    let s := dropMemberships slot s
    let s := updLaunch e.launch (fun l => if l.first = 0 then { l with first := code } else l) s
    let s := updBob slot (fun b => { b with state := .lost, fault := code, hold := 0xFF }) s
    disown slot (releaseCores slot (dropMonitor slot (dropHeld slot s)))

/-- A trap is counted for the record of its strand's launch (R376). -/
def countTrapOf (launch : Nat) (s : State) : State := updLaunch launch (fun l => { l with faults := min (l.faults + 1) (2 ^ 32 - 1) }) s

/-- A trap of the bound strand is counted. -/
def countTrap (s : State) : State := countTrapOf s.core.launch s

/-- A fault kills a bobbin, and counts (R67, R376). -/
def loseBobbin (slot : Nat) (code : TrapCode) (s : State) : State :=
  match poolEntry s slot with
  | none => s
  | some e => loseWith slot code.code (countTrapOf e.launch s)

/-- The bound strand of the selected core is lost. -/
def loseStrand (code : TrapCode) (s : State) : State :=
  match s.core.slot with
  | some slot => loseBobbin slot code s
  | none => withCore Core.unbind s

end Sys2Proof.Machine
end

