-- ==== Sys2Proof/Machine/Layout.lean ====
section
/-! DEFINITION. The physical map (R304), and what the memory processor keeps in the vaults (R307): the bobbin pool (R62), extent tables and
frame lists in two copies (R308, R309), and block slots (R322). The places are the model's (assumption 44). -/

namespace Sys2Proof.Machine

open Sys2Proof

/-- Bytes of a page (R308). -/
def pageSize (psz : BitVec 3) : Nat :=
  match psz.toNat with
  | 0 => 0x1000
  | 1 => 0x10000
  | 2 => 0x200000
  | 3 => 0x2000000
  | _ => 0x40000000

/-- Bases of the physical map (R304). -/
abbrev vaultBase : Nat := 0xC000000000
abbrev vaultEnd : Nat := 0xC060000000
abbrev coreBase : Nat := 0xC800000000
abbrev coreEnd : Nat := 0xC818000000
abbrev blockBase : Nat := 0xD000000000
abbrev blockEnd : Nat := 0xD040000000
abbrev panelBase : Nat := 0x10000000000
abbrev panelEnd : Nat := 0x20000000000
abbrev hostBase : Nat := 0x20000000000
abbrev hostEnd : Nat := 0x40000000000

/-! ## Bobbin records as bytes (R64) -/

/-- STATE (R65). -/
def BobState.code : BobState → Nat
  | .ready => 1
  | .selected => 2
  | .bound => 3
  | .stopping => 4
  | .watch => 5
  | .done => 6
  | .lost => 7
  | .reserved c => 8 + c.toNat

/-- A membership word. -/
def Member.word (m : Member) : Nat := m.id.toNat + bit m.valid * 2 ^ 16 + bit m.nxt * 2 ^ 17

/-- The 64 bytes of a record. -/
def Bobbin.bytes (b : Bobbin) : List Byte :=
  leBytes 8 b.code.toNat ++
    leBytes 8
      (b.seam.toNat + b.qid.toNat * 2 ^ 32 + b.pri.toNat * 2 ^ 48 + b.state.code * 2 ^ 56 + bit b.spn * 2 ^ 60) ++
    leBytes 8 b.save.toNat ++ leBytes 8 b.index.toNat ++ leBytes 8 b.arg.toNat ++ leBytes 4 b.sk0.word ++ leBytes 4 b.sk1.word ++
    leBytes 8 b.ext.toNat ++
    leBytes 8 (b.fault.toNat + b.cause.toNat * 2 ^ 16 + b.hold.toNat * 2 ^ 24 + b.nstop.toNat * 2 ^ 32)

/-! ## The places (assumption 44) -/

/-- Bytes of a vault (R305). -/
abbrev vaultSize : Nat := 0x1800000

/-- The boot staging area: the first 4 MiB of vault 63 (R307, R392). -/
abbrev stagingBase : Nat := vaultBase + 63 * vaultSize

/-- The 16 MiB of vaults 2j and 2j + 1 that are no block slots: the upper 8 MiB of the one and the lower 8 MiB of the other. -/
abbrev pairBytes : Nat := 0x1000000
def pairBase (j : Nat) : Nat := vaultBase + 2 * j * vaultSize + pairBytes

/-- The bobbin pool. -/
abbrev poolBase : Nat := vaultBase + pairBytes

/-- The second copy of a table lies this far above the first, in other vaults. -/
abbrev copyStep : Nat := 8 * vaultSize

/-- The four ranges of the first copy of the tables. -/
def tableRanges : List (Nat × Nat) := [1, 2, 3, 4].map fun j => (pairBase j, pairBase j + pairBytes)

/-- Block slots of a vault: slot x lies in vault x mod 64 (R322). -/
def blockArea (v : Nat) : Nat := vaultBase + v * vaultSize + v % 2 * 0x800000

/-- The place of a block slot in its vault. -/
def blockPlace (x : Nat) : Nat := blockArea (x % 64) + x / 64 * 0x4000

/-- Slots of 16 KiB that the block-table store may have in each vault: what BLOCKS says once it is in force, until then room for any
BLOCKS (R331). -/
def blocksPerVault (s : State) : Nat := if s.blocksLock then s.blocks.toNat / 64 else 1024

/-- Vault bytes that hold no frame (R307). -/
def reservedVault (s : State) : List (Nat × Nat) :=
  (stagingBase, 0x400000) :: ((List.range 9).map fun j => (pairBase j, pairBytes)) ++
    (List.range 64).map fun v => (blockArea v, blocksPerVault s * 0x4000)

/-- The offset in the block-table store that a vault address is the place of. -/
def blockAtPlace (s : State) (pa : Nat) : Option Nat :=
  if vaultBase ≤ pa && pa < vaultEnd then
    let v := (pa - vaultBase) / vaultSize
    if blockArea v ≤ pa && pa < blockArea v + blocksPerVault s * 0x4000 then
      let o := pa - blockArea v
      some ((o / 0x4000 * 64 + v) * 0x4000 + o % 0x4000)
    else none
  else none

/-- Whether a vault address belongs to the pool or to a copy of the tables. -/
def inTables (pa : Nat) : Bool := poolBase ≤ pa && pa < poolBase + 17 * vaultSize && (List.range 9).any fun j => pairBase j ≤ pa && pa < pairBase j + pairBytes

/-! ## The bytes that stand there -/

/-- An entry of an extent table (R308). -/
def Extent.bytes (e : Extent) (frames : Nat) : List Byte :=
  leBytes 8 e.base ++ leBytes 8 e.size ++ leBytes 8 frames ++ leBytes 1 e.psz.toNat ++ leBytes 1 e.attr.toNat ++ leBytes 6 0

/-- The frame entry of a page (R309). -/
def frameEntry (p : Page) : Nat := p.pa / 4096 % 2 ^ 36 * 4096 + 2 * bit p.pin + bit p.res

/-- The backing with an identifier. -/
def backingOf (s : State) (id : Nat) : Option Backing := s.backings.find? fun b => b.id == id

/-- Bytes of an extent table and of a frame list. -/
abbrev tableBytes : Nat := 1024
def Backing.listBytes (b : Backing) : Nat := 8 * b.room

/-- A byte of a launch's extent table. -/
def extentByte (s : State) (l : Launch) (o : Nat) : Byte :=
  match l.exts.find? (fun e => e.idx == o / 32) with
  | some e => (e.bytes (((backingOf s e.back).map (·.list)).getD 0)).getD (o % 32) 0
  | none => 0

/-- A byte of a frame list. -/
def Backing.listByte (b : Backing) (o : Nat) : Byte :=
  match b.pages[o / 8]? with
  | some p => (leBytes 8 (frameEntry p)).getD (o % 8) 0
  | none => 0

/-- A byte of the pool, of an extent table or of a frame list. -/
def tableByte (s : State) (pa : Nat) : Byte :=
  if pa < poolBase + pairBytes then
    match poolEntry s ((pa - poolBase) / 64) with
    | some e => e.bob.bytes.getD ((pa - poolBase) % 64) 0
    | none => 0
  else
    let a := if pairBase 5 ≤ pa then pa - copyStep else pa
    match s.launches.find? (fun l => l.ext.toNat ≤ a && a < l.ext.toNat + tableBytes) with
    | some l => extentByte s l (a - l.ext.toNat)
    | none =>
      match s.backings.find? (fun b => b.list ≤ a && a < b.list + b.listBytes) with
      | some b => b.listByte (a - b.list)
      | none => 0

/-! ## Room for tables and frames -/

/-- The first free range of a size, aligned, from `cand` on, below `hi`. -/
def findRoom (used : List (Nat × Nat)) (size align hi : Nat) : Nat → Nat → Option Nat
  | 0, _ => none
  | fuel + 1, cand =>
    if hi < cand + size then none
    else
      match used.find? (fun u => u.1 < cand + size && cand < u.1 + u.2) with
      | none => some cand
      | some u => findRoom used size align hi fuel (roundUp (u.1 + u.2) align)

/-- Tables in use, in their first copy. -/
def usedTables (s : State) : List (Nat × Nat) :=
  s.launches.map (fun l => (l.ext.toNat, tableBytes)) ++ s.backings.map fun b => (b.list, b.listBytes)

/-- The lowest place for a table of `n` bytes, a multiple of 64. -/
def tableRoom (s : State) (n : Nat) : Option Nat :=
  let used := usedTables s
  tableRanges.findSome? fun r => findRoom used n 64 r.2 (used.length + 1) r.1

/-! ## Columns and lines -/

/-- The column of a vault address, eight to a vault (R305). -/
def vaultColumn (pa : Nat) : Nat := (pa - vaultBase) / 0x300000

/-- Whether the column of a vault address has failed (R327). -/
def columnFailed (s : State) (pa : Nat) : Bool :=
  vaultBase ≤ pa && pa < vaultEnd && (bank s.vcol (BitVec.ofNat 6 (vaultColumn pa / 8))).getLsbD (vaultColumn pa % 8)

/-- Whether the column of a vault address has not retrained since a warm reset (R327). -/
def columnBusy (s : State) (pa : Nat) : Bool := vaultBase ≤ pa && pa < vaultEnd && s.retrain.contains (vaultColumn pa)

/-- Whether a line of the tables cannot be read in either copy (R307, R328). -/
def lineLost (s : State) (pa : Nat) : Bool :=
  let bad (a : Nat) : Bool := s.poison.contains (a / 64) || columnFailed s a
  bad pa && bad (pa + copyStep)

/-- The lines of a table where an error can begin: the poisoned ones, and the first one of each column. -/
def suspectLines (s : State) (a n : Nat) : List Nat :=
  let first := (List.range (n / 0x300000 + 2)).map fun j => max a (vaultBase + (vaultColumn a + j) * 0x300000)
  (s.poison.map (64 * ·) ++ s.poison.map (fun l => 64 * l - copyStep) ++ first).filter fun x => a / 64 * 64 ≤ x && x < a + n

/-- Whether a table of `n` bytes cannot be read in either copy (R329). -/
def tableLost (s : State) (a n : Nat) : Bool := (suspectLines s a n).any (lineLost s)

/-- Whether the table entry or the frame list of an extent cannot be read in either copy (R329). -/
def extentLost (s : State) (l : Nat) (e : Extent) : Bool :=
  (launchOf s l).any (fun x => tableLost s (x.ext.toNat + 32 * e.idx) 32) ||
    (backingOf s e.back).any fun b => tableLost s b.list (8 * (e.size / pageSize e.psz))

end Sys2Proof.Machine
end

