-- ==== Sys2Proof/Machine/Memory.lean ====
section
/-! DEFINITION. How an access reaches memory: translation (R302 to R310, R318, R324), frames of a core (R130 to R132), residency
(R314), errors (R328), and the reads, writes and atomics of bytes that every path uses (R7, R334). -/

namespace Sys2Proof.Machine

open Sys2Proof

/-! ## Where a byte lies -/

/-- On whose behalf an access is made: a launch (R310), a peer unit with its job (R129, R420), or the part itself. -/
inductive Who where
  | launch (id : Nat)
  | job (j : BitVec 16)
  | part
  deriving DecidableEq, Repr

/-- Where one byte of an access lies, or why it cannot be reached now. -/
inductive Site where
  /-- A byte of LPDDR 6, a vault, a block slot or a host window. -/
  | mem (pa : Nat)
  /-- A byte of the pool or of the memory processor's tables, which only hardware writes (R62, R307). -/
  | table (pa : Nat)
  /-- A byte of an invalid block position (R324). -/
  | block (slot pos pa : Nat)
  /-- A byte of a core store, in a unit with a frame. -/
  | core (c off : Nat)
  /-- A unit of a core without a frame (R130); `own` says that the access is the bound strand's own, which alone may start a save
  (R129). -/
  | claim (c unit : Nat) (own : Bool)
  /-- A frame in FILL or LOAD, or a frozen stripe: the access waits. -/
  | busy
  /-- A page that is not resident (R314). -/
  | page (back page : Nat)
  /-- A stripe that the substitute has not rebuilt yet (R454). -/
  | stripe (range : Bool) (j : Nat)
  /-- A byte of another part (R419). -/
  | peer (slot off : Nat)
  | bad (code : TrapCode)
  deriving DecidableEq, Repr

/-- Whether a physical address lies in memory that frames are made of (R304). -/
def isFrameAddr (pa : Nat) : Bool := pa < vaultEnd || (hostBase ≤ pa && pa < hostEnd)

/-- Whether a host-window address has no grant (R383). -/
def ungranted (s : State) (pa : Nat) : Bool :=
  hostBase ≤ pa && pa < hostEnd && !s.grants.any fun g => g.base ≤ pa && pa < g.base + g.size

/-- A byte of LPDDR 6, a vault or a host window, as grants (R383), failed columns (R327), freezes and rebuilding (R454) let it be
reached. -/
def memSite (s : State) (write : Bool) (pa : Nat) : Site :=
  if ungranted s pa then .bad .prot
  else if columnFailed s pa then .bad .uncorr
  else if columnBusy s pa then .busy
  else
    match svDataBlock s.sv pa with
    | none => .mem pa
    | some (r, b, _) =>
      let j := (svStripe (svMember s.fab) b).1
      if s.sv.rebuild && !s.sv.rebuilt.contains (r, j) then .stripe r j
      else if write && s.sv.frozen.contains (r, j) then .busy
      else .mem pa

/-- The frame of a core-store byte (R130). -/
def coreSite (s : State) (own : Bool) (c off : Nat) : Site :=
  match coreAt s c with
  | none => .bad .prot
  | some k =>
    match k.units[off / 0x10000]? with
    | some .own => .core c off
    | some .none => .claim c (off / 0x10000) own
    | some .await => .claim c (off / 0x10000) own
    | _ => .busy

/-- Who may reach a core store: the bound strand's launch, or a job of its function (R129). -/
def mayCore (s : State) (who : Who) (c : Nat) : Bool :=
  match coreAt s c with
  | none => false
  | some k =>
    k.slot.isSome &&
      match who with
      | .launch l => k.launch == l
      | .job j => bank s.fab.fjob (launchFn s k.launch) == j
      | .part => true

/-- Who may reach a block slot: a function with a name for it (R324). -/
def mayBlock (s : State) (who : Who) (x : Nat) : Bool :=
  s.blockNames.any fun n => n.slot == x &&
    match who with
    | .launch l => n.fn == launchFn s l
    | .job j => bank s.fab.fjob n.fn == j
    | .part => true

/-- A byte of the block-table store (R324). -/
def blockSite (s : State) (who : Who) (off : Nat) : Site :=
  let x := off / 0x4000
  let q := off % 0x4000 / 256
  if !mayBlock s who x then .bad .prot
  else
    match s.blockSlots.find? (fun b => b.num == x) with
    | none => .bad .prot
    | some b =>
      if columnFailed s (blockPlace x) then .bad .uncorr
      else if columnBusy s (blockPlace x) then .busy
      else if b.bitmap.getLsbD q then .mem (blockBase + off)
      else .block x q (blockBase + off)

/-- Tile columns and tile rows of a panel (R317). -/
def Panel.tileCols (p : Panel) : Nat := (p.cols * p.es + 63) / 64
def Panel.tileRows (p : Panel) : Nat := (p.rows + 31) / 32

/-- Bytes of the storage (R317). -/
def Panel.bytes (p : Panel) : Nat := p.tileRows * p.tileCols * 2048

/-- Storage offset of a byte of an element (R317). -/
def Panel.off (p : Panel) (r c i : Nat) : Nat :=
  (r / 32 * p.tileCols + c * p.es / 64) * 2048 + r % 32 * 64 + c * p.es % 64 + i

/-- A storage byte of a panel. -/
def panelByte (s : State) (write : Bool) (p : Panel) (so : Nat) : Site :=
  match p.pas[so / 2048]? with
  | some t => memSite s write (t + so % 2048)
  | none => .bad .prot

/-- A byte of a panel's views (R318). -/
def panelSite (s : State) (who : Who) (write atomic : Bool) (off : Nat) : Site :=
  match s.panels.find? (fun p => p.num == off / 0x100000000) with
  | none => .bad .prot
  | some p =>
    let o := off % 0x100000000
    let view := o / 0x40000000
    let i := o % 0x40000000
    let own := match who with
      | .launch l => p.launch == l
      | _ => true
    if !own || (write && !p.attr.getLsbD 4) then .bad .prot
    else
      match view with
      | 0 =>
        if i < p.rows * p.cols * p.es then
          let e := i / p.es
          panelByte s write p (p.off (e / p.cols) (e % p.cols) (i % p.es))
        else .bad .prot
      | 1 =>
        if i < p.rows * p.cols * p.es && !atomic then
          let e := i / p.es
          panelByte s write p (p.off (e % p.rows) (e / p.rows) (i % p.es))
        else .bad .prot
      | 2 => if i < p.tileRows * p.tileCols * 2048 && !atomic then panelByte s write p i else .bad .prot
      | _ => .bad .prot

/-- Whether a byte belongs to the storage of a defined panel (R320). -/
def panelHolds (s : State) (pa : Nat) : Bool := s.panels.any fun p => p.pas.contains (pa / 2048 * 2048)

/-- A byte of the vaults where the memory processor keeps the pool, its tables and the block slots (R62, R307): the part and its host may
read it, and write the block slots; nothing else reaches it. -/
def keptSite (s : State) (who : Who) (write : Bool) (pa : Nat) : Option Site :=
  if inTables pa then
    some (if write || who != .part then .bad .prot else if columnFailed s pa then .bad .uncorr else if columnBusy s pa then .busy else .table pa)
  else
    (blockAtPlace s pa).map fun off =>
      if who != .part then .bad .prot
      else if columnFailed s pa then .bad .uncorr
      else if columnBusy s pa then .busy
      else .mem (blockBase + off)

/-- A byte at a physical address (R304); a reserved address reaches nothing, nor does a unit from another part the storage of a defined
panel (R338, R419). -/
def physSite (s : State) (who : Who) (write atomic : Bool) (pa : Nat) : Site :=
  if isFrameAddr pa then
    match keptSite s who write pa with
    | some x => x
    | none => if panelHolds s pa && who != .part then .bad .prot else memSite s write pa
  else if coreBase ≤ pa && pa < coreEnd then
    let c := (pa - coreBase) / 0x200000
    if mayCore s who c then coreSite s false c ((pa - coreBase) % 0x200000) else .bad .prot
  else if blockBase ≤ pa && pa < blockEnd then blockSite s who (pa - blockBase)
  else if panelBase ≤ pa && pa < panelEnd then panelSite s who write atomic (pa - panelBase)
  else .bad .prot

/-- The extent of a launch that holds a lower-half address (R310). -/
def extentAt (s : State) (l a : Nat) : Option Extent :=
  (launchOf s l).bind fun x => x.exts.find? fun e => e.base ≤ a && a < e.base + e.size

/-- The frame entry of a page (R309). -/
def pageOf (s : State) (back i : Nat) : Option Page := (s.backings.find? fun b => b.id == back).bind fun b => b.pages[i]?

/-- A lower-half byte (R310); one of an extent whose table or frame list is lost is uncorrectable (R329). -/
def extentSite (s : State) (l : Nat) (write : Bool) (a : Nat) : Site :=
  match extentAt s l a with
  | none => .bad .prot
  | some e =>
    if write && !e.attr.getLsbD 4 then .bad .prot
    else if extentLost s l e then .bad .uncorr
    else
      let i := (a - e.base) / pageSize e.psz
      match pageOf s e.back i with
      | none => .bad .prot
      | some p =>
        if !p.res then .page e.back i
        else
          let pa := p.pa + (a - e.base) % pageSize e.psz
          if panelHolds s pa then .bad .prot else memSite s write pa

/-- Window bases (R302). -/
abbrev ownWin : Nat := 0xFFFFFF0000000000
abbrev cluWin : Nat := 0xFFFFFF1000000000
abbrev panelWin : Nat := 0xFFFFFE0000000000
abbrev blockWin : Nat := 0xFFFFFD0000000000
abbrev imgWin : Nat := 0xFFFFFC0000000000
abbrev peerWin : Nat := 0xFF80000000000000

/-- Whether an upper-half address lies in a fixed window (R302). -/
def fixedWindow (a : Nat) : Bool :=
  (ownWin ≤ a && a < ownWin + 0x200000) || (cluWin ≤ a && a < cluWin + 0x18000000) || (panelWin ≤ a && a < panelWin + 0x10000000000) ||
    (blockWin ≤ a && a < blockWin + 0x40000000) || (imgWin ≤ a && a < imgWin + 0x100000000) || (peerWin ≤ a && a < peerWin + 2 ^ 54)

/-- R302: bits 63:56 equal bit 55. -/
def canonical (va : Word) : Bool := va.extractLsb' 55 9 == 0 || va.extractLsb' 55 9 == 0x1FF

/-- A byte at a virtual address of a launch (R302, R303, R310, R419); `own` marks an access of the selected core's strand, which alone
has an own core store, an image and peer windows. -/
def virtSite (s : State) (l : Nat) (own write atomic : Bool) (va : Word) : Site :=
  let a := va.toNat
  if !canonical va then .bad .prot
  else if a < 2 ^ 55 then extentSite s l write a
  else if ownWin ≤ a && a < ownWin + 0x200000 then if own then coreSite s true s.cur (a - ownWin) else .bad .prot
  else if cluWin ≤ a && a < cluWin + 0x18000000 then
    let c := (a - cluWin) / 0x200000
    if mayCore s (.launch l) c then coreSite s (own && c == s.cur) c ((a - cluWin) % 0x200000) else .bad .prot
  else if panelWin ≤ a && a < panelWin + 0x10000000000 then panelSite s (.launch l) write atomic (a - panelWin)
  else if blockWin ≤ a && a < blockWin + 0x40000000 then blockSite s (.launch l) (a - blockWin)
  else if imgWin ≤ a && a < imgWin + 0x100000000 then
    if own && !write && a - imgWin < s.core.imgSize then memSite s false (s.core.codeBase.toNat + (a - imgWin)) else .bad .prot
  else if peerWin ≤ a && a < peerWin + 2 ^ 54 then
    let o := (a - peerWin) % 2 ^ 48
    let t := (a - peerWin) / 2 ^ 48
    if own && o < 2 ^ 41 && s.fab.dmask.getLsbD t then .peer t o else .bad .prot
  else .bad .prot

/-- The sites of consecutive bytes, addresses modulo 2^64 (R96). -/
def virtSites (s : State) (l : Nat) (own write atomic : Bool) (va : Word) (n : Nat) : List Site :=
  (List.range n).map fun i => virtSite s l own write atomic (va + w64 i)

/-- The sites of an access of the bound strand. -/
def strandSites (s : State) (write atomic : Bool) (va : Word) (n : Nat) : List Site :=
  virtSites s s.core.launch true write atomic va n

/-- The sites of consecutive bytes of physical memory. -/
def physSites (s : State) (who : Who) (write atomic : Bool) (pa n : Nat) : List Site :=
  (List.range n).map fun i => physSite s who write atomic (pa + i)

/-- A byte's place on one line of numbers. -/
def siteKey : Site → Option Nat
  | .mem pa => some pa
  | .table pa => some pa
  | .block _ _ pa => some pa
  | .core c off => some (coreBase + c * 0x200000 + off)
  | _ => none

/-- The part with every column and stripe available: a byte lies where it lies, whether or not it can be read now (R327, R454). -/
def State.whole (s : State) : State :=
  { s with vcol := Vector.replicate _ 0, retrain := [], sv := { s.sv with rebuild := false, frozen := [] } }

/-- The places of consecutive bytes at a physical address, behind a view of a panel too (R304, R318). -/
def physKeys (s : State) (pa n : Nat) : List Nat := (physSites s.whole .part false false pa n).filterMap siteKey

/-- Whether a byte lies in the store of the core itself. -/
def Site.ownStore (cur : Nat) : Site → Bool
  | .core c _ => c == cur
  | .claim c _ _ => c == cur
  | _ => false

/-! ## Frames of the selected core -/

/-- Whether two units are of one kind: regions 0 to 31, tiles 32 to 39. -/
def sameKind (u v : Nat) : Bool := decide (u < 32) == decide (v < 32)

/-- Units of the kind of `u` in a state that `f` picks. -/
def Core.unitCount (k : Core) (u : Nat) (f : UnitSt → Bool) : Nat :=
  ((List.range 40).filter fun v => sameKind u v && (k.units[v]?).any f).length

/-- The claims of the kind of `u` that wait for a save. -/
def Core.awaiting (k : Core) (u : Nat) : Nat := k.unitCount u (· == .await)

/-- The FREE frames of the kind of `u` (R131): 32 region frames and 8 tile frames, less those of the strand and those held. -/
def Core.freeFrames (k : Core) (u : Nat) : Nat :=
  (if u < 32 then 32 else 8) - k.unitCount u (fun st => st != .none && st != .await) - (k.held.filter fun h => sameKind u h.unit).length

/-- The HELD frame whose owner stopped earliest, its lowest unit first, goes to SAVE for the claim of `u` (R132). -/
def Core.startSave (k : Core) (u : Nat) : Core :=
  match leastBy (fun h => h.order * 64 + h.unit) (k.held.filter fun h => sameKind u h.unit && !h.saving) with
  | none => k
  | some v =>
    { k with
      units := k.units.setIfInBounds u .await,
      held := updateFirst (fun h => h.owner == v.owner && h.unit == v.unit) (fun h => { h with saving := true }) k.held }

/-- A FREE frame is taken for unit `u` (R131). The binding's need of one is no claim of the strand (R141). -/
def Core.takeFrame (k : Core) (use : UnitSt) (u : Nat) : Core :=
  let k := { k with units := k.units.setIfInBounds u use }
  if use == .load then k else k.note 0x15 1

/-- A core's claim of a frame for unit `u` (R130 to R132), which goes to FILL or to LOAD: a FREE frame that no earlier claim waits for is
taken, else a save is started, where `save` allows one, and the claim waits for it. -/
def Core.claimFor (k : Core) (use : UnitSt) (save : Bool) (u : Nat) : Core :=
  match k.units[u]? with
  | some .none =>
    if k.awaiting u < k.freeFrames u then k.takeFrame use u else if save then k.startSave u else k
  | some .await => if 0 < k.freeFrames u then k.takeFrame use u else k
  | _ => k

/-- A claim by an access of the bound strand: the frame is filled. -/
def Core.claim (k : Core) (u : Nat) : Core := k.claimFor .fill true u

/-- Whether a frame is HELD by a bobbin on some core; one in SAVE no longer is (R131). -/
def holdsAny (s : State) (slot : Nat) : Bool := (allCores s).any fun c => c.2.held.any fun h => h.owner == slot && !h.saving

/-- HOLD becomes 0xFF once no frame is held by the bobbin (R133). -/
def settleHold (slot : Nat) (s : State) : State := if holdsAny s slot then s else updBob slot (fun b => { b with hold := 0xFF }) s

/-- The owners of the frames that the selected core saves (R132, R133). -/
def settleSaving (s : State) : State := (s.core.held.filter (·.saving)).foldl (fun s h => settleHold h.owner s) s

/-- Claims of the bound strand for frames of units. -/
def claimUnits (us : List Nat) (s : State) : State := settleSaving (withCore (fun k => us.foldl Core.claim k) s)

/-! ## Residency -/

/-- Pending requests of the die. -/
def pendingPages (s : State) : Nat := s.backings.foldl (fun n b => n + (b.pages.filter fun p => p.wanted.isSome).length) 0

/-- A page changed. -/
def updPage (back i : Nat) (f : Page → Page) (s : State) : State :=
  { s with backings := updateFirst (fun b => b.id == back) (fun b => { b with pages := b.pages.modify i f }) s.backings }

/-- A request for a page, unless one is pending or the table of requests is full (R314). -/
def requestPage (back i : Nat) (s : State) : State :=
  match pageOf s back i with
  | none => s
  | some p =>
    if p.res || p.wanted.isSome || Config.pageRequests ≤ pendingPages s then s
    else updPage back i (fun p => { p with wanted := some s.nextId, askedAt := s.time }) { s with nextId := s.nextId + 1 }

/-- What an access that must wait asks for. -/
def serveSite (s : State) : Site → State
  | .page b i => requestPage b i s
  | .claim c u own => onCore c (fun s => settleSaving (withCore (fun k => k.claimFor .fill own u) s)) s
  | .stripe r j =>
    if s.sv.wantedFirst.contains (r, j) then s else { s with sv := { s.sv with wantedFirst := s.sv.wantedFirst ++ [(r, j)] } }
  | _ => s

/-- What the waiting bytes of an access ask for. -/
def serveSites (sites : List Site) (s : State) : State := sites.foldl serveSite s

/-! ## Reads -/

/-- How a read meets what it cannot read (R7, R96, R108, R203, R272, R324); `raw` is the read of a peer unit for KLD or a copy, which
tells an invalid block position from a fresh unit (R423). -/
inductive ReadKind where
  | load | strict | kld | raw | copy | rmw
  deriving DecidableEq, Repr

/-- What reading one byte gives. -/
inductive ByteRead where
  | value (b : Byte) (miss : Bool)
  | stop (code : TrapCode)
  | wait
  deriving DecidableEq, Repr

/-- Reading of a byte of physical memory, poison and unrecoverable stripes in view (R328, R454). -/
def readMemByte (s : State) (pa : Nat) : ByteRead :=
  if s.sv.deadLines.contains (pa / 64) then .stop .selvedgeLoss
  else if s.poison.contains (pa / 64) then .stop .uncorr
  else .value (memGet s.mem pa) false

/-- Reading of a byte where it lies. -/
def readSite (s : State) (kind : ReadKind) : Site → ByteRead
  | .mem pa => readMemByte s pa
  | .table pa => if s.poison.contains (pa / 64) then .stop .uncorr else .value (tableByte s pa) false
  | .block _ _ _ =>
    match kind with
    | .load => .value 0 true
    | .raw => .value 0 true
    | .strict => .stop .nonres
    | .kld => .stop .nonres
    | .copy => .stop .prot
    | .rmw => .value 0 false
  | .core c off =>
    match coreAt s c with
    | none => .stop .prot
    | some k =>
      if k.csPoison.contains (off / 64) then .stop .uncorr
      else if k.fresh.getLsbD (off / 0x10000) then
        match kind with
        | .load => .value 0 true
        | .strict => .stop .nonres
        | _ => .value 0 false
      else .value (memGet k.cs off) false
  | .page _ _ =>
    match kind with
    | .load => .value 0 true
    | _ => .wait
  | .bad code => .stop code
  | .claim _ _ _ => .wait
  | .busy => .wait
  | .stripe _ _ => .wait
  | .peer _ _ => .stop .prot

/-- What reading of bytes gives: their values and which of them were missing. -/
structure Seen where
  bytes : List Byte
  miss : List Bool
  deriving DecidableEq, Repr

/-- The outcome of an access of several bytes: done, to be run again later, or a fault at byte `i`. -/
inductive Acc (α : Type) where
  | ok (x : α) (s : State)
  | stall (s : State)
  | stop (i : Nat) (code : TrapCode)
  deriving DecidableEq, Repr

/-- The first byte that cannot be read. -/
def firstStop : Nat → List ByteRead → Option (Nat × TrapCode)
  | _, [] => none
  | i, .stop c :: _ => some (i, c)
  | i, _ :: rest => firstStop (i + 1) rest

/-- A value that was read, or zero. -/
def ByteRead.byte : ByteRead → Byte
  | .value b _ => b
  | _ => 0

/-- Whether a byte read was missing. -/
def ByteRead.missed : ByteRead → Bool
  | .value _ m => m
  | _ => false

/-- Reading of bytes (R7): a fault at the first byte that has one, else a wait, else the values. -/
def readSites (kind : ReadKind) (sites : List Site) (s : State) : Acc Seen :=
  let rs := sites.map (readSite s kind)
  match firstStop 0 rs with
  | some (i, c) => .stop i c
  | none => if rs.contains .wait then .stall (serveSites sites s) else .ok ⟨rs.map (·.byte), rs.map (·.missed)⟩ s

/-! ## Writes -/

/-- The poisoned lines that a write of `n` bytes leaves (R328). -/
def heal (a n : Nat) (lines : List Nat) : List Nat := lines.filter fun l => !(a ≤ 64 * l && 64 * l + 64 ≤ a + n)

/-- A write of `n` bytes seen by the monitors (R75). -/
def touchMonitors (a n : Nat) (ms : List Monitor) : List Monitor :=
  ms.map fun m => if m.addrs.any (fun x => a ≤ x && x < a + n) then { m with written := true } else m

/-- A write raises the generation of every image on the pages it touches (R120), pages of 4,096 bytes (DESIGN CHOICE, assumption 40). -/
def bumpImages (a n : Nat) (l : List Image) : List Image :=
  l.map fun i =>
    if i.code / 4096 * 4096 < a + n && a < roundUp (i.code + i.size) 4096 then { i with gen := i.gen + 1 } else i

/-- Bytes written to physical memory at their owner. -/
def putMem (pa : Nat) (bs : List Byte) (s : State) : State :=
  { s with
    mem := memPut s.mem pa bs, poison := heal pa bs.length s.poison, images := bumpImages pa bs.length s.images,
    monitors := touchMonitors pa bs.length s.monitors }

/-- The lines of unrecoverable stripes that a write covers whole are readable again. -/
def healDead (pa n : Nat) (v : Selvedge) : Selvedge := { v with deadLines := heal pa n v.deadLines }

/-- One piece of a write to physical memory with its parity updates (R444); the answer tells whether the store is kept. -/
def putPiece (pa : Nat) (bs : List Byte) (by_ : Option Writer) (va : Word) (s : State) : State × Bool :=
  let old := memBytes bs.length pa s.mem
  let s := putMem pa bs s
  let s := { s with sv := healDead pa bs.length s.sv }
  protectedUnit pa old bs by_ va s

/-- A write to physical memory, in pieces of at most 128 bytes where Selvedge protects it (R444). -/
def putPhys (pa : Nat) (bs : List Byte) (by_ : Option Writer) (va : Word) (s : State) : State × Bool :=
  if s.sv.en then
    (pieces 128 (bs.length + 1) pa bs.length).foldl
      (fun r u =>
        let p := putPiece u.1 ((bs.drop (u.1 - pa)).take u.2) by_ va r.1
        (p.1, r.2 && p.2))
      (s, true)
  else (putMem pa bs s, true)

/-- Units of a core store that a range of bytes touches. -/
def unitsOf (off n : Nat) : BitVec 40 :=
  (List.range 32).foldl (fun m u => if u * 0x10000 < off + n && off < (u + 1) * 0x10000 then m ||| (1#40 <<< u) else m) 0

/-- Bytes written to the selected core's store; a write ends freshness (R272). -/
def Core.put (k : Core) (off : Nat) (bs : List Byte) : Core :=
  { k with cs := memPut k.cs off bs, csPoison := heal off bs.length k.csPoison, fresh := k.fresh &&& ~~~unitsOf off bs.length }

/-- Bytes written to a core store. -/
def putCore (c off : Nat) (bs : List Byte) (s : State) : State :=
  let s := onCore c (withCore fun k => k.put off bs) s
  { s with monitors := touchMonitors (coreBase + c * 0x200000 + off) bs.length s.monitors }

/-- A write makes an invalid block position valid: its 256 bytes become zero first (R324). -/
def validate (s : State) : Site → State
  | .block x q _ =>
    match s.blockSlots.find? (fun b => b.num == x) with
    | some b =>
      if b.bitmap.getLsbD q then s
      else
        let s := putMem (blockBase + x * 0x4000 + q * 256) (List.replicate 256 0) s
        { s with blockSlots := updateFirst (fun b => b.num == x) (fun b => { b with bitmap := b.bitmap ||| (1#64 <<< q) }) s.blockSlots }
    | none => s
  | _ => s

/-- A run of consecutive bytes in one memory. -/
structure Run where
  core : Option Nat
  addr : Nat
  bytes : List Byte
  deriving DecidableEq, Repr

/-- A byte put in front of the runs behind it. -/
def consRun (core : Option Nat) (addr : Nat) (b : Byte) : List Run → List Run
  | [] => [⟨core, addr, [b]⟩]
  | r :: rest =>
    if r.core == core && r.addr == addr + 1 then ⟨core, addr, b :: r.bytes⟩ :: rest else ⟨core, addr, [b]⟩ :: r :: rest

/-- The runs of the bytes of a write. -/
def runsOf : List Site → List Byte → List Run
  | .mem pa :: sites, b :: bs => consRun none pa b (runsOf sites bs)
  | .block _ _ pa :: sites, b :: bs => consRun none pa b (runsOf sites bs)
  | .core c off :: sites, b :: bs => consRun (some c) off b (runsOf sites bs)
  | _ :: sites, _ :: bs => runsOf sites bs
  | _, _ => []

/-- One run is written; the answer tells whether a protected store is kept. -/
def putRun (by_ : Option Writer) (va : Word) (s : State) (r : Run) : State × Bool :=
  match r.core with
  | some c => (putCore c r.addr r.bytes s, true)
  | none => putPhys r.addr r.bytes by_ va s

/-- A write whose bytes can all be reached is performed. -/
def putSites (sites : List Site) (bs : List Byte) (by_ : Option Writer) (va : Word) (s : State) : State × Bool :=
  let s := sites.foldl validate s
  (runsOf sites bs).foldl
    (fun r run =>
      let p := putRun by_ va r.1 run
      (p.1, r.2 && p.2))
    (s, true)

/-- The fault of a byte that cannot be written. -/
def Site.fault : Site → Option TrapCode
  | .bad c => some c
  | .peer _ _ => some .prot
  | .table _ => some .prot
  | _ => none

/-- Whether a write of the byte must wait. -/
def Site.waits : Site → Bool
  | .page _ _ => true
  | .claim _ _ _ => true
  | .busy => true
  | .stripe _ _ => true
  | _ => false

/-- One address in each 4-KiB block that a range touches. Columns and stripes are made of such blocks (R305, R440). -/
def blocksTouched (pa n : Nat) : List Nat := (List.range ((pa % 4096 + n + 4095) / 4096)).map fun i => max pa ((pa / 4096 + i) * 4096)

/-- What an access of the part itself to a range of memory waits for: columns that retrain (R327), stripes that are frozen or not rebuilt yet
(R454). -/
def heldUp (s : State) (write : Bool) (pa n : Nat) : List Site :=
  if s.retrain.isEmpty && !s.sv.en then [] else ((blocksTouched pa n).map (memSite s write)).filter (·.waits)

/-- Whether some byte of a range lies in a data region. -/
def svTouches (s : State) (pa n : Nat) : Bool := s.sv.en && (blocksTouched pa n).any fun a => (svDataBlock s.sv a).isSome

/-- Whether a site that is waited for has been asked for already, or asks for nothing. -/
def siteAsked (s : State) : Site → Bool
  | .page b i => (pageOf s b i).any fun p => p.wanted.isSome || decide (Config.pageRequests ≤ pendingPages s)
  | .stripe r j => s.sv.wantedFirst.contains (r, j)
  | .busy => true
  | _ => false

/-- The first site with a fault. -/
def firstFaulty : Nat → List Site → Option (Nat × TrapCode)
  | _, [] => none
  | i, x :: rest =>
    match x.fault with
    | some c => some (i, c)
    | none => firstFaulty (i + 1) rest

/-- Whether a write of the bytes can be performed now: every byte is checked before any is written (R199, R310). -/
def readySites (sites : List Site) (s : State) : Acc Unit :=
  match firstFaulty 0 sites with
  | some (i, c) => .stop i c
  | none => if sites.any (·.waits) then .stall (serveSites sites s) else .ok () s

/-- A checked write. The answer tells whether a protected store is kept (R445). -/
def writeSites (sites : List Site) (bs : List Byte) (by_ : Option Writer) (va : Word) (s : State) : Acc Bool :=
  match readySites sites s with
  | .stop i c => .stop i c
  | .stall s => .stall s
  | .ok _ s =>
    let r := putSites sites bs by_ va s
    .ok r.2 r.1

/-- Whether a byte lies in a host window. -/
def Site.inHost : Site → Bool
  | .mem pa => hostBase ≤ pa && pa < hostEnd
  | _ => false

/-- An atomic as one action (R100): the old value is read, and the new one, if there is one, is written. -/
def rmwSites (sites : List Site) (f : Nat → Option Nat) (by_ : Option Writer) (va : Word) (s : State) : Acc (Nat × Bool) :=
  match readySites sites s with
  | .stop i c => .stop i c
  | .stall s => .stall s
  | .ok _ s =>
    let s := sites.foldl validate s
    match readSites .rmw sites s with
    | .stop i c => .stop i c
    | .stall s => .stall s
    | .ok seen s =>
      let old := leNat seen.bytes
      match f old with
      | none => .ok (old, true) s
      | some new =>
        let r := putSites sites (leBytes sites.length new) by_ va s
        .ok (old, r.2) r.1

end Sys2Proof.Machine
end

