-- ==== Sys2Proof/Machine/Report.lean ====
section
/-! DEFINITION. What the part tells the host on its own: interrupts (R382), the event ring (R388) and errors in memory (R328, R333). -/

namespace Sys2Proof.Machine

open Sys2Proof

/-- An MSI-X vector is sent to the host (R382). -/
def sendIrq (fn : BitVec 6) (vec : BitVec 11) (s : State) : State := { s with irqs := s.irqs ++ [(fn, vec)] }

/-! ## The event ring (R388) -/

/-- Entries of the ring. -/
def EvRing.size (r : EvRing) : Nat := 2 ^ (r.sz.toNat + 4)

/-- Whether the ring has no room. -/
def EvRing.full (r : EvRing) : Bool := (r.tail - r.head).toNat == r.size

/-- Bytes of the host windows (R304). -/
abbrev hostSize : Nat := hostEnd - hostBase

/-- Where host memory of `n` bytes from a bus address on is kept: the first 2 TiB behind the host windows (R383), what lies above at places
that no physical address has. -/
def hostRanges (bus n : Nat) : List (Nat × Nat) :=
  let low := min n (hostSize - bus)
  (if 0 < low then [(hostBase + bus, low)] else []) ++ if low < n then [(2 ^ 64 + bus + low, n - low)] else []

/-- Bytes written to host memory at a bus address. -/
def putHost (bus : Nat) (bs : List Byte) (s : State) : State :=
  ((hostRanges bus bs.length).foldl (fun x r => (putMem r.1 (x.2.take r.2) x.1, x.2.drop r.2)) (s, bs)).1

/-- One entry is written, TAIL rises, and vector 0 is sent. -/
def writeEvent (kind : Nat) (fn : BitVec 6) (arg0 arg1 time : Nat) (s : State) : State :=
  let r := s.evring
  let entry := leBytes 1 kind ++ leBytes 1 fn.toNat ++ leBytes 6 0 ++ leBytes 8 arg0 ++ leBytes 8 arg1 ++ leBytes 8 time
  let s := putHost (r.base.toNat + r.tail.toNat % r.size * 32) entry s
  sendIrq 0 0 { s with evring := { r with tail := r.tail + 1 } }

/-- An SVLOSS or UNCORR event, dropped with OVF where the ring is full. -/
def reportEvent (kind arg0 arg1 : Nat) (s : State) : State :=
  if !s.evring.en then s
  else if s.evring.full then { s with evring := { s.evring with ovf := true } }
  else writeEvent kind 0 arg0 arg1 s.time s

/-! ## Errors in memory (R328, R329) -/

/-- An uncorrectable error at a physical address is counted, kept and reported. -/
def metUncorr (pa : Nat) (s : State) : State :=
  reportEvent 3 pa 0 { s with eccUnc := s.eccUnc + 1, uelast := BitVec.ofNat 48 pa }

/-- The physical address of a virtual one, whether or not it can be read now. -/
def physOf (s : State) (l : Nat) (own : Bool) (va : Word) : Option Nat :=
  siteKey (virtSite s.whole l own false false va)

/-- An uncorrectable error that an access of a launch met at a virtual address; one at another part is that part's. -/
def metUncorrAt (l : Nat) (own : Bool) (va : Word) (s : State) : State :=
  match physOf s l own va with
  | some pa => if s.sv.deadLines.contains (pa / 64) then s else metUncorr pa s
  | none => s

/-- The fault of an access of a launch at a virtual address, counted where it is an uncorrectable error. -/
def metFault (code : TrapCode) (l : Nat) (va : Word) (s : State) : State := if code == .uncorr then metUncorrAt l false va s else s

/-- An uncorrectable error at a byte of the selected core's store. -/
def metUncorrCore (off : Nat) (s : State) : State := metUncorr (coreBase + s.cur * 0x200000 + off) s

/-- The fault of a unit at a physical address, counted where it is an uncorrectable error (R328). -/
def metUnit (code : TrapCode) (pa : Nat) (s : State) : State := if code == .uncorr then metUncorr pa s else s

/-! ## Reads by the engines of the part -/

/-- Whether the line of a byte cannot be read: it is poisoned (R328, R454), or its column has failed (R327). -/
def lostByte (s : State) (pa : Nat) : Bool := s.poison.contains (pa / 64) || s.sv.deadLines.contains (pa / 64) || columnFailed s pa

/-- What an engine of the part reads of physical memory: a line that cannot be read gives free bytes (assumption 45). -/
def engineByte (s : State) (pa : Nat) : Byte := if lostByte s pa then Config.poisonByte s.freshVal pa else memGet s.mem pa

/-- Bytes that an engine of the part reads. -/
def engineBytes (s : State) (pa n : Nat) : List Byte := (List.range n).map fun i => engineByte s (pa + i)

/-- The value of bytes that an engine of the part reads. -/
def engineNat (s : State) (pa n : Nat) : Nat := leNat (engineBytes s pa n)

/-- The lines of a range. -/
def rangeLines (pa n : Nat) : List Nat := (List.range ((pa % 64 + n + 63) / 64)).map (pa / 64 + ·)

/-- The lines of a range that cannot be read. -/
def lostLines (s : State) (pa n : Nat) : List Nat :=
  if s.poison.isEmpty && s.sv.deadLines.isEmpty && s.vcol.toList.all (fun x => x.extractLsb' 0 8 == 0) then []
  else (rangeLines pa n).filter fun l => lostByte s (64 * l)

/-- The uncorrectable lines of what an engine reads are counted and reported; those of unrecoverable stripes are none (R454). -/
def metLines (ls : List Nat) (s : State) : State :=
  if ls.isEmpty then s
  else
    (ls.filter fun l => !s.sv.deadLines.contains l).foldl (fun s l => metUncorr (64 * l) s) { s with freshVal := s.freshVal + 1 }

/-- The errors that an engine's read of a range meets. -/
def metEngine (pa n : Nat) (s : State) : State := metLines (lostLines s pa n) s

/-- What reads of several ranges wait for. -/
def heldReads (s : State) (rs : List (Nat × Nat)) : List Site := rs.flatMap fun r => heldUp s false r.1 r.2

/-- The errors that reads of several ranges meet. -/
def metReads (rs : List (Nat × Nat)) (s : State) : State := rs.foldl (fun s r => metEngine r.1 r.2 s) s

end Sys2Proof.Machine
end

