-- ==== Sys2Proof/Machine/Ops.lean ====
section
/-! DEFINITION. Registers of a strand (R21, R37, R128), what is outstanding against them (R87, R424), traps and the return from a
handler (R258 to R266), how an A word ends, and the instruction stores (R15, R119). -/

namespace Sys2Proof.Machine

open Sys2Proof

/-- What a step of the machine answers. -/
abbrev Out := Host.Outcome State Fault Refusal

/-! ## Registers -/

/-- An s-register; s0 reads zero (R21). -/
def Core.getS (k : Core) (r : BitVec 6) : Word := if r = 0 then 0 else bank k.s r

/-- A write to an s-register; one to s0 is discarded (R21). The reply of an older access does not land there any more (R87). -/
def Core.setS (k : Core) (r : BitVec 6) (x : Word) : Core := if r = 0 then k else { k.overwrite [r] [] with s := bankSet k.s r x }

/-- A predicate; p0 reads true (R21). -/
def Core.getP (k : Core) (p : BitVec 4) : Bool := if p = 0 then true else bank k.p p

/-- A write to a predicate; one to p0 is discarded (R21). An older access that writes p14 later leaves it alone (R87). -/
def Core.setP (k : Core) (p : BitVec 4) (x : Bool) : Core := if p = 0 then k else { k.overwrite [] [p] with p := bankSet k.p p x }

/-- A mask register; m0 reads all ones (R37). -/
def Core.getM (k : Core) (m : BitVec 4) : Mask := if m = 0 then BitVec.allOnes 1024 else bank k.m m

/-- A write to a mask register; one to m0 is discarded (R37). -/
def Core.setM (k : Core) (m : BitVec 4) (x : Mask) : Core := if m = 0 then k else { k with m := bankSet k.m m x }

/-- Register v`v` (R128). -/
def Core.getV (k : Core) (v : Nat) : VReg := BitVec.ofNat 8192 (memNat k.cs (v * 0x400) 0x400)

/-- Registers named through the state. -/
def getS (s : State) (r : BitVec 6) : Word := s.core.getS r
def setS (r : BitVec 6) (x : Word) (s : State) : State := { s with core := s.core.setS r x }
def getP (s : State) (p : BitVec 4) : Bool := s.core.getP p
def setP (p : BitVec 4) (x : Bool) (s : State) : State := { s with core := s.core.setP p x }

/-! ## Outstanding peer accesses -/

/-- The trap that a reply to a read or an atomic stands for (R423, R424). -/
def replyTrap : Reply → Option TrapCode
  | .prot => some .prot
  | .uncorr => some .uncorr
  | .selvedge => some .selvedgeLoss
  | .lost => some .shuttleLoss
  | _ => none

/-- The fault of an answered unit of a read or an atomic; a strict load of an invalid position raises NONRES (R324, R423). -/
def Access.fault (a : Access) : Option TrapCode :=
  match a.got with
  | some (.data _ true) => if a.strict then some .nonres else none
  | some r => replyTrap r
  | none => none

/-- The units of an access that reads into `dest`. -/
def Core.outFor (k : Core) (dest : AccDest → Bool) : List Access := k.out.filter fun a => dest a.dest

/-- Whether an access reads into an s-register other than s0. -/
def intoReg (r : BitVec 6) : AccDest → Bool
  | .sreg d _ => d == r && r != 0
  | .amo d => d == r && r != 0
  | _ => false

/-- Whether an access is an A-stream load, atomic or LDQ (R424). -/
def isARead : AccDest → Bool
  | .sreg _ _ => true
  | .amo _ => true
  | .ldq _ _ => true
  | _ => false

/-- The first fault among units that have all been answered. -/
def replyFault (l : List Access) : Option (TrapCode × Word) :=
  if l.all (fun a => a.got.isSome) then l.findSome? fun a => a.fault.map fun c => (c, a.va) else none

/-- Whether the registers of a word let it issue. -/
inductive Gate where
  | go
  | wait
  | fault (code : TrapCode) (va : Word)
  deriving DecidableEq, Repr

/-- The gate for a register that a word reads: a fault of its access, a wait for it, or none (R87, R424). -/
def readGate (k : Core) (r : BitVec 6) : Gate :=
  match k.outFor (intoReg r) with
  | [] => .go
  | l =>
    match replyFault l with
    | some (c, va) => .fault c va
    | none => .wait

/-- The gate of a word that reads the s-registers `rd` and the predicates `ps`. One that only writes a register waits for nothing (R87). -/
def wordGate (k : Core) (rd : List (BitVec 6)) (ps : List (BitVec 4)) : Gate :=
  match rd.findSome? (fun r => match readGate k r with | .go => none | g => some g) with
  | some g => g
  | none => if ps.contains 14 && k.out.any (fun a => a.p14 && a.got.isNone) then .wait else .go

/-- The recorded fault of an A-stream read that no word has raised (R424). -/
def Core.readFault (k : Core) : Option (TrapCode × Word) :=
  k.out.findSome? fun a => if isARead a.dest then a.fault.map fun c => (c, a.va) else none

/-- The entry of an LDQ that met a fault is given up: the stream register keeps what it held. -/
def Core.dropEntry (k : Core) : AccDest → Core
  | .ldq q id => { k with q := bankSet k.q q ((bank k.q q).filter fun e => e.ready || e.id != id) }
  | _ => k

/-- The access whose fault is delivered is gone. -/
def Core.dropFaulted (k : Core) (va : Word) : Core :=
  match k.out.find? (fun a => a.va == va && a.fault.isSome) with
  | some a => { k with out := k.out.filter fun b => b.group != a.group }.dropEntry a.dest
  | none => k

/-- Whether an A-stream read has no reply yet. -/
def Core.readsOpen (k : Core) : Bool := k.out.any fun a => isARead a.dest && a.got.isNone

/-! ## Traps -/

/-- STREAM (R260). -/
def Stream.code : Stream → Nat
  | .a => 0
  | .v => 1
  | .m => 2
  | .copy => 3

/-- c.ecause of a trap (R260). -/
def causeOf (code : TrapCode) (stream : Stream) : Word := w64 (stream.code * 4096 + code.code.toNat)

/-- R265: entry into the handler at c.evec. -/
def Core.enter (k : Core) (code : TrapCode) (stream : Stream) (epc eval resume : Word) (now : Nat) : Core :=
  { k with
    ecause := causeOf code stream, eval := eval, epc := epc, b := bankSet k.b 7 resume, inHandler := true, rearmed := false,
    handlerSince := if k.inHandler then k.handlerSince else now, pc := k.evec, evec := 0, grd := none, aseq := .running, wait := none,
    replyA := [], out := k.out.filter fun a => a.dest != AccDest.blockA }.note 0x1A 1

/-- A trap reaches the strand: its handler runs, or the strand is lost (R265, R266); an uncorrectable error is counted and reported
(R328). -/
def takeTrap (code : TrapCode) (stream : Stream) (epc eval resume : Word) (s : State) : State :=
  let s := if code == .uncorr then metUncorrAt s.core.launch true eval s else s
  if s.core.evec = 0 then loseStrand code s
  else withCore (fun k => k.enter code stream epc eval resume s.time) (countTrap s)

/-- The V sequencer runs again after a handler's return (R266). -/
def VSeq.resumed : VSeq → Word → VSeq × Word
  | .trapped a, _ => (.running, a)
  | q, pc => (q, pc)

/-- The M sequencer runs again after a handler's return (R266). -/
def MSeq.resumed : MSeq → MSeq
  | .brk => .running
  | q => q

/-- The 2 ms of R72, in counts of c.time. -/
abbrev stopLimit : Nat := 2000000

/-- The end of a 2-ms limit after a handler that was entered at `since`: the time that it ran while the limit did is left out (R267). -/
def pausedFor (since now due : Nat) : Nat := due + (now - max since (due - stopLimit))

/-- R266 step 2: what the first taken branch after the re-arming does. A V trap, or a BRK, that is not delivered yet keeps its sequencer
stopped until its own handler returns (R264). -/
def Core.leaveHandler (k : Core) (now : Nat) : Core :=
  let v := if k.vtrap.isSome then (k.vseq, k.vpc) else k.vseq.resumed k.vpc
  { k with
    inHandler := false, rearmed := false, vseq := v.1, vpc := v.2, mseq := if k.rq.any (·.fault) then k.mseq else k.mseq.resumed,
    stop := k.stop.map fun r => { r with due := pausedFor k.handlerSince now r.due },
    exitDue := k.exitDue.map (pausedFor k.handlerSince now) }

/-! ## How an A word ends -/

/-- The end of an A word: it completes and the next word follows, or the target; it issues again later; it raises a trap, in a state that
differs only in what the trap consumes; or the strand stands where it is (SEAM) or is gone (EXIT). -/
inductive AOut where
  | done (s : State)
  | jump (target : Word) (s : State)
  | stall (s : State)
  | trap (code : TrapCode) (stream : Stream) (eval : Word) (s : State)
  | stay (s : State)

/-- The address of a word for c.epc: its own, or its GRD word's (R29, R261). -/
def Core.wordAddr (k : Core) : Word := k.grd.getD k.pc

/-- The word that stalls issues again, its GRD word with it (R262). -/
def Core.back (k : Core) : Core := { k with pc := k.wordAddr, grd := none }

/-- The address after a word that is complete. -/
def Core.advance (k : Core) : Core := { k with pc := k.pc + 4, grd := none }.note 3 1

/-- The target of a taken branch (R94, R266). -/
def Core.branch (k : Core) (target : Word) (now : Nat) : Core :=
  let k := if k.rearmed then k.leaveHandler now else k
  { k with pc := target, grd := none }.note 3 1

/-- The state after an A word that began in `s0`. A trap waits until the reads issued before it have written their registers (R261); the word
that raised it has issued (R141). -/
def finishA (s0 : State) : AOut → State
  | .done s => { s with core := s.core.advance }
  | .jump t s => { s with core := s.core.branch t s.time }
  | .stall s => { s with core := s.core.back }
  | .trap c x v s =>
    let a := s0.core.wordAddr
    if s0.core.readsOpen then { s0 with core := s0.core.back }
    else takeTrap c x a v (if c == .soft then s0.core.pc + 4 else a) (withCore (Core.note 3 1) s)
  | .stay s => s

/-- An A word that reads the s-registers `rd` and the predicates `ps`: it waits for them, raises the fault of an access into one it reads,
or has its effect (R87, R424). -/
def aWord (rd : List (BitVec 6)) (ps : List (BitVec 4)) (s : State) (body : State → AOut) : Out :=
  .next
    (match wordGate s.core rd ps with
     | .go => finishA s (body s)
     | .wait => finishA s (.stall s)
     | .fault c va => finishA s (.trap c .a va { s with core := s.core.dropFaulted va }))

/-- A load that met bytes that are not resident is counted (R141). -/
def noteMiss (miss : Bool) (s : State) : State := if miss then { s with core := s.core.note 0x14 1 } else s

/-! ## Debug registers (R400) -/

/-- A breakpoint in force for an instruction address. -/
def breakHit (s : State) (pc : Word) : Bool := (s.core.dbg.take 8).any fun d => d.enable && d.addr == pc

/-- A watchpoint in force for an access address. -/
def watchHit (s : State) (va : Word) : Bool := (s.core.dbg.drop 8).any fun d => d.enable && d.addr == va

/-! ## Instruction stores -/

/-- The offset of an address within a section (R303). -/
def Section.offset (sec : Section) (pc : Word) : Option Nat :=
  let o := (pc - imgBase).toNat
  if sec.off ≤ o && o < sec.off + sec.size then some (o - sec.off) else none

/-- The value of `n` bytes of a section, zero past its end. -/
def Section.read (sec : Section) (o n : Nat) : Nat := memNat sec.bytes o n

/-- The A word at an address; none where it is misaligned or outside the section (R15, R93). -/
def fetchA (k : Core) : Option (BitVec 32) :=
  if k.pc.extractLsb' 0 2 != 0 then none else (k.secA.offset k.pc).map fun o => BitVec.ofNat 32 (k.secA.read o 4)

/-- A parcel of the V section, zero past its end. -/
def vParcelAt (k : Core) (o : Nat) : Parcel := BitVec.ofNat 32 (k.secV.read o 4)

/-- The V instruction at vpc; ILLEGAL where vpc is misaligned or the instruction does not lie in the section (R15). -/
def fetchV (k : Core) : Except DecodeFault Sys2Proof.Decoded :=
  if k.vpc.extractLsb' 0 2 != 0 then .error .illegal
  else
    match k.secV.offset k.vpc with
    | none => .error .illegal
    | some o =>
      let p := vParcelAt k o
      match vLength p with
      | none => .error .illegalLen
      | some n => if k.secV.size < o + 4 * n then .error .illegal else readV p (vParcelAt k (o + 4)) (vParcelAt k (o + 8))

/-- The word at an offset of the M section. -/
def mWordAt (k : Core) (o : Nat) : BitVec 192 := BitVec.ofNat 192 (k.secM.read o 24)

/-- The M word at mpc; ILLEGAL where mpc is misaligned or the word does not lie in the section (R15). -/
def fetchM (k : Core) : Except DecodeFault Sys2Proof.Decoded :=
  if k.mpc.extractLsb' 0 3 != 0 then .error .illegal
  else
    match k.secM.offset k.mpc with
    | none => .error .illegal
    | some o => if k.secM.size < o + 24 then .error .illegal else readM (mWordAt k o)

/-- Whether the A word before the one at `pc` is a SEAM word, and its id (R50, R73). -/
def seamBefore (k : Core) : Option (BitVec 22) :=
  match k.secA.offset (k.wordAddr - 4) with
  | none => none
  | some o =>
    let w := BitVec.ofNat 32 (k.secA.read o 4)
    match decodeA w with
    | .ok (.seam id) => some id
    | _ => none

/-! ## Images (R60) -/

/-- A resident image. -/
def imageAt (s : State) (code : Nat) : Option Image := s.images.find? fun i => i.code == code

/-- A little-endian field of an image. -/
def imgField (s : State) (code off n : Nat) : Nat := engineNat s (code + off) n

/-- A seam-table entry (R60): the offsets of the three markers and the masks. -/
structure SeamEntry where
  a : Nat
  v : Option Nat
  m : Option Nat
  vlive : Nat
  slive : Nat
  ylive : Nat
  deriving DecidableEq, Repr

/-- A marker offset; all ones name none. -/
def markerOf (x : Nat) : Option Nat := if x = 0xFFFFFFFF then none else some x

/-- The memory of an image's header and seam table, which stops and bindings read (R120). -/
def seamReads (s : State) (code : Nat) : List (Nat × Nat) := [(code, 128), (code + imgField s code 48 4, 24 * imgField s code 52 4)]

/-- The seam-table entry of an id (R60, R120). -/
def seamEntry (s : State) (code : Nat) (id : BitVec 22) : Option SeamEntry :=
  let tab := imgField s code 48 4
  let n := imgField s code 52 4
  let at_ (i : Nat) : Nat := tab + 24 * i
  ((List.range n).find? fun i => imgField s code (at_ i + 12) 4 % 2 ^ 22 == id.toNat).map fun i =>
    { a := imgField s code (at_ i) 4, v := markerOf (imgField s code (at_ i + 4) 4), m := markerOf (imgField s code (at_ i + 8) 4),
      vlive := imgField s code (at_ i + 16) 4 % 2 ^ 24, slive := imgField s code (at_ i + 20) 1, ylive := imgField s code (at_ i + 21) 1 }

/-- The units that the masks of a seam name live (R72, R128). -/
def SeamEntry.live (e : SeamEntry) : BitVec 40 := BitVec.ofNat 40 (e.vlive + e.slive * 2 ^ 24 + e.ylive * 2 ^ 32)

/-! ## Semaphores (R103, R126) -/

/-- A signal; none when it would pass 65,535. -/
def semAdd (k : Core) (i : BitVec 8) (n : Nat) : Option Core :=
  let c := (bank k.sem i).toNat + n
  if c ≤ 65535 then some ({ k with sem := bankSet k.sem i (BitVec.ofNat 16 c) }.note 0x1B 1) else none

/-! ## The bound strand -/

/-- The launch of the bound strand and its function and queue. -/
def ownLaunch (s : State) : Option Launch := launchOf s s.core.launch

/-- The function of the bound strand's launch. -/
def ownFn (s : State) : BitVec 6 := launchFn s s.core.launch

/-- Whether an access is a STRAND-path one (R101). -/
def isStrandDest : AccDest → Bool
  | .copyRead => false
  | .copyWrite => false
  | _ => true

/-- The peer-window slot of an address (R302). -/
def slotOfVa (va : Word) : BitVec 6 := va.extractLsb' 48 6

/-- Whether an access counts one request for each 64-byte line it touches (R138). -/
def countsLines : AccDest → Bool
  | .ldq _ _ => true
  | .blockV => true
  | .copyRead => true
  | _ => false

/-- 64-byte lines of a range. -/
def lineCount (va : Word) (len : Nat) : Nat := (va.toNat % 64 + len + 63) / 64

/-- Requests that outstanding accesses count for: a line each of LDQ, of a V access and of a copy's read, one for another A-stream access,
none for a copy's write (R138). -/
def requestsOf (l : List Access) : Nat :=
  let l := l.filter fun a => a.got.isNone
  let whole := ((l.filter fun a => !countsLines a.dest && a.dest != .copyWrite).map (·.group)).eraseDups
  (l.filter fun a => countsLines a.dest).foldl (fun n a => n + lineCount a.va a.len) whole.length

/-- The requests of a core. -/
def Core.requests (k : Core) : Nat := requestsOf k.out

end Sys2Proof.Machine
end

