-- ==== Sys2Proof/Machine/AInt.lean ====
section
/-! DEFINITION. The integer, immediate, compare and select words of the A-stream (R22, R89 to R92, R116). -/

namespace Sys2Proof.Machine

open Sys2Proof

/-! ## Arithmetic on 64-bit patterns (R89, R90) -/

/-- Shift left; 0 for 64 and more. -/
def shl64 (a : Word) (n : Nat) : Word := a <<< n

/-- Logical shift right; 0 for 64 and more. -/
def shr64 (a : Word) (n : Nat) : Word := a >>> n

/-- Arithmetic shift right; copies of bit 63 for 64 and more. -/
def sra64 (a : Word) (n : Nat) : Word := a.sshiftRight n

/-- The high 64 bits of the signed product. -/
def mulHigh (a b : Word) : Word := BitVec.ofInt 64 (a.toInt * b.toInt / 2 ^ 64)

/-- Bits of a pattern in the order of their numbers. -/
def bitsList (w x : Nat) : List Bool := (List.range w).map fun i => x.testBit i

/-- Leading zeros of a pattern of `w` bits. -/
def leadingZeros (w x : Nat) : Nat := ((bitsList w x).reverse.takeWhile fun b => !b).length

/-- One bits of a pattern of `w` bits. -/
def popCount (w x : Nat) : Nat := ((bitsList w x).filter id).length

/-- Quotients and remainders with the outcomes of R90 for division by zero; −2^63 by −1 wraps to −2^63. -/
def divS (a b : Word) : Word := if b = 0 then -1 else BitVec.ofInt 64 (a.toInt.tdiv b.toInt)
def divU (a b : Word) : Word := if b = 0 then -1 else BitVec.ofNat 64 (a.toNat / b.toNat)
def remS (a b : Word) : Word := if b = 0 then a else BitVec.ofInt 64 (a.toInt.tmod b.toInt)
def remU (a b : Word) : Word := if b = 0 then a else BitVec.ofNat 64 (a.toNat % b.toNat)

/-- sext(x, n) of a field as a 64-bit pattern. -/
def sx {n : Nat} (x : BitVec n) : Word := x.signExtend 64

/-! ## Shapes of words -/

/-- sd := f(sa, sb). -/
def aluWord (f : Word → Word → Word) (sd sa sb : BitVec 6) (s : State) : Out :=
  aWord [sa, sb] [] s fun s => .done (setS sd (f (getS s sa) (getS s sb)) s)

/-- sd := f(sa). -/
def unaryWord (f : Word → Word) (sd sa : BitVec 6) (s : State) : Out :=
  aWord [sa] [] s fun s => .done (setS sd (f (getS s sa)) s)

/-- A division: DIV_ZERO with c.aexc.DZE, else DZF is set on a zero divisor (R90, R116). -/
def divWord (f : Word → Word → Word) (sd sa sb : BitVec 6) (s : State) : Out :=
  aWord [sa, sb] [] s fun s =>
    let b := getS s sb
    if b = 0 then
      if s.core.aexc.getLsbD 0 then .trap .divZero .a 0 s
      else .done (setS sd (f (getS s sa) b) { s with core := { s.core with aexc := s.core.aexc ||| 0x100 } })
    else .done (setS sd (f (getS s sa) b) s)

/-- pd := c(sa, sb). -/
def cmpWord (c : Word → Word → Bool) (pd : BitVec 4) (sa sb : BitVec 6) (s : State) : Out :=
  aWord [sa, sb] [] s fun s => .done (setP pd (c (getS s sa) (getS s sb)) s)

/-- pd := c(sa, sext(imm)). -/
def cmpiWord (c : Word → Word → Bool) (pd : BitVec 4) (sa : BitVec 6) (imm : BitVec 14) (s : State) : Out :=
  aWord [sa] [] s fun s => .done (setP pd (c (getS s sa) (sx imm)) s)

/-- pd := f(pa, pb xor inv). -/
def predWord (f : Bool → Bool → Bool) (pd pa pb : BitVec 4) (inv : Bool) (s : State) : Out :=
  aWord [] [pa, pb] s fun s => .done (setP pd (f (getP s pa) (getP s pb != inv)) s)

/-- sd := x. -/
def immWord (rd : List (BitVec 6)) (sd : BitVec 6) (f : State → Word) (s : State) : Out :=
  aWord rd [] s fun s => .done (setS sd (f s) s)

/-! ## IOP (R89, R90) -/

def execAdd (sd sa sb : BitVec 6) (s : State) : Out := aluWord (· + ·) sd sa sb s
def execSub (sd sa sb : BitVec 6) (s : State) : Out := aluWord (· - ·) sd sa sb s
def execMul (sd sa sb : BitVec 6) (s : State) : Out := aluWord (· * ·) sd sa sb s
def execMulh (sd sa sb : BitVec 6) (s : State) : Out := aluWord mulHigh sd sa sb s
def execDiv (sd sa sb : BitVec 6) (s : State) : Out := divWord divS sd sa sb s
def execDivu (sd sa sb : BitVec 6) (s : State) : Out := divWord divU sd sa sb s
def execRem (sd sa sb : BitVec 6) (s : State) : Out := divWord remS sd sa sb s
def execRemu (sd sa sb : BitVec 6) (s : State) : Out := divWord remU sd sa sb s
def execAnd (sd sa sb : BitVec 6) (s : State) : Out := aluWord (· &&& ·) sd sa sb s
def execOr (sd sa sb : BitVec 6) (s : State) : Out := aluWord (· ||| ·) sd sa sb s
def execXor (sd sa sb : BitVec 6) (s : State) : Out := aluWord (· ^^^ ·) sd sa sb s
def execShl (sd sa sb : BitVec 6) (s : State) : Out := aluWord (fun a b => shl64 a b.toNat) sd sa sb s
def execShr (sd sa sb : BitVec 6) (s : State) : Out := aluWord (fun a b => shr64 a b.toNat) sd sa sb s
def execSra (sd sa sb : BitVec 6) (s : State) : Out := aluWord (fun a b => sra64 a b.toNat) sd sa sb s
def execMin (sd sa sb : BitVec 6) (s : State) : Out := aluWord (fun a b => if b.slt a then b else a) sd sa sb s
def execMax (sd sa sb : BitVec 6) (s : State) : Out := aluWord (fun a b => if a.slt b then b else a) sd sa sb s
def execClz (sd sa : BitVec 6) (s : State) : Out := unaryWord (fun a => w64 (leadingZeros 64 a.toNat)) sd sa s
def execPopc (sd sa : BitVec 6) (s : State) : Out := unaryWord (fun a => w64 (popCount 64 a.toNat)) sd sa s
def execSextI8 (sd sa : BitVec 6) (s : State) : Out := unaryWord (fun a => sx (a.extractLsb' 0 8)) sd sa s
def execSextI16 (sd sa : BitVec 6) (s : State) : Out := unaryWord (fun a => sx (a.extractLsb' 0 16)) sd sa s
def execSextI32 (sd sa : BitVec 6) (s : State) : Out := unaryWord (fun a => sx (a.extractLsb' 0 32)) sd sa s
def execZextN8 (sd sa : BitVec 6) (s : State) : Out := unaryWord (fun a => a &&& 0xFF) sd sa s
def execZextN16 (sd sa : BitVec 6) (s : State) : Out := unaryWord (fun a => a &&& 0xFFFF) sd sa s
def execZextN32 (sd sa : BitVec 6) (s : State) : Out := unaryWord (fun a => a &&& 0xFFFFFFFF) sd sa s

/-! ## CMPG (R92) -/

def execCmpEq (pd : BitVec 4) (sa sb : BitVec 6) (s : State) : Out := cmpWord (fun a b => a == b) pd sa sb s
def execCmpNe (pd : BitVec 4) (sa sb : BitVec 6) (s : State) : Out := cmpWord (fun a b => a != b) pd sa sb s
def execCmpLt (pd : BitVec 4) (sa sb : BitVec 6) (s : State) : Out := cmpWord (fun a b => a.slt b) pd sa sb s
def execCmpLe (pd : BitVec 4) (sa sb : BitVec 6) (s : State) : Out := cmpWord (fun a b => a.sle b) pd sa sb s
def execCmpLtu (pd : BitVec 4) (sa sb : BitVec 6) (s : State) : Out := cmpWord (fun a b => a.ult b) pd sa sb s
def execCmpLeu (pd : BitVec 4) (sa sb : BitVec 6) (s : State) : Out := cmpWord (fun a b => a.ule b) pd sa sb s
def execCmpAll (pd : BitVec 4) (sa sb : BitVec 6) (s : State) : Out := cmpWord (fun a b => a &&& b == b) pd sa sb s
def execCmpAny (pd : BitVec 4) (sa sb : BitVec 6) (s : State) : Out := cmpWord (fun a b => a &&& b != 0) pd sa sb s
def execPand (pd pa pb : BitVec 4) (inv : Bool) (s : State) : Out := predWord (· && ·) pd pa pb inv s
def execPor (pd pa pb : BitVec 4) (inv : Bool) (s : State) : Out := predWord (· || ·) pd pa pb inv s

/-- SEL reads both sources (R92). -/
def execSel (sd : BitVec 6) (pk : BitVec 4) (sa sb : BitVec 6) (s : State) : Out :=
  aWord [sa, sb] [pk] s fun s => .done (setS sd (if getP s pk then getS s sa else getS s sb) s)

/-! ## Immediates (R22, R91, R92) -/

def execAddi (sd sa : BitVec 6) (imm : BitVec 14) (s : State) : Out := unaryWord (· + sx imm) sd sa s
def execAndi (sd sa : BitVec 6) (imm : BitVec 14) (s : State) : Out := unaryWord (· &&& sx imm) sd sa s
def execOri (sd sa : BitVec 6) (imm : BitVec 14) (s : State) : Out := unaryWord (· ||| sx imm) sd sa s
def execXori (sd sa : BitVec 6) (imm : BitVec 14) (s : State) : Out := unaryWord (· ^^^ sx imm) sd sa s
def execShli (sd sa : BitVec 6) (amount : BitVec 7) (s : State) : Out := unaryWord (fun a => shl64 a amount.toNat) sd sa s
def execShri (sd sa : BitVec 6) (amount : BitVec 7) (s : State) : Out := unaryWord (fun a => shr64 a amount.toNat) sd sa s
def execSrai (sd sa : BitVec 6) (amount : BitVec 7) (s : State) : Out := unaryWord (fun a => sra64 a amount.toNat) sd sa s
def execCmpiEq (pd : BitVec 4) (sa : BitVec 6) (imm : BitVec 14) (s : State) : Out := cmpiWord (fun a b => a == b) pd sa imm s
def execCmpiLt (pd : BitVec 4) (sa : BitVec 6) (imm : BitVec 14) (s : State) : Out := cmpiWord (fun a b => a.slt b) pd sa imm s
def execCmpiLtu (pd : BitVec 4) (sa : BitVec 6) (imm : BitVec 14) (s : State) : Out := cmpiWord (fun a b => a.ult b) pd sa imm s
def execMovi (sd : BitVec 6) (imm : BitVec 20) (s : State) : Out := immWord [] sd (fun _ => sx imm) s

/-- LSI shifts its own destination left by 20 and inserts the immediate (R22). -/
def execLsi (sd : BitVec 6) (imm : BitVec 20) (s : State) : Out :=
  immWord [sd] sd (fun s => (getS s sd <<< 20) ||| imm.zeroExtend 64) s

/-- ADDPC: pc + 4 · imm (R22). -/
def execAddpc (sd : BitVec 6) (imm : BitVec 20) (s : State) : Out := immWord [] sd (fun s => s.core.pc + 4 * sx imm) s

/-- NOP: a hint word does nothing (R18, R30). -/
def execNop (_x : BitVec 26) (s : State) : Out := aWord [] [] s .done

end Sys2Proof.Machine
end

