-- ==== Sys2Proof/Machine/ABranch.lean ====
section
/-! DEFINITION. Branches, loops and the guard of the A-stream (R24, R29, R93 to R95). -/

namespace Sys2Proof.Machine

open Sys2Proof

/-- A b-register written (R93). -/
def setB (b : BitVec 3) (x : Word) (s : State) : State := { s with core := { s.core with b := bankSet s.core.b b x } }

/-- A b-register. -/
def getB (s : State) (b : BitVec 3) : Word := bank s.core.b b

/-- PB (R22, R93); the hint affects time only. -/
def execPb (b : BitVec 3) (_hint : Hint) (disp : BitVec 21) (s : State) : Out :=
  aWord [] [] s fun s => .done (setB b (s.core.pc + 4 * sx disp) s)

/-- PBR (R93). -/
def execPbr (b : BitVec 3) (sa : BitVec 6) (_hint : Hint) (s : State) : Out :=
  aWord [sa] [] s fun s => .done (setB b (getS s sa) s)

/-- BR (R94). -/
def execBr (b : BitVec 3) (pk : BitVec 4) (sense : Bool) (s : State) : Out :=
  aWord [] [pk] s fun s => if getP s pk != sense then .jump (getB s b) s else .done s

/-- BRL (R94): the link register takes the address after the word. -/
def execBrl (b : BitVec 3) (pk : BitVec 4) (sense : Bool) (link : BitVec 6) (s : State) : Out :=
  aWord [] [pk] s fun s =>
    if getP s pk != sense then .jump (getB s b) (setS link (s.core.pc + 4) s) else .done s

/-- BLOOP (R94): a counter of zero falls through. -/
def execBloop (b : BitVec 3) (pk : BitVec 4) (sense : Bool) (lc : BitVec 2) (s : State) : Out :=
  aWord [] [pk] s fun s =>
    let n := bank s.core.lc lc
    if getP s pk != sense && n != 0 then .jump (getB s b) { s with core := { s.core with lc := bankSet s.core.lc lc (n - 1) } }
    else .done s

/-- LCSET (R95). -/
def execLcset (lc : BitVec 2) (sa : BitVec 6) (s : State) : Out :=
  aWord [sa] [] s fun s => .done { s with core := { s.core with lc := bankSet s.core.lc lc ((getS s sa).extractLsb' 0 32) } }

/-- The trap of a word that a GRD word guards: a decode trap, or ILLEGAL for GRD, a branch or SEAM (R29). -/
def guardFault (w : BitVec 32) : Option TrapCode :=
  match decodeA w with
  | .error .illegal => some .illegal
  | .error .illegalLen => some .illegalLen
  | .error .illegalOp => some .illegalOp
  | .ok (.grd _ _) => some .illegal
  | .ok (.br _ _ _) => some .illegal
  | .ok (.brl _ _ _ _) => some .illegal
  | .ok (.bloop _ _ _ _) => some .illegal
  | .ok (.seam _) => some .illegal
  | .ok _ => none

/-- GRD (R29): the next word is decoded in full whatever the guard; it runs next, or is passed over. -/
def execGrd (sense : Bool) (pk : BitVec 4) (s : State) : Out :=
  aWord [] [pk] s fun s =>
    let next := s.core.pc + 4
    match fetchA { s.core with pc := next } with
    | none => .trap .illegal .a 0 s
    | some w =>
      match guardFault w with
      | some c => .trap c .a 0 s
      | none =>
        if getP s pk != sense then .stay { s with core := { s.core with pc := next, grd := some s.core.pc } }
        else .stay { s with core := { s.core with pc := next + 4, grd := none }.note 3 1 }

end Sys2Proof.Machine
end

