-- ==== Sys2Proof/Machine/Formats.lean ====
section
/-! DEFINITION. Number formats, exact values and rounding (R143 to R155, R162): a finite value is ± m · 2^e with natural m. -/

namespace Sys2Proof.Machine

open Sys2Proof

/-- A floating format (R146): exponent and mantissa bits, bias, the encoding of the largest finite magnitude, whether infinities exist,
and the canonical NaN. -/
structure Fmt where
  ebits : Nat
  mbits : Nat
  bias : Nat
  top : Nat
  inf : Bool
  nan : Option Nat
  deriving DecidableEq, Repr

/-- The formats of R146. -/
def fp32 : Fmt := ⟨8, 23, 127, 0x7F7FFFFF, true, some 0x7FC00000⟩
def fp16 : Fmt := ⟨5, 10, 15, 0x7BFF, true, some 0x7E00⟩
def bf16 : Fmt := ⟨8, 7, 127, 0x7F7F, true, some 0x7FC0⟩
def e5m2 : Fmt := ⟨5, 2, 15, 0x7B, true, some 0x7E⟩
def e4m3 : Fmt := ⟨4, 3, 7, 0x7E, false, some 0x7F⟩
def e2m1 : Fmt := ⟨2, 1, 1, 0x7, false, none⟩

/-- Bits of a format. -/
def Fmt.bits (f : Fmt) : Nat := 1 + f.ebits + f.mbits

/-- The exponent of the smallest subnormal. -/
def Fmt.emin (f : Fmt) : Int := 1 - (f.bias : Int) - (f.mbits : Int)

/-- An exact value. -/
inductive Fl where
  | nan
  | inf (neg : Bool)
  | fin (neg : Bool) (m : Nat) (e : Int)
  deriving DecidableEq, Repr

/-- The value of an encoding (R146). -/
def Fmt.val (f : Fmt) (x : Nat) : Fl :=
  let mag := x % 2 ^ (f.ebits + f.mbits)
  let neg := x / 2 ^ (f.ebits + f.mbits) % 2 == 1
  if f.top < mag then if f.inf && mag == f.top + 1 then .inf neg else .nan
  else
    let e := mag / 2 ^ f.mbits
    let m := mag % 2 ^ f.mbits
    if e = 0 then .fin neg m f.emin else .fin neg (m + 2 ^ f.mbits) (f.emin + e - 1)

/-- An integer as an exact value. -/
def Fl.ofInt (x : Int) : Fl := .fin (x < 0) x.natAbs 0

/-- The sign. -/
def Fl.neg : Fl → Bool
  | .nan => false
  | .inf n => n
  | .fin n _ _ => n

/-- Whether a value is a NaN. -/
def Fl.isNan : Fl → Bool
  | .nan => true
  | _ => false

/-- Whether a value is infinite. -/
def Fl.isInf : Fl → Bool
  | .inf _ => true
  | _ => false

/-- Whether a value is a zero. -/
def Fl.isZero : Fl → Bool
  | .fin _ m _ => m == 0
  | _ => false

/-- The value with its sign changed. -/
def Fl.negate : Fl → Fl
  | .nan => .nan
  | .inf n => .inf !n
  | .fin n m e => .fin (!n) m e

/-- The magnitude. -/
def Fl.abs : Fl → Fl
  | .nan => .nan
  | .inf _ => .inf false
  | .fin _ m e => .fin false m e

/-- A value times 2^k. -/
def Fl.scale (k : Int) : Fl → Fl
  | .fin n m e => .fin n m (e + k)
  | x => x

/-- The exact product (R147: 0 × ∞ is a NaN). -/
def Fl.mul : Fl → Fl → Fl
  | .nan, _ => .nan
  | _, .nan => .nan
  | .inf a, .inf b => .inf (a != b)
  | .inf a, .fin b m _ => if m = 0 then .nan else .inf (a != b)
  | .fin a m _, .inf b => if m = 0 then .nan else .inf (a != b)
  | .fin a m e, .fin b n f => .fin (a != b) (m * n) (e + f)

/-- The signed integer of a finite value in units of 2^e0, for e0 at or below its exponent. -/
def Fl.units (e0 : Int) : Fl → Int
  | .fin n m e => let x : Int := m * 2 ^ (e - e0).toNat; if n then -x else x
  | _ => 0

/-- The least exponent of a list. -/
def minExp : List Fl → Int
  | [] => 0
  | [x] => match x with | .fin _ _ e => e | _ => 0
  | x :: rest => match x with | .fin _ _ e => min e (minExp rest) | _ => minExp rest

/-- The exact sum of values; `down` is whether an exact zero sum of unlike signs is −0 (R147). -/
def Fl.sum (down : Bool) (xs : List Fl) : Fl :=
  if xs.any Fl.isNan then .nan
  else if xs.any (fun x => x.isInf && x.neg) then if xs.any (fun x => x.isInf && !x.neg) then .nan else .inf true
  else if xs.any Fl.isInf then .inf false
  else
    let e0 := minExp xs
    let t := xs.foldl (fun acc x => acc + x.units e0) (0 : Int)
    if t = 0 then .fin (if xs.all Fl.neg then !xs.isEmpty else if xs.any Fl.neg then down else false) 0 e0
    else .fin (t < 0) t.natAbs e0

/-- Whether a < b, for finite values and infinities with −0 equal to +0. -/
def Fl.lt (a b : Fl) : Bool :=
  match a, b with
  | .nan, _ => false
  | _, .nan => false
  | .inf x, .inf y => x && !y
  | .inf x, _ => x
  | _, .inf y => !y
  | x, y => let e0 := minExp [x, y]; decide (x.units e0 < y.units e0)

/-- Equality of values, −0 equal to +0; a NaN equals nothing. -/
def Fl.eq (a b : Fl) : Bool := !a.isNan && !b.isNan && !a.lt b && !b.lt a

/-- R147's order of min and max: −0 below +0. -/
def Fl.below (a b : Fl) : Bool := a.lt b || (a.eq b && a.neg && !b.neg)

/-! ## Rounding -/

/-- The rounding modes; SR with its 24 random bits (R149, R150). -/
inductive Mode where
  | rne | rtz | rdn | rup
  | sr (z : Nat)
  deriving DecidableEq, Repr

/-- Whether the magnitude q + r / 2^s (and a little more when `more`) rounds up to q + 1. -/
def roundsUp (mode : Mode) (neg : Bool) (q r s : Nat) (more : Bool) : Bool :=
  let inexact := r != 0 || more
  match mode with
  | .rne => 2 ^ s < 2 * r || (2 ^ s == 2 * r && (more || q % 2 == 1))
  | .rtz => false
  | .rdn => neg && inexact
  | .rup => !neg && inexact
  | .sr z => 2 ^ 24 ≤ r * 2 ^ 24 / 2 ^ s + z

/-- A magnitude m · 2^e, or a little more when `more`, as a multiple of 2^u: the rounded multiple, and whether it is inexact. -/
def roundAt (mode : Mode) (neg : Bool) (m : Nat) (e : Int) (more : Bool) (u : Int) : Nat × Bool :=
  if u ≤ e then (m * 2 ^ (e - u).toNat, more)
  else
    let s := (u - e).toNat
    let q := m / 2 ^ s
    let r := m % 2 ^ s
    (if roundsUp mode neg q r s more then q + 1 else q, r != 0 || more)

/-- A rounded result with what it raises: inexact, overflow, and a nonzero value that became subnormal or zero (R167). -/
structure Rounded where
  bits : Nat
  nx : Bool
  ov : Bool
  uf : Bool
  deriving DecidableEq, Repr

/-- A magnitude with its sign bit. -/
def Fmt.signed (f : Fmt) (neg : Bool) (mag : Nat) : Nat := mag + (if neg then 2 ^ (f.ebits + f.mbits) else 0)

/-- What replaces an overflow (R149). -/
def Fmt.overflow (f : Fmt) (mode : Mode) (sat neg : Bool) : Nat :=
  let large := if f.inf then f.signed neg (f.top + 1) else match f.nan with
    | some n => n
    | none => f.signed neg f.top
  let max := f.signed neg f.top
  if sat then max
  else
    match mode with
    | .rtz => max
    | .rdn => if neg then large else max
    | .rup => if neg then max else large
    | _ => large

/-- R149, R150: rounding of the exact magnitude m · 2^e (or a little more) to a format. -/
def Fmt.round (f : Fmt) (mode : Mode) (sat neg : Bool) (m : Nat) (e : Int) (more : Bool) : Rounded :=
  if m = 0 && !more then ⟨f.signed neg 0, false, false, false⟩
  else
    let u := max (e + Nat.log2 m - f.mbits) f.emin
    let (q, nx) := roundAt mode neg m e more u
    let mag := (u - f.emin).toNat * 2 ^ f.mbits + q
    if f.top < mag then ⟨f.overflow mode sat neg, true, true, false⟩
    else ⟨f.signed neg mag, nx, false, nx && mag < 2 ^ f.mbits⟩

/-- The encoding of an exact value (R149, R152). -/
def Fmt.ofFl (f : Fmt) (mode : Mode) (sat : Bool) : Fl → Rounded
  | .nan => ⟨f.nan.getD 0, false, false, false⟩
  | .inf neg =>
    if f.inf then ⟨f.signed neg (f.top + 1), false, false, false⟩
    else
      match f.nan with
      | some n => ⟨if sat then f.signed neg f.top else n, false, false, false⟩
      | none => ⟨f.signed neg f.top, false, false, false⟩
  | .fin neg m e => f.round mode sat neg m e false

/-- rne(x, fmt) (R7). -/
def Fmt.rne (f : Fmt) (x : Fl) : Nat := (f.ofFl .rne false x).bits

/-- An exact value rounded to an integer (R149), with whether it was inexact; a NaN gives none. -/
def Fl.toInt (mode : Mode) : Fl → Option (Int × Bool)
  | .fin neg m e =>
    let r := roundAt mode neg m e false 0
    some (if neg then -(r.1 : Int) else r.1, r.2)
  | _ => none

/-- sat(x, lo, hi) (R7). -/
def satInt (x lo hi : Int) : Int := if x < lo then lo else if hi < x then hi else x

/-- A signed division by 2^s with the half rounded away from zero (R162). -/
def halfAway (t : Int) (s : Nat) : Int :=
  if s = 0 then t else let x : Int := ((t.natAbs + 2 ^ (s - 1)) >>> s : Nat); if t < 0 then -x else x

/-- R162: a value with an infinity saturated and a NaN as 0, times M, shifted. -/
def requant (v : Fl) (mult : Int) (s : Nat) (lo hi : Int) : Int :=
  let a : Int :=
    match v with
    | .nan => 0
    | .inf neg => if neg then -2 ^ 31 else 2 ^ 31 - 1
    | .fin .. => match v.toInt .rne with
      | some (x, _) => satInt x (-2 ^ 31) (2 ^ 31 - 1)
      | none => 0
  satInt (halfAway (a * mult) s) lo hi

/-! ## Stochastic bits (R151) -/

/-- One round of Philox-4×32. -/
def philoxRound (c : Nat × Nat × Nat × Nat) (k0 k1 : Nat) : Nat × Nat × Nat × Nat :=
  let pa := 0xD2511F53 * c.1
  let pb := 0xCD9E8D57 * c.2.2.1
  (pb / 2 ^ 32 ^^^ c.2.1 ^^^ k0, pb % 2 ^ 32, pa / 2 ^ 32 ^^^ c.2.2.2 ^^^ k1, pa % 2 ^ 32)

/-- Rounds of Philox with the keys of each. -/
def philox : Nat → Nat × Nat × Nat × Nat → Nat → Nat → Nat × Nat × Nat × Nat
  | 0, c, _, _ => c
  | n + 1, c, k0, k1 => philox n (philoxRound c k0 k1) ((k0 + 0x9E3779B9) % 2 ^ 32) ((k1 + 0xBB67AE85) % 2 ^ 32)

/-- sr_bits(128, lane, seq) for a key and a counter base (R151). -/
def srOut (key ctr : Word) (lane seq : Nat) : Nat :=
  let c := philox 10 (lane % 2 ^ 32, seq % 256, ctr.toNat % 2 ^ 32, ctr.toNat / 2 ^ 32) (key.toNat % 2 ^ 32) (key.toNat / 2 ^ 32)
  c.1 + c.2.1 * 2 ^ 32 + c.2.2.1 * 2 ^ 64 + c.2.2.2 * 2 ^ 96

/-- The 24 bits of stochastic rounding (R150). -/
def srZ (key ctr : Word) (lane seq : Nat) : Nat := srOut key ctr lane seq % 2 ^ 24

/-! ## Block formats (R153 to R155) -/

/-- An E8M0 scale as a power of two; 0xFF is a NaN (R153). -/
def e8m0 (s : Nat) : Option Int := if s = 0xFF then none else some ((s : Int) - 127)

/-- A value times an E8M0 scale (R154). -/
def Fl.scaled (s : Nat) (x : Fl) : Fl :=
  match e8m0 s with
  | none => .nan
  | some k => x.scale k

/-- floor(log2 |x|) of a finite nonzero value. -/
def Fl.log2 : Fl → Int
  | .fin _ m e => e + Nat.log2 m
  | _ => 0

/-- emax of an element format (R155). -/
def Fmt.emax (f : Fmt) : Int := if f.ebits = 2 then 2 else if f.ebits = 4 then 8 else 15

/-- The scale of a block of exact values (R155). -/
def mxScale (f : Fmt) (vs : List Fl) : Nat :=
  if vs.any (fun v => v.isNan || v.isInf) then 0xFF
  else
    match vs.filter (fun v => !v.isZero) with
    | [] => 0x7F
    | v :: rest => (satInt (rest.foldl (fun a x => max a x.log2) v.log2 - f.emax + 127) 0 254).toNat

/-- One element of a block under its scale, saturated to ± the largest finite (R155). -/
def mxElem (f : Fmt) (mode : Mode) (scale : Nat) (v : Fl) : Rounded :=
  if scale = 0xFF then ⟨0, false, false, false⟩ else f.ofFl mode true (v.scale (127 - (scale : Int)))

end Sys2Proof.Machine
end

