-- ==== Sys2Proof/Machine/AMemory.lean ====
section
/-! DEFINITION. Loads, stores and atomics of the A-stream (R96 to R100), and the ordering of a strand's accesses (R344, R422). -/

namespace Sys2Proof.Machine

open Sys2Proof

/-! ## Order among a strand's accesses -/

/-- The STRAND-path accesses without a reply. -/
def Core.openStrand (k : Core) : List Access := k.out.filter fun a => isStrandDest a.dest && a.got.isNone

/-- The order attribute that governs an access to a local address (R316, R339): 0 STRONG, 1 RELEASE, 2 UNORDERED. -/
def orderAt (s : State) (va : Word) : BitVec 2 :=
  let a := va.toNat
  if a < 2 ^ 55 then match extentAt s s.core.launch a with
    | some e => e.attr.extractLsb' 0 2
    | none => 1
  else if panelWin ≤ a && a < panelWin + 0x10000000000 then
    match s.panels.find? (fun p => p.num == (a - panelWin) / 0x100000000) with
    | some p => p.attr.extractLsb' 0 2
    | none => 1
  else 1

/-- Whether an access names the own part's memory through a peer window. -/
def ownSlot (s : State) (slot : Nat) : Bool := slot == ownLabel s.fab % 64

/-- The order attribute that an access of the bound strand meets at a part's physical address: the own export entry's that admits it, or what
the part there has set (R420). -/
def peerOrder (s : State) (write : Bool) (slot off : Nat) : BitVec 2 :=
  if ownSlot s slot then ((exportFor s write off 1 (bank s.fab.fjob (launchFn s s.core.launch))).map (·.order)).getD 1
  else Config.peerOrder slot off

/-- The slot and the physical address of an outstanding access. -/
def Access.slot (a : Access) : Nat := (slotOfVa a.va).toNat
def Access.place (a : Access) : Nat := a.va.toNat % 2 ^ 48

/-- Whether an outstanding access counts in its stream (R421). -/
def Access.counted (a : Access) : Bool := a.dest.counted

/-- Whether an outstanding access is to a STRONG page. -/
def Access.strong (s : State) (a : Access) : Bool := peerOrder s a.counted a.slot a.place == 0

/-- Whether an outstanding access reaches one of the places `keys` of the own part, through the own slot (R337). -/
def Access.reaches (s : State) (a : Access) (keys : List Nat) : Bool := ownSlot s a.slot && (physKeys s a.place a.len).any keys.contains

/-- Whether a physical address lies in a panel's views, and in the views of which panel (R304). -/
def viewed (pa : Nat) : Option Nat := if panelBase ≤ pa && pa < panelEnd then some ((pa - panelBase) / 0x100000000) else none

/-- Whether an outstanding access meets `n` bytes at physical address `off` behind a slot: the same addresses, or views of one panel, which
share its storage (R304, R321, R337). -/
def Access.meets (s : State) (a : Access) (slot off n : Nat) : Bool :=
  a.slot == slot &&
    ((off < a.place + a.len && a.place < off + n) || ((viewed off).isSome && viewed off == viewed a.place) ||
      a.reaches s (physKeys s off n))

/-- Whether a message of the bound strand to a part of its domain is on its way (R434, R436). -/
def sendsToDomain (s : State) : Bool :=
  s.fab.sends.any fun m => s.core.slot == some m.slot && m.dest.toNat / 64 == ownLabel s.fab / 64

/-- Whether a local STRAND access waits for earlier peer accesses: for an acquire (R344), as an SC access (R345) or a release (R344) where
the page's order lets it act as one (R339), on a STRONG page (R422), or at a byte that one of them reaches through the own slot (R337); or
for the limit on requests (R138). `sites` are the bytes of the access at `va`. -/
def localWaits (s : State) (sc rel : Bool) (va : Word) (sites : List Site) : Bool :=
  let l := s.core.openStrand
  let o := orderAt s va
  let strong := o == 0 || orderAt s (va + w64 (sites.length - 1)) == 0
  let keys := sites.filterMap siteKey
  l.any (·.acq) || ((sc || rel) && o != 2 && !l.isEmpty) || (strong && l.any (Access.strong s)) ||
    l.any (fun a => a.reaches s keys) ||
      (sites.any (fun x => !x.ownStore s.cur) && 2048 < s.core.requests + 1)

/-- Whether a peer STRAND access of `n` bytes waits for earlier ones: for an acquire; as an SC access; as a release for all but the stores
and atomics of its own stream (R354), messages to parts of the domain included (R436); on a STRONG page for those to STRONG pages elsewhere
(R422); or for a read of the same bytes, which its stream does not count (R337, R421). -/
def peerWaits (s : State) (write sc rel : Bool) (slot off n : Nat) : Bool :=
  let strong := peerOrder s write slot off == 0 || peerOrder s write slot (off + n - 1) == 0
  (rel && sendsToDomain s) ||
    s.core.openStrand.any fun a =>
      let behind := a.counted && a.slot == slot
      a.acq || sc || (rel && !behind) || (strong && a.strong s && !behind) ||
        (!behind && a.meets s slot off n)

/-- Whether an acquire through a peer window acts as one (R339). -/
def peerAcquires (s : State) (write acq : Bool) (slot off : Nat) : Bool := acq && peerOrder s write slot off != 2

/-- Whether an access of `n` requests would pass the limit (R138). -/
def overLimit (s : State) (n : Nat) : Bool := 2048 < s.core.requests + n

/-- The order of an acquire governs an entry of 1,024 bytes where the page of any of them lets it (R97, R339). -/
def entryAcquires (s : State) (acq : Bool) (slot off : Nat) : Bool := (List.range 1024).any fun i => peerAcquires s false acq slot (off + i)

/-- Whether a word that is itself a release at DIE scope waits: every earlier STRAND access of the strand is performed first (R74, R296, R319,
R379, R406, R434). The word's own read is none of them. -/
def releaseWaits (s : State) : Bool := s.core.openStrand.any fun a => a.dest != .blockA

/-- Whether an outstanding access reaches physical addresses of the own part (R104, R325). -/
def openAt (s : State) (pa n : Nat) : Bool :=
  s.core.openStrand.any fun a => ownSlot s a.slot && pa < a.place + a.len && a.place < pa + n

/-- The slot and offset of an access whose every byte lies in a peer window. -/
def peerOf (sites : List Site) : Option (Nat × Nat) :=
  match sites with
  | .peer t o :: rest => if rest.all (fun x => match x with | .peer _ _ => true | _ => false) then some (t, o) else none
  | _ => none

/-- A protected store that no holder keeps is recorded for the strand (R445, R447). -/
def noteKept (kept : Bool) (va : Word) (s : State) : State :=
  if kept then s else { s with core := { s.core with ndur := s.core.ndur.or (some va) } }

/-! ## Loads and stores (R96, R97) -/

/-- A value of bytes, sign-extended or zero-extended to 64 bits (R96). -/
def extended (signed : Bool) (bs : List Byte) : Word :=
  if signed then BitVec.ofInt 64 (signedOf (8 * bs.length) (leNat bs)) else w64 (leNat bs)

/-- The effective address of a load or store of `n`-byte units (R22, R96). -/
def effAddr (s : State) (sa : BitVec 6) (n : Nat) (off : BitVec 11) : Word := getS s sa + sx off * w64 n

/-- A load of `n` bytes (R96). -/
def loadWord (n : Nat) (signed : Bool) (sd sa : BitVec 6) (ord : LdOrder) (strict : Bool) (off : BitVec 11) (s : State) : Out :=
  aWord [sa] [] s fun s =>
    let a := effAddr s sa n off
    let sites := strandSites s false false a n
    if ord != .plain && a.toNat % n != 0 then .trap .misalign .a a s
    else if watchHit s a then .trap .watch .a a s
    else
      match peerOf sites with
      | some (slot, o) =>
        if peerWaits s false (ord == .sc) false slot o n || overLimit s 1 then .stall s
        else .done (issueAccess (.sreg sd signed) false (.load true) a slot o n [] (peerAcquires s false (ord != .plain) slot o) strict s)
      | none =>
        if localWaits s (ord == .sc) false a sites then .stall s
        else
          match readSites (if strict then .strict else .load) sites s with
          | .stop i c => .trap c .a (a + w64 i) s
          | .stall s => .stall s
          | .ok seen s => .done (noteMiss (seen.miss.any id) (setP 14 (seen.miss.any id) (setS sd (extended signed seen.bytes) s)))

def execLdI8 (sd sa : BitVec 6) (ord : LdOrder) (strict : Bool) (off : BitVec 11) (s : State) : Out := loadWord 1 true sd sa ord strict off s
def execLdN8 (sd sa : BitVec 6) (ord : LdOrder) (strict : Bool) (off : BitVec 11) (s : State) : Out := loadWord 1 false sd sa ord strict off s
def execLdI16 (sd sa : BitVec 6) (ord : LdOrder) (strict : Bool) (off : BitVec 11) (s : State) : Out := loadWord 2 true sd sa ord strict off s
def execLdN16 (sd sa : BitVec 6) (ord : LdOrder) (strict : Bool) (off : BitVec 11) (s : State) : Out := loadWord 2 false sd sa ord strict off s
def execLdI32 (sd sa : BitVec 6) (ord : LdOrder) (strict : Bool) (off : BitVec 11) (s : State) : Out := loadWord 4 true sd sa ord strict off s
def execLdN32 (sd sa : BitVec 6) (ord : LdOrder) (strict : Bool) (off : BitVec 11) (s : State) : Out := loadWord 4 false sd sa ord strict off s
def execLdB64 (sd sa : BitVec 6) (ord : LdOrder) (strict : Bool) (off : BitVec 11) (s : State) : Out := loadWord 8 false sd sa ord strict off s

/-- A stream register with one entry more at its end. -/
def Core.append (k : Core) (q : BitVec 4) (e : QEntry) : Core := { k with q := bankSet k.q q (bank k.q q ++ [e]) }

/-- Whether a CP.Q that names a stream register is queued or in progress (R98). -/
def Core.copiesTo (k : Core) (q : BitVec 4) : Bool :=
  k.copyq.any (fun c => c.kind == .toQ q) ||
    k.copyRun.any fun r => r.cmd.kind == .toQ q && r.moved * 1024 < r.cmd.rows.toNat * r.cmd.len.toNat

/-- LDQ (R97, R98). -/
def execLdq (q : BitVec 4) (sa : BitVec 6) (acq strict : Bool) (off : BitVec 11) (s : State) : Out :=
  aWord [sa] [] s fun s =>
    let a := effAddr s sa 64 off
    let sites := strandSites s false false a 1024
    if a.toNat % 64 != 0 then .trap .misalign .a a s
    else if watchHit s a then .trap .watch .a a s
    else if 8 ≤ (bank s.core.q q).length || s.core.copiesTo q then .stall s
    else
      match peerOf sites with
      | some (slot, o) =>
        if peerWaits s false false false slot o 1024 || overLimit s 16 then .stall s
        else
          let id := s.nextId
          .done (issueAccess (.ldq q id) false (.load true) a slot o 1024 [] (entryAcquires s acq slot o) strict
            { s with core := s.core.append q ⟨0, false, id⟩ })
      | none =>
        if localWaits s false false a sites || (sites.any (fun x => !x.ownStore s.cur) && overLimit s 16) then .stall s
        else
          match readSites (if strict then .strict else .load) sites s with
          | .stop i c => .trap c .a (a + w64 i) s
          | .stall s => .stall s
          | .ok seen s =>
            .done (noteMiss (seen.miss.any id)
              (setP 14 (seen.miss.any id) { s with core := s.core.append q ⟨BitVec.ofNat 8192 (leNat seen.bytes), true, 0⟩ }))

/-- A store of the low `n` bytes of sd (R96). -/
def storeWord (n : Nat) (sd sa : BitVec 6) (ord : StOrder) (off : BitVec 11) (s : State) : Out :=
  aWord [sd, sa] [] s fun s =>
    let a := effAddr s sa n off
    let sites := strandSites s true false a n
    let bs := leBytes n (getS s sd).toNat
    if ord != .plain && a.toNat % n != 0 then .trap .misalign .a a s
    else if watchHit s a then .trap .watch .a a s
    else
      match peerOf sites with
      | some (slot, o) =>
        if peerWaits s true (ord == .sc) (ord != .plain) slot o n || overLimit s 1 then .stall s
        else .done (issueAccess .store false (.store (ord != .plain)) a slot o n bs false false s)
      | none =>
        if localWaits s (ord == .sc) (ord != .plain) a sites then .stall s
        else
          match writeSites sites bs (strandWriter s) a s with
          | .stop i c => .trap c .a (a + w64 i) s
          | .stall s => .stall s
          | .ok kept s => .done (noteKept kept a s)

def execStB8 (sd sa : BitVec 6) (ord : StOrder) (off : BitVec 11) (s : State) : Out := storeWord 1 sd sa ord off s
def execStB16 (sd sa : BitVec 6) (ord : StOrder) (off : BitVec 11) (s : State) : Out := storeWord 2 sd sa ord off s
def execStB32 (sd sa : BitVec 6) (ord : StOrder) (off : BitVec 11) (s : State) : Out := storeWord 4 sd sa ord off s
def execStB64 (sd sa : BitVec 6) (ord : StOrder) (off : BitVec 11) (s : State) : Out := storeWord 8 sd sa ord off s

/-! ## Atomics (R99, R100) -/

/-- AMO.FADD.f32 and .bf16 on encodings (R99). -/
def faddF32 (old v : Nat) : Nat := fp32.rne (Fl.sum false [fp32.val old, fp32.val v])
def faddBf16 (old v : Nat) : Nat := bf16.rne (fp32.val (fp32.rne (Fl.sum false [bf16.val old, bf16.val v])))

/-- The new value at the location, or none where a CAS does not write (R99). -/
def amoNew (op : AmoOp) (n v cmp old : Nat) : Option Nat :=
  let w := 2 ^ (8 * n)
  let less := decide (signedOf (8 * n) v < signedOf (8 * n) old)
  match op with
  | .add => some ((old + v) % w)
  | .and => some (old &&& v)
  | .or => some (old ||| v)
  | .xor => some (old ^^^ v)
  | .min => some (if less then v else old)
  | .max => some (if less then old else v)
  | .minu => some (Nat.min old v)
  | .maxu => some (Nat.max old v)
  | .swap => some v
  | .cas => if old = cmp then some v else none
  | .faddF32 => some (faddF32 old v)
  | .faddBf16 => some (faddBf16 old v)

/-- Whether an atomic to a host window becomes a PCI Express AtomicOp (R316). -/
def hostAtomic (op : AmoOp) (n : Nat) : Bool := (op == .add || op == .swap || op == .cas) && (n == 4 || n == 8)

/-- Whether an atomic acquires (R344). -/
def amoAcquires : AmoOrder → Bool
  | .acq => true
  | .acqrel => true
  | _ => false

/-- Whether an atomic releases (R344). -/
def amoReleases : AmoOrder → Bool
  | .rel => true
  | .acqrel => true
  | _ => false

/-- An atomic of `n` bytes (R99, R100). CAS reads its expected value in sd. -/
def amoWord (op : AmoOp) (size : MemSize) (ord : AmoOrder) (sd sa sb : BitVec 6) (s : State) : Out :=
  aWord (if op == .cas then [sa, sb, sd] else [sa, sb]) [] s fun s =>
    let n := size.bytes
    let a := getS s sa
    let v := (getS s sb).toNat % 2 ^ (8 * n)
    let cmp := (getS s sd).toNat % 2 ^ (8 * n)
    let sites := strandSites s true true a n
    if a.toNat % n != 0 then .trap .misalign .a a s
    else if watchHit s a then .trap .watch .a a s
    else
      match peerOf sites with
      | some (slot, o) =>
        if peerWaits s true false (amoReleases ord) slot o n || overLimit s 1 then .stall s
        else
          .done (issueAccess (.amo sd) false (.amo op size (w64 cmp) (amoReleases ord)) a slot o n (leBytes n v)
            (peerAcquires s true (amoAcquires ord) slot o) false s)
      | none =>
        if sites.any Site.inHost && !hostAtomic op n then .trap .prot .a a s
        else if localWaits s false (amoReleases ord) a sites then .stall s
        else
          match rmwSites sites (amoNew op n v cmp) (strandWriter s) a s with
          | .stop i c => .trap c .a (a + w64 i) s
          | .stall s => .stall s
          | .ok r s => .done (noteKept r.2 a (setS sd (w64 r.1) s))

def execAmoAdd (sd sa sb : BitVec 6) (size : MemSize) (ord : AmoOrder) (s : State) : Out := amoWord .add size ord sd sa sb s
def execAmoAnd (sd sa sb : BitVec 6) (size : MemSize) (ord : AmoOrder) (s : State) : Out := amoWord .and size ord sd sa sb s
def execAmoOr (sd sa sb : BitVec 6) (size : MemSize) (ord : AmoOrder) (s : State) : Out := amoWord .or size ord sd sa sb s
def execAmoXor (sd sa sb : BitVec 6) (size : MemSize) (ord : AmoOrder) (s : State) : Out := amoWord .xor size ord sd sa sb s
def execAmoMin (sd sa sb : BitVec 6) (size : MemSize) (ord : AmoOrder) (s : State) : Out := amoWord .min size ord sd sa sb s
def execAmoMax (sd sa sb : BitVec 6) (size : MemSize) (ord : AmoOrder) (s : State) : Out := amoWord .max size ord sd sa sb s
def execAmoMinu (sd sa sb : BitVec 6) (size : MemSize) (ord : AmoOrder) (s : State) : Out := amoWord .minu size ord sd sa sb s
def execAmoMaxu (sd sa sb : BitVec 6) (size : MemSize) (ord : AmoOrder) (s : State) : Out := amoWord .maxu size ord sd sa sb s
def execSwap (sd sa sb : BitVec 6) (size : MemSize) (ord : AmoOrder) (s : State) : Out := amoWord .swap size ord sd sa sb s
def execCas (sd sa sb : BitVec 6) (size : MemSize) (ord : AmoOrder) (s : State) : Out := amoWord .cas size ord sd sa sb s

/-- AMO.FADD: FP32 in 4 bytes, BF16 in 2 (R27, R99). -/
def execAmoFadd (sd sa sb : BitVec 6) (f32 : Bool) (ord : AmoOrder) (s : State) : Out :=
  amoWord (if f32 then .faddF32 else .faddBf16) (if f32 then .b4 else .b2) ord sd sa sb s

end Sys2Proof.Machine
end

