-- ==== Sys2Proof/Machine/ASync.lean ====
section
/-! DEFINITION. FENCE, semaphores, queues and the copy words of the A-stream (R101 to R114). -/

namespace Sys2Proof.Machine

open Sys2Proof

/-! ## What ordering points deliver -/

/-- The trap of a stopped copy, with what its delivery discards (R114). -/
def copyTrapAt (s : State) : Option AOut :=
  s.core.copyTrap.map fun t =>
    .trap t.1 .copy t.2 { s with core := { s.core with copyTrap := none, copyq := [], copyRun := [] } }

/-- Whether every loss of a store or atomic of the bound strand has been delivered, and none can follow: none is recorded, and no such unit is
outstanding. -/
def lossesDelivered (k : Core) : Bool :=
  k.storeFaults.all (fun f => f.1 != .shuttleLoss) && k.vtrap.all (fun t => t.code != .shuttleLoss) &&
    !k.out.any fun a => a.counted || a.dest == .blockV

/-- The same for the strand's units to one part: what of them is lost is delivered, and none is outstanding. -/
def slotDelivered (k : Core) (slot : BitVec 6) : Bool :=
  k.storeFaults.all (fun f => f.1 != .shuttleLoss || slotOfVa f.2 != slot) &&
    !k.out.any fun a => (a.counted || a.dest == .blockV) && slotOfVa a.va == slot

/-- After a point that delivers the losses before it: the marks of the broken streams clear (R431). -/
def renewAt (s : State) : State := if lossesDelivered s.core then renewStreams s else s

/-- A FENCE, stop or EXIT delivers the loss of a store or atomic unit at a peer address: with the last one of its stream delivered, the mark of
the stream clears for units issued from now on (R431). -/
def renewSlot (va : Word) (s : State) : State :=
  if slotDelivered s.core (slotOfVa va) then renewOne (slotLabel s.fab (slotOfVa va).toNat) false s else s

/-- The trap of a stopped copy at a FENCE, stop or EXIT: one that is a loss clears the marks of the copy path's streams (R431). -/
def copyEndAt (s : State) : Option AOut :=
  match s.core.copyTrap, copyTrapAt s with
  | some (.shuttleLoss, va), some (.trap c st x s) => some (.trap c st x (renewOne (slotLabel s.fab (slotOfVa va).toNat) true s))
  | _, t => t

/-- Whether a store or atomic of the strand has no reply yet: a loss is delivered once none is left. -/
def unitsOpen (k : Core) : Bool := k.out.any fun a => a.counted && a.got.isNone

/-- The recorded fault of a peer read or atomic that no word has read (R424); a loss shows no address here (R258). -/
def readFaultAt (s : State) : Option AOut :=
  s.core.readFault.map fun f =>
    let s' := { s with core := s.core.dropFaulted f.2 }
    if f.1 != .shuttleLoss then .trap f.1 .a f.2 s'
    else if !s.core.out.any (fun a => a.va == f.2 && a.counted && a.fault.isSome) then .trap f.1 .a 0 s'
    else if unitsOpen s.core then .stall s
    else .trap f.1 .a 0 (renewSlot f.2 s')

/-- The first recorded store fault (R424). A loss shows no address; it is delivered once the strand's other units are performed or declared
lost. -/
def storeFaultAt (s : State) : Option AOut :=
  match s.core.storeFaults with
  | [] => none
  | f :: rest =>
    let s' := { s with core := { s.core with storeFaults := rest } }
    if f.1 != .shuttleLoss then some (.trap f.1 .a f.2 s')
    else if unitsOpen s.core then some (.stall s)
    else some (.trap f.1 .a 0 (renewSlot f.2 s'))

/-- The recorded store that is not durable (R447). -/
def ndurAt (s : State) : Option AOut :=
  s.core.ndur.map fun va => .trap .selvedgeLoss .a va { s with core := { s.core with ndur := none } }

/-- Whether a scope reaches other parts. -/
def wideScope : FenceScope → Bool
  | .domain => true
  | .survive => true
  | _ => false

/-- Whether parity updates of the bound strand, or of its copy unit, await acknowledgement (R445). -/
def parityPending (s : State) : Bool := s.core.slot.isSome && s.sv.pending.any fun p => p.writer == strandWriter s
def copyParityPending (s : State) : Bool := s.core.slot.isSome && s.sv.pending.any fun p => p.writer == copyWriter s

/-- Whether a message of the bound strand is on its way (R434, R436). -/
def sendsPending (s : State) : Bool := s.fab.sends.any fun m => s.core.slot == some m.slot

/-- Whether parity updates of stores that a FENCE covers await acknowledgement: every store of this part, since the strand may have observed it
(R101, log 54), but for the strand's own copies where COPY is not named. -/
def coveredPending (copy : Bool) (s : State) : Bool := s.sv.pending.any fun p => copy || s.core.slot.isNone || p.writer != copyWriter s

/-- Whether a FENCE waits: for peer accesses and messages at DOMAIN scope and above (R343, R436), for every earlier copy (R348), for the
durability of the stores that it covers, those to other parts included, and of the strand's copies where COPY is named (R102, R447). -/
def fenceWaits (scope : FenceScope) (paths : BitVec 5) (s : State) : Bool :=
  (paths.getLsbD 0 && wideScope scope && (!s.core.openStrand.isEmpty || sendsPending s)) ||
    (paths.getLsbD 1 && (!s.core.copyq.isEmpty || !s.core.copyRun.isEmpty)) ||
      (scope == .survive && (coveredPending (paths.getLsbD 1) s || s.core.openStrand.any Access.counted))

/-- FENCE (R101, R102, R348): faults recorded for it first, then its waits. Of several faults the copy's comes first, then a read's, a store's and
that of a store that is not durable (DESIGN CHOICE, assumption 102). -/
def execFence (scope : FenceScope) (_ord : FenceOrder) (paths : BitVec 5) (s : State) : Out :=
  aWord [] [] s fun s =>
    let faults := [if paths.getLsbD 1 then copyEndAt s else none, readFaultAt s, if wideScope scope then storeFaultAt s else none,
      if scope == .survive then ndurAt s else none]
    match faults.findSome? id with
    | some t => t
    | none => if fenceWaits scope paths s then .stall s else .done (if wideScope scope && paths.getLsbD 0 then renewAt s else s)

/-! ## Semaphores (R103) -/

/-- The trap of a semaphore word: c.eval holds the semaphore (R258). -/
def semTrap (sem : BitVec 8) (s : State) : AOut := .trap .semOvf .a (sem.zeroExtend 64) s

/-- SEM.SIG -/
def execSemSig (sem : BitVec 8) (sa : BitVec 6) (s : State) : Out :=
  aWord [sa] [] s fun s =>
    if openAt s (coreBase + s.cur * 0x200000) 0x200000 then .stall s
    else
    match semAdd s.core sem (getS s sa).toNat with
    | some k => .done { s with core := k }
    | none => semTrap sem s

/-- The semaphore and the threshold that the V instruction at vpc waits for, if it is a VWAIT. -/
def vWaitOf (k : Core) : Option (BitVec 8 × Nat) :=
  match k.vseq, fetchV k with
  | .running, .ok (.vLong op f) => if op == 0x04 then some (f.vd.extractLsb' 0 8, f.modifier.toNat) else none
  | _, _ => none

/-- Those of the M word at mpc (R45). -/
def mWaitOf (k : Core) : Option (BitVec 8 × Nat) :=
  match k.mseq, fetchM k with
  | .running, .ok (.m _ f) => some (f.waitSem, f.waitThr.toNat)
  | _, _ => none

/-- Whether a wait is satisfied by the counts as they stand. -/
def waitMet (k : Core) (w : Option (BitVec 8 × Nat)) : Bool := w.any fun w => w.2 ≤ (bank k.sem w.1).toNat

/-- Before a count falls: the waits that it has satisfied stay satisfied (R127). -/
def Core.latchWaits (k : Core) : Core :=
  { k with
    metV := k.metV || waitMet k (vWaitOf k), metM := k.metM || waitMet k (mWaitOf k),
    copyq := k.copyq.map fun c => { c with met := c.met || c.wthr ≤ bank k.sem c.wsem } }

/-- SEM.ACQ -/
def execSemAcq (sd : BitVec 6) (sem : BitVec 8) (sa : BitVec 6) (s : State) : Out :=
  aWord [sa] [] s fun s =>
    let n := (getS s sa).toNat
    let c := (bank s.core.sem sem).toNat
    if 65535 < n then semTrap sem s
    else if c < n then .stall s
    else
      let k := s.core.latchWaits
      .done (setS sd (w64 (c - n)) { s with core := { k with sem := bankSet k.sem sem (BitVec.ofNat 16 (c - n)) } })

/-- SEM.RD -/
def execSemRd (sd : BitVec 6) (sem : BitVec 8) (s : State) : Out :=
  aWord [] [] s fun s => .done (setS sd ((bank s.core.sem sem).zeroExtend 64) s)

/-! ## Queues (R106, R121) -/

/-- MQPUSH -/
def execMqpush (mq : BitVec 2) (sa : BitVec 6) (s : State) : Out :=
  aWord [sa] [] s fun s =>
    let l := bank s.core.mq mq
    if 16 ≤ l.length then .stall s else .done { s with core := { s.core with mq := bankSet s.core.mq mq (l ++ [getS s sa]) } }

/-- QPOP: a fault entry of rq is consumed and raises M_FAULT. -/
def execQpop (sd : BitVec 6) (src : PopSrc) (s : State) : Out :=
  aWord [] [] s fun s =>
    match src with
    | .rq =>
      match s.core.rq with
      | [] => .stall s
      | e :: rest =>
        let s' := { s with core := { s.core with rq := rest } }
        if e.fault then .trap .mFault .m e.payload s' else .done (setS sd e.payload s')
    | .vq j =>
      match bank s.core.vq j with
      | [] => .stall s
      | x :: rest => .done (setS sd x { s with core := { s.core with vq := bankSet s.core.vq j rest } })

/-- MQ.FLUSH -/
def execMqFlush (sd : BitVec 6) (which : Option (BitVec 2)) (s : State) : Out :=
  aWord [] [] s fun s =>
    match which with
    | some j => .done (setS sd (w64 (bank s.core.mq j).length) { s with core := { s.core with mq := bankSet s.core.mq j [] } })
    | none =>
      let n := s.core.mq.toList.foldl (fun n l => n + l.length) 0
      .done (setS sd (w64 n) { s with core := { s.core with mq := Vector.replicate _ [] } })

/-! ## Copies (R107 to R113) -/

/-- The registers of a copy record. -/
def recordRegs (sa : BitVec 6) (n : Nat) : List (BitVec 6) := (List.range n).map fun i => sa + BitVec.ofNat 6 i

/-- The record of a copy command (R107). -/
def readCopy (kind : CopyKind) (sa : BitVec 6) (s : State) : CopyCmd :=
  let r (i : Nat) : Word := getS s (sa + BitVec.ofNat 6 i)
  { kind := kind, src := r 0, dst := r 1, rows := (r 2).extractLsb' 32 32, len := (r 2).extractLsb' 0 32, sstr := r 3, dstr := r 4,
    d64 := (r 5).getLsbD 42, cw := (r 5).extractLsb' 40 2, sinc := (r 5).extractLsb' 32 8, ssem := (r 5).extractLsb' 24 8,
    wthr := (r 5).extractLsb' 8 16, wsem := (r 5).extractLsb' 0 8, met := false }

/-- The page size of the extent that holds an address (R313); a fixed window has none. -/
def pageLimit (s : State) (va : Word) : Option Nat :=
  if va.toNat < 2 ^ 55 then (extentAt s s.core.launch va.toNat).map fun e => pageSize e.psz else none

/-- Whether a row is longer than a page of the side it lies in (R313). -/
def rowTooLong (s : State) (len : Nat) (va : Word) : Bool :=
  match pageLimit s va with
  | some p => p < len
  | none => false

/-- The core-store offset that a copy destination names, through the own-core window or the cluster window at the own index (R109). -/
def ownOffset (s : State) (va : Word) : Option Nat :=
  let a := va.toNat
  let base := cluWin + s.cur * 0x200000
  if ownWin ≤ a && a < ownWin + 0x200000 then some (a - ownWin)
  else if base ≤ a && a < base + 0x200000 then some (a - base)
  else none

/-- Bytes of a steering tile of depth 32 or 64 (R205). -/
def steeringBytes (depth : Nat) : Nat := if depth = 64 then 3072 else 2048

/-- Whether the steering tiles of a CP.BOLT lie in the core store as R109 and R210 ask. -/
def boltFits (c : CopyCmd) (o : Nat) : Bool :=
  let size : Int := steeringBytes (if c.d64 then 64 else 32)
  let last : Int := o + ((c.len.toNat : Int) - 1) * c.dstr.toInt
  o % 64 == 0 && c.dstr.toNat % 64 == 0 && decide (size ≤ c.dstr.toInt.natAbs) && decide ((o : Int) + size ≤ 0x200000) &&
    decide (0 ≤ last) && decide (last + size ≤ 0x200000)

/-- The rules of R107, R109, R110, R210 and R313 on a record. -/
def copyOk (s : State) (c : CopyCmd) (top : BitVec 21) : Bool :=
  let rows := c.rows.toNat
  let len := c.len.toNat
  let common := top == 0 && (c.sinc != 0 || c.ssem == 0) && (c.wthr != 0 || c.wsem == 0)
  let block := 1 ≤ rows && rows ≤ 65536 && 1 ≤ len && len ≤ 16777216 && !c.d64 && c.cw == 0 && !rowTooLong s len c.src
  common &&
    match c.kind with
    | .cp => block && !rowTooLong s len c.dst
    | .toQ _ => block && c.dst == 0 && c.dstr == 0 && len * rows % 1024 == 0
    | .bolt => rows == 0 && 1 ≤ len && len ≤ 65536 && c.cw != 0 && (ownOffset s c.dst).any (boltFits c)

/-- A copy word: the trap of a stopped copy first (R114), then the record's rules, then a place in the queue (R121). -/
def copyWord (kind : CopyKind) (sa : BitVec 6) (s : State) : Out :=
  aWord (recordRegs sa 6) [] s fun s =>
    match copyTrapAt s with
    | some t => t
    | none =>
      let c := readCopy kind sa s
      if !copyOk s c ((getS s (sa + 5)).extractLsb' 43 21) then .trap .copy .copy 1 s
      else if 32 ≤ s.core.copyq.length then .stall s
      else .done { s with core := { s.core with copyq := s.core.copyq ++ [c] } }

def execCp (sa : BitVec 6) (s : State) : Out := copyWord .cp sa s
def execCpBolt (sa : BitVec 6) (s : State) : Out := copyWord .bolt sa s
def execCpQ (q : BitVec 4) (sa : BitVec 6) (s : State) : Out := copyWord (.toQ q) sa s

/-- Whether a command's wait is satisfied (R45, R107, R127). -/
def CopyCmd.ready (c : CopyCmd) (k : Core) : Bool := c.met || c.wthr == 0 || c.wthr ≤ bank k.sem c.wsem

/-- CP.FLUSH (R113): it waits while the first queued command can start. -/
def execCpFlush (sd : BitVec 6) (s : State) : Out :=
  aWord [] [] s fun s =>
    match copyTrapAt s with
    | some t => t
    | none =>
      match s.core.copyq with
      | [] => .done (setS sd 0 s)
      | c :: _ =>
        if c.ready s.core then .stall s
        else .done (setS sd (w64 s.core.copyq.length) { s with core := { s.core with copyq := [] } })

end Sys2Proof.Machine
end

