-- ==== Sys2Proof/Machine/AStrand.lean ====
section
/-! DEFINITION. SPAWN, SUSPEND, SEAM, WAIT.M, SPIN and PAGEREQ (R72 to R80, R315, R458). -/

namespace Sys2Proof.Machine

open Sys2Proof

/-! ## Stops -/

/-- A stop request is posted to the selected core's strand: the first cause stays (R67), and one that finds the M sequencer stopped by a
fault other than BRK loses the strand (R267). -/
def postStop (cause : BitVec 4) (s : State) : State :=
  match s.core.slot with
  | none => s
  | some slot =>
    if s.core.mseq == .faulted then loseStrand .seamIntegrity s
    else if s.core.stop.isSome then s
    else noteDie 4 1 (updBob slot (fun b => { b with state := .stopping }) { s with core := { s.core with stop := some ⟨cause, s.time + stopLimit⟩ } })

/-- Passages of a marker (R458). -/
def passages (l : List (BitVec 22 × Nat)) (id : BitVec 22) : Nat := ((l.find? fun e => e.1 == id).map (·.2)).getD 0

/-- Passages with a count changed. -/
def setPassages (l : List (BitVec 22 × Nat)) (id : BitVec 22) (n : Nat) : List (BitVec 22 × Nat) :=
  (id, n) :: removeFirst (fun e => e.1 == id) l

/-- Whether a stop request lets the A-stream stop now: one is pending and no handler runs (R268, R458). -/
def Core.stopWanted (k : Core) : Bool := k.stop.isSome && !k.inHandler

/-- The A-stream stands at SEAM X (R72). -/
def Core.stand (k : Core) (pc : Word) (id : BitVec 22) : Core := { k with aseq := .atSeam id, pc := pc, grd := none, wait := none }

/-- SEAM (R50, R72, R78, R458): the strand stops here, or the word is executed. -/
def execSeam (id : BitVec 22) (s : State) : Out :=
  aWord [] [] s fun s =>
    let k := s.core
    let a := passages k.passA id
    if k.stopWanted && passages k.passV id ≤ a && passages k.passM id ≤ a then
      if k.mseq == .faulted then .stay (loseStrand .seamIntegrity s) else .stay { s with core := k.stand k.pc id }
    else
      let spin := match k.spin with
        | some (x, t) => if x = id then some (x, t) else none
        | none => none
      .done { s with core := { k with passA := setPassages k.passA id (a + 1), spin := spin } }

/-- A suspendable wait (R77, R294): its SEAM word before it, if a stop may take place there now (R458). -/
def waitSeam (k : Core) : Option (BitVec 22) :=
  match seamBefore k with
  | none => none
  | some id =>
    let a := passages k.passA id
    if k.stopWanted && 1 ≤ a && passages k.passV id ≤ a - 1 && passages k.passM id ≤ a - 1 then some id else none

/-- What a wait that goes on does: a stop at its SEAM word, which then counts as not executed, or another try (R77, R458). -/
def waitOn (kind : WaitKind) (s : State) : AOut :=
  let k := s.core
  match waitSeam k with
  | some id =>
    if k.mseq == .faulted then .stay (loseStrand .seamIntegrity s)
    else .stay { s with core := { k.stand (k.wordAddr - 4) id with passA := setPassages k.passA id (passages k.passA id - 1) } }
  | none =>
    let mark := if (seamBefore k).isSome then k.wait.or (some (kind, s.time)) else none
    .stall { s with core := { k with wait := mark } }

/-- A wait that ends. -/
def waitOver (s : State) : State := { s with core := { s.core with wait := none } }

/-! ## Peer reads that a word waits for -/

/-- A read of an A word through a peer window whose value the word needs. -/
inductive PeerRead where
  | waiting (s : State)
  | got (seen : Seen) (s : State)
  | fault (code : TrapCode) (va : Word) (s : State)

/-- The reply that the present word has taken for an address. -/
def replyFor (s : State) (va : Word) : Option Reply := (s.core.replyA.find? fun r => r.2 == va).map (·.1)

/-- The replies of the present word are used up. -/
def dropReplies (s : State) : State := { s with core := { s.core with replyA := [] } }

/-- The read is issued, waited for, or its reply is taken (R419, R423, R424). -/
def peerReadA (va : Word) (slot off n : Nat) (acq : Bool) (s : State) : PeerRead :=
  match replyFor s va with
  | some (.data bs miss) => .got ⟨bs, List.replicate n miss⟩ s
  | some r => .fault ((replyTrap r).getD .shuttleLoss) va (dropReplies s)
  | none =>
    if s.core.out.any (fun a => a.dest == .blockA) || peerWaits s false false false slot off n || overLimit s 1 then .waiting s
    else .waiting (issueAccess .blockA false (.load true) va slot off n [] (peerAcquires s false acq slot off) false s)

/-- WAIT.M (R77). -/
def execWaitM (sd sa : BitVec 6) (size : MemSize) (s : State) : Out :=
  aWord [sa, sd] [] s fun s =>
    let n := size.bytes
    let a := getS s sa
    let e := (getS s sd).toNat % 2 ^ (8 * n)
    let finish (seen : Seen) (s : State) : AOut :=
      let x := leNat seen.bytes
      if seen.miss.any id then .done (waitOver (setP 14 true (setS sd 0 s)))
      else if x ≠ e then .done (waitOver (setP 14 false (setS sd (w64 x) s)))
      else waitOn .waitM s
    let sites := strandSites s false false a n
    if a.toNat % n != 0 then .trap .misalign .a a s
    else if watchHit s a then .trap .watch .a a s
    else
      match peerOf sites with
      | some (slot, o) =>
        match peerReadA a slot o n true s with
        | .waiting s => waitOn .waitM s
        | .fault c va s => .trap c .a va s
        | .got seen s => finish seen (dropReplies s)
      | none =>
        if localWaits s false false a sites then .stall s
        else
          match readSites .load sites s with
          | .stop i c => .trap c .a (a + w64 i) s
          | .stall s => .stall s
          | .ok seen s => finish seen s

/-- SPIN (R73, R78). -/
def execSpin (s : State) : Out :=
  aWord [] [] s fun s =>
    match seamBefore s.core with
    | none => .trap .illegal .a 0 s
    | some x =>
      let since := match s.core.spin with
        | some (_, t) => t
        | none => s.time
      .done { s with core := { s.core with spin := some (x, since) } }

/-! ## SPAWN (R74) -/

/-- The record rules of SPAWN. -/
def spawnBad (r0 r1 r2 : Word) : Bool :=
  r0.extractLsb' 0 6 != 0 || r2.extractLsb' 0 12 != 0 || r2 == 0 || r1.extractLsb' 55 9 != 0 || r1.extractLsb' 22 26 != 0

/-- The bobbin that SPAWN creates. -/
def spawned (s : State) (sa : BitVec 6) : Bobbin :=
  let r (i : Nat) : Word := getS s (sa + BitVec.ofNat 6 i)
  let own := (boundEntry s).map (·.bob)
  let pri := (r 1).extractLsb' 48 7
  { code := r 0, seam := (r 1).extractLsb' 0 22, spn := true, state := .ready, pri := if pri < s.core.selPri then pri else s.core.selPri,
    qid := (own.map (·.qid)).getD 0, save := r 2, index := r 3, arg := r 4, sk0 := .none, sk1 := .none, ext := (own.map (·.ext)).getD 0,
    fault := 0, cause := 0, hold := 0xFF, nstop := 0 }

/-- SPAWN (R74). -/
def execSpawn (sd sa : BitVec 6) (s : State) : Out :=
  aWord (recordRegs sa 5) [] s fun s =>
    if spawnBad (getS s sa) (getS s (sa + 1)) (getS s (sa + 2)) then .trap .spawnRecord .a 0 s
    else if releaseWaits s then .stall s
    else
      match createBobbin (spawned s sa) s.core.launch s with
      | none => .done (setS sd 0 s)
      | some s => .done (setS sd 1 s)

/-! ## SUSPEND (R75, R79) -/

/-- The physical address that a monitor covers for a virtual one; none where the address is not resident, not translatable, a peer's or
the host's (R75). -/
def monitorAddr (s : State) (va : Word) : Option Nat :=
  let a := va.toNat
  let l := s.core.launch
  if ownWin ≤ a && a < ownWin + 0x200000 then some (coreBase + s.cur * 0x200000 + (a - ownWin))
  else if cluWin ≤ a && a < cluWin + 0x18000000 then
    if mayCore s (.launch l) ((a - cluWin) / 0x200000) then some (coreBase + (a - cluWin)) else none
  else if blockWin ≤ a && a < blockWin + 0x40000000 then
    if mayBlock s (.launch l) ((a - blockWin) / 0x4000) then some (blockBase + (a - blockWin)) else none
  else
    match virtSite s.whole l true false false va with
    | .mem pa => if hostBase ≤ pa then none else some pa
    | _ => none

/-- A bobbin in WATCH becomes READY at the back place (R67). -/
def wake (slot : Nat) (s : State) : State :=
  match poolEntry s slot with
  | some e => if e.bob.state == .watch then makeReady slot s else s
  | none => s

/-- The oldest monitor entry is reclaimed when the table is full (R79). -/
def reclaimMonitor (s : State) : State :=
  if s.monitors.length < Config.monitorEntries then s
  else
    match leastBy (·.order) s.monitors with
    | none => s
    | some m => wake m.slot { s with monitors := s.monitors.filter fun x => x.slot != m.slot }

/-- A monitor armed for the line that holds an address; one that can never be written counts as written at once (R75). -/
def armMonitor (slot : Nat) (va : Word) (s : State) : State :=
  let line := va &&& ~~~63
  let addrs := (List.range 64).filterMap fun i => monitorAddr s (line + w64 i)
  let s := reclaimMonitor (dropMonitor slot s)
  { s with monitors := s.monitors ++ [⟨slot, s.nextId, addrs, (monitorAddr s va).isNone⟩], nextId := s.nextId + 1 }

/-- SUSPEND (R75): s0 names no monitor, and a monitor armed before is given up (assumption 38: R75 says that a second SUSPEND replaces the
monitor). -/
def execSuspend (sa : BitVec 6) (s : State) : Out :=
  aWord [sa] [] s fun s =>
    match s.core.slot with
    | none => .done s
    | some slot =>
      if s.core.mseq == .faulted then .stay (loseStrand .seamIntegrity s)
      else if sa = 0 then .done (postStop 3 (dropMonitor slot s))
      else .done (postStop 4 (armMonitor slot (getS s sa) s))

/-! ## PAGEREQ (R315) -/

/-- PAGEREQ. -/
def execPagereq (sa : BitVec 6) (s : State) : Out :=
  aWord [sa] [] s fun s =>
    let a := getS s sa
    if canonical a && fixedWindow a.toNat then .done s
    else if !canonical a then .trap .prot .a a s
    else
      match extentAt s s.core.launch a.toNat with
      | none => .trap .prot .a a s
      | some e =>
        let i := (a.toNat - e.base) / pageSize e.psz
        match pageOf s e.back i with
        | none => .done s
        | some p =>
          if p.res || p.wanted.isSome then .done s
          else if Config.pageRequests ≤ pendingPages s then .stall s
          else .done (requestPage e.back i s)

end Sys2Proof.Machine
end

