-- ==== Sys2Proof/Machine/ASystem.lean ====
section
/-! DEFINITION. Control registers, tile descriptors and TRAP (R115 to R118, R140, R142, R167). -/

namespace Sys2Proof.Machine

open Sys2Proof

/-- Whether a clamp lowers a layer's clock (R142, R397). -/
def LayerClock.clamped (l : LayerClock) : Bool := l.clamp < l.ftgt && l.clamp < l.fceil

/-- The value of a control register (R115); a number without a register is refused at decode (R28). -/
def readControl (s : State) (n : Nat) : Word :=
  let k := s.core
  if n = 0 then w64 s.cur
  else if n = 1 then w64 (ownLabel s.fab)
  else if n = 2 then w64 s.time
  else if n = 3 then s.clkMx
  else if n = 4 then s.clkVx
  else if n = 5 then s.clkVault
  else if n = 6 then w64 (k.ctemp.toNat % 0x10000 + bit s.power.mx.clamped * 0x10000)
  else if n = 0x10 then k.srkey
  else if n = 0x11 then k.srctr
  else if n = 0x12 then k.aexc
  else if n = 0x13 then k.vexc
  else if n = 0x40 then k.evec
  else if n = 0x41 then k.ecause
  else if n = 0x42 then k.epc
  else if n = 0x43 then k.eval
  else if 0x18 ≤ n && n < 0x1C then (bank k.lc (BitVec.ofNat 2 (n - 0x18))).zeroExtend 64
  else if 0x20 ≤ n && n < 0x30 then bank k.tc (BitVec.ofNat 4 (n - 0x20))
  else if 0x80 ≤ n && n < 0x90 then bank k.ev (BitVec.ofNat 4 (n - 0x80))
  else if 0x90 ≤ n && n < 0xA0 then bank k.evsel (BitVec.ofNat 4 (n - 0x90))
  else 0

/-- Fields written plainly within `mask`. -/
def writeMasked (mask old new : Word) : Word := (old &&& ~~~mask) ||| (new &&& mask)

/-- Fields cleared by writing 1 within `mask`. -/
def writeClear (mask old new : Word) : Word := old &&& ~~~(new &&& mask)

/-- A write to c.evec; one that makes it nonzero in a handler re-arms it (R266). -/
def Core.writeEvec (k : Core) (x : Word) : Core :=
  { k with evec := x, rearmed := k.rearmed || (k.inHandler && k.evec == 0 && x != 0) }

/-- CRW's effect on a core (R115, R116, R140, R167); writes to RO registers and fields are ignored. -/
def Core.writeControl (k : Core) (n : Nat) (x : Word) : Core :=
  if n = 0x10 then { k with srkey := x }
  else if n = 0x11 then { k with srctr := x }
  else if n = 0x12 then { k with aexc := writeClear 0x100 (writeMasked 1 k.aexc x) x }
  else if n = 0x13 then { k with vexc := writeClear 0x1F (writeMasked 0x1F00 k.vexc x) x }
  else if n = 0x40 then k.writeEvec x
  else if 0x80 ≤ n && n < 0x90 then { k with ev := bankSet k.ev (BitVec.ofNat 4 (n - 0x80)) x }
  else if 0x90 ≤ n && n < 0xA0 then { k with evsel := bankSet k.evsel (BitVec.ofNat 4 (n - 0x90)) (x &&& 0xC0FF) }
  else k

/-- CRR -/
def execCrr (sd : BitVec 6) (num : BitVec 10) (s : State) : Out :=
  aWord [] [] s fun s => .done (setS sd (readControl s num.toNat) s)

/-- CRW -/
def execCrw (num : BitVec 10) (sa : BitVec 6) (s : State) : Out :=
  aWord [sa] [] s fun s => .done { s with core := s.core.writeControl num.toNat (getS s sa) }

/-! ## Tile descriptors (R117) -/

/-- Bits of an element of a type code. -/
def typeBits (t : Nat) : Nat :=
  match t with
  | 0 => 8
  | 1 => 16
  | 2 => 32
  | 3 => 64
  | 4 => 8
  | 5 => 16
  | 6 => 32
  | 7 => 64
  | 8 => 32
  | 9 => 16
  | 10 => 16
  | 11 => 8
  | 12 => 8
  | _ => 4

/-- Registers of a tile. -/
def tileRegs (kind rows cols ty : Nat) : Nat :=
  if kind = 1 then (steeringBytes rows + 1023) / 1024 else (rows * cols * typeBits ty + 8191) / 8192

/-- Whether a descriptor meets R117. -/
def descriptorOk (x : Word) : Bool :=
  let cols := (x.extractLsb' 48 16).toNat
  let rows := (x.extractLsb' 32 16).toNat
  let kind := (x.extractLsb' 20 4).toNat
  let ty := (x.extractLsb' 16 4).toNat
  let base := (x.extractLsb' 0 11).toNat
  x.extractLsb' 24 8 == 0 && x.extractLsb' 11 5 == 0 && 1 ≤ cols && 1 ≤ rows && base ≤ 1535 &&
    (if kind = 0 then ty != 15 else kind == 1 && ty == 0 && cols == 32 && (rows == 32 || rows == 64)) &&
      base + tileRegs kind rows cols ty ≤ 1536

/-- SETTC (R105, R117): every V and M instruction from here on sees the new value (DESIGN CHOICE, assumption 39). -/
def execSettc (t : BitVec 4) (sa : BitVec 6) (s : State) : Out :=
  aWord [sa] [] s fun s =>
    let x := getS s sa
    if descriptorOk x then .done { s with core := { s.core with tc := bankSet s.core.tc t x } } else .trap .illegalOp .a 0 s

/-- TRAP (R118): SOFT with the code in c.eval. -/
def execTrap (code : BitVec 10) (s : State) : Out := aWord [] [] s fun s => .trap .soft .a (code.zeroExtend 64) s

end Sys2Proof.Machine
end

