-- ==== Sys2Proof/Machine/ACluster.lean ====
section
/-! DEFINITION. Skeins, barriers and the merge-path unit (R84 to R86, R286 to R297). -/

namespace Sys2Proof.Machine

open Sys2Proof

/-- The membership word of the bound strand for an id. -/
def memberOf (b : Bobbin) (id : BitVec 16) : Bool := (b.sk0.valid && b.sk0.id == id) || (b.sk1.valid && b.sk1.id == id)

/-- A skein-id operand, or ILLEGAL_OP (R287). -/
def skeinId (x : Word) : Option (BitVec 16) := if x.extractLsb' 16 48 == 0 then some (x.extractLsb' 0 16) else none

/-- A word with a skein id, served by the directory for the bound strand. -/
def skeinWord (sd sa : BitVec 6) (s : State) (f : PoolEntry → BitVec 16 → State → AOut) : Out :=
  aWord [sa] [] s fun s =>
    match skeinId (getS s sa), boundEntry s with
    | none, _ => .trap .illegalOp .a 0 s
    | some _, none => .done (setS sd 0 s)
    | some id, some e => f e id s

/-- A membership word is taken (R288). -/
def takeMember (slot : Nat) (m : Member) (s : State) : State :=
  updBob slot (fun b => if b.sk0.valid then { b with sk1 := m } else { b with sk0 := m }) s

/-- JOIN (R288). -/
def execJoin (sd sa : BitVec 6) (s : State) : Out :=
  skeinWord sd sa s fun e id s =>
    if memberOf e.bob id then .done (setS sd 3 s)
    else if e.bob.sk0.valid && e.bob.sk1.valid then .done (setS sd 0 s)
    else
      match skeinOf s e.launch id with
      | some k =>
        let k := { k with members := k.members ++ [e.slot] }
        .done (setS sd 1 (takeMember e.slot ⟨id, true, true⟩ { s with skeins := updateFirst (skeinIs e.launch id) (fun _ => k) s.skeins }))
      | none =>
        if Config.skeinEntries ≤ s.skeins.length then .done (setS sd 2 s)
        else
          let k : Skein := ⟨e.launch, id, [e.slot], 0, [e.slot], [], [], none, []⟩
          .done (setS sd 1 (takeMember e.slot ⟨id, true, false⟩ { s with skeins := s.skeins ++ [k] }))

/-- The membership word of an id cleared (R289). -/
def clearMember (id : BitVec 16) (b : Bobbin) : Bobbin :=
  if b.sk0.valid && b.sk0.id == id then { b with sk0 := .none } else { b with sk1 := .none }

/-- LEAVE (R289). -/
def execLeave (sd sa : BitVec 6) (s : State) : Out :=
  skeinWord sd sa s fun e id s =>
    if !memberOf e.bob id then .done (setS sd 0 s)
    else if releaseWaits s then .stall s
    else .done (setS sd 1 (leaveSkein e.slot e.launch id (updBob e.slot (clearMember id) s)))

/-- A handle (R290). -/
def handleOf (s : State) (b : BitVec 10) : Word := w64 ((barGenOf s b).toNat * 65536 + b.toNat)

/-- The barrier of lowest number that no skein has (R292). -/
def freeBar (s : State) : Option (BitVec 10) :=
  let used := s.skeins.filterMap fun k => k.bar.map (·.toNat)
  if Config.barriers ≤ used.length then none else (leastFree (used.length + 1) 0 used).map (BitVec.ofNat 10)

/-- BAR.NEW (R292). -/
def execBarNew (sd : BitVec 6) (pk : BitVec 4) (sa : BitVec 6) (s : State) : Out :=
  skeinWord sd sa s fun e id s =>
    match if memberOf e.bob id then skeinOf s e.launch id else none with
    | none => .trap .illegalOp .a 0 s
    | some k =>
      let put (k : Skein) : State := { s with skeins := updateFirst (skeinIs e.launch id) (fun _ => k) s.skeins }
      match k.bar with
      | some b =>
        let refs := if k.refs.contains e.slot then k.refs else k.refs ++ [e.slot]
        .done (setP pk false (setS sd (handleOf s b) (put { k with refs := refs })))
      | none =>
        match freeBar s with
        | none => .done (setP pk true (setS sd 0 s))
        | some b => .done (setP pk false (setS sd (handleOf s b) (put { k with bar := some b, refs := [e.slot] })))

/-- The reserved bits of a handle are zero (R290). -/
def handleClean (h : Word) : Bool := h.extractLsb' 32 32 == 0 && h.extractLsb' 10 6 == 0

/-- The skein whose barrier a handle names, with the bound strand's reference (R290). -/
def handleSkein (s : State) (e : PoolEntry) (h : Word) : Option Skein :=
  let b := h.extractLsb' 0 10
  if handleClean h && h.extractLsb' 16 16 == barGenOf s b then
    s.skeins.find? fun k => k.bar == some b && k.members.contains e.slot && k.refs.contains e.slot
  else none

/-- A word with a handle; ILLEGAL_OP where it is not valid. -/
def handleWord (rd : List (BitVec 6)) (sa : BitVec 6) (s : State) (f : PoolEntry → Skein → State → AOut) : Out :=
  aWord (sa :: rd) [] s fun s =>
    match (boundEntry s).bind fun e => (handleSkein s e (getS s sa)).map fun k => (e, k) with
    | none => .trap .illegalOp .a 0 s
    | some (e, k) => f e k s

/-- BAR.ARV (R293). -/
def execBarArv (sd sa : BitVec 6) (s : State) : Out :=
  handleWord [] sa s fun e k s =>
    if releaseWaits s then .stall s
    else if k.parts.contains e.slot && !k.arrived.contains e.slot then
      .done (setS sd (k.phase.zeroExtend 64) (putSkein { k with arrived := k.arrived ++ [e.slot] } s))
    else if !k.parts.contains e.slot && !k.ahead.contains e.slot then
      .done (setS sd ((k.phase + 1).zeroExtend 64) (putSkein { k with ahead := k.ahead ++ [e.slot] } s))
    else .stall s

/-- BAR.WT (R294). -/
def execBarWt (sd sa sb : BitVec 6) (s : State) : Out :=
  handleWord [sb] sa s fun _ k s =>
    let w := getS s sb
    let past := (k.phase - w.extractLsb' 0 32).toNat
    if w.extractLsb' 32 32 != 0 then .trap .illegalOp .a 0 s
    else if 1 ≤ past && past ≤ 2 ^ 31 - 1 then .done (waitOver (setS sd (k.phase.zeroExtend 64) s))
    else waitOn .barWt s

/-- BAR.REL (R295). -/
def execBarRel (sa : BitVec 6) (s : State) : Out :=
  aWord [sa] [] s fun s =>
    let h := getS s sa
    if !handleClean h then .trap .illegalOp .a 0 s
    else
      match boundEntry s with
      | none => .done s
      | some e =>
        match handleSkein s e h with
        | none => .done s
        | some k => .done (dropRef e.slot k s)

/-! ## MPATH (R297) -/

/-- A read of the merge-path unit. -/
inductive PathRead where
  | value (x : Nat) (miss : Bool)
  | wait (s : State)
  | fault (code : TrapCode) (va : Word) (s : State)
  deriving DecidableEq, Repr

/-- One PLAIN read of 4 bytes. -/
def pathRead (s : State) (va : Word) : PathRead :=
  let sites := strandSites s false false va 4
  if watchHit s va then .fault .watch va s
  else
  match peerOf sites with
  | some (slot, o) =>
    match peerReadA va slot o 4 false s with
    | .waiting s => .wait s
    | .fault c a s => .fault c a s
    | .got seen _ => .value (leNat seen.bytes) (seen.miss.any id)
  | none =>
    if localWaits s false false va sites then .wait s
    else
      match readSites .load sites s with
      | .stop i c => .fault c (va + w64 i) s
      | .stall s => .wait s
      | .ok seen _ => .value (leNat seen.bytes) (seen.miss.any id)

/-- The bisection of R297; each step halves the interval. -/
def pathLoop (s : State) (base : Word) (first d : Nat) : Nat → Nat → Nat → Bool → PathRead
  | 0, lo, _, miss => .value lo miss
  | fuel + 1, lo, hi, miss =>
    if hi ≤ lo then .value lo miss
    else
      let piv := (lo + hi) / 2
      match pathRead s (base + w64 (4 * (piv + 1))) with
      | .value x m =>
        let e := (x + 2 ^ 32 - first) % 2 ^ 32
        if e + piv + 1 ≤ d then pathLoop s base first d fuel (piv + 1) hi (miss || m) else pathLoop s base first d fuel lo piv (miss || m)
      | r => r

/-- The split point on diagonal `d0` (R297), with the residency flag. -/
def pathPoint (s : State) (base : Word) (n d0 : Nat) : PathRead :=
  match pathRead s base with
  | .value first m0 =>
    match pathRead s (base + w64 (4 * n)) with
    | .value last m1 =>
      let nnz := (last + 2 ^ 32 - first) % 2 ^ 32
      let d := min d0 (n + nnz)
      match pathLoop s base first d 32 (d - nnz) (min d n) (m0 || m1) with
      | .value lo miss => .value ((d - lo) * 2 ^ 32 + lo) miss
      | r => r
    | r => r
  | r => r

/-- MPATH (R297). -/
def execMpath (sd sa sb : BitVec 6) (s : State) : Out :=
  aWord [sa, sa + 1, sb] [] s fun s =>
    let base := getS s sa
    let n := getS s (sa + 1)
    if n.extractLsb' 31 33 != 0 then .trap .illegalOp .a 0 s
    else if base.toNat % 4 != 0 then .trap .misalign .a base s
    else
      match pathPoint s base n.toNat (getS s sb).toNat with
      | .value x miss => .done (dropReplies (setP 14 miss (setS sd (if miss then -1 else w64 x) s)))
      | .wait s => .stall s
      | .fault c a s => .trap c .a a (dropReplies s)

end Sys2Proof.Machine
end

