-- ==== Sys2Proof/Machine/Flags.lean ====
section
/-! DEFINITION. The F-class modifier (R38), the flags of c.vexc (R167) and the one rounding of every V result (R147 to R152). -/

namespace Sys2Proof.Machine

open Sys2Proof

/-- Flags of R167, bits 4:0 of c.vexc. -/
abbrev VFlags := BitVec 5
abbrev fNV : VFlags := 1
abbrev fDZ : VFlags := 2
abbrev fOF : VFlags := 4
abbrev fUF : VFlags := 8
abbrev fNX : VFlags := 16

/-- A flag when a condition holds. -/
def flagIf (c : Bool) (f : VFlags) : VFlags := if c then f else 0

/-- An element of a result with the flags it raises. -/
structure El where
  bits : Nat
  fl : VFlags
  deriving DecidableEq, Repr

/-- A result that raises nothing. -/
def El.quiet (x : Nat) : El := ⟨x, 0⟩

/-- What the modifier of an F-class instruction selects (R38). -/
structure VMode where
  mode : BitVec 3
  sat : Bool
  ftz : Bool
  seq : Nat
  deriving DecidableEq, Repr

/-- Reading of the F-class modifier; ftz is bit 59 where the mode is not SR. -/
def modeOf (m : BitVec 12) : VMode :=
  let code := m.extractLsb' 9 3
  { mode := code, sat := m.getLsbD 8, ftz := code != 4 && m.getLsbD 7, seq := (m.extractLsb' 0 8).toNat }

/-- The mode of a code of R38 and R149; `z` gives the random bits of SR. -/
def modeCode (code : BitVec 3) (z : Unit → Nat) : Mode :=
  match code.toNat with
  | 1 => .rtz
  | 2 => .rdn
  | 3 => .rup
  | 4 => .sr (z ())
  | _ => .rne

/-- The format of a floating type (R146). -/
def vfmt (t : VTy) : Fmt :=
  match t with
  | .f16 => fp16
  | .bf16 => bf16
  | .e4m3 => e4m3
  | .e5m2 => e5m2
  | .e2m1 => e2m1
  | _ => fp32

/-- Whether an encoding is subnormal. -/
def Fmt.subnormal (f : Fmt) (x : Nat) : Bool :=
  let mag := x % 2 ^ (f.ebits + f.mbits)
  mag != 0 && mag < 2 ^ f.mbits

/-- The sign bit alone. -/
def Fmt.signOnly (f : Fmt) (x : Nat) : Nat := x / 2 ^ (f.ebits + f.mbits) % 2 * 2 ^ (f.ebits + f.mbits)

/-- A floating operand; with ftz a subnormal reads as a zero of its sign (R148). -/
def Fmt.read (f : Fmt) (ftz : Bool) (x : Nat) : Fl := if ftz && f.subnormal x then f.val (f.signOnly x) else f.val x

/-- The flags of a rounding (R167). -/
def Rounded.flags (r : Rounded) : VFlags := flagIf r.nx fNX ||| flagIf r.uf fUF ||| flagIf r.ov fOF

/-- The largest and least values of an integer type. -/
def intMax (signed : Bool) (w : Nat) : Int := if signed then 2 ^ (w - 1) - 1 else 2 ^ w - 1
def intMin (signed : Bool) (w : Nat) : Int := if signed then -2 ^ (w - 1) else 0

/-- A result of floating type: `anyNan` says that an operand was a NaN, which hides NVF (R147, R149, R167). A subnormal that ftz flushes
counts as inexact and underflowed (assumption 23). -/
def floatEl (f : Fmt) (mode : Mode) (sat ftz anyNan : Bool) (v : Fl) : El :=
  match v with
  | .nan => ⟨f.nan.getD 0, flagIf (!anyNan || f.nan.isNone) fNV⟩
  | _ =>
    let r := f.ofFl mode sat v
    let made := f.nan == some r.bits && !anyNan
    if ftz && f.subnormal r.bits then ⟨f.signOnly r.bits, fNX ||| fUF⟩ else ⟨r.bits, r.flags ||| flagIf made fNV⟩

/-- A result of integer type from its exact value: wrapped, or saturated with OFF (R144, R167). -/
def intEl (signed : Bool) (w : Nat) (sat : Bool) (x : Int) : El :=
  if sat then
    let y := satInt x (intMin signed w) (intMax signed w)
    ⟨patternOf w y, flagIf (y != x) fOF⟩
  else .quiet (patternOf w x)

/-- A floating value converted to an integer type: it saturates always, a NaN gives 0 (R152). Inexact when a fraction is lost, overflow when it
saturates; one does not bring the other (DESIGN CHOICE, assumption 103). -/
def toIntEl (signed : Bool) (w : Nat) (mode : Mode) (v : Fl) : El :=
  match v with
  | .nan => ⟨0, fNV⟩
  | .inf neg => ⟨patternOf w (if neg then intMin signed w else intMax signed w), fOF⟩
  | x =>
    match x.toInt mode with
    | none => .quiet 0
    | some (i, nx) =>
      let y := satInt i (intMin signed w) (intMax signed w)
      ⟨patternOf w y, flagIf (y != i) fOF ||| flagIf nx fNX⟩

/-- The integer that an element of integer type holds (R143). -/
def intVal (t : VTy) (x : Nat) : Int := if t.isSigned then signedOf t.bits x else (x % 2 ^ t.bits : Nat)

/-- The exact value of an element of any type. -/
def elVal (t : VTy) (ftz : Bool) (x : Nat) : Fl := if t.isFloat then (vfmt t).read ftz x else .ofInt (intVal t x)

/-- What an instruction needs to round element `i` of a result: its modifier and the stochastic key, counter and lane base. -/
structure Rounding where
  vm : VMode
  key : Word
  ctr : Word
  base : Nat
  deriving DecidableEq, Repr

/-- The rounding mode at an element (R150). -/
def Rounding.at (r : Rounding) (i : Nat) : Mode := modeCode r.vm.mode fun _ => srZ r.key r.ctr (r.base + i) r.vm.seq

/-- A result of type `t` at element `i`: one rounding, or the wrap or saturation of an integer (R144, R177). -/
def Rounding.float (r : Rounding) (t : VTy) (i : Nat) (anyNan : Bool) (v : Fl) : El :=
  floatEl (vfmt t) (r.at i) r.vm.sat r.vm.ftz anyNan v

def Rounding.int (r : Rounding) (t : VTy) (x : Int) : El := intEl t.isSigned t.bits r.vm.sat x

end Sys2Proof.Machine
end

