-- ==== Sys2Proof/Machine/Operands.lean ====
section
/-! DEFINITION. Operands of the V-stream (R31 to R41, R163 to R166), frames of the registers it names (R130), how a V instruction
ends (R168, R170), loops (R174), and strided runs one repetition at a time (R39, R204). -/

namespace Sys2Proof.Machine

open Sys2Proof

/-! ## Elements -/

/-- The low `n` fields of `w` bits of a value. -/
def splitBits (w : Nat) : Nat → Nat → List Nat
  | 0, _ => []
  | n + 1, x => x % 2 ^ w :: splitBits w n (x >>> w)

/-- Fields of `w` bits put together. -/
def joinBits (w : Nat) : List Nat → Nat
  | [] => 0
  | x :: rest => x % 2 ^ w + 2 ^ w * joinBits w rest

/-- The elements of type `t` of register images, in sequence (R163). -/
def els (t : VTy) (imgs : List Nat) : List Nat := imgs.flatMap (splitBits t.bits t.lanes)

/-- Lists cut into pieces of `n`, at most `fuel` of them. -/
def chunks {α : Type} (n : Nat) : Nat → List α → List (List α)
  | 0, _ => []
  | fuel + 1, xs => xs.take n :: chunks n fuel (xs.drop n)

/-- The register images of `cnt` registers of elements. -/
def images (t : VTy) (cnt : Nat) (xs : List Nat) : List Nat := (chunks t.lanes cnt xs).map (joinBits t.bits)

/-- The mask of an instruction after its sense (R37). -/
def cellsOf (f : VFields) (k : Core) : Mask := if f.sense then ~~~k.getM f.mask else k.getM f.mask

/-- Byte cell of an element (R37). -/
def cellOf (t : VTy) (i : Nat) : Nat := i * t.bits / 8

/-- Whether each element of a register is active (R37). -/
def activity (m : Mask) (t : VTy) : List Bool := (List.range t.lanes).map fun i => m.getLsbD (cellOf t i)

/-- Whether a byte cell belongs to an active element. -/
def activeCell (m : Mask) (t : VTy) (j : Nat) : Bool := m.getLsbD (j * 8 / t.bits * t.bits / 8)

/-! ## Register fields -/

/-- The fields of one repetition (R39); `vc` is vd in the forms that have no vc (R166). -/
structure Rep where
  no : Nat
  last : Bool
  vd : Nat
  va : Nat
  vb : Nat
  vc : Nat
  deriving DecidableEq, Repr

/-- A register field advanced by its stride. -/
def stride (r : BitVec 11) (by_ : BitVec 5) (i : Nat) : Nat := (r.toNat + by_.toInt * i).toNat

/-- Repetition `i` of an instruction (R39). -/
def repOf (f : VFields) (i : Nat) : Rep :=
  match f.ext with
  | .run vc sb sa sd count =>
    { no := i, last := decide (count.toNat ≤ i), vd := stride f.vd sd i, va := stride f.va sa i, vb := stride f.vb sb i, vc := vc.toNat }
  | _ => { no := i, last := true, vd := f.vd.toNat, va := f.va.toNat, vb := f.vb.toNat, vc := f.vd.toNat }

/-- A literal in elements of type `t` (R40). -/
def litVal (t : VTy) (v : BitVec 32) : Nat := if t == .i64 then (v.signExtend 64).toNat else v.toNat % 2 ^ t.bits

/-- An integer as a value of a type (R35). -/
def constInt (t : VTy) (x : Int) : Nat := if t.isFloat then (vfmt t).rne (.ofInt x) else patternOf t.bits x

/-- The largest and the least finite value of a type (R35). -/
def maxVal (t : VTy) : Nat := if t.isFloat then (vfmt t).top else patternOf t.bits (intMax t.isSigned t.bits)
def minVal (t : VTy) : Nat :=
  if t.isFloat then (vfmt t).signed true (vfmt t).top else patternOf t.bits (intMin t.isSigned t.bits)

/-- The element `i` of a constant source (R35). -/
def constVal (t : VTy) (sidx : Word) (r i : Nat) : Nat :=
  let row := 512 / t.bits
  let f := vfmt t
  let infinite := t.isFloat && f.inf
  match r with
  | 1553 => 2 ^ t.bits - 1
  | 1554 => constInt t (i % row : Nat)
  | 1555 => constInt t (i / row : Nat)
  | 1556 => constInt t i
  | 1557 => constInt t 1
  | 1558 => constInt t (-1)
  | 1559 => maxVal t
  | 1560 => minVal t
  | 1561 => if infinite then f.signed false (f.top + 1) else maxVal t
  | 1562 => if infinite then f.signed true (f.top + 1) else minVal t
  | 1563 => f.nan.getD 0
  | 1564 => f.rne (.fin false 1 (-1))
  | 1565 => constInt t sidx.toNat
  | _ => 0

/-- The bobbin index of the bound strand (R35). -/
def bobIndex (s : State) : Word := ((s.core.slot.bind (poolEntry s)).map fun e => e.bob.index).getD 0

/-- What a field is read with: the type of constants and literals (R33, R35, R40). -/
structure SrcEnv where
  ty : VTy
  lit : Option (BitVec 32)
  sidx : Word
  deriving DecidableEq, Repr

/-- Entries popped from a stream register; none while one of them has not arrived whole (R124). -/
def popQ (q : BitVec 4) : Nat → Core → Option (List Nat × Core)
  | 0, k => some ([], k)
  | n + 1, k =>
    match bank k.q q with
    | [] => none
    | e :: rest =>
      if e.ready then
        match popQ q n { k with q := bankSet k.q q rest } with
        | some (xs, k) => some (e.data.toNat :: xs, k)
        | none => none
      else none

/-- The stream register that a source field names. -/
def queueOf (r : Nat) : Option (BitVec 4) := if 1536 ≤ r && r < 1552 then some (BitVec.ofNat 4 (r - 1536)) else none

/-- Entries that have arrived leave a stream register for an instruction that pops more of them than it can hold (R124, R185). -/
def Core.takeEntries (k : Core) (q : BitVec 4) (cnt : Nat) : Core :=
  let got := ((bank k.q q).takeWhile (·.ready)).take (cnt - k.vpop.length)
  { k with vpop := k.vpop ++ got.map (·.data.toNat), q := bankSet k.q q ((bank k.q q).drop got.length) }

/-- The images that a source field gives: `cnt` registers (R34). -/
def fetch (e : SrcEnv) (r cnt : Nat) (k : Core) : Option (List Nat × Core) :=
  if r < 1536 then some ((List.range cnt).map fun i => (k.getV (r + i)).toNat, k)
  else if r < 1552 then
    if cnt ≤ 8 then popQ (BitVec.ofNat 4 (r - 1536)) cnt k
    else if k.vpop.length = cnt then some (k.vpop, { k with vpop := [] })
    else none
  else
    let x := match e.lit with
      | some v => if r = regLit.toNat then List.replicate e.ty.lanes (litVal e.ty v) else (List.range e.ty.lanes).map (constVal e.ty e.sidx r)
      | none => (List.range e.ty.lanes).map (constVal e.ty e.sidx r)
    some (List.replicate cnt (joinBits e.ty.bits x), k)

/-! ## How a V instruction ends -/

/-- The end of a V instruction or of one repetition: it is performed and raises flags; it continues at a target; it issues again later;
it raises a trap with no effect, or the fault of the LDQ whose entry it would pop (R424); or the sequencer stays as the state says (VHALT,
a marker that waits). -/
inductive VOut where
  | done (flags : VFlags) (s : State)
  | jump (target : Word) (s : State)
  | stall (s : State)
  | trap (code : TrapCode) (eval : Word)
  | faulted (code : TrapCode) (va : Word)
  | stay (s : State)

/-- The active loop that ends at an address, the one started last (R174). -/
def loopEnding (k : Core) (next : Word) : Option (BitVec 2) :=
  (leastBy (fun j => 2 ^ 64 - (bank k.vloop j).age)
    ([0#2, 1, 2, 3].filter fun j => (bank k.vloop j).active && (bank k.vloop j).fin == next))

/-- R174: falling through to `next` runs the loops that end there. -/
def fallThrough : Nat → Core → Word → Core × Word
  | 0, k, next => (k, next)
  | fuel + 1, k, next =>
    match loopEnding k next with
    | none => (k, next)
    | some j =>
      let l := bank k.vloop j
      if bank k.vlc j != 0 then ({ k with vlc := bankSet k.vlc j (bank k.vlc j - 1) }, l.start)
      else fallThrough fuel { k with vloop := bankSet k.vloop j { l with active := false } } next

/-- The V sequencer stops with a trap (R262). -/
def Core.vTrap (k : Core) (code : TrapCode) (epc eval resume : Word) : Core :=
  { k with
    vseq := .trapped resume, vtrap := some ⟨code, .v, epc, eval⟩, vrep := 0, vflags := 0, vacc := none,
    out := k.out.filter fun a => a.dest != .blockV }

/-- The same for a repetition that has issued (R141). -/
def Core.vStop (k : Core) (code : TrapCode) (eval : Word) : Core := (k.vTrap code k.vpc eval k.vpc).note 4 1

/-- Enables of c.vexc, bits 12:8 (R167). -/
def vEnables (k : Core) : VFlags := k.vexc.extractLsb' 8 5

/-- An instruction of `len` parcels at vpc is complete: its flags stick, and V_ARITH follows if one is enabled (R168). -/
def Core.vComplete (k : Core) (len : Nat) (fl : VFlags) : Core :=
  let pc := k.vpc
  let k := { k with vexc := k.vexc ||| fl.zeroExtend 64, vrep := 0, vflags := 0 }
  let (k, next) := fallThrough 5 k (pc + w64 (4 * len))
  let k := { k with vpc := next }
  if fl &&& vEnables k = 0 then k else k.vTrap .vArith pc (fl.zeroExtend 64) next

/-- The state after an instruction of `len` parcels; `last` tells whether this was its last repetition. A fault of an LDQ whose entry it pops is the
A-stream's (R260). -/
def finishV (len : Nat) (last : Bool) (s0 : State) : VOut → State
  | .done fl s =>
    let fl := s0.core.vflags ||| fl
    if last then { s with core := (s.core.vComplete len fl).note 4 1 }
    else { s with core := { s.core with vrep := s0.core.vrep + 1, vflags := fl }.note 4 1 }
  | .jump t s => { s with core := { s.core with vpc := t, vrep := 0, vflags := 0 }.note 4 1 }
  | .stall s => s
  | .trap c x => { s0 with core := s0.core.vStop c x }
  | .faulted c va =>
    let k := (s0.core.dropFaulted va).vStop c va
    { s0 with core := { k with vtrap := k.vtrap.map fun t => { t with stream := .a } } }
  | .stay s => s

/-- A V instruction of `len` parcels that no run repeats. -/
def vWord (len : Nat) (s : State) (body : State → VOut) : Out := .next (finishV len true s (body s))

/-! ## Registers in the core store -/

/-- The region of a register. -/
def unitOfReg (r : Nat) : Nat := r / 64

/-- Whether the frames of registers are there. -/
def Core.hasRegs (k : Core) (rs : List Nat) : Bool := rs.all fun r => k.units[unitOfReg r]? == some .own

/-- Claims of the frames of registers (R130). -/
def claimRegs (rs : List Nat) (s : State) : State := claimUnits (rs.map unitOfReg) s

/-- The address in the own-core window of the first poisoned line of registers that are read (R328, R329). -/
def poisonedReg (k : Core) (rs : List Nat) : Option Word :=
  if k.csPoison.isEmpty then none
  else ((rs.flatMap fun r => (List.range 16).map (r * 16 + ·)).find? (k.csPoison.contains ·)).map fun l => w64 (ownWin + 64 * l)

/-- An effect on registers: the frames of `rs` first, then the lines of `checked`, which are read (R130, R329). -/
def withFrames (rs checked : List Nat) (s : State) (body : State → VOut) : VOut :=
  if !s.core.hasRegs rs then .stall (claimRegs rs s)
  else
    match poisonedReg s.core checked with
    | some a => .trap .uncorr a
    | none => body s

/-- An effect on registers that are read and written. -/
def withRegs (rd wr : List Nat) (s : State) (body : State → VOut) : VOut := withFrames (rd ++ wr) rd s body

/-- Registers that a run reads before one of its repetitions has written them whole. -/
def runReads (f : VFields) (whole : Bool) (reads writes : Rep → List Nat) : List Nat :=
  let count := match f.ext with
    | .run _ _ _ _ c => c.toNat
    | _ => 0
  ((List.range (count + 1)).foldl
    (fun (acc : List Nat × List Nat) i =>
      let r := repOf f i
      (acc.1 ++ (reads r).filter (fun x => !acc.2.contains x), if whole then acc.2 ++ writes r else acc.2))
    ([], [])).1

/-- Registers that are checked for errors before a repetition: all that the run reads before its first one, so that a trap finds the run
without effect (R39, R262), none before the others. -/
def checkedRegs (f : VFields) (force : Bool) (reads writes : Rep → List Nat) (k : Core) : List Nat :=
  if k.vrep = 0 then runReads f (force || cellsOf f k == BitVec.allOnes 1024) reads writes else []

/-- Bytes of one register, by byte cell. -/
def putPairs (r : Nat) (pairs : List (Nat × Byte)) (s : State) : State :=
  (putSites (pairs.map fun p => Site.core s.cur (r * 0x400 + p.1)) (pairs.map (·.2)) none 0 s).1

/-- Bytes of one register, only those of the given cells. -/
def putCells (r : Nat) (cells : List Nat) (bs : List Byte) (s : State) : State :=
  putPairs r (((List.range 1024).zip bs).filter fun p => cells.contains p.1) s

/-- A register image written where the mask has active elements (R37). -/
def putReg (t : VTy) (m : Mask) (r img : Nat) (s : State) : State :=
  if m = BitVec.allOnes 1024 then putCore s.cur (r * 0x400) (leBytes 1024 img) s
  else putPairs r (((List.range 1024).zip (leBytes 1024 img)).filter fun p => activeCell m t p.1) s

/-- Consecutive registers written. -/
def putRegs (t : VTy) (m : Mask) : Nat → List Nat → State → State
  | _, [], s => s
  | r, img :: rest, s => putRegs t m (r + 1) rest (putReg t m r img s)

/-! ## Element instructions -/

/-- What the computation of one repetition sees: source images, the repetition, the mask, and the stochastic state. -/
structure VIn where
  a : List Nat
  b : List Nat
  c : List Nat
  cells : Mask
  rnd : Rounding
  deriving DecidableEq, Repr

/-- What it gives: elements of the destination with their flags. -/
abbrev VRes := List El

/-- How many registers each operand of an instruction has (R179, R185, R187), and in which type its constants and its destination are;
`force` writes every element whatever the mask (R164). -/
structure VShape where
  src : VTy
  dst : VTy
  na : Nat := 1
  nb : Nat := 0
  nc : Nat := 0
  nd : Nat := 1
  force : Bool := false
  deriving DecidableEq, Repr

/-- Registers of a field that names some. -/
def regsAt (r cnt : Nat) : List Nat := if r < 1536 then (List.range cnt).map (r + ·) else []

/-- The flags of the active elements (R164). -/
def gather (act : List Bool) (xs : VRes) : VFlags := (act.zip xs).foldl (fun f p => if p.1 then f ||| p.2.fl else f) 0

/-- The three sources, popped in the order va, vb, vc (R41). -/
def fetch3 (e : SrcEnv) (sh : VShape) (r : Rep) (k : Core) : Option (List Nat × List Nat × List Nat × Core) :=
  match fetch e r.va sh.na k with
  | none => none
  | some (a, k) =>
    match fetch e r.vb sh.nb k with
    | none => none
    | some (b, k) =>
      match fetch e r.vc sh.nc k with
      | none => none
      | some (c, k) => some (a, b, c, k)

/-- The fault of an LDQ whose entry is among the next `n` of a stream register (R424). -/
def Core.entryFault (k : Core) (q : BitVec 4) (n : Nat) : Option (TrapCode × Word) :=
  ((bank k.q q).take n).findSome? fun e => if e.ready then none else replyFault (k.outFor fun d => d == .ldq q e.id)

/-- Whether an instruction takes more entries of a stream register than it holds. -/
def takesMany (sh : VShape) (r : Rep) : Option (BitVec 4) := if 8 < sh.na then queueOf r.va else none

/-- Why an instruction does not find its sources: the fault of an entry it would pop, before its first repetition (R262, R424), or a wait for
an entry. -/
def missing (sh : VShape) (r : Rep) (s : State) : VOut :=
  let pops := [(sh.na, r.va), (sh.nb, r.vb), (sh.nc, r.vc)].filterMap fun p => (queueOf p.2).map (·, p.1)
  let taken (q : BitVec 4) : Nat := pops.foldl (fun n p => if p.1 == q then n + p.2 else n) 0
  match if s.core.vrep = 0 then pops.findSome? fun p => s.core.entryFault p.1 (taken p.1) else none with
  | some (c, va) => .faulted c va
  | none =>
    match takesMany sh r with
    | some q => .stall { s with core := s.core.takeEntries q sh.na }
    | none => .stall s

/-- Sources fetched for one repetition, or a wait for an entry. -/
def withSources (f : VFields) (sh : VShape) (r : Rep) (s : State) (body : VIn → State → VOut) : VOut :=
  match fetch3 ⟨sh.src, f.literal, bobIndex s⟩ sh r s.core with
  | none => missing sh r s
  | some (a, b, c, k) =>
    body ⟨a, b, c, cellsOf f k, ⟨modeOf f.modifier, k.srkey, k.srctr, 2048 * r.no⟩⟩ { s with core := k }

/-- Registers that the sources of a repetition name. -/
def readsOf (sh : VShape) (r : Rep) : List Nat := regsAt r.va sh.na ++ regsAt r.vb sh.nb ++ regsAt r.vc sh.nc

/-- An instruction that computes the elements of its destination registers, one repetition of it (R39, R177). -/
def elementWord (len : Nat) (f : VFields) (sh : VShape) (compute : VIn → VRes) (s : State) : Out :=
  let r := repOf f s.core.vrep
  .next (finishV len r.last s
    (withFrames (readsOf sh r ++ regsAt r.vd sh.nd) (checkedRegs f sh.force (readsOf sh) (fun r => regsAt r.vd sh.nd) s.core) s fun s =>
      withSources f sh r s fun i s =>
        let xs := compute i
        let m := if sh.force then BitVec.allOnes 1024 else i.cells
        let act := (List.replicate sh.nd (activity m sh.dst)).flatten
        .done (gather act xs) (putRegs sh.dst m r.vd (images sh.dst sh.nd (xs.map (·.bits))) s)))

/-- An instruction that writes a mask register (R181 to R183). -/
def maskWord (len : Nat) (f : VFields) (sh : VShape) (compute : VIn → List Bool) (s : State) : Out :=
  let r := repOf f s.core.vrep
  .next (finishV len r.last s
    (withFrames (readsOf sh r) (checkedRegs f false (readsOf sh) (fun _ => []) s.core) s fun s =>
      withSources f sh r s fun i s =>
        let mk := f.vd.extractLsb' 0 4
        let w := sh.src.bits / 8
        let xs := compute i
        let cells := xs.flatMap (List.replicate w)
        let val : Mask := BitVec.ofNat 1024 (joinBits 1 (cells.map bit))
        let on : Mask := BitVec.ofNat 1024 (joinBits 1 ((activity i.cells sh.src).flatMap fun b => List.replicate w (bit b)))
        .done 0 { s with core := s.core.setM mk ((s.core.getM mk &&& ~~~on) ||| (val &&& on)) }))

/-- Parcels of a long instruction (R31). -/
def longLen (f : VFields) : Nat :=
  match f.ext with
  | .none => 2
  | _ => 3

/-- The long form of a short cell: vd := op(va), and vd := vd op va (R32). -/
def shortUnary (t : VTy) (vd va : BitVec 11) : VFields := ⟨0, 0, va, vd, false, 0, t, .none⟩
def shortBinary (t : VTy) (vd va : BitVec 11) : VFields := ⟨0, va, vd, vd, false, 0, t, .none⟩

end Sys2Proof.Machine
end

