-- ==== Sys2Proof/Machine/Steering.lean ====
section
/-! DEFINITION. Code tiles, the Bolter's sort, steering tiles and the Quern step as functions of bytes (R156 to R158, R205 to R213). -/

namespace Sys2Proof.Machine

open Sys2Proof

/-! ## Bytes as numbers -/

/-- Byte `i` of a list, zero past its end. -/
def byteAt (bs : List Byte) (i : Nat) : Nat := (bs[i]?.getD 0).toNat

/-- Consecutive groups of four bytes as numbers. -/
def u32s : List Byte → List Nat
  | a :: b :: c :: d :: rest => leNat [a, b, c, d] :: u32s rest
  | _ => []

/-! ## The Bolter (R208) -/

/-- Bytes of a code tile of width `b` (R156). -/
def codeTileBytes (b : Nat) : Nat := 128 * b + 32 * 2 ^ b + 1

/-- The codes of column `j`, rows 0 to 31. -/
def codesOf (b : Nat) (tile : List Byte) (j : Nat) : List Nat :=
  splitBits b 32 (leNat ((tile.drop (4 * b * j)).take (4 * b)))

/-- The codebook of column `j`. -/
def bookOf (b : Nat) (tile : List Byte) (j : Nat) : List Nat :=
  (List.range (2 ^ b)).map fun c => byteAt tile (128 * b + j * 2 ^ b + c)

/-- The rows of each code 0 to 7, ascending, those of codeword 0x00 left out. -/
def segments (book codes : List Nat) : List (List Nat) :=
  (List.range 8).map fun c =>
    if book[c]?.getD 0 = 0 then [] else (((List.range codes.length).zip codes).filter fun p => p.2 == c).map (·.1)

/-- Running totals of lengths: B[0] to B[7]. -/
def bounds : Nat → List (List Nat) → List Nat
  | _, [] => []
  | n, s :: rest => (n + s.length) :: bounds (n + s.length) rest

/-- A column record from its segments (R207). -/
def columnRecord (d : Nat) (segs : List (List Nat)) : List Byte :=
  let w := if d = 64 then 6 else 5
  leBytes d (joinBits 7 (bounds 0 segs) + 2 ^ 56 * joinBits w segs.flatten)

/-- The codes of column `j` over one or two code tiles. -/
def allCodes (b : Nat) (tiles : List (List Byte)) (j : Nat) : List Nat := tiles.flatMap fun t => codesOf b t j

/-- Whether the tiles of a pair have equal codebooks and equal T (R209). -/
def pairAgrees (b : Nat) (tiles : List (List Byte)) : Bool :=
  match tiles with
  | [t, u] => ((t.drop (128 * b)).take (32 * 2 ^ b + 1)) == ((u.drop (128 * b)).take (32 * 2 ^ b + 1))
  | _ => true

/-- The steering tile of one code tile, or of two at depth 64 (R205 to R208). -/
def boltTile (b : Nat) (tiles : List (List Byte)) : List Byte :=
  let d := if tiles.length = 2 then 64 else 32
  let head := tiles.head?.getD []
  let cols := (List.range 32).map fun j => segments (bookOf b head j) (allCodes b tiles j)
  let nz := cols.foldl (fun n c => n + (c.map List.length).foldl (· + ·) 0) 0
  let books := (List.range 32).flatMap fun j => (List.range 8).map fun c => BitVec.ofNat 8 ((bookOf b head j)[c]?.getD 0)
  let t := byteAt head (128 * b + 32 * 2 ^ b)
  let header := books ++ [BitVec.ofNat 8 t, BitVec.ofNat 8 (b + (if d = 64 then 4 else 0))] ++ leBytes 2 nz ++ List.replicate 764 0
  header ++ cols.flatMap (columnRecord d)

/-- What the Bolter writes for one tile: the tile, or bytes left open where a pair disagrees (R209, R245). -/
def boltOut (b : Nat) (tiles : List (List Byte)) (fresh : Nat) : List Byte × Bool :=
  if pairAgrees b tiles then (boltTile b tiles, true)
  else ((List.range (steeringBytes 64)).map (Config.boltPartial fresh), false)

/-! ## Reading of a steering tile -/

/-- A column record's boundary list and row indices (R207). -/
def columnOf (d : Nat) (tile : List Byte) (j : Nat) : List Nat × List Nat :=
  let x := leNat ((tile.drop (1024 + d * j)).take d)
  (splitBits 7 8 x, splitBits (if d = 64 then 6 else 5) d (x >>> 56))

/-- A steering tile as read. -/
structure Steer where
  cw : Nat
  d64 : Bool
  t : Nat
  nz : Nat
  books : List (List Nat)
  cols : List (List Nat × List Nat)
  deriving DecidableEq, Repr

/-- The fields of a tile, its column records read at depth `d` (R206). -/
def steerOf (d : Nat) (tile : List Byte) : Steer where
  cw := byteAt tile 257 % 4
  d64 := byteAt tile 257 / 4 % 2 == 1
  t := byteAt tile 256
  nz := leNat ((tile.drop 258).take 2)
  books := (List.range 32).map fun j => (List.range 8).map fun c => byteAt tile (8 * j + c)
  cols := (List.range 32).map (columnOf d tile)

/-- The last boundary of a column: its entry count. -/
def countOf (b : List Nat) : Nat := b[7]?.getD 0

/-- Boundaries that fall, pass d, or differ past the codes in use (check 7 of R213). -/
def boundsBad (d cw : Nat) (b : List Nat) : Bool :=
  (List.range 7).any (fun c => b[c + 1]?.getD 0 < b[c]?.getD 0) || d < countOf b ||
    (List.range 8).any (fun c => decide (2 ^ cw ≤ c) && b[c]?.getD 0 != b[2 ^ cw - 1]?.getD 0)

/-- Checks 5 to 9 of R213. -/
def steerBad (x : Steer) (d : Nat) (e4 : Bool) : Bool :=
  x.cw == 0 || (x.d64 != (d == 64)) || x.t == 0xFF ||
    (e4 && x.books.any fun b => (b.take (2 ^ x.cw)).any fun w => w == 0x7F || w == 0xFF) ||
      x.cols.any (fun c => boundsBad d x.cw c.1) || x.cols.any (fun c => (c.2.take (countOf c.1)).any (d ≤ ·)) ||
        x.nz != x.cols.foldl (fun n c => n + countOf c.1) 0

/-! ## Slots -/

/-- Bytes of a slot's rows and of its scales. -/
def slotRow (g : GatherSlot) (r : Nat) : List Byte := leBytes 256 (g.rows.toNat >>> (2048 * r))
def slotScale (g : GatherSlot) (h l : Nat) : Nat := (g.scales.toNat >>> (8 * (512 * h + l))) % 256

/-- Twice the value of an E2M1 code: an integer (R157). -/
def twiceE2m1 (x : Nat) : Int :=
  match e2m1.val x with
  | .fin n m e => let y : Int := m * 2 ^ (e + 1).toNat; if n then -y else y
  | _ => 0

/-- The integers of a row by lane kind: I8, F4, I4 (R157). -/
def laneInts (kind : Nat) (row : List Byte) : List Int :=
  if kind = 1 then row.map BitVec.toInt
  else if kind = 2 then (splitBits 4 256 (leNat (row.take 128))).map twiceE2m1
  else (splitBits 4 512 (leNat row)).map fun x => signedOf 4 x

/-! ## The step (R158, R212) -/

/-- The value of a codeword times 2^9 for E4M3, times 1 for INT8. -/
def codeword (e4 : Bool) (w : Nat) : Int :=
  if e4 then match e4m3.val w with
    | .fin n m e => let y : Int := m * 2 ^ (e + 9).toNat; if n then -y else y
    | _ => 0
  else signedOf 8 w

/-- Lanes added up. -/
def addLanes (a b : List Int) : List Int := List.zipWith (· + ·) a b

/-- The entries of each code of a column: rows B[c − 1] to B[c] − 1 of P. -/
def entriesOf (col : List Nat × List Nat) (c : Nat) : List Nat :=
  let lo := if c = 0 then 0 else col.1[c - 1]?.getD 0
  (col.2.drop lo).take (col.1[c]?.getD 0 - lo)

/-- The codes of a column's entries in a step, in order: segments under a zero codeword are left out (R216). -/
def stepCodes (e4 : Bool) (book : List Nat) (col : List Nat × List Nat) : List Nat :=
  ((List.range 8).filter fun c => codeword e4 (book[c]?.getD 0) != 0).flatMap fun c => (entriesOf col c).map fun _ => c

/-- The cycles that a group of entries takes beyond one: it belongs to k codes and takes max(1, k − 1) (R216). -/
def groupPenalty (codes : List Nat) : Nat := max 1 (codes.eraseDups.length - 1) - 1

/-- The entries that a step consumes, and the penalty of the groups that reach over code boundaries (R141, R216). -/
def Steer.entries (x : Steer) (e4 : Bool) : Nat := (x.books.zip x.cols).foldl (fun n p => n + (stepCodes e4 p.1 p.2).length) 0
def Steer.penalty (x : Steer) (e4 : Bool) : Nat :=
  (x.books.zip x.cols).foldl
    (fun n p =>
      let codes := stepCodes e4 p.1 p.2
      n + ((chunks 4 ((codes.length + 3) / 4) codes).map groupPenalty).sum) 0

/-- Its buckets: segments that are not empty, under a codeword that is not zero (R217). -/
def Steer.buckets (x : Steer) (e4 : Bool) : Nat :=
  (x.books.zip x.cols).foldl
    (fun n p => n + ((List.range 8).filter fun c => codeword e4 (p.1[c]?.getD 0) != 0 && !(entriesOf p.2 c).isEmpty).length) 0

/-- The exact integers P of a column, one a lane (R158). -/
def columnSums (e4 : Bool) (rows : List (List Int)) (lanes : Nat) (book : List Nat) (col : List Nat × List Nat) : List Int :=
  (List.range 8).foldl
    (fun acc c =>
      let w := codeword e4 (book[c]?.getD 0)
      let es := entriesOf col c
      if w = 0 || es.isEmpty then acc
      else
        let bucket := es.foldl (fun b r => addLanes b (rows[r]?.getD [])) (List.replicate lanes 0)
        addLanes acc (bucket.map (· * w)))
    (List.replicate lanes 0)

/-- A partial in FP32 (R158). -/
def partialOf (e4 : Bool) (t scale f : Nat) (p : Int) : Nat :=
  if scale = 0xFF then 0x7FC00000
  else fp32.rne ((Fl.ofInt p).scale ((t : Int) - 127 + ((scale : Int) - 127 - f) - (if e4 then 9 else 0)))

/-- An element that receives a partial (R158). -/
def accumulate (clr : Bool) (old new : Nat) : Nat := if clr then new else fp32.rne (Fl.sum false [fp32.val old, fp32.val new])

/-- The partials of every column, lane by lane (R212). -/
def quernPartials (e4 : Bool) (g : GatherSlot) (d : Nat) (x : Steer) : List (List Nat) :=
  let kind := g.kind.toNat
  let lanes := if kind = 3 then 512 else 256
  let rows := (List.range d).map fun r => laneInts kind (slotRow g r)
  let scales := (List.range lanes).map (slotScale g 0)
  let f := if kind = 2 then 1 else 0
  (x.books.zip x.cols).map fun (book, col) =>
    List.zipWith (fun s p => partialOf e4 x.t s f p) scales (columnSums e4 rows lanes book col)

end Sys2Proof.Machine
end

