-- ==== Sys2Proof/Machine/MWord.lean ====
section
/-! DEFINITION. How M words start, what they read and write, and how they end (R44 to R47, R222 to R230). -/

namespace Sys2Proof.Machine

open Sys2Proof

/-! ## Faults (R225) -/

/-- Kinds of fault entries. -/
abbrev mIllegal : Nat := 1
abbrev mIllegalOp : Nat := 2
abbrev mFormat : Nat := 3
abbrev mQueue : Nat := 4
abbrev mSemOvf : Nat := 5
abbrev mBrk : Nat := 6
abbrev mUncorr : Nat := 7

/-- Offset of the M word at mpc in the M section (R224). -/
def Core.mOffset (k : Core) : BitVec 32 := (k.mpc - imgBase - w64 k.secM.off).setWidth 32

/-- The payload of a fault entry. -/
def mFaultPayload (off : BitVec 32) (kind count : Nat) : Word := w64 (off.toNat + kind * 2 ^ 32 + count * 2 ^ 40)

/-- The sequencer stops with a fault entry; a word that faults at its start waits for the earlier words (R225). -/
def Core.mFaultAt (k : Core) (off : BitVec 32) (kind count : Nat) : Core :=
  { k with rq := k.rq ++ [⟨true, mFaultPayload off kind count⟩], mseq := if kind = mBrk then .brk else .faulted }

/-- A fault of the word at mpc. -/
def Core.mStop (k : Core) (kind count : Nat) : Core :=
  if k.mflight.isEmpty then k.mFaultAt k.mOffset kind count else k

/-! ## Locators (R47, R228) -/

/-- An operand of a word. -/
inductive Arg where
  | none
  | at (a : Nat)
  | tile (x : Word)
  deriving DecidableEq, Repr

/-- Taking an operand: it waits for an entry, is one, or the word faults. -/
inductive Popped where
  | wait
  | fault (kind : Nat) (k : Core)
  | ok (a : Arg) (k : Core)

/-- The operand of a locator; a popped one is checked as R47 gives. -/
def popArg (col : LocCol) (x : BitVec 32) (k : Core) : Popped :=
  match locOf x with
  | some (.csa a) => .ok (.at a.toNat) k
  | some (.td t) => .ok (.tile (bank k.tc t)) k
  | some (.mq q) =>
    match bank k.mq q with
    | [] => .wait
    | e :: rest =>
      let k := { k with mq := bankSet k.mq q rest }
      if e.extractLsb' 32 32 != 0 then .fault mQueue k
      else
        match locOf (e.extractLsb' 0 32) with
        | some (.csa a) => if col.s && a.extractLsb' 0 6 == 0 then .ok (.at a.toNat) k else .fault mIllegalOp k
        | some (.td t) => if col.t then .ok (.tile (bank k.tc t)) k else .fault mIllegalOp k
        | _ => .fault mQueue k
  | _ => .ok .none k

/-- Whether every MQ locator of a word can pop an entry (R222). -/
def canPop (f : MFields) (k : Core) : Bool :=
  let qs := [f.locA, f.locB, f.locC].filterMap fun x => match locOf x with
    | some (.mq q) => some q
    | _ => Option.none
  qs.all fun q => (qs.filter (· == q)).length ≤ (bank k.mq q).length

/-- The three operands of a word. -/
structure MArgs where
  a : Arg
  b : Arg
  c : Arg
  deriving DecidableEq, Repr

/-- Operands taken in the order A, B, C; a fault leaves the later ones (R47). -/
def popArgs (ca cb cc : LocCol) (f : MFields) (k : Core) : Except (Nat × Core) (MArgs × Core) :=
  match popArg ca f.locA k with
  | .wait => .error (mQueue, k)
  | .fault n k => .error (n, k)
  | .ok a k =>
    match popArg cb f.locB k with
    | .wait => .error (mQueue, k)
    | .fault n k => .error (n, k)
    | .ok b k =>
      match popArg cc f.locC k with
      | .wait => .error (mQueue, k)
      | .fault n k => .error (n, k)
      | .ok c k => .ok (⟨a, b, c⟩, k)

/-! ## The start of a word (R222) -/

/-- What a started word leaves in flight. -/
structure MStart where
  reply : Option Word := none
  fence : Bool := false
  drain : Bool := false
  qstep : Bool := false
  slot : Option (BitVec 2) := none
  deriving DecidableEq, Repr

/-- The end of a word's start: it has its effect and is in flight, waits for a resource (and asks for it), or faults without an effect or
with the part of it that stands; the field of a BRK entry is `count`. -/
inductive MEnd where
  | start (s : State) (w : MStart)
  | stall (s : State)
  | fault (kind : Nat) (count : Nat)
  | broke (kind : Nat) (s : State)

/-- Entries of rq that started words have reserved (R122). -/
def Core.reserved (k : Core) : Nat := (k.mflight.filter fun w => w.reply.isSome).length

/-- The reply that the RPLY flag asks for (R224). -/
def plainReply (k : Core) (op : BitVec 8) : Word := w64 (k.mOffset.toNat + op.toNat * 2 ^ 32)

/-- Whether a word still waits for its semaphore (R45); a wait that has been satisfied is over (R127). -/
def mWaits (f : MFields) (k : Core) : Bool := !k.metM && f.waitThr != 0 && bank k.sem f.waitSem < f.waitThr

/-- A word after the sequencer has it: `always` marks a word that replies without the flag; the body sees the popped operands and moves
mpc itself where it does not go to the next word. -/
def mWord (op : BitVec 8) (always : Bool) (ca cb cc : LocCol) (f : MFields) (s : State) (body : MArgs → State → MEnd) : Out :=
  let k := s.core
  .next
    (if k.mflight.any (fun w => w.fence || w.drain) || mWaits f k || !canPop f k ||
        ((f.rply || always) && 15 ≤ k.rq.length + k.reserved) then s
     else
       match popArgs ca cb cc f k with
       | .error (n, k') => { s with core := if k.mflight.isEmpty then k'.mStop n 0 else k }
       | .ok (args, k') =>
         match body args s with
         | .stall s => s
         | .fault n c => { s with core := if k.mflight.isEmpty then k'.mStop n c else k }
         | .broke n s' => if k.mflight.isEmpty then { s' with core := { s'.core with mq := k'.mq }.mStop n 0 } else s
         | .start s w =>
           let reply := w.reply.or (if f.rply then some (plainReply k op) else none)
           let x : MFlight := ⟨k.mOffset, op, f.sigSem, f.sigInc, reply, w.fence, w.drain, w.qstep, w.slot⟩
           { s with core := { s.core with mq := k'.mq, mflight := s.core.mflight ++ [x], metM := false }.note 5 1 })

/-- The word after the one at mpc follows. -/
def mNext (s : State) : State := { s with core := { s.core with mpc := s.core.mpc + 24 } }

/-- A word without an end of its own has started: its wait is over (R127), and it is counted (R141). -/
def mStarted (s : State) : State := { s with core := { s.core with metM := false }.note 5 1 }

/-! ## Core store and accumulator store -/

/-- Whether a byte range lies in the core store (R229). -/
def inStore (r : Nat × Nat) : Bool := r.1 + r.2 ≤ 0x200000

/-- Whether two byte ranges overlap. -/
def rangesMeet (x y : Nat × Nat) : Bool := x.1 < y.1 + y.2 && y.1 < x.1 + x.2

/-- Regions that ranges touch, and the units of accumulator tiles. -/
def unitsTouched (rs : List (Nat × Nat)) (ys : List Nat) : List Nat :=
  ((List.range 32).filter fun u => rs.any fun r => rangesMeet r (u * 0x10000, 0x10000)) ++ ys.map (32 + ·)

/-- Whether a range of a store has a poisoned line. -/
def poisoned (lines : List Nat) (r : Nat × Nat) : Bool := lines.any fun l => rangesMeet r (64 * l, 64)

/-- A word that reads and writes ranges of the core store and tiles: ranges checked (R229), frames there (R130), errors in what it reads
(R225). -/
def mStore (rd wr : List (Nat × Nat)) (yr yw : List Nat) (s : State) (body : Unit → MEnd) : MEnd :=
  let k := s.core
  if !(rd ++ wr).all inStore then .fault mIllegalOp 0
  else
    let us := unitsTouched (rd ++ wr) (yr ++ yw)
    if !us.all (fun u => k.units[u]? == some .own) then .stall (claimUnits us s)
    else if rd.any (poisoned k.csPoison) || yr.any (fun y => poisoned k.accPoison (y * 0x8000, 0x8000)) then
      .broke mUncorr (((k.csPoison.find? fun l => rd.any (poisoned [l])).map fun l => metUncorrCore (64 * l) s).getD s)
    else body ()

/-- Bytes of the core store. -/
def Core.csBytes (k : Core) (a n : Nat) : List Byte := memBytes n a k.cs

/-- The elements of an accumulator tile, element (j, m) at 256j + m (R212). -/
def Core.getY (k : Core) (y : Nat) : List Nat := u32s (memBytes 0x8000 (y * 0x8000) k.acc)

/-- An accumulator tile written whole (R272, R328). -/
def Core.putY (k : Core) (y : Nat) (xs : List Nat) : Core :=
  { k with
    acc := memPut k.acc (y * 0x8000) (xs.flatMap (leBytes 4)), accPoison := heal (y * 0x8000) 0x8000 k.accPoison,
    fresh := k.fresh &&& ~~~(1#40 <<< (32 + y)) }

def putY (y : Nat) (xs : List Nat) (s : State) : State := { s with core := s.core.putY y xs }

/-- Address of a CSA operand. -/
def Arg.addr : Arg → Nat
  | .at a => a
  | _ => 0

/-! ## Descriptors (R117, R230) -/

/-- A tile descriptor. -/
structure Desc where
  cols : Nat
  rows : Nat
  kind : Nat
  ty : Nat
  base : Nat
  deriving DecidableEq, Repr

/-- The fields of tck. -/
def descOf (x : Word) : Desc :=
  ⟨(x.extractLsb' 48 16).toNat, (x.extractLsb' 32 16).toNat, (x.extractLsb' 20 4).toNat, (x.extractLsb' 16 4).toNat,
    (x.extractLsb' 0 11).toNat⟩

/-- A written data tile. -/
def Desc.isData (d : Desc) : Bool := d.kind == 0 && d.cols != 0 && d.rows != 0

/-- The bytes that a data tile occupies. -/
def Desc.range (d : Desc) : Nat × Nat := (d.base * 0x400, (d.rows * d.cols * typeBits d.ty + 7) / 8)

/-- Where a steering tile of depth `d` lies: a KIND 1 descriptor of that depth (any depth where none is asked), or an address (R241). -/
def steerAt (d : Option Nat) : Arg → Option Nat
  | .at a => some a
  | .tile x =>
    let t := descOf x
    if t.kind = 1 && (match d with | some n => t.rows == n | none => t.rows != 0) then some (t.base * 0x400) else none
  | .none => none

/-- The slot that holds a tag and is FILLING or FILLED (R236). -/
def findSlot (k : Core) (tag : Nat) : Option (BitVec 2) :=
  [0#2, 1, 2, 3].find? fun i =>
    let g := bank k.gather i
    g.tag == tag && (g.st == .filling || g.st == .filled)

/-- The lowest EMPTY slot, a fault where none can become EMPTY, or a wait (R237). -/
inductive FreeSlot where
  | some (i : BitVec 2)
  | never
  | later
  deriving DecidableEq, Repr

def freeSlotOf (k : Core) : FreeSlot :=
  match [0#2, 1, 2, 3].find? fun i => (bank k.gather i).st == .empty with
  | Option.some i => .some i
  | none => if k.gather.toList.any (·.st == .releasing) then .later else .never

/-- A slot with nothing in it. -/
def GatherSlot.none : GatherSlot := ⟨.empty, 0, 0, false, 0, 0⟩

/-- A slot changed. -/
def Core.setSlot (k : Core) (i : BitVec 2) (g : GatherSlot) : Core := { k with gather := bankSet k.gather i g }

end Sys2Proof.Machine
end

