-- ==== Sys2Proof/Machine/MControl.lean ====
section
/-! DEFINITION. Control words of the M-stream (R231 to R235, R458). -/

namespace Sys2Proof.Machine

open Sys2Proof

/-- A word without operands that goes on to the next word. -/
def mPlain (op : BitVec 8) (w : MStart) (f : MFields) (s : State) : Out :=
  mWord op false colN colN colN f s fun _ s => .start (mNext s) w

def execMnop (f : MFields) (s : State) : Out := mPlain 0x01 {} f s
def execMfence (f : MFields) (s : State) : Out := mPlain 0x08 { fence := true } f s

/-- A hint cell does nothing, once the fences before it are complete (R18, R231). -/
def execMHint (_w : BitVec 192) (s : State) : Out :=
  .next (if s.core.mflight.any (fun w => w.fence || w.drain) then s else mStarted (mNext s))

/-- MHALT: no further word starts. -/
def execMhalt (f : MFields) (s : State) : Out :=
  mWord 0x02 false colN colN colN f s fun _ s => .start { s with core := { s.core with mseq := .halted } } {}

/-- MSEAM (R458): it is passed, or the sequencer waits there. -/
def execMseam (f : MFields) (s : State) : Out :=
  let id : BitVec 22 := f.locA.extractLsb' 0 22
  let k := s.core
  let passed := passages k.passM id
  let go : Bool :=
    match k.stop, k.aseq with
    | none, _ => true
    | some _, .atSeam x => x != id
    | some _, _ => passed < passages k.passA id
  .next
    (if k.mflight.any (fun w => w.fence || w.drain) || !go then s
     else mStarted (mNext { s with core := { k with passM := setPassages k.passM id (passed + 1) } }))

/-- MREPLY (R232): parcel 1 is the payload. -/
def execMreply (f : MFields) (s : State) : Out :=
  mWord 0x04 true colN colN colN { f with locA := 0, locB := 0 } s fun _ s => .start (mNext s) { reply := some (f.locB ++ f.locA) }

/-- The loop counter that parcel 1 names. -/
def loopOf (f : MFields) : BitVec 2 := f.locA.extractLsb' 24 2

/-- The word after the first MEND of a counter, from an offset on (R233). -/
def afterMend (k : Core) (j : BitVec 2) : Nat → Nat → Option Nat
  | 0, _ => none
  | fuel + 1, o =>
    if k.secM.size < o + 24 then none
    else
      let w := mWordAt k o
      if w.extractLsb' 0 8 == 0x06 && w.extractLsb' 88 2 == j then some (o + 24) else afterMend k j fuel (o + 24)

/-- The count of an MLOOP, its entry popped: none where the entry breaks R233. -/
def loopCount (f : MFields) (k : Core) : Option (Nat × Core) :=
  match locOf f.locC with
  | some (.mq q) =>
    match bank k.mq q with
    | e :: rest => if e.extractLsb' 32 32 != 0 then none else some ((e.extractLsb' 0 32).toNat, { k with mq := bankSet k.mq q rest })
    | [] => none
  | _ => some (f.count.toNat, k)

/-- The entry of an MLOOP is consumed even where it faults. -/
def dropLoopEntry (f : MFields) (k : Core) : Core :=
  match locOf f.locC with
  | some (.mq q) => { k with mq := bankSet k.mq q (bank k.mq q).tail }
  | _ => k

/-- MLOOP (R233). -/
def execMloop (f : MFields) (s : State) : Out :=
  let k := s.core
  let j := loopOf f
  let fl : MFlight := ⟨k.mOffset, 0x05, f.sigSem, f.sigInc, none, false, false, false, none⟩
  let faulted (n : Nat) : State := { s with core := if k.mflight.isEmpty then (dropLoopEntry f k).mStop n 0 else k }
  .next
    (if k.mflight.any (fun w => w.fence || w.drain) || mWaits f k || !canPop { f with locA := 0, locB := 0 } k then s
     else
       match loopCount f k with
       | none => faulted mQueue
       | some (n, k') =>
         let go (k : Core) : State := { s with core := { k with mflight := k.mflight ++ [fl], metM := false }.note 5 1 }
         if n = 0 then
           match (k.secM.offset k.mpc).bind fun o => afterMend k j (k.secM.size / 24 + 1) (o + 24) with
           | none => faulted mIllegal
           | some o => go { k' with mpc := imgBase + w64 (k.secM.off + o) }
         else
           go { k' with
                mlc := bankSet k'.mlc j (BitVec.ofNat 32 (n - 1)), mloop := bankSet k'.mloop j ⟨k.mpc + 24, true⟩, mpc := k.mpc + 24 })

/-- MEND (R233). -/
def execMend (f : MFields) (s : State) : Out :=
  let j := loopOf f
  mWord 0x06 false colN colN colN { f with locA := 0 } s fun _ s =>
    let k := s.core
    let l := bank k.mloop j
    if !l.active then .fault mIllegal 0
    else if bank k.mlc j != 0 then
      .start { s with core := { k with mlc := bankSet k.mlc j (bank k.mlc j - 1), mpc := l.start } } {}
    else .start (mNext { s with core := { k with mloop := bankSet k.mloop j { l with active := false } } }) {}

/-- MJMP (R234). -/
def execMjmp (f : MFields) (s : State) : Out :=
  mWord 0x07 false colN colN colN { f with locA := 0 } s fun _ s =>
    .start { s with core := { s.core with mpc := s.core.mpc + 24 * (f.locA.extractLsb' 0 24).signExtend 64 } } {}

/-- MBRK (R235): the sequencer stops with its code, and resumes at the word after it. -/
def execMbrk (f : MFields) (s : State) : Out :=
  let k := s.core
  .next
    (if k.mflight.any (fun w => w.fence || w.drain) || mWaits f k || !k.mflight.isEmpty then s
     else mStarted (mNext { s with core := k.mStop mBrk f.count.toNat }))

end Sys2Proof.Machine
end

