-- ==== Sys2Proof/Machine/AExit.lean ====
section
/-! DEFINITION. What a stop and EXIT wait for and deliver (R71, R72, R76, R226, R267, R269,
R424, R447), and EXIT. -/

namespace Sys2Proof.Machine

open Sys2Proof

/-! ## What a stop and EXIT wait for -/

/-- Whether the M word at mpc waits on an empty mq, which counts as idle at EXIT (R269). -/
def mStarved (k : Core) : Bool :=
  match fetchM k with
  | .ok (Sys2Proof.Decoded.m op f) =>
    if op == 0x05 then !canPop { f with locA := 0, locB := 0 } k
    else (op != 0x04 && op != 0x06 && op != 0x07 && op != 0x03) && !canPop f k
  | _ => false

/-- R76: V has halted or is idle; stopped by a delivered trap, it counts as halted (R266). -/
def vEnded (k : Core) : Bool :=
  match k.vseq with
  | .running => false
  | .trapped _ => k.vtrap.isNone
  | _ => true

/-- R76, R266, R269: M has halted, is idle, is stopped by a fault, or waits on an empty mq. -/
def mEnded (k : Core) : Bool := (k.mseq != .running || mStarved k) && k.mflight.isEmpty

/-- Whether every copy that can start is complete; one whose wait does not hold has nobody left to signal it, and is left to the queue
check. -/
def copiesOver (k : Core) : Bool :=
  k.copyRun.isEmpty &&
    match k.copyq with
    | [] => true
    | c :: _ => !c.ready k

/-- Whether a SEND or WRITE of the bound strand is not complete (R408). -/
def netPending (s : State) : Bool :=
  s.net.flight.any (fun r => s.core.slot == some r.req.slot) ||
    s.net.eps.any fun e => e.sendq.any fun r => s.core.slot == some r.slot

/-- R71, R408, R447: the strand's accesses, Shuttle messages, SENDs and WRITEs are complete, and its protected stores durable. -/
def accessesOver (s : State) : Bool :=
  s.core.out.all (fun a => a.got.isSome) && !sendsPending s && !netPending s && !parityPending s && !copyParityPending s

/-- What stands to be delivered at a stop or EXIT: a copy's trap (R114), a read's fault, a store's loss (R424), a store that is not
durable (R447), a fault entry of rq (R226). -/
def endFaults (s : State) : Option AOut :=
  let inRq : Option AOut :=
    (s.core.rq.find? (·.fault)).map fun e =>
      .trap .mFault .m e.payload { s with core := { s.core with rq := removeFirst (·.fault) s.core.rq } }
  [copyEndAt s, readFaultAt s, storeFaultAt s, ndurAt s, inRq].findSome? id

/-- R72 step 5: the queues are empty. -/
def queuesEmpty (k : Core) : Bool :=
  k.q.toList.all List.isEmpty && k.mq.toList.all List.isEmpty && k.rq.isEmpty && k.vq.toList.all List.isEmpty && k.copyq.isEmpty

/-! ## EXIT (R76) -/

/-- The end of the strand: its memberships, frames and monitor are given up and the bobbin is DONE. -/
def finishStrand (s : State) : State :=
  match s.core.slot with
  | none => withCore Core.unbind s
  | some slot =>
    let s := updBob slot (fun b => { b with state := .done, hold := 0xFF }) (dropMemberships slot s)
    withCore (Core.note 3 1) (releaseCores slot (dropMonitor slot (dropHeld slot s)))

/-- EXIT (R76): a stop request lapses, the word waits, delivers what stands to be delivered, checks the queues, and ends the strand. -/
def execExit (s : State) : Out :=
  aWord [] [] s fun s =>
    let k := s.core
    let since := k.exitDue.or (some (s.time + stopLimit))
    let s := { s with core := { k with spin := none, stop := none, exitDue := since } }
    if !vEnded k || !mEnded k then .stall s
    else if k.copyTrap.isNone && !copiesOver k then .stall s
    else if !accessesOver s then .stall s
    else
      match endFaults s with
      | some t => t
      | none => if queuesEmpty k then .stay (finishStrand s) else .stay (loseStrand .seamIntegrity s)

end Sys2Proof.Machine
end

