-- ==== Sys2Proof/Machine/APackage.lean ====
section
/-! DEFINITION. The words that reach the package's units: launches, panels, block-table names, network requests and messages (R319, R323,
R379, R406, R411, R434). -/

namespace Sys2Proof.Machine

open Sys2Proof

/-! ## Records read by a word -/

/-- The bytes of a record that a word reads on the STRAND path, as a load does. -/
inductive RecRead where
  | bytes (bs : List Byte) (s : State)
  | wait (s : State)
  | fault (code : TrapCode) (va : Word) (s : State)
  deriving DecidableEq, Repr

/-- A record is read; `resident` makes its pages resident first (R379). -/
def readRecord (resident : Bool) (va : Word) (n : Nat) (s : State) : RecRead :=
  let sites := strandSites s false false va n
  match peerOf sites with
  | some (slot, o) =>
    match peerReadA va slot o n false s with
    | .waiting s => .wait s
    | .fault c a s => .fault c a s
    | .got seen s => .bytes seen.bytes s
  | none =>
    if localWaits s false false va sites then .wait s
    else if resident && (firstFaulty 0 sites).isNone && sites.any (·.waits) then .wait (serveSites sites s)
    else
      match readSites .load sites s with
      | .stop i c => .fault c (va + w64 i) s
      | .stall s => .wait s
      | .ok seen s => .bytes seen.bytes s

/-- A little-endian field of a record. -/
def recField (bs : List Byte) (off n : Nat) : Nat := leNat ((bs.drop off).take n)

/-- Whether a word that posts a record waits: as a release, and for the request that it counts as (R138, R379, R406, R434). -/
def postWaits (s : State) : Bool :=
  releaseWaits s || (s.core.replyA.isEmpty && s.core.out.all (fun a => a.dest != .blockA) && overLimit s 1)

/-- A word that reads a record at s[sa], aligned to `align`. -/
def recordWord (sa : BitVec 6) (rd : List (BitVec 6)) (align n : Nat) (resident : Bool) (s : State) (pre : State → Option AOut)
    (f : List Byte → Word → State → AOut) : Out :=
  aWord (sa :: rd) [] s fun s =>
    let a := getS s sa
    match pre s with
    | some t => t
    | none =>
      if a.toNat % align != 0 then .trap .misalign .a a s
      else if watchHit s a then .trap .watch .a a s
      else if postWaits s then .stall s
      else
        match readRecord resident a n s with
        | .wait s => .stall s
        | .fault c x s => .trap c .a x (dropReplies s)
        | .bytes bs s => f bs a (dropReplies s)

/-- The first byte of a range that is not in one extent of the launch, writable where asked (R406, R434). -/
def outsideExtent (s : State) (l : Nat) (va : Word) (len : Nat) (writable : Bool) : Option Word :=
  if len = 0 then none
  else
    match extentAt s l va.toNat with
    | none => some va
    | some e =>
      if writable && !e.attr.getLsbD 4 then some va
      else if va.toNat + len ≤ e.base + e.size then none
      else some (w64 (e.base + e.size))

/-! ## LQ.POST (R379) -/

/-- A work queue as reset leaves it (R360 to R362). -/
def WorkQueue.reset (q : BitVec 12) : WorkQueue := ⟨q, 0, 0, 0, 0, false, false, 0, 0, false, 0, false, none⟩

/-- A work queue. -/
def queueAt (s : State) (q : BitVec 12) : WorkQueue := (s.queues.find? fun w => w.q == q).getD (.reset q)

/-- A work queue changed. -/
def updQueue (q : BitVec 12) (f : WorkQueue → WorkQueue) (s : State) : State :=
  if s.queues.any (fun w => w.q == q) then { s with queues := updateFirst (fun w => w.q == q) f s.queues }
  else { s with queues := s.queues ++ [f (.reset q)] }

/-- SIZE of a queue (R361). -/
def WorkQueue.slots (w : WorkQueue) : Nat := 2 ^ (w.sz.toNat + 3)

/-- The physical address of the ring entry with count `k` (R362). -/
def WorkQueue.entry (w : WorkQueue) (k : BitVec 32) : Nat := w.ring.toNat + k.toNat % w.slots * 128

/-- The trap QUEUE with its reason. -/
def queueTrap (reason : Nat) (detail : Nat) (s : State) : AOut := .trap .queue .a (w64 (reason + detail * 256)) s

/-- LQ.POST (R379). -/
def execLqPost (sd sa sb : BitVec 6) (s : State) : Out :=
  let q (s : State) : BitVec 12 := (getS s sb).extractLsb' 0 12
  recordWord sa [sb] 64 128 true s
    (fun s => if 4096 ≤ (getS s sb).toNat then some (.trap .illegalOp .a 0 s) else if (getS s sa).toNat % 64 != 0 then none
      else
        let w := queueAt s (q s)
        if w.fn != ownFn s then some (queueTrap 1 (q s).toNat s)
        else if !w.en || !w.pm || w.err then some (queueTrap 2 (q s).toNat s)
        else none)
    fun bs _ s =>
      let w := queueAt s (q s)
      if (w.tail - w.head).toNat = w.slots then .done (setS sd 0 s)
      else
        match heldUp s true (w.entry w.tail) 128 with
        | [] =>
          let s := (putPhys (w.entry w.tail) bs none 0 s).1
          .done (setS sd 1 (updQueue (q s) (fun w => { w with tail := w.tail + 1 }) s))
        | sites => .stall (serveSites sites s)

/-! ## PNL.DEF (R319) -/

/-- A panel's shape from the second operand; none where a reserved field is not zero (R319). -/
def panelShape (x : Word) : Option (Nat × Nat × Nat) :=
  let es := (x.extractLsb' 48 2).toNat
  if x.extractLsb' 50 14 != 0 || x.extractLsb' 32 16 != 0 || es = 3 then none
  else some (2 ^ es, (x.extractLsb' 16 16).toNat + 1, (x.extractLsb' 0 16).toNat + 1)

/-- The physical address of a lower-half address, its page resident or not. -/
def placeOf (s : State) (l a : Nat) : Option Nat :=
  (extentAt s l a).bind fun e =>
    (pageOf s e.back ((a - e.base) / pageSize e.psz)).map fun p => p.pa + (a - e.base) % pageSize e.psz

/-- The physical addresses of the 2-KiB tiles of a storage, those that have one. -/
def tileAddrs (s : State) (l va tiles : Nat) : List Nat := (List.range tiles).filterMap fun k => placeOf s l (va + 2048 * k)

/-- The first byte of a storage of `n` bytes that is not in the extent of its first one (R319). -/
def storageFault (s : State) (l va n : Nat) : Option Word :=
  match extentAt s l va with
  | none => some (w64 va)
  | some e => if e.base + e.size < va + n then some (w64 (e.base + e.size)) else none

/-- The pages of a storage that are not resident. -/
def pagesOutside (s : State) (e : Extent) (va len : Nat) : List Site :=
  let first := (va - e.base) / pageSize e.psz
  let last := (va + len - 1 - e.base) / pageSize e.psz
  ((List.range (last + 1 - first)).map (· + first)).filterMap fun i =>
    match pageOf s e.back i with
    | some p => if p.res then none else some (.page e.back i)
    | none => none

/-- PIN set or cleared on the pages of a storage. -/
def pinPages (e : Extent) (va len : Nat) (pin : Bool) (s : State) : State :=
  let first := (va - e.base) / pageSize e.psz
  let last := (va + len - 1 - e.base) / pageSize e.psz
  let change (b : Backing) : Backing :=
    { b with pages := b.pages.mapIdx fun i p => if first ≤ i && i ≤ last then { p with pin := pin } else p }
  { s with backings := updateFirst (fun b => b.id == e.back) change s.backings }

/-- What the definition of a panel answers (R319). -/
inductive PanelDef where
  | trap (code : TrapCode) (eval : Word)
  | wait (s : State)
  | full (s : State)
  | made (num : Nat) (s : State)
  deriving DecidableEq, Repr

/-- The storage that R319 asks for, without a slot yet; none where a field is reserved. -/
def panelAsked (l : Nat) (v : Word) (shape : Option (Nat × Nat × Nat)) : Option Panel :=
  shape.map fun x => ⟨0, l, v.toNat, x.1, x.2.1, x.2.2, 0, []⟩

/-- The checks of R319 in their order; none where the panel can be defined. -/
def panelFault (s : State) (l : Nat) (v : Word) (p : Option Panel) : Option (TrapCode × Word) :=
  match p with
  | none => some (.illegalOp, 0)
  | some p =>
    if v.toNat % 2048 != 0 then some (.misalign, v)
    else if 0x40000000 < p.bytes || (tileAddrs s l v.toNat (p.bytes / 2048)).any (panelHolds s) then some (.illegalOp, 0)
    else (storageFault s l v.toNat p.bytes).map fun x => (.prot, x)

/-- The slot of a panel whose pages are resident and pinned: the lowest free one. -/
def placePanel (e : Extent) (p : Panel) (s : State) : PanelDef :=
  match leastFree 256 0 (s.panels.map (·.num)) with
  | some n =>
    if 256 ≤ n then .full s
    else .made n { s with panels := s.panels ++ [{ p with num := n, attr := e.attr, pas := tileAddrs s p.launch p.va (p.bytes / 2048) }] }
  | none => .full s

/-- R319 for a launch: the checks, residency and PIN, and the lowest free slot. -/
def definePanel (l : Nat) (v : Word) (shape : Option (Nat × Nat × Nat)) (s : State) : PanelDef :=
  let asked := panelAsked l v shape
  match panelFault s l v asked, asked, extentAt s l v.toNat with
  | some t, _, _ => .trap t.1 t.2
  | none, some p, some e =>
    match pagesOutside s e v.toNat p.bytes with
    | x :: rest => .wait (serveSites (x :: rest) s)
    | [] => placePanel e p (pinPages e v.toNat p.bytes true s)
  | none, _, _ => .trap .prot v

/-- ROW of a panel slot (R318). -/
def rowBase (n : Nat) : Word := w64 (panelWin + n * 0x100000000)

/-- PNL.DEF (R319). -/
def execPnlDef (sd : BitVec 6) (pk : BitVec 4) (sa : BitVec 6) (s : State) : Out :=
  aWord [sa, sa + 1] [] s fun s =>
    let v := getS s sa
    let shape := panelShape (getS s (sa + 1))
    match panelFault s s.core.launch v (panelAsked s.core.launch v shape) with
    | some t => .trap t.1 .a t.2 s
    | none =>
    if releaseWaits s then .stall s
    else
    match definePanel s.core.launch v shape s with
    | .trap c x => .trap c .a x s
    | .wait s => .stall s
    | .full s => .done (setP pk true (setS sd 0 s))
    | .made n s => .done (setP pk false (setS sd (rowBase n) s))

/-! ## Block-table names (R322 to R325) -/

/-- Names of the die (R322). -/
abbrev blockNameLimit : Nat := 262144

/-- A name operand, or ILLEGAL_OP (R322). -/
def blockName (x : Word) : Option (BitVec 44) := if x.extractLsb' 44 20 == 0 then some (x.extractLsb' 0 44) else none

/-- The slot of a name (R322). -/
def slotOfName (s : State) (fn : BitVec 6) (n : BitVec 44) : Option Nat :=
  (s.blockNames.find? fun e => e.fn == fn && e.name == n).map (·.slot)

/-- W(x) (R323). -/
def blockAddr (x : Nat) : Word := w64 (blockWin + x * 0x4000)

/-- A word on a block-table name. -/
def blockWord (rd : List (BitVec 6)) (sa : BitVec 6) (s : State) (f : BitVec 6 → BitVec 44 → State → AOut) : Out :=
  aWord (sa :: rd) [] s fun s =>
    match blockName (getS s sa) with
    | none => .trap .illegalOp .a 0 s
    | some n => f (ownFn s) n s

/-- KVB.MAP -/
def execKvbMap (sd : BitVec 6) (pk : BitVec 4) (alloc : Bool) (sa : BitVec 6) (s : State) : Out :=
  blockWord [] sa s fun fn n s =>
    match slotOfName s fn n with
    | some x => .done (setP pk false (setS sd (blockAddr x) s))
    | none =>
      if !alloc then .done (setP pk true (setS sd 1 s))
      else
        match if blockNameLimit ≤ s.blockNames.length then none else leastFree s.blocks.toNat 0 (s.blockSlots.map (·.num)) with
        | none => .done (setP pk true (setS sd 2 s))
        | some x =>
          .done (setP pk false (setS sd (blockAddr x)
            { s with blockSlots := s.blockSlots ++ [⟨x, 0, 1⟩], blockNames := s.blockNames ++ [⟨fn, n, x⟩] }))

/-- A slot's reference count changed. -/
def updBlock (x : Nat) (f : BlockSlot → BlockSlot) (s : State) : State :=
  { s with blockSlots := updateFirst (fun b => b.num == x) f s.blockSlots }

/-- KVB.SHARE -/
def execKvbShare (sd sa sb : BitVec 6) (s : State) : Out :=
  blockWord [sb] sa s fun fn n s =>
    match blockName (getS s sb) with
    | none => .trap .illegalOp .a 0 s
    | some n2 =>
      match slotOfName s fn n with
      | none => .done (setS sd 0 s)
      | some x =>
        if (slotOfName s fn n2).isSome then .done (setS sd 3 s)
        else if blockNameLimit ≤ s.blockNames.length then .done (setS sd 2 s)
        else
          .done (setS sd 1 (updBlock x (fun b => { b with count := b.count + 1 }) { s with blockNames := s.blockNames ++ [⟨fn, n2, x⟩] }))

/-- A name unmapped; its slot is freed with its last name (R323). -/
def unmapName (fn : BitVec 6) (n : BitVec 44) (s : State) : State :=
  match slotOfName s fn n with
  | none => s
  | some x =>
    let s := updBlock x (fun b => { b with count := b.count - 1 })
      { s with blockNames := removeFirst (fun e => e.fn == fn && e.name == n) s.blockNames }
    { s with blockSlots := s.blockSlots.filter fun b => b.num != x || b.count != 0 }

/-- KVB.FREE -/
def execKvbFree (sd sa : BitVec 6) (s : State) : Out :=
  blockWord [] sa s fun fn n s =>
    match slotOfName s fn n with
    | none => .done (setS sd 0 s)
    | some x => if openAt s (blockBase + x * 0x4000) 0x4000 then .stall s else .done (setS sd 1 (unmapName fn n s))

/-- KVB.INVAL -/
def execKvbInval (sd sa sb : BitVec 6) (s : State) : Out :=
  blockWord [sb] sa s fun fn n s =>
    match (slotOfName s fn n).bind fun x => (s.blockSlots.find? fun b => b.num == x) with
    | none => .done (setS sd 0 s)
    | some b =>
      if openAt s (blockBase + b.num * 0x4000) 0x4000 then .stall s
      else .done (setS sd b.bitmap (updBlock b.num (fun b => { b with bitmap := b.bitmap &&& ~~~getS s sb }) s))

/-! ## Network requests (R403 to R406, R411) -/

/-- An endpoint (R403). -/
def epAt (s : State) (k : BitVec 10) : Endpoint := (s.net.eps.find? fun e => e.num == k).getD ⟨k, false, 0, 0, 0, 0, [], []⟩

/-- An endpoint changed. -/
def updEp (k : BitVec 10) (f : Endpoint → Endpoint) (s : State) : State :=
  let eps := if s.net.eps.any (fun e => e.num == k) then updateFirst (fun e => e.num == k) f s.net.eps else s.net.eps ++ [f (epAt s k)]
  { s with net := { s.net with eps := eps } }

/-- A completion counter (R404). -/
def cntAt (s : State) (n : BitVec 12) : Word := ((s.net.cnts.find? fun c => c.1 == n).map (·.2)).getD 0

/-- A completion counter written. -/
def setCnt (n : BitVec 12) (x : Word) (s : State) : State :=
  { s with net := { s.net with cnts := (n, x) :: removeFirst (fun c => c.1 == n) s.net.cnts } }

/-- The fields of a counter (R404). -/
def cntFn (x : Word) : BitVec 6 := x.extractLsb' 58 6
def cntFail (x : Word) : BitVec 10 := x.extractLsb' 48 10
def cntOk (x : Word) : BitVec 48 := x.extractLsb' 0 48

/-- A work request (R405). -/
structure Wqe where
  op : Nat
  ord : Bool
  port : Nat
  ep : Nat
  dest : Nat
  laddr : Word
  len : Nat
  ccnt : BitVec 32
  raddr : Word
  rkey : BitVec 32
  tcnt : BitVec 32
  tag : Word
  ign : Word
  deriving DecidableEq, Repr

/-- The fields of the 64 bytes. -/
def wqeOf (raw : BitVec 512) : Wqe :=
  let f (off n : Nat) : Nat := (raw.extractLsb' (8 * off) (8 * n)).toNat
  { op := f 0 1, ord := raw.getLsbD 8, port := f 1 1 / 2 % 4, ep := f 2 2, dest := f 4 4, laddr := w64 (f 8 8), len := f 16 4,
    ccnt := BitVec.ofNat 32 (f 20 4), raddr := w64 (f 24 8), rkey := BitVec.ofNat 32 (f 32 4), tcnt := BitVec.ofNat 32 (f 36 4),
    tag := w64 (f 40 8), ign := w64 (f 48 8) }

/-- The counter that a CCNT or TCNT field names, if enabled (R405). -/
def cntNamed (x : BitVec 32) : Option (BitVec 12) := if x.getLsbD 31 then some (x.extractLsb' 0 12) else none

/-- Whether a request holds a reserved value or a nonzero zero-field (R405). -/
def wqeBad (raw : BitVec 512) : Bool :=
  let w := wqeOf raw
  let sends := w.op == 1 || w.op == 2
  w.op == 0 || 5 < w.op || (raw.extractLsb' 11 5) != 0 || w.port == 3 || 1023 < w.ep || 2 ^ 30 < w.len ||
    (if sends then 4095 < w.dest else w.dest != 0) || w.ccnt.extractLsb' 12 19 != 0 || w.tcnt.extractLsb' 12 19 != 0 ||
      (w.op != 2 && (w.raddr != 0 || w.tcnt != 0)) || (w.op != 3 && w.ign != 0) || raw.extractLsb' 448 64 != 0

/-- Whether a named counter belongs to another function. -/
def cntForeign (s : State) (fn : BitVec 6) (x : BitVec 32) : Bool :=
  match cntNamed x with
  | some n => cntFn (cntAt s n) != fn
  | none => false

/-- NET.POST (R406). -/
def execNetPost (sd sa : BitVec 6) (s : State) : Out :=
  recordWord sa [] 64 64 false s (fun _ => none) fun bs _ s =>
    let raw : BitVec 512 := BitVec.ofNat 512 (leNat bs)
    let w := wqeOf raw
    let k : BitVec 10 := BitVec.ofNat 10 w.ep
    let e := epAt s k
    let fn := ownFn s
    if wqeBad raw then queueTrap 3 (w.ep % 1024) s
    else if !e.en || e.fn != fn then queueTrap 1 w.ep s
    else if cntForeign s fn w.ccnt || cntForeign s fn w.tcnt then queueTrap 2 w.ep s
    else
      match if w.op == 5 then none else outsideExtent s s.core.launch w.laddr w.len (w.op == 3 || w.op == 4) with
      | some x => .trap .prot .a x s
      | none =>
        let req : WReq := ⟨raw, s.core.launch, s.core.slot.getD 0⟩
        let send := w.op == 1 || w.op == 2
        if 256 ≤ (if send then e.sendq else e.recvq).length then .done (setS sd 0 s)
        else
          .done (setS sd 1 (updEp k (fun e => if send then { e with sendq := e.sendq ++ [req] } else { e with recvq := e.recvq ++ [req] }) s))

/-- NET.WAIT (R411). -/
def execNetWait (sd sa sb : BitVec 6) (s : State) : Out :=
  aWord [sa, sb] [] s fun s =>
    let n := getS s sa
    let t := getS s sb
    let c := cntAt s (n.extractLsb' 0 12)
    if 4096 ≤ n.toNat || t.extractLsb' 48 16 != 0 then .trap .illegalOp .a 0 s
    else if cntFn c != ownFn s then queueTrap 2 0 s
    else if t.extractLsb' 0 48 ≤ cntOk c || cntFail c != 0 then .done (setS sd c s)
    else .stall s

/-! ## Messages (R433, R434) -/

/-- Sends that a part holds, and records that a mailbox holds (R434). -/
abbrev sendLimit : Nat := 1024
abbrev recvLimit : Nat := 256

/-- STATUS is cleared in the record; the answer is whether it is done, to be tried again, or a fault. -/
def clearStatus (va : Word) (s : State) : Acc Unit :=
  let a := va + 24
  let sites := strandSites s true false a 8
  match peerOf sites with
  | some (slot, o) =>
    if peerWaits s true false false slot o 8 || overLimit s 1 then .stall s
    else .ok () (issueAccess .store false (.store false) a slot o 8 (List.replicate 8 0) false false s)
  | none =>
    if localWaits s false false a sites then .stall s
    else
    match writeSites sites (List.replicate 8 0) (strandWriter s) a s with
    | .stop i c => .stop i c
    | .stall s => .stall s
    | .ok kept s => .ok () (noteKept kept a s)

/-- The end of MSG.SEND and MSG.RECV: PROT for the range, a full queue, or the record is taken. -/
def postRecord (sd : BitVec 6) (va range : Word) (len : Nat) (writable full : Bool) (s : State) (f : State → State) : AOut :=
  match outsideExtent s s.core.launch range len writable with
  | some x => .trap .prot .a x s
  | none =>
    if full then .done (setS sd 0 s)
    else if watchHit s (va + 24) then .trap .watch .a (va + 24) s
    else
      match clearStatus va s with
      | .stop i c => .trap c .a (va + 24 + w64 i) s
      | .stall s => .stall s
      | .ok _ s => .done (setS sd 1 (f s))

/-- MSG.SEND (R434). -/
def execMsgSend (sd sa : BitVec 6) (s : State) : Out :=
  recordWord sa [] 32 32 false s (fun _ => none) fun bs a s =>
    let laddr := w64 (recField bs 0 8)
    let len := recField bs 8 4
    let dest := recField bs 12 2
    let mbox := recField bs 14 2
    let cls := recField bs 16 1
    if 1023 < dest || 4095 < mbox || cls = 0 || 7 < cls || recField bs 17 7 != 0 || len = 0 || 2 ^ 24 < len then queueTrap 3 (mbox % 4096) s
    else
      postRecord sd a laddr len false (sendLimit ≤ s.fab.sends.length) s fun s =>
        let m : MsgSend := ⟨s.nextId, laddr, len, BitVec.ofNat 10 dest, BitVec.ofNat 12 mbox, BitVec.ofNat 3 cls, a, s.core.launch,
          s.core.slot.getD 0, 0, [], 0, none, none⟩
        { s with nextId := s.nextId + 1, fab := { s.fab with sends := s.fab.sends ++ [m] } }

/-- MSG.RECV (R434). -/
def execMsgRecv (sd sa : BitVec 6) (s : State) : Out :=
  recordWord sa [] 32 32 false s (fun _ => none) fun bs a s =>
    let buf := w64 (recField bs 0 8)
    let cap := recField bs 8 4
    let mbox := recField bs 12 2
    if 4095 < mbox || recField bs 14 10 != 0 || cap = 0 || 2 ^ 24 < cap then queueTrap 3 (mbox % 4096) s
    else if mbox / 64 != (ownFn s).toNat then queueTrap 1 mbox s
    else
      let x : BitVec 12 := BitVec.ofNat 12 mbox
      postRecord sd a buf cap true (recvLimit ≤ (s.fab.recvs.filter fun r => r.mbox == x).length) s fun s =>
        { s with fab := { s.fab with recvs := s.fab.recvs ++ [⟨x, buf, cap, a, s.core.launch⟩] } }

end Sys2Proof.Machine
end

