-- ==== Sys2Proof/Machine/EvCopy.lean ====
section
/-! DEFINITION. The copy unit (R107 to R114, R136, R209): a started command moves piece by piece in the order of R108, signals, and
stops at its first fault. -/

namespace Sys2Proof.Machine

open Sys2Proof

/-! ## Pieces -/

/-- A range of virtual addresses inside one row that begins at `row`. -/
structure Range where
  va : Word
  len : Nat
  row : Word
  deriving DecidableEq, Repr

/-- Where the bytes of a range lie; a row ends with the extent that it begins in (R313). -/
def Range.sites (s : State) (write : Bool) (r : Range) : List Site :=
  let sites := strandSites s write false r.va r.len
  match if r.row.toNat < 2 ^ 55 then extentAt s s.core.launch r.row.toNat else none with
  | none => sites
  | some e =>
    (List.range r.len).zip sites |>.map fun p =>
      let a := (r.va + w64 p.1).toNat
      if e.base ≤ a && a < e.base + e.size then p.2 else .bad .prot

/-- How much a command moves: bytes, stream-register entries or steering tiles (R108 to R110). -/
def CopyCmd.total (c : CopyCmd) : Nat :=
  match c.kind with
  | .cp => c.rows.toNat * c.len.toNat
  | .toQ _ => c.rows.toNat * c.len.toNat / 1024
  | .bolt => c.len.toNat

/-- The source address of byte `n` in the order of R108. -/
def CopyCmd.srcAt (c : CopyCmd) (n : Nat) : Word := c.src + w64 (n / c.len.toNat) * c.sstr + w64 (n % c.len.toNat)

/-- The destination address of byte `n`. -/
def CopyCmd.dstAt (c : CopyCmd) (n : Nat) : Word := c.dst + w64 (n / c.len.toNat) * c.dstr + w64 (n % c.len.toNat)

/-- Ranges of `m` bytes at byte `n`, with the beginning of their row. -/
def CopyCmd.srcRange (c : CopyCmd) (n m : Nat) : Range := ⟨c.srcAt n, m, c.srcAt (n - n % c.len.toNat)⟩
def CopyCmd.dstRange (c : CopyCmd) (n m : Nat) : Range := ⟨c.dstAt n, m, c.dstAt (n - n % c.len.toNat)⟩

/-- Bytes of a piece that a peer window takes part in. -/
abbrev peerPiece : Nat := 4096

/-- The slot of a range that lies in a peer window. -/
def rangePeer (s : State) (write : Bool) (r : Range) : Option (Nat × Nat) := peerOf (r.sites s write)

/-- A byte's place on one line of numbers, other parts included. -/
def copyKey (s : State) : Site → Option Nat
  | .peer t o => some (if ownSlot s t then o else (t + 1) * 2 ^ 48 + o)
  | x => siteKey x

/-- Whether some byte of one list lies where a byte of the other does. -/
def keysMeet (s : State) (a b : List Site) : Bool := (a.filterMap (copyKey s)).any (b.filterMap (copyKey s)).contains

/-- The bytes that the next piece of a CP moves: the rest of a row; where a peer window takes part, a part of it, which does not read what
it writes (R108). -/
def cpPiece (s : State) (c : CopyCmd) (n : Nat) : Nat :=
  let rest := c.len.toNat - n % c.len.toNat
  if (rangePeer s false (c.srcRange n 1)).isSome || (rangePeer s true (c.dstRange n 1)).isSome then
    let m := min rest peerPiece
    if keysMeet s ((c.srcRange n m).sites s false) ((c.dstRange n m).sites s true) then 1 else m
  else rest

/-- The source ranges of the next piece. -/
def CopyRun.sources (s : State) (r : CopyRun) : List Range :=
  let c := r.cmd
  match c.kind with
  | .cp => [c.srcRange r.moved (cpPiece s c r.moved)]
  | .toQ _ => (pieces c.len.toNat 1025 (r.moved * 1024) 1024).map fun p => c.srcRange p.1 p.2
  | .bolt =>
    let n := codeTileBytes c.cw.toNat
    let tile (i : Nat) : Range := ⟨c.src + w64 i * c.sstr, n, c.src + w64 i * c.sstr⟩
    if c.d64 then [tile (2 * r.moved), tile (2 * r.moved + 1)] else [tile r.moved]

/-! ## Faults -/

/-- The COPY trap with its reason and address (R259). -/
def copyFaultOf (reason : Nat) (va : Word) : TrapCode × Word := (.copy, w64 (reason + va.toNat % 2 ^ 56 * 256))

/-- The trap of a copy that meets a fault of a byte (R259, R329, R454). -/
def copyFaultAt (code : TrapCode) (va : Word) : TrapCode × Word :=
  match code with
  | .uncorr => copyFaultOf 3 va
  | .selvedgeLoss => copyFaultOf 3 va
  | _ => copyFaultOf 2 va

/-- The trap of an answered peer unit of a copy (R423, R424, R447). -/
def copyUnitFault (a : Access) : Option (TrapCode × Word) :=
  match a.got with
  | some (.data _ true) => some (copyFaultOf 2 a.va)
  | some .prot => some (copyFaultOf 2 a.va)
  | some .uncorr => some (copyFaultOf 3 a.va)
  | some .selvedge => some (copyFaultOf 3 a.va)
  | some .lost => some (.shuttleLoss, a.va)
  | some .doneNotDurable => some (copyFaultOf 2 a.va)
  | _ => none

/-! ## Reading -/

/-- The peer units of the copy unit. -/
def Core.copyUnits (k : Core) (dest : AccDest) : List Access := k.out.filter fun a => a.dest == dest

/-- The peer units of the copy unit are used up. -/
def Core.dropCopyUnits (k : Core) : Core := { k with out := k.out.filter fun a => a.dest != .copyRead && a.dest != .copyWrite }

/-- The bytes of answered units. -/
def answeredBytes (l : List Access) : List Byte :=
  l.flatMap fun a =>
    match a.got with
    | some (.data bs _) => bs
    | some (.oldNotDurable bs) => bs
    | _ => []

/-- What reading of ranges gives: bytes up to the first fault, that fault, and whether a byte before it must be waited for. -/
structure CopySeen where
  bytes : List Byte
  bad : Option (TrapCode × Word)
  waits : Bool

/-- The local bytes of one range (R7, R108). -/
def seeRange (s : State) (r : Range) : CopySeen :=
  let rs := (r.sites s false).map (readSite s .copy)
  match firstStop 0 rs with
  | some (i, c) => ⟨(rs.take i).map (·.byte), some (copyFaultAt c (r.va + w64 i)), (rs.take i).contains .wait⟩
  | none => ⟨rs.map (·.byte), none, rs.contains .wait⟩

/-- The bytes of ranges in order, those of peer windows from `peer`. -/
def seeRanges (s : State) : List Range → List Byte → CopySeen
  | [], _ => ⟨[], none, false⟩
  | r :: rest, peer =>
    if (rangePeer s false r).isSome then
      let x := seeRanges s rest (peer.drop r.len)
      { x with bytes := peer.take r.len ++ x.bytes }
    else
      let here := seeRange s r
      match here.bad with
      | some _ => here
      | none =>
        let x := seeRanges s rest peer
        ⟨here.bytes ++ x.bytes, x.bad, here.waits || x.waits⟩

/-! ## Writing -/

/-- Whether two lists of sites may share a byte: their spans meet. -/
def sitesMeet (a b : List Site) : Bool :=
  let ka := a.filterMap siteKey
  let kb := b.filterMap siteKey
  let least (l : List Nat) : Nat := l.foldl min (2 ^ 48)
  let most (l : List Nat) : Nat := l.foldl max 0
  least ka ≤ most kb && least kb ≤ most ka

/-- Bytes moved one at a time, in the order of R108. -/
def moveBytes (va : Word) : List Site → List Site → State → State × Bool
  | x :: xs, y :: ys, s =>
    let p := putSites [y] [(readSite s .copy x).byte] (copyWriter s) va s
    let r := moveBytes va xs ys p.1
    (r.1, p.2 && r.2)
  | _, _, s => (s, true)

/-- How far a command came. -/
inductive CopyStep where
  | moved (s : State)
  | wait (s : State)
  | fault (t : TrapCode × Word) (s : State)
  | finished (s : State)

/-- The head of the started commands changed. -/
def setRun (f : CopyRun → CopyRun) (s : State) : State :=
  withCore (fun k => { k with copyRun := match k.copyRun with | [] => [] | r :: rest => f r :: rest }) s

/-- Bytes read and written are counted (R141). -/
def copied (rd wr : Nat) (s : State) : State := withCore (fun k => (k.note 0x0C rd).note 0x0D wr) s

/-- A piece is moved. -/
def pieceMoved (n : Nat) (s : State) : CopyStep :=
  .moved (withCore Core.dropCopyUnits (setRun (fun r => { r with moved := r.moved + n, asked := false, sent := false }) s))

/-- A local row, or as much of it as can be moved. `x` is what was read of it (R108, R114, R447). -/
def moveRow (src dst : Range) (x : CopySeen) (s : State) : CopyStep :=
  let from_ := src.sites s false
  let dest := dst.sites s true
  let limit := (firstFaulty 0 dest).map (·.1)
  let n := min x.bytes.length (limit.getD src.len)
  if (dest.take n).any (·.waits) then .wait (serveSites (dest.take n) s)
  else
    let r :=
      if sitesMeet from_ dest then moveBytes dst.va (from_.take n) (dest.take n) s
      else putSites (dest.take n) (x.bytes.take n) (copyWriter s) dst.va s
    let r := (copied n n r.1, r.2)
    if !r.2 then .fault (copyFaultOf 2 dst.va) r.1
    else
      match firstFaulty 0 dest with
      | some (i, c) => if i ≤ n then .fault (copyFaultAt c (dst.va + w64 i)) r.1 else match x.bad with
        | some t => .fault t r.1
        | none => pieceMoved src.len r.1
      | none =>
        match x.bad with
        | some t => .fault t r.1
        | none => pieceMoved src.len r.1

/-- The end of a CP's piece: local, or through a peer window. -/
def endCp (r : CopyRun) (src : Range) (x : CopySeen) (s : State) : CopyStep :=
  let dst : Range := r.cmd.dstRange r.moved src.len
  match rangePeer s true dst with
  | none => moveRow src dst x s
  | some (slot, o) =>
    match x.bad with
    | some t => .fault t s
    | none =>
      if !r.sent then
        .wait (setRun (fun r => { r with sent := true }) (issueAccess .copyWrite true (.store false) dst.va slot o dst.len x.bytes false false s))
      else
        let us := s.core.copyUnits .copyWrite
        if us.any (fun a => a.got.isNone) then .wait s
        else
          match us.findSome? copyUnitFault with
          | some t => .fault t (withCore Core.dropCopyUnits s)
          | none => pieceMoved src.len (copied src.len src.len s)

/-- The end of a CP.Q's piece: one entry, once there is room (R98, R110). -/
def endToQ (q : BitVec 4) (x : CopySeen) (s : State) : CopyStep :=
  match x.bad with
  | some t => .fault t s
  | none =>
    if 8 ≤ (bank s.core.q q).length then .wait s
    else pieceMoved 1 (copied 1024 1024 <| withCore (fun k => k.append q ⟨BitVec.ofNat 8192 (leNat x.bytes), true, 0⟩) s)

/-- The end of a CP.BOLT's piece: one steering tile (R109, R209). -/
def endBolt (r : CopyRun) (srcs : List Range) (x : CopySeen) (s : State) : CopyStep :=
  match x.bad with
  | some t => .fault t s
  | none =>
    let n := codeTileBytes r.cmd.cw.toNat
    let tiles := if r.cmd.d64 then [x.bytes.take n, x.bytes.drop n] else [x.bytes]
    let out := boltOut r.cmd.cw.toNat tiles s.freshVal
    let at_ := r.cmd.dst + w64 r.moved * r.cmd.dstr
    let dest := strandSites s true false at_ out.1.length
    if dest.any (·.waits) then .wait (serveSites dest s)
    else
      match firstFaulty 0 dest with
      | some (i, c) => .fault (copyFaultAt c (at_ + w64 i)) s
      | none =>
        let s := (putSites dest out.1 (copyWriter s) at_ { s with freshVal := s.freshVal + 1 }).1
        let s := copied x.bytes.length out.1.length s
        if out.2 then pieceMoved 1 (withCore (Core.note 0x0E 1) s) else .fault (copyFaultOf 5 ((srcs.head?.map (·.va)).getD 0)) s

/-- Whether a piece has no room for its reads: the copy unit holds at most 1,536 requests, the core 2,048 (R138). -/
def copyOver (s : State) (srcs : List Range) : Bool :=
  let here := requestsOf (s.core.out.filter fun a => a.dest == .copyRead)
  let far := srcs.filter fun r => (rangePeer s false r).isSome
  let n := min 1536 (far.foldl (fun n r => n + lineCount r.va r.len) 0)
  let near := srcs.any fun r => (rangePeer s false r).isNone && (r.sites s false).any fun x => !x.ownStore s.cur
  1536 < here + n || 2048 < s.core.requests + n + (if near then 1 else 0)

/-- The peer reads of a piece are issued (R138). -/
def askPeers (srcs : List Range) (s : State) : State :=
  srcs.foldl
    (fun s r =>
      match rangePeer s false r with
      | some (slot, o) => issueAccess .copyRead true (.load false) r.va slot o r.len [] false false s
      | none => s)
    (setRun (fun r => { r with asked := true }) s)

/-- One piece of the first started command. -/
def copyPiece (s : State) : CopyStep :=
  match s.core.copyRun with
  | [] => .wait s
  | r :: _ =>
    if r.cmd.total ≤ r.moved then .finished s
    else
      let srcs := r.sources s
      if !r.asked && copyOver s srcs then .wait s
      else if !r.asked && srcs.any (fun x => (rangePeer s false x).isSome) then .wait (askPeers srcs s)
      else
        let us := s.core.copyUnits .copyRead
        if us.any (fun a => a.got.isNone) then .wait s
        else
          match us.findSome? copyUnitFault with
          | some t => .fault t (withCore Core.dropCopyUnits s)
          | none =>
            let x := seeRanges s srcs (answeredBytes us)
            if x.waits then .wait (srcs.foldl (fun s r => serveSites (r.sites s false) s) s)
            else
              match r.cmd.kind with
              | .cp => endCp r (srcs.head?.getD ⟨0, 0, 0⟩) x s
              | .toQ q => endToQ q x s
              | .bolt => endBolt r srcs x s

/-- Pieces until the command is finished, waits or stops. -/
def copyLoop : Nat → State → CopyStep
  | 0, s => .wait s
  | fuel + 1, s =>
    match copyPiece s with
    | .moved s => copyLoop fuel s
    | x => x

/-- The first started command moves as far as it can; finished, it signals, which may overflow (R107, R114). -/
def copyAdvance (s : State) : CopyStep :=
  match s.core.copyRun with
  | [] => .wait s
  | r :: _ =>
    if s.core.copyTrap.isSome then .wait s
    else
      match copyLoop (r.cmd.total + 1) s with
      | .finished s =>
        if r.cmd.sinc = 0 then .finished s
        else
          match semAdd s.core r.cmd.ssem r.cmd.sinc.toNat with
          | some k => .finished { s with core := k }
          | none => .fault (copyFaultOf 4 0) s
      | x => x

/-! ## The events -/

/-- What happens on a core. -/
def onCoreEvent (core : BitVec 8) (f : State → State) (s : State) : Out := .next (onCore core.toNat f s)

/-- A queued command starts once its wait holds (R112). -/
def startCopy (k : Core) : Core :=
  match k.copyq with
  | [] => k
  | c :: rest => if k.copyTrap.isSome || !c.ready k then k else { k with copyq := rest, copyRun := k.copyRun ++ [⟨c, 0, false, false⟩] }

/-- COPY_START (R112). -/
def execCopyStart (core : BitVec 8) (s : State) : Out := onCoreEvent core (withCore startCopy) s

/-- A copy goes on, and is complete with its signal, unless it meets a fault. -/
def completeCopy (s : State) : State :=
  match copyAdvance s with
  | .finished s => withCore (fun k => { k with copyRun := k.copyRun.tail }) s
  | .wait s => s
  | .moved s => s
  | .fault _ _ => s

/-- COPY_COMPLETION (R107, R112). -/
def execCopyCompletion (core : BitVec 8) (s : State) : Out := onCoreEvent core completeCopy s

/-- An uncorrectable error that stops a copy is counted (R328); EVAL holds bits 55:0 of its address (R259). -/
def metCopy (t : TrapCode × Word) (s : State) : State :=
  if t.1 == .copy && t.2.extractLsb' 0 8 == 3 then metUncorrAt s.core.launch true ((t.2.extractLsb' 8 56).signExtend 64) s else s

/-- A copy that meets a fault stops; its partial writes stand (R114). -/
def stopCopy (s : State) : State :=
  match copyAdvance s with
  | .fault t s => withCore (fun k => { k with copyTrap := some t }) (metCopy t s)
  | _ => s

/-- COPY_FAULT (R114). -/
def execCopyFault (core : BitVec 8) (s : State) : Out := onCoreEvent core stopCopy s

end Sys2Proof.Machine
end

