-- ==== Sys2Proof/Machine/EvCore.lean ====
section
/-! DEFINITION. What happens on a core beside its words: M words end, replies return, traps are delivered, frames are filled, saved and
loaded, stops complete (R71, R72, R87, R130 to R135, R224, R262, R267, R268, R424, R458). -/

namespace Sys2Proof.Machine

open Sys2Proof

/-! ## The end of M words (R224, R225) -/

/-- What the end of a word does to its gather-window slot: filled, or empty once no word in flight uses it (R236 to R239, R250). -/
def Core.endSlot (k : Core) (w : MFlight) (rest : List MFlight) : Core :=
  match w.slot with
  | none => k
  | some i =>
    let g := bank k.gather i
    if g.st == .filling then k.setSlot i { g with st := .filled }
    else if g.st == .releasing && !rest.any (fun x => x.slot == some i) then k.setSlot i .none
    else k

/-- QDRAIN empties every slot (R244). -/
def Core.drainSlots (k : Core) (w : MFlight) : Core := if w.drain then { k with gather := Vector.replicate _ .none } else k

/-- The oldest word in flight completes: its signal, then its reply; an overflow stops the sequencer, and the words behind it signal
nothing. -/
def Core.endWord (k : Core) : Core :=
  match k.mflight with
  | [] => k
  | w :: rest =>
    let k := (k.endSlot w rest).drainSlots w
    match if w.sigInc = 0 then some k else semAdd k w.sigSem w.sigInc.toNat with
    | none => { k.mFaultAt w.off mSemOvf 0 with mflight := [] }
    | some k =>
      let entry : List RqEntry := match w.reply with
        | some x => [⟨false, x⟩]
        | none => []
      { k with mflight := rest, rq := k.rq ++ entry }

/-- M_WORD_COMPLETION (R224). -/
def execMWordCompletion (core : BitVec 8) (s : State) : Out := onCoreEvent core (withCore Core.endWord) s

/-! ## Replies from other parts (R87, R97, R424) -/

/-- Whether a unit's bytes were not resident or not valid. -/
def unitMissed (a : Access) : Bool :=
  match a.got with
  | some (.data _ m) => m
  | _ => false

/-- The bytes that wait for an entry, once its access is answered. -/
def fillEntry (id : Nat) (bs : List Byte) (l : List QEntry) : List QEntry :=
  updateFirst (fun e => !e.ready && e.id == id) (fun e => { e with data := BitVec.ofNat 8192 (leNat bs), ready := true }) l

/-- p14 takes the residency flag of an answered access, unless a younger word has written it (R96). -/
def landFlag (us : List Access) (k : Core) : Core :=
  let k := if us.any unitMissed then k.note 0x14 1 else k
  if us.any (fun a => a.p14 && !a.newerP) then k.setP 14 (us.any unitMissed) else k

/-- The register of an answered access takes the value, unless a younger word has written it (R87). -/
def landReg (r : BitVec 6) (x : Word) (us : List Access) (k : Core) : Core := if us.any (·.newer) then k else k.setS r x

/-- An answered access of the A-stream without a fault writes its destination and p14. -/
def landRead (dest : AccDest) (us : List Access) (k : Core) : Core :=
  let bs := answeredBytes us
  match dest with
  | .sreg r signed => landFlag us (landReg r (extended signed bs) us k)
  | .amo r =>
    let lost := us.find? fun a => match a.got with | some (.oldNotDurable _) => true | _ => false
    { landReg r (w64 (leNat bs)) us k with ndur := k.ndur.or (lost.map (·.va)) }
  | .ldq q id => { k with q := bankSet k.q q (fillEntry id bs (bank k.q q)) } |> landFlag us
  | _ => k

/-- The reply of a blocked A word: its bytes, or the first fault. -/
def joinReplies (us : List Access) : Reply :=
  match us.findSome? fun a => a.fault.bind fun _ => a.got with
  | some r => r
  | none => .data (answeredBytes us) (us.any unitMissed)

/-- A recorded outcome of a store (R424, R445). -/
def landStore (a : Access) (r : Reply) (k : Core) : Core :=
  let k := { k with out := k.out.filter fun b => b.id != a.id }
  match r with
  | .prot => { k with storeFaults := k.storeFaults ++ [(.prot, a.va)] }
  | .lost => { k with storeFaults := k.storeFaults ++ [(.shuttleLoss, a.va)] }
  | .doneNotDurable => { k with ndur := k.ndur.or (some a.va) }
  | _ => k

/-- The units of an access that has been answered whole. -/
def landGroup (a : Access) (k : Core) : Core :=
  let us := k.out.filter fun b => b.group == a.group
  if !us.all (fun b => b.got.isSome) then k
  else
    match a.dest with
    | .blockA =>
      { k with
        out := k.out.filter fun b => b.group != a.group, replyA := k.replyA ++ [(joinReplies us, (us.head?.map (·.va)).getD a.va)] }
    | .sreg _ _ | .amo _ | .ldq _ _ =>
      if us.any fun b => b.fault.isSome then k
      else landRead a.dest us { k with out := k.out.filter fun b => b.group != a.group }
    | _ => k

/-- An outstanding unit is answered. -/
def Core.answer (id : Nat) (r : Reply) (k : Core) : Core :=
  match k.out.find? (fun a => a.id == id && a.got.isNone) with
  | none => k
  | some a =>
    if a.dest == .store then landStore a r k
    else landGroup a { k with out := updateFirst (fun b => b.id == id) (fun b => { b with got := some r }) k.out }

/-- ACCESS_COMPLETION (R87, R424). -/
def execAccessCompletion (core : BitVec 8) (id : Nat) (reply : Reply) (s : State) : Out :=
  onCoreEvent core (withCore (Core.answer id reply)) s

/-! ## Delivery of a V trap (R262, R264, R266) -/

/-- Whether a V trap is due now: it is delivered between two A words, and not between a handler's re-arming and its return. -/
def Core.trapDue (k : Core) : Bool := k.vtrap.isSome && !(k.grd.isSome || k.aseq == .idle || (k.inHandler && k.rearmed))

/-- A V trap is delivered. -/
def deliverTrap (s : State) : State :=
  match s.core.vtrap with
  | none => s
  | some t =>
    if !s.core.trapDue then s
    else takeTrap t.code t.stream t.epc t.eval s.core.pc { s with core := { s.core with vtrap := none } }

/-- TRAP_DELIVERY (R265). -/
def execTrapDelivery (core : BitVec 8) (s : State) : Out := onCoreEvent core deliverTrap s

/-! ## Frames (R130 to R135) -/

/-- Where a unit lies in a save area, and its size (R134). -/
def unitPlace (u : Nat) : Nat × Nat := if u < 32 then (u * 0x10000, 0x10000) else (0x200000 + (u - 32) * 0x8000, 0x8000)

/-- Where a unit lies in its store of the core: the base in `cs` or `acc`. -/
def unitBase (u : Nat) : Nat := if u < 32 then u * 0x10000 else (u - 32) * 0x8000

/-- The store that holds a unit. -/
def Core.unitMem (k : Core) (u : Nat) : Mem := if u < 32 then k.cs else k.acc

/-- A unit's bytes, and its poisoned lines relative to it. -/
def Core.unitBytes (k : Core) (u : Nat) : List Byte := memBytes (unitPlace u).2 (unitBase u) (k.unitMem u)

/-- A unit's poisoned lines, counted from the unit's start. -/
def Core.unitPoison (k : Core) (u : Nat) : List Nat :=
  let lines := if u < 32 then k.csPoison else k.accPoison
  (lines.filter fun l => unitBase u ≤ 64 * l && 64 * l < unitBase u + (unitPlace u).2).map fun l => l - unitBase u / 64

/-- A unit of the bound strand takes contents, poison and freshness. -/
def Core.loadUnit (k : Core) (u : Nat) (bs : List Byte) (poison : List Nat) (fresh : Bool) : Core :=
  let b := unitBase u
  let lines := poison.map fun l => l + b / 64
  let k := { k with
    units := k.units.setIfInBounds u .own,
    fresh := if fresh then k.fresh ||| (1#40 <<< u) else k.fresh &&& ~~~(1#40 <<< u) }
  if u < 32 then { k with cs := memPut k.cs b bs, csPoison := heal b bs.length k.csPoison ++ lines }
  else { k with acc := memPut k.acc b bs, accPoison := heal b bs.length k.accPoison ++ lines }

/-- A claimed frame is zero-filled (R130, R131); a fresh unit stays fresh (R272). -/
def Core.fillFrame (u : Nat) (k : Core) : Core :=
  if k.units[u]? == some .fill then k.loadUnit u (List.replicate (unitPlace u).2 0) [] (k.fresh.getLsbD u) else k

/-- FRAME_FILL (R130). -/
def execFrameFill (core : BitVec 8) (unit : Nat) (s : State) : Out := onCoreEvent core (withCore (Core.fillFrame unit)) s

/-- The sites of bytes of a bobbin's save area (R134). -/
def saveSites (s : State) (e : PoolEntry) (write : Bool) (off n : Nat) : List Site :=
  virtSites s e.launch false write false (e.bob.save + w64 off) n

/-- An error in a frame of the core is counted; a tile has no physical address (R328). -/
def metFrame (unit : Nat) (lines : List Nat) (s : State) : State :=
  if unit < 32 then metUncorrCore (unitBase unit + 64 * lines.headD 0) s else { s with eccUnc := s.eccUnc + 1 }

/-- The bobbin whose save area cannot be read or written is lost (R135). -/
def loseSave (e : PoolEntry) (code : TrapCode) (off : Nat) (s : State) : State :=
  loseBobbin e.slot .saveUncorr (metFault code e.launch (e.bob.save + w64 off) s)

/-- A frame in SAVE is written to its owner's save area, or the owner is lost (R131, R135). -/
def saveFrame (owner unit : Nat) (uncorr : Bool) (s : State) : State :=
  match s.core.held.find? (fun h => h.owner == owner && h.unit == unit && h.saving), poolEntry s owner with
  | some h, some e =>
    if uncorr || !h.poison.isEmpty then loseBobbin owner .saveUncorr (metFrame unit h.poison s)
    else
      let bs := memBytes (unitPlace unit).2 0 h.data
      match writeSites (saveSites s e true (unitPlace unit).1 bs.length) bs none 0 s with
      | .stop i c => loseSave e c ((unitPlace unit).1 + i) s
      | .stall s => s
      | .ok _ s =>
        let s := updEntry owner (fun e => { e with saved := e.saved ||| (1#40 <<< unit) }) s
        { s with core := { s.core with held := s.core.held.filter fun x => !(x.owner == owner && x.unit == unit) }.note 0x16 1 }
  | _, _ => s

/-- FRAME_SAVE (R131). -/
def execFrameSave (core : BitVec 8) (owner unit : Nat) (uncorr : Bool) (s : State) : Out := onCoreEvent core (saveFrame owner unit uncorr) s

/-- A saved unit is loaded for the bobbin in binding; freshness comes from the control page (R134). An error makes the bobbin LOST
(R135, R273). -/
def loadFrame (unit : Nat) (uncorr : Bool) (s : State) : State :=
  match s.core.claimed.bind (poolEntry s) with
  | none => s
  | some e =>
    if s.core.units[unit]? != some .load then s
    else if uncorr then loseSave e .uncorr (unitPlace unit).1 s
    else
      match readSites .copy (saveSites s e false (unitPlace unit).1 (unitPlace unit).2) s with
      | .stop i c => loseSave e c ((unitPlace unit).1 + i) s
      | .stall s => s
      | .ok x s => withCore (fun k => (k.loadUnit unit x.bytes [] false).note 0x17 1) s

/-- FRAME_LOAD (R133). -/
def execFrameLoad (core : BitVec 8) (unit : Nat) (uncorr : Bool) (s : State) : Out := onCoreEvent core (loadFrame unit uncorr) s

/-! ## Stops (R71, R72, R134) -/

/-- Whether the V sequencer stands at its marker of `x`, or has halted where the seam has none (R72, R458). -/
def vAtMarker (k : Core) (x : BitVec 22) (marked : Bool) : Bool :=
  match k.vseq with
  | .running =>
    marked && !k.vloop.toList.any (·.active) &&
      match fetchV k with
      | .ok (.vShort op vd va) => op == 0x02 && va ++ vd == x
      | .ok (.vLong op f) => op == 0x02 && f.va ++ f.vd == x
      | _ => false
  | .trapped _ => false
  | _ => !marked

/-- Whether the M sequencer does. -/
def mAtMarker (k : Core) (x : BitVec 22) (marked : Bool) : Bool :=
  match k.mseq with
  | .running =>
    marked &&
      match fetchM k with
      | .ok (.m op f) => op == 0x03 && f.locA.extractLsb' 0 22 == x
      | _ => false
  | _ => !marked

/-- The control page's bytes (R134). -/
def controlPage (k : Core) : List Byte :=
  let w (n : Nat) (x : Nat) : List Byte := leBytes n x
  let gap (n : Nat) : List Byte := List.replicate n 0
  let ps := joinBits 1 ((List.range 16).map fun i => bit (k.getP (BitVec.ofNat 4 i)))
  ((List.range 64).flatMap fun i => w 8 (k.getS (BitVec.ofNat 6 i)).toNat) ++ k.b.toList.flatMap (fun x => w 8 x.toNat) ++
    k.tc.toList.flatMap (fun x => w 8 x.toNat) ++ w 8 ps ++ k.lc.toList.flatMap (fun x => w 4 x.toNat) ++
    k.vlc.toList.flatMap (fun x => w 4 x.toNat) ++ k.mlc.toList.flatMap (fun x => w 4 x.toNat) ++ w 8 k.fresh.toNat ++
    [k.srkey, k.srctr, k.aexc, k.vexc, k.evec, k.ecause, k.epc, k.eval].flatMap (fun x => w 8 x.toNat) ++ gap 0xC0 ++
    k.sem.toList.flatMap (fun x => w 2 x.toNat) ++ gap 0x200 ++
    ((List.range 16).flatMap fun i => w 128 (k.getM (BitVec.ofNat 4 i)).toNat)

/-- The frames that a stop leaves HELD: units with a frame that the masks name live (R131). -/
def heldAfter (k : Core) (slot order : Nat) (live : BitVec 40) : List HeldUnit :=
  ((List.range 40).filter fun u => live.getLsbD u && k.units[u]? == some .own).map fun u =>
    { owner := slot, unit := u, order := order, saving := false, fresh := k.fresh.getLsbD u, data := listed 0 (k.unitBytes u),
      poison := k.unitPoison u }

/-- The bobbin's state after its stop: WATCH where its monitor holds and is unwritten, else READY, at the place it held where the cause is
a pre-emption, at the back where it is another (R67, R68, R284). -/
def afterStop (slot : Nat) (cause : BitVec 4) (s : State) : State :=
  if s.monitors.any (fun m => m.slot == slot && !m.written) then updBob slot (fun b => { b with state := .watch }) s
  else
    let s := dropMonitor slot s
    if cause = 1 || cause = 2 then
      updEntry slot (fun e => { e with since := s.time, covered := none, progress := none, bob := { e.bob with state := .ready } }) s
    else makeReady slot s

/-- R72 step 6: the record and the control page are written, and the core has no strand. A PRI assigned since the selection governs the
next one (R69). -/
def leaveCore (slot : Nat) (x : BitVec 22) (cause : BitVec 4) (live : BitVec 40) (s : State) : State :=
  let frames := heldAfter s.core slot s.nextId live
  let hold : BitVec 8 := if frames.isEmpty then 0xFF else BitVec.ofNat 8 s.cur
  let s := { s with nextId := s.nextId + 1, core := { s.core.unbind with held := s.core.held ++ frames }.note 0x19 1 }
  let s := updEntry slot
    (fun e => { e with
      saved := 0, nextPri := none,
      bob := { e.bob with
        seam := x, cause := cause, hold := hold, nstop := e.bob.nstop + 1, pri := e.nextPri.getD e.bob.pri } }) s
  stopServed s.cur (afterStop slot cause s)

/-- The stop of the strand that stands at `x`, once every stream is there (R71, R72). -/
def finishStop (slot : Nat) (e : PoolEntry) (x : BitVec 22) (cause : BitVec 4) (seam : SeamEntry) (s : State) : State :=
  let k := s.core
  if (k.copyTrap.isNone && !copiesOver k) || !accessesOver s || k.units.toList.any (fun u => u == .fill) then s
  else
    match endFaults s with
    | some t => finishA s t
    | none =>
      if !queuesEmpty k then loseStrand .seamIntegrity s
      else
        match writeSites (saveSites s e true 0x240000 4096) (controlPage k) none 0 s with
        | .stop i c => loseSave e c (0x240000 + i) s
        | .stall s => s
        | .ok _ s => leaveCore slot x cause seam.live (metReads (seamReads s e.bob.code.toNat) s)

/-- A stop goes on (R72, R226, R267, R268). A SEAM word whose id the image's seam table does not hold loses the strand with SEAM_INTEGRITY
(assumption 31: no rule says what such a stop does). The stop waits while the seam table cannot be read (R327, R454). -/
def tryStop (s : State) : State :=
  match s.core.aseq, s.core.stop, boundEntry s with
  | .atSeam x, some r, some e =>
    let k := s.core
    let held := heldReads s (seamReads s e.bob.code.toNat)
    if !held.isEmpty then serveSites held s
    else
    match seamEntry s e.bob.code.toNat x with
    | none => loseStrand .seamIntegrity s
    | some seam =>
      if k.inHandler || k.vtrap.isSome then s
      else if k.mseq == .brk || k.mseq == .faulted then
        match endFaults s with
        | some t => finishA s t
        | none => if k.mseq == .faulted then loseStrand .seamIntegrity s else s
      else if !vAtMarker k x seam.v.isSome || !mAtMarker k x seam.m.isSome || !k.mflight.isEmpty then s
      else finishStop e.slot e x r.cause seam s
  | _, _, _ => s

/-- STOP_COMPLETION (R72). -/
def execStopCompletion (core : BitVec 8) (s : State) : Out := onCoreEvent core tryStop s

/-- R267: a stop or an EXIT that is not complete when its 2 ms end loses the strand; time in a handler does not count. -/
def stopLate (s : State) : State :=
  let k := s.core
  let late := (k.stop.any fun r => r.due ≤ s.time) || (k.exitDue.any fun d => d ≤ s.time)
  if k.slot.isSome && late && !k.inHandler then loseStrand .seamIntegrity s else s

/-- STOP_TIMEOUT (R72, R267). -/
def execStopTimeout (core : BitVec 8) (s : State) : Out := onCoreEvent core stopLate s

/-! ## Waits and monitors -/

/-- MONITOR_WAKE (R67, R75): a write to the line of a bobbin in WATCH. -/
def execMonitorWake (slot : Nat) (s : State) : Out :=
  .next
    (if s.monitors.any (fun m => m.slot == slot && m.written) && (poolEntry s slot).any (fun e => e.bob.state == .watch) then
      wake slot (dropMonitor slot s)
     else s)

/-- The state of an outcome; `s` where there is none. -/
def outState (s : State) : Out → State
  | .next t => t
  | _ => s

/-- The A-stream reads again for the WAIT.M that it stands at (R77); a trap that waits for its delivery comes first (R264). -/
def recheck (s : State) : State :=
  let k := s.core
  if k.aseq != .running || k.slot.isNone || k.vtrap.isSome then s
  else
    match (fetchA k).map decodeA with
    | some (.ok (.waitM sd sa size)) => outState s (execWaitM sd sa size s)
    | some (.ok (.grd sense pk)) =>
      match (fetchA { k with pc := k.pc + 4 }).map decodeA with
      | some (.ok (.waitM _ _ _)) => outState s (execGrd sense pk s)
      | _ => s
    | _ => s

/-- WAIT_M_RECHECK (R77). -/
def execWaitMRecheck (core : BitVec 8) (s : State) : Out := onCoreEvent core recheck s

/-! ## The core itself -/

/-- The bobbins whose contents only this core has: those with HELD frames, and one in binding whose HELD frames have become OWN (R133). -/
def onlyHere (s : State) : List Nat :=
  let binding := s.core.claimed.bind (poolEntry s)
  let taken := binding.filter fun e => (List.range 40).any fun u => s.core.units[u]? == some UnitSt.own && !e.saved.getLsbD u
  (taken.toList.map (·.slot) ++ s.core.held.map (·.owner)).eraseDups

/-- An uncorrectable error takes the core offline: its strand and the bobbins whose contents it holds are lost (R300). Another bobbin that
was SELECTED for it stays SELECTED, and the distributor claims a core for it anew (R67, R280). -/
def takeOffline (s : State) : State :=
  let s : State := match s.core.slot with
    | some slot => loseBobbin slot .uncorr s
    | none => s
  let s : State := (onlyHere s).foldl (fun s o => loseBobbin o .saveUncorr s) s
  { s with core := { s.core.unbind with claimed := none, offline := true } }

/-- CORE_OFFLINE (R300). -/
def execCoreOffline (core : BitVec 8) (s : State) : Out := onCoreEvent core takeOffline s

end Sys2Proof.Machine
end

