-- ==== Sys2Proof/Machine/EvCluster.lean ====
section
/-! DEFINITION. The distributor and the binding of bobbins (R67 to R70, R120, R133, R280 to R284). -/

namespace Sys2Proof.Machine

open Sys2Proof

/-! ## Selection (R280) -/

/-- A core is idle: online, without a strand and without a binding in progress. -/
def Core.isIdle (k : Core) : Bool := !k.offline && k.slot.isNone && k.claimed.isNone

/-- The idle cores. -/
def idleCores (s : State) : List (Nat × Core) := (allCores s).filter fun c => c.2.isIdle

/-- The READY bobbins. -/
def readyBobbins (s : State) : List PoolEntry := s.pool.filter fun e => e.bob.state == .ready

/-- Rank of a READY bobbin: higher levels first, then the front place (R68). -/
def rankOf (e : PoolEntry) : Nat := (127 - e.bob.pri.toNat) * 2 ^ 64 + e.place

/-- Whether a core's instruction stores hold the image at its current generation (R120). -/
def Core.holdsImage (k : Core) (code : Word) (gen : BitVec 32) : Bool := k.imgSize != 0 && k.codeBase == code && k.codeGen == gen

/-- The core that a bobbin is bound on (R280). -/
def chooseCore (s : State) (b : Bobbin) : Option Nat :=
  let idle := idleCores s
  let least (l : List (Nat × Core)) : Option Nat := (leastBy (·.1) l).map (·.1)
  if idle.any (fun c => c.1 == b.hold.toNat) then some b.hold.toNat
  else
    match imageAt s b.code.toNat with
    | none => least idle
    | some i => (least (idle.filter fun c => c.2.holdsImage b.code i.gen)).or (least idle)

/-- A core is claimed for a bobbin; its priority now governs this binding (R69). -/
def claimCore (e : PoolEntry) (s : State) (c : Nat) : State :=
  onCore c (withCore fun k => { k with claimed := some e.slot, selPri := e.bob.pri }) s

/-- A bobbin is SELECTED, and the core claimed for it. -/
def selectFor (e : PoolEntry) (c : Nat) (s : State) : State :=
  let s := updEntry e.slot (fun e => { e with covered := none, progress := none, bob := { e.bob with state := .selected } }) s
  claimCore e s c

/-- Whether a STATE is a reserved code. -/
def BobState.isReserved : BobState → Bool
  | .reserved _ => true
  | _ => false

/-- A slot that holds a reserved STATE: the bobbin is LOST when QID names a launch that is still active, and the slot is FREE otherwise
(R65). Its FAULT is a free value (assumption 42). -/
def settleReserved (e : PoolEntry) (s : State) : State :=
  if s.launches.any (fun l => l.q == e.bob.qid) then
    { loseWith e.slot TrapCode.all[Config.reservedFault s.freshVal].code s with freshVal := s.freshVal + 1 }
  else { s with pool := s.pool.filter fun x => x.slot != e.slot }

/-- A SELECTED bobbin whose core has gone offline: no core is claimed for it. -/
def unclaimed (s : State) : Option PoolEntry :=
  s.pool.find? fun e => e.bob.state == .selected && !(allCores s).any fun c => c.2.claimed == some e.slot

/-- The front bobbin of the highest level that holds a READY one is selected for an idle core (R280). -/
def selectNext (s : State) : State :=
  match leastBy rankOf (readyBobbins s) with
  | none => s
  | some e =>
    match chooseCore s e.bob with
    | none => s
    | some c => selectFor e c s

/-- DISTRIBUTOR_SELECTION (R65, R280). -/
def execDistributorSelection (s : State) : Out :=
  .next
    (match s.pool.find? (fun e => e.bob.state.isReserved) with
     | some e => settleReserved e s
     | none =>
       match unclaimed s with
       | some e => ((chooseCore s e.bob).map (claimCore e s)).getD s
       | none => selectNext s)

/-! ## Binding (R67, R70, R133, R134) -/

/-- Whether the save area lies wholly in one writable extent of the launch, and that extent. -/
def saveExtent (s : State) (e : PoolEntry) : Option Extent :=
  (extentAt s e.launch e.bob.save.toNat).bind fun x =>
    if x.attr.getLsbD 4 && e.bob.save.toNat + Config.saveArea ≤ x.base + x.size then some x else none

/-- The units that the resume seam names live; none at a first binding (R70, R133). -/
def liveUnits (b : Bobbin) (seam : SeamEntry) : BitVec 40 := if b.cause = 0 && b.nstop = 0 then 0 else seam.live

/-- A unit held here by the bobbin becomes OWN (R133 step 1). -/
def takeHeld (slot : Nat) (k : Core) : Core :=
  let mine := k.held.filter fun h => h.owner == slot
  let k := { k with held := k.held.filter fun h => h.owner != slot }
  mine.foldl (fun k h => k.loadUnit h.unit (memBytes (unitPlace h.unit).2 0 h.data) h.poison h.fresh) k

/-- The frames that a bobbin holds go to SAVE (R133 step 2). -/
def saveHeld (slot : Nat) (k : Core) : Core :=
  { k with held := k.held.map fun h => if h.owner == slot then { h with saving := true } else h }

/-- The frames of a bobbin on the other cores go to SAVE. -/
def saveElsewhere (slot : Nat) (s : State) : State := { s with parked := s.parked.map fun c => (c.1, saveHeld slot c.2) }

/-- Whether a bobbin's frames wait for their save. -/
def savesPending (s : State) (slot : Nat) : Bool :=
  s.parked.any (fun c => c.2.held.any fun h => h.owner == slot) || s.core.held.any fun h => h.owner == slot && h.saving

/-- One section of an image. -/
def sectionOf (s : State) (code field : Nat) : Section :=
  let off := imgField s code field 4
  let size := imgField s code (field + 4) 4
  ⟨off, size, listed 0 (engineBytes s (code + off) size)⟩

/-- The instruction stores hold the image (R120); errors that its reading meets are counted (R328). -/
def loadImage (i : Image) (s : State) : State :=
  if s.core.holdsImage (w64 i.code) i.gen then s
  else
    let load (k : Core) : Core :=
      { k with
        codeBase := w64 i.code, codeGen := i.gen, imgSize := i.size, secA := sectionOf s i.code 16, secV := sectionOf s i.code 24,
        secM := sectionOf s i.code 32 }
    metEngine i.code i.size (withCore load s)

/-- The registers of a first binding (R70). -/
def firstRegs (b : Bobbin) (k : Core) : Core :=
  let z := Core.reset 0
  { k with
    s := bankSet (bankSet z.s 1 b.index) 2 b.arg, b := z.b, p := z.p, lc := z.lc, vlc := z.vlc, mlc := z.mlc, tc := z.tc, m := z.m,
    sem := z.sem, srkey := 0, srctr := 0, aexc := 0, vexc := 0, evec := 0, ecause := 0, epc := 0, eval := 0, fresh := BitVec.allOnes 40 }

/-- A bank from consecutive fields of `w` bytes. -/
def bankFrom (n w : Nat) (page : List Byte) (off m : Nat) : Bank (BitVec m) n :=
  Vector.ofFn fun i => BitVec.ofNat m (leNat ((page.drop (off + w * i.val)).take w))

/-- The fields of c.aexc, c.vexc and c.ecause; the rest is reserved (R3, R116, R167, R260). -/
abbrev aexcMask : Word := 0x101

/-- The fields of a tile descriptor (R117); its other bits are reserved and read zero (R3). -/
abbrev tcMask : Word := 0xFFFFFFFF00FF07FF
abbrev vexcMask : Word := 0x1F1F
abbrev ecauseMask : Word := 0x33FF

/-- The registers of a later binding, from the control page (R134), reserved bits left out; units that are not live are fresh (R272). -/
def pageRegs (page : List Byte) (live : BitVec 40) (k : Core) : Core :=
  let f (off n : Nat) : Nat := leNat ((page.drop off).take n)
  let ps := BitVec.ofNat 16 (f 0x2C0 2)
  { k with
    s := bankFrom 6 8 page 0 64, b := bankFrom 3 8 page 0x200 64, tc := (bankFrom 4 8 page 0x240 64).map (· &&& tcMask),
    p := Vector.ofFn fun i => ps.getLsbD i.val, lc := bankFrom 2 4 page 0x2C8 32, vlc := bankFrom 2 4 page 0x2D8 32,
    mlc := bankFrom 2 4 page 0x2E8 32, fresh := BitVec.ofNat 40 (f 0x2F8 5) ||| ~~~live, srkey := w64 (f 0x300 8),
    srctr := w64 (f 0x308 8), aexc := w64 (f 0x310 8) &&& aexcMask, vexc := w64 (f 0x318 8) &&& vexcMask, evec := w64 (f 0x320 8),
    ecause := w64 (f 0x328 8) &&& ecauseMask,
    epc := w64 (f 0x330 8), eval := w64 (f 0x338 8), sem := bankFrom 8 2 page 0x400 16, m := bankFrom 4 128 page 0x800 1024 }

/-- Breakpoints and watchpoints of a queue, in their places (R400). -/
def debugFor (s : State) (q : BitVec 12) : List DebugReg := s.dbg.toList.map fun d => { d with enable := d.enable && d.queue == q }

/-- The sequencers stand at their markers of the seam, and the strand runs (R70); the losses of the strands before it break no stream of its
own (R431). -/
def startStrand (e : PoolEntry) (seam : SeamEntry) (s : State) : State :=
  let at_ (sec : Section) (o : Nat) : Word := imgBase + w64 (sec.off + o)
  let start (k : Core) : Core :=
    { k with
      slot := some e.slot, claimed := none, launch := e.launch, aseq := .running, pc := at_ k.secA seam.a,
      vseq := if seam.v.isSome then .running else .idle, vpc := at_ k.secV (seam.v.getD 0),
      mseq := if seam.m.isSome then .running else .idle, mpc := at_ k.secM (seam.m.getD 0), stepNo := 0, sigma := 0,
      dbg := debugFor s e.bob.qid }.note 0x18 1
  renewStreams (updBob e.slot (fun b => { b with state := .bound }) (metReads (seamReads s e.bob.code.toNat) (withCore start s)))

/-- The last step of a binding, with every unit there: the registers, the instruction stores, and the start. -/
def finishBinding (e : PoolEntry) (i : Image) (seam : SeamEntry) (s : State) : State :=
  let live := liveUnits e.bob seam
  if e.bob.cause = 0 && e.bob.nstop = 0 then startStrand e seam (loadImage i (withCore (firstRegs e.bob) s))
  else
    match readSites .copy (saveSites s e false 0x240000 4096) s with
    | .stop i c => loseSave e c (0x240000 + i) s
    | .stall s => s
    | .ok x s => startStrand e seam (loadImage i (withCore (pageRegs x.bytes live) s))

/-- The saved live units of a bobbin that have no frame yet. -/
def unitsToLoad (e : PoolEntry) (live : BitVec 40) (k : Core) : List Nat :=
  (List.range 40).filter fun u => live.getLsbD u && e.saved.getLsbD u && k.units[u]? != some .own

/-- A binding with its save area resident: frames first (R133), then the start. -/
def bindUnits (e : PoolEntry) (i : Image) (seam : SeamEntry) (s : State) : State :=
  let s := settleHold e.slot (saveElsewhere e.slot s)
  if savesPending s e.slot then s
  else
    let s := settleHold e.slot (withCore (takeHeld e.slot) s)
    match unitsToLoad e (liveUnits e.bob seam) s.core with
    | [] =>
      match if s.core.holdsImage (w64 i.code) i.gen then [] else heldUp s false i.code i.size with
      | [] => finishBinding e i seam s
      | sites => serveSites sites s
    | us => settleSaving (withCore (fun k => us.foldl (fun k u => k.claimFor .load true u) k) s)

/-- The binding in progress on the selected core goes on (R67). -/
def tryBind (s : State) : State :=
  match s.core.claimed.bind (poolEntry s) with
  | none => s
  | some e =>
    match imageAt s e.bob.code.toNat with
    | none => loseBobbin e.slot .illegal s
    | some i =>
      let held := heldReads s (seamReads s i.code)
      if !held.isEmpty then serveSites held s
      else
        match seamEntry s i.code e.bob.seam, saveExtent s e with
        | none, _ => loseBobbin e.slot .illegal s
        | some _, none => loseBobbin e.slot .prot s
        | some seam, some x =>
          if extentLost s e.launch x then loseBobbin e.slot .uncorr s
          else
            match pagesOutside s x e.bob.save.toNat Config.saveArea with
            | p :: rest => serveSites (p :: rest) s
            | [] => bindUnits e i seam (pinPages x e.bob.save.toNat Config.saveArea true s)

/-- BINDING (R67, R70, R133). -/
def execBinding (core : BitVec 8) (s : State) : Out := onCoreEvent core tryBind s

/-! ## Stops that the distributor posts (R281 to R284) -/

/-- The bound strands without a stop pending, with their cores. -/
def stoppable (s : State) : List (Nat × Core) := (allCores s).filter fun c => c.2.slot.isSome && c.2.stop.isNone

/-- The strand of lowest priority below `p`, on the lowest-numbered core among equals. -/
def victim (s : State) (p : Nat) : Option Nat :=
  (leastBy (fun c => c.2.selPri.toNat * 256 + c.1) ((stoppable s).filter fun c => c.2.selPri.toNat < p)).map (·.1)

/-- Whether a stop posted for a bobbin on a core is still pending. -/
def stopPending (s : State) (c : Option Nat) : Bool := (c.bind (coreAt s)).any fun k => k.stop.isSome

/-- A stop request is posted on core `c`. -/
def postOn (c : Nat) (cause : BitVec 4) (s : State) : State := onCore c (postStop cause) s

/-- EXPRESS_PREEMPTION (R281); a stop of another cause, one for progress among them, does not cover a bobbin (DESIGN CHOICE, assumption 107). -/
def execExpressPreemption (s : State) : Out :=
  .next
    (match leastBy rankOf ((readyBobbins s).filter fun e => e.bob.pri == 127 && !stopPending s e.covered) with
     | none => s
     | some e =>
       if !(idleCores s).isEmpty then s
       else
         match victim s 127 with
         | none => s
         | some c => postOn c 1 (updEntry e.slot (fun e => { e with covered := some c }) s))

/-- Nanoseconds of a setting in µs (R278). -/
def micros (n : Nat) : Nat := 1000 * n

/-- STARVATION_PREEMPTION (R282). -/
def execStarvationPreemption (slot : Nat) (s : State) : Out :=
  .next
    (match poolEntry s slot with
     | none => s
     | some e =>
       if e.bob.state != .ready || e.bob.pri == 127 || s.time < e.since + micros s.starv.toNat || !(idleCores s).isEmpty then s
       else
         match victim s e.bob.pri.toNat with
         | none => s
         | some c => postOn c 2 (updEntry slot (fun e => { e with since := s.time }) s))

/-- The wait of a strand that the progress rule covers: when it began and the cause of its stop (R80, R283). -/
def coveredWait (k : Core) : Option (Nat × BitVec 4) :=
  let held : Option (Nat × BitVec 4) := k.wait.map fun w => (w.2, match w.1 with | .waitM => 5 | .spin => 6 | .barWt => 7)
  let spun : Option (Nat × BitVec 4) := k.spin.map fun x => (x.2, 6)
  match held, spun with
  | some a, some b => if b.1 < a.1 then some b else some a
  | a, b => a.or b

/-- The strand whose eligible wait began earliest (R283), one that is already stopping included. -/
def longestWait (s : State) (p : BitVec 7) : Option (Nat × BitVec 4) :=
  let waits := ((allCores s).filter fun c => c.2.slot.isSome).filterMap fun c =>
    match coveredWait c.2 with
    | some (t, cause) => if c.2.selPri ≤ p && t + micros s.prog.toNat ≤ s.time then some (t, c.1, cause) else none
    | none => none
  (leastBy (fun w => w.1 * 256 + w.2.1) waits).map fun w => w.2

/-- PROGRESS_STOP (R80, R283). -/
def execProgressStop (slot : Nat) (s : State) : Out :=
  .next
    (match poolEntry s slot with
     | none => s
     | some e =>
       if e.bob.state != .ready || stopPending s e.progress then s
       else
         match longestWait s e.bob.pri with
         | none => s
         | some (c, cause) => postOn c cause (updEntry slot (fun e => { e with progress := some c, since := s.time }) s))

end Sys2Proof.Machine
end

