-- ==== Sys2Proof/Machine/EvMemory.lean ====
section
/-! DEFINITION. The memory processor beside its mailbox: the event ring (R388), residency (R314), links and columns (R326, R327), errors
found by the scrub (R328); interrupts (R382, R390). -/

namespace Sys2Proof.Machine

open Sys2Proof

/-! ## Interrupts -/

/-- Whether route `k` of the Miller takes an IRQ action (R390). -/
def routeTakes (s : State) (fn : BitVec 6) (vec : BitVec 11) (k : Nat) : Bool :=
  let r := bank s.miller.irq (BitVec.ofNat 5 k)
  r.getLsbD 63 && r.extractLsb' 16 6 == fn && vec != 0 && r.extractLsb' 0 11 == vec

/-- The machine external interrupt of the Miller (R390): it takes it while any bit of mc.ipend is set. -/
def Miller.interrupt (m : Miller) : Bool := m.run && m.ipend != 0

/-- An IRQ action: to the Miller by its lowest matching route, else to the host (R366, R390). -/
def irqAction (fn : BitVec 6) (vec : BitVec 11) (s : State) : State :=
  match (List.range 32).find? (routeTakes s fn vec) with
  | some k => { s with miller := { s.miller with ipend := s.miller.ipend ||| (1#32 <<< k) } }
  | none => sendIrq fn vec s

/-! ## PAGE events (R388) -/

/-- A requested page with its backing, its number and its place in arrival order. -/
structure WantedPage where
  back : Backing
  page : Nat
  order : Nat
  host : Bool
  told : Bool
  time : Nat
  deriving DecidableEq, Repr

/-- The requested pages of a backing, from page `i` on. -/
def wantedOf (b : Backing) : Nat → List Page → List WantedPage
  | _, [] => []
  | i, p :: rest =>
    match p.wanted with
    | some n => ⟨b, i, n, p.host, p.told, p.askedAt⟩ :: wantedOf b (i + 1) rest
    | none => wantedOf b (i + 1) rest

/-- The pending requests of the die. -/
def wantedPages (s : State) : List WantedPage := s.backings.flatMap fun b => wantedOf b 0 b.pages

/-- PAGE events of pages whose contents the host holds, in arrival order, while the ring has room; each holds the time of its request. -/
def tellPages : Nat → State → State
  | 0, s => s
  | fuel + 1, s =>
    if !s.evring.en || s.evring.full then s
    else
      match leastBy (·.order) ((wantedPages s).filter fun w => w.host && !w.told) with
      | none => s
      | some w =>
        tellPages fuel (writeEvent 1 w.back.fn w.back.id w.page w.time (updPage w.back.id w.page (fun p => { p with told := true }) s))

/-- All PAGE events that can be written now. -/
def tellAll (s : State) : State := tellPages Config.pageRequests s

/-! ## Residency (R314) -/

/-- A range of physical memory set to zero. -/
def clearPhys (pa n : Nat) (s : State) : State :=
  if svTouches s pa n then (putPhys pa (List.replicate n 0) none 0 s).1
  else
    { s with
      mem := memClear s.mem pa n, poison := heal pa n s.poison, images := bumpImages pa n s.images,
      monitors := touchMonitors pa n s.monitors }

/-- The request that the memory processor serves next: the earliest of those that no host fetch answers. -/
def nextWanted (s : State) : Option WantedPage := leastBy (·.order) ((wantedPages s).filter fun w => !w.host)

/-- A page is resident and no request for it is pending. -/
def settlePage (back i : Nat) (s : State) : State :=
  updPage back i (fun p => { p with res := true, wanted := none, host := false, told := false }) s

/-- PAGE_RESIDENT (R314): the next requested page, never written, becomes resident with zeros, once its frame can be written (R327, R454). -/
def execPageResident (backing page : Nat) (s : State) : Out :=
  .next
    (match nextWanted s, pageOf s backing page with
     | some w, some p =>
       let n := pageSize w.back.psz
       if w.back.id != backing || w.page != page then s
       else
         match heldUp s true p.pa n with
         | [] => settlePage backing page (clearPhys p.pa n s)
         | sites => serveSites sites s
     | _, _ => s)

/-! ## Links and columns (R326, R327, R333) -/

/-- SPLEFT of column `k` in dm.vcol. -/
def spareLanes (x : Word) (k : BitVec 3) : Nat := bitsOf x.toNat (8 + 5 * k.toNat) 5

/-- dm.vcol with SPLEFT of a column set. -/
def setSpares (x : Word) (k : BitVec 3) (n : BitVec 5) : Word :=
  let at_ := 8 + 5 * k.toNat
  (x &&& ~~~(0x1F#64 <<< at_)) ||| (n.zeroExtend 64 <<< at_)

/-- dm.vcol with a column marked failed. -/
def failColumn (x : Word) (k : BitVec 3) : Word := x ||| (1#64 <<< k.toNat)

/-- dm.vcol of a vault changed. -/
def updVcol (v : BitVec 6) (f : Word → Word) (s : State) : State := { s with vcol := bankSet s.vcol v (f (bank s.vcol v)) }

/-- Spare lanes of a core's link that swaps have used. -/
def lanesUsed (s : State) (c : Nat) : Nat := ((s.coreLanes.find? fun e => e.1 == c).map (·.2)).getD 0

/-- LANE_SWAP (R326): a spare takes the lane's place; without one the link fails. -/
def execLaneSwap (link : LinkName) (s : State) : Out :=
  .next
    (match link with
     | .vaultColumn v k =>
       let n := spareLanes (bank s.vcol v) k
       if n = 0 then updVcol v (fun x => failColumn x k) s else noteDie 9 1 (updVcol v (fun x => setSpares x k (BitVec.ofNat 5 (n - 1))) s)
     | .coreLink c =>
       let n := lanesUsed s c.toNat
       if 96 ≤ n then onCore c.toNat takeOffline s
       else noteDie 9 1 { s with coreLanes := (c.toNat, n + 1) :: removeFirst (fun e => e.1 == c.toNat) s.coreLanes })

/-- A column has trained, with so many spares left; a failed one stays failed until the next cold reset (R327). -/
def trainColumn (v : BitVec 6) (k : BitVec 3) (spares : BitVec 5) (failed : Bool) (s : State) : State :=
  let f (x : Word) : Word :=
    let x := setSpares x k (if 24 < spares then 24 else spares)
    if failed then failColumn x k else x
  updVcol v f { s with retrain := s.retrain.filter (· != 8 * v.toNat + k.toNat) }

/-- VAULT_COLUMN_TRAINING (R327). -/
def execVaultColumnTraining (vault : BitVec 6) (column : BitVec 3) (spares : BitVec 5) (failed : Bool) (s : State) : Out :=
  .next (trainColumn vault column spares failed s)

/-- A column that has not retrained since a warm reset does so, with the spares that the hard map leaves it (R327). -/
def retrainNext (s : State) : State :=
  match s.retrain with
  | [] => s
  | n :: _ =>
    let v : BitVec 6 := BitVec.ofNat 6 (n / 8)
    let k : BitVec 3 := BitVec.ofNat 3 (n % 8)
    trainColumn v k (BitVec.ofNat 5 (spareLanes (bank s.hardVcol v) k)) false s

/-- The line that a physical address names, for the poison of memory: a block slot's place in its vault stands for the slot (R322). -/
def lineOf (s : State) (pa : Nat) : Nat := (((blockAtPlace s pa).map (blockBase + ·)).getD pa) / 64

/-- A line poisoned. -/
def addLine (l : Nat) (lines : List Nat) : List Nat := if lines.contains l then lines else lines ++ [l]

/-- An uncorrectable error poisons its line, in memory or in a core store (R328). -/
def poisonAt (pa : Nat) (s : State) : State :=
  if coreBase ≤ pa && pa < coreEnd then
    let o := pa - coreBase
    onCore (o / 0x200000) (withCore fun k => { k with csPoison := addLine (o % 0x200000 / 64) k.csPoison }) s
  else { s with poison := addLine (lineOf s pa) s.poison }

/-- Whether a physical address lies in a memory of the die that R328 protects and that has addresses. -/
def isProtectedAddr (pa : Nat) : Bool :=
  pa < vaultEnd || (coreBase ≤ pa && pa < coreEnd) || (blockBase ≤ pa && pa < blockEnd)

/-- PATROL_SCRUB (R328, R388): a corrected word is written back and counted; an uncorrectable one poisons its line and is reported. -/
def execPatrolScrub (addr : BitVec 48) (result : ScrubResult) (s : State) : Out :=
  .next
    (if !isProtectedAddr addr.toNat then s
     else
       match result with
       | .clean => s
       | .corrected => noteDie 8 1 { s with eccCorr := s.eccCorr + 1 }
       | .uncorrectable => metUncorr addr.toNat (poisonAt addr.toNat s))

end Sys2Proof.Machine
end

