-- ==== Sys2Proof/Machine/EvLaunch.lean ====
section
/-! DEFINITION. Work queues and the queue processor (R359 to R378). -/

namespace Sys2Proof.Machine

open Sys2Proof

/-! ## Grants (R386) -/

/-- Whether a byte lies in memory granted to a function. -/
def grantedByte (s : State) (fn : BitVec 6) (write : Bool) (a : Nat) : Bool :=
  s.grants.any fun g => g.fn == fn && g.base ≤ a && a < g.base + g.size && (!write || g.writable)

/-- Whether a range does. -/
def granted (s : State) (fn : BitVec 6) (write : Bool) (a n : Nat) : Bool := (List.range n).all fun i => grantedByte s fn write (a + i)

/-! ## Registers of a queue (R360 to R363) -/

/-- Whether who writes a queue's TAIL may: the host through the queue's own function, or the Miller while it runs (R359, R380). -/
def mayRing (s : State) (fn : BitVec 6) : Issuer → Bool
  | .host f => f == fn
  | .miller => s.miller.run

/-- WQ_TAIL_WRITE (R363, R380). -/
def execWqTailWrite (by_ : Issuer) (q : BitVec 12) (value : Word) (s : State) : Out :=
  .next
    (let w := queueAt s q
     if !mayRing s w.fn by_ || w.pm then s
     else
       let tail := value.extractLsb' 0 32
       let past := w.slots < (tail - w.head).toNat
       updQueue q (fun w => { w with tail := tail, err := w.err || past, ecause := if past && !w.err then 1 else w.ecause }) s)

/-! ## Descriptors (R364 to R366) -/

/-- A condition or signal action. -/
def semOpOf (bs : List Byte) (off : Nat) : SemOp :=
  let opw := recField bs (off + 6) 1
  { addr := recField bs off 6, op := BitVec.ofNat 3 opw, w64 := opw / 8 % 2 == 1, value := w64 (recField bs (off + 8) 8),
    bad := opw / 16 != 0 || recField bs (off + 7) 1 != 0 }

/-- The fields of a descriptor. -/
def descriptorOf (bs : List Byte) : LaunchDesc :=
  { code := w64 (recField bs 0 8), proc := BitVec.ofNat 16 (recField bs 8 2), flags := BitVec.ofNat 16 (recField bs 10 2),
    n := BitVec.ofNat 32 (recField bs 12 4), ibase := w64 (recField bs 16 8), arg := w64 (recField bs 24 8),
    save := w64 (recField bs 32 8), bind := w64 (recField bs 40 8), crec := w64 (recField bs 48 8), tag := w64 (recField bs 56 8),
    wait0 := semOpOf bs 64, wait1 := semOpOf bs 80, sig0 := semOpOf bs 96, sig1 := semOpOf bs 112 }

/-- ON (R378), SERIAL and PBW (R365). -/
def LaunchDesc.on (d : LaunchDesc) : BitVec 2 := d.flags.extractLsb' 1 2
def LaunchDesc.serial (d : LaunchDesc) : Bool := d.flags.getLsbD 0
def LaunchDesc.pbw (d : LaunchDesc) : Bool := d.flags.getLsbD 3

/-- A launch as read. -/
def newLaunch (s : State) (w : WorkQueue) (d : LaunchDesc) : Launch :=
  { id := s.nextId, q := w.q, fn := w.fn, head := w.head, desc := d, stage := .check, status := 0, exts := [], walked := 0, ext := 0, panels := [],
    created := 0, done := 0, lost := 0, first := 0, faults := 0, start := 0 }

/-- The descriptor at the head is read; a completion record that cannot be written stops the queue (R369). -/
def readHead (q : BitVec 12) (s : State) : State :=
  let w := queueAt s q
  let d := descriptorOf (engineBytes s (w.entry w.head) 128)
  let s := metEngine (w.entry w.head) 128 s
  if d.crec.toNat % 64 != 0 || !granted s w.fn true d.crec.toNat 64 then
    updQueue q (fun w => { w with err := true, ecause := 2, head := w.head + 1 }) s
  else updQueue q (fun w => { w with front := some (newLaunch s w d) }) { s with nextId := s.nextId + 1 }

/-! ## The checks (R370) -/

/-- An extent that the image declares, with its backing from the binding block (R60, R367). -/
structure ExtPlan where
  idx : Nat
  psz : BitVec 3
  attr : BitVec 8
  size : Nat
  base : Nat
  handle : Nat
  deriving DecidableEq, Repr

/-- Extents, panels and procedures that an image declares. -/
def extCount (s : State) (code : Nat) : Nat := imgField s code 60 4
def panelCount (s : State) (code : Nat) : Nat := imgField s code 68 4
def procCount (s : State) (code : Nat) : Nat := imgField s code 76 4

/-- The plan of extent `j`. -/
def extPlan (s : State) (d : LaunchDesc) (j : Nat) : ExtPlan :=
  let code := d.code.toNat
  let e := imgField s code 56 4 + 16 * j
  let b := d.bind.toNat + 16 + 16 * j
  { idx := imgField s code e 1, psz := BitVec.ofNat 3 (imgField s code (e + 1) 1), attr := BitVec.ofNat 8 (imgField s code (e + 2) 1),
    size := imgField s code (e + 8) 8, base := engineNat s b 8, handle := engineNat s (b + 8) 8 }

/-- The plans of a launch's extents, in table order. -/
def extPlans (s : State) (d : LaunchDesc) : List ExtPlan := (List.range (extCount s d.code.toNat)).map (extPlan s d)

/-- VMASK and PBOFF of the binding block (R367). -/
def vmaskOf (s : State) (d : LaunchDesc) : Nat := engineNat s d.bind.toNat 8
def pboffOf (s : State) (d : LaunchDesc) : Nat := engineNat s (d.bind.toNat + 8) 4

/-- The backing that a handle names for a function. -/
def handleAt (s : State) (fn : BitVec 6) (h : Nat) : Option Backing := s.backings.find? fun b => b.handle && b.id == h && b.fn == fn

/-- Home and PROTECTED of an attribute byte (R60). -/
def attrVault (a : BitVec 8) : Bool := a.getLsbD 3
def attrProt (a : BitVec 8) : Bool := a.getLsbD 2

/-- Check 1. -/
def badDesc (s : State) (d : LaunchDesc) : Bool :=
  let waits := [d.wait0, d.wait1]
  let sigs := [d.sig0, d.sig1]
  waits.any (fun x => 6 ≤ x.op) || sigs.any (fun x => 4 ≤ x.op) || (waits ++ sigs).any (·.bad) || d.on == 3 ||
    d.flags.extractLsb' 4 12 != 0 || d.save.extractLsb' 0 12 != 0 || (d.n != 0 && d.save == 0) ||
      (d.bind == 0 && (imageAt s d.code.toNat).isSome && extCount s d.code.toNat != 0) || d.bind.extractLsb' 0 6 != 0

/-- Check 2. -/
def badImage (s : State) (d : LaunchDesc) : Bool := (imageAt s d.code.toNat).isNone || procCount s d.code.toNat ≤ d.proc.toNat

/-- Check 3 for one action. -/
def badSem (s : State) (fn : BitVec 6) (write : Bool) (x : SemOp) : Bool :=
  let n := if x.w64 then 8 else 4
  x.addr % n != 0 || !(x.addr + n ≤ vaultEnd) || !granted s fn write x.addr n

/-- Check 3. -/
def badSems (s : State) (fn : BitVec 6) (d : LaunchDesc) : Bool :=
  [d.wait0, d.wait1].any (fun x => 1 ≤ x.op && x.op ≤ 5 && badSem s fn false x) ||
    [d.sig0, d.sig1].any (fun x => (x.op == 1 || x.op == 2) && badSem s fn true x)

/-- Whether one extent's binding is refused. -/
def badPlan (s : State) (fn : BitVec 6) (p : ExtPlan) : Bool :=
  p.base % pageSize p.psz != 0 || p.base / 2 ^ 55 % 2 == 1 || 2 ^ 55 < p.base + p.size ||
    (p.handle != 0 &&
      match handleAt s fn p.handle with
      | none => true
      | some b =>
        b.pages.length * pageSize b.psz < p.size || b.psz != p.psz || b.vault != attrVault p.attr ||
          (attrProt p.attr && b.pages.any fun x => hostBase ≤ x.pa))

/-- Whether two extents overlap. -/
def plansMeet (a b : ExtPlan) : Bool := a.base < b.base + b.size && b.base < a.base + a.size

/-- Whether some two of them do. -/
def anyMeet : List ExtPlan → Bool
  | [] => false
  | p :: rest => rest.any (plansMeet p) || anyMeet rest

/-- Whether ranges lie in one writable extent. -/
def inWritable (ps : List ExtPlan) (rs : List (Nat × Nat)) : Bool :=
  ps.any fun p => p.attr.getLsbD 4 && rs.all fun r => p.base ≤ r.1 && r.1 + r.2 ≤ p.base + p.size

/-- The numbers of the panels that an image declares. -/
def panelNums (s : State) (code : Nat) : List Nat := (List.range (panelCount s code)).map fun j => imgField s code (imgField s code 64 4 + 16 * j) 1

/-- Check 4. -/
def badExts (s : State) (fn : BitVec 6) (d : LaunchDesc) : Bool :=
  let ps := extPlans s d
  let n := 16 + 16 * ps.length
  (!ps.isEmpty && !((List.range n).all fun i => isFrameAddr (d.bind.toNat + i) && grantedByte s fn false (d.bind.toNat + i))) ||
    ps.any (badPlan s fn) || anyMeet ps || !inWritable ps [(d.save.toNat, d.n.toNat * Config.saveArea)] ||
      (d.pbw && panelCount s d.code.toNat != 0 &&
        !inWritable ps ((panelNums s d.code.toNat).map fun n => (d.arg.toNat + pboffOf s d + 8 * n, 8)))

/-- The first failing check, or OK (R370, R377). -/
def checkLaunch (s : State) (fn : BitVec 6) (d : LaunchDesc) : BitVec 8 :=
  if badDesc s d then 2
  else if d.n != 0 && badImage s d then 3
  else if badSems s fn d then 4
  else if d.n != 0 && badExts s fn d then 5
  else 0

/-! ## Conditions (R366, R371) -/

/-- The memory that the conditions of a launch read (R366). -/
def semReads (d : LaunchDesc) : List (Nat × Nat) := ([d.wait0, d.wait1].filter fun x => 1 ≤ x.op).map fun x => (x.addr, if x.w64 then 8 else 4)

/-- Whether a condition holds. -/
def semHolds (s : State) (x : SemOp) : Bool :=
  let n := if x.w64 then 8 else 4
  let m := engineNat s x.addr n
  let v := x.value.toNat % 2 ^ (8 * n)
  match x.op.toNat with
  | 0 => true
  | 1 => m == v
  | 2 => m != v
  | 3 => v ≤ m
  | 4 => m < v
  | 5 => m &&& v == v
  | _ => false

/-- The launch at the head of a queue changed. -/
def updFront (q : BitVec 12) (f : Launch → Launch) (s : State) : State := updQueue q (fun w => { w with front := w.front.map f }) s

/-- A table of `n` bytes is written, in both copies: its lines are whole again (R307, R328). -/
def writeTable (a n : Nat) (s : State) : State := { s with poison := heal a n (heal (a + copyStep) n s.poison) }

/-- HEAD passes the launch with a status (R369). -/
def advanceHead (q : BitVec 12) (l : Launch) (s : State) : State :=
  updQueue q (fun w => { w with head := w.head + 1, front := none, waiting := false }) { s with launches := s.launches ++ [l] }

/-- HEAD passes the launch, which is dispatched, or completes with its status (R369); the first dispatch puts BLOCKS in force (R331). A
dispatched launch with bobbins gets an extent table (R308), or NOMEM. -/
def passHead (q : BitVec 12) (status : BitVec 8) (s : State) : State :=
  match (queueAt s q).front with
  | none => s
  | some l =>
    let l := { l with start := w64 s.time, stage := .running }
    if status != 0 then advanceHead q { l with status := status } s
    else
      let s := noteDie 2 1 { s with blocksLock := true }
      if l.desc.n = 0 then advanceHead q l s
      else
        match tableRoom s tableBytes with
        | none => advanceHead q { l with status := 6 } s
        | some a => advanceHead q { l with stage := .translate, ext := w64 a } (writeTable a tableBytes s)

/-- A launch whose conditions hold goes on when an active slot is free. -/
def tryPass (q : BitVec 12) (s : State) : State := if s.launches.length < Config.activeLaunches then passHead q 0 s else s

/-- One evaluation of the conditions at the head; one that cannot read a semaphore now does not find it holding (R327, R454). -/
def evaluate (q : BitVec 12) (s : State) : State :=
  match (queueAt s q).front with
  | none => s
  | some l =>
    let sites := heldReads s (semReads l.desc)
    let holds := sites.isEmpty && semHolds s l.desc.wait0 && semHolds s l.desc.wait1
    let s := metReads (if sites.isEmpty then semReads l.desc else []) (serveSites sites s)
    if holds then
      tryPass q (updQueue q (fun w => { w with waiting := false }) (updFront q (fun l => { l with stage := .translate }) s))
    else updQueue q (fun w => { w with waiting := true }) s

/-- CONDITION_EVALUATION (R371): the conditions of a waiting launch once more. -/
def execConditionEvaluation (q : BitVec 12) (s : State) : Out :=
  .next
    (let w := queueAt s q
     if w.waiting && w.en && !w.err then evaluate q s else s)

/-! ## Frames (R307, R367, R443) -/

/-- Ranges that unprotected frames keep out of (R440). -/
def protectedRanges (v : Selvedge) : List (Nat × Nat) :=
  if v.en then [(v.base0.toNat, 8 * v.n0.toNat * 4096), (v.base1.toNat, 8 * v.n1.toNat * 4096)] else []

/-- A frame in the first of several windows that has one; `hint` is tried first. -/
def frameIn (used : List (Nat × Nat)) (size hint : Nat) : List (Nat × Nat) → Option Nat
  | [] => none
  | (lo, hi) :: rest =>
    let from_ := if lo ≤ hint && hint < hi then hint else lo
    ((findRoom used size size hi (used.length + 1) (roundUp from_ size)).or (findRoom used size size hi (used.length + 1) (roundUp lo size))).or
      (frameIn used size hint rest)

/-- The windows that the frames of an extent may lie in, in order of preference (R367, R443). -/
def frameWindows (s : State) (vault prot : Bool) (vmask : Nat) : List (Nat × Nat) :=
  let all :=
    if vault then
      ((List.range 64).filter fun v => vmask == 0 || vmask.testBit v).map (fun v => (vaultBase + v * 0x1800000, vaultBase + (v + 1) * 0x1800000))
        ++ [(vaultBase, vaultEnd)]
    else [(0, vaultBase)]
  if prot then
    let (base, n) := svRange s.sv vault
    if !s.sv.en then [] else (all.map fun w => (max w.1 base, min w.2 (base + 6 * n * 4096))).filter fun w => w.1 < w.2
  else all

/-- A page without contents at a frame of its own. -/
def freshPage (pa : Nat) : Page := ⟨pa, pa, false, false, false, none, false, 0⟩

/-- Up to `n` frames more for a backing; none where memory lacks them. -/
def addFrames (windows : List (Nat × Nat)) (taken : List (Nat × Nat)) (size : Nat) : Nat → List Page → Option (List Page)
  | 0, ps => some ps
  | n + 1, ps =>
    let used := ps.map (fun p => (p.own, size)) ++ taken
    let hint := (ps.getLast?.map fun p => p.own + size).getD 0
    match frameIn used size hint windows with
    | none => none
    | some pa => addFrames windows taken size n (ps ++ [freshPage pa])

/-- Frames of a backing up to `n` pages more. -/
def growBacking (s : State) (b : Backing) (vmask n : Nat) : Option Backing :=
  let taken := (s.backings.filter fun x => x.id != b.id).flatMap (fun x => x.pages.map fun p => (p.own, pageSize x.psz)) ++ reservedVault s ++
    if b.prot then [] else protectedRanges s.sv
  (addFrames (frameWindows s b.vault b.prot vmask) taken (pageSize b.psz) n b.pages).map fun ps => { b with pages := ps }

/-! ## Dispatch (R368, R369, R372, R373) -/

/-- Whether a virtual range of a launch, `n` bytes from `va` on in extent `e`, has a part on page `i` of a backing. -/
def rangeOnPage (e : Extent) (va n back i : Nat) : Bool :=
  e.back == back && (va - e.base) / pageSize e.psz ≤ i && i ≤ (va + n - 1 - e.base) / pageSize e.psz

/-- Whether the storage of a defined panel, or the save area of a bobbin, lies on a page (R309). -/
def pageHeld (s : State) (back i : Nat) : Bool :=
  s.panels.any (fun p => (extentAt s p.launch p.va).any fun e => rangeOnPage e p.va p.bytes back i) ||
    s.pool.any fun b => (saveExtent s b).any fun e => rangeOnPage e b.bob.save.toNat Config.saveArea back i

/-- PIN is cleared on the pages that no panel and no save area holds any more (R309, R320). -/
def unpin (s : State) : State :=
  { s with backings := s.backings.map fun b =>
      { b with pages := b.pages.mapIdx fun i p => { p with pin := p.pin && pageHeld s b.id i } } }

/-- Panels of a launch are freed, and PIN cleared on their pages (R320, R372). -/
def dropPanels (l : Nat) (s : State) : State := unpin { s with panels := s.panels.filter fun p => p.launch != l }

/-- Frames of fresh extents are freed (R367, R375). -/
def freeFresh (l : Launch) (s : State) : State :=
  { s with backings := s.backings.filter fun b => b.handle || !l.exts.any fun e => e.back == b.id }

/-- A launch fails at dispatch: what it took is released (R369). -/
def failLaunch (id : Nat) (status : BitVec 8) (s : State) : State :=
  match launchOf s id with
  | none => s
  | some l => updLaunch id (fun l => { l with status := status, stage := .running }) (freeFresh l s)

/-- Pages of an extent. -/
def ExtPlan.pages (p : ExtPlan) : Nat := p.size / pageSize p.psz

/-- The next extent of a launch that is not whole: one not begun, or the last one begun while pages of it are left. -/
def openPlan (l : Launch) (s : State) : Option ExtPlan :=
  (extPlans s l.desc).find? fun p =>
    match l.exts.getLast? with
    | some e => if e.idx == p.idx then l.walked < p.pages else l.exts.all fun e => e.idx != p.idx
    | none => true

/-- A new extent of a launch, on backing `back`, with no page translated. -/
def addExtent (p : ExtPlan) (back : Nat) (l : Launch) : Launch :=
  { l with exts := l.exts ++ [⟨p.idx, p.base, p.size, p.psz, p.attr, back⟩], walked := 0 }

/-- An extent of a launch begins: on its HANDLE, or on a fresh backing with room for its frame list (R308, R367). -/
def beginExtent (l : Launch) (p : ExtPlan) (s : State) : State :=
  if p.handle != 0 then updLaunch l.id (addExtent p p.handle) s
  else
    match tableRoom s (8 * p.pages) with
    | none => failLaunch l.id 6 s
    | some a =>
      let b : Backing := ⟨s.nextId, a, p.pages, l.fn, false, p.psz, attrVault p.attr, attrProt p.attr, []⟩
      writeTable a (8 * p.pages)
        { updLaunch l.id (addExtent p s.nextId) s with nextId := s.nextId + 1, backings := s.backings ++ [b] }

/-- Up to 256 pages of a launch are translated (R368, R369). -/
def translateStep (l : Launch) (s : State) : State :=
  match openPlan l s with
  | none => updLaunch l.id (fun l => { l with stage := .panels }) s
  | some p =>
    match l.exts.find? (fun e => e.idx == p.idx) with
    | none => beginExtent l p s
    | some e =>
      let n := min 256 (p.pages - l.walked)
      let s' := updLaunch l.id (fun l => { l with walked := l.walked + n }) s
      if p.handle != 0 then s'
      else
        match backingOf s e.back with
        | none => s
        | some b =>
          match growBacking s b (vmaskOf s l.desc) n with
          | none => failLaunch l.id 6 s
          | some b' => { s' with backings := updateFirst (fun x => x.id == b.id) (fun _ => b') s.backings }

/-- A panel that the image declares: its extent and shape (R60, R372). -/
structure PanelPlan where
  num : Nat
  base : Nat
  es : Nat
  rows : Nat
  cols : Nat
  deriving DecidableEq, Repr

/-- The panels of an image by rising panel number. -/
def panelPlans (s : State) (l : Launch) : List PanelPlan :=
  let code := l.desc.code.toNat
  let plan (j : Nat) : PanelPlan :=
    let a := imgField s code 64 4 + 16 * j
    { num := imgField s code a 1, base := ((l.exts.find? fun e => e.idx == imgField s code (a + 1) 1).map (·.base)).getD 0,
      es := imgField s code (a + 2) 1, rows := imgField s code (a + 4) 4, cols := imgField s code (a + 8) 4 }
  ((List.range (panelCount s code)).map plan).mergeSort fun a b => a.num ≤ b.num

/-- The shape of a declared panel. -/
def panelOf (l : Nat) (p : PanelPlan) : Panel := ⟨0, l, p.base, p.es, p.rows, p.cols, 0, []⟩

/-- Where PBW puts the base of a panel (R372). -/
def pbwSites (s : State) (l : Launch) (p : PanelPlan) : List Site :=
  virtSites s l.id false true false (l.desc.arg + w64 (pboffOf s l.desc + 8 * p.num)) 8

/-- The next panel of a launch. -/
def nextPanel (s : State) (l : Launch) : Option PanelPlan := (panelPlans s l)[l.panels.length]?

/-- Whether the next panel of a launch waits for memory that is asked for: the launch takes no step then (R368). -/
def panelWaits (s : State) (l : Launch) : Bool :=
  match nextPanel s l with
  | none => false
  | some p =>
    (l.desc.pbw && (pbwSites s l p).any (siteAsked s)) ||
      (extentAt s l.id p.base).any fun e => (pagesOutside s e p.base (panelOf l.id p).bytes).any (siteAsked s)

/-- One panel of a launch is defined (R368, R372). -/
def panelStep (l : Launch) (s : State) : State :=
  match nextPanel s l with
  | none => updLaunch l.id (fun l => { l with stage := .create }) s
  | some p =>
    let pb := if l.desc.pbw then pbwSites s l p else []
    if pb.any (·.waits) then serveSites pb s
    else
      match definePanel l.id (w64 p.base) (some (p.es, p.rows, p.cols)) s with
      | .trap _ _ => failLaunch l.id 7 (dropPanels l.id s)
      | .full s => failLaunch l.id 7 (dropPanels l.id s)
      | .wait s => s
      | .made n s =>
        let s := (putSites pb (leBytes pb.length (rowBase n).toNat) none 0 s).1
        updLaunch l.id (fun l => { l with panels := l.panels ++ [n] }) s

/-- Bobbin `i` of a launch (R373). -/
def launchBobbin (s : State) (l : Launch) (i : Nat) : Bobbin :=
  { code := l.desc.code, seam := 0x3F0000#22 + l.desc.proc.zeroExtend 22, spn := false, state := .ready, pri := (queueAt s l.q).pri,
    qid := l.q, save := l.desc.save + w64 (i * Config.saveArea), index := l.desc.ibase + w64 i, arg := l.desc.arg, sk0 := .none,
    sk1 := .none, ext := l.ext, fault := 0, cause := 0, hold := 0xFF, nstop := 0 }

/-- Up to `n` bobbins of a launch are created; creation pauses while the pool is full (R373). -/
def createStep (id : Nat) : Nat → State → State
  | 0, s => s
  | n + 1, s =>
    match launchOf s id with
    | none => s
    | some l =>
      if l.desc.n.toNat ≤ l.created then updLaunch id (fun l => { l with stage := .running }) s
      else
        match createBobbin (launchBobbin s l l.created) id s with
        | none => s
        | some s => createStep id n (updLaunch id (fun l => { l with created := l.created + 1 }) s)

/-- Ended bobbins are counted by their launches, and their slots are FREE (R63, R67). -/
def countEnded (s : State) : State :=
  let ended (e : PoolEntry) : Bool := e.bob.state == .done || e.bob.state == .lost
  let tally (st : BobState) (id : Nat) : Nat := (s.pool.filter fun e => e.launch == id && e.bob.state == st).length
  { s with
    launches := s.launches.map fun l => { l with done := l.done + tally .done l.id, lost := l.lost + tally .lost l.id },
    pool := s.pool.filter fun e => !ended e }

/-- A launch of the queue that is dispatched and still creating bobbins, with a step to take. -/
def midLaunch (s : State) (q : BitVec 12) : Option Launch :=
  s.launches.find? fun l => l.q == q &&
    match l.stage with
    | .translate => true
    | .panels => !panelWaits s l
    | .create => decide (s.pool.length < Config.poolSlots) || decide (l.desc.n.toNat ≤ l.created)
    | _ => false

/-- The memory that the checks of a launch read: the header, the extents and the panels of its image, and its binding block (R60, R370). -/
def checkReads (s : State) (d : LaunchDesc) : List (Nat × Nat) :=
  let code := d.code.toNat
  let n := extCount s code
  if d.n = 0 || (imageAt s code).isNone then []
  else
    [(code, 128), (code + imgField s code 56 4, 16 * n), (code + imgField s code 64 4, 16 * panelCount s code), (d.bind.toNat, 16 + 16 * n)]

/-- What the next step of the launch at the head of a queue reads of memory. -/
def headReads (s : State) (w : WorkQueue) : List (Nat × Nat) :=
  match w.front with
  | none => [(w.entry w.head, 128)]
  | some l => if l.stage == .check then checkReads s l.desc else []

/-- Whether the launch at the head of a queue has a step to take (R368). No launch runs before the Miller does (R392). -/
def headRuns (s : State) (w : WorkQueue) : Bool :=
  s.miller.run && w.en && !w.err && !(heldReads s (headReads s w)).any (siteAsked s) &&
    match w.front with
    | none => w.head != w.tail
    | some l =>
      match l.stage with
      | .check => true
      | .waiting => !w.waiting && !(l.desc.serial && s.launches.any fun x => x.q == w.q)
      | _ => decide (s.launches.length < Config.activeLaunches)

/-- The queue that the processor serves next: the highest priority, then the next number after the one last served. -/
def nextQueue (s : State) : Option (BitVec 12) :=
  (leastBy (fun w => (127 - w.pri.toNat) * 4096 + (w.q - s.lastQueue - 1).toNat)
    (s.queues.filter fun w => headRuns s w || (midLaunch s w.q).isSome)).map (·.q)

/-- The step of a dispatched launch. -/
def midStep (l : Launch) (s : State) : State :=
  match l.stage with
  | .translate => translateStep l s
  | .panels => panelStep l s
  | .create => createStep l.id 256 s
  | _ => s

/-- The step of the launch at the head; it begins once what it reads can be read (R327, R454). -/
def headStep (q : BitVec 12) (s : State) : State :=
  let sites := heldReads s (headReads s (queueAt s q))
  if !sites.isEmpty then serveSites sites s
  else
  match (queueAt s q).front with
  | none => readHead q s
  | some l =>
    match l.stage with
    | .check =>
      let status := checkLaunch s l.fn l.desc
      let s := metReads (checkReads s l.desc) s
      if status = 0 then updFront q (fun l => { l with stage := .waiting }) s else passHead q status s
    | .waiting => evaluate q s
    | _ => tryPass q s

/-- DISPATCH_STEP (R368). -/
def execDispatchStep (s : State) : Out :=
  .next
    (let s := countEnded s
     match nextQueue s with
     | none => s
     | some q =>
       let s := { s with lastQueue := q }
       match midLaunch s q with
       | some l => midStep l s
       | none => headStep q s)

/-! ## ABORT and wq.cfg (R361, R369) -/

/-- The launch at the head is cancelled. -/
def cancelHead (q : BitVec 12) (s : State) : State :=
  let w := queueAt s q
  let s := if w.front.isNone && w.head != w.tail && !w.err then readHead q s else s
  passHead q 8 s

/-- ABORT (R369). -/
def execAbort (fn : BitVec 6) (q : BitVec 12) (s : State) : Out := .next (if (queueAt s q).fn != fn then s else cancelHead q s)

/-- WQ_CFG_WRITE (R361, R362): while EN is 1 only EN and ABORT change; ERR and ECAUSE clear when EN becomes 0. -/
def execWqCfgWrite (fn : BitVec 6) (q : BitVec 12) (value : Word) (s : State) : Out :=
  .next
    (let w := queueAt s q
     if w.fn != fn then s
     else
       let s := if value.getLsbD 2 then cancelHead q s else s
       let en := value.getLsbD 0
       updQueue q
         (fun w =>
           let w := if w.en then w else { w with sz := value.extractLsb' 8 4, pm := value.getLsbD 1 }
           if en then { w with en := true } else { w with en := false, err := false, ecause := 0 })
         s)

/-! ## Completion (R375 to R378) -/

/-- Whether a dispatched launch is complete. -/
def launchOver (s : State) (l : Launch) : Bool :=
  l.stage == .running && (l.status != 0 || (l.created == l.desc.n.toNat && !s.pool.any fun e => e.launch == l.id))

/-- The status that the record holds (R377). -/
def finalStatus (l : Launch) : BitVec 8 := if l.status = 0 && l.lost != 0 then 1 else l.status

/-- The completion record (R376). -/
def recordOf (l : Launch) (now : Nat) : List Byte :=
  let failed := l.status != 0
  let cap (n : Nat) : Nat := min n (2 ^ 32 - 1)
  leBytes 4 (2 ^ 31 + (finalStatus l).toNat) ++ leBytes 4 (cap l.faults) ++ leBytes 2 l.first.toNat ++ leBytes 6 0 ++
    leBytes 4 (if failed then 0 else cap l.done) ++ leBytes 4 (if failed then 0 else cap l.lost) ++ leBytes 8 l.start.toNat ++
    leBytes 8 (if failed then l.start.toNat else now) ++ leBytes 8 (l.q.toNat + l.fn.toNat * 2 ^ 12 + l.head.toNat * 2 ^ 32) ++
    leBytes 8 l.desc.tag.toNat ++ leBytes 8 0

/-- fn.err counts once more (R385). -/
def countErr (fn : BitVec 6) (s : State) : State :=
  let m := bank s.mailboxes fn
  { s with mailboxes := bankSet s.mailboxes fn { m with err := m.err + 1 } }

/-- A signal action (R366, R378); one to memory that is no longer granted is dropped and counted. -/
def signal (fn : BitVec 6) (x : SemOp) (s : State) : State :=
  let n := if x.w64 then 8 else 4
  let put (v : Nat) (s : State) : State := if granted s fn true x.addr n then (putPhys x.addr (leBytes n v) none 0 s).1 else countErr fn s
  match x.op.toNat with
  | 1 => put (engineNat s x.addr n + x.value.toNat) (metEngine x.addr n s)
  | 2 => put x.value.toNat s
  | 3 => irqAction fn (x.value.extractLsb' 0 11) s
  | _ => s

/-- Whether ON lets the signals be performed. -/
def signalsOn (l : Launch) : Bool :=
  match l.desc.on.toNat with
  | 0 => true
  | 1 => finalStatus l == 0
  | _ => finalStatus l != 0

/-- The memory that a signal action writes. -/
def sigWrites (s : State) (l : Launch) : List (Nat × Nat) :=
  if signalsOn l then
    ([l.desc.sig0, l.desc.sig1].map fun x => (x, if x.w64 then 8 else 4)).filterMap fun x =>
      if (x.1.op == 1 || x.1.op == 2) && granted s l.fn true x.1.addr x.2 then some (x.1.addr, x.2) else none
  else []

/-- What the completion of a launch waits for: the memory of its record and its signals (R327, R454). -/
def endHeld (s : State) (l : Launch) : List Site :=
  ((l.desc.crec.toNat, 64) :: sigWrites s l).flatMap fun r => heldUp s true r.1 r.2

/-- What belongs to a launch in the network engine and the message engine ends with it (R408, R434). -/
def dropPosted (id : Nat) (s : State) : State :=
  { s with
    net := { s.net with
      recvs := s.net.recvs.filter fun r => r.launch != id, exposes := s.net.exposes.filter fun r => r.launch != id,
      eps := s.net.eps.map fun e => { e with recvq := e.recvq.filter fun r => r.launch != id } },
    fab := { s.fab with recvs := s.fab.recvs.filter fun r => r.launch != id } }

/-- The names of a function are unmapped (R332). -/
def dropNames (fn : BitVec 6) (s : State) : State :=
  ((s.blockNames.filter fun n => n.fn == fn).map (·.name)).foldl (fun s n => unmapName fn n s) s

/-- Names that an FLR drops once the launches that its function had dispatched have completed (R332, R395). -/
def settleDrops (s : State) : State :=
  let waits (d : BitVec 6 × List Nat) : Bool := s.launches.any fun l => d.2.contains l.id
  (s.kvDrop.filter fun d => !waits d).foldl (fun s d => dropNames d.1 s) { s with kvDrop := s.kvDrop.filter waits }

/-- R375: what a complete launch does, in its order. -/
def completeLaunch (l : Launch) (s : State) : State :=
  let s := freeFresh l (dropPanels l.id s)
  let s := (putPhys l.desc.crec.toNat (recordOf l s.time) none 0 s).1
  let s := if signalsOn l then signal l.fn l.desc.sig1 (signal l.fn l.desc.sig0 s) else s
  settleDrops (dropPosted l.id { s with launches := removeFirst (fun x => x.id == l.id) s.launches })

/-- LAUNCH_COMPLETION (R375). -/
def execLaunchCompletion (launch : Nat) (s : State) : Out :=
  .next
    (let s := countEnded s
     match launchOf s launch with
     | none => s
     | some l =>
       if !launchOver s l then s
       else
         match endHeld s l with
         | [] => completeLaunch l s
         | sites => serveSites sites s)

end Sys2Proof.Machine
end

