-- ==== Sys2Proof/Machine/Sha.lean ====
section
/-! DEFINITION. SHA-512, which R394 names for the fields of an attestation report. Its algorithm and constants are those of FIPS 180-4
(PRESUMED, assumption 27). -/

namespace Sys2Proof.Machine

open Sys2Proof

/-- The first primes from `n` on, `count` of them. -/
def primesFrom : Nat → Nat → Nat → List Nat
  | 0, _, _ => []
  | fuel + 1, count, n =>
    if count = 0 then []
    else if (List.range n).all (fun d => d < 2 || n % d != 0) then n :: primesFrom fuel (count - 1) (n + 1)
    else primesFrom fuel count (n + 1)

/-- The greatest `x` below `2^bits` with `x^k ≤ n`, found bit by bit. -/
def rootOf (k n : Nat) : Nat → Nat → Nat
  | 0, x => x
  | b + 1, x => if (x + 2 ^ b) ^ k ≤ n then rootOf k n b (x + 2 ^ b) else rootOf k n b x

/-- The round constants: fractions of the cube roots of the first 80 primes. -/
def shaK : List Word := (primesFrom 500 80 2).map fun p => w64 (rootOf 3 (p * 2 ^ 192) 68 0)

/-- The initial hash: fractions of the square roots of the first 8 primes. -/
def shaInit : List Word := (primesFrom 500 8 2).map fun p => w64 (rootOf 2 (p * 2 ^ 128) 68 0)

/-- Big-endian value of bytes, and its inverse. -/
def beNat (bs : List Byte) : Nat := leNat bs.reverse
def beBytes (n x : Nat) : List Byte := (leBytes n x).reverse

/-- The message with its padding. -/
def shaPad (m : List Byte) : List Byte :=
  let zeros := (111 + 128 - m.length % 128) % 128
  m ++ [0x80] ++ List.replicate zeros 0 ++ beBytes 16 (8 * m.length)

/-- The 80 words of a block, from its 16; `w` holds the words so far, the last first. -/
def shaSchedule : Nat → List Word → List Word
  | 0, w => w.reverse
  | n + 1, w =>
    let at_ (i : Nat) : Word := w[i]?.getD 0
    let x := at_ 14
    let y := at_ 1
    let s0 := x.rotateRight 1 ^^^ x.rotateRight 8 ^^^ (x >>> 7)
    let s1 := y.rotateRight 19 ^^^ y.rotateRight 61 ^^^ (y >>> 6)
    shaSchedule n ((at_ 15 + s0 + at_ 6 + s1) :: w)

/-- One round on the working variables a to h. -/
def shaRound (v : List Word) (kw : Word × Word) : List Word :=
  match v with
  | [a, b, c, d, e, f, g, h] =>
    let t1 := h + (e.rotateRight 14 ^^^ e.rotateRight 18 ^^^ e.rotateRight 41) + ((e &&& f) ^^^ (~~~e &&& g)) + kw.1 + kw.2
    let t2 := (a.rotateRight 28 ^^^ a.rotateRight 34 ^^^ a.rotateRight 39) + ((a &&& b) ^^^ (a &&& c) ^^^ (b &&& c))
    [t1 + t2, a, b, c, d + t1, e, f, g]
  | _ => v

/-- The hash after one block. -/
def shaBlock (h : List Word) (block : List Byte) : List Word :=
  let w := (List.range 16).map fun i => w64 (beNat ((block.drop (8 * i)).take 8))
  let v := (shaK.zip (shaSchedule 64 w.reverse)).foldl shaRound h
  (h.zip v).map fun p => p.1 + p.2

/-- The hash over `n` blocks. -/
def shaBlocks : Nat → List Word → List Byte → List Word
  | 0, h, _ => h
  | n + 1, h, bs => shaBlocks n (shaBlock h (bs.take 128)) (bs.drop 128)

/-- SHA-512 of bytes, 64 bytes. -/
def sha512 (m : List Byte) : List Byte :=
  let p := shaPad m
  (shaBlocks (p.length / 128) shaInit p).flatMap fun x => beBytes 8 x.toNat

end Sys2Proof.Machine
end

