-- ==== Sys2Proof/Machine/EvMailbox.lean ====
section
/-! DEFINITION. The memory processor's mailbox (R385 to R387), its commands (R386), ATTEST (R394) and KVCLEAR (R332), and the head of the
event ring (R388). -/

namespace Sys2Proof.Machine

open Sys2Proof

/-! ## Requests and responses (R385, R387) -/

/-- Byte `i` on of a request, `n` bytes as a number. -/
def Mailbox.field (m : Mailbox) (i n : Nat) : Nat := bitsOf m.req.toNat (8 * i) (8 * n)

/-- Operand `k` of a request. -/
def Mailbox.operand (m : Mailbox) (k : Nat) : Nat := m.field (8 + 8 * k) 8

/-- The result codes of R386. -/
abbrev mbOk : BitVec 8 := 0
abbrev mbBadCmd : BitVec 8 := 1
abbrev mbDenied : BitVec 8 := 2
abbrev mbNoMem : BitVec 8 := 3
abbrev mbBusy : BitVec 8 := 4
abbrev mbPinned : BitVec 8 := 5

/-- GO: the request joins the memory processor's line, unless the mailbox is busy. -/
def submit (fn : BitVec 6) (s : State) : State :=
  let m := bank s.mailboxes fn
  if m.busy then s
  else { s with mailboxes := bankSet s.mailboxes fn { m with busy := true }, mbOrder := s.mbOrder ++ [fn] }

/-- A request is answered: the response, CODE, BUSY clear, vector 0. The value stands in bytes 15:8 (assumption 30). -/
def answer (fn : BitVec 6) (code : BitVec 8) (value : Nat) (s : State) : State :=
  let m := bank s.mailboxes fn
  let resp : BitVec 512 := BitVec.ofNat 512 (value % 2 ^ 64 * 2 ^ 64)
  sendIrq fn 0 <| noteDie 0x0B 1
    { s with
      mailboxes := bankSet s.mailboxes fn { m with resp := resp, busy := false, code := code },
      mbOrder := removeFirst (· == fn) s.mbOrder }

/-- The request at the head of the line is served by `f` if it is this function's and this command. -/
def serve (fn : BitVec 6) (cmd : Nat) (f : Mailbox → State → State) (s : State) : Out :=
  .next
    (let m := bank s.mailboxes fn
     if s.mbOrder.head? != some fn || m.field 0 1 != cmd then s
     else if m.field 1 7 != 0 then answer fn mbBadCmd 0 s
     else f m s)

/-- A request with a command that R386 does not list. -/
def serveUnknown (s : State) : State :=
  match s.mbOrder with
  | [] => s
  | fn :: _ =>
    let c := (bank s.mailboxes fn).field 0 1
    if 1 ≤ c && c ≤ 10 then s else answer fn mbBadCmd 0 s

/-- The backing that a request's handle names: none is DENIED to a VF, which may name only its own, and BADCMD to the PF. -/
def withHandle (fn : BitVec 6) (h : Nat) (s : State) (f : Backing → State) : State :=
  match s.backings.find? (fun b => b.handle && b.id == h) with
  | none => answer fn (if fn = 0 then mbBadCmd else mbDenied) 0 s
  | some b => if fn != 0 && b.fn != fn then answer fn mbDenied 0 s else f b

/-- The page that a request names. -/
def withPage (fn : BitVec 6) (m : Mailbox) (s : State) (f : Backing → Nat → Page → State) : State :=
  withHandle fn (m.operand 0) s fun b =>
    match b.pages[m.operand 1]? with
    | none => answer fn mbBadCmd 0 s
    | some p => f b (m.operand 1) p

/-- A host bus address fit for a host-window frame. -/
def busFits (bus size : Nat) : Bool := bus % size == 0 && bus + size ≤ hostSize

/-! ## Copies of whole pages -/

/-- Sparse bytes moved over another range, both ranges of `n` bytes. -/
def moveMem (src dst n : Nat) (m : Mem) : Mem :=
  m.filter (fun e => e.1 < dst) ++
    ((m.filter fun e => src ≤ e.1 && e.1 < src + n).map fun e => (e.1 - src + dst, e.2)) ++ m.filter (fun e => dst + n ≤ e.1)

/-- A range of `n` bytes copied; lines of the source that cannot be read give free bytes (assumption 45). -/
def copiedMem (s : State) (src dst n : Nat) : Mem :=
  (lostLines s src n).foldl
    (fun m l =>
      let a := max src (64 * l)
      memPut m (a - src + dst) ((List.range (min (src + n) (64 * l + 64) - a)).map fun i => Config.poisonByte s.freshVal (a + i)))
    (moveMem src dst n s.mem)

/-- A range copied between a frame and the host; a protected frame takes its parity updates (R444). -/
def copyRange (src dst n : Nat) (s : State) : State :=
  let m := copiedMem s src dst n
  let s := metEngine src n s
  if svTouches s dst n then (putPhys dst (memBytes n dst m) none 0 s).1
  else
    { s with
      mem := m, poison := heal dst n s.poison, images := bumpImages dst n s.images, monitors := touchMonitors dst n s.monitors }

/-- A page copied from its frame to host memory. -/
def copyOut (pa bus n : Nat) (s : State) : State :=
  ((hostRanges bus n).foldl (fun x r => (copyRange x.2 r.1 r.2 x.1, x.2 + r.2)) (s, pa)).1

/-- A page copied from host memory to its frame. -/
def copyIn (bus pa n : Nat) (s : State) : State :=
  ((hostRanges bus n).foldl (fun x r => (copyRange r.1 x.2 r.2 x.1, x.2 + r.2)) (s, pa)).1

/-! ## Handles and pages -/

/-- More bytes than this no memory holds. -/
abbrev allocLimit : Nat := 2 ^ 40

/-- ALLOC (R386). -/
def execAlloc (fn : BitVec 6) (s : State) : Out :=
  serve fn 1
    (fun m s =>
      let size := m.operand 0
      let code := m.operand 1
      if size = 0 || 4 < code || 1 < m.operand 2 || 1 < m.operand 3 then answer fn mbBadCmd 0 s
      else if allocLimit < size then answer fn mbNoMem 0 s
      else
        let psz : BitVec 3 := BitVec.ofNat 3 code
        let n := roundUp size (pageSize psz) / pageSize psz
        let place := (tableRoom s (8 * n)).getD 0
        let b : Backing := ⟨s.nextId, place, n, fn, true, psz, m.operand 2 == 1, m.operand 3 == 1, []⟩
        match growBacking s b 0 n with
        | none => answer fn mbNoMem 0 s
        | some b =>
          if place = 0 then answer fn mbNoMem 0 s
          else answer fn mbOk b.id (writeTable place (8 * n) { s with nextId := s.nextId + 1, backings := s.backings ++ [b] }))
    s

/-- Whether the binding block of an active launch names a handle. -/
def launchNames (s : State) (h : Nat) (l : Launch) : Bool :=
  l.exts.any (fun e => e.back == h) || (l.stage == .translate && (extPlans s l.desc).any fun p => p.handle == h)

/-- FREE (R386). -/
def execFree (fn : BitVec 6) (s : State) : Out :=
  serve fn 2
    (fun m s =>
      withHandle fn (m.operand 0) s fun b =>
        if s.launches.any (launchNames s b.id) then answer fn mbBusy 0 s
        else answer fn mbOk 0 { s with backings := removeFirst (fun x => x.id == b.id) s.backings })
    s

/-- Whether a PROTECTED extent of a launch is backed by a handle, or will be at its dispatch (R370): its frames stay out of the host windows
(R309). -/
def protectedOn (s : State) (h : Nat) (l : Launch) : Bool :=
  l.exts.any (fun e => e.back == h && attrProt e.attr) ||
    ((l.stage == .waiting || l.stage == .translate) && l.desc.n != 0 && (extPlans s l.desc).any fun p => p.handle == h && attrProt p.attr)

/-- Whether a launch that is active, or has passed its checks, keeps the frames of a handle out of the host windows. -/
def keptOffHost (s : State) (h : Nat) : Bool := (s.launches ++ s.queues.filterMap (·.front)).any (protectedOn s h)

/-- BACK (R386). -/
def execBack (fn : BitVec 6) (s : State) : Out :=
  serve fn 3
    (fun m s =>
      withPage fn m s fun b i _ =>
        if b.prot || keptOffHost s b.id then answer fn mbDenied 0 s
        else if !busFits (m.operand 2) (pageSize b.psz) then answer fn mbBadCmd 0 s
        else answer fn mbOk 0 (settlePage b.id i (updPage b.id i (fun p => { p with pa := hostBase + m.operand 2 }) s)))
    s

/-- EVICT (R312, R386); it waits while the frame cannot be read (R327, R454). -/
def execEvict (fn : BitVec 6) (s : State) : Out :=
  serve fn 4
    (fun m s =>
      withPage fn m s fun b i p =>
        let n := pageSize b.psz
        if p.pin then answer fn mbPinned 0 s
        else if !p.res then answer fn mbOk 0 s
        else
          match heldUp s false p.pa n with
          | [] =>
            answer fn mbOk 0
              (updPage b.id i (fun p => { p with pa := p.own, res := false, host := true, told := false }) (copyOut p.pa (m.operand 2) n s))
          | sites => serveSites sites s)
    s

/-- FETCH (R312, R314, R386): `bytes` are what the host's memory holds there. It waits while the frame cannot be written (R327, R454). -/
def execFetch (fn : BitVec 6) (bytes : List Byte) (s : State) : Out :=
  serve fn 5
    (fun m s =>
      withPage fn m s fun b i p =>
        let n := pageSize b.psz
        let bus := m.operand 2
        match heldUp s true p.own n with
        | [] =>
          answer fn mbOk 0
            (settlePage b.id i (updPage b.id i (fun p => { p with pa := p.own }) (copyIn bus p.own n (putHost bus (bytes.take n) s))))
        | sites => serveSites sites s)
    s

/-- QUERY (R386). -/
def execQuery (fn : BitVec 6) (s : State) : Out :=
  serve fn 6 (fun m s => withPage fn m s fun _ _ p => answer fn mbOk (frameEntry p) s) s

/-! ## Grants and queues -/

/-- Whether a range takes host windows that are granted to another function: a host-window frame belongs to exactly one (R383). -/
def takesGranted (s : State) (base size : Nat) (f : BitVec 6) : Bool :=
  s.grants.any fun g => g.fn != f && max (max g.base base) hostBase < min (min (g.base + g.size) (base + size)) hostEnd

/-- GRANT (R386); one that would give a host-window range to a second function is refused (R383, assumption 46). -/
def execGrant (fn : BitVec 6) (s : State) : Out :=
  serve fn 7
    (fun m s =>
      let base := m.operand 0
      let size := m.operand 1
      if fn != 0 then answer fn mbDenied 0 s
      else if 63 < m.operand 2 || 1 < m.operand 3 || 2 ^ 48 < base + size || takesGranted s base size (BitVec.ofNat 6 (m.operand 2)) then answer fn mbBadCmd 0 s
      else
        let f : BitVec 6 := BitVec.ofNat 6 (m.operand 2)
        let others := s.grants.filter fun g => !(g.base == base && g.fn == f)
        answer fn mbOk 0 { s with grants := if size = 0 then others else others ++ [⟨base, size, f, m.operand 3 == 1⟩] })
    s

/-- PRI of the bobbins of a queue: rewritten at once in those that are READY or WATCH (R374); one that is SELECTED, bound or stopping keeps
the priority it was selected with, and the new one governs its next selection (R69). A READY one keeps its place number (DESIGN CHOICE,
assumption 101). -/
def repriority (q : BitVec 12) (pri : BitVec 7) (s : State) : State :=
  { s with pool := s.pool.map fun e =>
      if e.bob.qid != q then e
      else
        match e.bob.state with
        | .ready | .watch => { e with bob := { e.bob with pri := pri } }
        | .selected | .bound | .stopping => { e with nextPri := some pri }
        | _ => e }

/-- QUEUE (R374, R386): a queue that changes hands has no launch at its head. -/
def execQueue (fn : BitVec 6) (s : State) : Out :=
  serve fn 8
    (fun m s =>
      if fn != 0 then answer fn mbDenied 0 s
      else if 4095 < m.operand 0 || 63 < m.operand 1 || 127 < m.operand 2 then answer fn mbBadCmd 0 s
      else
        let q : BitVec 12 := BitVec.ofNat 12 (m.operand 0)
        let f : BitVec 6 := BitVec.ofNat 6 (m.operand 1)
        let pri : BitVec 7 := BitVec.ofNat 7 (m.operand 2)
        let w := queueAt s q
        if w.en then answer fn mbBusy 0 s
        else
          let front := if w.fn == f then w.front else none
          answer fn mbOk 0 (repriority q pri (updQueue q (fun w => { w with fn := f, pri := pri, front := front }) s)))
    s

/-! ## ATTEST and KVCLEAR -/

/-- Bytes of the staging area, as the memory processor and the boot ROM read them. -/
def stagingBytes (s : State) (off n : Nat) : List Byte := engineBytes s (stagingBase + off) n

/-- The errors that a read of the staging area meets. -/
def metStaging (off n : Nat) (s : State) : State := metEngine (stagingBase + off) n s

/-- The first 232 bytes of a report (R394): the image is the one that runs. -/
def attestBody (s : State) (nonce : List Byte) : List Byte :=
  nonce ++ sha512 s.miller.image ++ sha512 (stagingBytes s 0x200000 s.boot.rmlen.toNat) ++
    sha512 (leBytes 512 s.boot.pubn.toNat ++ leBytes 4 s.boot.pube.toNat) ++ leBytes 8 s.boot.resets.toNat

/-- ATTEST (R394), signed with the device key and a salt. -/
def execAttest (fn : BitVec 6) (salt : List Byte) (s : State) : Out :=
  serve fn 9
    (fun m s =>
      let bus := m.field 40 8
      let body := attestBody s (leBytes 32 (m.field 8 32))
      answer fn mbOk 0
        (putHost bus (body ++ leBytes 512 (Config.signature s.boot.seed (sha512 body) salt)) (metStaging 0x200000 s.boot.rmlen.toNat s)))
    s

/-- KVCLEAR (R332, R386). -/
def execKvclear (fn : BitVec 6) (s : State) : Out :=
  serve fn 10
    (fun m s =>
      let target := m.operand 0
      if fn != 0 && target != fn.toNat then answer fn mbDenied 0 s
      else if 63 < target then answer fn mbBadCmd 0 s
      else
        let f : BitVec 6 := BitVec.ofNat 6 target
        answer fn mbOk (s.blockNames.filter fun n => n.fn == f).length (dropNames f s))
    s

/-- EV_HEAD_WRITE (R388): room in the ring lets PAGE events out. -/
def execEvHeadWrite (value : BitVec 32) (s : State) : Out := .next (tellAll { s with evring := { s.evring with head := value } })

end Sys2Proof.Machine
end

