-- ==== Sys2Proof/Machine/EvBoot.lean ====
section
/-! DEFINITION. The Miller's accesses (R389 to R391), boot (R392, R393, R396), resets (R327, R332, R395), clocks and clamps (R397,
R398). -/

namespace Sys2Proof.Machine

open Sys2Proof

/-! ## The Miller's accesses (R389 to R391) -/

/-- Whether a filter allows an access to bytes `pa` to `pa + n - 1`. -/
def MillerFilter.allows (f : MillerFilter) (write : Bool) (pa n : Nat) : Bool :=
  (if write then f.perm == 3 else f.perm == 1 || f.perm == 3) && f.base.toNat ≤ pa && pa + n ≤ f.limit.toNat + 1

/-- One refusal is counted in mc.viol and in the PF's fn.err (R391). -/
def countViol (s : State) : State := countErr 0 { s with miller := { s.miller with viol := s.miller.viol + 1 } }

/-- What a load of the Miller gave. -/
def millerLoaded (x : Nat) (s : State) : State := { s with miller := { s.miller with loaded := s.miller.loaded ++ [w64 x] } }

/-- An address that R304 calls reserved, where nothing answers. -/
def isReserved (pa : Nat) : Bool :=
  !(isFrameAddr pa || (coreBase ≤ pa && pa < coreEnd) || (blockBase ≤ pa && pa < blockEnd) || (panelBase ≤ pa && pa < panelEnd) ||
    (2 ^ 47 ≤ pa && pa < 2 ^ 48))

/-- mc.ipend at the Miller's own address (R390): reads give its bits, writes clear by ones. -/
def millerPend (o n : Nat) (store : Option Word) (s : State) : State :=
  match store with
  | none => millerLoaded (bitsOf s.miller.ipend.toNat (8 * o) (8 * n)) s
  | some x =>
    let ones : BitVec 32 := BitVec.ofNat 32 (x.toNat % 2 ^ (8 * n) * 2 ^ (8 * o))
    { s with miller := { s.miller with ipend := s.miller.ipend &&& ~~~ones } }

/-- The tightly coupled memory (R389). -/
def millerTcm (o n : Nat) (store : Option Word) (s : State) : State :=
  match store with
  | none => millerLoaded (memNat s.miller.tcm o n) s
  | some x => { s with miller := { s.miller with tcm := memPut s.miller.tcm o (leBytes n x.toNat) } }

/-- Whether a filter allows an access of the Miller. -/
def MillerAcc.allowed (m : Miller) (a : MillerAcc) : Bool := m.flt.toList.any fun f => f.allows a.store.isSome a.pa a.len

/-- The oldest waiting access of the Miller is performed, or waits on; bytes that cannot be reached load zero and store nothing. -/
def millerServe (s : State) : State :=
  match s.miller.waiting with
  | [] => s
  | a :: rest =>
    let t := { s with miller := { s.miller with waiting := rest } }
    match a.store with
    | none =>
      match readSites .load (physSites s .part false false a.pa a.len) t with
      | .ok x t => millerLoaded (leNat x.bytes) t
      | .stall t => { t with miller := { t.miller with waiting := a :: t.miller.waiting } }
      | .stop i c => millerLoaded 0 (metUnit c (a.pa + i) t)
    | some x =>
      match writeSites (physSites s .part true false a.pa a.len) (leBytes a.len x.toNat) none 0 t with
      | .ok _ t => t
      | .stall t => { t with miller := { t.miller with waiting := a :: t.miller.waiting } }
      | .stop _ _ => t

/-- An access to device physical space through the filters (R391): one that none allows is refused and counted, and a refused load returns
zero. -/
def millerDevice (a : MillerAcc) (s : State) : State :=
  if a.allowed s.miller then millerServe { s with miller := { s.miller with waiting := s.miller.waiting ++ [a] } }
  else if a.store.isNone then millerLoaded 0 (countViol s)
  else countViol s

/-- MILLER_ACCESS (R389 to R391). -/
def execMillerAccess (addr : Word) (size : MemSize) (store : Option Word) (s : State) : Out :=
  let a := addr.toNat
  let n := size.bytes
  if !s.miller.run then .next s
  else if 0x70000000 ≤ a && a + n ≤ 0x70000008 then .next (millerPend (a - 0x70000000) n store s)
  else if 0x80000000 ≤ a && a + n ≤ 0x80040000 then .next (millerTcm (a - 0x80000000) n store s)
  else if 0x100000000 ≤ a then
    let x : MillerAcc := ⟨a - 0x100000000, n, store⟩
    if x.allowed s.miller && (List.range n).any (fun i => isReserved (x.pa + i)) then .fault .reservedAddress else .next (millerDevice x s)
  else .next s

/-! ## Boot (R392, R393, R396) -/

/-- GO of bt.go. -/
def bootGo (s : State) : State :=
  if s.boot.busy || s.miller.run then s else { s with boot := { s.boot with busy := true, enrolled := false, code := 0xFF } }

/-- BT_GO (R396). -/
def execBtGo (s : State) : Out := .next (bootGo s)

/-- The map that a repair map gives (R298, R299, R326, R333): the physical cores, those from 192 on being the spares; SPLEFT of the eight columns
of each vault; and the spare lanes that the link of each core uses. -/
def applyMap (map : List Byte) (s : State) : State :=
  let place (c : Nat) (k : Core) : Core :=
    let p : BitVec 8 := BitVec.ofFin (Fin.castLE (by decide) (Config.mapCore map c))
    { k with phys := p, spare := 192 ≤ p.toNat }
  let vcol : Bank Word 6 := Vector.ofFn fun v =>
    (List.range 8).foldl (fun x k => setSpares x (BitVec.ofNat 3 k) (BitVec.ofNat 5 (min 24 (Config.mapSpares map (8 * v.val + k)))))
      (bank s.vcol (BitVec.ofFin v))
  let lanes := (List.range Config.cores).map fun c => (c, min 96 (Config.mapLanes map c))
  { s with
    core := place s.cur s.core, parked := s.parked.map fun e => (e.1, place e.1 e.2), vcol := vcol, hardVcol := vcol, coreLanes := lanes,
    hardLanes := lanes }

/-- Step 1: the map in force is the cached one where the host gave one and every entry is right, else the one that full test makes; it is
written back with its length. -/
def builtInTest (r : BootResult) (s : State) : State :=
  let cached := stagingBytes s 0x200000 s.boot.rmlen.toNat
  let map := if s.boot.rmlen != 0 && r.cachedGood then cached else r.repairMap.take 0x10000
  let s := if s.boot.rmlen = 0 then s else metStaging 0x200000 s.boot.rmlen.toNat s
  let s := putMem (stagingBase + 0x200000) map (applyMap map s)
  { s with boot := { s.boot with rmlen := BitVec.ofNat 32 map.length } }

/-- Step 2: without helper data the ROM enrols; the helper data gives the seed, and the seed the device key (R393). -/
def identity (s : State) : State :=
  let b := s.boot
  let b := if b.hv then b else { b with helper := Config.pufHelper s.freshVal, hv := true, enrolled := true }
  let seed := Config.deviceSeed b.helper
  { s with
    freshVal := s.freshVal + 1,
    boot := { b with seed := seed, pubn := Config.publicModulus seed, pube := Config.publicExponent seed } }

/-- CODE of the firmware check (R392): of several failures the first of the table is named. -/
def firmwareCode (image : List Byte) : BitVec 8 :=
  let header := image.take Config.firmwareHeader
  let body := image.drop Config.firmwareHeader
  let key := Config.headerKey header
  if !Config.headerSound header then 1
  else if sha512 key != Config.vendorHash then 2
  else if !Config.signatureGood key (sha512 body) header then 3
  else if 0x40000 < body.length then 4
  else 0

/-- Step 3: CODE; a good image's body is copied, and the Miller runs from its entry. -/
def startMiller (s : State) : State :=
  let image := stagingBytes s 0 s.boot.imglen.toNat
  let code := firmwareCode image
  let s := metStaging 0 s.boot.imglen.toNat { s with boot := { s.boot with code := code } }
  if code != 0 then s
  else
    { s with miller := { s.miller with
        run := true, image := image, entry := Config.imageEntry (image.take Config.firmwareHeader),
        tcm := listed 0 (image.drop Config.firmwareHeader) } }

/-- BOOT_SEQUENCE_END (R396). -/
def execBootSequenceEnd (r : BootResult) (s : State) : Out :=
  .next
    (if !s.boot.busy then s
     else
       let s := if s.boot.cold then identity (builtInTest r s) else s
       let s := startMiller s
       sendIrq 0 0 { s with boot := { s.boot with busy := false, cold := false } })

/-! ## Resets (R395) -/

/-- The bytes of host memory, which no reset of the part reaches. -/
def hostBytes (m : Mem) : Mem := m.filter fun e => (hostBase ≤ e.1 && e.1 < hostEnd) || 2 ^ 64 ≤ e.1

/-- A cold reset: all is lost but what lies outside the part. -/
def coldReset (s : State) : State :=
  { State.reset with
    mem := hostBytes s.mem, agenda := s.agenda, freshVal := s.freshVal, nextId := s.nextId, irqs := s.irqs, hostRead := s.hostRead }

/-- A core after a warm reset: the core map is kept (R298). -/
def Core.warm (k : Core) : Core := { Core.reset k.phys with spare := k.spare, offline := k.offline }

/-- dm.vcol after a warm reset: the soft repairs are cleared, and a failed column stays failed (R327). -/
def hardColumns (s : State) : Bank Word 6 :=
  Vector.ofFn fun v => bank s.hardVcol (BitVec.ofFin v) ||| (bank s.vcol (BitVec.ofFin v) &&& 0xFF)

/-- A warm reset: memory contents, the core map, the hard map and what the boot steps of a cold reset made are kept (R298, R327, R332,
R395, R396). -/
def warmReset (s : State) : State :=
  let b := s.boot
  { State.reset with
    cur := s.cur, core := s.core.warm, parked := s.parked.map fun e => (e.1, e.2.warm), agenda := s.agenda, freshVal := s.freshVal,
    nextId := s.nextId, time := s.time, clkMx := s.clkMx, clkVx := s.clkVx, clkVault := s.clkVault, partMx := s.partMx,
    partVx := s.partVx, partVault := s.partVault, mem := s.mem, poison := s.poison,
    vcol := hardColumns s, hardVcol := s.hardVcol, coreLanes := s.hardLanes, hardLanes := s.hardLanes, retrain := List.range 512,
    irqs := s.irqs, hostRead := s.hostRead,
    boot := { Boot.reset with rmlen := b.rmlen, hv := b.hv, helper := b.helper, pubn := b.pubn, pube := b.pube, seed := b.seed, cold := b.cold } }

/-- COLD (R395). -/
def execCold (s : State) : Out := .next (coldReset s)

/-- WARM (R395). -/
def execWarm (s : State) : Out := .next (warmReset s)

/-- COLD_RESET_INPUT (R395). -/
def execColdResetInput (s : State) : Out := .next (coldReset s)

/-- EN of a queue becomes 0 and the launch at its head is cancelled. -/
def haltQueue (s : State) (q : BitVec 12) : State :=
  updQueue q (fun w => { w with en := false, err := false, ecause := 0 }) (cancelHead q s)

/-- FUNCTION_LEVEL_RESET (R332, R395). -/
def execFunctionLevelReset (fn : BitVec 6) (s : State) : Out :=
  .next
    (let mine := (s.launches.filter fun l => l.fn == fn && l.status == 0).map (·.id)
     let s := ((s.queues.filter fun w => w.fn == fn).map (·.q)).foldl haltQueue s
     settleDrops { s with kvDrop := s.kvDrop ++ [(fn, mine)] })

/-! ## Clocks and clamps (R397, R398) -/

/-- A layer's clock: the least of target, ceiling and clamp level. -/
def LayerClock.least (l : LayerClock) : BitVec 16 :=
  let m := if l.fceil < l.ftgt then l.fceil else l.ftgt
  if l.clamp < m then l.clamp else m

/-- The clock at what the three levels give. -/
def LayerClock.settled (l : LayerClock) : LayerClock := { l with fnow := l.least }

/-- A step of 50 MHz down, to 500 MHz at least. -/
def LayerClock.lowered (l : LayerClock) : BitVec 16 := if l.least < 550 then 500 else l.least - 50

/-- A clamp's level one step of 50 MHz up. -/
def raised (f : BitVec 16) : BitVec 16 := if 1950 < f then 2000 else f + 50

/-- The power clamp takes the clock a step down. -/
def LayerClock.lowerPower (l : LayerClock) : LayerClock := { l with power := l.lowered }.settled

/-- The thermal clamp at a level. -/
def LayerClock.heatTo (f : BitVec 16) (l : LayerClock) : LayerClock := { l with heat := f }.settled

/-- The clamps whose conditions have cleared go up a step. -/
def LayerClock.release (power heat : Bool) (l : LayerClock) : LayerClock :=
  { l with power := if power then raised l.power else l.power, heat := if heat then raised l.heat else l.heat }.settled

/-- The clock of a layer. -/
def Power.layer (p : Power) : Layer → LayerClock
  | .mx => p.mx
  | .vx => p.vx
  | .vault => p.vault

/-- The clock of a layer changed. -/
def Power.upd (p : Power) (l : Layer) (f : LayerClock → LayerClock) : Power :=
  match l with
  | .mx => { p with mx := f p.mx }
  | .vx => { p with vx := f p.vx }
  | .vault => { p with vault := f p.vault }

/-- POWER_CLAMP (R398): the matrix layer first, then the vector/control layer. -/
def execPowerClamp (watts : BitVec 12) (s : State) : Out :=
  .next
    (let p := { s.power with pnow := watts }
     let p := if watts ≤ p.plim then p else if 500 < p.mx.least then p.upd .mx (·.lowerPower) else p.upd .vx (·.lowerPower)
     { s with power := p })

/-- Above 115 °C every layer falls to 500 MHz at once (R398). -/
def Power.emergencyAt (sixteenths : BitVec 16) (p : Power) : Power :=
  if sixteenths ≤ 1840 then p
  else { p with emergency := true, mx := p.mx.heatTo 500, vx := p.vx.heatTo 500, vault := p.vault.heatTo 500 }

/-- THERMAL_CLAMP (R398): the highest reading of a layer's sensors; above 105 °C the layer's clock falls. -/
def execThermalClamp (layer : Layer) (sixteenths : BitVec 16) (s : State) : Out :=
  .next
    (let p := s.power.upd layer fun l => { l with hot := sixteenths }
     { s with power := (if sixteenths ≤ 1680 then p else p.upd layer fun l => l.heatTo l.lowered).emergencyAt sixteenths })

/-- EMERGENCY_CLAMP (R398): the highest reading of a layer's sensors. -/
def execEmergencyClamp (layer : Layer) (sixteenths : BitVec 16) (s : State) : Out :=
  .next { s with power := (s.power.upd layer fun l => { l with hot := sixteenths }).emergencyAt sixteenths }

/-- TEMPERATURE_SAMPLE (R142, R398): the sensor over a core is one of the matrix layer's. -/
def execTemperatureSample (core : BitVec 8) (sixteenths : BitVec 16) (s : State) : Out :=
  match coreAt s core.toNat with
  | none => .next s
  | some _ =>
    let s := onCore core.toNat (withCore fun k => { k with ctemp := sixteenths.zeroExtend 64 }) s
    .next { s with power := s.power.emergencyAt sixteenths }

/-- The highest of the readings of a layer's sensors: the last one of its own, and those over the cores in the matrix layer. -/
def hottest (s : State) (layer : Layer) : Nat :=
  let own := (s.power.layer layer).hot.toNat
  if layer == .mx then (allCores s).foldl (fun m c => max m (c.2.ctemp.extractLsb' 0 16).toNat) own else own

/-- Whether every sensor reads below 100 °C. -/
def allCool (s : State) : Bool := hottest s .mx < 1600 && hottest s .vx < 1600 && hottest s .vault < 1600

/-- CLAMP_RELEASE (R398): each clamp of the layer whose condition has cleared raises it. -/
def execClampRelease (layer : Layer) (s : State) : Out :=
  .next
    (let p := { s.power with emergency := s.power.emergency && !allCool s }
     let heat := !p.emergency && hottest s layer ≤ 1680
     { s with power := p.upd layer (·.release (p.pnow ≤ p.plim) heat) })

/-- CLOCK_CHANGE (R397). -/
def execClockChange (layer : Layer) (s : State) : Out := .next { s with power := s.power.upd layer (·.settled) }

end Sys2Proof.Machine
end

