-- ==== Sys2Proof/Machine/EvNet.lean ====
section
/-! DEFINITION. The network engine: requests taken from the queues of an endpoint, packets sent, placed and acknowledged, loss (R402 to
R411). -/

namespace Sys2Proof.Machine

open Sys2Proof

/-! ## Counters and failures (R404, R411) -/

/-- OK of a named counter rises. -/
def countOk (x : BitVec 32) (s : State) : State :=
  match cntNamed x with
  | none => s
  | some n =>
    let c := cntAt s n
    setCnt n (c.extractLsb' 48 16 ++ (cntOk c + 1)) s

/-- FAIL of a named counter rises, to 1,023 at most. -/
def countFail (x : BitVec 32) (s : State) : State :=
  match cntNamed x with
  | none => s
  | some n =>
    let c := cntAt s n
    let fail := if cntFail c = 1023 then 1023 else cntFail c + 1
    setCnt n (cntFn c ++ fail ++ cntOk c) s

/-- A request of an endpoint fails: FAIL of its counter, LASTERR. -/
def failRequest (k : BitVec 10) (ccnt : BitVec 32) (status : BitVec 8) (s : State) : State :=
  updEp k (fun e => { e with lasterr := status }) (countFail ccnt s)

/-! ## Sending (R402, R407, R409) -/

/-- Packets of a message. -/
def packetsOf (len : Nat) : Nat := max 1 ((len + 4095) / 4096)

/-- Bytes of packet `i` of a message. -/
def packetLen (len i : Nat) : Nat := min 4096 (len - 4096 * i)

/-- Whether a port that a request allows is up. -/
def portOpen (n : Net) (port : Nat) : Bool := (port != 2 && n.up0) || (port != 1 && n.up1)

/-- Where the source bytes of packet `i` lie. -/
def sourceSites (s : State) (req : WReq) (i : Nat) : List Site :=
  let w := wqeOf req.raw
  virtSites s req.launch false false false (w.laddr + w64 (4096 * i)) (packetLen w.len i)

/-- Whether a byte lies in an invalid block position. -/
def Site.isBlock : Site → Bool
  | .block .. => true
  | _ => false

/-- The status of a source that cannot be read (R407, R411). -/
def sourceStatus (sites : List Site) (code : TrapCode) : BitVec 8 :=
  if sites.any Site.isBlock then 6 else if code == .uncorr || code == .selvedgeLoss then 4 else Config.localStatus

/-- The bytes of packet `i`, a wait for pages, or the status of the failure. -/
inductive Source where
  | bytes (bs : List Byte)
  | wait (s : State)
  | fail (status : BitVec 8) (s : State)

/-- The row of a request's destination in its endpoint's table (R405). -/
def destRow (s : State) (ep : BitVec 10) (req : WReq) : Nat := (epAt s ep).tbase.toNat + 32 * (wqeOf req.raw).dest

/-- The source read on the NET path, once its row of the endpoint's destination table can be read too (R327, R454). -/
def readSource (s : State) (ep : BitVec 10) (req : WReq) (i : Nat) : Source :=
  let sites := sourceSites s req i
  let row := heldUp s false (destRow s ep req) 32
  if !row.isEmpty then .wait (serveSites row s)
  else
  match readSites .copy sites s with
  | .ok x _ => .bytes x.bytes
  | .stall s => .wait s
  | .stop k c => .fail (sourceStatus sites c) (metFault c req.launch ((wqeOf req.raw).laddr + w64 (4096 * i + k)) s)

/-- Whether two requests share a connection. -/
def sameConnection (a b : NetReq) : Bool :=
  a.ep == b.ep && (wqeOf a.req.raw).dest == (wqeOf b.req.raw).dest && (wqeOf a.req.raw).ord == (wqeOf b.req.raw).ord

/-- The earliest request in flight on the connection of a request. -/
def oldestOf (s : State) (r : NetReq) : Nat := ((s.net.flight.find? fun q => sameConnection q r).map (·.id)).getD r.id

/-- A packet leaves with a fresh entropy value, where a port is open. -/
def emitPacket (r : NetReq) (i : Nat) (bs : List Byte) (s : State) : State :=
  let w := wqeOf r.req.raw
  let e := epAt s r.ep
  if !portOpen s.net w.port then s
  else
    let out := NetOut.packet r.id (oldestOf s r) i r.ep e.job (engineBytes s (destRow s r.ep r.req) 32) r.req.raw bs (Config.entropy s.freshVal)
    metEngine (destRow s r.ep r.req) 32 { s with freshVal := s.freshVal + 1, net := { s.net with sent := s.net.sent ++ [out] } }

/-- A request in flight. -/
def flightOf (s : State) (id : Nat) : Option NetReq := s.net.flight.find? fun r => r.id == id

/-- A request in flight changed. -/
def updFlight (id : Nat) (f : NetReq → NetReq) (s : State) : State :=
  { s with net := { s.net with flight := updateFirst (fun r => r.id == id) f s.net.flight } }

/-- A packet of a request changed. -/
def updPacket (id i : Nat) (f : PacketSt → PacketSt) (s : State) : State :=
  updFlight id (fun r => { r with packets := updateFirst (fun p => p.index == i) f r.packets }) s

/-- A request leaves the flight. -/
def dropFlight (id : Nat) (s : State) : State :=
  { s with net := { s.net with flight := removeFirst (fun r => r.id == id) s.net.flight } }

/-- A request in flight fails. -/
def failFlight (r : NetReq) (status : BitVec 8) (s : State) : State :=
  failRequest r.ep (wqeOf r.req.raw).ccnt status (dropFlight r.id s)

/-- A packet leaves again (R407, R410); `again` counts it as a retransmission. -/
def retransmit (r : NetReq) (i : Nat) (again : Bool) (s : State) : State :=
  match readSource s r.ep r.req i with
  | .wait s => s
  | .fail status s => failFlight r status s
  | .bytes bs =>
    updPacket r.id i (fun p => { p with tries := p.tries + bit again, sentAt := s.time }) (emitPacket r i bs s)

/-- The head of an endpoint's send queue is removed. -/
def popSend (k : BitVec 10) (s : State) : State := updEp k (fun e => { e with sendq := e.sendq.tail }) s

/-- The first packet whose source is not readable now, from packet `i` on. -/
def firstUnread (s : State) (ep : BitVec 10) (req : WReq) : Nat → Nat → Option Source
  | 0, _ => none
  | n + 1, i =>
    match readSource s ep req i with
    | .bytes _ => firstUnread s ep req n (i + 1)
    | x => some x

/-- The head of the send queue runs if it is of kind `op`: all its packets leave, in sending order. -/
def runSend (k : BitVec 10) (op : Nat) (s : State) : State :=
  let e := epAt s k
  match e.sendq with
  | [] => s
  | req :: _ =>
    let w := wqeOf req.raw
    let n := packetsOf w.len
    if !e.en || w.op != op then s
    else
      match firstUnread s k req n 0 with
      | some (.wait s) => s
      | some (.fail status s) => failRequest k w.ccnt status (popSend k s)
      | _ =>
        let openNow := portOpen s.net w.port
        let r : NetReq := ⟨s.nextId, k, req, (List.range n).map fun i => ⟨i, 0, false, 0, s.time, openNow⟩, 0, none⟩
        let s := popSend k { s with nextId := s.nextId + 1, net := { s.net with flight := s.net.flight ++ [r] } }
        (List.range n).foldl
          (fun s i =>
            match readSource s k req i with
            | .bytes bs => emitPacket r i bs s
            | _ => s)
          s

/-- SEND (R409). -/
def execSend (ep : BitVec 10) (s : State) : Out := .next (runSend ep 1 s)

/-- WRITE (R409). -/
def execWrite (ep : BitVec 10) (s : State) : Out := .next (runSend ep 2 s)

/-! ## Receive queue (R408, R409) -/

/-- The head of the receive queue is taken if it is of kind `op`. -/
def runRecv (k : BitVec 10) (op : Nat) (s : State) (f : WReq → Wqe → State → State) : Out :=
  .next
    (let e := epAt s k
     match e.recvq with
     | [] => s
     | req :: rest =>
       let w := wqeOf req.raw
       if !e.en || w.op != op then s else f req w (updEp k (fun e => { e with recvq := rest }) s))

/-- The buffer or region of a request. -/
def bufOf (k : BitVec 10) (req : WReq) (w : Wqe) : NetBuf := ⟨k, req.launch, w.laddr, w.len, w.rkey, w.tag, w.ign, w.ccnt⟩

/-- RECV (R409). -/
def execRecv (ep : BitVec 10) (s : State) : Out :=
  runRecv ep 3 s fun req w s => { s with net := { s.net with recvs := s.net.recvs ++ [bufOf ep req w] } }

/-- Whether a region is the one of a key. -/
def hasKey (ep : BitVec 10) (key : BitVec 32) (b : NetBuf) : Bool := b.ep == ep && b.key == key

/-- EXPOSE (R408). -/
def execExpose (ep : BitVec 10) (s : State) : Out :=
  runRecv ep 4 s fun req w s =>
    let others := s.net.exposes.filter fun b => !hasKey ep w.rkey b
    if 256 ≤ (others.filter fun b => b.ep == ep).length then failRequest ep w.ccnt 7 s
    else countOk w.ccnt { s with net := { s.net with exposes := others ++ [bufOf ep req w] } }

/-- WITHDRAW (R408). -/
def execWithdraw (ep : BitVec 10) (s : State) : Out :=
  runRecv ep 5 s fun _ w s =>
    if !s.net.exposes.any (hasKey ep w.rkey) then failRequest ep w.ccnt 7 s
    else countOk w.ccnt { s with net := { s.net with exposes := s.net.exposes.filter fun b => !hasKey ep w.rkey b } }

/-! ## Arrival (R409, R410) -/

/-- The parity groups opened since the identifiers stood at `g0`, which a placement waits for (R447). -/
def groupsSince (g0 : Nat) (s : State) : List Nat := ((s.sv.pending.map (·.group)).filter fun g => g0 ≤ g).eraseDups

/-- An answer to a packet. -/
def ackPacket (p : Packet) (what : PacketAck) (s : State) : State :=
  { s with net := { s.net with sent := s.net.sent ++ [.ack p.ep p.peer p.msg p.index what] } }

/-- Whether a message in arrival is the one named. -/
def rxIs (ep : BitVec 10) (peer : Nat) (ordered : Bool) (msg : Nat) (r : NetRx) : Bool :=
  r.ep == ep && r.peer == peer && r.ordered == ordered && r.msg == msg

/-- A packet counts as placed and is acknowledged; the last one of a message raises the target counter. -/
def netPlaced (ep : BitVec 10) (peer : Nat) (ordered : Bool) (msg index : Nat) (s : State) : State :=
  match s.net.rx.find? (rxIs ep peer ordered msg) with
  | none => s
  | some r =>
    let placed := r.placed ++ [index]
    let all := placed.length == packetsOf r.len
    let s :=
      { s with net := { s.net with
          rx := updateFirst (rxIs ep peer ordered msg) (fun r => { r with placed := placed, finished := all }) s.net.rx,
          sent := s.net.sent ++ [.ack ep peer msg index .placed] } }
    if all then countOk r.buf.ccnt s else s

/-- A placement that is not kept by any parity holder ends with REMOTEPROT (R447). -/
def netUnkept (ep : BitVec 10) (peer msg index : Nat) (s : State) : State :=
  { s with net := { s.net with sent := s.net.sent ++ [.ack ep peer msg index (.failed 1)] } }

/-- A packet of a matched message is placed; it waits where a store waits. -/
def placePacket (p : Packet) (r : NetRx) (s : State) : State :=
  let at_ := r.buf.base + w64 (4096 * p.index)
  let g0 := s.nextId
  match writeSites (virtSites s r.buf.launch false true false at_ p.bytes.length) p.bytes none at_ s with
  | .stall s => if s.net.waiting.contains p then s else { s with net := { s.net with waiting := s.net.waiting ++ [p] } }
  | .stop k c => ackPacket p (.failed (if c == .uncorr then 5 else 1)) (metFault c r.buf.launch (at_ + w64 k) s)
  | .ok false s => ackPacket p (.failed 1) s
  | .ok true s =>
    match groupsSince g0 s with
    | [] => netPlaced p.ep p.peer p.ordered p.msg p.index s
    | gs => { s with sv := { s.sv with after := s.sv.after ++ [(gs, .netPacket p.ep p.peer p.ordered p.msg p.index)] } }

/-- What the first packet of a message finds: its buffer, or the answer that refuses it. -/
def matchPacket (s : State) (p : Packet) : Except PacketAck NetBuf :=
  if p.write then
    match s.net.exposes.find? (hasKey p.ep p.rkey) with
    | none => .error (.failed 7)
    | some b =>
      if b.len < p.raddr.toNat + p.len || cntForeign s (epAt s p.ep).fn p.tcnt then .error (.failed 1)
      else .ok { b with base := b.base + p.raddr, ccnt := p.tcnt }
  else
    match s.net.recvs.find? (fun b => b.ep == p.ep && ((b.tag ^^^ p.tag) &&& ~~~b.ign) == 0 && p.len ≤ b.len) with
    | none => .error .notReady
    | some b => .ok b

/-- A SEND takes its RECV. -/
def takeRecv (p : Packet) (b : NetBuf) (s : State) : State :=
  if p.write then s else { s with net := { s.net with recvs := removeFirst (· == b) s.net.recvs } }

/-- Whether packets of a later message of its pair have been placed. -/
def laterPlaced (s : State) (p : Packet) : Bool :=
  s.net.rx.any fun r => r.ep == p.ep && r.peer == p.peer && r.ordered && p.msg < r.msg && !r.placed.isEmpty

/-- Whether the order of its connection lets a packet be placed (R409): an ordered one follows all earlier ones of the messages that its
source has not ended, and comes before every later message. -/
def inOrder (s : State) (p : Packet) : Bool :=
  !p.ordered ||
    (!laterPlaced s p && (List.range (p.msg - p.oldest)).all (fun k => s.net.rx.any fun r => rxIs p.ep p.peer true (p.oldest + k) r && r.finished) &&
      (p.index == 0 || s.net.rx.any fun r => rxIs p.ep p.peer true p.msg r && r.placed.contains (p.index - 1)))

/-- Whether a packet awaits the durability of its placement. -/
def netAwaits (s : State) (p : Packet) : Bool := s.sv.after.any fun a => a.2 == .netPacket p.ep p.peer p.ordered p.msg p.index

/-- A packet that an endpoint in service may place. -/
def arrive (p : Packet) (s : State) : State :=
  match s.net.rx.find? (rxIs p.ep p.peer p.ordered p.msg) with
  | some r => if r.placed.contains p.index then ackPacket p .placed s else placePacket p r s
  | none =>
    match matchPacket s p with
    | .error a => ackPacket p a s
    | .ok b =>
      let r : NetRx := ⟨p.ep, p.peer, p.ordered, p.msg, p.len, b, [], false⟩
      placePacket p r (takeRecv p b { s with net := { s.net with rx := s.net.rx ++ [r] } })

/-- PACKET_ARRIVAL (R409, R410). One that no message of its length has, or whose turn has not come, is not acknowledged. -/
def execPacketArrival (p : Packet) (s : State) : Out :=
  .next
    (let fits := p.index < packetsOf p.len && p.bytes.length == packetLen p.len p.index
     let seen := s.net.rx.any fun r => rxIs p.ep p.peer p.ordered p.msg r && r.placed.contains p.index
     if !(epAt s p.ep).en || !fits || netAwaits s p || !(seen || inOrder s p) then s else arrive p s)

/-! ## Acknowledgements and loss (R409 to R411) -/

/-- The packets before packet `i` of request `r` on its connection that are not acknowledged: their sequence numbers are lower. -/
def lowerPackets (s : State) (r : NetReq) (i : Nat) : List (Nat × Nat) :=
  (s.net.flight.filter fun q => sameConnection q r && q.id ≤ r.id).flatMap fun q =>
    (q.packets.filter fun p => !p.acked && (q.id < r.id || p.index < i)).map fun p => (q.id, p.index)

/-- A packet that two later acknowledgements have passed over leaves again, once its source can be read (R407, R410). -/
def fastResend (x : Nat × Nat) (s : State) : State :=
  match flightOf s x.1 with
  | none => s
  | some r =>
    if r.packets.any fun p => p.index == x.2 && p.missed == 2 && !p.acked && p.tries < 8 then
      match readSource s r.ep r.req x.2 with
      | .wait s => s
      | _ => updPacket x.1 x.2 (fun p => { p with missed := 3 }) (retransmit r x.2 true s)
    else s

/-- One later acknowledgement is noted for a packet; the second makes it leave again. -/
def passOver (s : State) (x : Nat × Nat) : State := fastResend x (updPacket x.1 x.2 (fun p => { p with missed := if p.missed < 2 then p.missed + 1 else p.missed }) s)

/-- A request whose packets are all acknowledged is complete. -/
def finishFlight (id : Nat) (s : State) : State :=
  match flightOf s id with
  | none => s
  | some r => if r.packets.all (·.acked) then countOk (wqeOf r.req.raw).ccnt (dropFlight id s) else s

/-- PACKET_ACKNOWLEDGEMENT (R409, R410). -/
def execPacketAcknowledgement (req index : Nat) (ack : PacketAck) (s : State) : Out :=
  .next
    (match flightOf s req with
     | none => s
     | some r =>
       match ack with
       | .failed status => failFlight r status s
       | .noConnection => failFlight r 8 s
       | .notReady =>
         if r.refused.isSome then s
         else if 64 ≤ r.retries then failFlight r 2 s
         else updFlight req (fun r => { r with refused := some s.time }) s
       | .placed =>
         if !r.packets.any (fun p => p.index == index && !p.acked) then s
         else
           let s := updPacket req index (fun p => { p with acked := true }) s
           finishFlight req ((lowerPackets s r index).foldl passOver s))

/-- PACKET_TIMEOUT (R410). -/
def execPacketTimeout (req index : Nat) (s : State) : Out :=
  .next
    (match flightOf s req with
     | none => s
     | some r =>
       match r.packets.find? (fun p => p.index == index) with
       | none => s
       | some p =>
         if p.acked || r.refused.isSome || s.time < p.sentAt + micros 50 then s
         else if 8 ≤ p.tries then failFlight r (if p.left then 3 else 8) s
         else retransmit r index true s)

/-- The wait or the failure of the first unacknowledged packet of a request whose source cannot be read now. -/
def unreadOf (s : State) (r : NetReq) : Option Source :=
  (r.packets.filter fun p => !p.acked).findSome? fun p =>
    match readSource s r.ep r.req p.index with
    | .bytes _ => none
    | x => some x

/-- NOT_READY_RETRY (R410): 10 µs after the reply, the SEND leaves again, once its source can be read (R407). -/
def execNotReadyRetry (req : Nat) (s : State) : Out :=
  .next
    (match flightOf s req with
     | none => s
     | some r =>
       match r.refused with
       | none => s
       | some t =>
         if s.time < t + micros 10 then s
         else
           match unreadOf s r with
           | some (.wait s) => s
           | _ =>
           let s := updFlight req (fun r => { r with refused := none, retries := r.retries + 1 }) s
           ((r.packets.filter fun p => !p.acked).map (·.index)).foldl
             (fun s i =>
               match flightOf s req with
               | none => s
               | some r => retransmit r i false s)
             s)

/-- The packets of the requests that an open port serves have had a port (R411). -/
def notePorts (n : Net) : Net :=
  { n with flight := n.flight.map fun r =>
      if portOpen n (wqeOf r.req.raw).port then { r with packets := r.packets.map fun p => { p with left := true } } else r }

/-- ETHERNET_LINK_STATE_CHANGE (R402, R411). -/
def execEthernetLinkStateChange (port up : Bool) (s : State) : Out :=
  .next { s with net := notePorts (if port then { s.net with up1 := up } else { s.net with up0 := up }) }

end Sys2Proof.Machine
end

