-- ==== Sys2Proof/Machine/EvFabric.lean ====
section
/-! DEFINITION. The fabric unit: links and labels (R412 to R418, R449, R452), erasure decoding (R426), remote units at their target (R419 to R423,
R431), and messages and management messages at theirs (R433 to R437). -/

namespace Sys2Proof.Machine

open Sys2Proof

/-! ## Held stripes (R418, R449) -/

/-- Whether a stripe is held for want of a path. -/
def isHeld (f : Fabric) (st : StripeOut) : Bool := f.heldAt.any fun h => h.1 == st.dst && h.2.1 == st.seq

/-- Whether a stripe has a label and a sequence number. -/
def StripeOut.named (dst : BitVec 10) (seq : BitVec 32) (st : StripeOut) : Bool := st.dst == dst && st.seq == seq

/-- A stripe that is not acknowledged. -/
def stripeOf (s : State) (dst : BitVec 10) (seq : BitVec 32) : Option StripeOut := s.fab.stripes.find? (StripeOut.named dst seq)

/-- A stripe without acknowledgement that went to a part which another has replaced (R452). A name that the new part's stripes use is theirs
(log 93, DESIGN CHOICE). -/
def formerOf (s : State) (dst : BitVec 10) (seq : BitVec 32) : Option (BitVec 10 × StripeOut) :=
  if (stripeOf s dst seq).isSome then none else s.fab.former.find? fun e => e.2.named dst seq

/-- A stripe of this part is forgotten. -/
def dropStripe (dst : BitVec 10) (seq : BitVec 32) (s : State) : State :=
  let f := s.fab
  let former := if (stripeOf s dst seq).isSome then f.former else removeFirst (fun e => e.2.named dst seq) f.former
  { s with fab := { f with
      stripes := removeFirst (StripeOut.named dst seq) f.stripes, former := former
      heldAt := f.heldAt.filter fun h => !(h.1 == dst && h.2.1 == seq) } }

/-- A message none of whose stripes has left is cut anew where k of its class has changed (R427). -/
def recut (m : MsgSend) (s : State) : State :=
  let mine := s.fab.stripes.filter fun x => x.msg == some m.id
  let sent := mine.any (·.left) || s.fab.former.any fun e => e.2.msg == some m.id
  if m.piece == 192 * (bank s.fab.rate m.cls).kOf || mine.isEmpty || !m.acked.isEmpty || sent then s
  else
    let s := mine.foldl (fun s x => dropStripe x.dst x.seq s) s
    { s with fab := { s.fab with sends := updateFirst (fun x => x.id == m.id) (fun x => { x with piece := 0 }) s.fab.sends } }

/-- A held stripe leaves once its label can be reached. -/
def releaseOne (s : State) (h : BitVec 10 × BitVec 32 × Nat) : State :=
  match stripeOf s h.1 h.2.1 with
  | none => { s with fab := { s.fab with heldAt := s.fab.heldAt.filter fun x => x != h } }
  | some st =>
    if (availablePaths s.fab h.1.toNat (isMsgBody st.body)).isEmpty && h.1.toNat != ownLabel s.fab then s
    else
      let s := { s with fab := { s.fab with heldAt := s.fab.heldAt.filter fun x => x != h } }
      emitStripe st st.resent (updStripe h.1 h.2.1 (fun x => { x with sentAt := s.time }) s)

/-- A held answer leaves once its label can be reached. -/
def releaseAnswer (s : State) (h : BitVec 10 × BitVec 32 × Answer × Nat) : State :=
  if (availablePaths s.fab h.1.toNat false).isEmpty && h.1.toNat != ownLabel s.fab then s
  else sendAnswer h.1 h.2.1 h.2.2.1 { s with fab := { s.fab with heldAnswers := s.fab.heldAnswers.filter fun x => x != h } }

/-- The held stripes and answers whose labels can be reached leave. -/
def releaseHeld (s : State) : State :=
  let s := s.fab.sends.foldl (fun s m => recut m s) s
  s.fab.heldAnswers.foldl releaseAnswer (s.fab.heldAt.foldl releaseOne s)

/-! ## The end of a message's sending (R435) -/

/-- A message in sending changed. -/
def updSend (id : Nat) (g : MsgSend → MsgSend) (s : State) : State :=
  { s with fab := { s.fab with sends := updateFirst (fun m => m.id == id) g s.fab.sends } }

/-- The stripes of a message are forgotten. -/
def dropMsgStripes (id : Nat) (s : State) : State :=
  let mine := s.fab.stripes.filter fun x => x.msg == some id
  mine.foldl (fun s x => dropStripe x.dst x.seq s) { s with fab := { s.fab with former := s.fab.former.filter fun e => e.2.msg != some id } }

/-- The sending of a message ends with a code, unless it has ended. -/
def endSend (id : Nat) (code : BitVec 8) (s : State) : State :=
  updSend id (fun m => { m with ended := m.ended.or (some code) }) (dropMsgStripes id s)

/-- The core that a strand is bound to. -/
def coreOf (s : State) (slot : Nat) : Option Nat := ((allCores s).find? fun c => c.2.slot == some slot).map (·.1)

/-- A sender's STATUS is written by its core on the STRAND path; a message whose STATUS is written is done. -/
def tellSend (m : MsgSend) (code : BitVec 8) (s : State) : State :=
  let bs := leBytes 8 (2 ^ 63 + code.toNat * 2 ^ 48)
  let a := m.record + 24
  let done (s : State) : State := { s with fab := { s.fab with sends := removeFirst (fun x => x.id == m.id) s.fab.sends } }
  let write (s : State) : State :=
    match peerOf (strandSites s true false a 8) with
    | some (slot, o) => done (issueAccess .store false (.store true) a slot o 8 bs false false s)
    | none =>
      match writeSites (strandSites s true false a 8) bs (some ⟨m.slot, false⟩) a s with
      | .ok kept s => done (noteKept kept a s)
      | .stall s => s
      | .stop _ _ => done s
  match coreOf s m.slot with
  | some c => onCore c write s
  | none => done s

/-- Every message that has ended gets its STATUS. -/
def tellSends (s : State) : State :=
  s.fab.sends.foldl (fun s m => match m.ended with | some code => tellSend m code s | none => s) s

/-! ## Lost stripes (R430, R431, R435) -/

/-- An outstanding unit of a core is answered (R424). -/
def answerUnit (core : BitVec 8) (id : Nat) (r : Reply) (s : State) : State := onCore core.toNat (withCore (Core.answer id r)) s

/-- A loss notice leaves, and is repeated until it is answered (R431). -/
def noticeLoss (dst : BitVec 10) (seq : BitVec 32) (lost : LostItem) (s : State) : State :=
  sendAnswer dst seq (.lossNotice lost) { s with fab := { s.fab with notices := s.fab.notices ++ [(dst, seq, lost)] } }

/-- pf.mctl with BUSY clear, and ERR as given (R437). -/
def mctlDone (err : Bool) (s : State) : State :=
  { s with fab := { s.fab with mctl := (s.fab.mctl &&& 0x3FF) ||| (if err then 1#64 <<< 61 else 0) } }

/-- What the loss of a stripe ends: its unit, its message or its management message; rebuild traffic is sent anew. The target learns of a lost store
or atomic (R431), and of a lost stripe of a message, by a loss notice. -/
def stripeLost (notice : BitVec 10 → BitVec 32 → LostItem → State → State) (st : StripeOut) (s : State) : State :=
  match st.body with
  | .unit core copy count _ kind _ _ _ =>
    let s := if unitCounts kind then notice st.dst st.seq (.unit core copy count) s else s
    match st.acc with
    | some (c, id) => answerUnit c id .lost s
    | none => s
  | .msg id .. => endSend id 4 (notice st.dst st.seq (.msg id) s)
  | .mgmt => mctlDone true s
  | body => sendStripe st.dst st.cls body st.data none none s

/-- A stripe is lost (R430). -/
def loseStripe (st : StripeOut) (s : State) : State :=
  stripeLost noticeLoss st (dropStripe st.dst st.seq { s with fab := { s.fab with loss := s.fab.loss + 1 } })

/-- A stripe that went to a part which another has replaced is lost; no notice follows it there (log 93, DESIGN CHOICE). -/
def loseFormer (e : BitVec 10 × StripeOut) (s : State) : State :=
  stripeLost (fun _ _ _ s => s) e.2 { s with fab := { s.fab with loss := s.fab.loss + 1, former := removeFirst (· == e) s.fab.former } }

/-- Whether a stripe carries a parity update. -/
def isParity : Body → Bool
  | .parity _ => true
  | _ => false

/-! ## Links (R415, R416, R432) -/

/-- LINK_STATE_CHANGE (R415). -/
def execLinkStateChange (port : BitVec 4) (up : Bool) (s : State) : Out :=
  .next
    (match s.fab.port[port.toNat]? with
     | none => s
     | some p => releaseHeld { s with fab := { s.fab with port := s.fab.port.setIfInBounds port.toNat { p with up := up } } })

/-- The label that a part serves (R412, R452); a part that another one stands in for serves none. -/
def servedLabel (f : Fabric) (phys : BitVec 10) : Option (BitVec 10) :=
  let label : BitVec 10 :=
    match f.subst.toList.find? (fun e => e.en && e.phys == phys) with
    | some e => e.logical
    | none => BitVec.ofNat 10 (labelOfPhys f phys.toNat)
  if servingPart f label.toNat = phys.toNat then some label else none

/-- A link goes down to retrain: a peer port (R416), or, as links 10 and 11, an Ethernet port, which only the Miller's request names
(R391). -/
def resetLink (n : Nat) (s : State) : State :=
  match s.fab.port[n]? with
  | some p => { s with fab := { s.fab with port := s.fab.port.setIfInBounds n { p with up := false } } }
  | none =>
    if n = 10 then { s with net := { s.net with up0 := false } }
    else if n = 11 then { s with net := { s.net with up1 := false } }
    else s

/-- RST (R391, R416); the Miller may ask once in 100 ms for a link, and a request beyond that is refused and counted. -/
def execRst (port : BitVec 4) (miller : Bool) (s : State) : Out :=
  .next
    (let n := port.toNat
     if !miller then if n < 10 then resetLink n s else s
     else if !s.miller.run || 12 ≤ n then s
     else if s.miller.linkResets.any fun r => r.1 == n && s.time < r.2 + micros 100000 then
       { s with miller := { s.miller with viol := s.miller.viol + 1 } }
     else resetLink n { s with miller := { s.miller with linkResets := s.miller.linkResets ++ [(n, s.time)] } })

/-- FLIT_DROP (R415). -/
def execFlitDrop (port : BitVec 4) (s : State) : Out :=
  .next
    (match s.fab.port[port.toNat]? with
     | none => s
     | some p => { s with fab := { s.fab with port := s.fab.port.setIfInBounds port.toNat { p with drop := p.drop + 1 } } })

/-! ## Relabelling and substitution (R412, R414, R452) -/

/-- Whether the ten fields of PERM are a permutation of 0 to 9. -/
def permValid (perm : BitVec 40) : Bool :=
  let xs := (List.range 10).map fun i => bitsOf perm.toNat (4 * i) 4
  (List.range 10).all xs.contains

/-- RELAB_WRITE (R391, R414). -/
def execRelabWrite (value : Word) (miller : Bool) (s : State) : Out :=
  .next
    (let perm := value.extractLsb' 0 40
     if (miller && s.miller.lock) || !permValid perm then s
     else releaseHeld { s with fab := { s.fab with perm := perm, mask := value.extractLsb' 40 10 } })

/-- Where another part has come behind a label, or this part behind another, the pairs of parts start anew (R421, R427). The stripes in flight
stay with the part that they went to: the change is for units issued afterwards (R452). -/
def changeParts (f : Fabric) (s : State) : State :=
  let all := ownLabel f != ownLabel s.fab
  let moved (l : BitVec 10) : Bool := all || servingPart f l.toNat != servingPart s.fab l.toNat
  let gone (st : StripeOut) : Bool := moved st.dst && !st.staysOn
  let stripes := s.fab.stripes
  let left := (stripes.filter gone).map fun st => (BitVec.ofNat 10 (servingPart s.fab st.dst.toNat), st)
  startPairs moved { s with fab := { s.fab with stripes := stripes.filter fun st => !gone st, former := s.fab.former ++ left } }

/-- PF_SUBST_WRITE (R449, R452). -/
def execPfSubstWrite (k : BitVec 4) (value : Word) (miller : Bool) (s : State) : Out :=
  .next
    (if miller && s.miller.lock then s
     else
       let e : Subst := ⟨value.getLsbD 63, value.extractLsb' 16 10, value.extractLsb' 0 10⟩
       let f := { s.fab with subst := bankSet s.fab.subst k e }
       let s := changeParts f s
       releaseHeld { s with fab := { s.fab with subst := bankSet s.fab.subst k e } })

/-! ## Erasure decoding (R426) -/

/-- One row of the linear system over the field: coefficients of the data fragments, and the bytes they sum to. -/
structure CodeRow where
  coeff : List Nat
  bytes : List Byte
  deriving DecidableEq, Repr

/-- Coefficient `i` of a row. -/
def CodeRow.at (r : CodeRow) (i : Nat) : Nat := r.coeff.getD i 0

/-- A row times a field element. -/
def CodeRow.scale (c : Nat) (r : CodeRow) : CodeRow := ⟨r.coeff.map (gfMul c), gfScale c r.bytes⟩

/-- The sum of two rows. -/
def CodeRow.add (a b : CodeRow) : CodeRow := ⟨List.zipWith (· ^^^ ·) a.coeff b.coeff, xorBytes a.bytes b.bytes⟩

/-- The row of a fragment: a data fragment stands for itself, a coding fragment for its sum. -/
def codeRow (k : Nat) (f : Nat × List Byte) : CodeRow :=
  ⟨(List.range k).map fun i => if f.1 < k then bit (i == f.1) else codeCoeff (f.1 - k) i, f.2⟩

/-- Elimination of `n` columns from column `i` on; solved rows are kept in column order. -/
def solveRows : Nat → Nat → List CodeRow → List CodeRow → List CodeRow
  | 0, _, solved, _ => solved
  | n + 1, i, solved, rows =>
    match rows.find? (fun r => r.at i != 0) with
    | none => solved
    | some p =>
      let p := p.scale (gfInv (p.at i))
      let clear (r : CodeRow) : CodeRow := r.add (p.scale (r.at i))
      solveRows n (i + 1) (solved.map clear ++ [p]) ((removeFirst (fun r => r.at i != 0) rows).map clear)

/-- The data of a stripe from k distinct fragments. -/
def decodeFragments (k len : Nat) (frags : List (Nat × List Byte)) : List Byte :=
  ((solveRows k 0 [] ((frags.take k).map (codeRow k))).flatMap (·.bytes)).take len

/-! ## Records of decoded stripes (R427, R428) -/

/-- The record of a decoded stripe. -/
def decodedOf (f : Fabric) (src : BitVec 10) (seq : BitVec 32) : Option StripeRecord := f.decoded.find? fun d => d.src == src && d.seq == seq

/-- The highest number decoded from a source part. -/
def topOf (f : Fabric) (src : BitVec 10) : Option (BitVec 32) := (f.tops.find? fun e => e.1 == src).map (·.2)

/-- Whether a number comes after another one, modulo 2^32. The half ahead of the highest decoded number holds the new ones, and every other
number lies at most 2^31 behind it; so R428's numbers "more than 2^31 behind" add none to the 65,536 recorded ones (log 59, DEDUCED). -/
def after32 (a b : BitVec 32) : Bool := (a - b).toNat < 2 ^ 31 && a != b

/-- Whether a number lies ahead of the highest decoded one: a record that holds it is from before the numbers came round (log 66). -/
def ahead (f : Fabric) (src : BitVec 10) (seq : BitVec 32) : Bool := (topOf f src).any (after32 seq)

/-- A decoded stripe is recorded; a source part's last 65,536 are kept. -/
def recordDecoded (src : BitVec 10) (seq : BitVec 32) (ack : Option StripeAck) (f : Fabric) : Fabric :=
  let mine := f.decoded.filter fun d => d.src == src && d.seq != seq
  let top := match topOf f src with | some h => if after32 seq h then seq else h | none => seq
  { f with
    decoded := (⟨src, seq, ack⟩ :: mine).take 65536 ++ f.decoded.filter fun d => d.src != src,
    tops := (src, top) :: f.tops.filter fun e => e.1 != src }

/-- The answer to a decoded stripe is recorded and sent. -/
def finishStripe (src : BitVec 10) (seq : BitVec 32) (ack : StripeAck) (s : State) : State :=
  sendAck src seq ack { s with fab := recordDecoded src seq (some ack) s.fab }

/-! ## Remote units at their target (R419 to R423, R431) -/

/-- Whether a unit is a release; on an UNORDERED entry its order is ignored (R339). -/
def UnitIn.isRel (u : UnitIn) : Bool :=
  match u.kind with
  | .load _ => false
  | .store r => r
  | .amo _ _ _ r => r

/-- A unit's kind as the entry that holds it lets it be. -/
def kindUnder (order : BitVec 2) (k : UnitKind) : UnitKind :=
  if order != 2 then k
  else
    match k with
    | .store _ => .store false
    | .amo op size cmp _ => .amo op size cmp false
    | .load fresh => .load fresh

/-- Whether a lost unit of a stream lies before a count and after the delivery that clears the mark (R431). -/
def brokenBefore (lost : List (BitVec 32)) (since count : BitVec 32) : Bool := lost.any fun c => (c - since).toNat < (count - since).toNat

/-- What performing a unit gives: its reply, whose durability the parity groups await, or a wait. -/
inductive UnitEnd where
  | done (reply : Reply) (groups : List Nat) (s : State)
  | wait (s : State)

/-- The reply that a fault stands for (R423, R454). -/
def faultReply : TrapCode → Reply
  | .uncorr => .uncorr
  | .selvedgeLoss => .selvedge
  | _ => .prot

/-- The reply to a write. -/
def keptReply (kept : Bool) : Reply := if kept then .done else .doneNotDurable

/-- A unit is performed as a local access would be (R419, R423). A release behind a lost unit is not performed (R431); an atomic that does not
write is no release (R99). -/
def performUnit (lost : List (BitVec 32)) (u : UnitIn) (s : State) : UnitEnd :=
  let who : Who := .job u.job
  let g0 := s.nextId
  let broken := u.isRel && brokenBefore lost u.since u.count
  if u.refused then .done .prot [] s
  else
    match u.kind with
    | .load fresh =>
      match readSites (if fresh then .load else .raw) (physSites s who false false u.addr u.len) s with
      | .ok x s => .done (.data x.bytes (x.miss.any id)) [] s
      | .stall s => .wait s
      | .stop i c => .done (faultReply c) [] (metUnit c (u.addr + i) s)
    | .store _ =>
      if broken then .done .lost [] s
      else
      match writeSites (physSites s who true false u.addr u.len) u.bytes none 0 s with
      | .ok kept s => .done (keptReply kept) (groupsSince g0 s) s
      | .stall s => .wait s
      | .stop i c => .done (faultReply c) [] (metUnit c (u.addr + i) s)
    | .amo op size cmp _ =>
      let n := size.bytes
      let sites := physSites s who true true u.addr n
      if sites.any Site.inHost && !hostAtomic op n then .done .prot [] s
      else
        let new := amoNew op n (leNat u.bytes) cmp.toNat
        match rmwSites sites (if broken then fun _ => none else new) none 0 s with
        | .ok r s' =>
          if broken && (new r.1).isSome then .done .lost [] s
          else .done (if r.2 then .data (leBytes n r.1) false else .oldNotDurable (leBytes n r.1)) (groupsSince g0 s') s'
        | .stall s => .wait s
        | .stop i c => .done (faultReply c) [] (metUnit c (u.addr + i) s)

/-- Whether a stream is the one named. -/
def inIs (src : BitVec 10) (core : BitVec 8) (copy : Bool) (i : StreamIn) : Bool := i.src == src && i.core == core && i.copy == copy

/-- A stream received changed. -/
def updIn (src : BitVec 10) (core : BitVec 8) (copy : Bool) (g : StreamIn → StreamIn) (s : State) : State :=
  { s with fab := { s.fab with ins := updateFirst (inIs src core copy) g s.fab.ins } }

/-- Whether count `a` does not lie after count `b`, modulo 2^32. -/
def countReached (a b : BitVec 32) : Bool := (b - a).toNat < 2 ^ 31

/-- Whether a waiting unit's turn has come (R421). -/
def UnitIn.ready (count : BitVec 32) (u : UnitIn) : Bool := if unitCounts u.kind then u.count == count else countReached u.count count

/-- A unit is answered, at once or when its parity groups are acknowledged (R447). -/
def answerSource (src : BitVec 10) (u : UnitIn) (reply : Reply) (groups : List Nat) (s : State) : State :=
  if groups.isEmpty then finishStripe src u.seq (.performed reply) s
  else { s with sv := { s.sv with after := s.sv.after ++ [(groups, .unitReply src u.seq reply)] } }

/-- A noticed unit counts as performed without being performed, and marks the stream broken (R431). -/
def skipNoticed (i : StreamIn) : StreamIn :=
  if i.noticed.contains i.count then
    { i with count := i.count + 1, lost := i.lost ++ [i.count], noticed := i.noticed.filter (· != i.count) }
  else i

/-- Units of a stream are performed in their turn, up to `n` of them. -/
def serveStream (src : BitVec 10) (core : BitVec 8) (copy : Bool) : Nat → State → State
  | 0, s => s
  | n + 1, s =>
    let s := updIn src core copy skipNoticed s
    match s.fab.ins.find? (inIs src core copy) with
    | none => s
    | some i =>
      match i.waiting.find? (UnitIn.ready i.count) with
      | none => s
      | some u =>
        match performUnit i.lost u s with
        | .wait s => s
        | .done reply groups s =>
          let after (i : StreamIn) : StreamIn :=
            { i with count := if unitCounts u.kind then i.count + 1 else i.count, waiting := removeFirst (fun x => x.seq == u.seq) i.waiting }
          serveStream src core copy n (answerSource src u reply groups (updIn src core copy after s))

/-- Turns that a stream can take now. -/
def StreamIn.turns (i : StreamIn) : Nat := i.waiting.length + i.noticed.length + 1

/-- Every stream received is served. -/
def serveStreams (s : State) : State := s.fab.ins.foldl (fun s i => serveStream i.src i.core i.copy i.turns s) s

/-- A decoded unit joins its stream (R420, R421); it is answered when it has been performed. -/
def takeUnit (src : BitVec 10) (seq : BitVec 32) (core : BitVec 8) (copy : Bool) (count since : BitVec 32) (kind : UnitKind)
    (addr len : Nat) (job : BitVec 16) (bytes : List Byte) (s : State) : State :=
  let entry := exportFor s (unitCounts kind) addr len job
  let u : UnitIn := ⟨seq, entry.isNone, count, since, kindUnder ((entry.map (·.order)).getD 0) kind, addr, len, job, bytes⟩
  let ins := if s.fab.ins.any (inIs src core copy) then s.fab.ins else s.fab.ins ++ [⟨src, core, copy, 0, [], [], []⟩]
  let s := { s with fab := recordDecoded src seq none { s.fab with ins := ins } }
  let s := updIn src core copy (fun i => { i with waiting := i.waiting ++ [u] }) s
  let turns := ((s.fab.ins.find? (inIs src core copy)).map StreamIn.turns).getD 0
  serveStream src core copy turns s

/-- A noticed unit of a stream is performed no more, and counts as performed in its turn (R431). -/
def unitNoticed (src : BitVec 10) (core : BitVec 8) (copy : Bool) (count : BitVec 32) (s : State) : State :=
  let ins := if s.fab.ins.any (inIs src core copy) then s.fab.ins else s.fab.ins ++ [⟨src, core, copy, 0, [], [], []⟩]
  let note (i : StreamIn) : StreamIn :=
    let i := { i with waiting := i.waiting.filter fun u => !(unitCounts u.kind && u.count == count) }
    if countReached i.count count then { i with noticed := if i.noticed.contains count then i.noticed else i.noticed ++ [count] }
    else { i with lost := if i.lost.contains count then i.lost else i.lost ++ [count] }
  let s := updIn src core copy note { s with fab := { s.fab with ins := ins } }
  let turns := ((s.fab.ins.find? (inIs src core copy)).map StreamIn.turns).getD 0
  serveStream src core copy turns s

/-! ## Messages in arrival (R434, R435) -/

/-- A message in arrival. -/
def msgRxOf (s : State) (src : BitVec 10) (id : Nat) : Option MsgRx := s.fab.rx.find? fun r => r.src == src && r.id == id

/-- A message in arrival changed. -/
def updRx (src : BitVec 10) (id : Nat) (g : MsgRx → MsgRx) (s : State) : State :=
  { s with fab := { s.fab with rx := updateFirst (fun r => r.src == src && r.id == id) g s.fab.rx } }

/-- A receiver's STATUS (R435). -/
def recvStatus (r : MsgRx) (code : BitVec 8) : List Byte := leBytes 8 (2 ^ 63 + code.toNat * 2 ^ 48 + r.src.toNat * 2 ^ 32 + r.len)

/-- The answer to a stripe of a message that has ended. -/
def endAck (code : BitVec 8) : StripeAck := if code = 0 then .performed .done else .msgEnded code

/-- A receiver's STATUS is written as soon as its page lets it; the stripes that ended the message are answered after it (R456). -/
def tellRecv (r : MsgRx) (code : BitVec 8) (s : State) : State :=
  let a := r.recv.record + 24
  let told (s : State) : State :=
    r.acks.foldl (fun s q => finishStripe r.src q (endAck code) s) (updRx r.src r.id (fun r => { r with told := true, acks := [] }) s)
  match writeSites (virtSites s r.recv.launch false true false a 8) (recvStatus r code) none a s with
  | .ok _ s => told s
  | .stall s => s
  | .stop _ _ => told s

/-- Every message that has ended in arrival gets its STATUS. -/
def tellRecvs (s : State) : State :=
  s.fab.rx.foldl (fun s r => match r.ended with | some code => if r.told then s else tellRecv r code s | none => s) s

/-- The arrival of a message ends, unless it has ended; STATUS follows. -/
def endRx (src : BitVec 10) (id : Nat) (code : BitVec 8) (s : State) : State :=
  tellRecvs (updRx src id (fun r => { r with ended := r.ended.or (some code) }) s)

/-- The first fragment of a message finds a record of its mailbox, or the answer that refuses it (R435). -/
def matchMsg (src : BitVec 10) (id : Nat) (mbox : BitVec 12) (len : Nat) (job : BitVec 16) (s : State) : State × Option StripeAck :=
  match s.fab.recvs.find? (fun r => r.mbox == mbox) with
  | none => (s, some .msgRefused)
  | some r =>
    if bank s.fab.fjob (mbox.extractLsb' 6 6) != job then (s, some (.msgEnded 3))
    else
      let f := { s.fab with recvs := removeFirst (· == r) s.fab.recvs, rx := s.fab.rx ++ [⟨src, id, len, r, [], none, false, []⟩] }
      let s := { s with fab := f }
      if len ≤ r.cap then (s, none)
      else
        let s := endRx src id 2 s
        (s, if (msgRxOf s src id).any (·.told) then some (.msgEnded 2) else none)

/-- A stripe ends its message with a code, and is answered after STATUS (R456). -/
def stripeEnds (src : BitVec 10) (seq : BitVec 32) (id : Nat) (code : BitVec 8) (s : State) : State :=
  let s := updRx src id (fun r => { r with acks := r.acks ++ [seq] }) s
  endRx src id code { s with fab := recordDecoded src seq none s.fab }

/-- A stripe of a message is placed and, durable (R447), acknowledged; with the last one the message ends,
and its acknowledgement follows STATUS (R456). -/
def msgPlaced (src : BitVec 10) (seq : BitVec 32) (id index stripes : Nat) (s : State) : State :=
  match msgRxOf s src id with
  | none => s
  | some r =>
    let placed := if r.placed.contains index then r.placed else r.placed ++ [index]
    let s := updRx src id (fun r => { r with placed := placed }) s
    if placed.length == stripes && r.ended.isNone then stripeEnds src seq id 0 s else finishStripe src seq (.performed .done) s

/-- A stripe of a message ends it with a code on both sides. -/
def msgFails (src : BitVec 10) (seq : BitVec 32) (id : Nat) (code : BitVec 8) (s : State) : State :=
  if (msgRxOf s src id).any fun r => !r.told then stripeEnds src seq id code s else finishStripe src seq (.msgEnded code) s

/-- Stripes of a message sent with `k` data fragments. -/
def msgStripes (len k : Nat) : Nat := (len + 192 * k - 1) / (192 * k)

/-- A decoded stripe of a message: none where it must wait for a page, or for the STATUS of a message that has ended (R456). -/
def placeMsg (b : DecodeBuf) (id len index : Nat) (data : List Byte) (s : State) : Option State × State :=
  match msgRxOf s b.src id with
  | none => (some s, s)
  | some r =>
    match r.ended with
    | some code => (if r.told then some (finishStripe b.src b.seq (endAck code) s) else none, s)
    | none =>
      if r.placed.contains index then (some (finishStripe b.src b.seq (.performed .done) s), s)
      else
        let a := r.recv.buf + w64 (192 * b.k * index)
        let g0 := s.nextId
        match writeSites (virtSites s r.recv.launch false true false a data.length) data none a s with
        | .stall s => (none, s)
        | .stop _ _ => (some (msgFails b.src b.seq id 3 s), s)
        | .ok false s => (some (msgFails b.src b.seq id 3 s), s)
        | .ok true s =>
          match groupsSince g0 s with
          | [] => (some (msgPlaced b.src b.seq id index (msgStripes len b.k) s), s)
          | gs =>
            let f := recordDecoded b.src b.seq none s.fab
            (some { s with
              fab := f, sv := { s.sv with after := s.sv.after ++ [(gs, .msgStripe b.src b.seq id index (msgStripes len b.k))] } }, s)

/-- A notice is answered; its unit is performed no more, or its message ends with LOSS (R431, R435). -/
def takeNotice (src : BitVec 10) (seq : BitVec 32) (lost : LostItem) (s : State) : State :=
  sendAck src seq (.lossNoticed lost)
    (match lost with
     | .unit core copy count => unitNoticed src core copy count s
     | .msg id => endRx src id 4 s)

/-- LOSS_NOTICE (R431, R435). -/
def execLossNotice (src : BitVec 10) (seq : BitVec 32) (kind : LostKind) (number : Nat) (s : State) : Out :=
  .next (takeNotice src seq (kind.item number) s)

/-- LOSS_NOTICE_REPEAT (R431). -/
def execLossNoticeRepeat (dst : BitVec 10) (seq : BitVec 32) (kind : LostKind) (number : Nat) (s : State) : Out :=
  let lost := kind.item number
  .next (if s.fab.notices.contains (dst, seq, lost) then sendAnswer dst seq (.lossNotice lost) s else s)

/-! ## Management messages and blocks (R437, R453) -/

/-- A management message lands in the ring of the Miller's memory; the answer tells whether it found room. -/
def landMgmt (src : BitVec 10) (bytes : List Byte) (s : State) : State × Bool :=
  let base := s.fab.mrx.toNat % 2 ^ 18 / 256 * 256 + s.fab.mgmtNext * 256
  let tcm := s.miller.tcm
  if memGet tcm (base + 255) != 0 then (s, false)
  else
    let entry := (bytes ++ List.replicate 192 0).take 192 ++ leBytes 2 src.toNat ++ List.replicate 61 0 ++ [1]
    ({ s with
      miller := { s.miller with tcm := memPut tcm base entry }, fab := { s.fab with mgmtNext := (s.fab.mgmtNext + 1) % 32 } }, true)

/-- MANAGEMENT_MESSAGE_ARRIVAL (R437). -/
def execManagementMessageArrival (src : BitVec 10) (bytes : List Byte) (s : State) : Out := .next (landMgmt src bytes s).1

/-- MANAGEMENT_MESSAGE_SEND (R437): a write to pf.mctl. -/
def execManagementMessageSend (value : Word) (s : State) : Out :=
  .next
    (let f := s.fab
     if f.mctl.getLsbD 62 then s
     else if !value.getLsbD 63 then { s with fab := { f with mctl := (f.mctl &&& ~~~0x3FF#64) ||| (value &&& 0x3FF) } }
     else
       sendStripe (value.extractLsb' 0 10) 0 .mgmt (leBytes 192 f.mgmt.toNat) none none
         { s with fab := { f with mctl := (value &&& 0x3FF) ||| (1#64 <<< 62) } })

/-- A part of a rebuilt parity block is written. -/
def landBlock (range : Bool) (block off : Nat) (bytes : List Byte) (s : State) : State :=
  let (base, n) := svRange s.sv range
  if block < 8 * n && off + bytes.length ≤ 4096 then putMem (base + 4096 * block + off) bytes s else s

end Sys2Proof.Machine
end

