-- ==== Sys2Proof/Machine/EvSelvedge.lean ====
section
/-! DEFINITION. Selvedge: parity updates and their acknowledgement (R444 to R447), loss of a member (R449, R450), what notices say of other parts
(R415, R432), freezes, rebuild and substitution (R453, R454), and sv.cfg (R455). -/

namespace Sys2Proof.Machine

open Sys2Proof

/-! ## Registers (R455) -/

/-- STATE in sv.status. -/
def SvState.code : SvState → Nat
  | .off => 0
  | .normal => 1
  | .degraded => 2
  | .failed => 3

/-- sv.status. -/
def svStatus (v : Selvedge) : Word := w64 (v.ndur.toNat * 2 ^ 32 + bit v.rebuild * 2 ^ 16 + v.state.code * 2 ^ 8 + v.lost.toNat)

/-- Lost members of the group. -/
def lostCount (l : BitVec 8) : Nat := ((List.range 8).filter fun g => l.getLsbD g).length

/-- The state that the lost members leave the group in (R450). -/
def svStateOf (v : Selvedge) : SvState :=
  if !v.en then .off else if lostCount v.lost = 0 then .normal else if lostCount v.lost ≤ 2 then .degraded else .failed

/-- Whether the ranges lie inside their kinds of memory, and one of them holds something. -/
def rangesFit (v : Selvedge) : Bool :=
  (v.n0 != 0 || v.n1 != 0) && (v.n0 == 0 || v.base0.toNat + 8 * v.n0.toNat * 4096 ≤ vaultBase) &&
    (v.n1 == 0 || (vaultBase ≤ v.base1.toNat && v.base1.toNat + 8 * v.n1.toNat * 4096 ≤ vaultEnd))

/-- Whether a frame of a PROTECTED extent or handle is in use (R455). -/
def protectedInUse (s : State) : Bool :=
  s.backings.any fun b => !b.pages.isEmpty && (b.prot || s.launches.any fun l => l.exts.any fun e => e.back == b.id && attrProt e.attr)

/-- SV_CFG_WRITE (R455). -/
def execSvCfgWrite (value : Word) (s : State) : Out :=
  .next
    (let v := s.sv
     if value.getLsbD 0 then
       if v.en || !rangesFit v then s else { s with sv := { v with en := true, lost := 0, state := .normal } }
     else if !v.en || protectedInUse s then s
     else { s with sv := { v with en := false, lost := 0, state := .off } })

/-! ## Stripes of updates -/

/-- The stripe of a parity block of member `g` (R441). -/
def updStripeNo (n g block : Nat) : Nat :=
  let x := block - 6 * n
  8 * (x / 2) + (g + 7 * (x % 2)) % 8

/-- The range and stripe of an update without acknowledgement. -/
def ParityOut.stripe (v : Selvedge) (p : ParityOut) : Bool × Nat :=
  (p.upd.range, updStripeNo (svRange v p.upd.range).2 (p.dst.toNat % 8) p.upd.block)

/-- Whether a stripe has a parity holder in service (R445, R450). -/
def stripeKept (v : Selvedge) (j : Nat) : Bool := svInService v (j % 8) || svInService v ((j + 1) % 8)

/-! ## At a holder (R444, R446) -/

/-- Whether a holder takes an update (R439, R440). -/
def updateFits (v : Selvedge) (u : ParityUpd) : Bool :=
  v.en && u.block < 8 * (svRange v u.range).2 && u.off + u.bytes.length ≤ 4096

/-- An update is applied once and acknowledged each time (R444, R446). The record of a number that more than 2^31 others have followed goes
(log 66). -/
def takeParity (src : BitVec 10) (seq : BitVec 32) (upd : ParityUpd) (s : State) : State :=
  if s.sv.applied.contains (src, seq) then finishStripe src seq (.performed .done) s
  else if !updateFits s.sv upd then finishStripe src seq .parityRefused { s with sv := { s.sv with err := s.sv.err + 1 } }
  else
    let a := (svRange s.sv upd.range).1 + 4096 * upd.block + upd.off
    let s := finishStripe src seq (.performed .done) (putMem a (xorBytes (memBytes upd.bytes.length a s.mem) upd.bytes) s)
    let kept := s.sv.applied.filter fun x => !(x.1 == src && ahead s.fab src x.2)
    { s with sv := { s.sv with applied := kept ++ [(src, seq)] } }

/-- PARITY_UPDATE (R444, R446). -/
def execParityUpdate (src : BitVec 10) (seq : BitVec 32) (upd : ParityUpd) (s : State) : Out := .next (takeParity src seq upd s)

/-! ## At the owner (R445 to R447) -/

/-- The reply of a unit whose protected write is not kept. -/
def unkeptReply : Reply → Reply
  | .data bs _ => .oldNotDurable bs
  | .done => .doneNotDurable
  | r => r

/-- What waited for a durable write goes on. -/
def deferredDone (d : Deferred) (s : State) : State :=
  match d with
  | .unitReply src seq r => finishStripe src seq (.performed r) s
  | .msgStripe src seq msg index n => msgPlaced src seq msg index n s
  | .netPacket ep peer ordered msg index => netPlaced ep peer ordered msg index s

/-- What waited for a write that is recorded as not durable ends (R447). -/
def deferredLost (d : Deferred) (s : State) : State :=
  match d with
  | .unitReply src seq r => finishStripe src seq (.performed (unkeptReply r)) s
  | .msgStripe src seq msg _ _ => msgFails src seq msg 3 s
  | .netPacket ep peer _ msg index => netUnkept ep peer msg index s

/-- A parity group is acknowledged by every holder it needs. -/
def groupDone (g : Nat) (s : State) : State :=
  let after := s.sv.after.map fun a => (a.1.filter (· != g), a.2)
  let s := { s with sv := { s.sv with after := after.filter fun a => !a.1.isEmpty } }
  (after.filter fun a => a.1.isEmpty).foldl (fun s a => deferredDone a.2 s) s

/-- The other updates of a store that has been recorded as not durable. -/
def markUnkept (g : Nat) (s : State) : State :=
  { s with sv := { s.sv with pending := s.sv.pending.map fun p => if p.group == g then { p with unkept := true } else p } }

/-- A store is recorded as not durable (R445, R446, R450): for the strand that issued it, and for what waits for it. -/
def groupLost (p : ParityOut) (s : State) : State :=
  let mine := s.sv.after.filter fun a => a.1.contains p.group
  let s := markUnkept p.group { s with sv := { s.sv with ndur := s.sv.ndur + 1, after := s.sv.after.filter fun a => !a.1.contains p.group } }
  let s := mine.foldl (fun s a => deferredLost a.2 s) s
  match p.writer.bind fun w => (coreOf s w.slot).map fun c => (c, w.copy) with
  | some (c, true) => onCore c (withCore fun k => { k with copyTrap := k.copyTrap.or (some (copyFaultOf 2 p.va)) }) s
  | some (c, false) => onCore c (noteKept false p.va) s
  | none => s

/-- Freezes whose stripes have no update in flight any more are answered (R454). -/
def answerFreezes (s : State) : State :=
  let busy (r : Bool) (j : Nat) : Bool := s.sv.pending.any fun p => p.stripe s.sv == (r, j)
  let ready := s.sv.asked.filter fun a => !busy a.1 a.2.1
  ready.foldl (fun s a => sendStripe a.2.2 7 (.frozen a.1 a.2.1) [] none none s)
    { s with sv := { s.sv with asked := s.sv.asked.filter fun a => busy a.1 a.2.1 } }

/-- An update is settled: acknowledged, or lost to its purpose. A store is recorded as not durable once. -/
def settleUpdate (p : ParityOut) (unkept : Bool) (s : State) : State :=
  let s := dropStripe p.dst p.seq { s with sv := { s.sv with
    pending := removeFirst (fun x => x.dst == p.dst && x.seq == p.seq) s.sv.pending } }
  let s : State :=
    if p.unkept then s else if unkept then groupLost p s else if s.sv.pending.any (fun x => x.group == p.group) then s else groupDone p.group s
  answerFreezes s

/-- The answer to an update. -/
def parityAnswered (dst : BitVec 10) (seq : BitVec 32) (refused : Bool) (s : State) : State :=
  match s.sv.pending.find? (fun p => p.dst == dst && p.seq == seq) with
  | none => s
  | some p => settleUpdate p refused s

/-- PARITY_ACKNOWLEDGEMENT (R445 to R447). -/
def execParityAcknowledgement (dst : BitVec 10) (seq : BitVec 32) (refused : Bool) (s : State) : Out := .next (parityAnswered dst seq refused s)

/-- PARITY_RESEND (R446): an update never stops being sent again while its holder is in service. -/
def execParityResend (dst : BitVec 10) (seq : BitVec 32) (s : State) : Out :=
  .next
    (match stripeOf s dst seq with
     | none => s
     | some st =>
       if !isParity st.body || isHeld s.fab st || s.time < st.sentAt + 3 * tmoOf s.fab st.cls then s
       else
         let s := updStripe dst seq (fun x => { x with resent := true, sentAt := s.time }) { s with fab := { s.fab with retx := s.fab.retx + 1 } }
         emitStripe st true s)

/-! ## Loss of a member (R449, R450) -/

/-- The updates to a member that is no holder in service any more need no acknowledgement; a store that no holder keeps is not durable. What has been
read of its blocks for a rebuild is given up. -/
def settleMember (g : Nat) (s : State) : State :=
  let s := { s with sv := { s.sv with reads := s.sv.reads.filter fun b => b.member != g } }
  (s.sv.pending.filter fun p => p.dst.toNat % 8 == g).foldl (fun s p => settleUpdate p (!stripeKept s.sv (p.stripe s.sv).2) s) s

/-- A member of the group is lost. -/
def memberLost (g : Nat) (s : State) : State :=
  if !s.sv.en || s.sv.lost.getLsbD g || g == svMember s.fab then s
  else
    let v := { s.sv with lost := s.sv.lost ||| (1#8 <<< g) }
    let s := { s with sv := { v with state := svStateOf v } }
    settleMember g (reportEvent 2 (ownLabel s.fab / 8 * 8 + g) (svStatus s.sv).toNat s)

/-- The label of a member of the group. -/
def memberLabel (f : Fabric) (g : Nat) : BitVec 10 := BitVec.ofNat 10 (ownLabel f / 8 * 8 + g)

/-- The members that no path reaches any more are noted, each with the time when that began. -/
def noteCut (s : State) : State :=
  let gone (g : Nat) : Bool := s.sv.en && g != svMember s.fab && (availablePaths s.fab (memberLabel s.fab g).toNat true).isEmpty
  let since (g : Nat) : Nat := ((s.sv.cut.find? fun c => c.1 == g).map (·.2)).getD s.time
  { s with sv := { s.sv with cut := ((List.range 8).filter gone).map fun g => (g, since g) } }

/-- Whether no path has reached a member for 20 µs (R449). -/
def cutOff (s : State) (g : Nat) : Bool := s.sv.cut.any fun c => c.1 == g && c.2 + micros 20 ≤ s.time

/-- MEMBER_LOSS (R449, R450), of a member that no path has reached for 20 µs; the loss of one that has been reset comes with the notice. -/
def execMemberLoss (member : BitVec 3) (s : State) : Out := .next (if cutOff s member.toNat then memberLost member.toNat s else s)

/-! ## Notices of other parts (R415, R432, R445) -/

/-- A member of the group has sv.cfg.EN set or clear, as this part learns. -/
def noteEnabled (g : Nat) (on : Bool) (s : State) : State :=
  let bit_ : BitVec 8 := 1#8 <<< g
  let s := { s with sv := { s.sv with enabled := if on then s.sv.enabled ||| bit_ else s.sv.enabled &&& ~~~bit_ } }
  if on then s else settleMember g s

/-- What a notice says of a part that shares this part's protection group. -/
def noteMember (l : BitVec 10) (reset : Bool) (enabled : Option Bool) (s : State) : State :=
  if l.toNat / 8 != ownLabel s.fab / 8 then s
  else
    let s := if reset then noteEnabled (l.toNat % 8) false (memberLost (l.toNat % 8) s) else s
    match enabled with
    | some on => noteEnabled (l.toNat % 8) on s
    | none => s

/-- A stripe to a part that has been reset is lost; rebuild traffic and parity updates to it are no longer needed. -/
def loseToReset (st : StripeOut) (s : State) : State :=
  match st.body with
  | .unit .. | .msg .. | .mgmt => loseStripe st s
  | _ => dropStripe st.dst st.seq { s with fab := { s.fab with loss := s.fab.loss + 1 } }

/-- What went to a part that another one has replaced, and that has come out of a reset, is lost (R432, R452). -/
def formerReset (part : BitVec 10) (s : State) : State :=
  tellSends ((s.fab.former.filter fun e => e.1 == part).foldl (fun s e => loseFormer e s) s)

/-- R432: a part has come out of a reset. What it was sending ends as lost. -/
def peerReset (l : BitVec 10) (s : State) : State :=
  let s := (s.fab.stripes.filter fun x => x.dst == l).foldl (fun s st => loseToReset st s) s
  let s := (s.fab.rx.filter fun r => r.src == l).foldl (fun s r => endRx l r.id 4 s) s
  tellSends (startPairs (· == l) { s with fab := { s.fab with outs := s.fab.outs.filter fun o => o.dst != l } })

/-- LINK_STATE_NOTICE (R415, R432): the link of a dimension of a part, whether the part has come out of a reset, and, for a member of the group,
whether its Selvedge is enabled. -/
def execLinkStateNotice (part : BitVec 10) (dim : BitVec 4) (up : Bool) (news : PartNews) (s : State) : Out :=
  .next
    (let others := s.fab.down.filter fun e => !(e.1 == part && e.2 == dim)
     let s := { s with fab := { s.fab with down := if up then others else others ++ [(part, dim)] } }
     let s := if news.reset then formerReset part s else s
     releaseHeld
       (match servedLabel s.fab part with
        | none => s
        | some l => noteMember l news.reset news.enabled (if news.reset then peerReset l s else s)))

/-! ## Freezes at a data owner (R454) -/

/-- A group whose substitute has rebuilt every stripe loses the substitute's LOST bit (R453). -/
def rejoin (substitute : BitVec 10) (s : State) : State :=
  if (s.sv.freed.filter fun x => x.1 == substitute).length != 6 * (s.sv.n0.toNat + s.sv.n1.toNat) then s
  else
    let v := { s.sv with freed := s.sv.freed.filter (fun x => x.1 != substitute), lost := s.sv.lost &&& ~~~(1#8 <<< (substitute.toNat % 8)) }
    { s with sv := { v with state := svStateOf v } }

/-- A substitute's request to freeze a stripe, or to release it. -/
def freezeStripe (x : Bool × Nat) (substitute : BitVec 10) (release : Bool) (s : State) : State :=
  let v := s.sv
  if !v.en then s
  else if release then
    if !v.frozen.contains x then s
    else
      rejoin substitute { s with sv := { v with
        frozen := v.frozen.filter (· != x), asked := v.asked.filter (fun a => (a.1, a.2.1) != x),
        freed := if v.freed.contains (substitute, x) then v.freed else v.freed ++ [(substitute, x)] } }
  else
    let frozen := if v.frozen.contains x then v.frozen else v.frozen ++ [x]
    answerFreezes { s with sv := { v with frozen := frozen, asked := v.asked ++ [(x.1, x.2, substitute)] } }

/-- STRIPE_FREEZE (R454). -/
def execStripeFreeze (range : Bool) (stripe : Nat) (substitute : BitVec 10) (release : Bool) (s : State) : Out :=
  .next (freezeStripe (range, stripe) substitute release s)

/-! ## Rebuild at the substitute (R453, R454) -/

/-- Stripes of a range. -/
def stripesOf (v : Selvedge) (range : Bool) : Nat := 8 * (svRange v range).2

/-- All stripes, range 0 first, in ascending order. -/
def allStripes (v : Selvedge) : List (Bool × Nat) :=
  (List.range (stripesOf v false)).map (fun j => (false, j)) ++ (List.range (stripesOf v true)).map fun j => (true, j)

/-- The stripes that the substitute works on: those asked for first, then the next in order, 64 at most in all. -/
def openStripes (v : Selvedge) : List (Bool × Nat) :=
  let left (l : List (Bool × Nat)) : List (Bool × Nat) := l.filter fun x => !v.rebuilt.contains x
  let first := left v.wantedFirst
  (first ++ (left (allStripes v)).filter fun x => !first.contains x).take 64

/-- The role of member `g` in stripe `j`: a data index, 6 for Q, 7 for P (R441). -/
def stripeRole (g j : Nat) : Nat := (j + 15 - g) % 8

/-- The members in service that own data of a stripe, this part left out. -/
def dataOwners (s : State) (j : Nat) : List Nat :=
  (List.range 8).filter fun g => g != svMember s.fab && svInService s.sv g && stripeRole g j < 6

/-- Freeze or release requests for a stripe leave for its data owners, as rebuild traffic. -/
def askOwners (release : Bool) (x : Bool × Nat) (s : State) : State :=
  (dataOwners s x.2).foldl (fun s g => sendStripe (memberLabel s.fab g) 7 (.freeze x.1 x.2 release) [] none none s) s

/-- A data owner has frozen a stripe. -/
def ownerFroze (src : BitVec 10) (x : Bool × Nat) (s : State) : State :=
  let a := (x.1, x.2, src.toNat % 8)
  if s.sv.freezing.contains x && !s.sv.answered.contains a then { s with sv := { s.sv with answered := s.sv.answered ++ [a] } } else s

/-- Whether every data owner of a stripe has frozen it. -/
def allFroze (s : State) (x : Bool × Nat) : Bool := (dataOwners s x.2).all fun g => s.sv.answered.contains (x.1, x.2, g)

/-- The stripes that the substitute has come to are frozen. -/
def freezeNext (s : State) : State :=
  if !s.sv.rebuild then s
  else
    let new := (openStripes s.sv).filter fun x => !s.sv.freezing.contains x
    new.foldl (fun s x => askOwners false x s) { s with sv := { s.sv with freezing := s.sv.freezing ++ new } }

/-- REBUILD (R453): GO of sv.rebuild. -/
def execRebuild (s : State) : Out :=
  .next
    (let v := s.sv
     if !v.en || v.rebuild then s
     else freezeNext { s with sv := { v with rebuild := true, doneCount := 0, rebuilt := [], wantedFirst := [], freezing := [], answered := [], reads := [] } })

/-- The row of a block by its role (R442). -/
def roleRow (b : Nat × List Byte) : CodeRow :=
  ⟨(List.range 6).map fun i => if b.1 < 6 then bit (i == b.1) else if b.1 = 7 then 1 else gfPow 2 i, b.2⟩

/-- The six data blocks of a stripe from six of its blocks. -/
def stripeData (blocks : List (Nat × List Byte)) : List (List Byte) :=
  (solveRows 6 0 [] ((blocks.take 6).map roleRow)).map (·.bytes)

/-- P and Q of data blocks (R442). -/
def pOf (ds : List (List Byte)) : List Byte := ds.foldl xorBytes []
def qOf (ds : List (List Byte)) : List Byte := (ds.zipIdx.map fun d => gfScale (gfPow 2 d.2) d.1).foldl xorBytes []

/-- The number of the block that a role gives a member of a stripe. -/
def roleBlock (n role j : Nat) : Nat := if role < 6 then 6 * (j / 8) + role else if role = 7 then 6 * n + 2 * (j / 8) else 6 * n + 2 * (j / 8) + 1

/-! ### The surviving blocks (R453) -/

/-- Where this part's block of a stripe lies. -/
def ownBlockAt (s : State) (x : Bool × Nat) : Nat :=
  let (base, n) := svRange s.sv x.1
  base + 4096 * roleBlock n (stripeRole (svMember s.fab) x.2) x.2

/-- A member is asked for its block of a stripe, as rebuild traffic. -/
def askBlock (x : Bool × Nat) (s : State) (g : Nat) : State :=
  sendStripe (memberLabel s.fab g) 7 (.blockRead x.1 x.2) [] none none { s with sv := { s.sv with reads := s.sv.reads ++ [⟨x, g, false, []⟩] } }

/-- Whether this part has a block of a stripe: its Selvedge is on, the range holds the stripe, and no rebuild of the block is due. -/
def hasBlock (s : State) (x : Bool × Nat) : Bool := s.sv.en && x.2 < stripesOf s.sv x.1 && !(s.sv.rebuild && !s.sv.rebuilt.contains x)

/-- Whether the read of this part's block waits for a column that retrains (R327). -/
def blockWaits (s : State) (x : Bool × Nat) : Bool := hasBlock s x && !(heldUp s false (ownBlockAt s x) 4096).isEmpty

/-- The pieces of a block that a stripe of class 7 holds. -/
def blockPieces (s : State) : List (Nat × Nat) := pieces (192 * (bank s.fab.rate 7).kOf) 4097 0 4096

/-- A member gives its block of a stripe to a substitute, or answers that it has none; lost lines of it are none. -/
def giveBlock (substitute : BitVec 10) (x : Bool × Nat) (s : State) : State :=
  let lost := if hasBlock s x then lostLines s (ownBlockAt s x) 4096 else []
  if !hasBlock s x || !lost.isEmpty then sendStripe substitute 7 (.noBlock x.1 x.2) [] none none (metLines lost s)
  else
    (blockPieces s).foldl
      (fun s u => sendStripe substitute 7 (.blockData x.1 x.2 u.1) (memBytes u.2 (ownBlockAt s x + u.1) s.mem) none none s) s

/-- A piece of a member's block has come, or the word that the member has none. -/
def blockCame (src : BitVec 10) (x : Bool × Nat) (piece : Option (Nat × List Byte)) (s : State) : State :=
  let take (b : BlockRead) : BlockRead :=
    match piece with
    | none => { b with absent := true }
    | some p => { b with parts := b.parts.filter (fun q => q.1 != p.1) ++ [p] }
  { s with sv := { s.sv with reads := updateFirst (fun b => b.stripe == x && b.member == src.toNat % 8) take s.sv.reads } }

/-- The bytes of a read that is complete. -/
def BlockRead.whole (b : BlockRead) : Option (List Byte) :=
  let bytes := (b.parts.mergeSort fun p q => p.1 ≤ q.1).flatMap (·.2)
  if !b.absent && bytes.length = 4096 then some bytes else none

/-- A whole parity block leaves for its holder, in stripes of class 7. -/
def sendBlock (g : Nat) (range : Bool) (block : Nat) (bytes : List Byte) (s : State) : State :=
  (blockPieces s).foldl
    (fun s u => sendStripe (memberLabel s.fab g) 7 (.block range block u.1) ((bytes.drop u.1).take u.2) none none s) s

/-- New P and Q leave for the holders in service other than this part. -/
def sendParities (x : Bool × Nat) (ds : List (List Byte)) (s : State) : State :=
  let n := (svRange s.sv x.1).2
  let b := svParityBlocks n x.2
  let other (g : Nat) : Bool := g != svMember s.fab && svInService s.sv g
  let s := if other (x.2 % 8) then sendBlock (x.2 % 8) x.1 b.1 (pOf ds) s else s
  if other ((x.2 + 1) % 8) then sendBlock ((x.2 + 1) % 8) x.1 b.2 (qOf ds) s else s

/-- A stripe counts as rebuilt; with the last one the rebuild ends. -/
def stripeDone (x : Bool × Nat) (s : State) : State :=
  let v := { s.sv with
    rebuilt := s.sv.rebuilt ++ [x], doneCount := s.sv.doneCount + 1, wantedFirst := s.sv.wantedFirst.filter (· != x),
    freezing := s.sv.freezing.filter (· != x), answered := s.sv.answered.filter (fun a => (a.1, a.2.1) != x)
    reads := s.sv.reads.filter fun b => b.stripe != x }
  if v.rebuilt.length == stripesOf v false + stripesOf v true then
    { s with sv := { v with rebuild := false, rebuilt := [], state := svStateOf v } }
  else freezeNext { s with sv := v }

/-- Whether rebuilt parity of a stripe is still on its way to a holder. -/
def parityOnWay (s : State) (x : Bool × Nat) : Bool :=
  let b := svParityBlocks (svRange s.sv x.1).2 x.2
  (s.fab.stripes ++ s.fab.former.map (·.2)).any fun st =>
    match st.body with
    | .block r block _ =>
      r == x.1 && ((block == b.1 && st.dst.toNat % 8 == x.2 % 8) || (block == b.2 && st.dst.toNat % 8 == (x.2 + 1) % 8))
    | _ => false

/-- STRIPE_REBUILD (R453, R454): `blocks` are the surviving blocks that were read, once every data owner has frozen the stripe, each with its role
in the stripe. With fewer than six the stripe is unrecoverable (R450). -/
def execStripeRebuild (range : Bool) (stripe : Nat) (blocks : List (Nat × List Byte)) (s : State) : Out :=
  .next
    (let x := (range, stripe)
     let v := s.sv
     let role := stripeRole (svMember s.fab) stripe
     let at_ := ownBlockAt s x
     let fit := blocks.filter fun b => b.1 < 8 && b.1 != role && b.2.length == 4096
     if !v.rebuild || v.rebuilt.contains x || !(openStripes v).contains x || !allFroze s x then s
     else if fit.length < 6 then
       let lines := (List.range 64).map fun i => at_ / 64 + i
       stripeDone x (askOwners true x { s with sv := { v with deadLines := v.deadLines ++ lines } })
     else
       let ds := stripeData fit
       let own := if role = 7 then pOf ds else if role = 6 then qOf ds else ds.getD role []
       let s := sendParities x ds (putMem at_ own s)
       stripeDone x (if parityOnWay s x then { s with sv := { s.sv with releasing := s.sv.releasing ++ [x] } } else askOwners true x s))

/-- A stripe that every data owner has frozen: members in service are asked for their blocks, six at a time, and from six of them, or where no six
can give theirs, the stripe is rebuilt (R450, R453). -/
def readStripe (s : State) (x : Bool × Nat) : State :=
  let asked := s.sv.reads.filter fun b => b.stripe == x
  let live := asked.filter fun b => !b.absent
  let whole := live.filterMap fun b => b.whole.map fun bytes => (stripeRole b.member x.2, bytes)
  let others := (List.range 8).filter fun g => g != svMember s.fab && svInService s.sv g && !asked.any fun b => b.member == g
  let more := others.take (6 - live.length)
  if !allFroze s x then s
  else if 6 ≤ whole.length || live.length + more.length < 6 then
    match execStripeRebuild x.1 x.2 whole s with
    | .next s => s
    | _ => s
  else more.foldl (askBlock x) s

/-- The stripes under rebuild go on. -/
def rebuildTurn (s : State) : State := if s.sv.rebuild then s.sv.freezing.foldl readStripe s else s

/-- Stripes whose new P and Q are acknowledged are released (R454). -/
def releaseStripes (s : State) : State :=
  let ready := s.sv.releasing.filter fun x => !parityOnWay s x
  ready.foldl (fun s x => askOwners true x s) { s with sv := { s.sv with releasing := s.sv.releasing.filter (parityOnWay s) } }

end Sys2Proof.Machine
end

