-- ==== Sys2Proof/Machine/EvFragment.lean ====
section
/-! DEFINITION. Fragments of stripes at their target (R428, R429), the answers to stripes at their source (R427 to R431), and the message engine
(R434, R435). -/

namespace Sys2Proof.Machine

open Sys2Proof

/-! ## Fragments (R428) -/

/-- Buffers in use: stripes short of k fragments or not placed yet, and units that wait for their turn. -/
def buffersUsed (f : Fabric) : Nat := f.bufs.length + f.ins.foldl (fun n i => n + i.waiting.length) 0

/-- Whether a buffer is the one of a stripe. -/
def bufIs (src : BitVec 10) (seq : BitVec 32) (b : DecodeBuf) : Bool := b.src == src && b.seq == seq

/-- A stripe is decoded and performed once k distinct fragments are held; its buffer is then free. -/
def tryDecode (b : DecodeBuf) (s : State) : State :=
  if b.frags.length < b.k then s
  else
    let data := decodeFragments b.k b.len b.frags
    let free (s : State) : State := { s with fab := { s.fab with bufs := removeFirst (bufIs b.src b.seq) s.fab.bufs } }
    match b.body with
    | .unit core copy count since kind addr len job => takeUnit b.src b.seq core copy count since kind addr len job data (free s)
    | .msg id _ len index _ =>
      match placeMsg b id len index data s with
      | (some s, _) => free s
      | (none, s) => s
    | .mgmt =>
      let r := landMgmt b.src data s
      free (finishStripe b.src b.seq (if r.2 then .performed .done else .mgmtFull) r.1)
    | .block range block off => free (finishStripe b.src b.seq (.performed .done) (landBlock range block off data s))
    | .parity upd => free (takeParity b.src b.seq upd s)
    | .freeze range stripe release =>
      free (finishStripe b.src b.seq (.performed .done) (freezeStripe (range, stripe) b.src release s))
    | .frozen range stripe => free (finishStripe b.src b.seq (.performed .done) (ownerFroze b.src (range, stripe) s))
    | .blockRead range stripe =>
      if blockWaits s (range, stripe) then s else free (finishStripe b.src b.seq (.performed .done) (giveBlock b.src (range, stripe) s))
    | .blockData range stripe off => free (finishStripe b.src b.seq (.performed .done) (blockCame b.src (range, stripe) (some (off, data)) s))
    | .noBlock range stripe => free (finishStripe b.src b.seq (.performed .done) (blockCame b.src (range, stripe) none s))

/-- Whether a fragment's message turns its stripes away: it finds no record, or has ended. -/
def turnedAway (fr : Fragment) (s : State) : State × Option StripeAck :=
  match fr.body with
  | .msg id mbox len _ job =>
    match msgRxOf s fr.src id with
    | none => matchMsg fr.src id mbox len job s
    | some _ => (s, none)
  | _ => (s, none)

/-- A fragment of a stripe not decoded yet. -/
def bufferFragment (fr : Fragment) (s : State) : State :=
  match s.fab.bufs.find? (bufIs fr.src fr.seq) with
  | some b =>
    if b.frags.any (fun x => x.1 == fr.index) then { s with fab := { s.fab with late := s.fab.late + 1 } }
    else
      let b := { b with frags := b.frags ++ [(fr.index, fr.bytes)] }
      tryDecode b { s with fab := { s.fab with bufs := updateFirst (bufIs fr.src fr.seq) (fun _ => b) s.fab.bufs } }
  | none =>
    match turnedAway fr s with
    | (s, some a) => sendAck fr.src fr.seq a s
    | (s, none) =>
      if Config.decodeBuffers ≤ buffersUsed s.fab then { s with fab := { s.fab with nobuf := s.fab.nobuf + 1 } }
      else
        let b : DecodeBuf := ⟨fr.src, fr.seq, fr.cls, fr.k, fr.len, fr.body, [(fr.index, fr.bytes)], s.time, false⟩
        tryDecode b { s with fab := { s.fab with bufs := s.fab.bufs ++ [b] } }

/-- A fragment of a stripe that has been decoded is late; where the stripe has been answered, it is answered again. -/
def lateFragment (fr : Fragment) (ack : Option StripeAck) (s : State) : State :=
  let s := { s with fab := { s.fab with late := s.fab.late + 1 } }
  match ack with
  | some a => sendAck fr.src fr.seq a s
  | none => s

/-- A fragment reaches this part (R428). -/
def takeFragment (fr : Fragment) (s : State) : State :=
  match decodedOf s.fab fr.src fr.seq with
  | some d => lateFragment fr d.ack s
  | none => bufferFragment fr s

/-- FRAGMENT_ARRIVAL (R428). -/
def execFragmentArrival (fr : Fragment) (s : State) : Out := .next (takeFragment fr s)

/-- RECEIVER_TIMEOUT (R429). -/
def execReceiverTimeout (src : BitVec 10) (seq : BitVec 32) (s : State) : Out :=
  .next
    (match s.fab.bufs.find? (bufIs src seq) with
     | none => s
     | some b =>
       if b.asked || b.k ≤ b.frags.length || s.time < b.first + tmoOf s.fab b.cls then s
       else
         sendAnswer src seq .resendRequest
           { s with fab := { s.fab with bufs := updateFirst (bufIs src seq) (fun b => { b with asked := true }) s.fab.bufs } })

/-- DECODE_BUFFER_FREE (R429). -/
def execDecodeBufferFree (src : BitVec 10) (seq : BitVec 32) (s : State) : Out :=
  .next
    (match s.fab.bufs.find? (bufIs src seq) with
     | none => s
     | some b =>
       if !b.asked || b.k ≤ b.frags.length || s.time < b.first + 2 * tmoOf s.fab b.cls then s
       else { s with fab := { s.fab with bufs := removeFirst (bufIs src seq) s.fab.bufs } })

/-! ## At the source (R427 to R431, R435, R437) -/

/-- Stripes of a message. -/
def MsgSend.stripes (m : MsgSend) : Nat := (m.len + m.piece - 1) / m.piece

/-- A message's stripe is acknowledged; with the last one the message ends. -/
def msgAcked (id index : Nat) (s : State) : State :=
  let s := updSend id (fun m => { m with acked := if m.acked.contains index then m.acked else m.acked ++ [index] }) s
  match s.fab.sends.find? (fun m => m.id == id) with
  | some m => if m.piece != 0 && m.acked.length == m.stripes then endSend id 0 s else s
  | none => s

/-- A message is refused: its stripes wait for the retry; the 64th refusal ends it. -/
def msgRefusedAt (id : Nat) (s : State) : State :=
  let s := dropMsgStripes id s
  match s.fab.sends.find? (fun m => m.id == id) with
  | none => s
  | some m =>
    if 63 ≤ m.refusals then endSend id 1 s
    else updSend id (fun m => { m with refusals := m.refusals + 1, refusedAt := some s.time }) s

/-- What the answer to a stripe does at its source. -/
def stripeAnswered (st : StripeOut) (ack : StripeAck) (s : State) : State :=
  match ack, st.body with
  | .performed r, .unit .. =>
    let s := dropStripe st.dst st.seq s
    match st.acc with
    | some (c, id) => answerUnit c id r s
    | none => s
  | .performed _, .msg id _ _ index _ => msgAcked id index (dropStripe st.dst st.seq s)
  | .performed _, .mgmt => mctlDone false (dropStripe st.dst st.seq s)
  | .performed _, .block .. | .performed _, .freeze .. | .performed _, .frozen .. | .performed _, .blockRead .. | .performed _, .blockData ..
  | .performed _, .noBlock .. => dropStripe st.dst st.seq s
  | .performed _, .parity _ => parityAnswered st.dst st.seq false s
  | .parityRefused, .parity _ => parityAnswered st.dst st.seq true s
  | .msgRefused, .msg id .. => msgRefusedAt id s
  | .msgEnded code, .msg id .. => endSend id code s
  | .mgmtFull, .mgmt => mctlDone true (dropStripe st.dst st.seq s)
  | _, _ => s

/-- STRIPE_ACKNOWLEDGEMENT (R427 to R431). -/
def execStripeAcknowledgement (dst : BitVec 10) (seq : BitVec 32) (ack : StripeAck) (s : State) : Out :=
  .next
    (match ack with
     | .lossNoticed lost => { s with fab := { s.fab with notices := s.fab.notices.filter (· != (dst, seq, lost)) } }
     | _ =>
       match (stripeOf s dst seq).or ((formerOf s dst seq).map (·.2)) with
       | none => s
       | some st => tellSends (stripeAnswered st ack s))

/-- The message that a stripe is part of, and the stripe's number. -/
def sendOf (st : StripeOut) (s : State) : Option (MsgSend × Nat) :=
  match st.body with
  | .msg id _ _ index _ => (s.fab.sends.find? fun m => m.id == id).map fun m => (m, index)
  | _ => none

/-- A message whose source cannot be read ends (R435). -/
def sourceLost (m : MsgSend) (i : Nat) (c : TrapCode) (s : State) : State :=
  tellSends (endSend m.id (if c == .uncorr || c == .selvedgeLoss then 5 else Config.localStatus) (metFault c m.launch (m.laddr + w64 i) s))

/-- A stripe leaves a second time, with its data as given. -/
def emitAgain (st : StripeOut) (data : List Byte) (s : State) : State :=
  let s := { s with fab := { s.fab with retx := s.fab.retx + 1 } }
  let s := updStripe st.dst st.seq (fun x => { x with resent := true, sentAt := s.time, data := data }) s
  emitStripe { st with data := data } true s

/-- A stripe leaves a second time for the part that it went to, although another one has replaced that part (R452); without a path it stays. -/
def emitToPart (part : BitVec 10) (st : StripeOut) (data : List Byte) (s : State) : State :=
  let paths := (partPaths s.fab part.toNat).length
  if paths = 0 then s
  else
    let st' := { st with resent := true, sentAt := s.time, data := data }
    let frags := (List.range (st.k + st.m)).map fun i =>
      FabOut.toPart part ((i + st.seq.toNat + st.k + st.m) % paths) (st'.fragmentAt s.fab i)
    { s with fab := { s.fab with
        retx := s.fab.retx + 1, sent := s.fab.sent ++ frags, former := updateFirst (· == (part, st)) (fun _ => (part, st')) s.fab.former } }

/-- The one retransmission of a stripe (R418, R429), by `emit`; a message's source is read again for it (R434). -/
def resendStripe (emit : StripeOut → List Byte → State → State) (st : StripeOut) (s : State) : State :=
  match sendOf st s with
  | none => emit st st.data s
  | some (m, index) =>
    let at_ := m.piece * index
    match readSites .copy (virtSites s m.launch false false false (m.laddr + w64 at_) st.len) s with
    | .ok x s => emit st x.bytes s
    | .stall s => s
    | .stop i c => sourceLost m (at_ + i) c s

/-- Whether a stripe may still be sent again. -/
def mayResend (f : Fabric) (st : StripeOut) : Bool := !st.resent && !isHeld f st

/-- SENDER_RETRANSMISSION (R429); parity updates have their own (R446). -/
def execSenderRetransmission (dst : BitVec 10) (seq : BitVec 32) (s : State) : Out :=
  .next
    (match stripeOf s dst seq with
     | none => s
     | some st =>
       if mayResend s.fab st && !isParity st.body && st.sentAt + 3 * tmoOf s.fab st.cls ≤ s.time then resendStripe emitAgain st s else s)

/-- RETRANSMISSION_REQUEST (R429). -/
def execRetransmissionRequest (dst : BitVec 10) (seq : BitVec 32) (s : State) : Out :=
  .next
    (match stripeOf s dst seq, formerOf s dst seq with
     | some st, _ => if mayResend s.fab st then resendStripe emitAgain st s else s
     | none, some (part, st) => if st.resent then s else resendStripe (emitToPart part) st s
     | none, none => s)

/-- STRIPE_LOSS (R430); a parity update is never given up (R446). -/
def execStripeLoss (dst : BitVec 10) (seq : BitVec 32) (s : State) : Out :=
  .next
    (match stripeOf s dst seq with
     | none => s
     | some st =>
       if st.resent && !isParity st.body && !isHeld s.fab st && st.sentAt + 3 * tmoOf s.fab st.cls ≤ s.time then tellSends (loseStripe st s)
       else s)

/-- The timers of a stripe that went to a part which another has replaced (R429, R430, R452): where it cannot leave a second time for want of a
path, it is lost at the end of the hold (R449). -/
def formerTimer (s : State) (e : BitVec 10 × StripeOut) : State :=
  let st := e.2
  let due := st.sentAt + 3 * tmoOf s.fab st.cls
  if s.time < due then s
  else if st.resent then tellSends (loseFormer e s)
  else if !(partPaths s.fab e.1.toNat).isEmpty then resendStripe (emitToPart e.1) st s
  else if due + micros (1000 * s.sv.hold.toNat) ≤ s.time then tellSends (loseFormer e s)
  else s

/-- HOLD_EXPIRY (R418, R449): what has been held for a label for sv.hold is lost; parity updates stay (R446). -/
def execHoldExpiry (label : BitVec 10) (s : State) : Out :=
  .next
    (let over_ (dst : BitVec 10) (t : Nat) : Bool := dst == label && t + micros (1000 * s.sv.hold.toNat) ≤ s.time
     let late := s.fab.heldAt.filter fun h => over_ h.1 h.2.2
     let s := { s with fab := { s.fab with heldAnswers := s.fab.heldAnswers.filter fun h => !over_ h.1 h.2.2.2 } }
     tellSends
       (late.foldl
         (fun s h =>
           match stripeOf s h.1 h.2.1 with
           | some st => if isParity st.body then s else loseStripe st s
           | none => s)
         s))

/-! ## The message engine (R434, R435) -/

/-- The job of a message. -/
def sendJob (s : State) (m : MsgSend) : BitVec 16 := bank s.fab.fjob (launchFn s m.launch)

/-- The stripes of a message that are not acknowledged leave, from its source bytes. -/
def sendMsg (m : MsgSend) (bytes : List Byte) (s : State) : State :=
  let size := 192 * (bank s.fab.rate m.cls).kOf
  let m := { m with piece := size, acked := if m.piece = size then m.acked else [], refusedAt := none }
  let s := updSend m.id (fun _ => m) s
  ((List.range m.stripes).filter fun i => !m.acked.contains i).foldl
    (fun s i => sendStripe m.dest m.cls (.msg m.id m.mbox m.len i (sendJob s m)) ((bytes.drop (size * i)).take size) none (some m.id) s)
    s

/-- A message's source is read and its stripes leave; one that cannot be read ends with LOCALUNCORR. -/
def readAndSend (m : MsgSend) (s : State) : State :=
  match readSites .copy (virtSites s m.launch false false false m.laddr m.len) s with
  | .ok x s => sendMsg m x.bytes s
  | .stall s => s
  | .stop i c => sourceLost m i c s

/-- MESSAGE_ENGINE_SEND (R434): the next posted message in post order. -/
def execMessageEngineSend (s : State) : Out :=
  .next
    (match s.fab.sends.find? (fun m => m.piece == 0 && m.ended.isNone) with
     | none => s
     | some m => readAndSend m s)

/-- MESSAGE_REFUSAL_RETRY (R435). -/
def execMessageRefusalRetry (msg : Nat) (s : State) : Out :=
  .next
    (match s.fab.sends.find? (fun m => m.id == msg && m.ended.isNone) with
     | none => s
     | some m =>
       match m.refusedAt with
       | some t => if t + micros 10 ≤ s.time then readAndSend m s else s
       | none => s)

end Sys2Proof.Machine
end

