-- ==== Sys2Proof/Machine/Loader.lean ====
section
/-! DEFINITION. The checks of spely-load on an image (R60, R61), and how an image becomes resident. -/

namespace Sys2Proof.Machine

open Sys2Proof

/-! ## Words and parcels of a section -/

/-- Bytes in groups of `n`, the last one perhaps short. -/
def bytesBy (n : Nat) : Nat → List Byte → List (List Byte)
  | 0, _ => []
  | fuel + 1, bs => if bs.isEmpty then [] else bs.take n :: bytesBy n fuel (bs.drop n)

/-- Values of `n` bytes each. -/
def groups (n : Nat) (bs : List Byte) : List Nat := (bytesBy n (bs.length + 1) bs).map leNat

/-- A marker found by decoding: its offset in its section and its id. -/
structure Marker where
  off : Nat
  id : Nat
  deriving DecidableEq, Repr

/-- Linear decode of A words from offset `o` on; none where a word is refused (R29, R61). -/
def scanA : Nat → List Nat → Option (List Marker)
  | _, [] => some []
  | o, w :: rest =>
    match decodeA (BitVec.ofNat 32 w) with
    | .error _ => none
    | .ok (.seam id) => (scanA (o + 4) rest).map fun l => ⟨o, id.toNat⟩ :: l
    | .ok (.grd _ _) =>
      match rest with
      | [] => none
      | n :: _ => if (guardFault (BitVec.ofNat 32 n)).isSome then none else scanA (o + 4) rest
    | .ok _ => scanA (o + 4) rest

/-- The id of a VSEAM. -/
def seamIdOf : Sys2Proof.Decoded → Option Nat
  | .vShort op vd va => if op == 0x02 then some (va ++ vd).toNat else none
  | .vLong op f => if op == 0x02 then some (f.va ++ f.vd).toNat else none
  | _ => none

/-- Linear decode of V parcels; `skip` parcels belong to the instruction before. -/
def scanV : Nat → Nat → List Nat → Option (List Marker)
  | skip, _, [] => if skip = 0 then some [] else none
  | skip + 1, o, _ :: rest => scanV skip (o + 4) rest
  | 0, o, p :: rest =>
    let parcel (x : Nat) : Parcel := BitVec.ofNat 32 x
    match vLength (parcel p), readV (parcel p) (parcel (rest.headD 0)) (parcel (rest.tail.headD 0)) with
    | some n, .ok d =>
      let l := scanV (n - 1) (o + 4) rest
      match seamIdOf d with
      | some id => l.map fun l => ⟨o, id⟩ :: l
      | none => l
    | _, _ => none

/-- Linear decode of M words. -/
def scanM : Nat → List Nat → Option (List Marker)
  | _, [] => some []
  | o, w :: rest =>
    match readM (BitVec.ofNat 192 w) with
    | .error _ => none
    | .ok (.m op f) =>
      if op == 0x03 then (scanM (o + 24) rest).map fun l => ⟨o, (f.locA.extractLsb' 0 22).toNat⟩ :: l else scanM (o + 24) rest
    | .ok _ => scanM (o + 24) rest

/-! ## Header (R60) -/

/-- A section or table: where it lies, its bytes and its alignment. -/
structure Part where
  off : Nat
  size : Nat
  align : Nat
  deriving DecidableEq, Repr

/-- A part of the header's field at byte `i`, of entries of `unit` bytes. -/
def partAt (bs : List Byte) (i unit align : Nat) : Part := ⟨recField bs i 4, recField bs (i + 4) 4 * unit, align⟩

/-- Sections A, V, M and data, then the seam, extent, panel, procedure and relocation tables. -/
def imageParts (bs : List Byte) : List Part :=
  [partAt bs 16 1 4, partAt bs 24 1 4, partAt bs 32 1 8, partAt bs 40 1 64, partAt bs 48 24 64, partAt bs 56 16 64, partAt bs 64 16 64,
    partAt bs 72 32 64, partAt bs 80 8 64]

/-- The bytes of a part. -/
def Part.bytes (bs : List Byte) (p : Part) : List Byte := (bs.drop p.off).take p.size

/-- Whether a part lies as it must. -/
def Part.fits (size : Nat) (p : Part) : Bool := p.off % p.align == 0 && 128 ≤ p.off && p.off + p.size ≤ size

/-- Whether two parts overlap. -/
def Part.meets (a b : Part) : Bool := a.size != 0 && b.size != 0 && a.off < b.off + b.size && b.off < a.off + a.size

/-- Whether some two parts do. -/
def partsMeet : List Part → Bool
  | [] => false
  | p :: rest => rest.any p.meets || partsMeet rest

/-- Whether the bytes of the gaps are zero, from offset `i` on, those after the last section or table among them (DESIGN CHOICE,
assumption 35). -/
def gapsZero (parts : List Part) : Nat → List Byte → Bool
  | _, [] => true
  | i, b :: rest => (b == 0 || i < 128 || parts.any fun p => p.off ≤ i && i < p.off + p.size) && gapsZero parts (i + 1) rest

/-- One step of CRC-32 for a bit. -/
def crcBit (c : Nat) : Nat := if c % 2 = 1 then (c / 2) ^^^ 0xEDB88320 else c / 2

/-- CRC-32 of IEEE 802.3. -/
def crc32 (bs : List Byte) : Nat :=
  bs.foldl (fun c b => (List.range 8).foldl (fun c _ => crcBit c) (c ^^^ b.toNat)) 0xFFFFFFFF ^^^ 0xFFFFFFFF

/-- Relocated dwords (offsets in the data section) taken back, as the assembler left them (R61), once for each entry that names them (DESIGN
CHOICE, assumption 37). -/
def unrelocate (bs : List Byte) (data : Part) : List Nat → List Byte
  | [] => bs
  | r :: rest =>
    let o := data.off + r
    let x := (w64 (recField bs o 8) - imgBase).toNat
    unrelocate (bs.take o ++ leBytes 8 x ++ bs.drop (o + 8)) data rest

/-- Check 1 of R61. -/
def headerOk (bs : List Byte) (parts : List Part) (data : Part) (relocs : List Nat) : Bool :=
  let size := recField bs 12 4
  recField bs 0 4 == 0x314F5053 && recField bs 4 2 == 1 && recField bs 6 2 == 0 && ((bs.drop 92).take 36).all (· == 0) &&
    128 ≤ size && size == bs.length && parts.all (Part.fits size) && !partsMeet parts && gapsZero parts 0 bs &&
    crc32 ((unrelocate bs data relocs).drop 128) == recField bs 88 4

/-! ## Tables (R60, R61) -/

/-- A seam-table entry as it lies in the image. -/
structure SeamRow where
  a : Nat
  v : Nat
  m : Nat
  id : Nat
  ok : Bool
  deriving DecidableEq, Repr

/-- The fields of an entry. -/
def seamRow (e : List Byte) : SeamRow :=
  { a := recField e 0 4, v := recField e 4 4, m := recField e 8 4, id := recField e 12 4,
    ok := recField e 12 4 < 2 ^ 22 && recField e 16 4 < 2 ^ 24 && recField e 22 2 == 0 }

/-- Whether numbers rise strictly. -/
def rising : List Nat → Bool
  | a :: b :: rest => a < b && rising (b :: rest)
  | _ => true

/-- Whether a list holds no value twice. -/
def distinct (l : List Nat) : Bool := l.eraseDups.length == l.length

/-- Whether the markers of a stream are the ones that the entries name. -/
def markersMatch (rows : List (Nat × Nat)) (ms : List Marker) : Bool :=
  (rows.filter fun r => r.1 != 0xFFFFFFFF).all (fun r => ms.contains ⟨r.1, r.2⟩) && ms.all fun m => rows.contains (m.off, m.id)

/-- The check of the seam table. -/
def seamsOk (rows : List SeamRow) (a v m : List Marker) : Bool :=
  rising (rows.map (·.a)) && rows.all (fun r => r.ok && r.a != 0xFFFFFFFF) && distinct (rows.map (·.id)) &&
    markersMatch (rows.map fun r => (r.a, r.id)) a && markersMatch (rows.map fun r => (r.v, r.id)) v &&
    markersMatch (rows.map fun r => (r.m, r.id)) m

/-- The check of the procedure table. -/
def procsOk (spacing : Nat) (procs : List (List Byte)) (rows : List SeamRow) : Bool :=
  procs.zipIdx.all (fun p => recField p.1 0 4 == 0x3F0000 + p.2 && rows.any fun r => r.id == recField p.1 0 4) &&
    spacing == procs.foldl (fun m p => max m (recField p 4 4)) 0

/-- Whether one extent entry is sound, bytes 7:3 and bits 7:5 of the attribute zero among it (DESIGN CHOICE, assumption 33). -/
def extentOk (e : List Byte) : Bool :=
  let size := recField e 8 8
  let code := recField e 1 1
  let attr := recField e 2 1
  recField e 0 1 ≤ 31 && code ≤ 4 && attr % 4 != 3 && attr < 32 && recField e 3 5 == 0 && size != 0 &&
    size % pageSize (BitVec.ofNat 3 code) == 0

/-- Whether one panel entry is sound: its shape, room in its extent, and bytes 3 and 15:12 zero (DESIGN CHOICE, assumption 33). -/
def panelOk (exts : List (List Byte)) (e : List Byte) : Bool :=
  let es := recField e 2 1
  let p : Panel := ⟨0, 0, 0, es, recField e 4 4, recField e 8 4, 0, []⟩
  recField e 0 1 ≤ 15 && (es == 1 || es == 2 || es == 4) && recField e 3 1 == 0 && recField e 12 4 == 0 && p.rows != 0 && p.cols != 0 &&
    exts.any fun x => recField x 0 1 == recField e 1 1 && p.tileRows * p.tileCols * 2048 ≤ recField x 8 8

/-- Whether an image passes every check of R61; its bytes are those the loader writes, relocated. A stream section that is not a whole number
of words fails too (DESIGN CHOICE, assumption 34), and so does a relocation entry with a nonzero upper half or whose eight bytes do not all lie in the
data section (assumption 99). The host's refusal of wide spacing is not set (assumption 100). -/
def imageOk (bs : List Byte) : Bool :=
  let parts := imageParts bs
  match parts with
  | [pa, pv, pm, pd, ps, pe, pp, pr, px] =>
    let rows := (bytesBy 24 (ps.size + 1) (ps.bytes bs)).map seamRow
    let exts := bytesBy 16 (pe.size + 1) (pe.bytes bs)
    let panels := bytesBy 16 (pp.size + 1) (pp.bytes bs)
    let procs := bytesBy 32 (pr.size + 1) (pr.bytes bs)
    let rels := groups 8 (px.bytes bs)
    headerOk bs parts pd rels &&
      (match scanA 0 (groups 4 (pa.bytes bs)), scanV 0 0 (groups 4 (pv.bytes bs)), scanM 0 (groups 24 (pm.bytes bs)) with
       | some a, some v, some m =>
         pa.size % 4 == 0 && pv.size % 4 == 0 && pm.size % 24 == 0 && pa.size ≤ 0x20000 && pv.size ≤ 0x30000 && pm.size ≤ 0x18000 &&
           seamsOk rows a v m
       | _, _, _ => false) &&
      procsOk (recField bs 8 4) procs rows && exts.length ≤ 32 && exts.all extentOk && distinct (exts.map fun e => recField e 0 1) &&
      panels.length ≤ 16 && panels.all (panelOk exts) && distinct (panels.map fun e => recField e 0 1) &&
      rels.all (fun r => r % 8 == 0 && r + 8 ≤ pd.size)
  | _ => false

/-- An image that the loader has written becomes resident at its code base (R60, R61, R120), with generation 0 where no image was resident (DESIGN
CHOICE, assumption 41); bytes that fail the checks leave what is resident there (DESIGN CHOICE, assumption 36). -/
def becomeResident (code : Nat) (bs : List Byte) (s : State) : State :=
  if code % 64 != 0 || !isFrameAddr code || !imageOk bs then s
  else
    match imageAt s code with
    | some _ => { s with images := updateFirst (fun i => i.code == code) (fun i => { i with size := bs.length }) s.images }
    | none => { s with images := s.images ++ [⟨code, bs.length, 0⟩] }

end Sys2Proof.Machine
end

