-- ==== Sys2Proof/Machine/EvRegister.lean ====
section
/-! DEFINITION. The registers of the host's BAR0 (R382) and what reading and writing them does: work queues (R359 to R363), mailbox and event
ring (R385, R388), cluster (R277 to R279, R299), die memory (R330 to R333), power (R397 to R399), Miller (R390), boot (R396), peer ports
and Selvedge (R414, R416, R420, R427, R437, R438, R452, R455), network engine (R403, R404), debug (R400); and the host's accesses
(R384). -/

namespace Sys2Proof.Machine

open Sys2Proof

/-! ## Pieces of wide registers -/

/-- Word `i` of a wide register. -/
def wordOf {n : Nat} (x : BitVec n) (i : Nat) : Word := x.extractLsb' (64 * i) 64

/-- A wide register with word `i` replaced. -/
def putWord {n : Nat} (x : BitVec n) (i : Nat) (v : Word) : BitVec n :=
  (x &&& ~~~(((BitVec.allOnes 64).zeroExtend n) <<< (64 * i))) ||| (v.zeroExtend n <<< (64 * i))

/-- A counter after a W1C write to its field: any one bit clears it. -/
def clearField {n : Nat} (x bits : BitVec n) : BitVec n := if bits = 0 then x else 0

/-! ## The debug window (R400) -/

/-- A breakpoint or watchpoint register (R400). -/
def DebugReg.word (d : DebugReg) (hi : Bool) : Word := if hi then w64 (d.queue.toNat + bit d.enable * 2 ^ 63) else d.addr

/-- A word of the debug window. -/
def debugWord (s : State) (off : Nat) : Word :=
  if off < 0x1000000 then
    match poolEntry s (off / 64) with
    | some e => w64 (recField e.bob.bytes (off % 64) 8)
    | none => 0
  else
    match s.dbg[(off - 0x1000000) / 16]? with
    | some d => d.word ((off - 0x1000000) % 16 == 8)
    | none => 0

/-- A byte of the debug window. -/
def debugByte (s : State) (off : Nat) : Byte := (debugWord s (off / 8 * 8)).extractLsb' (off % 8 * 8) 8

/-- A write to the debug window. -/
def debugWrite (off : Nat) (v : Word) (s : State) : State :=
  if off < 0x1000000 then s
  else
    let k := (off - 0x1000000) / 16
    let hi := (off - 0x1000000) % 16 == 8
    match s.dbg[k]? with
    | none => s
    | some d =>
      let d := if hi then { d with queue := v.extractLsb' 0 12, enable := v.getLsbD 63 } else { d with addr := v }
      { s with dbg := s.dbg.setIfInBounds k d }

/-! ## Work queues (R359 to R363) -/

/-- A word of a queue's registers. -/
def queueWord (s : State) (w : WorkQueue) (off : Nat) : Word :=
  match off with
  | 0x00 => w.ring
  | 0x08 => w64 (w.fn.toNat * 2 ^ 24 + w.pri.toNat * 2 ^ 16 + w.sz.toNat * 2 ^ 8 + bit w.pm * 2 + bit w.en)
  | 0x10 => w.tail.zeroExtend 64
  | 0x18 => w.head.zeroExtend 64
  | 0x20 =>
    let active := (s.launches.filter fun l => l.q == w.q).length
    w64 (active * 2 ^ 32 + w.ecause.toNat * 2 ^ 8 + bit w.waiting * 2 + bit w.err)
  | _ => 0

/-- A write to a queue's registers. HEAD written while EN is 0 leaves no launch at the head. -/
def queueWrite (fn : BitVec 6) (q : BitVec 12) (off : Nat) (v : Word) (s : State) : State :=
  let w := queueAt s q
  match off with
  | 0x00 => if w.en then s else updQueue q (fun w => { w with ring := v &&& 0xFFFFFFFFFF80#64 }) s
  | 0x08 => outState s (execWqCfgWrite fn q v s)
  | 0x10 => outState s (execWqTailWrite (.host fn) q v s)
  | 0x18 => if w.en then s else updQueue q (fun w => { w with head := v.extractLsb' 0 32, front := none, waiting := false }) s
  | _ => s

/-! ## Mailbox and event ring (R385, R388) -/

/-- A word of a mailbox. -/
def mailboxWord (s : State) (fn : BitVec 6) (off : Nat) : Word :=
  let m := bank s.mailboxes fn
  let r := s.evring
  if off < 0x40 then wordOf m.req (off / 8)
  else if off < 0x80 then wordOf m.resp ((off - 0x40) / 8)
  else
    match off, fn == 0 with
    | 0x88, _ => w64 (bit m.busy * 2 ^ 8 + m.code.toNat)
    | 0x90, _ => m.err.zeroExtend 64
    | 0x98, true => r.base
    | 0xA0, true => w64 (bit r.ovf * 2 ^ 8 + r.sz.toNat * 2 ^ 4 + bit r.en)
    | 0xA8, true => r.tail.zeroExtend 64
    | 0xB0, true => r.head.zeroExtend 64
    | _, _ => 0

/-- A write to a mailbox. -/
def mailboxWrite (fn : BitVec 6) (off : Nat) (v : Word) (s : State) : State :=
  let m := bank s.mailboxes fn
  let r := s.evring
  let put (m : Mailbox) : State := { s with mailboxes := bankSet s.mailboxes fn m }
  if off < 0x40 then if m.busy then s else put { m with req := putWord m.req (off / 8) v }
  else
    match off, fn == 0 with
    | 0x80, _ => if v.getLsbD 0 then submit fn s else s
    | 0x90, _ => put { m with err := clearField m.err (v.extractLsb' 0 32) }
    | 0x98, true => if r.en then s else { s with evring := { r with base := v &&& ~~~0x3F#64 } }
    | 0xA0, true => tellAll { s with evring := { r with ovf := r.ovf && !v.getLsbD 8, sz := v.extractLsb' 4 4, en := v.getLsbD 0 } }
    | 0xB0, true => outState s (execEvHeadWrite (v.extractLsb' 0 32) s)
    | _, _ => s

/-! ## Cluster and die memory (R277 to R279, R299, R330 to R333) -/

/-- An interval as stored (R278). -/
def interval (x : BitVec 10) : BitVec 10 := if x = 0 then 1 else if 1000 < x then 1000 else x

/-- cl.status. -/
def clusterStatus (s : State) : Word :=
  let offline := ((allCores s).filter fun c => c.2.offline).length
  let bars := (s.skeins.filter fun k => k.bar.isSome).length
  w64 (offline * 2 ^ 43 + (Config.skeinEntries - s.skeins.length) * 2 ^ 30 + (Config.barriers - bars) * 2 ^ 19 + (readyBobbins s).length)

/-- A word of the cluster block. -/
def clusterWord (s : State) (off : Nat) : Word :=
  if off = 0 then w64 (s.prog.toNat * 2 ^ 32 + s.starv.toNat * 2 ^ 16)
  else if off = 8 then clusterStatus s
  else if 0x100 ≤ off then
    match coreAt s ((off - 0x100) / 8) with
    | some k => w64 (bit k.offline * 2 ^ 9 + bit k.spare * 2 ^ 8 + k.phys.toNat)
    | none => 0
  else 0

/-- A write to the cluster block. -/
def clusterWrite (off : Nat) (v : Word) (s : State) : State :=
  if off = 0 then { s with prog := interval (v.extractLsb' 32 10), starv := interval (v.extractLsb' 16 10) } else s

/-- A word of the die memory block. -/
def dieWord (s : State) (off : Nat) : Word :=
  match off with
  | 0x000 => w64 (bit s.blocksLock * 2 ^ 31 + s.blocks.toNat)
  | 0x008 => w64 (s.blockNames.length * 2 ^ 32 + if s.blocksLock then s.blocks.toNat - s.blockSlots.length else 0)
  | 0x010 => w64 (s.eccUnc.toNat * 2 ^ 32 + s.eccCorr.toNat)
  | 0x018 => s.uelast.zeroExtend 64
  | off => if 0x100 ≤ off && off < 0x300 then bank s.vcol (BitVec.ofNat 6 ((off - 0x100) / 8)) else 0

/-- BLOCKS as stored (R331). -/
def blocksOf (x : BitVec 17) : BitVec 17 := if 65536 < x then 65536 else x &&& ~~~0x3F#17

/-- A write to the die memory block. -/
def dieWrite (off : Nat) (v : Word) (s : State) : State :=
  match off with
  | 0x000 => if s.blocksLock then s else { s with blocks := blocksOf (v.extractLsb' 0 17) }
  | 0x010 => { s with eccCorr := clearField s.eccCorr (v.extractLsb' 0 32), eccUnc := clearField s.eccUnc (v.extractLsb' 32 32) }
  | _ => s

/-! ## Power (R397 to R399) -/

/-- A clock setting as stored (R397). -/
def clockOf (x : BitVec 16) : BitVec 16 := if x < 500 then 500 else if 2000 < x then 2000 else x - x % 50

/-- A layer's register. -/
def LayerClock.word (l : LayerClock) : Word := w64 (l.fnow.toNat * 2 ^ 32 + l.fceil.toNat * 2 ^ 16 + l.ftgt.toNat)

/-- A write to a layer's register; the clock follows with CLOCK_CHANGE. -/
def LayerClock.write (v : Word) (l : LayerClock) : LayerClock :=
  { l with fceil := clockOf (v.extractLsb' 16 16), ftgt := clockOf (v.extractLsb' 0 16) }

/-- A write of the Miller to a layer's register: it may lower FTGT, and nothing else (R391). -/
def LayerClock.millerWrite (v : Word) (l : LayerClock) : LayerClock :=
  let t := clockOf (v.extractLsb' 0 16)
  if t < l.ftgt then { l with ftgt := t } else l

/-- A word of the power block. -/
def powerWord (p : Power) (off : Nat) : Word :=
  match off with
  | 0x00 => p.mx.word
  | 0x08 => p.vx.word
  | 0x10 => p.vault.word
  | 0x18 => p.plim.zeroExtend 64
  | 0x20 => p.pnow.zeroExtend 64
  | off =>
    if 0x100 ≤ off && off < 0x300 then bank p.ev (BitVec.ofNat 6 ((off - 0x100) / 8))
    else if 0x300 ≤ off && off < 0x500 then bank p.evsel (BitVec.ofNat 6 ((off - 0x300) / 8))
    else 0

/-- PLIM as stored (R398). -/
def plimOf (x : BitVec 12) : BitVec 12 := if x < 100 then 100 else if 1800 < x then 1800 else x

/-- A write to the power block. -/
def powerWrite (off : Nat) (v : Word) (p : Power) : Power :=
  match off with
  | 0x00 => { p with mx := p.mx.write v }
  | 0x08 => { p with vx := p.vx.write v }
  | 0x10 => { p with vault := p.vault.write v }
  | 0x18 => { p with plim := plimOf (v.extractLsb' 0 12) }
  | off =>
    if 0x100 ≤ off && off < 0x300 then { p with ev := bankSet p.ev (BitVec.ofNat 6 ((off - 0x100) / 8)) v }
    else if 0x300 ≤ off && off < 0x500 then { p with evsel := bankSet p.evsel (BitVec.ofNat 6 ((off - 0x300) / 8)) (v &&& 0x80FF) }
    else p

/-! ## Miller and boot (R390, R396) -/

/-- A word of the Miller's block. -/
def millerWord (m : Miller) (off : Nat) : Word :=
  match off with
  | 0x00 => w64 (bit m.lock * 2 + bit m.run)
  | 0x08 => m.viol.zeroExtend 64
  | 0x300 => m.ipend.zeroExtend 64
  | off =>
    if 0x40 ≤ off && off < 0xC0 then
      let f := bank m.flt (BitVec.ofNat 3 ((off - 0x40) / 16))
      if off % 16 = 0 then f.base ||| f.perm.zeroExtend 64 else f.limit
    else if 0x200 ≤ off && off < 0x300 then bank m.irq (BitVec.ofNat 5 ((off - 0x200) / 8))
    else 0

/-- A write of the host to the Miller's block. -/
def millerWrite (off : Nat) (v : Word) (m : Miller) : Miller :=
  match off with
  | 0x00 => { m with lock := m.lock || v.getLsbD 1 }
  | 0x08 => { m with viol := clearField m.viol (v.extractLsb' 0 32) }
  | 0x300 => { m with ipend := m.ipend &&& ~~~v.extractLsb' 0 32 }
  | off =>
    if 0x40 ≤ off && off < 0xC0 then
      let k : BitVec 3 := BitVec.ofNat 3 ((off - 0x40) / 16)
      let f := bank m.flt k
      let f := if off % 16 = 0 then { f with base := v &&& ~~~3#64, perm := v.extractLsb' 0 2 } else { f with limit := v }
      { m with flt := bankSet m.flt k f }
    else if 0x200 ≤ off && off < 0x300 then { m with irq := bankSet m.irq (BitVec.ofNat 5 ((off - 0x200) / 8)) (v &&& 0x80000000003F07FF#64) }
    else m

/-- A word of the boot block. -/
def bootWord (b : Boot) (off : Nat) : Word :=
  match off with
  | 0x008 => w64 (bit b.busy * 2 ^ 9 + bit b.enrolled * 2 ^ 8 + b.code.toNat)
  | 0x010 => b.imglen.zeroExtend 64
  | 0x018 => b.rmlen.zeroExtend 64
  | 0x028 => b.resets
  | 0x030 => w64 (bit b.hv)
  | 0x800 => b.pube.zeroExtend 64
  | off =>
    if 0x100 ≤ off && off < 0x500 then wordOf b.helper ((off - 0x100) / 8)
    else if 0x600 ≤ off && off < 0x800 then wordOf b.pubn ((off - 0x600) / 8)
    else 0

/-- A length as stored. -/
def lenOf (x limit : BitVec 32) : BitVec 32 := if limit < x then limit else x

/-- A write to the boot block. -/
def bootWrite (off : Nat) (v : Word) (s : State) : State :=
  let b := s.boot
  let put (b : Boot) : State := { s with boot := b }
  match off with
  | 0x000 => if v.getLsbD 0 then bootGo s else s
  | 0x010 => put { b with imglen := lenOf (v.extractLsb' 0 32) 0x200000 }
  | 0x018 => put { b with rmlen := lenOf (v.extractLsb' 0 32) 0x10000 }
  | 0x020 => if v.getLsbD 0 then coldReset s else if v.getLsbD 1 then warmReset s else s
  | 0x028 => put { b with resets := v }
  | 0x030 => put { b with hv := v.getLsbD 0 }
  | off => if 0x100 ≤ off && off < 0x500 then put { b with helper := putWord b.helper ((off - 0x100) / 8) v } else s

/-- Whether the staging window takes writes (R396). -/
def stagingOpen (s : State) : Bool := !s.boot.busy && !s.miller.run

/-! ## Peer ports and Selvedge (R414, R416, R420, R427, R437, R438, R452, R455) -/

/-- A port's register; DIM is the logical dimension that PERM gives the port. -/
def portWord (f : Fabric) (d : Nat) : Word :=
  match f.port[d]? with
  | some p =>
    let dim := ((List.range 10).find? fun i => permAt f i == d).getD 0
    w64 (p.replay.toNat * 2 ^ 48 + p.drop.toNat * 2 ^ 32 + dim * 2 ^ 4 + bit p.up)
  | none => 0

/-- A rate register. -/
def Rate.word (r : Rate) : Word := w64 (r.tmo.toNat * 2 ^ 8 + r.m.toNat * 2 ^ 4 + r.k.toNat)

/-- A rate as stored (R427). -/
def rateOf (cls : BitVec 3) (v : Word) : Rate :=
  let tmo := v.extractLsb' 8 8
  let m := v.extractLsb' 4 3
  { tmo := if tmo = 0 then 1 else tmo, m := if 4 < m then 4 else m, k := if cls = 0 then 0 else v.extractLsb' 0 2 }

/-- A word of an export entry. -/
def ExportEntry.word (e : ExportEntry) (i : Nat) : Word :=
  match i with
  | 0 => e.base.zeroExtend 64
  | 1 => e.limit.zeroExtend 64
  | 2 => w64 (bit e.en * 2 ^ 63 + bit e.w * 2 ^ 19 + bit e.prot * 2 ^ 18 + e.order.toNat * 2 ^ 16 + e.job.toNat)
  | _ => 0

/-- An export entry with a word written. -/
def ExportEntry.put (e : ExportEntry) (i : Nat) (v : Word) : ExportEntry :=
  match i with
  | 0 => { e with base := v.extractLsb' 0 48 }
  | 1 => { e with limit := v.extractLsb' 0 48 }
  | 2 =>
    { e with
      en := v.getLsbD 63, w := v.getLsbD 19, prot := v.getLsbD 18, order := v.extractLsb' 16 2, job := v.extractLsb' 0 16 }
  | _ => e

/-- A word of Selvedge's registers. -/
def svWord (v : Selvedge) (off : Nat) : Word :=
  match off with
  | 0xD00 => w64 (bit v.en)
  | 0xD10 => v.base0.zeroExtend 64
  | 0xD18 => v.n0.zeroExtend 64
  | 0xD20 => v.base1.zeroExtend 64
  | 0xD28 => v.n1.zeroExtend 64
  | 0xD30 => svStatus v
  | 0xD38 => v.doneCount.zeroExtend 64
  | 0xD40 => v.hold.zeroExtend 64
  | 0xD48 => w64 (v.err.toNat * 2 ^ 32 + v.upd.toNat)
  | _ => 0

/-- A write to Selvedge's registers; ranges stand while EN is 1. -/
def svWrite (off : Nat) (x : Word) (s : State) : State :=
  let v := s.sv
  let range (v' : Selvedge) : State := if v.en then s else { s with sv := v' }
  let base : BitVec 48 := x.extractLsb' 0 48 &&& ~~~0x7FFF#48
  match off with
  | 0xD00 => outState s (execSvCfgWrite x s)
  | 0xD10 => range { v with base0 := base }
  | 0xD18 => range { v with n0 := x.extractLsb' 0 32 }
  | 0xD20 => range { v with base1 := base }
  | 0xD28 => range { v with n1 := x.extractLsb' 0 32 }
  | 0xD38 => if x.getLsbD 63 then outState s (execRebuild s) else s
  | 0xD40 => { s with sv := { v with hold := x.extractLsb' 0 16 } }
  | _ => s

/-- A substitution entry. -/
def Subst.word (e : Subst) : Word := w64 (bit e.en * 2 ^ 63 + e.logical.toNat * 2 ^ 16 + e.phys.toNat)

/-- A word of the peer-port block. -/
def fabricWord (s : State) (off : Nat) : Word :=
  let f := s.fab
  if off = 0 then f.label.zeroExtend 64
  else if off = 0x008 then w64 (f.mask.toNat * 2 ^ 40 + f.perm.toNat)
  else if off = 0x010 then f.dmask
  else if 0x040 ≤ off && off < 0x080 then (bank f.rate (BitVec.ofNat 3 ((off - 0x040) / 8))).word
  else if 0x100 ≤ off && off < 0x150 then portWord f ((off - 0x100) / 8)
  else if off = 0x180 then f.late
  else if off = 0x188 then f.retx
  else if off = 0x190 then f.loss
  else if off = 0x198 then f.nobuf
  else if 0x400 ≤ off && off < 0x800 then (bank f.exps (BitVec.ofNat 5 ((off - 0x400) / 32))).word (off % 32 / 8)
  else if 0x800 ≤ off && off < 0xA00 then (bank f.fjob (BitVec.ofNat 6 ((off - 0x800) / 8))).zeroExtend 64
  else if 0xA00 ≤ off && off < 0xA80 then (bank f.subst (BitVec.ofNat 4 ((off - 0xA00) / 8))).word
  else if 0xC00 ≤ off && off < 0xCC0 then wordOf f.mgmt ((off - 0xC00) / 8)
  else if off = 0xCC0 then f.mctl
  else if off = 0xCC8 then f.mrx
  else svWord s.sv off

/-- The registers of the peer-port block that the Miller may write: relabelling and substitution, RST, and management messages (R391, R437). -/
def millerFabric (off : Nat) : Bool :=
  off == 0x008 || (0x100 ≤ off && off < 0x150) || (0xA00 ≤ off && off < 0xA80) || (0xC00 ≤ off && off ≤ 0xCC0)

/-- A write to the peer-port block. -/
def fabricWrite (miller : Bool) (off : Nat) (v : Word) (s : State) : State :=
  let f := s.fab
  let put (f : Fabric) : State := { s with fab := f }
  if miller && !millerFabric off then s
  else if off = 0 then releaseHeld (put { f with label := v.extractLsb' 0 10 })
  else if off = 0x008 then outState s (execRelabWrite v miller s)
  else if off = 0x010 then put { f with dmask := v }
  else if 0x040 ≤ off && off < 0x080 then
    let c : BitVec 3 := BitVec.ofNat 3 ((off - 0x040) / 8)
    put { f with rate := bankSet f.rate c (rateOf c v) }
  else if 0x100 ≤ off && off < 0x150 then
    if v.getLsbD 8 then outState s (execRst (BitVec.ofNat 4 ((off - 0x100) / 8)) miller s) else s
  else if 0x400 ≤ off && off < 0x800 then
    let k : BitVec 5 := BitVec.ofNat 5 ((off - 0x400) / 32)
    put { f with exps := bankSet f.exps k ((bank f.exps k).put (off % 32 / 8) v) }
  else if 0x800 ≤ off && off < 0xA00 then put { f with fjob := bankSet f.fjob (BitVec.ofNat 6 ((off - 0x800) / 8)) (v.extractLsb' 0 16) }
  else if 0xA00 ≤ off && off < 0xA80 then outState s (execPfSubstWrite (BitVec.ofNat 4 ((off - 0xA00) / 8)) v miller s)
  else if 0xC00 ≤ off && off < 0xCC0 then put { f with mgmt := putWord f.mgmt ((off - 0xC00) / 8) v }
  else if off = 0xCC0 then outState s (execManagementMessageSend v s)
  else if off = 0xCC8 then put { f with mrx := v &&& 0x3FF00 }
  else svWrite off v s

/-! ## Network engine (R403, R404) -/

/-- A word of the network engine's block. -/
def netWord (s : State) (off : Nat) : Word :=
  if 0x10000 ≤ off && off < 0x14000 then
    let e := epAt s (BitVec.ofNat 10 ((off - 0x10000) / 16))
    if off % 16 = 0 then w64 (e.tbase.toNat + e.fn.toNat) else w64 (bit e.en * 2 ^ 63 + e.lasterr.toNat * 2 ^ 24 + e.job.toNat)
  else if 0x20000 ≤ off && off < 0x28000 then cntAt s (BitVec.ofNat 12 ((off - 0x20000) / 8))
  else 0

/-- A write to the network engine's block; TBASE, JOB and FN stand while EN is 1. -/
def netWrite (off : Nat) (v : Word) (s : State) : State :=
  if 0x10000 ≤ off && off < 0x14000 then
    updEp (BitVec.ofNat 10 ((off - 0x10000) / 16))
      (fun e =>
        if off % 16 = 0 then
          if e.en then e else { e with tbase := v.extractLsb' 0 48 &&& ~~~0x3F#48, fn := v.extractLsb' 0 6 }
        else { e with en := v.getLsbD 63, job := if e.en then e.job else v.extractLsb' 0 24 })
      s
  else if 0x20000 ≤ off && off < 0x28000 then setCnt (BitVec.ofNat 12 ((off - 0x20000) / 8)) v s
  else s

/-! ## BAR0 (R382) -/

/-- A word of the PF's blocks. -/
def pfWord (s : State) (off : Nat) : Word :=
  if off < 0x51000 then clusterWord s (off - 0x50000)
  else if off < 0x52000 then dieWord s (off - 0x51000)
  else if off < 0x53000 then powerWord s.power (off - 0x52000)
  else if off < 0x54000 then millerWord s.miller (off - 0x53000)
  else if off < 0x55000 then bootWord s.boot (off - 0x54000)
  else if off < 0x56000 then fabricWord s (off - 0x55000)
  else if off < 0x800000 then netWord s (off - 0x56000)
  else if off < 0xC00000 then w64 (memNat s.mem (stagingBase + (off - 0x800000)) 8)
  else if 0x1000000 ≤ off && off < 0x3000000 then debugWord s (off - 0x1000000)
  else 0

/-- A write to the PF's blocks. -/
def pfWrite (off : Nat) (v : Word) (s : State) : State :=
  if off < 0x51000 then clusterWrite (off - 0x50000) v s
  else if off < 0x52000 then dieWrite (off - 0x51000) v s
  else if off < 0x53000 then { s with power := powerWrite (off - 0x52000) v s.power }
  else if off < 0x54000 then { s with miller := millerWrite (off - 0x53000) v s.miller }
  else if off < 0x55000 then bootWrite (off - 0x54000) v s
  else if off < 0x56000 then fabricWrite false (off - 0x55000) v s
  else if off < 0x800000 then netWrite (off - 0x56000) v s
  else if off < 0xC00000 then if stagingOpen s then putMem (stagingBase + (off - 0x800000)) (leBytes 8 v.toNat) s else s
  else if 0x1000000 ≤ off && off < 0x3000000 then debugWrite (off - 0x1000000) v s
  else s

/-- The queue whose registers an offset names. -/
def queueNo (off : Nat) : BitVec 12 := BitVec.ofNat 12 (off / 0x40)

/-- A 64-bit register of a function's BAR0; one that is not aligned to 8 names none. -/
def readReg (s : State) (fn : BitVec 6) (off : Nat) : Word :=
  if off % 8 != 0 then 0
  else if off < 0x40000 then
    let w := queueAt s (queueNo off)
    if w.fn == fn then queueWord s w (off % 0x40) else 0
  else if off < 0x50000 then mailboxWord s fn (off - 0x40000)
  else if fn == 0 then pfWord s off
  else 0

/-- A write of 64 bits to a function's BAR0. -/
def writeReg (fn : BitVec 6) (off : Nat) (v : Word) (s : State) : State :=
  if off % 8 != 0 then s
  else if off < 0x40000 then
    if (queueAt s (queueNo off)).fn == fn then queueWrite fn (queueNo off) (off % 0x40) v s else s
  else if off < 0x50000 then mailboxWrite fn (off - 0x40000) v s
  else if fn == 0 then pfWrite off v s
  else s

/-- A write of 64 bits by the Miller to the register at an offset of BAR0, at whatever address of its own (assumption 47): TAIL of a queue
(R380), FTGT lowered, and its part of the peer-port block (R391); the rest is the host's (R390). -/
def millerReg (off : Nat) (v : Word) (s : State) : State :=
  let p := s.power
  if !s.miller.run || off % 8 != 0 then s
  else if off < 0x40000 then if off % 0x40 = 0x10 then outState s (execWqTailWrite .miller (queueNo off) v s) else s
  else if off = 0x52000 then { s with power := { p with mx := p.mx.millerWrite v } }
  else if off = 0x52008 then { s with power := { p with vx := p.vx.millerWrite v } }
  else if off = 0x52010 then { s with power := { p with vault := p.vault.millerWrite v } }
  else if 0x55000 ≤ off && off < 0x56000 then fabricWrite true (off - 0x55000) v s
  else s

/-- REGISTER_WRITE (R3, R382, R391). -/
def execRegisterWrite (by_ : Issuer) (off : BitVec 26) (value : Word) (s : State) : Out :=
  .next
    (match by_ with
     | .host fn => writeReg fn off.toNat value s
     | .miller => millerReg off.toNat value s)

/-! ## The host's accesses (R384) -/

/-- What a read gave the host. -/
def hostGot (bs : List Byte) (s : State) : State := { s with hostRead := s.hostRead ++ [bs] }

/-- Whether a range lies in the host's own memory. -/
def inHostMem (a n : Nat) : Bool := hostBase ≤ a && a + n ≤ hostEnd

/-- An access of the host waits on, before the others. -/
def hostAgain (a : HostAcc) (s : State) : State := { s with hostWait := a :: s.hostWait }

/-- The host reads memory; where it cannot be reached, the read completes without bytes. -/
def hostMemRead (acc : HostAcc) (a n : Nat) (s : State) : State :=
  if inHostMem a n then hostGot (memBytes n a s.mem) s
  else
    match readSites .load (physSites s .part false false a n) s with
    | .ok x s => hostGot x.bytes s
    | .stall s => hostAgain acc s
    | .stop i c => hostGot [] (metUnit c (a + i) s)

/-- The host writes memory; a write that is a whole image makes it resident (R61), and one that fails the checks leaves the older image
(assumption 36). -/
def hostMemWrite (acc : HostAcc) (a : Nat) (bs : List Byte) (s : State) : State :=
  if inHostMem a bs.length then becomeResident a bs (putMem a bs s)
  else
    match writeSites (physSites s .part true false a bs.length) bs none 0 s with
    | .ok _ s => becomeResident a bs s
    | .stall s => hostAgain acc s
    | .stop _ _ => s

/-- The oldest waiting access of the host to memory is performed, or waits on. -/
def hostServe (s : State) : State :=
  match s.hostWait with
  | [] => s
  | .memRead addr len :: rest => hostMemRead (.memRead addr len) addr.toNat len { s with hostWait := rest }
  | .memWrite addr bytes :: rest => hostMemWrite (.memWrite addr bytes) addr.toNat bytes { s with hostWait := rest }
  | _ :: rest => { s with hostWait := rest }

/-- HOST_ACCESS (R384, R396, R400). -/
def execHostAccess (acc : HostAcc) (s : State) : Out :=
  match acc with
  | .memRead addr len =>
    if (List.range len).any (fun i => isReserved (addr.toNat + i)) then .fault .reservedAddress
    else .next (hostServe { s with hostWait := s.hostWait ++ [acc] })
  | .memWrite addr bytes =>
    if (List.range bytes.length).any (fun i => isReserved (addr.toNat + i)) then .fault .reservedAddress
    else .next (hostServe { s with hostWait := s.hostWait ++ [acc] })
  | .stagingRead off len => .next (hostGot (stagingBytes s off.toNat (min len (0x400000 - off.toNat))) s)
  | .stagingWrite off bytes =>
    .next (if stagingOpen s then putMem (stagingBase + off.toNat) (bytes.take (0x400000 - off.toNat)) s else s)
  | .debugRead off len =>
    .next (hostGot ((List.range (min len (0x2000000 - off.toNat))).map fun i => debugByte s (off.toNat + i)) s)
  | .registerRead fn off => .next (hostGot (leBytes 8 (readReg s fn off.toNat).toNat) s)

end Sys2Proof.Machine
end

