-- ==== Sys2Proof/Machine/MQuern.lean ====
section
/-! DEFINITION. Gather-window and Quern words of the M-stream (R212 to R217, R236 to R246). -/

namespace Sys2Proof.Machine

open Sys2Proof

/-! ## Gather window -/

/-- Rows and scales read for a slot of depth `d` (R237). -/
def readRows (k : Core) (x d : Nat) : BitVec 131072 := BitVec.ofNat 131072 (memNat k.cs x (256 * d))
def readScales (k : Core) (c n : Nat) : VReg := BitVec.ofNat 8192 (memNat k.cs c n)

/-- Bytes of the scale array that a depth uses. -/
def scaleBytes (d64 : Bool) : Nat := if d64 then 1024 else 512

/-- QWIN (R237). -/
def execQwin (f : MFields) (s : State) : Out :=
  mWord 0x16 false colS colS colN f s fun x s =>
    let tag := x.b.addr
    let c := x.a.addr
    let d := if f.d64 then 64 else 32
    let k := s.core
    let rd := [(tag, 256 * d), (c, scaleBytes f.d64)]
    if !rd.all inStore || (findSlot k tag).isSome then .fault mIllegalOp 0
    else
      match freeSlotOf k with
      | .never => .fault mQueue 0
      | .later => .stall s
      | .some i =>
        mStore rd [] [] [] s fun _ =>
          let g : GatherSlot := ⟨.filling, tag, f.count.extractLsb' 0 2, f.d64, readRows k tag d, readScales k c (scaleBytes f.d64)⟩
          .start (mNext { s with core := k.setSlot i g }) { slot := some i }

/-- QSCL (R238). -/
def execQscl (f : MFields) (s : State) : Out :=
  mWord 0x15 false colS colS colN f s fun x s =>
    let k := s.core
    let c := x.a.addr
    match findSlot k x.b.addr with
    | none => .fault mIllegalOp 0
    | some i =>
      let g := bank k.gather i
      let n := scaleBytes g.d64
      mStore [(c, n)] [] [] [] s fun _ =>
        let new := memNat k.cs c n + g.scales.toNat / 2 ^ (8 * n) * 2 ^ (8 * n)
        .start (mNext { s with core := k.setSlot i { g with scales := BitVec.ofNat 8192 new } }) { slot := some i }

/-- QREL (R239): the slot is EMPTY as soon as no word in flight uses it. -/
def execQrel (f : MFields) (s : State) : Out :=
  mWord 0x17 false colN colS colN f s fun x s =>
    let k := s.core
    match findSlot k x.b.addr with
    | none => .start (mNext s) {}
    | some i =>
      let g := if k.mflight.any fun w => w.slot == some i then { bank k.gather i with st := .releasing } else GatherSlot.none
      .start (mNext { s with core := k.setSlot i g }) {}

/-- QDRAIN (R244): the slots are emptied when it completes. -/
def execQdrain (f : MFields) (s : State) : Out := mPlain 0x12 { drain := true } f s

/-- QSKIP (R217, R242). -/
def execQskip (f : MFields) (s : State) : Out :=
  mWord 0x18 false colN colN colN f s fun _ s =>
    .start (mNext { s with core := { s.core with sigma := s.core.sigma + f.count.toNat } }) {}

/-! ## Quern -/

/-- The slot's checks 1 to 4 of R213. -/
def slotBad (g : GatherSlot) (d : Nat) (i4 : Bool) : Bool :=
  let lanes := if i4 then 512 else 256
  (d == 64 && !g.d64) || ((g.kind == 3) != i4) || (d == 64 && g.kind == 2) ||
    (d == 64 && (List.range lanes).any fun l => slotScale g 0 l != slotScale g 1 l)

/-- Elements of a tile that take the partials of 256 lanes of each column. -/
def addPartials (clr : Bool) (old : List Nat) (ps : List (List Nat)) : List Nat := List.zipWith (accumulate clr) old ps.flatten

/-- QSTEP and QSTEP.i4 (R212, R213, R241): the checks come before the errors of what it reads (R225). -/
def quernWord (op : BitVec 8) (i4 : Bool) (f : MFields) (s : State) : Out :=
  mWord op false colTS colS colN f s fun x s =>
    let k := s.core
    let d := if f.d64 then 64 else 32
    let y := f.acc.toNat
    let ys := if i4 then [y, y + 1] else [y]
    match steerAt (some d) x.a with
    | none => .fault mIllegalOp 0
    | some a =>
      let n := steeringBytes d
      if !inStore (a, n) then .fault mIllegalOp 0
      else if 4 ≤ (k.mflight.filter (·.qstep)).length then .stall s
      else
        match findSlot k x.b.addr with
        | none => .fault mFormat 0
        | some i =>
          let g := bank k.gather i
          let e4 := f.count.getLsbD 0
          if g.st != .filled then .stall s
          else if slotBad g d i4 then .fault mFormat 0
          else
            mStore [(a, n)] [] [] [] s fun _ =>
              let t := steerOf d (k.csBytes a n)
              if steerBad t d e4 then .fault mFormat 0
              else
                mStore [] [] (if f.clr then [] else ys) ys s fun _ =>
                  let ps := quernPartials e4 g d t
                  let k := k.putY y (addPartials f.clr (k.getY y) (ps.map (·.take 256)))
                  let k := if i4 then k.putY (y + 1) (addPartials f.clr (k.getY (y + 1)) (ps.map (·.drop 256))) else k
                  let k := ((k.note 0x0F (t.entries e4)).note 0x10 (t.penalty e4)).note 0x11 (t.buckets e4 * if i4 then 512 else 256)
                  .start (mNext { s with core := { k with stepNo := k.stepNo + 1, sigma := k.sigma + 1 } }) { qstep := true, slot := some i }

def execQstep (f : MFields) (s : State) : Out := quernWord 0x10 false f s
def execQstepI4 (f : MFields) (s : State) : Out := quernWord 0x11 true f s

/-- The reply of QNZ: NZ, and which columns have entries (R243). -/
def nzReply (t : Steer) : Word :=
  w64 (t.nz % 2 ^ 12 + 2 ^ 16 * joinBits 1 (t.cols.map fun c => bit (countOf c.1 != 0)))

/-- QNZ (R243): the depth is that of the header. -/
def execQnz (f : MFields) (s : State) : Out :=
  mWord 0x19 true colTS colN colN f s fun x s =>
    match steerAt none x.a with
    | none => .fault mIllegalOp 0
    | some a =>
      mStore [(a, 1024)] [] [] [] s fun _ =>
        let d := if byteAt (s.core.csBytes a 1024) 257 / 4 % 2 = 1 then 64 else 32
        mStore [(a, steeringBytes d)] [] [] [] s fun _ =>
          .start (mNext s) { reply := some (nzReply (steerOf d (s.core.csBytes a (steeringBytes d)))) }

/-- QCB (R246): 257 bytes of the header. -/
def execQcb (f : MFields) (s : State) : Out :=
  mWord 0x14 false colTS colS colN f s fun x s =>
    match steerAt none x.a with
    | none => .fault mIllegalOp 0
    | some a =>
      let src := x.b.addr
      mStore [(src, 257)] [(a, 257)] [] [] s fun _ => .start (mNext (putCore s.cur a (s.core.csBytes src 257) s)) {}

/-! ## Bolter -/

/-- The tiles of an M.BOLT from number `i` on; it stops at a pair that disagrees (R245). -/
def boltRun (b : Nat) (d64 : Bool) (src dst : Nat) : Nat → Nat → State → State × Bool
  | 0, _, s => (s, true)
  | n + 1, i, s =>
    let stride := roundUp (codeTileBytes b) 64
    let size := steeringBytes (if d64 then 64 else 32)
    let code (h : Nat) : List Byte := s.core.csBytes (src + h * stride) (codeTileBytes b)
    let r := boltOut b (if d64 then [code (2 * i), code (2 * i + 1)] else [code i]) s.freshVal
    let s' := putCore s.cur (dst + i * size) r.1 s
    if r.2 then boltRun b d64 src dst n (i + 1) { s' with core := s'.core.note 0x0E 1 } else ({ s' with freshVal := s'.freshVal + 1 }, false)

/-- M.BOLT -/
def execMBolt (f : MFields) (s : State) : Out :=
  mWord 0x13 false colS colS colN f s fun x s =>
    let b := (f.count.extractLsb' 0 2).toNat
    let n := (f.count.extractLsb' 2 12).toNat
    let size := steeringBytes (if f.d64 then 64 else 32)
    let tiles := if f.d64 then 2 * n else n
    let rd := (x.a.addr, (tiles - 1) * roundUp (codeTileBytes b) 64 + codeTileBytes b)
    let wr := (x.b.addr, n * size)
    if rangesMeet rd wr then .fault mIllegalOp 0
    else
      mStore [rd] [wr] [] [] s fun _ =>
        let r := boltRun b f.d64 x.a.addr x.b.addr n 0 s
        if r.2 then .start (mNext r.1) {} else .broke mFormat r.1

end Sys2Proof.Machine
end

