-- ==== Sys2Proof/Machine/VControl.lean ====
section
/-! DEFINITION. Control of the V sequencer, moves and queues (R173 to R176, R458). -/

namespace Sys2Proof.Machine

open Sys2Proof

/-! ## Control -/

/-- Literal of an instruction, zero where there is none. -/
def litOf (f : VFields) : BitVec 32 := f.literal.getD 0

/-- The target of a parcel displacement (R42, R173). -/
def parcelTarget (k : Core) (lit : BitVec 32) : Word := k.vpc + 4 * lit.signExtend 64

/-- VNOP and the hint cells (R18). -/
def vNothing (len : Nat) (s : State) : Out := vWord len s fun s => .done 0 s

/-- VSEAM (R173): inside a loop it is illegal; else it is passed, or V waits there for the stop (R72, R458). -/
def vMarker (len : Nat) (id : BitVec 22) (s : State) : Out :=
  vWord len s fun s =>
    let k := s.core
    let passed := passages k.passV id
    let go : Bool :=
      match k.stop, k.aseq with
      | none, _ => true
      | some _, .atSeam x => x != id
      | some _, _ => passed < passages k.passA id
    if k.vloop.toList.any (·.active) then .trap .illegal 0
    else if go then .done 0 { s with core := { k with passV := setPassages k.passV id (passed + 1) } }
    else .stall s

/-- VHALT (R173). -/
def vHalt (s : State) : Out := vWord 0 s fun s => .stay { s with core := { s.core with vseq := .halted, vrep := 0, vflags := 0 }.note 4 1 }

def execVnop (f : VFields) (s : State) : Out := vNothing (longLen f) s
def execVnopShort (s : State) : Out := vNothing 1 s
def execVseam (f : VFields) (s : State) : Out := vMarker (longLen f) (f.va ++ f.vd) s
def execVseamShort (id : BitVec 22) (s : State) : Out := vMarker 1 id s
def execVhalt (_f : VFields) (s : State) : Out := vHalt s
def execVhaltShort (s : State) : Out := vHalt s
def execVHintShort (_op : BitVec 4) (_vd _va : BitVec 11) (s : State) : Out := vNothing 1 s

/-- A long hint cell has the length its bits 1:0 give (R18). -/
def execVHint (w : VRaw) (s : State) : Out :=
  vNothing (match w with | .w64 _ => 2 | .w96 _ => 3) s

/-- VWAIT: the count is tested, not decremented, and the wait is satisfied once (R127, R173). -/
def execVwait (f : VFields) (s : State) : Out :=
  vWord (longLen f) s fun s =>
    if s.core.metV || f.modifier.toNat ≤ (bank s.core.sem (f.vd.extractLsb' 0 8)).toNat then
      .done 0 { s with core := { s.core with metV := false } }
    else .stall s

/-- VSIG (R126, R173). -/
def execVsig (f : VFields) (s : State) : Out :=
  vWord (longLen f) s fun s =>
    let i := f.vd.extractLsb' 0 8
    match if f.modifier = 0 then some s.core else semAdd s.core i f.modifier.toNat with
    | some k => .done 0 { s with core := k }
    | none => .trap .semOvf (i.zeroExtend 64)

/-- Loops that an address lies outside of end (R174). -/
def Core.leaveLoops (k : Core) (target : Word) : Core :=
  { k with vloop := k.vloop.map fun l => if l.start ≤ target && target < l.fin then l else { l with active := false } }

/-- VJMP -/
def execVjmp (f : VFields) (s : State) : Out :=
  vWord (longLen f) s fun s =>
    let t := parcelTarget s.core (litOf f)
    .jump t { s with core := s.core.leaveLoops t }

/-- Whether a loop that ends at `fin` passes the end of another active loop around the VLOOP (R174). -/
def loopCrosses (k : Core) (j : BitVec 2) (fin : Word) : Bool :=
  [0#2, 1, 2, 3].any fun i =>
    let l := bank k.vloop i
    i != j && l.active && l.start ≤ k.vpc && k.vpc < l.fin && l.fin < fin

/-- VLOOP (R174). -/
def execVloop (f : VFields) (s : State) : Out :=
  vWord (longLen f) s fun s =>
    let k := s.core
    let j := f.vd.extractLsb' 0 2
    let n := f.modifier
    let start := k.vpc + w64 (4 * longLen f)
    let fin := parcelTarget k (litOf f)
    let age := k.vloop.toList.foldl (fun a l => max a l.age) 0
    if loopCrosses k j fin then .trap .illegal 0
    else if n = 0 then .jump fin s
    else
      .jump start
        { s with core := { k with vlc := bankSet k.vlc j (n.zeroExtend 32 - 1), vloop := bankSet k.vloop j ⟨start, fin, true, age + 1⟩ } }

/-! ## Moves (R175) -/

/-- Elements passed on unchanged. -/
def quietEls (xs : List Nat) : VRes := xs.map El.quiet

/-- The shape of one source of type `t` into one destination of that type. -/
def unaryShape (t : VTy) : VShape := { src := t, dst := t }
def binaryShape (t : VTy) : VShape := { src := t, dst := t, nb := 1 }
def ternaryShape (t : VTy) : VShape := { src := t, dst := t, nb := 1, nc := 1 }

/-- A move of the elements of va. -/
def vMove (len : Nat) (f : VFields) (s : State) : Out := elementWord len f (unaryShape f.ty) (fun i => quietEls (els f.ty i.a)) s

def execVmov (f : VFields) (s : State) : Out := vMove (longLen f) f s
def execVmovShort (vd va : BitVec 11) (s : State) : Out := vMove 1 (shortUnary .n64 vd va) s
def execVpop (f : VFields) (s : State) : Out := vMove (longLen f) f s
def execVpopShort (vd va : BitVec 11) (s : State) : Out := vMove 1 (shortUnary .n64 vd va) s

/-- VMOVI -/
def execVmovi (f : VFields) (s : State) : Out :=
  elementWord (longLen f) f { src := f.ty, dst := f.ty, na := 0 }
    (fun _ => List.replicate f.ty.lanes (.quiet (litVal f.ty (litOf f)))) s

/-- VINS: one element, if it is active. -/
def execVins (f : VFields) (s : State) : Out :=
  let t := f.ty
  let idx := (litOf f).toNat
  let r := repOf f 0
  .next (finishV (longLen f) true s
    (withRegs (regsAt r.va 1) [r.vd] s fun s =>
      withSources f (unaryShape t) r s fun i s =>
        let x := (els t i.a)[0]?.getD 0
        let w := t.bits / 8
        let cells := if i.cells.getLsbD (idx * w) then (List.range w).map (idx * w + ·) else []
        .done 0 (putCells r.vd cells (leBytes 1024 (x <<< (idx * t.bits))) s)))

/-- VSWAP: both registers, at the active elements. -/
def vSwap (len : Nat) (f : VFields) (s : State) : Out :=
  let t := f.ty
  let r := repOf f s.core.vrep
  .next (finishV len r.last s
    (withFrames [r.va, r.vd] (checkedRegs f false (fun r => [r.va, r.vd]) (fun r => [r.va, r.vd]) s.core) s fun s =>
      let x := (s.core.getV r.vd).toNat
      let y := (s.core.getV r.va).toNat
      let m := cellsOf f s.core
      .done 0 (putReg t m r.va x (putReg t m r.vd y s))))

def execVswap (f : VFields) (s : State) : Out := vSwap (longLen f) f s
def execVswapShort (vd va : BitVec 11) (s : State) : Out := vSwap 1 (shortUnary .n64 vd va) s

/-- VSEL: every element is written, from va where its mask bit is 1, else from vb. -/
def execVsel (f : VFields) (s : State) : Out :=
  let t := f.ty
  elementWord (longLen f) f { binaryShape t with force := true }
    (fun i => ((activity i.cells t).zip ((els t i.a).zip (els t i.b))).map fun p => .quiet (if p.1 then p.2.1 else p.2.2)) s

/-! ## Queues (R176) -/

/-- VPUSH: bytes 7:0 of va, once there is room. -/
def execVpush (f : VFields) (s : State) : Out :=
  let r := repOf f 0
  vWord (longLen f) s fun s =>
    withRegs (regsAt r.va 1) [] s fun s =>
      let j := f.vd.extractLsb' 0 2
      if 8 ≤ (bank s.core.vq j).length then .stall s
      else
        withSources f (unaryShape .n64) r s fun i s =>
          let x := w64 (((i.a)[0]?.getD 0) % 2 ^ 64)
          .done 0 { s with core := { s.core with vq := bankSet s.core.vq j (bank s.core.vq j ++ [x]) } }

/-- VQDROP: one entry is popped and discarded. -/
def vQdrop (len : Nat) (va : BitVec 11) (s : State) : Out :=
  vWord len s fun s =>
    match popQ (va.extractLsb' 0 4) 1 s.core with
    | none =>
      match s.core.entryFault (va.extractLsb' 0 4) 1 with
      | some (c, x) => .faulted c x
      | none => .stall s
    | some (_, k) => .done 0 { s with core := k }

def execVqdrop (f : VFields) (s : State) : Out := vQdrop (longLen f) f.va s
def execVqdropShort (va : BitVec 11) (s : State) : Out := vQdrop 1 va s

end Sys2Proof.Machine
end

