-- ==== Sys2Proof/Machine/VElement.lean ====
section
/-! DEFINITION. Element arithmetic, shape and scale, compares and masks, logic and shifts of the V-stream (R177 to R184). -/

namespace Sys2Proof.Machine

open Sys2Proof

/-! ## Arithmetic (R177) -/

/-- Elements of three sources side by side; a source that is not there reads as 0. -/
def triples (t : VTy) (i : VIn) : List (Nat × Nat × Nat × Nat) :=
  let a := els t i.a
  let b := if i.b.isEmpty then a.map fun _ => 0 else els t i.b
  let c := if i.c.isEmpty then a.map fun _ => 0 else els t i.c
  (List.range a.length).zip (a.zip (b.zip c))

/-- Whether a sum of opposite zeros is −0 (R147). -/
def VIn.down (i : VIn) : Bool := i.rnd.vm.mode == 2

/-- An operation given by its exact values on integers and on floats (R177). -/
def arith (t : VTy) (fi : Int → Int → Int → Int) (ff : Bool → Fl → Fl → Fl → Fl) (i : VIn) : VRes :=
  (triples t i).map fun (n, a, b, c) =>
    if t.isFloat then
      let f := vfmt t
      let x := f.read i.rnd.vm.ftz a
      let y := f.read i.rnd.vm.ftz b
      let z := f.read i.rnd.vm.ftz c
      i.rnd.float t n (x.isNan || y.isNan || z.isNan) (ff i.down x y z)
    else i.rnd.int t (fi (intVal t a) (intVal t b) (intVal t c))

/-- An operation of two sources. -/
def arith2 (len : Nat) (f : VFields) (fi : Int → Int → Int) (ff : Bool → Fl → Fl → Fl) (s : State) : Out :=
  elementWord len f (binaryShape f.ty) (arith f.ty (fun a b _ => fi a b) (fun d a b _ => ff d a b)) s

/-- An operation of three sources. -/
def arith3 (f : VFields) (fi : Int → Int → Int → Int) (ff : Bool → Fl → Fl → Fl → Fl) (s : State) : Out :=
  elementWord (longLen f) f (ternaryShape f.ty) (arith f.ty fi ff) s

/-- The exact sum and difference of two values. -/
def flAdd (down : Bool) (a b : Fl) : Fl := Fl.sum down [a, b]
def flSub (down : Bool) (a b : Fl) : Fl := Fl.sum down [a, b.negate]

def vAdd (len : Nat) (f : VFields) (s : State) : Out := arith2 len f (· + ·) flAdd s
def vSub (len : Nat) (f : VFields) (s : State) : Out := arith2 len f (· - ·) flSub s
def vMul (len : Nat) (f : VFields) (s : State) : Out := arith2 len f (· * ·) (fun _ => Fl.mul) s

def execVadd (f : VFields) (s : State) : Out := vAdd (longLen f) f s
def execVsub (f : VFields) (s : State) : Out := vSub (longLen f) f s
def execVmul (f : VFields) (s : State) : Out := vMul (longLen f) f s
def execVaddF32Short (vd va : BitVec 11) (s : State) : Out := vAdd 1 (shortBinary .f32 vd va) s
def execVsubF32Short (vd va : BitVec 11) (s : State) : Out := vSub 1 (shortBinary .f32 vd va) s
def execVmulF32Short (vd va : BitVec 11) (s : State) : Out := vMul 1 (shortBinary .f32 vd va) s
def execVaddBf16Short (vd va : BitVec 11) (s : State) : Out := vAdd 1 (shortBinary .bf16 vd va) s
def execVsubBf16Short (vd va : BitVec 11) (s : State) : Out := vSub 1 (shortBinary .bf16 vd va) s
def execVmulBf16Short (vd va : BitVec 11) (s : State) : Out := vMul 1 (shortBinary .bf16 vd va) s
def execVaddI32Short (vd va : BitVec 11) (s : State) : Out := vAdd 1 (shortBinary .i32 vd va) s
def execVsubI32Short (vd va : BitVec 11) (s : State) : Out := vSub 1 (shortBinary .i32 vd va) s
def execVmulI32Short (vd va : BitVec 11) (s : State) : Out := vMul 1 (shortBinary .i32 vd va) s
def execVaddI16Short (vd va : BitVec 11) (s : State) : Out := vAdd 1 (shortBinary .i16 vd va) s
def execVsubI16Short (vd va : BitVec 11) (s : State) : Out := vSub 1 (shortBinary .i16 vd va) s
def execVaddI8Short (vd va : BitVec 11) (s : State) : Out := vAdd 1 (shortBinary .i8 vd va) s
def execVsubI8Short (vd va : BitVec 11) (s : State) : Out := vSub 1 (shortBinary .i8 vd va) s

/-- VMULH: the high half of the exact product. -/
def execVmulh (f : VFields) (s : State) : Out :=
  arith2 (longLen f) f (fun a b => (a * b) >>> f.ty.bits) (fun _ a _ => a) s

def execVfma (f : VFields) (s : State) : Out := arith3 f (fun a b c => c + a * b) (fun d a b c => flAdd d c (a.mul b)) s
def execVfms (f : VFields) (s : State) : Out := arith3 f (fun a b c => a * b - c) (fun d a b c => flSub d (a.mul b) c) s
def execVfnma (f : VFields) (s : State) : Out := arith3 f (fun a b c => c - a * b) (fun d a b c => flSub d c (a.mul b)) s

/-- Whether element x stands below element y: integers by type, floats by R147. -/
def elBelow (t : VTy) (x y : Nat) : Bool :=
  if t.isFloat then ((vfmt t).val x).below ((vfmt t).val y) else decide (intVal t x < intVal t y)

/-- Whether an element is a NaN. -/
def elNan (t : VTy) (x : Nat) : Bool := t.isFloat && ((vfmt t).val x).isNan

/-- The lesser or the greater of two elements (R147, R177). -/
def elMin (t : VTy) (x y : Nat) : Nat :=
  if elNan t x then if elNan t y then (vfmt t).nan.getD 0 else y
  else if elNan t y then x
  else if elBelow t y x then y else x

def elMax (t : VTy) (x y : Nat) : Nat :=
  if elNan t x then if elNan t y then (vfmt t).nan.getD 0 else y
  else if elNan t y then x
  else if elBelow t x y then y else x

/-- An operation on bit patterns of elements. -/
def pattern2 (len : Nat) (f : VFields) (op : Nat → Nat → Nat) (s : State) : Out :=
  elementWord len f (binaryShape f.ty) (fun i => (triples f.ty i).map fun (_, a, b, _) => .quiet (op a b)) s

def pattern1 (len : Nat) (f : VFields) (op : Nat → Nat) (s : State) : Out :=
  elementWord len f (unaryShape f.ty) (fun i => (els f.ty i.a).map fun a => .quiet (op a)) s

def vMin (len : Nat) (f : VFields) (s : State) : Out := pattern2 len f (elMin f.ty) s
def vMax (len : Nat) (f : VFields) (s : State) : Out := pattern2 len f (elMax f.ty) s

def execVmin (f : VFields) (s : State) : Out := vMin (longLen f) f s
def execVmax (f : VFields) (s : State) : Out := vMax (longLen f) f s
def execVminF32Short (vd va : BitVec 11) (s : State) : Out := vMin 1 (shortBinary .f32 vd va) s
def execVmaxF32Short (vd va : BitVec 11) (s : State) : Out := vMax 1 (shortBinary .f32 vd va) s
def execVminBf16Short (vd va : BitVec 11) (s : State) : Out := vMin 1 (shortBinary .bf16 vd va) s
def execVmaxBf16Short (vd va : BitVec 11) (s : State) : Out := vMax 1 (shortBinary .bf16 vd va) s
def execVminI32Short (vd va : BitVec 11) (s : State) : Out := vMin 1 (shortBinary .i32 vd va) s
def execVmaxI32Short (vd va : BitVec 11) (s : State) : Out := vMax 1 (shortBinary .i32 vd va) s

/-- VCLAMP: VMIN(VMAX(a, b), c). -/
def execVclamp (f : VFields) (s : State) : Out :=
  elementWord (longLen f) f (ternaryShape f.ty)
    (fun i => (triples f.ty i).map fun (_, a, b, c) => .quiet (elMin f.ty (elMax f.ty a b) c)) s

/-- An integer operation, or an exact change of sign of a float whose NaN is canonical (R177). -/
def signWord (len : Nat) (f : VFields) (sh : VShape) (fi : Int → Int → Int) (fs : Bool → Bool → Bool) (s : State) : Out :=
  let t := f.ty
  elementWord len f sh
    (fun i => (triples t i).map fun (_, a, b, _) =>
      if t.isFloat then
        let fm := vfmt t
        let w := 2 ^ (t.bits - 1)
        if elNan t a then .quiet (fm.nan.getD 0) else .quiet (fm.signed (fs (a / w % 2 == 1) (b / w % 2 == 1)) (a % w))
      else i.rnd.int t (fi (intVal t a) (intVal t b))) s

def vAbs (len : Nat) (f : VFields) (s : State) : Out := signWord len f (unaryShape f.ty) (fun a _ => a.natAbs) (fun _ _ => false) s
def vNeg (len : Nat) (f : VFields) (s : State) : Out := signWord len f (unaryShape f.ty) (fun a _ => -a) (fun n _ => !n) s

def execVabs (f : VFields) (s : State) : Out := vAbs (longLen f) f s
def execVneg (f : VFields) (s : State) : Out := vNeg (longLen f) f s
def execVabsF32Short (vd va : BitVec 11) (s : State) : Out := vAbs 1 (shortUnary .f32 vd va) s
def execVnegF32Short (vd va : BitVec 11) (s : State) : Out := vNeg 1 (shortUnary .f32 vd va) s

/-- VSIGN: a, 0 or −a by the sign of b; floats take the sign bit of b. -/
def execVsign (f : VFields) (s : State) : Out :=
  signWord (longLen f) f (binaryShape f.ty) (fun a b => if 0 < b then a else if b = 0 then 0 else -a) (fun _ n => n) s

/-- VAVG -/
def execVavg (f : VFields) (s : State) : Out :=
  arith2 (longLen f) f (fun a b => (a + b + 1) >>> 1) (fun d a b => (flAdd d a b).scale (-1)) s

/-- VABSD -/
def execVabsd (f : VFields) (s : State) : Out :=
  arith2 (longLen f) f (fun a b => (a - b).natAbs) (fun d a b => (flSub d a b).abs) s

/-- VMULQ: it saturates always. -/
def execVmulq (f : VFields) (s : State) : Out :=
  let t := f.ty
  elementWord (longLen f) f (binaryShape t)
    (fun i => (triples t i).map fun (_, a, b, _) =>
      intEl true t.bits true ((intVal t a * intVal t b + 2 ^ (t.bits - 2)) >>> (t.bits - 1))) s

/-! ## Dot products (R178) -/

/-- The 32-bit result type of a dot product. -/
def dotTy (t : VTy) : VTy := if t.isFloat then .f32 else if t.isSigned then .i32 else .n32

/-- Products of `g` source elements and an addend, summed exactly and finished once. -/
def vDot (g : Nat) (f : VFields) (s : State) : Out :=
  let t := f.ty
  let d := dotTy t
  elementWord (longLen f) f { src := t, dst := d, nb := 1, nc := 1 }
    (fun i =>
      let rows := (List.range 256).zip ((chunks g 256 (els t i.a)).zip ((chunks g 256 (els t i.b)).zip (els d i.c)))
      rows.map fun (n, a, b, c) =>
        if t.isFloat then
          let x := a.map ((vfmt t).read i.rnd.vm.ftz)
          let y := b.map ((vfmt t).read i.rnd.vm.ftz)
          let z := fp32.read i.rnd.vm.ftz c
          i.rnd.float d n (x.any Fl.isNan || y.any Fl.isNan || z.isNan) (Fl.sum i.down (z :: List.zipWith Fl.mul x y))
        else
          i.rnd.int d ((List.zipWith (fun p q => intVal t p * intVal t q) a b).foldl (· + ·) (intVal d c))) s

def execVdot4 (f : VFields) (s : State) : Out := vDot 4 f s
def execVdot2 (f : VFields) (s : State) : Out := vDot 2 f s

/-! ## Widening (R179) -/

/-- The widened type. -/
def widened (t : VTy) : VTy :=
  match t with
  | .i8 => .i16
  | .n8 => .n16
  | .i16 => .i32
  | .n16 => .n32
  | .i32 => .i64
  | .n32 => .n64
  | .f16 => .f32
  | .bf16 => .f32
  | .e4m3 => .bf16
  | .e5m2 => .bf16
  | .i4 => .i8
  | t => t

/-- The shape of a widening instruction with `nb` second sources. -/
def wideShape (t : VTy) (nb : Nat) : VShape := { src := t, dst := widened t, nb := nb, nd := 2 }

/-- Elements of the widened type from those of two sources. -/
def vWiden (f : VFields) (fi : Int → Int → Int) (ff : Bool → Fl → Fl → Fl) (s : State) : Out :=
  let t := f.ty
  let d := widened t
  elementWord (longLen f) f (wideShape t 1)
    (fun i => (triples t i).map fun (n, a, b, _) =>
      if t.isFloat then
        let x := (vfmt t).read i.rnd.vm.ftz a
        let y := (vfmt t).read i.rnd.vm.ftz b
        i.rnd.float d n (x.isNan || y.isNan) (ff i.down x y)
      else i.rnd.int d (fi (intVal t a) (intVal t b))) s

def execVmulw (f : VFields) (s : State) : Out := vWiden f (· * ·) (fun _ => Fl.mul) s
def execVaddw (f : VFields) (s : State) : Out := vWiden f (· + ·) flAdd s

/-- VUNPK: sign or zero extension. -/
def execVunpk (f : VFields) (s : State) : Out :=
  let t := f.ty
  elementWord (longLen f) f (wideShape t 0) (fun i => (els t i.a).map fun a => .quiet (patternOf (widened t).bits (intVal t a))) s

/-! ## Shape and scale (R180) -/

/-- VSCALE: an exponent past ±1,000 has the effect of ±1,000 in every format. -/
def execVscale (f : VFields) (s : State) : Out :=
  let t := f.ty
  elementWord (longLen f) f (binaryShape t)
    (fun i => (triples t i).map fun (n, a, b, _) =>
      let x := (vfmt t).read i.rnd.vm.ftz a
      i.rnd.float t n x.isNan (x.scale (satInt (signedOf t.bits b) (-1000) 1000))) s

/-- An integral value in the type (R180): zeros keep the sign of the operand. -/
def rintEl (f : Fmt) (mode : Mode) (x : Fl) : El :=
  match x with
  | .nan => .quiet (f.nan.getD 0)
  | .inf n => .quiet (f.ofFl .rne false (.inf n)).bits
  | .fin n m e =>
    let r := roundAt mode n m e false 0
    ⟨(f.round .rne false n r.1 0 false).bits, flagIf r.2 fNX⟩

/-- VRINT: NXF alone (assumption 24). -/
def execVrint (f : VFields) (s : State) : Out :=
  let t := f.ty
  elementWord (longLen f) f (unaryShape t)
    (fun i => (triples t i).map fun (n, a, _) => rintEl (vfmt t) (i.rnd.at n) ((vfmt t).read i.rnd.vm.ftz a)) s

/-- VLUT: the element of va at byte w·i of vb modulo n. -/
def execVlut (f : VFields) (s : State) : Out :=
  let t := f.ty
  elementWord (longLen f) f (binaryShape t)
    (fun i =>
      let table := els t i.a
      (els t i.b).map fun b => .quiet (table[b % 256 % t.lanes]?.getD 0)) s

/-- VFREXP -/
def execVfrexp (f : VFields) (s : State) : Out :=
  let t := f.ty
  pattern1 (longLen f) f
    (fun a =>
      let x := (vfmt t).val a
      patternOf t.bits (if x.isNan || x.isInf then intMax true t.bits else if x.isZero then intMin true t.bits else x.log2)) s

/-! ## Compares (R181, R182) -/

/-- A compare of two values: `fi` on integers, `ff` on floats. -/
def vCmp (f : VFields) (fi : Int → Int → Bool) (ff : Fl → Fl → Bool) (s : State) : Out :=
  let t := f.ty
  let ftz := f.modifier.getLsbD 7
  maskWord (longLen f) f (binaryShape t)
    (fun i => (triples t i).map fun (_, a, b, _) =>
      if t.isFloat then ff ((vfmt t).read ftz a) ((vfmt t).read ftz b) else fi (intVal t a) (intVal t b)) s

def execVcmpEq (f : VFields) (s : State) : Out := vCmp f (fun a b => a == b) Fl.eq s
def execVcmpNe (f : VFields) (s : State) : Out := vCmp f (fun a b => a != b) (fun a b => !a.eq b) s
def execVcmpLt (f : VFields) (s : State) : Out := vCmp f (fun a b => decide (a < b)) Fl.lt s
def execVcmpLe (f : VFields) (s : State) : Out := vCmp f (fun a b => decide (a ≤ b)) (fun a b => a.lt b || a.eq b) s
def execVcmpUnord (f : VFields) (s : State) : Out := vCmp f (fun _ _ => false) (fun a b => a.isNan || b.isNan) s
def execVcmpOrd (f : VFields) (s : State) : Out := vCmp f (fun _ _ => false) (fun a b => !a.isNan && !b.isNan) s

/-- The class of an encoding as a bit of VCLASS's set. -/
def classOf (f : Fmt) (ftz : Bool) (x : Nat) : Nat :=
  let y := if ftz && f.subnormal x then f.signOnly x else x
  match f.val y with
  | .nan => 8
  | .inf n => if n then 0 else 7
  | .fin n m _ =>
    if m = 0 then if n then 3 else 4
    else if f.subnormal y then if n then 2 else 5
    else if n then 1 else 6

/-- VCLASS -/
def execVclass (f : VFields) (s : State) : Out :=
  let t := f.ty
  maskWord (longLen f) f (unaryShape t)
    (fun i => (els t i.a).map fun a => (litOf f).getLsbD (classOf (vfmt t) (f.modifier.getLsbD 7) a)) s

/-! ## Masks (R183) -/

/-- A mask register computed from mask registers. -/
def kWord (len : Nat) (mk : BitVec 4) (op : Core → Mask) (s : State) : Out :=
  vWord len s fun s => .done 0 { s with core := s.core.setM mk (op s.core) }

/-- The mask that a register field names. -/
def maskField (r : BitVec 11) : BitVec 4 := r.extractLsb' 0 4

def kAnd (len : Nat) (mk ma mb : BitVec 4) (s : State) : Out := kWord len mk (fun k => k.getM ma &&& k.getM mb) s
def kOr (len : Nat) (mk ma mb : BitVec 4) (s : State) : Out := kWord len mk (fun k => k.getM ma ||| k.getM mb) s
def kXor (len : Nat) (mk ma mb : BitVec 4) (s : State) : Out := kWord len mk (fun k => k.getM ma ^^^ k.getM mb) s
def kNot (len : Nat) (mk ma : BitVec 4) (s : State) : Out := kWord len mk (fun k => ~~~k.getM ma) s

def execKand (f : VFields) (s : State) : Out := kAnd (longLen f) (maskField f.vd) (maskField f.va) (maskField f.vb) s
def execKor (f : VFields) (s : State) : Out := kOr (longLen f) (maskField f.vd) (maskField f.va) (maskField f.vb) s
def execKxor (f : VFields) (s : State) : Out := kXor (longLen f) (maskField f.vd) (maskField f.va) (maskField f.vb) s
def execKnot (f : VFields) (s : State) : Out := kNot (longLen f) (maskField f.vd) (maskField f.va) s
def execKandShort (mk ma : BitVec 4) (s : State) : Out := kAnd 1 mk mk ma s
def execKorShort (mk ma : BitVec 4) (s : State) : Out := kOr 1 mk mk ma s
def execKxorShort (mk ma : BitVec 4) (s : State) : Out := kXor 1 mk mk ma s
def execKnotShort (mk ma : BitVec 4) (s : State) : Out := kNot 1 mk ma s

/-- KPOPC: every .n32 element takes the number of elements whose lowest cell is set. -/
def execKpopc (f : VFields) (s : State) : Out :=
  let n := ((activity (s.core.getM (maskField f.va)) f.ty).filter id).length
  elementWord (longLen f) f { src := f.ty, dst := .n32, na := 0 } (fun _ => List.replicate 256 (.quiet n)) s

/-- The lowest set bit of a mask. -/
def lowestBit (m : Mask) : Mask := m &&& (0 - m)

/-- KFIRST -/
def execKfirst (f : VFields) (s : State) : Out := kWord (longLen f) (maskField f.vd) (fun k => lowestBit (k.getM (maskField f.va))) s

/-- VTOK -/
def execVtok (f : VFields) (s : State) : Out :=
  maskWord (longLen f) f (unaryShape f.ty) (fun i => (els f.ty i.a).map (· != 0)) s

/-- KTOV -/
def execKtov (f : VFields) (s : State) : Out :=
  let act := activity (s.core.getM (maskField f.va)) f.ty
  elementWord (longLen f) f { src := f.ty, dst := f.ty, na := 0 }
    (fun _ => act.map fun b => .quiet (if b then 2 ^ f.ty.bits - 1 else 0)) s

/-- KSET: the bits of elements 0 to c − 1. -/
def execKset (f : VFields) (s : State) : Out :=
  let cells := min 1024 ((litOf f).toNat * (f.ty.bits / 8))
  kWord (longLen f) (maskField f.vd) (fun _ => BitVec.ofNat 1024 (2 ^ cells - 1)) s

/-! ## Logic and shifts (R184) -/

/-- The complement of an element. -/
def elNot (t : VTy) (x : Nat) : Nat := 2 ^ t.bits - 1 - x

def vAnd (len : Nat) (f : VFields) (s : State) : Out := pattern2 len f (· &&& ·) s
def vOr (len : Nat) (f : VFields) (s : State) : Out := pattern2 len f (· ||| ·) s
def vXor (len : Nat) (f : VFields) (s : State) : Out := pattern2 len f (· ^^^ ·) s
def vNot (len : Nat) (f : VFields) (s : State) : Out := pattern1 len f (elNot f.ty) s
def vAndn (len : Nat) (f : VFields) (s : State) : Out := pattern2 len f (fun a b => a &&& elNot f.ty b) s

def execVand (f : VFields) (s : State) : Out := vAnd (longLen f) f s
def execVor (f : VFields) (s : State) : Out := vOr (longLen f) f s
def execVxor (f : VFields) (s : State) : Out := vXor (longLen f) f s
def execVnot (f : VFields) (s : State) : Out := vNot (longLen f) f s
def execVandn (f : VFields) (s : State) : Out := vAndn (longLen f) f s
def execVandShort (vd va : BitVec 11) (s : State) : Out := vAnd 1 (shortBinary .n64 vd va) s
def execVorShort (vd va : BitVec 11) (s : State) : Out := vOr 1 (shortBinary .n64 vd va) s
def execVxorShort (vd va : BitVec 11) (s : State) : Out := vXor 1 (shortBinary .n64 vd va) s
def execVnotShort (vd va : BitVec 11) (s : State) : Out := vNot 1 (shortUnary .n64 vd va) s
def execVandnShort (vd va : BitVec 11) (s : State) : Out := vAndn 1 (shortBinary .n64 vd va) s

/-- VBSEL: (c & a) | (~c & b). -/
def execVbsel (f : VFields) (s : State) : Out :=
  elementWord (longLen f) f (ternaryShape f.ty)
    (fun i => (triples f.ty i).map fun (_, a, b, c) => .quiet ((c &&& a) ||| (elNot f.ty c &&& b))) s

/-- The shift amount of an element (R145). -/
def shiftAmount (t : VTy) (b : Nat) : Nat := if t.bits = 16 then b % 256 else b

def execVshl (f : VFields) (s : State) : Out :=
  pattern2 (longLen f) f
    (fun a b => let n := shiftAmount f.ty b; if f.ty.bits ≤ n then 0 else (a <<< n) % 2 ^ f.ty.bits) s

def execVshr (f : VFields) (s : State) : Out :=
  pattern2 (longLen f) f (fun a b => let n := shiftAmount f.ty b; if f.ty.bits ≤ n then 0 else a >>> n) s

/-- An arithmetic shift whatever the type's sign. -/
def execVsra (f : VFields) (s : State) : Out :=
  let w := f.ty.bits
  pattern2 (longLen f) f (fun a b => patternOf w (signedOf w a >>> min (shiftAmount f.ty b) (w - 1))) s

def execVclz (f : VFields) (s : State) : Out := pattern1 (longLen f) f (leadingZeros f.ty.bits) s
def execVpopc (f : VFields) (s : State) : Out := pattern1 (longLen f) f (popCount f.ty.bits) s

/-- The low `n` bits in reverse order. -/
def reverseBits (n x : Nat) : Nat := joinBits 1 (splitBits 1 n x).reverse

def execVbrev (f : VFields) (s : State) : Out := pattern1 (longLen f) f (reverseBits f.ty.bits) s

end Sys2Proof.Machine
end

