-- ==== Sys2Proof/Machine/VAxis.lean ====
section
/-! DEFINITION. Axis operations, permutations and random bits of the V-stream (R160, R190 to R198). -/

namespace Sys2Proof.Machine

open Sys2Proof

/-! ## Lines (R163, R190) -/

/-- Bit 63 of an X-class instruction selects the column axis; bit 52 is W or H. -/
def colAxis (f : VFields) : Bool := f.modifier.getLsbD 11
def bitW (f : VFields) : Bool := f.modifier.getLsbD 0

/-- The columns of rows of equal length. -/
def transposed {α : Type} : Nat → List (List α) → List (List α)
  | 0, _ => []
  | n + 1, rows => rows.filterMap List.head? :: transposed n (rows.map List.tail)

/-- A register cut into the lines of an axis: 16 rows, or the positions across the 16 rows. -/
def linesOf {α : Type} (t : VTy) (col : Bool) (xs : List α) : List (List α) :=
  let rows := chunks (t.lanes / 16) 16 xs
  if col then transposed (t.lanes / 16) rows else rows

/-- Lines put together to a register. -/
def ofLines {α : Type} (col : Bool) (ls : List (List α)) : List α := if col then (transposed 16 ls).flatten else ls.flatten

/-- An operation on every line of the axis; `whole` takes the register as one line. -/
def onLines {α β : Type} (f : VFields) (whole : Bool) (g : List α → List β) (xs : List α) : List β :=
  if whole then g xs else ofLines (colAxis f) ((linesOf f.ty (colAxis f) xs).map g)

/-- An instruction that moves the elements of a register along lines. -/
def lineMove (f : VFields) (whole : Bool) (g : List Nat → List Nat) (s : State) : Out :=
  elementWord (longLen f) f (unaryShape f.ty) (fun i => quietEls (onLines f whole g (els f.ty i.a))) s

/-! ## Rotations, shifts and broadcasts (R191) -/

/-- The amount of bits 61:52. -/
def amount10 (f : VFields) : Nat := (f.modifier.extractLsb' 0 10).toNat

/-- VROT: the element at p goes to (p + k) mod N. -/
def execVrot (f : VFields) (s : State) : Out :=
  lineMove f false (fun l => l.drop (l.length - amount10 f) ++ l.take (l.length - amount10 f)) s

/-- VSHFT: zeros come in. -/
def execVshft (f : VFields) (s : State) : Out :=
  let k := amount10 f
  lineMove f false
    (fun l => if f.modifier.getLsbD 10 then l.drop k ++ List.replicate k 0 else List.replicate k 0 ++ l.take (l.length - k)) s

/-- VBCST: one element of each line, or of the register with W. -/
def execVbcst (f : VFields) (s : State) : Out :=
  lineMove f (f.modifier.getLsbD 10) (fun l => List.replicate l.length (l[amount10 f]?.getD 0)) s

/-! ## Reductions and scans (R160, R192, R194) -/

/-- Pairs of a list joined by an operation, flags gathered. -/
def pairUp (op : Nat → Nat → El) : List Nat → List Nat × VFlags
  | x :: y :: rest =>
    let r := op x y
    let t := pairUp op rest
    (r.bits :: t.1, r.fl ||| t.2)
  | xs => (xs, 0)

/-- The pairwise tree of R160. -/
def treeOf (op : Nat → Nat → El) : Nat → List Nat → El
  | 0, xs => .quiet (xs.head?.getD 0)
  | fuel + 1, xs =>
    match xs with
    | [x] => .quiet x
    | xs =>
      let p := pairUp op xs
      let r := treeOf op fuel p.1
      ⟨r.bits, r.fl ||| p.2⟩

/-- The sum of two elements, rounded RNE or wrapped (R190). -/
def sumEl (t : VTy) (x y : Nat) : El :=
  if t.isFloat then
    let a := (vfmt t).val x
    let b := (vfmt t).val y
    floatEl (vfmt t) .rne false false (a.isNan || b.isNan) (Fl.sum false [a, b])
  else intEl false t.bits false ((x : Int) + y)

/-- The identities of R192. -/
def sumIdentity (t : VTy) : Nat := if t.isFloat then (vfmt t).signed true 0 else 0
def maxIdentity (t : VTy) : Nat := if t.isFloat then (vfmt t).nan.getD 0 else minVal t
def minIdentity (t : VTy) : Nat := if t.isFloat then (vfmt t).nan.getD 0 else maxVal t

/-- Inactive elements replaced by the identity. -/
def withIdentity (e : Nat) (act : List Bool) (xs : List Nat) : List Nat := List.zipWith (fun b x => if b then x else e) act xs

/-- Every element of each set takes the set's result. -/
def spread (n : Nat) (r : El) : VRes := List.replicate n r

/-- A reduction along an axis, or row axis first over the whole register (R160, R192). -/
def reduceEls (f : VFields) (op : Nat → Nat → El) (xs : List Nat) : VRes :=
  let t := f.ty
  if bitW f then
    let rows := (linesOf t false xs).map (treeOf op 12)
    let r := treeOf op 5 (rows.map (·.bits))
    spread t.lanes ⟨r.bits, rows.foldl (fun a x => a ||| x.fl) r.fl⟩
  else onLines f false (fun l => spread l.length (treeOf op 12 l)) xs

/-- An instruction that reduces with an identity. -/
def vReduce (f : VFields) (e : Nat) (op : Nat → Nat → El) (s : State) : Out :=
  elementWord (longLen f) f (unaryShape f.ty)
    (fun i => reduceEls f op (withIdentity e (activity i.cells f.ty) (els f.ty i.a))) s

def execVrsum (f : VFields) (s : State) : Out := vReduce f (sumIdentity f.ty) (sumEl f.ty) s
def execVrmax (f : VFields) (s : State) : Out := vReduce f (maxIdentity f.ty) (fun x y => .quiet (elMax f.ty x y)) s
def execVrmin (f : VFields) (s : State) : Out := vReduce f (minIdentity f.ty) (fun x y => .quiet (elMin f.ty x y)) s

/-- An element in the 32-bit type of VRSUMW. -/
def widen32 (t : VTy) (x : Nat) : Nat := if t.isFloat then fp32.rne ((vfmt t).val x) else patternOf 32 (intVal t x)

/-- VRSUMW: sums of rows, or of the register, in the 32-bit type. -/
def execVrsumw (f : VFields) (s : State) : Out :=
  let t := f.ty
  let d := dotTy t
  elementWord (longLen f) f { src := t, dst := d }
    (fun i =>
      let xs := withIdentity (sumIdentity d) (activity i.cells t) ((els t i.a).map (widen32 t))
      let rows := (linesOf t false xs).map (treeOf (sumEl d) 12)
      if bitW f then
        let r := treeOf (sumEl d) 5 (rows.map (·.bits))
        spread 256 ⟨r.bits, rows.foldl (fun a x => a ||| x.fl) r.fl⟩
      else rows.flatMap (spread 16)) s

/-- Inclusive prefix sums from a running sum on. -/
def scanFrom (t : VTy) : Nat → List Nat → VRes
  | _, [] => []
  | acc, x :: rest =>
    let r := sumEl t acc x
    r :: scanFrom t r.bits rest

/-- VSCAN: with W the register in element order. -/
def execVscan (f : VFields) (s : State) : Out :=
  let t := f.ty
  elementWord (longLen f) f (unaryShape t)
    (fun i => onLines f (bitW f) (scanFrom t (sumIdentity t)) (withIdentity (sumIdentity t) (activity i.cells t) (els t i.a))) s

/-! ## Keys with an index (R193) -/

/-- A key of a set with its index, if it takes part. -/
structure Keyed where
  on : Bool
  key : Nat
  idx : Nat
  deriving DecidableEq, Repr

/-- Whether a key beats another: greater (or less), and of equals the smaller index. -/
def beats (t : VTy) (big : Bool) (a b : Keyed) : Bool :=
  let above := if big then elBelow t b.key a.key else elBelow t a.key b.key
  let below := if big then elBelow t a.key b.key else elBelow t b.key a.key
  above || (!below && a.idx < b.idx)

/-- The winner of a set. -/
def winner (t : VTy) (big : Bool) : List Keyed → Option Keyed
  | [] => none
  | a :: rest =>
    match winner t big rest with
    | none => if a.on && !elNan t a.key then some a else none
    | some b => if a.on && !elNan t a.key && beats t big a b then some a else some b

/-- The result of a set: its winner, or the identity with index all ones. -/
def winnerOf (t : VTy) (big : Bool) (l : List Keyed) : Nat × Nat :=
  match winner t big l with
  | some k => (k.key, k.idx)
  | none => (if big then maxIdentity t else minIdentity t, 2 ^ 32 - 1)

/-- VRMAXI and VRMINI. -/
def vArgReduce (big : Bool) (f : VFields) (s : State) : Out :=
  let t := f.ty
  elementWord (longLen f) f { src := t, dst := t, nb := 1, nd := 2 }
    (fun i =>
      let ks := ((activity i.cells t).zip ((els t i.a).zip (els .n32 i.b))).map fun p => (⟨p.1, p.2.1, p.2.2⟩ : Keyed)
      let rs := onLines f (bitW f) (fun l => List.replicate l.length (winnerOf t big l)) ks
      quietEls (rs.map (·.1) ++ rs.map (·.2))) s

def execVrmaxi (f : VFields) (s : State) : Out := vArgReduce true f s
def execVrmini (f : VFields) (s : State) : Out := vArgReduce false f s

/-! ## Permutations (R195) -/

/-- VPERM: position p takes the element at x mod N, x read unsigned from vb. -/
def execVperm (f : VFields) (s : State) : Out :=
  let t := f.ty
  elementWord (longLen f) f (binaryShape t)
    (fun i =>
      quietEls (onLines f (bitW f)
        (fun l => let src := l.map (·.1); l.map fun p => src[p.2 % l.length]?.getD 0) ((els t i.a).zip (els t i.b)))) s

/-- VTRN: blocks of 16 rows by 16 positions, transposed. -/
def execVtrn (f : VFields) (s : State) : Out :=
  let t := f.ty
  elementWord (longLen f) f (unaryShape t)
    (fun i =>
      let rows := (linesOf t false (els t i.a)).map fun r => chunks 16 (t.lanes / 256) r
      let blocks := (transposed (t.lanes / 256) rows).map (transposed 16)
      quietEls (transposed 16 blocks).flatten.flatten) s

/-- VZIP: the pairs of the lower or the upper half of each line. -/
def execVzip (f : VFields) (s : State) : Out :=
  let t := f.ty
  elementWord (longLen f) f (binaryShape t)
    (fun i =>
      quietEls (onLines f false
        (fun l =>
          let n := l.length / 2
          let l := if bitW f then l.drop n else l.take n
          l.flatMap fun p => [p.1, p.2]) ((els t i.a).zip (els t i.b)))) s

/-- Every other item from the first on. -/
def evens {α : Type} : List α → List α
  | [] => []
  | [x] => [x]
  | x :: _ :: rest => x :: evens rest

/-- VUZP: the even (or odd) positions of va, then of vb. -/
def execVuzp (f : VFields) (s : State) : Out :=
  let t := f.ty
  elementWord (longLen f) f (binaryShape t)
    (fun i =>
      quietEls (onLines f false
        (fun l =>
          let p := evens (if bitW f then l.drop 1 else l)
          p.map (·.1) ++ p.map (·.2)) ((els t i.a).zip (els t i.b)))) s

/-! ## Compare-exchange, compress, expand (R196, R197) -/

/-- Whether key x stands before key y: by value with −0 below +0, NaNs last and equal. -/
def keyBelow (t : VTy) (x y : Nat) : Bool := if elNan t x then false else elNan t y || elBelow t x y

/-- A position of VCXS. -/
structure Cx where
  on : Bool
  key : Nat
  load : Nat
  deriving DecidableEq, Repr

/-- What position p of a line receives in a stage with partner p xor 2^K. -/
def cxAt (t : VTy) (k sBit : Nat) (l : List Cx) (p : Nat) (me : Cx) : Cx :=
  let q := p ^^^ 2 ^ k
  match l[q]? with
  | none => me
  | some other =>
    let lo := min p q
    let up := sBit == 15 || !lo.testBit sBit
    let (a, b) := if p < q then (me, other) else (other, me)
    let swap := a.on && b.on && ((up && keyBelow t b.key a.key) || (!up && keyBelow t a.key b.key))
    if swap then other else me

/-- VCXS -/
def execVcxs (f : VFields) (s : State) : Out :=
  let t := f.ty
  let k := (f.modifier.extractLsb' 0 4).toNat
  let sBit := (f.modifier.extractLsb' 4 4).toNat
  elementWord (longLen f) f { src := t, dst := t, nb := 1, nd := 2 }
    (fun i =>
      let cs := ((activity i.cells t).zip ((els t i.a).zip (els t i.b))).map fun p => (⟨p.1, p.2.1, p.2.2⟩ : Cx)
      let rs := onLines f false (fun l => ((List.range l.length).zip l).map fun (p, c) => cxAt t k sBit l p c) cs
      quietEls (rs.map (·.key) ++ rs.map (·.load))) s

/-- VCOMP: the active elements of each line, then zeros, at every position. -/
def execVcomp (f : VFields) (s : State) : Out :=
  let t := f.ty
  elementWord (longLen f) f { unaryShape t with force := true }
    (fun i =>
      quietEls (onLines f (bitW f)
        (fun l =>
          let xs := (l.filter (·.1)).map (·.2)
          xs ++ List.replicate (l.length - xs.length) 0) ((activity i.cells t).zip (els t i.a)))) s

/-- The active positions of a line take the items of a list in turn. -/
def expandInto : List Bool → List Nat → List Nat
  | [], _ => []
  | false :: act, xs => 0 :: expandInto act xs
  | true :: act, [] => 0 :: expandInto act []
  | true :: act, x :: xs => x :: expandInto act xs

/-- VEXPD -/
def execVexpd (f : VFields) (s : State) : Out :=
  let t := f.ty
  elementWord (longLen f) f (unaryShape t)
    (fun i => quietEls (onLines f (bitW f) (fun l => expandInto (l.map (·.1)) (l.map (·.2))) ((activity i.cells t).zip (els t i.a)))) s

/-! ## Random bits (R198) -/

/-- VRAND: lane L gives elements 4L to 4L + 3. -/
def execVrand (f : VFields) (s : State) : Out :=
  let seq := (f.modifier.extractLsb' 0 8).toNat
  elementWord (longLen f) f { src := .n32, dst := .n32, na := 0 }
    (fun i => quietEls ((List.range 64).flatMap fun l => splitBits 32 4 (srOut i.rnd.key i.rnd.ctr (i.rnd.base + l) seq))) s

end Sys2Proof.Machine
end

