-- ==== Sys2Proof/Machine/MDense.lean ====
section
/-! DEFINITION. Dense words of the M-stream: MMA, MMA.G, MMA.MSK, MMLD and MTRN (R159, R219 to R221, R247 to R252). -/

namespace Sys2Proof.Machine

open Sys2Proof

/-! ## Elements -/

/-- The value of an element by the word's type; an INT8 element is an integer (R247). -/
def denseVal (t : VTy) (x : Nat) : Fl := if t.isFloat then (vfmt t).val x else .ofInt (intVal t x)

/-- Rows of `k` elements from a byte range. -/
def rowsOf (core : Core) (t : VTy) (a rows k : Nat) : List (List Nat) :=
  chunks k rows (splitBits t.bits (rows * k) (memNat core.cs a ((rows * k * t.bits + 7) / 8)))

/-- Columns of B: the rows of a transposed tile, or the columns of a plain one. -/
def columnsOf (trb : Bool) (t : VTy) (k nb : Nat) (x : Nat) : List (List Nat) :=
  if trb then chunks k nb (splitBits t.bits (nb * k) x) else transposed nb (chunks nb k (splitBits t.bits (k * nb) x))

/-! ## Operands -/

/-- A dense B operand: shape, layout and bits. -/
structure DenseB where
  k : Nat
  nb : Nat
  trb : Bool
  bits : Nat
  deriving DecidableEq, Repr

/-- Limits of R247 on K and N_B. -/
def shapeOk (k nb : Nat) : Bool := k % 64 == 0 && 64 ≤ k && k ≤ 4096 && 1 ≤ nb && nb ≤ 32

/-- A B tile as a word reads it. -/
def bTile (core : Core) (t : VTy) (trb : Bool) (x : Word) : Option (DenseB × (Nat × Nat)) :=
  let d := descOf x
  let (k, nb) := if trb then (d.cols, d.rows) else (d.rows, d.cols)
  if d.isData && d.ty == t.code.toNat && shapeOk k nb then some (⟨k, nb, trb, memNat core.cs d.range.1 d.range.2⟩, d.range) else none

/-- The B operand: a tile, or the buffer where locator B is NONE (R249); with the byte range it reads. -/
def denseB (core : Core) (t : VTy) (trb : Bool) : Arg → Option (DenseB × List (Nat × Nat))
  | .tile x => (bTile core t trb x).map fun p => (p.1, [p.2])
  | .none =>
    match core.bbuf with
    | some b => if b.ty == t && !trb && t != .e2m1 then some (⟨b.k, b.nb, b.trb, memNat b.data 0 (b.k * b.nb * t.bits / 8)⟩, []) else none
    | none => none
  | .at _ => none

/-! ## The product (R159, R248) -/

/-- Elements under the scales of their blocks of 32; no scales leave them as they are. -/
def scaledRow (t : VTy) (scales : List Nat) (row : List Nat) : List Fl :=
  if scales.isEmpty then row.map (denseVal t)
  else (scales.zip (chunks 32 scales.length row)).flatMap fun (s, b) => b.map fun x => (denseVal t x).scaled s

/-- The sum of 64 products; a sum of integers that is zero is +0 (R143, R159). -/
def chunkSum (int : Bool) (c : List Fl) : Fl :=
  let x := Fl.sum false c
  if int && x.isZero then .fin false 0 0 else x

/-- The chunks of 64 products, each rounded once. -/
def chunkSums (int : Bool) (a b : List Fl) : List Nat :=
  (chunks 64 (a.length / 64) (List.zipWith Fl.mul a b)).map fun c => fp32.rne (chunkSum int c)

/-- An element that takes its chunks in ascending k. -/
def takeChunks (clr : Bool) (old : Nat) : List Nat → Nat
  | [] => old
  | c :: rest => rest.foldl (accumulate false) (accumulate clr old c)

/-- What a word does at an element: accumulate products, or exact zeros (R250), mask it, or leave it (R221, R247). -/
inductive Cell where
  | add (int : Bool) (a b : List Fl)
  | zeros (n : Nat)
  | mask
  | keep

/-- The tile after the word; the zeros of a missing row are +0 (DESIGN CHOICE, assumption 105). -/
def denseTile (clr : Bool) (old : List Nat) (cells : List Cell) : List Nat :=
  List.zipWith (fun o c => match c with
    | .add int a b => takeChunks clr o (chunkSums int a b)
    | .zeros n => takeChunks clr o (List.replicate n 0)
    | .mask => 0xFF800000
    | .keep => o) old cells

/-- The cells of a tile in element order from the rows of A, the columns of B and a bitmap (all ones where there is none); an empty row
of A stands for a row of zeros. -/
def cellsFor (int : Bool) (as bs : List (List Fl)) (bitmap : Option Nat) : List Cell :=
  (List.range 32).flatMap fun j => (List.range 256).map fun m =>
    match as[m]?, bs[j]? with
    | some [], some b => .zeros (b.length / 64)
    | some a, some b => if (bitmap.map fun x => x.testBit (256 * j + m)).getD true then .add int a b else .mask
    | _, _ => .keep

/-- The scales of B's columns and of A's rows in a scale region (R248). -/
def scaleRow (core : Core) (c k r : Nat) : List Nat := (core.csBytes (c + r * (k / 32)) (k / 32)).map (·.toNat)

/-- The products that a word takes (R141). -/
def macsOf (cells : List Cell) : Nat :=
  cells.foldl (fun n c => match c with
    | .add _ a _ => n + a.length
    | _ => n) 0

/-- The finished word: its tile written. -/
def denseDone (t : VTy) (f : MFields) (as bs : List (List Fl)) (bitmap : Option Nat) (s : State) : State :=
  let y := f.acc.toNat
  let cells := cellsFor (!t.isFloat) as bs bitmap
  let s := mNext (putY y (denseTile f.clr (s.core.getY y) cells) s)
  { s with core := s.core.note 0x12 (macsOf cells) }

/-- Columns of B under their scales. -/
def bColumns (core : Core) (t : VTy) (b : DenseB) (scales : Option Nat) : List (List Fl) :=
  ((List.range b.nb).zip (columnsOf b.trb t b.k b.nb b.bits)).map fun (j, col) =>
    scaledRow t (match scales with | some c => scaleRow core c b.k j | none => []) col

/-- Accumulator tiles that a dense word reads: none with CLR. -/
def denseReads (f : MFields) : List Nat := if f.clr then [] else [f.acc.toNat]

/-- MMA and MMA.MSK: `scaleAt` is the offset of the scale region from locator C, `masked` reads a bitmap there (R248, R251). -/
def mmaWord (op : BitVec 8) (t : VTy) (cc : LocCol) (scaleAt : Option Nat) (masked : Bool) (f : MFields) (s : State) : Out :=
  mWord op false colT colTN cc f s fun x s =>
    let core := s.core
    match x.a, denseB core t f.trb x.b with
    | .tile ax, some (b, br) =>
      let d := descOf ax
      let c := x.c.addr
      let k := b.k
      let sr := match scaleAt with
        | some o => [(c + o, b.nb * (k / 32)), (c + o + k, d.rows * (k / 32))]
        | none => []
      let mr := if masked then [(c, 1024)] else []
      if !d.isData || d.ty != t.code.toNat || d.cols != k || 256 < d.rows then .fault mIllegalOp 0
      else
        mStore (d.range :: br ++ sr ++ mr) [] (denseReads f) [f.acc.toNat] s fun _ =>
          let as := ((List.range d.rows).zip (rowsOf core t d.range.1 d.rows k)).map fun (m, row) =>
            scaledRow t (match scaleAt with | some o => scaleRow core (c + o + k) k m | none => []) row
          let bs := bColumns core t b (scaleAt.map (c + ·))
          .start (denseDone t f as bs (if masked then some (memNat core.cs c 1024) else none) s) {}
    | _, _ => .fault mIllegalOp 0

def execMmaI8 (f : MFields) (s : State) : Out := mmaWord 0x20 .i8 colN none false f s
def execMmaE4m3 (f : MFields) (s : State) : Out := mmaWord 0x21 .e4m3 colN none false f s
def execMmaE5m2 (f : MFields) (s : State) : Out := mmaWord 0x22 .e5m2 colN none false f s
def execMmaBf16 (f : MFields) (s : State) : Out := mmaWord 0x23 .bf16 colN none false f s
def execMmaMx4 (f : MFields) (s : State) : Out := mmaWord 0x24 .e2m1 colS (some 0) false f s
def execMmaMskI8 (f : MFields) (s : State) : Out := mmaWord 0x30 .i8 colS none true f s
def execMmaMskE4m3 (f : MFields) (s : State) : Out := mmaWord 0x31 .e4m3 colS none true f s
def execMmaMskE5m2 (f : MFields) (s : State) : Out := mmaWord 0x32 .e5m2 colS none true f s
def execMmaMskBf16 (f : MFields) (s : State) : Out := mmaWord 0x33 .bf16 colS none true f s
def execMmaMskMx4 (f : MFields) (s : State) : Out := mmaWord 0x34 .e2m1 colS (some 1024) true f s

/-- The index of lane m (R220). -/
def laneIndex (core : Core) (c m : Nat) : Nat := memNat core.cs (c + 2 * m) 2

/-- The byte ranges that a valid index reaches (R220, R250). -/
def indexRanges (t : VTy) (base c k : Nat) (mx : Bool) (idx : Nat) : List (Nat × Nat) :=
  let w := k * t.bits / 8
  if idx = 0xFFFF then [] else (base + idx * w, w) :: (if mx then [(c + 512 + k + idx * (k / 32), k / 32)] else [])

/-- MMA.G (R250): rows gathered by index through one EMPTY slot. The ranges of C and B are checked before the slots, those of the rows, which the
indices name, after them (DESIGN CHOICE, assumption 108). -/
def mmaGather (op : BitVec 8) (t : VTy) (mx : Bool) (f : MFields) (s : State) : Out :=
  mWord op false colS colTN colS f s fun x s =>
    let core := s.core
    match denseB core t f.trb x.b with
    | none => .fault mIllegalOp 0
    | some (b, br) =>
      let base := x.a.addr
      let c := x.c.addr
      let k := b.k
      let bsr := if mx then [(c + 512, b.nb * (k / 32))] else []
      if !((c, 512) :: br ++ bsr).all inStore then .fault mIllegalOp 0
      else
        match freeSlotOf core with
        | .never => .fault mQueue 0
        | .later => .stall s
        | .some i =>
          mStore [(c, 512)] [] [] [] s fun _ =>
            let idx := (List.range 256).map (laneIndex core c)
            mStore (br ++ bsr ++ idx.flatMap (indexRanges t base c k mx)) [] (denseReads f) [f.acc.toNat] s fun _ =>
              let as := idx.map fun r =>
                if r = 0xFFFF then []
                else
                  let row := (rowsOf core t (base + r * (k * t.bits / 8)) 1 k).flatten
                  scaledRow t (if mx then scaleRow core (c + 512 + k) k r else []) row
              let bs := bColumns core t b (if mx then some (c + 512) else none)
              let s := { s with core := core.setSlot i { GatherSlot.none with st := .releasing } }
              .start (denseDone t f as bs none s) { slot := some i }

def execMmaGI8 (f : MFields) (s : State) : Out := mmaGather 0x28 .i8 false f s
def execMmaGE4m3 (f : MFields) (s : State) : Out := mmaGather 0x29 .e4m3 false f s
def execMmaGE5m2 (f : MFields) (s : State) : Out := mmaGather 0x2A .e5m2 false f s
def execMmaGBf16 (f : MFields) (s : State) : Out := mmaGather 0x2B .bf16 false f s
def execMmaGMx4 (f : MFields) (s : State) : Out := mmaGather 0x2C .e2m1 true f s

/-- The types that MMLD takes (R249). -/
def bufferTy (code : Nat) : Option VTy :=
  match code with
  | 0x0 => some .i8
  | 0xB => some .e4m3
  | 0xC => some .e5m2
  | 0xA => some .bf16
  | _ => none

/-- MMLD (R249). -/
def execMmld (f : MFields) (s : State) : Out :=
  mWord 0x35 false colN colT colN f s fun x s =>
    match x.b with
    | .tile bx =>
      match bufferTy (descOf bx).ty with
      | none => .fault mIllegalOp 0
      | some t =>
        match bTile s.core t f.trb bx with
        | none => .fault mIllegalOp 0
        | some (b, r) =>
          if 131072 < r.2 then .fault mIllegalOp 0
          else
            mStore [r] [] [] [] s fun _ =>
              let buf : BBuffer := ⟨t, b.k, b.nb, f.trb, listed 0 (s.core.csBytes r.1 r.2)⟩
              .start (mNext { s with core := { s.core with bbuf := some buf } }) {}
    | _ => .fault mIllegalOp 0

/-- Registers of two descriptors overlap. -/
def regsMeet (a b : Desc) : Bool :=
  rangesMeet (a.base, tileRegs a.kind a.rows a.cols a.ty) (b.base, tileRegs b.kind b.rows b.cols b.ty)

/-- MTRN (R252): locator A is the source, B the destination. -/
def execMtrn (f : MFields) (s : State) : Out :=
  mWord 0x4B false colT colT colN f s fun x s =>
    match x.a, x.b with
    | .tile ax, .tile bx =>
      let a := descOf ax
      let b := descOf bx
      let w := typeBits a.ty
      if !a.isData || !b.isData || a.ty != b.ty || !(w == 8 || w == 16 || w == 32) || b.rows != a.cols || b.cols != a.rows || regsMeet a b then
        .fault mIllegalOp 0
      else
        mStore [a.range] [b.range] [] [] s fun _ =>
          let rows := chunks a.cols a.rows (splitBits w (a.rows * a.cols) (memNat s.core.cs a.range.1 a.range.2))
          .start (mNext (putCore s.cur b.range.1 (leBytes b.range.2 (joinBits w (transposed a.cols rows).flatten)) s)) {}
    | _, _ => .fault mIllegalOp 0

end Sys2Proof.Machine
end

