-- ==== Sys2Proof/Machine/MAccum.lean ====
section
/-! DEFINITION. Accumulator words and the epilogue of the M-stream (R161, R162, R253 to R256). -/

namespace Sys2Proof.Machine

open Sys2Proof

/-! ## Whole tiles (R253) -/

/-- A word that computes its tile from tiles: `rd` are read. -/
def tileWord (op : BitVec 8) (rd : List Nat) (compute : Core → List Nat) (f : MFields) (s : State) : Out :=
  mWord op false colN colN colN f s fun _ s =>
    let y := f.acc.toNat
    mStore [] [] rd [y] s fun _ => .start (mNext (putY y (compute s.core) s)) {}

/-- The source tile of count bits 2:0. -/
def srcTile (f : MFields) : Nat := (f.count.extractLsb' 0 3).toNat

def execYclr (f : MFields) (s : State) : Out := tileWord 0x40 [] (fun _ => List.replicate 8192 0) f s

def execYmov (f : MFields) (s : State) : Out := tileWord 0x43 [srcTile f] (fun k => k.getY (srcTile f)) f s

/-- YADD: both tiles, rounded RNE. -/
def execYadd (f : MFields) (s : State) : Out :=
  tileWord 0x44 [f.acc.toNat, srcTile f] (fun k => List.zipWith (accumulate false) (k.getY f.acc.toNat) (k.getY (srcTile f))) f s

/-- YMAX -/
def execYmax (f : MFields) (s : State) : Out :=
  tileWord 0x45 [f.acc.toNat, srcTile f] (fun k => List.zipWith (elMax .f32) (k.getY f.acc.toNat) (k.getY (srcTile f))) f s

/-- YSCL: e = sext(count, 14). -/
def execYscl (f : MFields) (s : State) : Out :=
  tileWord 0x48 [f.acc.toNat] (fun k => (k.getY f.acc.toNat).map fun x => fp32.rne ((fp32.val x).scale f.count.toInt)) f s

/-- YSWAP -/
def execYswap (f : MFields) (s : State) : Out :=
  mWord 0x49 false colN colN colN f s fun _ s =>
    let y := f.acc.toNat
    let z := srcTile f
    mStore [] [] [y, z] [y, z] s fun _ =>
      let p := s.core.getY y
      let q := s.core.getY z
      .start (mNext (putY z p (putY y q s))) {}

/-- YLD: 32 KiB of the core store. -/
def execYld (f : MFields) (s : State) : Out :=
  mWord 0x41 false colS colN colN f s fun x s =>
    let y := f.acc.toNat
    mStore [(x.a.addr, 0x8000)] [] [] [y] s fun _ => .start (mNext (putY y (u32s (s.core.csBytes x.a.addr 0x8000)) s)) {}

/-- YST -/
def execYst (f : MFields) (s : State) : Out :=
  mWord 0x42 false colS colN colN f s fun x s =>
    let y := f.acc.toNat
    mStore [] [(x.a.addr, 0x8000)] [y] [] s fun _ =>
      .start (mNext (putCore s.cur x.a.addr ((s.core.getY y).flatMap (leBytes 4)) s)) {}

/-- YFILL: by lane, or by column with axis 1. -/
def execYfill (f : MFields) (s : State) : Out :=
  mWord 0x46 false colS colN colN f s fun x s =>
    let y := f.acc.toNat
    let col := f.count.getLsbD 0
    let n := if col then 128 else 1024
    mStore [(x.a.addr, n)] [] [] [y] s fun _ =>
      let xs := u32s (s.core.csBytes x.a.addr n)
      .start (mNext (putY y (if col then xs.flatMap (List.replicate 256) else (List.replicate 32 xs).flatten) s)) {}

/-- YRED (R160, R254). -/
def execYred (f : MFields) (s : State) : Out :=
  mWord 0x47 false colS colN colN f s fun x s =>
    let y := f.acc.toNat
    let col := f.count.getLsbD 0
    let op := if f.count.getLsbD 1 then fun p q => El.quiet (elMax .f32 p q) else sumEl .f32
    mStore [] [(x.a.addr, if col then 128 else 1024)] [y] [] s fun _ =>
      let rows := chunks 256 32 (s.core.getY y)
      let sets := if col then rows else transposed 256 rows
      .start (mNext (putCore s.cur x.a.addr ((sets.map fun l => (treeOf op 9 l).bits).flatMap (leBytes 4)) s)) {}

/-! ## The epilogue (R255, R256) -/

/-- The destination format of an epi code. -/
def epiFmt (e : Nat) : Fmt :=
  match e with
  | 4 => bf16
  | 5 => fp16
  | 6 => e4m3
  | 7 => e5m2
  | 8 => e2m1
  | 9 => e4m3
  | _ => fp32

/-- Bytes that EPI's output spans. -/
def epiSpan (e : Nat) : Nat := if e = 1 then 0x8000 else if e = 4 ∨ e = 5 then 0x4000 else 0x2000

/-- v(j, m) (R161): the element times the scales that are present. -/
def epiVals (f : MFields) (b : Nat) (k : Core) : List (List Fl) :=
  let rs := if f.rs then (u32s (k.csBytes b 1024)).map fp32.val else []
  let cs := if f.cs then (u32s (k.csBytes (b + if f.rs then 1024 else 0) 128)).map fp32.val else []
  ((List.range 32).zip (chunks 256 32 (k.getY f.acc.toNat))).map fun (j, row) =>
    ((List.range 256).zip row).map fun (m, y) =>
      let v := fp32.val y
      let v := if f.rs then v.mul (rs[m]?.getD .nan) else v
      if f.cs then v.mul (cs[j]?.getD .nan) else v

/-- The rounding mode of the word at a lane. -/
def epiMode (f : MFields) (k : Core) (lane : Nat) : Mode := modeCode f.rnd fun _ => srZ k.srkey k.srctr lane f.seq.toNat

/-- One row of requantised values (R162). -/
def epiInts (lo hi : Int) (w : Nat) (params : List Byte) (j : Nat) (row : List Fl) : List Nat :=
  let p := params.drop (8 * j)
  let m := signedOf 32 (leNat (p.take 4))
  row.map fun v => patternOf w (requant v m (byteAt p 4 % 64) lo hi)

/-- The bytes of each row that EPI writes, with their offset from dst, and the scale bytes of a block format. -/
def epiOut (f : MFields) (b c : Nat) (k : Core) : List (Nat × List Byte) × List Byte :=
  let e := f.epi.toNat
  let vs := (List.range 32).zip (epiVals f b k)
  if e = 2 then (vs.map fun (j, row) => (256 * j, (epiInts (-128) 127 8 (k.csBytes c 256) j row).map (BitVec.ofNat 8)), [])
  else if e = 3 then
    let half := if f.count.getLsbD 0 then 128 else 0
    (vs.map fun (j, row) => (256 * j + half, leBytes 128 (joinBits 4 (epiInts (-8) 7 4 (k.csBytes c 256) j row))), [])
  else if e = 8 ∨ e = 9 then
    let fm := epiFmt e
    let scales := (transposed 256 (vs.map (·.2))).map (mxScale fm)
    (vs.map fun (j, row) =>
      let xs := ((List.range 256).zip (scales.zip row)).map fun (m, sc, v) => (mxElem fm (epiMode f k (256 * j + m)) sc v).bits
      (256 * j, if e = 8 then leBytes 128 (joinBits 4 xs) else xs.map (BitVec.ofNat 8)),
     scales.map (BitVec.ofNat 8))
  else
    let fm := epiFmt e
    let n := fm.bits / 8
    (vs.map fun (j, row) =>
      (256 * n * j, ((List.range 256).zip row).flatMap fun (m, v) => leBytes n (fm.ofFl (epiMode f k (256 * j + m)) f.sat v).bits), [])

/-- EPI (R255); the checks of its destination take the whole span (DESIGN CHOICE, assumption 106). -/
def execEpi (f : MFields) (s : State) : Out :=
  let cols := epiCols f
  mWord 0x4A false colS cols.1 cols.2 f s fun x s =>
    let k := s.core
    let e := f.epi.toNat
    let dst := x.a.addr
    let b := x.b.addr
    let c := x.c.addr
    let mx := e == 8 || e == 9
    let brs := if f.rs || f.cs then [(b, (if f.rs then 1024 else 0) + (if f.cs then 128 else 0))] else []
    let crs := if e == 2 || e == 3 then [(c, 256)] else []
    let cws := if mx then [(c, 256)] else []
    if mx && rangesMeet (dst, epiSpan e) (c, 256) then .fault mIllegalOp 0
    else
      mStore (brs ++ crs) ((dst, epiSpan e) :: cws) [f.acc.toNat] [] s fun _ =>
        let out := epiOut f b c k
        let s := out.1.foldl (fun s p => putCore s.cur (dst + p.1) p.2 s) s
        .start (mNext (if mx then putCore s.cur c out.2 s else s)) {}

end Sys2Proof.Machine
end

