-- ==== Sys2Proof/Machine/VConvert.lean ====
section
/-! DEFINITION. Conversions, packing, block formats and requantisation of the V-stream (R152 to R155, R162, R185 to R188). -/

namespace Sys2Proof.Machine

open Sys2Proof

/-- One element converted from type `t` to format `d` (R152). -/
def convertEl (t d : VTy) (r : Rounding) (i : Nat) (x : Nat) : El :=
  if t.isFloat then
    let v := (vfmt t).read r.vm.ftz x
    if d.isFloat then r.float d i v.isNan v else toIntEl d.isSigned d.bits (r.at i) v
  else if d.isFloat then r.float d i false (.ofInt (intVal t x))
  else r.int d (intVal t x)

/-- VCVT (R185). -/
def execVcvt (f : VFields) (s : State) : Out :=
  let t := f.ty
  let d := fmtOf f.vb
  elementWord (longLen f) f { src := t, dst := d, na := max 1 (t.bits / d.bits), nd := max 1 (d.bits / t.bits) }
    (fun i => (triples t i).map fun (n, a, _) => convertEl t d i.rnd n a) s

/-- The type of half the width (R186). -/
def halved (t : VTy) : VTy :=
  match t with
  | .i16 => .i8
  | .n16 => .n8
  | .i32 => .i16
  | .n32 => .n16
  | .i64 => .i32
  | .n64 => .n32
  | _ => .i4

/-- VPACK (R186). -/
def execVpack (f : VFields) (s : State) : Out :=
  let t := f.ty
  let d := halved t
  elementWord (longLen f) f { src := t, dst := d, nb := 1 }
    (fun i => (els t i.a ++ els t i.b).map fun x => i.rnd.int d (intVal t x)) s

/-! ## Block formats (R187) -/

/-- An element of a block with the flags of VMXQ. -/
def mxEl (d : VTy) (r : Rounding) (scale i : Nat) (v : Fl) : El :=
  let f := vfmt d
  let x := mxElem f (r.at i) scale v
  if r.vm.ftz && f.subnormal x.bits then ⟨f.signOnly x.bits, fNX ||| fUF⟩ else ⟨x.bits, x.flags⟩

/-- A block of 32 values from element `base` on: its scale, its elements, its flags. -/
def mxBlock (d : VTy) (r : Rounding) (base : Nat) (vs : List Fl) : Nat × List El × VFlags :=
  let scale := mxScale (vfmt d) vs
  let xs := ((List.range vs.length).zip vs).map fun (i, v) => mxEl d r scale (base + i) v
  let made := vs.any Fl.isInf && !vs.any Fl.isNan
  (scale, xs, xs.foldl (fun f e => f ||| e.fl) (flagIf made fNV))

/-- VMXQ: the element array to vd, the scales to bytes 0–31 of vd + 1. -/
def execVmxq (f : VFields) (s : State) : Out :=
  let t := f.ty
  let d := fmtOf f.vb
  let r := repOf f s.core.vrep
  let sh : VShape := { src := t, dst := d, na := t.bits / 8, nd := 2 }
  .next (finishV (longLen f) r.last s
    (withFrames (regsAt r.va sh.na ++ regsAt r.vd 2)
      (checkedRegs f true (fun r => regsAt r.va sh.na) (fun r => [r.vd]) s.core) s fun s =>
      withSources f sh r s fun i s =>
        let vs := (els t i.a).map ((vfmt t).read i.rnd.vm.ftz)
        let blocks := ((List.range 32).zip (chunks 32 32 vs)).map fun (k, b) => mxBlock d i.rnd (32 * k) b
        let array := joinBits d.bits (blocks.flatMap fun b => b.2.1.map (·.bits))
        let scales := blocks.map fun b => BitVec.ofNat 8 b.1
        let fl := blocks.foldl (fun f b => f ||| b.2.2) 0
        .done fl (putCells (r.vd + 1) (List.range 32) scales (putCore s.cur (r.vd * 0x400) (leBytes 1024 array) s))))

/-- VMXD: elements of va under the scales in bytes 0–31 of va + 1. -/
def execVmxd (f : VFields) (s : State) : Out :=
  let t := f.ty
  let d := fmtOf f.vb
  elementWord (longLen f) f { src := t, dst := t, na := 2, nd := t.bits / 8 }
    (fun i =>
      let xs := splitBits d.bits 1024 (i.a[0]?.getD 0)
      let ss := splitBits 8 32 (i.a[1]?.getD 0)
      ((List.range 1024).zip xs).map fun (n, x) =>
        let scale := ss[n / 32]?.getD 0
        if scale = 0xFF then .quiet ((vfmt t).nan.getD 0)
        else
          let v := (vfmt d).read i.rnd.vm.ftz x
          i.rnd.float t n v.isNan (v.scaled scale)) s

/-! ## Requantisation (R162, R188) -/

/-- The flags of a requantisation, read from R167 (assumption 25). -/
def requantFlags (v : Fl) (mult : Int) (s : Nat) (lo hi : Int) : VFlags :=
  match v with
  | .nan => fNV
  | .inf _ => fOF
  | x =>
    match x.toInt .rne with
    | none => 0
    | some (a, nx) =>
      let b := satInt a (-2 ^ 31) (2 ^ 31 - 1)
      let t := b * mult
      let y := halfAway t s
      flagIf (nx || t % (2 ^ s : Int) != 0) fNX ||| flagIf (b != a || satInt y lo hi != y) fOF

/-- VRQ (R188): 256 results; the elements from 256 on become zero, whatever the mask (DESIGN CHOICE, assumption 98). -/
def execVrq (f : VFields) (s : State) : Out :=
  let d := f.ty
  let r := repOf f s.core.vrep
  let sh := ternaryShape d
  .next (finishV (longLen f) r.last s
    (withFrames (readsOf sh r ++ [r.vd]) (checkedRegs f false (readsOf sh) (fun _ => []) s.core) s fun s =>
      withSources f sh r s fun i s =>
        let lo := intMin true d.bits
        let hi := intMax true d.bits
        let rows := (els .f32 i.a).zip ((els .i32 i.b).zip (els .n32 i.c))
        let act := activity i.cells .f32
        let old := els d [(s.core.getV r.vd).toNat]
        let new := rows.map fun (a, b, c) =>
          let v := fp32.val a
          let m := signedOf 32 b
          (⟨patternOf d.bits (requant v m (c % 64) lo hi), requantFlags v m (c % 64) lo hi⟩ : El)
        let out := ((act.zip (new.zip old)).map fun p => if p.1 then p.2.1.bits else p.2.2) ++ List.replicate (d.lanes - 256) 0
        let per := 8 / d.bits
        let cells := (List.range 1024).filter fun j => 256 ≤ j * per || (List.range per).any fun n => act[j * per + n]?.getD false
        .done (gather act new) (putCells r.vd cells (leBytes 1024 (joinBits d.bits out)) s)))

end Sys2Proof.Machine
end

