-- ==== Sys2Proof/Machine/VFunction.lean ====
section
/-! DEFINITION. The transcendental functions of the V-stream (R189). A result is bracketed by integers and rounded from both ends of
the bracket; where the ends do not agree the value is a constant of Config (assumption 8). -/

namespace Sys2Proof.Machine

open Sys2Proof

/-! ## Fixed-point arithmetic in units of 2^−192 -/

/-- Fraction bits. -/
abbrev fxBits : Nat := 192

/-- One. -/
abbrev fxOne : Nat := 2 ^ 192

/-- ln 2 in units of 2^−192, cut. -/
abbrev fxLn2 : Nat := 0xb17217f7d1cf79abc9e3b39803f2f6af40f343267298b62d

/-- π/2 in units of 2^−448, cut. -/
abbrev halfPi : Nat :=
  0x1921fb54442d18469898cc51701b839a252049c1114cf98e804177d4c76273644a29410f31c6809bbdf2a33679a748636605614dbe4be286e

/-- The product of two fixed-point numbers, cut. -/
def fxMul (a b : Nat) : Nat := (a * b) >>> fxBits

/-- The value m · 2^e as a fixed-point number with `p` fraction bits, cut. -/
def fixed (p m : Nat) (e : Int) : Nat := if 0 ≤ e + p then m <<< (e + p).toNat else m >>> (-(e + p)).toNat

/-- The integer square root, bit by bit. -/
def rootFrom (x : Nat) : Nat → Nat → Nat
  | 0, r => r
  | n + 1, r =>
    let c := r + 2 ^ n
    rootFrom x n (if c * c ≤ x then c else r)

/-- The integer square root of a number. -/
def natRoot (x : Nat) : Nat := rootFrom x (Nat.log2 x / 2 + 1) 0

/-- Σ t·r^j / ((n + 1)(n + 2)…(n + j)), the tail of the exponential series. -/
def expTail (r : Nat) : Nat → Nat → Nat → Nat
  | 0, _, _ => 0
  | fuel + 1, n, t => if t = 0 then 0 else t + expTail r fuel (n + 1) (fxMul t r / n)

/-- e^r for 0 ≤ r < 1. -/
def fxExp (r : Nat) : Nat := expTail r 64 1 fxOne

/-- Σ ± t·q^j / ((n + 1)(n + 2))… with alternating signs: sine and cosine. -/
def trigTail (q : Nat) : Nat → Nat → Nat → Int
  | 0, _, _ => 0
  | fuel + 1, n, t => if t = 0 then 0 else (t : Int) - trigTail q fuel (n + 2) (fxMul t q / ((n + 1) * (n + 2)))

def fxSin (r : Nat) : Nat := (trigTail (fxMul r r) 40 1 r).toNat
def fxCos (r : Nat) : Nat := (trigTail (fxMul r r) 40 0 fxOne).toNat

/-- Σ z·q^j / (2j + 1): the inverse hyperbolic tangent. -/
def atanhTail (q : Nat) : Nat → Nat → Nat → Nat
  | 0, _, _ => 0
  | fuel + 1, n, t => if t = 0 then 0 else t / n + atanhTail q fuel (n + 2) (fxMul t q)

/-- Σ ± t·q^j / (j!(2j + 1)): the error function without its factor. -/
def erfTail (q : Nat) : Nat → Nat → Nat → Int
  | 0, _, _ => 0
  | fuel + 1, n, t => if t = 0 then 0 else ((t / (2 * n + 1) : Nat) : Int) - erfTail q fuel (n + 1) (fxMul t q / (n + 1))

/-! ## Brackets -/

/-- What is known of a result: it is m · 2^e exactly, or it lies strictly between (m − err) and (m + err) units of 2^e. -/
inductive Approx where
  | exact (v : Fl)
  | about (neg : Bool) (m err : Nat) (e : Int)
  | special (v : Fl) (fl : VFlags)
  deriving DecidableEq, Repr

/-- The slack of the fixed-point computations. -/
abbrev slack : Nat := 2 ^ 40

/-- A value a little above or a little below a number near 1: 1 ± ε, in units of 2^−60. -/
def nearOne (neg above : Bool) (half : Int) : Approx :=
  .about neg (if above then 2 ^ 60 + 1 else 2 ^ 60 - 1) 1 (half - 60)

/-- A value a little below x in magnitude. -/
def justBelow (neg : Bool) (m : Nat) (e : Int) : Approx := .about neg (m * 2 ^ 60 - 1) 1 (e - 60)

/-- −x or x in fixed point as an integer. -/
def fxSigned (neg : Bool) (p m : Nat) (e : Int) : Int := if neg then -(fixed p m e : Int) else fixed p m e

/-- e^x for a fixed-point x as a mantissa in fixed point and a power of two. -/
def expParts (x : Int) : Nat × Int :=
  let k := x / (fxLn2 : Int)
  (fxExp (x % (fxLn2 : Int)).toNat, k)

/-- 2^x. -/
def exp2Of (neg : Bool) (m : Nat) (e : Int) : Approx :=
  let top := e + Nat.log2 m
  if 9 ≤ top then .about false (2 ^ 70) 1 (if neg then -1000 else 1000)
  else if top < -60 then nearOne false (!neg) 0
  else
    let x := fxSigned neg fxBits m e
    let k := x / (fxOne : Int)
    let f := (x % (fxOne : Int)).toNat
    if f = 0 then .exact (.fin false 1 k) else .about false (fxExp (fxMul f fxLn2)) slack (k - fxBits)

/-- log2 of a positive value. -/
def log2Of (m : Nat) (e : Int) : Approx :=
  let l := Nat.log2 m
  let x := fixed fxBits m (-(l : Int))
  let k : Int := e + l
  if x = fxOne then .exact (.ofInt k)
  else
    let big := 0x16A09E667F3BCC908 <<< 128 < x
    let x := if big then x / 2 else x
    let k := if big then k + 1 else k
    let below := x < fxOne
    let d := if below then fxOne - x else x - fxOne
    let z := (d <<< fxBits) / (x + fxOne)
    let a := atanhTail (fxMul z z) 60 1 z
    let frac := ((2 * a) <<< fxBits) / fxLn2
    let t : Int := k * fxOne + (if below then -(frac : Int) else frac)
    .about (t < 0) t.natAbs slack (-fxBits)

/-- 1/x of a finite nonzero value. -/
def rcpOf (neg : Bool) (m : Nat) (e : Int) : Approx :=
  if 2 ^ 100 % m = 0 then .exact (.fin neg (2 ^ 100 / m) (-e - 100)) else .about neg (2 ^ 100 / m + 1) 1 (-e - 100)

/-- A mantissa with an even exponent. -/
def evenExp (m : Nat) (e : Int) : Nat × Int := if e % 2 = 0 then (m, e) else (2 * m, e - 1)

/-- √x of a positive value. -/
def sqrtOf (m : Nat) (e : Int) : Approx :=
  let (m, e) := evenExp m e
  let r := natRoot (m <<< 160)
  if r * r = m <<< 160 then .exact (.fin false r (e / 2 - 80)) else .about false (r + 1) 1 (e / 2 - 80)

/-- 1/√x of a positive value. -/
def rsqOf (m : Nat) (e : Int) : Approx :=
  let (m, e) := evenExp m e
  let r := natRoot (2 ^ 240 / m)
  if r * r * m = 2 ^ 240 then .exact (.fin false r (-(e / 2) - 120)) else .about false (r + 1) 1 (-(e / 2) - 120)

/-- A fixed-point number with a sign. -/
def fxAbout (neg : Bool) (x : Nat) : Approx := .about neg x slack (-fxBits)

/-- The quadrant of a magnitude and what is left of it. -/
def quadrant (m : Nat) (e : Int) : Nat × Nat :=
  let x := fixed 448 m e
  (x / halfPi % 4, (x % halfPi) >>> 256)

/-- sin of a finite nonzero value. -/
def sinOf (neg : Bool) (m : Nat) (e : Int) : Approx :=
  if e + Nat.log2 m < -40 then justBelow neg m e
  else
    let (q, r) := quadrant m e
    fxAbout (neg != decide (2 ≤ q)) (if q % 2 = 0 then fxSin r else fxCos r)

/-- cos of a finite nonzero value. -/
def cosOf (m : Nat) (e : Int) : Approx :=
  if e + Nat.log2 m < -40 then nearOne false false 0
  else
    let (q, r) := quadrant m e
    fxAbout (q == 1 || q == 2) (if q % 2 = 0 then fxCos r else fxSin r)

/-- tanh of a finite nonzero value. -/
def tanhOf (neg : Bool) (m : Nat) (e : Int) : Approx :=
  if e + Nat.log2 m < -40 then justBelow neg m e
  else if 20 * fxOne ≤ fixed fxBits m (min e 16) then nearOne neg false 0
  else
    let (f, k) := expParts (2 * fixed fxBits m e)
    let x := f <<< k.toNat
    .about neg (((x - fxOne) <<< fxBits) / (x + fxOne)) slack (-fxBits)

/-- 1/(1 + e^−x) of a finite nonzero value. -/
def sigmOf (neg : Bool) (m : Nat) (e : Int) : Approx :=
  if e + Nat.log2 m < -60 then nearOne false (!neg) (-1)
  else
    let x := fixed fxBits m (min e 16)
    if !neg && 45 * fxOne ≤ x then nearOne false false 0
    else if neg && 400 * fxOne ≤ x then .about false 2 1 (-500)
    else
      let (f, k) := expParts (if neg then (x : Int) else -(x : Int))
      let y := fixed 0 f k
      let m := 2 ^ (2 * fxBits + 600) / (fxOne + y)
      .about false m (m / 2 ^ 160 + 2 ^ 64) (-(fxBits + 600))

/-- erf of a finite nonzero value. -/
def erfOf (neg : Bool) (m : Nat) (e : Int) : Approx :=
  if 6 * fxOne ≤ fixed fxBits m (min e 16) then nearOne neg false 0
  else
    let x := fixed fxBits m e
    let q := fxMul x x
    let g := (erfTail q 300 0 fxOne).toNat
    -- 2/√π · Σ, the factor as √(4/π) = √(2/(π/2))
    let c := natRoot ((2 <<< (2 * fxBits + 448)) / halfPi)
    let h := fxMul g c
    if e + Nat.log2 m < -40 then .about neg (m * h) (m * slack) (e - fxBits)
    else .about neg (fxMul x h) (if x < fxOne then slack else 2 ^ 72) (-fxBits)

/-! ## Rounding of a bracket -/

/-- One end of a bracket rounded. -/
def roundEnd (f : Fmt) (mode : Mode) (sat ftz neg : Bool) (m : Nat) (e : Int) : El :=
  let r := f.round mode sat neg m e true
  if ftz && f.subnormal r.bits then ⟨f.signOnly r.bits, fNX ||| fUF⟩ else ⟨r.bits, r.flags⟩

/-- The rounded result of a function at element `i`; `op` and `x` name the open case. -/
def finishFn (t : VTy) (op : BitVec 8) (r : Rounding) (i : Nat) (x : Nat) (a : Approx) : El :=
  match a with
  | .exact v => r.float t i false v
  | .special v fl => ⟨((vfmt t).ofFl .rne false v).bits, fl⟩
  | .about neg m err e =>
    let lo := roundEnd (vfmt t) (r.at i) r.vm.sat r.vm.ftz neg (m - err) e
    let hi := roundEnd (vfmt t) (r.at i) r.vm.sat r.vm.ftz neg (m + err - 1) e
    if lo = hi then lo
    else ⟨(Config.roundingCase op (BitVec.ofNat 32 x) (BitVec.ofNat 32 i)).toNat % 2 ^ t.bits, lo.fl⟩

/-- A function from its values at the special operands and at finite nonzero ones. -/
def fnWord (len : Nat) (f : VFields) (op : BitVec 8) (zero inf : Bool → Approx) (fin : Bool → Nat → Int → Approx) (s : State) : Out :=
  let t := f.ty
  elementWord len f (unaryShape t)
    (fun i => (triples t i).map fun (n, x, _) =>
      finishFn t op i.rnd n x
        (match (vfmt t).read i.rnd.vm.ftz x with
         | .nan => .special .nan 0
         | .inf neg => inf neg
         | .fin neg m e => if m = 0 then zero neg else fin neg m e)) s

/-- Exact values that functions take. -/
def zeroOf (neg : Bool) : Approx := .exact (.fin neg 0 0)
def oneOf (neg : Bool) : Approx := .exact (.fin neg 1 0)
def infOf (neg : Bool) : Approx := .exact (.inf neg)
def invalid : Approx := .special .nan fNV

def vExp2 (len : Nat) (f : VFields) (s : State) : Out :=
  fnWord len f 0x70 (fun _ => oneOf false) (fun neg => if neg then zeroOf false else infOf false) exp2Of s

def execVexp2 (f : VFields) (s : State) : Out := vExp2 (longLen f) f s
def execVexp2F32Short (vd va : BitVec 11) (s : State) : Out := vExp2 1 (shortUnary .f32 vd va) s

def execVlog2 (f : VFields) (s : State) : Out :=
  fnWord (longLen f) f 0x71 (fun _ => .special (.inf true) fDZ) (fun neg => if neg then invalid else infOf false)
    (fun neg m e => if neg then invalid else log2Of m e) s

def execVrcp (f : VFields) (s : State) : Out := fnWord (longLen f) f 0x72 (fun neg => .special (.inf neg) fDZ) zeroOf rcpOf s

def execVrsq (f : VFields) (s : State) : Out :=
  fnWord (longLen f) f 0x73 (fun neg => .special (.inf neg) fDZ) (fun neg => if neg then invalid else zeroOf false)
    (fun neg m e => if neg then invalid else rsqOf m e) s

def execVsqrt (f : VFields) (s : State) : Out :=
  fnWord (longLen f) f 0x74 zeroOf (fun neg => if neg then invalid else infOf false)
    (fun neg m e => if neg then invalid else sqrtOf m e) s

def execVsin (f : VFields) (s : State) : Out := fnWord (longLen f) f 0x75 zeroOf (fun _ => invalid) sinOf s
def execVcos (f : VFields) (s : State) : Out := fnWord (longLen f) f 0x76 (fun _ => oneOf false) (fun _ => invalid) (fun _ m e => cosOf m e) s

/-- VTANH and VERF of −0: the sign is open (assumption 26). -/
def oddZeroOf (op : BitVec 8) (neg : Bool) : Approx := zeroOf (neg && Config.oddZero op)

def execVtanh (f : VFields) (s : State) : Out := fnWord (longLen f) f 0x77 (oddZeroOf 0x77) oneOf tanhOf s

def execVsigm (f : VFields) (s : State) : Out :=
  fnWord (longLen f) f 0x78 (fun _ => .exact (.fin false 1 (-1))) (fun neg => if neg then zeroOf false else oneOf false) sigmOf s

def execVerf (f : VFields) (s : State) : Out := fnWord (longLen f) f 0x79 (oddZeroOf 0x79) oneOf erfOf s

end Sys2Proof.Machine
end

