-- ==== Sys2Proof/Machine/VMemory.lean ====
section
/-! DEFINITION. Memory access of the V-stream (R199 to R203), through peer windows too (R419, R424). -/

namespace Sys2Proof.Machine

open Sys2Proof

/-! ## An access under way -/

/-- An element of an access: its first byte cell and its address. -/
abbrev VElem := Nat × Word

/-- The bytes of elements of `w` bytes, by ascending element; `data` holds what a store writes, by byte cell. -/
def vItems (w : Nat) (data : List Byte) (es : List VElem) : List VItem :=
  es.flatMap fun e => (List.range w).map fun i => ⟨e.1 + i, e.2 + w64 i, data[e.1 + i]?.getD 0⟩

/-- Where a byte lies. -/
def VItem.site (s : State) (write : Bool) (x : VItem) : Site := virtSite s s.core.launch true write false x.va

/-- The place of a byte in another part. -/
def VItem.far (s : State) (write : Bool) (x : VItem) : Option (Nat × Nat) :=
  match x.site s write with
  | .peer t o => some (t, o)
  | _ => none

/-- The units of the present V instruction. -/
def Core.vUnits (k : Core) : List Access := k.out.filter fun a => a.dest == .blockV

/-- They are used up. -/
def dropUnits (s : State) : State := { s with core := { s.core with out := s.core.out.filter fun a => a.dest != .blockV } }

/-- Whether a V access waits for what the A-stream has outstanding: an acquire before it (R172, R344), accesses to STRONG pages where it goes to
one (R340, R422), or one that meets its bytes (R337, R347). -/
def vWaits (s : State) (strong : Bool) (meets : Access → Bool) : Bool :=
  let l := s.core.openStrand.filter fun a => a.dest != .blockV
  l.any (·.acq) || (strong && l.any (Access.strong s)) || l.any meets

/-- The bytes of the next unit through a peer window: consecutive addresses inside one 128-byte block (R419). -/
def unitRun : Word → List VItem → List VItem
  | _, [] => []
  | a, x :: rest => if x.va == a && x.va.toNat % 128 != 0 then x :: unitRun (a + 1) rest else []

/-- The first bytes that go together: those of one unit through a peer window, or all that lie in the part itself up to the next one that
does not. -/
def nextRun (s : State) (write : Bool) : List VItem → List VItem
  | [] => []
  | x :: rest =>
    if (x.far s write).isSome then x :: unitRun (x.va + 1) rest
    else x :: rest.takeWhile fun y => (y.far s write).isNone

/-- How an access under way goes on: it is complete, waits, or meets a fault. -/
inductive VStep where
  | over (seen : List (VItem × Byte × Bool)) (s : State)
  | waiting (a : VAcc) (s : State)
  | fault (code : TrapCode) (va : Word)

/-- What a unit's reply holds: bytes with their misses, or a fault (R424). -/
def unitReply (a : Access) (n : Nat) : Except (TrapCode × Word) (List (Byte × Bool)) :=
  match a.got with
  | some (.data bs miss) => .ok (bs.map fun b => (b, miss))
  | some r =>
    match replyTrap r with
    | some c => .error (c, a.va)
    | none => .ok (List.replicate n (0, false))
  | none => .ok []

/-- A store that no parity holder kept is recorded (R445). -/
def keptFar (a : Access) (s : State) : State := if a.got == some .doneNotDurable then noteKept false a.va s else s

/-- Bytes at consecutive addresses. -/
def contiguous : List VItem → List (List VItem)
  | [] => []
  | x :: rest =>
    match contiguous rest with
    | (y :: r) :: more => if y.va == x.va + 1 then (x :: y :: r) :: more else [x] :: (y :: r) :: more
    | _ => [[x]]

/-- Bytes at consecutive addresses of the part itself are written; a protected store that no holder keeps is recorded. -/
def putRunOf (s : State) (run : List VItem) : State :=
  let p := putSites (run.map (VItem.site s true)) (run.map (·.byte)) (strandWriter s) ((run.head?.map (·.va)).getD 0) s
  noteKept p.2 ((run.head?.map (·.va)).getD 0) p.1

/-- Bytes of the part itself are written, by ascending element. -/
def putLocal (s : State) (run : List VItem) : State := (contiguous run).foldl putRunOf s

/-- The access goes on, element by element (R199, R340): bytes of the part itself are moved at once, each unit through a peer window
leaves alone and is awaited. -/
def vGo (kind : ReadKind) (write : Bool) : Nat → VAcc → State → VStep
  | 0, a, s => .waiting a s
  | fuel + 1, a, s =>
    match a.todo with
    | [] => .over a.seen s
    | x :: _ =>
      let run := nextRun s write a.todo
      let rest := a.todo.drop run.length
      match x.far s write with
      | some (slot, o) =>
        match s.core.vUnits with
        | [] =>
          if vWaits s (peerOrder s write slot o == 0) (fun a => !a.counted && a.meets s slot o run.length) then .waiting a s
          else
            .waiting a
              (issueAccess .blockV false (if write then .store false else .load (kind != .kld)) x.va slot o run.length
                (if write then run.map (·.byte) else []) false false s)
        | u :: _ =>
          if u.got.isNone then .waiting a s
          else
            match unitReply u run.length with
            | .error (c, va) => .fault c va
            | .ok got => vGo kind write fuel ⟨rest, a.seen ++ run.zip got⟩ (dropUnits (keptFar u s))
      | none =>
        let sites := run.map (VItem.site s write)
        if vWaits s (run.any fun y => orderAt s y.va == 0) (fun a => a.reaches s (sites.filterMap siteKey)) then .waiting a s
        else if write then
          match readySites sites s with
          | .stop i c => .fault c ((run[i]?.map (·.va)).getD 0)
          | .stall s => .waiting a s
          | .ok _ s => vGo kind write fuel ⟨rest, a.seen⟩ (putLocal s run)
        else
          match readSites kind sites s with
          | .stop i c => .fault c ((run[i]?.map (·.va)).getD 0)
          | .stall s => .waiting a s
          | .ok got s => vGo kind write fuel ⟨rest, a.seen ++ run.zip (got.bytes.zip got.miss)⟩ s

/-- Whether a byte lies in another part, which alone can tell whether it takes a unit (R420). -/
def VItem.away (s : State) (write : Bool) (x : VItem) : Bool := (x.far s write).any fun p => !ownSlot s p.1

/-- The order in which a store's bytes leave: those for other parts first, so that one that is refused there leaves the own part as it was
(R6, R168, R199); ascending elements where STRONG pages ask for it (R340). -/
def storeOrder (s : State) (l : List VItem) : List VItem :=
  let here := l.filter fun x => !x.away s true
  if here.any fun x => match x.far s true with | some (t, o) => peerOrder s true t o == 0 | none => orderAt s x.va == 0 then l
  else l.filter (VItem.away s true) ++ here

/-- The runs of a store's bytes (R419). -/
def runsOfStore (s : State) : Nat → List VItem → List (List VItem)
  | 0, _ => []
  | fuel + 1, l =>
    match nextRun s true l with
    | [] => []
    | r => r :: runsOfStore s fuel (l.drop r.length)

/-- The address of the first unit through the own slot that the part's own export table refuses (R199, R420). -/
def refusedHere (s : State) (l : List VItem) : Option Word :=
  (runsOfStore s l.length l).findSome? fun run =>
    match run.head?.bind fun x => (x.far s true).map fun p => (x.va, p) with
    | some (va, slot, o) =>
      if ownSlot s slot && (exportFor s true o run.length (bank s.fab.fjob (launchFn s s.core.launch))).isNone then some va else none
    | none => none

/-- The 64-byte lines of an access outside the core's own store (R138). -/
def vLines (s : State) (write : Bool) (l : List VItem) : Nat :=
  ((l.filter fun x => !(x.site s write).ownStore s.cur).map fun x => x.va.toNat / 64).eraseDups.length

/-- The access of an instruction: the operands it began with are kept until it is complete (R5). A store checks every byte that lies in the
part itself, or goes there through the own slot, before it writes any, and waits for the pages of all of them (R199); an access waits for
room for its requests (R138). -/
def vAccess (kind : ReadKind) (write : Bool) (begin_ : State → Except VOut (List VItem)) (s : State)
    (finish : List (VItem × Byte × Bool) → State → VOut) : VOut :=
  let go (a : VAcc) (s : State) : VOut :=
    match vGo kind write (a.todo.length + 1) a s with
    | .over seen s => finish seen { s with core := { s.core with vacc := none } }
    | .waiting a s => .stall { s with core := { s.core with vacc := some a } }
    | .fault c va => .trap c va
  match s.core.vacc with
  | some a => go a s
  | none =>
    match begin_ s with
    | .error t => t
    | .ok items =>
      if overLimit s (vLines s write items) then .stall s
      else if write then
        let near := items.filter fun x => (x.far s true).isNone
        match readySites (near.map (VItem.site s true)) s with
        | .stop i c => .trap c ((near[i]?.map (·.va)).getD 0)
        | .stall s => .stall s
        | .ok _ s =>
          match refusedHere s items with
          | some va => .trap .prot va
          | none => go ⟨storeOrder s items, []⟩ s
      else go ⟨items, []⟩ s

/-! ## Addresses -/

/-- The base address (R199). -/
def vBase (f : VFields) (s : State) : Word :=
  w64 (memNat s.core.cs (f.va.toNat * 0x400) 8) + (match f.literal with | some v => v.signExtend 64 | none => 0)

/-- Bytes of the unit of access: an element, or the byte cell of .i4 and .e2m1. -/
def unitBytes (t : VTy) : Nat := max 1 (t.bits / 8)

/-- First byte cells of the active units. -/
def activeUnits (m : Mask) (t : VTy) : List Nat :=
  (List.range (1024 / unitBytes t)).filterMap fun i => if m.getLsbD (i * unitBytes t) then some (i * unitBytes t) else none

/-- Elements of VLD and VST, and by rows with a stride (R200). -/
def rowElems (base : Word) (strideRows : Int) (cells : List Nat) : List VElem :=
  cells.map fun c => (c, base + BitVec.ofInt 64 (64 * (c / 64 : Nat) * strideRows) + w64 (c % 64))

/-- Elements of VLDX and VSTX (R201). -/
def indexElems (t : VTy) (base : Word) (idx : List Nat) (cells : List Nat) : List VElem :=
  let w := unitBytes t
  cells.map fun c => (c, base + BitVec.ofInt 64 (w * signedOf t.bits (idx[c / w]?.getD 0)))

/-- Elements of VSTM (R202). -/
def packedElems (w : Nat) (base : Word) (cells : List Nat) : List VElem :=
  ((List.range cells.length).zip cells).map fun (k, c) => (c, base + w64 (w * k))

/-- The first element with a trap of its own: a misaligned address, then a watched one (R201, R400). -/
def elemTrap (s : State) (align : Nat) (es : List VElem) : Option VOut :=
  match es.find? fun e => e.2.toNat % align != 0 with
  | some e => some (.trap .misalign e.2)
  | none => (es.find? fun e => watchHit s e.2).map fun e => .trap .watch e.2

/-- m15 after a load: the cells of each element show whether it met a miss (R199). -/
def missMask (old : Mask) (w : Nat) (got : List (VItem × Byte × Bool)) : Mask :=
  (chunks w (got.length / w) got).foldl
    (fun m e =>
      match e with
      | [] => m
      | b :: _ =>
        let cells : Mask := BitVec.ofNat 1024 ((2 ^ w - 1) <<< b.1.cell)
        if e.any (·.2.2) then m ||| cells else m &&& ~~~cells) old

/-! ## Instructions -/

/-- How an access to elements of vd begins: the frames and lines of the registers it names, its base, a multiple of `align`, its elements,
each at a multiple of `each`, and their bytes. -/
def vBegin (f : VFields) (align each : Nat) (rd wr : List Nat) (elems : State → Word → List Nat → List VElem) (s : State) :
    Except VOut (List VItem) :=
  if !s.core.hasRegs (rd ++ wr) then .error (.stall (claimRegs (rd ++ wr) s))
  else
    match poisonedReg s.core rd with
    | some x => .error (.trap .uncorr x)
    | none =>
      let a := vBase f s
      let w := unitBytes f.ty
      if a.toNat % align != 0 then .error (.trap .misalign a)
      else
        let es := elems s a (activeUnits (cellsOf f s.core) f.ty)
        match elemTrap s each es with
        | some t => .error t
        | none => .ok (vItems w (leBytes 1024 (s.core.getV f.vd.toNat).toNat) es)

/-- A load of elements into vd. -/
def vLoad (f : VFields) (align each : Nat) (rd : List Nat) (elems : State → Word → List Nat → List VElem) (s : State) : Out :=
  vWord (longLen f) s fun s =>
    vAccess .load false (vBegin f align each rd [f.vd.toNat] elems) s fun got s =>
      let s := putPairs f.vd.toNat (got.map fun g => (g.1.cell, g.2.1)) s
      .done 0 <| noteMiss (got.any (·.2.2))
        { s with core := { s.core with m := bankSet s.core.m 15 (missMask (bank s.core.m 15) (unitBytes f.ty) got) } }

/-- A store of elements of vd, under the same rules. -/
def vStore (f : VFields) (align each : Nat) (rd : List Nat) (elems : State → Word → List Nat → List VElem) (s : State) : Out :=
  vWord (longLen f) s fun s => vAccess .load true (vBegin f align each (f.vd.toNat :: rd) [] elems) s fun _ s => .done 0 s

/-- The row stride of VLDS and VSTS. -/
def rowStride (f : VFields) : Int := f.modifier.toInt

/-- Index elements of vb. -/
def indices (f : VFields) (s : State) : List Nat := els f.ty [(s.core.getV f.vb.toNat).toNat]

def execVld (f : VFields) (s : State) : Out := vLoad f 64 1 [f.va.toNat] (fun _ a => rowElems a 1) s
def execVlds (f : VFields) (s : State) : Out := vLoad f 64 1 [f.va.toNat] (fun _ a => rowElems a (rowStride f)) s
def execVst (f : VFields) (s : State) : Out := vStore f 64 1 [f.va.toNat] (fun _ a => rowElems a 1) s
def execVsts (f : VFields) (s : State) : Out := vStore f 64 1 [f.va.toNat] (fun _ a => rowElems a (rowStride f)) s
def execVldx (f : VFields) (s : State) : Out := vLoad f 1 (unitBytes f.ty) [f.va.toNat, f.vb.toNat] (fun s a => indexElems f.ty a (indices f s)) s
def execVstx (f : VFields) (s : State) : Out := vStore f 1 (unitBytes f.ty) [f.va.toNat, f.vb.toNat] (fun s a => indexElems f.ty a (indices f s)) s
def execVstm (f : VFields) (s : State) : Out :=
  vStore f (unitBytes f.ty) 1 [f.va.toNat] (fun _ a => packedElems (unitBytes f.ty) a) s

/-- The 128 bytes of a mask in memory. -/
def maskElems (a : Word) : List VElem := (List.range 128).map fun i => (i, a + w64 i)

/-- How KLD and KST begin. -/
def maskBegin (f : VFields) (s : State) : Except VOut (List VItem) :=
  if !s.core.hasRegs [f.va.toNat] then .error (.stall (claimRegs [f.va.toNat] s))
  else
    match poisonedReg s.core [f.va.toNat] with
    | some x => .error (.trap .uncorr x)
    | none =>
      let a := vBase f s
      if a.toNat % 64 != 0 then .error (.trap .misalign a)
      else if watchHit s a then .error (.trap .watch a)
      else .ok (vItems 1 (leBytes 128 (s.core.getM (f.vd.extractLsb' 0 4)).toNat) (maskElems a))

/-- KLD (R203): a reply with a miss is an invalid position. -/
def execKld (f : VFields) (s : State) : Out :=
  vWord (longLen f) s fun s =>
    vAccess .kld false (maskBegin f) s fun got s =>
      match got.find? (·.2.2) with
      | some g => .trap .nonres g.1.va
      | none => .done 0 { s with core := s.core.setM (f.vd.extractLsb' 0 4) (BitVec.ofNat 1024 (leNat (got.map (·.2.1)))) }

/-- KST (R203). -/
def execKst (f : VFields) (s : State) : Out :=
  vWord (longLen f) s fun s => vAccess .load true (maskBegin f) s fun _ s => .done 0 s

end Sys2Proof.Machine
end

