-- ==== Sys2Proof/Machine/Dispatch.lean ====
section
/-! DEFINITION. Which meaning each instruction has. -/

namespace Sys2Proof.Machine

open Sys2Proof

/-- One instruction or event. -/
def exec (i : Instr) (s : State) : Host.Outcome State Fault Refusal :=
  match i with
  | .add sd sa sb => Sys2Proof.Machine.execAdd sd sa sb s
  | .sub sd sa sb => Sys2Proof.Machine.execSub sd sa sb s
  | .mul sd sa sb => Sys2Proof.Machine.execMul sd sa sb s
  | .mulh sd sa sb => Sys2Proof.Machine.execMulh sd sa sb s
  | .div sd sa sb => Sys2Proof.Machine.execDiv sd sa sb s
  | .divu sd sa sb => Sys2Proof.Machine.execDivu sd sa sb s
  | .rem sd sa sb => Sys2Proof.Machine.execRem sd sa sb s
  | .remu sd sa sb => Sys2Proof.Machine.execRemu sd sa sb s
  | .and sd sa sb => Sys2Proof.Machine.execAnd sd sa sb s
  | .or sd sa sb => Sys2Proof.Machine.execOr sd sa sb s
  | .xor sd sa sb => Sys2Proof.Machine.execXor sd sa sb s
  | .shl sd sa sb => Sys2Proof.Machine.execShl sd sa sb s
  | .shr sd sa sb => Sys2Proof.Machine.execShr sd sa sb s
  | .sra sd sa sb => Sys2Proof.Machine.execSra sd sa sb s
  | .min sd sa sb => Sys2Proof.Machine.execMin sd sa sb s
  | .max sd sa sb => Sys2Proof.Machine.execMax sd sa sb s
  | .clz sd sa => Sys2Proof.Machine.execClz sd sa s
  | .popc sd sa => Sys2Proof.Machine.execPopc sd sa s
  | .sextI8 sd sa => Sys2Proof.Machine.execSextI8 sd sa s
  | .sextI16 sd sa => Sys2Proof.Machine.execSextI16 sd sa s
  | .sextI32 sd sa => Sys2Proof.Machine.execSextI32 sd sa s
  | .zextN8 sd sa => Sys2Proof.Machine.execZextN8 sd sa s
  | .zextN16 sd sa => Sys2Proof.Machine.execZextN16 sd sa s
  | .zextN32 sd sa => Sys2Proof.Machine.execZextN32 sd sa s
  | .cmpEq pd sa sb => Sys2Proof.Machine.execCmpEq pd sa sb s
  | .cmpNe pd sa sb => Sys2Proof.Machine.execCmpNe pd sa sb s
  | .cmpLt pd sa sb => Sys2Proof.Machine.execCmpLt pd sa sb s
  | .cmpLe pd sa sb => Sys2Proof.Machine.execCmpLe pd sa sb s
  | .cmpLtu pd sa sb => Sys2Proof.Machine.execCmpLtu pd sa sb s
  | .cmpLeu pd sa sb => Sys2Proof.Machine.execCmpLeu pd sa sb s
  | .cmpAll pd sa sb => Sys2Proof.Machine.execCmpAll pd sa sb s
  | .cmpAny pd sa sb => Sys2Proof.Machine.execCmpAny pd sa sb s
  | .pand pd pa pb inv => Sys2Proof.Machine.execPand pd pa pb inv s
  | .por pd pa pb inv => Sys2Proof.Machine.execPor pd pa pb inv s
  | .sel sd pk sa sb => Sys2Proof.Machine.execSel sd pk sa sb s
  | .amoAdd sd sa sb size ord => Sys2Proof.Machine.execAmoAdd sd sa sb size ord s
  | .amoAnd sd sa sb size ord => Sys2Proof.Machine.execAmoAnd sd sa sb size ord s
  | .amoOr sd sa sb size ord => Sys2Proof.Machine.execAmoOr sd sa sb size ord s
  | .amoXor sd sa sb size ord => Sys2Proof.Machine.execAmoXor sd sa sb size ord s
  | .amoMin sd sa sb size ord => Sys2Proof.Machine.execAmoMin sd sa sb size ord s
  | .amoMax sd sa sb size ord => Sys2Proof.Machine.execAmoMax sd sa sb size ord s
  | .amoMinu sd sa sb size ord => Sys2Proof.Machine.execAmoMinu sd sa sb size ord s
  | .amoMaxu sd sa sb size ord => Sys2Proof.Machine.execAmoMaxu sd sa sb size ord s
  | .swap sd sa sb size ord => Sys2Proof.Machine.execSwap sd sa sb size ord s
  | .cas sd sa sb size ord => Sys2Proof.Machine.execCas sd sa sb size ord s
  | .amoFadd sd sa sb f32 ord => Sys2Proof.Machine.execAmoFadd sd sa sb f32 ord s
  | .addi sd sa imm => Sys2Proof.Machine.execAddi sd sa imm s
  | .andi sd sa imm => Sys2Proof.Machine.execAndi sd sa imm s
  | .ori sd sa imm => Sys2Proof.Machine.execOri sd sa imm s
  | .xori sd sa imm => Sys2Proof.Machine.execXori sd sa imm s
  | .shli sd sa amount => Sys2Proof.Machine.execShli sd sa amount s
  | .shri sd sa amount => Sys2Proof.Machine.execShri sd sa amount s
  | .srai sd sa amount => Sys2Proof.Machine.execSrai sd sa amount s
  | .cmpiEq pd sa imm => Sys2Proof.Machine.execCmpiEq pd sa imm s
  | .cmpiLt pd sa imm => Sys2Proof.Machine.execCmpiLt pd sa imm s
  | .cmpiLtu pd sa imm => Sys2Proof.Machine.execCmpiLtu pd sa imm s
  | .movi sd imm => Sys2Proof.Machine.execMovi sd imm s
  | .lsi sd imm => Sys2Proof.Machine.execLsi sd imm s
  | .addpc sd imm => Sys2Proof.Machine.execAddpc sd imm s
  | .pb b hint disp => Sys2Proof.Machine.execPb b hint disp s
  | .br b pk sense => Sys2Proof.Machine.execBr b pk sense s
  | .brl b pk sense link => Sys2Proof.Machine.execBrl b pk sense link s
  | .bloop b pk sense lc => Sys2Proof.Machine.execBloop b pk sense lc s
  | .ldI8 sd sa ord strict off => Sys2Proof.Machine.execLdI8 sd sa ord strict off s
  | .ldN8 sd sa ord strict off => Sys2Proof.Machine.execLdN8 sd sa ord strict off s
  | .ldI16 sd sa ord strict off => Sys2Proof.Machine.execLdI16 sd sa ord strict off s
  | .ldN16 sd sa ord strict off => Sys2Proof.Machine.execLdN16 sd sa ord strict off s
  | .ldI32 sd sa ord strict off => Sys2Proof.Machine.execLdI32 sd sa ord strict off s
  | .ldN32 sd sa ord strict off => Sys2Proof.Machine.execLdN32 sd sa ord strict off s
  | .ldB64 sd sa ord strict off => Sys2Proof.Machine.execLdB64 sd sa ord strict off s
  | .ldq q sa acq strict off => Sys2Proof.Machine.execLdq q sa acq strict off s
  | .stB8 sd sa ord off => Sys2Proof.Machine.execStB8 sd sa ord off s
  | .stB16 sd sa ord off => Sys2Proof.Machine.execStB16 sd sa ord off s
  | .stB32 sd sa ord off => Sys2Proof.Machine.execStB32 sd sa ord off s
  | .stB64 sd sa ord off => Sys2Proof.Machine.execStB64 sd sa ord off s
  | .fence scope ord paths => Sys2Proof.Machine.execFence scope ord paths s
  | .semSig sem sa => Sys2Proof.Machine.execSemSig sem sa s
  | .semAcq sd sem sa => Sys2Proof.Machine.execSemAcq sd sem sa s
  | .semRd sd sem => Sys2Proof.Machine.execSemRd sd sem s
  | .mqpush mq sa => Sys2Proof.Machine.execMqpush mq sa s
  | .qpop sd src => Sys2Proof.Machine.execQpop sd src s
  | .mqFlush sd which => Sys2Proof.Machine.execMqFlush sd which s
  | .cpFlush sd => Sys2Proof.Machine.execCpFlush sd s
  | .cp sa => Sys2Proof.Machine.execCp sa s
  | .cpBolt sa => Sys2Proof.Machine.execCpBolt sa s
  | .cpQ q sa => Sys2Proof.Machine.execCpQ q sa s
  | .spawn sd sa => Sys2Proof.Machine.execSpawn sd sa s
  | .suspend sa => Sys2Proof.Machine.execSuspend sa s
  | .exit => Sys2Proof.Machine.execExit s
  | .seam id => Sys2Proof.Machine.execSeam id s
  | .waitM sd sa size => Sys2Proof.Machine.execWaitM sd sa size s
  | .spin => Sys2Proof.Machine.execSpin s
  | .pagereq sa => Sys2Proof.Machine.execPagereq sa s
  | .crr sd num => Sys2Proof.Machine.execCrr sd num s
  | .crw num sa => Sys2Proof.Machine.execCrw num sa s
  | .settc t sa => Sys2Proof.Machine.execSettc t sa s
  | .trap code => Sys2Proof.Machine.execTrap code s
  | .grd sense pk => Sys2Proof.Machine.execGrd sense pk s
  | .pbr b sa hint => Sys2Proof.Machine.execPbr b sa hint s
  | .lcset lc sa => Sys2Proof.Machine.execLcset lc sa s
  | .join sd sa => Sys2Proof.Machine.execJoin sd sa s
  | .leave sd sa => Sys2Proof.Machine.execLeave sd sa s
  | .barNew sd pk sa => Sys2Proof.Machine.execBarNew sd pk sa s
  | .barArv sd sa => Sys2Proof.Machine.execBarArv sd sa s
  | .barWt sd sa sb => Sys2Proof.Machine.execBarWt sd sa sb s
  | .barRel sa => Sys2Proof.Machine.execBarRel sa s
  | .mpath sd sa sb => Sys2Proof.Machine.execMpath sd sa sb s
  | .lqPost sd sa sb => Sys2Proof.Machine.execLqPost sd sa sb s
  | .pnlDef sd pk sa => Sys2Proof.Machine.execPnlDef sd pk sa s
  | .kvbMap sd pk alloc sa => Sys2Proof.Machine.execKvbMap sd pk alloc sa s
  | .kvbShare sd sa sb => Sys2Proof.Machine.execKvbShare sd sa sb s
  | .kvbFree sd sa => Sys2Proof.Machine.execKvbFree sd sa s
  | .kvbInval sd sa sb => Sys2Proof.Machine.execKvbInval sd sa sb s
  | .netPost sd sa => Sys2Proof.Machine.execNetPost sd sa s
  | .netWait sd sa sb => Sys2Proof.Machine.execNetWait sd sa sb s
  | .msgSend sd sa => Sys2Proof.Machine.execMsgSend sd sa s
  | .msgRecv sd sa => Sys2Proof.Machine.execMsgRecv sd sa s
  | .nop x => Sys2Proof.Machine.execNop x s
  | .vnop f => Sys2Proof.Machine.execVnop f s
  | .vseam f => Sys2Proof.Machine.execVseam f s
  | .vhalt f => Sys2Proof.Machine.execVhalt f s
  | .vwait f => Sys2Proof.Machine.execVwait f s
  | .vsig f => Sys2Proof.Machine.execVsig f s
  | .vjmp f => Sys2Proof.Machine.execVjmp f s
  | .vloop f => Sys2Proof.Machine.execVloop f s
  | .vmov f => Sys2Proof.Machine.execVmov f s
  | .vmovi f => Sys2Proof.Machine.execVmovi f s
  | .vins f => Sys2Proof.Machine.execVins f s
  | .vswap f => Sys2Proof.Machine.execVswap f s
  | .vpop f => Sys2Proof.Machine.execVpop f s
  | .vpush f => Sys2Proof.Machine.execVpush f s
  | .vqdrop f => Sys2Proof.Machine.execVqdrop f s
  | .vadd f => Sys2Proof.Machine.execVadd f s
  | .vsub f => Sys2Proof.Machine.execVsub f s
  | .vmul f => Sys2Proof.Machine.execVmul f s
  | .vmulh f => Sys2Proof.Machine.execVmulh f s
  | .vfma f => Sys2Proof.Machine.execVfma f s
  | .vfms f => Sys2Proof.Machine.execVfms f s
  | .vfnma f => Sys2Proof.Machine.execVfnma f s
  | .vmin f => Sys2Proof.Machine.execVmin f s
  | .vmax f => Sys2Proof.Machine.execVmax f s
  | .vabs f => Sys2Proof.Machine.execVabs f s
  | .vneg f => Sys2Proof.Machine.execVneg f s
  | .vavg f => Sys2Proof.Machine.execVavg f s
  | .vabsd f => Sys2Proof.Machine.execVabsd f s
  | .vclamp f => Sys2Proof.Machine.execVclamp f s
  | .vsign f => Sys2Proof.Machine.execVsign f s
  | .vscale f => Sys2Proof.Machine.execVscale f s
  | .vdot4 f => Sys2Proof.Machine.execVdot4 f s
  | .vdot2 f => Sys2Proof.Machine.execVdot2 f s
  | .vmulw f => Sys2Proof.Machine.execVmulw f s
  | .vaddw f => Sys2Proof.Machine.execVaddw f s
  | .vrint f => Sys2Proof.Machine.execVrint f s
  | .vmulq f => Sys2Proof.Machine.execVmulq f s
  | .vlut f => Sys2Proof.Machine.execVlut f s
  | .vfrexp f => Sys2Proof.Machine.execVfrexp f s
  | .vcmpEq f => Sys2Proof.Machine.execVcmpEq f s
  | .vcmpNe f => Sys2Proof.Machine.execVcmpNe f s
  | .vcmpLt f => Sys2Proof.Machine.execVcmpLt f s
  | .vcmpLe f => Sys2Proof.Machine.execVcmpLe f s
  | .vcmpUnord f => Sys2Proof.Machine.execVcmpUnord f s
  | .vcmpOrd f => Sys2Proof.Machine.execVcmpOrd f s
  | .vsel f => Sys2Proof.Machine.execVsel f s
  | .vclass f => Sys2Proof.Machine.execVclass f s
  | .kand f => Sys2Proof.Machine.execKand f s
  | .kor f => Sys2Proof.Machine.execKor f s
  | .kxor f => Sys2Proof.Machine.execKxor f s
  | .knot f => Sys2Proof.Machine.execKnot f s
  | .kpopc f => Sys2Proof.Machine.execKpopc f s
  | .kfirst f => Sys2Proof.Machine.execKfirst f s
  | .vtok f => Sys2Proof.Machine.execVtok f s
  | .ktov f => Sys2Proof.Machine.execKtov f s
  | .kset f => Sys2Proof.Machine.execKset f s
  | .vand f => Sys2Proof.Machine.execVand f s
  | .vor f => Sys2Proof.Machine.execVor f s
  | .vxor f => Sys2Proof.Machine.execVxor f s
  | .vnot f => Sys2Proof.Machine.execVnot f s
  | .vandn f => Sys2Proof.Machine.execVandn f s
  | .vbsel f => Sys2Proof.Machine.execVbsel f s
  | .vshl f => Sys2Proof.Machine.execVshl f s
  | .vshr f => Sys2Proof.Machine.execVshr f s
  | .vsra f => Sys2Proof.Machine.execVsra f s
  | .vclz f => Sys2Proof.Machine.execVclz f s
  | .vpopc f => Sys2Proof.Machine.execVpopc f s
  | .vbrev f => Sys2Proof.Machine.execVbrev f s
  | .vcvt f => Sys2Proof.Machine.execVcvt f s
  | .vpack f => Sys2Proof.Machine.execVpack f s
  | .vunpk f => Sys2Proof.Machine.execVunpk f s
  | .vmxq f => Sys2Proof.Machine.execVmxq f s
  | .vmxd f => Sys2Proof.Machine.execVmxd f s
  | .vrq f => Sys2Proof.Machine.execVrq f s
  | .vexp2 f => Sys2Proof.Machine.execVexp2 f s
  | .vlog2 f => Sys2Proof.Machine.execVlog2 f s
  | .vrcp f => Sys2Proof.Machine.execVrcp f s
  | .vrsq f => Sys2Proof.Machine.execVrsq f s
  | .vsqrt f => Sys2Proof.Machine.execVsqrt f s
  | .vsin f => Sys2Proof.Machine.execVsin f s
  | .vcos f => Sys2Proof.Machine.execVcos f s
  | .vtanh f => Sys2Proof.Machine.execVtanh f s
  | .vsigm f => Sys2Proof.Machine.execVsigm f s
  | .verf f => Sys2Proof.Machine.execVerf f s
  | .vrot f => Sys2Proof.Machine.execVrot f s
  | .vbcst f => Sys2Proof.Machine.execVbcst f s
  | .vrsum f => Sys2Proof.Machine.execVrsum f s
  | .vrmax f => Sys2Proof.Machine.execVrmax f s
  | .vrmin f => Sys2Proof.Machine.execVrmin f s
  | .vrmaxi f => Sys2Proof.Machine.execVrmaxi f s
  | .vrmini f => Sys2Proof.Machine.execVrmini f s
  | .vscan f => Sys2Proof.Machine.execVscan f s
  | .vshft f => Sys2Proof.Machine.execVshft f s
  | .vrsumw f => Sys2Proof.Machine.execVrsumw f s
  | .vperm f => Sys2Proof.Machine.execVperm f s
  | .vtrn f => Sys2Proof.Machine.execVtrn f s
  | .vzip f => Sys2Proof.Machine.execVzip f s
  | .vuzp f => Sys2Proof.Machine.execVuzp f s
  | .vcxs f => Sys2Proof.Machine.execVcxs f s
  | .vcomp f => Sys2Proof.Machine.execVcomp f s
  | .vexpd f => Sys2Proof.Machine.execVexpd f s
  | .vrand f => Sys2Proof.Machine.execVrand f s
  | .vld f => Sys2Proof.Machine.execVld f s
  | .vlds f => Sys2Proof.Machine.execVlds f s
  | .vst f => Sys2Proof.Machine.execVst f s
  | .vsts f => Sys2Proof.Machine.execVsts f s
  | .vldx f => Sys2Proof.Machine.execVldx f s
  | .vstx f => Sys2Proof.Machine.execVstx f s
  | .kld f => Sys2Proof.Machine.execKld f s
  | .kst f => Sys2Proof.Machine.execKst f s
  | .vstm f => Sys2Proof.Machine.execVstm f s
  | .vHint w => Sys2Proof.Machine.execVHint w s
  | .vnopShort => Sys2Proof.Machine.execVnopShort s
  | .vseamShort id => Sys2Proof.Machine.execVseamShort id s
  | .vhaltShort => Sys2Proof.Machine.execVhaltShort s
  | .vmovShort vd va => Sys2Proof.Machine.execVmovShort vd va s
  | .vswapShort vd va => Sys2Proof.Machine.execVswapShort vd va s
  | .vpopShort vd va => Sys2Proof.Machine.execVpopShort vd va s
  | .vqdropShort va => Sys2Proof.Machine.execVqdropShort va s
  | .vnotShort vd va => Sys2Proof.Machine.execVnotShort vd va s
  | .vandShort vd va => Sys2Proof.Machine.execVandShort vd va s
  | .vorShort vd va => Sys2Proof.Machine.execVorShort vd va s
  | .vxorShort vd va => Sys2Proof.Machine.execVxorShort vd va s
  | .vandnShort vd va => Sys2Proof.Machine.execVandnShort vd va s
  | .kandShort mk ma => Sys2Proof.Machine.execKandShort mk ma s
  | .korShort mk ma => Sys2Proof.Machine.execKorShort mk ma s
  | .kxorShort mk ma => Sys2Proof.Machine.execKxorShort mk ma s
  | .knotShort mk ma => Sys2Proof.Machine.execKnotShort mk ma s
  | .vaddF32Short vd va => Sys2Proof.Machine.execVaddF32Short vd va s
  | .vsubF32Short vd va => Sys2Proof.Machine.execVsubF32Short vd va s
  | .vmulF32Short vd va => Sys2Proof.Machine.execVmulF32Short vd va s
  | .vminF32Short vd va => Sys2Proof.Machine.execVminF32Short vd va s
  | .vmaxF32Short vd va => Sys2Proof.Machine.execVmaxF32Short vd va s
  | .vabsF32Short vd va => Sys2Proof.Machine.execVabsF32Short vd va s
  | .vnegF32Short vd va => Sys2Proof.Machine.execVnegF32Short vd va s
  | .vexp2F32Short vd va => Sys2Proof.Machine.execVexp2F32Short vd va s
  | .vaddBf16Short vd va => Sys2Proof.Machine.execVaddBf16Short vd va s
  | .vsubBf16Short vd va => Sys2Proof.Machine.execVsubBf16Short vd va s
  | .vmulBf16Short vd va => Sys2Proof.Machine.execVmulBf16Short vd va s
  | .vminBf16Short vd va => Sys2Proof.Machine.execVminBf16Short vd va s
  | .vmaxBf16Short vd va => Sys2Proof.Machine.execVmaxBf16Short vd va s
  | .vaddI32Short vd va => Sys2Proof.Machine.execVaddI32Short vd va s
  | .vsubI32Short vd va => Sys2Proof.Machine.execVsubI32Short vd va s
  | .vmulI32Short vd va => Sys2Proof.Machine.execVmulI32Short vd va s
  | .vminI32Short vd va => Sys2Proof.Machine.execVminI32Short vd va s
  | .vmaxI32Short vd va => Sys2Proof.Machine.execVmaxI32Short vd va s
  | .vaddI16Short vd va => Sys2Proof.Machine.execVaddI16Short vd va s
  | .vsubI16Short vd va => Sys2Proof.Machine.execVsubI16Short vd va s
  | .vaddI8Short vd va => Sys2Proof.Machine.execVaddI8Short vd va s
  | .vsubI8Short vd va => Sys2Proof.Machine.execVsubI8Short vd va s
  | .vHintShort op vd va => Sys2Proof.Machine.execVHintShort op vd va s
  | .mnop f => Sys2Proof.Machine.execMnop f s
  | .mhalt f => Sys2Proof.Machine.execMhalt f s
  | .mseam f => Sys2Proof.Machine.execMseam f s
  | .mreply f => Sys2Proof.Machine.execMreply f s
  | .mloop f => Sys2Proof.Machine.execMloop f s
  | .mend f => Sys2Proof.Machine.execMend f s
  | .mjmp f => Sys2Proof.Machine.execMjmp f s
  | .mfence f => Sys2Proof.Machine.execMfence f s
  | .mbrk f => Sys2Proof.Machine.execMbrk f s
  | .qstep f => Sys2Proof.Machine.execQstep f s
  | .qstepI4 f => Sys2Proof.Machine.execQstepI4 f s
  | .qdrain f => Sys2Proof.Machine.execQdrain f s
  | .mBolt f => Sys2Proof.Machine.execMBolt f s
  | .qcb f => Sys2Proof.Machine.execQcb f s
  | .qscl f => Sys2Proof.Machine.execQscl f s
  | .qwin f => Sys2Proof.Machine.execQwin f s
  | .qrel f => Sys2Proof.Machine.execQrel f s
  | .qskip f => Sys2Proof.Machine.execQskip f s
  | .qnz f => Sys2Proof.Machine.execQnz f s
  | .mmaI8 f => Sys2Proof.Machine.execMmaI8 f s
  | .mmaE4m3 f => Sys2Proof.Machine.execMmaE4m3 f s
  | .mmaE5m2 f => Sys2Proof.Machine.execMmaE5m2 f s
  | .mmaBf16 f => Sys2Proof.Machine.execMmaBf16 f s
  | .mmaMx4 f => Sys2Proof.Machine.execMmaMx4 f s
  | .mmaGI8 f => Sys2Proof.Machine.execMmaGI8 f s
  | .mmaGE4m3 f => Sys2Proof.Machine.execMmaGE4m3 f s
  | .mmaGE5m2 f => Sys2Proof.Machine.execMmaGE5m2 f s
  | .mmaGBf16 f => Sys2Proof.Machine.execMmaGBf16 f s
  | .mmaGMx4 f => Sys2Proof.Machine.execMmaGMx4 f s
  | .mmaMskI8 f => Sys2Proof.Machine.execMmaMskI8 f s
  | .mmaMskE4m3 f => Sys2Proof.Machine.execMmaMskE4m3 f s
  | .mmaMskE5m2 f => Sys2Proof.Machine.execMmaMskE5m2 f s
  | .mmaMskBf16 f => Sys2Proof.Machine.execMmaMskBf16 f s
  | .mmaMskMx4 f => Sys2Proof.Machine.execMmaMskMx4 f s
  | .mmld f => Sys2Proof.Machine.execMmld f s
  | .yclr f => Sys2Proof.Machine.execYclr f s
  | .yld f => Sys2Proof.Machine.execYld f s
  | .yst f => Sys2Proof.Machine.execYst f s
  | .ymov f => Sys2Proof.Machine.execYmov f s
  | .yadd f => Sys2Proof.Machine.execYadd f s
  | .ymax f => Sys2Proof.Machine.execYmax f s
  | .yfill f => Sys2Proof.Machine.execYfill f s
  | .yred f => Sys2Proof.Machine.execYred f s
  | .yscl f => Sys2Proof.Machine.execYscl f s
  | .yswap f => Sys2Proof.Machine.execYswap f s
  | .epi f => Sys2Proof.Machine.execEpi f s
  | .mtrn f => Sys2Proof.Machine.execMtrn f s
  | .mHint w => Sys2Proof.Machine.execMHint w s
  | .mWordCompletion core => Sys2Proof.Machine.execMWordCompletion core s
  | .accessCompletion core id reply => Sys2Proof.Machine.execAccessCompletion core id reply s
  | .copyStart core => Sys2Proof.Machine.execCopyStart core s
  | .copyCompletion core => Sys2Proof.Machine.execCopyCompletion core s
  | .copyFault core => Sys2Proof.Machine.execCopyFault core s
  | .trapDelivery core => Sys2Proof.Machine.execTrapDelivery core s
  | .distributorSelection => Sys2Proof.Machine.execDistributorSelection s
  | .binding core => Sys2Proof.Machine.execBinding core s
  | .expressPreemption => Sys2Proof.Machine.execExpressPreemption s
  | .starvationPreemption slot => Sys2Proof.Machine.execStarvationPreemption slot s
  | .progressStop slot => Sys2Proof.Machine.execProgressStop slot s
  | .stopCompletion core => Sys2Proof.Machine.execStopCompletion core s
  | .stopTimeout core => Sys2Proof.Machine.execStopTimeout core s
  | .monitorWake slot => Sys2Proof.Machine.execMonitorWake slot s
  | .waitMRecheck core => Sys2Proof.Machine.execWaitMRecheck core s
  | .frameFill core unit => Sys2Proof.Machine.execFrameFill core unit s
  | .frameSave core owner unit uncorr => Sys2Proof.Machine.execFrameSave core owner unit uncorr s
  | .frameLoad core unit uncorr => Sys2Proof.Machine.execFrameLoad core unit uncorr s
  | .coreOffline core => Sys2Proof.Machine.execCoreOffline core s
  | .pageResident backing page => Sys2Proof.Machine.execPageResident backing page s
  | .laneSwap link => Sys2Proof.Machine.execLaneSwap link s
  | .vaultColumnTraining vault column spares failed => Sys2Proof.Machine.execVaultColumnTraining vault column spares failed s
  | .patrolScrub addr result => Sys2Proof.Machine.execPatrolScrub addr result s
  | .wqTailWrite by_ q value => Sys2Proof.Machine.execWqTailWrite by_ q value s
  | .wqCfgWrite fn q value => Sys2Proof.Machine.execWqCfgWrite fn q value s
  | .abort fn q => Sys2Proof.Machine.execAbort fn q s
  | .dispatchStep => Sys2Proof.Machine.execDispatchStep s
  | .conditionEvaluation q => Sys2Proof.Machine.execConditionEvaluation q s
  | .launchCompletion launch => Sys2Proof.Machine.execLaunchCompletion launch s
  | .hostAccess acc => Sys2Proof.Machine.execHostAccess acc s
  | .alloc fn => Sys2Proof.Machine.execAlloc fn s
  | .free fn => Sys2Proof.Machine.execFree fn s
  | .back fn => Sys2Proof.Machine.execBack fn s
  | .evict fn => Sys2Proof.Machine.execEvict fn s
  | .fetch fn bytes => Sys2Proof.Machine.execFetch fn bytes s
  | .query fn => Sys2Proof.Machine.execQuery fn s
  | .grant fn => Sys2Proof.Machine.execGrant fn s
  | .queue fn => Sys2Proof.Machine.execQueue fn s
  | .attest fn salt => Sys2Proof.Machine.execAttest fn salt s
  | .kvclear fn => Sys2Proof.Machine.execKvclear fn s
  | .evHeadWrite value => Sys2Proof.Machine.execEvHeadWrite value s
  | .millerAccess addr size store => Sys2Proof.Machine.execMillerAccess addr size store s
  | .btGo => Sys2Proof.Machine.execBtGo s
  | .bootSequenceEnd result => Sys2Proof.Machine.execBootSequenceEnd result s
  | .cold => Sys2Proof.Machine.execCold s
  | .warm => Sys2Proof.Machine.execWarm s
  | .coldResetInput => Sys2Proof.Machine.execColdResetInput s
  | .functionLevelReset fn => Sys2Proof.Machine.execFunctionLevelReset fn s
  | .powerClamp watts => Sys2Proof.Machine.execPowerClamp watts s
  | .thermalClamp layer sixteenths => Sys2Proof.Machine.execThermalClamp layer sixteenths s
  | .emergencyClamp layer sixteenths => Sys2Proof.Machine.execEmergencyClamp layer sixteenths s
  | .clampRelease layer => Sys2Proof.Machine.execClampRelease layer s
  | .clockChange layer => Sys2Proof.Machine.execClockChange layer s
  | .temperatureSample core sixteenths => Sys2Proof.Machine.execTemperatureSample core sixteenths s
  | .send ep => Sys2Proof.Machine.execSend ep s
  | .write ep => Sys2Proof.Machine.execWrite ep s
  | .recv ep => Sys2Proof.Machine.execRecv ep s
  | .expose ep => Sys2Proof.Machine.execExpose ep s
  | .withdraw ep => Sys2Proof.Machine.execWithdraw ep s
  | .packetArrival p => Sys2Proof.Machine.execPacketArrival p s
  | .packetAcknowledgement req index ack => Sys2Proof.Machine.execPacketAcknowledgement req index ack s
  | .packetTimeout req index => Sys2Proof.Machine.execPacketTimeout req index s
  | .notReadyRetry req => Sys2Proof.Machine.execNotReadyRetry req s
  | .linkStateChange port up => Sys2Proof.Machine.execLinkStateChange port up s
  | .linkStateNotice part dim up news => Sys2Proof.Machine.execLinkStateNotice part dim up news s
  | .rst port miller => Sys2Proof.Machine.execRst port miller s
  | .relabWrite value miller => Sys2Proof.Machine.execRelabWrite value miller s
  | .flitDrop port => Sys2Proof.Machine.execFlitDrop port s
  | .fragmentArrival frag => Sys2Proof.Machine.execFragmentArrival frag s
  | .stripeAcknowledgement dst seq ack => Sys2Proof.Machine.execStripeAcknowledgement dst seq ack s
  | .receiverTimeout src seq => Sys2Proof.Machine.execReceiverTimeout src seq s
  | .decodeBufferFree src seq => Sys2Proof.Machine.execDecodeBufferFree src seq s
  | .senderRetransmission dst seq => Sys2Proof.Machine.execSenderRetransmission dst seq s
  | .retransmissionRequest dst seq => Sys2Proof.Machine.execRetransmissionRequest dst seq s
  | .stripeLoss dst seq => Sys2Proof.Machine.execStripeLoss dst seq s
  | .lossNotice src seq kind number => Sys2Proof.Machine.execLossNotice src seq kind number s
  | .holdExpiry label => Sys2Proof.Machine.execHoldExpiry label s
  | .messageRefusalRetry msg => Sys2Proof.Machine.execMessageRefusalRetry msg s
  | .managementMessageSend value => Sys2Proof.Machine.execManagementMessageSend value s
  | .managementMessageArrival src bytes => Sys2Proof.Machine.execManagementMessageArrival src bytes s
  | .parityUpdate src seq upd => Sys2Proof.Machine.execParityUpdate src seq upd s
  | .parityAcknowledgement dst seq refused => Sys2Proof.Machine.execParityAcknowledgement dst seq refused s
  | .parityResend dst seq => Sys2Proof.Machine.execParityResend dst seq s
  | .memberLoss member => Sys2Proof.Machine.execMemberLoss member s
  | .rebuild => Sys2Proof.Machine.execRebuild s
  | .stripeFreeze range stripe substitute release => Sys2Proof.Machine.execStripeFreeze range stripe substitute release s
  | .stripeRebuild range stripe blocks => Sys2Proof.Machine.execStripeRebuild range stripe blocks s
  | .svCfgWrite value => Sys2Proof.Machine.execSvCfgWrite value s
  | .registerWrite by_ off value => Sys2Proof.Machine.execRegisterWrite by_ off value s
  | .pfSubstWrite k value miller => Sys2Proof.Machine.execPfSubstWrite k value miller s
  | .messageEngineSend => Sys2Proof.Machine.execMessageEngineSend s
  | .ethernetLinkStateChange port up => Sys2Proof.Machine.execEthernetLinkStateChange port up s
  | .lossNoticeRepeat dst seq kind number => Sys2Proof.Machine.execLossNoticeRepeat dst seq kind number s

end Sys2Proof.Machine
end

