-- ==== Sys2Proof/Machine/Streams.lean ====
section
/-! DEFINITION. One step of a sequencer: the word at its pc is fetched, decoded and run, or its fetch or decode trap is raised (R15, R16, R261 to
R263, R400). -/

namespace Sys2Proof.Machine

open Sys2Proof

/-! ## The A sequencer -/

/-- The trap of a decode fault (R16). -/
def faultCode : DecodeFault → TrapCode
  | .illegal => .illegal
  | .illegalLen => .illegalLen
  | .illegalOp => .illegalOp

/-- Whether the word at pc is a GRD that guards an EXIT. -/
def guardsExit (k : Core) : Bool :=
  match (fetchA { k with pc := k.pc + 4 }).map decodeA with
  | some (.ok .exit) => true
  | _ => false

/-- The 2-ms limit of an EXIT runs while the strand stands at it, or at the GRD word before it (R29, R267). -/
def leaveExit (i : Instr) (s : State) : State :=
  let left : State := if s.core.inHandler then s else { s with core := { s.core with exitDue := none } }
  match i with
  | .exit => s
  | .grd _ _ => if guardsExit s.core then s else left
  | _ => left

/-- The A word at pc. A breakpoint is met before the first word of an instruction (R400). -/
def runA (s : State) : Out :=
  if s.core.grd.isNone && breakHit s s.core.pc then .next (finishA s (.trap .brkpt .a s.core.pc s))
  else
    match fetchA s.core with
    | none => .next (finishA s (.trap .illegal .a 0 s))
    | some w =>
      match decodeA w with
      | .error e => .next (finishA s (.trap (faultCode e) .a 0 s))
      | .ok i => exec i (leaveExit i s)

/-- The A sequencer of the selected core (R72): it runs while a strand is bound and it does not stand at a SEAM word. -/
def stepA (s : State) : Out := if s.core.slot.isSome && s.core.aseq == .running then runA s else .next s

/-! ## The V sequencer -/

/-- A V instruction that cannot be fetched, decoded or begun stops the sequencer (R262). -/
def vRefuse (code : TrapCode) (s : State) : State := { s with core := s.core.vStop code 0 }

/-- A long V instruction by its opcode. -/
def runVLong (op : BitVec 8) (f : VFields) (s : State) : Out :=
  match op with
  | 0x01#8 => execVnop f s
  | 0x02#8 => execVseam f s
  | 0x03#8 => execVhalt f s
  | 0x04#8 => execVwait f s
  | 0x05#8 => execVsig f s
  | 0x06#8 => execVjmp f s
  | 0x07#8 => execVloop f s
  | 0x08#8 => execVmov f s
  | 0x09#8 => execVmovi f s
  | 0x0A#8 => execVins f s
  | 0x0B#8 => execVswap f s
  | 0x0C#8 => execVpop f s
  | 0x0D#8 => execVpush f s
  | 0x0E#8 => execVqdrop f s
  | 0x10#8 => execVadd f s
  | 0x11#8 => execVsub f s
  | 0x12#8 => execVmul f s
  | 0x13#8 => execVmulh f s
  | 0x14#8 => execVfma f s
  | 0x15#8 => execVfms f s
  | 0x16#8 => execVfnma f s
  | 0x17#8 => execVmin f s
  | 0x18#8 => execVmax f s
  | 0x19#8 => execVabs f s
  | 0x1A#8 => execVneg f s
  | 0x1B#8 => execVavg f s
  | 0x1C#8 => execVabsd f s
  | 0x1D#8 => execVclamp f s
  | 0x1E#8 => execVsign f s
  | 0x1F#8 => execVscale f s
  | 0x20#8 => execVdot4 f s
  | 0x21#8 => execVdot2 f s
  | 0x22#8 => execVmulw f s
  | 0x23#8 => execVaddw f s
  | 0x24#8 => execVrint f s
  | 0x25#8 => execVmulq f s
  | 0x26#8 => execVlut f s
  | 0x27#8 => execVfrexp f s
  | 0x30#8 => execVcmpEq f s
  | 0x31#8 => execVcmpNe f s
  | 0x32#8 => execVcmpLt f s
  | 0x33#8 => execVcmpLe f s
  | 0x34#8 => execVcmpUnord f s
  | 0x35#8 => execVcmpOrd f s
  | 0x36#8 => execVsel f s
  | 0x37#8 => execVclass f s
  | 0x38#8 => execKand f s
  | 0x39#8 => execKor f s
  | 0x3A#8 => execKxor f s
  | 0x3B#8 => execKnot f s
  | 0x3C#8 => execKpopc f s
  | 0x3D#8 => execKfirst f s
  | 0x3E#8 => execVtok f s
  | 0x3F#8 => execKtov f s
  | 0x40#8 => execKset f s
  | 0x50#8 => execVand f s
  | 0x51#8 => execVor f s
  | 0x52#8 => execVxor f s
  | 0x53#8 => execVnot f s
  | 0x54#8 => execVandn f s
  | 0x55#8 => execVbsel f s
  | 0x56#8 => execVshl f s
  | 0x57#8 => execVshr f s
  | 0x58#8 => execVsra f s
  | 0x59#8 => execVclz f s
  | 0x5A#8 => execVpopc f s
  | 0x5B#8 => execVbrev f s
  | 0x60#8 => execVcvt f s
  | 0x61#8 => execVpack f s
  | 0x62#8 => execVunpk f s
  | 0x63#8 => execVmxq f s
  | 0x64#8 => execVmxd f s
  | 0x65#8 => execVrq f s
  | 0x70#8 => execVexp2 f s
  | 0x71#8 => execVlog2 f s
  | 0x72#8 => execVrcp f s
  | 0x73#8 => execVrsq f s
  | 0x74#8 => execVsqrt f s
  | 0x75#8 => execVsin f s
  | 0x76#8 => execVcos f s
  | 0x77#8 => execVtanh f s
  | 0x78#8 => execVsigm f s
  | 0x79#8 => execVerf f s
  | 0x80#8 => execVrot f s
  | 0x81#8 => execVbcst f s
  | 0x82#8 => execVrsum f s
  | 0x83#8 => execVrmax f s
  | 0x84#8 => execVrmin f s
  | 0x85#8 => execVrmaxi f s
  | 0x86#8 => execVrmini f s
  | 0x87#8 => execVscan f s
  | 0x88#8 => execVshft f s
  | 0x89#8 => execVrsumw f s
  | 0x90#8 => execVperm f s
  | 0x91#8 => execVtrn f s
  | 0x92#8 => execVzip f s
  | 0x93#8 => execVuzp f s
  | 0x94#8 => execVcxs f s
  | 0x95#8 => execVcomp f s
  | 0x96#8 => execVexpd f s
  | 0x97#8 => execVrand f s
  | 0xA0#8 => execVld f s
  | 0xA1#8 => execVlds f s
  | 0xA2#8 => execVst f s
  | 0xA3#8 => execVsts f s
  | 0xA4#8 => execVldx f s
  | 0xA5#8 => execVstx f s
  | 0xA6#8 => execKld f s
  | 0xA7#8 => execKst f s
  | 0xA8#8 => execVstm f s
  | _ => .next (vRefuse .illegal s)

/-- A short V instruction by its opcode. -/
def runVShort (op : BitVec 8) (vd va : BitVec 11) (s : State) : Out :=
  match op with
  | 0x01#8 => execVnopShort s
  | 0x02#8 => execVseamShort (va ++ vd) s
  | 0x03#8 => execVhaltShort s
  | 0x04#8 => execVmovShort vd va s
  | 0x05#8 => execVswapShort vd va s
  | 0x06#8 => execVpopShort vd va s
  | 0x07#8 => execVqdropShort va s
  | 0x08#8 => execVnotShort vd va s
  | 0x09#8 => execVandShort vd va s
  | 0x0A#8 => execVorShort vd va s
  | 0x0B#8 => execVxorShort vd va s
  | 0x0C#8 => execVandnShort vd va s
  | 0x0D#8 => execKandShort (low4 vd) (low4 va) s
  | 0x0E#8 => execKorShort (low4 vd) (low4 va) s
  | 0x0F#8 => execKxorShort (low4 vd) (low4 va) s
  | 0x10#8 => execKnotShort (low4 vd) (low4 va) s
  | 0x11#8 => execVaddF32Short vd va s
  | 0x12#8 => execVsubF32Short vd va s
  | 0x13#8 => execVmulF32Short vd va s
  | 0x14#8 => execVminF32Short vd va s
  | 0x15#8 => execVmaxF32Short vd va s
  | 0x16#8 => execVabsF32Short vd va s
  | 0x17#8 => execVnegF32Short vd va s
  | 0x18#8 => execVexp2F32Short vd va s
  | 0x19#8 => execVaddBf16Short vd va s
  | 0x1A#8 => execVsubBf16Short vd va s
  | 0x1B#8 => execVmulBf16Short vd va s
  | 0x1C#8 => execVminBf16Short vd va s
  | 0x1D#8 => execVmaxBf16Short vd va s
  | 0x20#8 => execVaddI32Short vd va s
  | 0x21#8 => execVsubI32Short vd va s
  | 0x22#8 => execVmulI32Short vd va s
  | 0x23#8 => execVminI32Short vd va s
  | 0x24#8 => execVmaxI32Short vd va s
  | 0x25#8 => execVaddI16Short vd va s
  | 0x26#8 => execVsubI16Short vd va s
  | 0x27#8 => execVaddI8Short vd va s
  | 0x28#8 => execVsubI8Short vd va s
  | _ => .next (vRefuse .illegal s)

/-- What was read at vpc or mpc runs. -/
def runV (d : Sys2Proof.Decoded) (s : State) : Out :=
  match d with
  | .vShort op vd va => if 0xF0 ≤ op then execVHintShort (op.extractLsb' 0 4) vd va s else runVShort op vd va s
  | .vLong op f => runVLong op f s
  | .vHint w => execVHint w s
  | _ => .next (vRefuse .illegal s)

/-- The V instruction at vpc, from its first repetition on. -/
def vAtPc (s : State) : Out :=
  if s.core.vrep == 0 && breakHit s s.core.vpc then .next { s with core := s.core.vStop .brkpt s.core.vpc }
  else
    match fetchV s.core with
    | .error e => .next (vRefuse (faultCode e) s)
    | .ok d => runV d s

/-- The V sequencer of the selected core (R170). -/
def stepV (s : State) : Out := if s.core.slot.isSome && s.core.vseq == .running then vAtPc s else .next s

/-! ## The M sequencer -/

/-- The kind of a fault entry for a decode fault (R225). -/
def mKind : DecodeFault → Nat
  | .illegalOp => mIllegalOp
  | _ => mIllegal

/-- An M word that cannot be fetched or decoded stops the sequencer (R225). -/
def mRefuse (e : DecodeFault) (s : State) : State := { s with core := s.core.mStop (mKind e) 0 }

/-- An M word by its opcode. -/
def runMWord (op : BitVec 8) (f : MFields) (s : State) : Out :=
  match op with
  | 0x01#8 => execMnop f s
  | 0x02#8 => execMhalt f s
  | 0x03#8 => execMseam f s
  | 0x04#8 => execMreply f s
  | 0x05#8 => execMloop f s
  | 0x06#8 => execMend f s
  | 0x07#8 => execMjmp f s
  | 0x08#8 => execMfence f s
  | 0x09#8 => execMbrk f s
  | 0x10#8 => execQstep f s
  | 0x11#8 => execQstepI4 f s
  | 0x12#8 => execQdrain f s
  | 0x13#8 => execMBolt f s
  | 0x14#8 => execQcb f s
  | 0x15#8 => execQscl f s
  | 0x16#8 => execQwin f s
  | 0x17#8 => execQrel f s
  | 0x18#8 => execQskip f s
  | 0x19#8 => execQnz f s
  | 0x20#8 => execMmaI8 f s
  | 0x21#8 => execMmaE4m3 f s
  | 0x22#8 => execMmaE5m2 f s
  | 0x23#8 => execMmaBf16 f s
  | 0x24#8 => execMmaMx4 f s
  | 0x28#8 => execMmaGI8 f s
  | 0x29#8 => execMmaGE4m3 f s
  | 0x2A#8 => execMmaGE5m2 f s
  | 0x2B#8 => execMmaGBf16 f s
  | 0x2C#8 => execMmaGMx4 f s
  | 0x30#8 => execMmaMskI8 f s
  | 0x31#8 => execMmaMskE4m3 f s
  | 0x32#8 => execMmaMskE5m2 f s
  | 0x33#8 => execMmaMskBf16 f s
  | 0x34#8 => execMmaMskMx4 f s
  | 0x35#8 => execMmld f s
  | 0x40#8 => execYclr f s
  | 0x41#8 => execYld f s
  | 0x42#8 => execYst f s
  | 0x43#8 => execYmov f s
  | 0x44#8 => execYadd f s
  | 0x45#8 => execYmax f s
  | 0x46#8 => execYfill f s
  | 0x47#8 => execYred f s
  | 0x48#8 => execYscl f s
  | 0x49#8 => execYswap f s
  | 0x4A#8 => execEpi f s
  | 0x4B#8 => execMtrn f s
  | _ => .next (mRefuse .illegal s)

/-- What was read at mpc runs. -/
def runM (d : Sys2Proof.Decoded) (s : State) : Out :=
  match d with
  | .m op f => runMWord op f s
  | .mHint w => execMHint w s
  | _ => .next (mRefuse .illegal s)

/-- The M word at mpc. -/
def mAtPc (s : State) : Out :=
  match fetchM s.core with
  | .error e => .next (mRefuse e s)
  | .ok d => runM d s

/-- The M sequencer of the selected core (R222). -/
def stepM (s : State) : Out := if s.core.slot.isSome && s.core.mseq == .running then mAtPc s else .next s

end Sys2Proof.Machine
end

