-- ==== Sys2Proof/Machine/Agents.lean ====
section
/-! DEFINITION. The agents that move on their own, one at each turn (assumption 4), and what passes with every step (R115, R140, R399). -/

namespace Sys2Proof.Machine

open Sys2Proof

/-! ## The selected core -/

/-- The number of the selected core as events name it. -/
def curNo (s : State) : BitVec 8 := BitVec.ofNat 8 s.cur

/-- The oldest started copy goes on: it stops at a fault, or completes (R112, R114). -/
def copyTurn (s : State) : Out :=
  match copyAdvance s with
  | .fault _ _ => execCopyFault (curNo s) s
  | _ => execCopyCompletion (curNo s) s

/-- A stop that is late is lost, else it completes if it can (R72, R267). -/
def stopTurn (s : State) : Out :=
  let late := (s.core.stop.any fun r => r.due ≤ s.time) || (s.core.exitDue.any fun d => d ≤ s.time)
  if late then execStopTimeout (curNo s) s else execStopCompletion (curNo s) s

/-- Whether the A-stream stands at a SEM.ACQ, or at a GRD before one: it acts after the other engines' signals (R126). -/
def acquires (k : Core) : Bool :=
  let isAcq (w : Option (BitVec 32)) : Bool :=
    match w.map decodeA with
    | some (.ok (.semAcq _ _ _)) => true
    | _ => false
  let w := fetchA k
  isAcq w ||
    match w.map decodeA with
    | some (.ok (.grd _ _)) => isAcq (fetchA { k with pc := k.pc + 4 })
    | _ => false

/-- SEM.ACQ, after the signals of the V and M sequencers and of the copy unit (R126); a V trap that is due is delivered first (R264). -/
def stepAcquire (s : State) : Out := if acquires s.core && !s.core.trapDue then stepA s else .next s

/-- The first unit in a given state. -/
def unitIn (k : Core) (st : UnitSt) : Option Nat := (List.range 40).find? fun u => k.units[u]? == some st

/-- One frame is filled, saved or loaded (R130, R131, R133). -/
def frameTurn (s : State) : Out :=
  match unitIn s.core .fill with
  | some u => execFrameFill (curNo s) u s
  | none =>
    match s.core.held.find? (·.saving) with
    | some h => execFrameSave (curNo s) h.owner h.unit false s
    | none =>
      match unitIn s.core .load with
      | some u => execFrameLoad (curNo s) u false s
      | none => .next s

/-! ## The distributor -/

/-- Stops of R281 to R283 that are due are posted, and written monitors wake their bobbins (R75). -/
def scheduleTurn (s : State) : State :=
  let s := outState s (execExpressPreemption s)
  s.pool.foldl
    (fun s e =>
      match e.bob.state with
      | .ready => outState s (execProgressStop e.slot (outState s (execStarvationPreemption e.slot s)))
      | .watch => outState s (execMonitorWake e.slot s)
      | _ => s)
    s

/-! ## The queue processor -/

/-- One dispatch step, then the conditions of the waiting launches, by PRI and queue number (R368, R371). -/
def dispatchTurn (s : State) : State :=
  let s := outState s (execDispatchStep s)
  let key (w : WorkQueue) : Nat := (127 - w.pri.toNat) * 4096 + (w.q - s.lastQueue - 1).toNat
  ((s.queues.filter (·.waiting)).mergeSort fun a b => key a ≤ key b).foldl (fun s w => outState s (execConditionEvaluation w.q s)) s

/-- A launch that is complete leaves its record (R375). -/
def launchTurn (s : State) : State :=
  let s := countEnded s
  match s.launches.find? (launchOver s) with
  | some l => outState s (execLaunchCompletion l.id s)
  | none => s

/-! ## The memory processor -/

/-- The mailbox request at the head of the line (R386, R387). FETCH and ATTEST wait for what lies outside the part. -/
def mailboxTurn (s : State) : State :=
  match s.mbOrder with
  | [] => s
  | fn :: _ =>
    match (bank s.mailboxes fn).field 0 1 with
    | 1 => outState s (execAlloc fn s)
    | 2 => outState s (execFree fn s)
    | 3 => outState s (execBack fn s)
    | 4 => outState s (execEvict fn s)
    | 5 => s
    | 6 => outState s (execQuery fn s)
    | 7 => outState s (execGrant fn s)
    | 8 => outState s (execQueue fn s)
    | 9 => s
    | 10 => outState s (execKvclear fn s)
    | _ => serveUnknown s

/-- A request of the mailbox, PAGE events, and the next page that needs no fetch (R314, R387, R388). -/
def memoryTurn (s : State) : State :=
  let s := hostServe (millerServe (retrainNext (tellAll (settleDrops (mailboxTurn s)))))
  match nextWanted s with
  | some w => outState s (execPageResident w.back.id w.page s)
  | none => s

/-! ## The fabric unit -/

/-- Whether what leaves is for this part itself (R418). -/
def FabOut.isOwn (own : BitVec 10) : FabOut → Bool
  | .fragment dst _ _ => dst == own
  | .toPart .. => false
  | .answer dst _ _ _ _ => dst == own

/-- What leaves for this part arrives at it. -/
def FabOut.land (own : BitVec 10) (s : State) : FabOut → State
  | .fragment _ _ f => takeFragment f s
  | .toPart .. => s
  | .answer _ _ seq _ (.ack a) => outState s (execStripeAcknowledgement own seq a s)
  | .answer _ _ seq _ .resendRequest => outState s (execRetransmissionRequest own seq s)
  | .answer _ _ seq _ (.lossNotice lost) => takeNotice own seq lost s

/-- A target equal to the source is reached inside the part (R418). -/
def loopback (s : State) : State :=
  let own : BitVec 10 := BitVec.ofNat 10 (ownLabel s.fab)
  let mine := s.fab.sent.filter (FabOut.isOwn own)
  mine.foldl (fun s o => FabOut.land own s o) { s with fab := { s.fab with sent := s.fab.sent.filter fun o => !FabOut.isOwn own o } }

/-- A loss notice that the target has not answered is sent again (R431), unless it has not left yet. -/
def repeatNotice (s : State) (n : BitVec 10 × BitVec 32 × LostItem) : State :=
  if s.fab.heldAnswers.any fun h => h.1 == n.1 && h.2.1 == n.2.1 && h.2.2.1 == .lossNotice n.2.2 then s
  else sendAnswer n.1 n.2.1 (.lossNotice n.2.2) s

/-- The timers of stripes, decode buffers and members without a path (R429, R430, R449). -/
def fabricTimers (s : State) : State :=
  let s := s.fab.stripes.foldl
    (fun s st => outState s (execStripeLoss st.dst st.seq (outState s (execSenderRetransmission st.dst st.seq s)))) s
  let s := s.fab.former.foldl formerTimer s
  let s := s.fab.bufs.foldl
    (fun s b => outState s (execDecodeBufferFree b.src b.seq (outState s (execReceiverTimeout b.src b.seq s)))) s
  let s := s.fab.notices.foldl repeatNotice s
  let s := s.fab.sends.foldl (fun s m => outState s (execMessageRefusalRetry m.id s)) s
  let s := s.fab.heldAt.foldl (fun s h => outState s (execHoldExpiry h.1 s)) s
  let s := (noteCut s).sv.cut.foldl (fun s c => outState s (execMemberLoss (BitVec.ofNat 3 c.1) s)) (noteCut s)
  s.sv.pending.foldl (fun s p => outState s (execParityResend p.dst p.seq s)) s

/-- The fabric unit and the message engine (R428, R434, R435, R454). -/
def messageTurn (s : State) : State :=
  let s := rebuildTurn (releaseStripes (releaseHeld (loopback s)))
  let s := s.fab.bufs.foldl (fun s b => tryDecode b s) s
  let s := tellRecvs (tellSends (serveStreams s))
  fabricTimers (outState s (execMessageEngineSend s))

/-! ## The network engine -/

/-- The heads of an endpoint's queues (R406, R409). -/
def endpointTurn (s : State) (e : Endpoint) : State :=
  let s :=
    match e.sendq with
    | [] => s
    | r :: _ => if (wqeOf r.raw).op == 1 then outState s (execSend e.num s) else outState s (execWrite e.num s)
  match e.recvq with
  | [] => s
  | r :: _ =>
    match (wqeOf r.raw).op with
    | 3 => outState s (execRecv e.num s)
    | 4 => outState s (execExpose e.num s)
    | _ => outState s (execWithdraw e.num s)

/-- Packets whose placement waits for memory arrive again (R409). -/
def placeWaiting (s : State) : State :=
  s.net.waiting.foldl (fun s p => outState s (execPacketArrival p s)) { s with net := { s.net with waiting := [] } }

/-- The network engine and its timers (R410). -/
def networkTurn (s : State) : State :=
  let s := (placeWaiting s).net.eps.foldl endpointTurn (placeWaiting s)
  s.net.flight.foldl
    (fun s r => outState s (execNotReadyRetry r.id (r.packets.foldl (fun s p => outState s (execPacketTimeout r.id p.index (fastResend (r.id, p.index) s))) s))) s

/-! ## Turns -/

/-- The next core is selected; clock settings take effect (R397). -/
def nextCoreTurn (s : State) : State :=
  let s := outState s (execClockChange .vault (outState s (execClockChange .vx (outState s (execClockChange .mx s)))))
  focus ((s.cur + 1) % Config.cores) s

/-- The agent whose turn it is. -/
def agentOf (t : Turn) (s : State) : Out :=
  match t with
  | .trapDelivery => execTrapDelivery (curNo s) s
  | .a => if acquires s.core then .next s else stepA s
  | .v => stepV s
  | .m => stepM s
  | .mDone => execMWordCompletion (curNo s) s
  | .copyStart => execCopyStart (curNo s) s
  | .copyDone => copyTurn s
  | .acquire => stepAcquire s
  | .stopDone => stopTurn s
  | .frames => frameTurn s
  | .binding => execBinding (curNo s) s
  | .distributor => execDistributorSelection s
  | .scheduler => .next (scheduleTurn s)
  | .dispatch => .next (dispatchTurn s)
  | .launchEnd => .next (launchTurn s)
  | .memory => .next (memoryTurn s)
  | .messages => .next (messageTurn s)
  | .network => .next (networkTurn s)
  | .nextCore => .next (nextCoreTurn s)

/-- The turn after a turn. -/
def Turn.following : Turn → Turn
  | .trapDelivery => .a
  | .a => .v
  | .v => .m
  | .m => .mDone
  | .mDone => .copyStart
  | .copyStart => .copyDone
  | .copyDone => .acquire
  | .acquire => .stopDone
  | .stopDone => .frames
  | .frames => .binding
  | .binding => .distributor
  | .distributor => .scheduler
  | .scheduler => .dispatch
  | .dispatch => .launchEnd
  | .launchEnd => .memory
  | .memory => .messages
  | .messages => .network
  | .network => .nextCore
  | .nextCore => .trapDelivery

/-! ## What passes with a step -/

/-- What a step adds to the counters: the cycles of the vector/control and the matrix layer, and the number of the step. -/
structure Passed where
  vx : Nat
  mx : Nat
  step : Nat

/-- The events of a source among those noted. -/
def tallied (l : List (BitVec 8 × Nat)) (src : BitVec 8) : Nat := l.foldl (fun n e => if e.1 == src then n + e.2 else n) 0

/-- Sources that count the time of stalls, penalties and cache misses, which the model does not keep (assumption 43). -/
def timedSource (src : BitVec 8) : Bool := (6 ≤ src && src ≤ 0x0B) || src == 0x13

/-- What a source of R141 has counted on core `c`. -/
def coreCount (p : Passed) (c : Nat) (l : List (BitVec 8 × Nat)) (src : BitVec 8) : Nat :=
  if src = 1 then p.vx
  else if src = 2 then p.mx
  else if timedSource src then min (Config.eventCount src p.step c) (if src = 0x0A || src = 0x0B then p.mx else p.vx)
  else tallied l src

/-- A counter with its selector's source counted (R140). -/
def counted (sel : Word) (bound : Bool) (count : BitVec 8 → Nat) (x : Word) : Word :=
  if sel.getLsbD 15 && bound then x + w64 (count (sel.extractLsb' 0 8)) else x

/-- The event counters of a core (R140, R141); bit 14 counts only while a strand is bound. -/
def countCore (p : Passed) (c : Nat) (k : Core) : Core :=
  { k with
    ev := Vector.ofFn fun j =>
      let sel := bank k.evsel (BitVec.ofFin j)
      counted sel (!sel.getLsbD 14 || k.slot.isSome) (coreCount p c k.tally) (bank k.ev (BitVec.ofFin j)),
    tally := [] }

/-- Whether a clamp holds a layer below its clock (R398). -/
def clampActs (p : Power) : Bool := [p.mx, p.vx, p.vault].any fun l => l.clamp < 2000

/-- What a source of R399 has counted. Bytes of memory and tile misses are left open (assumption 43). -/
def dieCount (p : Passed) (s : State) (src : BitVec 8) : Nat :=
  if src = 1 then p.vx
  else if src = 0x0A then if clampActs s.power then p.vx else 0
  else if 5 ≤ src && src ≤ 7 then Config.eventCount src p.step Config.cores
  else tallied s.tally src

/-- The event counters of the die (R399). -/
def countDie (p : Passed) (s : State) : State :=
  { s with
    power := { s.power with ev := Vector.ofFn fun j => counted (bank s.power.evsel (BitVec.ofFin j)) true (dieCount p s) (bank s.power.ev (BitVec.ofFin j)) },
    tally := [] }

/-- Cycles of a layer's clock, in units of 1/1000, that pass with `ns` nanoseconds, and the part of a cycle before them (R9, R397). -/
def cyclesIn (l : LayerClock) (ns part : Nat) : Nat := part + ns * l.fnow.toNat

/-- The link layer of every peer port replays what fails its check (R415). -/
def countReplays (n : Nat) (ports : Vector PeerPort 10) : Vector PeerPort 10 :=
  ports.mapIdx fun d p => { p with replay := p.replay + Config.replays n d }

/-- Time, layer clocks and event counters after a step; the next free value is another one (assumption 2). Each layer's clock counts the
cycles that its frequency gives for the time that passes (R9). -/
def tick (s : State) : State :=
  let n := s.freshVal
  let ns := Config.elapsed n
  let mx := cyclesIn s.power.mx ns s.partMx
  let vx := cyclesIn s.power.vx ns s.partVx
  let vault := cyclesIn s.power.vault ns s.partVault
  let p : Passed := ⟨vx / 1000, mx / 1000, n⟩
  let s := countDie p s
  { s with
    time := s.time + ns, clkMx := s.clkMx + w64 (mx / 1000), clkVx := s.clkVx + w64 (vx / 1000), clkVault := s.clkVault + w64 (vault / 1000),
    partMx := mx % 1000, partVx := vx % 1000, partVault := vault % 1000, core := countCore p s.cur s.core,
    parked := s.parked.map fun e => (e.1, countCore p e.1 e.2), fab := { s.fab with port := countReplays n s.fab.port },
    freshVal := n + 1 }

/-- A turn: the agent moves, and the next agent follows. -/
def turnOf (s : State) : Out :=
  match agentOf s.turn s with
  | .next t => .next (tick { t with turn := s.turn.following })
  | o => o

/-- A word that GRD guards follows it before anything else (R29). -/
def guarded (s : State) : Out :=
  match runA s with
  | .next t => .next (tick t)
  | o => o

/-- An event of the agenda happens. -/
def happen (i : Instr) (rest : List Instr) (s : State) : Out :=
  match exec i { s with agenda := rest } with
  | .next t => .next (tick t)
  | o => o

end Sys2Proof.Machine
end

