-- ==== Sys2Proof/Machine/Place.lean ====
section
/-! DEFINITION. The placing of one instruction as the whole of a section (R120, R303), for `State.withFetchWord` (assumption 4). -/

namespace Sys2Proof.Machine

open Sys2Proof

/-- The bobbin of the strand that a placed instruction runs in, where no strand is bound. -/
def placedEntry (slot : Nat) : PoolEntry :=
  ⟨slot, ⟨0, 0, false, .bound, 0, 0, 0, 0, 0, Member.none, Member.none, 0, 0, 0, 0, 0⟩, 0, 0, none, none, 0, 0, none⟩

/-- A strand is bound to the selected core. -/
def bindPlaced (s : State) : State :=
  match s.core.slot with
  | some _ => s
  | none =>
    let slot := (freeSlot s).getD 0
    { s with pool := s.pool ++ [placedEntry slot], core := { s.core with slot := some slot } }

/-- A section of `n` bytes that holds the bits of `w`. -/
def placedSection (n w : Nat) : Section := ⟨0, n, listed 0 (leBytes n w)⟩

/-- The word of an A instruction at pc. -/
def placeA (w : Nat) (k : Core) : Core := { k with aseq := .running, pc := imgBase, grd := none, dbg := [], secA := placedSection 4 w }

/-- The words of a V instruction at vpc. -/
def placeV (n w : Nat) (k : Core) : Core :=
  { k with vseq := .running, vpc := imgBase, vrep := 0, grd := none, dbg := [], secV := placedSection n w }

/-- An M word at mpc. -/
def placeM (w : Nat) (k : Core) : Core := { k with mseq := .running, mpc := imgBase, grd := none, secM := placedSection 24 w }

/-- Whether the low bits are a word of the A-stream. -/
def isAWord (w : Nat) : Bool :=
  match decodeA (BitVec.ofNat 32 w) with
  | .ok _ => true
  | .error _ => false

/-- The bytes of the V instruction that a first parcel begins. -/
def vWordBytes (w : Nat) : Nat := 4 * (vLength (BitVec.ofNat 32 w)).getD 1

/-- The instruction of `nbits` bits `w` where the next step fetches: a 32-bit row is a word of the A-stream or a short V cell, a longer one
the instruction of that length (as in `decodeTableWord`). -/
def placeWord (s : State) (nbits w : Nat) : State :=
  let s := { bindPlaced s with agenda := [] }
  if nbits ≤ 32 then
    if isAWord w then
      let k := placeA w s.core
      { s with turn := if acquires k then .acquire else .a, core := k }
    else { s with turn := .v, core := placeV (vWordBytes w) w s.core }
  else if nbits ≤ 96 then { s with turn := .v, core := placeV (vWordBytes w) w s.core }
  else { s with turn := .m, core := placeM w s.core }

end Sys2Proof.Machine
end

