-- ==== Sys2Proof/Machine/Step.lean ====
section
/-! DEFINITION. One step of the machine (assumption 4), and the placing of an instruction where the next step fetches. -/

namespace Sys2Proof.Machine

open Sys2Proof

/-- One step: the word after a GRD, else the next event of the agenda, else the agent whose turn it is. -/
def step (s : State) : Host.Outcome State Fault Refusal :=
  if s.core.grd.isSome then guarded s
  else
    match s.agenda with
    | i :: rest => happen i rest s
    | [] => turnOf s

/-- The state with an instruction where the next step fetches it: a strand is bound to the selected core with the instruction as the whole
of its section, and the sequencer of that stream has the turn. -/
def State.withFetchWord (s : State) (nbits w : Nat) : State := placeWord s nbits w

end Sys2Proof.Machine
end

