-- ==== Sys2Proof/Safety.lean ====
section
/-! DEFINITION. What counts as a safe run, the invariant of the part's memories, and the terms in which statements say how an
instruction ends and what it leaves unchanged. -/

namespace Sys2Proof

open Machine

/-! ## Safe runs -/

/-- The part makes `n` steps from a state without the model's own stop (assumption 7). -/
def RunsFor (n : Nat) (s : State) : Prop := ∃ t, core.run n s = .next t

/-- A run that goes on for ever. -/
def Safe (s : State) : Prop := ∀ n, RunsFor n s

/-! ## The invariant -/

/-- The memories of a core are in canonical form: its core store and its accumulator store. -/
def CoreCanonical (k : Core) : Prop := Memory.wf k.cs = true ∧ Memory.wf k.acc = true

/-- Physical memory and every core's memories list each byte once, by rising address, and no byte that reads zero (assumption 1). -/
def Canonical (s : State) : Prop :=
  Memory.wf s.mem = true ∧ CoreCanonical s.core ∧ ∀ e ∈ s.parked, CoreCanonical e.2

/-! ## The A-stream -/

/-- Nothing outstanding keeps a word that reads the s-registers `rd` and the predicates `ps` from issuing (R87, R424). -/
abbrev Issues (s : State) (rd : List (BitVec 6)) (ps : List (BitVec 4)) : Prop := wordGate s.core rd ps = .go

/-- The state whose older accesses no longer reach the s-registers `rs` and the predicates `ps`, which a younger word has written (R87). -/
abbrev written (s : State) (rs : List (BitVec 6)) (ps : List (BitVec 4)) : State := { s with core := s.core.overwrite rs ps }

/-- The word is complete in state `s'` but for pc, which goes on to the next word; no GRD word guards that one, and the word is counted
(R141). -/
abbrev wordDone (s' : State) : State := { s' with core := { s'.core with pc := s'.core.pc + 4, grd := none }.note 3 1 }

/-- A word of `s` raises a trap, which consumes what `s'` lacks: the handler is entered once the reads issued before the word have written their
registers, and the word counts as issued (R141, R261, R265). -/
abbrev trapsIn (s s' : State) (code : TrapCode) (stream : Stream) (eval : Word) : State :=
  if s.core.readsOpen then { s with core := s.core.back } else takeTrap code stream s.core.wordAddr eval s.core.wordAddr (withCore (Core.note 3 1) s')

/-- An A word completes; beside pc it changes s-register `d` alone, which becomes `v` (s0 stays zero). -/
def CompletesS (i : Instr) (s : State) (d : BitVec 6) (v : Word) : Prop :=
  ∃ t, exec i s = .next t ∧ getS t d = (if d = 0 then 0 else v) ∧ (∀ r, r ≠ d → getS t r = getS s r) ∧
    t = wordDone { s with core := { s.core.overwrite [d] [] with s := t.core.s } }

/-- An A word completes; beside pc it changes predicate `p` alone, which becomes `b` (p0 stays true). -/
def CompletesP (i : Instr) (s : State) (p : BitVec 4) (b : Bool) : Prop :=
  ∃ t, exec i s = .next t ∧ getP t p = (if p = 0 then true else b) ∧ (∀ q, q ≠ p → getP t q = getP s q) ∧
    t = wordDone { s with core := { s.core.overwrite [] [p] with p := t.core.p } }

/-- An A word completes; beside pc it changes s-register `d`, which becomes `v`, and predicate `p`, which becomes `b`. -/
def CompletesSP (i : Instr) (s : State) (d : BitVec 6) (v : Word) (p : BitVec 4) (b : Bool) : Prop :=
  ∃ t, exec i s = .next t ∧ getS t d = (if d = 0 then 0 else v) ∧ (∀ r, r ≠ d → getS t r = getS s r) ∧
    getP t p = (if p = 0 then true else b) ∧ (∀ q, q ≠ p → getP t q = getP s q) ∧
    t = wordDone { s with core := { s.core.overwrite [d] [p] with s := t.core.s, p := t.core.p } }

/-- An A word completes and does nothing else than `t` says; pc goes on. -/
abbrev CompletesTo (i : Instr) (s s' : State) : Prop := exec i s = .next (wordDone s')

/-! ## The V-stream -/

/-- Element `i` of type `t` in a register (R163). -/
def elemAt (k : Core) (t : VTy) (r i : Nat) : Nat := (k.getV r).toNat / 2 ^ (i * t.bits) % 2 ^ t.bits

/-- Whether a mask makes element `i` active (R37). -/
def isActive (m : Mask) (t : VTy) (i : Nat) : Bool := m.getLsbD (i * t.bits / 8)

/-- The registers `rs` have frames, and no line of those that are checked is poisoned (R130, R329). -/
def RegsReady (s : State) (rs checked : List Nat) : Prop := s.core.hasRegs rs = true ∧ poisonedReg s.core checked = none

/-- The same for the present repetition of an element instruction: its sources and destination, and, before the first repetition, what the
whole run reads (R39, R262). -/
def ElementReady (f : VFields) (sh : VShape) (s : State) : Prop :=
  let r := repOf f s.core.vrep
  RegsReady s (readsOf sh r ++ regsAt r.vd sh.nd) (checkedRegs f sh.force (readsOf sh) (fun r => regsAt r.vd sh.nd) s.core)

/-- The present repetition of an instruction finds its sources: registers, entries that have arrived, constants (R33 to R41). -/
def Fetches (f : VFields) (sh : VShape) (s : State) (a b c : List Nat) (k : Core) : Prop :=
  fetch3 ⟨sh.src, f.literal, bobIndex s⟩ sh (repOf f s.core.vrep) s.core = some (a, b, c, k)

/-- What the present repetition computes from. -/
abbrev inputs (f : VFields) (s : State) (k : Core) (a b c : List Nat) : VIn :=
  ⟨a, b, c, cellsOf f k, ⟨modeOf f.modifier, k.srkey, k.srctr, 2048 * (repOf f s.core.vrep).no⟩⟩

/-- `s'` is `s` after the sources were taken (core `k`) with `nd` registers from `r` on written: at the elements that `m` makes active they
hold `val`, and every other byte of the core store is as before. -/
def WritesRegs (d : VTy) (m : Mask) (r nd : Nat) (k : Core) (s s' : State) (val : Nat → Nat) : Prop :=
  (∀ n i, n < nd → i < d.lanes →
    elemAt s'.core d (r + n) i = if isActive m d i then val (n * d.lanes + i) % 2 ^ d.bits else elemAt s.core d (r + n) i) ∧
  (∀ x, ¬(r * 0x400 ≤ x ∧ x < (r + nd) * 0x400) → memGet s'.core.cs x = memGet s.core.cs x) ∧
  s' = { s with
    core := { k with cs := s'.core.cs, csPoison := s'.core.csPoison, fresh := s'.core.fresh }
    monitors := s'.monitors }

/-- The flags that the active elements of `n` results raise (R164, R168). -/
def flagsOf (m : Mask) (d : VTy) (n : Nat) (val : Nat → El) : VFlags :=
  (List.range n).foldl (fun fl j => if isActive m d (j % d.lanes) then fl ||| (val j).fl else fl) 0

/-- A V instruction of `len` parcels, at its present repetition, computes element j of its destination registers as `val` says, raises the
flags of the active elements, and ends as `finishV` says: vpc goes on after the last repetition. -/
def ComputesElements (i : Instr) (len : Nat) (f : VFields) (sh : VShape) (s : State) (val : VIn → Nat → El) : Prop :=
  let r := repOf f s.core.vrep
  ∀ a b c k, Fetches f sh s a b c k → ElementReady f sh s → r.vd + sh.nd ≤ 1536 → Memory.wf s.core.cs = true →
    let inp := inputs f s k a b c
    let m := if sh.force then BitVec.allOnes 1024 else inp.cells
    ∃ s', exec i s = .next (finishV len r.last s (.done (flagsOf m sh.dst (sh.nd * sh.dst.lanes) (val inp)) s')) ∧
      WritesRegs sh.dst m r.vd sh.nd k s s' fun j => (val inp j).bits

/-- Element `j` of the first, second and third source, as a pattern of type `t`. -/
abbrev srcA (t : VTy) (inp : VIn) (j : Nat) : Nat := (els t inp.a)[j]?.getD 0
abbrev srcB (t : VTy) (inp : VIn) (j : Nat) : Nat := (els t inp.b)[j]?.getD 0
abbrev srcC (t : VTy) (inp : VIn) (j : Nat) : Nat := (els t inp.c)[j]?.getD 0

/-- A floating operand of an instruction: its exact value, a subnormal read as zero with ftz (R148). -/
abbrev operand (t : VTy) (inp : VIn) (x : Nat) : Fl := (vfmt t).read inp.rnd.vm.ftz x

/-- An exact floating value rounded once into type `t`, as element `j` of the result (R149, R150, R177). -/
abbrev rounded (t : VTy) (inp : VIn) (j : Nat) (anyNan : Bool) (x : Fl) : El :=
  floatEl (vfmt t) (inp.rnd.at j) inp.rnd.vm.sat inp.rnd.vm.ftz anyNan x

/-- An exact integer wrapped into type `t`, or saturated with sat (R144, R167). -/
abbrev wrapped (t : VTy) (inp : VIn) (x : Int) : El := intEl t.isSigned t.bits inp.rnd.vm.sat x

/-- An arithmetic instruction: `fi` of the three integers, or `ff` of the three floating values. -/
def arithEl (t : VTy) (fi : Int → Int → Int → Int) (ff : Fl → Fl → Fl → Fl) (inp : VIn) (j : Nat) : El :=
  if t.isFloat then
    let x := operand t inp (srcA t inp j)
    let y := operand t inp (srcB t inp j)
    let z := operand t inp (srcC t inp j)
    rounded t inp j (x.isNan || y.isNan || z.isNan) (ff x y z)
  else wrapped t inp (fi (intVal t (srcA t inp j)) (intVal t (srcB t inp j)) (intVal t (srcC t inp j)))

/-! ### Lines (R163, R190) -/

/-- Elements of a row of a register. -/
abbrev rowLen (t : VTy) : Nat := t.lanes / 16

/-- The line that element `p` stands in: the whole register, its column, or its row. -/
def lineOf {α : Type} (t : VTy) (col whole : Bool) (xs : List α) (p : Nat) : List α :=
  if whole then xs
  else if col then (List.range 16).filterMap fun j => xs[j * rowLen t + p % rowLen t]?
  else (xs.drop (p / rowLen t * rowLen t)).take (rowLen t)

/-- The position of element `p` in its line. -/
def posOf (t : VTy) (col whole : Bool) (p : Nat) : Nat := if whole then p else if col then p / rowLen t else p % rowLen t

/-- An element with the mask's bit for it. -/
structure Lane where
  on : Bool
  a : Nat
  b : Nat
  deriving DecidableEq, Repr

/-- The elements of the two sources with their activity. -/
def lanesOf (t : VTy) (inp : VIn) : List Lane :=
  (List.range t.lanes).map fun j => ⟨isActive inp.cells t j, srcA t inp j, srcB t inp j⟩

/-! ## The M-stream -/

/-- Nothing keeps an M word from starting: no fence before it, its count, its queue entries, and room for its reply (R45, R122, R222). -/
def Starts (f : MFields) (always : Bool) (s : State) : Prop :=
  (s.core.mflight.any fun w => w.fence || w.drain) = false ∧ mWaits f s.core = false ∧ canPop f s.core = true ∧
    ((f.rply || always) = true → s.core.rq.length + s.core.reserved < 15)

/-- Its operands are taken: `x`, and the queues that remain (R47). -/
def Takes (ca cb cc : LocCol) (f : MFields) (s : State) (x : MArgs) (mq : Bank (List Word) 2) : Prop :=
  ∃ k, popArgs ca cb cc f s.core = .ok (x, k) ∧ k.mq = mq

/-- The state after the start of a word that has the effect `s'` and is in flight from then on (R222, R224). -/
def started (op : BitVec 8) (f : MFields) (s : State) (mq : Bank (List Word) 2) (w : MStart) (s' : State) : State :=
  { s' with
    core := Core.note 5 1 { s'.core with
      mq := mq
      mflight := s'.core.mflight ++ [⟨s.core.mOffset, op, f.sigSem, f.sigInc,
        w.reply.or (if f.rply then some (plainReply s.core op) else none), w.fence, w.drain, w.qstep, w.slot⟩]
      metM := false } }

/-- The ranges of the core store and the tiles that a word reads and writes lie in the stores, have frames, and what is read is not
poisoned (R130, R225, R229). -/
def StoreReady (rd wr : List (Nat × Nat)) (yr yw : List Nat) (s : State) : Prop :=
  (∀ r ∈ rd ++ wr, r.1 + r.2 ≤ 0x200000) ∧ (∀ u ∈ unitsTouched (rd ++ wr) (yr ++ yw), s.core.units[u]? = some .own) ∧
    (∀ r ∈ rd, poisoned s.core.csPoison r = false) ∧ ∀ y ∈ yr, poisoned s.core.accPoison (y * 0x8000, 0x8000) = false

/-- Element `i` of `w` bits from byte address `a` of the core store on. -/
def fieldAt (k : Core) (a w i : Nat) : Nat :=
  leNat ((List.range (max 1 (w / 8))).map fun n => memGet k.cs (a + i * w / 8 + n)) / 2 ^ (i * w % 8) % 2 ^ w

/-- Element (j, m) of an accumulator tile (R212). -/
def elemY (k : Core) (y j m : Nat) : Nat := leNat ((List.range 4).map fun i => memGet k.acc (y * 0x8000 + 4 * (256 * j + m) + i))

/-- `s'` is `s` with accumulator tile `y` written: element (j, m) holds `val j m`, every other tile is as before. -/
def WritesTile (y : Nat) (s s' : State) (val : Nat → Nat → Nat) : Prop :=
  (∀ j m, j < 32 → m < 256 → elemY s'.core y j m = val j m % 2 ^ 32) ∧
  (∀ x, ¬(y * 0x8000 ≤ x ∧ x < y * 0x8000 + 0x8000) → memGet s'.core.acc x = memGet s.core.acc x) ∧
  s' = { s with core := { s.core with acc := s'.core.acc, accPoison := s'.core.accPoison, fresh := s'.core.fresh } }

/-- `s'` is `s` with `n` bytes of the core store from `a` on written; every other byte of it is as before. -/
def WritesStore (a n : Nat) (s s' : State) : Prop :=
  (∀ x, ¬(a ≤ x ∧ x < a + n) → memGet s'.core.cs x = memGet s.core.cs x) ∧
  s' = { s with
    core := { s.core with cs := s'.core.cs, csPoison := s'.core.csPoison, fresh := s'.core.fresh }
    monitors := s'.monitors }

/-! ## Words, steps, the engines -/

/-- Parcel `n` of a list. -/
abbrev parcelAt (ps : List Parcel) (n : Nat) : Parcel := ps[n]?.getD 0

/-- The 192 bits of six parcels. -/
abbrev bits192 (ps : List Parcel) : BitVec 192 := BitVec.ofNat 192 (ps.foldr (fun p x => p.toNat + 2 ^ 32 * x) 0)

/-- The little-endian parcel at offset `o` of a section (R2, R15). -/
abbrev parcelOf (sec : Section) (o : Nat) : Parcel := BitVec.ofNat 32 (leNat ((List.range 4).map fun n => memGet sec.bytes (o + n)))

/-- What a step makes of a word's or an event's effect: time passes (assumption 2), and the turn goes on to `next` (assumption 4). -/
abbrev thenTurn (next : Turn) : Host.Outcome State Fault Refusal → Host.Outcome State Fault Refusal
  | .next t => .next (tick { t with turn := next })
  | o => o

/-- The same without a turn. -/
abbrev thenTick : Host.Outcome State Fault Refusal → Host.Outcome State Fault Refusal
  | .next t => .next (tick t)
  | o => o

/-- Where an address lies in its section. -/
abbrev InSection (sec : Section) (pc : Word) (o : Nat) (n : Nat) : Prop :=
  (pc - imgBase).toNat = sec.off + o ∧ o + n ≤ sec.size ∧ Memory.wf sec.bytes = true

/-- Fragments of a stripe on the paths that R418 gives them; `again` tells a retransmission. -/
abbrev fragmentsOf (f : Fabric) (st : StripeOut) (again : Bool) : List FabOut :=
  let paths := (availablePaths f st.dst.toNat (isMsgBody st.body)).length
  (List.range (st.k + st.m)).map fun i =>
    FabOut.fragment st.dst
      (if st.dst.toNat = ownLabel f then none else some ((i + st.seq.toNat + (if again then st.k + st.m else 0)) % paths))
      ⟨BitVec.ofNat 10 (ownLabel f), st.seq, st.cls, st.k, st.m, i, st.len, st.body, fragmentBytes st.k i st.data⟩

/-- Whether a label can be reached for a stripe (R417, R418). -/
abbrev Reaches (f : Fabric) (st : StripeOut) : Prop := st.dst.toNat = ownLabel f ∨ availablePaths f st.dst.toNat (isMsgBody st.body) ≠ []

/-- Fragments of an answer to stripe `seq` of a part, with the class-0 code (R427). -/
abbrev answerFragments (f : Fabric) (dst : BitVec 10) (seq : BitVec 32) (what : Answer) : List FabOut :=
  let paths := (availablePaths f dst.toNat false).length
  (List.range (1 + (bank f.rate 0).m.toNat)).map fun i =>
    FabOut.answer dst (if dst.toNat = ownLabel f then none else some ((i + seq.toNat) % paths)) seq i what

/-- Whether a part can be reached for an answer (R417, R418). -/
abbrev AnswerLeaves (f : Fabric) (dst : BitVec 10) : Prop := dst.toNat = ownLabel f ∨ availablePaths f dst.toNat false ≠ []

/-- A completion counter after a request that names it with `x` is complete: its OK rises by 1 (R404, R409). -/
abbrev CountsOk (x : BitVec 32) (s t : State) : Prop :=
  ∀ n, cntAt t n = if cntNamed x = some n then (cntAt s n).extractLsb' 48 16 ++ ((cntAt s n).extractLsb' 0 48 + 1) else cntAt s n

/-- A completion counter after a request that names it has failed: its FAIL rises by 1, to 1,023 at most (R404, R409). -/
abbrev CountsFail (x : BitVec 32) (s t : State) : Prop :=
  ∀ n, cntAt t n =
    if cntNamed x = some n then
      (cntAt s n).extractLsb' 58 6 ++ BitVec.ofNat 10 (min 1023 (((cntAt s n).extractLsb' 48 10).toNat + 1)) ++ (cntAt s n).extractLsb' 0 48
    else cntAt s n

/-- Block of a stripe of data blocks by its role (R442): data index 0 to 5, 6 for Q, 7 for P. -/
abbrev stripeBlock (ds : List (List Byte)) (role : Nat) : List Byte :=
  if role < 6 then ds[role]?.getD []
  else (List.range 4096).map fun t => (List.range 6).foldl
    (fun acc i => acc ^^^ BitVec.ofNat 8 (gfMul (if role = 7 then 1 else gfPow 2 i) ((ds[i]?.getD [])[t]?.getD 0).toNat)) 0

end Sys2Proof
end

