-- ==== Sys2Proof/WellFormed.lean ====
section
/-! DEFINITION. Which instructions have a word: those whose field values the encoding chapter and their own entries admit. -/

namespace Sys2Proof

/-- R16 to R49: the instruction raises no decode trap, and a hint cell carries a hint opcode and its own length (R18). -/
def Instr.wellFormed (i : Instr) : Bool :=
  (instrFault i).isNone &&
    match i with
    | .vHint w => vRawOk w
    | .mHint w => 0xF0 ≤ w.extractLsb' 0 8
    | _ => true

end Sys2Proof
end

