-- ==== Sys2Proof/Certificates/Slice0/Obligations.lean ====
section
/-! DEFINITION. The statements: what every word and every event does, decoding and steps, and the invariant of the memories. -/

open Sys2Proof Sys2Proof.Machine

/-- R89: a sum, a difference, the low and the high half of a product, bitwise results, shifts and the lesser or greater of two s-registers go
to the destination; nothing else changes but pc. A destination s0 discards the result (R21). R22, R89, R91, R92: words with one source or
an immediate. R90: quotients truncate toward zero and remainders have the sign of the dividend; the division of −2^63 by −1 gives −2^63
and remainder 0. R90, R116: with a zero divisor, DIV_ZERO with c.aexc.DZE set; with it clear the quotient is all ones, the remainder is
the dividend, and DZF is set. -/
def Obligations.IntegerWords : Prop :=
  (∀ (s : State) (d a b : BitVec 6), Issues s [a, b] [] →
    let x := getS s a
    let y := getS s b
    CompletesS (.add d a b) s d (x + y) ∧
    CompletesS (.sub d a b) s d (x - y) ∧
    CompletesS (.mul d a b) s d (x * y) ∧
    CompletesS (.mulh d a b) s d (BitVec.ofInt 64 (x.toInt * y.toInt / 2 ^ 64)) ∧
    CompletesS (.and d a b) s d (x &&& y) ∧
    CompletesS (.or d a b) s d (x ||| y) ∧
    CompletesS (.xor d a b) s d (x ^^^ y) ∧
    CompletesS (.shl d a b) s d (if y.toNat < 64 then x <<< y.toNat else 0) ∧
    CompletesS (.shr d a b) s d (if y.toNat < 64 then x >>> y.toNat else 0) ∧
    CompletesS (.sra d a b) s d (if y.toNat < 64 then x.sshiftRight y.toNat else if x.toInt < 0 then -1 else 0) ∧
    CompletesS (.min d a b) s d (if x.toInt ≤ y.toInt then x else y) ∧
    CompletesS (.max d a b) s d (if x.toInt ≤ y.toInt then y else x)) ∧
  (∀ (s : State) (d a : BitVec 6) (imm : BitVec 14) (amount : BitVec 7) (wide : BitVec 20),
    (Issues s [a] [] →
      let x := getS s a
      CompletesS (.clz d a) s d (if x = 0 then 64 else BitVec.ofNat 64 (63 - x.toNat.log2)) ∧
      CompletesS (.popc d a) s d (BitVec.ofNat 64 ((List.range 64).countP x.getLsbD)) ∧
      CompletesS (.sextI8 d a) s d ((x.extractLsb' 0 8).signExtend 64) ∧
      CompletesS (.sextI16 d a) s d ((x.extractLsb' 0 16).signExtend 64) ∧
      CompletesS (.sextI32 d a) s d ((x.extractLsb' 0 32).signExtend 64) ∧
      CompletesS (.zextN8 d a) s d (BitVec.ofNat 64 (x.toNat % 2 ^ 8)) ∧
      CompletesS (.zextN16 d a) s d (BitVec.ofNat 64 (x.toNat % 2 ^ 16)) ∧
      CompletesS (.zextN32 d a) s d (BitVec.ofNat 64 (x.toNat % 2 ^ 32)) ∧
      CompletesS (.addi d a imm) s d (x + imm.signExtend 64) ∧
      CompletesS (.andi d a imm) s d (x &&& imm.signExtend 64) ∧
      CompletesS (.ori d a imm) s d (x ||| imm.signExtend 64) ∧
      CompletesS (.xori d a imm) s d (x ^^^ imm.signExtend 64) ∧
      CompletesS (.shli d a amount) s d (if amount.toNat < 64 then x <<< amount.toNat else 0) ∧
      CompletesS (.shri d a amount) s d (if amount.toNat < 64 then x >>> amount.toNat else 0) ∧
      CompletesS (.srai d a amount) s d
        (if amount.toNat < 64 then x.sshiftRight amount.toNat else if x.toInt < 0 then -1 else 0)) ∧
    (Issues s [] [] →
      CompletesS (.movi d wide) s d (wide.signExtend 64) ∧
      CompletesS (.addpc d wide) s d (s.core.pc + BitVec.ofInt 64 (4 * wide.toInt))) ∧
    (Issues s [d] [] → CompletesS (.lsi d wide) s d (BitVec.ofNat 64 ((getS s d).toNat * 2 ^ 20 + wide.toNat)))) ∧
  (∀ (s : State) (d a b : BitVec 6), Issues s [a, b] [] → getS s b ≠ 0 →
    let x := getS s a
    let y := getS s b
    CompletesS (.div d a b) s d (BitVec.ofInt 64 (x.toInt.tdiv y.toInt)) ∧
    CompletesS (.divu d a b) s d (BitVec.ofNat 64 (x.toNat / y.toNat)) ∧
    CompletesS (.rem d a b) s d (BitVec.ofInt 64 (x.toInt.tmod y.toInt)) ∧
    CompletesS (.remu d a b) s d (BitVec.ofNat 64 (x.toNat % y.toNat))) ∧
  (∀ (s : State) (d a b : BitVec 6), Issues s [a, b] [] → getS s b = 0 →
    (∀ p ∈ [(Instr.div d a b, (-1 : Word)), (Instr.divu d a b, -1), (Instr.rem d a b, getS s a), (Instr.remu d a b, getS s a)],
      if s.core.aexc.getLsbD 0 then exec p.1 s = .next (trapsIn s s .divZero .a 0)
      else
        ∃ t, exec p.1 s = .next t ∧ getS t d = (if d = 0 then 0 else p.2) ∧ (∀ r, r ≠ d → getS t r = getS s r) ∧
          t.core.aexc.getLsbD 8 = true ∧ (∀ i, i ≠ 8 → t.core.aexc.getLsbD i = s.core.aexc.getLsbD i) ∧
          t = wordDone { s with core := { s.core.overwrite [d] [] with s := t.core.s, aexc := t.core.aexc } }))

/-- R92: compares write a predicate, PAND and POR combine two, SEL chooses between two s-registers; p0 stays true (R21). -/
def Obligations.CompareWords : Prop :=
  ∀ (s : State) (p q r : BitVec 4) (d a b : BitVec 6) (imm : BitVec 14) (inv : Bool),
    (Issues s [a, b] [] →
      let x := getS s a
      let y := getS s b
      CompletesP (.cmpEq p a b) s p (decide (x = y)) ∧
      CompletesP (.cmpNe p a b) s p (decide (x ≠ y)) ∧
      CompletesP (.cmpLt p a b) s p (decide (x.toInt < y.toInt)) ∧
      CompletesP (.cmpLe p a b) s p (decide (x.toInt ≤ y.toInt)) ∧
      CompletesP (.cmpLtu p a b) s p (decide (x.toNat < y.toNat)) ∧
      CompletesP (.cmpLeu p a b) s p (decide (x.toNat ≤ y.toNat)) ∧
      CompletesP (.cmpAll p a b) s p (decide (x &&& y = y)) ∧
      CompletesP (.cmpAny p a b) s p (decide (x &&& y ≠ 0))) ∧
    (Issues s [a] [] →
      let x := getS s a
      CompletesP (.cmpiEq p a imm) s p (decide (x = imm.signExtend 64)) ∧
      CompletesP (.cmpiLt p a imm) s p (decide (x.toInt < imm.toInt)) ∧
      CompletesP (.cmpiLtu p a imm) s p (decide (x.toNat < (imm.signExtend 64).toNat))) ∧
    (Issues s [] [q, r] →
      CompletesP (.pand p q r inv) s p (getP s q && (getP s r ^^ inv)) ∧
      CompletesP (.por p q r inv) s p (getP s q || (getP s r ^^ inv))) ∧
    (Issues s [a, b] [p] → CompletesS (.sel d p a b) s d (if getP s p then getS s a else getS s b))

/-- A branch that is taken goes to the address in its b-register; the first one after a handler has written c.evec leaves the handler, and a
stream whose trap is not delivered yet stays stopped (R94, R264, R266). R93, R95, R30: PB and PBR write a b-register, LCSET a loop
counter, a hint word nothing. R29: GRD decodes the next word in full; where that word may be guarded it runs next if the guard holds and
is passed over if not. That a stream with a trap not yet delivered stays stopped at a branch is log 72. -/
def Obligations.BranchWords : Prop :=
  (∀ (s : State) (b : BitVec 3) (p : BitVec 4) (sense : Bool) (link : BitVec 6) (lc : BitVec 2),
    let target := bank s.core.b b
    let taken := getP s p ^^ sense
    (Issues s [] [p] →
      exec (.br b p sense) s = .next (if taken then { s with core := s.core.branch target s.time } else wordDone s) ∧
      (let n := bank s.core.lc lc
       exec (.bloop b p sense lc) s =
        .next (if taken = true ∧ n ≠ 0 then { s with core := { s.core with lc := bankSet s.core.lc lc (n - 1) }.branch target s.time }
          else wordDone s)) ∧
      exec (.brl b p sense link) s =
        .next (if taken then { s with core := (s.core.setS link (s.core.pc + 4)).branch target s.time } else wordDone s)) ∧
    (s.core.rearmed = false →
      (s.core.branch target s.time).pc = target ∧
        s.core.branch target s.time = Core.note 3 1 { s.core with pc := target, grd := none }) ∧
    (s.core.rearmed = true →
      (s.core.branch target s.time).pc = target ∧ (s.core.branch target s.time).inHandler = false ∧
        (s.core.vtrap = none → ∀ r, s.core.vseq = .trapped r →
          (s.core.branch target s.time).vseq = .running ∧ (s.core.branch target s.time).vpc = r) ∧
        (s.core.vtrap ≠ none → (s.core.branch target s.time).vseq = s.core.vseq) ∧
        (s.core.mseq = .brk →
          (s.core.branch target s.time).mseq = if s.core.rq.any (·.fault) then .brk else .running))) ∧
  (∀ (s : State) (b : BitVec 3) (a : BitVec 6) (hint : Hint) (disp : BitVec 21) (lc : BitVec 2) (x : BitVec 26),
    (Issues s [] [] →
      CompletesTo (.pb b hint disp) s
        { s with core := { s.core with b := bankSet s.core.b b (s.core.pc + BitVec.ofInt 64 (4 * disp.toInt)) } } ∧
      CompletesTo (.nop x) s s) ∧
    (Issues s [a] [] →
      CompletesTo (.pbr b a hint) s { s with core := { s.core with b := bankSet s.core.b b (getS s a) } } ∧
      CompletesTo (.lcset lc a) s
        { s with core := { s.core with lc := bankSet s.core.lc lc (BitVec.ofNat 32 (getS s a).toNat) } })) ∧
  (∀ (s : State) (sense : Bool) (p : BitVec 4), Issues s [] [p] →
    let next := s.core.pc + 4
    match fetchA { s.core with pc := next } with
    | none => exec (.grd sense p) s = .next (trapsIn s s .illegal .a 0)
    | some w =>
      match guardFault w with
      | some c => exec (.grd sense p) s = .next (trapsIn s s c .a 0)
      | none =>
        exec (.grd sense p) s =
          .next (if getP s p ^^ sense then { s with core := { s.core with pc := next, grd := some s.core.pc } }
            else { s with core := Core.note 3 1 { s.core with pc := next + 4, grd := none } }))

/-- R96, R7: a load of 1, 2, 4 or 8 bytes whose address is aligned where its order asks for that, is not watched, lies in this part and waits
for no earlier access, reads its bytes and completes: the destination takes the value, sign-extended or zero-extended, and p14 tells
whether a byte was missing. Nothing else changes but pc, and the counts of c.ev (R141). R2, R96, R310: bytes in memory that is neither
poisoned nor lost read as memory holds them; a byte on a page that is not resident reads zero and counts as missing in a load that is not
strict. -/
def Obligations.LoadWords : Prop :=
  (∀ (s : State) (d a : BitVec 6) (ord : LdOrder) (strict : Bool) (off : BitVec 11), Issues s [a] [] →
    ∀ p ∈ ([(Instr.ldI8 d a ord strict off, 1, true), (Instr.ldN8 d a ord strict off, 1, false), (Instr.ldI16 d a ord strict off, 2, true),
        (Instr.ldN16 d a ord strict off, 2, false), (Instr.ldI32 d a ord strict off, 4, true), (Instr.ldN32 d a ord strict off, 4, false),
        (Instr.ldB64 d a ord strict off, 8, false)] : List (Instr × Nat × Bool)),
      let n := p.2.1
      let va := getS s a + BitVec.ofInt 64 (off.toInt * n)
      let sites := strandSites s false false va n
      (ord = .plain ∨ va.toNat % n = 0) → watchHit s va = false → peerOf sites = none → localWaits s (ord == .sc) false va sites = false →
        ∀ seen, readSites (if strict then .strict else .load) sites s = .ok seen s →
          let miss := seen.miss.any id
          ∃ t, exec p.1 s = .next t ∧ getS t d = (if d = 0 then 0 else extended p.2.2 seen.bytes) ∧ (∀ r, r ≠ d → getS t r = getS s r) ∧
            getP t 14 = miss ∧ (∀ q, q ≠ 14 → getP t q = getP s q) ∧
            t = wordDone (noteMiss miss { s with core := { s.core.overwrite [d] [14] with s := t.core.s, p := t.core.p } })) ∧
  (∀ (s : State) (kind : ReadKind) (sites : List Site),
    let clean (pa : Nat) : Prop := s.sv.deadLines.contains (pa / 64) = false ∧ s.poison.contains (pa / 64) = false
    ((∀ x ∈ sites, ∃ pa, x = .mem pa ∧ clean pa) →
      readSites kind sites s =
        .ok ⟨sites.map fun x => match x with | .mem pa => memGet s.mem pa | _ => 0, sites.map fun _ => false⟩ s) ∧
    ((∀ x ∈ sites, (∃ pa, x = .mem pa ∧ clean pa) ∨ ∃ b i, x = .page b i) →
      readSites .load sites s =
        .ok ⟨sites.map fun x => match x with | .mem pa => memGet s.mem pa | _ => 0,
          sites.map fun x => match x with | .page _ _ => true | _ => false⟩ s))

/-- R96: a store of 1, 2, 4 or 8 bytes whose address is aligned where its order asks for that, is not watched, lies in this part and waits for
no earlier access, writes the low bytes of its source at its address and completes; a protected store that no holder keeps is recorded
(R445). R2, R96: the bytes that a store leaves in memory, and what it leaves alone. The bytes lie where translation of the store's address
puts them. (Memory that Selvedge does not protect; parity has its own statement.) -/
def Obligations.StoreWords : Prop :=
  (∀ (s : State) (d a : BitVec 6) (ord : StOrder) (off : BitVec 11), Issues s [d, a] [] →
    ∀ p ∈ ([(Instr.stB8 d a ord off, 1), (Instr.stB16 d a ord off, 2), (Instr.stB32 d a ord off, 4), (Instr.stB64 d a ord off, 8)] : List (Instr × Nat)),
      let n := p.2
      let va := getS s a + BitVec.ofInt 64 (off.toInt * n)
      let sites := strandSites s true false va n
      (ord = .plain ∨ va.toNat % n = 0) → watchHit s va = false → peerOf sites = none → localWaits s (ord == .sc) (ord != .plain) va sites = false →
        ∀ kept s', writeSites sites (leBytes n (getS s d).toNat) (strandWriter s) va s = .ok kept s' →
          exec p.1 s = .next (wordDone (noteKept kept va s'))) ∧
  (∀ (s : State) (d a : BitVec 6) (ord : StOrder) (off : BitVec 11), Issues s [d, a] [] → Canonical s → s.sv.en = false →
    ∀ p ∈ ([(Instr.stB8 d a ord off, 1), (Instr.stB16 d a ord off, 2), (Instr.stB32 d a ord off, 4), (Instr.stB64 d a ord off, 8)] : List (Instr × Nat)),
      let n := p.2
      let va := getS s a + BitVec.ofInt 64 (off.toInt * n)
      ∀ pa : Nat, strandSites s true false va n = (List.range n).map (fun i => Site.mem (pa + i)) →
        (ord = .plain ∨ va.toNat % n = 0) → watchHit s va = false →
        localWaits s (ord == .sc) (ord != .plain) va (strandSites s true false va n) = false →
          ∃ t, exec p.1 s = .next t ∧
            (∀ i, i < n → memGet t.mem (pa + i) = BitVec.ofNat 8 ((getS s d).toNat / 256 ^ i)) ∧
            (∀ x, ¬(pa ≤ x ∧ x < pa + n) → memGet t.mem x = memGet s.mem x) ∧
            t = wordDone { s with
              mem := t.mem, poison := heal pa n s.poison, images := bumpImages pa n s.images, monitors := touchMonitors pa n s.monitors })

/-- R99, R100, R334: an atomic answers the old value, zero-extended, and leaves the new one at the location: its sum, bitwise combination,
signed or unsigned minimum or maximum, exchange, or floating sum with the operand; CAS writes only where the old value is the expected
one. -/
def Obligations.AtomicWords : Prop :=
  ∀ (s : State) (d a b : BitVec 6) (size : MemSize) (ord : AmoOrder), Canonical s → s.sv.en = false →
    let va := getS s a
    let bits := 8 * size.bytes
    let v := (getS s b).toNat % 2 ^ bits
    let cmp := (getS s d).toNat % 2 ^ bits
    let below (x y : Nat) : Bool := decide (signedOf bits x < signedOf bits y)
    ∀ p ∈ ([(Instr.amoAdd d a b size ord, [a, b], true, size.bytes, fun old => some ((old + v) % 2 ^ bits)),
        (Instr.amoAnd d a b size ord, [a, b], false, size.bytes, fun old => some (old &&& v)),
        (Instr.amoOr d a b size ord, [a, b], false, size.bytes, fun old => some (old ||| v)),
        (Instr.amoXor d a b size ord, [a, b], false, size.bytes, fun old => some (old ^^^ v)),
        (Instr.amoMin d a b size ord, [a, b], false, size.bytes, fun old => some (if below v old then v else old)),
        (Instr.amoMax d a b size ord, [a, b], false, size.bytes, fun old => some (if below v old then old else v)),
        (Instr.amoMinu d a b size ord, [a, b], false, size.bytes, fun old => some (min old v)),
        (Instr.amoMaxu d a b size ord, [a, b], false, size.bytes, fun old => some (max old v)),
        (Instr.swap d a b size ord, [a, b], true, size.bytes, fun _ => some v),
        (Instr.cas d a b size ord, [a, b, d], true, size.bytes, fun old => if old = cmp then some v else none),
        (Instr.amoFadd d a b true ord, [a, b], false, 4, fun old => some (faddF32 old ((getS s b).toNat % 2 ^ 32))),
        (Instr.amoFadd d a b false ord, [a, b], false, 2, fun old => some (faddBf16 old ((getS s b).toNat % 2 ^ 16)))] :
          List (Instr × List (BitVec 6) × Bool × Nat × (Nat → Option Nat))),
      let n := p.2.2.2.1
      ∀ pa : Nat, Issues s p.2.1 [] → va.toNat % n = 0 → watchHit s va = false →
        localWaits s false (amoReleases ord) va (strandSites s true true va n) = false →
        strandSites s true true va n = (List.range n).map (fun i => Site.mem (pa + i)) →
        (pa + n ≤ hostBase ∨ hostEnd ≤ pa ∨ (p.2.2.1 = true ∧ 4 ≤ n)) →
        (∀ i, i < n → s.sv.deadLines.contains ((pa + i) / 64) = false ∧ s.poison.contains ((pa + i) / 64) = false) →
          let old := leNat ((List.range n).map fun i => memGet s.mem (pa + i))
          ∃ t, exec p.1 s = .next t ∧ getS t d = (if d = 0 then 0 else BitVec.ofNat 64 old) ∧ (∀ r, r ≠ d → getS t r = getS s r) ∧
            (∀ i, i < n → memGet t.mem (pa + i) = BitVec.ofNat 8 ((p.2.2.2.2 old).getD old / 256 ^ i)) ∧
            (∀ x, ¬(pa ≤ x ∧ x < pa + n) → memGet t.mem x = memGet s.mem x) ∧
            t = wordDone { s with
              core := { s.core.overwrite [d] [] with s := t.core.s }, mem := t.mem, poison := t.poison, images := t.images, monitors := t.monitors }

/-- R97, R98, R106, R121: LDQ appends 1,024 bytes to a stream register that has room and no CP.Q on its way; MQPUSH appends to an mq that has
room; QPOP takes the oldest entry of rq or a vq, and a fault entry of rq raises M_FAULT; MQ.FLUSH empties one mq or all and answers how
many entries it dropped. R107 to R111, R113, R114: a copy word reads its record from six registers and, where the record meets the rules
and the queue has room, queues the command; a bad record raises COPY with reason 1; a stopped copy's trap comes first. CP.FLUSH drops the
queue once its first command cannot start. -/
def Obligations.QueueAndCopyWords : Prop :=
  (∀ (s : State) (d a : BitVec 6) (q : BitVec 4) (j : BitVec 2) (acq strict : Bool) (off : BitVec 11),
    (Issues s [a] [] →
      let va := getS s a + BitVec.ofInt 64 (off.toInt * 64)
      let sites := strandSites s false false va 1024
      va.toNat % 64 = 0 → watchHit s va = false → (bank s.core.q q).length < 8 → s.core.copiesTo q = false → peerOf sites = none →
        localWaits s false false va sites = false → ∀ seen, readSites (if strict then .strict else .load) sites s = .ok seen s →
          let miss := seen.miss.any id
          exec (.ldq q a acq strict off) s =
            .next (wordDone (noteMiss miss (setP 14 miss { s with core := { s.core with
              q := bankSet s.core.q q (bank s.core.q q ++ [⟨BitVec.ofNat 8192 (leNat seen.bytes), true, 0⟩]) } })))) ∧
    (Issues s [a] [] → (bank s.core.mq j).length < 16 →
      CompletesTo (.mqpush j a) s { s with core := { s.core with mq := bankSet s.core.mq j (bank s.core.mq j ++ [getS s a]) } }) ∧
    (Issues s [] [] →
      (∀ x rest, s.core.rq = ⟨false, x⟩ :: rest →
        CompletesTo (.qpop d .rq) s (setS d x { s with core := { s.core with rq := rest } })) ∧
      (∀ x rest, s.core.rq = ⟨true, x⟩ :: rest →
        exec (.qpop d .rq) s =
          .next (trapsIn s { s with core := { s.core with rq := rest } } .mFault .m x)) ∧
      (∀ x rest, bank s.core.vq j = x :: rest →
        CompletesTo (.qpop d (.vq j)) s (setS d x { s with core := { s.core with vq := bankSet s.core.vq j rest } })) ∧
      CompletesTo (.mqFlush d (some j)) s
        (setS d (BitVec.ofNat 64 (bank s.core.mq j).length) { s with core := { s.core with mq := bankSet s.core.mq j [] } }) ∧
      CompletesTo (.mqFlush d none) s
        (setS d (BitVec.ofNat 64 (s.core.mq.toList.map List.length).sum)
          { s with core := { s.core with mq := Vector.replicate _ [] } }))) ∧
  (∀ (s : State) (d a : BitVec 6) (q : BitVec 4),
    (Issues s (recordRegs a 6) [] →
      ∀ p ∈ [(Instr.cp a, CopyKind.cp), (Instr.cpBolt a, CopyKind.bolt), (Instr.cpQ q a, CopyKind.toQ q)],
        let c := readCopy p.2 a s
        let top := (getS s (a + 5)).extractLsb' 43 21
        (∀ code x, s.core.copyTrap = some (code, x) →
          exec p.1 s = .next (trapsIn s { s with core := { s.core with copyTrap := none, copyq := [], copyRun := [] } } code .copy x)) ∧
        (s.core.copyTrap = none →
          (copyOk s c top = true → s.core.copyq.length < 32 →
            CompletesTo p.1 s { s with core := { s.core with copyq := s.core.copyq ++ [c] } }) ∧
          (copyOk s c top = false → exec p.1 s = .next (trapsIn s s .copy .copy 1)))) ∧
    (Issues s [] [] → s.core.copyTrap = none →
      (s.core.copyq = [] → CompletesS (.cpFlush d) s d 0) ∧
      (∀ c rest, s.core.copyq = c :: rest → c.ready s.core = false →
        CompletesTo (.cpFlush d) s (setS d (BitVec.ofNat 64 (rest.length + 1)) { s with core := { s.core with copyq := [] } }))))

/-- R103, R126, R127: SEM.SIG adds, once the strand's peer accesses to its own core are over, and raises SEM_OVF past 65,535; SEM.ACQ
subtracts once the count is there, which leaves the waits that it satisfied satisfied, and raises SEM_OVF for an amount no count reaches;
SEM.RD reads. R101, R102, R348, R431: a FENCE with no recorded fault of its paths and scope completes once every access it covers has; one
that reaches other parts begins the strand's broken streams anew once every loss is delivered. It does nothing else. That a FENCE renews
the broken streams once every loss of theirs is delivered is log 61; which protected stores a FENCE of scope SURVIVE covers is log 54;
which recorded fault it delivers first is log 102. -/
def Obligations.SemaphoresAndFences : Prop :=
  (∀ (s : State) (d a : BitVec 6) (sem : BitVec 8),
    let c := (bank s.core.sem sem).toNat
    let n := (getS s a).toNat
    (Issues s [a] [] →
      openAt s (coreBase + s.cur * 0x200000) 0x200000 = false →
      (c + n ≤ 65535 →
        CompletesTo (.semSig sem a) s
          { s with core := Core.note 0x1B 1 { s.core with sem := bankSet s.core.sem sem (BitVec.ofNat 16 (c + n)) } }) ∧
      (65535 < c + n → exec (.semSig sem a) s = .next (trapsIn s s .semOvf .a (sem.zeroExtend 64)))) ∧
    (Issues s [a] [] →
      (n ≤ c → CompletesTo (.semAcq d sem a) s
        (setS d (BitVec.ofNat 64 (c - n))
          { s with core := { s.core.latchWaits with sem := bankSet s.core.sem sem (BitVec.ofNat 16 (c - n)) } })) ∧
      (65535 < n → exec (.semAcq d sem a) s = .next (trapsIn s s .semOvf .a (sem.zeroExtend 64))) ∧
      (c < n → n ≤ 65535 → exec (.semAcq d sem a) s = .next { s with core := s.core.back })) ∧
    (s.core.latchWaits.metV = (s.core.metV || waitMet s.core (vWaitOf s.core)) ∧
      s.core.latchWaits.metM = (s.core.metM || waitMet s.core (mWaitOf s.core)) ∧
      ∀ c ∈ s.core.copyq, ∃ c' ∈ s.core.latchWaits.copyq,
        c' = { c with met := c.met || decide (c.wthr ≤ bank s.core.sem c.wsem) }) ∧
    (Issues s [] [] → CompletesS (.semRd d sem) s d (BitVec.ofNat 64 c))) ∧
  (∀ (s : State) (scope : FenceScope) (ord : FenceOrder) (paths : BitVec 5), Issues s [] [] →
    (paths.getLsbD 1 = true → s.core.copyTrap = none) → s.core.readFault = none → (wideScope scope = true → s.core.storeFaults = []) →
      (scope = .survive → s.core.ndur = none) →
        (fenceWaits scope paths s = false →
          CompletesTo (.fence scope ord paths) s (if wideScope scope && paths.getLsbD 0 then renewAt s else s)) ∧
        (lossesDelivered s.core = true → renewAt s = renewStreams s) ∧ (lossesDelivered s.core = false → renewAt s = s) ∧
        (fenceWaits scope paths s = true → exec (.fence scope ord paths) s = .next { s with core := s.core.back }))

/-- R72, R78, R267, R458: with no stop wanted, or where the V- or the M-stream is past its marker, a SEAM word counts its passage and clears a
spin mark of another SEAM word; with a stop wanted, and V and M not past it, the strand stands there, or is lost with SEAM_INTEGRITY where
a fault other than BRK has stopped the M sequencer. SPIN marks the SEAM word before it. R75: SUSPEND gives up or arms the strand's monitor
and posts a stop of the strand, cause 3 for s0, else 4. R76: EXIT with V and M at an end, nothing outstanding, nothing to deliver and
every queue empty ends the strand: its bobbin is DONE and the core has no strand; with an entry left in a queue the bobbin is LOST. That
SUSPEND of slot s0 drops an armed monitor is log 38. -/
def Obligations.SeamsStopsAndExit : Prop :=
  (∀ (s : State) (id : BitVec 22), Issues s [] [] →
    let k := s.core
    let n := passages k.passA id
    (k.stopWanted = false ∨ n < passages k.passV id ∨ n < passages k.passM id →
      ∃ t, exec (.seam id) s = .next t ∧ passages t.core.passA id = n + 1 ∧
        (∀ x, x ≠ id → passages t.core.passA x = passages k.passA x) ∧
        (∀ x since, k.spin = some (x, since) → t.core.spin = if x = id then some (x, since) else none) ∧
        t = wordDone { s with core := { k with passA := t.core.passA, spin := t.core.spin } }) ∧
    (k.stopWanted = true → k.mseq ≠ .faulted → passages k.passV id ≤ n → passages k.passM id ≤ n →
      exec (.seam id) s = .next { s with core := { k with aseq := .atSeam id, grd := none, wait := none } }) ∧
    (∀ e, k.slot = some e.slot → poolEntry s e.slot = some e → k.stopWanted = true → k.mseq = .faulted → passages k.passV id ≤ n →
      passages k.passM id ≤ n →
        ∃ t e', exec (.seam id) s = .next t ∧ t.core.slot = none ∧ poolEntry t e.slot = some e' ∧ e'.bob.state = .lost ∧
          e'.bob.fault = TrapCode.seamIntegrity.code) ∧
    (seamBefore k = some id →
      CompletesTo .spin s { s with core := { k with spin := some (id, (k.spin.map fun x => x.2).getD s.time) } }) ∧
    (seamBefore k = none → exec .spin s = .next (trapsIn s s .illegal .a 0))) ∧
  (∀ (s : State) (a : BitVec 6) (slot : Nat), Issues s [a] [] → s.core.slot = some slot → s.core.mseq ≠ .faulted →
    (a = 0 → CompletesTo (.suspend a) s (postStop 3 { s with monitors := s.monitors.filter fun m => m.slot != slot })) ∧
    (a ≠ 0 →
      CompletesTo (.suspend a) s (postStop 4 (armMonitor slot (getS s a) s)) ∧
      ∃ m ∈ (armMonitor slot (getS s a) s).monitors, m.slot = slot ∧
        m.addrs = (List.range 64).filterMap (fun i => monitorAddr s ((getS s a &&& ~~~63) + BitVec.ofNat 64 i))) ∧
    (s.core.stop = none →
      ∀ c, (postStop c s).core.stop = some ⟨c, s.time + 2000000⟩ ∧
        postStop c s = noteDie 4 1 { s with
          core := { s.core with stop := some ⟨c, s.time + 2000000⟩ }
          pool := updateFirst (fun e => e.slot == slot) (fun e => { e with bob := { e.bob with state := .stopping } }) s.pool })) ∧
  (∀ (s : State) (slot : Nat), Issues s [] [] → s.core.slot = some slot → vEnded s.core = true → mEnded s.core = true →
    let s' := { s with core := { s.core with spin := none, stop := none, exitDue := s.core.exitDue.or (some (s.time + 2000000)) } }
    (s.core.copyTrap.isNone = true → copiesOver s.core = true) → accessesOver s' = true → endFaults s' = none →
    poolEntry s slot ≠ none →
      ∃ t e, exec .exit s = .next t ∧ t.core.slot = none ∧ t.core.aseq = .idle ∧ t.core.vseq = .idle ∧ t.core.mseq = .idle ∧
        t.mem = s.mem ∧ poolEntry t slot = some e ∧
        (queuesEmpty s.core = true → e.bob.state = .done) ∧
        (queuesEmpty s.core = false → e.bob.state = .lost ∧ e.bob.fault = TrapCode.seamIntegrity.code))

/-- R62, R74: SPAWN with a good record creates, after the strand's earlier accesses, a READY bobbin at the back place in the lowest FREE slot
and answers 1; with the pool full it answers 0; a bad record raises SPAWN_RECORD. R77: WAIT.M ends when the value differs from the
expected one or its memory is not resident; else it is tried again. R315: PAGEREQ at an address whose page is not resident requests the
page and does not wait for it; at a resident page, a page with its request on its way and in a fixed window it has no effect; outside
every extent it raises PROT. -/
def Obligations.SpawnWaitAndPages : Prop :=
  (∀ (s : State) (d a : BitVec 6), Issues s (recordRegs a 5) [] →
    let r (i : Nat) : Word := getS s (a + BitVec.ofNat 6 i)
    (spawnBad (getS s a) (getS s (a + 1)) (getS s (a + 2)) = true →
      exec (.spawn d a) s = .next (trapsIn s s .spawnRecord .a 0)) ∧
    (spawnBad (getS s a) (getS s (a + 1)) (getS s (a + 2)) = false → releaseWaits s = false →
      (freeSlot s = none → CompletesS (.spawn d a) s d 0) ∧
      (∀ slot, freeSlot s = some slot → (∀ e ∈ s.pool, e.slot ≠ slot) →
        ∃ t e, exec (.spawn d a) s = .next t ∧ getS t d = (if d = 0 then 0 else 1) ∧ (∀ x, x ≠ d → getS t x = getS s x) ∧
          poolEntry t slot = some e ∧ e.bob.state = .ready ∧ e.place = s.nextPlace ∧ e.launch = s.core.launch ∧
          e.bob.code = r 0 ∧ e.bob.seam = (r 1).extractLsb' 0 22 ∧ e.bob.save = r 2 ∧ e.bob.index = r 3 ∧ e.bob.arg = r 4 ∧
          e.bob.pri = (if (r 1).extractLsb' 48 7 < s.core.selPri then (r 1).extractLsb' 48 7 else s.core.selPri) ∧
          e.bob.spn = true ∧
          t = wordDone (noteDie 3 1 { s with
            core := { s.core.overwrite [d] [] with s := t.core.s }
            pool := s.pool.takeWhile (·.slot < slot) ++ e :: s.pool.dropWhile (·.slot < slot)
            nextPlace := s.nextPlace + 1 })))) ∧
  (∀ (s : State) (d a : BitVec 6) (size : MemSize), Issues s [a, d] [] →
    let n := size.bytes
    let va := getS s a
    let sites := strandSites s false false va n
    va.toNat % n = 0 → watchHit s va = false → peerOf sites = none → localWaits s false false va sites = false →
      ∀ seen, readSites .load sites s = .ok seen s →
        let ended := { s with core := { s.core with wait := none } }
        let write (x : Word) (miss : Bool) : State := setP 14 miss (setS d x ended)
        (seen.miss.any id = true → CompletesTo (.waitM d a size) s (write 0 true)) ∧
        (seen.miss.any id = false → leNat seen.bytes ≠ (getS s d).toNat % 2 ^ (8 * n) →
          CompletesTo (.waitM d a size) s (write (BitVec.ofNat 64 (leNat seen.bytes)) false)) ∧
        (seen.miss.any id = false → leNat seen.bytes = (getS s d).toNat % 2 ^ (8 * n) → waitSeam s.core = none →
          ∃ t, exec (.waitM d a size) s = .next t ∧ t.core.pc = s.core.wordAddr ∧ t.core.s = s.core.s ∧ t.core.p = s.core.p ∧
            t.mem = s.mem)) ∧
  (∀ (s : State) (a : BitVec 6), Issues s [a] [] →
    let va := getS s a
    (canonical va = true → fixedWindow va.toNat = true → CompletesTo (.pagereq a) s s) ∧
    (canonical va = false → exec (.pagereq a) s = .next (trapsIn s s .prot .a va)) ∧
    (canonical va = true → fixedWindow va.toNat = false →
      (extentAt s s.core.launch va.toNat = none → exec (.pagereq a) s = .next (trapsIn s s .prot .a va)) ∧
      (∀ e, extentAt s s.core.launch va.toNat = some e →
        let i := (va.toNat - e.base) / pageSize e.psz
        (∀ p, pageOf s e.back i = some p → p.res = true ∨ p.wanted ≠ none → CompletesTo (.pagereq a) s s) ∧
        (∀ p, pageOf s e.back i = some p → p.res = false → p.wanted = none → pendingPages s < 4096 →
          CompletesTo (.pagereq a) s (requestPage e.back i s)))))

/-- R115, R116, R140, R142, R167, R266: what CRW changes in each control register a program writes, and what CRR reads of every register;
writes to read-only registers change nothing. R117: SETTC writes a tile descriptor that meets the rules, and raises ILLEGAL_OP for one
that does not. -/
def Obligations.SpecialRegisterWords : Prop :=
  (∀ (s : State) (d a : BitVec 6) (num : BitVec 10),
    (Issues s [] [] → CompletesS (.crr d num) s d (readControl s num.toNat)) ∧
    (Issues s [a] [] →
      ∃ t, exec (.crw num a) s = .next t ∧
        (let x := getS s a
         let k := s.core
         let put (k : Core) : Prop := t = wordDone { s with core := k }
         match num.toNat with
         | 0x10 => put { k with srkey := x }
         | 0x11 => put { k with srctr := x }
         | 0x12 =>
          put { k with aexc := t.core.aexc } ∧ t.core.aexc.getLsbD 0 = x.getLsbD 0 ∧
            t.core.aexc.getLsbD 8 = (k.aexc.getLsbD 8 && !x.getLsbD 8) ∧
            (∀ i, i ≠ 0 → i ≠ 8 → t.core.aexc.getLsbD i = k.aexc.getLsbD i)
         | 0x13 =>
          put { k with vexc := t.core.vexc } ∧ (∀ i, i < 5 → t.core.vexc.getLsbD i = (k.vexc.getLsbD i && !x.getLsbD i)) ∧
            (∀ i, 8 ≤ i → i < 13 → t.core.vexc.getLsbD i = x.getLsbD i) ∧
            (∀ i, ((5 ≤ i ∧ i < 8) ∨ 13 ≤ i) → t.core.vexc.getLsbD i = k.vexc.getLsbD i)
         | 0x40 => put { k with evec := x, rearmed := k.rearmed || (k.inHandler && k.evec == 0 && x != 0) }
         | n =>
          if 0x80 ≤ n ∧ n < 0x90 then put { k with ev := bankSet k.ev (BitVec.ofNat 4 (n - 0x80)) x }
          else if 0x90 ≤ n ∧ n < 0xA0 then put { k with evsel := bankSet k.evsel (BitVec.ofNat 4 (n - 0x90)) (x &&& 0xC0FF) }
          else put k)) ∧
    readControl s 0 = BitVec.ofNat 64 s.cur ∧ readControl s 2 = BitVec.ofNat 64 s.time ∧ readControl s 0x10 = s.core.srkey ∧
    readControl s 0x11 = s.core.srctr ∧ readControl s 0x12 = s.core.aexc ∧ readControl s 0x13 = s.core.vexc ∧
    readControl s 0x40 = s.core.evec ∧ readControl s 0x41 = s.core.ecause ∧ readControl s 0x42 = s.core.epc ∧
    readControl s 0x43 = s.core.eval ∧
    readControl s 1 = BitVec.ofNat 64 (ownLabel s.fab) ∧ readControl s 3 = s.clkMx ∧ readControl s 4 = s.clkVx ∧ readControl s 5 = s.clkVault ∧
    (readControl s 6).extractLsb' 0 16 = s.core.ctemp.extractLsb' 0 16 ∧ (readControl s 6).extractLsb' 17 47 = 0#47 ∧
    ((readControl s 6).getLsbD 16 = true ↔ s.power.mx.clamp < s.power.mx.ftgt ∧ s.power.mx.clamp < s.power.mx.fceil) ∧
    (s.fab.mask = 0 → (∀ i, i < 10 → permAt s.fab i = i) → s.fab.subst.toList.all (fun e => !e.en) = true →
      readControl s 1 = s.fab.label.zeroExtend 64) ∧
    (∀ i : BitVec 2, readControl s (0x18 + i.toNat) = (bank s.core.lc i).zeroExtend 64) ∧
    (∀ i : BitVec 4, readControl s (0x20 + i.toNat) = bank s.core.tc i ∧ readControl s (0x80 + i.toNat) = bank s.core.ev i ∧
      readControl s (0x90 + i.toNat) = bank s.core.evsel i)) ∧
  (∀ (s : State) (t : BitVec 4) (a : BitVec 6), Issues s [a] [] →
    let x := getS s a
    (descriptorOk x = true → CompletesTo (.settc t a) s { s with core := { s.core with tc := bankSet s.core.tc t x } }) ∧
    (descriptorOk x = false → exec (.settc t a) s = .next (trapsIn s s .illegalOp .a 0)) ∧
    (let field (lo n : Nat) : Nat := (x.extractLsb' lo n).toNat
     let cols := field 48 16
     let rows := field 32 16
     let bits := [8, 16, 32, 64, 8, 16, 32, 64, 32, 16, 16, 8, 8, 4, 4].getD (field 16 4) 0
     let data := field 20 4 = 0 ∧ field 16 4 ≠ 15 ∧ field 0 11 + (rows * cols * bits + 8191) / 8192 ≤ 1536
     let steering := field 20 4 = 1 ∧ field 16 4 = 0 ∧ cols = 32 ∧ (rows = 32 ∨ rows = 64) ∧ field 0 11 + (steeringBytes rows + 1023) / 1024 ≤ 1536
     descriptorOk x = true ↔
       field 24 8 = 0 ∧ field 11 5 = 0 ∧ 1 ≤ cols ∧ 1 ≤ rows ∧ field 0 11 ≤ 1535 ∧ (data ∨ steering)))

/-- R118, R260, R261, R265: TRAP raises SOFT with its code in c.eval; with c.evec zero the strand is lost with that fault, else the handler is
entered, once the reads issued before the word have written their registers: c.ecause, c.eval and c.epc are set, b7 holds the address
after the word, pc is c.evec, and c.evec becomes zero. R262, R264 to R266: a V trap is delivered between two A words, but not between a
handler's re-arming and its return. -/
def Obligations.TrapEntry : Prop :=
  (∀ (s : State) (code : BitVec 10), Issues s [] [] →
    (s.core.readsOpen = true → exec (.trap code) s = .next { s with core := s.core.back }) ∧
    (s.core.readsOpen = false →
      exec (.trap code) s = .next (takeTrap .soft .a s.core.wordAddr (code.zeroExtend 64) (s.core.pc + 4) (withCore (Core.note 3 1) s))) ∧
    (s.core.readsOpen = false → s.core.evec ≠ 0 →
      ∃ t, exec (.trap code) s = .next t ∧ t.core.ecause = 0x00D ∧ t.core.eval = code.zeroExtend 64 ∧ t.core.epc = s.core.wordAddr ∧
        t.core.b = bankSet s.core.b 7 (s.core.pc + 4) ∧ t.core.pc = s.core.evec ∧ t.core.evec = 0 ∧ t.core.inHandler = true ∧
        (t.core.branch (bank t.core.b 7) t.time).pc = s.core.pc + 4 ∧
        t.core.s = s.core.s ∧ t.core.p = s.core.p ∧ t.core.cs = s.core.cs ∧ t.core.acc = s.core.acc ∧ t.mem = s.mem ∧ t.pool = s.pool) ∧
    (s.core.readsOpen = false → s.core.evec = 0 → ∀ slot e, s.core.slot = some slot → poolEntry s slot = some e →
      ∃ t e', exec (.trap code) s = .next t ∧ t.core.slot = none ∧ poolEntry t slot = some e' ∧ e'.bob.state = .lost ∧
        e'.bob.fault = 0x00D ∧ t.mem = s.mem)) ∧
  (∀ (s : State) (c : BitVec 8) (x : PendingTrap), c.toNat = s.cur → s.core.vtrap = some x →
    ((s.core.inHandler && s.core.rearmed) = true → exec (.trapDelivery c) s = .next s) ∧
    ((s.core.inHandler && s.core.rearmed) = false → s.core.grd = none → s.core.aseq ≠ .idle → s.core.evec ≠ 0 →
      ∃ t, exec (.trapDelivery c) s = .next t ∧ t.core.vtrap = none ∧ t.core.inHandler = true ∧ t.core.epc = x.epc ∧ t.core.eval = x.eval ∧
        t.core.ecause = BitVec.ofNat 64 (x.stream.code * 4096 + x.code.code.toNat) ∧ t.core.b = bankSet s.core.b 7 s.core.pc ∧
        t.core.pc = s.core.evec ∧ t.core.evec = 0 ∧ t.core.s = s.core.s ∧ t.core.p = s.core.p ∧ t.core.cs = s.core.cs ∧
        (x.code ≠ .uncorr ∨ s.evring.en = false → t.mem = s.mem)))

/-- R287 to R289: JOIN takes one of the strand's two membership words and LEAVE gives it up; each answers what happened. R290 to R295: BAR.NEW
answers a handle of the skein's barrier, BAR.ARV arrives and answers the phase it arrived in, BAR.WT waits for a later phase, BAR.REL
drops the reference. R297: MPATH completes with the split point of the merge path, or all ones where it met a miss, and p14 tells of the
miss. -/
def Obligations.SkeinsAndBarriers : Prop :=
  (∀ (s : State) (d a : BitVec 6) (e : PoolEntry), Issues s [a] [] → boundEntry s = some e →
    let id := (getS s a).extractLsb' 0 16
    (getS s a).extractLsb' 16 48 = 0#48 →
      (memberOf e.bob id = true → CompletesS (.join d a) s d 3) ∧
      (memberOf e.bob id = false → e.bob.sk0.valid = true → e.bob.sk1.valid = true → CompletesS (.join d a) s d 0) ∧
      (memberOf e.bob id = false → (e.bob.sk0.valid && e.bob.sk1.valid) = false →
        (∀ k, skeinOf s e.launch id = some k →
          CompletesTo (.join d a) s (setS d 1 (takeMember e.slot ⟨id, true, true⟩
            { s with skeins := updateFirst (skeinIs e.launch id) (fun _ => { k with members := k.members ++ [e.slot] }) s.skeins }))) ∧
        (skeinOf s e.launch id = none → s.skeins.length < 4096 →
          CompletesTo (.join d a) s (setS d 1 (takeMember e.slot ⟨id, true, false⟩
            { s with skeins := s.skeins ++ [⟨e.launch, id, [e.slot], 0, [e.slot], [], [], none, []⟩] }))) ∧
        (skeinOf s e.launch id = none → 4096 ≤ s.skeins.length → CompletesS (.join d a) s d 2)) ∧
      (memberOf e.bob id = false → CompletesS (.leave d a) s d 0) ∧
      (memberOf e.bob id = true → releaseWaits s = false →
        CompletesTo (.leave d a) s (setS d 1 (leaveSkein e.slot e.launch id (updBob e.slot (clearMember id) s))))) ∧
  (∀ (s : State) (d a b : BitVec 6) (p : BitVec 4) (e : PoolEntry) (k : Skein), boundEntry s = some e →
    (Issues s [a] [] → (getS s a).extractLsb' 16 48 = 0#48 →
      let id := (getS s a).extractLsb' 0 16
      memberOf e.bob id = true → skeinOf s e.launch id = some k →
        let put (k : Skein) : State := { s with skeins := updateFirst (skeinIs e.launch id) (fun _ => k) s.skeins }
        (∀ x, k.bar = some x →
          CompletesTo (.barNew d p a) s (setP p false (setS d (BitVec.ofNat 64 ((barGenOf s x).toNat * 65536 + x.toNat))
            (put { k with refs := if k.refs.contains e.slot then k.refs else k.refs ++ [e.slot] })))) ∧
        (∀ x, k.bar = none → freeBar s = some x →
          CompletesTo (.barNew d p a) s (setP p false (setS d (BitVec.ofNat 64 ((barGenOf s x).toNat * 65536 + x.toNat))
            (put { k with bar := some x, refs := [e.slot] })))) ∧
        (k.bar = none → freeBar s = none → CompletesSP (.barNew d p a) s d 0 p true)) ∧
    (Issues s [a] [] → handleSkein s e (getS s a) = some k → releaseWaits s = false →
      (k.parts.contains e.slot = true → k.arrived.contains e.slot = false →
        CompletesTo (.barArv d a) s (setS d (k.phase.zeroExtend 64) (putSkein { k with arrived := k.arrived ++ [e.slot] } s))) ∧
      (k.parts.contains e.slot = false → k.ahead.contains e.slot = false →
        CompletesTo (.barArv d a) s (setS d ((k.phase + 1).zeroExtend 64) (putSkein { k with ahead := k.ahead ++ [e.slot] } s)))) ∧
    (Issues s [a, b] [] → handleSkein s e (getS s a) = some k → (getS s b).extractLsb' 32 32 = 0#32 →
      let past := (k.phase - (getS s b).extractLsb' 0 32).toNat
      1 ≤ past → past < 2 ^ 31 →
        CompletesTo (.barWt d a b) s (setS d (k.phase.zeroExtend 64) { s with core := { s.core with wait := none } })) ∧
    (Issues s [a] [] → handleClean (getS s a) = true →
      (handleSkein s e (getS s a) = some k → CompletesTo (.barRel a) s (dropRef e.slot k s)) ∧
      (handleSkein s e (getS s a) = none → CompletesTo (.barRel a) s s))) ∧
  (∀ (s : State) (d a b : BitVec 6), Issues s [a, a + 1, b] [] →
    let base := getS s a
    (getS s (a + 1)).toNat < 2 ^ 31 → base.toNat % 4 = 0 →
      (∀ x miss, pathPoint s base (getS s (a + 1)).toNat (getS s b).toNat = .value x miss →
        CompletesTo (.mpath d a b) s
          (setP 14 miss (setS d (if miss then -1 else BitVec.ofNat 64 x) { s with core := { s.core with replyA := [] } }))) ∧
      (∀ offs : Nat → Nat, ∀ n first, n = (getS s (a + 1)).toNat → first < 2 ^ 32 → offs 0 = 0 → (∀ i, i < n → offs i ≤ offs (i + 1)) →
        offs n < 2 ^ 32 → (∀ i, i ≤ n → pathRead s (base + BitVec.ofNat 64 (4 * i)) = .value ((first + offs i) % 2 ^ 32) false) →
          ∃ lo, pathPoint s base n (getS s b).toNat = .value ((min (getS s b).toNat (n + offs n) - lo) * 2 ^ 32 + lo) false ∧
            lo ≤ n ∧ lo ≤ min (getS s b).toNat (n + offs n) ∧
            (∀ i, i < lo → offs (i + 1) + i + 1 ≤ min (getS s b).toNat (n + offs n)) ∧
            (lo < n → min (getS s b).toNat (n + offs n) < offs (lo + 1) + lo + 1)))

/-- R379, R319: LQ.POST puts its 128-byte record into the ring of an enabled, posted queue of its own function that has room and answers 1, or
answers 0 where the queue is full. PNL.DEF of a storage that passes the checks waits for its pages; where they are resident it pins them,
defines the panel in the lowest of the 256 slots that is free and answers its row base, or sets its predicate where none is free. R322,
R323: KVB.MAP answers the window of the slot a name has, or gives it the lowest free slot, or answers 2 where no slot is free or 262,144
names are in use; KVB.SHARE gives a slot a second name, or answers 2 where that many are; KVB.FREE drops a name and frees the slot with
its last one; KVB.INVAL clears validity bits. -/
def Obligations.PostsPanelsAndBlocks : Prop :=
  (∀ (s : State) (d a b : BitVec 6) (p : BitVec 4),
    (Issues s [a, b] [] → (getS s b).toNat < 4096 → (getS s a).toNat % 64 = 0 →
      let q := (getS s b).extractLsb' 0 12
      let w := queueAt s q
      w.fn = ownFn s → w.en = true → w.pm = true → w.err = false → watchHit s (getS s a) = false → postWaits s = false →
        ∀ bs, readRecord true (getS s a) 128 s = .bytes bs s →
          let s'' := { s with core := { s.core with replyA := [] } }
          ((w.tail - w.head).toNat = w.slots → CompletesTo (.lqPost d a b) s (setS d 0 s'')) ∧
          ((w.tail - w.head).toNat ≠ w.slots → heldUp s true (w.ring.toNat + w.tail.toNat % w.slots * 128) 128 = [] →
            CompletesTo (.lqPost d a b) s (setS d 1 (updQueue q (fun w => { w with tail := w.tail + 1 })
              (putPhys (w.ring.toNat + w.tail.toNat % w.slots * 128) bs none 0 s'').1)))) ∧
    (Issues s [a, a + 1] [] →
      releaseWaits s = false →
      panelFault s s.core.launch (getS s a) (panelAsked s.core.launch (getS s a) (panelShape (getS s (a + 1)))) = none →
      ∀ e x, extentAt s s.core.launch (getS s a).toNat = some e → panelAsked s.core.launch (getS s a) (panelShape (getS s (a + 1))) = some x →
        let va := (getS s a).toNat
        let size := pageSize e.psz
        let pinned := pinPages e va x.bytes true s
        let outside := pagesOutside s e va x.bytes
        (outside ≠ [] → ∃ t, exec (.pnlDef d p a) s = .next t ∧ t.core.pc = s.core.wordAddr ∧ t.core.s = s.core.s ∧ t.panels = s.panels) ∧
        (outside = [] →
          (∀ i q, (va - e.base) / size ≤ i → i ≤ (va + x.bytes - 1 - e.base) / size → pageOf pinned e.back i = some q → q.pin = true) ∧
          (∀ n, n < 256 → (∀ y ∈ s.panels, y.num ≠ n) → (∀ m, m < n → ∃ y ∈ s.panels, y.num = m) →
            CompletesTo (.pnlDef d p a) s (setP p false (setS d (BitVec.ofNat 64 (0xFFFFFE0000000000 + n * 0x100000000))
              { pinned with panels := s.panels ++ [{ x with num := n, attr := e.attr, pas := tileAddrs pinned s.core.launch va (x.bytes / 2048) }] }))) ∧
          ((∀ m, m < 256 → ∃ y ∈ s.panels, y.num = m) → CompletesTo (.pnlDef d p a) s (setP p true (setS d 0 pinned)))))) ∧
  (∀ (s : State) (d a b : BitVec 6) (p : BitVec 4) (alloc : Bool), (getS s a).extractLsb' 44 20 = 0#20 →
    let fn := ownFn s
    let n := (getS s a).extractLsb' 0 44
    (Issues s [a] [] →
      (∀ x, slotOfName s fn n = some x →
        CompletesSP (.kvbMap d p alloc a) s d (BitVec.ofNat 64 (0xFFFFFD0000000000 + x * 0x4000)) p false) ∧
      (slotOfName s fn n = none → CompletesSP (.kvbMap d p false a) s d 1 p true) ∧
      (slotOfName s fn n = none → 262144 ≤ s.blockNames.length → CompletesSP (.kvbMap d p true a) s d 2 p true) ∧
      (slotOfName s fn n = none → s.blockNames.length < 262144 →
        (∀ x, x < s.blocks.toNat → (∀ y ∈ s.blockSlots, y.num ≠ x) → (∀ m, m < x → ∃ y ∈ s.blockSlots, y.num = m) →
          CompletesTo (.kvbMap d p true a) s (setP p false (setS d (BitVec.ofNat 64 (0xFFFFFD0000000000 + x * 0x4000))
            { s with blockSlots := s.blockSlots ++ [⟨x, 0, 1⟩], blockNames := s.blockNames ++ [⟨fn, n, x⟩] }))) ∧
        ((∀ m, m < s.blocks.toNat → ∃ y ∈ s.blockSlots, y.num = m) → CompletesSP (.kvbMap d p true a) s d 2 p true))) ∧
    (Issues s [a, b] [] → (getS s b).extractLsb' 44 20 = 0#20 →
      let n2 := (getS s b).extractLsb' 0 44
      (slotOfName s fn n = none → CompletesS (.kvbShare d a b) s d 0) ∧
      (∀ x, slotOfName s fn n = some x → (slotOfName s fn n2).isSome = true → CompletesS (.kvbShare d a b) s d 3) ∧
      (∀ x, slotOfName s fn n = some x → slotOfName s fn n2 = none → 262144 ≤ s.blockNames.length → CompletesS (.kvbShare d a b) s d 2) ∧
      (∀ x, slotOfName s fn n = some x → slotOfName s fn n2 = none → s.blockNames.length < 262144 →
        CompletesTo (.kvbShare d a b) s (setS d 1 { s with
          blockNames := s.blockNames ++ [⟨fn, n2, x⟩]
          blockSlots := updateFirst (fun b => b.num == x) (fun b => { b with count := b.count + 1 }) s.blockSlots }))) ∧
    (Issues s [a] [] →
      (slotOfName s fn n = none → CompletesS (.kvbFree d a) s d 0) ∧
      (∀ x, slotOfName s fn n = some x → openAt s (blockBase + x * 0x4000) 0x4000 = false →
        ∃ slots, CompletesTo (.kvbFree d a) s (setS d 1 { s with
            blockNames := removeFirst (fun e => e.fn == fn && e.name == n) s.blockNames, blockSlots := slots }) ∧
          ((s.blockSlots.map (·.num)).Nodup →
            (∀ y, y ≠ x → slots.find? (fun b => b.num == y) = (s.blockSlots.find? (fun b => b.num == y)).filter (·.num ≠ x)) ∧
            ∀ c, s.blockSlots.find? (fun b => b.num == x) = some c →
              slots.find? (fun b => b.num == x) = if c.count ≤ 1 then none else some { c with count := c.count - 1 }))) ∧
    (Issues s [a, b] [] →
      (slotOfName s fn n = none → CompletesS (.kvbInval d a b) s d 0) ∧
      (∀ x c, slotOfName s fn n = some x → s.blockSlots.find? (fun b => b.num == x) = some c → openAt s (blockBase + c.num * 0x4000) 0x4000 = false →
        CompletesTo (.kvbInval d a b) s (setS d c.bitmap { s with
          blockSlots := updateFirst (fun b => b.num == c.num) (fun e => { e with bitmap := e.bitmap &&& ~~~getS s b }) s.blockSlots }))))

/-- R405, R406, R411: NET.POST of a good request queues it at the endpoint and answers 1, or 0 where the queue is full; NET.WAIT answers the
counter once it has counted the successes asked for, or a failure. R433, R434: MSG.SEND and MSG.RECV read their record, check it, clear
its STATUS and queue the message or the receive record; a full queue answers 0. -/
def Obligations.NetworkAndMessageWords : Prop :=
  (∀ (s : State) (d a b : BitVec 6),
    (Issues s [a] [] → (getS s a).toNat % 64 = 0 →
      watchHit s (getS s a) = false → postWaits s = false →
        ∀ bs, readRecord false (getS s a) 64 s = .bytes bs s →
          let s'' := { s with core := { s.core with replyA := [] } }
          let raw : BitVec 512 := BitVec.ofNat 512 (leNat bs)
          let w := wqeOf raw
          let e := epAt s (BitVec.ofNat 10 w.ep)
          let send := w.op = 1 ∨ w.op = 2
          wqeBad raw = false → e.en = true → e.fn = ownFn s → cntForeign s (ownFn s) w.ccnt = false → cntForeign s (ownFn s) w.tcnt = false →
            (w.op = 5 ∨ outsideExtent s s.core.launch w.laddr w.len (w.op == 3 || w.op == 4) = none) →
              (send → 256 ≤ e.sendq.length → CompletesTo (.netPost d a) s (setS d 0 s'')) ∧
              (¬send → 256 ≤ e.recvq.length → CompletesTo (.netPost d a) s (setS d 0 s'')) ∧
              (send → e.sendq.length < 256 →
                CompletesTo (.netPost d a) s (setS d 1 (updEp (BitVec.ofNat 10 w.ep)
                  (fun e => { e with sendq := e.sendq ++ [⟨raw, s.core.launch, s.core.slot.getD 0⟩] }) s''))) ∧
              (¬send → e.recvq.length < 256 →
                CompletesTo (.netPost d a) s (setS d 1 (updEp (BitVec.ofNat 10 w.ep)
                  (fun e => { e with recvq := e.recvq ++ [⟨raw, s.core.launch, s.core.slot.getD 0⟩] }) s'')))) ∧
    (Issues s [a, b] [] → (getS s a).toNat < 4096 → (getS s b).extractLsb' 48 16 = 0#16 →
      let c := cntAt s ((getS s a).extractLsb' 0 12)
      cntFn c = ownFn s →
        ((getS s b).toNat ≤ (cntOk c).toNat ∨ cntFail c ≠ 0 → CompletesS (.netWait d a b) s d c) ∧
        ((cntOk c).toNat < (getS s b).toNat → cntFail c = 0 →
          ∃ t, exec (.netWait d a b) s = .next t ∧ t.core.pc = s.core.wordAddr ∧ t.core.s = s.core.s ∧ t.mem = s.mem))) ∧
  (∀ (s : State) (d a : BitVec 6), Issues s [a] [] → (getS s a).toNat % 32 = 0 →
    let va := getS s a
    watchHit s va = false → watchHit s (va + 24) = false → postWaits s = false → ∀ bs, readRecord false va 32 s = .bytes bs s →
      let s'' := { s with core := { s.core with replyA := [] } }
      (let laddr := BitVec.ofNat 64 (recField bs 0 8)
       let len := recField bs 8 4
       let dest := recField bs 12 2
       let mbox := recField bs 14 2
       let cls := recField bs 16 1
       dest ≤ 1023 → mbox ≤ 4095 → 1 ≤ cls → cls ≤ 7 → recField bs 17 7 = 0 → 1 ≤ len → len ≤ 2 ^ 24 →
        outsideExtent s'' s.core.launch laddr len false = none →
          (1024 ≤ s.fab.sends.length → CompletesTo (.msgSend d a) s (setS d 0 s'')) ∧
          (∀ t, s.fab.sends.length < 1024 → clearStatus va s'' = .ok () t →
            ∃ m, CompletesTo (.msgSend d a) s (setS d 1 { t with nextId := t.nextId + 1, fab := { t.fab with sends := t.fab.sends ++ [m] } }) ∧
              m.laddr = laddr ∧ m.len = len ∧ m.dest.toNat = dest ∧ m.mbox.toNat = mbox ∧ m.cls.toNat = cls ∧ m.record = va)) ∧
      (let buf := BitVec.ofNat 64 (recField bs 0 8)
       let cap := recField bs 8 4
       let mbox := recField bs 12 2
       mbox ≤ 4095 → recField bs 14 10 = 0 → 1 ≤ cap → cap ≤ 2 ^ 24 → mbox / 64 = (ownFn s).toNat →
        outsideExtent s'' s.core.launch buf cap true = none →
          let held := (s.fab.recvs.filter fun r => r.mbox == BitVec.ofNat 12 mbox).length
          (256 ≤ held → CompletesTo (.msgRecv d a) s (setS d 0 s'')) ∧
          (∀ t, held < 256 → clearStatus va s'' = .ok () t →
            CompletesTo (.msgRecv d a) s (setS d 1 { t with
              fab := { t.fab with recvs := t.fab.recvs ++ [⟨BitVec.ofNat 12 mbox, buf, cap, va, s.core.launch⟩] } }))))

/-- R177, R144, R147 to R150: sums, differences, products, fused products, averages and absolute differences of elements, long and short
forms. A floating result is rounded once from its exact value; an integer result wraps, or saturates with sat. -/
def Obligations.VectorArithmetic : Prop :=
  ∀ (s : State) (f : VFields) (d a : BitVec 11),
    let down (inp : VIn) : Bool := inp.rnd.vm.mode == 2
    let add (t : VTy) (inp : VIn) : Nat → El := arithEl t (fun a b _ => a + b) (fun x y _ => Fl.sum (down inp) [x, y]) inp
    let sub (t : VTy) (inp : VIn) : Nat → El := arithEl t (fun a b _ => a - b) (fun x y _ => Fl.sum (down inp) [x, y.negate]) inp
    let mul (t : VTy) (inp : VIn) : Nat → El := arithEl t (fun a b _ => a * b) (fun x y _ => x.mul y) inp
    (∀ p ∈ ([(Instr.vadd f, 1, add f.ty), (Instr.vsub f, 1, sub f.ty), (Instr.vmul f, 1, mul f.ty),
        (Instr.vfma f, 2, fun inp => arithEl f.ty (fun a b c => c + a * b) (fun x y z => Fl.sum (down inp) [z, x.mul y]) inp),
        (Instr.vfms f, 2, fun inp => arithEl f.ty (fun a b c => a * b - c) (fun x y z => Fl.sum (down inp) [x.mul y, z.negate]) inp),
        (Instr.vfnma f, 2, fun inp => arithEl f.ty (fun a b c => c - a * b) (fun x y z => Fl.sum (down inp) [z, (x.mul y).negate]) inp),
        (Instr.vavg f, 1, fun inp =>
          arithEl f.ty (fun a b _ => (a + b + 1) / 2) (fun x y _ => (Fl.sum (down inp) [x, y]).scale (-1)) inp),
        (Instr.vabsd f, 1, fun inp =>
          arithEl f.ty (fun a b _ => (a - b).natAbs) (fun x y _ => (Fl.sum (down inp) [x, y.negate]).abs) inp)] :
        List (Instr × Nat × (VIn → Nat → El))),
      ComputesElements p.1 (longLen f) f { src := f.ty, dst := f.ty, nb := 1, nc := p.2.1 - 1 } s p.2.2) ∧
    (f.ty.isFloat = false →
      ComputesElements (.vmulh f) (longLen f) f (binaryShape f.ty) s
        (fun inp j => wrapped f.ty inp (intVal f.ty (srcA f.ty inp j) * intVal f.ty (srcB f.ty inp j) / 2 ^ f.ty.bits))) ∧
    ComputesElements (.vmulq f) (longLen f) f (binaryShape f.ty) s
      (fun inp j => intEl true f.ty.bits true
        ((intVal f.ty (srcA f.ty inp j) * intVal f.ty (srcB f.ty inp j) + 2 ^ (f.ty.bits - 2)) / 2 ^ (f.ty.bits - 1))) ∧
    (∀ p ∈ ([(Instr.vaddF32Short d a, .f32, add .f32), (Instr.vsubF32Short d a, .f32, sub .f32), (Instr.vmulF32Short d a, .f32, mul .f32),
        (Instr.vaddBf16Short d a, .bf16, add .bf16), (Instr.vsubBf16Short d a, .bf16, sub .bf16),
        (Instr.vmulBf16Short d a, .bf16, mul .bf16), (Instr.vaddI32Short d a, .i32, add .i32), (Instr.vsubI32Short d a, .i32, sub .i32),
        (Instr.vmulI32Short d a, .i32, mul .i32), (Instr.vaddI16Short d a, .i16, add .i16), (Instr.vsubI16Short d a, .i16, sub .i16),
        (Instr.vaddI8Short d a, .i8, add .i8), (Instr.vsubI8Short d a, .i8, sub .i8)] : List (Instr × VTy × (VIn → Nat → El))),
      ComputesElements p.1 1 (shortBinary p.2.1 d a) (binaryShape p.2.1) s p.2.2)

/-- R145, R147, R175, R177, R180, R183, R184: instructions whose elements are patterns of their source elements: moves, minimum and maximum,
logic, shifts, counts, table look-up, select, masks as elements. R152, R177 to R180, R185 to R187: sign changes, scaling, rounding to
integral values, dot products, widening, conversions, packing and the reading of block formats. VSIGN of a NaN is log 76, the flags of
VRINT are log 24, and those of a float-to-integer conversion that saturates are log 103. -/
def Obligations.VectorPatternsAndConversions : Prop :=
  (∀ (s : State) (f : VFields) (d a : BitVec 11),
    let t := f.ty
    let w := t.bits
    let no (x : Nat) : Nat := 2 ^ w - 1 - x
    let amount (b : Nat) : Nat := if w = 16 then b % 256 else b
    let un (g : Nat → Nat) (inp : VIn) (j : Nat) : El := ⟨g (srcA t inp j), 0⟩
    let bin (t : VTy) (g : Nat → Nat → Nat) (inp : VIn) (j : Nat) : El := ⟨g (srcA t inp j) (srcB t inp j), 0⟩
    let ter (g : Nat → Nat → Nat → Nat) (inp : VIn) (j : Nat) : El := ⟨g (srcA t inp j) (srcB t inp j) (srcC t inp j), 0⟩
    (∀ p ∈ ([(Instr.vmov f, un id), (Instr.vpop f, un id), (Instr.vnot f, un no), (Instr.vclz f, un (leadingZeros w)),
        (Instr.vpopc f, un fun x => (List.range w).countP x.testBit),
        (Instr.vbrev f, un fun x => ((List.range w).map fun i => bit (x.testBit (w - 1 - i)) * 2 ^ i).sum),
        (Instr.vfrexp f, un fun x =>
          let v := (vfmt t).val x
          patternOf w (if v.isNan || v.isInf then 2 ^ (w - 1) - 1 else if v.isZero then -2 ^ (w - 1) else v.log2))] :
        List (Instr × (VIn → Nat → El))), ComputesElements p.1 (longLen f) f (unaryShape t) s p.2) ∧
    (∀ p ∈ ([(Instr.vmin f, bin t (elMin t)), (Instr.vmax f, bin t (elMax t)), (Instr.vand f, bin t (· &&& ·)), (Instr.vor f, bin t (· ||| ·)),
        (Instr.vxor f, bin t (· ^^^ ·)), (Instr.vandn f, bin t fun x y => x &&& no y),
        (Instr.vshl f, bin t fun x y => if w ≤ amount y then 0 else x * 2 ^ amount y % 2 ^ w),
        (Instr.vshr f, bin t fun x y => if w ≤ amount y then 0 else x / 2 ^ amount y),
        (Instr.vsra f, bin t fun x y => patternOf w (signedOf w x / 2 ^ min (amount y) (w - 1))),
        (Instr.vlut f, fun inp j => ⟨srcA t inp (srcB t inp j % 256 % t.lanes), 0⟩)] : List (Instr × (VIn → Nat → El))),
      ComputesElements p.1 (longLen f) f (binaryShape t) s p.2) ∧
    (∀ p ∈ ([(Instr.vclamp f, ter fun x y z => elMin t (elMax t x y) z), (Instr.vbsel f, ter fun x y z => (z &&& x) ||| (no z &&& y))] :
        List (Instr × (VIn → Nat → El))), ComputesElements p.1 (longLen f) f (ternaryShape t) s p.2) ∧
    ComputesElements (.vsel f) (longLen f) f { src := t, dst := t, nb := 1, force := true } s
      (fun inp j => ⟨if isActive inp.cells t j then srcA t inp j else srcB t inp j, 0⟩) ∧
    ComputesElements (.vmovi f) (longLen f) f { src := t, dst := t, na := 0 } s (fun _ _ => ⟨litVal t (litOf f), 0⟩) ∧
    ComputesElements (.ktov f) (longLen f) f { src := t, dst := t, na := 0 } s
      (fun _ j => ⟨if isActive (s.core.getM (maskField f.va)) t j then 2 ^ w - 1 else 0, 0⟩) ∧
    ComputesElements (.kpopc f) (longLen f) f { src := t, dst := .n32, na := 0 } s
      (fun _ _ => ⟨(List.range t.lanes).countP (isActive (s.core.getM (maskField f.va)) t), 0⟩) ∧
    (∀ p ∈ ([(Instr.vmovShort d a, .n64, id), (Instr.vpopShort d a, .n64, id), (Instr.vnotShort d a, .n64, fun x => 2 ^ 64 - 1 - x)] :
        List (Instr × VTy × (Nat → Nat))),
      ComputesElements p.1 1 (shortUnary p.2.1 d a) (unaryShape p.2.1) s fun inp j => ⟨p.2.2 (srcA p.2.1 inp j), 0⟩) ∧
    (∀ p ∈ ([(Instr.vandShort d a, .n64, (· &&& ·)), (Instr.vorShort d a, .n64, (· ||| ·)), (Instr.vxorShort d a, .n64, (· ^^^ ·)),
        (Instr.vandnShort d a, .n64, fun x y => x &&& (2 ^ 64 - 1 - y)), (Instr.vminF32Short d a, .f32, elMin .f32),
        (Instr.vmaxF32Short d a, .f32, elMax .f32), (Instr.vminBf16Short d a, .bf16, elMin .bf16), (Instr.vmaxBf16Short d a, .bf16, elMax .bf16),
        (Instr.vminI32Short d a, .i32, elMin .i32), (Instr.vmaxI32Short d a, .i32, elMax .i32)] : List (Instr × VTy × (Nat → Nat → Nat))),
      ComputesElements p.1 1 (shortBinary p.2.1 d a) (binaryShape p.2.1) s (bin p.2.1 p.2.2))) ∧
  (∀ (s : State) (f : VFields) (d a : BitVec 11),
    let t := f.ty
    let down (inp : VIn) : Bool := inp.rnd.vm.mode == 2
    let sign (t : VTy) (fi : Int → Int → Int) (fs : Bool → Bool → Bool) (inp : VIn) (j : Nat) : El :=
      let x := srcA t inp j
      let y := srcB t inp j
      if t.isFloat then
        if ((vfmt t).val x).isNan then ⟨(vfmt t).nan.getD 0, 0⟩
        else ⟨(vfmt t).signed (fs (x.testBit (t.bits - 1)) (y.testBit (t.bits - 1))) (x % 2 ^ (t.bits - 1)), 0⟩
      else wrapped t inp (fi (intVal t x) (intVal t y))
    let un (t : VTy) : VShape := unaryShape t
    (∀ p ∈ ([(Instr.vabs f, longLen f, f, sign t (fun x _ => x.natAbs) fun _ _ => false),
        (Instr.vneg f, longLen f, f, sign t (fun x _ => -x) fun n _ => !n),
        (Instr.vrint f, longLen f, f, fun inp j => rintEl (vfmt t) (inp.rnd.at j) (operand t inp (srcA t inp j)))] :
        List (Instr × Nat × VFields × (VIn → Nat → El))), ComputesElements p.1 p.2.1 p.2.2.1 (un t) s p.2.2.2) ∧
    ComputesElements (.vabsF32Short d a) 1 (shortUnary .f32 d a) (un .f32) s (sign .f32 (fun x _ => x.natAbs) fun _ _ => false) ∧
    ComputesElements (.vnegF32Short d a) 1 (shortUnary .f32 d a) (un .f32) s (sign .f32 (fun x _ => -x) fun n _ => !n) ∧
    ComputesElements (.vsign f) (longLen f) f (binaryShape t) s
      (sign t (fun x y => if 0 < y then x else if y = 0 then 0 else -x) fun _ n => n) ∧
    ComputesElements (.vscale f) (longLen f) f (binaryShape t) s
      (fun inp j =>
        let x := operand t inp (srcA t inp j)
        rounded t inp j x.isNan (x.scale (max (-1000) (min 1000 (signedOf t.bits (srcB t inp j)))))) ∧
    (∀ p ∈ ([(Instr.vdot4 f, 4), (Instr.vdot2 f, 2)] : List (Instr × Nat)),
      t.bits * p.2 = 32 → 
      let o := dotTy t
      ComputesElements p.1 (longLen f) f { src := t, dst := o, nb := 1, nc := 1 } s
        (fun inp j =>
          let xs := (List.range p.2).map fun i => srcA t inp (p.2 * j + i)
          let ys := (List.range p.2).map fun i => srcB t inp (p.2 * j + i)
          if t.isFloat then
            let x := xs.map (operand t inp)
            let y := ys.map (operand t inp)
            let z := fp32.read inp.rnd.vm.ftz (srcC o inp j)
            rounded o inp j (x.any Fl.isNan || y.any Fl.isNan || z.isNan) (Fl.sum (down inp) (z :: List.zipWith Fl.mul x y))
          else wrapped o inp ((List.zipWith (fun p q => intVal t p * intVal t q) xs ys).foldl (· + ·) (intVal o (srcC o inp j))))) ∧
    (2 * t.bits = (widened t).bits →
      let o := widened t
      let wide (fi : Int → Int → Int) (ff : Bool → Fl → Fl → Fl) (inp : VIn) (j : Nat) : El :=
        if t.isFloat then
          let x := operand t inp (srcA t inp j)
          let y := operand t inp (srcB t inp j)
          rounded o inp j (x.isNan || y.isNan) (ff (down inp) x y)
        else wrapped o inp (fi (intVal t (srcA t inp j)) (intVal t (srcB t inp j)))
      ComputesElements (.vmulw f) (longLen f) f { src := t, dst := o, nb := 1, nd := 2 } s (wide (· * ·) fun _ x y => x.mul y) ∧
      ComputesElements (.vaddw f) (longLen f) f { src := t, dst := o, nb := 1, nd := 2 } s (wide (· + ·) fun n x y => Fl.sum n [x, y]) ∧
      ComputesElements (.vunpk f) (longLen f) f { src := t, dst := o, nd := 2 } s
        (fun inp j => ⟨patternOf o.bits (intVal t (srcA t inp j)), 0⟩)) ∧
    (let o := fmtOf f.vb
     ComputesElements (.vcvt f) (longLen f) f { src := t, dst := o, na := max 1 (t.bits / o.bits), nd := max 1 (o.bits / t.bits) } s
      (fun inp j =>
        let x := srcA t inp j
        if t.isFloat then
          let v := operand t inp x
          if o.isFloat then rounded o inp j v.isNan v else toIntEl o.isSigned o.bits (inp.rnd.at j) v
        else if o.isFloat then rounded o inp j false (.ofInt (intVal t x))
        else wrapped o inp (intVal t x))) ∧
    (2 * (halved t).bits = t.bits →
      let o := halved t
      ComputesElements (.vpack f) (longLen f) f { src := t, dst := o, nb := 1 } s
        (fun inp j => wrapped o inp (intVal t (if j < t.lanes then srcA t inp j else srcB t inp (j - t.lanes))))) ∧
    ((fmtOf f.vb).bits ≤ 8 → 8 ≤ t.bits →
      let o := fmtOf f.vb
      ComputesElements (.vmxd f) (longLen f) f { src := t, dst := t, na := 2, nd := t.bits / 8 } s
        (fun inp j =>
          let scale := inp.a[1]?.getD 0 / 2 ^ (8 * (j / 32)) % 256
          let v := operand o inp (inp.a[0]?.getD 0 / 2 ^ (o.bits * j) % 2 ^ o.bits)
          if scale = 0xFF then ⟨(vfmt t).nan.getD 0, 0⟩ else rounded t inp j v.isNan (v.scaled scale))))

/-- R150, R189, R198: functions of one operand: NaNs give the canonical NaN, zeros and infinities the values stated for them, other operands
what the correctly rounded value is (assumption 8: where the model cannot decide the rounding, a free value); random bits are those of
R150's generator. R162, R185, R186, R188: VMXQ writes 1,024 elements and 32 block scales; VRQ writes 256 requantised integers at the
active cells and zeros after them. The sign of VTANH and VERF of −0 is log 26, the flags of VRQ are log 25, and the elements from 256
upwards of a VRQ with mask 0 and sense 1 are log 98. -/
def Obligations.VectorFunctionsAndQuantisation : Prop :=
  (∀ (s : State) (f : VFields) (d a : BitVec 11),
    let fn (t : VTy) (op : BitVec 8) (zero inf : Bool → Approx) (fin : Bool → Nat → Int → Approx) (inp : VIn) (j : Nat) : El :=
      let x := srcA t inp j
      match operand t inp x with
      | .nan => ⟨((vfmt t).ofFl .rne false .nan).bits, 0⟩
      | .inf neg => finishFn t op inp.rnd j x (inf neg)
      | .fin neg m e => finishFn t op inp.rnd j x (if m = 0 then zero neg else fin neg m e)
    let one : Approx := .exact (.fin false 1 0)
    let zero (neg : Bool) : Approx := .exact (.fin neg 0 0)
    let infty (neg : Bool) : Approx := .exact (.inf neg)
    let bad : Approx := .special .nan fNV
    let exp2 (t : VTy) := fn t 0x70 (fun _ => one) (fun neg => if neg then zero false else infty false) exp2Of
    (∀ p ∈ ([(Instr.vexp2 f, exp2 f.ty),
        (Instr.vlog2 f, fn f.ty 0x71 (fun _ => .special (.inf true) fDZ) (fun neg => if neg then bad else infty false)
          fun neg m e => if neg then bad else log2Of m e),
        (Instr.vrcp f, fn f.ty 0x72 (fun neg => .special (.inf neg) fDZ) zero rcpOf),
        (Instr.vrsq f, fn f.ty 0x73 (fun neg => .special (.inf neg) fDZ) (fun neg => if neg then bad else zero false)
          fun neg m e => if neg then bad else rsqOf m e),
        (Instr.vsqrt f, fn f.ty 0x74 zero (fun neg => if neg then bad else infty false) fun neg m e => if neg then bad else sqrtOf m e),
        (Instr.vsin f, fn f.ty 0x75 zero (fun _ => bad) sinOf),
        (Instr.vcos f, fn f.ty 0x76 (fun _ => one) (fun _ => bad) fun _ m e => cosOf m e),
        (Instr.vtanh f, fn f.ty 0x77 (fun neg => zero (neg && Config.oddZero 0x77)) (fun neg => .exact (.fin neg 1 0)) tanhOf),
        (Instr.vsigm f, fn f.ty 0x78 (fun _ => .exact (.fin false 1 (-1))) (fun neg => if neg then zero false else one) sigmOf),
        (Instr.verf f, fn f.ty 0x79 (fun neg => zero (neg && Config.oddZero 0x79)) (fun neg => .exact (.fin neg 1 0)) erfOf)] :
        List (Instr × (VIn → Nat → El))), ComputesElements p.1 (longLen f) f (unaryShape f.ty) s p.2) ∧
    ComputesElements (.vexp2F32Short d a) 1 (shortUnary .f32 d a) (unaryShape .f32) s (exp2 .f32) ∧
    ComputesElements (.vrand f) (longLen f) f { src := .n32, dst := .n32, na := 0 } s
      (fun inp j => ⟨srOut inp.rnd.key inp.rnd.ctr (inp.rnd.base + j / 4) (f.modifier.extractLsb' 0 8).toNat / 2 ^ (32 * (j % 4)) % 2 ^ 32, 0⟩)) ∧
  (∀ (s : State) (f : VFields), Memory.wf s.core.cs = true →
    let t := f.ty
    let r := repOf f s.core.vrep
    let d := fmtOf f.vb
    let framed (i : Instr) (k : Core) (fl : VFlags) (n : Nat) (post : Core → Prop) : Prop :=
      ∃ s', exec i s = .next (finishV (longLen f) r.last s (.done fl s')) ∧ post s'.core ∧
        (∀ x, ¬(r.vd * 0x400 ≤ x ∧ x < (r.vd + n) * 0x400) → memGet s'.core.cs x = memGet s.core.cs x) ∧
        s' = { s with
          core := { k with cs := s'.core.cs, csPoison := s'.core.csPoison, fresh := s'.core.fresh }
          monitors := s'.monitors }
    (∀ a b c k, Fetches f { src := t, dst := d, na := t.bits / 8, nd := 2 } s a b c k → 
      RegsReady s (regsAt r.va (t.bits / 8) ++ regsAt r.vd 2)
        (checkedRegs f true (fun r => regsAt r.va (t.bits / 8)) (fun r => [r.vd]) s.core) →
      r.vd + 2 ≤ 1536 → t.bits = 16 ∨ t.bits = 32 → d.bits = 4 ∨ d.bits = 8 →
        let inp := inputs f s k a b c
        let block (n : Nat) := mxBlock d inp.rnd (32 * n) ((List.range 32).map fun i => operand t inp (srcA t inp (32 * n + i)))
        framed (.vmxq f) k ((List.range 32).foldl (fun fl n => fl ||| (block n).2.2) 0) 2 fun k' =>
          (∀ j, j < 1024 →
            (k'.getV r.vd).toNat / 2 ^ (d.bits * j) % 2 ^ d.bits = (((block (j / 32)).2.1[j % 32]?.map (·.bits)).getD 0) % 2 ^ d.bits) ∧
          (∀ n, n < 32 → memGet k'.cs ((r.vd + 1) * 0x400 + n) = BitVec.ofNat 8 (block n).1) ∧
          ∀ n, 32 ≤ n → n < 0x400 → memGet k'.cs ((r.vd + 1) * 0x400 + n) = memGet s.core.cs ((r.vd + 1) * 0x400 + n)) ∧
    (∀ a b c k, Fetches f (ternaryShape t) s a b c k →
      RegsReady s (readsOf (ternaryShape t) r ++ [r.vd]) (checkedRegs f false (readsOf (ternaryShape t)) (fun _ => []) s.core) → r.vd < 1536 → t.bits = 4 ∨ t.bits = 8 →
      let inp := inputs f s k a b c
      let v (j : Nat) : Fl := fp32.val (srcA .f32 inp j)
      let m (j : Nat) : Int := signedOf 32 (srcB .i32 inp j)
      let lo : Int := -2 ^ (t.bits - 1)
      let hi : Int := 2 ^ (t.bits - 1) - 1
      framed (.vrq f) k
        (flagsOf inp.cells .f32 256 fun j => ⟨0, requantFlags (v j) (m j) (srcC .n32 inp j % 64) lo hi⟩) 1 fun k' =>
        (∀ j, j < 256 → elemAt k' t r.vd j =
          if isActive inp.cells .f32 j then patternOf t.bits (requant (v j) (m j) (srcC .n32 inp j % 64) lo hi) else elemAt s.core t r.vd j) ∧
        ∀ j, 256 ≤ j → j < t.lanes → elemAt k' t r.vd j = 0))

/-- R160, R163, R190 to R197: instructions along an axis: each element takes what its instruction makes of its line (row, column or whole
register), at its position in it. R193, R196: what the values above rest on. A set with an active key that is no NaN has a winner among
those: no such key is greater (less, for VRMINI), and of those as great its index is the smallest; any other set has none. A
compare-exchange of two active elements puts the lesser key first where the stage goes up, and the greater one first where it goes down,
NaNs last and equal; it exchanges nothing else. -/
def Obligations.VectorLines : Prop :=
  (∀ (s : State) (f : VFields),
    let t := f.ty
    let col := colAxis f
    let w := bitW f
    let k := amount10 f
    let at_ (l : List Lane) (q : Nat) : Nat := (l[q]?.map (·.a)).getD 0
    let keep (e : Nat) (l : List Lane) : List Nat := l.map fun x => if x.on then x.a else e
    let line (whole : Bool) (g : List Lane → Nat → El) (inp : VIn) (j : Nat) : El :=
      g (lineOf t col whole (lanesOf t inp) j) (posOf t col whole j)
    let quiet (g : List Lane → Nat → Nat) (l : List Lane) (q : Nat) : El := ⟨g l q, 0⟩
    let reduce (_ : VTy) (op : Nat → Nat → El) (xs : List Nat) : El :=
      if w then
        let rows := (List.range 16).map fun r => treeOf op 12 ((xs.drop (r * rowLen f.ty)).take (rowLen f.ty))
        let r := treeOf op 5 (rows.map (·.bits))
        ⟨r.bits, rows.foldl (fun fl x => fl ||| x.fl) r.fl⟩
      else treeOf op 12 xs
    (k < (if col then 16 else rowLen t) →
      ComputesElements (.vrot f) (longLen f) f (unaryShape t) s
        (line false (quiet fun l q => at_ l ((q + (l.length - k)) % l.length)))) ∧
    (∀ p ∈ ([(Instr.vshft f, unaryShape t, line false (quiet fun l q =>
          if f.modifier.getLsbD 10 then at_ l (q + k) else if q < k then 0 else at_ l (q - k))),
        (Instr.vbcst f, unaryShape t, line (f.modifier.getLsbD 10) (quiet fun l _ => at_ l k)),
        (Instr.vrsum f, unaryShape t, line w fun l _ => reduce t (sumEl t) (keep (sumIdentity t) l)),
        (Instr.vrmax f, unaryShape t, line w fun l _ => reduce t (fun x y => ⟨elMax t x y, 0⟩) (keep (maxIdentity t) l)),
        (Instr.vrmin f, unaryShape t, line w fun l _ => reduce t (fun x y => ⟨elMin t x y, 0⟩) (keep (minIdentity t) l)),
        (Instr.vscan f, unaryShape t, line w fun l q => (scanFrom t (sumIdentity t) (keep (sumIdentity t) l))[q]?.getD ⟨0, 0⟩),
        (Instr.vperm f, binaryShape t, line w (quiet fun l q => at_ l ((l[q]?.map (·.b)).getD 0 % l.length))),
        (Instr.vzip f, binaryShape t, line false (quiet fun l q =>
          let x := l[q / 2 + if w then l.length / 2 else 0]?.getD ⟨false, 0, 0⟩
          if q % 2 = 0 then x.a else x.b)),
        (Instr.vuzp f, binaryShape t, line false (quiet fun l q =>
          let n := l.length / 2
          let x := l[2 * (q % n) + if w then 1 else 0]?.getD ⟨false, 0, 0⟩
          if q < n then x.a else x.b)),
        (Instr.vcomp f, { unaryShape t with force := true }, line w (quiet fun l q => at_ (l.filter (·.on)) q)),
        (Instr.vexpd f, unaryShape t, line w (quiet fun l q => at_ l ((l.take q).countP (·.on))))] :
        List (Instr × VShape × (VIn → Nat → El))),
      ComputesElements p.1 (longLen f) f p.2.1 s p.2.2) ∧
    (t.bits ≤ 32 → 8 ≤ t.bits →
      ComputesElements (.vtrn f) (longLen f) f (unaryShape t) s fun inp j =>
        let r := j / rowLen t
        let c := j % rowLen t
        ⟨srcA t inp (c % 16 * rowLen t + c / 16 * 16 + r), 0⟩) ∧
    (t.bits ≤ 16 → 8 ≤ t.bits → col = false →
      let o := dotTy t
      let row (inp : VIn) (r : Nat) : List Nat :=
        ((lanesOf t inp).drop (r * rowLen t)).take (rowLen t) |>.map fun x => if x.on then widen32 t x.a else sumIdentity o
      ComputesElements (.vrsumw f) (longLen f) f { src := t, dst := o } s fun inp j =>
        if w then
          let rows := (List.range 16).map fun r => treeOf (sumEl o) 12 (row inp r)
          let r := treeOf (sumEl o) 5 (rows.map (·.bits))
          ⟨r.bits, rows.foldl (fun fl x => fl ||| x.fl) r.fl⟩
        else treeOf (sumEl o) 12 (row inp (j / 16))) ∧
    (t.bits = 32 →
      ∀ p ∈ ([(Instr.vrmaxi f, true), (Instr.vrmini f, false)] : List (Instr × Bool)),
        ComputesElements p.1 (longLen f) f { src := t, dst := t, nb := 1, nd := 2 } s fun inp j =>
          let r := winnerOf t p.2 ((lineOf t col w (lanesOf t inp) (j % t.lanes)).map fun x => ⟨x.on, x.a, x.b⟩)
          ⟨if j < t.lanes then r.1 else r.2, 0⟩) ∧
    ComputesElements (.vcxs f) (longLen f) f { src := t, dst := t, nb := 1, nd := 2 } s fun inp j =>
      let l := (lineOf t col false (lanesOf t inp) (j % t.lanes)).map fun x => (⟨x.on, x.a, x.b⟩ : Cx)
      let q := posOf t col false (j % t.lanes)
      let r := cxAt t (f.modifier.extractLsb' 0 4).toNat (f.modifier.extractLsb' 4 4).toNat l q (l[q]?.getD ⟨false, 0, 0⟩)
      ⟨if j < t.lanes then r.key else r.load, 0⟩) ∧
  ((∀ (t : VTy) (big : Bool) (l : List Keyed), (∀ x ∈ l, x.on = false ∨ elNan t x.key = true) →
    winnerOf t big l = (if big then maxIdentity t else minIdentity t, 2 ^ 32 - 1)) ∧
  (∀ (t : VTy) (big : Bool) (l : List Keyed), (∃ x ∈ l, x.on = true ∧ elNan t x.key = false) →
    ∃ x, winner t big l = some x ∧ winnerOf t big l = (x.key, x.idx)) ∧
  (∀ (t : VTy) (big : Bool) (l : List Keyed) (x : Keyed), winner t big l = some x →
    x ∈ l ∧ x.on = true ∧ elNan t x.key = false ∧
      ∀ y ∈ l, y.on = true → elNan t y.key = false →
        (beats t big y x = false ∨ (y.key = x.key ∧ y.idx = x.idx)) ∧
        (if big then elBelow t x.key y.key else elBelow t y.key x.key) = false ∧
        (elBelow t x.key y.key = false → elBelow t y.key x.key = false → x.idx ≤ y.idx)) ∧
  (∀ (t : VTy) (k sBit : Nat) (l : List Cx) (p : Nat) (x y : Cx),
    let q := p ^^^ 2 ^ k
    let up := sBit = 15 ∨ p.testBit sBit = false
    let less (a b : Nat) : Prop := elNan t a = false ∧
      (elNan t b = true ∨ if t.isFloat then ((vfmt t).val a).below ((vfmt t).val b) = true else intVal t a < intVal t b)
    let exchanged := x.on = true ∧ y.on = true ∧ ((up ∧ less y.key x.key) ∨ (¬up ∧ less x.key y.key))
    let first := cxAt t k sBit l p x
    let second := cxAt t k sBit l q y
    p < q → l[p]? = some x → l[q]? = some y →
      (exchanged → first = y ∧ second = x) ∧ (¬exchanged → first = x ∧ second = y) ∧
      (x.on = true → y.on = true → (up → ¬less second.key first.key) ∧ (¬up → ¬less first.key second.key))) ∧
  ∀ (t : VTy) (k sBit : Nat) (l : List Cx) (p : Nat) (x : Cx), l.length ≤ p ^^^ 2 ^ k → cxAt t k sBit l p x = x)

/-- R39, R168, R190 to R197: VROT, VSHFT, VBCST, VRSUM, VRMAX, VRMIN, VSCAN, VRSUMW, VRMAXI, VRMINI, VPERM, VTRN, VZIP, VUZP, VCXS, VCOMP and
VEXPD complete wherever their sources are at hand and their registers are, under conditions on state and operands alone: a repetition that
is not a run's last one counts in vrep; after the last one, with no flag enabled and no loop ending there, vpc goes on past the
instruction. -/
def Obligations.AxisCompletion : Prop :=
  ∀ (s : State) (f : VFields),
    let t := f.ty
    let pair : VShape := { src := t, dst := t, nb := 1, nd := 2 }
    let next := s.core.vpc + w64 (4 * longLen f)
    s.core.vexc.extractLsb' 8 5 = 0 → (∀ j, (bank s.core.vloop j).active = true → (bank s.core.vloop j).fin ≠ next) →
    ∀ p ∈ ([(Instr.vrot f, unaryShape t), (.vshft f, unaryShape t), (.vbcst f, unaryShape t), (.vrsum f, unaryShape t), (.vrmax f, unaryShape t),
        (.vrmin f, unaryShape t), (.vscan f, unaryShape t), (.vrsumw f, { src := t, dst := dotTy t }), (.vrmaxi f, pair), (.vrmini f, pair),
        (.vperm f, binaryShape t), (.vtrn f, unaryShape t), (.vzip f, binaryShape t), (.vuzp f, binaryShape t), (.vcxs f, pair),
        (.vcomp f, { unaryShape t with force := true }), (.vexpd f, unaryShape t)] : List (Instr × VShape)),
      let r := repOf f s.core.vrep
      (∃ a b c k, Fetches f p.2 s a b c k) → ElementReady f p.2 s → r.vd + p.2.nd ≤ 1536 →
        ∃ u, exec p.1 s = .next u ∧ u.core.vtrap = s.core.vtrap ∧ u.core.pc = s.core.pc ∧ u.mem = s.mem ∧
          (r.last = false → u.core.vpc = s.core.vpc ∧ u.core.vrep = s.core.vrep + 1) ∧
          (r.last = true → u.core.vpc = next ∧ u.core.vrep = 0)

/-- R181 to R183: compares, class tests, and element tests write the cells of the active elements of a mask register, all else of it as
before; mask logic writes it whole; m0 discards what is written to it (R37). R175, R176, R186 to R188: VINS writes one element, VSWAP
exchanges two registers at the active elements, VPUSH appends to a vq that has room, VQDROP discards the oldest entry of a stream
register. That VPOP takes a mask is log 104. -/
def Obligations.VectorMasksAndMoves : Prop :=
  (∀ (s : State) (f : VFields) (x y : BitVec 4),
    let t := f.ty
    let ftz := f.modifier.getLsbD 7
    let mk := f.vd.extractLsb' 0 4
    let cmp (fi : Int → Int → Bool) (ff : Fl → Fl → Bool) (inp : VIn) (j : Nat) : Bool :=
      if t.isFloat then ff ((vfmt t).read ftz (srcA t inp j)) ((vfmt t).read ftz (srcB t inp j))
      else fi (intVal t (srcA t inp j)) (intVal t (srcB t inp j))
    (∀ p ∈ ([(Instr.vcmpEq f, binaryShape t, cmp (fun a b => decide (a = b)) Fl.eq),
        (Instr.vcmpNe f, binaryShape t, cmp (fun a b => decide (a ≠ b)) fun a b => !a.eq b),
        (Instr.vcmpLt f, binaryShape t, cmp (fun a b => decide (a < b)) Fl.lt),
        (Instr.vcmpLe f, binaryShape t, cmp (fun a b => decide (a ≤ b)) fun a b => a.lt b || a.eq b),
        (Instr.vcmpUnord f, binaryShape t, cmp (fun _ _ => false) fun a b => a.isNan || b.isNan),
        (Instr.vcmpOrd f, binaryShape t, cmp (fun _ _ => false) fun a b => !a.isNan && !b.isNan),
        (Instr.vclass f, unaryShape t, fun inp j => (litOf f).getLsbD (classOf (vfmt t) ftz (srcA t inp j))),
        (Instr.vtok f, unaryShape t, fun inp j => decide (srcA t inp j ≠ 0))] : List (Instr × VShape × (VIn → Nat → Bool))),
      let r := repOf f s.core.vrep
      ∀ a b c k, Fetches f p.2.1 s a b c k → RegsReady s (readsOf p.2.1 r) (checkedRegs f false (readsOf p.2.1) (fun _ => []) s.core) → 8 ≤ t.bits →
        let inp := inputs f s k a b c
        ∃ s', exec p.1 s = .next (finishV (longLen f) r.last s (.done 0 s')) ∧ s' = { s with core := { k with m := s'.core.m } } ∧
          (∀ n, n ≠ mk → s'.core.getM n = s.core.getM n) ∧
          (∀ j, j < 1024 → (s'.core.getM mk).getLsbD j =
            if mk ≠ 0 ∧ isActive inp.cells t (j * 8 / t.bits) = true then p.2.2 inp (j * 8 / t.bits) else (s.core.getM mk).getLsbD j)) ∧
    (∀ p ∈ ([(Instr.kand f, longLen f, mk, fun k => k.getM (maskField f.va) &&& k.getM (maskField f.vb)),
        (Instr.kor f, longLen f, mk, fun k => k.getM (maskField f.va) ||| k.getM (maskField f.vb)),
        (Instr.kxor f, longLen f, mk, fun k => k.getM (maskField f.va) ^^^ k.getM (maskField f.vb)),
        (Instr.knot f, longLen f, mk, fun k => ~~~k.getM (maskField f.va)),
        (Instr.kfirst f, longLen f, mk, fun k =>
          let m := k.getM (maskField f.va)
          BitVec.ofNat 1024 (((List.range 1024).find? m.getLsbD).map (2 ^ ·) |>.getD 0)),
        (Instr.kset f, longLen f, mk, fun _ => BitVec.ofNat 1024 (2 ^ min 1024 ((litOf f).toNat * (t.bits / 8)) - 1)),
        (Instr.kandShort x y, 1, x, fun k => k.getM x &&& k.getM y), (Instr.korShort x y, 1, x, fun k => k.getM x ||| k.getM y),
        (Instr.kxorShort x y, 1, x, fun k => k.getM x ^^^ k.getM y), (Instr.knotShort x y, 1, x, fun k => ~~~k.getM y)] :
        List (Instr × Nat × BitVec 4 × (Core → Mask))),
      ∃ s', exec p.1 s = .next (finishV p.2.1 true s (.done 0 s')) ∧ s' = { s with core := { s.core with m := s'.core.m } } ∧
        s'.core.getM p.2.2.1 = (if p.2.2.1 = 0 then BitVec.allOnes 1024 else p.2.2.2 s.core) ∧
        (∀ n, n ≠ p.2.2.1 → s'.core.getM n = s.core.getM n))) ∧
  (∀ (s : State) (f : VFields) (d a : BitVec 11), Memory.wf s.core.cs = true → s.core.vrep = 0 →
    let t := f.ty
    (∀ xa xb xc k, Fetches f (unaryShape t) s xa xb xc k → f.vd.toNat < 1536 → 8 ≤ t.bits →
      RegsReady s (regsAt (repOf f 0).va 1 ++ [(repOf f 0).vd]) (regsAt (repOf f 0).va 1) →
        let idx := (litOf f).toNat
        ∃ s', exec (.vins f) s = .next (finishV (longLen f) true s (.done 0 s')) ∧
          s' = { s with
            core := { k with cs := s'.core.cs, csPoison := s'.core.csPoison, fresh := s'.core.fresh }
            monitors := s'.monitors } ∧
          (∀ r j, r < 1536 → j < t.lanes → elemAt s'.core t r j =
            if r = f.vd.toNat ∧ j = idx ∧ isActive (cellsOf f k) t j = true then (els t xa)[0]?.getD 0 else elemAt s.core t r j) ∧
          (∀ x, 0x180000 ≤ x → memGet s'.core.cs x = memGet s.core.cs x)) ∧
    (∀ p ∈ ([(Instr.vswap f, longLen f, f), (Instr.vswapShort d a, 1, shortUnary .n64 d a)] : List (Instr × Nat × VFields)),
      let r := repOf p.2.2 0
      let t := p.2.2.ty
      r.vd < 1536 → r.va < 1536 → RegsReady s [r.va, r.vd] (checkedRegs p.2.2 false (fun r => [r.va, r.vd]) (fun r => [r.va, r.vd]) s.core) →
        ∃ s', exec p.1 s = .next (finishV p.2.1 r.last s (.done 0 s')) ∧
          s' = { s with
            core := { s.core with cs := s'.core.cs, csPoison := s'.core.csPoison, fresh := s'.core.fresh }
            monitors := s'.monitors } ∧
          (∀ j, j < t.lanes → isActive (cellsOf p.2.2 s.core) t j = true →
            elemAt s'.core t r.vd j = elemAt s.core t r.va j ∧ elemAt s'.core t r.va j = elemAt s.core t r.vd j) ∧
          (∀ q j, q < 1536 → j < t.lanes → ((q ≠ r.vd ∧ q ≠ r.va) ∨ isActive (cellsOf p.2.2 s.core) t j = false) →
            elemAt s'.core t q j = elemAt s.core t q j) ∧
          (∀ x, 0x180000 ≤ x → memGet s'.core.cs x = memGet s.core.cs x)) ∧
    (let j := f.vd.extractLsb' 0 2
     ∀ xa xb xc k, Fetches f (unaryShape .n64) s xa xb xc k → RegsReady s (regsAt (repOf f 0).va 1) (regsAt (repOf f 0).va 1) → (bank s.core.vq j).length < 8 →
      exec (.vpush f) s = .next (finishV (longLen f) true s
        (.done 0 { s with core := { k with vq := bankSet k.vq j (bank k.vq j ++ [BitVec.ofNat 64 (xa[0]?.getD 0)]) } }))) ∧
    (∀ p ∈ ([(Instr.vqdrop f, longLen f, f.va), (Instr.vqdropShort a, 1, a)] : List (Instr × Nat × BitVec 11)),
      let q := p.2.2.extractLsb' 0 4
      (∀ e rest, bank s.core.q q = e :: rest → e.ready = true →
        exec p.1 s = .next (finishV p.2.1 true s (.done 0 { s with core := { s.core with q := bankSet s.core.q q rest } }))) ∧
      (bank s.core.q q = [] → exec p.1 s = .next s)))

/-- R18, R72, R126, R127, R173, R174, R458: what the control instructions of the V-stream do. R39, R168, R170, R174, R262: how a V instruction
ends: a run that is not over goes on with the next repetition and keeps its flags; else vpc goes on, or back to the start of the loop that
ends there and has repetitions left; the flags of c.vexc stick; an enabled flag stops the sequencer with V_ARITH; a trap leaves vpc where
it is. Each repetition is counted (R141). -/
def Obligations.VectorControl : Prop :=
  (∀ (s : State) (f : VFields) (id : BitVec 22) (raw : VRaw) (op : BitVec 4) (d a : BitVec 11),
    let k := s.core
    let done (len : Nat) (s' : State) : Host.Outcome State Fault Refusal := .next (finishV len true s (.done 0 s'))
    exec (.vnop f) s = done (longLen f) s ∧ exec .vnopShort s = done 1 s ∧ exec (.vHintShort op d a) s = done 1 s ∧
    exec (.vHint raw) s = done (match raw with | .w64 _ => 2 | .w96 _ => 3) s ∧
    (∀ p ∈ ([(Instr.vhalt f), Instr.vhaltShort] : List Instr),
      exec p s = .next { s with core := Core.note 4 1 { k with vseq := .halted, vrep := 0, vflags := 0 } }) ∧
    (let sem := f.vd.extractLsb' 0 8
     let n := f.modifier.toNat
     let c := (bank k.sem sem).toNat
     (k.metV = true ∨ n ≤ c → exec (.vwait f) s = done (longLen f) { s with core := { k with metV := false } }) ∧
     (k.metV = false → c < n → exec (.vwait f) s = .next s) ∧
     (n = 0 → exec (.vsig f) s = done (longLen f) s) ∧
     (n ≠ 0 → c + n ≤ 65535 →
      exec (.vsig f) s =
        done (longLen f) { s with core := Core.note 0x1B 1 { k with sem := bankSet k.sem sem (BitVec.ofNat 16 (c + n)) } }) ∧
     (65535 < c + n → exec (.vsig f) s = .next { s with core := Core.note 4 1 (k.vTrap .semOvf k.vpc (sem.zeroExtend 64) k.vpc) })) ∧
    (∀ p ∈ ([(Instr.vseam f, longLen f, f.va ++ f.vd), (Instr.vseamShort id, 1, id)] : List (Instr × Nat × BitVec 22)),
      (k.vloop.toList.any (·.active) = true → exec p.1 s = .next { s with core := Core.note 4 1 (k.vTrap .illegal k.vpc 0 k.vpc) }) ∧
      (k.vloop.toList.any (·.active) = false →
        let n := passages k.passV p.2.2
        let passed := done p.2.1 { s with core := { k with passV := setPassages k.passV p.2.2 (n + 1) } }
        (k.stop = none → exec p.1 s = passed) ∧
        (k.stop.isSome = true → (∀ x, k.aseq ≠ .atSeam x) → n < passages k.passA p.2.2 → exec p.1 s = passed) ∧
        (k.stop.isSome = true → (∀ x, k.aseq ≠ .atSeam x) → passages k.passA p.2.2 ≤ n → exec p.1 s = .next s) ∧
        (k.stop.isSome = true → k.aseq = .atSeam p.2.2 → exec p.1 s = .next s) ∧
        (∀ x, k.stop.isSome = true → k.aseq = .atSeam x → x ≠ p.2.2 → exec p.1 s = passed))) ∧
    (let target := k.vpc + BitVec.ofInt 64 (4 * (litOf f).toInt)
     exec (.vjmp f) s = .next { s with core := Core.note 4 1 { k with
        vloop := k.vloop.map (fun l => if l.start ≤ target && target < l.fin then l else { l with active := false })
        vpc := target, vrep := 0, vflags := 0 } } ∧
     (let j := f.vd.extractLsb' 0 2
      let start := k.vpc + BitVec.ofNat 64 (4 * longLen f)
      (loopCrosses k j target = false → f.modifier = 0 →
        exec (.vloop f) s = .next { s with core := Core.note 4 1 { k with vpc := target, vrep := 0, vflags := 0 } }) ∧
      (loopCrosses k j target = false → f.modifier ≠ 0 →
        ∃ t, exec (.vloop f) s = .next t ∧ t.core.vpc = start ∧ bank t.core.vlc j = f.modifier.zeroExtend 32 - 1 ∧
          (bank t.core.vloop j).start = start ∧ (bank t.core.vloop j).fin = target ∧ (bank t.core.vloop j).active = true ∧
          (∀ i, i ≠ j → bank t.core.vlc i = bank k.vlc i ∧ bank t.core.vloop i = bank k.vloop i) ∧
          t = { s with core := Core.note 4 1 { k with vpc := start, vrep := 0, vflags := 0, vlc := t.core.vlc, vloop := t.core.vloop } }) ∧
      (loopCrosses k j target = true → exec (.vloop f) s = .next { s with core := Core.note 4 1 (k.vTrap .illegal k.vpc 0 k.vpc) })))) ∧
  (∀ (s t : State) (len : Nat) (fl : VFlags),
    let all := s.core.vflags ||| fl
    let next := t.core.vpc + w64 (4 * len)
    let stuck := t.core.vexc ||| all.zeroExtend 64
    finishV len false s (.done fl t) = { t with core := Core.note 4 1 { t.core with vrep := s.core.vrep + 1, vflags := all } } ∧
    ((∀ j, (bank t.core.vloop j).active = true → (bank t.core.vloop j).fin ≠ next) →
      (all &&& stuck.extractLsb' 8 5 = 0 →
        finishV len true s (.done fl t) = { t with core := Core.note 4 1 { t.core with vpc := next, vexc := stuck, vrep := 0, vflags := 0 } }) ∧
      (all &&& stuck.extractLsb' 8 5 ≠ 0 →
        let k := (finishV len true s (.done fl t)).core
        k.vseq = .trapped next ∧ k.vtrap = some ⟨.vArith, .v, t.core.vpc, all.zeroExtend 64⟩ ∧ k.vexc = stuck ∧ k.cs = t.core.cs)) ∧
    (∀ j, (bank t.core.vloop j).active = true → (bank t.core.vloop j).fin = next →
      (∀ i, i ≠ j → (bank t.core.vloop i).active = true → (bank t.core.vloop i).fin ≠ next) → all &&& stuck.extractLsb' 8 5 = 0 →
        (bank t.core.vlc j ≠ 0 →
          finishV len true s (.done fl t) = { t with core := Core.note 4 1 { t.core with
            vpc := (bank t.core.vloop j).start, vlc := bankSet t.core.vlc j (bank t.core.vlc j - 1), vexc := stuck, vrep := 0, vflags := 0 } }) ∧
        (bank t.core.vlc j = 0 →
          finishV len true s (.done fl t) = { t with core := Core.note 4 1 { t.core with
            vpc := next, vloop := bankSet t.core.vloop j { bank t.core.vloop j with active := false }, vexc := stuck, vrep := 0, vflags := 0 } })) ∧
    (∀ code x, finishV len true s (.trap code x) =
      { s with core := Core.note 4 1 { s.core with
        vseq := .trapped s.core.vpc, vtrap := some ⟨code, .v, s.core.vpc, x⟩, vrep := 0, vflags := 0, vacc := none
        out := s.core.out.filter fun u => u.dest != .blockV } }))

/-- R199 to R201, R203: a load of elements whose bytes can all be read: the active cells of the destination take the bytes at their addresses
(one address for each register byte, by rows with a stride, or one element for each index), and m15 shows where a byte was missing; KLD
reads a mask. Every other byte of the core store is as before. R199 to R203: a store of elements whose addresses lie in ordinary memory:
every active cell of the register goes to the byte at its address, the later element remaining where two fall on one byte; memory is as
before at every other address. VSTM packs the active elements; KST writes a mask. (Memory that Selvedge does not protect.) -/
def Obligations.VectorLoadsAndStores : Prop :=
  (∀ (s : State) (f : VFields), Memory.wf s.core.cs = true → s.core.vUnits = [] → s.core.vacc = none →
    vWaits s true (fun a => ownSlot s a.slot) = false → s.core.requests ≤ 1024 →
    let w := unitBytes f.ty
    let a := w64 (leNat ((List.range 8).map fun i => memGet s.core.cs (f.va.toNat * 0x400 + i))) +
      (match f.literal with | some v => v.signExtend 64 | none => 0)
    let mask := cellsOf f s.core
    let on (j : Nat) : Bool := mask.getLsbD (j / w * w)
    let reads (va : Word) (b : Byte) (miss : Bool) : Prop :=
      readSite s .load (virtSite s s.core.launch true false false va) = .value b miss
    (∀ p ∈ ([(Instr.vld f, [f.va.toNat], 64, 1, fun c => a + w64 c),
        (Instr.vlds f, [f.va.toNat], 64, 1, fun c => a + BitVec.ofInt 64 (64 * (c / 64 : Nat) * f.modifier.toInt) + w64 (c % 64)),
        (Instr.vldx f, [f.va.toNat, f.vb.toNat], 1, w, fun c =>
          a + BitVec.ofInt 64 (w * signedOf f.ty.bits (elemAt s.core f.ty f.vb.toNat (c / w))))] :
        List (Instr × List Nat × Nat × Nat × (Nat → Word))),
      RegsReady s (p.2.1 ++ [f.vd.toNat]) p.2.1 → f.vd.toNat < 1536 → a.toNat % p.2.2.1 = 0 →
        (∀ j, j < 1024 → on j = true →
          (p.2.2.2.2 (j / w * w)).toNat % p.2.2.2.1 = 0 ∧ watchHit s (p.2.2.2.2 (j / w * w)) = false) →
        ∀ (val : Nat → Byte) (miss : Nat → Bool),
          (∀ j, j < 1024 → on j = true → reads (p.2.2.2.2 (j / w * w) + w64 (j % w)) (val j) (miss j)) →
            ∃ s', exec p.1 s = .next (finishV (longLen f) true s (.done 0 s')) ∧
              (∀ j, j < 1024 → memGet s'.core.cs (f.vd.toNat * 0x400 + j) =
                if on j then val j else memGet s.core.cs (f.vd.toNat * 0x400 + j)) ∧
              (∀ x, ¬(f.vd.toNat * 0x400 ≤ x ∧ x < f.vd.toNat * 0x400 + 0x400) → memGet s'.core.cs x = memGet s.core.cs x) ∧
              (∀ j, j < 1024 → (bank s'.core.m 15).getLsbD j =
                if on j then (List.range w).any (fun i => miss (j / w * w + i)) else (bank s.core.m 15).getLsbD j) ∧
              (∀ n, n ≠ 15 → bank s'.core.m n = bank s.core.m n) ∧
              s' = noteMiss ((List.range 1024).any fun j => on j && miss j) { s with
                core := { s.core with cs := s'.core.cs, csPoison := s'.core.csPoison, fresh := s'.core.fresh, m := s'.core.m }
                monitors := s'.monitors }) ∧
    (RegsReady s [f.va.toNat] [f.va.toNat] → a.toNat % 64 = 0 → watchHit s a = false →
      ∀ val : Nat → Byte,
        (∀ i, i < 128 → readSite s .kld (virtSite s s.core.launch true false false (a + w64 i)) = .value (val i) false) →
          let m : Mask := BitVec.ofNat 1024 (leNat ((List.range 128).map val))
          exec (.kld f) s = .next (finishV (longLen f) true s (.done 0 { s with core := s.core.setM (f.vd.extractLsb' 0 4) m })))) ∧
  (∀ (s : State) (f : VFields), Canonical s → s.sv.en = false → s.core.vUnits = [] → s.core.vacc = none →
    vWaits s true (fun a => ownSlot s a.slot) = false → s.core.requests ≤ 1024 →
    let w := unitBytes f.ty
    let a := w64 (leNat ((List.range 8).map fun i => memGet s.core.cs (f.va.toNat * 0x400 + i))) +
      (match f.literal with | some v => v.signExtend 64 | none => 0)
    let mask := cellsOf f s.core
    let on (j : Nat) : Bool := mask.getLsbD (j / w * w)
    let writes (i : Instr) (n : Nat) (on : Nat → Bool) (va : Nat → Word) (data : Nat → Byte) : Prop :=
      ∀ pa : Nat → Nat, (∀ j, j < n → on j = true → virtSite s s.core.launch true true false (va j) = .mem (pa j)) →
        ∃ s', exec i s = .next (finishV (longLen f) true s (.done 0 s')) ∧
          (∀ j, j < n → on j = true → (∀ j', j' < n → on j' = true → j < j' → pa j' ≠ pa j) → memGet s'.mem (pa j) = data j) ∧
          (∀ x, (∀ j, j < n → on j = true → pa j ≠ x) → memGet s'.mem x = memGet s.mem x) ∧
          s' = { s with
            mem := s'.mem, poison := s'.poison, images := s'.images, monitors := s'.monitors }
    (∀ p ∈ ([(Instr.vst f, [f.va.toNat], 64, 1, fun c => a + w64 c),
        (Instr.vsts f, [f.va.toNat], 64, 1, fun c => a + BitVec.ofInt 64 (64 * (c / 64 : Nat) * f.modifier.toInt) + w64 (c % 64)),
        (Instr.vstx f, [f.va.toNat, f.vb.toNat], 1, w, fun c =>
          a + BitVec.ofInt 64 (w * signedOf f.ty.bits (elemAt s.core f.ty f.vb.toNat (c / w)))),
        (Instr.vstm f, [f.va.toNat], w, 1, fun c => a + w64 (w * (List.range (c / w)).countP fun i => on (i * w)))] :
        List (Instr × List Nat × Nat × Nat × (Nat → Word))),
      RegsReady s (f.vd.toNat :: p.2.1) (f.vd.toNat :: p.2.1) → a.toNat % p.2.2.1 = 0 →
        (∀ j, j < 1024 → on j = true →
          (p.2.2.2.2 (j / w * w)).toNat % p.2.2.2.1 = 0 ∧ watchHit s (p.2.2.2.2 (j / w * w)) = false) →
        writes p.1 1024 on (fun j => p.2.2.2.2 (j / w * w) + w64 (j % w)) fun j =>
          BitVec.ofNat 8 ((s.core.getV f.vd.toNat).toNat / 256 ^ j)) ∧
    (RegsReady s [f.va.toNat] [f.va.toNat] → a.toNat % 64 = 0 → watchHit s a = false →
      writes (.kst f) 128 (fun _ => true) (fun j => a + w64 j) fun j =>
        BitVec.ofNat 8 ((s.core.getM (f.vd.extractLsb' 0 4)).toNat / 256 ^ j)))

/-- R18, R222, R231 to R235, R242, R244, R458: what the control words of the M-stream do; a word after a fence that is in flight does not
start. R47, R225: a popped locator entry that names no operand of its word, a range past the core store, and an error in what a word reads
stop the M sequencer with a fault entry in rq, once the words before are complete; the word has no effect. -/
def Obligations.MatrixControl : Prop :=
  (∀ (s : State) (f : MFields) (raw : BitVec 192),
    let k := s.core
    let j := f.locA.extractLsb' 24 2
    let fenced := (k.mflight.any fun w => w.fence || w.drain) = true
    (∀ p ∈ ([(Instr.mnop f, 0x01, {}, mNext s), (Instr.mfence f, 0x08, { fence := true }, mNext s),
        (Instr.qdrain f, 0x12, { drain := true }, mNext s),
        (Instr.qskip f, 0x18, {}, mNext { s with core := { k with sigma := k.sigma + f.count.toNat } }),
        (Instr.mhalt f, 0x02, {}, { s with core := { k with mseq := .halted } })] : List (Instr × BitVec 8 × MStart × State)),
      (∀ x mq, Starts f false s → Takes colN colN colN f s x mq → exec p.1 s = .next (started p.2.1 f s mq p.2.2.1 p.2.2.2)) ∧
        (fenced → exec p.1 s = .next s)) ∧
    (let g : MFields := { f with locA := 0, locB := 0 }
     ∀ x mq, Starts g true s → Takes colN colN colN g s x mq →
      exec (.mreply f) s = .next (started 0x04 g s mq { reply := some (f.locB ++ f.locA) } (mNext s))) ∧
    (let g : MFields := { f with locA := 0 }
     ∀ x mq, Starts g false s → Takes colN colN colN g s x mq →
      exec (.mjmp f) s = .next (started 0x07 g s mq {}
        { s with core := { k with mpc := k.mpc + BitVec.ofInt 64 (24 * (f.locA.extractLsb' 0 24).toInt) } }) ∧
      ((bank k.mloop j).active = true → bank k.mlc j ≠ 0 →
        exec (.mend f) s = .next (started 0x06 g s mq {}
          { s with core := { k with mlc := bankSet k.mlc j (bank k.mlc j - 1), mpc := (bank k.mloop j).start } })) ∧
      ((bank k.mloop j).active = true → bank k.mlc j = 0 →
        exec (.mend f) s = .next (started 0x06 g s mq {}
          (mNext { s with core := { k with mloop := bankSet k.mloop j { bank k.mloop j with active := false } } }))) ∧
      ((bank k.mloop j).active = false → k.mflight = [] →
        ∃ t, exec (.mend f) s = .next t ∧ t.core.mseq = .faulted ∧ t.core.rq = k.rq ++ [⟨true, mFaultPayload k.mOffset mIllegal 0⟩])) ∧
    (Starts f false s → locOf f.locC = some .none → 0 < f.count.toNat →
      exec (.mloop f) s = .next (started 0x05 { f with rply := false } s k.mq {}
        { s with core := { k with
          mlc := bankSet k.mlc j (BitVec.ofNat 32 (f.count.toNat - 1)), mloop := bankSet k.mloop j ⟨k.mpc + 24, true⟩, mpc := k.mpc + 24 } })) ∧
    (k.mflight = [] → mWaits f k = false →
      exec (.mbrk f) s = .next (mStarted (mNext { s with core := { k with
        rq := k.rq ++ [⟨true, mFaultPayload k.mOffset mBrk f.count.toNat⟩], mseq := .brk } }))) ∧
    (¬fenced →
      exec (.mHint raw) s = .next (mStarted (mNext s)) ∧
      (let id : BitVec 22 := f.locA.extractLsb' 0 22
       let n := passages k.passM id
       let passed : Host.Outcome State Fault Refusal :=
        .next (mStarted (mNext { s with core := { k with passM := setPassages k.passM id (n + 1) } }))
       (k.stop = none → exec (.mseam f) s = passed) ∧
       (k.stop.isSome = true → (∀ x, k.aseq ≠ .atSeam x) → n < passages k.passA id → exec (.mseam f) s = passed) ∧
       (k.stop.isSome = true → (∀ x, k.aseq ≠ .atSeam x) → passages k.passA id ≤ n → exec (.mseam f) s = .next s) ∧
       (k.stop.isSome = true → k.aseq = .atSeam id → exec (.mseam f) s = .next s)))) ∧
  (∀ (s : State) (f : MFields), Starts f false s → s.core.mflight = [] →
    let faulted (i : Instr) (kind : Nat) (mq : Bank (List Word) 2) : Prop :=
      exec i s = .next { s with core := { s.core with
        mq := mq, rq := s.core.rq ++ [⟨true, mFaultPayload s.core.mOffset kind 0⟩], mseq := .faulted } }
    (∀ q e rest, locOf f.locA = some (.mq q) → bank s.core.mq q = e :: rest →
      let mq := bankSet s.core.mq q rest
      (e.extractLsb' 32 32 ≠ 0 → faulted (.yld f) mQueue mq) ∧
      (∀ t, e.extractLsb' 32 32 = 0 → locOf (e.extractLsb' 0 32) = some (.td t) → faulted (.yld f) mIllegalOp mq) ∧
      (∀ a, e.extractLsb' 32 32 = 0 → locOf (e.extractLsb' 0 32) = some (.csa a) → a.extractLsb' 0 6 ≠ 0 → faulted (.yld f) mIllegalOp mq)) ∧
    (∀ p ∈ ([Instr.yld f, .yst f] : List Instr),
      ∀ x mq, Takes colS colN colN f s x mq → 0x200000 < x.a.addr + 0x8000 → faulted p mIllegalOp mq) ∧
    (∀ x mq, Takes colN colN colN f s x mq → s.core.units[32 + f.acc.toNat]? = some .own →
      poisoned s.core.accPoison (f.acc.toNat * 0x8000, 0x8000) = true → faulted (.yscl f) mUncorr mq))

/-- R236 to R239: QWIN fills the lowest EMPTY slot of the gather window with the rows at its tag and the scales at its address, QSCL replaces
a slot's scales, QREL gives a slot up; a tag that is there already, and a full window, are faults. R141, R158, R212, R213, R241, R243,
R245, R246: the Quern words: QSTEP adds the partials of a steering tile and a filled slot to its tile or tiles; QNZ replies with counts;
QCB writes a header; M.BOLT writes steering tiles of code tiles. R205 to R209, R213: the steering tile that the Bolter makes meets every
check of its columns, so that QSTEP takes it: only an INVALID T and a NaN codeword are refused. -/
def Obligations.GatherWindowAndQuern : Prop :=
  (∀ (s : State) (f : MFields) (x : MArgs) (mq : Bank (List Word) 2), Canonical s → Starts f false s →
    let k := s.core
    let d := if f.d64 then 64 else 32
    let n (d64 : Bool) := if d64 then 1024 else 512
    let c := x.a.addr
    let tag := x.b.addr
    (Takes colS colS colN f s x mq →
      (StoreReady [(tag, 256 * d), (c, n f.d64)] [] [] [] s →
        (∀ i, findSlot k tag = none → (bank k.gather i).st = .empty → (∀ i', i' < i → (bank k.gather i').st ≠ .empty) →
          ∃ g, exec (.qwin f) s = .next (started 0x16 f s mq { slot := some i } (mNext { s with core := { k with gather := bankSet k.gather i g } })) ∧
            g.st = .filling ∧ g.tag = tag ∧ g.kind = f.count.extractLsb' 0 2 ∧ g.d64 = f.d64 ∧
            (∀ b, b < 256 * d → g.rows.toNat / 256 ^ b % 256 = (memGet k.cs (tag + b)).toNat) ∧
            ∀ b, b < n f.d64 → g.scales.toNat / 256 ^ b % 256 = (memGet k.cs (c + b)).toNat) ∧
        ((findSlot k tag).isSome = true → k.mflight = [] →
          ∃ t, exec (.qwin f) s = .next t ∧ t.core.mseq = .faulted ∧ t.core.rq = k.rq ++ [⟨true, mFaultPayload k.mOffset mIllegalOp 0⟩]) ∧
        (findSlot k tag = none → (∀ i, (bank k.gather i).st = .filling ∨ (bank k.gather i).st = .filled) → k.mflight = [] →
          ∃ t, exec (.qwin f) s = .next t ∧ t.core.mseq = .faulted ∧ t.core.rq = k.rq ++ [⟨true, mFaultPayload k.mOffset mQueue 0⟩])) ∧
      (∀ i, findSlot k tag = some i → StoreReady [(c, n (bank k.gather i).d64)] [] [] [] s →
        ∃ g, exec (.qscl f) s = .next (started 0x15 f s mq { slot := some i } (mNext { s with core := { k with gather := bankSet k.gather i g } })) ∧
          (∀ b, b < 1024 → g.scales.toNat / 256 ^ b % 256 =
            if b < n g.d64 then (memGet k.cs (c + b)).toNat else (bank k.gather i).scales.toNat / 256 ^ b % 256) ∧
          g = { bank k.gather i with scales := g.scales })) ∧
    (Takes colN colS colN f s x mq →
      (findSlot k tag = none → exec (.qrel f) s = .next (started 0x17 f s mq {} (mNext s))) ∧
      (∀ i, findSlot k tag = some i →
        ∃ g, exec (.qrel f) s = .next (started 0x17 f s mq {} (mNext { s with core := { k with gather := bankSet k.gather i g } })) ∧
          ((∀ w ∈ k.mflight, w.slot ≠ some i) → g.st = .empty) ∧ ((∃ w ∈ k.mflight, w.slot = some i) → g.st = .releasing)))) ∧
  (∀ (s : State) (f : MFields) (x : MArgs) (mq : Bank (List Word) 2), Canonical s →
    let k := s.core
    let d := if f.d64 then 64 else 32
    let n := if f.d64 then 3072 else 2048
    let y := f.acc.toNat
    (∀ p ∈ ([(Instr.qstep f, 0x10, false), (Instr.qstepI4 f, 0x11, true)] : List (Instr × BitVec 8 × Bool)),
      let i4 := p.2.2
      let ys := if i4 then [y, y + 1] else [y]
      ∀ a i, Starts f false s → Takes colTS colS colN f s x mq → steerAt (some d) x.a = some a → findSlot k x.b.addr = some i →
        (bank k.gather i).st = .filled → (k.mflight.countP (·.qstep)) < 4 → StoreReady [(a, n)] [] (if f.clr then [] else ys) ys s →
            let g := bank k.gather i
            let t := steerOf d (k.csBytes a n)
            let e4 := f.count.getLsbD 0
            let ps := quernPartials e4 g d t
            let cell (z lane j m : Nat) : Nat := accumulate f.clr (elemY k z j m) (((ps[j]?.getD [])[lane + m]?).getD 0)
            (slotBad g d i4 = false → steerBad t d e4 = false →
              ∃ s', exec p.1 s = .next (started p.2.1 f s mq { qstep := true, slot := some i } (mNext s')) ∧
                (∀ j m, j < 32 → m < 256 → elemY s'.core y j m = cell y 0 j m % 2 ^ 32 ∧
                  (i4 = true → elemY s'.core (y + 1) j m = cell (y + 1) 256 j m % 2 ^ 32)) ∧
                (∀ b, ¬(y * 0x8000 ≤ b ∧ b < (y + if i4 then 2 else 1) * 0x8000) → memGet s'.core.acc b = memGet k.acc b) ∧
                s' = { s with core := { k with
                  acc := s'.core.acc, accPoison := s'.core.accPoison, fresh := s'.core.fresh
                  stepNo := k.stepNo + 1, sigma := k.sigma + 1
                  tally := (0x11, t.buckets e4 * if i4 then 512 else 256) :: (0x10, t.penalty e4) :: (0x0F, t.entries e4) :: k.tally } }) ∧
            (slotBad g d i4 = true ∨ steerBad t d e4 = true → k.mflight = [] →
              ∃ t, exec p.1 s = .next t ∧ t.core.mseq = .faulted ∧ t.core.acc = k.acc ∧
                t.core.rq = k.rq ++ [⟨true, mFaultPayload k.mOffset mFormat 0⟩])) ∧
    (∀ a, Starts f true s → Takes colTS colN colN f s x mq → steerAt none x.a = some a →
      let d := if (memGet k.cs (a + 257)).getLsbD 2 then 64 else 32
      let n := if d = 64 then 3072 else 2048
      StoreReady [(a, n)] [] [] [] s →
        let t := steerOf d (k.csBytes a n)
        exec (.qnz f) s = .next (started 0x19 f s mq
          { reply := some (w64 (t.nz % 2 ^ 12 + ((List.range 32).map fun j => if countOf ((t.cols[j]?.map (·.1)).getD []) ≠ 0 then 2 ^ (16 + j) else 0).sum)) }
          (mNext s))) ∧
    (∀ a, Starts f false s → Takes colTS colS colN f s x mq → steerAt none x.a = some a → StoreReady [(x.b.addr, 257)] [(a, 257)] [] [] s →
        ∃ s', exec (.qcb f) s = .next (started 0x14 f s mq {} (mNext s')) ∧ WritesStore a 257 s s' ∧
          ∀ i, i < 257 → memGet s'.core.cs (a + i) = memGet k.cs (x.b.addr + i)) ∧
    (let b := (f.count.extractLsb' 0 2).toNat
     let cnt := (f.count.extractLsb' 2 12).toNat
     let tiles := if f.d64 then 2 * cnt else cnt
     let stride := roundUp (codeTileBytes b) 64
     let src := (x.a.addr, (tiles - 1) * stride + codeTileBytes b)
     let dst := (x.b.addr, cnt * n)
     let code (h : Nat) : List Byte := k.csBytes (src.1 + h * stride) (codeTileBytes b)
     let pair (i : Nat) : List (List Byte) := if f.d64 then [code (2 * i), code (2 * i + 1)] else [code i]
     Starts f false s → Takes colS colS colN f s x mq → StoreReady [src] [dst] [] [] s → rangesMeet src dst = false →
      (∀ i, i < cnt → pairAgrees b (pair i) = true) →
        ∃ s', exec (.mBolt f) s = .next (started 0x13 f s mq {} (mNext s')) ∧
          WritesStore dst.1 dst.2 { s with core := { k with tally := List.replicate cnt (0x0E, 1) ++ k.tally } } s' ∧
          ∀ i, i < cnt → s'.core.csBytes (dst.1 + i * n) n = boltTile b (pair i))) ∧
  (∀ (b : Nat) (tiles : List (List Byte)) (e4 : Bool),
    1 ≤ b → b ≤ 3 → tiles.length = 1 ∨ tiles.length = 2 → (∀ t ∈ tiles, t.length = codeTileBytes b) → pairAgrees b tiles = true →
      let head := tiles.head?.getD []
      byteAt head (128 * b + 32 * 2 ^ b) ≠ 0xFF →
        (e4 = true → ∀ j, j < 32 → ∀ w ∈ bookOf b head j, w ≠ 0x7F ∧ w ≠ 0xFF) →
          steerBad (steerOf (32 * tiles.length) (boltTile b tiles)) (32 * tiles.length) e4 = false)

/-- R158, R205 to R209: what steering means: of one code tile, or of a pair that agrees, the Bolter makes a steering tile in which each
column's exact sums are those of the codes: the sum over the rows of the row's element times the codeword of the row's code. -/
def Obligations.SteeredSums : Prop :=
  ∀ (b : Nat) (tiles : List (List Byte)) (e4 : Bool) (rows : List (List Int)) (lanes j l : Nat),
    1 ≤ b → b ≤ 3 → tiles.length = 1 ∨ tiles.length = 2 → (∀ t ∈ tiles, t.length = codeTileBytes b) → pairAgrees b tiles = true →
      let d := 32 * tiles.length
      rows.length = d → (∀ r ∈ rows, r.length = lanes) → j < 32 → l < lanes →
        let x := steerOf d (boltTile b tiles)
        let book := bookOf b (tiles.head?.getD []) j
        (columnSums e4 rows lanes (x.books[j]?.getD []) (x.cols[j]?.getD ([], [])))[l]? =
          some ((List.range d).foldl (fun acc r =>
            acc + codeword e4 (book[(allCodes b tiles j)[r]?.getD 0]?.getD 0) * ((rows[r]?.getD [])[l]?.getD 0)) 0)

/-- R141, R143, R159, R219 to R221, R247 to R252: dense products: element (j, m) of the tile takes the chunks of 64 products of row m of A and
column j of B, each rounded once (a sum of integers that is zero is +0), in ascending k; a clear mask bit gives −∞; a row without an index
gives zeros; elements past the operands are left. Types, scales and gathering as each word has them. That the slot of an MMA.G is
RELEASING meanwhile is log 79, the order of its start faults log 108, and the sign of the zeros of a 0xFFFF row log 105. -/
def Obligations.DenseProducts : Prop :=
  ∀ (s : State) (f : MFields) (x : MArgs) (mq : Bank (List Word) 2) (b : DenseB) (br : List (Nat × Nat)), Canonical s → Starts f false s →
    let k := s.core
    let y := f.acc.toNat
    let c := x.c.addr
    let yr := if f.clr then [] else [y]
    let byte (a : Nat) : Nat := (memGet k.cs a).toNat
    let scaled (mx : Bool) (a : Nat) (v : Fl) : Fl := if mx then v.scaled (byte a) else v
    let bAt (t : VTy) (j i : Nat) : Fl := denseVal t (b.bits / 2 ^ (t.bits * if b.trb then j * b.k + i else i * b.nb + j) % 2 ^ t.bits)
    let dot (t : VTy) (m j : Nat) (av bv : Nat → Fl) : Nat := takeChunks f.clr (elemY k y j m)
      ((List.range (b.k / 64)).map fun h =>
        let x := Fl.sum false ((List.range 64).map fun i => (av (64 * h + i)).mul (bv (64 * h + i)))
        fp32.rne (if t.isFloat = false ∧ x.isZero = true then .fin false 0 0 else x))
    let macs (p : Nat → Nat → Bool) : Nat := b.k * (List.range 8192).countP fun i => p (i / 256) (i % 256)
    (∀ p ∈ ([(Instr.mmaI8 f, 0x20, .i8, colN, none, false), (Instr.mmaE4m3 f, 0x21, .e4m3, colN, none, false),
        (Instr.mmaE5m2 f, 0x22, .e5m2, colN, none, false), (Instr.mmaBf16 f, 0x23, .bf16, colN, none, false),
        (Instr.mmaMx4 f, 0x24, .e2m1, colS, some 0, false), (Instr.mmaMskI8 f, 0x30, .i8, colS, none, true),
        (Instr.mmaMskE4m3 f, 0x31, .e4m3, colS, none, true), (Instr.mmaMskE5m2 f, 0x32, .e5m2, colS, none, true),
        (Instr.mmaMskBf16 f, 0x33, .bf16, colS, none, true), (Instr.mmaMskMx4 f, 0x34, .e2m1, colS, some 1024, true)] :
        List (Instr × BitVec 8 × VTy × LocCol × Option Nat × Bool)),
      let t := p.2.2.1
      let mx := p.2.2.2.2.1.isSome
      let o := c + p.2.2.2.2.1.getD 0
      ∀ ax, Takes colT colTN p.2.2.2.1 f s x mq → x.a = .tile ax → denseB k t f.trb x.b = some (b, br) →
        let d := descOf ax
        d.isData = true → d.ty = t.code.toNat → d.cols = b.k → d.rows ≤ 256 →
          StoreReady (d.range :: br ++ (if mx then [(o, b.nb * (b.k / 32)), (o + b.k, d.rows * (b.k / 32))] else []) ++
            (if p.2.2.2.2.2 then [(c, 1024)] else [])) [] yr [y] s →
            let av (m i : Nat) : Fl := scaled mx (o + b.k + m * (b.k / 32) + i / 32) (denseVal t (fieldAt k d.range.1 t.bits (m * b.k + i)))
            let bv (j i : Nat) : Fl := scaled mx (o + j * (b.k / 32) + i / 32) (bAt t j i)
            let masked (j m : Nat) : Bool := p.2.2.2.2.2 && !(memGet k.cs (c + 32 * j + m / 8)).getLsbD (m % 8)
            let counted := { s with core := k.note 0x12 (macs fun j m => decide (m < d.rows) && decide (j < b.nb) && !masked j m) }
            ∃ s', exec p.1 s = .next (started p.2.1 f s mq {} (mNext s')) ∧ WritesTile y counted s' fun j m =>
              if m < d.rows ∧ j < b.nb then if masked j m then 0xFF800000 else dot t m j (av m) (bv j) else elemY k y j m) ∧
    (∀ p ∈ ([(Instr.mmaGI8 f, 0x28, .i8, false), (Instr.mmaGE4m3 f, 0x29, .e4m3, false), (Instr.mmaGE5m2 f, 0x2A, .e5m2, false),
        (Instr.mmaGBf16 f, 0x2B, .bf16, false), (Instr.mmaGMx4 f, 0x2C, .e2m1, true)] : List (Instr × BitVec 8 × VTy × Bool)),
      let t := p.2.2.1
      let mx := p.2.2.2
      let base := x.a.addr
      let w := b.k * t.bits / 8
      let idx (m : Nat) : Nat := byte (c + 2 * m) + 256 * byte (c + 2 * m + 1)
      ∀ i, Takes colS colTN colS f s x mq → denseB k t f.trb x.b = some (b, br) → (bank k.gather i).st = .empty →
        (∀ i', i' < i → (bank k.gather i').st ≠ .empty) → StoreReady [(c, 512)] [] [] [] s →
          StoreReady (br ++ (if mx then [(c + 512, b.nb * (b.k / 32))] else []) ++ (List.range 256).flatMap fun m =>
            if idx m = 0xFFFF then []
            else (base + idx m * w, w) :: if mx then [(c + 512 + b.k + idx m * (b.k / 32), b.k / 32)] else []) [] yr [y] s →
            let av (m n : Nat) : Fl :=
              scaled mx (c + 512 + b.k + idx m * (b.k / 32) + n / 32) (denseVal t (fieldAt k (base + idx m * w) t.bits n))
            let bv (j n : Nat) : Fl := scaled mx (c + 512 + j * (b.k / 32) + n / 32) (bAt t j n)
            let held := { s with
              core := (k.setSlot i { GatherSlot.none with st := .releasing }).note 0x12
                (macs fun j m => decide (j < b.nb) && decide (idx m ≠ 0xFFFF)) }
            ∃ s', exec p.1 s = .next (started p.2.1 f s mq { slot := some i } (mNext s')) ∧ WritesTile y held s' fun j m =>
              if b.nb ≤ j then elemY k y j m
              else if idx m = 0xFFFF then takeChunks f.clr (elemY k y j m) (List.replicate (b.k / 64) 0)
              else dot t m j (av m) (bv j))

/-- R249, R252: MMLD keeps a B tile in the buffer, from where a product with no B operand reads it; MTRN writes the transpose of a tile. R160,
R253, R254: words over whole accumulator tiles: clear, move, add, maximum, scale by a power of two, swap, load, store, fill by lane or
column, and reduction to a row or a column. -/
def Obligations.TileMovesAndAccumulators : Prop :=
  (∀ (s : State) (f : MFields) (x : MArgs) (mq : Bank (List Word) 2), Canonical s → Starts f false s →
    let k := s.core
    (∀ t bx b r, Takes colN colT colN f s x mq → x.b = .tile bx → bufferTy (descOf bx).ty = some t → bTile k t f.trb bx = some (b, r) →
      r.2 ≤ 131072 → StoreReady [r] [] [] [] s →
        ∃ buf, exec (.mmld f) s = .next (started 0x35 f s mq {} (mNext { s with core := { k with bbuf := some buf } })) ∧
          buf.ty = t ∧ buf.k = b.k ∧ buf.nb = b.nb ∧ buf.trb = f.trb ∧ Memory.wf buf.data = true ∧
          (∀ i, memGet buf.data i = if i < r.2 then memGet k.cs (r.1 + i) else 0) ∧
          (f.trb = false → denseB { k with bbuf := some buf } t false .none = some (b, []))) ∧
    (∀ ax bx, Takes colT colT colN f s x mq → x.a = .tile ax → x.b = .tile bx →
      let a := descOf ax
      let b := descOf bx
      let w := typeBits a.ty
      a.isData = true → b.isData = true → a.ty = b.ty → w = 8 ∨ w = 16 ∨ w = 32 → b.rows = a.cols → b.cols = a.rows → regsMeet a b = false →
        StoreReady [a.range] [b.range] [] [] s →
          ∃ s', exec (.mtrn f) s = .next (started 0x4B f s mq {} (mNext s')) ∧ WritesStore b.range.1 b.range.2 s s' ∧
            ∀ i j, i < a.rows → j < a.cols → fieldAt s'.core b.range.1 w (j * a.rows + i) = fieldAt k a.range.1 w (i * a.cols + j))) ∧
  (∀ (s : State) (f : MFields) (x : MArgs) (mq : Bank (List Word) 2), Canonical s → Starts f false s →
    let k := s.core
    let y := f.acc.toNat
    let z := (f.count.extractLsb' 0 3).toNat
    let a := x.a.addr
    let col := f.count.getLsbD 0
    let word (n : Nat) : Nat := fieldAt k a 32 n
    (Takes colN colN colN f s x mq →
      (∀ p ∈ ([(Instr.yclr f, 0x40, [], fun _ _ => 0), (Instr.ymov f, 0x43, [z], elemY k z),
          (Instr.yadd f, 0x44, [y, z], fun j m => fp32.rne (Fl.sum false [fp32.val (elemY k y j m), fp32.val (elemY k z j m)])),
          (Instr.ymax f, 0x45, [y, z], fun j m => elMax .f32 (elemY k y j m) (elemY k z j m)),
          (Instr.yscl f, 0x48, [y], fun j m => fp32.rne ((fp32.val (elemY k y j m)).scale f.count.toInt))] :
          List (Instr × BitVec 8 × List Nat × (Nat → Nat → Nat))),
        StoreReady [] [] p.2.2.1 [y] s →
          ∃ s', exec p.1 s = .next (started p.2.1 f s mq {} (mNext s')) ∧ WritesTile y s s' p.2.2.2) ∧
      (StoreReady [] [] [y, z] [y, z] s →
        ∃ s' s'', exec (.yswap f) s = .next (started 0x49 f s mq {} (mNext s'')) ∧ WritesTile y s s' (elemY k z) ∧
          WritesTile z s' s'' (elemY k y))) ∧
    (Takes colS colN colN f s x mq →
      (∀ p ∈ ([(Instr.yld f, 0x41, 0x8000, fun j m => word (256 * j + m)),
          (Instr.yfill f, 0x46, if col then 128 else 1024, fun j m => word (if col then j else m))] :
          List (Instr × BitVec 8 × Nat × (Nat → Nat → Nat))),
        StoreReady [(a, p.2.2.1)] [] [] [y] s →
          ∃ s', exec p.1 s = .next (started p.2.1 f s mq {} (mNext s')) ∧ WritesTile y s s' p.2.2.2) ∧
      (StoreReady [] [(a, 0x8000)] [y] [] s →
        ∃ s', exec (.yst f) s = .next (started 0x42 f s mq {} (mNext s')) ∧ WritesStore a 0x8000 s s' ∧
          ∀ j m, j < 32 → m < 256 → fieldAt s'.core a 32 (256 * j + m) = elemY k y j m) ∧
      (let n := if col then 32 else 256
       let op : Nat → Nat → El := if f.count.getLsbD 1 then fun p q => ⟨elMax .f32 p q, 0⟩ else sumEl .f32
       StoreReady [] [(a, 4 * n)] [y] [] s →
        ∃ s', exec (.yred f) s = .next (started 0x47 f s mq {} (mNext s')) ∧ WritesStore a (4 * n) s s' ∧
          ∀ i, i < n → fieldAt s'.core a 32 i =
            (treeOf op 9 (if col then (List.range 256).map (elemY k y i) else (List.range 32).map fun j => elemY k y j i)).bits % 2 ^ 32)))

/-- R161, R162, R255, R256: the epilogue writes the elements of a tile, times the lane and column scales that are present, converted to a
floating format, requantised to INT8 or INT4, or quantised in blocks of 32 of a lane with their scale bytes. That the checks take the
whole 8-KiB span is log 106. -/
def Obligations.Epilogue : Prop :=
  ∀ (s : State) (f : MFields) (x : MArgs) (mq : Bank (List Word) 2), Canonical s → Starts f false s →
    Takes colS (epiCols f).1 (epiCols f).2 f s x mq →
      let k := s.core
      let e := f.epi.toNat
      let dst := x.a.addr
      let b := x.b.addr
      let c := x.c.addr
      let span := if e = 1 then 0x8000 else if e = 4 ∨ e = 5 then 0x4000 else 0x2000
      let mx := decide (e = 8 ∨ e = 9)
      let rq := decide (e = 2 ∨ e = 3)
      let rn := if f.rs then 1024 else 0
      1 ≤ e → e ≤ 9 → StoreReady ((if f.rs || f.cs then [(b, rn + if f.cs then 128 else 0)] else []) ++ if rq then [(c, 256)] else [])
        ((dst, span) :: if mx then [(c, 256)] else []) [f.acc.toNat] [] s → (mx = true → rangesMeet (dst, span) (c, 256) = false) →
          let val (j m : Nat) : Fl :=
            let v := fp32.val (elemY k f.acc.toNat j m)
            let v := if f.rs then v.mul (fp32.val (fieldAt k b 32 m)) else v
            if f.cs then v.mul (fp32.val (fieldAt k (b + rn) 32 j)) else v
          let mode (j m : Nat) : Mode := modeCode f.rnd fun _ => srZ k.srkey k.srctr (256 * j + m) f.seq.toNat
          let int (w : Nat) (j m : Nat) : Nat :=
            patternOf w (requant (val j m) (signedOf 32 (fieldAt k (c + 8 * j) 32 0)) (fieldAt k (c + 8 * j) 8 4 % 64) (-2 ^ (w - 1)) (2 ^ (w - 1) - 1))
          let scale (fm : Fmt) (m : Nat) : Nat := mxScale fm ((List.range 32).map fun j => val j m)
          ∃ s', exec (.epi f) s = .next (started 0x4A f s mq {} (mNext s')) ∧
            (∀ n, ¬(dst ≤ n ∧ n < dst + span) → ¬(mx = true ∧ c ≤ n ∧ n < c + 256) → memGet s'.core.cs n = memGet k.cs n) ∧
            (∀ j m, j < 32 → m < 256 →
              (e = 2 → fieldAt s'.core (dst + 256 * j) 8 m = int 8 j m) ∧
              (e = 3 → fieldAt s'.core (dst + 256 * j + if f.count.getLsbD 0 then 128 else 0) 4 m = int 4 j m) ∧
              (e = 8 → fieldAt s'.core (dst + 256 * j) 4 m = (mxElem e2m1 (mode j m) (scale e2m1 m) (val j m)).bits % 2 ^ 4 ∧
                fieldAt s'.core c 8 m = scale e2m1 m % 2 ^ 8) ∧
              (e = 9 → fieldAt s'.core (dst + 256 * j) 8 m = (mxElem e4m3 (mode j m) (scale e4m3 m) (val j m)).bits % 2 ^ 8 ∧
                fieldAt s'.core c 8 m = scale e4m3 m % 2 ^ 8) ∧
              ∀ p ∈ ([(1, fp32), (4, bf16), (5, fp16), (6, e4m3), (7, e5m2)] : List (Nat × Fmt)), e = p.1 →
                fieldAt s'.core (dst + 256 * (p.2.bits / 8) * j) p.2.bits m = (p.2.ofFl (mode j m) f.sat (val j m)).bits % 2 ^ p.2.bits) ∧
            s' = { s with
              core := { k with cs := s'.core.cs, csPoison := s'.core.csPoison, fresh := s'.core.fresh }
              monitors := s'.monitors }

/-- R122, R224, R225, R236, R239, R244: the oldest M word in flight completes: its signal is added, then its reply is appended; its slot is
FILLED, or EMPTY once no word uses it; a signal past 65,535 stops the sequencer with a fault entry. R87, R97, R423, R424: the reply to an
outstanding access of one unit: a store leaves only its fault behind; a load writes its register and p14, each unless a younger word has
written it; a reply that is a fault stays with the register. -/
def Obligations.CompletionsAndReplies : Prop :=
  (∀ (s : State) (c : BitVec 8) (w : MFlight) (rest : List MFlight), c.toNat = s.cur → s.core.mflight = w :: rest →
    let k := s.core
    let n := (bank k.sem w.sigSem).toNat + w.sigInc.toNat
    (65535 < n → w.sigInc ≠ 0 →
      ∃ t, exec (.mWordCompletion c) s = .next t ∧ t.core.mseq = .faulted ∧ t.core.mflight = [] ∧ t.core.sem = k.sem ∧
        t.core.rq = k.rq ++ [⟨true, mFaultPayload w.off mSemOvf 0⟩]) ∧
    (n ≤ 65535 →
      ∃ t, exec (.mWordCompletion c) s = .next t ∧
        bank t.core.sem w.sigSem = BitVec.ofNat 16 n ∧ (∀ i, i ≠ w.sigSem → bank t.core.sem i = bank k.sem i) ∧
        (∀ x, w.reply = some x → t.core.rq = k.rq ++ [⟨false, x⟩]) ∧ (w.reply = none → t.core.rq = k.rq) ∧
        (w.drain = true → ∀ i, (bank t.core.gather i).st = .empty) ∧
        (w.drain = false → (∀ i, w.slot ≠ some i → bank t.core.gather i = bank k.gather i) ∧
          (∀ i, w.slot = some i →
            ((bank k.gather i).st = .filling → bank t.core.gather i = { bank k.gather i with st := .filled }) ∧
            ((bank k.gather i).st = .releasing → (∀ x ∈ rest, x.slot ≠ some i) → (bank t.core.gather i).st = .empty))) ∧
        t = { s with core := { k with
          mflight := rest, sem := t.core.sem, rq := t.core.rq, gather := t.core.gather
          tally := if w.sigInc = 0 then k.tally else (0x1B, 1) :: k.tally } })) ∧
  (∀ (s : State) (c : BitVec 8) (a : Access) (before after : List Access), c.toNat = s.cur → s.core.out = before ++ a :: after →
    (∀ x ∈ before, x.id ≠ a.id) → (∀ x ∈ before ++ after, x.id ≠ a.id ∧ x.group ≠ a.group) → a.got = none →
      let gone := before ++ after
      let answer (r : Reply) : Host.Outcome State Fault Refusal := exec (.accessCompletion c a.id r) s
      (a.dest = .store →
        (∀ bs miss, answer (.data bs miss) = .next { s with core := { s.core with out := gone } }) ∧
        answer .done = .next { s with core := { s.core with out := gone } } ∧
        answer .prot = .next { s with core := { s.core with out := gone, storeFaults := s.core.storeFaults ++ [(.prot, a.va)] } } ∧
        answer .lost = .next { s with core := { s.core with out := gone, storeFaults := s.core.storeFaults ++ [(.shuttleLoss, a.va)] } } ∧
        answer .doneNotDurable = .next { s with core := { s.core with out := gone, ndur := s.core.ndur.or (some a.va) } }) ∧
      (∀ r signed, a.dest = .sreg r signed →
        (∀ bs miss, (a.strict && miss) = false →
          ∃ t, answer (.data bs miss) = .next t ∧ getS t r = (if r = 0 then 0 else if a.newer then getS s r else extended signed bs) ∧ (∀ x, x ≠ r → getS t x = getS s x) ∧
            getP t 14 = (if a.p14 && !a.newerP then miss else getP s 14) ∧ (∀ p, p ≠ 14 → getP t p = getP s p) ∧
            t = { s with core := { ({ s.core with out := gone }).overwrite (if a.newer then [] else [r]) (if a.p14 && !a.newerP then [14] else []) with
              s := t.core.s, p := t.core.p, tally := if miss then (0x14, 1) :: s.core.tally else s.core.tally } }) ∧
        answer .prot = .next { s with core := { s.core with out := before ++ { a with got := some .prot } :: after } }) ∧
      (∀ r, a.dest = .amo r → ∀ bs,
        ∃ t, answer (.data bs false) = .next t ∧ getS t r = (if r = 0 then 0 else if a.newer then getS s r else BitVec.ofNat 64 (leNat bs)) ∧
          (∀ x, x ≠ r → getS t x = getS s x) ∧
          t = { s with core := { ({ s.core with out := gone }).overwrite (if a.newer then [] else [r]) [] with s := t.core.s } }))

/-- R107, R108, R112, R114: COPY_START, COPY_COMPLETION and COPY_FAULT. a queued copy command starts once its semaphore has reached the value
that it waits for; a command of one row between ordinary memory and the core's store moves its bytes, signals and is gone; one whose
source has an error stops with the trap COPY and reason 3. -/
def Obligations.CopyEvents : Prop :=
  ∀ (s : State) (c : BitVec 8), c.toNat = s.cur → s.core.copyTrap = none →
    (∀ x rest, s.core.copyq = x :: rest →
      ((x.met = true ∨ x.wthr.toNat ≤ (bank s.core.sem x.wsem).toNat ∨ x.wthr = 0) → 
        exec (.copyStart c) s = .next { s with core := { s.core with copyq := rest, copyRun := s.core.copyRun ++ [⟨x, 0, false, false⟩] } })) ∧
    (∀ x : CopyCmd, s.core.copyRun = [⟨x, 0, false, false⟩] → x.kind = .cp → x.rows = 1 → 1 ≤ x.len.toNat → s.sv.en = false →
      s.core.out = [] → Canonical s → ∀ pa off, off + x.len.toNat ≤ 0x200000 →
        Range.sites s true ⟨x.dst, x.len.toNat, x.dst⟩ = (List.range x.len.toNat).map (fun i => Site.core s.cur (off + i)) →
        Range.sites s false ⟨x.src, x.len.toNat, x.src⟩ = (List.range x.len.toNat).map (fun i => Site.mem (pa + i)) →
        pa + x.len.toNat ≤ coreBase →
          ((∀ i, i < x.len.toNat → s.sv.deadLines.contains ((pa + i) / 64) = false ∧ s.poison.contains ((pa + i) / 64) = false) →
            (bank s.core.sem x.ssem).toNat + x.sinc.toNat ≤ 65535 →
              ∃ t, exec (.copyCompletion c) s = .next t ∧ t.core.copyRun = [] ∧
                (∀ i, i < x.len.toNat → memGet t.core.cs (off + i) = memGet s.mem (pa + i)) ∧
                (∀ y, ¬(off ≤ y ∧ y < off + x.len.toNat) → memGet t.core.cs y = memGet s.core.cs y) ∧
                bank t.core.sem x.ssem = bank s.core.sem x.ssem + x.sinc.zeroExtend 16 ∧
                (∀ i, i ≠ x.ssem → bank t.core.sem i = bank s.core.sem i) ∧ t.mem = s.mem ∧ t.core.s = s.core.s) ∧
          (s.poison.contains (pa / 64) = true → s.sv.deadLines.contains (pa / 64) = false →
            ∃ t, exec (.copyFault c) s = .next t ∧
              t.core.copyTrap = some (.copy, BitVec.ofNat 64 (3 + x.src.toNat % 2 ^ 56 * 256)) ∧ t.core.cs = s.core.cs ∧
              (s.evring.en = false → t.mem = s.mem)))

/-- R130, R131, R133 to R135: FRAME_FILL, FRAME_SAVE and FRAME_LOAD. a claimed frame is zero-filled; a frame in SAVE goes to its place in the
save area of its owner and is free; a unit of a bobbin in binding comes from there; an uncorrectable error makes the bobbin LOST with
SAVE_UNCORR. -/
def Obligations.Frames : Prop :=
  ∀ (s : State) (c : BitVec 8) (u : Nat), c.toNat = s.cur → Canonical s → u < 40 →
    let base := if u < 32 then u * 0x10000 else (u - 32) * 0x8000
    let size := if u < 32 then 0x10000 else 0x8000
    let place := if u < 32 then u * 0x10000 else 0x200000 + (u - 32) * 0x8000
    let store (k : Core) : Mem := if u < 32 then k.cs else k.acc
    (s.core.units[u]? = some .fill →
      ∃ t, exec (.frameFill c u) s = .next t ∧ t.core.units = s.core.units.setIfInBounds u .own ∧
        (∀ x, memGet (store t.core) x = if base ≤ x ∧ x < base + size then 0 else memGet (store s.core) x) ∧ t.core.fresh = s.core.fresh ∧
        t.mem = s.mem ∧ t.core.s = s.core.s) ∧
    (∀ e h, poolEntry s e.slot = some e → h ∈ s.core.held → (∀ x ∈ s.core.held, x.owner = e.slot → x.unit = u → x = h) → h.owner = e.slot →
      h.unit = u → h.saving = true → h.poison = [] → Memory.wf h.data = true → s.sv.en = false →
        ∀ pa, virtSites s e.launch false true false (e.bob.save + BitVec.ofNat 64 place) size = (List.range size).map (fun i => Site.mem (pa + i)) →
          ∃ t, exec (.frameSave c e.slot u false) s = .next t ∧
            (∀ i, i < size → memGet t.mem (pa + i) = memGet h.data i) ∧ (∀ x, ¬(pa ≤ x ∧ x < pa + size) → memGet t.mem x = memGet s.mem x) ∧
            t.core.held = s.core.held.filter (fun x => !(x.owner == e.slot && x.unit == u)) ∧ t.core.units = s.core.units) ∧
    (∀ e, s.core.claimed = some e.slot → poolEntry s e.slot = some e → s.core.units[u]? = some .load →
      (∀ pa, virtSites s e.launch false false false (e.bob.save + BitVec.ofNat 64 place) size = (List.range size).map (fun i => Site.mem (pa + i)) →
        (∀ i, i < size → s.sv.deadLines.contains ((pa + i) / 64) = false ∧ s.poison.contains ((pa + i) / 64) = false) →
          ∃ t, exec (.frameLoad c u false) s = .next t ∧ t.core.units = s.core.units.setIfInBounds u .own ∧
            (∀ x, memGet (store t.core) x = if base ≤ x ∧ x < base + size then memGet s.mem (pa + (x - base)) else memGet (store s.core) x) ∧
            t.core.fresh.getLsbD u = false ∧ t.mem = s.mem) ∧
      ∃ t e', exec (.frameLoad c u true) s = .next t ∧ poolEntry t e.slot = some e' ∧ e'.bob.state = .lost ∧
        e'.bob.fault = TrapCode.saveUncorr.code ∧ (s.evring.en = false → t.mem = s.mem))

/-- R67, R71, R72, R131, R134: a stop completes once every stream stands at the seam and nothing of the strand is outstanding: its registers
are in the control page, its record holds the seam and the cause, the live units that have a frame, and no others, are HELD here with
their bytes, HOLD names the core where there is one, and the core has no strand. -/
def Obligations.StopCompletes : Prop :=
  ∀ (s : State) (c : BitVec 8) (id : BitVec 22) (r : StopReq) (e : PoolEntry) (seam : SeamEntry), c.toNat = s.cur → Canonical s →
    s.core.slot = some e.slot → poolEntry s e.slot = some e → s.core.aseq = .atSeam id → s.core.stop = some r →
    seamEntry s e.bob.code.toNat id = some seam → s.core.inHandler = false → s.core.vtrap = none → s.core.mseq ≠ .brk → s.core.mseq ≠ .faulted →
    vAtMarker s.core id seam.v.isSome = true → mAtMarker s.core id seam.m.isSome = true → s.core.mflight = [] → copiesOver s.core = true →
    accessesOver s = true → s.core.units.toList.any (fun u => u == .fill) = false → endFaults s = none → queuesEmpty s.core = true →
    s.sv.en = false → heldReads s (seamReads s e.bob.code.toNat) = [] → (∀ r ∈ seamReads s e.bob.code.toNat, lostLines s r.1 r.2 = []) →
      ∀ pa, virtSites s e.launch false true false (e.bob.save + 0x240000#64) 4096 = (List.range 4096).map (fun i => Site.mem (pa + i)) →
        ∃ t e', exec (.stopCompletion c) s = .next t ∧ t.core.slot = none ∧ t.core.aseq = .idle ∧ t.core.vseq = .idle ∧ t.core.mseq = .idle ∧
          poolEntry t e.slot = some e' ∧ (e'.bob.state = .ready ∨ e'.bob.state = .watch) ∧ e'.bob.seam = id ∧ e'.bob.cause = r.cause ∧
          e'.bob.nstop = e.bob.nstop + 1 ∧ e'.bob.code = e.bob.code ∧ e'.bob.save = e.bob.save ∧ e'.bob.arg = e.bob.arg ∧
          (let k := s.core
           let page (off n : Nat) : Nat := leNat ((List.range n).map fun i => memGet t.mem (pa + off + i))
           (∀ i : BitVec 6, page (8 * i.toNat) 8 = (getS s i).toNat) ∧ (∀ i : BitVec 3, page (0x200 + 8 * i.toNat) 8 = (bank k.b i).toNat) ∧
           (∀ i : BitVec 4, page (0x240 + 8 * i.toNat) 8 = (bank k.tc i).toNat) ∧ (∀ i, i < 64 → (page 0x2C0 8).testBit i = (i < 16 && getP s (BitVec.ofNat 4 i))) ∧
           (∀ i : BitVec 2, page (0x2C8 + 4 * i.toNat) 4 = (bank k.lc i).toNat ∧ page (0x2D8 + 4 * i.toNat) 4 = (bank k.vlc i).toNat ∧
             page (0x2E8 + 4 * i.toNat) 4 = (bank k.mlc i).toNat) ∧
           page 0x2F8 8 = k.fresh.toNat ∧ page 0x300 8 = k.srkey.toNat ∧ page 0x308 8 = k.srctr.toNat ∧ page 0x310 8 = k.aexc.toNat ∧
           page 0x318 8 = k.vexc.toNat ∧ page 0x320 8 = k.evec.toNat ∧ page 0x328 8 = k.ecause.toNat ∧ page 0x330 8 = k.epc.toNat ∧
           page 0x338 8 = k.eval.toNat ∧ page 0x340 0xC0 = 0 ∧ (∀ i : BitVec 8, page (0x400 + 2 * i.toNat) 2 = (bank k.sem i).toNat) ∧
           page 0x600 0x200 = 0 ∧ ∀ i : BitVec 4, page (0x800 + 128 * i.toNat) 128 = (k.getM i).toNat) ∧
          (∀ x, ¬(pa ≤ x ∧ x < pa + 4096) → memGet t.mem x = memGet s.mem x) ∧
          (let kept := (List.range 40).filter fun u => seam.live.getLsbD u && s.core.units[u]? == some .own
           let store (u : Nat) : Mem := if u < 32 then s.core.cs else s.core.acc
           let base (u : Nat) : Nat := if u < 32 then u * 0x10000 else (u - 32) * 0x8000
           e'.bob.hold = (if kept = [] then 0xFF else BitVec.ofNat 8 s.cur) ∧
           ∃ frames, t.core.held = s.core.held ++ frames ∧ frames.map (·.unit) = kept ∧
             ∀ h ∈ frames, h.owner = e.slot ∧ h.saving = false ∧ h.fresh = s.core.fresh.getLsbD h.unit ∧
               ∀ i, i < (if h.unit < 32 then 0x10000 else 0x8000) → memGet h.data i = memGet (store h.unit) (base h.unit + i))

/-- R67, R72, R75, R77, R142, R266, R267, R300, R398: a stop past its limit loses the strand; a write to a monitored line wakes its bobbin; a
WAIT.M reads again, and ends where the value differs from the expected one or its memory is not resident; an uncorrectable error takes the
core offline and its strand is lost; a temperature sample shows in c.ctemp, and above 115 °C holds every layer at 500 MHz. -/
def Obligations.CoreEvents : Prop :=
  ∀ (s : State) (c : BitVec 8), c.toNat = s.cur →
    (∀ r e, s.core.slot = some e.slot → poolEntry s e.slot = some e → s.core.stop = some r → r.due ≤ s.time → s.core.inHandler = false →
      ∃ t e', exec (.stopTimeout c) s = .next t ∧ t.core.slot = none ∧ poolEntry t e.slot = some e' ∧ e'.bob.state = .lost ∧
        e'.bob.fault = TrapCode.seamIntegrity.code) ∧
    (s.core.stop = none → s.core.exitDue = none → exec (.stopTimeout c) s = .next s) ∧
    (∀ e m, poolEntry s e.slot = some e → e.bob.state = .watch → m ∈ s.monitors → m.slot = e.slot → m.written = true →
      ∃ t e', exec (.monitorWake e.slot) s = .next t ∧ poolEntry t e.slot = some e' ∧ e'.bob.state = .ready ∧ ∀ x ∈ t.monitors, x.slot ≠ e.slot) ∧
    (∀ w d a size, s.core.aseq = .running → s.core.slot.isSome = true → s.core.vtrap = none → fetchA s.core = some w → decodeA w = .ok (.waitM d a size) →
      exec (.waitMRecheck c) s = exec (.waitM d a size) s ∧
      (let n := size.bytes
       let va := getS s a
       let sites := strandSites s false false va n
       Issues s [a, d] [] → va.toNat % n = 0 → watchHit s va = false → peerOf sites = none → localWaits s false false va sites = false →
         ∀ seen, readSites .load sites s = .ok seen s →
           let write (x : Word) (miss : Bool) : State := setP 14 miss (setS d x { s with core := { s.core with wait := none } })
           (seen.miss.any id = true → CompletesTo (.waitMRecheck c) s (write 0 true)) ∧
           (seen.miss.any id = false → leNat seen.bytes ≠ (getS s d).toNat % 2 ^ (8 * n) →
             CompletesTo (.waitMRecheck c) s (write (BitVec.ofNat 64 (leNat seen.bytes)) false)))) ∧
    ((s.core.aseq ≠ .running ∨ s.core.slot = none ∨ s.core.vtrap.isSome = true) → exec (.waitMRecheck c) s = .next s) ∧
    (∀ e, s.core.slot = some e.slot → poolEntry s e.slot = some e → s.core.held = [] → s.core.claimed = none →
      ∃ t e', exec (.coreOffline c) s = .next t ∧ t.core.offline = true ∧ t.core.slot = none ∧ poolEntry t e.slot = some e' ∧
        e'.bob.state = .lost ∧ e'.bob.fault = TrapCode.uncorr.code) ∧
    (∀ x : BitVec 16, ∃ t, exec (.temperatureSample c x) s = .next t ∧
      t = { s with core := { s.core with ctemp := x.zeroExtend 64 }, power := t.power } ∧ (x.toNat ≤ 16 * 115 → t.power = s.power) ∧
      (16 * 115 < x.toNat → t.power.emergency = true ∧ t.power.mx.heat = 500 ∧ t.power.vx.heat = 500 ∧ t.power.vault.heat = 500))

/-- R65, R68, R120, R280: the distributor selects the READY bobbin of the highest level, the one at the front among equals, and claims for it
the core that holds its frames if that is idle, else the lowest-numbered idle core whose instruction stores hold its image, else the
lowest-numbered idle core. A slot that holds a reserved STATE comes first: it is LOST if QID names an active launch, else FREE (its FAULT
is the model's free value, assumption 42). R80, R281 to R284: an EXPRESS bobbin for which no core is idle has the strand of lowest
priority stopped with cause 1; a bobbin that has waited longer than STARV with cause 2 the strand of lowest priority below its own; a
READY bobbin, by the progress rule, a strand that has waited longer than PROG with the cause of its wait. -/
def Obligations.DistributionAndPostedStops : Prop :=
  ((∀ (s : State) (r : PoolEntry), s.pool.find? (fun x => x.bob.state.isReserved) = some r → poolEntry s r.slot = some r →
    ((∃ l ∈ s.launches, l.q = r.bob.qid) →
      ∃ t e', exec .distributorSelection s = .next t ∧ poolEntry t r.slot = some e' ∧ e'.bob.state = .lost ∧ t.mem = s.mem) ∧
    ((∀ l ∈ s.launches, l.q ≠ r.bob.qid) →
      exec .distributorSelection s = .next { s with pool := s.pool.filter fun x => x.slot ≠ r.slot })) ∧
  ∀ (s : State) (e : PoolEntry), e ∈ s.pool → poolEntry s e.slot = some e → e.bob.state = .ready → (∀ x ∈ s.pool, x.place < 2 ^ 64) →
    (∀ x ∈ s.pool, x.bob.state.isReserved = false) → unclaimed s = none →
    (∀ x ∈ s.pool, x.bob.state = .ready → x = e ∨ x.bob.pri < e.bob.pri ∨ (x.bob.pri = e.bob.pri ∧ e.place < x.place)) →
      ((∀ c ∈ allCores s, c.2.isIdle = false) → exec .distributorSelection s = .next s) ∧
      (∀ c k, coreAt s c = some k → k.isIdle = true →
        (c = e.bob.hold.toNat ∨
          ((∀ k', coreAt s e.bob.hold.toNat = some k' → k'.isIdle = false) ∧
            ((∃ i, imageAt s e.bob.code.toNat = some i ∧ k.holdsImage e.bob.code i.gen = true ∧
                ∀ c' k', coreAt s c' = some k' → k'.isIdle = true → k'.holdsImage e.bob.code i.gen = true → c ≤ c') ∨
              ((∀ i, imageAt s e.bob.code.toNat = some i → ∀ c' k', coreAt s c' = some k' → k'.isIdle = true → k'.holdsImage e.bob.code i.gen = false) ∧
                ∀ c' k', coreAt s c' = some k' → k'.isIdle = true → c ≤ c')))) →
          (s.parked.map (·.1)).Nodup → s.cur ∉ s.parked.map (·.1) →
            ∃ t e', exec .distributorSelection s = .next t ∧ poolEntry t e.slot = some e' ∧
              e' = { e with covered := none, progress := none, bob := { e.bob with state := .selected } } ∧
              coreAt t c = some { k with claimed := some e.slot, selPri := e.bob.pri } ∧
              (∀ c', c' ≠ c → coreAt t c' = coreAt s c') ∧ t.mem = s.mem)) ∧
  (∀ (s : State) (e : PoolEntry), e ∈ s.pool → poolEntry s e.slot = some e → e.bob.state = .ready →
    let lowest (p : Nat) (c : Nat) (k : Core) : Prop :=
      coreAt s c = some k ∧ k.slot.isSome = true ∧ k.stop = none ∧ k.selPri.toNat < p ∧
        ∀ c' k', (c', k') ∈ allCores s → k'.slot.isSome = true → k'.stop = none → k'.selPri.toNat < p →
          k.selPri < k'.selPri ∨ (k.selPri = k'.selPri ∧ c ≤ c')
    (∀ c ∈ allCores s, c.1 < 256) → (s.parked.map (·.1)).Nodup → s.cur ∉ s.parked.map (·.1) →
      ((∀ c ∈ allCores s, c.2.isIdle = false) →
        (e.bob.pri = 127 → (∀ x ∈ s.pool, x.bob.state = .ready → x.bob.pri = 127 → x = e) → stopPending s e.covered = false →
          ∀ c k, lowest 127 c k →
            exec .expressPreemption s = .next (postOn c 1 (updEntry e.slot (fun e => { e with covered := some c }) s))) ∧
        (e.bob.pri ≠ 127 → e.since + 1000 * s.starv.toNat ≤ s.time →
          ∀ c k, lowest e.bob.pri.toNat c k →
            exec (.starvationPreemption e.slot) s = .next (postOn c 2 (updEntry e.slot (fun e => { e with since := s.time }) s)))) ∧
      (e.bob.pri ≠ 127 → s.time < e.since + 1000 * s.starv.toNat → exec (.starvationPreemption e.slot) s = .next s) ∧
      (stopPending s e.progress = false → ∀ c cause, longestWait s e.bob.pri = some (c, cause) →
        (exec (.progressStop e.slot) s = .next (postOn c cause (updEntry e.slot (fun e => { e with progress := some c, since := s.time }) s)) ∧
          ∃ k since, coreAt s c = some k ∧ k.slot.isSome = true ∧ k.selPri ≤ e.bob.pri ∧ coveredWait k = some (since, cause) ∧
            since + 1000 * s.prog.toNat ≤ s.time)) ∧
      (∀ c cause slot, s.cur = c → s.core.slot = some slot → s.core.stop = none → s.core.mseq ≠ .faulted →
        postOn c cause s = noteDie 4 1 { s with
          core := { s.core with stop := some ⟨cause, s.time + 2000000⟩ }
          pool := updateFirst (fun x => x.slot == slot) (fun x => { x with bob := { x.bob with state := .stopping } }) s.pool }))

/-- R67, R70, R120, R133, R134, R303: a binding whose save area is resident and whose units are there loads the image's sections if the core
does not hold them, and starts the strand at its markers: at the first binding with s1 = INDEX, s2 = ARG and every other register of the
strand zero, later with the registers of the control page, reserved fields left out. A bobbin whose image or seam is missing is LOST with
ILLEGAL, one whose save area is not in one writable extent with PROT, one whose extent has no readable frame list with UNCORR. -/
def Obligations.Binding : Prop :=
  ∀ (s : State) (c : BitVec 8) (e : PoolEntry), c.toNat = s.cur → Canonical s → s.core.claimed = some e.slot → poolEntry s e.slot = some e →
    (∀ k ∈ allCores s, ∀ h ∈ k.2.held, h.owner ≠ e.slot) →
      let lost (code : TrapCode) : Prop :=
        ∃ t e', exec (.binding c) s = .next t ∧ poolEntry t e.slot = some e' ∧ e'.bob.state = .lost ∧ e'.bob.fault = code.code ∧ t.mem = s.mem
      (imageAt s e.bob.code.toNat = none → lost .illegal) ∧
      (heldReads s (seamReads s e.bob.code.toNat) = [] → seamEntry s e.bob.code.toNat e.bob.seam = none → lost .illegal) ∧
      (∀ i seam, heldReads s (seamReads s e.bob.code.toNat) = [] → (∀ r ∈ seamReads s e.bob.code.toNat, lostLines s r.1 r.2 = []) → imageAt s e.bob.code.toNat = some i → seamEntry s e.bob.code.toNat e.bob.seam = some seam →
        (saveExtent s e = none → lost .prot) ∧
        (∀ x, saveExtent s e = some x → extentLost s e.launch x = true → lost .uncorr) ∧
        (∀ x, saveExtent s e = some x → extentLost s e.launch x = false → pagesOutside s x e.bob.save.toNat 0x241000 = [] →
          heldUp s false i.code i.size = [] → lostLines s i.code i.size = [] →
          let started (t : State) : Prop :=
            exec (.binding c) s = .next t ∧ t.core.slot = some e.slot ∧ t.core.claimed = none ∧ t.core.launch = e.launch ∧ t.core.aseq = .running ∧
              t.core.pc = 0xFFFFFC0000000000#64 + BitVec.ofNat 64 (t.core.secA.off + seam.a) ∧
              t.core.vseq = (if seam.v.isSome then .running else .idle) ∧ t.core.mseq = (if seam.m.isSome then .running else .idle) ∧
              (s.core.holdsImage (BitVec.ofNat 64 i.code) i.gen = true → t.core.secA = s.core.secA) ∧
              (s.core.holdsImage (BitVec.ofNat 64 i.code) i.gen = false →
                t.core.secA.size = imgField s i.code 20 4 ∧ (∀ b, b < t.core.secA.size →
                  memGet t.core.secA.bytes b = engineByte s (i.code + imgField s i.code 16 4 + b))) ∧
              (∃ e', poolEntry t e.slot = some e' ∧ e'.bob = { e.bob with state := .bound, hold := 0xFF }) ∧ t.mem = s.mem
          (e.bob.cause = 0 → e.bob.nstop = 0 →
            ∃ t, started t ∧ getS t 1 = e.bob.index ∧ getS t 2 = e.bob.arg ∧ (∀ r, r ≠ 1 → r ≠ 2 → getS t r = 0) ∧
              (∀ p, getP t p = decide (p = 0)) ∧ (∀ i, bank t.core.b i = 0) ∧ (∀ i, bank t.core.tc i = 0) ∧
              (∀ i, bank t.core.lc i = 0 ∧ bank t.core.vlc i = 0 ∧ bank t.core.mlc i = 0) ∧ t.core.srkey = 0 ∧ t.core.srctr = 0 ∧
              t.core.evec = 0 ∧ t.core.ecause = 0 ∧ t.core.epc = 0 ∧ t.core.eval = 0 ∧ t.core.aexc = 0 ∧ t.core.vexc = 0 ∧
              t.core.fresh = BitVec.allOnes 40 ∧ (∀ i, bank t.core.sem i = 0) ∧
              (∀ m, t.core.getM m = if m = 0 then BitVec.allOnes 1024 else 0)) ∧
          ((e.bob.cause ≠ 0 ∨ e.bob.nstop ≠ 0) → (∀ u, u < 40 → seam.live.getLsbD u = true → e.saved.getLsbD u = false) →
            ∀ pa, virtSites s e.launch false false false (e.bob.save + 0x240000#64) 4096 = (List.range 4096).map (fun i => Site.mem (pa + i)) →
              (∀ i, i < 4096 → s.sv.deadLines.contains ((pa + i) / 64) = false ∧ s.poison.contains ((pa + i) / 64) = false) →
                let page (off n : Nat) : Nat := leNat ((List.range n).map fun i => memGet s.mem (pa + off + i))
                ∃ t, started t ∧ (∀ r : BitVec 6, r ≠ 0 → getS t r = BitVec.ofNat 64 (page (8 * r.toNat) 8)) ∧
                  (∀ p : BitVec 4, p ≠ 0 → getP t p = (memGet s.mem (pa + 0x2C0 + p.toNat / 8)).getLsbD (p.toNat % 8)) ∧
                  (∀ i : BitVec 3, bank t.core.b i = BitVec.ofNat 64 (page (0x200 + 8 * i.toNat) 8)) ∧
                  (∀ i : BitVec 4, bank t.core.tc i = BitVec.ofNat 64 (page (0x240 + 8 * i.toNat) 8) &&& 0xFFFFFFFF00FF07FF) ∧
                  (∀ i : BitVec 2, bank t.core.lc i = BitVec.ofNat 32 (page (0x2C8 + 4 * i.toNat) 4) ∧
                    bank t.core.vlc i = BitVec.ofNat 32 (page (0x2D8 + 4 * i.toNat) 4) ∧
                    bank t.core.mlc i = BitVec.ofNat 32 (page (0x2E8 + 4 * i.toNat) 4)) ∧
                  (∀ u, u < 40 → t.core.fresh.getLsbD u = ((page 0x2F8 5).testBit u || !seam.live.getLsbD u)) ∧
                  t.core.srkey = BitVec.ofNat 64 (page 0x300 8) ∧ t.core.srctr = BitVec.ofNat 64 (page 0x308 8) ∧
                  t.core.aexc = BitVec.ofNat 64 (page 0x310 8) &&& 0x101 ∧ t.core.vexc = BitVec.ofNat 64 (page 0x318 8) &&& 0x1F1F ∧
                  t.core.evec = BitVec.ofNat 64 (page 0x320 8) ∧ t.core.ecause = BitVec.ofNat 64 (page 0x328 8) &&& 0x33FF ∧
                  t.core.epc = BitVec.ofNat 64 (page 0x330 8) ∧ t.core.eval = BitVec.ofNat 64 (page 0x338 8) ∧
                  (∀ i : BitVec 8, bank t.core.sem i = BitVec.ofNat 16 (page (0x400 + 2 * i.toNat) 2)) ∧
                  ∀ m : BitVec 4, m ≠ 0 → t.core.getM m = BitVec.ofNat 1024 (page (0x800 + 128 * m.toNat) 128))))

/-- R314, R326 to R328, R388: the earliest requested page that was never written becomes resident with zeros; a lane swap takes a spare;
column training records its spares; the patrol scrub counts what it corrects and poisons what it cannot. -/
def Obligations.MemoryEvents : Prop :=
  ∀ (s : State), Canonical s →
    (∀ b i p w, s.backings = [b] → b.pages[i]? = some p → p.wanted = some w → p.host = false →
      (∀ j q, b.pages[j]? = some q → q.wanted = none ∨ j = i) → s.sv.en = false →
        ∃ t, exec (.pageResident b.id i) s = .next t ∧ pageOf t b.id i = some { p with res := true, wanted := none, host := false, told := false } ∧
          (∀ j, j ≠ i → pageOf t b.id j = pageOf s b.id j) ∧
          (∀ x, memGet t.mem x = if p.pa ≤ x ∧ x < p.pa + pageSize b.psz then 0 else memGet s.mem x) ∧ t.core = s.core) ∧
    (∀ v k, ∃ t, exec (.laneSwap (.vaultColumn v k)) s = .next t ∧
      (let x := bank s.vcol v
       let n := (x.toNat >>> (8 + 5 * k.toNat)) % 32
       if n = 0 then (bank t.vcol v) = x ||| (1#64 <<< k.toNat)
       else ((bank t.vcol v).toNat >>> (8 + 5 * k.toNat)) % 32 = n - 1 ∧
        ∀ i, (i < 8 + 5 * k.toNat ∨ 13 + 5 * k.toNat ≤ i) → (bank t.vcol v).getLsbD i = x.getLsbD i) ∧
      (∀ u, u ≠ v → bank t.vcol u = bank s.vcol u) ∧
      t = { s with vcol := t.vcol, tally := if spareLanes (bank s.vcol v) k = 0 then s.tally else (9, 1) :: s.tally }) ∧
    (∀ c : BitVec 8, lanesUsed s c.toNat < 96 → ∃ t, exec (.laneSwap (.coreLink c)) s = .next t ∧ lanesUsed t c.toNat = lanesUsed s c.toNat + 1 ∧
      (∀ d, d ≠ c.toNat → lanesUsed t d = lanesUsed s d) ∧ t = { s with coreLanes := t.coreLanes, tally := (9, 1) :: s.tally }) ∧
    (∀ v k (n : BitVec 5) failed, n ≤ 24 → ∃ t, exec (.vaultColumnTraining v k n failed) s = .next t ∧
      ((bank t.vcol v).toNat >>> (8 + 5 * k.toNat)) % 32 = n.toNat ∧
      (bank t.vcol v).getLsbD k.toNat = ((bank s.vcol v).getLsbD k.toNat || failed) ∧
      t = { s with vcol := t.vcol, retrain := s.retrain.filter (· ≠ 8 * v.toNat + k.toNat) }) ∧
    (∀ a : BitVec 48, a.toNat < 0xC060000000 →
      exec (.patrolScrub a .clean) s = .next s ∧
      exec (.patrolScrub a .corrected) s = .next { s with eccCorr := s.eccCorr + 1, tally := (8, 1) :: s.tally } ∧
      (blockAtPlace s a.toNat = none → s.evring.en = false → s.poison.contains (a.toNat / 64) = false →
        exec (.patrolScrub a .uncorrectable) s =
          .next { s with eccUnc := s.eccUnc + 1, uelast := a, poison := s.poison ++ [a.toNat / 64] }) ∧
      (s.evring.en = true → (s.evring.tail - s.evring.head).toNat ≠ 2 ^ (s.evring.sz.toNat + 4) →
        ∃ t, exec (.patrolScrub a .uncorrectable) s = .next t ∧ t.evring.tail = s.evring.tail + 1 ∧ t.irqs = s.irqs ++ [(0, 0)] ∧
          (let at_ := 0x20000000000 + s.evring.base.toNat + s.evring.tail.toNat % 2 ^ (s.evring.sz.toNat + 4) * 32
           memGet t.mem at_ = 3 ∧ memGet t.mem (at_ + 1) = 0 ∧
            leNat ((List.range 8).map fun i => memGet t.mem (at_ + 8 + i)) = a.toNat ∧
            leNat ((List.range 8).map fun i => memGet t.mem (at_ + 24 + i)) = s.time % 2 ^ 64)))

/-- R385 to R387, R332, R394: what the memory processor answers to a command: a request at the head of the line is served, its function's CODE
and response are set, BUSY clears and vector 0 goes to its function. The place of the response value is log 30, SHA-512 log 27, the PRI
written into a record log 55, which frame and handle value is given log 80, the codes log 85, who may be given a host window log 46, that
host memory beyond 2 TiB is kept log 94, and the signature log 9. -/
def Obligations.MailboxCommands : Prop :=
  ∀ (s : State) (fn : BitVec 6), Canonical s →
    let m := bank s.mailboxes fn
    let op (k : Nat) : Nat := m.req.toNat / 2 ^ (64 + 64 * k) % 2 ^ 64
    let asked (cmd : Nat) : Prop := s.mbOrder.head? = some fn ∧ m.req.toNat % 2 ^ 64 = cmd
    let served (i : Instr) (code : BitVec 8) (value : Nat) (t : State) : Prop :=
      exec i s = .next { t with
        mailboxes := bankSet t.mailboxes fn { m with resp := BitVec.ofNat 512 (value % 2 ^ 64 * 2 ^ 64), busy := false, code := code }
        mbOrder := s.mbOrder.tail
        irqs := t.irqs ++ [(fn, 0)]
        tally := (0x0B, 1) :: t.tally } ∧ t.mailboxes = s.mailboxes ∧ t.irqs = s.irqs
    let own (b : Backing) : Prop := s.backings.find? (fun b => b.handle && b.id == op 0) = some b ∧ (fn = 0 ∨ b.fn = fn) ∧
      s.backings.find? (fun x => x.id == b.id) = some b
    (asked 1 → 0 < op 0 → op 0 ≤ 2 ^ 40 → op 1 ≤ 4 → op 2 ≤ 1 → op 3 ≤ 1 →
      let psz := BitVec.ofNat 3 (op 1)
      let n := (op 0 + pageSize psz - 1) / pageSize psz
      (∀ place b, tableRoom s (8 * n) = some place → place ≠ 0 →
        growBacking s ⟨s.nextId, place, n, fn, true, psz, op 2 == 1, op 3 == 1, []⟩ 0 n = some b →
          served (.alloc fn) 0 b.id (writeTable place (8 * n) { s with nextId := s.nextId + 1, backings := s.backings ++ [b] })) ∧
      (∀ place, tableRoom s (8 * n) = some place → growBacking s ⟨s.nextId, place, n, fn, true, psz, op 2 == 1, op 3 == 1, []⟩ 0 n = none →
        served (.alloc fn) 3 0 s) ∧
      (tableRoom s (8 * n) = none → served (.alloc fn) 3 0 s)) ∧
    (asked 2 → ∀ b, own b →
      ((∀ l ∈ s.launches, launchNames s b.id l = false) →
        served (.free fn) 0 0 { s with backings := removeFirst (fun x => x.id == b.id) s.backings }) ∧
      ((∃ l ∈ s.launches, launchNames s b.id l = true) → served (.free fn) 4 0 s)) ∧
    (∀ b p, own b → b.pages[op 1]? = some p →
      let n := pageSize b.psz
      (asked 3 → b.prot = true → served (.back fn) 2 0 s) ∧
      (∀ l e, asked 3 → l ∈ s.launches → e ∈ l.exts → e.back = b.id → attrProt e.attr = true → served (.back fn) 2 0 s) ∧
      (∀ l x, asked 3 → l ∈ s.launches ++ s.queues.filterMap (·.front) → l.stage = .waiting ∨ l.stage = .translate → l.desc.n ≠ 0 →
        x ∈ extPlans s l.desc → x.handle = b.id → attrProt x.attr = true → served (.back fn) 2 0 s) ∧
      (asked 3 → b.prot = false → keptOffHost s b.id = false → op 2 % n = 0 → op 2 + n ≤ hostEnd - hostBase →
        served (.back fn) 0 0 (updPage b.id (op 1)
          (fun p => { p with pa := hostBase + op 2, res := true, wanted := none, host := false, told := false }) s)) ∧
      (asked 4 → p.pin = true → served (.evict fn) 5 0 s) ∧
      (asked 4 → p.pin = false → p.res = false → served (.evict fn) 0 0 s) ∧
      (asked 4 → s.sv.en = false → s.retrain = [] → (∀ i, i < n → lostByte s (p.pa + i) = false) → p.pin = false → p.res = true →
          op 2 + n ≤ hostEnd - hostBase → p.pa + n ≤ hostBase →
        ∃ t, served (.evict fn) 0 0 t ∧ pageOf t b.id (op 1) = some { p with pa := p.own, res := false, host := true, told := false } ∧
          (∀ i, i < n → memGet t.mem (hostBase + op 2 + i) = memGet s.mem (p.pa + i)) ∧
          ∀ x, ¬(hostBase + op 2 ≤ x ∧ x < hostBase + op 2 + n) → memGet t.mem x = memGet s.mem x) ∧
      (∀ bytes : List Byte, asked 5 → s.sv.en = false → s.retrain = [] → bytes.length = n → (∀ i, i < n → lostByte s (hostBase + op 2 + i) = false) →
          op 2 + n ≤ hostEnd - hostBase → p.own + n ≤ hostBase →
        ∃ t, served (.fetch fn bytes) 0 0 t ∧ pageOf t b.id (op 1) = some { p with pa := p.own, res := true, wanted := none, host := false, told := false } ∧
          ∀ i, i < n → memGet t.mem (p.own + i) = bytes[i]?.getD 0) ∧
      (asked 6 → served (.query fn) 0 (p.pa / 4096 % 2 ^ 36 * 4096 + 2 * (if p.pin then 1 else 0) + if p.res then 1 else 0) s)) ∧
    (fn ≠ 0 → (asked 7 → served (.grant fn) 2 0 s) ∧ (asked 8 → served (.queue fn) 2 0 s) ∧
      (asked 10 → op 0 ≠ fn.toNat → served (.kvclear fn) 2 0 s)) ∧
    (fn = 0 → asked 7 → op 2 ≤ 63 → op 3 ≤ 1 → op 0 + op 1 ≤ 2 ^ 48 → 0 < op 1 → takesGranted s (op 0) (op 1) (BitVec.ofNat 6 (op 2)) = false →
      served (.grant fn) 0 0 { s with
        grants := s.grants.filter (fun g => !(g.base == op 0 && g.fn == BitVec.ofNat 6 (op 2))) ++
          [⟨op 0, op 1, BitVec.ofNat 6 (op 2), op 3 == 1⟩] }) ∧
    (fn = 0 → asked 8 → op 0 ≤ 4095 → op 1 ≤ 63 → op 2 ≤ 127 →
      let q := BitVec.ofNat 12 (op 0)
      ((queueAt s q).en = true → served (.queue fn) 4 0 s) ∧
      ((queueAt s q).en = false →
        ∃ t, served (.queue fn) 0 0 t ∧ (queueAt t q).fn = BitVec.ofNat 6 (op 1) ∧ (queueAt t q).pri = BitVec.ofNat 7 (op 2) ∧
          (∀ e ∈ t.pool, e.bob.qid = q → (e.bob.state = .ready ∨ e.bob.state = .watch) → e.bob.pri = BitVec.ofNat 7 (op 2)) ∧
          (∀ e ∈ t.pool, e.bob.qid = q → (e.bob.state = .selected ∨ e.bob.state = .bound ∨ e.bob.state = .stopping) →
            e.nextPri = some (BitVec.ofNat 7 (op 2))))) ∧
    (∀ salt : List Byte, asked 9 →
      let bus := m.req.toNat / 2 ^ 320 % 2 ^ 64
      let report (t : State) (i n : Nat) : List Byte := (List.range n).map fun k => memGet t.mem (hostBase + bus + i + k)
      bus + 744 ≤ hostEnd - hostBase → s.boot.rmlen ≤ 0x200000 →
          (∀ i, i < 0x400000 → lostByte s (0xC000000000 + 63 * 0x1800000 + i) = false) →
        ∃ t, served (.attest fn salt) 0 0 t ∧
          (∀ i, i < 32 → memGet t.mem (hostBase + bus + i) = BitVec.ofNat 8 (m.req.toNat / 2 ^ (64 + 8 * i))) ∧
          report t 32 64 = sha512 s.miller.image ∧ leNat (report t 224 8) = s.boot.resets.toNat ∧
          leNat (report t 232 512) = Config.signature s.boot.seed (sha512 (report t 0 232)) salt % 2 ^ 4096 ∧
          ∀ x, ¬(hostBase + bus ≤ x ∧ x < hostBase + bus + 744) → memGet t.mem x = memGet s.mem x) ∧
    (asked 10 → op 0 ≤ 63 → fn = 0 ∨ op 0 = fn.toNat →
      ∃ t, served (.kvclear fn) 0 (s.blockNames.countP fun n => n.fn == BitVec.ofNat 6 (op 0)) t ∧
        ∀ n ∈ t.blockNames, n.fn ≠ BitVec.ofNat 6 (op 0))

/-- R361 to R363, R369: a queue's tail and configuration registers: a tail more than SIZE past the head stops the queue with cause 1; while EN
is 1 only EN and ABORT change; ABORT cancels the launch at the head, which completes with CANCELLED; another function's writes do nothing.
The Miller, while it runs, may ring any queue without PM (R380). R388: a write of ev.head that finds no page request to tell moves the
head; one that makes room lets the events out. -/
def Obligations.QueueAndEventRings : Prop :=
  (∀ (s : State) (fn : BitVec 6) (q : BitVec 12) (v : Word),
    let w := queueAt s q
    (w.fn ≠ fn → exec (.wqTailWrite (.host fn) q v) s = .next s ∧ exec (.wqCfgWrite fn q v) s = .next s ∧ exec (.abort fn q) s = .next s) ∧
    (s.miller.run = false → exec (.wqTailWrite .miller q v) s = .next s) ∧
    (∀ by_ : Issuer, by_ = .host w.fn ∨ by_ = .miller ∧ s.miller.run = true →
      (w.pm = true → exec (.wqTailWrite by_ q v) s = .next s) ∧
      (w.pm = false →
        ∃ t, exec (.wqTailWrite by_ q v) s = .next t ∧
          queueAt t q = (if 2 ^ (w.sz.toNat + 3) < (v.extractLsb' 0 32 - w.head).toNat ∧ w.err = false then
              { w with tail := v.extractLsb' 0 32, err := true, ecause := 1 }
            else { w with tail := v.extractLsb' 0 32 }) ∧
          (∀ p, p ≠ q → queueAt t p = queueAt s p) ∧ t = { s with queues := t.queues })) ∧
    (w.fn = fn →
      (v.getLsbD 2 = false →
        ∃ t, exec (.wqCfgWrite fn q v) s = .next t ∧ t = { s with queues := t.queues } ∧ (∀ p, p ≠ q → queueAt t p = queueAt s p) ∧
          (queueAt t q).en = v.getLsbD 0 ∧ (queueAt t q).fn = w.fn ∧ (queueAt t q).ring = w.ring ∧ (queueAt t q).head = w.head ∧
          (w.en = true → (queueAt t q).sz = w.sz ∧ (queueAt t q).pm = w.pm) ∧
          (w.en = false → (queueAt t q).sz = v.extractLsb' 8 4 ∧ (queueAt t q).pm = v.getLsbD 1) ∧
          (v.getLsbD 0 = false → (queueAt t q).err = false ∧ (queueAt t q).ecause = 0)) ∧
      (∀ l, w.front = some l → w.q = q →
        ∃ t l', exec (.abort fn q) s = .next t ∧ (queueAt t q).front = none ∧ (queueAt t q).head = w.head + 1 ∧
          t.launches = s.launches ++ [l'] ∧ l'.id = l.id ∧ l'.desc = l.desc ∧ l'.status = 8 ∧ l'.stage = .running))) ∧
  (∀ (s : State) (v : BitVec 32),
    (s.evring.en = false ∨ (∀ b ∈ s.backings, ∀ p ∈ b.pages, p.wanted = none ∨ p.host = false ∨ p.told = true) →
      exec (.evHeadWrite v) s = .next { s with evring := { s.evring with head := v } }) ∧
    (∀ b p i w, s.evring.en = true → (s.evring.tail - v).toNat + 1 < 2 ^ (s.evring.sz.toNat + 4) → s.backings = [b] → b.pages[i]? = some p →
      p.wanted = some w → p.host = true → p.told = false → (∀ j q, b.pages[j]? = some q → j ≠ i → q.wanted = none) → Canonical s →
        ∃ t, exec (.evHeadWrite v) s = .next t ∧ t.evring.tail = s.evring.tail + 1 ∧ t.evring.head = v ∧ t.irqs = s.irqs ++ [(0, 0)] ∧
          pageOf t b.id i = some { p with told := true } ∧
          (let at_ := 0x20000000000 + s.evring.base.toNat + s.evring.tail.toNat % 2 ^ (s.evring.sz.toNat + 4) * 32
           memGet t.mem at_ = 1 ∧ (memGet t.mem (at_ + 1)).toNat = b.fn.toNat ∧
            leNat ((List.range 8).map fun k => memGet t.mem (at_ + 8 + k)) = b.id % 2 ^ 64 ∧
            leNat ((List.range 8).map fun k => memGet t.mem (at_ + 16 + k)) = i % 2 ^ 64)))

/-- R364 to R373: what one step of the queue processor does for the only queue: it reads the descriptor at the head, checks it, tests its
conditions, passes the head (a launch that is dispatched locks BLOCKS, and ends with NOMEM where no extent table fits), and creates the
launch's bobbins, each with its place in the save areas, its INDEX, ARG and PRI. R375 to R378: a complete launch leaves: its record of 64
bytes is written, its signals are performed where ON lets them, and its names in the engines go; a launch with a bobbin in the pool is not
complete. The place of a block slot, and NOMEM where none is left, are log 44; that CREC and SIG are asked for as written is log 84. -/
def Obligations.Dispatching : Prop :=
  (∀ (s : State) (w : WorkQueue), s.queues = [w] → s.miller.run = true → (∀ e ∈ s.pool, e.bob.state ≠ .done ∧ e.bob.state ≠ .lost) →
    let s' : State := { s with lastQueue := w.q }
    let put (w : WorkQueue) : State := { s' with queues := [w] }
    let clear (rs : List (Nat × Nat)) : Prop := heldReads s rs = [] ∧ ∀ r ∈ rs, lostLines s r.1 r.2 = []
    (w.en = true → w.err = false → s.launches = [] →
      (w.front = none → w.head ≠ w.tail →
        (∀ i, i < 128 → let a := w.ring.toNat + w.head.toNat % 2 ^ (w.sz.toNat + 3) * 128 + i
          lostByte s a = false) →
        heldUp s false (w.ring.toNat + w.head.toNat % 2 ^ (w.sz.toNat + 3) * 128) 128 = [] →
        let d := descriptorOf (memBytes 128 (w.ring.toNat + w.head.toNat % 2 ^ (w.sz.toNat + 3) * 128) s.mem)
        ((d.crec.toNat % 64 ≠ 0 ∨ granted s w.fn true d.crec.toNat 64 = false) →
          exec .dispatchStep s = .next (put { w with err := true, ecause := 2, head := w.head + 1 })) ∧
        (d.crec.toNat % 64 = 0 → granted s w.fn true d.crec.toNat 64 = true →
          ∃ l, exec .dispatchStep s = .next { put { w with front := some l } with nextId := s.nextId + 1 } ∧
            l.desc = d ∧ l.q = w.q ∧ l.fn = w.fn ∧ l.head = w.head ∧ l.status = 0 ∧ l.stage = .check)) ∧
      (w.front = none → w.head = w.tail → exec .dispatchStep s = .next s) ∧
      (∀ l, w.front = some l →
        (l.stage = .check → clear (checkReads s l.desc) → checkLaunch s l.fn l.desc = 0 → exec .dispatchStep s = .next (put { w with front := some { l with stage := .waiting } })) ∧
        (l.stage = .check → clear (checkReads s l.desc) → checkLaunch s l.fn l.desc ≠ 0 →
          ∃ t l', exec .dispatchStep s = .next t ∧ t.launches = [l'] ∧ l'.id = l.id ∧ l'.status = checkLaunch s l.fn l.desc ∧
            (queueAt t w.q).head = w.head + 1 ∧ (queueAt t w.q).front = none ∧ t.blocksLock = s.blocksLock) ∧
        (l.stage = .waiting → w.waiting = false → clear (semReads l.desc) → semHolds s l.desc.wait0 = true → semHolds s l.desc.wait1 = true →
          ∃ t l', exec .dispatchStep s = .next t ∧ t.launches = [l'] ∧ l'.id = l.id ∧ l'.start = BitVec.ofNat 64 s.time ∧
            l'.status = (if l.desc.n ≠ 0 ∧ tableRoom s 1024 = none then 6 else 0) ∧
            (queueAt t w.q).head = w.head + 1 ∧ (queueAt t w.q).front = none ∧ t.blocksLock = true) ∧
        (l.stage = .waiting → w.waiting = false → clear (semReads l.desc) → semHolds s l.desc.wait0 = false ∨ semHolds s l.desc.wait1 = false →
          exec .dispatchStep s = .next (put { w with waiting := true })) ∧
        (l.stage = .waiting → w.waiting = true → clear (semReads l.desc) → semHolds s l.desc.wait0 = false →
          exec .dispatchStep s = .next s ∧ exec (.conditionEvaluation w.q) s = .next s) ∧
        (l.stage = .waiting → w.waiting = true → clear (semReads l.desc) → semHolds s l.desc.wait0 = true → semHolds s l.desc.wait1 = true →
          ∃ t l', exec (.conditionEvaluation w.q) s = .next t ∧ t.launches = [l'] ∧ l'.id = l.id ∧
            l'.status = (if l.desc.n ≠ 0 ∧ tableRoom s 1024 = none then 6 else 0) ∧
            (queueAt t w.q).head = w.head + 1))) ∧
    (∀ l, w.front = none → w.en = false → s.launches = [l] → l.q = w.q → l.stage = .create → l.created < l.desc.n.toNat →
      l.desc.n.toNat ≤ l.created + 255 → s.pool.length + 256 ≤ 262144 →
        ∃ t, exec .dispatchStep s = .next t ∧ t.launches = [{ l with created := l.desc.n.toNat, stage := .running }] ∧
          t.pool.length = s.pool.length + (l.desc.n.toNat - l.created) ∧ (∀ e ∈ s.pool, e ∈ t.pool) ∧
          ∀ i, l.created ≤ i → i < l.desc.n.toNat → ∃ e ∈ t.pool, e.launch = l.id ∧ e.bob.state = .ready ∧ e.place = s.nextPlace + (i - l.created) ∧
            e.bob.code = l.desc.code ∧ e.bob.seam = 0x3F0000#22 + l.desc.proc.zeroExtend 22 ∧ e.bob.pri = w.pri ∧ e.bob.qid = w.q ∧
            e.bob.save = l.desc.save + BitVec.ofNat 64 (i * 0x241000) ∧ e.bob.index = l.desc.ibase + BitVec.ofNat 64 i ∧
            e.bob.arg = l.desc.arg ∧ e.bob.spn = false)) ∧
  (∀ (s : State) (l : Launch), s.launches = [l] → l.stage = .running → l.status = 0 → l.created = l.desc.n.toNat → Canonical s →
    ((∃ e ∈ s.pool, e.launch = l.id ∧ e.bob.state ≠ .done ∧ e.bob.state ≠ .lost) → (∀ e ∈ s.pool, e.bob.state ≠ .done ∧ e.bob.state ≠ .lost) →
      exec (.launchCompletion l.id) s = .next s) ∧
    (s.pool = [] → s.sv.en = false → s.retrain = [] → s.panels = [] → l.desc.sig0.op = 2 → l.desc.sig0.w64 = true → l.desc.sig1.op = 0 → l.desc.on = 0 →
      granted s l.fn true l.desc.sig0.addr 8 = true → (l.desc.crec.toNat + 64 ≤ l.desc.sig0.addr ∨ l.desc.sig0.addr + 8 ≤ l.desc.crec.toNat) →
        ∃ t, exec (.launchCompletion l.id) s = .next t ∧ t.launches = [] ∧
          (let at_ (o n : Nat) : Nat := leNat ((List.range n).map fun i => memGet t.mem (l.desc.crec.toNat + o + i))
           at_ 0 4 = 2 ^ 31 + (if l.lost = 0 then 0 else 1) ∧ at_ 4 4 = min l.faults (2 ^ 32 - 1) ∧ at_ 8 2 = l.first.toNat ∧
            at_ 16 4 = min l.done (2 ^ 32 - 1) ∧ at_ 20 4 = min l.lost (2 ^ 32 - 1) ∧ at_ 24 8 = l.start.toNat ∧ at_ 32 8 = s.time % 2 ^ 64 ∧
            at_ 40 8 = l.q.toNat + l.fn.toNat * 2 ^ 12 + l.head.toNat * 2 ^ 32 ∧ at_ 48 8 = l.desc.tag.toNat ∧ at_ 56 8 = 0) ∧
          leNat ((List.range 8).map fun i => memGet t.mem (l.desc.sig0.addr + i)) = l.desc.sig0.value.toNat ∧
          (∀ x, ¬(l.desc.crec.toNat ≤ x ∧ x < l.desc.crec.toNat + 64) → ¬(l.desc.sig0.addr ≤ x ∧ x < l.desc.sig0.addr + 8) →
            memGet t.mem x = memGet s.mem x) ∧
          (∀ r ∈ t.net.recvs, r.launch ≠ l.id) ∧ (∀ r ∈ t.fab.recvs, r.launch ≠ l.id)))

/-- R384, R396, R400: the host reads and writes device memory; the staging window takes writes only while neither the boot sequence nor the
Miller runs; the debug window shows bobbin records; a register read gives its bytes. An address that R304 calls reserved stops the model.
R3, R278, R279, R331, R359, R385, R388, R397, R398, R400: registers written through BAR0 read back what was written, in the values they
take; a function reaches its own queues and mailbox alone, and only the PF the other blocks; the Miller lowers FTGT (R391). The fault
reservedAddress is log 7, the staging place log 44, and the registers at multiples of 8 log 90. -/
def Obligations.HostAccess : Prop :=
  (∀ (s : State) (a : BitVec 48) (n : Nat) (bs : List Byte), Canonical s → s.hostWait = [] →
    (isReserved a.toNat = true → 0 < n →
      exec (.hostAccess (.memRead a n)) s = .fault .reservedAddress ∧ (bs ≠ [] → exec (.hostAccess (.memWrite a bs)) s = .fault .reservedAddress)) ∧
    (a.toNat + n ≤ vaultBase → (∀ i, i < n → s.sv.deadLines.contains ((a.toNat + i) / 64) = false ∧ s.poison.contains ((a.toNat + i) / 64) = false) →
      physSites s .part false false a.toNat n = (List.range n).map (fun i => Site.mem (a.toNat + i)) →
        exec (.hostAccess (.memRead a n)) s =
          .next { s with hostRead := s.hostRead ++ [(List.range n).map fun i => memGet s.mem (a.toNat + i)] }) ∧
    (a.toNat + bs.length ≤ vaultBase → 
      physSites s .part true false a.toNat bs.length = (List.range bs.length).map (fun i => Site.mem (a.toNat + i)) → s.sv.en = false →
      ∃ t, exec (.hostAccess (.memWrite a bs)) s = .next t ∧ (∀ i, i < bs.length → memGet t.mem (a.toNat + i) = bs[i]?.getD 0) ∧
        (∀ x, ¬(a.toNat ≤ x ∧ x < a.toNat + bs.length) → memGet t.mem x = memGet s.mem x) ∧ t.core = s.core) ∧
    (∀ off : BitVec 22, off.toNat + bs.length ≤ 0x400000 →
      let at_ := 0xC000000000 + 63 * 0x1800000 + off.toNat
      ((s.boot.busy || s.miller.run) = true → exec (.hostAccess (.stagingWrite off bs)) s = .next s) ∧
      ((s.boot.busy || s.miller.run) = false →
        ∃ t, exec (.hostAccess (.stagingWrite off bs)) s = .next t ∧ (∀ i, i < bs.length → memGet t.mem (at_ + i) = bs[i]?.getD 0) ∧
          ∀ x, ¬(at_ ≤ x ∧ x < at_ + bs.length) → memGet t.mem x = memGet s.mem x)) ∧
    (∀ (off : BitVec 22), off.toNat + n ≤ 0x400000 → (∀ i, i < n → lostByte s (0xC000000000 + 63 * 0x1800000 + off.toNat + i) = false) →
      exec (.hostAccess (.stagingRead off n)) s =
        .next { s with hostRead := s.hostRead ++ [(List.range n).map fun i => memGet s.mem (0xC000000000 + 63 * 0x1800000 + off.toNat + i)] }) ∧
    (∀ e, poolEntry s e.slot = some e → e.slot < 262144 →
      ∃ t bytes, exec (.hostAccess (.debugRead (BitVec.ofNat 25 (e.slot * 64)) 64)) s = .next t ∧ t = { s with hostRead := s.hostRead ++ [bytes] } ∧
        leNat (bytes.take 8) = e.bob.code.toNat ∧ leNat ((bytes.drop 16).take 8) = e.bob.save.toNat ∧
        leNat ((bytes.drop 24).take 8) = e.bob.index.toNat ∧ leNat ((bytes.drop 32).take 8) = e.bob.arg.toNat ∧
        leNat ((bytes.drop 56).take 2) = e.bob.fault.toNat) ∧
    (∀ fn off, exec (.hostAccess (.registerRead fn off)) s =
      .next { s with hostRead := s.hostRead ++ [leBytes 8 (readReg s fn off.toNat).toNat] })) ∧
  (∀ (s : State) (fn : BitVec 6) (v : Word),
    (∀ off : BitVec 26, off.toNat % 8 ≠ 0 → exec (.registerWrite (.host fn) off v) s = .next s ∧ readReg s fn off.toNat = 0) ∧
    (∀ off : BitVec 26, fn ≠ 0 → 0x50000 ≤ off.toNat → exec (.registerWrite (.host fn) off v) s = .next s ∧ readReg s fn off.toNat = 0) ∧
    (∀ off : BitVec 26, off.toNat < 0x40000 → (queueAt s (BitVec.ofNat 12 (off.toNat / 0x40))).fn ≠ fn →
      exec (.registerWrite (.host fn) off v) s = .next s ∧ readReg s fn off.toNat = 0) ∧
    (∀ k, k < 8 → (bank s.mailboxes fn).busy = false →
      ∃ t, exec (.registerWrite (.host fn) (BitVec.ofNat 26 (0x40000 + 8 * k)) v) s = .next t ∧ readReg t fn (0x40000 + 8 * k) = v ∧
        (∀ j, j < 8 → j ≠ k → readReg t fn (0x40000 + 8 * j) = readReg s fn (0x40000 + 8 * j)) ∧ t = { s with mailboxes := t.mailboxes }) ∧
    ((bank s.mailboxes fn).busy = false → v.getLsbD 0 = true →
      exec (.registerWrite (.host fn) 0x40080 v) s = .next { s with
        mailboxes := bankSet s.mailboxes fn { bank s.mailboxes fn with busy := true }, mbOrder := s.mbOrder ++ [fn] }) ∧
    (let clip (x : BitVec 10) : BitVec 10 := if x = 0 then 1 else if 1000 < x then 1000 else x
     exec (.registerWrite (.host 0) 0x50000 v) s = .next { s with prog := clip (v.extractLsb' 32 10), starv := clip (v.extractLsb' 16 10) }) ∧
    (s.blocksLock = false →
      exec (.registerWrite (.host 0) 0x51000 v) s = .next { s with
        blocks := if 65536 < v.extractLsb' 0 17 then 65536 else v.extractLsb' 0 17 &&& 0x1FFC0 }) ∧
    (s.blocksLock = true → exec (.registerWrite (.host 0) 0x51000 v) s = .next s) ∧
    (let clock (x : BitVec 16) : BitVec 16 := if x < 500 then 500 else if 2000 < x then 2000 else x - x % 50
     exec (.registerWrite (.host 0) 0x52000 v) s = .next { s with
      power := { s.power with mx := { s.power.mx with fceil := clock (v.extractLsb' 16 16), ftgt := clock (v.extractLsb' 0 16) } } } ∧
     (s.miller.run = true → exec (.registerWrite .miller 0x52000 v) s = .next { s with
      power := { s.power with mx := { s.power.mx with
        ftgt := if clock (v.extractLsb' 0 16) < s.power.mx.ftgt then clock (v.extractLsb' 0 16) else s.power.mx.ftgt } } })) ∧
    (∀ k : BitVec 5, exec (.registerWrite (.host 0) (BitVec.ofNat 26 (0x55800 + 8 * k.toNat)) v) s = .next { s with
      fab := { s.fab with fjob := bankSet s.fab.fjob (k.zeroExtend 6) (v.extractLsb' 0 16) } }) ∧
    (∀ k, k < 12 → ∃ t, exec (.registerWrite (.host 0) (BitVec.ofNat 26 (0x2000000 + 16 * k)) v) s = .next t ∧ readReg t 0 (0x2000000 + 16 * k) = v ∧
      (∀ j, j < 12 → j ≠ k → readReg t 0 (0x2000000 + 16 * j) = readReg s 0 (0x2000000 + 16 * j)) ∧ t = { s with dbg := t.dbg }))

/-- R389 to R391: the Miller's loads and stores: its own memory, mc.ipend by ones, and device memory through its filters; a refused access
loads zero or stores nothing and is counted; a held Miller does nothing. R397, R398: a layer's clock is the least of its target, its
ceiling and the levels of its clamps; power above PLIM lowers the matrix layer, then the vector/control layer, by 50 MHz to 500 MHz at
least; heat above 105 °C lowers its layer, above 115 °C every layer to 500 MHz until all sensors read below 100 °C; a clamp whose
condition has cleared raises its layer by 50 MHz (assumption 87). An access at an address that R304 calls reserved ends with
reservedAddress, which is log 7; the steps and releases of the clamps are log 87. -/
def Obligations.MillerAndClocks : Prop :=
  (∀ (s : State) (a : Word) (size : MemSize) (x : Word), Canonical s → Memory.wf s.miller.tcm = true → s.miller.waiting = [] →
    let n := size.bytes
    let load := exec (.millerAccess a size none) s
    let store := exec (.millerAccess a size (some x)) s
    (s.miller.run = false → load = .next s ∧ store = .next s) ∧
    (s.miller.run = true →
      (0x80000000 ≤ a.toNat → a.toNat + n ≤ 0x80040000 →
        load = .next { s with miller := { s.miller with
          loaded := s.miller.loaded ++ [BitVec.ofNat 64 (leNat ((List.range n).map fun i => memGet s.miller.tcm (a.toNat - 0x80000000 + i)))] } } ∧
        ∃ t, store = .next t ∧ (∀ i, i < n → memGet t.miller.tcm (a.toNat - 0x80000000 + i) = BitVec.ofNat 8 (x.toNat / 256 ^ i)) ∧
          (∀ y, ¬(a.toNat - 0x80000000 ≤ y ∧ y < a.toNat - 0x80000000 + n) → memGet t.miller.tcm y = memGet s.miller.tcm y) ∧
          t = { s with miller := { s.miller with tcm := t.miller.tcm } }) ∧
      (a.toNat = 0x70000000 → 4 ≤ n →
        store = .next { s with miller := { s.miller with ipend := s.miller.ipend &&& ~~~x.extractLsb' 0 32 } }) ∧
      (0x100000000 ≤ a.toNat →
        let pa := a.toNat - 0x100000000
        let fits (write : Bool) : Prop := ∃ k : BitVec 3,
          let f := bank s.miller.flt k
          (if write then f.perm = 3 else f.perm = 1 ∨ f.perm = 3) ∧ f.base.toNat ≤ pa ∧ pa + n ≤ f.limit.toNat + 1
        let viol : State := { s with
          miller := { s.miller with viol := s.miller.viol + 1 }
          mailboxes := bankSet s.mailboxes 0 { bank s.mailboxes 0 with err := (bank s.mailboxes 0).err + 1 } }
        (¬fits false → load = .next { viol with miller := { viol.miller with loaded := s.miller.loaded ++ [0] } }) ∧
        (¬fits true → store = .next viol) ∧
        (fits false → physSites s .part false false pa n = (List.range n).map (fun i => Site.mem (pa + i)) → pa + n ≤ vaultBase →
          (∀ i, i < n → s.sv.deadLines.contains ((pa + i) / 64) = false ∧ s.poison.contains ((pa + i) / 64) = false) →
            load = .next { s with miller := { s.miller with
              loaded := s.miller.loaded ++ [BitVec.ofNat 64 (leNat ((List.range n).map fun i => memGet s.mem (pa + i)))] } }) ∧
        (fits true → fits false → isReserved pa = true → load = .fault .reservedAddress ∧ store = .fault .reservedAddress)))) ∧
  (∀ (s : State) (x : BitVec 16) (w : BitVec 12) (y : Layer),
    let p := s.power
    let less (a b : BitVec 16) : BitVec 16 := if a ≤ b then a else b
    let least (l : LayerClock) : BitVec 16 := less l.ftgt (less l.fceil (less l.power l.heat))
    let low (l : LayerClock) : BitVec 16 := if least l < 550 then 500 else least l - 50
    let powerTo (l : LayerClock) (c : BitVec 16) : LayerClock := { l with power := c, fnow := least { l with power := c } }
    let up (f : BitVec 16) : BitVec 16 := if 1950 < f then 2000 else f + 50
    (exec (.clockChange .mx) s = .next { s with power := { p with mx := { p.mx with fnow := least p.mx } } } ∧
      exec (.clockChange .vx) s = .next { s with power := { p with vx := { p.vx with fnow := least p.vx } } } ∧
      exec (.clockChange .vault) s = .next { s with power := { p with vault := { p.vault with fnow := least p.vault } } }) ∧
    (w ≤ p.plim → exec (.powerClamp w) s = .next { s with power := { p with pnow := w } }) ∧
    (p.plim < w → 500 < least p.mx → exec (.powerClamp w) s = .next { s with power := { p with pnow := w, mx := powerTo p.mx (low p.mx) } }) ∧
    (p.plim < w → least p.mx ≤ 500 → exec (.powerClamp w) s = .next { s with power := { p with pnow := w, vx := powerTo p.vx (low p.vx) } }) ∧
    (∃ t, exec (.thermalClamp y x) s = .next t ∧ (t.power.layer y).hot = x ∧ t = { s with power := t.power } ∧
      (x ≤ 1840 → (t.power.layer y).heat = (if x ≤ 1680 then (p.layer y).heat else low (p.layer y)) ∧
        (t.power.layer y).power = (p.layer y).power ∧ (∀ z, z ≠ y → t.power.layer z = p.layer z) ∧ t.power.emergency = p.emergency) ∧
      (1840 < x → t.power.emergency = true ∧ ∀ z, (t.power.layer z).heat = 500 ∧ (t.power.layer z).fnow ≤ 500)) ∧
    (∃ t, exec (.emergencyClamp y x) s = .next t ∧ (t.power.layer y).hot = x ∧ t = { s with power := t.power } ∧
      (x ≤ 1840 → t.power.emergency = p.emergency ∧ ∀ z, (t.power.layer z).heat = (p.layer z).heat ∧ (t.power.layer z).power = (p.layer z).power) ∧
      (1840 < x → t.power.emergency = true ∧ ∀ z, (t.power.layer z).heat = 500 ∧ (t.power.layer z).fnow ≤ 500)) ∧
    (∃ t, exec (.clampRelease y) s = .next t ∧ t = { s with power := t.power } ∧ (∀ z, z ≠ y → t.power.layer z = p.layer z) ∧
      (t.power.layer y).fnow = least (t.power.layer y) ∧
      (t.power.emergency = true ↔ p.emergency = true ∧ ∃ z, 1600 ≤ hottest s z) ∧
      (t.power.layer y).power = (if p.pnow ≤ p.plim then up (p.layer y).power else (p.layer y).power) ∧
      (t.power.layer y).heat = (if t.power.emergency = false ∧ hottest s y ≤ 1680 then up (p.layer y).heat else (p.layer y).heat)))

/-- R392, R393, R395, R396: GO starts a boot sequence; at its end BUSY is clear, vector 0 goes to the PF, and a good image lets the Miller
run; the first one after a cold reset puts a map in force and makes the device key of the helper data (what a map, the firmware header and
the PUF hold are free functions of Config); a cold reset leaves the reset state with the host's memory; a warm reset keeps device memory;
an FLR stops the queues of its function. The places of the header fields and the signature are log 9, the staging place log 44, which
failure of several is named log 57, and what a warm reset keeps log 86. -/
def Obligations.BootAndResets : Prop :=
  ∀ (s : State), Canonical s →
    ((s.boot.busy || s.miller.run) = true → exec .btGo s = .next s) ∧
    ((s.boot.busy || s.miller.run) = false →
      exec .btGo s = .next { s with boot := { s.boot with busy := true, enrolled := false, code := 0xFF } }) ∧
    (∀ r : BootResult, s.boot.busy = true → s.boot.imglen ≤ 0x200000 → s.boot.rmlen ≤ 0x10000 →
      (∀ i, i < 0x400000 → lostByte s (0xC000000000 + 63 * 0x1800000 + i) = false) →
      let staged (o n : Nat) : List Byte := (List.range n).map fun i => memGet s.mem (0xC000000000 + 63 * 0x1800000 + o + i)
      let image := staged 0 s.boot.imglen.toNat
      let map := if s.boot.rmlen ≠ 0 ∧ r.cachedGood = true then staged 0x200000 s.boot.rmlen.toNat else r.repairMap.take 0x10000
      ∃ t, exec (.bootSequenceEnd r) s = .next t ∧ t.boot.busy = false ∧ t.boot.code = firmwareCode image ∧ t.boot.cold = false ∧
        t.irqs = s.irqs ++ [(0, 0)] ∧ (firmwareCode image = 0 → t.miller.run = true ∧ t.miller.image = image) ∧
        (firmwareCode image ≠ 0 → t.miller = s.miller) ∧
        (s.boot.cold = true → t.boot.hv = true ∧ t.boot.enrolled = (s.boot.enrolled || !s.boot.hv) ∧
          (s.boot.hv = true → t.boot.helper = s.boot.helper) ∧ t.boot.seed = Config.deviceSeed t.boot.helper ∧
          t.boot.pubn = Config.publicModulus t.boot.seed ∧ t.boot.pube = Config.publicExponent t.boot.seed ∧
          t.boot.rmlen.toNat = map.length % 2 ^ 32 ∧ t.core.phys.toNat = (Config.mapCore map s.cur).val)) ∧
    (∀ p ∈ ([Instr.cold, .coldResetInput] : List Instr), ∃ t, exec p s = .next t ∧
      (∀ x, memGet t.mem x = if (hostBase ≤ x ∧ x < hostEnd) ∨ 2 ^ 64 ≤ x then memGet s.mem x else 0) ∧
      t.core = Core.reset 0 ∧ t.queues = [] ∧ t.launches = [] ∧ t.pool = [] ∧ t.images = [] ∧ t.miller.run = false ∧ t.time = 0) ∧
    (∃ t, exec .warm s = .next t ∧ t.mem = s.mem ∧ t.poison = s.poison ∧ t.time = s.time ∧ t.core.slot = none ∧ t.core.phys = s.core.phys ∧
      t.queues = [] ∧ t.launches = [] ∧ t.pool = [] ∧ t.miller.run = false ∧ t.boot.pubn = s.boot.pubn ∧ t.boot.helper = s.boot.helper) ∧
    (∀ fn, (∀ w ∈ s.queues, w.fn = fn → w.front = none ∧ w.head = w.tail) → (s.queues.map (·.q)).Nodup →
      ∃ t, exec (.functionLevelReset fn) s = .next t ∧ (∀ w ∈ t.queues, w.fn = fn → w.en = false) ∧
        (∀ w ∈ s.queues, w.fn ≠ fn → w ∈ t.queues) ∧ t.mem = s.mem ∧ t.core = s.core ∧
        ((∀ l ∈ s.launches, l.fn ≠ fn) → ∀ n ∈ t.blockNames, n.fn ≠ fn))

/-- R402, R407, R409, R411: the engine takes the request at the head of an endpoint's send queue: a message of up to 4,096 bytes leaves as one
packet of its source bytes with the peer's entry of the address table and the earliest request in flight of its connection; a source at an
invalid block position fails with INVALPOS. A request of the other kind, or of an endpoint that is off, stays. R408, R409, R411: the
request at the head of an endpoint's receive queue: a RECV is posted; an EXPOSE makes its region the key's only one, unless the endpoint
has 256 other keys; a WITHDRAW removes the key, or fails with NOKEY. That the packet is one of the earliest request in flight of its
connection is log 88, and the entropy of a packet log 9. -/
def Obligations.NetRequests : Prop :=
  (∀ (s : State) (k : BitVec 10) (req : WReq) (rest : List WReq), (epAt s k).sendq = req :: rest →
    let w := wqeOf req.raw
    let e := epAt s k
    ∀ i op, ((i = Instr.send k ∧ op = 1) ∨ (i = Instr.write k ∧ op = 2)) →
      ((e.en = false ∨ w.op ≠ op) → exec i s = .next s) ∧
      (e.en = true → w.op = op → w.len ≤ 4096 →
        ((∀ i, i < 32 → let a := e.tbase.toNat + 32 * w.dest + i
            lostByte s a = false) → heldUp s false (e.tbase.toNat + 32 * w.dest) 32 = [] →
          ∀ pa, virtSites s req.launch false false false w.laddr w.len = (List.range w.len).map (fun i => Site.mem (pa + i)) →
          (∀ i, i < w.len → s.sv.deadLines.contains ((pa + i) / 64) = false ∧ s.poison.contains ((pa + i) / 64) = false) →
            let r : NetReq := ⟨s.nextId, k, req, [⟨0, 0, false, 0, s.time, portOpen s.net w.port⟩], 0, none⟩
            let oldest := ((s.net.flight.find? fun q => sameConnection q r).map (·.id)).getD s.nextId
            let out := NetOut.packet s.nextId oldest 0 k e.job (memBytes 32 (e.tbase.toNat + 32 * w.dest) s.mem) req.raw
              ((List.range w.len).map fun i => memGet s.mem (pa + i)) (Config.entropy s.freshVal)
            ∃ t, exec i s = .next t ∧ epAt t k = { e with sendq := rest } ∧ (∀ j, j ≠ k → epAt t j = epAt s j) ∧
              t = { s with
                nextId := s.nextId + 1
                freshVal := if portOpen s.net w.port then s.freshVal + 1 else s.freshVal
                net := { s.net with
                  eps := t.net.eps, flight := s.net.flight ++ [r]
                  sent := if portOpen s.net w.port then s.net.sent ++ [out] else s.net.sent } }) ∧
        (∀ slot pos pa more, virtSites s req.launch false false false w.laddr w.len = Site.block slot pos pa :: more → 
          ∃ t, exec i s = .next t ∧ (epAt t k).sendq = rest ∧ (epAt t k).lasterr = 6 ∧ CountsFail w.ccnt s t ∧
            t.net.flight = s.net.flight ∧ t.net.sent = s.net.sent ∧ t.mem = s.mem))) ∧
  (∀ (s : State) (k : BitVec 10) (req : WReq) (rest : List WReq), (epAt s k).recvq = req :: rest →
    let w := wqeOf req.raw
    let e := epAt s k
    let b : NetBuf := ⟨k, req.launch, w.laddr, w.len, w.rkey, w.tag, w.ign, w.ccnt⟩
    let others := s.net.exposes.filter fun x => !(x.ep == k && x.key == w.rkey)
    let mine := (others.filter fun x => x.ep == k).length
    (∀ i op, ((i = Instr.recv k ∧ op = 3) ∨ (i = Instr.expose k ∧ op = 4) ∨ (i = Instr.withdraw k ∧ op = 5)) → (e.en = false ∨ w.op ≠ op) →
      exec i s = .next s) ∧
    (e.en = true →
      (w.op = 3 →
        ∃ t, exec (.recv k) s = .next t ∧ epAt t k = { e with recvq := rest } ∧ (∀ j, j ≠ k → epAt t j = epAt s j) ∧
          t = { s with net := { s.net with eps := t.net.eps, recvs := s.net.recvs ++ [b] } }) ∧
      (w.op = 4 → mine < 256 →
        ∃ t, exec (.expose k) s = .next t ∧ epAt t k = { e with recvq := rest } ∧ CountsOk w.ccnt s t ∧
          t = { s with net := { s.net with eps := t.net.eps, cnts := t.net.cnts, exposes := others ++ [b] } }) ∧
      (w.op = 4 → 256 ≤ mine →
        ∃ t, exec (.expose k) s = .next t ∧ epAt t k = { e with recvq := rest, lasterr := 7 } ∧ CountsFail w.ccnt s t ∧
          t = { s with net := { s.net with eps := t.net.eps, cnts := t.net.cnts } }) ∧
      (w.op = 5 → (∃ x ∈ s.net.exposes, x.ep = k ∧ x.key = w.rkey) →
        ∃ t, exec (.withdraw k) s = .next t ∧ epAt t k = { e with recvq := rest } ∧ CountsOk w.ccnt s t ∧
          t = { s with net := { s.net with eps := t.net.eps, cnts := t.net.cnts, exposes := others } }) ∧
      (w.op = 5 → (∀ x ∈ s.net.exposes, ¬(x.ep = k ∧ x.key = w.rkey)) →
        ∃ t, exec (.withdraw k) s = .next t ∧ epAt t k = { e with recvq := rest, lasterr := 7 } ∧ CountsFail w.ccnt s t ∧
          t = { s with net := { s.net with eps := t.net.eps, cnts := t.net.cnts } })))

/-- R408 to R410: a message of one packet arrives, in its turn if it is ordered (one out of turn is neither placed nor answered). A SEND takes
the first RECV of its endpoint whose tag matches and that is long enough; a WRITE lands in the region of its key. The bytes are placed,
the target's counter rises, the packet is acknowledged. Without a RECV the answer is not-ready; without the key, or outside the region,
the request fails; a duplicate is acknowledged again and placed no more. Which message of an ordered pair is in turn is log 88. -/
def Obligations.NetPlacing : Prop :=
  (∀ (s : State) (p : Packet) (k : Nat), p.ordered = true → p.oldest ≤ k → k < p.msg →
    (∀ r ∈ s.net.rx, r.ep = p.ep → r.peer = p.peer → r.ordered = true → (r.msg = k → r.finished = false) ∧ (r.msg = p.msg → p.index ∉ r.placed)) →
      exec (.packetArrival p) s = .next s) ∧
  ∀ (s : State) (p : Packet), (epAt s p.ep).en = true → p.index = 0 → p.len ≤ 4096 → p.bytes.length = p.len →
    (p.ordered = false ∨ p.msg ≤ p.oldest) →
    s.sv.after = [] → s.sv.pending = [] → s.sv.en = false → Canonical s →
    let answer (t : State) (a : PacketAck) : Prop := t.net.sent = s.net.sent ++ [.ack p.ep p.peer p.msg 0 a]
    let this (r : NetRx) : Prop := r.ep = p.ep ∧ r.peer = p.peer ∧ r.ordered = p.ordered ∧ r.msg = p.msg
    let fits (b : NetBuf) : Prop := b.ep = p.ep ∧ ((b.tag ^^^ p.tag) &&& ~~~b.ign) = 0 ∧ p.len ≤ b.len
    let lands (launch : Nat) (a : Word) (cnt : BitVec 32) (more : State → Prop) : Prop :=
      ∀ pa, virtSites s launch false true false a p.len = (List.range p.len).map (fun i => Site.mem (pa + i)) →
        ∃ t, exec (.packetArrival p) s = .next t ∧ answer t .placed ∧ CountsOk cnt s t ∧
          (∀ i, i < p.len → memGet t.mem (pa + i) = p.bytes[i]?.getD 0) ∧ (∀ x, ¬(pa ≤ x ∧ x < pa + p.len) → memGet t.mem x = memGet s.mem x) ∧
          t.core = s.core ∧ t.net.eps = s.net.eps ∧ more t
    ((∃ r ∈ s.net.rx, this r ∧ (∀ x ∈ s.net.rx, this x → x = r) ∧ 0 ∈ r.placed) →
      ∃ t, exec (.packetArrival p) s = .next t ∧ answer t .placed ∧ t = { s with net := { s.net with sent := t.net.sent } }) ∧
    ((∀ r ∈ s.net.rx, ¬this r) →
      (p.write = false →
        ((∀ b ∈ s.net.recvs, ¬fits b) →
          ∃ t, exec (.packetArrival p) s = .next t ∧ answer t .notReady ∧ t = { s with net := { s.net with sent := t.net.sent } }) ∧
        (∀ pre b post, s.net.recvs = pre ++ b :: post → (∀ x ∈ pre, ¬fits x) → fits b →
          lands b.launch b.base b.ccnt fun t => t.net.recvs = pre ++ post)) ∧
      (p.write = true →
        ((∀ b ∈ s.net.exposes, ¬(b.ep = p.ep ∧ b.key = p.rkey)) →
          ∃ t, exec (.packetArrival p) s = .next t ∧ answer t (.failed 7) ∧ t = { s with net := { s.net with sent := t.net.sent } }) ∧
        (∀ pre b post, s.net.exposes = pre ++ b :: post → (∀ x ∈ pre, ¬(x.ep = p.ep ∧ x.key = p.rkey)) → b.ep = p.ep → b.key = p.rkey →
          ((b.len < p.raddr.toNat + p.len ∨ (∃ n, cntNamed p.tcnt = some n ∧ cntFn (cntAt s n) ≠ (epAt s p.ep).fn)) →
            ∃ t, exec (.packetArrival p) s = .next t ∧ answer t (.failed 1) ∧ t = { s with net := { s.net with sent := t.net.sent } }) ∧
          (p.raddr.toNat + p.len ≤ b.len → (∀ n, cntNamed p.tcnt = some n → cntFn (cntAt s n) = (epAt s p.ep).fn) →
            lands b.launch (b.base + p.raddr) p.tcnt fun t => t.net.exposes = s.net.exposes))))

/-- R402, R409 to R411: a request of one packet in flight: acknowledged, it is complete; failed, it ends with its status; not ready, it leaves
again 10 µs later, 64 times at most; without an answer it leaves again 50 µs after it last left, eight times, and then ends with TIMEOUT,
or with NOPDC if no port was ever up, or at once if the peer has no such connection. Two later acknowledgements on its connection make it
leave again at once. R391, R402, R411: a port of the network engine goes up or down; the packets of a request that it makes servable have
had a port. The Miller may retrain a port once in 100 ms. How NOPDC is judged is log 88, and that RST takes the Ethernet port down log 89. -/
def Obligations.NetDelivery : Prop :=
  (∀ (s : State) (r : NetReq) (p : PacketSt), r.packets = [p] → p.index = 0 → p.acked = false →
    let w := wqeOf r.req.raw
    let sites := virtSites s r.req.launch false false false w.laddr w.len
    let source (pa : Nat) : Prop := w.len ≤ 4096 ∧ sites = (List.range w.len).map (fun i => Site.mem (pa + i)) ∧
      (∀ i, i < w.len → s.sv.deadLines.contains ((pa + i) / 64) = false ∧ s.poison.contains ((pa + i) / 64) = false) ∧
      heldUp s false ((epAt s r.ep).tbase.toNat + 32 * w.dest) 32 = [] ∧
      ∀ i, i < 32 → let a := (epAt s r.ep).tbase.toNat + 32 * w.dest + i
        lostByte s a = false
    let leaves (t : State) (pa : Nat) : Prop := t.net.sent = s.net.sent ++ [NetOut.packet r.id r.id 0 r.ep (epAt s r.ep).job
      (memBytes 32 ((epAt s r.ep).tbase.toNat + 32 * w.dest) s.mem) r.req.raw ((List.range w.len).map fun i => memGet s.mem (pa + i))
      (Config.entropy s.freshVal)]
    let fails (i : Instr) (code : BitVec 8) : Prop :=
      ∃ t, exec i s = .next t ∧ t.net.flight = [] ∧ CountsFail w.ccnt s t ∧ (epAt t r.ep).lasterr = code ∧ t.mem = s.mem ∧ t.net.sent = s.net.sent
    (s.net.flight = [r] →
      (∃ t, exec (.packetAcknowledgement r.id 0 .placed) s = .next t ∧ CountsOk w.ccnt s t ∧
        t = { s with net := { s.net with flight := [], cnts := t.net.cnts } }) ∧
      (∀ code, fails (.packetAcknowledgement r.id 0 (.failed code)) code) ∧
      fails (.packetAcknowledgement r.id 0 .noConnection) 8 ∧
      (r.refused = none → r.retries < 64 →
        exec (.packetAcknowledgement r.id 0 .notReady) s = .next { s with net := { s.net with flight := [{ r with refused := some s.time }] } }) ∧
      (r.refused = none → 64 ≤ r.retries → fails (.packetAcknowledgement r.id 0 .notReady) 2) ∧
      (∀ id a, id ≠ r.id → exec (.packetAcknowledgement id 0 a) s = .next s) ∧
      (s.time < p.sentAt + 50000 → exec (.packetTimeout r.id 0) s = .next s) ∧
      (p.sentAt + 50000 ≤ s.time → r.refused = none → 8 ≤ p.tries → fails (.packetTimeout r.id 0) (if p.left then 3 else 8)) ∧
      (p.sentAt + 50000 ≤ s.time → r.refused = none → p.tries < 8 → portOpen s.net w.port = true → ∀ pa, source pa →
        ∃ t, exec (.packetTimeout r.id 0) s = .next t ∧ leaves t pa ∧
          t = { s with
            freshVal := s.freshVal + 1
            net := { s.net with sent := t.net.sent, flight := [{ r with packets := [{ p with tries := p.tries + 1, sentAt := s.time }] }] } }) ∧
      (∀ t0, r.refused = some t0 → s.time < t0 + 10000 → exec (.notReadyRetry r.id) s = .next s) ∧
      (∀ t0, r.refused = some t0 → t0 + 10000 ≤ s.time → portOpen s.net w.port = true → ∀ pa, source pa →
        ∃ t, exec (.notReadyRetry r.id) s = .next t ∧ leaves t pa ∧
          t = { s with
            freshVal := s.freshVal + 1
            net := { s.net with
              sent := t.net.sent
              flight := [{ r with refused := none, retries := r.retries + 1, packets := [{ p with sentAt := s.time }] }] } })) ∧
    (∀ r2 p2, s.net.flight = [r, r2] → r.id < r2.id → r2.packets = [p2] → p2.index = 0 → p2.acked = false → r2.ep = r.ep →
      (wqeOf r2.req.raw).dest = w.dest → (wqeOf r2.req.raw).ord = w.ord → p.missed = 1 → p.tries < 8 → portOpen s.net w.port = true →
      ∀ pa, source pa →
        ∃ t, exec (.packetAcknowledgement r2.id 0 .placed) s = .next t ∧ leaves t pa ∧ CountsOk (wqeOf r2.req.raw).ccnt s t ∧
          t.net.flight = [{ r with packets := [{ p with missed := 3, tries := p.tries + 1, sentAt := s.time }] }])) ∧
  (∀ (s : State) (up port : Bool),
    let net := if port then { s.net with up1 := up } else { s.net with up0 := up }
    (∃ t, exec (.ethernetLinkStateChange port up) s = .next t ∧ t = { s with net := { net with flight := t.net.flight } } ∧
      t.net.flight.length = s.net.flight.length ∧
      ∀ (k : Nat) (r : NetReq), s.net.flight[k]? = some r → t.net.flight[k]? = some (if portOpen net (wqeOf r.req.raw).port then
        { r with packets := r.packets.map fun p => { p with left := true } } else r)) ∧
    (let n := if port then 11 else 10
     s.miller.run = true → (∀ r ∈ s.miller.linkResets, r.1 = n → r.2 + 100000000 ≤ s.time) →
      exec (.rst (BitVec.ofNat 4 n) true) s = .next { s with
        miller := { s.miller with linkResets := s.miller.linkResets ++ [(n, s.time)] }
        net := if port then { s.net with up1 := false } else { s.net with up0 := false } }))

/-- R391, R412, R414 to R416, R421, R427, R452: the state of a link, notices of other links, RST, the relabelling (PERM only as a permutation
of 0 to 9), the substitution entries and the drop counters; the Miller's writes do nothing once it is locked out, and it may retrain a
link once in 100 ms. A pair of parts starts anew where another part has come behind a label. A stripe in flight stays with the part that
it went to: the write is for units issued afterwards. R432: a part that has come out of a reset: the stream counts, sequence numbers and
records to and from it start anew, and the stripes to it are lost; of a part that another one stands in for nothing more is lost here.
R418, R427, R449: a stripe held for want of a path leaves as soon as a link comes up that makes one, on the paths that its sequence number
gives and, if nothing of it has left, with the m then in force; at the end of the hold it is lost, but for a parity update (R446). That a
pair starts anew at 0 is log 62, that RST takes the link down and a lost management stripe sets ERR log 89, and what becomes of the
stripes sent before a substitution log 93. -/
def Obligations.FabricLinks : Prop :=
  (∀ (s : State) (d : BitVec 4) (p : PeerPort) (v : Word) (by' : Bool), s.fab.port[d.toNat]? = some p → s.fab.heldAt = [] →
    s.fab.heldAnswers = [] → s.fab.sends = [] →
    let set (q : PeerPort) : Fabric := { s.fab with port := s.fab.port.setIfInBounds d.toNat q }
    let perm := (List.range 10).map fun i => (v.extractLsb' (4 * i) 4).toNat
    (∀ up, exec (.linkStateChange d up) s = .next { s with fab := set { p with up := up } }) ∧
    exec (.flitDrop d) s = .next { s with fab := set { p with drop := p.drop + 1 } } ∧
    exec (.rst d false) s = .next { s with fab := set { p with up := false } } ∧
    (s.miller.run = false → exec (.rst d true) s = .next s) ∧
    (s.miller.run = true → (∃ r ∈ s.miller.linkResets, r.1 = d.toNat ∧ s.time < r.2 + 100000000) →
      exec (.rst d true) s = .next { s with miller := { s.miller with viol := s.miller.viol + 1 } }) ∧
    (s.miller.run = true → (∀ r ∈ s.miller.linkResets, r.1 = d.toNat → r.2 + 100000000 ≤ s.time) →
      exec (.rst d true) s = .next { s with
        miller := { s.miller with linkResets := s.miller.linkResets ++ [(d.toNat, s.time)] }, fab := set { p with up := false } }) ∧
    (((by' = true ∧ s.miller.lock = true) ∨ ∃ i, i < 10 ∧ i ∉ perm) → exec (.relabWrite v by') s = .next s) ∧
    ((by' = false ∨ s.miller.lock = false) → (∀ i, i < 10 → i ∈ perm) →
      exec (.relabWrite v by') s = .next { s with fab := { s.fab with perm := v.extractLsb' 0 40, mask := v.extractLsb' 40 10 } }) ∧
    (∀ k, (by' = true → s.miller.lock = true → exec (.pfSubstWrite k v by') s = .next s) ∧
      (let f : Fabric := { s.fab with subst := bankSet s.fab.subst k ⟨v.getLsbD 63, v.extractLsb' 16 10, v.extractLsb' 0 10⟩ }
       (by' = false ∨ s.miller.lock = false) → ownLabel f = ownLabel s.fab →
        ((∀ l : BitVec 10, servingPart f l.toNat = servingPart s.fab l.toNat) → exec (.pfSubstWrite k v by') s = .next { s with fab := f }) ∧
        (s.fab.stripes = [] → ∃ t, exec (.pfSubstWrite k v by') s = .next t ∧ t.fab.subst = f.subst ∧ t.mem = s.mem ∧ t.core = s.core ∧
          ∀ l : BitVec 10, let same := servingPart f l.toNat = servingPart s.fab l.toNat
            nextSeq t.fab l = (if same then nextSeq s.fab l else 0) ∧
            (∀ core copy, streamCount t.fab core l copy = if same then streamCount s.fab core l copy else 0) ∧
            (∀ q, decodedOf t.fab l q = if same then decodedOf s.fab l q else none)) ∧
        ∀ st, s.fab.stripes = [st] → st.left = true → isParity st.body = false → servingPart f st.dst.toNat ≠ servingPart s.fab st.dst.toNat →
          ∃ t, exec (.pfSubstWrite k v by') s = .next t ∧ t.fab.stripes = [] ∧ t.fab.loss = s.fab.loss ∧ nextSeq t.fab st.dst = 0 ∧
            t.fab.former = s.fab.former ++ [(BitVec.ofNat 10 (servingPart s.fab st.dst.toNat), st)] ∧ t.mem = s.mem ∧ t.core = s.core)) ∧
    (∀ part (dim : BitVec 4), let others := s.fab.down.filter fun e => !(e.1 == part && e.2 == dim)
      exec (.linkStateNotice part dim true ⟨false, none⟩) s = .next { s with fab := { s.fab with down := others } } ∧
      exec (.linkStateNotice part dim false ⟨false, none⟩) s = .next { s with fab := { s.fab with down := others ++ [(part, dim)] } })) ∧
  (∀ (s : State) (part : BitVec 10) (dim : BitVec 4) (st : StripeOut), s.fab.heldAt = [] → s.fab.heldAnswers = [] → s.fab.rx = [] →
    s.fab.sends = [] → s.sv.pending = [] → s.sv.en = false →
    (∀ e ∈ s.fab.former, e.1 ≠ part) → s.fab.stripes = [st] → st.body = .mgmt →
    (∀ l, servedLabel s.fab part = some l → servingPart s.fab l.toNat = part.toNat) ∧
    (servedLabel s.fab part = none → ∃ t, exec (.linkStateNotice part dim true ⟨true, none⟩) s = .next t ∧ t.fab.stripes = [st] ∧ t.mem = s.mem) ∧
    (servedLabel s.fab part = some st.dst →
      ∃ t, exec (.linkStateNotice part dim true ⟨true, none⟩) s = .next t ∧ t.fab.stripes = [] ∧ t.fab.loss = s.fab.loss + 1 ∧
        nextSeq t.fab st.dst = 0 ∧ (∀ l, l ≠ st.dst → nextSeq t.fab l = nextSeq s.fab l) ∧
        (∀ core copy, streamCount t.fab core st.dst copy = 0 ∧ (∀ l, l ≠ st.dst → streamCount t.fab core l copy = streamCount s.fab core l copy)) ∧
        (∀ i ∈ t.fab.ins, i.src ≠ st.dst) ∧ (∀ q, decodedOf t.fab st.dst q = none) ∧ topOf t.fab st.dst = none ∧
        (∀ l q, l ≠ st.dst → decodedOf t.fab l q = decodedOf s.fab l q) ∧ t.mem = s.mem ∧ t.core = s.core)) ∧
  (∀ (s : State) (d : BitVec 4) (st : StripeOut) (t0 : Nat), s.fab.stripes = [st] → s.fab.heldAt = [(st.dst, st.seq, t0)] →
    s.fab.sends = [] → s.fab.heldAnswers = [] →
    (∀ p, s.fab.port[d.toNat]? = some p →
      let f : Fabric := { s.fab with port := s.fab.port.setIfInBounds d.toNat { p with up := true } }
      let st' : StripeOut := { st with sentAt := s.time, left := true, m := if st.left then st.m else (bank f.rate st.cls).m.toNat }
      (Reaches f st →
        exec (.linkStateChange d true) s = .next { s with
          fab := { f with heldAt := [], stripes := [st'], sent := f.sent ++ fragmentsOf f st' st.resent } }) ∧
      (¬Reaches f st → exec (.linkStateChange d true) s = .next { s with fab := f })) ∧
    (s.time < t0 + 1000000 * s.sv.hold.toNat → exec (.holdExpiry st.dst) s = .next s) ∧
    (∀ u, st.body = .parity u → exec (.holdExpiry st.dst) s = .next s) ∧
    (t0 + 1000000 * s.sv.hold.toNat ≤ s.time →
      (st.body = .mgmt →
        exec (.holdExpiry st.dst) s = .next { s with
          fab := { s.fab with stripes := [], heldAt := [], loss := s.fab.loss + 1, mctl := (s.fab.mctl &&& 0x3FF) ||| (1#64 <<< 61) } }) ∧
      (∀ core copy n since fresh addr len job c id, st.body = .unit core copy n since (.load fresh) addr len job → st.acc = some (c, id) →
        exec (.holdExpiry st.dst) s = exec (.accessCompletion c id .lost) { s with
          fab := { s.fab with stripes := [], heldAt := [], loss := s.fab.loss + 1 } }) ∧
      (∀ l, l ≠ st.dst → exec (.holdExpiry l) s = .next s)))

/-- R426: any k distinct fragments of a stripe give back its data, bit for bit. -/
def Obligations.ErasureCode : Prop :=
  ∀ (k m : Nat) (data : List Byte) (idx : List Nat), k ∈ [1, 2, 4, 8] → m ≤ 4 → data.length ≤ 192 * k → idx.length = k → idx.Nodup →
    (∀ i ∈ idx, i < k + m) → decodeFragments k data.length (idx.map fun i => (i, fragmentBytes k i data)) = data

/-- R419 to R421, R423, R427, R428: a remote unit of one stripe that reaches this part. A fragment of a decoded stripe counts as late and its
answer is sent again; without a free buffer the fragment of a new stripe is dropped (that no number lies more than 2^31 behind is log 59).
A unit whose turn in its stream has come is checked, performed and answered; a store ahead of its turn waits, unanswered. R421, R431: a
release of a stream whose lost unit lies before it is never performed: it is answered as lost. -/
def Obligations.RemoteUnits : Prop :=
  (∀ (s : State) (fr : Fragment) (core : BitVec 8) (copy : Bool) (count since : BitVec 32) (kind : UnitKind) (addr len : Nat) (job : BitVec 16)
    (n : BitVec 32), fr.body = .unit core copy count since kind addr len job → fr.k = 1 → fr.index < 5 → fr.bytes.length = 192 → fr.len ≤ 192 →
    AnswerLeaves s.fab fr.src →
    let bytes := fr.bytes.take fr.len
    let answers (t : State) (a : StripeAck) : Prop := t.fab.sent = s.fab.sent ++ answerFragments s.fab fr.src fr.seq (.ack a)
    (∀ d, decodedOf s.fab fr.src fr.seq = some d →
      ∃ t, exec (.fragmentArrival fr) s = .next t ∧ t = { s with fab := { s.fab with late := s.fab.late + 1, sent := t.fab.sent } } ∧
        (∀ a, d.ack = some a → answers t a) ∧ (d.ack = none → t.fab.sent = s.fab.sent)) ∧
    (decodedOf s.fab fr.src fr.seq = none → (∀ b ∈ s.fab.bufs, ¬(b.src = fr.src ∧ b.seq = fr.seq)) →
      (512 ≤ buffersUsed s.fab → exec (.fragmentArrival fr) s = .next { s with fab := { s.fab with nobuf := s.fab.nobuf + 1 } }) ∧
      (buffersUsed s.fab < 512 → s.fab.ins = [⟨fr.src, core, copy, n, [], [], []⟩] → s.sv.en = false → s.sv.pending = [] → Canonical s →
        let allowed := (exportFor s (unitCounts kind) addr len job).isSome
        let performed (t : State) (r : Reply) : Prop :=
          exec (.fragmentArrival fr) s = .next t ∧ answers t (.performed r) ∧ decodedOf t.fab fr.src fr.seq = some ⟨fr.src, fr.seq, some (.performed r)⟩ ∧
          t.fab.ins = [⟨fr.src, core, copy, if unitCounts kind then n + 1 else n, [], [], []⟩] ∧ t.fab.bufs = s.fab.bufs ∧ t.core = s.core
        (unitCounts kind = true → count ≠ n →
          ∃ t, exec (.fragmentArrival fr) s = .next t ∧ t.fab.sent = s.fab.sent ∧ t.mem = s.mem ∧ t.core = s.core ∧
            decodedOf t.fab fr.src fr.seq = some ⟨fr.src, fr.seq, none⟩ ∧
            ∃ u, t.fab.ins = [⟨fr.src, core, copy, n, [], [u], []⟩] ∧ u.seq = fr.seq ∧ u.count = count ∧ u.bytes = bytes ∧ u.refused = !allowed) ∧
        ((if unitCounts kind then count = n else (n - count).toNat < 2 ^ 31) →
          (allowed = false → ∃ t, performed t .prot ∧ t.mem = s.mem) ∧
          (allowed = true →
            (∀ fresh, kind = .load fresh →
              (∀ pa, physSites s (.job job) false false addr len = (List.range len).map (fun i => Site.mem (pa + i)) →
                (∀ i, i < len → s.sv.deadLines.contains ((pa + i) / 64) = false ∧ s.poison.contains ((pa + i) / 64) = false) →
                  ∃ t, performed t (.data ((List.range len).map fun i => memGet s.mem (pa + i)) false) ∧ t.mem = s.mem)) ∧
            (∀ rel, kind = .store rel → bytes.length = len →
              (∀ pa, physSites s (.job job) true false addr len = (List.range len).map (fun i => Site.mem (pa + i)) →
                ∃ t, performed t .done ∧ (∀ i, i < len → memGet t.mem (pa + i) = bytes[i]?.getD 0) ∧
                  (∀ x, ¬(pa ≤ x ∧ x < pa + len) → memGet t.mem x = memGet s.mem x))) ∧
            (∀ op size cmp rel, kind = .amo op size cmp rel →
              (∀ pa, physSites s (.job job) true true addr size.bytes = (List.range size.bytes).map (fun i => Site.mem (pa + i)) →
                pa + size.bytes ≤ hostBase →
                (∀ i, i < size.bytes → s.sv.deadLines.contains ((pa + i) / 64) = false ∧ s.poison.contains ((pa + i) / 64) = false) →
                  let old := leNat ((List.range size.bytes).map fun i => memGet s.mem (pa + i))
                  ∃ t, performed t (.data (leBytes size.bytes old) false) ∧
                    (∀ i, i < size.bytes → memGet t.mem (pa + i) =
                      match amoNew op size.bytes (leNat bytes) cmp.toNat old with
                      | some new => (leBytes size.bytes new)[i]?.getD 0
                      | none => memGet s.mem (pa + i)) ∧
                    (∀ x, ¬(pa ≤ x ∧ x < pa + size.bytes) → memGet t.mem x = memGet s.mem x)))))))) ∧
  (∀ (s : State) (fr : Fragment) (core : BitVec 8) (copy : Bool) (count : BitVec 32) (addr len : Nat) (job : BitVec 16) (x : BitVec 32) (e : ExportEntry),
    fr.body = .unit core copy count 0 (.store true) addr len job → fr.k = 1 → fr.index < 5 → fr.bytes.length = 192 → fr.len ≤ 192 →
    decodedOf s.fab fr.src fr.seq = none → (∀ b ∈ s.fab.bufs, ¬(b.src = fr.src ∧ b.seq = fr.seq)) →
    buffersUsed s.fab < 512 → s.fab.ins = [⟨fr.src, core, copy, count, [x], [], []⟩] → x.toNat < count.toNat →
    exportFor s true addr len job = some e → e.order ≠ 2 → AnswerLeaves s.fab fr.src →
      ∃ t, exec (.fragmentArrival fr) s = .next t ∧ t.fab.sent = s.fab.sent ++ answerFragments s.fab fr.src fr.seq (.ack (.performed .lost)) ∧
        t.mem = s.mem)

/-- R427 to R431: the source of a stripe. Without an acknowledgement for 3 TMO, or when the target asks, it is sent again, once; 3 TMO after
that it is lost (rebuild traffic is then sent anew, R453), and a lost store is told to the target until that answers. An acknowledgement
brings the reply of a unit. R428 to R431: the target of a stripe. A buffer short of fragments TMO after the first one asks for a
retransmission, and is freed after a further TMO. A loss notice makes its unit count as performed without being performed, and is
acknowledged; the source repeats it until then. R429, R430, R452: a stripe that went to a part which another has replaced (log 93): its
acknowledgement ends it; when the old part asks, it is sent there again, once, over the paths between the physical labels. That a lost
management stripe clears BUSY with ERR is log 89, and that a lost block of a rebuild is sent anew log 65. -/
def Obligations.StripeRecovery : Prop :=
  (∀ (s : State) (st : StripeOut), s.fab.stripes = [st] → s.fab.heldAt = [] → s.fab.sends = [] → s.fab.former = [] → st.left = true →
    let limit := st.sentAt + 1500 * (bank s.fab.rate st.cls).tmo.toNat
    let again : State := { s with
      fab := { s.fab with
        retx := s.fab.retx + 1, stripes := [{ st with resent := true, sentAt := s.time }], sent := s.fab.sent ++ fragmentsOf s.fab st true } }
    let gone : State := { s with fab := { s.fab with stripes := [] } }
    let lost : State := { s with fab := { s.fab with stripes := [], loss := s.fab.loss + 1 } }
    let mctl (err : Bool) : Word := (s.fab.mctl &&& 0x3FF) ||| (if err then 1#64 <<< 61 else 0)
    (st.resent = true → exec (.senderRetransmission st.dst st.seq) s = .next s ∧ exec (.retransmissionRequest st.dst st.seq) s = .next s) ∧
    (s.time < limit → exec (.senderRetransmission st.dst st.seq) s = .next s ∧ exec (.stripeLoss st.dst st.seq) s = .next s) ∧
    (st.resent = false → Reaches s.fab st →
      exec (.retransmissionRequest st.dst st.seq) s = .next again ∧
      (limit ≤ s.time → isParity st.body = false → exec (.senderRetransmission st.dst st.seq) s = .next again)) ∧
    (st.resent = false → exec (.stripeLoss st.dst st.seq) s = .next s) ∧
    (∀ dst seq a, ¬(dst = st.dst ∧ seq = st.seq) → (∀ x, a ≠ .lossNoticed x) → exec (.stripeAcknowledgement dst seq a) s = .next s) ∧
    (st.body = .mgmt →
      (st.resent = true → limit ≤ s.time →
        exec (.stripeLoss st.dst st.seq) s = .next { lost with fab := { lost.fab with mctl := mctl true } }) ∧
      (∀ r, exec (.stripeAcknowledgement st.dst st.seq (.performed r)) s = .next { gone with fab := { gone.fab with mctl := mctl false } }) ∧
      exec (.stripeAcknowledgement st.dst st.seq .mgmtFull) s = .next { gone with fab := { gone.fab with mctl := mctl true } }) ∧
    (∀ range block off, st.body = .block range block off →
      (∀ x, exec (.stripeAcknowledgement st.dst st.seq (.performed x)) s = .next gone) ∧
      (st.resent = true → limit ≤ s.time → exec (.stripeLoss st.dst st.seq) s = .next (sendStripe st.dst st.cls st.body st.data none none lost))) ∧
    (∀ core copy n since kind addr len job c id, st.body = .unit core copy n since kind addr len job → st.acc = some (c, id) →
      (∀ r, exec (.stripeAcknowledgement st.dst st.seq (.performed r)) s = exec (.accessCompletion c id r) gone) ∧
      (st.resent = true → limit ≤ s.time →
        (unitCounts kind = false → exec (.stripeLoss st.dst st.seq) s = exec (.accessCompletion c id .lost) lost) ∧
        (unitCounts kind = true → AnswerLeaves s.fab st.dst →
          exec (.stripeLoss st.dst st.seq) s = exec (.accessCompletion c id .lost) { lost with
            fab := { lost.fab with
              notices := s.fab.notices ++ [(st.dst, st.seq, .unit core copy n)]
              sent := s.fab.sent ++ answerFragments s.fab st.dst st.seq (.lossNotice (.unit core copy n)) } })))) ∧
  (∀ (s : State) (b : DecodeBuf) (i : StreamIn) (c : BitVec 32) (dst : BitVec 10) (seq : BitVec 32) (x : LostItem), s.fab.bufs = [b] → s.fab.ins = [i] →
    let tmo := 500 * (bank s.fab.rate b.cls).tmo.toNat
    ((b.asked = true ∨ b.k ≤ b.frags.length ∨ s.time < b.first + tmo) → exec (.receiverTimeout b.src b.seq) s = .next s) ∧
    (b.asked = false → b.frags.length < b.k → b.first + tmo ≤ s.time → AnswerLeaves s.fab b.src →
      exec (.receiverTimeout b.src b.seq) s = .next { s with
        fab := { s.fab with bufs := [{ b with asked := true }], sent := s.fab.sent ++ answerFragments s.fab b.src b.seq .resendRequest } }) ∧
    ((b.asked = false ∨ b.k ≤ b.frags.length ∨ s.time < b.first + 2 * tmo) → exec (.decodeBufferFree b.src b.seq) s = .next s) ∧
    (b.asked = true → b.frags.length < b.k → b.first + 2 * tmo ≤ s.time →
      exec (.decodeBufferFree b.src b.seq) s = .next { s with fab := { s.fab with bufs := [] } }) ∧
    (i.waiting = [] → i.noticed = [] → i.count = c → AnswerLeaves s.fab i.src →
      exec (.lossNotice i.src seq (.unit i.core i.copy) c.toNat) s = .next { s with
        fab := { s.fab with
          ins := [{ i with count := c + 1, lost := i.lost ++ [c] }]
          sent := s.fab.sent ++ answerFragments s.fab i.src seq (.ack (.lossNoticed (.unit i.core i.copy c))) } }) ∧
    (∀ kind number, x = kind.item number →
      (s.fab.notices.contains (dst, seq, x) = true → AnswerLeaves s.fab dst →
        exec (.lossNoticeRepeat dst seq kind number) s = .next { s with
          fab := { s.fab with sent := s.fab.sent ++ answerFragments s.fab dst seq (.lossNotice x) } }) ∧
      (s.fab.notices.contains (dst, seq, x) = false → exec (.lossNoticeRepeat dst seq kind number) s = .next s)) ∧
    exec (.stripeAcknowledgement dst seq (.lossNoticed x)) s = .next { s with
      fab := { s.fab with notices := s.fab.notices.filter (fun n => n ≠ (dst, seq, x)) } }) ∧
  (∀ (s : State) (part : BitVec 10) (st : StripeOut), s.fab.stripes = [] → s.fab.heldAt = [] → s.fab.sends = [] → s.fab.former = [(part, st)] →
    st.body = .mgmt →
    let f := s.fab
    let paths := (partPaths f part.toNat).length
    (∀ r, exec (.stripeAcknowledgement st.dst st.seq (.performed r)) s = .next { s with fab := { f with former := [], mctl := f.mctl &&& 0x3FF } }) ∧
    (st.resent = true → exec (.retransmissionRequest st.dst st.seq) s = .next s) ∧
    (st.resent = false → paths = 0 → exec (.retransmissionRequest st.dst st.seq) s = .next s) ∧
    (st.resent = false → paths ≠ 0 → exec (.retransmissionRequest st.dst st.seq) s = .next { s with
      fab := { f with
        retx := f.retx + 1, former := [(part, { st with resent := true, sentAt := s.time })]
        sent := f.sent ++ (List.range (st.k + st.m)).map fun i =>
          FabOut.toPart part ((i + st.seq.toNat + st.k + st.m) % paths)
            ⟨BitVec.ofNat 10 (ownLabel f), st.seq, st.cls, st.k, st.m, i, st.len, st.body, fragmentBytes st.k i st.data⟩ } }))

/-- R427, R434, R435: a posted message leaves as stripes of its class; refused, it leaves again 10 µs later. R427, R430, R434, R435: what the
answers to a message's stripes do: the last acknowledgement, or a failure, writes the sender's STATUS (LOSS for a lost stripe); a refusal
counts, and the 64th ends the message with NOMATCH. That a refused message is cut anew, with a new sequence number, when it leaves again
is log 58. -/
def Obligations.MessageSending : Prop :=
  (∀ (s : State) (m : MsgSend), s.fab.sends = [m] → m.ended = none → 1 ≤ m.len →
    let r := bank s.fab.rate m.cls
    let q := nextSeq s.fab m.dest
    m.len ≤ 192 * 2 ^ r.k.toNat → m.acked = [] →
    ∀ pa, virtSites s m.launch false false false m.laddr m.len = (List.range m.len).map (fun i => Site.mem (pa + i)) →
      (∀ i, i < m.len → s.sv.deadLines.contains ((pa + i) / 64) = false ∧ s.poison.contains ((pa + i) / 64) = false) →
      (∀ x ∈ s.fab.stripes, ¬(x.dst = m.dest ∧ x.seq = q)) →
      let st : StripeOut := ⟨true, m.dest, q, m.cls, 2 ^ r.k.toNat, r.m.toNat,
        .msg m.id m.mbox m.len 0 (bank s.fab.fjob (launchFn s m.launch)), (List.range m.len).map (fun i => memGet s.mem (pa + i)), m.len, s.time,
        false, none, some m.id⟩
      let left (t : State) : Prop := t.fab.sends = [{ m with piece := 192 * 2 ^ r.k.toNat, refusedAt := none }] ∧
        nextSeq t.fab m.dest = q + 1 ∧ (∀ l, l ≠ m.dest → nextSeq t.fab l = nextSeq s.fab l) ∧
        (Reaches s.fab st → t.fab.stripes = s.fab.stripes ++ [st] ∧ t.fab.sent = s.fab.sent ++ fragmentsOf s.fab st false) ∧
        (¬Reaches s.fab st → t.fab.stripes = s.fab.stripes ++ [{ st with left := false }] ∧ t.fab.sent = s.fab.sent ∧
          (m.dest, q) ∈ t.fab.heldAt.map (fun h => (h.1, h.2.1))) ∧ t.mem = s.mem ∧ t.core = s.core
      (m.piece = 0 → ∃ t, exec .messageEngineSend s = .next t ∧ left t) ∧
      (m.piece ≠ 0 → exec .messageEngineSend s = .next s) ∧
      (∀ t0, m.refusedAt = some t0 →
        (s.time < t0 + 10000 → exec (.messageRefusalRetry m.id) s = .next s) ∧
        (t0 + 10000 ≤ s.time → ∃ t, exec (.messageRefusalRetry m.id) s = .next t ∧ left t))) ∧
  (∀ (s : State) (m : MsgSend) (st : StripeOut) (mbox : BitVec 12) (job : BitVec 16), s.fab.sends = [m] → s.fab.stripes = [st] → m.ended = none →
    st.body = .msg m.id mbox m.len 0 job → st.msg = some m.id → s.fab.former = [] → s.core.slot = some m.slot → (∀ e ∈ s.parked, e.2.slot ≠ some m.slot) →
    m.piece ≠ 0 → 1 ≤ m.len → m.len ≤ m.piece → m.acked = [] → s.sv.en = false → Canonical s → s.core.ndur = none →
    ∀ pa, strandSites s true false (m.record + 24) 8 = (List.range 8).map (fun i => Site.mem (pa + i)) →
      let endsAt (i : Instr) (code : Nat) : Prop :=
        ∃ t, exec i s = .next t ∧ t.fab.sends = [] ∧ t.fab.stripes = [] ∧
          leNat ((List.range 8).map fun i => memGet t.mem (pa + i)) = 2 ^ 63 + code * 2 ^ 48 ∧
          (∀ x, ¬(pa ≤ x ∧ x < pa + 8) → memGet t.mem x = memGet s.mem x) ∧ t.core.s = s.core.s
      let ends (a : StripeAck) (code : Nat) : Prop := endsAt (.stripeAcknowledgement st.dst st.seq a) code
      (st.resent = true → s.fab.heldAt = [] → st.sentAt + 1500 * (bank s.fab.rate st.cls).tmo.toNat ≤ s.time → endsAt (.stripeLoss st.dst st.seq) 4) ∧
      (∀ r, ends (.performed r) 0) ∧ (∀ code : BitVec 8, ends (.msgEnded code) code.toNat) ∧
      (m.refusals < 63 →
        exec (.stripeAcknowledgement st.dst st.seq .msgRefused) s = .next { s with
          fab := { s.fab with
            stripes := [], heldAt := s.fab.heldAt.filter (fun h => !(h.1 == st.dst && h.2.1 == st.seq))
            sends := [{ m with refusals := m.refusals + 1, refusedAt := some s.time }] } }) ∧
      (63 ≤ m.refusals → ends .msgRefused 1))

/-- R428, R433, R435: a message of one fragment arrives: it is refused without a record in its mailbox, ends with REMOTEPROT where the jobs
differ and with TOOBIG where the record's buffer is short; else its bytes are placed and the receiver's STATUS is written. R437: a write
to pf.mctl: ignored while BUSY; with GO the message leaves as one stripe of class 0, and BUSY is set. A message that arrives lands in the
next entry of the ring in the Miller's memory, or is refused while that entry is valid. Which of the refusals answers where several apply
is log 75. -/
def Obligations.MessageArrival : Prop :=
  (∀ (s : State) (fr : Fragment) (id : Nat) (mbox : BitVec 12) (job : BitVec 16) (len : Nat), fr.body = .msg id mbox len 0 job → fr.k = 1 → fr.index < 5 →
    fr.bytes.length = 192 → fr.len = len → 1 ≤ len → len ≤ 192 → decodedOf s.fab fr.src fr.seq = none →
    AnswerLeaves s.fab fr.src →
    (∀ b ∈ s.fab.bufs, ¬(b.src = fr.src ∧ b.seq = fr.seq)) → s.fab.rx = [] → buffersUsed s.fab < 512 → s.sv.en = false → s.sv.pending = [] →
    Canonical s →
    let answers (t : State) (a : StripeAck) : Prop := t.fab.sent = s.fab.sent ++ answerFragments s.fab fr.src fr.seq (.ack a)
    let status (t : State) (ps : Nat) (code : Nat) : Prop :=
      leNat ((List.range 8).map fun i => memGet t.mem (ps + i)) = 2 ^ 63 + code * 2 ^ 48 + fr.src.toNat * 2 ^ 32 + len
    ((∀ r ∈ s.fab.recvs, r.mbox ≠ mbox) →
      ∃ t, exec (.fragmentArrival fr) s = .next t ∧ answers t .msgRefused ∧ t = { s with fab := { s.fab with sent := t.fab.sent } }) ∧
    (∀ pre r post, s.fab.recvs = pre ++ r :: post → (∀ x ∈ pre, x.mbox ≠ mbox) → r.mbox = mbox →
      (bank s.fab.fjob (mbox.extractLsb' 6 6) ≠ job →
        ∃ t, exec (.fragmentArrival fr) s = .next t ∧ answers t (.msgEnded 3) ∧ t = { s with fab := { s.fab with sent := t.fab.sent } }) ∧
      (bank s.fab.fjob (mbox.extractLsb' 6 6) = job →
        ∀ ps, virtSites s r.launch false true false (r.record + 24) 8 = (List.range 8).map (fun i => Site.mem (ps + i)) →
          (r.cap < len →
            ∃ t, exec (.fragmentArrival fr) s = .next t ∧ answers t (.msgEnded 2) ∧ t.fab.recvs = pre ++ post ∧ status t ps 2 ∧
              ∀ x, ¬(ps ≤ x ∧ x < ps + 8) → memGet t.mem x = memGet s.mem x) ∧
          (len ≤ r.cap →
            ∀ pb, virtSites s r.launch false true false r.buf len = (List.range len).map (fun i => Site.mem (pb + i)) →
              (pb + len ≤ ps ∨ ps + 8 ≤ pb) →
                ∃ t, exec (.fragmentArrival fr) s = .next t ∧ answers t (.performed .done) ∧ t.fab.recvs = pre ++ post ∧ status t ps 0 ∧
                  (∀ i, i < len → memGet t.mem (pb + i) = fr.bytes[i]?.getD 0) ∧
                  ∀ x, ¬(ps ≤ x ∧ x < ps + 8) → ¬(pb ≤ x ∧ x < pb + len) → memGet t.mem x = memGet s.mem x)))) ∧
  (∀ (s : State) (v : Word) (src : BitVec 10) (bytes : List Byte), Memory.wf s.miller.tcm = true →
    (s.fab.mctl.getLsbD 62 = true → exec (.managementMessageSend v) s = .next s) ∧
    (s.fab.mctl.getLsbD 62 = false → v.getLsbD 63 = false →
      ∃ t, exec (.managementMessageSend v) s = .next t ∧ t.fab.mctl.extractLsb' 0 10 = v.extractLsb' 0 10 ∧
        t.fab.mctl.extractLsb' 10 54 = s.fab.mctl.extractLsb' 10 54 ∧ t = { s with fab := { s.fab with mctl := t.fab.mctl } }) ∧
    (s.fab.mctl.getLsbD 62 = false → v.getLsbD 63 = true →
      let dst := v.extractLsb' 0 10
      let r := bank s.fab.rate 0
      let st : StripeOut := ⟨true, dst, nextSeq s.fab dst, 0, 2 ^ r.k.toNat, r.m.toNat, .mgmt, leBytes 192 s.fab.mgmt.toNat, 192, s.time, false,
        none, none⟩
      (∀ x ∈ s.fab.stripes, ¬(x.dst = dst ∧ x.seq = nextSeq s.fab dst)) →
      ∃ t, exec (.managementMessageSend v) s = .next t ∧ t.fab.mctl.extractLsb' 0 10 = dst ∧ t.fab.mctl.getLsbD 62 = true ∧
        (Reaches s.fab st → t.fab.stripes = s.fab.stripes ++ [st] ∧ t.fab.sent = s.fab.sent ++ fragmentsOf s.fab st false) ∧
        nextSeq t.fab dst = nextSeq s.fab dst + 1 ∧ t.mem = s.mem ∧ t.core = s.core) ∧
    (let base := (s.fab.mrx.extractLsb' 8 10).toNat * 256 + s.fab.mgmtNext * 256
     (memGet s.miller.tcm (base + 255) ≠ 0 → exec (.managementMessageArrival src bytes) s = .next s) ∧
     (memGet s.miller.tcm (base + 255) = 0 → bytes.length ≤ 192 →
       ∃ t, exec (.managementMessageArrival src bytes) s = .next t ∧ (∀ i, i < 192 → memGet t.miller.tcm (base + i) = bytes[i]?.getD 0) ∧
         leNat [memGet t.miller.tcm (base + 192), memGet t.miller.tcm (base + 193)] = src.toNat ∧ memGet t.miller.tcm (base + 255) = 1 ∧
         (∀ x, ¬(base ≤ x ∧ x < base + 256) → memGet t.miller.tcm x = memGet s.miller.tcm x) ∧
         t.fab.mgmtNext = (s.fab.mgmtNext + 1) % 32 ∧ t.mem = s.mem ∧ t.core = s.core)))

/-- R440, R441, R444, R445: a write of the host to a protected data block of this member: the bytes are written, and each parity holder in
service gets one update, as a stripe of class 0: P the difference of old and new, Q that times 2^i; a write that no holder keeps counts in
NDUR. R440, R444, R446: PARITY_UPDATE. an update at its holder: applied once, acknowledged each time; one that does not lie in the range
is refused and counted. R445 to R447: PARITY_ACKNOWLEDGEMENT and PARITY_RESEND. an update at its owner. Its acknowledgement settles it,
and what waited for the write goes on; a refusal makes the store not durable, for its strand, its copy unit and what waits. Without an
answer it leaves again every 3 TMO, without end. Duplicates known by label and number are log 66, which members are in service log 64, and
the refusal by a holder whose EN is 0 log 110. -/
def Obligations.ParityUpdates : Prop :=
  (∀ (s : State) (a : BitVec 48) (bs : List Byte) (r : Bool) (block off : Nat), Canonical s → s.sv.en = true → s.hostWait = [] →
    svDataBlock s.sv a.toNat = some (r, block, off) → bs ≠ [] → a.toNat % 128 + bs.length ≤ 128 →
    physSites s .part true false a.toNat bs.length = (List.range bs.length).map (fun i => Site.mem (a.toNat + i)) → a.toNat + bs.length ≤ vaultEnd →
      let g := ownLabel s.fab % 8
      let i := block % 6
      let j := 8 * (block / 6) + (g + 1 + i) % 8
      let n := (if r then s.sv.n1 else s.sv.n0).toNat
      let old := (List.range bs.length).map fun x => memGet s.mem (a.toNat + x)
      let delta := (List.range bs.length).map fun x => (old[x]?.getD 0) ^^^ (bs[x]?.getD 0)
      let member (m : Nat) : BitVec 10 := BitVec.ofNat 10 (ownLabel s.fab / 8 * 8 + m % 8)
      let inService (m : Nat) : Bool := s.sv.enabled.getLsbD (m % 8) && !s.sv.lost.getLsbD (m % 8)
      let rate := bank s.fab.rate 0
      let stripe (m : Nat) (u : ParityUpd) : StripeOut :=
        ⟨true, member m, nextSeq s.fab (member m), 0, 2 ^ rate.k.toNat, rate.m.toNat, .parity u, u.bytes, u.bytes.length, s.time, false, none, none⟩
      let p := if inService j then [stripe j ⟨r, 6 * n + 2 * (j / 8), off, delta⟩] else []
      let q := if inService (j + 1) then [stripe (j + 1) ⟨r, 6 * n + 2 * (j / 8) + 1, off, gfScale (gfPow 2 i) delta⟩] else []
      (∀ x ∈ p ++ q, Reaches s.fab x) → (∀ x ∈ s.fab.stripes, ∀ y ∈ p ++ q, ¬(x.dst = y.dst ∧ x.seq = y.seq)) →
      ∃ t, exec (.hostAccess (.memWrite a bs)) s = .next t ∧ t.fab.stripes = s.fab.stripes ++ p ++ q ∧
        t.fab.sent = s.fab.sent ++ (p ++ q).flatMap (fun x => fragmentsOf s.fab x false) ∧
        (∀ x, x < bs.length → memGet t.mem (a.toNat + x) = bs[x]?.getD 0) ∧
        (∀ x, ¬(a.toNat ≤ x ∧ x < a.toNat + bs.length) → memGet t.mem x = memGet s.mem x) ∧
        t.sv.upd = s.sv.upd + BitVec.ofNat 32 (p.length + q.length) ∧ t.sv.pending.length = s.sv.pending.length + p.length + q.length ∧
        t.sv.ndur = (if inService j || inService (j + 1) then s.sv.ndur else s.sv.ndur + 1) ∧ t.core = s.core) ∧
  (∀ (s : State) (src : BitVec 10) (seq : BitVec 32) (u : ParityUpd), Canonical s → AnswerLeaves s.fab src →
    let n := (if u.range then s.sv.n1 else s.sv.n0).toNat
    let base := (if u.range then s.sv.base1 else s.sv.base0).toNat
    let at_ := base + 4096 * u.block + u.off
    let answers (t : State) (a : StripeAck) : Prop :=
      t.fab.sent = s.fab.sent ++ answerFragments s.fab src seq (.ack a) ∧ decodedOf t.fab src seq = some ⟨src, seq, some a⟩
    let known := s.sv.applied.contains (src, seq)
    (known = true → ∃ t, exec (.parityUpdate src seq u) s = .next t ∧ answers t (.performed .done) ∧ t = { s with fab := t.fab }) ∧
    (known = false →
      ((s.sv.en = false ∨ 8 * n ≤ u.block ∨ 4096 < u.off + u.bytes.length) →
        ∃ t, exec (.parityUpdate src seq u) s = .next t ∧ answers t .parityRefused ∧ t = { s with fab := t.fab, sv := { s.sv with err := s.sv.err + 1 } }) ∧
      (s.sv.en = true → u.block < 8 * n → u.off + u.bytes.length ≤ 4096 →
        ∃ t, exec (.parityUpdate src seq u) s = .next t ∧ answers t (.performed .done) ∧ t.sv = { s.sv with applied := t.sv.applied } ∧
          t.sv.applied.contains (src, seq) = true ∧
          (∀ i, i < u.bytes.length → memGet t.mem (at_ + i) = memGet s.mem (at_ + i) ^^^ u.bytes[i]?.getD 0) ∧
          (∀ x, ¬(at_ ≤ x ∧ x < at_ + u.bytes.length) → memGet t.mem x = memGet s.mem x) ∧ t.core = s.core))) ∧
  ((∀ (s : State) (p : ParityOut), s.sv.pending = [p] → p.unkept = false → s.sv.asked = [] → s.fab.stripes = [] →
    s.fab.former = [] → s.fab.heldAt = [] →
    let settled : State := { s with sv := { s.sv with pending := [] } }
    let unkept : State := { settled with sv := { settled.sv with ndur := s.sv.ndur + 1 } }
    (s.sv.after = [] → exec (.parityAcknowledgement p.dst p.seq false) s = .next settled) ∧
    (s.sv.after = [] → p.writer = none → exec (.parityAcknowledgement p.dst p.seq true) s = .next unkept) ∧
    (∀ slot copy, s.sv.after = [] → p.writer = some ⟨slot, copy⟩ → s.core.slot = some slot → (∀ e ∈ s.parked, e.2.slot ≠ some slot) →
      (copy = false → s.core.ndur = none →
        exec (.parityAcknowledgement p.dst p.seq true) s = .next { unkept with core := { s.core with ndur := some p.va } }) ∧
      (copy = true → s.core.copyTrap = none →
        exec (.parityAcknowledgement p.dst p.seq true) s = .next { unkept with
          core := { s.core with copyTrap := some (.copy, BitVec.ofNat 64 (2 + p.va.toNat % 2 ^ 56 * 256)) } })) ∧
    (∀ src q, s.sv.after = [([p.group], .unitReply src q .done)] → AnswerLeaves s.fab src →
      (∃ t, exec (.parityAcknowledgement p.dst p.seq false) s = .next t ∧
        t.fab.sent = s.fab.sent ++ answerFragments s.fab src q (.ack (.performed .done)) ∧
        t.sv.pending = [] ∧ t.sv.after = [] ∧ t.sv.ndur = s.sv.ndur ∧ t.mem = s.mem ∧ t.core = s.core) ∧
      (p.writer = none →
        ∃ t, exec (.parityAcknowledgement p.dst p.seq true) s = .next t ∧
          t.fab.sent = s.fab.sent ++ answerFragments s.fab src q (.ack (.performed .doneNotDurable)) ∧
          t.sv.pending = [] ∧ t.sv.after = [] ∧ t.sv.ndur = s.sv.ndur + 1 ∧ t.mem = s.mem ∧ t.core = s.core)) ∧
    (∀ dst seq refused, ¬(dst = p.dst ∧ seq = p.seq) → exec (.parityAcknowledgement dst seq refused) s = .next s)) ∧
  ∀ (s : State) (st : StripeOut) (u : ParityUpd), s.fab.stripes = [st] → s.fab.heldAt = [] → st.body = .parity u → st.left = true →
    let limit := st.sentAt + 1500 * (bank s.fab.rate st.cls).tmo.toNat
    (s.time < limit → exec (.parityResend st.dst st.seq) s = .next s) ∧
    (limit ≤ s.time → Reaches s.fab st →
      exec (.parityResend st.dst st.seq) s = .next { s with
        fab := { s.fab with
          retx := s.fab.retx + 1, stripes := [{ st with resent := true, sentAt := s.time }], sent := s.fab.sent ++ fragmentsOf s.fab st true } }))

/-- R445, R449, R450: MEMBER_LOSS. the loss of a member that no path has reached for 20 µs: its LOST bit is set; with one or two members lost
the group is DEGRADED, with more FAILED; an update that waits for it needs it no more, and a store whose stripe has no other holder in
service is not durable. A member is in service only where its sv.cfg.EN is known to be 1. R453, R454: STRIPE_FREEZE. a data owner that is
asked to freeze a stripe answers, with a stripe of rebuild traffic, once its updates of the stripe are settled; a write to the frozen
stripe waits; a release thaws it, and with the last of its stripes the substitute is a member again. R443, R455: SV_CFG_WRITE. a write to
sv.cfg: EN is taken only where a range holds something and each lies in its kind of memory, and is withdrawn only while no frame of a
PROTECTED extent is in use. That the members know each other by notices is log 64, and the states of the stripes and of the rebuild log
65. -/
def Obligations.ProtectionGroup : Prop :=
  (∀ (s : State) (g : BitVec 3), s.evring.en = false → s.sv.after = [] → s.sv.asked = [] → s.fab.stripes = [] → s.fab.heldAt = [] →
    s.fab.heldAnswers = [] → s.fab.sends = [] → s.fab.former = [] →
    (∀ part dim on l, servedLabel s.fab part = some l → l.toNat / 8 = ownLabel s.fab / 8 →
      let m := l.toNat % 8
      (∀ p ∈ s.sv.pending, p.dst.toNat % 8 ≠ m) → (∀ b ∈ s.sv.reads, b.member ≠ m) →
        ∃ t, exec (.linkStateNotice part dim true ⟨false, some on⟩) s = .next t ∧
          t = { s with fab := { s.fab with down := t.fab.down }, sv := { s.sv with enabled := t.sv.enabled } } ∧
          ∀ i, i < 8 → t.sv.enabled.getLsbD i = if i = m then on else s.sv.enabled.getLsbD i) ∧
    let lost := s.sv.lost ||| (1#8 <<< g.toNat)
    let many := ((List.range 8).filter fun i => lost.getLsbD i).length
    let state := if many ≤ 2 then SvState.degraded else .failed
    let reads := s.sv.reads.filter fun b => b.member != g.toNat
    let cut := ∃ c ∈ s.sv.cut, c.1 = g.toNat ∧ c.2 + 20000 ≤ s.time
    ((¬cut ∨ s.sv.en = false ∨ s.sv.lost.getLsbD g.toNat = true ∨ g.toNat = ownLabel s.fab % 8) → exec (.memberLoss g) s = .next s) ∧
    (cut → s.sv.en = true → s.sv.lost.getLsbD g.toNat = false → g.toNat ≠ ownLabel s.fab % 8 →
      ((∀ p ∈ s.sv.pending, p.dst.toNat % 8 ≠ g.toNat) →
        exec (.memberLoss g) s = .next { s with sv := { s.sv with lost := lost, state := state, reads := reads } }) ∧
      (∀ p, s.sv.pending = [p] → p.unkept = false → p.writer = none → p.dst.toNat % 8 = g.toNat →
        let j := (p.stripe s.sv).2
        let serves (i : Nat) : Bool := s.sv.enabled.getLsbD (i % 8) && !lost.getLsbD (i % 8)
        let kept := serves j || serves (j + 1)
        exec (.memberLoss g) s = .next { s with
          sv := { s.sv with lost := lost, state := state, reads := reads, pending := [], ndur := if kept then s.sv.ndur else s.sv.ndur + 1 } }))) ∧
  (∀ (s : State) (r : Bool) (j : Nat) (sub : BitVec 10), s.sv.asked = [] →
    (s.sv.en = false → ∀ release, exec (.stripeFreeze r j sub release) s = .next s) ∧
    (s.sv.en = true → s.sv.frozen.contains (r, j) = false →
      exec (.stripeFreeze r j sub true) s = .next s ∧
      ((∀ p ∈ s.sv.pending, p.stripe s.sv ≠ (r, j)) →
        let rate := bank s.fab.rate 7
        let st : StripeOut := ⟨true, sub, nextSeq s.fab sub, 7, 2 ^ rate.k.toNat, rate.m.toNat, .frozen r j, [], 0, s.time, false, none, none⟩
        Reaches s.fab st → (∀ x ∈ s.fab.stripes, ¬(x.dst = sub ∧ x.seq = nextSeq s.fab sub)) →
        ∃ t, exec (.stripeFreeze r j sub false) s = .next t ∧
          t = { s with sv := { s.sv with frozen := s.sv.frozen ++ [(r, j)] }, fab := t.fab } ∧
          t.fab.stripes = s.fab.stripes ++ [st] ∧ t.fab.sent = s.fab.sent ++ fragmentsOf s.fab st false) ∧
      ((∃ p ∈ s.sv.pending, p.stripe s.sv = (r, j)) →
        exec (.stripeFreeze r j sub false) s = .next { s with
          sv := { s.sv with frozen := s.sv.frozen ++ [(r, j)], asked := [(r, j, sub)] } })) ∧
    (s.sv.en = true → s.sv.frozen = [(r, j)] → s.sv.freed.contains (sub, r, j) = false →
      let mine := s.sv.freed.filter fun x => x.1 == sub
      (mine.length + 1 ≠ 6 * (s.sv.n0.toNat + s.sv.n1.toNat) →
        exec (.stripeFreeze r j sub true) s = .next { s with sv := { s.sv with frozen := [], freed := s.sv.freed ++ [(sub, r, j)] } }) ∧
      (mine.length + 1 = 6 * (s.sv.n0.toNat + s.sv.n1.toNat) →
        ∃ t, exec (.stripeFreeze r j sub true) s = .next t ∧ t.sv.frozen = [] ∧ t.sv.freed = s.sv.freed.filter (fun x => x.1 != sub) ∧
          t.sv.lost = s.sv.lost &&& ~~~(1#8 <<< (sub.toNat % 8)) ∧ (t.sv.lost = 0 → t.sv.state = .normal) ∧ t = { s with sv := t.sv })) ∧
    (∀ a block off, s.sv.en = true → s.sv.rebuild = false → ungranted s a = false → columnFailed s a = false → columnBusy s a = false →
      svDataBlock s.sv a = some (r, block, off) → (svStripe (svMember s.fab) block).1 = j → s.sv.frozen.contains (r, j) = true →
        memSite s true a = .busy ∧ memSite s false a = .mem a)) ∧
  (∀ (s : State) (v : Word),
    let r := s.sv
    let fits := (r.n0 ≠ 0 ∨ r.n1 ≠ 0) ∧ (r.n0 = 0 ∨ r.base0.toNat + 32768 * r.n0.toNat ≤ vaultBase) ∧
      (r.n1 = 0 ∨ (vaultBase ≤ r.base1.toNat ∧ r.base1.toNat + 32768 * r.n1.toNat ≤ vaultEnd))
    (v.getLsbD 0 = r.en → exec (.svCfgWrite v) s = .next s) ∧
    (v.getLsbD 0 = true → r.en = false →
      (fits → exec (.svCfgWrite v) s = .next { s with sv := { r with en := true, lost := 0, state := .normal } }) ∧
      (¬fits → exec (.svCfgWrite v) s = .next s)) ∧
    (v.getLsbD 0 = false → r.en = true →
      let inUse := ∃ b ∈ s.backings, b.pages ≠ [] ∧
        (b.prot = true ∨ ∃ l ∈ s.launches, ∃ e ∈ l.exts, e.back = b.id ∧ attrProt e.attr = true)
      (inUse → exec (.svCfgWrite v) s = .next s) ∧
      (¬inUse → exec (.svCfgWrite v) s = .next { s with sv := { r with en := false, lost := 0, state := .off } })))

/-- R450, R453, R454: a rebuild begins with the freeze of its first stripes, 64 at most, which is asked of their data owners in service; a
stripe that they have not all frozen waits; from any six blocks of a stripe the substitute's own block is written as it was, whatever its
role; with fewer the block's lines are lost. R450, R453, R454: a member that a substitute asks for its block of a stripe gives its bytes,
in stripes of rebuild traffic, or answers that it has none: where its Selvedge is off, where its range holds no such stripe, where it is
to rebuild the block itself, or where a line of the block is lost. A piece that comes back joins the read that the substitute has open
with that member. (One-fragment stripes; how the blocks are asked for is log 109.) The traffic and states of the rebuild are log 65. -/
def Obligations.Rebuild : Prop :=
  (∀ (s : State) (r : Bool) (j : Nat) (ds : List (List Byte)) (roles : List Nat), Canonical s →
    let v := s.sv
    let role := (j + 15 - ownLabel s.fab % 8) % 8
    let n := (if r then v.n1 else v.n0).toNat
    let base := (if r then v.base1 else v.base0).toNat
    let at_ := base + 4096 * (if role < 6 then 6 * (j / 8) + role else if role = 7 then 6 * n + 2 * (j / 8) else 6 * n + 2 * (j / 8) + 1)
    ((v.en = false ∨ v.rebuild = true) → exec .rebuild s = .next s) ∧
    (v.en = true → v.rebuild = false →
      ∃ t, exec .rebuild s = .next t ∧ t.sv.rebuild = true ∧ t.sv.doneCount = 0 ∧ t.sv.rebuilt = [] ∧ t.mem = s.mem ∧ t.core = s.core ∧
        t.sv.freezing = ((List.range (8 * v.n0.toNat)).map (fun j => (false, j)) ++ (List.range (8 * v.n1.toNat)).map fun j => (true, j)).take 64 ∧
        ∀ x ∈ t.sv.freezing, ∀ g, g < 8 → g ≠ ownLabel s.fab % 8 → v.enabled.getLsbD g = true → v.lost.getLsbD g = false → (x.2 + 15 - g) % 8 < 6 →
          ∃ st ∈ t.fab.stripes, st.dst = BitVec.ofNat 10 (ownLabel s.fab / 8 * 8 + g) ∧ st.body = .freeze x.1 x.2 false) ∧
    ((v.rebuild = false ∨ v.rebuilt.contains (r, j) = true ∨ allFroze s (r, j) = false) → ∀ blocks, exec (.stripeRebuild r j blocks) s = .next s) ∧
    (v.rebuild = true → v.rebuilt.contains (r, j) = false → (openStripes v).contains (r, j) = true → allFroze s (r, j) = true →
      (ds.length = 6 → (∀ d ∈ ds, d.length = 4096) → roles.length = 6 → roles.Nodup → (∀ x ∈ roles, x < 8 ∧ x ≠ role) →
        ∃ t, exec (.stripeRebuild r j (roles.map fun x => (x, stripeBlock ds x))) s = .next t ∧
          (∀ i, i < 4096 → memGet t.mem (at_ + i) = (stripeBlock ds role)[i]?.getD 0) ∧
          (∀ x, ¬(at_ ≤ x ∧ x < at_ + 4096) → memGet t.mem x = memGet s.mem x) ∧ t.sv.doneCount = v.doneCount + 1 ∧ t.core = s.core) ∧
      (∀ blocks : List (Nat × List Byte), blocks.length < 6 →
        ∃ t, exec (.stripeRebuild r j blocks) s = .next t ∧ t.sv.deadLines = v.deadLines ++ (List.range 64).map (fun i => at_ / 64 + i) ∧
          t.sv.doneCount = v.doneCount + 1 ∧ t.mem = s.mem ∧ t.core = s.core))) ∧
  (∀ (s : State) (fr : Fragment) (r : Bool) (j : Nat), fr.k = 1 → fr.index < 5 → fr.bytes.length = 192 → fr.len ≤ 192 → AnswerLeaves s.fab fr.src →
    decodedOf s.fab fr.src fr.seq = none → (∀ b ∈ s.fab.bufs, ¬(b.src = fr.src ∧ b.seq = fr.seq)) → buffersUsed s.fab < 512 →
    (∀ x ∈ s.fab.stripes, x.dst = fr.src → ∀ i, i < 22 → x.seq ≠ nextSeq s.fab fr.src + BitVec.ofNat 32 i) →
    let v := s.sv
    let n := (if r then v.n1 else v.n0).toNat
    let role := (j + 15 - ownLabel s.fab % 8) % 8
    let at_ := (if r then v.base1 else v.base0).toNat +
      4096 * (if role < 6 then 6 * (j / 8) + role else if role = 7 then 6 * n + 2 * (j / 8) else 6 * n + 2 * (j / 8) + 1)
    let has := v.en = true ∧ j < 8 * n ∧ ¬(v.rebuild = true ∧ v.rebuilt.contains (r, j) = false)
    (fr.body = .blockRead r j →
      (has → heldUp s false at_ 4096 = [] → lostLines s at_ 4096 = [] →
        ∃ t sts, exec (.fragmentArrival fr) s = .next t ∧ t.fab.stripes = s.fab.stripes ++ sts ∧ t.mem = s.mem ∧ t.core = s.core ∧
          (∀ st ∈ sts, st.dst = fr.src ∧ st.cls = 7 ∧ ∃ off, st.body = .blockData r j off ∧ st.len = st.data.length ∧
            st.data = (List.range st.len).map fun i => memGet s.mem (at_ + off + i)) ∧
          ∀ i, i < 4096 → ∃ st ∈ sts, ∃ off, st.body = .blockData r j off ∧ off ≤ i ∧ i < off + st.len) ∧
      (¬has →
        ∃ t st, exec (.fragmentArrival fr) s = .next t ∧ t.fab.stripes = s.fab.stripes ++ [st] ∧ st.dst = fr.src ∧ st.cls = 7 ∧
          st.body = .noBlock r j ∧ t.mem = s.mem ∧ t.core = s.core)) ∧
    (∀ b, v.reads = [b] → b.stripe = (r, j) → b.member = fr.src.toNat % 8 →
      (∀ off, fr.body = .blockData r j off → b.parts = [] →
        ∃ t, exec (.fragmentArrival fr) s = .next t ∧ t.sv = { v with reads := [{ b with parts := [(off, fr.bytes.take fr.len)] }] } ∧
          t.mem = s.mem ∧ t.core = s.core) ∧
      (fr.body = .noBlock r j →
        ∃ t, exec (.fragmentArrival fr) s = .next t ∧ t.sv = { v with reads := [{ b with absent := true }] } ∧ t.mem = s.mem ∧ t.core = s.core)))

/-- R15, R20 to R47: decoding what an instruction is encoded as gives the instruction back, in each of the three streams, whatever follows it. -/
def Obligations.DecodeOfEncode : Prop :=
  ∀ i : Instr, i.wellFormed = true →
    (aParts i ≠ none → ∃ w, encode i = [w] ∧ decodeA w = .ok i) ∧
    ((vParts i ≠ none ∨ vShortParts i ≠ none ∨ ∃ x, i = .vHint x) → ∀ after : List Parcel,
      let ps := encode i ++ after
      vLength (parcelAt ps 0) = some (encode i).length ∧ decodeV (parcelAt ps 0) (parcelAt ps 1) (parcelAt ps 2) = .ok i) ∧
    ((mParts i ≠ none ∨ ∃ x, i = .mHint x) → (encode i).length = 6 ∧ decodeM (bits192 (encode i)) = .ok i)

/-- R20 to R32, R44, R74, R75, R287, R319, R379, R406, R411, R434: words that the spec works out decode to the instructions that they stand
for. R16 to R18, R26: reserved encodings name no instruction: an A word of a major opcode outside the table is illegal, a V first parcel
with bits 1:0 = 11 has an illegal length, whatever else is wrong with it; a hint cell is one whatever its other bits hold. R28, R30: a CRR
or CRW word whose number names no control register raises ILLEGAL when a step comes to it; the word 0xF8000000 is NOP, as is every word of
major 0x3E, and does nothing. -/
def Obligations.WordsAndReservedEncodings : Prop :=
  (decodeA 0xA8940000 = .ok (.spawn 9 16) ∧ decodeA 0xA801C400 = .ok (.suspend 7) ∧ decodeA 0xA8809002 = .ok (.waitM 8 2 .b4) ∧
  decodeA 0xB0510000 = .ok (.join 5 4) ∧ decodeA 0xB0510001 = .ok (.leave 5 4) ∧ decodeA 0xB0610302 = .ok (.barNew 6 3 4) ∧
  decodeA 0xB0718003 = .ok (.barArv 7 6) ∧ decodeA 0xB0818704 = .ok (.barWt 8 6 7) ∧ decodeA 0xB0018005 = .ok (.barRel 6) ∧
  decodeA 0xB0928C06 = .ok (.mpath 9 10 12) ∧ decodeA 0xA801D800 = .ok (.pagereq 7) ∧ decodeA 0xB4520301 = .ok (.pnlDef 5 3 8) ∧
  decodeA 0xB4625402 = .ok (.kvbMap 6 4 true 9) ∧ decodeA 0xB4518700 = .ok (.lqPost 5 6 7) ∧ decodeA 0xB4720907 = .ok (.netWait 7 8 9) ∧
  decodeA 0xB4518008 = .ok (.msgSend 5 6) ∧ decodeA 0xB4720009 = .ok (.msgRecv 7 8) ∧
  decodeV 0x8640E041 0x20001602 0 = .ok (.vadd ⟨0x200, 11, 10, 200, false, 3, .f32, .none⟩) ∧
  decodeV 0x01001C44 0 0 = .ok (.vaddF32Short 7 8) ∧
  decodeV 0x4960204A 0x000C3E4B 0x3F000000 = .ok (.vmul ⟨0, 1567, 301, 300, false, 0, .f32, .lit 0x3F000000⟩) ∧
  decodeM (bits192 [0x00040C10, 0x0000010D, 0x40000004, 0x60000001, 0x00000102, 0]) =
    .ok (.qstep ⟨0, false, false, 0, 0, true, 0, 2, 0x60000001, 0x40000004, 0, false, false, false, false, false, 1, 13, 4, 12⟩) ∧
  decodeM (bits192 [0x00000005, 0, 0x01000000, 0, 0, 0x60000002]) =
    .ok (.mloop ⟨0x60000002, false, false, 0, 0, false, 0, 0, 0, 0x01000000, 0, false, false, false, false, false, 0, 0, 0, 0⟩)) ∧
  ((∀ w : Parcel, let m := (w.extractLsb' 26 6).toNat
    (m = 0 ∨ (0x13 ≤ m ∧ m ≤ 0x17) ∨ (0x24 ≤ m ∧ m ≤ 0x27) ∨ (0x2E ≤ m ∧ m ≤ 0x3D) ∨ m = 0x3F) → decodeA w = .error .illegal) ∧
  (∀ w : Parcel, w.extractLsb' 26 6 = 0x3E → decodeA w = .ok (.nop (w.extractLsb' 0 26))) ∧
  (∀ p q r : Parcel, p.extractLsb' 0 2 = 3#2 → decodeV p q r = .error .illegalLen) ∧
  (∀ p q r : Parcel, p.extractLsb' 0 2 = 0#2 → 0xF0#8 ≤ p.extractLsb' 2 8 →
    decodeV p q r = .ok (.vHintShort (p.extractLsb' 2 4) (p.extractLsb' 10 11) (p.extractLsb' 21 11))) ∧
  (∀ p q r : Parcel, p.extractLsb' 0 2 = 1#2 → 0xF0#8 ≤ p.extractLsb' 2 8 → decodeV p q r = .ok (.vHint (.w64 (q ++ p)))) ∧
  (∀ p q r : Parcel, p.extractLsb' 0 2 = 2#2 → 0xF0#8 ≤ p.extractLsb' 2 8 → decodeV p q r = .ok (.vHint (.w96 (r ++ (q ++ p))))) ∧
  (∀ w : BitVec 192, 0xF0#8 ≤ w.extractLsb' 0 8 → decodeM w = .ok (.mHint w)) ∧
  (∀ w : BitVec 192, w.extractLsb' 0 8 < 0xF0#8 → (w.extractLsb' 53 3 ≠ 0#3 ∨ w.extractLsb' 154 4 ≠ 0#4) → decodeM w = .error .illegal)) ∧
  ((∀ (s : State) (o : Nat) (r : BitVec 6) (n : BitVec 10), s.core.slot.isSome = true → s.core.aseq = .running → s.core.grd = none → s.agenda = [] →
    s.turn = .a → breakHit s s.core.pc = false → InSection s.core.secA s.core.pc o 4 → s.core.pc.toNat % 4 = 0 →
    ¬(n.toNat ≤ 6 ∨ (0x10 ≤ n.toNat ∧ n.toNat ≤ 0x13) ∨ (0x18 ≤ n.toNat ∧ n.toNat ≤ 0x1B) ∨ (0x20 ≤ n.toNat ∧ n.toNat ≤ 0x2F) ∨
      (0x40 ≤ n.toNat ∧ n.toNat ≤ 0x43) ∨ (0x80 ≤ n.toNat ∧ n.toNat ≤ 0x9F)) →
    (parcelOf s.core.secA o = 0x2B#6 ++ r ++ 0#6 ++ 0#4 ++ n ∨ parcelOf s.core.secA o = 0x2B#6 ++ 0#6 ++ r ++ 1#4 ++ n) →
      step s = thenTurn .v (.next (trapsIn s s .illegal .a 0))) ∧
  decodeA 0xF8000000 = .ok (.nop 0) ∧
  (∀ (s : State) (w : Parcel), w.extractLsb' 26 6 = 0x3E →
    decodeA w = .ok (.nop (w.extractLsb' 0 26)) ∧ CompletesTo (.nop (w.extractLsb' 0 26)) s s))

/-- R15, R29, R72, R126, R400: a step of the A-stream fetches the word at pc and executes the instruction it decodes to; after a GRD the
guarded word follows at once. A SEM.ACQ has the turn after the other engines' signals. A word that is not legal, a pc outside the section
or misaligned, and a breakpoint raise their traps. R15, R31, R170, R262: a step of the V-stream fetches the one to three parcels at vpc
and executes the instruction they decode to; what cannot be decoded stops the sequencer with its trap pending. R15, R44, R222, R225: a
step of the M-stream fetches the word at mpc and executes the instruction it decodes to; with no word in flight, a word that is not legal
stops the sequencer with a fault entry in rq. The agenda and the turns (assumption 4): an event of the agenda happens before any agent
moves, and with nothing on it the agent whose turn it is moves. A sequencer that does not run lets its turn pass. R8, R9, R115, R140,
R141, R415: what passes with every step: time goes on by an amount that nothing states (assumption 2), each layer's clock by the cycles
that its frequency gives for it, an enabled counter by what its source has counted, and the REPLAY counts of the ports. Memory, registers
and streams do not change by it. What the counters of REPLAY and of an uncounted source gain is log 49 and log 43. -/
def Obligations.StepRunsDecoded : Prop :=
  (∀ (s : State) (o : Nat) (next : Turn), s.core.slot.isSome = true → s.core.aseq = .running →
    ((s.core.grd.isSome = true → InSection s.core.secA s.core.pc o 4 → s.core.pc.toNat % 4 = 0 →
      ∀ i, decodeA (parcelOf s.core.secA o) = .ok i → step s = thenTick (exec i (leaveExit i s))) ∧
    (s.core.grd = none → s.agenda = [] →
      (s.turn = .a ∧ acquires s.core = false ∧ next = .v) ∨ (s.turn = .acquire ∧ acquires s.core = true ∧ next = .stopDone) →
      (breakHit s s.core.pc = false → InSection s.core.secA s.core.pc o 4 → s.core.pc.toNat % 4 = 0 →
        (∀ i, decodeA (parcelOf s.core.secA o) = .ok i → step s = thenTurn next (exec i (leaveExit i s))) ∧
        (∀ e, decodeA (parcelOf s.core.secA o) = .error e → step s = thenTurn next (.next (trapsIn s s (faultCode e) .a 0)))) ∧
      (breakHit s s.core.pc = false → (s.core.pc.toNat % 4 ≠ 0 ∨ s.core.secA.offset s.core.pc = none) →
        step s = thenTurn next (.next (trapsIn s s .illegal .a 0))) ∧
      (breakHit s s.core.pc = true → step s = thenTurn next (.next (trapsIn s s .brkpt .a s.core.pc)))) ∧
    (InSection s.core.secA s.core.pc o 4 → s.core.pc.toNat % 4 = 0 →
      (∀ d sem a, decodeA (parcelOf s.core.secA o) = .ok (.semAcq d sem a) → acquires s.core = true) ∧
      (∀ i, decodeA (parcelOf s.core.secA o) = .ok i → (∀ d sem a, i ≠ .semAcq d sem a) → (∀ b p, i ≠ .grd b p) → acquires s.core = false)) ∧
    (s.core.grd = none → s.agenda = [] → s.turn = .a → acquires s.core = true → step s = .next (tick { s with turn := .v })) ∧
    (s.core.grd = none → s.agenda = [] → s.turn = .acquire → acquires s.core = false → step s = .next (tick { s with turn := .stopDone })))) ∧
  (∀ (s : State) (o n : Nat), s.core.grd = none → s.agenda = [] → s.turn = .v → s.core.slot.isSome = true → s.core.vseq = .running →
    (s.core.vrep ≠ 0 ∨ breakHit s s.core.vpc = false) → s.core.vpc.toNat % 4 = 0 → InSection s.core.secV s.core.vpc o 4 →
      let p (k : Nat) : Parcel := parcelOf s.core.secV (o + 4 * k)
      let stop (c : TrapCode) : State := { s with core := Core.note 4 1 (s.core.vTrap c s.core.vpc 0 s.core.vpc) }
      (vLength (p 0) = none → step s = thenTurn .m (.next (stop .illegalLen))) ∧
      (vLength (p 0) = some n →
        (s.core.secV.size < o + 4 * n → step s = thenTurn .m (.next (stop .illegal))) ∧
        (o + 4 * n ≤ s.core.secV.size →
          (∀ i, decodeV (p 0) (p 1) (p 2) = .ok i → step s = thenTurn .m (exec i s)) ∧
          (∀ e, decodeV (p 0) (p 1) (p 2) = .error e → step s = thenTurn .m (.next (stop (faultCode e))))))) ∧
  (∀ (s : State) (o : Nat), s.core.grd = none → s.agenda = [] → s.turn = .m → s.core.slot.isSome = true → s.core.mseq = .running →
    s.core.mpc.toNat % 8 = 0 → InSection s.core.secM s.core.mpc o 24 →
      let w := bits192 ((List.range 6).map fun k => parcelOf s.core.secM (o + 4 * k))
      (∀ i, decodeM w = .ok i → step s = thenTurn .mDone (exec i s)) ∧
      (∀ e, decodeM w = .error e → s.core.mflight = [] →
        ∃ t, step s = thenTurn .mDone (.next t) ∧ t.core.mseq = .faulted ∧ t = { s with core := t.core })) ∧
  (∀ (s : State), s.core.grd = none →
    (∀ i rest, s.agenda = i :: rest → step s = thenTick (exec i { s with agenda := rest })) ∧
    (s.agenda = [] → s.turn = .a → (s.core.slot = none ∨ s.core.aseq ≠ .running) → step s = .next (tick { s with turn := .v })) ∧
    (s.agenda = [] → s.turn = .v → (s.core.slot = none ∨ s.core.vseq ≠ .running) → step s = .next (tick { s with turn := .m })) ∧
    (s.agenda = [] → s.turn = .m → (s.core.slot = none ∨ s.core.mseq ≠ .running) → step s = .next (tick { s with turn := .mDone }))) ∧
  (∀ s : State,
    let t := tick s
    let ns := Config.elapsed s.freshVal
    t = { s with
      time := s.time + ns, clkMx := t.clkMx, clkVx := t.clkVx, clkVault := t.clkVault, partMx := t.partMx, partVx := t.partVx
      partVault := t.partVault, power := { s.power with ev := t.power.ev }, tally := [], parked := t.parked
      core := { s.core with ev := t.core.ev, tally := [] }, fab := { s.fab with port := t.fab.port }, freshVal := s.freshVal + 1 } ∧
    (s.partMx < 1000 → t.partMx < 1000 ∧ ∃ c : Nat, t.clkMx = s.clkMx + BitVec.ofNat 64 c ∧
      1000 * c + t.partMx = s.partMx + ns * s.power.mx.fnow.toNat ∧ (s.power.mx.fnow.toNat ≤ 2000 → c ≤ 2 * ns)) ∧
    (s.partVx < 1000 → t.partVx < 1000 ∧ ∃ c : Nat, t.clkVx = s.clkVx + BitVec.ofNat 64 c ∧
      1000 * c + t.partVx = s.partVx + ns * s.power.vx.fnow.toNat ∧ (s.power.vx.fnow.toNat ≤ 2000 → c ≤ 2 * ns)) ∧
    (∀ i : BitVec 4,
      let sel := bank s.core.evsel i
      let src := sel.extractLsb' 0 8
      (sel.getLsbD 15 = false ∨ (sel.getLsbD 14 = true ∧ s.core.slot = none) → bank t.core.ev i = bank s.core.ev i) ∧
      (sel.getLsbD 15 = true → (sel.getLsbD 14 = false ∨ s.core.slot ≠ none) →
        (src = 1 → bank t.core.ev i = bank s.core.ev i + (t.clkVx - s.clkVx)) ∧
        (src = 2 → bank t.core.ev i = bank s.core.ev i + (t.clkMx - s.clkMx)) ∧
        (src ≠ 1 → src ≠ 2 → timedSource src = false →
          bank t.core.ev i = bank s.core.ev i + BitVec.ofNat 64 (((s.core.tally.filter fun e => e.1 == src).map (·.2)).sum)))) ∧
    t.parked.map (·.1) = s.parked.map (·.1) ∧
    (∀ e ∈ s.parked, ∃ e' ∈ t.parked, e'.1 = e.1 ∧ e'.2 = { e.2 with ev := e'.2.ev, tally := [] }) ∧
    ∀ (d : Nat) (p : PeerPort), s.fab.port[d]? = some p → t.fab.port[d]? = some { p with replay := p.replay + Config.replays s.freshVal d })

/-- R3, R70, R115, R292, R366, R392, R395, R397, R414 to R416, R427, R449, R455: what the reset leaves where the spec gives the value. The
physical memory and the core and accumulator stores in canonical form right after reset (assumption 1). -/
def Obligations.ResetState : Prop :=
  (let s := State.reset
  s.core.slot = none ∧ s.pool = [] ∧ s.launches = [] ∧ s.miller.run = false ∧ s.core.evec = 0 ∧ s.core.srkey = 0 ∧ s.core.srctr = 0 ∧
    s.core.aexc = 0 ∧ s.core.vexc = 0 ∧ (∀ i : BitVec 4, bank s.core.ev i = 0 ∧ bank s.core.evsel i = 0 ∧ bank s.core.tc i = 0) ∧
    s.clkMx = 0 ∧ s.clkVx = 0 ∧ s.clkVault = 0 ∧ s.prog = 20 ∧ s.starv = 100 ∧ s.blocks = 16384 ∧ s.power.mx.fceil = 2000 ∧ s.power.mx.ftgt = 2000 ∧
    s.power.vx.fceil = 2000 ∧ s.power.vault.ftgt = 2000 ∧ s.sv.en = false ∧ s.sv.hold = 10 ∧ s.sv.lost = 0 ∧ s.sv.state = .off ∧
    (∀ c : BitVec 3, bank s.fab.rate c = ⟨8, if c = 0 then 1 else 2, if c = 0 then 0 else 2⟩) ∧
    (∀ d, d < 10 → s.fab.port[d]? = some ⟨0, 0, false⟩) ∧ s.evring.en = false) ∧
  (Canonical State.reset)

/-- Every step keeps physical memory and the memories of every core in canonical form (assumption 1): whatever word or event it runs. -/
def Obligations.StepKeepsCanonical : Prop := ∀ s t : State, Canonical s → step s = .next t → Canonical t
end

