-- ==== Sys2Proof/Laws/Memory.lean ====
section
/-! SUPPORT. The laws of sparse memories: the canonical form, which every operation keeps, and what a read after a write gives. -/

namespace Sys2Proof.Machine

open Sys2Proof

/-- The canonical form as two facts about lists. -/
theorem wf_iff (m : Mem) : Memory.wf m = true ↔ m.Pairwise (fun x y => x.1 < y.1) ∧ ∀ e ∈ m, e.2 ≠ 0 := by
  induction m with
  | nil => simp [Memory.wf]
  | cons e rest ih =>
    obtain ⟨a, b⟩ := e
    cases rest with
    | nil => simp [Memory.wf]
    | cons e' rest =>
      obtain ⟨a', b'⟩ := e'
      simp only [Memory.wf, Bool.and_eq_true, bne_iff_ne, decide_eq_true_eq, ih]
      constructor
      · rintro ⟨⟨hb, hlt⟩, hp, hne⟩
        refine ⟨List.pairwise_cons.mpr ⟨?_, hp⟩, ?_⟩
        · intro y hy
          rcases List.mem_cons.mp hy with rfl | hy
          · exact hlt
          · exact Nat.lt_trans hlt ((List.pairwise_cons.mp hp).1 y hy)
        · intro y hy
          rcases List.mem_cons.mp hy with rfl | hy
          · exact hb
          · exact hne y hy
      · rintro ⟨hp, hne⟩
        have hp' := List.pairwise_cons.mp hp
        exact ⟨⟨hne (a, b) (by simp), hp'.1 (a', b') (by simp)⟩, hp'.2, fun y hy => hne y (List.mem_cons_of_mem _ hy)⟩

theorem wf_nil : Memory.wf [] = true := rfl

/-- Part of a canonical memory is canonical. -/
theorem wf_filter (m : Mem) (p : Nat × Byte → Bool) (h : Memory.wf m = true) : Memory.wf (m.filter p) = true := by
  rw [wf_iff] at h ⊢
  exact ⟨h.1.filter p, fun e he => h.2 e (List.mem_of_mem_filter he)⟩

/-- Two canonical memories, one below the other. -/
theorem wf_append (m n : Mem) (hm : Memory.wf m = true) (hn : Memory.wf n = true) (h : ∀ x ∈ m, ∀ y ∈ n, x.1 < y.1) :
    Memory.wf (m ++ n) = true := by
  rw [wf_iff] at hm hn ⊢
  refine ⟨List.pairwise_append.mpr ⟨hm.1, hn.1, h⟩, ?_⟩
  intro e he
  rcases List.mem_append.mp he with he | he
  · exact hm.2 e he
  · exact hn.2 e he

/-- The addresses of a list of bytes. -/
theorem mem_listed (bs : List Byte) (a : Nat) (e : Nat × Byte) (h : e ∈ listed a bs) :
    a ≤ e.1 ∧ e.1 < a + bs.length ∧ e.2 ≠ 0 ∧ bs[e.1 - a]? = some e.2 := by
  induction bs generalizing a with
  | nil => simp [listed] at h
  | cons b rest ih =>
    have tail : e ∈ listed (a + 1) rest → a ≤ e.1 ∧ e.1 < a + (b :: rest).length ∧ e.2 ≠ 0 ∧ (b :: rest)[e.1 - a]? = some e.2 := by
      intro h
      obtain ⟨h1, h2, h3, h4⟩ := ih _ h
      refine ⟨by omega, by simp only [List.length_cons]; omega, h3, ?_⟩
      rw [show e.1 - a = (e.1 - (a + 1)) + 1 by omega]; simpa using h4
    unfold listed at h
    split at h
    · exact tail h
    · rcases List.mem_cons.mp h with rfl | h
      · exact ⟨Nat.le_refl _, by simp only [List.length_cons]; omega, by assumption, by simp⟩
      · exact tail h

theorem wf_listed (bs : List Byte) (a : Nat) : Memory.wf (listed a bs) = true := by
  induction bs generalizing a with
  | nil => rfl
  | cons b rest ih =>
    unfold listed
    split
    · exact ih _
    · rw [wf_iff]
      have h := (wf_iff _).mp (ih (a + 1))
      refine ⟨List.pairwise_cons.mpr ⟨fun y hy => ?_, h.1⟩, fun y hy => ?_⟩
      · have := (mem_listed _ _ _ hy).1; simp only; omega
      · rcases List.mem_cons.mp hy with rfl | hy
        · assumption
        · exact h.2 y hy

/-- A write keeps the canonical form. -/
theorem wf_memPut (m : Mem) (a : Nat) (bs : List Byte) (h : Memory.wf m = true) : Memory.wf (memPut m a bs) = true := by
  unfold memPut
  refine wf_append _ _ (wf_append _ _ (wf_filter _ _ h) (wf_listed _ _) ?_) (wf_filter _ _ h) ?_
  · intro x hx y hy
    have := (List.mem_filter.mp hx).2
    have := (mem_listed _ _ _ hy).1
    simp only [decide_eq_true_eq] at *; omega
  · intro x hx y hy
    have h2 := (List.mem_filter.mp hy).2
    simp only [decide_eq_true_eq] at h2
    rcases List.mem_append.mp hx with hx | hx
    · have := (List.mem_filter.mp hx).2
      simp only [decide_eq_true_eq] at this; omega
    · have := (mem_listed _ _ _ hx).2.1; omega

theorem wf_memSet (m : Mem) (a : Nat) (b : Byte) (h : Memory.wf m = true) : Memory.wf (memSet m a b) = true := wf_memPut m a [b] h

/-- Clearing keeps the canonical form. -/
theorem wf_memClear (m : Mem) (a n : Nat) (h : Memory.wf m = true) : Memory.wf (memClear m a n) = true := wf_filter _ _ h

/-- Moving a range keeps the canonical form. -/
theorem wf_moveMem (src dst n : Nat) (m : Mem) (h : Memory.wf m = true) : Memory.wf (moveMem src dst n m) = true := by
  unfold moveMem
  have hf := wf_filter m (fun e => src ≤ e.1 && e.1 < src + n) h
  have inside : ∀ e ∈ (m.filter fun e => src ≤ e.1 && e.1 < src + n), src ≤ e.1 ∧ e.1 < src + n := by
    intro e he; simpa using (List.mem_filter.mp he).2
  have hm : Memory.wf ((m.filter fun e => src ≤ e.1 && e.1 < src + n).map fun e => (e.1 - src + dst, e.2)) = true := by
    rw [wf_iff] at hf ⊢
    refine ⟨List.pairwise_map.mpr (hf.1.imp_of_mem ?_), ?_⟩
    · intro x y hx hy hxy
      have := inside x hx; have := inside y hy
      show x.1 - src + dst < y.1 - src + dst
      omega
    · intro e he
      obtain ⟨x, hx, rfl⟩ := List.mem_map.mp he
      exact hf.2 x hx
  have at_ : ∀ e ∈ ((m.filter fun e => src ≤ e.1 && e.1 < src + n).map fun e => (e.1 - src + dst, e.2)), dst ≤ e.1 ∧ e.1 < dst + n := by
    intro e he
    obtain ⟨x, hx, rfl⟩ := List.mem_map.mp he
    have := inside x hx
    exact ⟨by show dst ≤ x.1 - src + dst; omega, by show x.1 - src + dst < dst + n; omega⟩
  refine wf_append _ _ (wf_append _ _ (wf_filter _ _ h) hm ?_) (wf_filter _ _ h) ?_
  · intro x hx y hy
    have := (List.mem_filter.mp hx).2
    have := (at_ y hy).1
    simp only [decide_eq_true_eq] at *; omega
  · intro x hx y hy
    have h2 := (List.mem_filter.mp hy).2
    simp only [decide_eq_true_eq] at h2
    rcases List.mem_append.mp hx with hx | hx
    · have := (List.mem_filter.mp hx).2
      simp only [decide_eq_true_eq] at this; omega
    · have := (at_ x hx).2; omega

/-- A copy with lines that cannot be read keeps the canonical form. -/
theorem wf_copiedMem (s : State) (src dst n : Nat) (h : Memory.wf s.mem = true) : Memory.wf (copiedMem s src dst n) = true := by
  unfold copiedMem
  generalize lostLines s src n = ls
  have step := wf_moveMem src dst n s.mem h
  generalize moveMem src dst n s.mem = m at step
  induction ls generalizing m with
  | nil => exact step
  | cons l ls ih => exact ih _ (wf_memPut _ _ _ step)

/-! ## Reads -/

/-- A byte that the memory lists. -/
theorem memGet_of_mem (m : Mem) (h : Memory.wf m = true) (e : Nat × Byte) (he : e ∈ m) : memGet m e.1 = e.2 := by
  induction m with
  | nil => simp at he
  | cons x rest ih =>
    have hw := (wf_iff _).mp h
    have hp := List.pairwise_cons.mp hw.1
    have hr : Memory.wf rest = true := (wf_iff _).mpr ⟨hp.2, fun y hy => hw.2 y (List.mem_cons_of_mem _ hy)⟩
    obtain ⟨k, b⟩ := x
    unfold memGet
    rcases List.mem_cons.mp he with rfl | he
    · simp
    · have := hp.1 e he
      simp only at this
      rw [if_neg (by omega), if_neg (by omega)]
      exact ih hr he

/-- A byte that the memory does not list reads zero. -/
theorem memGet_of_not_mem (m : Mem) (x : Nat) (h : ∀ e ∈ m, e.1 ≠ x) : memGet m x = 0 := by
  induction m with
  | nil => rfl
  | cons y rest ih =>
    obtain ⟨k, b⟩ := y
    unfold memGet
    rw [if_neg (h (k, b) (by simp))]
    split
    · rfl
    · exact ih fun e he => h e (List.mem_cons_of_mem _ he)

/-- A canonical memory reads at an address what it lists there, else zero. -/
theorem memGet_eq (m n : Mem) (hm : Memory.wf m = true) (hn : Memory.wf n = true) (x : Nat)
    (h : ∀ b, (x, b) ∈ m ↔ (x, b) ∈ n) : memGet m x = memGet n x := by
  by_cases hx : ∃ b, (x, b) ∈ m
  · obtain ⟨b, hb⟩ := hx
    rw [memGet_of_mem m hm _ hb, memGet_of_mem n hn _ ((h b).mp hb)]
  · have h1 : ∀ e ∈ m, e.1 ≠ x := fun e he hxe => hx ⟨e.2, by rw [← hxe]; exact he⟩
    have h2 : ∀ e ∈ n, e.1 ≠ x := fun e he hxe => hx ⟨e.2, (h e.2).mpr (by rw [← hxe]; exact he)⟩
    rw [memGet_of_not_mem m x h1, memGet_of_not_mem n x h2]

theorem memGet_listed (bs : List Byte) (a x : Nat) :
    memGet (listed a bs) x = if a ≤ x ∧ x < a + bs.length then bs[x - a]?.getD 0 else 0 := by
  induction bs generalizing a with
  | nil => simp [listed, memGet]
  | cons b rest ih =>
    by_cases hx : x = a
    · subst hx
      unfold listed
      split
      · rename_i hb
        rw [memGet_of_not_mem]
        · simp [hb]
        · intro e he; have := (mem_listed _ _ _ he).1; omega
      · simp [memGet]
    · have step : memGet (listed a (b :: rest)) x = memGet (listed (a + 1) rest) x := by
        show memGet (if b = 0 then listed (a + 1) rest else (a, b) :: listed (a + 1) rest) x = _
        split
        · rfl
        · show (if a = x then b else if x < a then 0 else memGet (listed (a + 1) rest) x) = _
          rw [if_neg (Ne.symm hx)]
          split
          · rw [memGet_of_not_mem]
            intro e he; have := (mem_listed _ _ _ he).1; omega
          · rfl
      rw [step, ih]
      by_cases hin : a ≤ x ∧ x < a + (b :: rest).length
      · rw [if_pos hin, if_pos (by simp only [List.length_cons] at hin; omega),
          show x - a = (x - (a + 1)) + 1 by omega]
        rfl
      · rw [if_neg hin, if_neg (by simp only [List.length_cons] at hin; omega)]

/-- What a memory reads after a write: the bytes written, and every other byte as before. -/
theorem memGet_memPut (m : Mem) (a : Nat) (bs : List Byte) (x : Nat) (h : Memory.wf m = true) :
    memGet (memPut m a bs) x = if a ≤ x ∧ x < a + bs.length then bs[x - a]?.getD 0 else memGet m x := by
  have hw := wf_memPut m a bs h
  by_cases hx : a ≤ x ∧ x < a + bs.length
  · rw [if_pos hx, show bs[x - a]?.getD 0 = memGet (listed a bs) x by rw [memGet_listed, if_pos hx]]
    refine memGet_eq _ _ hw (wf_listed _ _) x fun b => ?_
    simp only [memPut, List.mem_append, List.mem_filter, decide_eq_true_eq]
    constructor
    · rintro ((⟨_, h1⟩ | h1) | ⟨_, h1⟩)
      · omega
      · exact h1
      · omega
    · exact fun h1 => .inl (.inr h1)
  · rw [if_neg hx]
    refine memGet_eq _ _ hw h x fun b => ?_
    simp only [memPut, List.mem_append, List.mem_filter, decide_eq_true_eq]
    constructor
    · rintro ((⟨h1, _⟩ | h1) | ⟨h1, _⟩)
      · exact h1
      · have := mem_listed _ _ _ h1; simp only at this; omega
      · exact h1
    · intro h1
      by_cases hlt : x < a
      · exact .inl (.inl ⟨h1, hlt⟩)
      · exact .inr ⟨h1, by omega⟩

theorem memGet_memClear (m : Mem) (a n x : Nat) (h : Memory.wf m = true) :
    memGet (memClear m a n) x = if a ≤ x ∧ x < a + n then 0 else memGet m x := by
  have hw := wf_memClear m a n h
  by_cases hx : a ≤ x ∧ x < a + n
  · rw [if_pos hx]
    refine memGet_of_not_mem _ _ fun e he hxe => ?_
    have := (List.mem_filter.mp he).2
    simp only [Bool.or_eq_true, decide_eq_true_eq] at this; omega
  · rw [if_neg hx]
    refine memGet_eq _ _ hw h x fun b => ?_
    simp only [memClear, List.mem_filter, Bool.or_eq_true, decide_eq_true_eq]
    constructor
    · exact fun h1 => h1.1
    · exact fun h1 => ⟨h1, by omega⟩

/-- Entries below an address do not matter from it on. -/
theorem memGet_dropWhile (m : Mem) (a x : Nat) (h : Memory.wf m = true) (hx : a ≤ x) :
    memGet (m.dropWhile fun e => e.1 < a) x = memGet m x := by
  induction m with
  | nil => rfl
  | cons y rest ih =>
    have hw := (wf_iff _).mp h
    have hr : Memory.wf rest = true := (wf_iff _).mpr ⟨(List.pairwise_cons.mp hw.1).2, fun z hz => hw.2 z (List.mem_cons_of_mem _ hz)⟩
    obtain ⟨k, b⟩ := y
    by_cases hk : k < a
    · rw [List.dropWhile_cons_of_pos (by simpa using hk), ih hr]
      conv => rhs; unfold memGet
      rw [if_neg (by omega), if_neg (by omega)]
    · rw [List.dropWhile_cons_of_neg (by simpa using hk)]

theorem wf_dropWhile (m : Mem) (p : Nat × Byte → Bool) (h : Memory.wf m = true) : Memory.wf (m.dropWhile p) = true := by
  rw [wf_iff] at h ⊢
  exact ⟨h.1.sublist (List.dropWhile_sublist p), fun e he => h.2 e ((List.dropWhile_sublist p).subset he)⟩

/-- Reading of consecutive bytes is reading of each. -/
theorem memBytes_eq (n a : Nat) (m : Mem) (h : Memory.wf m = true) : memBytes n a m = (List.range n).map fun i => memGet m (a + i) := by
  induction n generalizing a m with
  | zero => rfl
  | succ n ih =>
    have hd := wf_dropWhile m (fun e => e.1 < a) h
    have rest : ∀ m' : Mem, Memory.wf m' = true → (∀ x, a + 1 ≤ x → memGet m' x = memGet m x) → ∀ b, b = memGet m a →
        b :: memBytes n (a + 1) m' = (List.range (n + 1)).map fun i => memGet m (a + i) := by
      intro m' hw hm' b hb
      rw [List.range_succ_eq_map, List.map_cons, List.map_map, ih (a + 1) m' hw, hb]
      refine congrArg₂ List.cons rfl (List.map_congr_left fun i _ => ?_)
      show memGet m' (a + 1 + i) = memGet m (a + (i + 1))
      rw [hm' _ (by omega), show a + 1 + i = a + (i + 1) by omega]
    have eqd : ∀ x, a ≤ x → memGet (m.dropWhile fun e => e.1 < a) x = memGet m x := fun x hx => memGet_dropWhile m a x h hx
    unfold memBytes
    split
    · rename_i heq
      rw [heq] at eqd
      exact rest [] rfl (fun x hx => eqd x (by omega)) 0 (eqd a (Nat.le_refl _))
    · rename_i k b tail heq
      rw [heq] at eqd hd
      have ht : Memory.wf tail = true := by
        have hw := (wf_iff _).mp hd
        exact (wf_iff _).mpr ⟨(List.pairwise_cons.mp hw.1).2, fun z hz => hw.2 z (List.mem_cons_of_mem _ hz)⟩
      split
      · rename_i hk
        subst hk
        refine rest tail ht (fun x hx => ?_) b ?_
        · rw [← eqd x (by omega)]
          conv => rhs; unfold memGet
          rw [if_neg (by omega), if_neg (by omega)]
        · rw [← eqd k (Nat.le_refl _)]; simp [memGet]
      · rename_i hk
        refine rest _ hd (fun x hx => eqd x (by omega)) 0 ?_
        rw [← eqd a (Nat.le_refl _)]
        have ha : a ≤ k := by
          have := List.head?_dropWhile_not (fun e : Nat × Byte => decide (e.1 < a)) m
          rw [heq] at this
          simpa using this
        unfold memGet
        rw [if_neg hk, if_pos (by omega)]

theorem memBytes_length (n a : Nat) (m : Mem) : (memBytes n a m).length = n := by
  induction n generalizing a m with
  | zero => rfl
  | succ n ih =>
    unfold memBytes
    split
    · simp [ih]
    · split <;> simp [ih]

/-- The bytes just written are read back. -/
theorem memBytes_memPut (m : Mem) (a : Nat) (bs : List Byte) (h : Memory.wf m = true) : memBytes bs.length a (memPut m a bs) = bs := by
  rw [memBytes_eq _ _ _ (wf_memPut m a bs h)]
  refine List.ext_getElem (by simp) fun i h1 h2 => ?_
  simp only [List.getElem_map, List.getElem_range]
  rw [memGet_memPut _ _ _ _ h, if_pos (by omega)]
  simp [h2]

/-! ## Values of bytes -/

theorem leBytes_length (n x : Nat) : (leBytes n x).length = n := by
  induction n generalizing x with
  | zero => rfl
  | succ n ih => simp [leBytes, ih]

theorem leBytes_getElem (n x i : Nat) (h : i < n) : (leBytes n x)[i]? = some (BitVec.ofNat 8 (x / 256 ^ i)) := by
  induction n generalizing x i with
  | zero => omega
  | succ n ih =>
    cases i with
    | zero => simp [leBytes]
    | succ i =>
      show (leBytes n (x / 256))[i]? = _
      rw [ih _ _ (by omega), Nat.div_div_eq_div_mul, Nat.pow_succ', ]

/-- The value of the bytes of a value. -/
theorem leNat_leBytes (n x : Nat) : leNat (leBytes n x) = x % 256 ^ n := by
  induction n generalizing x with
  | zero => simp [leNat, leBytes, Nat.mod_one]
  | succ n ih =>
    show (BitVec.ofNat 8 x).toNat + 256 * leNat (leBytes n (x / 256)) = _
    rw [ih, BitVec.toNat_ofNat, Nat.pow_succ' (n := n) (m := 256), Nat.mod_mul]

theorem leNat_lt (bs : List Byte) : leNat bs < 256 ^ bs.length := by
  induction bs with
  | nil => simp [leNat]
  | cons b rest ih =>
    have := b.isLt
    show b.toNat + 256 * leNat rest < 256 ^ (rest.length + 1)
    rw [Nat.pow_succ']; omega

end Sys2Proof.Machine
end

