-- ==== Sys2Proof/Laws/State.lean ====
section
/-! SUPPORT. What each update of the state and of a core leaves as it was, one lemma per field; and what a read after a register write
gives. -/

namespace Sys2Proof.Machine

open Sys2Proof

/-! ## Updates of a core -/

/-- What a write to an s-register changes. -/
theorem Core.setS_eq (k : Core) (r : BitVec 6) (x : Word) : k.setS r x = { k with s := (k.setS r x).s, out := (k.setS r x).out } := by
  unfold Core.setS; split <;> rfl
@[simp] theorem Core.setS_slot (k : Core) (r : BitVec 6) (x : Word) : (k.setS r x).slot = k.slot := by unfold Core.setS; split <;> rfl
@[simp] theorem Core.setS_claimed (k : Core) (r : BitVec 6) (x : Word) : (k.setS r x).claimed = k.claimed := by unfold Core.setS; split <;> rfl
@[simp] theorem Core.setS_launch (k : Core) (r : BitVec 6) (x : Word) : (k.setS r x).launch = k.launch := by unfold Core.setS; split <;> rfl
@[simp] theorem Core.setS_selPri (k : Core) (r : BitVec 6) (x : Word) : (k.setS r x).selPri = k.selPri := by unfold Core.setS; split <;> rfl
@[simp] theorem Core.setS_b (k : Core) (r : BitVec 6) (x : Word) : (k.setS r x).b = k.b := by unfold Core.setS; split <;> rfl
@[simp] theorem Core.setS_p (k : Core) (r : BitVec 6) (x : Word) : (k.setS r x).p = k.p := by unfold Core.setS; split <;> rfl
@[simp] theorem Core.setS_lc (k : Core) (r : BitVec 6) (x : Word) : (k.setS r x).lc = k.lc := by unfold Core.setS; split <;> rfl
@[simp] theorem Core.setS_vlc (k : Core) (r : BitVec 6) (x : Word) : (k.setS r x).vlc = k.vlc := by unfold Core.setS; split <;> rfl
@[simp] theorem Core.setS_mlc (k : Core) (r : BitVec 6) (x : Word) : (k.setS r x).mlc = k.mlc := by unfold Core.setS; split <;> rfl
@[simp] theorem Core.setS_tc (k : Core) (r : BitVec 6) (x : Word) : (k.setS r x).tc = k.tc := by unfold Core.setS; split <;> rfl
@[simp] theorem Core.setS_m (k : Core) (r : BitVec 6) (x : Word) : (k.setS r x).m = k.m := by unfold Core.setS; split <;> rfl
@[simp] theorem Core.setS_sem (k : Core) (r : BitVec 6) (x : Word) : (k.setS r x).sem = k.sem := by unfold Core.setS; split <;> rfl
@[simp] theorem Core.setS_srkey (k : Core) (r : BitVec 6) (x : Word) : (k.setS r x).srkey = k.srkey := by unfold Core.setS; split <;> rfl
@[simp] theorem Core.setS_srctr (k : Core) (r : BitVec 6) (x : Word) : (k.setS r x).srctr = k.srctr := by unfold Core.setS; split <;> rfl
@[simp] theorem Core.setS_aexc (k : Core) (r : BitVec 6) (x : Word) : (k.setS r x).aexc = k.aexc := by unfold Core.setS; split <;> rfl
@[simp] theorem Core.setS_vexc (k : Core) (r : BitVec 6) (x : Word) : (k.setS r x).vexc = k.vexc := by unfold Core.setS; split <;> rfl
@[simp] theorem Core.setS_evec (k : Core) (r : BitVec 6) (x : Word) : (k.setS r x).evec = k.evec := by unfold Core.setS; split <;> rfl
@[simp] theorem Core.setS_ecause (k : Core) (r : BitVec 6) (x : Word) : (k.setS r x).ecause = k.ecause := by unfold Core.setS; split <;> rfl
@[simp] theorem Core.setS_epc (k : Core) (r : BitVec 6) (x : Word) : (k.setS r x).epc = k.epc := by unfold Core.setS; split <;> rfl
@[simp] theorem Core.setS_eval (k : Core) (r : BitVec 6) (x : Word) : (k.setS r x).eval = k.eval := by unfold Core.setS; split <;> rfl
@[simp] theorem Core.setS_inHandler (k : Core) (r : BitVec 6) (x : Word) : (k.setS r x).inHandler = k.inHandler := by unfold Core.setS; split <;> rfl
@[simp] theorem Core.setS_rearmed (k : Core) (r : BitVec 6) (x : Word) : (k.setS r x).rearmed = k.rearmed := by unfold Core.setS; split <;> rfl
@[simp] theorem Core.setS_handlerSince (k : Core) (r : BitVec 6) (x : Word) : (k.setS r x).handlerSince = k.handlerSince := by unfold Core.setS; split <;> rfl
@[simp] theorem Core.setS_aseq (k : Core) (r : BitVec 6) (x : Word) : (k.setS r x).aseq = k.aseq := by unfold Core.setS; split <;> rfl
@[simp] theorem Core.setS_pc (k : Core) (r : BitVec 6) (x : Word) : (k.setS r x).pc = k.pc := by unfold Core.setS; split <;> rfl
@[simp] theorem Core.setS_grd (k : Core) (r : BitVec 6) (x : Word) : (k.setS r x).grd = k.grd := by unfold Core.setS; split <;> rfl
@[simp] theorem Core.setS_wait (k : Core) (r : BitVec 6) (x : Word) : (k.setS r x).wait = k.wait := by unfold Core.setS; split <;> rfl
@[simp] theorem Core.setS_spin (k : Core) (r : BitVec 6) (x : Word) : (k.setS r x).spin = k.spin := by unfold Core.setS; split <;> rfl
@[simp] theorem Core.setS_exitDue (k : Core) (r : BitVec 6) (x : Word) : (k.setS r x).exitDue = k.exitDue := by unfold Core.setS; split <;> rfl
@[simp] theorem Core.setS_passA (k : Core) (r : BitVec 6) (x : Word) : (k.setS r x).passA = k.passA := by unfold Core.setS; split <;> rfl
@[simp] theorem Core.setS_passV (k : Core) (r : BitVec 6) (x : Word) : (k.setS r x).passV = k.passV := by unfold Core.setS; split <;> rfl
@[simp] theorem Core.setS_passM (k : Core) (r : BitVec 6) (x : Word) : (k.setS r x).passM = k.passM := by unfold Core.setS; split <;> rfl
@[simp] theorem Core.setS_stop (k : Core) (r : BitVec 6) (x : Word) : (k.setS r x).stop = k.stop := by unfold Core.setS; split <;> rfl
@[simp] theorem Core.setS_vseq (k : Core) (r : BitVec 6) (x : Word) : (k.setS r x).vseq = k.vseq := by unfold Core.setS; split <;> rfl
@[simp] theorem Core.setS_vpc (k : Core) (r : BitVec 6) (x : Word) : (k.setS r x).vpc = k.vpc := by unfold Core.setS; split <;> rfl
@[simp] theorem Core.setS_vrep (k : Core) (r : BitVec 6) (x : Word) : (k.setS r x).vrep = k.vrep := by unfold Core.setS; split <;> rfl
@[simp] theorem Core.setS_vflags (k : Core) (r : BitVec 6) (x : Word) : (k.setS r x).vflags = k.vflags := by unfold Core.setS; split <;> rfl
@[simp] theorem Core.setS_vloop (k : Core) (r : BitVec 6) (x : Word) : (k.setS r x).vloop = k.vloop := by unfold Core.setS; split <;> rfl
@[simp] theorem Core.setS_vtrap (k : Core) (r : BitVec 6) (x : Word) : (k.setS r x).vtrap = k.vtrap := by unfold Core.setS; split <;> rfl
@[simp] theorem Core.setS_vacc (k : Core) (r : BitVec 6) (x : Word) : (k.setS r x).vacc = k.vacc := by unfold Core.setS; split <;> rfl
@[simp] theorem Core.setS_vpop (k : Core) (r : BitVec 6) (x : Word) : (k.setS r x).vpop = k.vpop := by unfold Core.setS; split <;> rfl
@[simp] theorem Core.setS_metV (k : Core) (r : BitVec 6) (x : Word) : (k.setS r x).metV = k.metV := by unfold Core.setS; split <;> rfl
@[simp] theorem Core.setS_metM (k : Core) (r : BitVec 6) (x : Word) : (k.setS r x).metM = k.metM := by unfold Core.setS; split <;> rfl
@[simp] theorem Core.setS_mseq (k : Core) (r : BitVec 6) (x : Word) : (k.setS r x).mseq = k.mseq := by unfold Core.setS; split <;> rfl
@[simp] theorem Core.setS_mpc (k : Core) (r : BitVec 6) (x : Word) : (k.setS r x).mpc = k.mpc := by unfold Core.setS; split <;> rfl
@[simp] theorem Core.setS_mloop (k : Core) (r : BitVec 6) (x : Word) : (k.setS r x).mloop = k.mloop := by unfold Core.setS; split <;> rfl
@[simp] theorem Core.setS_mflight (k : Core) (r : BitVec 6) (x : Word) : (k.setS r x).mflight = k.mflight := by unfold Core.setS; split <;> rfl
@[simp] theorem Core.setS_stepNo (k : Core) (r : BitVec 6) (x : Word) : (k.setS r x).stepNo = k.stepNo := by unfold Core.setS; split <;> rfl
@[simp] theorem Core.setS_sigma (k : Core) (r : BitVec 6) (x : Word) : (k.setS r x).sigma = k.sigma := by unfold Core.setS; split <;> rfl
@[simp] theorem Core.setS_q (k : Core) (r : BitVec 6) (x : Word) : (k.setS r x).q = k.q := by unfold Core.setS; split <;> rfl
@[simp] theorem Core.setS_mq (k : Core) (r : BitVec 6) (x : Word) : (k.setS r x).mq = k.mq := by unfold Core.setS; split <;> rfl
@[simp] theorem Core.setS_rq (k : Core) (r : BitVec 6) (x : Word) : (k.setS r x).rq = k.rq := by unfold Core.setS; split <;> rfl
@[simp] theorem Core.setS_vq (k : Core) (r : BitVec 6) (x : Word) : (k.setS r x).vq = k.vq := by unfold Core.setS; split <;> rfl
@[simp] theorem Core.setS_copyq (k : Core) (r : BitVec 6) (x : Word) : (k.setS r x).copyq = k.copyq := by unfold Core.setS; split <;> rfl
@[simp] theorem Core.setS_copyRun (k : Core) (r : BitVec 6) (x : Word) : (k.setS r x).copyRun = k.copyRun := by unfold Core.setS; split <;> rfl
@[simp] theorem Core.setS_copyTrap (k : Core) (r : BitVec 6) (x : Word) : (k.setS r x).copyTrap = k.copyTrap := by unfold Core.setS; split <;> rfl
@[simp] theorem Core.setS_gather (k : Core) (r : BitVec 6) (x : Word) : (k.setS r x).gather = k.gather := by unfold Core.setS; split <;> rfl
@[simp] theorem Core.setS_bbuf (k : Core) (r : BitVec 6) (x : Word) : (k.setS r x).bbuf = k.bbuf := by unfold Core.setS; split <;> rfl
@[simp] theorem Core.setS_cs (k : Core) (r : BitVec 6) (x : Word) : (k.setS r x).cs = k.cs := by unfold Core.setS; split <;> rfl
@[simp] theorem Core.setS_acc (k : Core) (r : BitVec 6) (x : Word) : (k.setS r x).acc = k.acc := by unfold Core.setS; split <;> rfl
@[simp] theorem Core.setS_csPoison (k : Core) (r : BitVec 6) (x : Word) : (k.setS r x).csPoison = k.csPoison := by unfold Core.setS; split <;> rfl
@[simp] theorem Core.setS_accPoison (k : Core) (r : BitVec 6) (x : Word) : (k.setS r x).accPoison = k.accPoison := by unfold Core.setS; split <;> rfl
@[simp] theorem Core.setS_units (k : Core) (r : BitVec 6) (x : Word) : (k.setS r x).units = k.units := by unfold Core.setS; split <;> rfl
@[simp] theorem Core.setS_fresh (k : Core) (r : BitVec 6) (x : Word) : (k.setS r x).fresh = k.fresh := by unfold Core.setS; split <;> rfl
@[simp] theorem Core.setS_held (k : Core) (r : BitVec 6) (x : Word) : (k.setS r x).held = k.held := by unfold Core.setS; split <;> rfl
@[simp] theorem Core.setS_replyA (k : Core) (r : BitVec 6) (x : Word) : (k.setS r x).replyA = k.replyA := by unfold Core.setS; split <;> rfl
@[simp] theorem Core.setS_storeFaults (k : Core) (r : BitVec 6) (x : Word) : (k.setS r x).storeFaults = k.storeFaults := by unfold Core.setS; split <;> rfl
@[simp] theorem Core.setS_ndur (k : Core) (r : BitVec 6) (x : Word) : (k.setS r x).ndur = k.ndur := by unfold Core.setS; split <;> rfl
@[simp] theorem Core.setS_codeBase (k : Core) (r : BitVec 6) (x : Word) : (k.setS r x).codeBase = k.codeBase := by unfold Core.setS; split <;> rfl
@[simp] theorem Core.setS_codeGen (k : Core) (r : BitVec 6) (x : Word) : (k.setS r x).codeGen = k.codeGen := by unfold Core.setS; split <;> rfl
@[simp] theorem Core.setS_imgSize (k : Core) (r : BitVec 6) (x : Word) : (k.setS r x).imgSize = k.imgSize := by unfold Core.setS; split <;> rfl
@[simp] theorem Core.setS_secA (k : Core) (r : BitVec 6) (x : Word) : (k.setS r x).secA = k.secA := by unfold Core.setS; split <;> rfl
@[simp] theorem Core.setS_secV (k : Core) (r : BitVec 6) (x : Word) : (k.setS r x).secV = k.secV := by unfold Core.setS; split <;> rfl
@[simp] theorem Core.setS_secM (k : Core) (r : BitVec 6) (x : Word) : (k.setS r x).secM = k.secM := by unfold Core.setS; split <;> rfl
@[simp] theorem Core.setS_ev (k : Core) (r : BitVec 6) (x : Word) : (k.setS r x).ev = k.ev := by unfold Core.setS; split <;> rfl
@[simp] theorem Core.setS_evsel (k : Core) (r : BitVec 6) (x : Word) : (k.setS r x).evsel = k.evsel := by unfold Core.setS; split <;> rfl
@[simp] theorem Core.setS_tally (k : Core) (r : BitVec 6) (x : Word) : (k.setS r x).tally = k.tally := by unfold Core.setS; split <;> rfl
@[simp] theorem Core.setS_ctemp (k : Core) (r : BitVec 6) (x : Word) : (k.setS r x).ctemp = k.ctemp := by unfold Core.setS; split <;> rfl
@[simp] theorem Core.setS_phys (k : Core) (r : BitVec 6) (x : Word) : (k.setS r x).phys = k.phys := by unfold Core.setS; split <;> rfl
@[simp] theorem Core.setS_spare (k : Core) (r : BitVec 6) (x : Word) : (k.setS r x).spare = k.spare := by unfold Core.setS; split <;> rfl
@[simp] theorem Core.setS_offline (k : Core) (r : BitVec 6) (x : Word) : (k.setS r x).offline = k.offline := by unfold Core.setS; split <;> rfl
@[simp] theorem Core.setS_dbg (k : Core) (r : BitVec 6) (x : Word) : (k.setS r x).dbg = k.dbg := by unfold Core.setS; split <;> rfl

/-- What a write to a predicate changes. -/
theorem Core.setP_eq (k : Core) (p : BitVec 4) (x : Bool) : k.setP p x = { k with p := (k.setP p x).p, out := (k.setP p x).out } := by
  unfold Core.setP; split <;> rfl
@[simp] theorem Core.setP_slot (k : Core) (p : BitVec 4) (x : Bool) : (k.setP p x).slot = k.slot := by unfold Core.setP; split <;> rfl
@[simp] theorem Core.setP_claimed (k : Core) (p : BitVec 4) (x : Bool) : (k.setP p x).claimed = k.claimed := by unfold Core.setP; split <;> rfl
@[simp] theorem Core.setP_launch (k : Core) (p : BitVec 4) (x : Bool) : (k.setP p x).launch = k.launch := by unfold Core.setP; split <;> rfl
@[simp] theorem Core.setP_selPri (k : Core) (p : BitVec 4) (x : Bool) : (k.setP p x).selPri = k.selPri := by unfold Core.setP; split <;> rfl
@[simp] theorem Core.setP_s (k : Core) (p : BitVec 4) (x : Bool) : (k.setP p x).s = k.s := by unfold Core.setP; split <;> rfl
@[simp] theorem Core.setP_b (k : Core) (p : BitVec 4) (x : Bool) : (k.setP p x).b = k.b := by unfold Core.setP; split <;> rfl
@[simp] theorem Core.setP_lc (k : Core) (p : BitVec 4) (x : Bool) : (k.setP p x).lc = k.lc := by unfold Core.setP; split <;> rfl
@[simp] theorem Core.setP_vlc (k : Core) (p : BitVec 4) (x : Bool) : (k.setP p x).vlc = k.vlc := by unfold Core.setP; split <;> rfl
@[simp] theorem Core.setP_mlc (k : Core) (p : BitVec 4) (x : Bool) : (k.setP p x).mlc = k.mlc := by unfold Core.setP; split <;> rfl
@[simp] theorem Core.setP_tc (k : Core) (p : BitVec 4) (x : Bool) : (k.setP p x).tc = k.tc := by unfold Core.setP; split <;> rfl
@[simp] theorem Core.setP_m (k : Core) (p : BitVec 4) (x : Bool) : (k.setP p x).m = k.m := by unfold Core.setP; split <;> rfl
@[simp] theorem Core.setP_sem (k : Core) (p : BitVec 4) (x : Bool) : (k.setP p x).sem = k.sem := by unfold Core.setP; split <;> rfl
@[simp] theorem Core.setP_srkey (k : Core) (p : BitVec 4) (x : Bool) : (k.setP p x).srkey = k.srkey := by unfold Core.setP; split <;> rfl
@[simp] theorem Core.setP_srctr (k : Core) (p : BitVec 4) (x : Bool) : (k.setP p x).srctr = k.srctr := by unfold Core.setP; split <;> rfl
@[simp] theorem Core.setP_aexc (k : Core) (p : BitVec 4) (x : Bool) : (k.setP p x).aexc = k.aexc := by unfold Core.setP; split <;> rfl
@[simp] theorem Core.setP_vexc (k : Core) (p : BitVec 4) (x : Bool) : (k.setP p x).vexc = k.vexc := by unfold Core.setP; split <;> rfl
@[simp] theorem Core.setP_evec (k : Core) (p : BitVec 4) (x : Bool) : (k.setP p x).evec = k.evec := by unfold Core.setP; split <;> rfl
@[simp] theorem Core.setP_ecause (k : Core) (p : BitVec 4) (x : Bool) : (k.setP p x).ecause = k.ecause := by unfold Core.setP; split <;> rfl
@[simp] theorem Core.setP_epc (k : Core) (p : BitVec 4) (x : Bool) : (k.setP p x).epc = k.epc := by unfold Core.setP; split <;> rfl
@[simp] theorem Core.setP_eval (k : Core) (p : BitVec 4) (x : Bool) : (k.setP p x).eval = k.eval := by unfold Core.setP; split <;> rfl
@[simp] theorem Core.setP_inHandler (k : Core) (p : BitVec 4) (x : Bool) : (k.setP p x).inHandler = k.inHandler := by unfold Core.setP; split <;> rfl
@[simp] theorem Core.setP_rearmed (k : Core) (p : BitVec 4) (x : Bool) : (k.setP p x).rearmed = k.rearmed := by unfold Core.setP; split <;> rfl
@[simp] theorem Core.setP_handlerSince (k : Core) (p : BitVec 4) (x : Bool) : (k.setP p x).handlerSince = k.handlerSince := by unfold Core.setP; split <;> rfl
@[simp] theorem Core.setP_aseq (k : Core) (p : BitVec 4) (x : Bool) : (k.setP p x).aseq = k.aseq := by unfold Core.setP; split <;> rfl
@[simp] theorem Core.setP_pc (k : Core) (p : BitVec 4) (x : Bool) : (k.setP p x).pc = k.pc := by unfold Core.setP; split <;> rfl
@[simp] theorem Core.setP_grd (k : Core) (p : BitVec 4) (x : Bool) : (k.setP p x).grd = k.grd := by unfold Core.setP; split <;> rfl
@[simp] theorem Core.setP_wait (k : Core) (p : BitVec 4) (x : Bool) : (k.setP p x).wait = k.wait := by unfold Core.setP; split <;> rfl
@[simp] theorem Core.setP_spin (k : Core) (p : BitVec 4) (x : Bool) : (k.setP p x).spin = k.spin := by unfold Core.setP; split <;> rfl
@[simp] theorem Core.setP_exitDue (k : Core) (p : BitVec 4) (x : Bool) : (k.setP p x).exitDue = k.exitDue := by unfold Core.setP; split <;> rfl
@[simp] theorem Core.setP_passA (k : Core) (p : BitVec 4) (x : Bool) : (k.setP p x).passA = k.passA := by unfold Core.setP; split <;> rfl
@[simp] theorem Core.setP_passV (k : Core) (p : BitVec 4) (x : Bool) : (k.setP p x).passV = k.passV := by unfold Core.setP; split <;> rfl
@[simp] theorem Core.setP_passM (k : Core) (p : BitVec 4) (x : Bool) : (k.setP p x).passM = k.passM := by unfold Core.setP; split <;> rfl
@[simp] theorem Core.setP_stop (k : Core) (p : BitVec 4) (x : Bool) : (k.setP p x).stop = k.stop := by unfold Core.setP; split <;> rfl
@[simp] theorem Core.setP_vseq (k : Core) (p : BitVec 4) (x : Bool) : (k.setP p x).vseq = k.vseq := by unfold Core.setP; split <;> rfl
@[simp] theorem Core.setP_vpc (k : Core) (p : BitVec 4) (x : Bool) : (k.setP p x).vpc = k.vpc := by unfold Core.setP; split <;> rfl
@[simp] theorem Core.setP_vrep (k : Core) (p : BitVec 4) (x : Bool) : (k.setP p x).vrep = k.vrep := by unfold Core.setP; split <;> rfl
@[simp] theorem Core.setP_vflags (k : Core) (p : BitVec 4) (x : Bool) : (k.setP p x).vflags = k.vflags := by unfold Core.setP; split <;> rfl
@[simp] theorem Core.setP_vloop (k : Core) (p : BitVec 4) (x : Bool) : (k.setP p x).vloop = k.vloop := by unfold Core.setP; split <;> rfl
@[simp] theorem Core.setP_vtrap (k : Core) (p : BitVec 4) (x : Bool) : (k.setP p x).vtrap = k.vtrap := by unfold Core.setP; split <;> rfl
@[simp] theorem Core.setP_vacc (k : Core) (p : BitVec 4) (x : Bool) : (k.setP p x).vacc = k.vacc := by unfold Core.setP; split <;> rfl
@[simp] theorem Core.setP_vpop (k : Core) (p : BitVec 4) (x : Bool) : (k.setP p x).vpop = k.vpop := by unfold Core.setP; split <;> rfl
@[simp] theorem Core.setP_metV (k : Core) (p : BitVec 4) (x : Bool) : (k.setP p x).metV = k.metV := by unfold Core.setP; split <;> rfl
@[simp] theorem Core.setP_metM (k : Core) (p : BitVec 4) (x : Bool) : (k.setP p x).metM = k.metM := by unfold Core.setP; split <;> rfl
@[simp] theorem Core.setP_mseq (k : Core) (p : BitVec 4) (x : Bool) : (k.setP p x).mseq = k.mseq := by unfold Core.setP; split <;> rfl
@[simp] theorem Core.setP_mpc (k : Core) (p : BitVec 4) (x : Bool) : (k.setP p x).mpc = k.mpc := by unfold Core.setP; split <;> rfl
@[simp] theorem Core.setP_mloop (k : Core) (p : BitVec 4) (x : Bool) : (k.setP p x).mloop = k.mloop := by unfold Core.setP; split <;> rfl
@[simp] theorem Core.setP_mflight (k : Core) (p : BitVec 4) (x : Bool) : (k.setP p x).mflight = k.mflight := by unfold Core.setP; split <;> rfl
@[simp] theorem Core.setP_stepNo (k : Core) (p : BitVec 4) (x : Bool) : (k.setP p x).stepNo = k.stepNo := by unfold Core.setP; split <;> rfl
@[simp] theorem Core.setP_sigma (k : Core) (p : BitVec 4) (x : Bool) : (k.setP p x).sigma = k.sigma := by unfold Core.setP; split <;> rfl
@[simp] theorem Core.setP_q (k : Core) (p : BitVec 4) (x : Bool) : (k.setP p x).q = k.q := by unfold Core.setP; split <;> rfl
@[simp] theorem Core.setP_mq (k : Core) (p : BitVec 4) (x : Bool) : (k.setP p x).mq = k.mq := by unfold Core.setP; split <;> rfl
@[simp] theorem Core.setP_rq (k : Core) (p : BitVec 4) (x : Bool) : (k.setP p x).rq = k.rq := by unfold Core.setP; split <;> rfl
@[simp] theorem Core.setP_vq (k : Core) (p : BitVec 4) (x : Bool) : (k.setP p x).vq = k.vq := by unfold Core.setP; split <;> rfl
@[simp] theorem Core.setP_copyq (k : Core) (p : BitVec 4) (x : Bool) : (k.setP p x).copyq = k.copyq := by unfold Core.setP; split <;> rfl
@[simp] theorem Core.setP_copyRun (k : Core) (p : BitVec 4) (x : Bool) : (k.setP p x).copyRun = k.copyRun := by unfold Core.setP; split <;> rfl
@[simp] theorem Core.setP_copyTrap (k : Core) (p : BitVec 4) (x : Bool) : (k.setP p x).copyTrap = k.copyTrap := by unfold Core.setP; split <;> rfl
@[simp] theorem Core.setP_gather (k : Core) (p : BitVec 4) (x : Bool) : (k.setP p x).gather = k.gather := by unfold Core.setP; split <;> rfl
@[simp] theorem Core.setP_bbuf (k : Core) (p : BitVec 4) (x : Bool) : (k.setP p x).bbuf = k.bbuf := by unfold Core.setP; split <;> rfl
@[simp] theorem Core.setP_cs (k : Core) (p : BitVec 4) (x : Bool) : (k.setP p x).cs = k.cs := by unfold Core.setP; split <;> rfl
@[simp] theorem Core.setP_acc (k : Core) (p : BitVec 4) (x : Bool) : (k.setP p x).acc = k.acc := by unfold Core.setP; split <;> rfl
@[simp] theorem Core.setP_csPoison (k : Core) (p : BitVec 4) (x : Bool) : (k.setP p x).csPoison = k.csPoison := by unfold Core.setP; split <;> rfl
@[simp] theorem Core.setP_accPoison (k : Core) (p : BitVec 4) (x : Bool) : (k.setP p x).accPoison = k.accPoison := by unfold Core.setP; split <;> rfl
@[simp] theorem Core.setP_units (k : Core) (p : BitVec 4) (x : Bool) : (k.setP p x).units = k.units := by unfold Core.setP; split <;> rfl
@[simp] theorem Core.setP_fresh (k : Core) (p : BitVec 4) (x : Bool) : (k.setP p x).fresh = k.fresh := by unfold Core.setP; split <;> rfl
@[simp] theorem Core.setP_held (k : Core) (p : BitVec 4) (x : Bool) : (k.setP p x).held = k.held := by unfold Core.setP; split <;> rfl
@[simp] theorem Core.setP_replyA (k : Core) (p : BitVec 4) (x : Bool) : (k.setP p x).replyA = k.replyA := by unfold Core.setP; split <;> rfl
@[simp] theorem Core.setP_storeFaults (k : Core) (p : BitVec 4) (x : Bool) : (k.setP p x).storeFaults = k.storeFaults := by unfold Core.setP; split <;> rfl
@[simp] theorem Core.setP_ndur (k : Core) (p : BitVec 4) (x : Bool) : (k.setP p x).ndur = k.ndur := by unfold Core.setP; split <;> rfl
@[simp] theorem Core.setP_codeBase (k : Core) (p : BitVec 4) (x : Bool) : (k.setP p x).codeBase = k.codeBase := by unfold Core.setP; split <;> rfl
@[simp] theorem Core.setP_codeGen (k : Core) (p : BitVec 4) (x : Bool) : (k.setP p x).codeGen = k.codeGen := by unfold Core.setP; split <;> rfl
@[simp] theorem Core.setP_imgSize (k : Core) (p : BitVec 4) (x : Bool) : (k.setP p x).imgSize = k.imgSize := by unfold Core.setP; split <;> rfl
@[simp] theorem Core.setP_secA (k : Core) (p : BitVec 4) (x : Bool) : (k.setP p x).secA = k.secA := by unfold Core.setP; split <;> rfl
@[simp] theorem Core.setP_secV (k : Core) (p : BitVec 4) (x : Bool) : (k.setP p x).secV = k.secV := by unfold Core.setP; split <;> rfl
@[simp] theorem Core.setP_secM (k : Core) (p : BitVec 4) (x : Bool) : (k.setP p x).secM = k.secM := by unfold Core.setP; split <;> rfl
@[simp] theorem Core.setP_ev (k : Core) (p : BitVec 4) (x : Bool) : (k.setP p x).ev = k.ev := by unfold Core.setP; split <;> rfl
@[simp] theorem Core.setP_evsel (k : Core) (p : BitVec 4) (x : Bool) : (k.setP p x).evsel = k.evsel := by unfold Core.setP; split <;> rfl
@[simp] theorem Core.setP_tally (k : Core) (p : BitVec 4) (x : Bool) : (k.setP p x).tally = k.tally := by unfold Core.setP; split <;> rfl
@[simp] theorem Core.setP_ctemp (k : Core) (p : BitVec 4) (x : Bool) : (k.setP p x).ctemp = k.ctemp := by unfold Core.setP; split <;> rfl
@[simp] theorem Core.setP_phys (k : Core) (p : BitVec 4) (x : Bool) : (k.setP p x).phys = k.phys := by unfold Core.setP; split <;> rfl
@[simp] theorem Core.setP_spare (k : Core) (p : BitVec 4) (x : Bool) : (k.setP p x).spare = k.spare := by unfold Core.setP; split <;> rfl
@[simp] theorem Core.setP_offline (k : Core) (p : BitVec 4) (x : Bool) : (k.setP p x).offline = k.offline := by unfold Core.setP; split <;> rfl
@[simp] theorem Core.setP_dbg (k : Core) (p : BitVec 4) (x : Bool) : (k.setP p x).dbg = k.dbg := by unfold Core.setP; split <;> rfl

theorem Core.setM_eq (k : Core) (m : BitVec 4) (x : Mask) : k.setM m x = { k with m := (k.setM m x).m } := by unfold Core.setM; split <;> rfl
@[simp] theorem Core.setM_slot (k : Core) (m : BitVec 4) (x : Mask) : (k.setM m x).slot = k.slot := by unfold Core.setM; split <;> rfl
@[simp] theorem Core.setM_claimed (k : Core) (m : BitVec 4) (x : Mask) : (k.setM m x).claimed = k.claimed := by unfold Core.setM; split <;> rfl
@[simp] theorem Core.setM_launch (k : Core) (m : BitVec 4) (x : Mask) : (k.setM m x).launch = k.launch := by unfold Core.setM; split <;> rfl
@[simp] theorem Core.setM_selPri (k : Core) (m : BitVec 4) (x : Mask) : (k.setM m x).selPri = k.selPri := by unfold Core.setM; split <;> rfl
@[simp] theorem Core.setM_s (k : Core) (m : BitVec 4) (x : Mask) : (k.setM m x).s = k.s := by unfold Core.setM; split <;> rfl
@[simp] theorem Core.setM_b (k : Core) (m : BitVec 4) (x : Mask) : (k.setM m x).b = k.b := by unfold Core.setM; split <;> rfl
@[simp] theorem Core.setM_p (k : Core) (m : BitVec 4) (x : Mask) : (k.setM m x).p = k.p := by unfold Core.setM; split <;> rfl
@[simp] theorem Core.setM_lc (k : Core) (m : BitVec 4) (x : Mask) : (k.setM m x).lc = k.lc := by unfold Core.setM; split <;> rfl
@[simp] theorem Core.setM_vlc (k : Core) (m : BitVec 4) (x : Mask) : (k.setM m x).vlc = k.vlc := by unfold Core.setM; split <;> rfl
@[simp] theorem Core.setM_mlc (k : Core) (m : BitVec 4) (x : Mask) : (k.setM m x).mlc = k.mlc := by unfold Core.setM; split <;> rfl
@[simp] theorem Core.setM_tc (k : Core) (m : BitVec 4) (x : Mask) : (k.setM m x).tc = k.tc := by unfold Core.setM; split <;> rfl
@[simp] theorem Core.setM_sem (k : Core) (m : BitVec 4) (x : Mask) : (k.setM m x).sem = k.sem := by unfold Core.setM; split <;> rfl
@[simp] theorem Core.setM_srkey (k : Core) (m : BitVec 4) (x : Mask) : (k.setM m x).srkey = k.srkey := by unfold Core.setM; split <;> rfl
@[simp] theorem Core.setM_srctr (k : Core) (m : BitVec 4) (x : Mask) : (k.setM m x).srctr = k.srctr := by unfold Core.setM; split <;> rfl
@[simp] theorem Core.setM_aexc (k : Core) (m : BitVec 4) (x : Mask) : (k.setM m x).aexc = k.aexc := by unfold Core.setM; split <;> rfl
@[simp] theorem Core.setM_vexc (k : Core) (m : BitVec 4) (x : Mask) : (k.setM m x).vexc = k.vexc := by unfold Core.setM; split <;> rfl
@[simp] theorem Core.setM_evec (k : Core) (m : BitVec 4) (x : Mask) : (k.setM m x).evec = k.evec := by unfold Core.setM; split <;> rfl
@[simp] theorem Core.setM_ecause (k : Core) (m : BitVec 4) (x : Mask) : (k.setM m x).ecause = k.ecause := by unfold Core.setM; split <;> rfl
@[simp] theorem Core.setM_epc (k : Core) (m : BitVec 4) (x : Mask) : (k.setM m x).epc = k.epc := by unfold Core.setM; split <;> rfl
@[simp] theorem Core.setM_eval (k : Core) (m : BitVec 4) (x : Mask) : (k.setM m x).eval = k.eval := by unfold Core.setM; split <;> rfl
@[simp] theorem Core.setM_inHandler (k : Core) (m : BitVec 4) (x : Mask) : (k.setM m x).inHandler = k.inHandler := by unfold Core.setM; split <;> rfl
@[simp] theorem Core.setM_rearmed (k : Core) (m : BitVec 4) (x : Mask) : (k.setM m x).rearmed = k.rearmed := by unfold Core.setM; split <;> rfl
@[simp] theorem Core.setM_handlerSince (k : Core) (m : BitVec 4) (x : Mask) : (k.setM m x).handlerSince = k.handlerSince := by unfold Core.setM; split <;> rfl
@[simp] theorem Core.setM_aseq (k : Core) (m : BitVec 4) (x : Mask) : (k.setM m x).aseq = k.aseq := by unfold Core.setM; split <;> rfl
@[simp] theorem Core.setM_pc (k : Core) (m : BitVec 4) (x : Mask) : (k.setM m x).pc = k.pc := by unfold Core.setM; split <;> rfl
@[simp] theorem Core.setM_grd (k : Core) (m : BitVec 4) (x : Mask) : (k.setM m x).grd = k.grd := by unfold Core.setM; split <;> rfl
@[simp] theorem Core.setM_wait (k : Core) (m : BitVec 4) (x : Mask) : (k.setM m x).wait = k.wait := by unfold Core.setM; split <;> rfl
@[simp] theorem Core.setM_spin (k : Core) (m : BitVec 4) (x : Mask) : (k.setM m x).spin = k.spin := by unfold Core.setM; split <;> rfl
@[simp] theorem Core.setM_exitDue (k : Core) (m : BitVec 4) (x : Mask) : (k.setM m x).exitDue = k.exitDue := by unfold Core.setM; split <;> rfl
@[simp] theorem Core.setM_passA (k : Core) (m : BitVec 4) (x : Mask) : (k.setM m x).passA = k.passA := by unfold Core.setM; split <;> rfl
@[simp] theorem Core.setM_passV (k : Core) (m : BitVec 4) (x : Mask) : (k.setM m x).passV = k.passV := by unfold Core.setM; split <;> rfl
@[simp] theorem Core.setM_passM (k : Core) (m : BitVec 4) (x : Mask) : (k.setM m x).passM = k.passM := by unfold Core.setM; split <;> rfl
@[simp] theorem Core.setM_stop (k : Core) (m : BitVec 4) (x : Mask) : (k.setM m x).stop = k.stop := by unfold Core.setM; split <;> rfl
@[simp] theorem Core.setM_vseq (k : Core) (m : BitVec 4) (x : Mask) : (k.setM m x).vseq = k.vseq := by unfold Core.setM; split <;> rfl
@[simp] theorem Core.setM_vpc (k : Core) (m : BitVec 4) (x : Mask) : (k.setM m x).vpc = k.vpc := by unfold Core.setM; split <;> rfl
@[simp] theorem Core.setM_vrep (k : Core) (m : BitVec 4) (x : Mask) : (k.setM m x).vrep = k.vrep := by unfold Core.setM; split <;> rfl
@[simp] theorem Core.setM_vflags (k : Core) (m : BitVec 4) (x : Mask) : (k.setM m x).vflags = k.vflags := by unfold Core.setM; split <;> rfl
@[simp] theorem Core.setM_vloop (k : Core) (m : BitVec 4) (x : Mask) : (k.setM m x).vloop = k.vloop := by unfold Core.setM; split <;> rfl
@[simp] theorem Core.setM_vtrap (k : Core) (m : BitVec 4) (x : Mask) : (k.setM m x).vtrap = k.vtrap := by unfold Core.setM; split <;> rfl
@[simp] theorem Core.setM_vacc (k : Core) (m : BitVec 4) (x : Mask) : (k.setM m x).vacc = k.vacc := by unfold Core.setM; split <;> rfl
@[simp] theorem Core.setM_vpop (k : Core) (m : BitVec 4) (x : Mask) : (k.setM m x).vpop = k.vpop := by unfold Core.setM; split <;> rfl
@[simp] theorem Core.setM_metV (k : Core) (m : BitVec 4) (x : Mask) : (k.setM m x).metV = k.metV := by unfold Core.setM; split <;> rfl
@[simp] theorem Core.setM_metM (k : Core) (m : BitVec 4) (x : Mask) : (k.setM m x).metM = k.metM := by unfold Core.setM; split <;> rfl
@[simp] theorem Core.setM_mseq (k : Core) (m : BitVec 4) (x : Mask) : (k.setM m x).mseq = k.mseq := by unfold Core.setM; split <;> rfl
@[simp] theorem Core.setM_mpc (k : Core) (m : BitVec 4) (x : Mask) : (k.setM m x).mpc = k.mpc := by unfold Core.setM; split <;> rfl
@[simp] theorem Core.setM_mloop (k : Core) (m : BitVec 4) (x : Mask) : (k.setM m x).mloop = k.mloop := by unfold Core.setM; split <;> rfl
@[simp] theorem Core.setM_mflight (k : Core) (m : BitVec 4) (x : Mask) : (k.setM m x).mflight = k.mflight := by unfold Core.setM; split <;> rfl
@[simp] theorem Core.setM_stepNo (k : Core) (m : BitVec 4) (x : Mask) : (k.setM m x).stepNo = k.stepNo := by unfold Core.setM; split <;> rfl
@[simp] theorem Core.setM_sigma (k : Core) (m : BitVec 4) (x : Mask) : (k.setM m x).sigma = k.sigma := by unfold Core.setM; split <;> rfl
@[simp] theorem Core.setM_q (k : Core) (m : BitVec 4) (x : Mask) : (k.setM m x).q = k.q := by unfold Core.setM; split <;> rfl
@[simp] theorem Core.setM_mq (k : Core) (m : BitVec 4) (x : Mask) : (k.setM m x).mq = k.mq := by unfold Core.setM; split <;> rfl
@[simp] theorem Core.setM_rq (k : Core) (m : BitVec 4) (x : Mask) : (k.setM m x).rq = k.rq := by unfold Core.setM; split <;> rfl
@[simp] theorem Core.setM_vq (k : Core) (m : BitVec 4) (x : Mask) : (k.setM m x).vq = k.vq := by unfold Core.setM; split <;> rfl
@[simp] theorem Core.setM_copyq (k : Core) (m : BitVec 4) (x : Mask) : (k.setM m x).copyq = k.copyq := by unfold Core.setM; split <;> rfl
@[simp] theorem Core.setM_copyRun (k : Core) (m : BitVec 4) (x : Mask) : (k.setM m x).copyRun = k.copyRun := by unfold Core.setM; split <;> rfl
@[simp] theorem Core.setM_copyTrap (k : Core) (m : BitVec 4) (x : Mask) : (k.setM m x).copyTrap = k.copyTrap := by unfold Core.setM; split <;> rfl
@[simp] theorem Core.setM_gather (k : Core) (m : BitVec 4) (x : Mask) : (k.setM m x).gather = k.gather := by unfold Core.setM; split <;> rfl
@[simp] theorem Core.setM_bbuf (k : Core) (m : BitVec 4) (x : Mask) : (k.setM m x).bbuf = k.bbuf := by unfold Core.setM; split <;> rfl
@[simp] theorem Core.setM_cs (k : Core) (m : BitVec 4) (x : Mask) : (k.setM m x).cs = k.cs := by unfold Core.setM; split <;> rfl
@[simp] theorem Core.setM_acc (k : Core) (m : BitVec 4) (x : Mask) : (k.setM m x).acc = k.acc := by unfold Core.setM; split <;> rfl
@[simp] theorem Core.setM_csPoison (k : Core) (m : BitVec 4) (x : Mask) : (k.setM m x).csPoison = k.csPoison := by unfold Core.setM; split <;> rfl
@[simp] theorem Core.setM_accPoison (k : Core) (m : BitVec 4) (x : Mask) : (k.setM m x).accPoison = k.accPoison := by unfold Core.setM; split <;> rfl
@[simp] theorem Core.setM_units (k : Core) (m : BitVec 4) (x : Mask) : (k.setM m x).units = k.units := by unfold Core.setM; split <;> rfl
@[simp] theorem Core.setM_fresh (k : Core) (m : BitVec 4) (x : Mask) : (k.setM m x).fresh = k.fresh := by unfold Core.setM; split <;> rfl
@[simp] theorem Core.setM_held (k : Core) (m : BitVec 4) (x : Mask) : (k.setM m x).held = k.held := by unfold Core.setM; split <;> rfl
@[simp] theorem Core.setM_out (k : Core) (m : BitVec 4) (x : Mask) : (k.setM m x).out = k.out := by unfold Core.setM; split <;> rfl
@[simp] theorem Core.setM_replyA (k : Core) (m : BitVec 4) (x : Mask) : (k.setM m x).replyA = k.replyA := by unfold Core.setM; split <;> rfl
@[simp] theorem Core.setM_storeFaults (k : Core) (m : BitVec 4) (x : Mask) : (k.setM m x).storeFaults = k.storeFaults := by unfold Core.setM; split <;> rfl
@[simp] theorem Core.setM_ndur (k : Core) (m : BitVec 4) (x : Mask) : (k.setM m x).ndur = k.ndur := by unfold Core.setM; split <;> rfl
@[simp] theorem Core.setM_codeBase (k : Core) (m : BitVec 4) (x : Mask) : (k.setM m x).codeBase = k.codeBase := by unfold Core.setM; split <;> rfl
@[simp] theorem Core.setM_codeGen (k : Core) (m : BitVec 4) (x : Mask) : (k.setM m x).codeGen = k.codeGen := by unfold Core.setM; split <;> rfl
@[simp] theorem Core.setM_imgSize (k : Core) (m : BitVec 4) (x : Mask) : (k.setM m x).imgSize = k.imgSize := by unfold Core.setM; split <;> rfl
@[simp] theorem Core.setM_secA (k : Core) (m : BitVec 4) (x : Mask) : (k.setM m x).secA = k.secA := by unfold Core.setM; split <;> rfl
@[simp] theorem Core.setM_secV (k : Core) (m : BitVec 4) (x : Mask) : (k.setM m x).secV = k.secV := by unfold Core.setM; split <;> rfl
@[simp] theorem Core.setM_secM (k : Core) (m : BitVec 4) (x : Mask) : (k.setM m x).secM = k.secM := by unfold Core.setM; split <;> rfl
@[simp] theorem Core.setM_ev (k : Core) (m : BitVec 4) (x : Mask) : (k.setM m x).ev = k.ev := by unfold Core.setM; split <;> rfl
@[simp] theorem Core.setM_evsel (k : Core) (m : BitVec 4) (x : Mask) : (k.setM m x).evsel = k.evsel := by unfold Core.setM; split <;> rfl
@[simp] theorem Core.setM_tally (k : Core) (m : BitVec 4) (x : Mask) : (k.setM m x).tally = k.tally := by unfold Core.setM; split <;> rfl
@[simp] theorem Core.setM_ctemp (k : Core) (m : BitVec 4) (x : Mask) : (k.setM m x).ctemp = k.ctemp := by unfold Core.setM; split <;> rfl
@[simp] theorem Core.setM_phys (k : Core) (m : BitVec 4) (x : Mask) : (k.setM m x).phys = k.phys := by unfold Core.setM; split <;> rfl
@[simp] theorem Core.setM_spare (k : Core) (m : BitVec 4) (x : Mask) : (k.setM m x).spare = k.spare := by unfold Core.setM; split <;> rfl
@[simp] theorem Core.setM_offline (k : Core) (m : BitVec 4) (x : Mask) : (k.setM m x).offline = k.offline := by unfold Core.setM; split <;> rfl
@[simp] theorem Core.setM_dbg (k : Core) (m : BitVec 4) (x : Mask) : (k.setM m x).dbg = k.dbg := by unfold Core.setM; split <;> rfl

@[simp] theorem Core.overwrite_slot (k : Core) (rs : List (BitVec 6)) (ps : List (BitVec 4)) : (k.overwrite rs ps).slot = k.slot := rfl
@[simp] theorem Core.overwrite_claimed (k : Core) (rs : List (BitVec 6)) (ps : List (BitVec 4)) : (k.overwrite rs ps).claimed = k.claimed := rfl
@[simp] theorem Core.overwrite_launch (k : Core) (rs : List (BitVec 6)) (ps : List (BitVec 4)) : (k.overwrite rs ps).launch = k.launch := rfl
@[simp] theorem Core.overwrite_selPri (k : Core) (rs : List (BitVec 6)) (ps : List (BitVec 4)) : (k.overwrite rs ps).selPri = k.selPri := rfl
@[simp] theorem Core.overwrite_s (k : Core) (rs : List (BitVec 6)) (ps : List (BitVec 4)) : (k.overwrite rs ps).s = k.s := rfl
@[simp] theorem Core.overwrite_b (k : Core) (rs : List (BitVec 6)) (ps : List (BitVec 4)) : (k.overwrite rs ps).b = k.b := rfl
@[simp] theorem Core.overwrite_p (k : Core) (rs : List (BitVec 6)) (ps : List (BitVec 4)) : (k.overwrite rs ps).p = k.p := rfl
@[simp] theorem Core.overwrite_lc (k : Core) (rs : List (BitVec 6)) (ps : List (BitVec 4)) : (k.overwrite rs ps).lc = k.lc := rfl
@[simp] theorem Core.overwrite_vlc (k : Core) (rs : List (BitVec 6)) (ps : List (BitVec 4)) : (k.overwrite rs ps).vlc = k.vlc := rfl
@[simp] theorem Core.overwrite_mlc (k : Core) (rs : List (BitVec 6)) (ps : List (BitVec 4)) : (k.overwrite rs ps).mlc = k.mlc := rfl
@[simp] theorem Core.overwrite_tc (k : Core) (rs : List (BitVec 6)) (ps : List (BitVec 4)) : (k.overwrite rs ps).tc = k.tc := rfl
@[simp] theorem Core.overwrite_m (k : Core) (rs : List (BitVec 6)) (ps : List (BitVec 4)) : (k.overwrite rs ps).m = k.m := rfl
@[simp] theorem Core.overwrite_sem (k : Core) (rs : List (BitVec 6)) (ps : List (BitVec 4)) : (k.overwrite rs ps).sem = k.sem := rfl
@[simp] theorem Core.overwrite_srkey (k : Core) (rs : List (BitVec 6)) (ps : List (BitVec 4)) : (k.overwrite rs ps).srkey = k.srkey := rfl
@[simp] theorem Core.overwrite_srctr (k : Core) (rs : List (BitVec 6)) (ps : List (BitVec 4)) : (k.overwrite rs ps).srctr = k.srctr := rfl
@[simp] theorem Core.overwrite_aexc (k : Core) (rs : List (BitVec 6)) (ps : List (BitVec 4)) : (k.overwrite rs ps).aexc = k.aexc := rfl
@[simp] theorem Core.overwrite_vexc (k : Core) (rs : List (BitVec 6)) (ps : List (BitVec 4)) : (k.overwrite rs ps).vexc = k.vexc := rfl
@[simp] theorem Core.overwrite_evec (k : Core) (rs : List (BitVec 6)) (ps : List (BitVec 4)) : (k.overwrite rs ps).evec = k.evec := rfl
@[simp] theorem Core.overwrite_ecause (k : Core) (rs : List (BitVec 6)) (ps : List (BitVec 4)) : (k.overwrite rs ps).ecause = k.ecause := rfl
@[simp] theorem Core.overwrite_epc (k : Core) (rs : List (BitVec 6)) (ps : List (BitVec 4)) : (k.overwrite rs ps).epc = k.epc := rfl
@[simp] theorem Core.overwrite_eval (k : Core) (rs : List (BitVec 6)) (ps : List (BitVec 4)) : (k.overwrite rs ps).eval = k.eval := rfl
@[simp] theorem Core.overwrite_inHandler (k : Core) (rs : List (BitVec 6)) (ps : List (BitVec 4)) : (k.overwrite rs ps).inHandler = k.inHandler := rfl
@[simp] theorem Core.overwrite_rearmed (k : Core) (rs : List (BitVec 6)) (ps : List (BitVec 4)) : (k.overwrite rs ps).rearmed = k.rearmed := rfl
@[simp] theorem Core.overwrite_handlerSince (k : Core) (rs : List (BitVec 6)) (ps : List (BitVec 4)) : (k.overwrite rs ps).handlerSince = k.handlerSince := rfl
@[simp] theorem Core.overwrite_aseq (k : Core) (rs : List (BitVec 6)) (ps : List (BitVec 4)) : (k.overwrite rs ps).aseq = k.aseq := rfl
@[simp] theorem Core.overwrite_pc (k : Core) (rs : List (BitVec 6)) (ps : List (BitVec 4)) : (k.overwrite rs ps).pc = k.pc := rfl
@[simp] theorem Core.overwrite_grd (k : Core) (rs : List (BitVec 6)) (ps : List (BitVec 4)) : (k.overwrite rs ps).grd = k.grd := rfl
@[simp] theorem Core.overwrite_wait (k : Core) (rs : List (BitVec 6)) (ps : List (BitVec 4)) : (k.overwrite rs ps).wait = k.wait := rfl
@[simp] theorem Core.overwrite_spin (k : Core) (rs : List (BitVec 6)) (ps : List (BitVec 4)) : (k.overwrite rs ps).spin = k.spin := rfl
@[simp] theorem Core.overwrite_exitDue (k : Core) (rs : List (BitVec 6)) (ps : List (BitVec 4)) : (k.overwrite rs ps).exitDue = k.exitDue := rfl
@[simp] theorem Core.overwrite_passA (k : Core) (rs : List (BitVec 6)) (ps : List (BitVec 4)) : (k.overwrite rs ps).passA = k.passA := rfl
@[simp] theorem Core.overwrite_passV (k : Core) (rs : List (BitVec 6)) (ps : List (BitVec 4)) : (k.overwrite rs ps).passV = k.passV := rfl
@[simp] theorem Core.overwrite_passM (k : Core) (rs : List (BitVec 6)) (ps : List (BitVec 4)) : (k.overwrite rs ps).passM = k.passM := rfl
@[simp] theorem Core.overwrite_stop (k : Core) (rs : List (BitVec 6)) (ps : List (BitVec 4)) : (k.overwrite rs ps).stop = k.stop := rfl
@[simp] theorem Core.overwrite_vseq (k : Core) (rs : List (BitVec 6)) (ps : List (BitVec 4)) : (k.overwrite rs ps).vseq = k.vseq := rfl
@[simp] theorem Core.overwrite_vpc (k : Core) (rs : List (BitVec 6)) (ps : List (BitVec 4)) : (k.overwrite rs ps).vpc = k.vpc := rfl
@[simp] theorem Core.overwrite_vrep (k : Core) (rs : List (BitVec 6)) (ps : List (BitVec 4)) : (k.overwrite rs ps).vrep = k.vrep := rfl
@[simp] theorem Core.overwrite_vflags (k : Core) (rs : List (BitVec 6)) (ps : List (BitVec 4)) : (k.overwrite rs ps).vflags = k.vflags := rfl
@[simp] theorem Core.overwrite_vloop (k : Core) (rs : List (BitVec 6)) (ps : List (BitVec 4)) : (k.overwrite rs ps).vloop = k.vloop := rfl
@[simp] theorem Core.overwrite_vtrap (k : Core) (rs : List (BitVec 6)) (ps : List (BitVec 4)) : (k.overwrite rs ps).vtrap = k.vtrap := rfl
@[simp] theorem Core.overwrite_vacc (k : Core) (rs : List (BitVec 6)) (ps : List (BitVec 4)) : (k.overwrite rs ps).vacc = k.vacc := rfl
@[simp] theorem Core.overwrite_vpop (k : Core) (rs : List (BitVec 6)) (ps : List (BitVec 4)) : (k.overwrite rs ps).vpop = k.vpop := rfl
@[simp] theorem Core.overwrite_metV (k : Core) (rs : List (BitVec 6)) (ps : List (BitVec 4)) : (k.overwrite rs ps).metV = k.metV := rfl
@[simp] theorem Core.overwrite_metM (k : Core) (rs : List (BitVec 6)) (ps : List (BitVec 4)) : (k.overwrite rs ps).metM = k.metM := rfl
@[simp] theorem Core.overwrite_mseq (k : Core) (rs : List (BitVec 6)) (ps : List (BitVec 4)) : (k.overwrite rs ps).mseq = k.mseq := rfl
@[simp] theorem Core.overwrite_mpc (k : Core) (rs : List (BitVec 6)) (ps : List (BitVec 4)) : (k.overwrite rs ps).mpc = k.mpc := rfl
@[simp] theorem Core.overwrite_mloop (k : Core) (rs : List (BitVec 6)) (ps : List (BitVec 4)) : (k.overwrite rs ps).mloop = k.mloop := rfl
@[simp] theorem Core.overwrite_mflight (k : Core) (rs : List (BitVec 6)) (ps : List (BitVec 4)) : (k.overwrite rs ps).mflight = k.mflight := rfl
@[simp] theorem Core.overwrite_stepNo (k : Core) (rs : List (BitVec 6)) (ps : List (BitVec 4)) : (k.overwrite rs ps).stepNo = k.stepNo := rfl
@[simp] theorem Core.overwrite_sigma (k : Core) (rs : List (BitVec 6)) (ps : List (BitVec 4)) : (k.overwrite rs ps).sigma = k.sigma := rfl
@[simp] theorem Core.overwrite_q (k : Core) (rs : List (BitVec 6)) (ps : List (BitVec 4)) : (k.overwrite rs ps).q = k.q := rfl
@[simp] theorem Core.overwrite_mq (k : Core) (rs : List (BitVec 6)) (ps : List (BitVec 4)) : (k.overwrite rs ps).mq = k.mq := rfl
@[simp] theorem Core.overwrite_rq (k : Core) (rs : List (BitVec 6)) (ps : List (BitVec 4)) : (k.overwrite rs ps).rq = k.rq := rfl
@[simp] theorem Core.overwrite_vq (k : Core) (rs : List (BitVec 6)) (ps : List (BitVec 4)) : (k.overwrite rs ps).vq = k.vq := rfl
@[simp] theorem Core.overwrite_copyq (k : Core) (rs : List (BitVec 6)) (ps : List (BitVec 4)) : (k.overwrite rs ps).copyq = k.copyq := rfl
@[simp] theorem Core.overwrite_copyRun (k : Core) (rs : List (BitVec 6)) (ps : List (BitVec 4)) : (k.overwrite rs ps).copyRun = k.copyRun := rfl
@[simp] theorem Core.overwrite_copyTrap (k : Core) (rs : List (BitVec 6)) (ps : List (BitVec 4)) : (k.overwrite rs ps).copyTrap = k.copyTrap := rfl
@[simp] theorem Core.overwrite_gather (k : Core) (rs : List (BitVec 6)) (ps : List (BitVec 4)) : (k.overwrite rs ps).gather = k.gather := rfl
@[simp] theorem Core.overwrite_bbuf (k : Core) (rs : List (BitVec 6)) (ps : List (BitVec 4)) : (k.overwrite rs ps).bbuf = k.bbuf := rfl
@[simp] theorem Core.overwrite_cs (k : Core) (rs : List (BitVec 6)) (ps : List (BitVec 4)) : (k.overwrite rs ps).cs = k.cs := rfl
@[simp] theorem Core.overwrite_acc (k : Core) (rs : List (BitVec 6)) (ps : List (BitVec 4)) : (k.overwrite rs ps).acc = k.acc := rfl
@[simp] theorem Core.overwrite_csPoison (k : Core) (rs : List (BitVec 6)) (ps : List (BitVec 4)) : (k.overwrite rs ps).csPoison = k.csPoison := rfl
@[simp] theorem Core.overwrite_accPoison (k : Core) (rs : List (BitVec 6)) (ps : List (BitVec 4)) : (k.overwrite rs ps).accPoison = k.accPoison := rfl
@[simp] theorem Core.overwrite_units (k : Core) (rs : List (BitVec 6)) (ps : List (BitVec 4)) : (k.overwrite rs ps).units = k.units := rfl
@[simp] theorem Core.overwrite_fresh (k : Core) (rs : List (BitVec 6)) (ps : List (BitVec 4)) : (k.overwrite rs ps).fresh = k.fresh := rfl
@[simp] theorem Core.overwrite_held (k : Core) (rs : List (BitVec 6)) (ps : List (BitVec 4)) : (k.overwrite rs ps).held = k.held := rfl
@[simp] theorem Core.overwrite_replyA (k : Core) (rs : List (BitVec 6)) (ps : List (BitVec 4)) : (k.overwrite rs ps).replyA = k.replyA := rfl
@[simp] theorem Core.overwrite_storeFaults (k : Core) (rs : List (BitVec 6)) (ps : List (BitVec 4)) : (k.overwrite rs ps).storeFaults = k.storeFaults := rfl
@[simp] theorem Core.overwrite_ndur (k : Core) (rs : List (BitVec 6)) (ps : List (BitVec 4)) : (k.overwrite rs ps).ndur = k.ndur := rfl
@[simp] theorem Core.overwrite_codeBase (k : Core) (rs : List (BitVec 6)) (ps : List (BitVec 4)) : (k.overwrite rs ps).codeBase = k.codeBase := rfl
@[simp] theorem Core.overwrite_codeGen (k : Core) (rs : List (BitVec 6)) (ps : List (BitVec 4)) : (k.overwrite rs ps).codeGen = k.codeGen := rfl
@[simp] theorem Core.overwrite_imgSize (k : Core) (rs : List (BitVec 6)) (ps : List (BitVec 4)) : (k.overwrite rs ps).imgSize = k.imgSize := rfl
@[simp] theorem Core.overwrite_secA (k : Core) (rs : List (BitVec 6)) (ps : List (BitVec 4)) : (k.overwrite rs ps).secA = k.secA := rfl
@[simp] theorem Core.overwrite_secV (k : Core) (rs : List (BitVec 6)) (ps : List (BitVec 4)) : (k.overwrite rs ps).secV = k.secV := rfl
@[simp] theorem Core.overwrite_secM (k : Core) (rs : List (BitVec 6)) (ps : List (BitVec 4)) : (k.overwrite rs ps).secM = k.secM := rfl
@[simp] theorem Core.overwrite_ev (k : Core) (rs : List (BitVec 6)) (ps : List (BitVec 4)) : (k.overwrite rs ps).ev = k.ev := rfl
@[simp] theorem Core.overwrite_evsel (k : Core) (rs : List (BitVec 6)) (ps : List (BitVec 4)) : (k.overwrite rs ps).evsel = k.evsel := rfl
@[simp] theorem Core.overwrite_tally (k : Core) (rs : List (BitVec 6)) (ps : List (BitVec 4)) : (k.overwrite rs ps).tally = k.tally := rfl
@[simp] theorem Core.overwrite_ctemp (k : Core) (rs : List (BitVec 6)) (ps : List (BitVec 4)) : (k.overwrite rs ps).ctemp = k.ctemp := rfl
@[simp] theorem Core.overwrite_phys (k : Core) (rs : List (BitVec 6)) (ps : List (BitVec 4)) : (k.overwrite rs ps).phys = k.phys := rfl
@[simp] theorem Core.overwrite_spare (k : Core) (rs : List (BitVec 6)) (ps : List (BitVec 4)) : (k.overwrite rs ps).spare = k.spare := rfl
@[simp] theorem Core.overwrite_offline (k : Core) (rs : List (BitVec 6)) (ps : List (BitVec 4)) : (k.overwrite rs ps).offline = k.offline := rfl
@[simp] theorem Core.overwrite_dbg (k : Core) (rs : List (BitVec 6)) (ps : List (BitVec 4)) : (k.overwrite rs ps).dbg = k.dbg := rfl

@[simp] theorem Core.note_slot (k : Core) (code : BitVec 8) (n : Nat) : (Core.note code n k).slot = k.slot := rfl
@[simp] theorem Core.note_claimed (k : Core) (code : BitVec 8) (n : Nat) : (Core.note code n k).claimed = k.claimed := rfl
@[simp] theorem Core.note_launch (k : Core) (code : BitVec 8) (n : Nat) : (Core.note code n k).launch = k.launch := rfl
@[simp] theorem Core.note_selPri (k : Core) (code : BitVec 8) (n : Nat) : (Core.note code n k).selPri = k.selPri := rfl
@[simp] theorem Core.note_s (k : Core) (code : BitVec 8) (n : Nat) : (Core.note code n k).s = k.s := rfl
@[simp] theorem Core.note_b (k : Core) (code : BitVec 8) (n : Nat) : (Core.note code n k).b = k.b := rfl
@[simp] theorem Core.note_p (k : Core) (code : BitVec 8) (n : Nat) : (Core.note code n k).p = k.p := rfl
@[simp] theorem Core.note_lc (k : Core) (code : BitVec 8) (n : Nat) : (Core.note code n k).lc = k.lc := rfl
@[simp] theorem Core.note_vlc (k : Core) (code : BitVec 8) (n : Nat) : (Core.note code n k).vlc = k.vlc := rfl
@[simp] theorem Core.note_mlc (k : Core) (code : BitVec 8) (n : Nat) : (Core.note code n k).mlc = k.mlc := rfl
@[simp] theorem Core.note_tc (k : Core) (code : BitVec 8) (n : Nat) : (Core.note code n k).tc = k.tc := rfl
@[simp] theorem Core.note_m (k : Core) (code : BitVec 8) (n : Nat) : (Core.note code n k).m = k.m := rfl
@[simp] theorem Core.note_sem (k : Core) (code : BitVec 8) (n : Nat) : (Core.note code n k).sem = k.sem := rfl
@[simp] theorem Core.note_srkey (k : Core) (code : BitVec 8) (n : Nat) : (Core.note code n k).srkey = k.srkey := rfl
@[simp] theorem Core.note_srctr (k : Core) (code : BitVec 8) (n : Nat) : (Core.note code n k).srctr = k.srctr := rfl
@[simp] theorem Core.note_aexc (k : Core) (code : BitVec 8) (n : Nat) : (Core.note code n k).aexc = k.aexc := rfl
@[simp] theorem Core.note_vexc (k : Core) (code : BitVec 8) (n : Nat) : (Core.note code n k).vexc = k.vexc := rfl
@[simp] theorem Core.note_evec (k : Core) (code : BitVec 8) (n : Nat) : (Core.note code n k).evec = k.evec := rfl
@[simp] theorem Core.note_ecause (k : Core) (code : BitVec 8) (n : Nat) : (Core.note code n k).ecause = k.ecause := rfl
@[simp] theorem Core.note_epc (k : Core) (code : BitVec 8) (n : Nat) : (Core.note code n k).epc = k.epc := rfl
@[simp] theorem Core.note_eval (k : Core) (code : BitVec 8) (n : Nat) : (Core.note code n k).eval = k.eval := rfl
@[simp] theorem Core.note_inHandler (k : Core) (code : BitVec 8) (n : Nat) : (Core.note code n k).inHandler = k.inHandler := rfl
@[simp] theorem Core.note_rearmed (k : Core) (code : BitVec 8) (n : Nat) : (Core.note code n k).rearmed = k.rearmed := rfl
@[simp] theorem Core.note_handlerSince (k : Core) (code : BitVec 8) (n : Nat) : (Core.note code n k).handlerSince = k.handlerSince := rfl
@[simp] theorem Core.note_aseq (k : Core) (code : BitVec 8) (n : Nat) : (Core.note code n k).aseq = k.aseq := rfl
@[simp] theorem Core.note_pc (k : Core) (code : BitVec 8) (n : Nat) : (Core.note code n k).pc = k.pc := rfl
@[simp] theorem Core.note_grd (k : Core) (code : BitVec 8) (n : Nat) : (Core.note code n k).grd = k.grd := rfl
@[simp] theorem Core.note_wait (k : Core) (code : BitVec 8) (n : Nat) : (Core.note code n k).wait = k.wait := rfl
@[simp] theorem Core.note_spin (k : Core) (code : BitVec 8) (n : Nat) : (Core.note code n k).spin = k.spin := rfl
@[simp] theorem Core.note_exitDue (k : Core) (code : BitVec 8) (n : Nat) : (Core.note code n k).exitDue = k.exitDue := rfl
@[simp] theorem Core.note_passA (k : Core) (code : BitVec 8) (n : Nat) : (Core.note code n k).passA = k.passA := rfl
@[simp] theorem Core.note_passV (k : Core) (code : BitVec 8) (n : Nat) : (Core.note code n k).passV = k.passV := rfl
@[simp] theorem Core.note_passM (k : Core) (code : BitVec 8) (n : Nat) : (Core.note code n k).passM = k.passM := rfl
@[simp] theorem Core.note_stop (k : Core) (code : BitVec 8) (n : Nat) : (Core.note code n k).stop = k.stop := rfl
@[simp] theorem Core.note_vseq (k : Core) (code : BitVec 8) (n : Nat) : (Core.note code n k).vseq = k.vseq := rfl
@[simp] theorem Core.note_vpc (k : Core) (code : BitVec 8) (n : Nat) : (Core.note code n k).vpc = k.vpc := rfl
@[simp] theorem Core.note_vrep (k : Core) (code : BitVec 8) (n : Nat) : (Core.note code n k).vrep = k.vrep := rfl
@[simp] theorem Core.note_vflags (k : Core) (code : BitVec 8) (n : Nat) : (Core.note code n k).vflags = k.vflags := rfl
@[simp] theorem Core.note_vloop (k : Core) (code : BitVec 8) (n : Nat) : (Core.note code n k).vloop = k.vloop := rfl
@[simp] theorem Core.note_vtrap (k : Core) (code : BitVec 8) (n : Nat) : (Core.note code n k).vtrap = k.vtrap := rfl
@[simp] theorem Core.note_vacc (k : Core) (code : BitVec 8) (n : Nat) : (Core.note code n k).vacc = k.vacc := rfl
@[simp] theorem Core.note_vpop (k : Core) (code : BitVec 8) (n : Nat) : (Core.note code n k).vpop = k.vpop := rfl
@[simp] theorem Core.note_metV (k : Core) (code : BitVec 8) (n : Nat) : (Core.note code n k).metV = k.metV := rfl
@[simp] theorem Core.note_metM (k : Core) (code : BitVec 8) (n : Nat) : (Core.note code n k).metM = k.metM := rfl
@[simp] theorem Core.note_mseq (k : Core) (code : BitVec 8) (n : Nat) : (Core.note code n k).mseq = k.mseq := rfl
@[simp] theorem Core.note_mpc (k : Core) (code : BitVec 8) (n : Nat) : (Core.note code n k).mpc = k.mpc := rfl
@[simp] theorem Core.note_mloop (k : Core) (code : BitVec 8) (n : Nat) : (Core.note code n k).mloop = k.mloop := rfl
@[simp] theorem Core.note_mflight (k : Core) (code : BitVec 8) (n : Nat) : (Core.note code n k).mflight = k.mflight := rfl
@[simp] theorem Core.note_stepNo (k : Core) (code : BitVec 8) (n : Nat) : (Core.note code n k).stepNo = k.stepNo := rfl
@[simp] theorem Core.note_sigma (k : Core) (code : BitVec 8) (n : Nat) : (Core.note code n k).sigma = k.sigma := rfl
@[simp] theorem Core.note_q (k : Core) (code : BitVec 8) (n : Nat) : (Core.note code n k).q = k.q := rfl
@[simp] theorem Core.note_mq (k : Core) (code : BitVec 8) (n : Nat) : (Core.note code n k).mq = k.mq := rfl
@[simp] theorem Core.note_rq (k : Core) (code : BitVec 8) (n : Nat) : (Core.note code n k).rq = k.rq := rfl
@[simp] theorem Core.note_vq (k : Core) (code : BitVec 8) (n : Nat) : (Core.note code n k).vq = k.vq := rfl
@[simp] theorem Core.note_copyq (k : Core) (code : BitVec 8) (n : Nat) : (Core.note code n k).copyq = k.copyq := rfl
@[simp] theorem Core.note_copyRun (k : Core) (code : BitVec 8) (n : Nat) : (Core.note code n k).copyRun = k.copyRun := rfl
@[simp] theorem Core.note_copyTrap (k : Core) (code : BitVec 8) (n : Nat) : (Core.note code n k).copyTrap = k.copyTrap := rfl
@[simp] theorem Core.note_gather (k : Core) (code : BitVec 8) (n : Nat) : (Core.note code n k).gather = k.gather := rfl
@[simp] theorem Core.note_bbuf (k : Core) (code : BitVec 8) (n : Nat) : (Core.note code n k).bbuf = k.bbuf := rfl
@[simp] theorem Core.note_cs (k : Core) (code : BitVec 8) (n : Nat) : (Core.note code n k).cs = k.cs := rfl
@[simp] theorem Core.note_acc (k : Core) (code : BitVec 8) (n : Nat) : (Core.note code n k).acc = k.acc := rfl
@[simp] theorem Core.note_csPoison (k : Core) (code : BitVec 8) (n : Nat) : (Core.note code n k).csPoison = k.csPoison := rfl
@[simp] theorem Core.note_accPoison (k : Core) (code : BitVec 8) (n : Nat) : (Core.note code n k).accPoison = k.accPoison := rfl
@[simp] theorem Core.note_units (k : Core) (code : BitVec 8) (n : Nat) : (Core.note code n k).units = k.units := rfl
@[simp] theorem Core.note_fresh (k : Core) (code : BitVec 8) (n : Nat) : (Core.note code n k).fresh = k.fresh := rfl
@[simp] theorem Core.note_held (k : Core) (code : BitVec 8) (n : Nat) : (Core.note code n k).held = k.held := rfl
@[simp] theorem Core.note_out (k : Core) (code : BitVec 8) (n : Nat) : (Core.note code n k).out = k.out := rfl
@[simp] theorem Core.note_replyA (k : Core) (code : BitVec 8) (n : Nat) : (Core.note code n k).replyA = k.replyA := rfl
@[simp] theorem Core.note_storeFaults (k : Core) (code : BitVec 8) (n : Nat) : (Core.note code n k).storeFaults = k.storeFaults := rfl
@[simp] theorem Core.note_ndur (k : Core) (code : BitVec 8) (n : Nat) : (Core.note code n k).ndur = k.ndur := rfl
@[simp] theorem Core.note_codeBase (k : Core) (code : BitVec 8) (n : Nat) : (Core.note code n k).codeBase = k.codeBase := rfl
@[simp] theorem Core.note_codeGen (k : Core) (code : BitVec 8) (n : Nat) : (Core.note code n k).codeGen = k.codeGen := rfl
@[simp] theorem Core.note_imgSize (k : Core) (code : BitVec 8) (n : Nat) : (Core.note code n k).imgSize = k.imgSize := rfl
@[simp] theorem Core.note_secA (k : Core) (code : BitVec 8) (n : Nat) : (Core.note code n k).secA = k.secA := rfl
@[simp] theorem Core.note_secV (k : Core) (code : BitVec 8) (n : Nat) : (Core.note code n k).secV = k.secV := rfl
@[simp] theorem Core.note_secM (k : Core) (code : BitVec 8) (n : Nat) : (Core.note code n k).secM = k.secM := rfl
@[simp] theorem Core.note_ev (k : Core) (code : BitVec 8) (n : Nat) : (Core.note code n k).ev = k.ev := rfl
@[simp] theorem Core.note_evsel (k : Core) (code : BitVec 8) (n : Nat) : (Core.note code n k).evsel = k.evsel := rfl
@[simp] theorem Core.note_ctemp (k : Core) (code : BitVec 8) (n : Nat) : (Core.note code n k).ctemp = k.ctemp := rfl
@[simp] theorem Core.note_phys (k : Core) (code : BitVec 8) (n : Nat) : (Core.note code n k).phys = k.phys := rfl
@[simp] theorem Core.note_spare (k : Core) (code : BitVec 8) (n : Nat) : (Core.note code n k).spare = k.spare := rfl
@[simp] theorem Core.note_offline (k : Core) (code : BitVec 8) (n : Nat) : (Core.note code n k).offline = k.offline := rfl
@[simp] theorem Core.note_dbg (k : Core) (code : BitVec 8) (n : Nat) : (Core.note code n k).dbg = k.dbg := rfl

@[simp] theorem Core.advance_slot (k : Core) : (k.advance).slot = k.slot := rfl
@[simp] theorem Core.advance_claimed (k : Core) : (k.advance).claimed = k.claimed := rfl
@[simp] theorem Core.advance_launch (k : Core) : (k.advance).launch = k.launch := rfl
@[simp] theorem Core.advance_selPri (k : Core) : (k.advance).selPri = k.selPri := rfl
@[simp] theorem Core.advance_s (k : Core) : (k.advance).s = k.s := rfl
@[simp] theorem Core.advance_b (k : Core) : (k.advance).b = k.b := rfl
@[simp] theorem Core.advance_p (k : Core) : (k.advance).p = k.p := rfl
@[simp] theorem Core.advance_lc (k : Core) : (k.advance).lc = k.lc := rfl
@[simp] theorem Core.advance_vlc (k : Core) : (k.advance).vlc = k.vlc := rfl
@[simp] theorem Core.advance_mlc (k : Core) : (k.advance).mlc = k.mlc := rfl
@[simp] theorem Core.advance_tc (k : Core) : (k.advance).tc = k.tc := rfl
@[simp] theorem Core.advance_m (k : Core) : (k.advance).m = k.m := rfl
@[simp] theorem Core.advance_sem (k : Core) : (k.advance).sem = k.sem := rfl
@[simp] theorem Core.advance_srkey (k : Core) : (k.advance).srkey = k.srkey := rfl
@[simp] theorem Core.advance_srctr (k : Core) : (k.advance).srctr = k.srctr := rfl
@[simp] theorem Core.advance_aexc (k : Core) : (k.advance).aexc = k.aexc := rfl
@[simp] theorem Core.advance_vexc (k : Core) : (k.advance).vexc = k.vexc := rfl
@[simp] theorem Core.advance_evec (k : Core) : (k.advance).evec = k.evec := rfl
@[simp] theorem Core.advance_ecause (k : Core) : (k.advance).ecause = k.ecause := rfl
@[simp] theorem Core.advance_epc (k : Core) : (k.advance).epc = k.epc := rfl
@[simp] theorem Core.advance_eval (k : Core) : (k.advance).eval = k.eval := rfl
@[simp] theorem Core.advance_inHandler (k : Core) : (k.advance).inHandler = k.inHandler := rfl
@[simp] theorem Core.advance_rearmed (k : Core) : (k.advance).rearmed = k.rearmed := rfl
@[simp] theorem Core.advance_handlerSince (k : Core) : (k.advance).handlerSince = k.handlerSince := rfl
@[simp] theorem Core.advance_aseq (k : Core) : (k.advance).aseq = k.aseq := rfl
@[simp] theorem Core.advance_wait (k : Core) : (k.advance).wait = k.wait := rfl
@[simp] theorem Core.advance_spin (k : Core) : (k.advance).spin = k.spin := rfl
@[simp] theorem Core.advance_exitDue (k : Core) : (k.advance).exitDue = k.exitDue := rfl
@[simp] theorem Core.advance_passA (k : Core) : (k.advance).passA = k.passA := rfl
@[simp] theorem Core.advance_passV (k : Core) : (k.advance).passV = k.passV := rfl
@[simp] theorem Core.advance_passM (k : Core) : (k.advance).passM = k.passM := rfl
@[simp] theorem Core.advance_stop (k : Core) : (k.advance).stop = k.stop := rfl
@[simp] theorem Core.advance_vseq (k : Core) : (k.advance).vseq = k.vseq := rfl
@[simp] theorem Core.advance_vpc (k : Core) : (k.advance).vpc = k.vpc := rfl
@[simp] theorem Core.advance_vrep (k : Core) : (k.advance).vrep = k.vrep := rfl
@[simp] theorem Core.advance_vflags (k : Core) : (k.advance).vflags = k.vflags := rfl
@[simp] theorem Core.advance_vloop (k : Core) : (k.advance).vloop = k.vloop := rfl
@[simp] theorem Core.advance_vtrap (k : Core) : (k.advance).vtrap = k.vtrap := rfl
@[simp] theorem Core.advance_vacc (k : Core) : (k.advance).vacc = k.vacc := rfl
@[simp] theorem Core.advance_vpop (k : Core) : (k.advance).vpop = k.vpop := rfl
@[simp] theorem Core.advance_metV (k : Core) : (k.advance).metV = k.metV := rfl
@[simp] theorem Core.advance_metM (k : Core) : (k.advance).metM = k.metM := rfl
@[simp] theorem Core.advance_mseq (k : Core) : (k.advance).mseq = k.mseq := rfl
@[simp] theorem Core.advance_mpc (k : Core) : (k.advance).mpc = k.mpc := rfl
@[simp] theorem Core.advance_mloop (k : Core) : (k.advance).mloop = k.mloop := rfl
@[simp] theorem Core.advance_mflight (k : Core) : (k.advance).mflight = k.mflight := rfl
@[simp] theorem Core.advance_stepNo (k : Core) : (k.advance).stepNo = k.stepNo := rfl
@[simp] theorem Core.advance_sigma (k : Core) : (k.advance).sigma = k.sigma := rfl
@[simp] theorem Core.advance_q (k : Core) : (k.advance).q = k.q := rfl
@[simp] theorem Core.advance_mq (k : Core) : (k.advance).mq = k.mq := rfl
@[simp] theorem Core.advance_rq (k : Core) : (k.advance).rq = k.rq := rfl
@[simp] theorem Core.advance_vq (k : Core) : (k.advance).vq = k.vq := rfl
@[simp] theorem Core.advance_copyq (k : Core) : (k.advance).copyq = k.copyq := rfl
@[simp] theorem Core.advance_copyRun (k : Core) : (k.advance).copyRun = k.copyRun := rfl
@[simp] theorem Core.advance_copyTrap (k : Core) : (k.advance).copyTrap = k.copyTrap := rfl
@[simp] theorem Core.advance_gather (k : Core) : (k.advance).gather = k.gather := rfl
@[simp] theorem Core.advance_bbuf (k : Core) : (k.advance).bbuf = k.bbuf := rfl
@[simp] theorem Core.advance_cs (k : Core) : (k.advance).cs = k.cs := rfl
@[simp] theorem Core.advance_acc (k : Core) : (k.advance).acc = k.acc := rfl
@[simp] theorem Core.advance_csPoison (k : Core) : (k.advance).csPoison = k.csPoison := rfl
@[simp] theorem Core.advance_accPoison (k : Core) : (k.advance).accPoison = k.accPoison := rfl
@[simp] theorem Core.advance_units (k : Core) : (k.advance).units = k.units := rfl
@[simp] theorem Core.advance_fresh (k : Core) : (k.advance).fresh = k.fresh := rfl
@[simp] theorem Core.advance_held (k : Core) : (k.advance).held = k.held := rfl
@[simp] theorem Core.advance_out (k : Core) : (k.advance).out = k.out := rfl
@[simp] theorem Core.advance_replyA (k : Core) : (k.advance).replyA = k.replyA := rfl
@[simp] theorem Core.advance_storeFaults (k : Core) : (k.advance).storeFaults = k.storeFaults := rfl
@[simp] theorem Core.advance_ndur (k : Core) : (k.advance).ndur = k.ndur := rfl
@[simp] theorem Core.advance_codeBase (k : Core) : (k.advance).codeBase = k.codeBase := rfl
@[simp] theorem Core.advance_codeGen (k : Core) : (k.advance).codeGen = k.codeGen := rfl
@[simp] theorem Core.advance_imgSize (k : Core) : (k.advance).imgSize = k.imgSize := rfl
@[simp] theorem Core.advance_secA (k : Core) : (k.advance).secA = k.secA := rfl
@[simp] theorem Core.advance_secV (k : Core) : (k.advance).secV = k.secV := rfl
@[simp] theorem Core.advance_secM (k : Core) : (k.advance).secM = k.secM := rfl
@[simp] theorem Core.advance_ev (k : Core) : (k.advance).ev = k.ev := rfl
@[simp] theorem Core.advance_evsel (k : Core) : (k.advance).evsel = k.evsel := rfl
@[simp] theorem Core.advance_ctemp (k : Core) : (k.advance).ctemp = k.ctemp := rfl
@[simp] theorem Core.advance_phys (k : Core) : (k.advance).phys = k.phys := rfl
@[simp] theorem Core.advance_spare (k : Core) : (k.advance).spare = k.spare := rfl
@[simp] theorem Core.advance_offline (k : Core) : (k.advance).offline = k.offline := rfl
@[simp] theorem Core.advance_dbg (k : Core) : (k.advance).dbg = k.dbg := rfl

@[simp] theorem Core.back_slot (k : Core) : (k.back).slot = k.slot := rfl
@[simp] theorem Core.back_claimed (k : Core) : (k.back).claimed = k.claimed := rfl
@[simp] theorem Core.back_launch (k : Core) : (k.back).launch = k.launch := rfl
@[simp] theorem Core.back_selPri (k : Core) : (k.back).selPri = k.selPri := rfl
@[simp] theorem Core.back_s (k : Core) : (k.back).s = k.s := rfl
@[simp] theorem Core.back_b (k : Core) : (k.back).b = k.b := rfl
@[simp] theorem Core.back_p (k : Core) : (k.back).p = k.p := rfl
@[simp] theorem Core.back_lc (k : Core) : (k.back).lc = k.lc := rfl
@[simp] theorem Core.back_vlc (k : Core) : (k.back).vlc = k.vlc := rfl
@[simp] theorem Core.back_mlc (k : Core) : (k.back).mlc = k.mlc := rfl
@[simp] theorem Core.back_tc (k : Core) : (k.back).tc = k.tc := rfl
@[simp] theorem Core.back_m (k : Core) : (k.back).m = k.m := rfl
@[simp] theorem Core.back_sem (k : Core) : (k.back).sem = k.sem := rfl
@[simp] theorem Core.back_srkey (k : Core) : (k.back).srkey = k.srkey := rfl
@[simp] theorem Core.back_srctr (k : Core) : (k.back).srctr = k.srctr := rfl
@[simp] theorem Core.back_aexc (k : Core) : (k.back).aexc = k.aexc := rfl
@[simp] theorem Core.back_vexc (k : Core) : (k.back).vexc = k.vexc := rfl
@[simp] theorem Core.back_evec (k : Core) : (k.back).evec = k.evec := rfl
@[simp] theorem Core.back_ecause (k : Core) : (k.back).ecause = k.ecause := rfl
@[simp] theorem Core.back_epc (k : Core) : (k.back).epc = k.epc := rfl
@[simp] theorem Core.back_eval (k : Core) : (k.back).eval = k.eval := rfl
@[simp] theorem Core.back_inHandler (k : Core) : (k.back).inHandler = k.inHandler := rfl
@[simp] theorem Core.back_rearmed (k : Core) : (k.back).rearmed = k.rearmed := rfl
@[simp] theorem Core.back_handlerSince (k : Core) : (k.back).handlerSince = k.handlerSince := rfl
@[simp] theorem Core.back_aseq (k : Core) : (k.back).aseq = k.aseq := rfl
@[simp] theorem Core.back_wait (k : Core) : (k.back).wait = k.wait := rfl
@[simp] theorem Core.back_spin (k : Core) : (k.back).spin = k.spin := rfl
@[simp] theorem Core.back_exitDue (k : Core) : (k.back).exitDue = k.exitDue := rfl
@[simp] theorem Core.back_passA (k : Core) : (k.back).passA = k.passA := rfl
@[simp] theorem Core.back_passV (k : Core) : (k.back).passV = k.passV := rfl
@[simp] theorem Core.back_passM (k : Core) : (k.back).passM = k.passM := rfl
@[simp] theorem Core.back_stop (k : Core) : (k.back).stop = k.stop := rfl
@[simp] theorem Core.back_vseq (k : Core) : (k.back).vseq = k.vseq := rfl
@[simp] theorem Core.back_vpc (k : Core) : (k.back).vpc = k.vpc := rfl
@[simp] theorem Core.back_vrep (k : Core) : (k.back).vrep = k.vrep := rfl
@[simp] theorem Core.back_vflags (k : Core) : (k.back).vflags = k.vflags := rfl
@[simp] theorem Core.back_vloop (k : Core) : (k.back).vloop = k.vloop := rfl
@[simp] theorem Core.back_vtrap (k : Core) : (k.back).vtrap = k.vtrap := rfl
@[simp] theorem Core.back_vacc (k : Core) : (k.back).vacc = k.vacc := rfl
@[simp] theorem Core.back_vpop (k : Core) : (k.back).vpop = k.vpop := rfl
@[simp] theorem Core.back_metV (k : Core) : (k.back).metV = k.metV := rfl
@[simp] theorem Core.back_metM (k : Core) : (k.back).metM = k.metM := rfl
@[simp] theorem Core.back_mseq (k : Core) : (k.back).mseq = k.mseq := rfl
@[simp] theorem Core.back_mpc (k : Core) : (k.back).mpc = k.mpc := rfl
@[simp] theorem Core.back_mloop (k : Core) : (k.back).mloop = k.mloop := rfl
@[simp] theorem Core.back_mflight (k : Core) : (k.back).mflight = k.mflight := rfl
@[simp] theorem Core.back_stepNo (k : Core) : (k.back).stepNo = k.stepNo := rfl
@[simp] theorem Core.back_sigma (k : Core) : (k.back).sigma = k.sigma := rfl
@[simp] theorem Core.back_q (k : Core) : (k.back).q = k.q := rfl
@[simp] theorem Core.back_mq (k : Core) : (k.back).mq = k.mq := rfl
@[simp] theorem Core.back_rq (k : Core) : (k.back).rq = k.rq := rfl
@[simp] theorem Core.back_vq (k : Core) : (k.back).vq = k.vq := rfl
@[simp] theorem Core.back_copyq (k : Core) : (k.back).copyq = k.copyq := rfl
@[simp] theorem Core.back_copyRun (k : Core) : (k.back).copyRun = k.copyRun := rfl
@[simp] theorem Core.back_copyTrap (k : Core) : (k.back).copyTrap = k.copyTrap := rfl
@[simp] theorem Core.back_gather (k : Core) : (k.back).gather = k.gather := rfl
@[simp] theorem Core.back_bbuf (k : Core) : (k.back).bbuf = k.bbuf := rfl
@[simp] theorem Core.back_cs (k : Core) : (k.back).cs = k.cs := rfl
@[simp] theorem Core.back_acc (k : Core) : (k.back).acc = k.acc := rfl
@[simp] theorem Core.back_csPoison (k : Core) : (k.back).csPoison = k.csPoison := rfl
@[simp] theorem Core.back_accPoison (k : Core) : (k.back).accPoison = k.accPoison := rfl
@[simp] theorem Core.back_units (k : Core) : (k.back).units = k.units := rfl
@[simp] theorem Core.back_fresh (k : Core) : (k.back).fresh = k.fresh := rfl
@[simp] theorem Core.back_held (k : Core) : (k.back).held = k.held := rfl
@[simp] theorem Core.back_out (k : Core) : (k.back).out = k.out := rfl
@[simp] theorem Core.back_replyA (k : Core) : (k.back).replyA = k.replyA := rfl
@[simp] theorem Core.back_storeFaults (k : Core) : (k.back).storeFaults = k.storeFaults := rfl
@[simp] theorem Core.back_ndur (k : Core) : (k.back).ndur = k.ndur := rfl
@[simp] theorem Core.back_codeBase (k : Core) : (k.back).codeBase = k.codeBase := rfl
@[simp] theorem Core.back_codeGen (k : Core) : (k.back).codeGen = k.codeGen := rfl
@[simp] theorem Core.back_imgSize (k : Core) : (k.back).imgSize = k.imgSize := rfl
@[simp] theorem Core.back_secA (k : Core) : (k.back).secA = k.secA := rfl
@[simp] theorem Core.back_secV (k : Core) : (k.back).secV = k.secV := rfl
@[simp] theorem Core.back_secM (k : Core) : (k.back).secM = k.secM := rfl
@[simp] theorem Core.back_ev (k : Core) : (k.back).ev = k.ev := rfl
@[simp] theorem Core.back_evsel (k : Core) : (k.back).evsel = k.evsel := rfl
@[simp] theorem Core.back_tally (k : Core) : (k.back).tally = k.tally := rfl
@[simp] theorem Core.back_ctemp (k : Core) : (k.back).ctemp = k.ctemp := rfl
@[simp] theorem Core.back_phys (k : Core) : (k.back).phys = k.phys := rfl
@[simp] theorem Core.back_spare (k : Core) : (k.back).spare = k.spare := rfl
@[simp] theorem Core.back_offline (k : Core) : (k.back).offline = k.offline := rfl
@[simp] theorem Core.back_dbg (k : Core) : (k.back).dbg = k.dbg := rfl

/-! ## Updates of the state -/

@[simp] theorem withCore_cur (f : Core → Core) (s : State) : (withCore f s).cur = s.cur := rfl
@[simp] theorem withCore_parked (f : Core → Core) (s : State) : (withCore f s).parked = s.parked := rfl
@[simp] theorem withCore_turn (f : Core → Core) (s : State) : (withCore f s).turn = s.turn := rfl
@[simp] theorem withCore_agenda (f : Core → Core) (s : State) : (withCore f s).agenda = s.agenda := rfl
@[simp] theorem withCore_freshVal (f : Core → Core) (s : State) : (withCore f s).freshVal = s.freshVal := rfl
@[simp] theorem withCore_nextId (f : Core → Core) (s : State) : (withCore f s).nextId = s.nextId := rfl
@[simp] theorem withCore_time (f : Core → Core) (s : State) : (withCore f s).time = s.time := rfl
@[simp] theorem withCore_clkMx (f : Core → Core) (s : State) : (withCore f s).clkMx = s.clkMx := rfl
@[simp] theorem withCore_clkVx (f : Core → Core) (s : State) : (withCore f s).clkVx = s.clkVx := rfl
@[simp] theorem withCore_clkVault (f : Core → Core) (s : State) : (withCore f s).clkVault = s.clkVault := rfl
@[simp] theorem withCore_partMx (f : Core → Core) (s : State) : (withCore f s).partMx = s.partMx := rfl
@[simp] theorem withCore_partVx (f : Core → Core) (s : State) : (withCore f s).partVx = s.partVx := rfl
@[simp] theorem withCore_partVault (f : Core → Core) (s : State) : (withCore f s).partVault = s.partVault := rfl
@[simp] theorem withCore_mem (f : Core → Core) (s : State) : (withCore f s).mem = s.mem := rfl
@[simp] theorem withCore_poison (f : Core → Core) (s : State) : (withCore f s).poison = s.poison := rfl
@[simp] theorem withCore_images (f : Core → Core) (s : State) : (withCore f s).images = s.images := rfl
@[simp] theorem withCore_pool (f : Core → Core) (s : State) : (withCore f s).pool = s.pool := rfl
@[simp] theorem withCore_nextPlace (f : Core → Core) (s : State) : (withCore f s).nextPlace = s.nextPlace := rfl
@[simp] theorem withCore_monitors (f : Core → Core) (s : State) : (withCore f s).monitors = s.monitors := rfl
@[simp] theorem withCore_prog (f : Core → Core) (s : State) : (withCore f s).prog = s.prog := rfl
@[simp] theorem withCore_starv (f : Core → Core) (s : State) : (withCore f s).starv = s.starv := rfl
@[simp] theorem withCore_skeins (f : Core → Core) (s : State) : (withCore f s).skeins = s.skeins := rfl
@[simp] theorem withCore_barGen (f : Core → Core) (s : State) : (withCore f s).barGen = s.barGen := rfl
@[simp] theorem withCore_backings (f : Core → Core) (s : State) : (withCore f s).backings = s.backings := rfl
@[simp] theorem withCore_panels (f : Core → Core) (s : State) : (withCore f s).panels = s.panels := rfl
@[simp] theorem withCore_blocks (f : Core → Core) (s : State) : (withCore f s).blocks = s.blocks := rfl
@[simp] theorem withCore_blocksLock (f : Core → Core) (s : State) : (withCore f s).blocksLock = s.blocksLock := rfl
@[simp] theorem withCore_blockSlots (f : Core → Core) (s : State) : (withCore f s).blockSlots = s.blockSlots := rfl
@[simp] theorem withCore_blockNames (f : Core → Core) (s : State) : (withCore f s).blockNames = s.blockNames := rfl
@[simp] theorem withCore_eccCorr (f : Core → Core) (s : State) : (withCore f s).eccCorr = s.eccCorr := rfl
@[simp] theorem withCore_eccUnc (f : Core → Core) (s : State) : (withCore f s).eccUnc = s.eccUnc := rfl
@[simp] theorem withCore_uelast (f : Core → Core) (s : State) : (withCore f s).uelast = s.uelast := rfl
@[simp] theorem withCore_vcol (f : Core → Core) (s : State) : (withCore f s).vcol = s.vcol := rfl
@[simp] theorem withCore_coreLanes (f : Core → Core) (s : State) : (withCore f s).coreLanes = s.coreLanes := rfl
@[simp] theorem withCore_hardVcol (f : Core → Core) (s : State) : (withCore f s).hardVcol = s.hardVcol := rfl
@[simp] theorem withCore_hardLanes (f : Core → Core) (s : State) : (withCore f s).hardLanes = s.hardLanes := rfl
@[simp] theorem withCore_retrain (f : Core → Core) (s : State) : (withCore f s).retrain = s.retrain := rfl
@[simp] theorem withCore_queues (f : Core → Core) (s : State) : (withCore f s).queues = s.queues := rfl
@[simp] theorem withCore_launches (f : Core → Core) (s : State) : (withCore f s).launches = s.launches := rfl
@[simp] theorem withCore_lastQueue (f : Core → Core) (s : State) : (withCore f s).lastQueue = s.lastQueue := rfl
@[simp] theorem withCore_mailboxes (f : Core → Core) (s : State) : (withCore f s).mailboxes = s.mailboxes := rfl
@[simp] theorem withCore_mbOrder (f : Core → Core) (s : State) : (withCore f s).mbOrder = s.mbOrder := rfl
@[simp] theorem withCore_grants (f : Core → Core) (s : State) : (withCore f s).grants = s.grants := rfl
@[simp] theorem withCore_kvDrop (f : Core → Core) (s : State) : (withCore f s).kvDrop = s.kvDrop := rfl
@[simp] theorem withCore_evring (f : Core → Core) (s : State) : (withCore f s).evring = s.evring := rfl
@[simp] theorem withCore_irqs (f : Core → Core) (s : State) : (withCore f s).irqs = s.irqs := rfl
@[simp] theorem withCore_hostRead (f : Core → Core) (s : State) : (withCore f s).hostRead = s.hostRead := rfl
@[simp] theorem withCore_hostWait (f : Core → Core) (s : State) : (withCore f s).hostWait = s.hostWait := rfl
@[simp] theorem withCore_miller (f : Core → Core) (s : State) : (withCore f s).miller = s.miller := rfl
@[simp] theorem withCore_boot (f : Core → Core) (s : State) : (withCore f s).boot = s.boot := rfl
@[simp] theorem withCore_power (f : Core → Core) (s : State) : (withCore f s).power = s.power := rfl
@[simp] theorem withCore_tally (f : Core → Core) (s : State) : (withCore f s).tally = s.tally := rfl
@[simp] theorem withCore_dbg (f : Core → Core) (s : State) : (withCore f s).dbg = s.dbg := rfl
@[simp] theorem withCore_net (f : Core → Core) (s : State) : (withCore f s).net = s.net := rfl
@[simp] theorem withCore_fab (f : Core → Core) (s : State) : (withCore f s).fab = s.fab := rfl
@[simp] theorem withCore_sv (f : Core → Core) (s : State) : (withCore f s).sv = s.sv := rfl

@[simp] theorem setS_cur (r : BitVec 6) (x : Word) (s : State) : (setS r x s).cur = s.cur := rfl
@[simp] theorem setS_parked (r : BitVec 6) (x : Word) (s : State) : (setS r x s).parked = s.parked := rfl
@[simp] theorem setS_turn (r : BitVec 6) (x : Word) (s : State) : (setS r x s).turn = s.turn := rfl
@[simp] theorem setS_agenda (r : BitVec 6) (x : Word) (s : State) : (setS r x s).agenda = s.agenda := rfl
@[simp] theorem setS_freshVal (r : BitVec 6) (x : Word) (s : State) : (setS r x s).freshVal = s.freshVal := rfl
@[simp] theorem setS_nextId (r : BitVec 6) (x : Word) (s : State) : (setS r x s).nextId = s.nextId := rfl
@[simp] theorem setS_time (r : BitVec 6) (x : Word) (s : State) : (setS r x s).time = s.time := rfl
@[simp] theorem setS_clkMx (r : BitVec 6) (x : Word) (s : State) : (setS r x s).clkMx = s.clkMx := rfl
@[simp] theorem setS_clkVx (r : BitVec 6) (x : Word) (s : State) : (setS r x s).clkVx = s.clkVx := rfl
@[simp] theorem setS_clkVault (r : BitVec 6) (x : Word) (s : State) : (setS r x s).clkVault = s.clkVault := rfl
@[simp] theorem setS_partMx (r : BitVec 6) (x : Word) (s : State) : (setS r x s).partMx = s.partMx := rfl
@[simp] theorem setS_partVx (r : BitVec 6) (x : Word) (s : State) : (setS r x s).partVx = s.partVx := rfl
@[simp] theorem setS_partVault (r : BitVec 6) (x : Word) (s : State) : (setS r x s).partVault = s.partVault := rfl
@[simp] theorem setS_mem (r : BitVec 6) (x : Word) (s : State) : (setS r x s).mem = s.mem := rfl
@[simp] theorem setS_poison (r : BitVec 6) (x : Word) (s : State) : (setS r x s).poison = s.poison := rfl
@[simp] theorem setS_images (r : BitVec 6) (x : Word) (s : State) : (setS r x s).images = s.images := rfl
@[simp] theorem setS_pool (r : BitVec 6) (x : Word) (s : State) : (setS r x s).pool = s.pool := rfl
@[simp] theorem setS_nextPlace (r : BitVec 6) (x : Word) (s : State) : (setS r x s).nextPlace = s.nextPlace := rfl
@[simp] theorem setS_monitors (r : BitVec 6) (x : Word) (s : State) : (setS r x s).monitors = s.monitors := rfl
@[simp] theorem setS_prog (r : BitVec 6) (x : Word) (s : State) : (setS r x s).prog = s.prog := rfl
@[simp] theorem setS_starv (r : BitVec 6) (x : Word) (s : State) : (setS r x s).starv = s.starv := rfl
@[simp] theorem setS_skeins (r : BitVec 6) (x : Word) (s : State) : (setS r x s).skeins = s.skeins := rfl
@[simp] theorem setS_barGen (r : BitVec 6) (x : Word) (s : State) : (setS r x s).barGen = s.barGen := rfl
@[simp] theorem setS_backings (r : BitVec 6) (x : Word) (s : State) : (setS r x s).backings = s.backings := rfl
@[simp] theorem setS_panels (r : BitVec 6) (x : Word) (s : State) : (setS r x s).panels = s.panels := rfl
@[simp] theorem setS_blocks (r : BitVec 6) (x : Word) (s : State) : (setS r x s).blocks = s.blocks := rfl
@[simp] theorem setS_blocksLock (r : BitVec 6) (x : Word) (s : State) : (setS r x s).blocksLock = s.blocksLock := rfl
@[simp] theorem setS_blockSlots (r : BitVec 6) (x : Word) (s : State) : (setS r x s).blockSlots = s.blockSlots := rfl
@[simp] theorem setS_blockNames (r : BitVec 6) (x : Word) (s : State) : (setS r x s).blockNames = s.blockNames := rfl
@[simp] theorem setS_eccCorr (r : BitVec 6) (x : Word) (s : State) : (setS r x s).eccCorr = s.eccCorr := rfl
@[simp] theorem setS_eccUnc (r : BitVec 6) (x : Word) (s : State) : (setS r x s).eccUnc = s.eccUnc := rfl
@[simp] theorem setS_uelast (r : BitVec 6) (x : Word) (s : State) : (setS r x s).uelast = s.uelast := rfl
@[simp] theorem setS_vcol (r : BitVec 6) (x : Word) (s : State) : (setS r x s).vcol = s.vcol := rfl
@[simp] theorem setS_coreLanes (r : BitVec 6) (x : Word) (s : State) : (setS r x s).coreLanes = s.coreLanes := rfl
@[simp] theorem setS_hardVcol (r : BitVec 6) (x : Word) (s : State) : (setS r x s).hardVcol = s.hardVcol := rfl
@[simp] theorem setS_hardLanes (r : BitVec 6) (x : Word) (s : State) : (setS r x s).hardLanes = s.hardLanes := rfl
@[simp] theorem setS_retrain (r : BitVec 6) (x : Word) (s : State) : (setS r x s).retrain = s.retrain := rfl
@[simp] theorem setS_queues (r : BitVec 6) (x : Word) (s : State) : (setS r x s).queues = s.queues := rfl
@[simp] theorem setS_launches (r : BitVec 6) (x : Word) (s : State) : (setS r x s).launches = s.launches := rfl
@[simp] theorem setS_lastQueue (r : BitVec 6) (x : Word) (s : State) : (setS r x s).lastQueue = s.lastQueue := rfl
@[simp] theorem setS_mailboxes (r : BitVec 6) (x : Word) (s : State) : (setS r x s).mailboxes = s.mailboxes := rfl
@[simp] theorem setS_mbOrder (r : BitVec 6) (x : Word) (s : State) : (setS r x s).mbOrder = s.mbOrder := rfl
@[simp] theorem setS_grants (r : BitVec 6) (x : Word) (s : State) : (setS r x s).grants = s.grants := rfl
@[simp] theorem setS_kvDrop (r : BitVec 6) (x : Word) (s : State) : (setS r x s).kvDrop = s.kvDrop := rfl
@[simp] theorem setS_evring (r : BitVec 6) (x : Word) (s : State) : (setS r x s).evring = s.evring := rfl
@[simp] theorem setS_irqs (r : BitVec 6) (x : Word) (s : State) : (setS r x s).irqs = s.irqs := rfl
@[simp] theorem setS_hostRead (r : BitVec 6) (x : Word) (s : State) : (setS r x s).hostRead = s.hostRead := rfl
@[simp] theorem setS_hostWait (r : BitVec 6) (x : Word) (s : State) : (setS r x s).hostWait = s.hostWait := rfl
@[simp] theorem setS_miller (r : BitVec 6) (x : Word) (s : State) : (setS r x s).miller = s.miller := rfl
@[simp] theorem setS_boot (r : BitVec 6) (x : Word) (s : State) : (setS r x s).boot = s.boot := rfl
@[simp] theorem setS_power (r : BitVec 6) (x : Word) (s : State) : (setS r x s).power = s.power := rfl
@[simp] theorem setS_tally (r : BitVec 6) (x : Word) (s : State) : (setS r x s).tally = s.tally := rfl
@[simp] theorem setS_dbg (r : BitVec 6) (x : Word) (s : State) : (setS r x s).dbg = s.dbg := rfl
@[simp] theorem setS_net (r : BitVec 6) (x : Word) (s : State) : (setS r x s).net = s.net := rfl
@[simp] theorem setS_fab (r : BitVec 6) (x : Word) (s : State) : (setS r x s).fab = s.fab := rfl
@[simp] theorem setS_sv (r : BitVec 6) (x : Word) (s : State) : (setS r x s).sv = s.sv := rfl

@[simp] theorem setP_cur (p : BitVec 4) (x : Bool) (s : State) : (setP p x s).cur = s.cur := rfl
@[simp] theorem setP_parked (p : BitVec 4) (x : Bool) (s : State) : (setP p x s).parked = s.parked := rfl
@[simp] theorem setP_turn (p : BitVec 4) (x : Bool) (s : State) : (setP p x s).turn = s.turn := rfl
@[simp] theorem setP_agenda (p : BitVec 4) (x : Bool) (s : State) : (setP p x s).agenda = s.agenda := rfl
@[simp] theorem setP_freshVal (p : BitVec 4) (x : Bool) (s : State) : (setP p x s).freshVal = s.freshVal := rfl
@[simp] theorem setP_nextId (p : BitVec 4) (x : Bool) (s : State) : (setP p x s).nextId = s.nextId := rfl
@[simp] theorem setP_time (p : BitVec 4) (x : Bool) (s : State) : (setP p x s).time = s.time := rfl
@[simp] theorem setP_clkMx (p : BitVec 4) (x : Bool) (s : State) : (setP p x s).clkMx = s.clkMx := rfl
@[simp] theorem setP_clkVx (p : BitVec 4) (x : Bool) (s : State) : (setP p x s).clkVx = s.clkVx := rfl
@[simp] theorem setP_clkVault (p : BitVec 4) (x : Bool) (s : State) : (setP p x s).clkVault = s.clkVault := rfl
@[simp] theorem setP_partMx (p : BitVec 4) (x : Bool) (s : State) : (setP p x s).partMx = s.partMx := rfl
@[simp] theorem setP_partVx (p : BitVec 4) (x : Bool) (s : State) : (setP p x s).partVx = s.partVx := rfl
@[simp] theorem setP_partVault (p : BitVec 4) (x : Bool) (s : State) : (setP p x s).partVault = s.partVault := rfl
@[simp] theorem setP_mem (p : BitVec 4) (x : Bool) (s : State) : (setP p x s).mem = s.mem := rfl
@[simp] theorem setP_poison (p : BitVec 4) (x : Bool) (s : State) : (setP p x s).poison = s.poison := rfl
@[simp] theorem setP_images (p : BitVec 4) (x : Bool) (s : State) : (setP p x s).images = s.images := rfl
@[simp] theorem setP_pool (p : BitVec 4) (x : Bool) (s : State) : (setP p x s).pool = s.pool := rfl
@[simp] theorem setP_nextPlace (p : BitVec 4) (x : Bool) (s : State) : (setP p x s).nextPlace = s.nextPlace := rfl
@[simp] theorem setP_monitors (p : BitVec 4) (x : Bool) (s : State) : (setP p x s).monitors = s.monitors := rfl
@[simp] theorem setP_prog (p : BitVec 4) (x : Bool) (s : State) : (setP p x s).prog = s.prog := rfl
@[simp] theorem setP_starv (p : BitVec 4) (x : Bool) (s : State) : (setP p x s).starv = s.starv := rfl
@[simp] theorem setP_skeins (p : BitVec 4) (x : Bool) (s : State) : (setP p x s).skeins = s.skeins := rfl
@[simp] theorem setP_barGen (p : BitVec 4) (x : Bool) (s : State) : (setP p x s).barGen = s.barGen := rfl
@[simp] theorem setP_backings (p : BitVec 4) (x : Bool) (s : State) : (setP p x s).backings = s.backings := rfl
@[simp] theorem setP_panels (p : BitVec 4) (x : Bool) (s : State) : (setP p x s).panels = s.panels := rfl
@[simp] theorem setP_blocks (p : BitVec 4) (x : Bool) (s : State) : (setP p x s).blocks = s.blocks := rfl
@[simp] theorem setP_blocksLock (p : BitVec 4) (x : Bool) (s : State) : (setP p x s).blocksLock = s.blocksLock := rfl
@[simp] theorem setP_blockSlots (p : BitVec 4) (x : Bool) (s : State) : (setP p x s).blockSlots = s.blockSlots := rfl
@[simp] theorem setP_blockNames (p : BitVec 4) (x : Bool) (s : State) : (setP p x s).blockNames = s.blockNames := rfl
@[simp] theorem setP_eccCorr (p : BitVec 4) (x : Bool) (s : State) : (setP p x s).eccCorr = s.eccCorr := rfl
@[simp] theorem setP_eccUnc (p : BitVec 4) (x : Bool) (s : State) : (setP p x s).eccUnc = s.eccUnc := rfl
@[simp] theorem setP_uelast (p : BitVec 4) (x : Bool) (s : State) : (setP p x s).uelast = s.uelast := rfl
@[simp] theorem setP_vcol (p : BitVec 4) (x : Bool) (s : State) : (setP p x s).vcol = s.vcol := rfl
@[simp] theorem setP_coreLanes (p : BitVec 4) (x : Bool) (s : State) : (setP p x s).coreLanes = s.coreLanes := rfl
@[simp] theorem setP_hardVcol (p : BitVec 4) (x : Bool) (s : State) : (setP p x s).hardVcol = s.hardVcol := rfl
@[simp] theorem setP_hardLanes (p : BitVec 4) (x : Bool) (s : State) : (setP p x s).hardLanes = s.hardLanes := rfl
@[simp] theorem setP_retrain (p : BitVec 4) (x : Bool) (s : State) : (setP p x s).retrain = s.retrain := rfl
@[simp] theorem setP_queues (p : BitVec 4) (x : Bool) (s : State) : (setP p x s).queues = s.queues := rfl
@[simp] theorem setP_launches (p : BitVec 4) (x : Bool) (s : State) : (setP p x s).launches = s.launches := rfl
@[simp] theorem setP_lastQueue (p : BitVec 4) (x : Bool) (s : State) : (setP p x s).lastQueue = s.lastQueue := rfl
@[simp] theorem setP_mailboxes (p : BitVec 4) (x : Bool) (s : State) : (setP p x s).mailboxes = s.mailboxes := rfl
@[simp] theorem setP_mbOrder (p : BitVec 4) (x : Bool) (s : State) : (setP p x s).mbOrder = s.mbOrder := rfl
@[simp] theorem setP_grants (p : BitVec 4) (x : Bool) (s : State) : (setP p x s).grants = s.grants := rfl
@[simp] theorem setP_kvDrop (p : BitVec 4) (x : Bool) (s : State) : (setP p x s).kvDrop = s.kvDrop := rfl
@[simp] theorem setP_evring (p : BitVec 4) (x : Bool) (s : State) : (setP p x s).evring = s.evring := rfl
@[simp] theorem setP_irqs (p : BitVec 4) (x : Bool) (s : State) : (setP p x s).irqs = s.irqs := rfl
@[simp] theorem setP_hostRead (p : BitVec 4) (x : Bool) (s : State) : (setP p x s).hostRead = s.hostRead := rfl
@[simp] theorem setP_hostWait (p : BitVec 4) (x : Bool) (s : State) : (setP p x s).hostWait = s.hostWait := rfl
@[simp] theorem setP_miller (p : BitVec 4) (x : Bool) (s : State) : (setP p x s).miller = s.miller := rfl
@[simp] theorem setP_boot (p : BitVec 4) (x : Bool) (s : State) : (setP p x s).boot = s.boot := rfl
@[simp] theorem setP_power (p : BitVec 4) (x : Bool) (s : State) : (setP p x s).power = s.power := rfl
@[simp] theorem setP_tally (p : BitVec 4) (x : Bool) (s : State) : (setP p x s).tally = s.tally := rfl
@[simp] theorem setP_dbg (p : BitVec 4) (x : Bool) (s : State) : (setP p x s).dbg = s.dbg := rfl
@[simp] theorem setP_net (p : BitVec 4) (x : Bool) (s : State) : (setP p x s).net = s.net := rfl
@[simp] theorem setP_fab (p : BitVec 4) (x : Bool) (s : State) : (setP p x s).fab = s.fab := rfl
@[simp] theorem setP_sv (p : BitVec 4) (x : Bool) (s : State) : (setP p x s).sv = s.sv := rfl

@[simp] theorem setB_cur (b : BitVec 3) (x : Word) (s : State) : (setB b x s).cur = s.cur := rfl
@[simp] theorem setB_parked (b : BitVec 3) (x : Word) (s : State) : (setB b x s).parked = s.parked := rfl
@[simp] theorem setB_turn (b : BitVec 3) (x : Word) (s : State) : (setB b x s).turn = s.turn := rfl
@[simp] theorem setB_agenda (b : BitVec 3) (x : Word) (s : State) : (setB b x s).agenda = s.agenda := rfl
@[simp] theorem setB_freshVal (b : BitVec 3) (x : Word) (s : State) : (setB b x s).freshVal = s.freshVal := rfl
@[simp] theorem setB_nextId (b : BitVec 3) (x : Word) (s : State) : (setB b x s).nextId = s.nextId := rfl
@[simp] theorem setB_time (b : BitVec 3) (x : Word) (s : State) : (setB b x s).time = s.time := rfl
@[simp] theorem setB_clkMx (b : BitVec 3) (x : Word) (s : State) : (setB b x s).clkMx = s.clkMx := rfl
@[simp] theorem setB_clkVx (b : BitVec 3) (x : Word) (s : State) : (setB b x s).clkVx = s.clkVx := rfl
@[simp] theorem setB_clkVault (b : BitVec 3) (x : Word) (s : State) : (setB b x s).clkVault = s.clkVault := rfl
@[simp] theorem setB_partMx (b : BitVec 3) (x : Word) (s : State) : (setB b x s).partMx = s.partMx := rfl
@[simp] theorem setB_partVx (b : BitVec 3) (x : Word) (s : State) : (setB b x s).partVx = s.partVx := rfl
@[simp] theorem setB_partVault (b : BitVec 3) (x : Word) (s : State) : (setB b x s).partVault = s.partVault := rfl
@[simp] theorem setB_mem (b : BitVec 3) (x : Word) (s : State) : (setB b x s).mem = s.mem := rfl
@[simp] theorem setB_poison (b : BitVec 3) (x : Word) (s : State) : (setB b x s).poison = s.poison := rfl
@[simp] theorem setB_images (b : BitVec 3) (x : Word) (s : State) : (setB b x s).images = s.images := rfl
@[simp] theorem setB_pool (b : BitVec 3) (x : Word) (s : State) : (setB b x s).pool = s.pool := rfl
@[simp] theorem setB_nextPlace (b : BitVec 3) (x : Word) (s : State) : (setB b x s).nextPlace = s.nextPlace := rfl
@[simp] theorem setB_monitors (b : BitVec 3) (x : Word) (s : State) : (setB b x s).monitors = s.monitors := rfl
@[simp] theorem setB_prog (b : BitVec 3) (x : Word) (s : State) : (setB b x s).prog = s.prog := rfl
@[simp] theorem setB_starv (b : BitVec 3) (x : Word) (s : State) : (setB b x s).starv = s.starv := rfl
@[simp] theorem setB_skeins (b : BitVec 3) (x : Word) (s : State) : (setB b x s).skeins = s.skeins := rfl
@[simp] theorem setB_barGen (b : BitVec 3) (x : Word) (s : State) : (setB b x s).barGen = s.barGen := rfl
@[simp] theorem setB_backings (b : BitVec 3) (x : Word) (s : State) : (setB b x s).backings = s.backings := rfl
@[simp] theorem setB_panels (b : BitVec 3) (x : Word) (s : State) : (setB b x s).panels = s.panels := rfl
@[simp] theorem setB_blocks (b : BitVec 3) (x : Word) (s : State) : (setB b x s).blocks = s.blocks := rfl
@[simp] theorem setB_blocksLock (b : BitVec 3) (x : Word) (s : State) : (setB b x s).blocksLock = s.blocksLock := rfl
@[simp] theorem setB_blockSlots (b : BitVec 3) (x : Word) (s : State) : (setB b x s).blockSlots = s.blockSlots := rfl
@[simp] theorem setB_blockNames (b : BitVec 3) (x : Word) (s : State) : (setB b x s).blockNames = s.blockNames := rfl
@[simp] theorem setB_eccCorr (b : BitVec 3) (x : Word) (s : State) : (setB b x s).eccCorr = s.eccCorr := rfl
@[simp] theorem setB_eccUnc (b : BitVec 3) (x : Word) (s : State) : (setB b x s).eccUnc = s.eccUnc := rfl
@[simp] theorem setB_uelast (b : BitVec 3) (x : Word) (s : State) : (setB b x s).uelast = s.uelast := rfl
@[simp] theorem setB_vcol (b : BitVec 3) (x : Word) (s : State) : (setB b x s).vcol = s.vcol := rfl
@[simp] theorem setB_coreLanes (b : BitVec 3) (x : Word) (s : State) : (setB b x s).coreLanes = s.coreLanes := rfl
@[simp] theorem setB_hardVcol (b : BitVec 3) (x : Word) (s : State) : (setB b x s).hardVcol = s.hardVcol := rfl
@[simp] theorem setB_hardLanes (b : BitVec 3) (x : Word) (s : State) : (setB b x s).hardLanes = s.hardLanes := rfl
@[simp] theorem setB_retrain (b : BitVec 3) (x : Word) (s : State) : (setB b x s).retrain = s.retrain := rfl
@[simp] theorem setB_queues (b : BitVec 3) (x : Word) (s : State) : (setB b x s).queues = s.queues := rfl
@[simp] theorem setB_launches (b : BitVec 3) (x : Word) (s : State) : (setB b x s).launches = s.launches := rfl
@[simp] theorem setB_lastQueue (b : BitVec 3) (x : Word) (s : State) : (setB b x s).lastQueue = s.lastQueue := rfl
@[simp] theorem setB_mailboxes (b : BitVec 3) (x : Word) (s : State) : (setB b x s).mailboxes = s.mailboxes := rfl
@[simp] theorem setB_mbOrder (b : BitVec 3) (x : Word) (s : State) : (setB b x s).mbOrder = s.mbOrder := rfl
@[simp] theorem setB_grants (b : BitVec 3) (x : Word) (s : State) : (setB b x s).grants = s.grants := rfl
@[simp] theorem setB_kvDrop (b : BitVec 3) (x : Word) (s : State) : (setB b x s).kvDrop = s.kvDrop := rfl
@[simp] theorem setB_evring (b : BitVec 3) (x : Word) (s : State) : (setB b x s).evring = s.evring := rfl
@[simp] theorem setB_irqs (b : BitVec 3) (x : Word) (s : State) : (setB b x s).irqs = s.irqs := rfl
@[simp] theorem setB_hostRead (b : BitVec 3) (x : Word) (s : State) : (setB b x s).hostRead = s.hostRead := rfl
@[simp] theorem setB_hostWait (b : BitVec 3) (x : Word) (s : State) : (setB b x s).hostWait = s.hostWait := rfl
@[simp] theorem setB_miller (b : BitVec 3) (x : Word) (s : State) : (setB b x s).miller = s.miller := rfl
@[simp] theorem setB_boot (b : BitVec 3) (x : Word) (s : State) : (setB b x s).boot = s.boot := rfl
@[simp] theorem setB_power (b : BitVec 3) (x : Word) (s : State) : (setB b x s).power = s.power := rfl
@[simp] theorem setB_tally (b : BitVec 3) (x : Word) (s : State) : (setB b x s).tally = s.tally := rfl
@[simp] theorem setB_dbg (b : BitVec 3) (x : Word) (s : State) : (setB b x s).dbg = s.dbg := rfl
@[simp] theorem setB_net (b : BitVec 3) (x : Word) (s : State) : (setB b x s).net = s.net := rfl
@[simp] theorem setB_fab (b : BitVec 3) (x : Word) (s : State) : (setB b x s).fab = s.fab := rfl
@[simp] theorem setB_sv (b : BitVec 3) (x : Word) (s : State) : (setB b x s).sv = s.sv := rfl

@[simp] theorem updBob_cur (slot : Nat) (f : Bobbin → Bobbin) (s : State) : (updBob slot f s).cur = s.cur := rfl
@[simp] theorem updBob_core (slot : Nat) (f : Bobbin → Bobbin) (s : State) : (updBob slot f s).core = s.core := rfl
@[simp] theorem updBob_parked (slot : Nat) (f : Bobbin → Bobbin) (s : State) : (updBob slot f s).parked = s.parked := rfl
@[simp] theorem updBob_turn (slot : Nat) (f : Bobbin → Bobbin) (s : State) : (updBob slot f s).turn = s.turn := rfl
@[simp] theorem updBob_agenda (slot : Nat) (f : Bobbin → Bobbin) (s : State) : (updBob slot f s).agenda = s.agenda := rfl
@[simp] theorem updBob_freshVal (slot : Nat) (f : Bobbin → Bobbin) (s : State) : (updBob slot f s).freshVal = s.freshVal := rfl
@[simp] theorem updBob_nextId (slot : Nat) (f : Bobbin → Bobbin) (s : State) : (updBob slot f s).nextId = s.nextId := rfl
@[simp] theorem updBob_time (slot : Nat) (f : Bobbin → Bobbin) (s : State) : (updBob slot f s).time = s.time := rfl
@[simp] theorem updBob_clkMx (slot : Nat) (f : Bobbin → Bobbin) (s : State) : (updBob slot f s).clkMx = s.clkMx := rfl
@[simp] theorem updBob_clkVx (slot : Nat) (f : Bobbin → Bobbin) (s : State) : (updBob slot f s).clkVx = s.clkVx := rfl
@[simp] theorem updBob_clkVault (slot : Nat) (f : Bobbin → Bobbin) (s : State) : (updBob slot f s).clkVault = s.clkVault := rfl
@[simp] theorem updBob_partMx (slot : Nat) (f : Bobbin → Bobbin) (s : State) : (updBob slot f s).partMx = s.partMx := rfl
@[simp] theorem updBob_partVx (slot : Nat) (f : Bobbin → Bobbin) (s : State) : (updBob slot f s).partVx = s.partVx := rfl
@[simp] theorem updBob_partVault (slot : Nat) (f : Bobbin → Bobbin) (s : State) : (updBob slot f s).partVault = s.partVault := rfl
@[simp] theorem updBob_mem (slot : Nat) (f : Bobbin → Bobbin) (s : State) : (updBob slot f s).mem = s.mem := rfl
@[simp] theorem updBob_poison (slot : Nat) (f : Bobbin → Bobbin) (s : State) : (updBob slot f s).poison = s.poison := rfl
@[simp] theorem updBob_images (slot : Nat) (f : Bobbin → Bobbin) (s : State) : (updBob slot f s).images = s.images := rfl
@[simp] theorem updBob_nextPlace (slot : Nat) (f : Bobbin → Bobbin) (s : State) : (updBob slot f s).nextPlace = s.nextPlace := rfl
@[simp] theorem updBob_monitors (slot : Nat) (f : Bobbin → Bobbin) (s : State) : (updBob slot f s).monitors = s.monitors := rfl
@[simp] theorem updBob_prog (slot : Nat) (f : Bobbin → Bobbin) (s : State) : (updBob slot f s).prog = s.prog := rfl
@[simp] theorem updBob_starv (slot : Nat) (f : Bobbin → Bobbin) (s : State) : (updBob slot f s).starv = s.starv := rfl
@[simp] theorem updBob_skeins (slot : Nat) (f : Bobbin → Bobbin) (s : State) : (updBob slot f s).skeins = s.skeins := rfl
@[simp] theorem updBob_barGen (slot : Nat) (f : Bobbin → Bobbin) (s : State) : (updBob slot f s).barGen = s.barGen := rfl
@[simp] theorem updBob_backings (slot : Nat) (f : Bobbin → Bobbin) (s : State) : (updBob slot f s).backings = s.backings := rfl
@[simp] theorem updBob_panels (slot : Nat) (f : Bobbin → Bobbin) (s : State) : (updBob slot f s).panels = s.panels := rfl
@[simp] theorem updBob_blocks (slot : Nat) (f : Bobbin → Bobbin) (s : State) : (updBob slot f s).blocks = s.blocks := rfl
@[simp] theorem updBob_blocksLock (slot : Nat) (f : Bobbin → Bobbin) (s : State) : (updBob slot f s).blocksLock = s.blocksLock := rfl
@[simp] theorem updBob_blockSlots (slot : Nat) (f : Bobbin → Bobbin) (s : State) : (updBob slot f s).blockSlots = s.blockSlots := rfl
@[simp] theorem updBob_blockNames (slot : Nat) (f : Bobbin → Bobbin) (s : State) : (updBob slot f s).blockNames = s.blockNames := rfl
@[simp] theorem updBob_eccCorr (slot : Nat) (f : Bobbin → Bobbin) (s : State) : (updBob slot f s).eccCorr = s.eccCorr := rfl
@[simp] theorem updBob_eccUnc (slot : Nat) (f : Bobbin → Bobbin) (s : State) : (updBob slot f s).eccUnc = s.eccUnc := rfl
@[simp] theorem updBob_uelast (slot : Nat) (f : Bobbin → Bobbin) (s : State) : (updBob slot f s).uelast = s.uelast := rfl
@[simp] theorem updBob_vcol (slot : Nat) (f : Bobbin → Bobbin) (s : State) : (updBob slot f s).vcol = s.vcol := rfl
@[simp] theorem updBob_coreLanes (slot : Nat) (f : Bobbin → Bobbin) (s : State) : (updBob slot f s).coreLanes = s.coreLanes := rfl
@[simp] theorem updBob_hardVcol (slot : Nat) (f : Bobbin → Bobbin) (s : State) : (updBob slot f s).hardVcol = s.hardVcol := rfl
@[simp] theorem updBob_hardLanes (slot : Nat) (f : Bobbin → Bobbin) (s : State) : (updBob slot f s).hardLanes = s.hardLanes := rfl
@[simp] theorem updBob_retrain (slot : Nat) (f : Bobbin → Bobbin) (s : State) : (updBob slot f s).retrain = s.retrain := rfl
@[simp] theorem updBob_queues (slot : Nat) (f : Bobbin → Bobbin) (s : State) : (updBob slot f s).queues = s.queues := rfl
@[simp] theorem updBob_launches (slot : Nat) (f : Bobbin → Bobbin) (s : State) : (updBob slot f s).launches = s.launches := rfl
@[simp] theorem updBob_lastQueue (slot : Nat) (f : Bobbin → Bobbin) (s : State) : (updBob slot f s).lastQueue = s.lastQueue := rfl
@[simp] theorem updBob_mailboxes (slot : Nat) (f : Bobbin → Bobbin) (s : State) : (updBob slot f s).mailboxes = s.mailboxes := rfl
@[simp] theorem updBob_mbOrder (slot : Nat) (f : Bobbin → Bobbin) (s : State) : (updBob slot f s).mbOrder = s.mbOrder := rfl
@[simp] theorem updBob_grants (slot : Nat) (f : Bobbin → Bobbin) (s : State) : (updBob slot f s).grants = s.grants := rfl
@[simp] theorem updBob_kvDrop (slot : Nat) (f : Bobbin → Bobbin) (s : State) : (updBob slot f s).kvDrop = s.kvDrop := rfl
@[simp] theorem updBob_evring (slot : Nat) (f : Bobbin → Bobbin) (s : State) : (updBob slot f s).evring = s.evring := rfl
@[simp] theorem updBob_irqs (slot : Nat) (f : Bobbin → Bobbin) (s : State) : (updBob slot f s).irqs = s.irqs := rfl
@[simp] theorem updBob_hostRead (slot : Nat) (f : Bobbin → Bobbin) (s : State) : (updBob slot f s).hostRead = s.hostRead := rfl
@[simp] theorem updBob_hostWait (slot : Nat) (f : Bobbin → Bobbin) (s : State) : (updBob slot f s).hostWait = s.hostWait := rfl
@[simp] theorem updBob_miller (slot : Nat) (f : Bobbin → Bobbin) (s : State) : (updBob slot f s).miller = s.miller := rfl
@[simp] theorem updBob_boot (slot : Nat) (f : Bobbin → Bobbin) (s : State) : (updBob slot f s).boot = s.boot := rfl
@[simp] theorem updBob_power (slot : Nat) (f : Bobbin → Bobbin) (s : State) : (updBob slot f s).power = s.power := rfl
@[simp] theorem updBob_tally (slot : Nat) (f : Bobbin → Bobbin) (s : State) : (updBob slot f s).tally = s.tally := rfl
@[simp] theorem updBob_dbg (slot : Nat) (f : Bobbin → Bobbin) (s : State) : (updBob slot f s).dbg = s.dbg := rfl
@[simp] theorem updBob_net (slot : Nat) (f : Bobbin → Bobbin) (s : State) : (updBob slot f s).net = s.net := rfl
@[simp] theorem updBob_fab (slot : Nat) (f : Bobbin → Bobbin) (s : State) : (updBob slot f s).fab = s.fab := rfl
@[simp] theorem updBob_sv (slot : Nat) (f : Bobbin → Bobbin) (s : State) : (updBob slot f s).sv = s.sv := rfl

@[simp] theorem updEntry_cur (slot : Nat) (f : PoolEntry → PoolEntry) (s : State) : (updEntry slot f s).cur = s.cur := rfl
@[simp] theorem updEntry_core (slot : Nat) (f : PoolEntry → PoolEntry) (s : State) : (updEntry slot f s).core = s.core := rfl
@[simp] theorem updEntry_parked (slot : Nat) (f : PoolEntry → PoolEntry) (s : State) : (updEntry slot f s).parked = s.parked := rfl
@[simp] theorem updEntry_turn (slot : Nat) (f : PoolEntry → PoolEntry) (s : State) : (updEntry slot f s).turn = s.turn := rfl
@[simp] theorem updEntry_agenda (slot : Nat) (f : PoolEntry → PoolEntry) (s : State) : (updEntry slot f s).agenda = s.agenda := rfl
@[simp] theorem updEntry_freshVal (slot : Nat) (f : PoolEntry → PoolEntry) (s : State) : (updEntry slot f s).freshVal = s.freshVal := rfl
@[simp] theorem updEntry_nextId (slot : Nat) (f : PoolEntry → PoolEntry) (s : State) : (updEntry slot f s).nextId = s.nextId := rfl
@[simp] theorem updEntry_time (slot : Nat) (f : PoolEntry → PoolEntry) (s : State) : (updEntry slot f s).time = s.time := rfl
@[simp] theorem updEntry_clkMx (slot : Nat) (f : PoolEntry → PoolEntry) (s : State) : (updEntry slot f s).clkMx = s.clkMx := rfl
@[simp] theorem updEntry_clkVx (slot : Nat) (f : PoolEntry → PoolEntry) (s : State) : (updEntry slot f s).clkVx = s.clkVx := rfl
@[simp] theorem updEntry_clkVault (slot : Nat) (f : PoolEntry → PoolEntry) (s : State) : (updEntry slot f s).clkVault = s.clkVault := rfl
@[simp] theorem updEntry_partMx (slot : Nat) (f : PoolEntry → PoolEntry) (s : State) : (updEntry slot f s).partMx = s.partMx := rfl
@[simp] theorem updEntry_partVx (slot : Nat) (f : PoolEntry → PoolEntry) (s : State) : (updEntry slot f s).partVx = s.partVx := rfl
@[simp] theorem updEntry_partVault (slot : Nat) (f : PoolEntry → PoolEntry) (s : State) : (updEntry slot f s).partVault = s.partVault := rfl
@[simp] theorem updEntry_mem (slot : Nat) (f : PoolEntry → PoolEntry) (s : State) : (updEntry slot f s).mem = s.mem := rfl
@[simp] theorem updEntry_poison (slot : Nat) (f : PoolEntry → PoolEntry) (s : State) : (updEntry slot f s).poison = s.poison := rfl
@[simp] theorem updEntry_images (slot : Nat) (f : PoolEntry → PoolEntry) (s : State) : (updEntry slot f s).images = s.images := rfl
@[simp] theorem updEntry_nextPlace (slot : Nat) (f : PoolEntry → PoolEntry) (s : State) : (updEntry slot f s).nextPlace = s.nextPlace := rfl
@[simp] theorem updEntry_monitors (slot : Nat) (f : PoolEntry → PoolEntry) (s : State) : (updEntry slot f s).monitors = s.monitors := rfl
@[simp] theorem updEntry_prog (slot : Nat) (f : PoolEntry → PoolEntry) (s : State) : (updEntry slot f s).prog = s.prog := rfl
@[simp] theorem updEntry_starv (slot : Nat) (f : PoolEntry → PoolEntry) (s : State) : (updEntry slot f s).starv = s.starv := rfl
@[simp] theorem updEntry_skeins (slot : Nat) (f : PoolEntry → PoolEntry) (s : State) : (updEntry slot f s).skeins = s.skeins := rfl
@[simp] theorem updEntry_barGen (slot : Nat) (f : PoolEntry → PoolEntry) (s : State) : (updEntry slot f s).barGen = s.barGen := rfl
@[simp] theorem updEntry_backings (slot : Nat) (f : PoolEntry → PoolEntry) (s : State) : (updEntry slot f s).backings = s.backings := rfl
@[simp] theorem updEntry_panels (slot : Nat) (f : PoolEntry → PoolEntry) (s : State) : (updEntry slot f s).panels = s.panels := rfl
@[simp] theorem updEntry_blocks (slot : Nat) (f : PoolEntry → PoolEntry) (s : State) : (updEntry slot f s).blocks = s.blocks := rfl
@[simp] theorem updEntry_blocksLock (slot : Nat) (f : PoolEntry → PoolEntry) (s : State) : (updEntry slot f s).blocksLock = s.blocksLock := rfl
@[simp] theorem updEntry_blockSlots (slot : Nat) (f : PoolEntry → PoolEntry) (s : State) : (updEntry slot f s).blockSlots = s.blockSlots := rfl
@[simp] theorem updEntry_blockNames (slot : Nat) (f : PoolEntry → PoolEntry) (s : State) : (updEntry slot f s).blockNames = s.blockNames := rfl
@[simp] theorem updEntry_eccCorr (slot : Nat) (f : PoolEntry → PoolEntry) (s : State) : (updEntry slot f s).eccCorr = s.eccCorr := rfl
@[simp] theorem updEntry_eccUnc (slot : Nat) (f : PoolEntry → PoolEntry) (s : State) : (updEntry slot f s).eccUnc = s.eccUnc := rfl
@[simp] theorem updEntry_uelast (slot : Nat) (f : PoolEntry → PoolEntry) (s : State) : (updEntry slot f s).uelast = s.uelast := rfl
@[simp] theorem updEntry_vcol (slot : Nat) (f : PoolEntry → PoolEntry) (s : State) : (updEntry slot f s).vcol = s.vcol := rfl
@[simp] theorem updEntry_coreLanes (slot : Nat) (f : PoolEntry → PoolEntry) (s : State) : (updEntry slot f s).coreLanes = s.coreLanes := rfl
@[simp] theorem updEntry_hardVcol (slot : Nat) (f : PoolEntry → PoolEntry) (s : State) : (updEntry slot f s).hardVcol = s.hardVcol := rfl
@[simp] theorem updEntry_hardLanes (slot : Nat) (f : PoolEntry → PoolEntry) (s : State) : (updEntry slot f s).hardLanes = s.hardLanes := rfl
@[simp] theorem updEntry_retrain (slot : Nat) (f : PoolEntry → PoolEntry) (s : State) : (updEntry slot f s).retrain = s.retrain := rfl
@[simp] theorem updEntry_queues (slot : Nat) (f : PoolEntry → PoolEntry) (s : State) : (updEntry slot f s).queues = s.queues := rfl
@[simp] theorem updEntry_launches (slot : Nat) (f : PoolEntry → PoolEntry) (s : State) : (updEntry slot f s).launches = s.launches := rfl
@[simp] theorem updEntry_lastQueue (slot : Nat) (f : PoolEntry → PoolEntry) (s : State) : (updEntry slot f s).lastQueue = s.lastQueue := rfl
@[simp] theorem updEntry_mailboxes (slot : Nat) (f : PoolEntry → PoolEntry) (s : State) : (updEntry slot f s).mailboxes = s.mailboxes := rfl
@[simp] theorem updEntry_mbOrder (slot : Nat) (f : PoolEntry → PoolEntry) (s : State) : (updEntry slot f s).mbOrder = s.mbOrder := rfl
@[simp] theorem updEntry_grants (slot : Nat) (f : PoolEntry → PoolEntry) (s : State) : (updEntry slot f s).grants = s.grants := rfl
@[simp] theorem updEntry_kvDrop (slot : Nat) (f : PoolEntry → PoolEntry) (s : State) : (updEntry slot f s).kvDrop = s.kvDrop := rfl
@[simp] theorem updEntry_evring (slot : Nat) (f : PoolEntry → PoolEntry) (s : State) : (updEntry slot f s).evring = s.evring := rfl
@[simp] theorem updEntry_irqs (slot : Nat) (f : PoolEntry → PoolEntry) (s : State) : (updEntry slot f s).irqs = s.irqs := rfl
@[simp] theorem updEntry_hostRead (slot : Nat) (f : PoolEntry → PoolEntry) (s : State) : (updEntry slot f s).hostRead = s.hostRead := rfl
@[simp] theorem updEntry_hostWait (slot : Nat) (f : PoolEntry → PoolEntry) (s : State) : (updEntry slot f s).hostWait = s.hostWait := rfl
@[simp] theorem updEntry_miller (slot : Nat) (f : PoolEntry → PoolEntry) (s : State) : (updEntry slot f s).miller = s.miller := rfl
@[simp] theorem updEntry_boot (slot : Nat) (f : PoolEntry → PoolEntry) (s : State) : (updEntry slot f s).boot = s.boot := rfl
@[simp] theorem updEntry_power (slot : Nat) (f : PoolEntry → PoolEntry) (s : State) : (updEntry slot f s).power = s.power := rfl
@[simp] theorem updEntry_tally (slot : Nat) (f : PoolEntry → PoolEntry) (s : State) : (updEntry slot f s).tally = s.tally := rfl
@[simp] theorem updEntry_dbg (slot : Nat) (f : PoolEntry → PoolEntry) (s : State) : (updEntry slot f s).dbg = s.dbg := rfl
@[simp] theorem updEntry_net (slot : Nat) (f : PoolEntry → PoolEntry) (s : State) : (updEntry slot f s).net = s.net := rfl
@[simp] theorem updEntry_fab (slot : Nat) (f : PoolEntry → PoolEntry) (s : State) : (updEntry slot f s).fab = s.fab := rfl
@[simp] theorem updEntry_sv (slot : Nat) (f : PoolEntry → PoolEntry) (s : State) : (updEntry slot f s).sv = s.sv := rfl

@[simp] theorem updLaunch_cur (id : Nat) (f : Launch → Launch) (s : State) : (updLaunch id f s).cur = s.cur := rfl
@[simp] theorem updLaunch_core (id : Nat) (f : Launch → Launch) (s : State) : (updLaunch id f s).core = s.core := rfl
@[simp] theorem updLaunch_parked (id : Nat) (f : Launch → Launch) (s : State) : (updLaunch id f s).parked = s.parked := rfl
@[simp] theorem updLaunch_turn (id : Nat) (f : Launch → Launch) (s : State) : (updLaunch id f s).turn = s.turn := rfl
@[simp] theorem updLaunch_agenda (id : Nat) (f : Launch → Launch) (s : State) : (updLaunch id f s).agenda = s.agenda := rfl
@[simp] theorem updLaunch_freshVal (id : Nat) (f : Launch → Launch) (s : State) : (updLaunch id f s).freshVal = s.freshVal := rfl
@[simp] theorem updLaunch_nextId (id : Nat) (f : Launch → Launch) (s : State) : (updLaunch id f s).nextId = s.nextId := rfl
@[simp] theorem updLaunch_time (id : Nat) (f : Launch → Launch) (s : State) : (updLaunch id f s).time = s.time := rfl
@[simp] theorem updLaunch_clkMx (id : Nat) (f : Launch → Launch) (s : State) : (updLaunch id f s).clkMx = s.clkMx := rfl
@[simp] theorem updLaunch_clkVx (id : Nat) (f : Launch → Launch) (s : State) : (updLaunch id f s).clkVx = s.clkVx := rfl
@[simp] theorem updLaunch_clkVault (id : Nat) (f : Launch → Launch) (s : State) : (updLaunch id f s).clkVault = s.clkVault := rfl
@[simp] theorem updLaunch_partMx (id : Nat) (f : Launch → Launch) (s : State) : (updLaunch id f s).partMx = s.partMx := rfl
@[simp] theorem updLaunch_partVx (id : Nat) (f : Launch → Launch) (s : State) : (updLaunch id f s).partVx = s.partVx := rfl
@[simp] theorem updLaunch_partVault (id : Nat) (f : Launch → Launch) (s : State) : (updLaunch id f s).partVault = s.partVault := rfl
@[simp] theorem updLaunch_mem (id : Nat) (f : Launch → Launch) (s : State) : (updLaunch id f s).mem = s.mem := rfl
@[simp] theorem updLaunch_poison (id : Nat) (f : Launch → Launch) (s : State) : (updLaunch id f s).poison = s.poison := rfl
@[simp] theorem updLaunch_images (id : Nat) (f : Launch → Launch) (s : State) : (updLaunch id f s).images = s.images := rfl
@[simp] theorem updLaunch_pool (id : Nat) (f : Launch → Launch) (s : State) : (updLaunch id f s).pool = s.pool := rfl
@[simp] theorem updLaunch_nextPlace (id : Nat) (f : Launch → Launch) (s : State) : (updLaunch id f s).nextPlace = s.nextPlace := rfl
@[simp] theorem updLaunch_monitors (id : Nat) (f : Launch → Launch) (s : State) : (updLaunch id f s).monitors = s.monitors := rfl
@[simp] theorem updLaunch_prog (id : Nat) (f : Launch → Launch) (s : State) : (updLaunch id f s).prog = s.prog := rfl
@[simp] theorem updLaunch_starv (id : Nat) (f : Launch → Launch) (s : State) : (updLaunch id f s).starv = s.starv := rfl
@[simp] theorem updLaunch_skeins (id : Nat) (f : Launch → Launch) (s : State) : (updLaunch id f s).skeins = s.skeins := rfl
@[simp] theorem updLaunch_barGen (id : Nat) (f : Launch → Launch) (s : State) : (updLaunch id f s).barGen = s.barGen := rfl
@[simp] theorem updLaunch_backings (id : Nat) (f : Launch → Launch) (s : State) : (updLaunch id f s).backings = s.backings := rfl
@[simp] theorem updLaunch_panels (id : Nat) (f : Launch → Launch) (s : State) : (updLaunch id f s).panels = s.panels := rfl
@[simp] theorem updLaunch_blocks (id : Nat) (f : Launch → Launch) (s : State) : (updLaunch id f s).blocks = s.blocks := rfl
@[simp] theorem updLaunch_blocksLock (id : Nat) (f : Launch → Launch) (s : State) : (updLaunch id f s).blocksLock = s.blocksLock := rfl
@[simp] theorem updLaunch_blockSlots (id : Nat) (f : Launch → Launch) (s : State) : (updLaunch id f s).blockSlots = s.blockSlots := rfl
@[simp] theorem updLaunch_blockNames (id : Nat) (f : Launch → Launch) (s : State) : (updLaunch id f s).blockNames = s.blockNames := rfl
@[simp] theorem updLaunch_eccCorr (id : Nat) (f : Launch → Launch) (s : State) : (updLaunch id f s).eccCorr = s.eccCorr := rfl
@[simp] theorem updLaunch_eccUnc (id : Nat) (f : Launch → Launch) (s : State) : (updLaunch id f s).eccUnc = s.eccUnc := rfl
@[simp] theorem updLaunch_uelast (id : Nat) (f : Launch → Launch) (s : State) : (updLaunch id f s).uelast = s.uelast := rfl
@[simp] theorem updLaunch_vcol (id : Nat) (f : Launch → Launch) (s : State) : (updLaunch id f s).vcol = s.vcol := rfl
@[simp] theorem updLaunch_coreLanes (id : Nat) (f : Launch → Launch) (s : State) : (updLaunch id f s).coreLanes = s.coreLanes := rfl
@[simp] theorem updLaunch_hardVcol (id : Nat) (f : Launch → Launch) (s : State) : (updLaunch id f s).hardVcol = s.hardVcol := rfl
@[simp] theorem updLaunch_hardLanes (id : Nat) (f : Launch → Launch) (s : State) : (updLaunch id f s).hardLanes = s.hardLanes := rfl
@[simp] theorem updLaunch_retrain (id : Nat) (f : Launch → Launch) (s : State) : (updLaunch id f s).retrain = s.retrain := rfl
@[simp] theorem updLaunch_queues (id : Nat) (f : Launch → Launch) (s : State) : (updLaunch id f s).queues = s.queues := rfl
@[simp] theorem updLaunch_lastQueue (id : Nat) (f : Launch → Launch) (s : State) : (updLaunch id f s).lastQueue = s.lastQueue := rfl
@[simp] theorem updLaunch_mailboxes (id : Nat) (f : Launch → Launch) (s : State) : (updLaunch id f s).mailboxes = s.mailboxes := rfl
@[simp] theorem updLaunch_mbOrder (id : Nat) (f : Launch → Launch) (s : State) : (updLaunch id f s).mbOrder = s.mbOrder := rfl
@[simp] theorem updLaunch_grants (id : Nat) (f : Launch → Launch) (s : State) : (updLaunch id f s).grants = s.grants := rfl
@[simp] theorem updLaunch_kvDrop (id : Nat) (f : Launch → Launch) (s : State) : (updLaunch id f s).kvDrop = s.kvDrop := rfl
@[simp] theorem updLaunch_evring (id : Nat) (f : Launch → Launch) (s : State) : (updLaunch id f s).evring = s.evring := rfl
@[simp] theorem updLaunch_irqs (id : Nat) (f : Launch → Launch) (s : State) : (updLaunch id f s).irqs = s.irqs := rfl
@[simp] theorem updLaunch_hostRead (id : Nat) (f : Launch → Launch) (s : State) : (updLaunch id f s).hostRead = s.hostRead := rfl
@[simp] theorem updLaunch_hostWait (id : Nat) (f : Launch → Launch) (s : State) : (updLaunch id f s).hostWait = s.hostWait := rfl
@[simp] theorem updLaunch_miller (id : Nat) (f : Launch → Launch) (s : State) : (updLaunch id f s).miller = s.miller := rfl
@[simp] theorem updLaunch_boot (id : Nat) (f : Launch → Launch) (s : State) : (updLaunch id f s).boot = s.boot := rfl
@[simp] theorem updLaunch_power (id : Nat) (f : Launch → Launch) (s : State) : (updLaunch id f s).power = s.power := rfl
@[simp] theorem updLaunch_tally (id : Nat) (f : Launch → Launch) (s : State) : (updLaunch id f s).tally = s.tally := rfl
@[simp] theorem updLaunch_dbg (id : Nat) (f : Launch → Launch) (s : State) : (updLaunch id f s).dbg = s.dbg := rfl
@[simp] theorem updLaunch_net (id : Nat) (f : Launch → Launch) (s : State) : (updLaunch id f s).net = s.net := rfl
@[simp] theorem updLaunch_fab (id : Nat) (f : Launch → Launch) (s : State) : (updLaunch id f s).fab = s.fab := rfl
@[simp] theorem updLaunch_sv (id : Nat) (f : Launch → Launch) (s : State) : (updLaunch id f s).sv = s.sv := rfl

@[simp] theorem putMem_cur (pa : Nat) (bs : List Byte) (s : State) : (putMem pa bs s).cur = s.cur := rfl
@[simp] theorem putMem_core (pa : Nat) (bs : List Byte) (s : State) : (putMem pa bs s).core = s.core := rfl
@[simp] theorem putMem_parked (pa : Nat) (bs : List Byte) (s : State) : (putMem pa bs s).parked = s.parked := rfl
@[simp] theorem putMem_turn (pa : Nat) (bs : List Byte) (s : State) : (putMem pa bs s).turn = s.turn := rfl
@[simp] theorem putMem_agenda (pa : Nat) (bs : List Byte) (s : State) : (putMem pa bs s).agenda = s.agenda := rfl
@[simp] theorem putMem_freshVal (pa : Nat) (bs : List Byte) (s : State) : (putMem pa bs s).freshVal = s.freshVal := rfl
@[simp] theorem putMem_nextId (pa : Nat) (bs : List Byte) (s : State) : (putMem pa bs s).nextId = s.nextId := rfl
@[simp] theorem putMem_time (pa : Nat) (bs : List Byte) (s : State) : (putMem pa bs s).time = s.time := rfl
@[simp] theorem putMem_clkMx (pa : Nat) (bs : List Byte) (s : State) : (putMem pa bs s).clkMx = s.clkMx := rfl
@[simp] theorem putMem_clkVx (pa : Nat) (bs : List Byte) (s : State) : (putMem pa bs s).clkVx = s.clkVx := rfl
@[simp] theorem putMem_clkVault (pa : Nat) (bs : List Byte) (s : State) : (putMem pa bs s).clkVault = s.clkVault := rfl
@[simp] theorem putMem_partMx (pa : Nat) (bs : List Byte) (s : State) : (putMem pa bs s).partMx = s.partMx := rfl
@[simp] theorem putMem_partVx (pa : Nat) (bs : List Byte) (s : State) : (putMem pa bs s).partVx = s.partVx := rfl
@[simp] theorem putMem_partVault (pa : Nat) (bs : List Byte) (s : State) : (putMem pa bs s).partVault = s.partVault := rfl
@[simp] theorem putMem_pool (pa : Nat) (bs : List Byte) (s : State) : (putMem pa bs s).pool = s.pool := rfl
@[simp] theorem putMem_nextPlace (pa : Nat) (bs : List Byte) (s : State) : (putMem pa bs s).nextPlace = s.nextPlace := rfl
@[simp] theorem putMem_prog (pa : Nat) (bs : List Byte) (s : State) : (putMem pa bs s).prog = s.prog := rfl
@[simp] theorem putMem_starv (pa : Nat) (bs : List Byte) (s : State) : (putMem pa bs s).starv = s.starv := rfl
@[simp] theorem putMem_skeins (pa : Nat) (bs : List Byte) (s : State) : (putMem pa bs s).skeins = s.skeins := rfl
@[simp] theorem putMem_barGen (pa : Nat) (bs : List Byte) (s : State) : (putMem pa bs s).barGen = s.barGen := rfl
@[simp] theorem putMem_backings (pa : Nat) (bs : List Byte) (s : State) : (putMem pa bs s).backings = s.backings := rfl
@[simp] theorem putMem_panels (pa : Nat) (bs : List Byte) (s : State) : (putMem pa bs s).panels = s.panels := rfl
@[simp] theorem putMem_blocks (pa : Nat) (bs : List Byte) (s : State) : (putMem pa bs s).blocks = s.blocks := rfl
@[simp] theorem putMem_blocksLock (pa : Nat) (bs : List Byte) (s : State) : (putMem pa bs s).blocksLock = s.blocksLock := rfl
@[simp] theorem putMem_blockSlots (pa : Nat) (bs : List Byte) (s : State) : (putMem pa bs s).blockSlots = s.blockSlots := rfl
@[simp] theorem putMem_blockNames (pa : Nat) (bs : List Byte) (s : State) : (putMem pa bs s).blockNames = s.blockNames := rfl
@[simp] theorem putMem_eccCorr (pa : Nat) (bs : List Byte) (s : State) : (putMem pa bs s).eccCorr = s.eccCorr := rfl
@[simp] theorem putMem_eccUnc (pa : Nat) (bs : List Byte) (s : State) : (putMem pa bs s).eccUnc = s.eccUnc := rfl
@[simp] theorem putMem_uelast (pa : Nat) (bs : List Byte) (s : State) : (putMem pa bs s).uelast = s.uelast := rfl
@[simp] theorem putMem_vcol (pa : Nat) (bs : List Byte) (s : State) : (putMem pa bs s).vcol = s.vcol := rfl
@[simp] theorem putMem_coreLanes (pa : Nat) (bs : List Byte) (s : State) : (putMem pa bs s).coreLanes = s.coreLanes := rfl
@[simp] theorem putMem_hardVcol (pa : Nat) (bs : List Byte) (s : State) : (putMem pa bs s).hardVcol = s.hardVcol := rfl
@[simp] theorem putMem_hardLanes (pa : Nat) (bs : List Byte) (s : State) : (putMem pa bs s).hardLanes = s.hardLanes := rfl
@[simp] theorem putMem_retrain (pa : Nat) (bs : List Byte) (s : State) : (putMem pa bs s).retrain = s.retrain := rfl
@[simp] theorem putMem_queues (pa : Nat) (bs : List Byte) (s : State) : (putMem pa bs s).queues = s.queues := rfl
@[simp] theorem putMem_launches (pa : Nat) (bs : List Byte) (s : State) : (putMem pa bs s).launches = s.launches := rfl
@[simp] theorem putMem_lastQueue (pa : Nat) (bs : List Byte) (s : State) : (putMem pa bs s).lastQueue = s.lastQueue := rfl
@[simp] theorem putMem_mailboxes (pa : Nat) (bs : List Byte) (s : State) : (putMem pa bs s).mailboxes = s.mailboxes := rfl
@[simp] theorem putMem_mbOrder (pa : Nat) (bs : List Byte) (s : State) : (putMem pa bs s).mbOrder = s.mbOrder := rfl
@[simp] theorem putMem_grants (pa : Nat) (bs : List Byte) (s : State) : (putMem pa bs s).grants = s.grants := rfl
@[simp] theorem putMem_kvDrop (pa : Nat) (bs : List Byte) (s : State) : (putMem pa bs s).kvDrop = s.kvDrop := rfl
@[simp] theorem putMem_evring (pa : Nat) (bs : List Byte) (s : State) : (putMem pa bs s).evring = s.evring := rfl
@[simp] theorem putMem_irqs (pa : Nat) (bs : List Byte) (s : State) : (putMem pa bs s).irqs = s.irqs := rfl
@[simp] theorem putMem_hostRead (pa : Nat) (bs : List Byte) (s : State) : (putMem pa bs s).hostRead = s.hostRead := rfl
@[simp] theorem putMem_hostWait (pa : Nat) (bs : List Byte) (s : State) : (putMem pa bs s).hostWait = s.hostWait := rfl
@[simp] theorem putMem_miller (pa : Nat) (bs : List Byte) (s : State) : (putMem pa bs s).miller = s.miller := rfl
@[simp] theorem putMem_boot (pa : Nat) (bs : List Byte) (s : State) : (putMem pa bs s).boot = s.boot := rfl
@[simp] theorem putMem_power (pa : Nat) (bs : List Byte) (s : State) : (putMem pa bs s).power = s.power := rfl
@[simp] theorem putMem_tally (pa : Nat) (bs : List Byte) (s : State) : (putMem pa bs s).tally = s.tally := rfl
@[simp] theorem putMem_dbg (pa : Nat) (bs : List Byte) (s : State) : (putMem pa bs s).dbg = s.dbg := rfl
@[simp] theorem putMem_net (pa : Nat) (bs : List Byte) (s : State) : (putMem pa bs s).net = s.net := rfl
@[simp] theorem putMem_fab (pa : Nat) (bs : List Byte) (s : State) : (putMem pa bs s).fab = s.fab := rfl
@[simp] theorem putMem_sv (pa : Nat) (bs : List Byte) (s : State) : (putMem pa bs s).sv = s.sv := rfl

@[simp] theorem putMem_mem (pa : Nat) (bs : List Byte) (s : State) : (putMem pa bs s).mem = memPut s.mem pa bs := rfl

/-! ## A read after a write -/

/-- A bank reads what was written to the register named. -/
theorem bank_set_same {α : Type} {n : Nat} (b : Bank α n) (i : BitVec n) (x : α) : bank (bankSet b i x) i = x := by
  simp [bank, bankSet]

/-- A write to a bank leaves every other register alone. -/
theorem bank_set_other {α : Type} {n : Nat} (b : Bank α n) (i j : BitVec n) (x : α) (h : j ≠ i) : bank (bankSet b i x) j = bank b j := by
  have : i.toNat ≠ j.toNat := fun e => h (BitVec.eq_of_toNat_eq e.symm)
  simp [bank, bankSet, this]

/-- An s-register after a write to one; s0 reads zero (R21). -/
theorem Core.getS_setS (k : Core) (d r : BitVec 6) (x : Word) :
    (k.setS d x).getS r = if r = d then (if d = 0 then 0 else x) else k.getS r := by
  unfold Core.getS Core.setS
  by_cases hd : d = 0
  · rw [if_pos hd]
    by_cases hr : r = d
    · rw [if_pos (hr.trans hd), if_pos hr, if_pos hd]
    · rw [if_neg hr]
  · rw [if_neg hd]
    by_cases hr : r = d
    · subst hr; rw [if_neg hd, if_pos rfl, if_neg hd]; exact bank_set_same _ _ _
    · rw [if_neg hr]; show (if r = 0 then 0 else bank (bankSet k.s d x) r) = _; rw [bank_set_other _ _ _ _ hr]

/-- A predicate after a write to one; p0 reads true (R21). -/
theorem Core.getP_setP (k : Core) (p q : BitVec 4) (x : Bool) :
    (k.setP p x).getP q = if q = p then (if p = 0 then true else x) else k.getP q := by
  unfold Core.getP Core.setP
  by_cases hd : p = 0
  · rw [if_pos hd]
    by_cases hr : q = p
    · rw [if_pos (hr.trans hd), if_pos hr, if_pos hd]
    · rw [if_neg hr]
  · rw [if_neg hd]
    by_cases hr : q = p
    · subst hr; rw [if_neg hd, if_pos rfl, if_neg hd]; exact bank_set_same _ _ _
    · rw [if_neg hr]; show (if q = 0 then true else bank (bankSet k.p p x) q) = _; rw [bank_set_other _ _ _ _ hr]

/-- A mask register after a write to one; m0 reads all ones (R37). -/
theorem Core.getM_setM (k : Core) (m n : BitVec 4) (x : Mask) :
    (k.setM m x).getM n = if n = m then (if m = 0 then BitVec.allOnes 1024 else x) else k.getM n := by
  unfold Core.getM Core.setM
  by_cases hd : m = 0
  · rw [if_pos hd]
    by_cases hr : n = m
    · rw [if_pos (hr.trans hd), if_pos hr, if_pos hd]
    · rw [if_neg hr]
  · rw [if_neg hd]
    by_cases hr : n = m
    · subst hr; rw [if_neg hd, if_pos rfl, if_neg hd]; exact bank_set_same _ _ _
    · rw [if_neg hr]; show (if n = 0 then _ else bank (bankSet k.m m x) n) = _; rw [bank_set_other _ _ _ _ hr]

theorem getS_setS (s : State) (d r : BitVec 6) (x : Word) :
    getS (setS d x s) r = if r = d then (if d = 0 then 0 else x) else getS s r := s.core.getS_setS d r x

theorem getP_setP (s : State) (p q : BitVec 4) (x : Bool) :
    getP (setP p x s) q = if q = p then (if p = 0 then true else x) else getP s q := s.core.getP_setP p q x

@[simp] theorem getS_setP (s : State) (p : BitVec 4) (r : BitVec 6) (x : Bool) : getS (setP p x s) r = getS s r := by
  unfold getS setP Core.getS; simp

@[simp] theorem getP_setS (s : State) (d : BitVec 6) (p : BitVec 4) (x : Word) : getP (setS d x s) p = getP s p := by
  unfold getP setS Core.getP; simp

end Sys2Proof.Machine
end

