-- ==== Sys2Proof/Laws/Access.lean ====
section
/-! SUPPORT. What reads, writes and atomics of bytes do where every byte lies in memory or in a core store of the selected core. -/

namespace Sys2Proof.Machine

open Sys2Proof

/-- Sites of consecutive bytes of memory. -/
abbrev memSites (pa n : Nat) : List Site := (List.range n).map fun i => Site.mem (pa + i)

/-- Sites of consecutive bytes of a core store. -/
abbrev coreSites (c off n : Nat) : List Site := (List.range n).map fun i => Site.core c (off + i)

theorem memSites_succ (pa n : Nat) : memSites pa (n + 1) = Site.mem pa :: memSites (pa + 1) n := by
  unfold memSites
  rw [List.range_succ_eq_map, List.map_cons, List.map_map]
  refine congrArg₂ List.cons rfl (List.map_congr_left fun i _ => ?_)
  show Site.mem (pa + (i + 1)) = Site.mem (pa + 1 + i)
  rw [show pa + (i + 1) = pa + 1 + i by omega]

theorem coreSites_succ (c off n : Nat) : coreSites c off (n + 1) = Site.core c off :: coreSites c (off + 1) n := by
  unfold coreSites
  rw [List.range_succ_eq_map, List.map_cons, List.map_map]
  refine congrArg₂ List.cons rfl (List.map_congr_left fun i _ => ?_)
  show Site.core c (off + (i + 1)) = Site.core c (off + 1 + i)
  rw [show off + (i + 1) = off + 1 + i by omega]

theorem runsOf_memSites (bs : List Byte) (pa : Nat) (h : bs ≠ []) : runsOf (memSites pa bs.length) bs = [⟨none, pa, bs⟩] := by
  induction bs generalizing pa with
  | nil => exact absurd rfl h
  | cons b rest ih =>
    rw [List.length_cons, memSites_succ]
    show consRun none pa b (runsOf (memSites (pa + 1) rest.length) rest) = _
    cases rest with
    | nil => rfl
    | cons b' rest => rw [ih (pa + 1) (by simp)]; simp [consRun]

theorem runsOf_coreSites (c : Nat) (bs : List Byte) (off : Nat) (h : bs ≠ []) :
    runsOf (coreSites c off bs.length) bs = [⟨some c, off, bs⟩] := by
  induction bs generalizing off with
  | nil => exact absurd rfl h
  | cons b rest ih =>
    rw [List.length_cons, coreSites_succ]
    show consRun (some c) off b (runsOf (coreSites c (off + 1) rest.length) rest) = _
    cases rest with
    | nil => rfl
    | cons b' rest => rw [ih (off + 1) (by simp)]; simp [consRun]

/-- A byte of a resident page of an extent of the launch is where the page's frame puts it (R310, R329, R338). -/
theorem extentSite_resident {s : State} {l a : Nat} {write : Bool} {e : Extent} {p : Page} (he : extentAt s l a = some e)
    (hw : (write && !e.attr.getLsbD 4) = false) (hl : extentLost s l e = false)
    (hp : pageOf s e.back ((a - e.base) / pageSize e.psz) = some p) (hr : p.res = true)
    (hh : panelHolds s (p.pa + (a - e.base) % pageSize e.psz) = false) :
    extentSite s l write a = memSite s write (p.pa + (a - e.base) % pageSize e.psz) := by
  unfold extentSite
  rw [he]
  simp only [hw, hl, hp, hr, hh, Bool.not_true, Bool.false_eq_true, if_false]

/-- Validation concerns block positions alone. -/
theorem validate_foldl (sites : List Site) (s : State) (h : ∀ x ∈ sites, (∃ pa, x = .mem pa) ∨ ∃ c off, x = .core c off) :
    sites.foldl validate s = s := by
  induction sites generalizing s with
  | nil => rfl
  | cons x rest ih =>
    have hx : validate s x = s := by
      rcases h x (by simp) with ⟨pa, rfl⟩ | ⟨c, off, rfl⟩ <;> rfl
    rw [List.foldl_cons, hx]
    exact ih s fun y hy => h y (List.mem_cons_of_mem _ hy)

theorem memSites_mem (pa n : Nat) : ∀ x ∈ memSites pa n, ∃ p, x = .mem p := by
  intro x hx
  obtain ⟨i, _, rfl⟩ := List.mem_map.mp hx
  exact ⟨_, rfl⟩

theorem firstFaulty_none (sites : List Site) (i : Nat) (h : ∀ x ∈ sites, x.fault = none) : firstFaulty i sites = none := by
  induction sites generalizing i with
  | nil => rfl
  | cons x rest ih =>
    unfold firstFaulty
    rw [h x (by simp)]
    exact ih _ fun y hy => h y (List.mem_cons_of_mem _ hy)

/-- A write to memory that can be reached is ready. -/
theorem readySites_mem (pa n : Nat) (s : State) : readySites (memSites pa n) s = .ok () s := by
  unfold readySites
  rw [firstFaulty_none]
  · rw [if_neg]
    intro hw
    obtain ⟨x, hx, hx2⟩ := List.any_eq_true.mp hw
    obtain ⟨p, rfl⟩ := memSites_mem _ _ _ hx
    simp [Site.waits] at hx2
  · intro x hx
    obtain ⟨p, rfl⟩ := memSites_mem _ _ _ hx
    rfl

/-- A write of consecutive bytes of memory. -/
theorem putSites_mem (pa : Nat) (bs : List Byte) (by_ : Option Writer) (va : Word) (s : State) (h : bs ≠ []) :
    putSites (memSites pa bs.length) bs by_ va s = putPhys pa bs by_ va s := by
  unfold putSites
  rw [validate_foldl _ _ fun x hx => .inl (memSites_mem _ _ _ hx), runsOf_memSites bs pa h]
  simp [putRun]

/-- A checked write of consecutive bytes of memory. -/
theorem writeSites_mem (pa : Nat) (bs : List Byte) (by_ : Option Writer) (va : Word) (s : State) (h : bs ≠ []) :
    writeSites (memSites pa bs.length) bs by_ va s = .ok (putPhys pa bs by_ va s).2 (putPhys pa bs by_ va s).1 := by
  unfold writeSites
  rw [readySites_mem]
  show Acc.ok _ _ = _
  rw [putSites_mem pa bs by_ va s h]

/-- Where Selvedge is off, a write is the write of the bytes. -/
theorem putPhys_plain (pa : Nat) (bs : List Byte) (by_ : Option Writer) (va : Word) (s : State) (h : s.sv.en = false) :
    putPhys pa bs by_ va s = (putMem pa bs s, true) := by
  unfold putPhys; rw [h]; rfl

theorem firstStop_none (rs : List ByteRead) (i : Nat) (h : ∀ r ∈ rs, ∃ b m, r = .value b m) : firstStop i rs = none := by
  induction rs generalizing i with
  | nil => rfl
  | cons r rest ih =>
    obtain ⟨b, m, rfl⟩ := h r (by simp)
    exact ih _ fun y hy => h y (List.mem_cons_of_mem _ hy)

/-- Bytes that all have a value are read. -/
theorem readSites_values (kind : ReadKind) (sites : List Site) (s : State) (val : Site → Byte × Bool)
    (h : ∀ x ∈ sites, readSite s kind x = .value (val x).1 (val x).2) :
    readSites kind sites s = .ok ⟨sites.map fun x => (val x).1, sites.map fun x => (val x).2⟩ s := by
  have hr : ∀ r ∈ sites.map (readSite s kind), ∃ b m, r = .value b m := by
    intro r hr
    obtain ⟨x, hx, rfl⟩ := List.mem_map.mp hr
    exact ⟨_, _, h x hx⟩
  unfold readSites
  simp only
  rw [firstStop_none _ _ hr, if_neg]
  · have e1 : (sites.map (readSite s kind)).map ByteRead.byte = sites.map fun x => (val x).1 := by
      rw [List.map_map]; exact List.map_congr_left fun x hx => by show ByteRead.byte (readSite s kind x) = _; rw [h x hx]; rfl
    have e2 : (sites.map (readSite s kind)).map ByteRead.missed = sites.map fun x => (val x).2 := by
      rw [List.map_map]; exact List.map_congr_left fun x hx => by show ByteRead.missed (readSite s kind x) = _; rw [h x hx]; rfl
    rw [e1, e2]
  · intro hw
    have hm : ByteRead.wait ∈ sites.map (readSite s kind) := by simpa using hw
    obtain ⟨b, m, hb⟩ := hr _ hm
    cases hb

/-- A byte of clean memory reads as it stands. -/
theorem readSite_mem (s : State) (kind : ReadKind) (pa : Nat) (hd : s.sv.deadLines.contains (pa / 64) = false)
    (hp : s.poison.contains (pa / 64) = false) : readSite s kind (.mem pa) = .value (memGet s.mem pa) false := by
  show readMemByte s pa = _
  unfold readMemByte
  rw [hd, hp]; rfl

end Sys2Proof.Machine
end

