-- ==== Sys2Proof/Laws/PerInstr.lean ====
section
/-! SUPPORT. The family EncodedForm: every instruction stands in the table of one stream at most, and has as many parcels as that stream's
words have (R15, R31, R44). One lemma per constructor. -/

namespace Sys2Proof.Laws

open Sys2Proof

/-- An instruction has a word in one stream at most: one parcel of the A-stream, one to three of the V-stream, six of the M-stream. -/
def EncodedForm.Statement (i : Instr) : Prop :=
  ((aParts i).isSome.toNat + (vParts i).isSome.toNat + (vShortParts i).isSome.toNat + (mParts i).isSome.toNat ≤ 1) ∧
    ((aParts i).isSome = true → (encode i).length = 1) ∧
    ((vParts i).isSome = true → (encode i).length = 2 ∨ (encode i).length = 3) ∧
    ((vShortParts i).isSome = true → (encode i).length = 1) ∧
    ((mParts i).isSome = true → (encode i).length = 6)

/-- A word of the A-stream. -/
theorem encodedForm_a {i : Instr} {a : AWord} (ha : aParts i = some a) (hv : vParts i = none) (hs : vShortParts i = none)
    (hm : mParts i = none) : EncodedForm.Statement i := by
  simp [EncodedForm.Statement, encode, ha, hv, hs, hm]

/-- A long V instruction. -/
theorem encodedForm_v {i : Instr} {p : BitVec 8 × VFields} (ha : aParts i = none) (hv : vParts i = some p) (hs : vShortParts i = none)
    (hm : mParts i = none) : EncodedForm.Statement i := by
  obtain ⟨op, f⟩ := p
  refine ⟨by simp [ha, hv, hs, hm], by simp [ha], fun _ => ?_, by simp [hs], by simp [hm]⟩
  simp only [encode, ha, hv, vParcels, parcels2]
  cases f.ext <;> simp

/-- A short V instruction. -/
theorem encodedForm_vShort {i : Instr} {p : BitVec 8 × BitVec 11 × BitVec 11} (ha : aParts i = none) (hv : vParts i = none)
    (hs : vShortParts i = some p) (hm : mParts i = none) : EncodedForm.Statement i := by
  obtain ⟨op, vd, va⟩ := p
  simp [EncodedForm.Statement, encode, ha, hv, hs, hm]

/-- An M word. -/
theorem encodedForm_m {i : Instr} {p : BitVec 8 × MFields} (ha : aParts i = none) (hv : vParts i = none) (hs : vShortParts i = none)
    (hm : mParts i = some p) : EncodedForm.Statement i := by
  obtain ⟨op, f⟩ := p
  simp [EncodedForm.Statement, encode, mParcels, ha, hv, hs, hm]

/-- A hint cell of variable bits, or an event. -/
theorem encodedForm_none {i : Instr} (ha : aParts i = none) (hv : vParts i = none) (hs : vShortParts i = none) (hm : mParts i = none) :
    EncodedForm.Statement i := by
  simp [EncodedForm.Statement, ha, hv, hs, hm]

theorem EncodedForm.add (sd sa sb : BitVec 6) : EncodedForm.Statement (.add sd sa sb) := encodedForm_a rfl rfl rfl rfl
theorem EncodedForm.sub (sd sa sb : BitVec 6) : EncodedForm.Statement (.sub sd sa sb) := encodedForm_a rfl rfl rfl rfl
theorem EncodedForm.mul (sd sa sb : BitVec 6) : EncodedForm.Statement (.mul sd sa sb) := encodedForm_a rfl rfl rfl rfl
theorem EncodedForm.mulh (sd sa sb : BitVec 6) : EncodedForm.Statement (.mulh sd sa sb) := encodedForm_a rfl rfl rfl rfl
theorem EncodedForm.div (sd sa sb : BitVec 6) : EncodedForm.Statement (.div sd sa sb) := encodedForm_a rfl rfl rfl rfl
theorem EncodedForm.divu (sd sa sb : BitVec 6) : EncodedForm.Statement (.divu sd sa sb) := encodedForm_a rfl rfl rfl rfl
theorem EncodedForm.rem (sd sa sb : BitVec 6) : EncodedForm.Statement (.rem sd sa sb) := encodedForm_a rfl rfl rfl rfl
theorem EncodedForm.remu (sd sa sb : BitVec 6) : EncodedForm.Statement (.remu sd sa sb) := encodedForm_a rfl rfl rfl rfl
theorem EncodedForm.and (sd sa sb : BitVec 6) : EncodedForm.Statement (.and sd sa sb) := encodedForm_a rfl rfl rfl rfl
theorem EncodedForm.or (sd sa sb : BitVec 6) : EncodedForm.Statement (.or sd sa sb) := encodedForm_a rfl rfl rfl rfl
theorem EncodedForm.xor (sd sa sb : BitVec 6) : EncodedForm.Statement (.xor sd sa sb) := encodedForm_a rfl rfl rfl rfl
theorem EncodedForm.shl (sd sa sb : BitVec 6) : EncodedForm.Statement (.shl sd sa sb) := encodedForm_a rfl rfl rfl rfl
theorem EncodedForm.shr (sd sa sb : BitVec 6) : EncodedForm.Statement (.shr sd sa sb) := encodedForm_a rfl rfl rfl rfl
theorem EncodedForm.sra (sd sa sb : BitVec 6) : EncodedForm.Statement (.sra sd sa sb) := encodedForm_a rfl rfl rfl rfl
theorem EncodedForm.min (sd sa sb : BitVec 6) : EncodedForm.Statement (.min sd sa sb) := encodedForm_a rfl rfl rfl rfl
theorem EncodedForm.max (sd sa sb : BitVec 6) : EncodedForm.Statement (.max sd sa sb) := encodedForm_a rfl rfl rfl rfl
theorem EncodedForm.clz (sd sa : BitVec 6) : EncodedForm.Statement (.clz sd sa) := encodedForm_a rfl rfl rfl rfl
theorem EncodedForm.popc (sd sa : BitVec 6) : EncodedForm.Statement (.popc sd sa) := encodedForm_a rfl rfl rfl rfl
theorem EncodedForm.sextI8 (sd sa : BitVec 6) : EncodedForm.Statement (.sextI8 sd sa) := encodedForm_a rfl rfl rfl rfl
theorem EncodedForm.sextI16 (sd sa : BitVec 6) : EncodedForm.Statement (.sextI16 sd sa) := encodedForm_a rfl rfl rfl rfl
theorem EncodedForm.sextI32 (sd sa : BitVec 6) : EncodedForm.Statement (.sextI32 sd sa) := encodedForm_a rfl rfl rfl rfl
theorem EncodedForm.zextN8 (sd sa : BitVec 6) : EncodedForm.Statement (.zextN8 sd sa) := encodedForm_a rfl rfl rfl rfl
theorem EncodedForm.zextN16 (sd sa : BitVec 6) : EncodedForm.Statement (.zextN16 sd sa) := encodedForm_a rfl rfl rfl rfl
theorem EncodedForm.zextN32 (sd sa : BitVec 6) : EncodedForm.Statement (.zextN32 sd sa) := encodedForm_a rfl rfl rfl rfl
theorem EncodedForm.cmpEq (pd : BitVec 4) (sa sb : BitVec 6) : EncodedForm.Statement (.cmpEq pd sa sb) := encodedForm_a rfl rfl rfl rfl
theorem EncodedForm.cmpNe (pd : BitVec 4) (sa sb : BitVec 6) : EncodedForm.Statement (.cmpNe pd sa sb) := encodedForm_a rfl rfl rfl rfl
theorem EncodedForm.cmpLt (pd : BitVec 4) (sa sb : BitVec 6) : EncodedForm.Statement (.cmpLt pd sa sb) := encodedForm_a rfl rfl rfl rfl
theorem EncodedForm.cmpLe (pd : BitVec 4) (sa sb : BitVec 6) : EncodedForm.Statement (.cmpLe pd sa sb) := encodedForm_a rfl rfl rfl rfl
theorem EncodedForm.cmpLtu (pd : BitVec 4) (sa sb : BitVec 6) : EncodedForm.Statement (.cmpLtu pd sa sb) := encodedForm_a rfl rfl rfl rfl
theorem EncodedForm.cmpLeu (pd : BitVec 4) (sa sb : BitVec 6) : EncodedForm.Statement (.cmpLeu pd sa sb) := encodedForm_a rfl rfl rfl rfl
theorem EncodedForm.cmpAll (pd : BitVec 4) (sa sb : BitVec 6) : EncodedForm.Statement (.cmpAll pd sa sb) := encodedForm_a rfl rfl rfl rfl
theorem EncodedForm.cmpAny (pd : BitVec 4) (sa sb : BitVec 6) : EncodedForm.Statement (.cmpAny pd sa sb) := encodedForm_a rfl rfl rfl rfl
theorem EncodedForm.pand (pd pa pb : BitVec 4) (inv : Bool) : EncodedForm.Statement (.pand pd pa pb inv) := encodedForm_a rfl rfl rfl rfl
theorem EncodedForm.por (pd pa pb : BitVec 4) (inv : Bool) : EncodedForm.Statement (.por pd pa pb inv) := encodedForm_a rfl rfl rfl rfl
theorem EncodedForm.sel (sd : BitVec 6) (pk : BitVec 4) (sa sb : BitVec 6) : EncodedForm.Statement (.sel sd pk sa sb) := encodedForm_a rfl rfl rfl rfl
theorem EncodedForm.amoAdd (sd sa sb : BitVec 6) (size : MemSize) (ord : AmoOrder) : EncodedForm.Statement (.amoAdd sd sa sb size ord) := encodedForm_a rfl rfl rfl rfl
theorem EncodedForm.amoAnd (sd sa sb : BitVec 6) (size : MemSize) (ord : AmoOrder) : EncodedForm.Statement (.amoAnd sd sa sb size ord) := encodedForm_a rfl rfl rfl rfl
theorem EncodedForm.amoOr (sd sa sb : BitVec 6) (size : MemSize) (ord : AmoOrder) : EncodedForm.Statement (.amoOr sd sa sb size ord) := encodedForm_a rfl rfl rfl rfl
theorem EncodedForm.amoXor (sd sa sb : BitVec 6) (size : MemSize) (ord : AmoOrder) : EncodedForm.Statement (.amoXor sd sa sb size ord) := encodedForm_a rfl rfl rfl rfl
theorem EncodedForm.amoMin (sd sa sb : BitVec 6) (size : MemSize) (ord : AmoOrder) : EncodedForm.Statement (.amoMin sd sa sb size ord) := encodedForm_a rfl rfl rfl rfl
theorem EncodedForm.amoMax (sd sa sb : BitVec 6) (size : MemSize) (ord : AmoOrder) : EncodedForm.Statement (.amoMax sd sa sb size ord) := encodedForm_a rfl rfl rfl rfl
theorem EncodedForm.amoMinu (sd sa sb : BitVec 6) (size : MemSize) (ord : AmoOrder) : EncodedForm.Statement (.amoMinu sd sa sb size ord) := encodedForm_a rfl rfl rfl rfl
theorem EncodedForm.amoMaxu (sd sa sb : BitVec 6) (size : MemSize) (ord : AmoOrder) : EncodedForm.Statement (.amoMaxu sd sa sb size ord) := encodedForm_a rfl rfl rfl rfl
theorem EncodedForm.swap (sd sa sb : BitVec 6) (size : MemSize) (ord : AmoOrder) : EncodedForm.Statement (.swap sd sa sb size ord) := encodedForm_a rfl rfl rfl rfl
theorem EncodedForm.cas (sd sa sb : BitVec 6) (size : MemSize) (ord : AmoOrder) : EncodedForm.Statement (.cas sd sa sb size ord) := encodedForm_a rfl rfl rfl rfl
theorem EncodedForm.amoFadd (sd sa sb : BitVec 6) (f32 : Bool) (ord : AmoOrder) : EncodedForm.Statement (.amoFadd sd sa sb f32 ord) := encodedForm_a rfl rfl rfl rfl
theorem EncodedForm.addi (sd sa : BitVec 6) (imm : BitVec 14) : EncodedForm.Statement (.addi sd sa imm) := encodedForm_a rfl rfl rfl rfl
theorem EncodedForm.andi (sd sa : BitVec 6) (imm : BitVec 14) : EncodedForm.Statement (.andi sd sa imm) := encodedForm_a rfl rfl rfl rfl
theorem EncodedForm.ori (sd sa : BitVec 6) (imm : BitVec 14) : EncodedForm.Statement (.ori sd sa imm) := encodedForm_a rfl rfl rfl rfl
theorem EncodedForm.xori (sd sa : BitVec 6) (imm : BitVec 14) : EncodedForm.Statement (.xori sd sa imm) := encodedForm_a rfl rfl rfl rfl
theorem EncodedForm.shli (sd sa : BitVec 6) (amount : BitVec 7) : EncodedForm.Statement (.shli sd sa amount) := encodedForm_a rfl rfl rfl rfl
theorem EncodedForm.shri (sd sa : BitVec 6) (amount : BitVec 7) : EncodedForm.Statement (.shri sd sa amount) := encodedForm_a rfl rfl rfl rfl
theorem EncodedForm.srai (sd sa : BitVec 6) (amount : BitVec 7) : EncodedForm.Statement (.srai sd sa amount) := encodedForm_a rfl rfl rfl rfl
theorem EncodedForm.cmpiEq (pd : BitVec 4) (sa : BitVec 6) (imm : BitVec 14) : EncodedForm.Statement (.cmpiEq pd sa imm) := encodedForm_a rfl rfl rfl rfl
theorem EncodedForm.cmpiLt (pd : BitVec 4) (sa : BitVec 6) (imm : BitVec 14) : EncodedForm.Statement (.cmpiLt pd sa imm) := encodedForm_a rfl rfl rfl rfl
theorem EncodedForm.cmpiLtu (pd : BitVec 4) (sa : BitVec 6) (imm : BitVec 14) : EncodedForm.Statement (.cmpiLtu pd sa imm) := encodedForm_a rfl rfl rfl rfl
theorem EncodedForm.movi (sd : BitVec 6) (imm : BitVec 20) : EncodedForm.Statement (.movi sd imm) := encodedForm_a rfl rfl rfl rfl
theorem EncodedForm.lsi (sd : BitVec 6) (imm : BitVec 20) : EncodedForm.Statement (.lsi sd imm) := encodedForm_a rfl rfl rfl rfl
theorem EncodedForm.addpc (sd : BitVec 6) (imm : BitVec 20) : EncodedForm.Statement (.addpc sd imm) := encodedForm_a rfl rfl rfl rfl
theorem EncodedForm.pb (b : BitVec 3) (hint : Hint) (disp : BitVec 21) : EncodedForm.Statement (.pb b hint disp) := encodedForm_a rfl rfl rfl rfl
theorem EncodedForm.br (b : BitVec 3) (pk : BitVec 4) (sense : Bool) : EncodedForm.Statement (.br b pk sense) := encodedForm_a rfl rfl rfl rfl
theorem EncodedForm.brl (b : BitVec 3) (pk : BitVec 4) (sense : Bool) (link : BitVec 6) : EncodedForm.Statement (.brl b pk sense link) := encodedForm_a rfl rfl rfl rfl
theorem EncodedForm.bloop (b : BitVec 3) (pk : BitVec 4) (sense : Bool) (lc : BitVec 2) : EncodedForm.Statement (.bloop b pk sense lc) := encodedForm_a rfl rfl rfl rfl
theorem EncodedForm.ldI8 (sd sa : BitVec 6) (ord : LdOrder) (strict : Bool) (off : BitVec 11) : EncodedForm.Statement (.ldI8 sd sa ord strict off) := encodedForm_a rfl rfl rfl rfl
theorem EncodedForm.ldN8 (sd sa : BitVec 6) (ord : LdOrder) (strict : Bool) (off : BitVec 11) : EncodedForm.Statement (.ldN8 sd sa ord strict off) := encodedForm_a rfl rfl rfl rfl
theorem EncodedForm.ldI16 (sd sa : BitVec 6) (ord : LdOrder) (strict : Bool) (off : BitVec 11) : EncodedForm.Statement (.ldI16 sd sa ord strict off) := encodedForm_a rfl rfl rfl rfl
theorem EncodedForm.ldN16 (sd sa : BitVec 6) (ord : LdOrder) (strict : Bool) (off : BitVec 11) : EncodedForm.Statement (.ldN16 sd sa ord strict off) := encodedForm_a rfl rfl rfl rfl
theorem EncodedForm.ldI32 (sd sa : BitVec 6) (ord : LdOrder) (strict : Bool) (off : BitVec 11) : EncodedForm.Statement (.ldI32 sd sa ord strict off) := encodedForm_a rfl rfl rfl rfl
theorem EncodedForm.ldN32 (sd sa : BitVec 6) (ord : LdOrder) (strict : Bool) (off : BitVec 11) : EncodedForm.Statement (.ldN32 sd sa ord strict off) := encodedForm_a rfl rfl rfl rfl
theorem EncodedForm.ldB64 (sd sa : BitVec 6) (ord : LdOrder) (strict : Bool) (off : BitVec 11) : EncodedForm.Statement (.ldB64 sd sa ord strict off) := encodedForm_a rfl rfl rfl rfl
theorem EncodedForm.ldq (q : BitVec 4) (sa : BitVec 6) (acq strict : Bool) (off : BitVec 11) : EncodedForm.Statement (.ldq q sa acq strict off) := encodedForm_a rfl rfl rfl rfl
theorem EncodedForm.stB8 (sd sa : BitVec 6) (ord : StOrder) (off : BitVec 11) : EncodedForm.Statement (.stB8 sd sa ord off) := encodedForm_a rfl rfl rfl rfl
theorem EncodedForm.stB16 (sd sa : BitVec 6) (ord : StOrder) (off : BitVec 11) : EncodedForm.Statement (.stB16 sd sa ord off) := encodedForm_a rfl rfl rfl rfl
theorem EncodedForm.stB32 (sd sa : BitVec 6) (ord : StOrder) (off : BitVec 11) : EncodedForm.Statement (.stB32 sd sa ord off) := encodedForm_a rfl rfl rfl rfl
theorem EncodedForm.stB64 (sd sa : BitVec 6) (ord : StOrder) (off : BitVec 11) : EncodedForm.Statement (.stB64 sd sa ord off) := encodedForm_a rfl rfl rfl rfl
theorem EncodedForm.fence (scope : FenceScope) (ord : FenceOrder) (paths : BitVec 5) : EncodedForm.Statement (.fence scope ord paths) := encodedForm_a rfl rfl rfl rfl
theorem EncodedForm.semSig (sem : BitVec 8) (sa : BitVec 6) : EncodedForm.Statement (.semSig sem sa) := encodedForm_a rfl rfl rfl rfl
theorem EncodedForm.semAcq (sd : BitVec 6) (sem : BitVec 8) (sa : BitVec 6) : EncodedForm.Statement (.semAcq sd sem sa) := encodedForm_a rfl rfl rfl rfl
theorem EncodedForm.semRd (sd : BitVec 6) (sem : BitVec 8) : EncodedForm.Statement (.semRd sd sem) := encodedForm_a rfl rfl rfl rfl
theorem EncodedForm.mqpush (mq : BitVec 2) (sa : BitVec 6) : EncodedForm.Statement (.mqpush mq sa) := encodedForm_a rfl rfl rfl rfl
theorem EncodedForm.qpop (sd : BitVec 6) (src : PopSrc) : EncodedForm.Statement (.qpop sd src) := encodedForm_a rfl rfl rfl rfl
theorem EncodedForm.mqFlush (sd : BitVec 6) (which : Option (BitVec 2)) : EncodedForm.Statement (.mqFlush sd which) := encodedForm_a rfl rfl rfl rfl
theorem EncodedForm.cpFlush (sd : BitVec 6) : EncodedForm.Statement (.cpFlush sd) := encodedForm_a rfl rfl rfl rfl
theorem EncodedForm.cp (sa : BitVec 6) : EncodedForm.Statement (.cp sa) := encodedForm_a rfl rfl rfl rfl
theorem EncodedForm.cpBolt (sa : BitVec 6) : EncodedForm.Statement (.cpBolt sa) := encodedForm_a rfl rfl rfl rfl
theorem EncodedForm.cpQ (q : BitVec 4) (sa : BitVec 6) : EncodedForm.Statement (.cpQ q sa) := encodedForm_a rfl rfl rfl rfl
theorem EncodedForm.spawn (sd sa : BitVec 6) : EncodedForm.Statement (.spawn sd sa) := encodedForm_a rfl rfl rfl rfl
theorem EncodedForm.suspend (sa : BitVec 6) : EncodedForm.Statement (.suspend sa) := encodedForm_a rfl rfl rfl rfl
theorem EncodedForm.exit : EncodedForm.Statement (.exit) := encodedForm_a rfl rfl rfl rfl
theorem EncodedForm.seam (id : BitVec 22) : EncodedForm.Statement (.seam id) := encodedForm_a rfl rfl rfl rfl
theorem EncodedForm.waitM (sd sa : BitVec 6) (size : MemSize) : EncodedForm.Statement (.waitM sd sa size) := encodedForm_a rfl rfl rfl rfl
theorem EncodedForm.spin : EncodedForm.Statement (.spin) := encodedForm_a rfl rfl rfl rfl
theorem EncodedForm.pagereq (sa : BitVec 6) : EncodedForm.Statement (.pagereq sa) := encodedForm_a rfl rfl rfl rfl
theorem EncodedForm.crr (sd : BitVec 6) (num : BitVec 10) : EncodedForm.Statement (.crr sd num) := encodedForm_a rfl rfl rfl rfl
theorem EncodedForm.crw (num : BitVec 10) (sa : BitVec 6) : EncodedForm.Statement (.crw num sa) := encodedForm_a rfl rfl rfl rfl
theorem EncodedForm.settc (t : BitVec 4) (sa : BitVec 6) : EncodedForm.Statement (.settc t sa) := encodedForm_a rfl rfl rfl rfl
theorem EncodedForm.trap (code : BitVec 10) : EncodedForm.Statement (.trap code) := encodedForm_a rfl rfl rfl rfl
theorem EncodedForm.grd (sense : Bool) (pk : BitVec 4) : EncodedForm.Statement (.grd sense pk) := encodedForm_a rfl rfl rfl rfl
theorem EncodedForm.pbr (b : BitVec 3) (sa : BitVec 6) (hint : Hint) : EncodedForm.Statement (.pbr b sa hint) := encodedForm_a rfl rfl rfl rfl
theorem EncodedForm.lcset (lc : BitVec 2) (sa : BitVec 6) : EncodedForm.Statement (.lcset lc sa) := encodedForm_a rfl rfl rfl rfl
theorem EncodedForm.join (sd sa : BitVec 6) : EncodedForm.Statement (.join sd sa) := encodedForm_a rfl rfl rfl rfl
theorem EncodedForm.leave (sd sa : BitVec 6) : EncodedForm.Statement (.leave sd sa) := encodedForm_a rfl rfl rfl rfl
theorem EncodedForm.barNew (sd : BitVec 6) (pk : BitVec 4) (sa : BitVec 6) : EncodedForm.Statement (.barNew sd pk sa) := encodedForm_a rfl rfl rfl rfl
theorem EncodedForm.barArv (sd sa : BitVec 6) : EncodedForm.Statement (.barArv sd sa) := encodedForm_a rfl rfl rfl rfl
theorem EncodedForm.barWt (sd sa sb : BitVec 6) : EncodedForm.Statement (.barWt sd sa sb) := encodedForm_a rfl rfl rfl rfl
theorem EncodedForm.barRel (sa : BitVec 6) : EncodedForm.Statement (.barRel sa) := encodedForm_a rfl rfl rfl rfl
theorem EncodedForm.mpath (sd sa sb : BitVec 6) : EncodedForm.Statement (.mpath sd sa sb) := encodedForm_a rfl rfl rfl rfl
theorem EncodedForm.lqPost (sd sa sb : BitVec 6) : EncodedForm.Statement (.lqPost sd sa sb) := encodedForm_a rfl rfl rfl rfl
theorem EncodedForm.pnlDef (sd : BitVec 6) (pk : BitVec 4) (sa : BitVec 6) : EncodedForm.Statement (.pnlDef sd pk sa) := encodedForm_a rfl rfl rfl rfl
theorem EncodedForm.kvbMap (sd : BitVec 6) (pk : BitVec 4) (alloc : Bool) (sa : BitVec 6) : EncodedForm.Statement (.kvbMap sd pk alloc sa) := encodedForm_a rfl rfl rfl rfl
theorem EncodedForm.kvbShare (sd sa sb : BitVec 6) : EncodedForm.Statement (.kvbShare sd sa sb) := encodedForm_a rfl rfl rfl rfl
theorem EncodedForm.kvbFree (sd sa : BitVec 6) : EncodedForm.Statement (.kvbFree sd sa) := encodedForm_a rfl rfl rfl rfl
theorem EncodedForm.kvbInval (sd sa sb : BitVec 6) : EncodedForm.Statement (.kvbInval sd sa sb) := encodedForm_a rfl rfl rfl rfl
theorem EncodedForm.netPost (sd sa : BitVec 6) : EncodedForm.Statement (.netPost sd sa) := encodedForm_a rfl rfl rfl rfl
theorem EncodedForm.netWait (sd sa sb : BitVec 6) : EncodedForm.Statement (.netWait sd sa sb) := encodedForm_a rfl rfl rfl rfl
theorem EncodedForm.msgSend (sd sa : BitVec 6) : EncodedForm.Statement (.msgSend sd sa) := encodedForm_a rfl rfl rfl rfl
theorem EncodedForm.msgRecv (sd sa : BitVec 6) : EncodedForm.Statement (.msgRecv sd sa) := encodedForm_a rfl rfl rfl rfl
theorem EncodedForm.nop (x : BitVec 26) : EncodedForm.Statement (.nop x) := encodedForm_a rfl rfl rfl rfl
theorem EncodedForm.vnop (f : VFields) : EncodedForm.Statement (.vnop f) := encodedForm_v rfl rfl rfl rfl
theorem EncodedForm.vseam (f : VFields) : EncodedForm.Statement (.vseam f) := encodedForm_v rfl rfl rfl rfl
theorem EncodedForm.vhalt (f : VFields) : EncodedForm.Statement (.vhalt f) := encodedForm_v rfl rfl rfl rfl
theorem EncodedForm.vwait (f : VFields) : EncodedForm.Statement (.vwait f) := encodedForm_v rfl rfl rfl rfl
theorem EncodedForm.vsig (f : VFields) : EncodedForm.Statement (.vsig f) := encodedForm_v rfl rfl rfl rfl
theorem EncodedForm.vjmp (f : VFields) : EncodedForm.Statement (.vjmp f) := encodedForm_v rfl rfl rfl rfl
theorem EncodedForm.vloop (f : VFields) : EncodedForm.Statement (.vloop f) := encodedForm_v rfl rfl rfl rfl
theorem EncodedForm.vmov (f : VFields) : EncodedForm.Statement (.vmov f) := encodedForm_v rfl rfl rfl rfl
theorem EncodedForm.vmovi (f : VFields) : EncodedForm.Statement (.vmovi f) := encodedForm_v rfl rfl rfl rfl
theorem EncodedForm.vins (f : VFields) : EncodedForm.Statement (.vins f) := encodedForm_v rfl rfl rfl rfl
theorem EncodedForm.vswap (f : VFields) : EncodedForm.Statement (.vswap f) := encodedForm_v rfl rfl rfl rfl
theorem EncodedForm.vpop (f : VFields) : EncodedForm.Statement (.vpop f) := encodedForm_v rfl rfl rfl rfl
theorem EncodedForm.vpush (f : VFields) : EncodedForm.Statement (.vpush f) := encodedForm_v rfl rfl rfl rfl
theorem EncodedForm.vqdrop (f : VFields) : EncodedForm.Statement (.vqdrop f) := encodedForm_v rfl rfl rfl rfl
theorem EncodedForm.vadd (f : VFields) : EncodedForm.Statement (.vadd f) := encodedForm_v rfl rfl rfl rfl
theorem EncodedForm.vsub (f : VFields) : EncodedForm.Statement (.vsub f) := encodedForm_v rfl rfl rfl rfl
theorem EncodedForm.vmul (f : VFields) : EncodedForm.Statement (.vmul f) := encodedForm_v rfl rfl rfl rfl
theorem EncodedForm.vmulh (f : VFields) : EncodedForm.Statement (.vmulh f) := encodedForm_v rfl rfl rfl rfl
theorem EncodedForm.vfma (f : VFields) : EncodedForm.Statement (.vfma f) := encodedForm_v rfl rfl rfl rfl
theorem EncodedForm.vfms (f : VFields) : EncodedForm.Statement (.vfms f) := encodedForm_v rfl rfl rfl rfl
theorem EncodedForm.vfnma (f : VFields) : EncodedForm.Statement (.vfnma f) := encodedForm_v rfl rfl rfl rfl
theorem EncodedForm.vmin (f : VFields) : EncodedForm.Statement (.vmin f) := encodedForm_v rfl rfl rfl rfl
theorem EncodedForm.vmax (f : VFields) : EncodedForm.Statement (.vmax f) := encodedForm_v rfl rfl rfl rfl
theorem EncodedForm.vabs (f : VFields) : EncodedForm.Statement (.vabs f) := encodedForm_v rfl rfl rfl rfl
theorem EncodedForm.vneg (f : VFields) : EncodedForm.Statement (.vneg f) := encodedForm_v rfl rfl rfl rfl
theorem EncodedForm.vavg (f : VFields) : EncodedForm.Statement (.vavg f) := encodedForm_v rfl rfl rfl rfl
theorem EncodedForm.vabsd (f : VFields) : EncodedForm.Statement (.vabsd f) := encodedForm_v rfl rfl rfl rfl
theorem EncodedForm.vclamp (f : VFields) : EncodedForm.Statement (.vclamp f) := encodedForm_v rfl rfl rfl rfl
theorem EncodedForm.vsign (f : VFields) : EncodedForm.Statement (.vsign f) := encodedForm_v rfl rfl rfl rfl
theorem EncodedForm.vscale (f : VFields) : EncodedForm.Statement (.vscale f) := encodedForm_v rfl rfl rfl rfl
theorem EncodedForm.vdot4 (f : VFields) : EncodedForm.Statement (.vdot4 f) := encodedForm_v rfl rfl rfl rfl
theorem EncodedForm.vdot2 (f : VFields) : EncodedForm.Statement (.vdot2 f) := encodedForm_v rfl rfl rfl rfl
theorem EncodedForm.vmulw (f : VFields) : EncodedForm.Statement (.vmulw f) := encodedForm_v rfl rfl rfl rfl
theorem EncodedForm.vaddw (f : VFields) : EncodedForm.Statement (.vaddw f) := encodedForm_v rfl rfl rfl rfl
theorem EncodedForm.vrint (f : VFields) : EncodedForm.Statement (.vrint f) := encodedForm_v rfl rfl rfl rfl
theorem EncodedForm.vmulq (f : VFields) : EncodedForm.Statement (.vmulq f) := encodedForm_v rfl rfl rfl rfl
theorem EncodedForm.vlut (f : VFields) : EncodedForm.Statement (.vlut f) := encodedForm_v rfl rfl rfl rfl
theorem EncodedForm.vfrexp (f : VFields) : EncodedForm.Statement (.vfrexp f) := encodedForm_v rfl rfl rfl rfl
theorem EncodedForm.vcmpEq (f : VFields) : EncodedForm.Statement (.vcmpEq f) := encodedForm_v rfl rfl rfl rfl
theorem EncodedForm.vcmpNe (f : VFields) : EncodedForm.Statement (.vcmpNe f) := encodedForm_v rfl rfl rfl rfl
theorem EncodedForm.vcmpLt (f : VFields) : EncodedForm.Statement (.vcmpLt f) := encodedForm_v rfl rfl rfl rfl
theorem EncodedForm.vcmpLe (f : VFields) : EncodedForm.Statement (.vcmpLe f) := encodedForm_v rfl rfl rfl rfl
theorem EncodedForm.vcmpUnord (f : VFields) : EncodedForm.Statement (.vcmpUnord f) := encodedForm_v rfl rfl rfl rfl
theorem EncodedForm.vcmpOrd (f : VFields) : EncodedForm.Statement (.vcmpOrd f) := encodedForm_v rfl rfl rfl rfl
theorem EncodedForm.vsel (f : VFields) : EncodedForm.Statement (.vsel f) := encodedForm_v rfl rfl rfl rfl
theorem EncodedForm.vclass (f : VFields) : EncodedForm.Statement (.vclass f) := encodedForm_v rfl rfl rfl rfl
theorem EncodedForm.kand (f : VFields) : EncodedForm.Statement (.kand f) := encodedForm_v rfl rfl rfl rfl
theorem EncodedForm.kor (f : VFields) : EncodedForm.Statement (.kor f) := encodedForm_v rfl rfl rfl rfl
theorem EncodedForm.kxor (f : VFields) : EncodedForm.Statement (.kxor f) := encodedForm_v rfl rfl rfl rfl
theorem EncodedForm.knot (f : VFields) : EncodedForm.Statement (.knot f) := encodedForm_v rfl rfl rfl rfl
theorem EncodedForm.kpopc (f : VFields) : EncodedForm.Statement (.kpopc f) := encodedForm_v rfl rfl rfl rfl
theorem EncodedForm.kfirst (f : VFields) : EncodedForm.Statement (.kfirst f) := encodedForm_v rfl rfl rfl rfl
theorem EncodedForm.vtok (f : VFields) : EncodedForm.Statement (.vtok f) := encodedForm_v rfl rfl rfl rfl
theorem EncodedForm.ktov (f : VFields) : EncodedForm.Statement (.ktov f) := encodedForm_v rfl rfl rfl rfl
theorem EncodedForm.kset (f : VFields) : EncodedForm.Statement (.kset f) := encodedForm_v rfl rfl rfl rfl
theorem EncodedForm.vand (f : VFields) : EncodedForm.Statement (.vand f) := encodedForm_v rfl rfl rfl rfl
theorem EncodedForm.vor (f : VFields) : EncodedForm.Statement (.vor f) := encodedForm_v rfl rfl rfl rfl
theorem EncodedForm.vxor (f : VFields) : EncodedForm.Statement (.vxor f) := encodedForm_v rfl rfl rfl rfl
theorem EncodedForm.vnot (f : VFields) : EncodedForm.Statement (.vnot f) := encodedForm_v rfl rfl rfl rfl
theorem EncodedForm.vandn (f : VFields) : EncodedForm.Statement (.vandn f) := encodedForm_v rfl rfl rfl rfl
theorem EncodedForm.vbsel (f : VFields) : EncodedForm.Statement (.vbsel f) := encodedForm_v rfl rfl rfl rfl
theorem EncodedForm.vshl (f : VFields) : EncodedForm.Statement (.vshl f) := encodedForm_v rfl rfl rfl rfl
theorem EncodedForm.vshr (f : VFields) : EncodedForm.Statement (.vshr f) := encodedForm_v rfl rfl rfl rfl
theorem EncodedForm.vsra (f : VFields) : EncodedForm.Statement (.vsra f) := encodedForm_v rfl rfl rfl rfl
theorem EncodedForm.vclz (f : VFields) : EncodedForm.Statement (.vclz f) := encodedForm_v rfl rfl rfl rfl
theorem EncodedForm.vpopc (f : VFields) : EncodedForm.Statement (.vpopc f) := encodedForm_v rfl rfl rfl rfl
theorem EncodedForm.vbrev (f : VFields) : EncodedForm.Statement (.vbrev f) := encodedForm_v rfl rfl rfl rfl
theorem EncodedForm.vcvt (f : VFields) : EncodedForm.Statement (.vcvt f) := encodedForm_v rfl rfl rfl rfl
theorem EncodedForm.vpack (f : VFields) : EncodedForm.Statement (.vpack f) := encodedForm_v rfl rfl rfl rfl
theorem EncodedForm.vunpk (f : VFields) : EncodedForm.Statement (.vunpk f) := encodedForm_v rfl rfl rfl rfl
theorem EncodedForm.vmxq (f : VFields) : EncodedForm.Statement (.vmxq f) := encodedForm_v rfl rfl rfl rfl
theorem EncodedForm.vmxd (f : VFields) : EncodedForm.Statement (.vmxd f) := encodedForm_v rfl rfl rfl rfl
theorem EncodedForm.vrq (f : VFields) : EncodedForm.Statement (.vrq f) := encodedForm_v rfl rfl rfl rfl
theorem EncodedForm.vexp2 (f : VFields) : EncodedForm.Statement (.vexp2 f) := encodedForm_v rfl rfl rfl rfl
theorem EncodedForm.vlog2 (f : VFields) : EncodedForm.Statement (.vlog2 f) := encodedForm_v rfl rfl rfl rfl
theorem EncodedForm.vrcp (f : VFields) : EncodedForm.Statement (.vrcp f) := encodedForm_v rfl rfl rfl rfl
theorem EncodedForm.vrsq (f : VFields) : EncodedForm.Statement (.vrsq f) := encodedForm_v rfl rfl rfl rfl
theorem EncodedForm.vsqrt (f : VFields) : EncodedForm.Statement (.vsqrt f) := encodedForm_v rfl rfl rfl rfl
theorem EncodedForm.vsin (f : VFields) : EncodedForm.Statement (.vsin f) := encodedForm_v rfl rfl rfl rfl
theorem EncodedForm.vcos (f : VFields) : EncodedForm.Statement (.vcos f) := encodedForm_v rfl rfl rfl rfl
theorem EncodedForm.vtanh (f : VFields) : EncodedForm.Statement (.vtanh f) := encodedForm_v rfl rfl rfl rfl
theorem EncodedForm.vsigm (f : VFields) : EncodedForm.Statement (.vsigm f) := encodedForm_v rfl rfl rfl rfl
theorem EncodedForm.verf (f : VFields) : EncodedForm.Statement (.verf f) := encodedForm_v rfl rfl rfl rfl
theorem EncodedForm.vrot (f : VFields) : EncodedForm.Statement (.vrot f) := encodedForm_v rfl rfl rfl rfl
theorem EncodedForm.vbcst (f : VFields) : EncodedForm.Statement (.vbcst f) := encodedForm_v rfl rfl rfl rfl
theorem EncodedForm.vrsum (f : VFields) : EncodedForm.Statement (.vrsum f) := encodedForm_v rfl rfl rfl rfl
theorem EncodedForm.vrmax (f : VFields) : EncodedForm.Statement (.vrmax f) := encodedForm_v rfl rfl rfl rfl
theorem EncodedForm.vrmin (f : VFields) : EncodedForm.Statement (.vrmin f) := encodedForm_v rfl rfl rfl rfl
theorem EncodedForm.vrmaxi (f : VFields) : EncodedForm.Statement (.vrmaxi f) := encodedForm_v rfl rfl rfl rfl
theorem EncodedForm.vrmini (f : VFields) : EncodedForm.Statement (.vrmini f) := encodedForm_v rfl rfl rfl rfl
theorem EncodedForm.vscan (f : VFields) : EncodedForm.Statement (.vscan f) := encodedForm_v rfl rfl rfl rfl
theorem EncodedForm.vshft (f : VFields) : EncodedForm.Statement (.vshft f) := encodedForm_v rfl rfl rfl rfl
theorem EncodedForm.vrsumw (f : VFields) : EncodedForm.Statement (.vrsumw f) := encodedForm_v rfl rfl rfl rfl
theorem EncodedForm.vperm (f : VFields) : EncodedForm.Statement (.vperm f) := encodedForm_v rfl rfl rfl rfl
theorem EncodedForm.vtrn (f : VFields) : EncodedForm.Statement (.vtrn f) := encodedForm_v rfl rfl rfl rfl
theorem EncodedForm.vzip (f : VFields) : EncodedForm.Statement (.vzip f) := encodedForm_v rfl rfl rfl rfl
theorem EncodedForm.vuzp (f : VFields) : EncodedForm.Statement (.vuzp f) := encodedForm_v rfl rfl rfl rfl
theorem EncodedForm.vcxs (f : VFields) : EncodedForm.Statement (.vcxs f) := encodedForm_v rfl rfl rfl rfl
theorem EncodedForm.vcomp (f : VFields) : EncodedForm.Statement (.vcomp f) := encodedForm_v rfl rfl rfl rfl
theorem EncodedForm.vexpd (f : VFields) : EncodedForm.Statement (.vexpd f) := encodedForm_v rfl rfl rfl rfl
theorem EncodedForm.vrand (f : VFields) : EncodedForm.Statement (.vrand f) := encodedForm_v rfl rfl rfl rfl
theorem EncodedForm.vld (f : VFields) : EncodedForm.Statement (.vld f) := encodedForm_v rfl rfl rfl rfl
theorem EncodedForm.vlds (f : VFields) : EncodedForm.Statement (.vlds f) := encodedForm_v rfl rfl rfl rfl
theorem EncodedForm.vst (f : VFields) : EncodedForm.Statement (.vst f) := encodedForm_v rfl rfl rfl rfl
theorem EncodedForm.vsts (f : VFields) : EncodedForm.Statement (.vsts f) := encodedForm_v rfl rfl rfl rfl
theorem EncodedForm.vldx (f : VFields) : EncodedForm.Statement (.vldx f) := encodedForm_v rfl rfl rfl rfl
theorem EncodedForm.vstx (f : VFields) : EncodedForm.Statement (.vstx f) := encodedForm_v rfl rfl rfl rfl
theorem EncodedForm.kld (f : VFields) : EncodedForm.Statement (.kld f) := encodedForm_v rfl rfl rfl rfl
theorem EncodedForm.kst (f : VFields) : EncodedForm.Statement (.kst f) := encodedForm_v rfl rfl rfl rfl
theorem EncodedForm.vstm (f : VFields) : EncodedForm.Statement (.vstm f) := encodedForm_v rfl rfl rfl rfl
theorem EncodedForm.vHint (w : VRaw) : EncodedForm.Statement (.vHint w) := encodedForm_none rfl rfl rfl rfl
theorem EncodedForm.vnopShort : EncodedForm.Statement (.vnopShort) := encodedForm_vShort rfl rfl rfl rfl
theorem EncodedForm.vseamShort (id : BitVec 22) : EncodedForm.Statement (.vseamShort id) := encodedForm_vShort rfl rfl rfl rfl
theorem EncodedForm.vhaltShort : EncodedForm.Statement (.vhaltShort) := encodedForm_vShort rfl rfl rfl rfl
theorem EncodedForm.vmovShort (vd va : BitVec 11) : EncodedForm.Statement (.vmovShort vd va) := encodedForm_vShort rfl rfl rfl rfl
theorem EncodedForm.vswapShort (vd va : BitVec 11) : EncodedForm.Statement (.vswapShort vd va) := encodedForm_vShort rfl rfl rfl rfl
theorem EncodedForm.vpopShort (vd va : BitVec 11) : EncodedForm.Statement (.vpopShort vd va) := encodedForm_vShort rfl rfl rfl rfl
theorem EncodedForm.vqdropShort (va : BitVec 11) : EncodedForm.Statement (.vqdropShort va) := encodedForm_vShort rfl rfl rfl rfl
theorem EncodedForm.vnotShort (vd va : BitVec 11) : EncodedForm.Statement (.vnotShort vd va) := encodedForm_vShort rfl rfl rfl rfl
theorem EncodedForm.vandShort (vd va : BitVec 11) : EncodedForm.Statement (.vandShort vd va) := encodedForm_vShort rfl rfl rfl rfl
theorem EncodedForm.vorShort (vd va : BitVec 11) : EncodedForm.Statement (.vorShort vd va) := encodedForm_vShort rfl rfl rfl rfl
theorem EncodedForm.vxorShort (vd va : BitVec 11) : EncodedForm.Statement (.vxorShort vd va) := encodedForm_vShort rfl rfl rfl rfl
theorem EncodedForm.vandnShort (vd va : BitVec 11) : EncodedForm.Statement (.vandnShort vd va) := encodedForm_vShort rfl rfl rfl rfl
theorem EncodedForm.kandShort (mk ma : BitVec 4) : EncodedForm.Statement (.kandShort mk ma) := encodedForm_vShort rfl rfl rfl rfl
theorem EncodedForm.korShort (mk ma : BitVec 4) : EncodedForm.Statement (.korShort mk ma) := encodedForm_vShort rfl rfl rfl rfl
theorem EncodedForm.kxorShort (mk ma : BitVec 4) : EncodedForm.Statement (.kxorShort mk ma) := encodedForm_vShort rfl rfl rfl rfl
theorem EncodedForm.knotShort (mk ma : BitVec 4) : EncodedForm.Statement (.knotShort mk ma) := encodedForm_vShort rfl rfl rfl rfl
theorem EncodedForm.vaddF32Short (vd va : BitVec 11) : EncodedForm.Statement (.vaddF32Short vd va) := encodedForm_vShort rfl rfl rfl rfl
theorem EncodedForm.vsubF32Short (vd va : BitVec 11) : EncodedForm.Statement (.vsubF32Short vd va) := encodedForm_vShort rfl rfl rfl rfl
theorem EncodedForm.vmulF32Short (vd va : BitVec 11) : EncodedForm.Statement (.vmulF32Short vd va) := encodedForm_vShort rfl rfl rfl rfl
theorem EncodedForm.vminF32Short (vd va : BitVec 11) : EncodedForm.Statement (.vminF32Short vd va) := encodedForm_vShort rfl rfl rfl rfl
theorem EncodedForm.vmaxF32Short (vd va : BitVec 11) : EncodedForm.Statement (.vmaxF32Short vd va) := encodedForm_vShort rfl rfl rfl rfl
theorem EncodedForm.vabsF32Short (vd va : BitVec 11) : EncodedForm.Statement (.vabsF32Short vd va) := encodedForm_vShort rfl rfl rfl rfl
theorem EncodedForm.vnegF32Short (vd va : BitVec 11) : EncodedForm.Statement (.vnegF32Short vd va) := encodedForm_vShort rfl rfl rfl rfl
theorem EncodedForm.vexp2F32Short (vd va : BitVec 11) : EncodedForm.Statement (.vexp2F32Short vd va) := encodedForm_vShort rfl rfl rfl rfl
theorem EncodedForm.vaddBf16Short (vd va : BitVec 11) : EncodedForm.Statement (.vaddBf16Short vd va) := encodedForm_vShort rfl rfl rfl rfl
theorem EncodedForm.vsubBf16Short (vd va : BitVec 11) : EncodedForm.Statement (.vsubBf16Short vd va) := encodedForm_vShort rfl rfl rfl rfl
theorem EncodedForm.vmulBf16Short (vd va : BitVec 11) : EncodedForm.Statement (.vmulBf16Short vd va) := encodedForm_vShort rfl rfl rfl rfl
theorem EncodedForm.vminBf16Short (vd va : BitVec 11) : EncodedForm.Statement (.vminBf16Short vd va) := encodedForm_vShort rfl rfl rfl rfl
theorem EncodedForm.vmaxBf16Short (vd va : BitVec 11) : EncodedForm.Statement (.vmaxBf16Short vd va) := encodedForm_vShort rfl rfl rfl rfl
theorem EncodedForm.vaddI32Short (vd va : BitVec 11) : EncodedForm.Statement (.vaddI32Short vd va) := encodedForm_vShort rfl rfl rfl rfl
theorem EncodedForm.vsubI32Short (vd va : BitVec 11) : EncodedForm.Statement (.vsubI32Short vd va) := encodedForm_vShort rfl rfl rfl rfl
theorem EncodedForm.vmulI32Short (vd va : BitVec 11) : EncodedForm.Statement (.vmulI32Short vd va) := encodedForm_vShort rfl rfl rfl rfl
theorem EncodedForm.vminI32Short (vd va : BitVec 11) : EncodedForm.Statement (.vminI32Short vd va) := encodedForm_vShort rfl rfl rfl rfl
theorem EncodedForm.vmaxI32Short (vd va : BitVec 11) : EncodedForm.Statement (.vmaxI32Short vd va) := encodedForm_vShort rfl rfl rfl rfl
theorem EncodedForm.vaddI16Short (vd va : BitVec 11) : EncodedForm.Statement (.vaddI16Short vd va) := encodedForm_vShort rfl rfl rfl rfl
theorem EncodedForm.vsubI16Short (vd va : BitVec 11) : EncodedForm.Statement (.vsubI16Short vd va) := encodedForm_vShort rfl rfl rfl rfl
theorem EncodedForm.vaddI8Short (vd va : BitVec 11) : EncodedForm.Statement (.vaddI8Short vd va) := encodedForm_vShort rfl rfl rfl rfl
theorem EncodedForm.vsubI8Short (vd va : BitVec 11) : EncodedForm.Statement (.vsubI8Short vd va) := encodedForm_vShort rfl rfl rfl rfl
theorem EncodedForm.vHintShort (op : BitVec 4) (vd va : BitVec 11) : EncodedForm.Statement (.vHintShort op vd va) := encodedForm_vShort rfl rfl rfl rfl
theorem EncodedForm.mnop (f : MFields) : EncodedForm.Statement (.mnop f) := encodedForm_m rfl rfl rfl rfl
theorem EncodedForm.mhalt (f : MFields) : EncodedForm.Statement (.mhalt f) := encodedForm_m rfl rfl rfl rfl
theorem EncodedForm.mseam (f : MFields) : EncodedForm.Statement (.mseam f) := encodedForm_m rfl rfl rfl rfl
theorem EncodedForm.mreply (f : MFields) : EncodedForm.Statement (.mreply f) := encodedForm_m rfl rfl rfl rfl
theorem EncodedForm.mloop (f : MFields) : EncodedForm.Statement (.mloop f) := encodedForm_m rfl rfl rfl rfl
theorem EncodedForm.mend (f : MFields) : EncodedForm.Statement (.mend f) := encodedForm_m rfl rfl rfl rfl
theorem EncodedForm.mjmp (f : MFields) : EncodedForm.Statement (.mjmp f) := encodedForm_m rfl rfl rfl rfl
theorem EncodedForm.mfence (f : MFields) : EncodedForm.Statement (.mfence f) := encodedForm_m rfl rfl rfl rfl
theorem EncodedForm.mbrk (f : MFields) : EncodedForm.Statement (.mbrk f) := encodedForm_m rfl rfl rfl rfl
theorem EncodedForm.qstep (f : MFields) : EncodedForm.Statement (.qstep f) := encodedForm_m rfl rfl rfl rfl
theorem EncodedForm.qstepI4 (f : MFields) : EncodedForm.Statement (.qstepI4 f) := encodedForm_m rfl rfl rfl rfl
theorem EncodedForm.qdrain (f : MFields) : EncodedForm.Statement (.qdrain f) := encodedForm_m rfl rfl rfl rfl
theorem EncodedForm.mBolt (f : MFields) : EncodedForm.Statement (.mBolt f) := encodedForm_m rfl rfl rfl rfl
theorem EncodedForm.qcb (f : MFields) : EncodedForm.Statement (.qcb f) := encodedForm_m rfl rfl rfl rfl
theorem EncodedForm.qscl (f : MFields) : EncodedForm.Statement (.qscl f) := encodedForm_m rfl rfl rfl rfl
theorem EncodedForm.qwin (f : MFields) : EncodedForm.Statement (.qwin f) := encodedForm_m rfl rfl rfl rfl
theorem EncodedForm.qrel (f : MFields) : EncodedForm.Statement (.qrel f) := encodedForm_m rfl rfl rfl rfl
theorem EncodedForm.qskip (f : MFields) : EncodedForm.Statement (.qskip f) := encodedForm_m rfl rfl rfl rfl
theorem EncodedForm.qnz (f : MFields) : EncodedForm.Statement (.qnz f) := encodedForm_m rfl rfl rfl rfl
theorem EncodedForm.mmaI8 (f : MFields) : EncodedForm.Statement (.mmaI8 f) := encodedForm_m rfl rfl rfl rfl
theorem EncodedForm.mmaE4m3 (f : MFields) : EncodedForm.Statement (.mmaE4m3 f) := encodedForm_m rfl rfl rfl rfl
theorem EncodedForm.mmaE5m2 (f : MFields) : EncodedForm.Statement (.mmaE5m2 f) := encodedForm_m rfl rfl rfl rfl
theorem EncodedForm.mmaBf16 (f : MFields) : EncodedForm.Statement (.mmaBf16 f) := encodedForm_m rfl rfl rfl rfl
theorem EncodedForm.mmaMx4 (f : MFields) : EncodedForm.Statement (.mmaMx4 f) := encodedForm_m rfl rfl rfl rfl
theorem EncodedForm.mmaGI8 (f : MFields) : EncodedForm.Statement (.mmaGI8 f) := encodedForm_m rfl rfl rfl rfl
theorem EncodedForm.mmaGE4m3 (f : MFields) : EncodedForm.Statement (.mmaGE4m3 f) := encodedForm_m rfl rfl rfl rfl
theorem EncodedForm.mmaGE5m2 (f : MFields) : EncodedForm.Statement (.mmaGE5m2 f) := encodedForm_m rfl rfl rfl rfl
theorem EncodedForm.mmaGBf16 (f : MFields) : EncodedForm.Statement (.mmaGBf16 f) := encodedForm_m rfl rfl rfl rfl
theorem EncodedForm.mmaGMx4 (f : MFields) : EncodedForm.Statement (.mmaGMx4 f) := encodedForm_m rfl rfl rfl rfl
theorem EncodedForm.mmaMskI8 (f : MFields) : EncodedForm.Statement (.mmaMskI8 f) := encodedForm_m rfl rfl rfl rfl
theorem EncodedForm.mmaMskE4m3 (f : MFields) : EncodedForm.Statement (.mmaMskE4m3 f) := encodedForm_m rfl rfl rfl rfl
theorem EncodedForm.mmaMskE5m2 (f : MFields) : EncodedForm.Statement (.mmaMskE5m2 f) := encodedForm_m rfl rfl rfl rfl
theorem EncodedForm.mmaMskBf16 (f : MFields) : EncodedForm.Statement (.mmaMskBf16 f) := encodedForm_m rfl rfl rfl rfl
theorem EncodedForm.mmaMskMx4 (f : MFields) : EncodedForm.Statement (.mmaMskMx4 f) := encodedForm_m rfl rfl rfl rfl
theorem EncodedForm.mmld (f : MFields) : EncodedForm.Statement (.mmld f) := encodedForm_m rfl rfl rfl rfl
theorem EncodedForm.yclr (f : MFields) : EncodedForm.Statement (.yclr f) := encodedForm_m rfl rfl rfl rfl
theorem EncodedForm.yld (f : MFields) : EncodedForm.Statement (.yld f) := encodedForm_m rfl rfl rfl rfl
theorem EncodedForm.yst (f : MFields) : EncodedForm.Statement (.yst f) := encodedForm_m rfl rfl rfl rfl
theorem EncodedForm.ymov (f : MFields) : EncodedForm.Statement (.ymov f) := encodedForm_m rfl rfl rfl rfl
theorem EncodedForm.yadd (f : MFields) : EncodedForm.Statement (.yadd f) := encodedForm_m rfl rfl rfl rfl
theorem EncodedForm.ymax (f : MFields) : EncodedForm.Statement (.ymax f) := encodedForm_m rfl rfl rfl rfl
theorem EncodedForm.yfill (f : MFields) : EncodedForm.Statement (.yfill f) := encodedForm_m rfl rfl rfl rfl
theorem EncodedForm.yred (f : MFields) : EncodedForm.Statement (.yred f) := encodedForm_m rfl rfl rfl rfl
theorem EncodedForm.yscl (f : MFields) : EncodedForm.Statement (.yscl f) := encodedForm_m rfl rfl rfl rfl
theorem EncodedForm.yswap (f : MFields) : EncodedForm.Statement (.yswap f) := encodedForm_m rfl rfl rfl rfl
theorem EncodedForm.epi (f : MFields) : EncodedForm.Statement (.epi f) := encodedForm_m rfl rfl rfl rfl
theorem EncodedForm.mtrn (f : MFields) : EncodedForm.Statement (.mtrn f) := encodedForm_m rfl rfl rfl rfl
theorem EncodedForm.mHint (w : BitVec 192) : EncodedForm.Statement (.mHint w) := encodedForm_none rfl rfl rfl rfl
theorem EncodedForm.mWordCompletion (core : BitVec 8) : EncodedForm.Statement (.mWordCompletion core) := encodedForm_none rfl rfl rfl rfl
theorem EncodedForm.accessCompletion (core : BitVec 8) (id : Nat) (reply : Reply) : EncodedForm.Statement (.accessCompletion core id reply) := encodedForm_none rfl rfl rfl rfl
theorem EncodedForm.copyStart (core : BitVec 8) : EncodedForm.Statement (.copyStart core) := encodedForm_none rfl rfl rfl rfl
theorem EncodedForm.copyCompletion (core : BitVec 8) : EncodedForm.Statement (.copyCompletion core) := encodedForm_none rfl rfl rfl rfl
theorem EncodedForm.copyFault (core : BitVec 8) : EncodedForm.Statement (.copyFault core) := encodedForm_none rfl rfl rfl rfl
theorem EncodedForm.trapDelivery (core : BitVec 8) : EncodedForm.Statement (.trapDelivery core) := encodedForm_none rfl rfl rfl rfl
theorem EncodedForm.distributorSelection : EncodedForm.Statement (.distributorSelection) := encodedForm_none rfl rfl rfl rfl
theorem EncodedForm.binding (core : BitVec 8) : EncodedForm.Statement (.binding core) := encodedForm_none rfl rfl rfl rfl
theorem EncodedForm.expressPreemption : EncodedForm.Statement (.expressPreemption) := encodedForm_none rfl rfl rfl rfl
theorem EncodedForm.starvationPreemption (slot : Nat) : EncodedForm.Statement (.starvationPreemption slot) := encodedForm_none rfl rfl rfl rfl
theorem EncodedForm.progressStop (slot : Nat) : EncodedForm.Statement (.progressStop slot) := encodedForm_none rfl rfl rfl rfl
theorem EncodedForm.stopCompletion (core : BitVec 8) : EncodedForm.Statement (.stopCompletion core) := encodedForm_none rfl rfl rfl rfl
theorem EncodedForm.stopTimeout (core : BitVec 8) : EncodedForm.Statement (.stopTimeout core) := encodedForm_none rfl rfl rfl rfl
theorem EncodedForm.monitorWake (slot : Nat) : EncodedForm.Statement (.monitorWake slot) := encodedForm_none rfl rfl rfl rfl
theorem EncodedForm.waitMRecheck (core : BitVec 8) : EncodedForm.Statement (.waitMRecheck core) := encodedForm_none rfl rfl rfl rfl
theorem EncodedForm.frameFill (core : BitVec 8) (unit : Nat) : EncodedForm.Statement (.frameFill core unit) := encodedForm_none rfl rfl rfl rfl
theorem EncodedForm.frameSave (core : BitVec 8) (owner unit : Nat) (uncorr : Bool) : EncodedForm.Statement (.frameSave core owner unit uncorr) := encodedForm_none rfl rfl rfl rfl
theorem EncodedForm.frameLoad (core : BitVec 8) (unit : Nat) (uncorr : Bool) : EncodedForm.Statement (.frameLoad core unit uncorr) := encodedForm_none rfl rfl rfl rfl
theorem EncodedForm.coreOffline (core : BitVec 8) : EncodedForm.Statement (.coreOffline core) := encodedForm_none rfl rfl rfl rfl
theorem EncodedForm.pageResident (backing page : Nat) : EncodedForm.Statement (.pageResident backing page) := encodedForm_none rfl rfl rfl rfl
theorem EncodedForm.laneSwap (link : LinkName) : EncodedForm.Statement (.laneSwap link) := encodedForm_none rfl rfl rfl rfl
theorem EncodedForm.vaultColumnTraining (vault : BitVec 6) (column : BitVec 3) (spares : BitVec 5) (failed : Bool) : EncodedForm.Statement (.vaultColumnTraining vault column spares failed) := encodedForm_none rfl rfl rfl rfl
theorem EncodedForm.patrolScrub (addr : BitVec 48) (result : ScrubResult) : EncodedForm.Statement (.patrolScrub addr result) := encodedForm_none rfl rfl rfl rfl
theorem EncodedForm.wqTailWrite (by_ : Issuer) (q : BitVec 12) (value : Word) : EncodedForm.Statement (.wqTailWrite by_ q value) := encodedForm_none rfl rfl rfl rfl
theorem EncodedForm.wqCfgWrite (fn : BitVec 6) (q : BitVec 12) (value : Word) : EncodedForm.Statement (.wqCfgWrite fn q value) := encodedForm_none rfl rfl rfl rfl
theorem EncodedForm.abort (fn : BitVec 6) (q : BitVec 12) : EncodedForm.Statement (.abort fn q) := encodedForm_none rfl rfl rfl rfl
theorem EncodedForm.dispatchStep : EncodedForm.Statement (.dispatchStep) := encodedForm_none rfl rfl rfl rfl
theorem EncodedForm.conditionEvaluation (q : BitVec 12) : EncodedForm.Statement (.conditionEvaluation q) := encodedForm_none rfl rfl rfl rfl
theorem EncodedForm.launchCompletion (launch : Nat) : EncodedForm.Statement (.launchCompletion launch) := encodedForm_none rfl rfl rfl rfl
theorem EncodedForm.hostAccess (acc : HostAcc) : EncodedForm.Statement (.hostAccess acc) := encodedForm_none rfl rfl rfl rfl
theorem EncodedForm.alloc (fn : BitVec 6) : EncodedForm.Statement (.alloc fn) := encodedForm_none rfl rfl rfl rfl
theorem EncodedForm.free (fn : BitVec 6) : EncodedForm.Statement (.free fn) := encodedForm_none rfl rfl rfl rfl
theorem EncodedForm.back (fn : BitVec 6) : EncodedForm.Statement (.back fn) := encodedForm_none rfl rfl rfl rfl
theorem EncodedForm.evict (fn : BitVec 6) : EncodedForm.Statement (.evict fn) := encodedForm_none rfl rfl rfl rfl
theorem EncodedForm.fetch (fn : BitVec 6) (bytes : List Byte) : EncodedForm.Statement (.fetch fn bytes) := encodedForm_none rfl rfl rfl rfl
theorem EncodedForm.query (fn : BitVec 6) : EncodedForm.Statement (.query fn) := encodedForm_none rfl rfl rfl rfl
theorem EncodedForm.grant (fn : BitVec 6) : EncodedForm.Statement (.grant fn) := encodedForm_none rfl rfl rfl rfl
theorem EncodedForm.queue (fn : BitVec 6) : EncodedForm.Statement (.queue fn) := encodedForm_none rfl rfl rfl rfl
theorem EncodedForm.attest (fn : BitVec 6) (signature : List Byte) : EncodedForm.Statement (.attest fn signature) := encodedForm_none rfl rfl rfl rfl
theorem EncodedForm.kvclear (fn : BitVec 6) : EncodedForm.Statement (.kvclear fn) := encodedForm_none rfl rfl rfl rfl
theorem EncodedForm.evHeadWrite (value : BitVec 32) : EncodedForm.Statement (.evHeadWrite value) := encodedForm_none rfl rfl rfl rfl
theorem EncodedForm.millerAccess (addr : Word) (size : MemSize) (store : Option Word) : EncodedForm.Statement (.millerAccess addr size store) := encodedForm_none rfl rfl rfl rfl
theorem EncodedForm.btGo : EncodedForm.Statement (.btGo) := encodedForm_none rfl rfl rfl rfl
theorem EncodedForm.bootSequenceEnd (result : BootResult) : EncodedForm.Statement (.bootSequenceEnd result) := encodedForm_none rfl rfl rfl rfl
theorem EncodedForm.cold : EncodedForm.Statement (.cold) := encodedForm_none rfl rfl rfl rfl
theorem EncodedForm.warm : EncodedForm.Statement (.warm) := encodedForm_none rfl rfl rfl rfl
theorem EncodedForm.coldResetInput : EncodedForm.Statement (.coldResetInput) := encodedForm_none rfl rfl rfl rfl
theorem EncodedForm.functionLevelReset (fn : BitVec 6) : EncodedForm.Statement (.functionLevelReset fn) := encodedForm_none rfl rfl rfl rfl
theorem EncodedForm.powerClamp (watts : BitVec 12) : EncodedForm.Statement (.powerClamp watts) := encodedForm_none rfl rfl rfl rfl
theorem EncodedForm.thermalClamp (layer : Layer) (sixteenths : BitVec 16) : EncodedForm.Statement (.thermalClamp layer sixteenths) := encodedForm_none rfl rfl rfl rfl
theorem EncodedForm.emergencyClamp (layer : Layer) (sixteenths : BitVec 16) : EncodedForm.Statement (.emergencyClamp layer sixteenths) := encodedForm_none rfl rfl rfl rfl
theorem EncodedForm.clampRelease (layer : Layer) : EncodedForm.Statement (.clampRelease layer) := encodedForm_none rfl rfl rfl rfl
theorem EncodedForm.clockChange (layer : Layer) : EncodedForm.Statement (.clockChange layer) := encodedForm_none rfl rfl rfl rfl
theorem EncodedForm.temperatureSample (core : BitVec 8) (sixteenths : BitVec 16) : EncodedForm.Statement (.temperatureSample core sixteenths) := encodedForm_none rfl rfl rfl rfl
theorem EncodedForm.send (ep : BitVec 10) : EncodedForm.Statement (.send ep) := encodedForm_none rfl rfl rfl rfl
theorem EncodedForm.write (ep : BitVec 10) : EncodedForm.Statement (.write ep) := encodedForm_none rfl rfl rfl rfl
theorem EncodedForm.recv (ep : BitVec 10) : EncodedForm.Statement (.recv ep) := encodedForm_none rfl rfl rfl rfl
theorem EncodedForm.expose (ep : BitVec 10) : EncodedForm.Statement (.expose ep) := encodedForm_none rfl rfl rfl rfl
theorem EncodedForm.withdraw (ep : BitVec 10) : EncodedForm.Statement (.withdraw ep) := encodedForm_none rfl rfl rfl rfl
theorem EncodedForm.packetArrival (p : Packet) : EncodedForm.Statement (.packetArrival p) := encodedForm_none rfl rfl rfl rfl
theorem EncodedForm.packetAcknowledgement (req : Nat) (index : Nat) (ack : PacketAck) : EncodedForm.Statement (.packetAcknowledgement req index ack) := encodedForm_none rfl rfl rfl rfl
theorem EncodedForm.packetTimeout (req : Nat) (index : Nat) : EncodedForm.Statement (.packetTimeout req index) := encodedForm_none rfl rfl rfl rfl
theorem EncodedForm.notReadyRetry (req : Nat) : EncodedForm.Statement (.notReadyRetry req) := encodedForm_none rfl rfl rfl rfl
theorem EncodedForm.linkStateChange (port : BitVec 4) (up : Bool) : EncodedForm.Statement (.linkStateChange port up) := encodedForm_none rfl rfl rfl rfl
theorem EncodedForm.linkStateNotice (part : BitVec 10) (dim : BitVec 4) (up : Bool) (news : PartNews) : EncodedForm.Statement (.linkStateNotice part dim up news) := encodedForm_none rfl rfl rfl rfl
theorem EncodedForm.rst (port : BitVec 4) (miller : Bool) : EncodedForm.Statement (.rst port miller) := encodedForm_none rfl rfl rfl rfl
theorem EncodedForm.relabWrite (value : Word) (miller : Bool) : EncodedForm.Statement (.relabWrite value miller) := encodedForm_none rfl rfl rfl rfl
theorem EncodedForm.flitDrop (port : BitVec 4) : EncodedForm.Statement (.flitDrop port) := encodedForm_none rfl rfl rfl rfl
theorem EncodedForm.fragmentArrival (frag : Fragment) : EncodedForm.Statement (.fragmentArrival frag) := encodedForm_none rfl rfl rfl rfl
theorem EncodedForm.stripeAcknowledgement (dst : BitVec 10) (seq : BitVec 32) (ack : StripeAck) : EncodedForm.Statement (.stripeAcknowledgement dst seq ack) := encodedForm_none rfl rfl rfl rfl
theorem EncodedForm.receiverTimeout (src : BitVec 10) (seq : BitVec 32) : EncodedForm.Statement (.receiverTimeout src seq) := encodedForm_none rfl rfl rfl rfl
theorem EncodedForm.decodeBufferFree (src : BitVec 10) (seq : BitVec 32) : EncodedForm.Statement (.decodeBufferFree src seq) := encodedForm_none rfl rfl rfl rfl
theorem EncodedForm.senderRetransmission (dst : BitVec 10) (seq : BitVec 32) : EncodedForm.Statement (.senderRetransmission dst seq) := encodedForm_none rfl rfl rfl rfl
theorem EncodedForm.retransmissionRequest (dst : BitVec 10) (seq : BitVec 32) : EncodedForm.Statement (.retransmissionRequest dst seq) := encodedForm_none rfl rfl rfl rfl
theorem EncodedForm.stripeLoss (dst : BitVec 10) (seq : BitVec 32) : EncodedForm.Statement (.stripeLoss dst seq) := encodedForm_none rfl rfl rfl rfl
theorem EncodedForm.lossNotice (src : BitVec 10) (seq : BitVec 32) (kind : LostKind) (number : Nat) : EncodedForm.Statement (.lossNotice src seq kind number) := encodedForm_none rfl rfl rfl rfl
theorem EncodedForm.holdExpiry (label : BitVec 10) : EncodedForm.Statement (.holdExpiry label) := encodedForm_none rfl rfl rfl rfl
theorem EncodedForm.messageRefusalRetry (msg : Nat) : EncodedForm.Statement (.messageRefusalRetry msg) := encodedForm_none rfl rfl rfl rfl
theorem EncodedForm.managementMessageSend (value : Word) : EncodedForm.Statement (.managementMessageSend value) := encodedForm_none rfl rfl rfl rfl
theorem EncodedForm.managementMessageArrival (src : BitVec 10) (bytes : List Byte) : EncodedForm.Statement (.managementMessageArrival src bytes) := encodedForm_none rfl rfl rfl rfl
theorem EncodedForm.parityUpdate (src : BitVec 10) (seq : BitVec 32) (upd : ParityUpd) : EncodedForm.Statement (.parityUpdate src seq upd) := encodedForm_none rfl rfl rfl rfl
theorem EncodedForm.parityAcknowledgement (dst : BitVec 10) (seq : BitVec 32) (refused : Bool) : EncodedForm.Statement (.parityAcknowledgement dst seq refused) := encodedForm_none rfl rfl rfl rfl
theorem EncodedForm.parityResend (dst : BitVec 10) (seq : BitVec 32) : EncodedForm.Statement (.parityResend dst seq) := encodedForm_none rfl rfl rfl rfl
theorem EncodedForm.memberLoss (member : BitVec 3) : EncodedForm.Statement (.memberLoss member) := encodedForm_none rfl rfl rfl rfl
theorem EncodedForm.rebuild : EncodedForm.Statement (.rebuild) := encodedForm_none rfl rfl rfl rfl
theorem EncodedForm.stripeFreeze (range : Bool) (stripe : Nat) (substitute : BitVec 10) (release : Bool) : EncodedForm.Statement (.stripeFreeze range stripe substitute release) := encodedForm_none rfl rfl rfl rfl
theorem EncodedForm.stripeRebuild (range : Bool) (stripe : Nat) (blocks : List (Nat × List Byte)) : EncodedForm.Statement (.stripeRebuild range stripe blocks) := encodedForm_none rfl rfl rfl rfl
theorem EncodedForm.svCfgWrite (value : Word) : EncodedForm.Statement (.svCfgWrite value) := encodedForm_none rfl rfl rfl rfl
theorem EncodedForm.registerWrite (by_ : Issuer) (off : BitVec 26) (value : Word) : EncodedForm.Statement (.registerWrite by_ off value) := encodedForm_none rfl rfl rfl rfl
theorem EncodedForm.pfSubstWrite (k : BitVec 4) (value : Word) (miller : Bool) : EncodedForm.Statement (.pfSubstWrite k value miller) := encodedForm_none rfl rfl rfl rfl
theorem EncodedForm.messageEngineSend : EncodedForm.Statement (.messageEngineSend) := encodedForm_none rfl rfl rfl rfl
theorem EncodedForm.ethernetLinkStateChange (port : Bool) (up : Bool) : EncodedForm.Statement (.ethernetLinkStateChange port up) := encodedForm_none rfl rfl rfl rfl
theorem EncodedForm.lossNoticeRepeat (dst : BitVec 10) (seq : BitVec 32) (kind : LostKind) (number : Nat) : EncodedForm.Statement (.lossNoticeRepeat dst seq kind number) := encodedForm_none rfl rfl rfl rfl

end Sys2Proof.Laws
end

