-- ==== Sys2Proof/Laws/Registers.lean ====
section
/-! SUPPORT. What a write of a vector register does: the bytes of its active cells are those of the image, every other byte of the core
store is as before, and of the rest only poison, freshness and the monitors may change. -/

namespace Sys2Proof.Machine

open Sys2Proof

/-! ## Writes to the selected core's store -/

/-- `s'` differs from `s` in the selected core's store, what belongs to it, and the monitors alone. -/
def StoreOnly (s s' : State) : Prop :=
  s' = { s with
    core := { s.core with cs := s'.core.cs, csPoison := s'.core.csPoison, fresh := s'.core.fresh }
    monitors := s'.monitors }

theorem StoreOnly.refl (s : State) : StoreOnly s s := rfl

theorem StoreOnly.trans {s t u : State} (h : StoreOnly s t) (g : StoreOnly t u) : StoreOnly s u := by
  unfold StoreOnly at *
  rw [h] at g
  exact g

theorem StoreOnly.cur {s t : State} (h : StoreOnly s t) : t.cur = s.cur := by rw [h]

theorem coreAt_cur (s : State) : coreAt s s.cur = some s.core := by unfold coreAt; rw [if_pos rfl]

theorem onCore_cur (f : State → State) (s : State) (h : (f s).cur = s.cur) : onCore s.cur f s = f s := by
  unfold onCore
  rw [coreAt_cur]
  simp only [Option.isSome_some, if_true]
  have e : focus s.cur s = s := by unfold focus; rw [if_pos rfl]
  rw [e]
  unfold focus
  rw [if_pos h.symm]

/-- A write to the selected core's store. -/
theorem putCore_cur (off : Nat) (bs : List Byte) (s : State) :
    putCore s.cur off bs s =
      { s with
        core := s.core.put off bs
        monitors := touchMonitors (coreBase + s.cur * 0x200000 + off) bs.length s.monitors } := by
  unfold putCore
  rw [onCore_cur _ _ rfl]
  rfl

theorem putCore_only (off : Nat) (bs : List Byte) (s : State) : StoreOnly s (putCore s.cur off bs s) := by rw [putCore_cur]; rfl

theorem putCore_cs (off : Nat) (bs : List Byte) (s : State) : (putCore s.cur off bs s).core.cs = memPut s.core.cs off bs := by
  rw [putCore_cur]; rfl

/-! ## Scattered bytes -/

/-- Writing of single bytes one after the other. -/
def memPuts (m : Mem) (ps : List (Nat × Byte)) : Mem := ps.foldl (fun m p => memPut m p.1 [p.2]) m

theorem wf_memPuts (m : Mem) (ps : List (Nat × Byte)) (h : Memory.wf m = true) : Memory.wf (memPuts m ps) = true := by
  induction ps generalizing m with
  | nil => exact h
  | cons p rest ih => exact ih _ (wf_memPut m p.1 [p.2] h)

theorem memGet_memSet (m : Mem) (a : Nat) (b : Byte) (x : Nat) (h : Memory.wf m = true) :
    memGet (memPut m a [b]) x = if x = a then b else memGet m x := by
  rw [memGet_memPut _ _ _ _ h]
  by_cases hx : x = a
  · subst hx; simp
  · rw [if_neg hx, if_neg]; simp only [List.length_cons, List.length_nil]; omega

/-- What a memory reads after bytes are written at distinct addresses. -/
theorem memGet_memPuts (m : Mem) (ps : List (Nat × Byte)) (x : Nat) (h : Memory.wf m = true) (hd : ps.Pairwise fun p q => p.1 ≠ q.1) :
    memGet (memPuts m ps) x = ((ps.find? fun p => p.1 == x).map (·.2)).getD (memGet m x) := by
  induction ps generalizing m with
  | nil => rfl
  | cons p rest ih =>
    have hp := List.pairwise_cons.mp hd
    show memGet (memPuts (memPut m p.1 [p.2]) rest) x = _
    rw [ih _ (wf_memPut m p.1 [p.2] h) hp.2]
    by_cases hx : p.1 = x
    · have : rest.find? (fun q => q.1 == x) = none := by
        rw [List.find?_eq_none]
        intro q hq
        have := hp.1 q hq
        simp only [beq_iff_eq]; omega
      rw [this, List.find?_cons_of_pos (by simpa using hx), memGet_memSet _ _ _ _ h, if_pos hx.symm]
      rfl
    · rw [List.find?_cons_of_neg (by simpa using hx), memGet_memSet _ _ _ _ h, if_neg (Ne.symm hx)]

/-- The bytes of a run with their addresses. -/
def Run.pairs (r : Run) : List (Nat × Byte) := (List.range r.bytes.length).zip r.bytes |>.map fun p => (r.addr + p.1, p.2)

theorem run_pairs_cons (c : Option Nat) (a : Nat) (b : Byte) (bs : List Byte) :
    Run.pairs ⟨c, a, b :: bs⟩ = (a, b) :: Run.pairs ⟨c, a + 1, bs⟩ := by
  unfold Run.pairs
  simp only [List.length_cons]
  rw [List.range_succ_eq_map, List.zip_cons_cons, List.map_cons, List.zip_map_left, List.map_map]
  refine congrArg₂ List.cons rfl (List.map_congr_left fun p _ => ?_)
  show (a + (p.1 + 1), p.2) = (a + 1 + p.1, p.2)
  rw [show a + (p.1 + 1) = a + 1 + p.1 by omega]

theorem consRun_pairs (c : Option Nat) (a : Nat) (b : Byte) (rs : List Run) :
    (consRun c a b rs).flatMap Run.pairs = (a, b) :: rs.flatMap Run.pairs := by
  unfold consRun
  split
  · simp [Run.pairs]
  · rename_i r rest
    split
    · rename_i h
      obtain ⟨h1, h2⟩ := Bool.and_eq_true_iff.mp h
      rw [List.flatMap_cons, run_pairs_cons, List.flatMap_cons, ← eq_of_beq h2]
      rfl
    · rw [List.flatMap_cons, run_pairs_cons]
      simp [Run.pairs]

theorem consRun_core (c : Option Nat) (a : Nat) (b : Byte) (rs : List Run) (h : ∀ r ∈ rs, r.core = c) : ∀ r ∈ consRun c a b rs, r.core = c := by
  unfold consRun
  split
  · simp
  · rename_i r rest
    split
    · intro x hx
      rcases List.mem_cons.mp hx with rfl | hx
      · rfl
      · exact h x (List.mem_cons_of_mem _ hx)
    · intro x hx
      rcases List.mem_cons.mp hx with rfl | hx
      · rfl
      · exact h x hx

theorem runsOf_core (c : Nat) (ps : List (Nat × Byte)) :
    (runsOf (ps.map fun p => Site.core c p.1) (ps.map (·.2))).flatMap Run.pairs = ps ∧
      ∀ r ∈ runsOf (ps.map fun p => Site.core c p.1) (ps.map (·.2)), r.core = some c := by
  induction ps with
  | nil => exact ⟨rfl, by intro r hr; simp [runsOf] at hr⟩
  | cons p rest ih =>
    show (consRun (some c) p.1 p.2 _).flatMap Run.pairs = _ ∧ ∀ r ∈ consRun (some c) p.1 p.2 _, _
    exact ⟨by rw [consRun_pairs, ih.1], consRun_core _ _ _ _ ih.2⟩

/-- A write of a run is the writing of its bytes. -/
theorem memGet_run (m : Mem) (a : Nat) (bs : List Byte) (x : Nat) (h : Memory.wf m = true) :
    memGet (memPut m a bs) x = memGet (memPuts m (Run.pairs ⟨none, a, bs⟩)) x := by
  induction bs generalizing m a with
  | nil =>
    rw [memGet_memPut _ _ _ _ h]
    simp only [List.length_nil, Nat.add_zero, Run.pairs, List.range_zero, List.zip_nil_left, List.map_nil]
    rw [if_neg (by omega)]; rfl
  | cons b rest ih =>
    rw [run_pairs_cons]
    show _ = memGet (memPuts (memPut m a [b]) _) x
    rw [← ih _ _ (wf_memPut m a [b] h), memGet_memPut _ _ _ _ h, memGet_memPut _ _ _ _ (wf_memPut m a [b] h), memGet_memSet _ _ _ _ h]
    simp only [List.length_cons]
    by_cases hx : x = a
    · subst hx; rw [if_pos (by omega), if_neg (by omega), if_pos rfl]; simp
    · by_cases hin : a ≤ x ∧ x < a + (rest.length + 1)
      · rw [if_pos hin, if_pos (by omega), show x - a = (x - (a + 1)) + 1 by omega]; rfl
      · rw [if_neg hin, if_neg (by omega), if_neg hx]

theorem memGet_memPuts_congr (m n : Mem) (ps : List (Nat × Byte)) (hm : Memory.wf m = true) (hn : Memory.wf n = true)
    (h : ∀ x, memGet m x = memGet n x) (x : Nat) : memGet (memPuts m ps) x = memGet (memPuts n ps) x := by
  induction ps generalizing m n with
  | nil => exact h x
  | cons p rest ih =>
    refine ih _ _ (wf_memPut _ _ _ hm) (wf_memPut _ _ _ hn) fun y => ?_
    rw [memGet_memSet _ _ _ _ hm, memGet_memSet _ _ _ _ hn, h y]

/-- The runs of a write to the selected core's store, one after the other. -/
theorem putRuns_core (rs : List Run) (by_ : Option Writer) (va : Word) (s : State) (kept : Bool) (hc : ∀ r ∈ rs, r.core = some s.cur)
    (hw : Memory.wf s.core.cs = true) :
    let t := (rs.foldl (fun r run => let p := putRun by_ va r.1 run; (p.1, r.2 && p.2)) (s, kept)).1
    StoreOnly s t ∧ Memory.wf t.core.cs = true ∧ ∀ x, memGet t.core.cs x = memGet (memPuts s.core.cs (rs.flatMap Run.pairs)) x := by
  induction rs generalizing s kept with
  | nil => exact ⟨rfl, hw, fun _ => rfl⟩
  | cons r rest ih =>
    intro t
    have hr : putRun by_ va s r = (putCore s.cur r.addr r.bytes s, true) := by
      unfold putRun; rw [hc r (by simp)]
    have hcur : (putCore s.cur r.addr r.bytes s).cur = s.cur := by rw [putCore_cur]
    have hcs := putCore_cs r.addr r.bytes s
    have hw' : Memory.wf (putCore s.cur r.addr r.bytes s).core.cs = true := by rw [hcs]; exact wf_memPut _ _ _ hw
    obtain ⟨h1, h2, h3⟩ := ih (putCore s.cur r.addr r.bytes s) (kept && true)
      (fun y hy => by rw [hcur]; exact hc y (List.mem_cons_of_mem _ hy)) hw'
    have ht : t = (rest.foldl (fun r run => let p := putRun by_ va r.1 run; (p.1, r.2 && p.2))
        (putCore s.cur r.addr r.bytes s, kept && true)).1 := by
      show ((r :: rest).foldl _ (s, kept)).1 = _
      rw [List.foldl_cons]; simp only [hr]
    rw [ht]
    refine ⟨(putCore_only r.addr r.bytes s).trans h1, h2, fun x => ?_⟩
    rw [h3 x, List.flatMap_cons]
    have e : memPuts s.core.cs (r.pairs ++ rest.flatMap Run.pairs) = memPuts (memPuts s.core.cs r.pairs) (rest.flatMap Run.pairs) :=
      List.foldl_append
    rw [e]
    refine memGet_memPuts_congr _ _ _ hw' (wf_memPuts _ _ hw) (fun y => ?_) x
    rw [hcs]
    exact memGet_run _ _ _ _ hw

/-- Bytes of a register written by cell. -/
theorem putPairs_spec (r : Nat) (ps : List (Nat × Byte)) (s : State) (hw : Memory.wf s.core.cs = true)
    (hd : ps.Pairwise fun p q => p.1 ≠ q.1) :
    StoreOnly s (putPairs r ps s) ∧ Memory.wf (putPairs r ps s).core.cs = true ∧
      ∀ x, memGet (putPairs r ps s).core.cs x =
        ((ps.find? fun p => r * 0x400 + p.1 == x).map (·.2)).getD (memGet s.core.cs x) := by
  let qs := ps.map fun p => (r * 0x400 + p.1, p.2)
  have hq : qs.Pairwise fun p q => p.1 ≠ q.1 := List.pairwise_map.mpr (hd.imp fun h => by show _ + _ ≠ _ + _; omega)
  have e : putPairs r ps s = (putSites (qs.map fun p => Site.core s.cur p.1) (qs.map (·.2)) none 0 s).1 := by
    unfold putPairs; simp only [qs, List.map_map]; rfl
  have hv : (qs.map fun p => Site.core s.cur p.1).foldl validate s = s :=
    validate_foldl _ _ fun x hx => by
      obtain ⟨p, _, rfl⟩ := List.mem_map.mp hx
      exact .inr ⟨_, _, rfl⟩
  have hs : putPairs r ps s = ((runsOf (qs.map fun p => Site.core s.cur p.1) (qs.map (·.2))).foldl
      (fun r run => let p := putRun none 0 r.1 run; (p.1, r.2 && p.2)) (s, true)).1 := by
    rw [e]; unfold putSites; rw [hv]
  have hr := runsOf_core s.cur qs
  obtain ⟨h1, h2, h3⟩ := putRuns_core _ none 0 s true hr.2 hw
  rw [← hs] at h1 h2 h3
  refine ⟨h1, h2, fun x => ?_⟩
  rw [h3 x, hr.1, memGet_memPuts _ _ _ hw hq]
  congr 1
  simp only [qs, List.find?_map, Option.map_map]
  rfl

theorem find_range_filter (l : List Byte) (n j : Nat) (p : Nat → Bool) (hj : j < n) (hl : l.length = n) :
    ((((List.range n).zip l).filter fun q => p q.1).find? fun q => q.1 == j).map (·.2) = if p j then l[j]? else none := by
  have key : ∀ (l : List Byte) (k : Nat), ((((List.range' k l.length).zip l).filter fun q => p q.1).find? fun q => q.1 == j).map (·.2) =
      if p j ∧ k ≤ j then l[j - k]? else none := by
    intro l
    induction l with
    | nil => intro k; simp
    | cons b rest ih =>
      intro k
      rw [List.length_cons, List.range'_succ, List.zip_cons_cons]
      by_cases hk : k = j
      · subst hk
        by_cases hp : p k
        · rw [List.filter_cons_of_pos (by simpa using hp), List.find?_cons_of_pos (by simp)]; simp [hp]
        · rw [List.filter_cons_of_neg (by simpa using hp), ih]; simp [hp]
      · have : ((List.filter (fun q => p q.1) ((k, b) :: (List.range' (k + 1) rest.length).zip rest)).find? fun q => q.1 == j) =
            ((List.filter (fun q => p q.1) ((List.range' (k + 1) rest.length).zip rest)).find? fun q => q.1 == j) := by
          by_cases hp : p k
          · rw [List.filter_cons_of_pos (by simpa using hp), List.find?_cons_of_neg (by simpa using hk)]
          · rw [List.filter_cons_of_neg (by simpa using hp)]
        rw [this, ih]
        by_cases hp : p j ∧ k + 1 ≤ j
        · rw [if_pos hp, if_pos ⟨hp.1, by omega⟩, show j - k = (j - (k + 1)) + 1 by omega]; rfl
        · rw [if_neg hp, if_neg fun h => hp ⟨h.1, by have := h.2; omega⟩]
  have h := key l 0
  rw [hl, ← List.range_eq_range'] at h
  rw [h]; simp

/-! ## Registers -/

/-- A register image written where the mask has active elements. -/
theorem putReg_spec (t : VTy) (m : Mask) (r img : Nat) (s : State) (hw : Memory.wf s.core.cs = true) :
    StoreOnly s (putReg t m r img s) ∧ Memory.wf (putReg t m r img s).core.cs = true ∧
      ∀ x, memGet (putReg t m r img s).core.cs x =
        if r * 0x400 ≤ x ∧ x < r * 0x400 + 0x400 ∧ activeCell m t (x - r * 0x400) = true then BitVec.ofNat 8 (img / 256 ^ (x - r * 0x400))
        else memGet s.core.cs x := by
  have hl := leBytes_length 1024 img
  unfold putReg
  split
  · rename_i hm
    refine ⟨putCore_only _ _ _, by rw [putCore_cs]; exact wf_memPut _ _ _ hw, fun x => ?_⟩
    rw [putCore_cs, memGet_memPut _ _ _ _ hw, hl]
    by_cases hx : r * 0x400 ≤ x ∧ x < r * 0x400 + 1024
    · have ha : activeCell m t (x - r * 0x400) = true := by
        unfold activeCell
        have h1 : (x - r * 0x400) * 8 / t.bits * t.bits ≤ (x - r * 0x400) * 8 := Nat.div_mul_le_self _ _
        rw [hm, BitVec.getLsbD_allOnes, decide_eq_true_eq]
        omega
      rw [if_pos hx, if_pos ⟨hx.1, hx.2, ha⟩, leBytes_getElem _ _ _ (by omega)]; rfl
    · rw [if_neg hx, if_neg fun h => hx ⟨h.1, h.2.1⟩]
  · have hd : (((List.range 1024).zip (leBytes 1024 img)).filter fun p => activeCell m t p.1).Pairwise fun p q => p.1 ≠ q.1 := by
      refine List.Pairwise.filter _ ?_
      have : ((List.range 1024).zip (leBytes 1024 img)).map Prod.fst = List.range 1024 := List.map_fst_zip (by rw [hl]; simp)
      have hn : (((List.range 1024).zip (leBytes 1024 img)).map Prod.fst).Pairwise (· ≠ ·) := by
        rw [this]; exact (List.pairwise_lt_range).imp fun h => Nat.ne_of_lt h
      exact List.pairwise_map.mp hn
    obtain ⟨h1, h2, h3⟩ := putPairs_spec r _ s hw hd
    refine ⟨h1, h2, fun x => ?_⟩
    rw [h3 x]
    by_cases hx : r * 0x400 ≤ x ∧ x < r * 0x400 + 0x400
    · have e : (fun p : Nat × Byte => r * 0x400 + p.1 == x) = fun p => p.1 == x - r * 0x400 := by
        funext p
        by_cases hp : p.1 = x - r * 0x400
        · rw [beq_iff_eq.mpr hp, beq_iff_eq]; omega
        · have h2 : ¬(r * 0x400 + p.1 = x) := by omega
          rw [beq_eq_false_iff_ne.mpr hp, beq_eq_false_iff_ne.mpr h2]
      rw [e, find_range_filter _ 1024 _ _ (by omega) hl]
      by_cases ha : activeCell m t (x - r * 0x400) = true
      · rw [if_pos ha, if_pos ⟨hx.1, hx.2, ha⟩, leBytes_getElem _ _ _ (by omega)]; rfl
      · rw [if_neg ha, if_neg fun h => ha h.2.2]; rfl
    · rw [if_neg fun h => hx ⟨h.1, h.2.1⟩]
      have hn : (((List.range 1024).zip (leBytes 1024 img)).filter fun p => activeCell m t p.1).find? (fun p => r * 0x400 + p.1 == x) = none := by
        rw [List.find?_eq_none]
        intro p hp
        have h4 := List.of_mem_zip (List.mem_of_mem_filter hp)
        have := List.mem_range.mp h4.1
        simp only [beq_iff_eq]; omega
      rw [hn]; rfl

/-- Consecutive registers written. -/
theorem putRegs_spec (t : VTy) (m : Mask) (r : Nat) (imgs : List Nat) (s : State) (hw : Memory.wf s.core.cs = true) :
    StoreOnly s (putRegs t m r imgs s) ∧ Memory.wf (putRegs t m r imgs s).core.cs = true ∧
      ∀ n j, j < 0x400 → memGet (putRegs t m r imgs s).core.cs (n * 0x400 + j) =
        if r ≤ n ∧ n < r + imgs.length ∧ activeCell m t j = true then BitVec.ofNat 8 (imgs[n - r]?.getD 0 / 256 ^ j)
        else memGet s.core.cs (n * 0x400 + j) := by
  induction imgs generalizing r s with
  | nil => exact ⟨rfl, hw, fun n j _ => by rw [if_neg (by simp only [List.length_nil]; omega)]; rfl⟩
  | cons img rest ih =>
    obtain ⟨g1, g2, g3⟩ := putReg_spec t m r img s hw
    obtain ⟨h1, h2, h3⟩ := ih (r + 1) (putReg t m r img s) g2
    refine ⟨g1.trans h1, h2, fun n j hj => ?_⟩
    show memGet (putRegs t m (r + 1) rest (putReg t m r img s)).core.cs _ = _
    rw [h3 n j hj, g3]
    simp only [List.length_cons]
    by_cases hn : n = r
    · subst hn
      rw [if_neg (by omega)]
      rw [show n * 0x400 + j - n * 0x400 = j by omega]
      by_cases ha : activeCell m t j = true
      · rw [if_pos ⟨by omega, by omega, ha⟩, if_pos ⟨Nat.le_refl _, by omega, ha⟩]; simp
      · rw [if_neg fun h => ha h.2.2, if_neg fun h => ha h.2.2]
    · have h0 : ¬(r * 0x400 ≤ n * 0x400 + j ∧ n * 0x400 + j < r * 0x400 + 0x400 ∧ activeCell m t (n * 0x400 + j - r * 0x400) = true) := by
        omega
      rw [if_neg h0]
      by_cases hin : r ≤ n ∧ n < r + (rest.length + 1) ∧ activeCell m t j = true
      · rw [if_pos hin, if_pos ⟨by omega, by omega, hin.2.2⟩, show n - r = (n - (r + 1)) + 1 by omega]; rfl
      · rw [if_neg hin, if_neg fun h => hin ⟨by omega, by omega, h.2.2⟩]

/-! ## Elements -/

/-- Bits of the value of bytes. -/
theorem leNat_testBit (bs : List Byte) (p : Nat) : (leNat bs).testBit p = (bs[p / 8]?.getD 0).getLsbD (p % 8) := by
  induction bs generalizing p with
  | nil => simp [leNat]
  | cons b rest ih =>
    show (b.toNat + 256 * leNat rest).testBit p = _
    rw [show b.toNat + 256 * leNat rest = 2 ^ 8 * leNat rest + b.toNat by omega, Nat.testBit_two_pow_mul_add _ b.isLt]
    by_cases hp : p < 8
    · rw [if_pos hp, Nat.div_eq_of_lt hp, Nat.mod_eq_of_lt hp]; rfl
    · rw [if_neg hp, ih, show p / 8 = (p - 8) / 8 + 1 by omega, show p % 8 = (p - 8) % 8 by omega]; rfl

theorem getV_toNat (k : Core) (r : Nat) : (k.getV r).toNat = leNat (memBytes 0x400 (r * 0x400) k.cs) := by
  unfold Core.getV memNat
  rw [BitVec.toNat_ofNat]
  refine Nat.mod_eq_of_lt ?_
  have := leNat_lt (memBytes 0x400 (r * 0x400) k.cs)
  rwa [memBytes_length, show (256 : Nat) ^ 0x400 = 2 ^ 8192 from by rw [show (256 : Nat) = 2 ^ 8 from rfl, ← Nat.pow_mul]] at this

/-- A bit of a register is a bit of one of its bytes. -/
theorem getV_testBit (k : Core) (r p : Nat) (hw : Memory.wf k.cs = true) (hp : p < 8192) :
    (k.getV r).toNat.testBit p = (memGet k.cs (r * 0x400 + p / 8)).getLsbD (p % 8) := by
  rw [getV_toNat, leNat_testBit, memBytes_eq _ _ _ hw]
  rw [List.getElem?_map, List.getElem?_range (by omega)]
  rfl

/-- A bit of a byte of a value. -/
theorem byte_testBit (x p : Nat) : (BitVec.ofNat 8 (x / 256 ^ (p / 8))).getLsbD (p % 8) = x.testBit p := by
  have h8 : p % 8 < 8 := Nat.mod_lt _ (by omega)
  rw [BitVec.getLsbD_ofNat, decide_eq_true h8, Bool.true_and, show (256 : Nat) = 2 ^ 8 from rfl, ← Nat.pow_mul, Nat.testBit_div_two_pow,
    show p % 8 + 8 * (p / 8) = p by omega]

end Sys2Proof.Machine
end

