-- ==== Sys2Proof/Laws/Vectors.lean ====
section
/-! SUPPORT. What an element instruction of the V-stream does, once for all of them. -/

namespace Sys2Proof.Machine

open Sys2Proof

/-! ## Elements and images -/

theorem splitBits_length (w n x : Nat) : (splitBits w n x).length = n := by
  induction n generalizing x with
  | zero => rfl
  | succ n ih => simp [splitBits, ih]

theorem els_length (t : VTy) (imgs : List Nat) : (els t imgs).length = imgs.length * t.lanes := by
  unfold els
  induction imgs with
  | nil => simp
  | cons x rest ih => rw [List.flatMap_cons, List.length_append, ih, splitBits_length, List.length_cons, Nat.succ_mul, Nat.add_comm]

theorem splitBits_getElem (w n x i : Nat) (h : i < n) : (splitBits w n x)[i]? = some (x / 2 ^ (i * w) % 2 ^ w) := by
  induction n generalizing x i with
  | zero => omega
  | succ n ih =>
    cases i with
    | zero => simp [splitBits]
    | succ i =>
      show (splitBits w n (x >>> w))[i]? = _
      rw [ih _ _ (by omega), Nat.shiftRight_eq_div_pow, Nat.div_div_eq_div_mul, ← Nat.pow_add, show w + i * w = (i + 1) * w by rw [Nat.succ_mul]; omega]

theorem joinBits_testBit (w : Nat) (xs : List Nat) (i u : Nat) (hu : u < w) :
    (joinBits w xs).testBit (i * w + u) = ((xs[i]?.getD 0)).testBit u := by
  induction xs generalizing i with
  | nil => simp [joinBits]
  | cons x rest ih =>
    show (x % 2 ^ w + 2 ^ w * joinBits w rest).testBit _ = _
    rw [Nat.add_comm, Nat.testBit_two_pow_mul_add _ (Nat.mod_lt _ (Nat.two_pow_pos _))]
    cases i with
    | zero =>
      rw [if_pos (by omega), Nat.zero_mul, Nat.zero_add, Nat.testBit_mod_two_pow, decide_eq_true hu, Bool.true_and]; rfl
    | succ i =>
      rw [if_neg (by rw [Nat.succ_mul]; omega), show (i + 1) * w + u - w = i * w + u by rw [Nat.succ_mul]; omega, ih]; rfl

theorem chunks_getElem {α : Type} (n fuel : Nat) (xs : List α) (k : Nat) (hk : k < fuel) :
    (chunks n fuel xs)[k]? = some ((xs.drop (k * n)).take n) := by
  induction fuel generalizing xs k with
  | zero => omega
  | succ fuel ih =>
    cases k with
    | zero => simp [chunks]
    | succ k =>
      show (chunks n fuel (xs.drop n))[k]? = _
      rw [ih _ _ (by omega), List.drop_drop, show n + k * n = (k + 1) * n by rw [Nat.succ_mul]; omega]

theorem chunks_length {α : Type} (n fuel : Nat) (xs : List α) : (chunks n fuel xs).length = fuel := by
  induction fuel generalizing xs with
  | zero => rfl
  | succ fuel ih => simp [chunks, ih]

theorem bits_pos (t : VTy) : 0 < t.bits := by cases t <;> decide

theorem bits_lanes (t : VTy) : t.lanes * t.bits = 8192 := by cases t <;> decide

/-- A bit of an element of register images. -/
theorem images_testBit (t : VTy) (cnt : Nat) (xs : List Nat) (n i u : Nat) (hn : n < cnt) (hi : i < t.lanes) (hu : u < t.bits) :
    ((images t cnt xs)[n]?.getD 0).testBit (i * t.bits + u) = (xs[n * t.lanes + i]?.getD 0).testBit u := by
  unfold images
  rw [List.getElem?_map, chunks_getElem _ _ _ _ hn, Option.map_some, Option.getD_some, joinBits_testBit _ _ _ _ hu,
    List.getElem?_take_of_lt hi, List.getElem?_drop]

/-! ## Sources -/

theorem popQ_length (q : BitVec 4) (n : Nat) (k k' : Core) (l : List Nat) (h : popQ q n k = some (l, k')) : l.length = n := by
  induction n generalizing k l k' with
  | zero => simp only [popQ, Option.some.injEq, Prod.mk.injEq] at h; rw [← h.1]; rfl
  | succ n ih =>
    unfold popQ at h
    split at h
    · exact absurd h (by simp)
    · split at h
      · split at h
        · rename_i heq
          simp only [Option.some.injEq, Prod.mk.injEq] at h
          rw [← h.1, List.length_cons, ih _ _ _ heq]
        · exact absurd h (by simp)
      · exact absurd h (by simp)

theorem fetch_length (e : SrcEnv) (r cnt : Nat) (k k' : Core) (l : List Nat) (h : fetch e r cnt k = some (l, k')) : l.length = cnt := by
  unfold fetch at h
  split at h
  · simp only [Option.some.injEq, Prod.mk.injEq] at h; rw [← h.1]; simp
  · split at h
    · split at h
      · exact popQ_length _ _ _ _ _ h
      · split at h
        · rename_i hl
          simp only [Option.some.injEq, Prod.mk.injEq] at h; rw [← h.1]; simpa using hl
        · exact absurd h (by simp)
    · simp only [Option.some.injEq, Prod.mk.injEq] at h; rw [← h.1]; simp

theorem popQ_keeps (q : BitVec 4) (n : Nat) (k k' : Core) (l : List Nat) (h : popQ q n k = some (l, k')) : k' = { k with q := k'.q } := by
  induction n generalizing k l k' with
  | zero => simp only [popQ, Option.some.injEq, Prod.mk.injEq] at h; rw [← h.2]
  | succ n ih =>
    unfold popQ at h
    split at h
    · exact absurd h (by simp)
    · split at h
      · split at h
        · rename_i heq
          simp only [Option.some.injEq, Prod.mk.injEq] at h
          have := ih _ _ _ heq
          rw [← h.2]; exact this
        · exact absurd h (by simp)
      · exact absurd h (by simp)

theorem fetch_keeps (e : SrcEnv) (r cnt : Nat) (k k' : Core) (l : List Nat) (h : fetch e r cnt k = some (l, k')) :
    k' = { k with q := k'.q, vpop := k'.vpop } := by
  unfold fetch at h
  split at h
  · simp only [Option.some.injEq, Prod.mk.injEq] at h; rw [← h.2]
  · split at h
    · split at h
      · have := popQ_keeps _ _ _ _ _ h
        rw [this]
      · split at h
        · simp only [Option.some.injEq, Prod.mk.injEq] at h; rw [← h.2]
        · exact absurd h (by simp)
    · simp only [Option.some.injEq, Prod.mk.injEq] at h; rw [← h.2]

/-- The three sources have as many registers as the shape says, and taking them changes stream registers alone. -/
theorem fetch3_spec (e : SrcEnv) (sh : VShape) (r : Rep) (k k' : Core) (a b c : List Nat) (h : fetch3 e sh r k = some (a, b, c, k')) :
    a.length = sh.na ∧ b.length = sh.nb ∧ c.length = sh.nc ∧ k' = { k with q := k'.q, vpop := k'.vpop } := by
  unfold fetch3 at h
  split at h
  · exact absurd h (by simp)
  · rename_i ha
    split at h
    · exact absurd h (by simp)
    · rename_i hb
      split at h
      · exact absurd h (by simp)
      · rename_i hc
        simp only [Option.some.injEq, Prod.mk.injEq] at h
        obtain ⟨rfl, rfl, rfl, rfl⟩ := h
        refine ⟨fetch_length _ _ _ _ _ _ ha, fetch_length _ _ _ _ _ _ hb, fetch_length _ _ _ _ _ _ hc, ?_⟩
        have h1 := fetch_keeps _ _ _ _ _ _ ha
        have h2 := fetch_keeps _ _ _ _ _ _ hb
        have h3 := fetch_keeps _ _ _ _ _ _ hc
        rw [h1] at h2; rw [h2] at h3; exact h3

/-! ## Flags -/

theorem gather_eq (m : Mask) (d : VTy) (nd : Nat) (xs : VRes) (val : Nat → El) (hx : xs = (List.range (nd * d.lanes)).map val) :
    gather (List.replicate nd (activity m d)).flatten xs = flagsOf m d (nd * d.lanes) val := by
  have hl : 0 < d.lanes := by cases d <;> decide
  have hact : (List.replicate nd (activity m d)).flatten = (List.range (nd * d.lanes)).map fun j => isActive m d (j % d.lanes) := by
    clear hx
    induction nd with
    | zero => simp
    | succ n ih =>
      rw [List.replicate_succ', List.flatten_append, ih, Nat.succ_mul, List.range_add, List.map_append]
      congr 1
      rw [List.flatten_singleton, List.map_map]
      refine List.map_congr_left fun i hi => ?_
      have := List.mem_range.mp hi
      show m.getLsbD (cellOf d i) = isActive m d ((n * d.lanes + i) % d.lanes)
      rw [Nat.mul_comm, Nat.mul_add_mod, Nat.mod_eq_of_lt this]; rfl
  unfold gather flagsOf
  rw [hact, hx, List.zip_map', List.foldl_map]

/-! ## Element instructions -/

/-- An element of registers written under a mask. -/
theorem elemAt_putRegs (d : VTy) (m : Mask) (r nd : Nat) (xs : List Nat) (s : State) (hw : Memory.wf s.core.cs = true) (n i : Nat)
    (hn : n < nd) (hi : i < d.lanes) :
    elemAt (putRegs d m r (images d nd xs) s).core d (r + n) i =
      if isActive m d i then (xs[n * d.lanes + i]?.getD 0) % 2 ^ d.bits else elemAt s.core d (r + n) i := by
  obtain ⟨_, h2, h3⟩ := putRegs_spec d m r (images d nd xs) s hw
  have hlen : (images d nd xs).length = nd := by unfold images; rw [List.length_map, chunks_length]
  have hb := bits_pos d
  refine Nat.eq_of_testBit_eq fun u => ?_
  unfold elemAt
  have hlim : u < d.bits → i * d.bits + u < 8192 := by
    intro hu
    have h1 : (i + 1) * d.bits ≤ d.lanes * d.bits := Nat.mul_le_mul_right _ hi
    rw [bits_lanes, Nat.succ_mul] at h1; omega
  have hcell : u < d.bits → activeCell m d ((i * d.bits + u) / 8) = isActive m d i := by
    intro hu
    unfold activeCell isActive
    congr 1
    have hc : d.bits = 4 ∨ d.bits = 8 ∨ d.bits = 16 ∨ d.bits = 32 ∨ d.bits = 64 := by cases d <;> simp [VTy.bits]
    rcases hc with h | h | h | h | h <;> rw [h] at hu ⊢ <;> omega
  by_cases hu : u < d.bits
  · rw [Nat.testBit_mod_two_pow, decide_eq_true hu, Bool.true_and, Nat.testBit_div_two_pow, Nat.add_comm u,
      getV_testBit _ _ _ h2 (hlim hu), h3 _ _ (by have := hlim hu; omega), hlen, hcell hu]
    by_cases ha : isActive m d i = true
    · rw [if_pos ⟨by omega, by omega, ha⟩, if_pos ha, show r + n - r = n by omega, byte_testBit, images_testBit _ _ _ _ _ _ hn hi hu,
        Nat.testBit_mod_two_pow, decide_eq_true hu, Bool.true_and]
    · rw [if_neg fun h => ha h.2.2, if_neg ha, Nat.testBit_mod_two_pow, decide_eq_true hu, Bool.true_and, Nat.testBit_div_two_pow,
        Nat.add_comm u, getV_testBit _ _ _ hw (hlim hu)]
  · rw [Nat.testBit_mod_two_pow, decide_eq_false hu, Bool.false_and]
    split
    · rw [Nat.testBit_mod_two_pow, decide_eq_false hu, Bool.false_and]
    · rw [Nat.testBit_mod_two_pow, decide_eq_false hu, Bool.false_and]

/-- An instruction that is `elementWord` of a computation computes its elements. -/
theorem elementWord_spec {i : Instr} {len : Nat} {f : VFields} {sh : VShape} {s : State} {compute : VIn → VRes} {val : VIn → Nat → El}
    (e : exec i s = elementWord len f sh compute s)
    (hc : ∀ inp : VIn, inp.a.length = sh.na → inp.b.length = sh.nb → inp.c.length = sh.nc →
      compute inp = (List.range (sh.nd * sh.dst.lanes)).map (val inp)) :
    ComputesElements i len f sh s val := by
  intro a b c k hf hr hd hw inp m
  let r := repOf f s.core.vrep
  obtain ⟨ha, hb, hcc, hk⟩ := fetch3_spec _ _ _ _ _ _ _ _ hf
  have hx := hc inp ha hb hcc
  let s1 : State := { s with core := k }
  have hw1 : Memory.wf s1.core.cs = true := by show Memory.wf k.cs = true; rw [hk]; exact hw
  let imgs := images sh.dst sh.nd ((compute inp).map (·.bits))
  have hlen : imgs.length = sh.nd := by show (images _ _ _).length = _; unfold images; rw [List.length_map, chunks_length]
  obtain ⟨g1, g2, g3⟩ := putRegs_spec sh.dst m r.vd imgs s1 hw1
  refine ⟨putRegs sh.dst m r.vd imgs s1, ?_, ?_, ?_, ?_⟩
  · rw [e]
    unfold elementWord
    simp only
    rw [withFrames, hr.1, if_neg (by simp), hr.2]
    simp only [withSources]
    rw [show fetch3 ⟨sh.src, f.literal, bobIndex s⟩ sh (repOf f s.core.vrep) s.core = some (a, b, c, k) from hf]
    simp only
    rw [gather_eq _ _ _ _ (val inp) hx]
  · intro n i hn hi
    show elemAt (putRegs sh.dst m r.vd imgs s1).core _ _ _ = _
    rw [elemAt_putRegs _ _ _ _ _ _ hw1 _ _ hn hi]
    have hin : n * sh.dst.lanes + i < sh.nd * sh.dst.lanes := by
      have : (n + 1) * sh.dst.lanes ≤ sh.nd * sh.dst.lanes := Nat.mul_le_mul_right _ hn
      rw [Nat.succ_mul] at this; omega
    have hv : ((compute inp).map (·.bits))[n * sh.dst.lanes + i]?.getD 0 = (val inp (n * sh.dst.lanes + i)).bits := by
      rw [hx, List.map_map, List.getElem?_map, List.getElem?_range hin]; rfl
    rw [hv]
    have : elemAt s1.core sh.dst (r.vd + n) i = elemAt s.core sh.dst (r.vd + n) i := by
      show elemAt k _ _ _ = _
      rw [hk]; rfl
    rw [this]
  · intro x hx'
    have := g3 (x / 0x400) (x % 0x400) (Nat.mod_lt _ (by omega))
    rw [show x / 0x400 * 0x400 + x % 0x400 = x by omega, hlen, if_neg] at this
    · show memGet (putRegs sh.dst m r.vd imgs s1).core.cs x = _
      rw [this]
      show memGet k.cs x = _
      rw [hk]
    · rintro ⟨h1, h2, _⟩
      have h1' : (repOf f s.core.vrep).vd ≤ x / 0x400 := h1
      have h2' : x / 0x400 < (repOf f s.core.vrep).vd + sh.nd := h2
      exact hx' ⟨by omega, by omega⟩
  · exact g1

end Sys2Proof.Machine
end

