-- ==== Sys2Proof/Laws/Words.lean ====
section
/-! SUPPORT. How an A word that issues ends: what `aWord` answers, and the three shapes of completion that most words have. -/

namespace Sys2Proof.Machine

open Sys2Proof

/-! ## Older accesses into what a word writes -/

theorem Access.overwritten_nil (a : Access) : a.overwritten [] [] = a := by simp [Access.overwritten]

/-- A word that writes no register leaves every access as it is. -/
theorem Core.overwrite_nil (k : Core) : k.overwrite [] [] = k := by
  have : k.out.map (Access.overwritten [] []) = k.out := by
    rw [List.map_congr_left (fun a _ => a.overwritten_nil)]; simp
  simp only [Core.overwrite, this]

/-- A write to s0 reaches no access. -/
theorem Access.overwritten_s0 (a : Access) : a.overwritten [0] [] = a := by
  have : (0#6 ∈ a.dest.regs) = False := by
    cases a.dest <;> simp only [AccDest.regs] <;> (try split) <;> simp_all
    all_goals exact fun h => absurd h.symm ‹_›
  simp [Access.overwritten, this]

theorem Core.overwrite_s0 (k : Core) : k.overwrite [0] [] = k := by
  have : k.out.map (Access.overwritten [0] []) = k.out := by
    rw [List.map_congr_left (fun a _ => a.overwritten_s0)]; simp
  simp only [Core.overwrite, this]

/-- A write to p0 reaches none either. -/
theorem Core.overwrite_p0 (k : Core) : k.overwrite [] [0] = k := by
  have : k.out.map (Access.overwritten [] [0]) = k.out := by
    rw [List.map_congr_left (fun a _ => by simp [Access.overwritten] : ∀ a ∈ k.out, Access.overwritten [] [0] a = a)]
    simp
  simp only [Core.overwrite, this]

/-- Writes of registers, then of predicates, reach what the two reach. -/
theorem Access.overwritten_both (a : Access) (rs : List (BitVec 6)) (ps : List (BitVec 4)) :
    (a.overwritten rs []).overwritten [] ps = a.overwritten rs ps := by simp [Access.overwritten]

theorem Core.overwrite_both (k : Core) (rs : List (BitVec 6)) (ps : List (BitVec 4)) :
    (k.overwrite rs []).overwrite [] ps = k.overwrite rs ps := by
  unfold Core.overwrite
  congr 1
  rw [List.map_map]
  exact List.map_congr_left fun a _ => a.overwritten_both rs ps

/-! ## The shapes of completion -/

/-- A word that issues has its effect and ends as that says. -/
theorem aWord_go {s : State} {rd : List (BitVec 6)} {ps : List (BitVec 4)} (h : Issues s rd ps) (body : State → AOut) :
    aWord rd ps s body = .next (finishA s (body s)) := by
  unfold aWord; rw [h]

theorem Core.setS_out (k : Core) (d : BitVec 6) (v : Word) : (k.setS d v).out = (k.overwrite [d] []).out := by
  unfold Core.setS
  split
  · rename_i h; subst h; rw [Core.overwrite_s0]
  · rfl

theorem Core.setP_out (k : Core) (p : BitVec 4) (b : Bool) : (k.setP p b).out = (k.overwrite [] [p]).out := by
  unfold Core.setP
  split
  · rename_i h; subst h; rw [Core.overwrite_p0]
  · rfl

/-- What a write to an s-register leaves, with the register file it gives. -/
theorem Core.setS_writes (k : Core) (d : BitVec 6) (v : Word) : k.setS d v = { k.overwrite [d] [] with s := (k.setS d v).s } := by
  conv_lhs => rw [Core.setS_eq, Core.setS_out]
  rfl

theorem Core.setP_writes (k : Core) (p : BitVec 4) (b : Bool) : k.setP p b = { k.overwrite [] [p] with p := (k.setP p b).p } := by
  conv_lhs => rw [Core.setP_eq, Core.setP_out]
  rfl

/-- A word that writes one s-register completes so. -/
theorem completesS_of {i : Instr} {s : State} {d : BitVec 6} {rd : List (BitVec 6)} {ps : List (BitVec 4)} {body : State → AOut} {v : Word}
    (h : Issues s rd ps) (e : exec i s = aWord rd ps s body) (hb : body s = .done (setS d v s)) : CompletesS i s d v := by
  refine ⟨finishA s (.done (setS d v s)), ?_, ?_, ?_, ?_⟩
  · rw [e, aWord_go h, hb]
  · exact (getS_setS _ d d v).trans (if_pos rfl)
  · exact fun r hr => (getS_setS _ d r v).trans (if_neg hr)
  · show _ = wordDone { s with core := { s.core.overwrite [d] [] with s := (s.core.setS d v).s } }
    rw [← Core.setS_writes]; rfl

/-- A word that writes one predicate completes so. -/
theorem completesP_of {i : Instr} {s : State} {p : BitVec 4} {rd : List (BitVec 6)} {ps : List (BitVec 4)} {body : State → AOut} {b : Bool}
    (h : Issues s rd ps) (e : exec i s = aWord rd ps s body) (hb : body s = .done (setP p b s)) : CompletesP i s p b := by
  refine ⟨finishA s (.done (setP p b s)), ?_, ?_, ?_, ?_⟩
  · rw [e, aWord_go h, hb]
  · exact (getP_setP _ p p b).trans (if_pos rfl)
  · exact fun r hr => (getP_setP _ p r b).trans (if_neg hr)
  · show _ = wordDone { s with core := { s.core.overwrite [] [p] with p := (s.core.setP p b).p } }
    rw [← Core.setP_writes]; rfl

/-- A word that writes one s-register and one predicate completes so. -/
theorem completesSP_of {i : Instr} {s : State} {d : BitVec 6} {p : BitVec 4} {rd : List (BitVec 6)} {ps : List (BitVec 4)} {body : State → AOut}
    {v : Word} {b : Bool} (h : Issues s rd ps) (e : exec i s = aWord rd ps s body) (hb : body s = .done (setP p b (setS d v s))) :
    CompletesSP i s d v p b := by
  refine ⟨finishA s (.done (setP p b (setS d v s))), ?_, ?_, ?_, ?_, ?_, ?_⟩
  · rw [e, aWord_go h, hb]
  · exact (getS_setP _ p d b).trans ((getS_setS _ d d v).trans (if_pos rfl))
  · exact fun r hr => (getS_setP _ p r b).trans ((getS_setS _ d r v).trans (if_neg hr))
  · exact (getP_setP _ p p b).trans (if_pos rfl)
  · exact fun q hq => (getP_setP _ p q b).trans ((if_neg hq).trans (getP_setS _ d q v))
  · show _ = wordDone { s with core := { s.core.overwrite [d] [p] with
      s := ((s.core.setS d v).setP p b).s, p := ((s.core.setS d v).setP p b).p } }
    have e1 := Core.setS_writes s.core d v
    have e2 := Core.setP_writes (s.core.setS d v) p b
    have e3 : (s.core.setS d v).overwrite [] [p] = { s.core.overwrite [d] [p] with s := (s.core.setS d v).s } := by
      rw [← Core.overwrite_both s.core [d] [p]]; conv_lhs => rw [e1]
      rfl
    rw [e3] at e2
    rw [Core.setP_s]
    show wordDone { s with core := (s.core.setS d v).setP p b } = _
    conv_lhs => rw [e2]

end Sys2Proof.Machine
end

