-- ==== Sys2Proof/Tests/Slice0.lean ====
section
/-! SUPPORT. The model's own tests: ill-formed terms that WellFormed refuses, words written out from the encoding chapter that decode to the
instructions they stand for, single steps, and for every statement concrete states and operands that meet its hypotheses. -/

namespace Sys2Proof.Tests

open Sys2Proof Sys2Proof.Machine

-- Each proof here is one kernel evaluation: waiting for them side by side would take a thread and its stack for each.
set_option Elab.async false

/-! ## WellFormed refuses -/

/-- Fields of a long-map V instruction: type, destination, first and second source, mask, modifier, third parcel. -/
def vf (t : VTy) (vd va vb : BitVec 11) (mask : BitVec 4) (modifier : BitVec 12) (ext : VExt) : VFields :=
  ⟨modifier, vb, va, vd, false, mask, t, ext⟩

/-- Fields of an M word: locators and COUNT. -/
def mf (a b c : BitVec 32) (count : BitVec 14) : MFields :=
  ⟨c, false, false, count, 0, false, 0, 0, b, a, 0, false, false, false, false, false, 0, 0, 0, 0⟩

/-- R115, R101, R74, R107, R297, R319: a control register that is none, no path, records that would pass s63. -/
theorem smoke_a_words :
    ([Instr.crr 5 0x3FF, .crw 0x1C 5, .fence .die .acqrel 0, .spawn 5 60, .cp 59, .cpBolt 63, .cpQ 3 59, .mpath 5 63 4, .pnlDef 5 3 63].all
      fun i => !i.wellFormed) = true ∧
    ([Instr.crr 5 0x43, .crw 0x90 5, .fence .die .acqrel 1, .spawn 5 59, .cp 58, .cpBolt 58, .cpQ 3 58, .mpath 5 62 4, .pnlDef 5 3 62].all
      fun i => i.wellFormed) = true := by
  decide +kernel

/-- R31 to R40, R165, R174, R175, R182, R185, R190: a type that the entry has not, a mask where there is none, a literal that is missing or
excluded, a modifier outside its layout, fields that must be zero, strides where no run is, registers past v1535, runs that leave them. -/
theorem smoke_v_instructions :
    ([Instr.vexp2 (vf .i32 3 4 0 0 0 .none), .vnop (vf .i8 0 0 0 1 0 .none), .vmovi (vf .f32 3 0 0 0 0 .none),
        .vadd (vf .f32 3 4 5 0 0 (.lit 1)), .vadd (vf .f32 3 4 5 0 0xA00 .none), .vmov (vf .f32 3 4 1 0 0 .none),
        .vmxq (vf .f32 3 4 0 0 0 .none), .vloop (vf .i8 0 0 0x61F 0 2 (.lit 3)), .vins (vf .f32 3 4 0x61F 0 0 (.lit 256)),
        .vclass (vf .f32 3 4 0x61F 0 0 (.lit 512)), .vmov (vf .f32 3 4 0 0 0 (.run 0 1 0 0 0)), .vadd (vf .f32 3 4 5 0 0 (.run 7 0 0 0 1)),
        .vmov (vf .f32 3 4 0x61F 0 0 (.lit 5)), .vadd (vf .f32 1536 4 5 0 0 .none), .vfma (vf .f32 3 4 5 0 0 (.run 1567 0 0 0 0)),
        .vadd (vf .f32 1535 4 5 0 0 (.run 0 0 0 1 1))].all fun i => !i.wellFormed) = true ∧
    ([Instr.vadd (vf .f32 1535 4 5 0 0 .none), .vmovi (vf .f32 3 0 0x61F 0 0 (.lit 7)), .vloop (vf .i8 0 0 0x61F 0 2 (.lit 4)),
        .vins (vf .f32 3 4 0x61F 0 0 (.lit 255)), .vadd (vf .f32 1534 4 5 0 0 (.run 0 0 0 1 1))].all fun i => i.wellFormed) = true := by
  decide +kernel

/-- R42, R43: short cells with a source that is no register, bits that must be zero, and a queue that is none. -/
theorem smoke_v_short_cells :
    ([Instr.vaddF32Short 1536 4, .vqdropShort 5, .vseam (vf .i8 0 0 0 0 1 .none)].all fun i => !i.wellFormed) = true ∧
    ([Instr.vaddF32Short 1535 4, .vqdropShort 1551, .vseam (vf .i8 9 1 0 0 0 .none)].all fun i => i.wellFormed) = true := by
  decide +kernel

/-- R44 to R49, R228, R245: a signal with no increment, a field the word has not, a locator of a reserved kind or of a kind its column does
not allow, an operand the word does not take, an odd tile of a pair; R18: hint cells with another opcode. -/
theorem smoke_m_words :
    ([Instr.mnop { mf 0 0 0 0 with sigSem := 5 }, .mnop { mf 0 0 0 0 with acc := 1 }, .mnop { mf 0 0 0 0 with epi := 1 },
        .mnop { mf 0 0 0 0 with clr := true }, .qrel (mf 0 0x80000000 0 0), .qrel (mf 0x20000040 0x20000040 0 0), .qrel (mf 0 0x20000001 0 0),
        .qwin (mf 0x20000040 0x20000040 0 0), .mBolt (mf 0x20000040 0x20000040 0 4), .qstep (mf 0 0x20000040 0 0), .qstep (mf 0x20000040 0x40000001 0 0),
        .qstepI4 { mf 0x20000040 0x20000040 0 0 with acc := 1 }, .mbrk { mf 0 0 0 0 with sigInc := 1 }, .epi (mf 0x20000040 0 0 0),
        .mloop (mf 0x1000000 0 0x80000000 1), .mend (mf 1 0 0 0), .mHint 0xEF, .vHint (.w64 0)].all fun i => !i.wellFormed) = true ∧
    ([Instr.mnop { mf 0 0 0 0 with sigSem := 5, sigInc := 1 }, .qrel (mf 0 0x20000040 0 0), .qwin (mf 0x20000040 0x20000040 0 1),
        .mBolt (mf 0x20000040 0x20000040 0 5), .qstepI4 { mf 0x20000040 0x20000040 0 0 with acc := 2 }, .mbrk (mf 0 0 0 0),
        .epi { mf 0x20000040 0 0 0 with epi := 1 }, .mloop (mf 0x1000000 0 0 1), .mHint 0xF0].all fun i => i.wellFormed) = true := by
  decide +kernel

/-! ## States for the witnesses -/

/-- A resident page at `pa`. -/
def page (pa : Nat) : Page := ⟨pa, pa, true, false, false, none, false, 0⟩

/-- 4 KiB pages, the third not resident, behind the addresses 0x10000 to 0x13FFF. -/
def backing4K : Backing := ⟨7, 0x900000, 64, 0, false, 0, false, false, [page 0x100000, page 0x101000, { page 0x102000 with res := false }, page 0x103000]⟩

/-- 2 MiB pages behind the addresses 0x200000 to 0x7FFFFF. -/
def backing2M : Backing := ⟨8, 0x901000, 64, 0, false, 2, false, false, [page 0x400000, page 0x600000, page 0x800000]⟩

def launchDesc : LaunchDesc :=
  ⟨0x4000, 0, 0, 1, 0, 0, 0x20000, 0, 0x3000, 0, ⟨0, 0, false, 0, false⟩, ⟨0, 0, false, 0, false⟩, ⟨0, 0, false, 0, false⟩, ⟨0, 0, false, 0, false⟩⟩

def launch1 : Launch :=
  ⟨1, 0, 0, 0, launchDesc, .running, 0, [⟨0, 0x10000, 0x4000, 0, 0x10, 7⟩, ⟨1, 0x200000, 0x600000, 2, 0x10, 8⟩], 0, 0, [], 1, 0, 0, 0, 0, 0⟩

def bobbin0 : Bobbin := ⟨0x4000, 0x3F0000, false, .bound, 5, 0, 0x200000, 0, 0, ⟨0, false, false⟩, ⟨0, false, false⟩, 0, 0, 0, 0xFF, 0⟩

def entry0 : PoolEntry := ⟨0, bobbin0, 0, 0, none, none, 1, 0, none⟩

/-- The registers named in `l` hold its values, the others zero. -/
def sRegs (l : List (Nat × Word)) : Bank Word 6 := l.foldl (fun v x => bankSet v (BitVec.ofNat 6 x.1) x.2) (Vector.replicate _ 0)

/-- A core with a bound strand whose A sequencer runs. -/
def coreWith (l : List (Nat × Word)) : Core :=
  { Core.reset 0 with
    slot := some 0
    launch := 1
    aseq := .running
    units := Vector.replicate _ .own
    p := bankSet (Vector.replicate _ false) 0#4 true
    m := bankSet (Vector.replicate _ 0) 0#4 (BitVec.allOnes 1024)
    s := sRegs l }

/-- Memory, resident images, one core, and a pool whose bobbins are of launch 1. -/
def stateOn (m : Mem) (images : List Image) (k : Core) (p : List PoolEntry) : State :=
  { State.reset with
    parked := []
    core := k
    pool := p
    launches := [launch1]
    backings := [backing4K, backing2M]
    mem := m
    images := images
    nextId := 100
    nextPlace := 1
    time := 5000000 }

/-- A few bytes of memory. -/
def fewBytes : Mem := [(0x100040, 0x11), (0x100041, 0x82), (0x100047, 0x99), (0x100050, 0xFF)]

/-- With those bytes, and the strand of slot 0 on the core. -/
abbrev stateWith (k : Core) : State := stateOn fewBytes [] k [entry0]

def core0 : Core := coreWith [(3, 0x10040), (4, 7), (5, 0xFFFFFFFFFFFFFFF0), (6, 0x10080)]

def state0 : State := stateWith core0

/-- A section that holds the words `ws` from its start on. -/
def sectionOf (ws : List Nat) : Section :=
  ⟨0, 64, (ws.zipIdx.flatMap fun (w, i) => (List.range 4).map fun k => (4 * i + k, BitVec.ofNat 8 (w / 256 ^ k))).filter (·.2 ≠ 0)⟩

theorem meets_canonical : Canonical State.reset ∧ Canonical state0 := by
  unfold Canonical CoreCanonical
  decide +kernel

/-! ## Witnesses: states and operands that meet the hypotheses of each statement, clause by clause -/

/-- IntegerWords: sources and destinations, s0 as destination; a divisor that is not zero, and one that is, trapping and not. -/
theorem meets_IntegerWords :
    (Issues state0 [3, 4] [] ∧ Issues state0 [3] [] ∧ Issues state0 [] [] ∧ Issues state0 [5] []) ∧
    (Issues state0 [5, 4] [] ∧ getS state0 4 ≠ 0) ∧
    (Issues state0 [5, 7] [] ∧ getS state0 7 = 0 ∧ state0.core.aexc.getLsbD 0 = false) ∧
    (let s := stateWith { core0 with aexc := 1 }; Issues s [5, 0] [] ∧ getS s 0 = 0 ∧ s.core.aexc.getLsbD 0 = true) := by
  decide +kernel

theorem meets_CompareWords :
    Issues state0 [3, 4] [] ∧ Issues state0 [3] [] ∧ Issues state0 [] [1, 15] ∧ Issues state0 [3, 4] [2] := by
  decide +kernel

/-- BranchWords: a taken and a passed branch, a handler that has re-armed with V and M stopped, and the words after a GRD: none, one that may
be guarded (ADD), one that may not (BR), one that is not legal. -/
theorem meets_BranchWords :
    (Issues state0 [] [3] ∧ Issues state0 [] [3] ∧ Issues state0 [] [0] ∧ Issues state0 [3] [] ∧ Issues state0 [] []) ∧
    (state0.core.rearmed = false ∧
      (let k : Core := { core0 with rearmed := true, vseq := .trapped 0x44, mseq := .brk }
       k.rearmed = true ∧ k.vtrap = none ∧ k.vseq = .trapped 0x44 ∧ k.mseq = .brk) ∧
      { core0 with vtrap := some ⟨.vArith, .v, 0x44, 0x55⟩ }.vtrap ≠ none) ∧
    (let s (w : Nat) : State := stateWith { core0 with pc := imgBase, secA := sectionOf [0, w] }
     Issues (s 0x0450C400) [] [3] ∧ fetchA { (s 0x0450C400).core with pc := imgBase + 4 } = some 0x0450C400 ∧
     (guardFault 0x0450C400 = none ∧ guardFault 0x49180000 = some .illegal ∧ guardFault 0 = some .illegal) ∧
     Issues state0 [] [3] ∧ fetchA { state0.core with pc := state0.core.pc + 4 } = none) := by
  decide +kernel

/-- LoadWords: every width, strict and not, at bytes that memory holds; a byte on a page that is not resident, in a load that is not strict. -/
theorem meets_LoadWords :
    (Issues state0 [3] [] ∧
      let s := state0
      (∀ n ∈ ([1, 2, 4, 8] : List Nat),
        let va := getS s 3 + BitVec.ofInt 64 ((0 : BitVec 11).toInt * n)
        va.toNat % n = 0 ∧ watchHit s va = false ∧ peerOf (strandSites s false false va n) = none ∧ localWaits s true false va (strandSites s false false va n) = false) ∧
      readSites .strict (strandSites s false false 0x10040 8) s =
        .ok ⟨[0x11, 0x82, 0, 0, 0, 0, 0, 0x99], [false, false, false, false, false, false, false, false]⟩ s ∧
      readSites .load (strandSites s false false 0x12000 1) s = .ok ⟨[0], [true]⟩ s) ∧
    (∀ x ∈ [Site.mem 0x100040, .mem 0x100041], ∃ pa ∈ [0x100040, 0x100041],
      x = .mem pa ∧ state0.sv.deadLines.contains (pa / 64) = false ∧ state0.poison.contains (pa / 64) = false) ∧
    strandSites (state0) false false 0x12000 1 = [.page 7 2] := by
  decide +kernel

/-- StoreWords: every width, with offset 1, in all orders. -/
theorem meets_StoreWords :
    (Issues state0 [4, 3] [] ∧ state0.sv.en = false) ∧
    (∀ n ∈ ([1, 2, 4, 8] : List Nat),
      let va := getS state0 3 + BitVec.ofInt 64 ((8 : BitVec 11).toInt * n)
      va.toNat % n = 0 ∧ watchHit state0 va = false ∧ peerOf (strandSites state0 true false va n) = none ∧ localWaits state0 true true va (strandSites state0 true false va n) = false ∧
        strandSites state0 true false va n = (List.range n).map (fun i => Site.mem (0x100040 + 8 * n + i))) ∧
    writeSites (strandSites state0 true false 0x10048 1) (leBytes 1 (getS state0 4).toNat) (strandWriter state0) 0x10048 state0 =
      .ok true { state0 with mem := memSet state0.mem 0x100048 7 } := by
  decide +kernel

/-- AtomicWords: each word at a location in memory, and one in a host window, where only some words may be. -/
theorem meets_AtomicWords :
    let s := state0
    (∀ rd ∈ [[3, 4], [3, 4, 5]], Issues state0 rd []) ∧
    (∀ n ∈ ([2, 4, 8] : List Nat),
      (getS state0 3).toNat % n = 0 ∧ watchHit s (getS state0 3) = false ∧ localWaits s false true (getS state0 3) (strandSites s true true (getS state0 3) n) = false ∧
        strandSites s true true (getS state0 3) n = (List.range n).map (fun i => Site.mem (0x100040 + i)) ∧ 0x100040 + n ≤ hostBase ∧
        ∀ i, i < n → s.sv.deadLines.contains ((0x100040 + i) / 64) = false ∧ s.poison.contains ((0x100040 + i) / 64) = false) := by
  decide +kernel

/-- QueueAndCopyWords: queues with entries and with room, good and bad copy records, a stopped copy, an idle and a waiting copy queue. -/
theorem meets_QueueAndCopyWords :
    (let s := state0
     let sites := strandSites s false false 0x10080 1024
     Issues s [6] [] ∧ (getS s 6 + BitVec.ofInt 64 ((0 : BitVec 11).toInt * 64)).toNat % 64 = 0 ∧ watchHit s 0x10080 = false ∧
      (bank s.core.q 3).length < 8 ∧ s.core.copiesTo 3 = false ∧ peerOf sites = none ∧ localWaits s false false 0x10080 sites = false ∧
      readSites .load sites s = .ok ⟨List.replicate 1024 0, List.replicate 1024 false⟩ s ∧
      Issues s [6] [] ∧ (bank s.core.mq 1).length < 16) ∧
    (let k : Core := { core0 with vq := Vector.replicate _ [7], rq := [⟨false, 5⟩] }
     Issues (stateWith k) [] [] ∧ k.rq = ⟨false, 5⟩ :: [] ∧ bank k.vq 1 = 7 :: [] ∧
      (let k : Core := { k with rq := [⟨true, 9⟩] }; Issues (stateWith k) [] [] ∧ k.rq = ⟨true, 9⟩ :: [])) ∧
    (let s := stateWith (coreWith [(10, 0x10000), (11, 0x10100), (12, 0x800000001)])
     Issues s (recordRegs 10 6) [] ∧ s.core.copyTrap = none ∧ s.core.copyq.length < 32 ∧
      copyOk s (readCopy .cp 10 s) ((getS s (10 + 5)).extractLsb' 43 21) = true ∧
      Issues s (recordRegs 20 6) [] ∧ copyOk s (readCopy .cp 20 s) ((getS s (20 + 5)).extractLsb' 43 21) = false ∧
      Issues s [] [] ∧ s.core.copyq = []) ∧
    (let k : Core := { core0 with copyTrap := some (.copy, 3) }
     Issues (stateWith k) (recordRegs 10 6) [] ∧ k.copyTrap = some (.copy, 3)) ∧
    (let c : CopyCmd := ⟨.cp, 0, 0, 1, 8, 0, 0, false, 0, 0, 0, 1, 0, false⟩
     let k : Core := { core0 with copyq := [c] }
     Issues (stateWith k) [] [] ∧ k.copyTrap = none ∧ k.copyq = c :: [] ∧ c.ready k = false) := by
  decide +kernel

/-- SemaphoresAndFences: amounts at and past what the count and 65,535 allow; a fence with nothing outstanding, and one with a copy queued. -/
theorem meets_SemaphoresAndFences :
    (let s := stateWith { coreWith [(3, 0x10000), (4, 5), (5, 6), (6, 65530)] with sem := Vector.replicate _ 5 }
     let c := (bank s.core.sem 9).toNat
     Issues s [4] [] ∧ Issues s [] [] ∧ openAt s (coreBase + s.cur * 0x200000) 0x200000 = false ∧ c + (getS s 6).toNat ≤ 65535 ∧ 65535 < c + (getS s 3).toNat ∧
      (getS s 4).toNat ≤ c ∧ 65535 < (getS s 3).toNat ∧ (c < (getS s 5).toNat ∧ (getS s 5).toNat ≤ 65535) ∧
      Issues s [3] [] ∧ Issues s [5] [] ∧ Issues s [6] []) ∧
    (Issues state0 [] [] ∧ state0.core.copyTrap = none ∧ state0.core.readFault = none ∧ state0.core.storeFaults = [] ∧
      state0.core.ndur = none ∧ fenceWaits .survive 2 state0 = false ∧
      lossesDelivered core0 = true ∧ lossesDelivered { core0 with storeFaults := [(.shuttleLoss, 0x10040)] } = false ∧
      fenceWaits .die 2 (stateWith { core0 with copyq := [⟨.cp, 0, 0, 1, 8, 0, 0, false, 0, 0, 0, 1, 0, false⟩] }) = true) := by
  decide +kernel

/-- SeamsStopsAndExit: a SEAM word with and without a stop, a spin mark after it and without it, SUSPEND with and without an address, EXIT with
queues empty and not. -/
theorem meets_SeamsStopsAndExit :
    (let k : Core := { core0 with secA := sectionOf [0xA8000C09], pc := imgBase + 4, passA := [(9, 2)], spin := some (9, 77) }
     Issues (stateWith k) [] [] ∧ k.stopWanted = false ∧ k.spin = some (9, 77) ∧ seamBefore k = some 9 ∧ seamBefore core0 = none ∧
      (let k : Core := { k with stop := some ⟨3, 100⟩ }
       Issues (stateWith k) [] [] ∧ k.stopWanted = true ∧ k.mseq ≠ .faulted ∧ passages k.passV 9 ≤ passages k.passA 9 ∧
        passages k.passM 9 ≤ passages k.passA 9)) ∧
    (Issues state0 [3] [] ∧ Issues state0 [0] [] ∧ state0.core.slot = some 0 ∧ state0.core.mseq ≠ .faulted ∧ state0.core.stop = none) ∧
    (∀ k ∈ [core0, { core0 with q := bankSet (Vector.replicate _ []) 3#4 [⟨5, true, 0⟩] }],
      let s := stateWith k
      Issues s [] [] ∧ s.core.slot = some 0 ∧ vEnded s.core = true ∧ mEnded s.core = true ∧ copiesOver s.core = true ∧
        (let s' : State := { s with core := { s.core with spin := none, stop := none, exitDue := s.core.exitDue.or (some (s.time + 2000000)) } }
         accessesOver s' = true ∧ (endFaults s').isNone = true) ∧ poolEntry s 0 = some entry0) ∧
    (queuesEmpty core0 = true ∧ queuesEmpty { core0 with q := bankSet (Vector.replicate _ []) 3#4 [⟨5, true, 0⟩] } = false) := by
  decide +kernel

/-- SpawnWaitAndPages: a bad record, a good one with a free slot; a value that differs, one that does not, a page that is not resident; pages
of each kind for PAGEREQ. -/
theorem meets_SpawnWaitAndPages :
    (let s := stateWith (coreWith [(10, 0x4000), (11, 0x5000000000007), (12, 0x200000), (13, 77), (14, 88)])
     Issues s (recordRegs 10 5) [] ∧ spawnBad (getS s 10) (getS s 11) (getS s 12) = false ∧ freeSlot s = some 1 ∧ (∀ e ∈ s.pool, e.slot ≠ 1) ∧ releaseWaits s = false ∧
      Issues s (recordRegs 20 5) [] ∧ spawnBad (getS s 20) (getS s 21) (getS s 22) = true) ∧
    (∀ x ∈ ([((0x10040 : Word), (5 : Word), (⟨[0x11, 0x82], [false, false]⟩ : Seen)), (0x10040, 0x8211, ⟨[0x11, 0x82], [false, false]⟩),
        (0x12040, 5, ⟨[0, 0], [true, true]⟩)] : List (Word × Word × Seen)),
      let s := stateWith (coreWith [(3, x.1), (5, x.2.1)])
      let sites := strandSites s false false x.1 2
      Issues s [3, 5] [] ∧ x.1.toNat % 2 = 0 ∧ watchHit s x.1 = false ∧ peerOf sites = none ∧ localWaits s false false x.1 sites = false ∧
        readSites .load sites s = .ok x.2.2 s) ∧
    (leNat [0x11, 0x82] = 0x8211 ∧ (5 : Word).toNat ≠ 0x8211 ∧ waitSeam state0.core = none) ∧
    (let s := stateWith (coreWith [(3, 0x12040), (4, 0x10040), (5, 0x50000), (6, BitVec.ofNat 64 cluWin), (7, 0x0080000000000000)])
     let e : Extent := ⟨0, 0x10000, 0x4000, 0, 0x10, 7⟩
     (∀ a ∈ ([3, 4, 5, 6, 7] : List (BitVec 6)), Issues s [a] []) ∧ canonical (getS s 7) = false ∧
      (∀ a ∈ ([3, 4, 5] : List (BitVec 6)), canonical (getS s a) = true ∧ fixedWindow (getS s a).toNat = false) ∧
      canonical (getS s 6) = true ∧ fixedWindow (getS s 6).toNat = true ∧ extentAt s 1 0x50000 = none ∧
      extentAt s 1 0x12040 = some e ∧ pageOf s 7 2 = some { page 0x102000 with res := false } ∧ pendingPages s < 4096 ∧
      extentAt s 1 0x10040 = some e ∧ pageOf s 7 0 = some (page 0x100000)) := by
  decide +kernel

/-- SpawnWaitAndPages: the pool is full. -/
theorem meets_SpawnWaitAndPages_full :
    let s : State := { stateWith (coreWith [(10, 0x4000), (11, 0x5000000000007), (12, 0x200000)]) with
      pool := List.replicate Config.poolSlots entry0 }
    Issues s (recordRegs 10 5) [] ∧ spawnBad (getS s 10) (getS s 11) (getS s 12) = false ∧ freeSlot s = none := by
  refine ⟨by decide +kernel, by decide +kernel, ?_⟩
  simp [freeSlot]

/-- SpecialRegisterWords: a descriptor that meets the rules and one that does not. -/
theorem meets_SpecialRegisterWords :
    Issues state0 [] [] ∧ Issues state0 [3] [] ∧ descriptorOk 0x0001000100000000 = true ∧ descriptorOk 0x01000003 = false ∧
      state0.fab.mask = 0 ∧ (∀ i, i < 10 → permAt state0.fab i = i) ∧ state0.fab.subst.toList.all (fun e => !e.en) = true := by
  decide +kernel

/-- TrapEntry: with and without a handler; a V trap that waits, and one that a returning handler holds back. -/
theorem meets_TrapEntry :
    Issues state0 [] [] ∧ state0.core.evec = 0 ∧ state0.core.slot = some 0 ∧ poolEntry state0 0 = some entry0 ∧
    (let k : Core := { core0 with evec := 0x77770, vtrap := some ⟨.vArith, .v, 0x44, 0x55⟩ }
     Issues (stateWith k) [] [] ∧ k.evec ≠ 0 ∧ k.readsOpen = false ∧
      { k with out := [⟨4, 4, .sreg 5 false, 0xFF80000000001000, 0, 4, none, false, false, true, false, false⟩] }.readsOpen = true ∧ k.vtrap = some ⟨.vArith, .v, 0x44, 0x55⟩ ∧ (stateWith k).cur = 0 ∧
      (k.inHandler && k.rearmed) = false ∧ k.grd = none ∧ k.aseq ≠ .idle ∧
      (let k : Core := { k with inHandler := true, rearmed := true }; k.vtrap = some ⟨.vArith, .v, 0x44, 0x55⟩ ∧ (k.inHandler && k.rearmed) = true)) := by
  decide +kernel

/-! Skeins: the bound strand (slot 0) is in skein 0x22 with barrier 10 of generation 2, and not in skein 0x33. -/

def skeinA : Skein := ⟨1, 0x22, [0, 4], 8, [0, 4], [], [], some 10, [0]⟩

def skeinB : Skein := ⟨1, 0x33, [4], 8, [4], [], [], none, []⟩

def entryIn : PoolEntry := { entry0 with bob := { bobbin0 with sk0 := ⟨0x22, true, false⟩ } }

def entryFull : PoolEntry := { entry0 with bob := { bobbin0 with sk0 := ⟨0x22, true, false⟩, sk1 := ⟨0x55, true, false⟩ } }

def skeinState : State :=
  { stateWith (coreWith [(8, 0x22), (9, 0x33), (10, 0x44), (11, 0x2000A), (12, 7)]) with
    pool := [entryIn], skeins := [skeinA, skeinB], barGen := [(10, 2)] }

/-- SkeinsAndBarriers: a member and a stranger; a free membership word and none; a skein that exists and one that does not; a skein with a
barrier and one without; an arrival of a part and of one that joined since; a phase that is over; a valid handle and one that is not. -/
theorem meets_SkeinsAndBarriers :
    (let s := skeinState
     (∀ a ∈ ([8, 9, 10] : List (BitVec 6)), Issues s [a] [] ∧ (getS s a).extractLsb' 16 48 = 0#48) ∧
      boundEntry s = some entryIn ∧ boundEntry { s with pool := [entryFull] } = some entryFull ∧
      memberOf bobbin0 0x22 = false ∧ memberOf entryIn.bob 0x22 = true ∧ memberOf entryIn.bob 0x33 = false ∧ memberOf entryIn.bob 0x44 = false ∧
      memberOf entryFull.bob 0x33 = false ∧ entryFull.bob.sk0.valid = true ∧ entryFull.bob.sk1.valid = true ∧
      (entryIn.bob.sk0.valid && entryIn.bob.sk1.valid) = false ∧ skeinOf s 1 0x33 = some skeinB ∧ skeinOf s 1 0x44 = none ∧
      s.skeins.length < 4096) ∧
    (let s := skeinState
     Issues s [8] [] ∧ skeinOf s 1 0x22 = some skeinA ∧ skeinA.bar = some 10 ∧ freeBar s = some 0 ∧
      Issues s [11] [] ∧ releaseWaits s = false ∧ handleSkein s entryIn (getS s 11) = some skeinA ∧ skeinA.parts.contains 0 = true ∧ skeinA.arrived.contains 0 = false ∧
      Issues s [11, 12] [] ∧ (getS s 12).extractLsb' 32 32 = 0#32 ∧ 1 ≤ (skeinA.phase - (getS s 12).extractLsb' 0 32).toNat ∧
      (skeinA.phase - (getS s 12).extractLsb' 0 32).toNat < 2 ^ 31 ∧ Issues s [11] [] ∧ handleClean (getS s 11) = true ∧
      Issues s [8] [] ∧ handleClean (getS s 8) = true ∧ handleSkein s entryIn (getS s 8) = none) ∧
    (let k : Skein := { skeinA with parts := [4] }
     let s : State := { skeinState with skeins := [k, skeinB] }
     Issues s [11] [] ∧ boundEntry s = some entryIn ∧ handleSkein s entryIn (getS s 11) = some k ∧ k.parts.contains 0 = false ∧
      k.ahead.contains 0 = false) ∧
    (let k : Skein := { skeinA with bar := none, refs := [] }
     let s : State := { skeinState with skeins := [k, skeinB] }
     Issues s [8] [] ∧ boundEntry s = some entryIn ∧ skeinOf s 1 0x22 = some k ∧ k.bar = none ∧ freeBar s = some 0) := by
  decide +kernel

/-- SkeinsAndBarriers: every skein exists, and every barrier is in use. -/
theorem meets_SkeinsAndBarriers_full :
    (let s : State := { skeinState with skeins := List.replicate 4096 skeinB }
     Issues s [10] [] ∧ boundEntry s = some entryIn ∧ memberOf entryIn.bob 0x44 = false ∧
      (entryIn.bob.sk0.valid && entryIn.bob.sk1.valid) = false ∧ skeinOf s 1 0x44 = none ∧ 4096 ≤ s.skeins.length) ∧
    (let k : Skein := { skeinA with bar := none, refs := [] }
     let s : State := { skeinState with skeins := k :: List.replicate 1024 skeinA }
     Issues s [8] [] ∧ boundEntry s = some entryIn ∧ memberOf entryIn.bob 0x22 = true ∧ skeinOf s 1 0x22 = some k ∧ k.bar = none ∧
      freeBar s = none) := by
  refine ⟨⟨by decide +kernel, by decide +kernel, by decide +kernel, by decide +kernel, ?_, by rw [List.length_replicate]⟩,
    by decide +kernel, by decide +kernel, by decide +kernel, by decide +kernel, rfl, ?_⟩
  · refine List.find?_eq_none.2 fun x h => ?_
    rw [List.eq_of_mem_replicate h]
    decide +kernel
  · unfold freeBar
    rw [List.filterMap_cons_none (by rfl), List.filterMap_replicate_of_some (by rfl), if_pos (by rw [List.length_replicate])]

/-- SkeinsAndBarriers: three offsets of a merge path in memory, and a pointer to a page that is not resident. -/
theorem meets_SkeinsAndBarriers_path :
    let s : State := { stateWith (coreWith [(20, 0x10100), (21, 3), (22, 4)]) with
      mem := [(0x100100, 5), (0x100104, 7), (0x100108, 7), (0x10010C, 12)] }
    let offs (i : Nat) : Nat := [0, 2, 2, 7][i]?.getD 0
    Issues s [20, 20 + 1, 22] [] ∧ (getS s (20 + 1)).toNat < 2 ^ 31 ∧ (getS s 20).toNat % 4 = 0 ∧ watchHit s (getS s 20) = false ∧
      (offs 0 = 0 ∧ (∀ i, i < 3 → offs i ≤ offs (i + 1)) ∧ offs 3 < 2 ^ 32 ∧
        (∀ i, i < 4 → pathRead s (getS s 20 + BitVec.ofNat 64 (4 * i)) = .value ((5 + offs i) % 2 ^ 32) false)) ∧
      pathPoint s 0x10100 3 4 = .value (2 * 2 ^ 32 + 2) false ∧ pathPoint s 0x12000 3 4 = .value 3 true := by
  decide +kernel

/-! Queues, panels and blocks: a posted queue 3 of eight places that holds two records, block slot 3 under two names. -/

def queue3 : WorkQueue := ⟨3, 0x500000, 0, 0, 0, true, true, 9, 2, false, 0, false, none⟩

def postState : State :=
  { stateWith (coreWith [(8, 0x10080), (9, 3), (10, 0x10800), (11, 0x0001000000030002), (12, 0x22), (13, 0x24), (14, 0x25)]) with queues := [queue3] }

def blockState : State := { postState with blockSlots := [⟨0, 3, 2⟩], blockNames := [⟨0, 0x22, 0⟩, ⟨0, 0x25, 0⟩] }

/-- PostsPanelsAndBlocks: a queue with room and a full one, a panel that is defined, names that have a slot and names that have none, with slots
free and with none. -/
theorem meets_PostsPanelsAndBlocks :
    (let s := postState
     Issues s [8, 9] [] ∧ (getS s 9).toNat < 4096 ∧ (getS s 8).toNat % 64 = 0 ∧ queueAt s 3 = queue3 ∧ queue3.fn = ownFn s ∧ queue3.en = true ∧
      queue3.pm = true ∧ queue3.err = false ∧ watchHit s (getS s 8) = false ∧ heldUp s true (queue3.ring.toNat + queue3.tail.toNat % queue3.slots * 128) 128 = [] ∧
      postWaits s = false ∧
      readRecord true (getS s 8) 128 s = .bytes (List.replicate 128 0) s ∧ (queue3.tail - queue3.head).toNat ≠ queue3.slots ∧
      (let w : WorkQueue := { queue3 with tail := 10 }
       queueAt { s with queues := [w] } 3 = w ∧ (w.tail - w.head).toNat = w.slots) ∧
      Issues s [10, 10 + 1] [] ∧ releaseWaits s = false ∧
      panelFault s 1 (getS s 10) (panelAsked 1 (getS s 10) (panelShape (getS s 11))) = none ∧
      (extentAt s s.core.launch (getS s 10).toNat).isSome = true ∧ (panelAsked 1 (getS s 10) (panelShape (getS s 11))).isSome = true ∧
      (match extentAt s 1 0x10800, panelAsked 1 (getS s 10) (panelShape (getS s 11)) with
       | some e, some x => (pagesOutside s e 0x10800 x.bytes).isEmpty && (pageOf s e.back ((0x10800 - e.base) / pageSize e.psz)).isSome &&
           !(pagesOutside { s with backings := s.backings.map fun b => { b with pages := b.pages.map fun p => { p with res := false } } }
              e 0x10800 x.bytes).isEmpty
       | _, _ => false) = true ∧
      s.panels = []) ∧
    (let s := postState
     Issues s [12] [] ∧ (getS s 12).extractLsb' 44 20 = 0#20 ∧ slotOfName s (ownFn s) 0x22 = none ∧ s.blockNames.length < 262144 ∧
      0 < s.blocks.toNat ∧ s.blockSlots = [] ∧ Issues s [12, 13] [] ∧ Issues s [12] []) ∧
    (let s := { blockState with blocks := 1 }
     slotOfName s (ownFn s) 0x24 = none ∧ Issues s [13] [] ∧ (getS s 13).extractLsb' 0 44 = 0x24 ∧
      ∀ m, m < s.blocks.toNat → ∃ y ∈ s.blockSlots, y.num = m) ∧
    (let s := blockState
     Issues s [12] [] ∧ slotOfName s (ownFn s) 0x22 = some 0 ∧ Issues s [12, 13] [] ∧ (getS s 13).extractLsb' 44 20 = 0#20 ∧
      slotOfName s (ownFn s) 0x24 = none ∧ Issues s [12, 14] [] ∧ (slotOfName s (ownFn s) 0x25).isSome = true ∧ Issues s [12] [] ∧
      openAt s (blockBase + 0 * 0x4000) 0x4000 = false ∧
      s.blockSlots.find? (fun b => b.num == 0) = some ⟨0, 3, 2⟩ ∧ (s.blockSlots.map (·.num)).Nodup) := by
  decide +kernel

/-- A block table of `n` equal names, of a function that is not the strand's name 0x22 or 0x24. -/
def manyNames (n : Nat) : List BlockName := List.replicate n ⟨0, 1, 0⟩

theorem manyNames_find (n : Nat) (x : BitVec 44) (h : x ≠ 1) : (manyNames n).find? (fun e => e.fn == 0 && e.name == x) = none := by
  simpa [manyNames, List.find?_eq_none] using fun _ => Ne.symm h

theorem manyNames_length (n : Nat) : (manyNames n).length = n := by
  simp [manyNames]

theorem manyNames_slot (s : State) (n : Nat) (x : BitVec 44) (e : BlockName) (h : s.blockNames = e :: manyNames n)
    (he : (e.fn == 0 && e.name == x) = false) (hx : x ≠ 1) : slotOfName s 0 x = none := by
  rw [slotOfName, h, List.find?_cons, he]
  exact congrArg _ (manyNames_find n x hx)

/-- PostsPanelsAndBlocks: no panel slot is free; every name of the die is in use. -/
theorem meets_PostsPanelsAndBlocks_full :
    (let s : State := { postState with panels := (List.range 256).map fun i => ⟨i, 9, 0, 1, 1, 1, 0, []⟩ }
     Issues s [10, 10 + 1] [] ∧ ∀ m, m < 256 → ∃ y ∈ s.panels, y.num = m) ∧
    (let s : State := { postState with blockNames := manyNames 262144 }
     let s' : State := { postState with blockNames := ⟨0, 0x22, 0⟩ :: manyNames 262144 }
     Issues s [12] [] ∧ slotOfName s 0 0x22 = none ∧ 262144 ≤ s.blockNames.length ∧ Issues s' [12, 13] [] ∧ slotOfName s' 0 0x22 = some 0 ∧
       slotOfName s' 0 0x24 = none ∧ 262144 ≤ s'.blockNames.length) := by
  refine ⟨by decide +kernel, ?_⟩
  have gate : Issues postState [12] [] ∧ Issues postState [12, 13] [] := by decide +kernel
  refine ⟨gate.1, ?_, (manyNames_length 262144).ge, gate.2, ?_, ?_, ?_⟩
  · simp only [slotOfName, manyNames_find 262144 0x22 (by decide), Option.map_none]
  · rfl
  · exact manyNames_slot _ 262144 0x24 ⟨0, 0x22, 0⟩ rfl (by decide) (by decide)
  · exact (manyNames_length 262144).ge.trans (List.sublist_cons_self _ _).length_le

/-! Work requests at endpoint 2: a 64-byte record of operation `op` with address 0x10000, 8 bytes, and counter 4 for its completion. -/

def endpoint2 : Endpoint := ⟨2, true, 0, 5, 0x700000, 0, [], []⟩

def requestBytes (op : Nat) : List Byte :=
  leBytes 64 (op + 2 * 2 ^ 16 + 0x10000 * 2 ^ 64 + 8 * 2 ^ 128 + 0x80000004 * 2 ^ 160)

def memOf (base : Nat) (bs : List Byte) : Mem := (bs.zipIdx.map fun (b, i) => (base + i, b)).filter (·.2 ≠ 0)

def netState (op : Nat) (e : Endpoint) : State :=
  { stateWith (coreWith [(8, 0x10080), (9, 4), (10, 6), (11, 5), (12, 6)]) with
    mem := memOf 0x100080 (requestBytes op), net := { Net.reset with eps := [e], cnts := [(4, 5), (6, (1 : Word) <<< 48)] } }

/-- NetworkAndMessageWords: requests that send and that receive, with room at the endpoint; counters that have counted the successes asked for,
that have not, and that hold a failure. -/
theorem meets_NetworkAndMessageWords :
    (∀ op ∈ [1, 3, 5],
      let s := netState op endpoint2
      let raw : BitVec 512 := BitVec.ofNat 512 (leNat (requestBytes op))
      let w := wqeOf raw
      Issues s [8] [] ∧ postWaits s = false ∧ (getS s 8).toNat % 64 = 0 ∧ watchHit s (getS s 8) = false ∧
        readRecord false (getS s 8) 64 s = .bytes (requestBytes op) s ∧ wqeBad raw = false ∧ epAt s (BitVec.ofNat 10 w.ep) = endpoint2 ∧
        endpoint2.en = true ∧ endpoint2.fn = ownFn s ∧ cntForeign s (ownFn s) w.ccnt = false ∧ cntForeign s (ownFn s) w.tcnt = false ∧
        (w.op = 5 ∨ outsideExtent s s.core.launch w.laddr w.len (w.op == 3 || w.op == 4) = none) ∧ w.op = op ∧
        endpoint2.sendq.length < 256 ∧ endpoint2.recvq.length < 256) ∧
    (let s := netState 1 endpoint2
     Issues s [9, 11] [] ∧ (getS s 9).toNat < 4096 ∧ (getS s 11).extractLsb' 48 16 = 0#16 ∧ cntFn (cntAt s 4) = ownFn s ∧
      cntFn (cntAt s 6) = ownFn s ∧ (getS s 11).toNat ≤ (cntOk (cntAt s 4)).toNat ∧ cntFail (cntAt s 6) ≠ 0 ∧
      Issues s [9, 12] [] ∧ (cntOk (cntAt s 4)).toNat < (getS s 12).toNat ∧ cntFail (cntAt s 4) = 0 ∧ Issues s [10, 11] []) := by
  decide +kernel

/-- NetworkAndMessageWords: a full endpoint. -/
theorem meets_NetworkAndMessageWords_full :
    let full : Endpoint := { endpoint2 with sendq := List.replicate 256 ⟨0, 0, 0⟩, recvq := List.replicate 256 ⟨0, 0, 0⟩ }
    256 ≤ full.sendq.length ∧ 256 ≤ full.recvq.length ∧ full.en = true ∧ full.fn = endpoint2.fn ∧
      ∀ op ∈ [1, 3],
        let s := netState op full
        Issues s [8] [] ∧ postWaits s = false ∧ epAt s 2 = full ∧ watchHit s (getS s 8) = false ∧
          readRecord false (getS s 8) 64 s = .bytes (requestBytes op) s ∧
          outsideExtent s s.core.launch 0x10000 8 (op == 3) = none := by
  decide +kernel

/-- A message record of 32 bytes: address 0x10000, 100 bytes, destination 9, mailbox 5, class 3; and a receive record for mailbox 9. -/
def messageBytes (send : Bool) : List Byte :=
  leBytes 32 (0x10000 + 100 * 2 ^ 64 + 9 * 2 ^ 96 + (if send then 5 * 2 ^ 112 + 3 * 2 ^ 128 else 0))

def messageState (send : Bool) (fab : Fabric) : State :=
  { stateWith (coreWith [(8, 0x10080)]) with mem := memOf 0x100080 (messageBytes send), fab := fab }

def messageFull : Fabric :=
  { State.reset.fab with
    sends := List.replicate 1024 ⟨0, 0, 1, 0, 0, 1, 0, 0, 0, 0, [], 0, none, none⟩
    recvs := List.replicate 256 ⟨9, 0, 1, 0, 0⟩ }

/-- NetworkAndMessageWords: a message and a receive record, with room and without. -/
theorem meets_NetworkAndMessageWords_records :
    (∀ send ∈ [true, false], ∀ fab ∈ [State.reset.fab, messageFull],
      let s := messageState send fab
      Issues s [8] [] ∧ postWaits s = false ∧ (getS s 8).toNat % 32 = 0 ∧ watchHit s (getS s 8) = false ∧ watchHit s (getS s 8 + 24) = false ∧
        readRecord false (getS s 8) 32 s = .bytes (messageBytes send) s ∧
        outsideExtent s 1 0x10000 100 send.not = none ∧ clearStatus (getS s 8) s = .ok () s) ∧
    (let bs := messageBytes true
     recField bs 12 2 ≤ 1023 ∧ recField bs 14 2 ≤ 4095 ∧ 1 ≤ recField bs 16 1 ∧ recField bs 16 1 ≤ 7 ∧ recField bs 17 7 = 0 ∧
      recField bs 0 8 = 0x10000 ∧ recField bs 8 4 = 100 ∧ State.reset.fab.sends.length < 1024 ∧ 1024 ≤ messageFull.sends.length) ∧
    (let bs := messageBytes false
     recField bs 12 2 ≤ 4095 ∧ recField bs 14 10 = 0 ∧ recField bs 0 8 = 0x10000 ∧ recField bs 8 4 = 100 ∧
      recField bs 12 2 / 64 = (ownFn state0).toNat ∧
      (State.reset.fab.recvs.filter fun r => r.mbox == BitVec.ofNat 12 9).length < 256 ∧
      256 ≤ (messageFull.recvs.filter fun r => r.mbox == BitVec.ofNat 12 9).length) := by
  decide +kernel

/-! The V-stream: a core store with values in registers 3 to 5, masks m5 and m6, entries in q2 and vq1. -/

/-- The bytes `f i` from address `a` on. -/
def memFrom (a n : Nat) (f : Nat → Nat) : Mem := ((List.range n).map fun i => (a + i, BitVec.ofNat 8 (f i))).filter (·.2 ≠ 0)

def vCore : Core :=
  { core0 with
    vseq := .running
    vpc := imgBase + 0x100
    cs := memFrom 0xC00 64 (fun i => i * 37 + 5) ++ memFrom 0x1000 8 (fun i => 0x10000 / 256 ^ i) ++ memFrom 0x1400 64 (fun i => if i % 4 = 0 then i / 4 + 1 else 0)
    q := bankSet (Vector.replicate _ []) 2#4 [⟨5, true, 0⟩]
    vq := bankSet (Vector.replicate _ []) 1#2 [1, 2]
    sem := Vector.replicate _ 5
    m := bankSet (bankSet core0.m 5#4 0xF0F0F0F0F0F0F) 6#4 0xFF00FF0123456789 }

def vState : State := stateWith vCore

/-- What an element instruction needs to compute (the premises of ComputesElements). -/
def ElementsMet (f : VFields) (sh : VShape) (s : State) : Prop :=
  (∃ a b c k, Fetches f sh s a b c k) ∧ ElementReady f sh s ∧ (repOf f s.core.vrep).vd + sh.nd ≤ 1536 ∧ Memory.wf s.core.cs = true

/-- Whether they are met. -/
def elementsMet (f : VFields) (sh : VShape) (s : State) : Bool :=
  let r := repOf f s.core.vrep
  (fetch3 ⟨sh.src, f.literal, bobIndex s⟩ sh r s.core).isSome && s.core.hasRegs (readsOf sh r ++ regsAt r.vd sh.nd) &&
    (poisonedReg s.core (checkedRegs f sh.force (readsOf sh) (fun r => regsAt r.vd sh.nd) s.core)).isNone && decide (r.vd + sh.nd ≤ 1536) &&
    Memory.wf s.core.cs

theorem elements_met {l : List (VFields × VShape)} {s : State} (h : l.all (fun x => elementsMet x.1 x.2 s) = true) :
    ∀ x ∈ l, ElementsMet x.1 x.2 s := by
  intro x hx
  obtain ⟨⟨⟨⟨hf, hr⟩, hp⟩, hd⟩, hw⟩ : ((((fetch3 _ _ _ _).isSome = true ∧ _) ∧ _) ∧ _) ∧ _ := by
    simpa [elementsMet] using List.all_eq_true.1 h x hx
  obtain ⟨y, hy⟩ := Option.isSome_iff_exists.1 hf
  exact ⟨⟨y.1, y.2.1, y.2.2.1, y.2.2.2, hy⟩, ⟨hr, hp⟩, hd, hw⟩

/-- VectorArithmetic: floating, integer and literal operands, a masked one, a run with a stream register as source, short forms. -/
theorem meets_VectorArithmetic :
    (∀ x ∈ [(vf .f32 7 3 4 0 0 .none, { src := .f32, dst := .f32, nb := 1, nc := 1 }), (vf .bf16 7 3 4 6 0 .none, binaryShape .bf16),
        (vf .i8 7 3 0x61F 0 0 (.lit 9), binaryShape .i8), (vf .i16 7 0x602 4 0 0 (.run 5 1 0 1 0), binaryShape .i16),
        (shortBinary .f32 7 3, binaryShape .f32), (shortBinary .bf16 7 3, binaryShape .bf16), (shortBinary .i32 7 3, binaryShape .i32),
        (shortBinary .i16 7 3, binaryShape .i16), (shortBinary .i8 7 3, binaryShape .i8)], ElementsMet x.1 x.2 vState) ∧
    VTy.isFloat .i8 = false := ⟨elements_met (by decide +kernel), rfl⟩

/-- VectorPatternsAndConversions: each shape of sources and results; widths that widen, halve and multiply; a block format. -/
theorem meets_VectorPatternsAndConversions :
    (∀ x ∈ [(vf .n64 7 3 4 0 0 .none, unaryShape .n64), (vf .i8 7 3 4 6 0 .none, binaryShape .i8), (vf .f32 7 3 4 0 0 .none, ternaryShape .f32),
        (vf .n32 7 3 4 6 0 .none, { src := .n32, dst := .n32, nb := 1, force := true }),
        (vf .i32 7 0 0x61F 0 0 (.lit 9), { src := .i32, dst := .i32, na := 0 }), (vf .n8 7 5 0 0 0 .none, { src := .n8, dst := .n8, na := 0 }),
        (vf .n16 7 5 0 0 0 .none, { src := .n16, dst := .n32, na := 0 }), (shortUnary .n64 7 3, unaryShape .n64),
        (shortUnary .f32 7 3, unaryShape .f32), (shortBinary .n64 7 3, binaryShape .n64), (shortBinary .bf16 7 3, binaryShape .bf16),
        (vf .i8 7 3 4 0 0 .none, { src := .i8, dst := dotTy .i8, nb := 1, nc := 1 }),
        (vf .bf16 7 3 4 0 0 .none, { src := .bf16, dst := dotTy .bf16, nb := 1, nc := 1 }),
        (vf .i8 7 3 4 0 0 .none, { src := .i8, dst := widened .i8, nb := 1, nd := 2 }), (vf .n8 7 3 0 0 0 .none, { src := .n8, dst := widened .n8, nd := 2 }),
        (vf .i8 7 3 2 0 0 .none, { src := .i8, dst := fmtOf 2, na := max 1 (8 / (fmtOf 2).bits), nd := max 1 ((fmtOf 2).bits / 8) }),
        (vf .i32 7 3 4 0 0 .none, { src := .i32, dst := halved .i32, nb := 1 }),
        (vf .f32 7 3 0 0 0 .none, { src := .f32, dst := .f32, na := 2, nd := 4 })], ElementsMet x.1 x.2 vState) ∧
    (VTy.bits .i8 * 4 = 32 ∧ VTy.bits .bf16 * 2 = 32 ∧ 2 * VTy.bits .i8 = (widened .i8).bits ∧ 2 * (halved .i32).bits = VTy.bits .i32 ∧
      (fmtOf 0).bits ≤ 8 ∧ 8 ≤ VTy.bits .f32) :=
  ⟨elements_met (by decide +kernel), by decide⟩

/-- VectorFunctionsAndQuantisation: one source, no source, two registers to a block format, three sources of VRQ. -/
theorem meets_VectorFunctionsAndQuantisation :
    let f := vf .bf16 7 3 11 0 0 .none
    let g := vf .i8 7 3 4 6 0 .none
    (∀ x ∈ [(vf .f32 7 3 4 6 0 .none, unaryShape .f32), (shortUnary .f32 7 3, unaryShape .f32), (vf .n32 7 0 0 0 5 .none, { src := .n32, dst := .n32, na := 0 }),
        (f, { src := .bf16, dst := fmtOf 11, na := 2, nd := 2 }), (g, ternaryShape .i8)], ElementsMet x.1 x.2 vState) ∧
    (let r := repOf f vState.core.vrep
     RegsReady vState (regsAt r.va 2 ++ regsAt r.vd 2) (checkedRegs f true (fun r => regsAt r.va 2) (fun r => [r.vd]) vState.core) ∧
      r.vd + 2 ≤ 1536 ∧ VTy.bits .bf16 = 16 ∧ (fmtOf 11).bits = 8) ∧
    (let r := repOf g vState.core.vrep
     RegsReady vState (readsOf (ternaryShape .i8) r ++ [r.vd]) (checkedRegs g false (readsOf (ternaryShape .i8)) (fun _ => []) vState.core) ∧
      r.vd < 1536 ∧ VTy.bits .i8 = 8) := by
  unfold RegsReady
  exact ⟨elements_met (by decide +kernel), by decide +kernel, by decide +kernel⟩

/-- The shapes of the instructions along an axis. -/
def lineShapes : List (VFields × VShape) :=
  [(vf .f32 7 3 4 6 3 .none, unaryShape .f32), (vf .i8 7 3 4 0 63 .none, unaryShape .i8), (vf .i32 7 3 4 6 0x800 .none, binaryShape .i32),
    (vf .bf16 7 3 4 6 0x400 .none, { unaryShape .bf16 with force := true }), (vf .i8 7 3 4 6 0x400 .none, { src := .i8, dst := dotTy .i8 }),
    (vf .f32 7 3 4 6 0 .none, { src := .f32, dst := .f32, nb := 1, nd := 2 })]

/-- VectorLines: each shape; an amount inside a row, widths of VTRN, VRSUMW and VRMAXI; sets with no winner and with one. -/
theorem meets_VectorLines :
    (∀ x ∈ lineShapes, ElementsMet x.1 x.2 vState) ∧
    (let f := vf .f32 7 3 4 6 3 .none
     amount10 f < (if colAxis f then 16 else rowLen .f32) ∧ VTy.bits .f32 = 32 ∧ VTy.bits .i8 ≤ 16 ∧ 8 ≤ VTy.bits .i8 ∧
      colAxis (vf .i8 7 3 4 6 0x400 .none) = false) ∧
    (∀ x ∈ ([⟨false, 5, 0⟩, ⟨true, 0x7FC00000, 1⟩] : List Keyed), x.on = false ∨ elNan .f32 x.key = true) ∧
    (∃ x ∈ ([⟨true, 5, 0⟩, ⟨true, 9, 1⟩] : List Keyed), x.on = true ∧ elNan .i32 x.key = false) ∧
    winner .i32 true [⟨true, 5, 0⟩, ⟨true, 9, 1⟩, ⟨false, 11, 2⟩] = some ⟨true, 9, 1⟩ ∧
    (∀ i : Nat, i < 2 → (0 : Nat) < 0 ^^^ 2 ^ i ∧ 2 ≤ 0 ^^^ 2 ^ (i + 1)) ∧
    (let l : List Cx := [⟨true, 9, 0⟩, ⟨true, 5, 1⟩]
     l[0]? = some ⟨true, 9, 0⟩ ∧ l[1]? = some ⟨true, 5, 1⟩ ∧ cxAt .i32 0 15 l 0 ⟨true, 9, 0⟩ = ⟨true, 5, 1⟩ ∧
      cxAt .i32 0 15 l 1 ⟨true, 5, 1⟩ = ⟨true, 9, 0⟩) ∧
    (let l : List Cx := [⟨true, 5, 0⟩, ⟨true, 9, 1⟩]
     (0 : Nat).testBit 1 = false ∧ (4 : Nat).testBit 2 = true ∧ cxAt .i32 0 15 l 0 ⟨true, 5, 0⟩ = ⟨true, 5, 0⟩) :=
  ⟨elements_met (by decide +kernel), by decide +kernel, by decide +kernel, by decide +kernel⟩

/-- AxisCompletion: no flag enabled, no loop that ends there; each shape, and a run that is not over. -/
theorem meets_AxisCompletion :
    vState.core.vexc.extractLsb' 8 5 = 0 ∧ (∀ j, (bank vState.core.vloop j).active = false) ∧ (∀ x ∈ lineShapes, ElementsMet x.1 x.2 vState) ∧
    (let x : VFields × VShape := (vf .f32 7 3 4 6 3 (.run 0 0 1 1 4), unaryShape .f32)
     (∀ y ∈ [x], ElementsMet y.1 y.2 vState) ∧ (repOf x.1 0).last = false) :=
  ⟨by decide +kernel, by decide +kernel, elements_met (by decide +kernel), elements_met (by decide +kernel), by decide⟩

/-- VectorMasksAndMoves: comparisons with and without a mask, VINS, VSWAP of two registers and of one, VPUSH with room, VQDROP of an entry and of
none. -/
theorem meets_VectorMasksAndMoves :
    (∀ x ∈ [(vf .i8 5 3 4 6 0 .none, binaryShape .i8), (vf .f32 0 3 4 0 0 .none, unaryShape .f32), (vf .i32 7 3 0x61F 6 0 (.lit 3), unaryShape .i32),
        (vf .n64 1 3 4 0 0 .none, unaryShape .n64)], ElementsMet x.1 x.2 vState) ∧
    (let f := vf .i8 5 3 4 6 0 .none
     RegsReady vState (readsOf (binaryShape .i8) (repOf f 0)) (checkedRegs f false (readsOf (binaryShape .i8)) (fun _ => []) vState.core) ∧
      RegsReady vState (readsOf (unaryShape .i8) (repOf f 0)) (checkedRegs f false (readsOf (unaryShape .i8)) (fun _ => []) vState.core) ∧
      8 ≤ VTy.bits .i8) ∧
    (vState.core.vrep = 0 ∧
     ∀ f ∈ [vf .i32 7 3 0x61F 6 0 (.lit 3), vf .i32 3 3 0 0 0 .none, shortUnary .n64 7 3],
      let r := repOf f 0
      RegsReady vState (regsAt r.va 1 ++ [r.vd]) (regsAt r.va 1) ∧ r.vd < 1536 ∧ r.va < 1536 ∧
        RegsReady vState [r.va, r.vd] (checkedRegs f false (fun r => [r.va, r.vd]) (fun r => [r.va, r.vd]) vState.core)) ∧
    (bank vState.core.vq 1).length < 8 ∧ bank vState.core.q 2 = ⟨5, true, 0⟩ :: [] ∧ bank vState.core.q 3 = [] := by
  unfold RegsReady
  exact ⟨elements_met (by decide +kernel), by decide +kernel, by decide +kernel, by decide +kernel, by decide +kernel, by decide +kernel⟩

/-- VectorControl: counts that a wait finds and does not find, a signal past 65,535, a stop at and before this V's passage, a loop that ends
here with and without repetitions left, a loop end that is crossed, an enabled flag. -/
theorem meets_VectorControl :
    (let k : Core := { vCore with metV := true }
     k.metV = true ∧ vCore.metV = false ∧ (5 : Nat) ≤ (bank vCore.sem 9).toNat ∧ (bank vCore.sem 9).toNat < 6 ∧
      (bank vCore.sem 9).toNat + 5 ≤ 65535 ∧ 65535 < (bank ({ vCore with sem := Vector.replicate _ 65533 } : Core).sem 9).toNat + 5) ∧
    (let x : VLoop := ⟨imgBase + 0x80, imgBase + 0x108, true, 3⟩
     let k : Core := { vCore with vloop := bankSet (Vector.replicate _ ⟨0, 0, false, 0⟩) 2#2 x, vlc := bankSet (Vector.replicate _ 0) 2#2 3 }
     k.vloop.toList.any (·.active) = true ∧ vCore.vloop.toList.any (·.active) = false ∧
      loopCrosses vCore 1 (vCore.vpc + 40) = false ∧ loopCrosses k 1 (imgBase + 0x180) = true ∧
      (∀ j, (bank vCore.vloop j).active = false) ∧
      (bank k.vloop 2).active = true ∧ (bank k.vloop 2).fin = k.vpc + w64 (4 * 2) ∧ bank k.vlc 2 ≠ 0 ∧
      (∀ i, i ≠ 2#2 → (bank k.vloop i).active = false) ∧ bank ({ k with vlc := Vector.replicate _ 0 } : Core).vlc 2 = 0) ∧
    (vCore.stop = none ∧
     (let k : Core := { vCore with stop := some ⟨3, 9⟩, passA := [(9, 1)] }
      k.stop.isSome = true ∧ k.aseq = .running ∧ passages k.passV 9 < passages k.passA 9) ∧
     (let k : Core := { vCore with stop := some ⟨3, 9⟩, passA := [(9, 1)], passV := [(9, 1)] }
      k.stop.isSome = true ∧ k.aseq = .running ∧ passages k.passA 9 ≤ passages k.passV 9) ∧
     (let k : Core := { vCore with stop := some ⟨3, 9⟩, aseq := .atSeam 9 }; k.stop.isSome = true ∧ k.aseq = .atSeam 9 ∧ (9 : BitVec 22) ≠ 8)) ∧
    (let all : VFlags := (0 : VFlags) ||| 4
     all &&& ((0 : Word) ||| all.zeroExtend 64).extractLsb' 8 5 = 0 ∧ all &&& ((0x1F00 : Word) ||| all.zeroExtend 64).extractLsb' 8 5 ≠ 0) := by
  decide +kernel

/-- VectorLoadsAndStores: active cells at a base, with a stride and by index, in memory that can be read and written; a page that is not
resident shows as a miss. -/
theorem meets_VectorLoadsAndStores :
    let s := vState
    let a := w64 (leNat ((List.range 8).map fun i => memGet s.core.cs (4 * 0x400 + i)))
    (Canonical s ∧ s.sv.en = false ∧ s.core.vUnits = [] ∧ s.core.vacc = none ∧ vWaits s true (fun a => ownSlot s a.slot) = false ∧ s.core.requests ≤ 1024 ∧ a = 0x10000 ∧
      RegsReady s [4, 5, 7] [4, 5] ∧ RegsReady s [7, 4, 5] [7, 4, 5] ∧ a.toNat % 64 = 0 ∧ watchHit s a = false) ∧
    (∀ p ∈ ([(vf .i8 7 4 5 6 1 .none, fun c => a + w64 c),
        (vf .i8 7 4 5 6 2 .none, fun c => a + BitVec.ofInt 64 (64 * (c / 64 : Nat) * 2) + w64 (c % 64)),
        (vf .i32 7 4 5 6 0 .none, fun c => a + BitVec.ofInt 64 (4 * signedOf 32 (elemAt s.core .i32 5 (c / 4))))] :
        List (VFields × (Nat → Word))),
      let w := unitBytes p.1.ty
      let on (j : Nat) : Bool := (cellsOf p.1 s.core).getLsbD (j / w * w)
      ∀ j, j < 1024 → on j = true →
        (p.2 (j / w * w)).toNat % w = 0 ∧ watchHit s (p.2 (j / w * w)) = false ∧
        (let va := p.2 (j / w * w) + w64 (j % w)
         let pa := 0x100000 + (va.toNat - 0x10000)
         readSite s .load (virtSite s 1 true false false va) = .value (memGet s.mem pa) false ∧ virtSite s 1 true true false va = .mem pa)) ∧
    (∀ i, i < 128 → readSite s .kld (virtSite s 1 true false false (a + w64 i)) = .value (memGet s.mem (0x100000 + i)) false) ∧
    readSite s .load (virtSite s 1 true false false 0x12000) = .value 0 true := by
  unfold RegsReady Canonical CoreCanonical
  decide +kernel

/-! The M-stream: a core store with an empty steering tile of depth 32 at 0x400 and zeros elsewhere, descriptors tc1 to tc4, slot 1 of the gather
window filled for tag 0x4000. -/

/-- A tile descriptor: columns, rows, kind, type, base. -/
def td (cols rows kind ty base : Nat) : Word := BitVec.ofNat 64 (cols * 2 ^ 48 + rows * 2 ^ 32 + kind * 2 ^ 20 + ty * 2 ^ 16 + base)

def filledSlot : GatherSlot := ⟨.filled, 0x4000, 1, false, 0, 0⟩

def mCore : Core :=
  { core0 with
    mseq := .running
    mpc := imgBase + 0x48
    secM := ⟨0x30, 96, []⟩
    cs := [(0x501, 1), (0x2000, 7), (0x20C0, 9)]
    gather := bankSet (Vector.replicate _ GatherSlot.none) 1#2 filledSlot
    tc := bankSet (bankSet (bankSet (bankSet (Vector.replicate _ 0) 1#4 (td 64 5 0 0 4)) 2#4 (td 3 64 0 0 8)) 3#4 (td 64 3 0 0 8)) 4#4 (td 5 64 0 0 12) }

def mState : State := stateWith mCore

/-- The same with two entries in mq1. -/
def mqState (e : Word) : State := stateWith { mCore with mq := bankSet (Vector.replicate _ []) 1#2 [e, 7] }

/-- Whether the operands of a word are taken as `x`, from queues that hold nothing. -/
def takesNow (ca cb cc : LocCol) (f : MFields) (s : State) (x : MArgs) : Bool :=
  match popArgs ca cb cc f s.core with
  | .ok (y, k) => decide (y = x ∧ k.mq = s.core.mq)
  | .error _ => false

theorem takes_of_now {ca cb cc : LocCol} {f : MFields} {s : State} {x : MArgs} (h : takesNow ca cb cc f s x = true) :
    Takes ca cb cc f s x s.core.mq := by
  unfold takesNow at h
  split at h
  · next y k hk =>
    obtain ⟨rfl, hm⟩ := of_decide_eq_true h
    exact ⟨k, hk, hm⟩
  · cases h

/-- MatrixControl: words that start and words behind a fence, a loop with and without repetitions left, no loop, stops at and before M's
passage; popped entries that name no operand, a tile past the core store, a poisoned tile. -/
theorem meets_MatrixControl :
    (let f : MFields := { mf 0 0 0 1 with rply := true }
     (Starts f false mState ∧ Starts f true mState ∧ takesNow colN colN colN f mState ⟨.none, .none, .none⟩ = true ∧ locOf f.locC = some .none ∧
        0 < f.count.toNat ∧ mCore.mflight = [] ∧ mWaits f mCore = false ∧ mCore.mflight.any (fun w => w.fence || w.drain) = false) ∧
      ({ mCore with mflight := [⟨0, 8, 0, 0, none, true, false, false, none⟩] }.mflight.any fun w => w.fence || w.drain) = true) ∧
    (let k : Core := { mCore with mloop := Vector.replicate _ ⟨imgBase + 0x30, true⟩, mlc := bankSet (Vector.replicate _ 0) 3#2 2 }
     (bank k.mloop 3).active = true ∧ bank k.mlc 3 ≠ 0 ∧ bank k.mlc 0 = 0 ∧ (bank mCore.mloop 0).active = false) ∧
    (mCore.stop = none ∧
     (let k : Core := { mCore with stop := some ⟨3, 9⟩, passA := [(9, 1)] }
     k.stop.isSome = true ∧ k.aseq = .running ∧ passages k.passM 9 < passages k.passA 9 ∧ passages k.passA 8 ≤ passages k.passM 8 ∧
      ({ k with aseq := .atSeam 9 } : Core).aseq = .atSeam 9)) ∧
    (let f := mf 0x60000001 0 0 0
     locOf f.locA = some (.mq 1) ∧
      (Starts f false (mqState 0x100000000) ∧ (mqState 0x100000000).core.mflight = [] ∧ bank (mqState 0x100000000).core.mq 1 = 0x100000000 :: [7]) ∧
      (Starts f false (mqState 0x40000003) ∧ (mqState 0x40000003).core.mflight = [] ∧ bank (mqState 0x40000003).core.mq 1 = 0x40000003 :: [7]) ∧
      (Starts f false (mqState 0x20000001) ∧ (mqState 0x20000001).core.mflight = [] ∧ bank (mqState 0x20000001).core.mq 1 = 0x20000001 :: [7])) ∧
    ((0x100000000 : Word).extractLsb' 32 32 ≠ 0 ∧ locOf 0x40000003 = some (.td 3) ∧ locOf 0x20000001 = some (.csa 1) ∧
      (1 : BitVec 21).extractLsb' 0 6 ≠ 0) ∧
    (let f := mf 0x201F8040 0 0 0
     Starts f false mState ∧ takesNow colS colN colN f mState ⟨.at 0x1F8040, .none, .none⟩ = true ∧ 0x200000 < 0x1F8040 + 0x8000) ∧
    (let s := stateWith { mCore with accPoison := [1024] }
     let f : MFields := { mf 0 0 0 0 with acc := 2 }
     Starts f false s ∧ takesNow colN colN colN f s ⟨.none, .none, .none⟩ = true ∧ s.core.units[32 + 2]? = some .own ∧
      poisoned s.core.accPoison (2 * 0x8000, 0x8000) = true) := by
  unfold Starts
  exact ⟨by decide +kernel, by decide +kernel, by decide +kernel, by decide +kernel, by decide +kernel, by decide +kernel, by decide +kernel⟩

/-- GatherWindowAndQuern: a tag without and with a slot, a window that is full, a slot in use; the Quern words over the tile at 0x400 and over one
that is none; code tiles of zeros. -/
theorem meets_GatherWindowAndQuern :
    Canonical mState ∧
    (let f := mf 0x20001000 0x20002000 0 1
     Starts f false mState ∧ takesNow colS colS colN f mState ⟨.at 0x1000, .at 0x2000, .none⟩ = true ∧
      StoreReady [(0x2000, 8192), (0x1000, 512)] [] [] [] mState ∧ findSlot mCore 0x2000 = none ∧ (bank mCore.gather 0).st = .empty ∧
      findSlot mCore 0x4000 = some 1 ∧ mCore.mflight = [] ∧
      (let k : Core := { mCore with gather := Vector.replicate _ { filledSlot with tag := 5 } }
       findSlot k 0x2000 = none ∧ ∀ i, (bank k.gather i).st = .filling ∨ (bank k.gather i).st = .filled) ∧
      StoreReady [(0x1000, 512)] [] [] [] mState) ∧
    (let f := mf 0 0x20004000 0 0
     takesNow colN colS colN f mState ⟨.none, .at 0x4000, .none⟩ = true ∧ (∀ w ∈ mCore.mflight, w.slot ≠ some 1) ∧
      (∃ w ∈ [(⟨0, 0x10, 0, 0, none, false, false, true, some 1⟩ : MFlight)], w.slot = some 1)) ∧
    (let f := mf 0x20000400 0x20004000 0 0
     let t := steerOf 32 (mCore.csBytes 0x400 2048)
     Starts f false mState ∧ Starts f true mState ∧ takesNow colTS colS colN f mState ⟨.at 0x400, .at 0x4000, .none⟩ = true ∧
      steerAt (some 32) (.at 0x400) = some 0x400 ∧ steerAt none (.at 0x400) = some 0x400 ∧ (bank mCore.gather 1).st = .filled ∧
      mCore.mflight.countP (·.qstep) < 4 ∧ StoreReady [(0x400, 2048)] [] [0] [0] mState ∧
      slotBad filledSlot 32 false = false ∧ steerBad t 32 false = false ∧ steerBad (steerOf 32 (mCore.csBytes 0x2000 2048)) 32 false = true ∧
      StoreReady [(0x4000, 257)] [(0x400, 257)] [] [] mState) ∧
    (takesNow colTS colN colN (mf 0x20000400 0 0 0) mState ⟨.at 0x400, .none, .none⟩ = true ∧ StoreReady [(0x400, 2048)] [] [] [] mState) ∧
    (let f := mf 0x20002400 0x20004000 0 5
     let code : List Byte := mCore.csBytes 0x2400 (codeTileBytes 1)
     Starts f false mState ∧ takesNow colS colS colN f mState ⟨.at 0x2400, .at 0x4000, .none⟩ = true ∧
      StoreReady [(0x2400, codeTileBytes 1)] [(0x4000, 2048)] [] [] mState ∧ rangesMeet (0x2400, codeTileBytes 1) (0x4000, 2048) = false ∧
      pairAgrees 1 [code] = true) ∧
    (let t : List Byte := List.replicate (codeTileBytes 1) 0
     t.length = codeTileBytes 1 ∧ pairAgrees 1 [t] = true ∧ pairAgrees 1 [t, t] = true ∧ byteAt t (128 + 64) ≠ 0xFF ∧
      ∀ j, j < 32 → ∀ w ∈ bookOf 1 t j, w ≠ 0x7F ∧ w ≠ 0xFF) := by
  unfold Canonical CoreCanonical Starts StoreReady
  exact ⟨by decide +kernel, by decide +kernel, by decide +kernel, by decide +kernel, by decide +kernel, by decide +kernel, by decide +kernel⟩

/-- SteeredSums: one code tile and a pair, with rows of two lanes. -/
theorem meets_SteeredSums :
    ∀ h ∈ ([1, 2] : List Nat),
      let tiles : List (List Byte) := List.replicate h (List.replicate (codeTileBytes 1) 0)
      let rows : List (List Int) := (List.range (32 * h)).map fun r => [(r : Int) - 9, 3 * r]
      (tiles.length = 1 ∨ tiles.length = 2) ∧ (∀ t ∈ tiles, t.length = codeTileBytes 1) ∧ pairAgrees 1 tiles = true ∧
        rows.length = 32 * tiles.length ∧ ∀ r ∈ rows, r.length = 2 := by
  decide +kernel

/-! Save areas: the extent of 2 MiB pages at 0x200000, whose three pages lie at 0x400000 to 0x9FFFFF. -/

def saveExt : Extent := ⟨1, 0x200000, 0x600000, 2, 0x10, 8⟩

theorem save_extent (m : Mem) (im : List Image) (k : Core) (p : List PoolEntry) : extentLost (stateOn m im k p) 1 saveExt = false := by
  have h (pa : Nat) : lineLost (stateOn m im k p) pa = lineLost state0 pa := rfl
  have h' : lineLost (stateOn m im k p) = lineLost state0 := funext h
  have hp : (stateOn m im k p).poison = [] := rfl
  have hl : launchOf (stateOn m im k p) 1 = some launch1 := rfl
  have hb : backingOf (stateOn m im k p) saveExt.back = some backing2M := rfl
  simp only [extentLost, tableLost, suspectLines, h', hp, hl, hb]
  decide +kernel

theorem save_mem (m : Mem) (im : List Image) (k : Core) (p : List PoolEntry) (write : Bool) (pa : Nat) (hpa : pa < vaultBase) : memSite (stateOn m im k p) write pa = .mem pa := by
  have h1 : ungranted (stateOn m im k p) pa = false := by
    have : pa < hostBase := Nat.lt_of_lt_of_le hpa (by decide)
    simp [ungranted]; omega
  have h2 : columnFailed (stateOn m im k p) pa = false := by simp [columnFailed]; omega
  have h3 : columnBusy (stateOn m im k p) pa = false := by simp [columnBusy]; omega
  have h4 : svDataBlock (stateOn m im k p).sv pa = none := by
    have : (stateOn m im k p).sv.en = false := rfl
    simp [svDataBlock, this]
  simp [memSite, h1, h2, h3, h4]

theorem save_panels (m : Mem) (im : List Image) (k : Core) (p : List PoolEntry) (pa : Nat) : panelHolds (stateOn m im k p) pa = false := by
  have : (stateOn m im k p).panels = [] := rfl
  simp [panelHolds, this]

theorem save_site (m : Mem) (im : List Image) (k : Core) (p : List PoolEntry) (write : Bool) (a : Nat) (h : 0x200000 ≤ a) (h' : a < 0x800000) :
    extentSite (stateOn m im k p) 1 write a = .mem (a + 0x200000) := by
  have hx : extentAt (stateOn m im k p) 1 a = some saveExt := by
    have h1 : ¬(0x10000 ≤ a ∧ a < 0x10000 + 0x4000) := by omega
    have h2 : 0x200000 ≤ a ∧ a < 0x200000 + 0x600000 := by omega
    simp only [extentAt, launchOf, stateOn, launch1, List.find?]
    simp [h1, h2, saveExt]
  have hl := save_extent m im k p
  have hm : (a - saveExt.base) % pageSize saveExt.psz = (a - 0x200000) % 0x200000 := by simp [pageSize, saveExt]
  have hd : (a - saveExt.base) / pageSize saveExt.psz = (a - 0x200000) / 0x200000 := by simp [pageSize, saveExt]
  have hp (i : Nat) (hi : i < 3) : pageOf (stateOn m im k p) saveExt.back i = some (page (0x400000 + 0x200000 * i)) := by
    match i, hi with
    | 0, _ => rfl
    | 1, _ => rfl
    | 2, _ => rfl
  rw [extentSite_resident hx (by simp [saveExt]) hl (hp _ (by rw [hd]; omega)) rfl (save_panels m im k p _), hm, hd, save_mem m im k p write _ ?_]
  · exact congrArg Site.mem (show 0x400000 + 0x200000 * ((a - 0x200000) / 0x200000) + (a - 0x200000) % 0x200000 = a + 0x200000 by omega)
  · refine Nat.lt_of_lt_of_le (show _ < 0xA00000 from ?_) (by decide)
    show 0x400000 + 0x200000 * ((a - 0x200000) / 0x200000) + (a - 0x200000) % 0x200000 < 0xA00000
    omega

/-- The bytes of the save area from offset `o` on. -/
theorem save_sites (m : Mem) (im : List Image) (k : Core) (p : List PoolEntry) (write : Bool) (o n : Nat) (h : o + n ≤ 0x600000) :
    virtSites (stateOn m im k p) 1 false write false (0x200000 + BitVec.ofNat 64 o) n = (List.range n).map fun i => Site.mem (0x400000 + o + i) := by
  refine List.map_congr_left fun i hi => ?_
  have hi : i < n := List.mem_range.1 hi
  have hv : (0x200000 + BitVec.ofNat 64 o + w64 i).toNat = 0x200000 + o + i := by simp [w64]; omega
  have hc : canonical (0x200000 + BitVec.ofNat 64 o + w64 i) = true := by
    have : (0x200000 + BitVec.ofNat 64 o + w64 i).extractLsb' 55 9 = 0 := by
      apply BitVec.eq_of_toNat_eq
      rw [BitVec.extractLsb'_toNat, hv, Nat.shiftRight_eq_div_pow]
      simp; omega
    simpa [canonical] using Or.inl this
  simp only [virtSite, hc, hv, Bool.not_true, Bool.false_eq_true, if_false, if_pos (show 0x200000 + o + i < 2 ^ 55 by omega)]
  rw [save_site m im k p write _ (by omega) (by omega)]
  simp; omega

/-! Core tiles, copies, frames and stops. -/

/-- DenseProducts: a tile of 5 rows by 3 columns over 64, with and without transposition; indices of a gathered product that name rows and
none; an empty slot of the window. -/
theorem meets_DenseProducts :
    (Canonical mState ∧ Starts (mf 0x40000001 0x40000002 0 0) false mState) ∧
    (let f := mf 0x40000001 0x40000002 0 0
     let g : MFields := { mf 0x40000001 0x40000003 0x20005000 0 with trb := true, clr := true }
     let ax := td 64 5 0 0 4
     takesNow colT colTN colN f mState ⟨.tile ax, .tile (td 3 64 0 0 8), .none⟩ = true ∧
      takesNow colT colTN colS g mState ⟨.tile ax, .tile (td 64 3 0 0 8), .at 0x5000⟩ = true ∧
      denseB mCore .i8 false (.tile (td 3 64 0 0 8)) = some (⟨64, 3, false, 7⟩, [(0x2000, 192)]) ∧
      denseB mCore .i8 true (.tile (td 64 3 0 0 8)) = some (⟨64, 3, true, 7⟩, [(0x2000, 192)]) ∧
      (descOf ax).isData = true ∧ (descOf ax).ty = (VTy.code .i8).toNat ∧ (descOf ax).cols = 64 ∧ (descOf ax).rows ≤ 256 ∧
      StoreReady ([(descOf ax).range, (0x2000, 192), (0x5000, 1024)]) [] [0] [0] mState) ∧
    (let f := mf 0x20001000 0x40000002 0x20006000 0
     takesNow colS colTN colS f mState ⟨.at 0x1000, .tile (td 3 64 0 0 8), .at 0x6000⟩ = true ∧ (bank mCore.gather 0).st = .empty ∧
      StoreReady [(0x6000, 512)] [] [] [] mState ∧ StoreReady [(0x2000, 192), (0x1000, 64)] [] [0] [0] mState ∧
      ∀ m, m < 256 → memGet mCore.cs (0x6000 + 2 * m) = 0) := by
  unfold Canonical CoreCanonical Starts StoreReady
  decide +kernel

/-- TileMovesAndAccumulators: a B tile for the buffer, two tiles that transpose into each other, tiles and places of the accumulator words. -/
theorem meets_TileMovesAndAccumulators :
    Canonical mState ∧ Starts (mf 0 0 0 3) false mState ∧
    (let bx := td 3 64 0 0 8
     takesNow colN colT colN (mf 0 0x40000002 0 0) mState ⟨.none, .tile bx, .none⟩ = true ∧ bufferTy (descOf bx).ty = some .i8 ∧
      bTile mCore .i8 false bx = some (⟨64, 3, false, 7⟩, (0x2000, 192)) ∧ StoreReady [(0x2000, 192)] [] [] [] mState) ∧
    (let a := descOf (td 64 5 0 0 4)
     let b := descOf (td 5 64 0 0 12)
     takesNow colT colT colN (mf 0x40000001 0x40000004 0 0) mState ⟨.tile (td 64 5 0 0 4), .tile (td 5 64 0 0 12), .none⟩ = true ∧
      a.isData = true ∧ b.isData = true ∧ a.ty = b.ty ∧ typeBits a.ty = 8 ∧ b.rows = a.cols ∧ b.cols = a.rows ∧ regsMeet a b = false ∧
      StoreReady [a.range] [b.range] [] [] mState) ∧
    (takesNow colN colN colN (mf 0 0 0 3) mState ⟨.none, .none, .none⟩ = true ∧ StoreReady [] [] [1, 3] [1, 3] mState) ∧
    (takesNow colS colN colN (mf 0x20010000 0 0 3) mState ⟨.at 0x10000, .none, .none⟩ = true ∧
      StoreReady [(0x10000, 0x8000)] [] [] [1] mState ∧ StoreReady [] [(0x10000, 0x8000)] [1] [] mState) := by
  unfold Canonical CoreCanonical Starts StoreReady
  exact ⟨by decide +kernel, by decide +kernel, by decide +kernel, by decide +kernel, by decide +kernel, by decide +kernel⟩

/-- Epilogue: every format, with and without scales. -/
theorem meets_Epilogue :
    Canonical mState ∧
    ∀ e ∈ ([1, 2, 3, 4, 5, 6, 7, 8, 9] : List Nat),
      let two : Bool := decide (e = 2 ∨ e = 3 ∨ e = 8 ∨ e = 9)
      let f : MFields := { mf 0x20010000 0x20004000 (if two then 0x20006000 else 0) 1 with epi := BitVec.ofNat 5 e, acc := 1, rs := true, cs := true }
      Starts f false mState ∧ takesNow colS (epiCols f).1 (epiCols f).2 f mState ⟨.at 0x10000, .at 0x4000, if two then .at 0x6000 else .none⟩ = true ∧
        StoreReady [(0x4000, 1152), (0x6000, 256)] [(0x10000, 0x8000), (0x6000, 256)] [1] [] mState ∧
        rangesMeet (0x10000, 0x8000) (0x6000, 256) = false := by
  unfold Canonical CoreCanonical Starts StoreReady
  decide +kernel

/-- CompletionsAndReplies: a word with a signal, a reply and a slot, at a count that takes the signal and one that does not; a drain; accesses
of each kind between two others. -/
theorem meets_CompletionsAndReplies :
    (let w : MFlight := ⟨0x18, 0x10, 7, 3, some 99, false, false, true, some 1⟩
     let d : MFlight := ⟨0x30, 0x12, 7, 3, none, false, true, false, none⟩
     let k (n : Nat) : Core := { mCore with mflight := [w, d], sem := Vector.replicate _ (BitVec.ofNat 16 n) }
     (k 5).mflight = w :: [d] ∧ (bank (k 5).sem 7).toNat + w.sigInc.toNat ≤ 65535 ∧ 65535 < (bank (k 65533).sem 7).toNat + w.sigInc.toNat ∧
      w.sigInc ≠ 0 ∧ w.reply = some 99 ∧ d.reply = none ∧ d.drain = true ∧ w.drain = false ∧ (∀ x ∈ [d], x.slot ≠ some 1) ∧
      (∀ st ∈ ([.filling, .releasing] : List SlotState), ({ filledSlot with st := st } : GatherSlot).st = st)) ∧
    (∀ dest ∈ ([.store, .sreg 5 true, .amo 5] : List AccDest),
      let a : Access := ⟨4, 4, dest, 0xFF80000000001000, 0, 4, none, false, true, true, true, false⟩
      let x : Access := { a with id := 3, group := 3 }
      let y : Access := { a with id := 9, group := 9 }
      let k : Core := { core0 with out := [x, a, y] }
      k.out = [x] ++ a :: [y] ∧ (∀ z ∈ [x], z.id ≠ a.id) ∧ (∀ z ∈ [x] ++ [y], z.id ≠ a.id ∧ z.group ≠ a.group) ∧ a.got = none ∧
        a.dest = dest ∧ (a.strict && false) = false) := by
  decide +kernel

/-- CopyEvents: a command that waits for nothing, one that runs, from memory to the core store; an error in its source. -/
theorem meets_CopyEvents :
    let x : CopyCmd := ⟨.cp, 0x10040, 0xFFFFFF0000001000, 1, 100, 0, 0, false, 0, 3, 7, 0, 0, false⟩
    let s := stateWith { core0 with copyRun := [⟨x, 0, false, false⟩], sem := Vector.replicate _ 5 }
    ({ core0 with copyq := [x, x] }.copyq = x :: [x] ∧ x.wthr = 0) ∧
    (s.core.copyTrap = none ∧ s.core.copyRun = [⟨x, 0, false, false⟩] ∧ x.kind = .cp ∧ x.rows = 1 ∧ 1 ≤ x.len.toNat ∧ s.sv.en = false ∧
      s.core.out = [] ∧ Canonical s ∧ 0x1000 + x.len.toNat ≤ 0x200000 ∧
      Range.sites s true ⟨x.dst, x.len.toNat, x.dst⟩ = (List.range 100).map (fun i => Site.core 0 (0x1000 + i)) ∧
      Range.sites s false ⟨x.src, x.len.toNat, x.src⟩ = (List.range 100).map (fun i => Site.mem (0x100040 + i)) ∧
      0x100040 + x.len.toNat ≤ coreBase ∧
      (∀ i, i < 100 → s.sv.deadLines.contains ((0x100040 + i) / 64) = false ∧ s.poison.contains ((0x100040 + i) / 64) = false) ∧
      (bank s.core.sem x.ssem).toNat + x.sinc.toNat ≤ 65535) ∧
    (let s : State := { s with poison := [0x4001] }; s.poison.contains (0x100040 / 64) = true ∧ s.sv.deadLines.contains (0x100040 / 64) = false) := by
  unfold Canonical CoreCanonical
  exact ⟨by decide +kernel, by decide +kernel, by decide +kernel⟩

/-- Frames: a frame to fill, one to save into the save area at 0x200000, and one to load from there. -/
theorem meets_Frames :
    (let k : Core := { core0 with units := core0.units.setIfInBounds 2 .fill, cs := [(0x20005, 7)] }
     Canonical (stateWith k) ∧ k.units[2]? = some .fill) ∧
    (let h : HeldUnit := ⟨0, 5, 0, true, false, [(9, 7)], []⟩
     let s := stateWith { core0 with held := [h] }
     Canonical s ∧ poolEntry s 0 = some entry0 ∧ (∀ x ∈ s.core.held, x.owner = 0 → x.unit = 5 → x = h) ∧ h.owner = 0 ∧ h.unit = 5 ∧ h.saving = true ∧
      h.poison = [] ∧ Memory.wf h.data = true ∧ s.sv.en = false ∧
      virtSites s 1 false true false (bobbin0.save + BitVec.ofNat 64 (5 * 0x10000)) 0x10000 = (List.range 0x10000).map (fun i => Site.mem (0x450000 + i))) ∧
    (let k : Core := { core0 with claimed := some 0, units := core0.units.setIfInBounds 3 .load }
     let s := stateWith k
     Canonical s ∧ k.claimed = some 0 ∧ poolEntry s 0 = some entry0 ∧ k.units[3]? = some .load ∧
      virtSites s 1 false false false (bobbin0.save + BitVec.ofNat 64 (3 * 0x10000)) 0x10000 = (List.range 0x10000).map (fun i => Site.mem (0x430000 + i)) ∧
      ∀ pa, s.sv.deadLines.contains (pa / 64) = false ∧ s.poison.contains (pa / 64) = false) := by
  unfold Canonical CoreCanonical
  exact ⟨by decide +kernel,
    ⟨by decide +kernel, by decide +kernel, by decide +kernel, rfl, rfl, rfl, rfl, by decide +kernel, rfl, save_sites _ _ _ _ true 0x50000 0x10000 (by decide)⟩,
    ⟨by decide +kernel, rfl, by decide +kernel, by decide +kernel, save_sites _ _ _ _ false 0x30000 0x10000 (by decide), fun _ => ⟨rfl, rfl⟩⟩⟩


/-! An image at 0x4000 with a seam entry 9, the creation entry, and an A section at 0x100. -/

/-- `n` bytes of a number from address `a` on. -/
def numAt (a n v : Nat) : Mem := memFrom a n fun i => v / 256 ^ i

def imageBytes : Mem :=
  numAt 0x4010 4 0x100 ++ numAt 0x4014 4 0x40 ++ numAt 0x4030 4 0x80 ++ numAt 0x4034 4 2 ++ numAt 0x4080 4 8 ++ numAt 0x4084 4 0xFFFFFFFF ++
    numAt 0x4088 4 0xFFFFFFFF ++ numAt 0x408C 4 9 ++ numAt 0x4090 4 4 ++ numAt 0x4095 1 1 ++ numAt 0x409C 4 0xFFFFFFFF ++ numAt 0x40A0 4 0xFFFFFFFF ++
    numAt 0x40A4 4 0x3F0000 ++ numAt 0x4100 4 0xF8000001

def image0 : Image := ⟨0x4000, 0x1E0, 3⟩

/-- Memory with the image, and a pool. -/
abbrev imageState (k : Core) (p : List PoolEntry) : State := stateOn (imageBytes ++ fewBytes) [image0] k p

def stopCore : Core := { core0 with aseq := .atSeam 9, stop := some ⟨3, 4000000⟩ }

def stoppingEntry : PoolEntry := { entry0 with bob := { bobbin0 with state := .stopping } }

/-- StopCompletes: a strand that stands at seam 9. -/
theorem meets_StopCompletes :
    let s := imageState stopCore [stoppingEntry]
    ∃ seam, seamEntry s 0x4000 9 = some seam ∧
      (Canonical s ∧ s.core.slot = some 0 ∧ poolEntry s 0 = some stoppingEntry ∧ s.core.aseq = .atSeam 9 ∧ s.core.stop = some ⟨3, 4000000⟩ ∧
        s.core.inHandler = false ∧ s.core.vtrap = none ∧ s.core.mseq ≠ .brk ∧ s.core.mseq ≠ .faulted ∧ s.core.mflight = [] ∧
        copiesOver s.core = true ∧ accessesOver s = true ∧ s.core.units.toList.any (fun u => u == .fill) = false ∧
        (endFaults s).isNone = true ∧ queuesEmpty s.core = true ∧ s.sv.en = false ∧
        heldReads s (seamReads s stoppingEntry.bob.code.toNat) = [] ∧
        ∀ r ∈ seamReads s stoppingEntry.bob.code.toNat, lostLines s r.1 r.2 = []) ∧
      vAtMarker s.core 9 seam.v.isSome = true ∧ mAtMarker s.core 9 seam.m.isSome = true ∧
      virtSites s 1 false true false (bobbin0.save + 0x240000#64) 4096 = (List.range 4096).map (fun i => Site.mem (0x640000 + i)) := by
  unfold Canonical CoreCanonical
  refine ⟨_, (by rfl : _ = some ⟨8, none, none, 4, 0, 1⟩), by decide +kernel, by decide +kernel, by decide +kernel,
    save_sites _ _ _ _ true 0x240000 4096 (by decide)⟩

/-- What holds for every listed core holds for every core that is found. -/
theorem coreAt_all {s : State} {P : Nat → Core → Prop} (h : ∀ x ∈ allCores s, P x.1 x.2) (c : Nat) (k : Core) (hk : coreAt s c = some k) : P c k := by
  unfold coreAt at hk
  split at hk
  · rename_i e
    cases hk; subst e
    exact h _ (.head _)
  · obtain ⟨x, hx, rfl⟩ := Option.map_eq_some_iff.1 hk
    have := List.find?_some hx
    simp only [beq_iff_eq] at this
    exact this ▸ h x (.tail _ (List.mem_of_find?_eq_some hx))

/-- CoreEvents: a stop past its limit, none, a bobbin that watches, a WAIT.M at the program counter, a core that holds nothing else. -/
theorem meets_CoreEvents :
    (let s := stateOn fewBytes [] { core0 with stop := some ⟨3, 4000000⟩ } [stoppingEntry]
     s.core.slot = some 0 ∧ poolEntry s 0 = some stoppingEntry ∧ s.core.stop = some ⟨3, 4000000⟩ ∧ 4000000 ≤ s.time ∧ s.core.inHandler = false) ∧
    (state0.core.stop = none ∧ state0.core.exitDue = none) ∧
    (let e : PoolEntry := { entry0 with slot := 5, bob := { bobbin0 with state := .watch } }
     let s : State := { stateOn fewBytes [] core0 [entry0, e] with monitors := [⟨5, 0, [0x100040], true⟩] }
     poolEntry s 5 = some e ∧ e.bob.state = .watch ∧ ∃ m ∈ s.monitors, m.slot = e.slot ∧ m.written = true) ∧
    (let s := stateWith { core0 with pc := imgBase, secA := sectionOf [0xA9435002] }
     s.core.aseq = .running ∧ s.core.slot.isSome = true ∧ s.core.vtrap = none ∧ fetchA s.core = some 0xA9435002 ∧
       decodeA 0xA9435002 = .ok (.waitM 20 13 .b4)) ∧
    (∀ x ∈ ([((0x10040 : Word), (⟨[0x11, 0x82, 0, 0], List.replicate 4 false⟩ : Seen)), (0x12040, ⟨[0, 0, 0, 0], List.replicate 4 true⟩)] :
        List (Word × Seen)),
      let s := stateWith { coreWith [(13, x.1), (20, 5)] with pc := imgBase, secA := sectionOf [0xA9435002] }
      let sites := strandSites s false false x.1 4
      fetchA s.core = some 0xA9435002 ∧ Issues s [13, 20] [] ∧ x.1.toNat % 4 = 0 ∧ watchHit s x.1 = false ∧ peerOf sites = none ∧
        localWaits s false false x.1 sites = false ∧ readSites .load sites s = .ok x.2 s ∧ (getS s 13) = x.1) ∧
    (state0.core.slot = some 0 ∧ poolEntry state0 0 = some entry0 ∧ state0.core.held = [] ∧ state0.core.claimed = none) := by
  refine ⟨by decide +kernel, by decide +kernel, by decide +kernel, by decide +kernel, by decide +kernel, by decide +kernel⟩

/-- A READY bobbin of slot `n`: its level, its place, the core that holds its frames. -/
def readyAt (n : Nat) (pri : BitVec 7) (place : Nat) (hold : BitVec 8) : PoolEntry :=
  { entry0 with slot := n, place := place, since := 100, bob := { bobbin0 with state := .ready, pri := pri, hold := hold } }

def idleCore : Core := Core.reset 0

/-- An idle core whose instruction stores hold the image. -/
def holding : Core := { idleCore with imgSize := 0x1E0, codeBase := 0x4000, codeGen := 3 }

/-- A core that waits at a level. -/
def waitingCore (n : Nat) (pri : BitVec 7) : Core := { core0 with slot := some n, selPri := pri, wait := some (.waitM, 100 + n) }

/-- Three cores and a pool, with the image resident. -/
def threeCores (k0 k1 k2 : Core) (p : List PoolEntry) : State := { imageState k0 p with parked := [(1, k1), (2, k2)] }

/-- What the rule of R280 asks of the bobbin: READY, of the highest level, at the front of it, with no bobbin in a reserved state. -/
abbrev FrontBobbin (s : State) (e : PoolEntry) : Prop :=
  e ∈ s.pool ∧ poolEntry s e.slot = some e ∧ e.bob.state = .ready ∧ (∀ x ∈ s.pool, x.place < 2 ^ 64) ∧
    (∀ x ∈ s.pool, x.bob.state.isReserved = false) ∧ unclaimed s = none ∧
    (∀ x ∈ s.pool, x.bob.state = .ready → x = e ∨ x.bob.pri < e.bob.pri ∨ (x.bob.pri = e.bob.pri ∧ e.place < x.place))

/-- DistributionAndPostedStops: a reserved state with and without its launch; a front bobbin with no core idle, with the core that holds its
frames idle, with one that holds the image, and with neither. -/
theorem meets_Distribution :
    (let r : PoolEntry := { entry0 with slot := 4, bob := { bobbin0 with state := .reserved 1 } }
     let s := stateOn fewBytes [] core0 [entry0, r]
     s.pool.find? (fun x => x.bob.state.isReserved) = some r ∧ poolEntry s 4 = some r ∧ (∃ l ∈ s.launches, l.q = r.bob.qid) ∧
       ∀ l ∈ ({ s with launches := [] } : State).launches, l.q ≠ r.bob.qid) ∧
    (let e := readyAt 3 6 9 0xFF
     let s := threeCores core0 (waitingCore 1 3) (waitingCore 2 3) [entry0, e]
     FrontBobbin s e ∧ ∀ c ∈ allCores s, c.2.isIdle = false) ∧
    (let e := readyAt 3 6 9 2
     let s := threeCores core0 idleCore holding [entry0, e, readyAt 4 6 11 0xFF]
     FrontBobbin s e ∧ coreAt s 2 = some holding ∧ holding.isIdle = true ∧ 2 = e.bob.hold.toNat ∧
       (s.parked.map (·.1)).Nodup ∧ s.cur ∉ s.parked.map (·.1)) ∧
    (let e := readyAt 3 6 9 0xFF
     let s := threeCores core0 idleCore holding [entry0, e]
     FrontBobbin s e ∧ coreAt s 2 = some holding ∧ coreAt s e.bob.hold.toNat = none ∧ imageAt s e.bob.code.toNat = some image0 ∧
       holding.holdsImage e.bob.code image0.gen = true ∧
       ∀ c' k', coreAt s c' = some k' → k'.isIdle = true → k'.holdsImage e.bob.code image0.gen = true → 2 ≤ c') ∧
    (let e := readyAt 3 6 9 0xFF
     let s := threeCores core0 idleCore idleCore [entry0, e]
     FrontBobbin s e ∧ coreAt s 1 = some idleCore ∧
       (∀ c' k', coreAt s c' = some k' → k'.isIdle = true → k'.holdsImage e.bob.code image0.gen = false) ∧
       ∀ c' k', coreAt s c' = some k' → k'.isIdle = true → 1 ≤ c') :=
  ⟨by decide +kernel, by decide +kernel, by decide +kernel,
    ⟨by decide +kernel, by decide +kernel, by decide +kernel, by decide +kernel, by decide +kernel,
      coreAt_all (P := fun c' k' => k'.isIdle = true → k'.holdsImage _ image0.gen = true → 2 ≤ c') (by decide +kernel)⟩,
    ⟨by decide +kernel, by decide +kernel,
      coreAt_all (P := fun _ k' => k'.isIdle = true → k'.holdsImage _ image0.gen = false) (by decide +kernel),
      coreAt_all (P := fun c' k' => k'.isIdle = true → 1 ≤ c') (by decide +kernel)⟩⟩

/-- The strand that a stop for a bobbin of level `p` names (R281): of the lowest level below it, on the lowest-numbered core. -/
abbrev Lowest (s : State) (p c : Nat) (k : Core) : Prop :=
  ∀ x ∈ allCores s, x.2.slot.isSome = true → x.2.stop = none → x.2.selPri.toNat < p →
    k.selPri < x.2.selPri ∨ (k.selPri = x.2.selPri ∧ c ≤ x.1)

/-- Three cores that all wait, and a READY bobbin. -/
def allBusy (p : BitVec 7) (t : Nat) : State :=
  { threeCores (waitingCore 0 5) (waitingCore 1 3) (waitingCore 2 3) [entry0, readyAt 1 3 1 0, readyAt 2 3 1 0, readyAt 3 p 9 0xFF] with
    time := t }

/-- DistributionAndPostedStops: three busy cores and a bobbin that is EXPRESS, that starves, that is early, that waits behind a WAIT.M of its own
level. -/
theorem meets_PostedStops :
    (∀ p ∈ ([127, 6, 5] : List (BitVec 7)), readyAt 3 p 9 0xFF ∈ (allBusy p 5000000).pool ∧ poolEntry (allBusy p 5000000) 3 = some (readyAt 3 p 9 0xFF) ∧
      (∀ c ∈ allCores (allBusy p 5000000), c.1 < 256 ∧ c.2.isIdle = false) ∧ ((allBusy p 5000000).parked.map (·.1)).Nodup ∧
        (allBusy p 5000000).cur ∉ (allBusy p 5000000).parked.map (·.1)) ∧
    (coreAt (allBusy 6 0) 1 = some (waitingCore 1 3) ∧ Lowest (allBusy 6 0) 127 1 (waitingCore 1 3) ∧ Lowest (allBusy 6 0) 6 1 (waitingCore 1 3)) ∧
    ((∀ x ∈ (allBusy 127 5000000).pool, x.bob.state = .ready → x.bob.pri = 127 → x = readyAt 3 127 9 0xFF) ∧
      stopPending (allBusy 127 5000000) none = false) ∧
    ((readyAt 3 6 9 0xFF).since + 1000 * (allBusy 6 5000000).starv.toNat ≤ (allBusy 6 5000000).time ∧
      (allBusy 6 100).time < (readyAt 3 6 9 0xFF).since + 1000 * (allBusy 6 100).starv.toNat) ∧
    ((longestWait (allBusy 5 5000000) 5).isSome = true) ∧
    ((allBusy 6 0).cur = 0 ∧ (allBusy 6 0).core.slot = some 0 ∧ (allBusy 6 0).core.stop = none ∧ (allBusy 6 0).core.mseq ≠ .faulted) := by
  exact ⟨by decide +kernel, by decide +kernel, by decide +kernel, by decide +kernel, by decide +kernel, by decide +kernel⟩

/-- A bobbin before its first binding, and one that stopped at seam 9. -/
def selectedEntry : PoolEntry := { entry0 with bob := { bobbin0 with state := .selected, hold := 0, index := 77, arg := 88 } }

def resumedEntry : PoolEntry := { selectedEntry with bob := { selectedEntry.bob with cause := 3, nstop := 1, seam := 9 }, saved := 0 }

def claimedCore : Core := { idleCore with claimed := some 0, units := Vector.replicate _ .none }

/-- Binding: no image, no seam, no save area, an extent whose table is lost, a first binding, and a later one with its control page. -/
theorem meets_Binding :
    (∀ e ∈ ([selectedEntry, resumedEntry] : List PoolEntry), let s := imageState claimedCore [e]
     Canonical s ∧ s.core.claimed = some e.slot ∧ poolEntry s e.slot = some e ∧ (∀ k ∈ allCores s, ∀ h ∈ k.2.held, h.owner ≠ e.slot) ∧
       imageAt s e.bob.code.toNat = some image0 ∧ (seamEntry s e.bob.code.toNat e.bob.seam).isSome = true ∧
       saveExtent s e = some ⟨1, 0x200000, 0x600000, 2, 0x10, 8⟩ ∧ extentLost s e.launch ⟨1, 0x200000, 0x600000, 2, 0x10, 8⟩ = false ∧
       pagesOutside s ⟨1, 0x200000, 0x600000, 2, 0x10, 8⟩ e.bob.save.toNat 0x241000 = [] ∧
       heldReads s (seamReads s e.bob.code.toNat) = [] ∧ (∀ r ∈ seamReads s e.bob.code.toNat, lostLines s r.1 r.2 = []) ∧
       heldUp s false image0.code image0.size = [] ∧ lostLines s image0.code image0.size = []) ∧
    (let e : PoolEntry := { selectedEntry with bob := { selectedEntry.bob with seam := 5 } }
     imageAt (stateOn fewBytes [] claimedCore [e]) 0x4000 = none ∧ seamEntry (imageState claimedCore [e]) 0x4000 5 = none) ∧
    (let e : PoolEntry := { selectedEntry with bob := { selectedEntry.bob with save := 0x10000 } }
     saveExtent (imageState claimedCore [e]) e = none) ∧
    (let s : State := { imageState claimedCore [selectedEntry] with poison := [0x901000 / 64, (0x901000 + copyStep) / 64] }
     (∃ x, saveExtent s selectedEntry = some x ∧ extentLost s 1 x = true)) ∧
    (selectedEntry.bob.cause = 0 ∧ selectedEntry.bob.nstop = 0 ∧ (resumedEntry.bob.cause ≠ 0 ∨ resumedEntry.bob.nstop ≠ 0) ∧
      resumedEntry.saved = 0) ∧
    (let s := imageState claimedCore [resumedEntry]
     virtSites s 1 false false false (resumedEntry.bob.save + 0x240000#64) 4096 = (List.range 4096).map (fun i => Site.mem (0x640000 + i)) ∧
       s.sv.deadLines = [] ∧ s.poison = []) := by
  unfold Canonical CoreCanonical
  exact ⟨by decide +kernel, by decide +kernel, by decide +kernel, by decide +kernel, by decide +kernel,
    save_sites _ _ _ _ false 0x240000 4096 (by decide), by decide +kernel⟩

/-- What holds of every listed element holds of every one that is found. -/
theorem found_all {α : Type} {l : List α} {P : Nat → α → Prop} (h : ∀ x ∈ l.zipIdx, P x.2 x.1) (i : Nat) (x : α) (hx : l[i]? = some x) : P i x := by
  have : (x, i) ∈ l.zipIdx := by
    rw [List.mem_zipIdx_iff_getElem?]
    exact hx
  exact h _ this

/-- No byte is lost where no line is poisoned or dead and no column has failed. -/
theorem noLost {s : State} (hp : s.poison = []) (hd : s.sv.deadLines = []) (hv : s.vcol = State.reset.vcol) (a : Nat) : lostByte s a = false := by
  have low : ∀ k : Fin 8, (0x0000C6318C631800#64).getLsbD k = false := by decide
  simp [lostByte, columnFailed, bank, hp, hd, hv, State.reset]
  exact fun _ _ => low ⟨vaultColumn a % 8, Nat.mod_lt _ (by decide)⟩

/-- A page that an access waits for. -/
def wantedPage (host : Bool) : Page := { page 0x101000 with res := false, host := host, wanted := some 4 }

/-- The first backing with a page that an access waits for, and nothing else. -/
def stateWanting (host : Bool) (fn : BitVec 6) : State :=
  { state0 with backings := [{ backing4K with fn := fn, pages := [page 0x100000, wantedPage host] }] }

/-- An enabled event ring of 64 entries, from head 2 to tail 5. -/
def eventRing : EvRing := ⟨0x1000, true, false, 2, 5, 2⟩

/-- MemoryEvents: a requested page that was never written; core links with spares; an address whose error the host is told of, or not. -/
theorem meets_MemoryEvents :
    Canonical (stateWanting false 0) ∧ Canonical state0 ∧
    (let b : Backing := { backing4K with pages := [page 0x100000, wantedPage false] }
     (stateWanting false 0).backings = [b] ∧ b.pages[1]? = some (wantedPage false) ∧ (wantedPage false).host = false ∧
       (∀ j q, b.pages[j]? = some q → q.wanted = none ∨ j = 1) ∧ (stateWanting false 0).sv.en = false) ∧
    (lanesUsed state0 200 < 96 ∧ (24 : BitVec 5) ≤ 24 ∧ blockAtPlace state0 0x100040 = none ∧ state0.evring.en = false ∧
      state0.poison.contains (0x100040 / 64) = false) ∧
    (eventRing.en = true ∧ (eventRing.tail - eventRing.head).toNat ≠ 2 ^ (eventRing.sz.toNat + 4)) := by
  unfold Canonical CoreCanonical
  exact ⟨by decide +kernel, by decide +kernel,
    ⟨by decide +kernel, by decide +kernel, by decide +kernel,
      found_all (P := fun j (q : Page) => q.wanted = none ∨ j = 1) (by decide +kernel), by decide +kernel⟩, by decide +kernel, by decide +kernel⟩

/-- A mailbox request: the command and its operands. -/
def request (l : List Nat) : BitVec 512 := BitVec.ofNat 512 (l.reverse.foldl (fun v x => v * 2 ^ 64 + x) 0)

/-- A function's request first in line; handle 7 has a resident page, a pinned one and one that is not resident; 8 is protected. -/
def asking (fn : BitVec 6) (l : List Nat) : State :=
  { state0 with
    mailboxes := bankSet state0.mailboxes fn ⟨request l, 0, true, 0, 0⟩
    mbOrder := [fn, 9]
    launches := []
    pool := []
    backings := [{ backing4K with handle := true, pages := [page 0x100000, { page 0x101000 with pin := true }, { page 0x102000 with res := false }] },
      { backing2M with handle := true, prot := true }] }

/-- The request at the head of the line, with its operands. -/
abbrev Asked (s : State) (fn : BitVec 6) (l : List Nat) : Prop :=
  s.mbOrder.head? = some fn ∧ ∀ x ∈ l.zipIdx, (bank s.mailboxes fn).req.toNat / 2 ^ (64 * x.2) % 2 ^ 64 = x.1

/-- Every table range taken. -/
def tablesFull (s : State) : State :=
  { s with backings := s.backings ++ tableRanges.zipIdx.map fun r => { backing4K with id := 20 + r.2, list := r.1.1, room := (r.1.2 - r.1.1) / 8, pages := [] } }

/-- MailboxCommands: ALLOC with room, without frames, without a table; FREE of a handle that a launch names, and one that none names. -/
theorem meets_AllocAndFree :
    (let s := asking 0 [1, 0x1001, 0, 0, 0]
     Canonical s ∧ Asked s 0 [1, 0x1001, 0, 0, 0] ∧
       ∃ place, tableRoom s 16 = some place ∧ place ≠ 0 ∧ (growBacking s ⟨s.nextId, place, 2, 0, true, 0, false, false, []⟩ 0 2).isSome = true) ∧
    (let s := asking 0 [1, 2 ^ 40, 4, 1, 0]
     Asked s 0 [1, 2 ^ 40, 4, 1, 0] ∧
       ∃ place, tableRoom s 8192 = some place ∧ growBacking s ⟨s.nextId, place, 1024, 0, true, 4, true, false, []⟩ 0 1024 = none) ∧
    (let s := tablesFull (asking 0 [1, 0x1001, 0, 0, 0]); Asked s 0 [1, 0x1001, 0, 0, 0] ∧ tableRoom s 16 = none) ∧
    (let s := asking 0 [2, 7]
     Asked s 0 [2, 7] ∧ (s.backings.find? fun b => b.handle && b.id == 7).isSome = true ∧ s.launches = [] ∧
       (∃ l ∈ ({ s with launches := [launch1] } : State).launches, launchNames s 7 l = true)) := by
  unfold Canonical CoreCanonical
  exact ⟨⟨by decide +kernel, by decide +kernel, _, rfl, by decide +kernel, by decide +kernel⟩,
    ⟨by decide +kernel, _, rfl, by decide +kernel⟩, by decide +kernel, by decide +kernel⟩

/-- MailboxCommands: BACK, EVICT, FETCH and QUERY of pages that are resident, pinned, not resident and protected. -/
theorem meets_PageCommands :
    (let s := asking 0 [3, 7, 0, 0x1000]
     Asked s 0 [3, 7, 0, 0x1000] ∧ (s.backings.find? fun b => b.id == 7) = s.backings[0]? ∧ keptOffHost s 7 = false ∧ 0x1000 % 0x1000 = 0 ∧
       0x1000 + 0x1000 ≤ hostEnd - hostBase ∧ s.retrain = []) ∧
    (let l := { launch1 with exts := [⟨0, 0x10000, 0x4000, 0, 0x14, 7⟩] }
     let s := { asking 0 [3, 7, 0, 0x1000] with launches := [l] }
     Asked s 0 [3, 7, 0, 0x1000] ∧ ∃ e ∈ l.exts, e.back = 7 ∧ attrProt e.attr = true) ∧
    (let l := { launch1 with stage := .waiting, desc := { launchDesc with n := 1, bind := 0x3000 } }
     let s := { asking 0 [3, 7, 0, 0x1000] with
       mem := numAt 0x3018 8 7 ++ numAt 0x4038 4 0x80 ++ numAt 0x403C 4 1 ++ numAt 0x4082 1 4, queues := [{ WorkQueue.reset 3 with front := some l }] }
     Canonical s ∧ Asked s 0 [3, 7, 0, 0x1000] ∧ l ∈ s.launches ++ s.queues.filterMap (·.front) ∧ l.stage = .waiting ∧ l.desc.n ≠ 0 ∧
       ∃ x ∈ extPlans s l.desc, x.handle = 7 ∧ attrProt x.attr = true) ∧
    Asked (asking 0 [3, 8, 0, 0x200000]) 0 [3, 8, 0, 0x200000] ∧
    (∀ i ∈ ([0, 1, 2] : List Nat), let s := asking 0 [4, 7, i, 0x1000]
     Asked s 0 [4, 7, i, 0x1000] ∧ (pageOf s 7 i).isSome = true ∧ lostLines s 0x100000 0x1000 = [] ∧ s.sv.en = false ∧ s.retrain = []) ∧
    ((pageOf (asking 0 []) 7 0 = some (page 0x100000)) ∧ (page 0x100000).pa + 0x1000 ≤ hostBase ∧ (pageOf (asking 0 []) 7 1).any (·.pin) = true ∧
      (pageOf (asking 0 []) 7 2).any (fun p => !p.pin && !p.res) = true) ∧
    (let s := asking 0 [5, 7, 2, 0x1000]
     Asked s 0 [5, 7, 2, 0x1000] ∧ (List.replicate 4096 (0x55 : Byte)).length = pageSize 0 ∧ (pageOf s 7 2).any (fun p => p.own + 0x1000 ≤ hostBase) = true) ∧
    Asked (asking 0 [6, 7, 1]) 0 [6, 7, 1] ∧ ∀ a, lostByte (asking 0 []) a = false := by
  unfold Canonical CoreCanonical
  refine ⟨by decide +kernel, by decide +kernel, by decide +kernel, by decide +kernel, by decide +kernel, by decide +kernel, by decide +kernel,
    by decide +kernel, fun a => ?_⟩
  exact noLost rfl rfl rfl a

/-- MailboxCommands: what only the PF may ask, asked by function 5; GRANT; QUEUE of a queue that is enabled, and one that is not; ATTEST; KVCLEAR. -/
theorem meets_OwnerCommands :
    (∀ l ∈ ([[7], [8], [10, 4], [10, 5]] : List (List Nat)), Asked (asking 5 l) 5 l) ∧
    (let s := asking 0 [7, 0x1000, 0x2000, 3, 1]
     Asked s 0 [7, 0x1000, 0x2000, 3, 1] ∧ takesGranted s 0x1000 0x2000 3 = false) ∧
    (let s := asking 0 [8, 3, 2, 100]
     Asked s 0 [8, 3, 2, 100] ∧ (queueAt s 3).en = false ∧
       (queueAt { s with queues := [{ WorkQueue.reset 3 with en := true }] } 3).en = true) ∧
    (Asked (asking 0 [9, 1, 2, 3, 4, 0x1000]) 0 [9, 1, 2, 3, 4, 0x1000] ∧ 0x1000 + 744 ≤ hostEnd - hostBase ∧
      (asking 0 []).boot.rmlen ≤ 0x200000) ∧
    Asked (asking 0 [10, 63]) 0 [10, 63] :=
  ⟨by decide +kernel, by decide +kernel, by decide +kernel, by decide +kernel, by decide +kernel⟩

/-- A queue of function 2 with one descriptor in its ring. -/
def hostQueue : WorkQueue := { WorkQueue.reset 3 with fn := 2, en := true, tail := 5, head := 4, ring := 0x500000 }

/-- QueueAndEventRings: another function's queue and one's own; PM set and clear; the Miller running and not; a launch at the head; a ring with
no page to tell, and with one. -/
theorem meets_QueueAndEventRings :
    (let s (w : WorkQueue) : State := { state0 with queues := [w] }
     (queueAt (s hostQueue) 3).fn ≠ 5 ∧ (queueAt (s hostQueue) 3).fn = 2 ∧ (queueAt (s hostQueue) 3).pm = false ∧
       (queueAt (s { hostQueue with pm := true }) 3).pm = true ∧ state0.miller.run = false ∧
       ({ Miller.reset with run := true } : Miller).run = true ∧ (0x301 : Word).getLsbD 2 = false ∧
       (queueAt (s { hostQueue with en := false }) 3).en = false ∧
       (queueAt (s { hostQueue with front := some launch1 }) 3).front = some launch1) ∧
    (state0.evring.en = false ∧
      (let s : State := { stateWanting true 3 with evring := eventRing }
       let b : Backing := { backing4K with fn := 3, pages := [page 0x100000, wantedPage true] }
       (∀ b ∈ ({ state0 with evring := eventRing } : State).backings, ∀ p ∈ b.pages, p.wanted = none ∨ p.host = false ∨ p.told = true) ∧
         s.evring.en = true ∧ (s.evring.tail - 4).toNat + 1 < 2 ^ (s.evring.sz.toNat + 4) ∧ s.backings = [b] ∧
         b.pages[1]? = some (wantedPage true) ∧ (wantedPage true).host = true ∧ (wantedPage true).told = false ∧
         (∀ j q, b.pages[j]? = some q → j ≠ 1 → q.wanted = none) ∧ Canonical s)) := by
  unfold Canonical CoreCanonical
  exact ⟨by decide +kernel, by decide +kernel, by decide +kernel, by decide +kernel, by decide +kernel, by decide +kernel, by decide +kernel,
    by decide +kernel, by decide +kernel, found_all (P := fun j (q : Page) => j ≠ 1 → q.wanted = none) (by decide +kernel), by decide +kernel⟩

def grant0 : Grant := ⟨0x100000, 0x10000, 0, true⟩

/-- The only queue, with the Miller running, and a memory. -/
def queued (w : WorkQueue) (m : Mem) : State :=
  { state0 with
    miller := { Miller.reset with run := true }
    queues := [w]
    launches := []
    pool := []
    mem := m
    grants := [grant0] }

/-- A queue with one entry at 0x500200. -/
def workQueue : WorkQueue := { WorkQueue.reset 3 with en := true, tail := 5, head := 4, ring := 0x500000 }

def emptyDesc : LaunchDesc := { launchDesc with code := 0, n := 0, save := 0, crec := 0x100000 }

/-- A launch at the head of queue 3. -/
def headLaunch (st : Stage) (d : LaunchDesc) : Launch := { launch1 with id := 55, q := 3, stage := st, desc := d }

/-- Dispatching: a descriptor with a completion record that is granted, and one that is not; an empty queue; a launch that passes its checks, and
one that fails; one whose conditions hold, and one whose do not, before and after the queue waits; one that creates bobbins. -/
theorem meets_Dispatching :
    (∀ m ∈ ([numAt 0x500230 8 0x100000, numAt 0x500230 8 0x300000] : List Mem),
      let s := queued workQueue m
      s.queues = [workQueue] ∧ s.miller.run = true ∧ s.pool = [] ∧ s.launches = [] ∧ s.poison = [] ∧ workQueue.en = true ∧ workQueue.err = false ∧
        workQueue.front = none ∧ workQueue.head ≠ workQueue.tail ∧ (∀ i, i < 128 → lostByte s (0x500200 + i) = false) ∧ heldUp s false 0x500200 128 = []) ∧
    (let s := queued workQueue (numAt 0x500230 8 0x100000)
     let d := descriptorOf (memBytes 128 0x500200 s.mem)
     d.crec.toNat % 64 = 0 ∧ granted s 0 true d.crec.toNat 64 = true) ∧
    (let s := queued workQueue (numAt 0x500230 8 0x300000)
     granted s 0 true (descriptorOf (memBytes 128 0x500200 s.mem)).crec.toNat 64 = false) ∧
    ({ workQueue with tail := 4 }.head = { workQueue with tail := 4 }.tail) ∧
    (let l := headLaunch .check emptyDesc
     let s := queued { workQueue with front := some l } []
     l.stage = .check ∧ heldReads s (checkReads s l.desc) = [] ∧ (∀ r ∈ checkReads s l.desc, lostLines s r.1 r.2 = []) ∧
       checkLaunch (queued { workQueue with front := some l } []) 0 l.desc = 0 ∧
       checkLaunch (queued { workQueue with front := some l } []) 0 { l.desc with flags := 0x8000 } ≠ 0) ∧
    (let l := headLaunch .waiting emptyDesc
     let s := queued { workQueue with front := some l } []
     let no : SemOp := ⟨0x100000, 1, true, 5, false⟩
     l.stage = .waiting ∧ heldReads s (semReads l.desc) = [] ∧ (∀ r ∈ semReads l.desc, lostLines s r.1 r.2 = []) ∧ semHolds s l.desc.wait0 = true ∧ semHolds s l.desc.wait1 = true ∧ semHolds s no = false ∧
       { workQueue with waiting := true }.waiting = true) ∧
    (let l : Launch := { headLaunch .create { launchDesc with n := 3, save := 0x200000 } with created := 1 }
     l.stage = .create ∧ l.created < l.desc.n.toNat ∧ l.desc.n.toNat ≤ l.created + 255 ∧ (queued { workQueue with en := false } []).pool.length + 256 ≤ 262144) := by
  exact ⟨by decide +kernel, by decide +kernel, by decide +kernel, by decide +kernel, by decide +kernel, by decide +kernel, by decide +kernel⟩

/-- Dispatching: a launch with a bobbin in the pool, and a complete one. -/
theorem meets_LaunchCompletion :
    let l : Launch := { launch1 with created := 0, desc := { launchDesc with n := 0, crec := 0x100000, sig0 := ⟨0x100080, 2, true, 0x1234, false⟩ } }
    let s : State := { queued workQueue [] with launches := [l] }
    (s.launches = [l] ∧ l.stage = .running ∧ l.status = 0 ∧ l.created = l.desc.n.toNat ∧ Canonical s) ∧
    (s.pool = [] ∧ s.sv.en = false ∧ s.retrain = [] ∧ s.panels = [] ∧ l.desc.sig0.op = 2 ∧ l.desc.sig0.w64 = true ∧ l.desc.sig1.op = 0 ∧ l.desc.on = 0 ∧
      granted s l.fn true l.desc.sig0.addr 8 = true ∧ l.desc.crec.toNat + 64 ≤ l.desc.sig0.addr) ∧
    (let s : State := { s with pool := [entry0] }
     (∃ e ∈ s.pool, e.launch = l.id ∧ e.bob.state ≠ .done ∧ e.bob.state ≠ .lost) ∧ ∀ e ∈ s.pool, e.bob.state ≠ .done ∧ e.bob.state ≠ .lost) := by
  unfold Canonical CoreCanonical
  decide +kernel

/-- HostAccess: a reserved address, memory to read and to write, the staging window open and closed, registers and their guards. -/
theorem meets_HostAccess :
    (Canonical state0 ∧ state0.hostWait = [] ∧ isReserved 0x40000000000 = true ∧ state0.sv.en = false ∧ state0.poison = [] ∧ state0.sv.deadLines = [] ∧
      (∀ a, lostByte state0 a = false) ∧
      (∀ w ∈ [true, false], physSites state0 .part w false 0x100040 3 = (List.range 3).map (fun i => Site.mem (0x100040 + i))) ∧
      0x100040 + 3 ≤ vaultBase) ∧
    (let s : State := { state0 with miller := { Miller.reset with run := true } }
     (state0.boot.busy || state0.miller.run) = false ∧ (s.boot.busy || s.miller.run) = true) ∧
    (poolEntry state0 0 = some entry0 ∧ entry0.slot < 262144) ∧
    ((queueAt state0 3).fn ≠ 5 ∧ (bank state0.mailboxes 5).busy = false ∧ (1 : Word).getLsbD 0 = true ∧ state0.blocksLock = false ∧
      { state0 with blocksLock := true }.blocksLock = true) := by
  unfold Canonical CoreCanonical
  refine ⟨⟨by decide +kernel, by decide +kernel, by decide +kernel, by decide +kernel, by decide +kernel, by decide +kernel, fun a => noLost rfl rfl rfl a,
    by decide +kernel, by decide +kernel⟩, by decide +kernel, by decide +kernel, by decide +kernel⟩

/-- MillerAndClocks: its own memory, mc.ipend, a device address that a filter admits and one that none does, a reserved one that one admits. -/
theorem meets_MillerAndClocks :
    (let mi (hi : Word) : Miller := { Miller.reset with run := true, flt := bankSet Miller.reset.flt 2#3 ⟨hi, 0x100000, 3⟩ }
     let s (hi : Word) : State := { state0 with miller := mi hi }
     Canonical (s 0) ∧ Memory.wf (s 0).miller.tcm = true ∧ (s 0).miller.waiting = [] ∧ state0.miller.run = false ∧ (s 0).miller.run = true ∧
       (∃ k : BitVec 3, (bank (s 0x1FFFFF).miller.flt k).perm = 3 ∧ (bank (s 0x1FFFFF).miller.flt k).base.toNat ≤ 0x100040 ∧
         0x100040 + 8 ≤ (bank (s 0x1FFFFF).miller.flt k).limit.toNat + 1) ∧
       (∀ k : BitVec 3, ¬((bank (s 0x1FFFFF).miller.flt k).base.toNat ≤ 0x300000 ∧ 0x300000 + 8 ≤ (bank (s 0x1FFFFF).miller.flt k).limit.toNat + 1)) ∧
       physSites (s 0x1FFFFF) .part false false 0x100040 8 = (List.range 8).map (fun i => Site.mem (0x100040 + i)) ∧
       ((bank (s (BitVec.allOnes 64)).miller.flt 2).perm = 3 ∧ 0x40000000000 + 8 ≤ (bank (s (BitVec.allOnes 64)).miller.flt 2).limit.toNat + 1 ∧
         isReserved 0x40000000000 = true)) ∧
    (let p := State.reset.power
     (500 < p.mx.fnow ∧ (p.plim ≤ p.plim) ∧ ({ p with plim := 5 } : Power).plim < 6) ∧ ({ p.mx with power := 500 } : LayerClock).power ≤ 500 ∧ p.emergency = false ∧ hottest State.reset .vx ≤ 1680 ∧ p.pnow ≤ p.plim ∧
       ({ p with emergency := true } : Power).emergency = true ∧
       (∃ z, 1600 ≤ hottest { State.reset with power := { p with vault := { p.vault with hot := 1700 } } } z)) := by
  unfold Canonical CoreCanonical
  exact ⟨by decide +kernel, by decide +kernel, by decide +kernel, by decide +kernel, by decide +kernel, by decide +kernel, by decide +kernel, .vault, by decide +kernel⟩

/-- BootAndResets: the sequence running and not, before and after the first one, a queue of a function that is empty. -/
theorem meets_BootAndResets :
    Canonical state0 ∧ (state0.boot.busy || state0.miller.run) = false ∧
    (let s : State := { state0 with boot := { state0.boot with busy := true, cold := true, imglen := 0x1000 } }
     (s.boot.busy || s.miller.run) = true ∧ s.boot.imglen ≤ 0x200000 ∧ s.boot.cold = true ∧ s.boot.hv = false ∧
       ({ s.boot with hv := true } : Boot).hv = true) ∧
    (let s : State := { state0 with queues := [{ workQueue with tail := 4 }, { WorkQueue.reset 7 with fn := 2 }] }
     (∀ w ∈ s.queues, w.fn = 0 → w.front = none ∧ w.head = w.tail) ∧ (s.queues.map (·.q)).Nodup ∧ (∃ w ∈ s.queues, w.fn ≠ 0) ∧
       ∀ l ∈ s.launches, l.fn ≠ 5) := by
  unfold Canonical CoreCanonical
  exact ⟨by decide +kernel, by decide +kernel, by decide +kernel, by decide +kernel⟩

/-- A work request: its operation, source or buffer address 0x10040 of 8 bytes, key, counter 4. -/
def workRequest (op : Nat) (addr : Nat) (key : Nat) : WReq :=
  let at_ (off v : Nat) : BitVec 512 := BitVec.ofNat 512 (v * 256 ^ off)
  ⟨at_ 0 op ||| at_ 2 2 ||| at_ 8 addr ||| at_ 16 8 ||| at_ 20 0x80000004 ||| at_ 32 key, 1, 0⟩

def netEndpoint : Endpoint := ⟨2, true, 0, 5, 0x700000, 0, [], []⟩

/-- Endpoint 2 with its queues, a counter, and the requests in flight. -/
def stateNet (e : Endpoint) (fl : List NetReq) : State :=
  { state0 with
    net := { State.reset.net with eps := [e], cnts := [(4, 5)], flight := fl, up0 := true }
    mem := fewBytes ++ numAt 0x700040 8 0x1234 }

/-- NetRequests: each request at the head of an endpoint that is on, and off; a source in memory, and at an invalid block position; keys that
are exposed, and not, and 256 of them. -/
theorem meets_NetRequests :
    (∀ op ∈ ([1, 2] : List Nat), let s := stateNet { netEndpoint with sendq := [workRequest op 0x10040 7] } []
     let w := wqeOf (workRequest op 0x10040 7).raw
     (epAt s 2).sendq = [workRequest op 0x10040 7] ∧ (epAt s 2).en = true ∧ w.op = op ∧ w.len = 8 ∧ w.len ≤ 4096 ∧
       s.poison = [] ∧ s.sv.deadLines = [] ∧ (∀ i, i < 32 → lostByte s (0x700040 + i) = false) ∧ heldUp s false 0x700040 32 = [] ∧
       virtSites s 1 false false false w.laddr w.len = (List.range w.len).map (fun i => Site.mem (0x100040 + i))) ∧
    (epAt (stateNet { netEndpoint with en := false, sendq := [workRequest 1 0x10040 7] } []) 2).en = false ∧
    (let s : State := { stateNet { netEndpoint with sendq := [workRequest 1 0xFFFFFD0000000000 7] } [] with
       blockSlots := [⟨0, 0, 1⟩], blockNames := [⟨0, 5, 0⟩] }
     (match virtSites s 1 false false false (wqeOf (workRequest 1 0xFFFFFD0000000000 7).raw).laddr 8 with | .block _ _ _ :: _ => true | _ => false) = true) ∧
    (∀ op ∈ ([3, 4, 5] : List Nat), let s := stateNet { netEndpoint with recvq := [workRequest op 0x10040 7] } []
     (epAt s 2).recvq = [workRequest op 0x10040 7] ∧ (wqeOf (workRequest op 0x10040 7).raw).op = op ∧ s.net.exposes = []) ∧
    (let b (k : Nat) : NetBuf := ⟨2, 1, 0x10040, 8, BitVec.ofNat 32 k, 0, 0, 0⟩
     (∃ x ∈ [b 7], x.ep = 2 ∧ x.key = 7) ∧
       256 ≤ (((List.range 256).map fun k => b (8 + k)).filter fun x => !(x.ep == 2 && x.key == 7)).length) := by
  exact ⟨by decide +kernel, by decide +kernel, by decide +kernel, by decide +kernel, by decide +kernel⟩

/-- A message of one packet of four bytes. -/
def packet4 (write ordered : Bool) : Packet := ⟨2, 5, 3, 3, 0, 4, write, ordered, 0x55, 7, 8, 0x80000004, [1, 2, 3, 4]⟩

/-- NetPlacing: a packet out of its turn; one that is placed already; a SEND with no fitting RECV, and with one; a WRITE without its key, outside
the region, and in it. -/
theorem meets_NetPlacing :
    (let p : Packet := { packet4 false true with oldest := 1 }
     p.ordered = true ∧ p.oldest ≤ 1 ∧ 1 < p.msg ∧ (stateNet netEndpoint []).net.rx = []) ∧
    (∀ write ∈ [true, false], ∀ ordered ∈ [true, false], let s := stateNet netEndpoint []
     let p := packet4 write ordered
     (epAt s p.ep).en = true ∧ p.index = 0 ∧ p.len ≤ 4096 ∧ p.bytes.length = p.len ∧ (p.ordered = false ∨ p.msg ≤ p.oldest) ∧
       s.sv.after = [] ∧ s.sv.pending = [] ∧ s.sv.en = false ∧ Canonical s ∧ s.net.rx = [] ∧ s.net.recvs = [] ∧ s.net.exposes = []) ∧
    (let p := packet4 false false
     let r : NetRx := ⟨2, 5, false, 3, 4, ⟨2, 1, 0x10040, 8, 0, 0, 0, 0⟩, [0], true⟩
     r.ep = p.ep ∧ r.peer = p.peer ∧ r.ordered = p.ordered ∧ r.msg = p.msg ∧ 0 ∈ r.placed) ∧
    (let p := packet4 false false
     let fits (b : NetBuf) : Bool := decide (b.ep = p.ep ∧ ((b.tag ^^^ p.tag) &&& ~~~b.ign) = 0 ∧ p.len ≤ b.len)
     fits ⟨2, 1, 0x10040, 2, 0, 0x55, 0, 0⟩ = false ∧ fits ⟨2, 1, 0x10040, 8, 0, 0x54, 1, 0x80000004⟩ = true ∧
       virtSites (stateNet netEndpoint []) 1 false true false 0x10040 4 = (List.range 4).map (fun i => Site.mem (0x100040 + i))) ∧
    (let p := packet4 true false
     let b (n : Nat) : NetBuf := ⟨2, 1, 0x10038, n, 7, 0, 0, 0⟩
     (b 16).ep = p.ep ∧ (b 16).key = p.rkey ∧ (b 11).len < p.raddr.toNat + p.len ∧ p.raddr.toNat + p.len ≤ (b 16).len ∧
       cntNamed p.tcnt = some 4 ∧ cntFn (cntAt (stateNet netEndpoint []) 4) = (epAt (stateNet netEndpoint []) 2).fn) := by
  unfold Canonical CoreCanonical
  exact ⟨by decide +kernel, by decide +kernel, by decide +kernel, by decide +kernel, by decide +kernel⟩

/-- A request of one packet in flight. -/
def inFlight (id : Nat) (p : PacketSt) (retries : Nat) (refused : Option Nat) : NetReq := ⟨id, 2, workRequest 1 0x10040 0, [p], retries, refused⟩

/-- A packet that left at a time: its retransmissions, the later packets acknowledged without it. -/
def packetAt (tries missed sent : Nat) : PacketSt := ⟨0, tries, false, missed, sent, true⟩

/-- NetDelivery: requests early and late, with retries left and without, refused and not; two requests of one connection; a port that has not
been retrained for 100 ms. -/
theorem meets_NetDelivery :
    (let r := inFlight 50 (packetAt 0 0 4000000) 0 none
     let s := stateNet netEndpoint [r]
     let w := wqeOf r.req.raw
     s.net.flight = [r] ∧ r.packets = [packetAt 0 0 4000000] ∧ (packetAt 0 0 4000000).sentAt + 50000 ≤ s.time ∧
       portOpen s.net w.port = true ∧ w.len ≤ 4096 ∧
       virtSites s 1 false false false w.laddr w.len = (List.range w.len).map (fun i => Site.mem (0x100040 + i)) ∧
       s.poison = [] ∧ s.sv.deadLines = [] ∧ (∀ i, i < 32 → lostByte s (0x700040 + i) = false) ∧ heldUp s false 0x700040 32 = []) ∧
    ((packetAt 8 0 4000000).tries = 8 ∧ state0.time < (packetAt 0 0 4999999).sentAt + 50000 ∧ 64 ≤ (inFlight 50 (packetAt 0 0 1) 64 none).retries ∧
      (inFlight 50 (packetAt 0 0 1) 3 (some 4000000)).refused = some 4000000 ∧ 4000000 + 10000 ≤ state0.time ∧ state0.time < 4999999 + 10000) ∧
    (let r := inFlight 50 (packetAt 0 1 4999999) 0 none
     let r2 := inFlight 60 (packetAt 0 0 4999999) 0 none
     let s := stateNet netEndpoint [r, r2]
     s.net.flight = [r, r2] ∧ r.id < r2.id ∧ r2.ep = r.ep ∧ (packetAt 0 1 4999999).missed = 1 ∧ portOpen s.net (wqeOf r.req.raw).port = true) ∧
    (let s : State := { state0 with miller := { Miller.reset with run := true, linkResets := [(10, 0)] }, time := 100000000 }
     s.miller.run = true ∧ ∀ r ∈ s.miller.linkResets, r.1 = 10 → r.2 + 100000000 ≤ s.time) := by
  exact ⟨by decide +kernel, by decide +kernel, by decide +kernel, by decide +kernel⟩

/-- A fabric unit whose links are up or down, changed by `f`. -/
def fabricState (up : Bool) (f : Fabric → Fabric) : State :=
  { state0 with fab := f { State.reset.fab with port := Vector.replicate _ ⟨0, 3, up⟩ } }

/-- A stripe to part 9: what it carries, when it last left. -/
def stripe9 (b : Body) (t : Nat) : StripeOut := ⟨true, 9, 4, 0, 2, 1, b, List.replicate 192 7, 192, t, false, none, none⟩

/-- A permutation in pf.relab.PERM, and what is none. -/
def goodPerm : Word := 0x0123456789

/-- FabricLinks: ports that there are; the Miller running, locked out, and late; a permutation and none; a management stripe to the part that
returns; a stripe held, with a link that makes a path and none, before and after the end of its hold. -/
theorem meets_FabricLinks :
    (let s := fabricState false id
     s.fab.port[3]? = some ⟨0, 3, false⟩ ∧ s.fab.heldAt = [] ∧ s.fab.heldAnswers = [] ∧ s.fab.sends = [] ∧ s.fab.stripes = [] ∧ s.miller.run = false ∧
       ({ Miller.reset with run := true, linkResets := [(3, 4999999)] } : Miller).linkResets = [(3, 4999999)] ∧ s.time < 4999999 + 100000000 ∧
       ({ Miller.reset with lock := true } : Miller).lock = true ∧
       (∀ i, i < 10 → i ∈ (List.range 10).map fun i => (goodPerm.extractLsb' (4 * i) 4).toNat) ∧
       (∃ i, i < 10 ∧ i ∉ (List.range 10).map fun i => ((goodPerm ^^^ 1).extractLsb' (4 * i) 4).toNat)) ∧
    (let f : Fabric := { (fabricState true id).fab with subst := bankSet (fabricState true id).fab.subst 3 ⟨true, 5, 70⟩ }
     ownLabel f = ownLabel (fabricState true id).fab ∧ servingPart f 5 ≠ servingPart (fabricState true id).fab 5 ∧
       (let st := { stripe9 .mgmt 4000000 with dst := 5 }
        (fabricState true fun f => { f with stripes := [st] }).fab.stripes = [st] ∧ st.left = true ∧ isParity st.body = false) ∧
       (∀ l : BitVec 10, servingPart { f with subst := bankSet f.subst 3 ⟨false, 5, 70⟩ } l.toNat = servingPart (fabricState true id).fab l.toNat)) ∧
    (let s := fabricState true fun f => { f with stripes := [{ stripe9 .mgmt 4000000 with dst := 5 }] }
     s.fab.heldAt = [] ∧ s.fab.heldAnswers = [] ∧ s.fab.rx = [] ∧ s.fab.sends = [] ∧ s.sv.pending = [] ∧ s.sv.en = false ∧
       s.fab.former = [] ∧ servedLabel s.fab 5 = some 5 ∧
       servedLabel { s.fab with subst := bankSet s.fab.subst 3 ⟨true, 5, 70⟩ } 5 = none ∧
       servedLabel { s.fab with subst := bankSet s.fab.subst 3 ⟨true, 5, 70⟩ } 70 = some 5) ∧
    (let load : Body := .unit 0 false 1 0 (.load true) 0x1000 4 0
     let up : ParityUpd := ⟨false, 48, 0, [1]⟩
     ∀ b ∈ [Body.mgmt, load, .parity up], let st : StripeOut := { stripe9 b 100 with left := false, acc := some (0, 4) }
     let s := fabricState false fun f => { f with stripes := [st], heldAt := [(9, 4, 100)] }
     let open_ (d : Nat) : Fabric := { s.fab with port := s.fab.port.setIfInBounds d ⟨0, 3, true⟩ }
     s.fab.stripes = [st] ∧ s.fab.heldAt = [(st.dst, st.seq, 100)] ∧ Reaches (open_ 3) st ∧ ¬Reaches (open_ 6) st ∧
       s.time < 100 + 1000000 * s.sv.hold.toNat ∧ 100 + 1000000 * s.sv.hold.toNat ≤ ({ s with time := 20000000 } : State).time) := by
  exact ⟨by decide +kernel, by decide +kernel, by decide +kernel, by decide +kernel⟩

/-- ErasureCode: two fragments of a stripe of 300 bytes, one of them a combination. -/
theorem meets_ErasureCode :
    (2 ∈ ([1, 2, 4, 8] : List Nat)) ∧ 4 ≤ 4 ∧ (List.replicate 300 (7 : Byte)).length ≤ 192 * 2 ∧ [1, 5].length = 2 ∧ [1, 5].Nodup ∧ ∀ i ∈ [1, 5], i < 2 + 4 := by
  decide +kernel

/-- Fragment 2 of stripe 40 of part 9: a unit of job 7 at 0x100040. -/
def unitFragment (kind : UnitKind) (count : BitVec 32) (job : BitVec 16) (len n : Nat) : Fragment :=
  ⟨9, 40, 1, 1, 2, 2, n, .unit 2 false count 0 kind 0x100040 len job, List.replicate 192 1⟩

/-- A target whose export entry 4 admits job 7, and whose stream from part 9 has come to count 5. -/
def targetState (f : Fabric → Fabric) : State :=
  fabricState true fun g => f { g with
    exps := bankSet g.exps 4 ⟨0x100000, 0x10FFFF, true, true, false, 1, 7⟩
    ins := [⟨9, 2, false, 5, [], [], []⟩] }

/-- The target as it stands. -/
def target : State := targetState id

/-- RemoteUnits: a unit that is allowed and one that is not, in its turn and ahead of it; a stripe decoded before, full buffers; a
release after a lost unit. -/
theorem meets_RemoteUnits :
    (let fr := unitFragment (.load true) 5 7 4 4
     fr.body = .unit 2 false 5 0 (.load true) 0x100040 4 7 ∧ fr.k = 1 ∧ fr.index < 5 ∧ fr.bytes.length = 192 ∧ fr.len ≤ 192 ∧
       (fr.bytes.take fr.len).length = 4) ∧
    (AnswerLeaves target.fab 9 ∧ (decodedOf target.fab 9 40).isNone = true ∧ target.fab.bufs = [] ∧
      buffersUsed target.fab < 512 ∧ target.fab.ins = [⟨9, 2, false, 5, [], [], []⟩] ∧ target.sv.en = false ∧ target.sv.pending = [] ∧
      target.poison = [] ∧ target.sv.deadLines = [] ∧ 0x100040 + 4 ≤ hostBase) ∧
    (∀ w ∈ [true, false], (exportFor target w 0x100040 4 7).isSome = true ∧ (exportFor target w 0x100040 4 8).isSome = false) ∧
    Canonical target ∧
    (∀ w ∈ [true, false], ∀ a ∈ [true, false], physSites target (.job 7) w a 0x100040 4 = (List.range 4).map (fun i => Site.mem (0x100040 + i))) ∧
    (unitCounts (.load true) = false ∧ unitCounts (.store false) = true ∧ unitCounts (.amo .add .b4 0 false) = true) ∧
    (decodedOf (targetState fun f => { f with decoded := [⟨9, 40, some (.performed .done)⟩] }).fab 9 40 = some ⟨9, 40, some (.performed .done)⟩ ∧
      decodedOf (targetState fun f => { f with decoded := [⟨9, 40, none⟩] }).fab 9 40 = some ⟨9, 40, none⟩) ∧
    (512 ≤ buffersUsed { target.fab with bufs := List.replicate 512 ⟨1, 0, 1, 1, 0, .mgmt, [], 0, false⟩ }) ∧
    ((3 : BitVec 32).toNat < (5 : BitVec 32).toNat ∧
       exportFor { target with fab := { target.fab with ins := [⟨9, 2, false, 5, [3], [], []⟩] } } true 0x100040 4 7 =
         some ⟨0x100000, 0x10FFFF, true, true, false, 1, 7⟩) := by
  unfold Canonical CoreCanonical
  exact ⟨by decide +kernel, by decide +kernel, by decide +kernel, by decide +kernel, by decide +kernel, by decide +kernel, by decide +kernel,
    by decide +kernel, by decide +kernel⟩

/-- A decode buffer that lacks a fragment. -/
def shortBuffer (asked : Bool) (t : Nat) : DecodeBuf := ⟨9, 40, 1, 2, 300, .mgmt, [(0, [])], t, asked⟩

/-- The only stripe of a part whose links are up. -/
def recovering (st : StripeOut) : State := fabricState true fun f => { f with stripes := [st] }

/-- A unit in a stripe, for access 4 of core 0. -/
def unitStripe (kind : UnitKind) (t : Nat) : StripeOut := { stripe9 (.unit 0 false 1 0 kind 0x1000 4 0) t with acc := some (0, 4) }

/-- StripeRecovery: stripes of each body, early and late, sent once and twice; buffers early and late; a stream that a notice brings on. -/
theorem meets_StripeRecovery :
    (∀ st ∈ ([stripe9 .mgmt 4000000, stripe9 (.block false 3 4) 4000000, unitStripe (.load true) 4000000, unitStripe (.store false) 4000000] :
        List StripeOut),
      (recovering st).fab.stripes = [st] ∧ (recovering st).fab.heldAt = [] ∧ (recovering st).fab.sends = [] ∧ (recovering st).fab.former = [] ∧
        st.left = true ∧
        Reaches (recovering st).fab st ∧ AnswerLeaves (recovering st).fab st.dst ∧ isParity st.body = false ∧
        st.sentAt + 1500 * (bank (recovering st).fab.rate st.cls).tmo.toNat ≤ (recovering st).time) ∧
    ((recovering (stripe9 .mgmt 0)).time < (stripe9 .mgmt 4999999).sentAt + 1500 * (bank (recovering (stripe9 .mgmt 0)).fab.rate 0).tmo.toNat ∧
      { stripe9 .mgmt 4000000 with resent := true }.resent = true) ∧
    (let s := fabricState true fun f => { f with bufs := [shortBuffer false 4000000], ins := [⟨9, 2, false, 5, [], [], []⟩], notices := [(9, 3, .msg 8)] }
     s.fab.bufs = [shortBuffer false 4000000] ∧ s.fab.ins = [⟨9, 2, false, 5, [], [], []⟩] ∧ AnswerLeaves s.fab 9 ∧
       (shortBuffer false 4000000).frags.length < 2 ∧ (shortBuffer true 4000000).asked = true ∧
       4000000 + 2 * (500 * (bank s.fab.rate 1).tmo.toNat) ≤ s.time ∧ s.time < 4999999 + 500 * (bank s.fab.rate 1).tmo.toNat ∧
       s.fab.notices.contains (9, 3, .msg 8) = true ∧ s.fab.notices.contains (9, 4, .msg 8) = false) ∧
    (∀ up ∈ [true, false], ∀ resent ∈ [true, false],
      let st := { stripe9 .mgmt 4000000 with resent := resent }
      let s := fabricState up fun f => { f with former := [(9, st)] }
      s.fab.stripes = [] ∧ s.fab.heldAt = [] ∧ s.fab.sends = [] ∧ s.fab.former = [(9, st)] ∧ st.resent = resent ∧
        ((partPaths s.fab 9).length ≠ 0 ↔ up = true)) := by
  exact ⟨by decide +kernel, by decide +kernel, by decide +kernel, by decide +kernel⟩

/-- A message of 8 bytes to mailbox 5 of part 9, with its record at 0x10080. -/
def message (piece refusals : Nat) (refusedAt : Option Nat) : MsgSend := ⟨50, 0x10040, 8, 9, 5, 3, 0x10080, 1, 0, piece, [], refusals, refusedAt, none⟩

/-- The only message of a part, and its stripes. -/
def messaging (up : Bool) (m : MsgSend) (l : List StripeOut) : State := fabricState up fun f => { f with sends := [m], stripes := l }

/-- The stripe of the message. -/
def messageStripe (resent : Bool) : StripeOut :=
  { stripe9 (.msg 50 5 8 0 0) 4000000 with seq := 3, cls := 3, msg := some 50, resent := resent }

/-- MessageSending: a message that has not left, one that has, one refused a while ago and one just now; its stripe in flight, answered, lost. -/
theorem meets_MessageSending :
    (let s := messaging true (message 0 0 none) []
     (message 0 0 none).ended = none ∧ 8 ≤ 192 * 2 ^ (bank s.fab.rate 3).k.toNat ∧
       virtSites s 1 false false false 0x10040 8 = (List.range 8).map (fun i => Site.mem (0x100040 + i)) ∧ s.poison = [] ∧ s.sv.deadLines = [] ∧
       s.fab.stripes = [] ∧ Reaches s.fab (messageStripe false)) ∧
    ¬Reaches (messaging false (message 0 0 none) []).fab (messageStripe false) ∧
    ((message 768 0 none).piece ≠ 0 ∧ (message 768 3 (some 4000000)).refusedAt = some 4000000 ∧ 4000000 + 10000 ≤ state0.time ∧
      state0.time < 4999999 + 10000) ∧
    (∀ resent ∈ [true, false], let s := messaging true (message 768 0 none) [messageStripe resent]
      s.fab.sends = [message 768 0 none] ∧ s.fab.stripes = [messageStripe resent] ∧ s.core.slot = some 0 ∧ s.parked = [] ∧
        (message 768 0 none).acked = [] ∧ s.fab.former = [] ∧ s.sv.en = false ∧ s.core.ndur = none ∧ s.fab.heldAt = [] ∧
        4000000 + 1500 * (bank s.fab.rate 3).tmo.toNat ≤ s.time) ∧
    (let s := messaging true (message 768 0 none) [messageStripe true]
     Canonical s ∧ strandSites s true false (0x10080 + 24) 8 = (List.range 8).map (fun i => Site.mem (0x100098 + i))) ∧
    ((message 768 0 none).refusals < 63 ∧ 63 ≤ (message 768 63 none).refusals) := by
  unfold Canonical CoreCanonical
  exact ⟨by decide +kernel, by decide +kernel, by decide +kernel, by decide +kernel, by decide +kernel, by decide +kernel⟩

/-- A receive record of mailbox 66 with room for `cap` bytes. -/
def receive (cap : Nat) : MsgRecv := ⟨66, 0x10040, cap, 0x10080, 1⟩

/-- A fragment that holds a message of 4 bytes to mailbox 66. -/
def messageFragment (job : BitVec 16) : Fragment := ⟨9, 40, 1, 1, 2, 2, 4, .msg 3 66 4 0 job, List.replicate 192 1⟩

/-- A part whose links are up, with receive records. -/
def receiving (l : List MsgRecv) : State := fabricState true fun f => { f with recvs := l }

/-- MessageArrival: no record, a record that is long enough, one that is short, another job; the management registers idle and busy, the ring's
next entry free and not. -/
theorem meets_MessageArrival :
    (let fr := messageFragment 0
     fr.body = .msg 3 66 4 0 0 ∧ fr.k = 1 ∧ fr.index < 5 ∧ fr.bytes.length = 192 ∧ fr.len = 4) ∧
    (let s := receiving [{ receive 9 with mbox := 1 }, receive 9, receive 2]
     (decodedOf s.fab 9 40).isNone = true ∧ AnswerLeaves s.fab 9 ∧ s.fab.bufs = [] ∧ s.fab.rx = [] ∧
       buffersUsed s.fab < 512 ∧ s.sv.en = false ∧ s.sv.pending = [] ∧ (receive 9).mbox = 66 ∧ (receive 2).cap < 4 ∧ 4 ≤ (receive 9).cap ∧
       bank s.fab.fjob ((66 : BitVec 12).extractLsb' 6 6) = 0) ∧
    (∀ r ∈ (receiving [{ receive 9 with mbox := 1 }]).fab.recvs, r.mbox ≠ 66) ∧
    (let s := receiving [receive 9]
     Canonical s ∧ virtSites s 1 false true false (0x10080 + 24) 8 = (List.range 8).map (fun i => Site.mem (0x100098 + i)) ∧
       virtSites s 1 false true false 0x10040 4 = (List.range 4).map (fun i => Site.mem (0x100040 + i)) ∧ 0x100040 + 4 ≤ 0x100098) ∧
    (let s := receiving []
     Memory.wf s.miller.tcm = true ∧ s.fab.mctl.getLsbD 62 = false ∧ ((1 : Word) <<< 62).getLsbD 62 = true ∧ (0x8000000000000009 : Word).getLsbD 63 = true ∧
       (9 : Word).getLsbD 63 = false ∧ s.fab.stripes = [] ∧ memGet s.miller.tcm 255 = 0 ∧ memGet [(255, (1 : Byte))] 255 ≠ 0) := by
  unfold Canonical CoreCanonical
  exact ⟨by decide +kernel, by decide +kernel, by decide +kernel, by decide +kernel, by decide +kernel⟩

/-- A member of a group with eight stripes from 0x100000 on. -/
def member0 : Selvedge := { State.reset.sv with en := true, enabled := 0xFF, base0 := 0x100000, n0 := 8, base1 := 0, n1 := 0, state := .normal }

/-- The part as that member, its links up. -/
def svState (f : Selvedge → Selvedge) : State := { fabricState true id with sv := f member0 }

def update (b off : Nat) : ParityUpd := ⟨false, b, off, [1, 2, 3]⟩

/-- An update in flight to a member, for a strand or its copy unit. -/
def updateOut (dst : BitVec 10) (w : Option Writer) : ParityOut := ⟨dst, 6, update 48 0, 3, w, 0x10040, false⟩

/-- ParityUpdates: a write to data of this member; an update in the range and outside, new and known; one that its holder answers, for a strand, a
copy unit and a peer, and one without an answer. -/
theorem meets_ParityUpdates :
    (let s := svState id
     Canonical s ∧ s.sv.en = true ∧ s.hostWait = [] ∧ svDataBlock s.sv 0x100040 = some (false, 0, 0x40) ∧ 0x100040 % 128 + 3 ≤ 128 ∧
       physSites s .part true false 0x100040 3 = (List.range 3).map (fun i => Site.mem (0x100040 + i)) ∧ s.fab.stripes = [] ∧
       (∀ m ∈ ([1, 2] : List (BitVec 10)), Reaches s.fab { stripe9 .mgmt 0 with dst := m })) ∧
    (let s := svState id
     AnswerLeaves s.fab 5 ∧ s.sv.applied.contains (5, 6) = false ∧
       ((svState fun v => { v with applied := [(5, 6)] }).sv.applied.contains (5, 6)) = true ∧
       ((update 48 0).block < 8 * s.sv.n0.toNat ∧ (update 48 0).off + 3 ≤ 4096) ∧ 8 * s.sv.n0.toNat ≤ (update 64 0).block ∧
       4096 < (update 48 4094).off + (update 48 4094).bytes.length) ∧
    (∀ w ∈ ([none, some ⟨0, false⟩, some ⟨0, true⟩] : List (Option Writer)), let s := svState fun v => { v with pending := [updateOut 5 w] }
     s.sv.pending = [updateOut 5 w] ∧ (updateOut 5 w).unkept = false ∧ s.sv.asked = [] ∧ s.fab.stripes = [] ∧ s.fab.former = [] ∧ s.fab.heldAt = [] ∧ s.sv.after = [] ∧ s.core.slot = some 0 ∧
       s.parked = [] ∧ s.core.ndur = none ∧ s.core.copyTrap = none) ∧
    (let s := svState fun v => { v with pending := [updateOut 5 none], after := [([3], .unitReply 9 7 .done)] }
     s.sv.after = [([(updateOut 5 none).group], .unitReply 9 7 .done)] ∧ AnswerLeaves s.fab 9) ∧
    (let st := stripe9 (.parity (update 48 0)) 4000000
     let s := recovering st
     s.fab.stripes = [st] ∧ s.fab.heldAt = [] ∧ st.left = true ∧ Reaches s.fab st ∧
       st.sentAt + 1500 * (bank s.fab.rate st.cls).tmo.toNat ≤ s.time ∧ s.time < 4999999 + 1500 * (bank s.fab.rate st.cls).tmo.toNat) := by
  unfold Canonical CoreCanonical
  exact ⟨by decide +kernel, by decide +kernel, by decide +kernel, by decide +kernel, by decide +kernel⟩

/-- ProtectionGroup: no event ring and nothing in flight; a group that is off, with a member lost and with an update to it; a stripe that is free,
frozen, and pending; registers that fit and do not, with and without frames of a PROTECTED extent. -/
theorem meets_ProtectionGroup :
    (let s := svState id
     s.evring.en = false ∧ s.sv.after = [] ∧ s.sv.asked = [] ∧ s.fab.stripes = [] ∧ s.fab.heldAt = [] ∧ s.fab.heldAnswers = [] ∧ s.fab.sends = [] ∧
       s.fab.former = [] ∧ s.sv.reads = [] ∧
       s.sv.pending = [] ∧ (∃ l, servedLabel s.fab 2 = some l ∧ l.toNat / 8 = ownLabel s.fab / 8) ∧ s.sv.lost.getLsbD 2 = false ∧ 2 ≠ ownLabel s.fab % 8 ∧
       ({ s.sv with lost := 4 } : Selvedge).lost.getLsbD 2 = true ∧ state0.sv.en = false) ∧
    (let s : State := { svState fun v => { v with pending := [updateOut 2 none], cut := [(2, 0)] } with time := 20000 }
     s.sv.pending = [updateOut 2 none] ∧ (updateOut 2 none).unkept = false ∧
     (∃ c ∈ s.sv.cut, c.1 = 2 ∧ c.2 + 20000 ≤ s.time) ∧ (∀ c ∈ s.sv.cut, ¬(c.1 = 2 ∧ c.2 + 20000 ≤ 19999)) ∧ (updateOut 2 none).writer = none ∧ (updateOut 2 none).dst.toNat % 8 = 2) ∧
    (let s := svState id
     s.sv.frozen.contains (false, 1) = false ∧ s.sv.pending = [] ∧ Reaches s.fab { stripe9 (.frozen false 1) 0 with dst := 1 } ∧
       ({ s.sv with frozen := [(false, 1)] } : Selvedge).frozen = [(false, 1)] ∧ s.sv.freed.contains (1, false, 1) = false ∧
       (s.sv.freed.filter fun x => x.1 == 1).length + 1 ≠ 6 * (s.sv.n0.toNat + s.sv.n1.toNat) ∧
       (let freed : List (BitVec 10 × Bool × Nat) := (List.range 47).map fun i => (1, true, i)
        (freed.filter fun x => x.1 == 1).length + 1 = 6 * (s.sv.n0.toNat + s.sv.n1.toNat) ∧ freed.contains (1, false, 1) = false) ∧ (∃ j, (updateOut 2 none).stripe s.sv = (false, j))) ∧
    (let s := svState fun v => { v with frozen := [(false, (svStripe (svMember (svState id).fab) 0).1)] }
     s.sv.en = true ∧ s.sv.rebuild = false ∧ ungranted s 0x100040 = false ∧ columnFailed s 0x100040 = false ∧ columnBusy s 0x100040 = false ∧
       svDataBlock s.sv 0x100040 = some (false, 0, 0x40) ∧ s.sv.frozen.contains (false, (svStripe (svMember s.fab) 0).1) = true) ∧
    (let r : Selvedge := { member0 with en := false, base1 := 0xC000000000, n1 := 4 }
     (r.n0 ≠ 0 ∨ r.n1 ≠ 0) ∧ r.base0.toNat + 32768 * r.n0.toNat ≤ vaultBase ∧ vaultBase ≤ r.base1.toNat ∧
       r.base1.toNat + 32768 * r.n1.toNat ≤ vaultEnd ∧ State.reset.sv.n0 = 0 ∧ State.reset.sv.n1 = 0) ∧
    ((∀ b ∈ (svState id).backings, b.prot = false) ∧ (∀ l ∈ (svState id).launches, ∀ e ∈ l.exts, attrProt e.attr = false) ∧
      { backing4K with prot := true }.prot = true ∧ backing4K.pages ≠ []) := by
  exact ⟨⟨by decide +kernel, by decide +kernel, by decide +kernel, by decide +kernel, by decide +kernel, by decide +kernel, by decide +kernel,
    by decide +kernel, by decide +kernel, by decide +kernel, ⟨2, by decide +kernel, by decide +kernel⟩, by decide +kernel, by decide +kernel, by decide +kernel,
    by decide +kernel⟩, by decide +kernel, ⟨by decide +kernel, by decide +kernel, by decide +kernel, by decide +kernel, by decide +kernel,
    by decide +kernel, by decide +kernel, _, rfl⟩, by decide +kernel, by decide +kernel, by decide +kernel⟩

/-- Rebuild: a group that rebuilds and one that does not; a stripe that is rebuilt, one that its owners have not frozen, one that they have; six
blocks of a stripe, and fewer. -/
theorem meets_Rebuild :
    (Canonical (svState id) ∧ (svState id).sv.en = true ∧ (svState id).sv.rebuild = false) ∧
    (let s := svState fun v => { v with rebuild := true, rebuilt := [(false, 1)] }
     s.sv.rebuilt.contains (false, 1) = true ∧ allFroze s (false, 0) = false ∧ s.sv.rebuilt.contains (false, 0) = false ∧
       (openStripes s.sv).contains (false, 0) = true) ∧
    (let s := svState fun v => { v with rebuild := true, answered := (List.range 8).map fun g => (false, 0, g) }
     allFroze s (false, 0) = true ∧ s.sv.rebuild = true ∧ s.sv.rebuilt.contains (false, 0) = false ∧ (openStripes s.sv).contains (false, 0) = true) ∧
    (let ds : List (List Byte) := List.replicate 6 (List.replicate 4096 1)
     ds.length = 6 ∧ (∀ d ∈ ds, d.length = 4096) ∧ [0, 1, 2, 3, 4, 5].length = 6 ∧ [0, 1, 2, 3, 4, 5].Nodup ∧
       ∀ x ∈ [0, 1, 2, 3, 4, 5], x < 8 ∧ x ≠ (0 + 15 - ownLabel (svState id).fab % 8) % 8) ∧
    (∀ body ∈ [Body.blockRead false 1, .blockData false 1 64, .noBlock false 1],
      let fr : Fragment := ⟨5, 40, 7, 1, 2, 2, 8, body, List.replicate 192 1⟩
      let s := svState fun v => { v with reads := [⟨(false, 1), 5, false, []⟩] }
      fr.k = 1 ∧ fr.index < 5 ∧ fr.bytes.length = 192 ∧ fr.len ≤ 192 ∧ AnswerLeaves s.fab fr.src ∧ decodedOf s.fab fr.src fr.seq = none ∧
        s.fab.bufs = [] ∧ buffersUsed s.fab < 512 ∧ s.fab.stripes = [] ∧ (s.sv.en = true ∧ 1 < 8 * s.sv.n0.toNat ∧ s.sv.rebuild = false) ∧
        heldUp s false 0x100000 4096 = [] ∧ lostLines s 0x100000 4096 = [] ∧
        (∀ b ∈ s.sv.reads, b.stripe = (false, 1) ∧ b.member = fr.src.toNat % 8 ∧ b.parts = [])) := by
  unfold Canonical CoreCanonical
  exact ⟨by decide +kernel, by decide +kernel, by decide +kernel, by decide +kernel, by decide +kernel⟩

/-- DecodeOfEncode: instructions of each map. -/
theorem meets_DecodeOfEncode :
    (Instr.add 1 3 4).wellFormed = true ∧ aParts (.add 1 3 4) ≠ none ∧
    (Instr.vaddF32Short 7 8).wellFormed = true ∧ vShortParts (.vaddF32Short 7 8) ≠ none := by
  decide +kernel

/-- WordsAndReservedEncodings: a CRR of a number that names no register, at the program counter; words of reserved majors, hints. -/
theorem meets_WordsAndReservedEncodings :
    (let s := stateWith { core0 with pc := imgBase, secA := sectionOf [0xACA00007] }
     s.core.slot.isSome = true ∧ s.core.aseq = .running ∧ s.core.grd = none ∧ s.agenda = [] ∧ s.turn = .a ∧ breakHit s s.core.pc = false ∧
       InSection s.core.secA s.core.pc 0 4 ∧ s.core.pc.toNat % 4 = 0 ∧ parcelOf s.core.secA 0 = 0x2B#6 ++ 10#6 ++ 0#6 ++ 0#4 ++ 7#10) ∧
    ((0xF8000000 : Parcel).extractLsb' 26 6 = 0x3E ∧ (0x4C000000 : Parcel).extractLsb' 26 6 = 0x13 ∧ (3 : Parcel).extractLsb' 0 2 = 3#2 ∧
      (0x3C0 : Parcel).extractLsb' 0 2 = 0#2 ∧ 0xF0#8 ≤ (0x3C0 : Parcel).extractLsb' 2 8 ∧ 0xF0#8 ≤ (0xF0 : BitVec 192).extractLsb' 0 8 ∧
      ((1#192 <<< 53 : BitVec 192).extractLsb' 53 3 ≠ 0#3)) := by
  decide +kernel

/-- StepRunsDecoded: an A word at the program counter, legal and not, behind a GRD and not, a SEM.ACQ; a breakpoint; a pc outside; V and M
instructions in their turns; an event on the agenda; sequencers that do not run. -/
theorem meets_StepRunsDecoded :
    (∀ w ∈ ([0x0450C400, 0x4C000000] : List Nat), let s := stateWith { core0 with pc := imgBase, secA := sectionOf [w] }
     s.core.slot.isSome = true ∧ s.core.aseq = .running ∧ s.core.grd = none ∧ s.agenda = [] ∧ s.turn = .a ∧ acquires s.core = false ∧
       breakHit s s.core.pc = false ∧ InSection s.core.secA s.core.pc 0 4 ∧ s.core.pc.toNat % 4 = 0 ∧
       ({ s.core with grd := some (imgBase - 4) } : Core).grd.isSome = true ∧
       breakHit { s with core := { s.core with dbg := [⟨imgBase, 0, true⟩] } } s.core.pc = true) ∧
    (let w : Parcel := ((encode (.semAcq 0 9 3)).head?).getD 0
     let s : State := { stateWith { core0 with pc := imgBase, secA := sectionOf [w.toNat] } with turn := .acquire }
     decodeA (parcelOf s.core.secA 0) = .ok (.semAcq 0 9 3) ∧ acquires s.core = true ∧ s.turn = .acquire) ∧
    ((sectionOf []).offset 0x40 = none ∧ (imgBase + 2).toNat % 4 ≠ 0) ∧
    (∀ l ∈ ([[0x01001C44], [3], [0x8640E041, 0x20001602]] : List (List Nat)),
      let s : State := { stateWith { core0 with vpc := imgBase, secV := sectionOf l, vseq := .running } with turn := .v }
      s.core.grd = none ∧ s.agenda = [] ∧ s.core.slot.isSome = true ∧ s.core.vseq = .running ∧ breakHit s s.core.vpc = false ∧
        s.core.vpc.toNat % 4 = 0 ∧ InSection s.core.secV s.core.vpc 0 4) ∧
    (vLength 0x8640E041 = some 2 ∧ ({ sectionOf [] with size := 4 } : Section).size < 0 + 4 * 2 ∧ vLength 3 = none) ∧
    (∀ l ∈ ([[2, 0, 0, 0, 0, 0], [0xEE, 0, 0, 0, 0, 0]] : List (List Nat)),
      let s : State := { stateWith { core0 with mpc := imgBase, secM := sectionOf l, mseq := .running } with turn := .m }
      s.core.mseq = .running ∧ s.core.mpc.toNat % 8 = 0 ∧ InSection s.core.secM s.core.mpc 0 24 ∧ s.core.mflight = []) ∧
    (state0.core.grd = none ∧ { state0 with agenda := [Instr.distributorSelection] }.agenda = Instr.distributorSelection :: [] ∧
      State.reset.core.slot = none ∧ state0.core.vseq ≠ .running ∧ state0.core.mseq ≠ .running ∧ state0.partMx < 1000 ∧ state0.partVx < 1000) := by
  exact ⟨by decide +kernel, by decide +kernel, by decide +kernel, by decide +kernel, by decide +kernel, by decide +kernel, by decide +kernel⟩

/-- StepKeepsCanonical: the reset state, and the state of the witnesses. -/
theorem meets_StepKeepsCanonical : Canonical State.reset ∧ Canonical state0 := meets_canonical

/-! ## Words of the spec and the instructions they stand for -/

/-- The A-stream encodings that the encoding chapter and the worked programs give. -/
theorem decodes_a_words :
    decodeA 0x0450C400 = .ok (.add 5 3 4) ∧ decodeA 0x70708010 = .ok (.ldI32 7 2 .plain false 16) ∧
    decodeA 0x8C928FFF = .ok (.stB64 9 10 .rel 0x7FF) ∧ decodeA 0x453FFFF0 = .ok (.pb 2 .taken 0x1FFFF0) ∧
    decodeA 0x49180000 = .ok (.br 2 3 false) ∧ decodeA 0xA9435002 = .ok (.waitM 20 13 .b4) ∧ decodeA 0x891108C0 = .ok (.stB32 17 4 .rel 0xC0) ∧
    decodeA 0xA8000C09 = .ok (.seam 9) ∧ decodeA 0xB4518006 = .ok (.netPost 5 6) ∧ decodeA 0xF8000000 = .ok (.nop 0) := by
  decide +kernel

/-- The V-stream encodings that the vector chapter and the worked programs give. -/
theorem decodes_v_words :
    decodeV 0x03202181 0x00001432 0 = .ok (.vcvt ⟨0, 0xA, 200, 100, false, 0, .f32, .none⟩) ∧
    decodeV 0x0000001E 0x008C3E00 5 = .ok (.vloop ⟨8, 1567, 0, 0, false, 0, .i8, .lit 5⟩) ∧
    decodeV 0x00805642 0x00104000 0x00010047 = .ok (.vperm ⟨1, 32, 0, 16, false, 1, .n16, .run 0 1 0 1 7⟩) ∧
    decodeV 0x0FA02041 0x000C067D 0 = .ok (.vadd ⟨0, 1539, 500, 500, false, 0, .f32, .none⟩) ∧
    decodeV 0x81402215 0x00101602 0 = .ok (.vrmaxi ⟨1, 11, 10, 40, false, 0, .f32, .none⟩) := by
  decide +kernel

/-- The M-stream encodings of the worked image: its entry, MSEAM 5, MHALT. -/
theorem decodes_m_words :
    decodeM (bits192 [3, 0, 0x3F0000, 0, 0, 0]) = .ok (.mseam (mf 0x3F0000 0 0 0)) ∧ decodeM (bits192 [3, 0, 5, 0, 0, 0]) = .ok (.mseam (mf 5 0 0 0)) ∧
    decodeM (bits192 [2, 0, 0, 0, 0, 0]) = .ok (.mhalt (mf 0 0 0 0)) := by
  decide +kernel

/-! ## Single steps, with results worked out by hand from the rules -/

/-- What an instruction leaves in an s-register. -/
def sAfter (i : Instr) (l : List (Nat × Word)) (d : BitVec 6) : Option Word :=
  match exec i (stateWith (coreWith l)) with
  | .next t => some (getS t d)
  | _ => none

/-- R89: sums wrap, and a register that is also the destination is read first. -/
theorem test_add_wraps : sAfter (.add 3 3 4) [(3, 0xFFFFFFFFFFFFFFFF), (4, 5)] 3 = some 4 := by decide +kernel

/-- R89: MULH gives the high half of the signed product. -/
theorem test_mulh_signed : sAfter (.mulh 5 3 4) [(3, 0x8000000000000000), (4, 2)] 5 = some 0xFFFFFFFFFFFFFFFF := by decide +kernel

/-- R90: the quotient of the most negative number by -1 wraps, and its remainder is 0. -/
theorem test_div_most_negative :
    sAfter (.div 5 3 4) [(3, 0x8000000000000000), (4, 0xFFFFFFFFFFFFFFFF)] 5 = some 0x8000000000000000 ∧
    sAfter (.rem 5 3 4) [(3, 0x8000000000000000), (4, 0xFFFFFFFFFFFFFFFF)] 5 = some 0 := by decide +kernel

/-- R21: s0 reads as zero and discards what is written. -/
theorem test_s0 : sAfter (.add 0 3 4) [(3, 1), (4, 5)] 0 = some 0 := by decide +kernel

/-- R96: a load extends the sign of its halfword, little-endian. -/
theorem test_load_sign : sAfter (.ldI16 5 3 .plain false 0) [(3, 0x10040)] 5 = some 0xFFFFFFFFFFFF8211 := by decide +kernel

/-- R88, R90, R261: a division by zero that traps leaves its destination as it was; the handler is entered with the
word's address in epc. -/
theorem test_div_trap :
    (match exec (.div 5 3 4) (stateWith { coreWith [(3, 1), (5, 7)] with aexc := 1, evec := 0x1000, pc := 0x40 }) with
      | .next t => (getS t 5, t.core.inHandler, t.core.epc)
      | _ => default) = (7, true, 0x40) := by decide +kernel

end Sys2Proof.Tests
end

