-- ==== Sys2Proof/Proofs/Canonical.lean ====
section
/-! SUPPORT. The canonical form of the memories (assumption 1) as a property of states, cores and the outcomes of the model's functions: what
it rests on, and how it passes through lists and outcomes.

The memories change only where bytes are written, cleared, copied or dropped, and the laws of sparse memories say that each of these keeps them
canonical. Every other function passes the memories on, perhaps through other functions. So there is one lemma `f_canonical` for each function
`f` of the model that a step goes through; its proof follows the branches of `f` and cites the lemmas of the functions that `f` calls. -/

namespace Sys2Proof

open Machine

variable {s t : State} {k : Core}

/-! ## What the canonical form rests on -/

theorem Canonical.mem (h : Canonical s) : Memory.wf s.mem = true := h.1

theorem Canonical.core (h : Canonical s) : CoreCanonical s.core := h.2.1

theorem Canonical.parked (h : Canonical s) : ∀ e ∈ s.parked, CoreCanonical e.2 := h.2.2

/-- A state with the memories of a canonical one. -/
theorem Canonical.congr (h : Canonical s) (hm : t.mem = s.mem) (hk : t.core = s.core) (hp : t.parked = s.parked) :
    Canonical t := by
  unfold Canonical
  rw [hm, hk, hp]
  exact h

/-- A canonical state whose selected core gets another value. -/
theorem Canonical.setCore (h : Canonical s) (hk : CoreCanonical t.core) (hm : t.mem = s.mem) (hp : t.parked = s.parked) :
    Canonical t := by
  unfold Canonical
  rw [hm, hp]
  exact ⟨h.mem, hk, h.parked⟩

/-- A core with the memories of a canonical one. -/
theorem CoreCanonical.congr {j : Core} (h : CoreCanonical k) (hc : j.cs = k.cs) (ha : j.acc = k.acc) : CoreCanonical j := by
  unfold CoreCanonical
  rw [hc, ha]
  exact h

theorem Canonical.ite {c : Prop} [Decidable c] (h : Canonical s) (ht : Canonical t) :
    Canonical (if c then s else t) := by
  split
  · exact h
  · exact ht

theorem Canonical.of_fst {β : Type} {p : State × β} {y : β} (h : Canonical p.1) (e : p = (t, y)) : Canonical t := by
  subst e
  exact h

theorem Canonical.of_snd {α : Type} {p : α × State} {x : α} (h : Canonical p.2) (e : p = (x, t)) : Canonical t := by
  subst e
  exact h

theorem CoreCanonical.of_fst {β : Type} {p : Core × β} {y : β} (h : CoreCanonical p.1) (e : p = (k, y)) :
    CoreCanonical k := by
  subst e
  exact h

end Sys2Proof

namespace Sys2Proof.Machine

open Sys2Proof

set_option Elab.async false

variable {s t : State} {k : Core}

/-! ## Lists -/

/-- Cores of a list that one function changes. -/
theorem map_coreCanonical {l : List (Nat × Core)} {f : Nat × Core → Core} (hl : ∀ e ∈ l, CoreCanonical e.2)
    (hf : ∀ e, CoreCanonical e.2 → CoreCanonical (f e)) : ∀ e ∈ l.map (fun e => (e.1, f e)), CoreCanonical e.2 := by
  intro e he
  obtain ⟨e', he', rfl⟩ := List.mem_map.mp he
  exact hf e' (hl e' he')

/-- An invariant of the items of a list holds of those of the list with one item changed. -/
theorem forall_mem_updateFirst {α : Type} {P : α → Prop} {p : α → Bool} {f : α → α} {l : List α} (hl : ∀ e ∈ l, P e)
    (hf : ∀ e, P e → P (f e)) : ∀ e ∈ updateFirst p f l, P e := by
  induction l with
  | nil => exact hl
  | cons x rest ih =>
    obtain ⟨hx, hrest⟩ := List.forall_mem_cons.mp hl
    unfold updateFirst
    split
    · exact List.forall_mem_cons.mpr ⟨hf x hx, hrest⟩
    · exact List.forall_mem_cons.mpr ⟨hx, ih hrest⟩

theorem foldl_canonical {α : Type} {f : State → α → State} {l : List α} (hf : ∀ u x, Canonical u → Canonical (f u x)) (h : Canonical s) :
    Canonical (l.foldl f s) := by
  induction l generalizing s with
  | nil => exact h
  | cons x rest ih => exact ih (hf s x h)

theorem foldl_fst_canonical {α β : Type} {f : State × β → α → State × β} {l : List α} {p : State × β}
    (hf : ∀ r x, Canonical r.1 → Canonical (f r x).1) (h : Canonical p.1) : Canonical (l.foldl f p).1 := by
  induction l generalizing p with
  | nil => exact h
  | cons x rest ih => exact ih (hf p x h)

theorem foldl_coreCanonical {α : Type} {f : Core → α → Core} {l : List α} (hf : ∀ j x, CoreCanonical j → CoreCanonical (f j x))
    (h : CoreCanonical k) : CoreCanonical (l.foldl f k) := by
  induction l generalizing k with
  | nil => exact h
  | cons x rest ih => exact ih (hf k x h)

/-! ## Outcomes -/

/-- The state that a word or event goes on with, if any, is canonical. -/
def OutCanonical : Out → Prop
  | .next s => Canonical s
  | _ => True

theorem OutCanonical.of_next {o : Out} (h : OutCanonical o) (e : o = .next t) : Canonical t := by
  subst e
  exact h

/-- The state that an access of memory leaves, where it leaves one, is canonical. -/
def Acc.IsCanonical {α : Type} : Acc α → Prop
  | .ok _ s => Canonical s
  | .stall s => Canonical s
  | .stop _ _ => True

theorem Acc.IsCanonical.of_ok {α : Type} {r : Acc α} {x : α} (h : r.IsCanonical) (e : r = .ok x t) : Canonical t := by
  subst e
  exact h

theorem Acc.IsCanonical.of_stall {α : Type} {r : Acc α} (h : r.IsCanonical) (e : r = .stall t) : Canonical t := by
  subst e
  exact h

/-- The state that a word of the A-stream ends with is canonical. -/
def AOut.IsCanonical : AOut → Prop
  | .done s => Canonical s
  | .jump _ s => Canonical s
  | .stall s => Canonical s
  | .trap _ _ _ s => Canonical s
  | .stay s => Canonical s

theorem AOut.IsCanonical.of_trap {r : AOut} {x y z} (h : r.IsCanonical) (e : r = .trap x y z t) : Canonical t := by
  subst e
  exact h

/-- The state that a V instruction ends with, where it leaves one, is canonical. -/
def VOut.IsCanonical : VOut → Prop
  | .done _ s => Canonical s
  | .jump _ s => Canonical s
  | .stall s => Canonical s
  | .stay s => Canonical s
  | _ => True

/-- The state after a move of the copy unit is canonical. -/
def CopyStep.IsCanonical : CopyStep → Prop
  | .moved s => Canonical s
  | .wait s => Canonical s
  | .fault _ s => Canonical s
  | .finished s => Canonical s

theorem CopyStep.IsCanonical.of_moved {r : CopyStep} (h : r.IsCanonical) (e : r = .moved t) : Canonical t := by
  subst e
  exact h

theorem CopyStep.IsCanonical.of_wait {r : CopyStep} (h : r.IsCanonical) (e : r = .wait t) : Canonical t := by
  subst e
  exact h

theorem CopyStep.IsCanonical.of_fault {r : CopyStep} {x} (h : r.IsCanonical) (e : r = .fault x t) : Canonical t := by
  subst e
  exact h

theorem CopyStep.IsCanonical.of_finished {r : CopyStep} (h : r.IsCanonical) (e : r = .finished t) : Canonical t := by
  subst e
  exact h

/-- The state that a remote unit leaves at its target is canonical. -/
def UnitEnd.IsCanonical : UnitEnd → Prop
  | .done _ _ s => Canonical s
  | .wait s => Canonical s

theorem UnitEnd.IsCanonical.of_done {r : UnitEnd} {x y} (h : r.IsCanonical) (e : r = .done x y t) : Canonical t := by
  subst e
  exact h

theorem UnitEnd.IsCanonical.of_wait {r : UnitEnd} (h : r.IsCanonical) (e : r = .wait t) : Canonical t := by
  subst e
  exact h

/-- The state after a piece of a V access, where it leaves one, is canonical. -/
def VStep.IsCanonical : VStep → Prop
  | .over _ s => Canonical s
  | .waiting _ s => Canonical s
  | .fault _ _ => True

theorem VStep.IsCanonical.of_over {r : VStep} {x} (h : r.IsCanonical) (e : r = .over x t) : Canonical t := by
  subst e
  exact h

theorem VStep.IsCanonical.of_waiting {r : VStep} {x} (h : r.IsCanonical) (e : r = .waiting x t) : Canonical t := by
  subst e
  exact h

/-- The state that the start of an M word leaves, where it leaves one, is canonical. -/
def MEnd.IsCanonical : MEnd → Prop
  | .start s _ => Canonical s
  | .stall s => Canonical s
  | .fault _ _ => True
  | .broke _ s => Canonical s

theorem MEnd.IsCanonical.of_start {r : MEnd} {x} (h : r.IsCanonical) (e : r = .start t x) : Canonical t := by
  subst e
  exact h

theorem MEnd.IsCanonical.of_stall {r : MEnd} (h : r.IsCanonical) (e : r = .stall t) : Canonical t := by
  subst e
  exact h

theorem MEnd.IsCanonical.of_broke {r : MEnd} {x} (h : r.IsCanonical) (e : r = .broke x t) : Canonical t := by
  subst e
  exact h

/-- The state after a read through a peer window is canonical. -/
def PeerRead.IsCanonical : PeerRead → Prop
  | .waiting s => Canonical s
  | .got _ s => Canonical s
  | .fault _ _ s => Canonical s

theorem PeerRead.IsCanonical.of_waiting {r : PeerRead} (h : r.IsCanonical) (e : r = .waiting t) : Canonical t := by
  subst e
  exact h

theorem PeerRead.IsCanonical.of_got {r : PeerRead} {x} (h : r.IsCanonical) (e : r = .got x t) : Canonical t := by
  subst e
  exact h

theorem PeerRead.IsCanonical.of_fault {r : PeerRead} {x y} (h : r.IsCanonical) (e : r = .fault x y t) : Canonical t := by
  subst e
  exact h

/-- The state after a read of MPATH, where it leaves one, is canonical. -/
def PathRead.IsCanonical : PathRead → Prop
  | .value _ _ => True
  | .wait s => Canonical s
  | .fault _ _ s => Canonical s

theorem PathRead.IsCanonical.of_wait {r : PathRead} (h : r.IsCanonical) (e : r = .wait t) : Canonical t := by
  subst e
  exact h

theorem PathRead.IsCanonical.of_fault {r : PathRead} {x y} (h : r.IsCanonical) (e : r = .fault x y t) : Canonical t := by
  subst e
  exact h

/-- The state after the read of a record is canonical. -/
def RecRead.IsCanonical : RecRead → Prop
  | .bytes _ s => Canonical s
  | .wait s => Canonical s
  | .fault _ _ s => Canonical s

theorem RecRead.IsCanonical.of_bytes {r : RecRead} {x} (h : r.IsCanonical) (e : r = .bytes x t) : Canonical t := by
  subst e
  exact h

theorem RecRead.IsCanonical.of_wait {r : RecRead} (h : r.IsCanonical) (e : r = .wait t) : Canonical t := by
  subst e
  exact h

theorem RecRead.IsCanonical.of_fault {r : RecRead} {x y} (h : r.IsCanonical) (e : r = .fault x y t) : Canonical t := by
  subst e
  exact h

/-- The state that the definition of a panel leaves, where it leaves one, is canonical. -/
def PanelDef.IsCanonical : PanelDef → Prop
  | .trap _ _ => True
  | .wait s => Canonical s
  | .full s => Canonical s
  | .made _ s => Canonical s

theorem PanelDef.IsCanonical.of_wait {r : PanelDef} (h : r.IsCanonical) (e : r = .wait t) : Canonical t := by
  subst e
  exact h

theorem PanelDef.IsCanonical.of_full {r : PanelDef} (h : r.IsCanonical) (e : r = .full t) : Canonical t := by
  subst e
  exact h

theorem PanelDef.IsCanonical.of_made {r : PanelDef} {x} (h : r.IsCanonical) (e : r = .made x t) : Canonical t := by
  subst e
  exact h

/-- The state after a read of a message's source, where it leaves one, is canonical. -/
def Source.IsCanonical : Source → Prop
  | .bytes _ => True
  | .wait s => Canonical s
  | .fail _ s => Canonical s

theorem Source.IsCanonical.of_wait {r : Source} (h : r.IsCanonical) (e : r = .wait t) : Canonical t := by
  subst e
  exact h

theorem Source.IsCanonical.of_fail {r : Source} {x} (h : r.IsCanonical) (e : r = .fail x t) : Canonical t := by
  subst e
  exact h

/-- The core after a locator's operand is popped, where it is left with one, is canonical. -/
def Popped.IsCanonical : Popped → Prop
  | .wait => True
  | .fault _ k => CoreCanonical k
  | .ok _ k => CoreCanonical k

theorem Popped.IsCanonical.of_fault {r : Popped} {x} (h : r.IsCanonical) (e : r = .fault x k) : CoreCanonical k := by
  subst e
  exact h

theorem Popped.IsCanonical.of_ok {r : Popped} {x} (h : r.IsCanonical) (e : r = .ok x k) : CoreCanonical k := by
  subst e
  exact h

/-- What a word ends with before its own effect, if anything. -/
def OptCanonical : Option AOut → Prop
  | none => True
  | some a => a.IsCanonical

theorem OptCanonical.of_some {o : Option AOut} {a : AOut} (h : OptCanonical o) (e : o = some a) : a.IsCanonical := by
  subst e
  exact h

theorem AOut.IsCanonical.some {a : AOut} (h : a.IsCanonical) : OptCanonical (some a) := h

end Sys2Proof.Machine
end

