-- ==== Sys2Proof/Proofs/CanonicalState.lean ====
section
/-! SUPPORT. The operations on the state keep the canonical form: accesses of memory, copies of frames, reports and what
the words of every stream share. -/

namespace Sys2Proof.Machine

open Sys2Proof

set_option Elab.async false

variable {s t : State} {k : Core}

/-! ## The canonical form in Machine/Stripes.lean -/

theorem updStripe_canonical {dst seq g} (h : Canonical s) : Canonical (updStripe dst seq g s) := h

theorem emitStripe_canonical {st again} (h : Canonical s) : Canonical (emitStripe st again s) := by
  unfold emitStripe
  extract_lets f own paths held m s1 shift frags u
  have hs1 : Canonical s1 := updStripe_canonical h
  split
  · split <;> exact h
  · exact hs1.congr rfl rfl rfl

theorem sendStripe_canonical {dst cls body data acc msg} (h : Canonical s) : Canonical (sendStripe dst cls body data acc msg s) :=
  emitStripe_canonical h

theorem sendAnswer_canonical {dst seq what} (h : Canonical s) : Canonical (sendAnswer dst seq what s) := by
  unfold sendAnswer
  extract_lets f own paths frags
  split <;> exact h

theorem sendAck_canonical {src seq ack} (h : Canonical s) : Canonical (sendAck src seq ack s) := sendAnswer_canonical h

theorem renewStreams_canonical (h : Canonical s) : Canonical (renewStreams s) := h

theorem renewOne_canonical {dst copy} (h : Canonical s) : Canonical (renewOne dst copy s) := h

theorem sendUnit_canonical {slot copy kind addr len data id} (h : Canonical s) :
    Canonical (sendUnit slot copy kind addr len data id s) := by
  unfold sendUnit
  extract_lets core dst n job since s1
  have hs1 : Canonical s1 := sendStripe_canonical h
  split
  · exact hs1
  · exact hs1.congr rfl rfl rfl

theorem Core.overwrite_canonical {rs ps} (h : CoreCanonical k) : CoreCanonical (Core.overwrite k rs ps) := h

theorem issueAccess_canonical {dest copy kind va slot off len data acq strict} (h : Canonical s) :
    Canonical (issueAccess dest copy kind va slot off len data acq strict s) :=
  foldl_canonical (fun _ _ hu => sendUnit_canonical (hu.setCore (hu.core.congr rfl rfl) rfl rfl))
    (h.setCore (Core.overwrite_canonical h.core) rfl rfl)

theorem sendParity_canonical {g upd group by_ va} (h : Canonical s) : Canonical (sendParity g upd group by_ va s) := by
  unfold sendParity
  extract_lets dst q s1 u
  have hs1 : Canonical s1 := sendStripe_canonical h
  exact hs1.congr rfl rfl rfl

theorem protectedUnit_canonical {pa old new by_ va} (h : Canonical s) : Canonical (protectedUnit pa old new by_ va s).1 := by
  unfold protectedUnit
  split
  · exact h
  · split
    · extract_lets n delta p q group s1 s2 s3 u
      have hs1 : Canonical s1 := h
      have hs2 : Canonical s2 := by
        unfold s2
        split
        · exact sendParity_canonical hs1
        · exact hs1
      have hs3 : Canonical s3 := by
        unfold s3
        split
        · exact sendParity_canonical hs2
        · exact hs2
      split
      · exact hs3
      · exact hs3.congr rfl rfl rfl

theorem startPairs_canonical {moved} (h : Canonical s) : Canonical (startPairs moved s) := h

/-! ## The canonical form in Machine/Pool.lean -/

theorem focus_canonical {c} (h : Canonical s) : Canonical (focus c s) := by
  unfold focus
  split
  · exact h
  · split
    · next k hfind =>
      exact ⟨h.mem, h.parked _ (List.mem_of_find?_eq_some hfind), forall_mem_updateFirst h.parked fun _ _ => h.core⟩
    · exact h

theorem onCore_canonical {c f} (hf : ∀ u, Canonical u → Canonical (f u)) (h : Canonical s) : Canonical (onCore c f s) := by
  unfold onCore
  split
  · exact focus_canonical (hf _ (focus_canonical h))
  · exact h

theorem withCore_canonical {f} (hf : ∀ j, CoreCanonical j → CoreCanonical (f j)) (h : Canonical s) : Canonical (withCore f s) :=
  h.setCore (hf _ h.core) rfl rfl

theorem Core.note_canonical {code n} (h : CoreCanonical k) : CoreCanonical (Core.note code n k) := h

theorem noteDie_canonical {code n} (h : Canonical s) : Canonical (noteDie code n s) := h

theorem updEntry_canonical {slot f} (h : Canonical s) : Canonical (updEntry slot f s) := h

theorem updBob_canonical {slot f} (h : Canonical s) : Canonical (updBob slot f s) := updEntry_canonical h

theorem updLaunch_canonical {id f} (h : Canonical s) : Canonical (updLaunch id f s) := h

theorem makeReady_canonical {slot} (h : Canonical s) : Canonical (makeReady slot s) := by
  unfold makeReady
  extract_lets s1
  have hs1 : Canonical s1 := updEntry_canonical h
  exact hs1.congr rfl rfl rfl

theorem createBobbin_canonical {b launch} (h : Canonical s) (e : createBobbin b launch s = some t) : Canonical t := by
  obtain ⟨slot, _, rfl⟩ := Option.map_eq_some_iff.mp e
  exact noteDie_canonical (makeReady_canonical h)

theorem putSkein_canonical {k} (h : Canonical s) : Canonical (putSkein k s) := by
  unfold putSkein
  extract_lets r s1
  have hs1 : Canonical s1 := h
  split
  · exact hs1
  · exact hs1.congr rfl rfl rfl

theorem freeBarrier_canonical {b} (h : Canonical s) : Canonical (freeBarrier b s) := h

theorem dropRef_canonical {slot k} (h : Canonical s) : Canonical (dropRef slot k s) := by
  unfold dropRef
  split
  · exact h
  · extract_lets refs
    split
    · split
      · exact freeBarrier_canonical h
      · exact h
    · exact h

theorem leaveSkein_canonical {slot launch id} (h : Canonical s) : Canonical (leaveSkein slot launch id s) := by
  unfold leaveSkein
  split
  · exact h
  · extract_lets s1 out
    have hs1 : Canonical s1 := dropRef_canonical h
    split
    · exact hs1
    · extract_lets k
      split
      · exact hs1.congr rfl rfl rfl
      · exact putSkein_canonical hs1

theorem dropMemberships_canonical {slot} (h : Canonical s) : Canonical (dropMemberships slot s) := by
  unfold dropMemberships
  split
  · exact h
  · extract_lets s1 s2
    have hs1 : Canonical s1 := by
      unfold s1
      split
      · exact leaveSkein_canonical h
      · exact h
    have hs2 : Canonical s2 := by
      unfold s2
      split
      · exact leaveSkein_canonical hs1
      · exact hs1
    exact updBob_canonical hs2

theorem Core.unbind_canonical (k : Core) : CoreCanonical (Core.unbind k) := ⟨wf_nil, wf_nil⟩

theorem dropHeld_canonical {slot} (h : Canonical s) : Canonical (dropHeld slot s) :=
  ⟨h.mem, h.core, map_coreCanonical h.parked fun _ he => he⟩

theorem dropMonitor_canonical {slot} (h : Canonical s) : Canonical (dropMonitor slot s) := h

theorem stopServed_canonical {c} (h : Canonical s) : Canonical (stopServed c s) := h

theorem releaseCores_canonical {slot} (h : Canonical s) : Canonical (releaseCores slot s) := by
  unfold releaseCores
  extract_lets out s1
  have hout : ∀ j, CoreCanonical j → CoreCanonical (out j) := by
    unfold out
    intro j hj
    split
    · exact Core.unbind_canonical j
    · exact hj
  have hs1 : Canonical s1 := by
    unfold s1
    split
    · exact stopServed_canonical h
    · exact h
  exact ⟨hs1.mem, hout _ hs1.core, map_coreCanonical hs1.parked fun _ he => hout _ he⟩

theorem disown_canonical {slot} (h : Canonical s) : Canonical (disown slot s) := h

theorem loseWith_canonical {slot code} (h : Canonical s) : Canonical (loseWith slot code s) := by
  unfold loseWith
  split
  · exact h
  · exact disown_canonical (releaseCores_canonical (dropMonitor_canonical (dropHeld_canonical (updBob_canonical (updLaunch_canonical
      (dropMemberships_canonical h))))))

theorem countTrapOf_canonical {launch} (h : Canonical s) : Canonical (countTrapOf launch s) := updLaunch_canonical h

theorem countTrap_canonical (h : Canonical s) : Canonical (countTrap s) := countTrapOf_canonical h

theorem loseBobbin_canonical {slot code} (h : Canonical s) : Canonical (loseBobbin slot code s) := by
  unfold loseBobbin
  split
  · exact h
  · exact loseWith_canonical (countTrapOf_canonical h)

theorem loseStrand_canonical {code} (h : Canonical s) : Canonical (loseStrand code s) := by
  unfold loseStrand
  split
  · exact loseBobbin_canonical h
  · exact withCore_canonical (fun j _ => Core.unbind_canonical j) h

/-! ## The canonical form in Machine/Memory.lean -/

theorem Core.startSave_canonical {u} (h : CoreCanonical k) : CoreCanonical (Core.startSave k u) := by
  unfold Core.startSave
  split <;> exact h

theorem Core.takeFrame_canonical {use u} (h : CoreCanonical k) : CoreCanonical (Core.takeFrame k use u) := by
  unfold Core.takeFrame
  extract_lets k1
  have hk1 : CoreCanonical k1 := h
  split
  · exact hk1
  · exact Core.note_canonical hk1

theorem Core.claimFor_canonical {use save u} (h : CoreCanonical k) : CoreCanonical (Core.claimFor k use save u) := by
  unfold Core.claimFor
  split
  · split
    · exact Core.takeFrame_canonical h
    · split
      · exact Core.startSave_canonical h
      · exact h
  · split
    · exact Core.takeFrame_canonical h
    · exact h
  · exact h

theorem Core.claim_canonical {u} (h : CoreCanonical k) : CoreCanonical (Core.claim k u) := Core.claimFor_canonical h

theorem settleHold_canonical {slot} (h : Canonical s) : Canonical (settleHold slot s) := by
  unfold settleHold
  split
  · exact h
  · exact updBob_canonical h

theorem settleSaving_canonical (h : Canonical s) : Canonical (settleSaving s) := foldl_canonical (fun _ _ h1 => settleHold_canonical h1) h

theorem claimUnits_canonical {us} (h : Canonical s) : Canonical (claimUnits us s) :=
  settleSaving_canonical (withCore_canonical (fun _ h1 => foldl_coreCanonical (fun _ _ h2 => Core.claim_canonical h2) h1) h)

theorem updPage_canonical {back i f} (h : Canonical s) : Canonical (updPage back i f s) := h

theorem requestPage_canonical {back i} (h : Canonical s) : Canonical (requestPage back i s) := by
  unfold requestPage
  split
  · exact h
  · split
    · exact h
    · exact updPage_canonical h

theorem serveSite_canonical {x} (h : Canonical s) : Canonical (serveSite s x) := by
  unfold serveSite
  split
  · exact requestPage_canonical h
  · exact onCore_canonical (fun _ h0 => settleSaving_canonical (withCore_canonical (fun _ h1 => Core.claimFor_canonical h1) h0)) h
  · split <;> exact h
  · exact h

theorem serveSites_canonical {sites} (h : Canonical s) : Canonical (serveSites sites s) :=
  foldl_canonical (fun _ _ h1 => serveSite_canonical h1) h

theorem readSites_canonical {kind sites} (h : Canonical s) : (readSites kind sites s).IsCanonical := by
  unfold readSites
  extract_lets rs
  split
  · exact trivial
  · split
    · exact serveSites_canonical h
    · exact h

theorem putMem_canonical {pa bs} (h : Canonical s) : Canonical (putMem pa bs s) := ⟨wf_memPut _ _ _ h.mem, h.core, h.parked⟩

theorem putPiece_canonical {pa bs by_ va} (h : Canonical s) : Canonical (putPiece pa bs by_ va s).1 := by
  unfold putPiece
  extract_lets old s1 s2
  have hs1 : Canonical s1 := putMem_canonical h
  have hs2 : Canonical s2 := hs1.congr rfl rfl rfl
  exact protectedUnit_canonical hs2

theorem putPhys_canonical {pa bs by_ va} (h : Canonical s) : Canonical (putPhys pa bs by_ va s).1 := by
  unfold putPhys
  split
  · exact foldl_fst_canonical (fun _ _ h0 => putPiece_canonical h0) h
  · exact putMem_canonical h

theorem Core.put_canonical {off bs} (h : CoreCanonical k) : CoreCanonical (k.put off bs) := ⟨wf_memPut _ _ _ h.1, h.2⟩

theorem putCore_canonical {c off bs} (h : Canonical s) : Canonical (putCore c off bs s) := by
  unfold putCore
  extract_lets s1
  have hs1 : Canonical s1 := onCore_canonical (fun _ h0 => withCore_canonical (fun _ h1 => Core.put_canonical h1) h0) h
  exact hs1.congr rfl rfl rfl

theorem validate_canonical {x} (h : Canonical s) : Canonical (validate s x) := by
  unfold validate
  split
  · split
    · split
      · exact h
      · extract_lets s1
        have hs1 : Canonical s1 := putMem_canonical h
        exact hs1.congr rfl rfl rfl
    · exact h
  · exact h

theorem putRun_canonical {by_ va r} (h : Canonical s) : Canonical (putRun by_ va s r).1 := by
  unfold putRun
  split
  · exact putCore_canonical h
  · exact putPhys_canonical h

theorem putSites_canonical {sites bs by_ va} (h : Canonical s) : Canonical (putSites sites bs by_ va s).1 := by
  unfold putSites
  exact foldl_fst_canonical (fun _ _ h0 => putRun_canonical h0) (foldl_canonical (fun _ _ h0 => validate_canonical h0) h)

theorem readySites_canonical {sites} (h : Canonical s) : (readySites sites s).IsCanonical := by
  unfold readySites
  split
  · exact trivial
  · split
    · exact serveSites_canonical h
    · exact h

theorem writeSites_canonical {sites bs by_ va} (h : Canonical s) : (writeSites sites bs by_ va s).IsCanonical := by
  unfold writeSites
  split
  · exact trivial
  · exact (readySites_canonical h).of_stall ‹_›
  · exact putSites_canonical ((readySites_canonical h).of_ok ‹_›)

theorem rmwSites_canonical {sites f by_ va} (h : Canonical s) : (rmwSites sites f by_ va s).IsCanonical := by
  unfold rmwSites
  split
  · exact trivial
  · exact (readySites_canonical h).of_stall ‹_›
  · next s1 _ =>
    have hs1 : Canonical s1 := (readySites_canonical h).of_ok ‹_›
    extract_lets s2
    have hs2 : Canonical s2 := foldl_canonical (fun _ _ h0 => validate_canonical h0) hs1
    split
    · exact trivial
    · exact (readSites_canonical hs2).of_stall ‹_›
    · next s3 _ =>
      have hs3 : Canonical s3 := (readSites_canonical hs2).of_ok ‹_›
      extract_lets old
      split
      · exact hs3
      · exact putSites_canonical hs3

/-! ## The canonical form in Machine/Report.lean -/

theorem sendIrq_canonical {fn vec} (h : Canonical s) : Canonical (sendIrq fn vec s) := h

theorem putHost_canonical {bus bs} (h : Canonical s) : Canonical (putHost bus bs s) :=
  foldl_fst_canonical (fun _ _ h1 => putMem_canonical h1) h

theorem writeEvent_canonical {kind fn arg0 arg1 time} (h : Canonical s) : Canonical (writeEvent kind fn arg0 arg1 time s) := by
  unfold writeEvent
  extract_lets r entry s1
  have hs1 : Canonical s1 := putHost_canonical h
  exact sendIrq_canonical (hs1.congr rfl rfl rfl)

theorem reportEvent_canonical {kind arg0 arg1} (h : Canonical s) : Canonical (reportEvent kind arg0 arg1 s) := by
  unfold reportEvent
  split
  · exact h
  · split
    · exact h
    · exact writeEvent_canonical h

theorem metUncorr_canonical {pa} (h : Canonical s) : Canonical (metUncorr pa s) := reportEvent_canonical h

theorem metUncorrAt_canonical {l own va} (h : Canonical s) : Canonical (metUncorrAt l own va s) := by
  unfold metUncorrAt
  split
  · split
    · exact h
    · exact metUncorr_canonical h
  · exact h

theorem metFault_canonical {code l va} (h : Canonical s) : Canonical (metFault code l va s) := by
  unfold metFault
  split
  · exact metUncorrAt_canonical h
  · exact h

theorem metUncorrCore_canonical {off} (h : Canonical s) : Canonical (metUncorrCore off s) := metUncorr_canonical h

theorem metUnit_canonical {code pa} (h : Canonical s) : Canonical (metUnit code pa s) := by
  unfold metUnit
  split
  · exact metUncorr_canonical h
  · exact h

theorem metLines_canonical {ls} (h : Canonical s) : Canonical (metLines ls s) := by
  unfold metLines
  split
  · exact h
  · exact foldl_canonical (fun _ _ h0 => metUncorr_canonical h0) h

theorem metEngine_canonical {pa n} (h : Canonical s) : Canonical (metEngine pa n s) := metLines_canonical h

theorem metReads_canonical {rs} (h : Canonical s) : Canonical (metReads rs s) := foldl_canonical (fun _ _ h1 => metEngine_canonical h1) h

/-! ## The canonical form in Machine/Ops.lean -/

theorem Core.setS_canonical {r x} (h : CoreCanonical k) : CoreCanonical (Core.setS k r x) := by
  unfold Core.setS
  split
  · exact h
  · extract_lets u
    have hu : CoreCanonical u := Core.overwrite_canonical h
    exact hu.congr rfl rfl

theorem Core.setP_canonical {p x} (h : CoreCanonical k) : CoreCanonical (Core.setP k p x) := by
  unfold Core.setP
  split
  · exact h
  · extract_lets u
    have hu : CoreCanonical u := Core.overwrite_canonical h
    exact hu.congr rfl rfl

theorem Core.setM_canonical {m x} (h : CoreCanonical k) : CoreCanonical (Core.setM k m x) := by
  unfold Core.setM
  split <;> exact h

theorem setS_canonical {r x} (h : Canonical s) : Canonical (setS r x s) := h.setCore (Core.setS_canonical h.core) rfl rfl

theorem setP_canonical {p x} (h : Canonical s) : Canonical (setP p x s) := h.setCore (Core.setP_canonical h.core) rfl rfl

theorem Core.dropEntry_canonical {x} (h : CoreCanonical k) : CoreCanonical (Core.dropEntry k x) := by
  unfold Core.dropEntry
  split <;> exact h

theorem Core.dropFaulted_canonical {va} (h : CoreCanonical k) : CoreCanonical (Core.dropFaulted k va) := by
  unfold Core.dropFaulted
  split
  · exact Core.dropEntry_canonical h
  · exact h

theorem Core.enter_canonical {code stream epc eval resume now} (h : CoreCanonical k) :
    CoreCanonical (Core.enter k code stream epc eval resume now) :=
  Core.note_canonical h

theorem takeTrap_canonical {code stream epc eval resume} (h : Canonical s) : Canonical (takeTrap code stream epc eval resume s) := by
  unfold takeTrap
  extract_lets s1
  have hs1 : Canonical s1 := by
    unfold s1
    split
    · exact metUncorrAt_canonical h
    · exact h
  split
  · exact loseStrand_canonical hs1
  · exact withCore_canonical (fun _ h0 => Core.enter_canonical h0) (countTrap_canonical hs1)

theorem Core.leaveHandler_canonical {now} (h : CoreCanonical k) : CoreCanonical (Core.leaveHandler k now) := h

theorem Core.back_canonical (h : CoreCanonical k) : CoreCanonical (Core.back k) := h

theorem Core.advance_canonical (h : CoreCanonical k) : CoreCanonical (Core.advance k) := Core.note_canonical h

theorem Core.branch_canonical {target now} (h : CoreCanonical k) : CoreCanonical (Core.branch k target now) := by
  unfold Core.branch
  extract_lets k1
  have hk1 : CoreCanonical k1 := by
    unfold k1
    split
    · exact Core.leaveHandler_canonical h
    · exact h
  exact Core.note_canonical (hk1.congr rfl rfl)

theorem finishA_canonical {s0 x} (h : Canonical s0) (h1 : x.IsCanonical) : Canonical (finishA s0 x) := by
  unfold finishA
  split
  · exact h1.setCore (Core.advance_canonical h1.core) rfl rfl
  · exact h1.setCore (Core.branch_canonical h1.core) rfl rfl
  · exact h1.setCore (Core.back_canonical h1.core) rfl rfl
  · extract_lets a
    split
    · exact h.setCore (Core.back_canonical h.core) rfl rfl
    · exact takeTrap_canonical (withCore_canonical (fun _ h0 => Core.note_canonical h0) h1)
  · exact h1

theorem aWord_canonical {rd ps body} (h : Canonical s) (hb : (body s).IsCanonical) : OutCanonical (aWord rd ps s body) := by
  unfold aWord
  split
  · exact finishA_canonical h hb
  · exact finishA_canonical h h
  · exact finishA_canonical h (h.setCore (Core.dropFaulted_canonical h.core) rfl rfl)

theorem noteMiss_canonical {miss} (h : Canonical s) : Canonical (noteMiss miss s) := by
  unfold noteMiss
  split
  · exact h.setCore (Core.note_canonical h.core) rfl rfl
  · exact h

theorem semAdd_canonical {i n} {j : Core} (h : CoreCanonical k) (e : semAdd k i n = some j) : CoreCanonical j := by
  simp only [semAdd, Option.ite_none_right_eq_some, Option.some.injEq] at e
  obtain ⟨_, rfl⟩ := e
  exact h

end Sys2Proof.Machine
end

