-- ==== Sys2Proof/Proofs/CanonicalA.lean ====
section
/-! SUPPORT. The words of the A-stream keep the canonical form. -/

namespace Sys2Proof.Machine

open Sys2Proof

set_option Elab.async false

variable {s t : State} {k : Core}

/-! ## The canonical form in Machine/AInt.lean -/

theorem aluWord_canonical {f sd sa sb} (h : Canonical s) : OutCanonical (aluWord f sd sa sb s) := aWord_canonical h (setS_canonical h)

theorem unaryWord_canonical {f sd sa} (h : Canonical s) : OutCanonical (unaryWord f sd sa s) := aWord_canonical h (setS_canonical h)

theorem divWord_canonical {f sd sa sb} (h : Canonical s) : OutCanonical (divWord f sd sa sb s) := by
  unfold divWord
  refine aWord_canonical h ?_
  extract_lets b u
  have hu : CoreCanonical u := h.core
  split
  · split
    · exact h
    · exact setS_canonical (h.setCore (hu.congr rfl rfl) rfl rfl)
  · exact setS_canonical h

theorem cmpWord_canonical {c pd sa sb} (h : Canonical s) : OutCanonical (cmpWord c pd sa sb s) := aWord_canonical h (setP_canonical h)

theorem cmpiWord_canonical {c pd sa imm} (h : Canonical s) : OutCanonical (cmpiWord c pd sa imm s) := aWord_canonical h (setP_canonical h)

theorem predWord_canonical {f pd pa pb inv} (h : Canonical s) : OutCanonical (predWord f pd pa pb inv s) :=
  aWord_canonical h (setP_canonical h)

theorem immWord_canonical {rd sd f} (h : Canonical s) : OutCanonical (immWord rd sd f s) := aWord_canonical h (setS_canonical h)

theorem execAdd_canonical {sd sa sb} (h : Canonical s) : OutCanonical (execAdd sd sa sb s) := aluWord_canonical h

theorem execSub_canonical {sd sa sb} (h : Canonical s) : OutCanonical (execSub sd sa sb s) := aluWord_canonical h

theorem execMul_canonical {sd sa sb} (h : Canonical s) : OutCanonical (execMul sd sa sb s) := aluWord_canonical h

theorem execMulh_canonical {sd sa sb} (h : Canonical s) : OutCanonical (execMulh sd sa sb s) := aluWord_canonical h

theorem execDiv_canonical {sd sa sb} (h : Canonical s) : OutCanonical (execDiv sd sa sb s) := divWord_canonical h

theorem execDivu_canonical {sd sa sb} (h : Canonical s) : OutCanonical (execDivu sd sa sb s) := divWord_canonical h

theorem execRem_canonical {sd sa sb} (h : Canonical s) : OutCanonical (execRem sd sa sb s) := divWord_canonical h

theorem execRemu_canonical {sd sa sb} (h : Canonical s) : OutCanonical (execRemu sd sa sb s) := divWord_canonical h

theorem execAnd_canonical {sd sa sb} (h : Canonical s) : OutCanonical (execAnd sd sa sb s) := aluWord_canonical h

theorem execOr_canonical {sd sa sb} (h : Canonical s) : OutCanonical (execOr sd sa sb s) := aluWord_canonical h

theorem execXor_canonical {sd sa sb} (h : Canonical s) : OutCanonical (execXor sd sa sb s) := aluWord_canonical h

theorem execShl_canonical {sd sa sb} (h : Canonical s) : OutCanonical (execShl sd sa sb s) := aluWord_canonical h

theorem execShr_canonical {sd sa sb} (h : Canonical s) : OutCanonical (execShr sd sa sb s) := aluWord_canonical h

theorem execSra_canonical {sd sa sb} (h : Canonical s) : OutCanonical (execSra sd sa sb s) := aluWord_canonical h

theorem execMin_canonical {sd sa sb} (h : Canonical s) : OutCanonical (execMin sd sa sb s) := aluWord_canonical h

theorem execMax_canonical {sd sa sb} (h : Canonical s) : OutCanonical (execMax sd sa sb s) := aluWord_canonical h

theorem execClz_canonical {sd sa} (h : Canonical s) : OutCanonical (execClz sd sa s) := unaryWord_canonical h

theorem execPopc_canonical {sd sa} (h : Canonical s) : OutCanonical (execPopc sd sa s) := unaryWord_canonical h

theorem execSextI8_canonical {sd sa} (h : Canonical s) : OutCanonical (execSextI8 sd sa s) := unaryWord_canonical h

theorem execSextI16_canonical {sd sa} (h : Canonical s) : OutCanonical (execSextI16 sd sa s) := unaryWord_canonical h

theorem execSextI32_canonical {sd sa} (h : Canonical s) : OutCanonical (execSextI32 sd sa s) := unaryWord_canonical h

theorem execZextN8_canonical {sd sa} (h : Canonical s) : OutCanonical (execZextN8 sd sa s) := unaryWord_canonical h

theorem execZextN16_canonical {sd sa} (h : Canonical s) : OutCanonical (execZextN16 sd sa s) := unaryWord_canonical h

theorem execZextN32_canonical {sd sa} (h : Canonical s) : OutCanonical (execZextN32 sd sa s) := unaryWord_canonical h

theorem execCmpEq_canonical {pd sa sb} (h : Canonical s) : OutCanonical (execCmpEq pd sa sb s) := cmpWord_canonical h

theorem execCmpNe_canonical {pd sa sb} (h : Canonical s) : OutCanonical (execCmpNe pd sa sb s) := cmpWord_canonical h

theorem execCmpLt_canonical {pd sa sb} (h : Canonical s) : OutCanonical (execCmpLt pd sa sb s) := cmpWord_canonical h

theorem execCmpLe_canonical {pd sa sb} (h : Canonical s) : OutCanonical (execCmpLe pd sa sb s) := cmpWord_canonical h

theorem execCmpLtu_canonical {pd sa sb} (h : Canonical s) : OutCanonical (execCmpLtu pd sa sb s) := cmpWord_canonical h

theorem execCmpLeu_canonical {pd sa sb} (h : Canonical s) : OutCanonical (execCmpLeu pd sa sb s) := cmpWord_canonical h

theorem execCmpAll_canonical {pd sa sb} (h : Canonical s) : OutCanonical (execCmpAll pd sa sb s) := cmpWord_canonical h

theorem execCmpAny_canonical {pd sa sb} (h : Canonical s) : OutCanonical (execCmpAny pd sa sb s) := cmpWord_canonical h

theorem execPand_canonical {pd pa pb inv} (h : Canonical s) : OutCanonical (execPand pd pa pb inv s) := predWord_canonical h

theorem execPor_canonical {pd pa pb inv} (h : Canonical s) : OutCanonical (execPor pd pa pb inv s) := predWord_canonical h

theorem execSel_canonical {sd pk sa sb} (h : Canonical s) : OutCanonical (execSel sd pk sa sb s) := aWord_canonical h (setS_canonical h)

theorem execAddi_canonical {sd sa imm} (h : Canonical s) : OutCanonical (execAddi sd sa imm s) := unaryWord_canonical h

theorem execAndi_canonical {sd sa imm} (h : Canonical s) : OutCanonical (execAndi sd sa imm s) := unaryWord_canonical h

theorem execOri_canonical {sd sa imm} (h : Canonical s) : OutCanonical (execOri sd sa imm s) := unaryWord_canonical h

theorem execXori_canonical {sd sa imm} (h : Canonical s) : OutCanonical (execXori sd sa imm s) := unaryWord_canonical h

theorem execShli_canonical {sd sa amount} (h : Canonical s) : OutCanonical (execShli sd sa amount s) := unaryWord_canonical h

theorem execShri_canonical {sd sa amount} (h : Canonical s) : OutCanonical (execShri sd sa amount s) := unaryWord_canonical h

theorem execSrai_canonical {sd sa amount} (h : Canonical s) : OutCanonical (execSrai sd sa amount s) := unaryWord_canonical h

theorem execCmpiEq_canonical {pd sa imm} (h : Canonical s) : OutCanonical (execCmpiEq pd sa imm s) := cmpiWord_canonical h

theorem execCmpiLt_canonical {pd sa imm} (h : Canonical s) : OutCanonical (execCmpiLt pd sa imm s) := cmpiWord_canonical h

theorem execCmpiLtu_canonical {pd sa imm} (h : Canonical s) : OutCanonical (execCmpiLtu pd sa imm s) := cmpiWord_canonical h

theorem execMovi_canonical {sd imm} (h : Canonical s) : OutCanonical (execMovi sd imm s) := immWord_canonical h

theorem execLsi_canonical {sd imm} (h : Canonical s) : OutCanonical (execLsi sd imm s) := immWord_canonical h

theorem execAddpc_canonical {sd imm} (h : Canonical s) : OutCanonical (execAddpc sd imm s) := immWord_canonical h

theorem execNop_canonical {_x} (h : Canonical s) : OutCanonical (execNop _x s) := aWord_canonical h h

/-! ## The canonical form in Machine/ABranch.lean -/

theorem setB_canonical {b x} (h : Canonical s) : Canonical (setB b x s) := h.setCore (h.core.congr rfl rfl) rfl rfl

theorem execPb_canonical {b hint disp} (h : Canonical s) : OutCanonical (execPb b hint disp s) := aWord_canonical h (setB_canonical h)

theorem execPbr_canonical {b sa _hint} (h : Canonical s) : OutCanonical (execPbr b sa _hint s) := aWord_canonical h (setB_canonical h)

theorem execBr_canonical {b pk sense} (h : Canonical s) : OutCanonical (execBr b pk sense s) := by
  unfold execBr
  refine aWord_canonical h ?_
  split <;> exact h

theorem execBrl_canonical {b pk sense link} (h : Canonical s) : OutCanonical (execBrl b pk sense link s) := by
  unfold execBrl
  refine aWord_canonical h ?_
  split
  · exact setS_canonical h
  · exact h

theorem execBloop_canonical {b pk sense lc} (h : Canonical s) : OutCanonical (execBloop b pk sense lc s) := by
  unfold execBloop
  refine aWord_canonical h ?_
  extract_lets n u
  have hu : CoreCanonical u := h.core
  split
  · exact h.setCore (hu.congr rfl rfl) rfl rfl
  · exact h

theorem execLcset_canonical {lc sa} (h : Canonical s) : OutCanonical (execLcset lc sa s) :=
  aWord_canonical h (h.setCore (h.core.congr rfl rfl) rfl rfl)

theorem execGrd_canonical {sense pk} (h : Canonical s) : OutCanonical (execGrd sense pk s) := by
  unfold execGrd
  refine aWord_canonical h ?_
  extract_lets next u
  have hu : CoreCanonical u := h.core
  split
  · exact h
  · split
    · exact h
    · split
      · exact h.setCore (hu.congr rfl rfl) rfl rfl
      · exact h.setCore (Core.note_canonical (hu.congr rfl rfl)) rfl rfl

/-! ## The canonical form in Machine/AMemory.lean -/

theorem noteKept_canonical {kept va} (h : Canonical s) : Canonical (noteKept kept va s) := by
  unfold noteKept
  split
  · exact h
  · exact h.setCore (h.core.congr rfl rfl) rfl rfl

theorem loadWord_canonical {n signed sd sa ord strict off} (h : Canonical s) : OutCanonical (loadWord n signed sd sa ord strict off s) := by
  unfold loadWord
  refine aWord_canonical h ?_
  extract_lets a sites
  split
  · exact h
  · split
    · exact h
    · split
      · split
        · exact h
        · exact issueAccess_canonical h
      · split
        · exact h
        · split
          · exact h
          · exact (readSites_canonical h).of_stall ‹_›
          · exact noteMiss_canonical (setP_canonical (setS_canonical ((readSites_canonical h).of_ok ‹_›)))

theorem execLdI8_canonical {sd sa ord strict off} (h : Canonical s) : OutCanonical (execLdI8 sd sa ord strict off s) := loadWord_canonical h

theorem execLdN8_canonical {sd sa ord strict off} (h : Canonical s) : OutCanonical (execLdN8 sd sa ord strict off s) := loadWord_canonical h

theorem execLdI16_canonical {sd sa ord strict off} (h : Canonical s) : OutCanonical (execLdI16 sd sa ord strict off s) :=
  loadWord_canonical h

theorem execLdN16_canonical {sd sa ord strict off} (h : Canonical s) : OutCanonical (execLdN16 sd sa ord strict off s) :=
  loadWord_canonical h

theorem execLdI32_canonical {sd sa ord strict off} (h : Canonical s) : OutCanonical (execLdI32 sd sa ord strict off s) :=
  loadWord_canonical h

theorem execLdN32_canonical {sd sa ord strict off} (h : Canonical s) : OutCanonical (execLdN32 sd sa ord strict off s) :=
  loadWord_canonical h

theorem execLdB64_canonical {sd sa ord strict off} (h : Canonical s) : OutCanonical (execLdB64 sd sa ord strict off s) :=
  loadWord_canonical h

theorem Core.append_canonical {q e} (h : CoreCanonical k) : CoreCanonical (Core.append k q e) := h

theorem execLdq_canonical {q sa acq strict off} (h : Canonical s) : OutCanonical (execLdq q sa acq strict off s) := by
  unfold execLdq
  refine aWord_canonical h ?_
  extract_lets a sites
  split
  · exact h
  · split
    · exact h
    · split
      · exact h
      · split
        · split
          · exact h
          · exact issueAccess_canonical (h.setCore (Core.append_canonical h.core) rfl rfl)
        · split
          · exact h
          · split
            · exact h
            · exact (readSites_canonical h).of_stall ‹_›
            · have hs := (readSites_canonical h).of_ok ‹_›
              exact noteMiss_canonical (setP_canonical (hs.setCore (Core.append_canonical hs.core) rfl rfl))

theorem storeWord_canonical {n sd sa ord off} (h : Canonical s) : OutCanonical (storeWord n sd sa ord off s) := by
  unfold storeWord
  refine aWord_canonical h ?_
  extract_lets a sites bs
  split
  · exact h
  · split
    · exact h
    · split
      · split
        · exact h
        · exact issueAccess_canonical h
      · split
        · exact h
        · split
          · exact h
          · exact (writeSites_canonical h).of_stall ‹_›
          · exact noteKept_canonical ((writeSites_canonical h).of_ok ‹_›)

theorem execStB8_canonical {sd sa ord off} (h : Canonical s) : OutCanonical (execStB8 sd sa ord off s) := storeWord_canonical h

theorem execStB16_canonical {sd sa ord off} (h : Canonical s) : OutCanonical (execStB16 sd sa ord off s) := storeWord_canonical h

theorem execStB32_canonical {sd sa ord off} (h : Canonical s) : OutCanonical (execStB32 sd sa ord off s) := storeWord_canonical h

theorem execStB64_canonical {sd sa ord off} (h : Canonical s) : OutCanonical (execStB64 sd sa ord off s) := storeWord_canonical h

theorem amoWord_canonical {op size ord sd sa sb} (h : Canonical s) : OutCanonical (amoWord op size ord sd sa sb s) := by
  unfold amoWord
  refine aWord_canonical h ?_
  extract_lets n a v cmp sites
  split
  · exact h
  · split
    · exact h
    · split
      · split
        · exact h
        · exact issueAccess_canonical h
      · split
        · exact h
        · split
          · exact h
          · split
            · exact h
            · exact (rmwSites_canonical h).of_stall ‹_›
            · exact noteKept_canonical (setS_canonical ((rmwSites_canonical h).of_ok ‹_›))

theorem execAmoAdd_canonical {sd sa sb size ord} (h : Canonical s) : OutCanonical (execAmoAdd sd sa sb size ord s) := amoWord_canonical h

theorem execAmoAnd_canonical {sd sa sb size ord} (h : Canonical s) : OutCanonical (execAmoAnd sd sa sb size ord s) := amoWord_canonical h

theorem execAmoOr_canonical {sd sa sb size ord} (h : Canonical s) : OutCanonical (execAmoOr sd sa sb size ord s) := amoWord_canonical h

theorem execAmoXor_canonical {sd sa sb size ord} (h : Canonical s) : OutCanonical (execAmoXor sd sa sb size ord s) := amoWord_canonical h

theorem execAmoMin_canonical {sd sa sb size ord} (h : Canonical s) : OutCanonical (execAmoMin sd sa sb size ord s) := amoWord_canonical h

theorem execAmoMax_canonical {sd sa sb size ord} (h : Canonical s) : OutCanonical (execAmoMax sd sa sb size ord s) := amoWord_canonical h

theorem execAmoMinu_canonical {sd sa sb size ord} (h : Canonical s) : OutCanonical (execAmoMinu sd sa sb size ord s) := amoWord_canonical h

theorem execAmoMaxu_canonical {sd sa sb size ord} (h : Canonical s) : OutCanonical (execAmoMaxu sd sa sb size ord s) := amoWord_canonical h

theorem execSwap_canonical {sd sa sb size ord} (h : Canonical s) : OutCanonical (execSwap sd sa sb size ord s) := amoWord_canonical h

theorem execCas_canonical {sd sa sb size ord} (h : Canonical s) : OutCanonical (execCas sd sa sb size ord s) := amoWord_canonical h

theorem execAmoFadd_canonical {sd sa sb f32 ord} (h : Canonical s) : OutCanonical (execAmoFadd sd sa sb f32 ord s) := amoWord_canonical h

/-! ## The canonical form in Machine/ASync.lean -/

theorem copyTrapAt_canonical {a : AOut} (h : Canonical s) (e : copyTrapAt s = some a) : a.IsCanonical := by
  obtain ⟨_, _, rfl⟩ := Option.map_eq_some_iff.mp e
  exact h

theorem renewAt_canonical (h : Canonical s) : Canonical (renewAt s) := by
  unfold renewAt
  split
  · exact renewStreams_canonical h
  · exact h

theorem renewSlot_canonical {va} (h : Canonical s) : Canonical (renewSlot va s) := by
  unfold renewSlot
  split
  · exact renewOne_canonical h
  · exact h

theorem copyEndAt_canonical {a : AOut} (h : Canonical s) (e : copyEndAt s = some a) : a.IsCanonical := by
  unfold copyEndAt at e
  split at e
  · next htrap =>
    cases e
    exact renewOne_canonical ((copyTrapAt_canonical h htrap).of_trap rfl)
  · exact copyTrapAt_canonical h e

theorem readFaultAt_canonical {a : AOut} (h : Canonical s) (e : readFaultAt s = some a) : a.IsCanonical := by
  obtain ⟨f, _, rfl⟩ := Option.map_eq_some_iff.mp e
  extract_lets s1
  have hs1 : Canonical s1 := h.setCore (Core.dropFaulted_canonical h.core) rfl rfl
  split
  · exact hs1
  · split
    · exact hs1
    · split
      · exact h
      · exact renewSlot_canonical hs1

theorem storeFaultAt_canonical {a : AOut} (h : Canonical s) (e : storeFaultAt s = some a) : a.IsCanonical := by
  unfold storeFaultAt at e
  split at e
  · cases e
  · extract_lets u s1 at e
    have hs1 : Canonical s1 := h
    split at e
    · cases e
      exact hs1
    · split at e
      · cases e
        exact h
      · cases e
        exact renewSlot_canonical hs1

theorem ndurAt_canonical {a : AOut} (h : Canonical s) (e : ndurAt s = some a) : a.IsCanonical := by
  obtain ⟨_, _, rfl⟩ := Option.map_eq_some_iff.mp e
  exact h

theorem execFence_canonical {scope ord paths} (h : Canonical s) : OutCanonical (execFence scope ord paths s) := by
  unfold execFence
  refine aWord_canonical h ?_
  extract_lets faults
  split
  · next a hfirst =>
    obtain ⟨o, ho, rfl⟩ := List.exists_of_findSome?_eq_some hfirst
    simp only [faults, List.mem_cons, List.not_mem_nil, or_false] at ho
    rcases ho with ho | ho | ho | ho
    · exact copyEndAt_canonical h (Option.ite_none_right_eq_some.mp ho.symm).2
    · exact readFaultAt_canonical h ho.symm
    · exact storeFaultAt_canonical h (Option.ite_none_right_eq_some.mp ho.symm).2
    · exact ndurAt_canonical h (Option.ite_none_right_eq_some.mp ho.symm).2
  · split
    · exact h
    · split
      · exact renewAt_canonical h
      · exact h

theorem semTrap_canonical {sem} (h : Canonical s) : (semTrap sem s).IsCanonical := h

theorem execSemSig_canonical {sem sa} (h : Canonical s) : OutCanonical (execSemSig sem sa s) := by
  unfold execSemSig
  refine aWord_canonical h ?_
  split
  · exact h
  · split
    · exact h.setCore (semAdd_canonical h.core ‹_›) rfl rfl
    · exact semTrap_canonical h

theorem Core.latchWaits_canonical (h : CoreCanonical k) : CoreCanonical (Core.latchWaits k) := h

theorem execSemAcq_canonical {sd sem sa} (h : Canonical s) : OutCanonical (execSemAcq sd sem sa s) := by
  unfold execSemAcq
  refine aWord_canonical h ?_
  extract_lets n c k
  have hk : CoreCanonical k := Core.latchWaits_canonical h.core
  split
  · exact semTrap_canonical h
  · split
    · exact h
    · exact setS_canonical (h.setCore (hk.congr rfl rfl) rfl rfl)

theorem execSemRd_canonical {sd sem} (h : Canonical s) : OutCanonical (execSemRd sd sem s) := aWord_canonical h (setS_canonical h)

theorem execMqpush_canonical {mq sa} (h : Canonical s) : OutCanonical (execMqpush mq sa s) := by
  unfold execMqpush
  refine aWord_canonical h ?_
  extract_lets l u
  have hu : CoreCanonical u := h.core
  split
  · exact h
  · exact h.setCore (hu.congr rfl rfl) rfl rfl

theorem execQpop_canonical {sd src} (h : Canonical s) : OutCanonical (execQpop sd src s) := by
  unfold execQpop
  refine aWord_canonical h ?_
  split
  · split
    · exact h
    · extract_lets u s1
      have hu : CoreCanonical u := h.core
      have hs1 : Canonical s1 := h.setCore (hu.congr rfl rfl) rfl rfl
      split
      · exact hs1
      · exact setS_canonical hs1
  · split
    · exact h
    · exact setS_canonical (h.setCore (h.core.congr rfl rfl) rfl rfl)

theorem execMqFlush_canonical {sd which} (h : Canonical s) : OutCanonical (execMqFlush sd which s) := by
  unfold execMqFlush
  refine aWord_canonical h ?_
  split <;> exact setS_canonical (h.setCore (h.core.congr rfl rfl) rfl rfl)

theorem copyWord_canonical {kind sa} (h : Canonical s) : OutCanonical (copyWord kind sa s) := by
  unfold copyWord
  refine aWord_canonical h ?_
  split
  · exact copyTrapAt_canonical h ‹_›
  · extract_lets c u
    have hu : CoreCanonical u := h.core
    split
    · exact h
    · split
      · exact h
      · exact h.setCore (hu.congr rfl rfl) rfl rfl

theorem execCp_canonical {sa} (h : Canonical s) : OutCanonical (execCp sa s) := copyWord_canonical h

theorem execCpBolt_canonical {sa} (h : Canonical s) : OutCanonical (execCpBolt sa s) := copyWord_canonical h

theorem execCpQ_canonical {q sa} (h : Canonical s) : OutCanonical (execCpQ q sa s) := copyWord_canonical h

theorem execCpFlush_canonical {sd} (h : Canonical s) : OutCanonical (execCpFlush sd s) := by
  unfold execCpFlush
  refine aWord_canonical h ?_
  split
  · exact copyTrapAt_canonical h ‹_›
  · split
    · exact setS_canonical h
    · split
      · exact h
      · exact setS_canonical (h.setCore (h.core.congr rfl rfl) rfl rfl)

/-! ## The canonical form in Machine/AStrand.lean -/

theorem postStop_canonical {cause} (h : Canonical s) : Canonical (postStop cause s) := by
  unfold postStop
  split
  · exact h
  · split
    · exact loseStrand_canonical h
    · split
      · exact h
      · exact noteDie_canonical (updBob_canonical (h.setCore (h.core.congr rfl rfl) rfl rfl))

theorem Core.stand_canonical {pc id} (h : CoreCanonical k) : CoreCanonical (Core.stand k pc id) := h

theorem execSeam_canonical {id} (h : Canonical s) : OutCanonical (execSeam id s) := by
  unfold execSeam
  refine aWord_canonical h ?_
  extract_lets k a spin
  have hk : CoreCanonical k := h.core
  split
  · split
    · exact loseStrand_canonical h
    · exact h.setCore (Core.stand_canonical hk) rfl rfl
  · exact h.setCore (hk.congr rfl rfl) rfl rfl

theorem waitOn_canonical {kind} (h : Canonical s) : (waitOn kind s).IsCanonical := by
  unfold waitOn
  extract_lets k mark
  have hk : CoreCanonical k := h.core
  split
  · split
    · exact loseStrand_canonical h
    · refine h.setCore ?_ rfl rfl
      extract_lets u
      have hu : CoreCanonical u := Core.stand_canonical hk
      exact hu.congr rfl rfl
  · exact h.setCore (hk.congr rfl rfl) rfl rfl

theorem waitOver_canonical (h : Canonical s) : Canonical (waitOver s) := h.setCore (h.core.congr rfl rfl) rfl rfl

theorem dropReplies_canonical (h : Canonical s) : Canonical (dropReplies s) := h.setCore (h.core.congr rfl rfl) rfl rfl

theorem peerReadA_canonical {va slot off n acq} (h : Canonical s) : (peerReadA va slot off n acq s).IsCanonical := by
  unfold peerReadA
  split
  · exact h
  · exact dropReplies_canonical h
  · split
    · exact h
    · exact issueAccess_canonical h

theorem execWaitM_canonical {sd sa size} (h : Canonical s) : OutCanonical (execWaitM sd sa size s) := by
  unfold execWaitM
  refine aWord_canonical h ?_
  extract_lets n a e finish sites
  have hfinish : ∀ x0 x1, Canonical x1 → (finish x0 x1).IsCanonical := by
    unfold finish
    intro x0 x1 h3
    extract_lets x
    split
    · exact waitOver_canonical (setP_canonical (setS_canonical h3))
    · split
      · exact waitOver_canonical (setP_canonical (setS_canonical h3))
      · exact waitOn_canonical h3
  split
  · exact h
  · split
    · exact h
    · split
      · split
        · exact waitOn_canonical ((peerReadA_canonical h).of_waiting ‹_›)
        · exact (peerReadA_canonical h).of_fault ‹_›
        · exact hfinish _ _ (dropReplies_canonical ((peerReadA_canonical h).of_got ‹_›))
      · split
        · exact h
        · split
          · exact h
          · exact (readSites_canonical h).of_stall ‹_›
          · exact hfinish _ _ ((readSites_canonical h).of_ok ‹_›)

theorem execSpin_canonical (h : Canonical s) : OutCanonical (execSpin s) := by
  unfold execSpin
  refine aWord_canonical h ?_
  split
  · exact h
  · exact h.setCore (h.core.congr rfl rfl) rfl rfl

theorem execSpawn_canonical {sd sa} (h : Canonical s) : OutCanonical (execSpawn sd sa s) := by
  unfold execSpawn
  refine aWord_canonical h ?_
  split
  · exact h
  · split
    · exact h
    · split
      · exact setS_canonical h
      · exact setS_canonical (createBobbin_canonical h ‹_›)

theorem wake_canonical {slot} (h : Canonical s) : Canonical (wake slot s) := by
  unfold wake
  split
  · split
    · exact makeReady_canonical h
    · exact h
  · exact h

theorem reclaimMonitor_canonical (h : Canonical s) : Canonical (reclaimMonitor s) := by
  unfold reclaimMonitor
  split
  · exact h
  · split
    · exact h
    · exact wake_canonical h

theorem armMonitor_canonical {slot va} (h : Canonical s) : Canonical (armMonitor slot va s) := by
  unfold armMonitor
  extract_lets line addrs s1
  have hs1 : Canonical s1 := reclaimMonitor_canonical (dropMonitor_canonical h)
  exact hs1.congr rfl rfl rfl

theorem execSuspend_canonical {sa} (h : Canonical s) : OutCanonical (execSuspend sa s) := by
  unfold execSuspend
  refine aWord_canonical h ?_
  split
  · exact h
  · split
    · exact loseStrand_canonical h
    · split
      · exact postStop_canonical (dropMonitor_canonical h)
      · exact postStop_canonical (armMonitor_canonical h)

theorem execPagereq_canonical {sa} (h : Canonical s) : OutCanonical (execPagereq sa s) := by
  unfold execPagereq
  refine aWord_canonical h ?_
  extract_lets a
  split
  · exact h
  · split
    · exact h
    · split
      · exact h
      · extract_lets i
        split
        · exact h
        · split
          · exact h
          · split
            · exact h
            · exact requestPage_canonical h

/-! ## The canonical form in Machine/ASystem.lean -/

theorem Core.writeEvec_canonical {x} (h : CoreCanonical k) : CoreCanonical (Core.writeEvec k x) := h

theorem Core.writeControl_canonical {n x} (h : CoreCanonical k) : CoreCanonical (Core.writeControl k n x) := by
  unfold Core.writeControl
  split
  · exact h
  · split
    · exact h
    · split
      · exact h
      · split
        · exact h
        · split
          · exact Core.writeEvec_canonical h
          · split
            · exact h
            · split <;> exact h

theorem execCrr_canonical {sd num} (h : Canonical s) : OutCanonical (execCrr sd num s) := aWord_canonical h (setS_canonical h)

theorem execCrw_canonical {num sa} (h : Canonical s) : OutCanonical (execCrw num sa s) :=
  aWord_canonical h (h.setCore (Core.writeControl_canonical h.core) rfl rfl)

theorem execSettc_canonical {t sa} (h : Canonical s) : OutCanonical (execSettc t sa s) := by
  unfold execSettc
  refine aWord_canonical h ?_
  extract_lets x u
  have hu : CoreCanonical u := h.core
  split
  · exact h.setCore (hu.congr rfl rfl) rfl rfl
  · exact h

theorem execTrap_canonical {code} (h : Canonical s) : OutCanonical (execTrap code s) := aWord_canonical h h

/-! ## The canonical form in Machine/ACluster.lean -/

theorem skeinWord_canonical {sd sa f} (h : Canonical s) (h1 : ∀ x0 x1 x2, Canonical x2 → (f x0 x1 x2).IsCanonical) :
    OutCanonical (skeinWord sd sa s f) := by
  unfold skeinWord
  refine aWord_canonical h ?_
  split
  · exact h
  · exact setS_canonical h
  · exact h1 _ _ _ h

theorem takeMember_canonical {slot m} (h : Canonical s) : Canonical (takeMember slot m s) := updBob_canonical h

theorem execJoin_canonical {sd sa} (h : Canonical s) : OutCanonical (execJoin sd sa s) := by
  unfold execJoin
  refine skeinWord_canonical h ?_
  intro x0 x1 x2 h2
  split
  · exact setS_canonical h2
  · split
    · exact setS_canonical h2
    · split
      · exact setS_canonical (takeMember_canonical h2)
      · split
        · exact setS_canonical h2
        · exact setS_canonical (takeMember_canonical h2)

theorem execLeave_canonical {sd sa} (h : Canonical s) : OutCanonical (execLeave sd sa s) := by
  unfold execLeave
  refine skeinWord_canonical h ?_
  intro x0 x1 x2 h2
  split
  · exact setS_canonical h2
  · split
    · exact h2
    · exact setS_canonical (leaveSkein_canonical (updBob_canonical h2))

theorem execBarNew_canonical {sd pk sa} (h : Canonical s) : OutCanonical (execBarNew sd pk sa s) := by
  unfold execBarNew
  refine skeinWord_canonical h ?_
  intro x0 x1 x2 h2
  split
  · exact h2
  · extract_lets put refs
    have hput : ∀ x0, Canonical (put x0) := fun _ => h2
    split
    · exact setP_canonical (setS_canonical (hput _))
    · split
      · exact setP_canonical (setS_canonical h2)
      · exact setP_canonical (setS_canonical (hput _))

theorem handleWord_canonical {rd sa f} (h : Canonical s) (h1 : ∀ x0 x1 x2, Canonical x2 → (f x0 x1 x2).IsCanonical) :
    OutCanonical (handleWord rd sa s f) := by
  unfold handleWord
  refine aWord_canonical h ?_
  split
  · exact h
  · exact h1 _ _ _ h

theorem execBarArv_canonical {sd sa} (h : Canonical s) : OutCanonical (execBarArv sd sa s) := by
  unfold execBarArv
  refine handleWord_canonical h ?_
  intro x0 x1 x2 h2
  split
  · exact h2
  · split
    · exact setS_canonical (putSkein_canonical h2)
    · split
      · exact setS_canonical (putSkein_canonical h2)
      · exact h2

theorem execBarWt_canonical {sd sa sb} (h : Canonical s) : OutCanonical (execBarWt sd sa sb s) := by
  unfold execBarWt
  refine handleWord_canonical h ?_
  intro x0 x1 x2 h2
  extract_lets w past
  split
  · exact h2
  · split
    · exact waitOver_canonical (setS_canonical h2)
    · exact waitOn_canonical h2

theorem execBarRel_canonical {sa} (h : Canonical s) : OutCanonical (execBarRel sa s) := by
  unfold execBarRel
  refine aWord_canonical h ?_
  extract_lets h1
  split
  · exact h
  · split
    · exact h
    · split
      · exact h
      · exact dropRef_canonical h

theorem pathRead_canonical {va} (h : Canonical s) : (pathRead s va).IsCanonical := by
  unfold pathRead
  extract_lets sites
  split
  · exact h
  · split
    · split
      · exact (peerReadA_canonical h).of_waiting ‹_›
      · exact (peerReadA_canonical h).of_fault ‹_›
      · exact trivial
    · split
      · exact h
      · split
        · exact h
        · exact (readSites_canonical h).of_stall ‹_›
        · exact trivial

theorem pathLoop_canonical {base first d fuel lo hi miss} (h : Canonical s) : (pathLoop s base first d fuel lo hi miss).IsCanonical := by
  induction fuel generalizing lo hi miss with
  | zero => exact trivial
  | succ n ih =>
    unfold pathLoop
    split
    · exact trivial
    · extract_lets piv
      split
      · extract_lets e
        split <;> exact ih
      · exact pathRead_canonical h

theorem pathPoint_canonical {base n d0} (h : Canonical s) : (pathPoint s base n d0).IsCanonical := by
  unfold pathPoint
  split
  · split
    · extract_lets nnz d
      split
      · exact trivial
      · exact pathLoop_canonical h
    · exact pathRead_canonical h
  · exact pathRead_canonical h

theorem execMpath_canonical {sd sa sb} (h : Canonical s) : OutCanonical (execMpath sd sa sb s) := by
  unfold execMpath
  refine aWord_canonical h ?_
  extract_lets base n
  split
  · exact h
  · split
    · exact h
    · split
      · exact dropReplies_canonical (setP_canonical (setS_canonical h))
      · exact (pathPoint_canonical h).of_wait ‹_›
      · exact dropReplies_canonical ((pathPoint_canonical h).of_fault ‹_›)

end Sys2Proof.Machine
end

