-- ==== Sys2Proof/Proofs/CanonicalOperands.lean ====
section
/-! SUPPORT. The operands, starts and ends of V instructions and M words keep the canonical form, and so do a
stop, EXIT and the package's words. -/

namespace Sys2Proof.Machine

open Sys2Proof

set_option Elab.async false

variable {s t : State} {k : Core}

/-! ## The canonical form in Machine/Operands.lean -/

theorem popQ_canonical {q n xs} {j : Core} (h : CoreCanonical k) (e : popQ q n k = some (xs, j)) : CoreCanonical j := by
  induction n generalizing k xs with
  | zero =>
    cases e
    exact h
  | succ n ih =>
    unfold popQ at e
    split at e
    · cases e
    · split at e
      · split at e
        · next hpop =>
          cases e
          refine ih ?_ hpop
          exact h.congr rfl rfl
        · cases e
      · cases e

theorem Core.takeEntries_canonical {q cnt} (h : CoreCanonical k) : CoreCanonical (Core.takeEntries k q cnt) := h

theorem fetch_canonical {e r cnt xs} {j : Core} (h : CoreCanonical k) (hf : fetch e r cnt k = some (xs, j)) : CoreCanonical j := by
  unfold fetch at hf
  split at hf
  · cases hf
    exact h
  · split at hf
    · split at hf
      · exact popQ_canonical h hf
      · split at hf
        · cases hf
          exact h.congr rfl rfl
        · cases hf
    · cases hf
      exact h

theorem fallThrough_canonical {fuel next} (h : CoreCanonical k) : CoreCanonical (fallThrough fuel k next).1 := by
  induction fuel generalizing k with
  | zero => exact h
  | succ n ih =>
    unfold fallThrough
    split
    · exact h
    · extract_lets l
      split
      · exact h
      · exact ih h

theorem Core.vTrap_canonical {code epc eval resume} (h : CoreCanonical k) : CoreCanonical (Core.vTrap k code epc eval resume) := h

theorem Core.vStop_canonical {code eval} (h : CoreCanonical k) : CoreCanonical (Core.vStop k code eval) :=
  Core.note_canonical (Core.vTrap_canonical h)

theorem Core.vComplete_canonical {len fl} (h : CoreCanonical k) : CoreCanonical (Core.vComplete k len fl) := by
  unfold Core.vComplete
  extract_lets pc k1
  have hk1 : CoreCanonical k1 := h
  split
  · next k2 _ _ =>
    have hk2 : CoreCanonical k2 := (fallThrough_canonical hk1).of_fst ‹_›
    extract_lets k3
    have hk3 : CoreCanonical k3 := hk2
    split
    · exact hk3
    · exact Core.vTrap_canonical hk3

theorem finishV_canonical {len last s0 x} (h : Canonical s0) (h1 : x.IsCanonical) : Canonical (finishV len last s0 x) := by
  unfold finishV
  split
  · extract_lets fl u
    have hu : CoreCanonical u := h1.core
    split
    · exact h1.setCore (Core.note_canonical (Core.vComplete_canonical hu)) rfl rfl
    · exact h1.setCore (Core.note_canonical (hu.congr rfl rfl)) rfl rfl
  · exact h1.setCore (Core.note_canonical (h1.core.congr rfl rfl)) rfl rfl
  · exact h1
  · exact h.setCore (Core.vStop_canonical h.core) rfl rfl
  · extract_lets k
    have hk : CoreCanonical k := Core.vStop_canonical (Core.dropFaulted_canonical h.core)
    exact h.setCore (hk.congr rfl rfl) rfl rfl
  · exact h1

theorem vWord_canonical {len body} (h : Canonical s) (hb : (body s).IsCanonical) : OutCanonical (vWord len s body) := finishV_canonical h hb

theorem claimRegs_canonical {rs} (h : Canonical s) : Canonical (claimRegs rs s) := claimUnits_canonical h

theorem withFrames_canonical {rs checked body} (h : Canonical s) (hb : (body s).IsCanonical) :
    (withFrames rs checked s body).IsCanonical := by
  unfold withFrames
  split
  · exact claimRegs_canonical h
  · split
    · exact trivial
    · exact hb

theorem withRegs_canonical {rd wr body} (h : Canonical s) (hb : (body s).IsCanonical) : (withRegs rd wr s body).IsCanonical :=
  withFrames_canonical h hb

theorem putPairs_canonical {r pairs} (h : Canonical s) : Canonical (putPairs r pairs s) := putSites_canonical h

theorem putCells_canonical {r cells bs} (h : Canonical s) : Canonical (putCells r cells bs s) := putPairs_canonical h

theorem putReg_canonical {t m r img} (h : Canonical s) : Canonical (putReg t m r img s) := by
  unfold putReg
  split
  · exact putCore_canonical h
  · exact putPairs_canonical h

theorem putRegs_canonical {ty m r imgs} (h : Canonical s) : Canonical (putRegs ty m r imgs s) := by
  induction imgs generalizing r s with
  | nil => exact h
  | cons img rest ih => exact ih (putReg_canonical h)

theorem fetch3_canonical {e sh r a b c} {j : Core} (h : CoreCanonical k) (hf : fetch3 e sh r k = some (a, b, c, j)) : CoreCanonical j := by
  unfold fetch3 at hf
  split at hf
  · cases hf
  · next ha =>
    split at hf
    · cases hf
    · next hb =>
      split at hf
      · cases hf
      · next hc =>
        cases hf
        exact fetch_canonical (fetch_canonical (fetch_canonical h ha) hb) hc

theorem missing_canonical {sh r} (h : Canonical s) : (missing sh r s).IsCanonical := by
  unfold missing
  extract_lets pops taken
  split
  · exact trivial
  · split
    · exact h.setCore (Core.takeEntries_canonical h.core) rfl rfl
    · exact h

theorem withSources_canonical {f sh r body} (h : Canonical s) (hb : ∀ i u, Canonical u → (body i u).IsCanonical) :
    (withSources f sh r s body).IsCanonical := by
  unfold withSources
  split
  · exact missing_canonical h
  · exact hb _ _ (h.setCore (fetch3_canonical h.core ‹_›) rfl rfl)

theorem elementWord_canonical {len f sh compute} (h : Canonical s) : OutCanonical (elementWord len f sh compute s) :=
  finishV_canonical h (withFrames_canonical h (withSources_canonical h (fun _ _ h2 => putRegs_canonical h2)))

theorem maskWord_canonical {len f sh compute} (h : Canonical s) : OutCanonical (maskWord len f sh compute s) :=
  finishV_canonical h (withFrames_canonical h (withSources_canonical h (fun _ _ h2 => h2.setCore (Core.setM_canonical h2.core) rfl rfl)))

/-! ## The canonical form in Machine/MWord.lean -/

theorem Core.mFaultAt_canonical {off kind count} (h : CoreCanonical k) : CoreCanonical (Core.mFaultAt k off kind count) := h

theorem Core.mStop_canonical {kind count} (h : CoreCanonical k) : CoreCanonical (Core.mStop k kind count) := by
  unfold Core.mStop
  split
  · exact Core.mFaultAt_canonical h
  · exact h

theorem popArg_canonical {col x} (h : CoreCanonical k) : (popArg col x k).IsCanonical := by
  unfold popArg
  split
  · exact h
  · exact h
  · split
    · exact trivial
    · extract_lets k1
      have hk1 : CoreCanonical k1 := h
      split
      · exact hk1
      · split
        · split <;> exact hk1
        · split <;> exact hk1
        · exact hk1
  · exact h

theorem popArgs_error_canonical {ca cb cc f n} {j : Core} (h : CoreCanonical k) (e : popArgs ca cb cc f k = .error (n, j)) :
    CoreCanonical j := by
  unfold popArgs at e
  split at e
  · cases e
    exact h
  · next ha =>
    cases e
    exact (popArg_canonical h).of_fault ha
  · next ha =>
    have h1 := (popArg_canonical h).of_ok ha
    split at e
    · cases e
      exact h1
    · next hb =>
      cases e
      exact (popArg_canonical h1).of_fault hb
    · next hb =>
      have h2 := (popArg_canonical h1).of_ok hb
      split at e
      · cases e
        exact h2
      · next hc =>
        cases e
        exact (popArg_canonical h2).of_fault hc
      · cases e

theorem popArgs_ok_canonical {ca cb cc f args} {j : Core} (h : CoreCanonical k) (e : popArgs ca cb cc f k = .ok (args, j)) :
    CoreCanonical j := by
  unfold popArgs at e
  split at e
  · cases e
  · cases e
  · next ha =>
    split at e
    · cases e
    · cases e
    · next hb =>
      split at e
      · cases e
      · cases e
      · next hc =>
        cases e
        exact (popArg_canonical ((popArg_canonical ((popArg_canonical h).of_ok ha)).of_ok hb)).of_ok hc

theorem mWord_canonical {op always ca cb cc f body} (h : Canonical s) (hb : ∀ args, (body args s).IsCanonical) :
    OutCanonical (mWord op always ca cb cc f s body) := by
  unfold mWord
  extract_lets k
  have hk : CoreCanonical k := h.core
  split
  · exact h
  · split
    · next k1 _ =>
      have hk1 : CoreCanonical k1 := popArgs_error_canonical hk ‹_›
      refine h.setCore ?_ rfl rfl
      split
      · exact Core.mStop_canonical hk1
      · exact hk
    · next k1 _ =>
      have hk1 : CoreCanonical k1 := popArgs_ok_canonical hk ‹_›
      split
      · exact (hb _).of_stall ‹_›
      · refine h.setCore ?_ rfl rfl
        split
        · exact Core.mStop_canonical hk1
        · exact hk
      · next s1 _ =>
        have hs1 : Canonical s1 := (hb _).of_broke ‹_›
        split
        · exact hs1.setCore (Core.mStop_canonical (hs1.core.congr rfl rfl)) rfl rfl
        · exact h
      · next s1 _ _ =>
        have hs1 : Canonical s1 := (hb _).of_start ‹_›
        exact hs1.setCore (Core.note_canonical (hs1.core.congr rfl rfl)) rfl rfl

theorem mNext_canonical (h : Canonical s) : Canonical (mNext s) := h.setCore (h.core.congr rfl rfl) rfl rfl

theorem mStarted_canonical (h : Canonical s) : Canonical (mStarted s) := h.setCore (Core.note_canonical (h.core.congr rfl rfl)) rfl rfl

theorem mStore_canonical {rd wr yr yw body} (h : Canonical s) (hb : (body ()).IsCanonical) : (mStore rd wr yr yw s body).IsCanonical := by
  unfold mStore
  extract_lets k us
  split
  · exact trivial
  · split
    · exact claimUnits_canonical h
    · split
      · cases k.csPoison.find? fun l => rd.any (poisoned [l]) with
        | none => exact h
        | some l => exact metUncorrCore_canonical h
      · exact hb

theorem Core.putY_canonical {y xs} (h : CoreCanonical k) : CoreCanonical (k.putY y xs) := ⟨h.1, wf_memPut _ _ _ h.2⟩

theorem putY_canonical {y xs} (h : Canonical s) : Canonical (putY y xs s) := h.setCore (Core.putY_canonical h.core) rfl rfl

theorem Core.setSlot_canonical {i g} (h : CoreCanonical k) : CoreCanonical (Core.setSlot k i g) := h

/-! ## The canonical form in Machine/MControl.lean -/

theorem mPlain_canonical {op w f} (h : Canonical s) : OutCanonical (mPlain op w f s) := mWord_canonical h (fun _ => mNext_canonical h)

theorem execMnop_canonical {f} (h : Canonical s) : OutCanonical (execMnop f s) := mPlain_canonical h

theorem execMfence_canonical {f} (h : Canonical s) : OutCanonical (execMfence f s) := mPlain_canonical h

theorem execMHint_canonical {_w} (h : Canonical s) : OutCanonical (execMHint _w s) := by
  unfold execMHint
  split
  · exact h
  · exact mStarted_canonical (mNext_canonical h)

theorem execMhalt_canonical {f} (h : Canonical s) : OutCanonical (execMhalt f s) :=
  mWord_canonical h (fun _ => h.setCore (h.core.congr rfl rfl) rfl rfl)

theorem execMseam_canonical {f} (h : Canonical s) : OutCanonical (execMseam f s) := by
  unfold execMseam
  extract_lets id k passed go
  have hk : CoreCanonical k := h.core
  split
  · exact h
  · exact mStarted_canonical (mNext_canonical (h.setCore (hk.congr rfl rfl) rfl rfl))

theorem execMreply_canonical {f} (h : Canonical s) : OutCanonical (execMreply f s) := mWord_canonical h (fun _ => mNext_canonical h)

theorem loopCount_canonical {f n} {j : Core} (h : CoreCanonical k) (e : loopCount f k = some (n, j)) : CoreCanonical j := by
  unfold loopCount at e
  split at e
  · split at e
    · split at e
      · cases e
      · cases e
        exact h.congr rfl rfl
    · cases e
  · cases e
    exact h

theorem dropLoopEntry_canonical {f} (h : CoreCanonical k) : CoreCanonical (dropLoopEntry f k) := by
  unfold dropLoopEntry
  split <;> exact h

theorem execMloop_canonical {f} (h : Canonical s) : OutCanonical (execMloop f s) := by
  unfold execMloop
  extract_lets k j fl faulted go
  have hk : CoreCanonical k := h.core
  have hfaulted : ∀ x, Canonical (faulted x) := by
    unfold faulted
    intro x
    refine h.setCore ?_ rfl rfl
    split
    · exact Core.mStop_canonical (dropLoopEntry_canonical hk)
    · exact hk
  have hgo : ∀ x, CoreCanonical x → Canonical (go x) := fun _ h0 => h.setCore (Core.note_canonical h0) rfl rfl
  split
  · exact h
  · split
    · exact hfaulted _
    · next k1 _ =>
      have hk1 : CoreCanonical k1 := loopCount_canonical hk ‹_›
      split
      · split
        · exact hfaulted _
        · exact hgo _ hk1
      · exact hgo _ hk1

theorem execMend_canonical {f} (h : Canonical s) : OutCanonical (execMend f s) := by
  unfold execMend
  extract_lets j
  refine mWord_canonical h ?_
  intro args
  extract_lets k l
  have hk : CoreCanonical k := h.core
  split
  · exact trivial
  · split
    · exact h.setCore (hk.congr rfl rfl) rfl rfl
    · exact mNext_canonical (h.setCore (hk.congr rfl rfl) rfl rfl)

theorem execMjmp_canonical {f} (h : Canonical s) : OutCanonical (execMjmp f s) :=
  mWord_canonical h (fun _ => h.setCore (h.core.congr rfl rfl) rfl rfl)

theorem execMbrk_canonical {f} (h : Canonical s) : OutCanonical (execMbrk f s) := by
  unfold execMbrk
  extract_lets k
  have hk : CoreCanonical k := h.core
  split
  · exact h
  · exact mStarted_canonical (mNext_canonical (h.setCore (Core.mStop_canonical hk) rfl rfl))

/-! ## The canonical form in Machine/AExit.lean -/

theorem endFaults_canonical {a : AOut} (h : Canonical s) (e : endFaults s = some a) : a.IsCanonical := by
  unfold endFaults at e
  extract_lets inRq at e
  obtain ⟨o, ho, rfl⟩ := List.exists_of_findSome?_eq_some e
  simp only [List.mem_cons, List.not_mem_nil, or_false] at ho
  rcases ho with ho | ho | ho | ho | ho
  · exact copyEndAt_canonical h ho.symm
  · exact readFaultAt_canonical h ho.symm
  · exact storeFaultAt_canonical h ho.symm
  · exact ndurAt_canonical h ho.symm
  · obtain ⟨_, _, rfl⟩ := Option.map_eq_some_iff.mp ho.symm
    exact h

theorem finishStrand_canonical (h : Canonical s) : Canonical (finishStrand s) := by
  unfold finishStrand
  split
  · exact withCore_canonical (fun j _ => Core.unbind_canonical j) h
  · exact withCore_canonical (fun _ h0 => Core.note_canonical h0) (releaseCores_canonical (dropMonitor_canonical (dropHeld_canonical
      (updBob_canonical (dropMemberships_canonical h)))))

theorem execExit_canonical (h : Canonical s) : OutCanonical (execExit s) := by
  unfold execExit
  refine aWord_canonical h ?_
  extract_lets k since s1
  have hk : CoreCanonical k := h.core
  have hs1 : Canonical s1 := h.setCore (hk.congr rfl rfl) rfl rfl
  split
  · exact hs1
  · split
    · exact hs1
    · split
      · exact hs1
      · split
        · exact endFaults_canonical hs1 ‹_›
        · split
          · exact finishStrand_canonical hs1
          · exact loseStrand_canonical hs1

/-! ## The canonical form in Machine/APackage.lean -/

theorem readRecord_canonical {resident va n} (h : Canonical s) : (readRecord resident va n s).IsCanonical := by
  unfold readRecord
  extract_lets sites
  split
  · split
    · exact (peerReadA_canonical h).of_waiting ‹_›
    · exact (peerReadA_canonical h).of_fault ‹_›
    · exact (peerReadA_canonical h).of_got ‹_›
  · split
    · exact h
    · split
      · exact serveSites_canonical h
      · split
        · exact h
        · exact (readSites_canonical h).of_stall ‹_›
        · exact (readSites_canonical h).of_ok ‹_›

theorem recordWord_canonical {sa rd align n resident pre f} (h : Canonical s) (hpre : OptCanonical (pre s))
    (hf : ∀ bs va u, Canonical u → (f bs va u).IsCanonical) : OutCanonical (recordWord sa rd align n resident s pre f) := by
  unfold recordWord
  refine aWord_canonical h ?_
  extract_lets a
  split
  · exact hpre.of_some ‹_›
  · split
    · exact h
    · split
      · exact h
      · split
        · exact h
        · split
          · exact (readRecord_canonical h).of_wait ‹_›
          · exact dropReplies_canonical ((readRecord_canonical h).of_fault ‹_›)
          · exact hf _ _ _ (dropReplies_canonical ((readRecord_canonical h).of_bytes ‹_›))

theorem updQueue_canonical {q f} (h : Canonical s) : Canonical (updQueue q f s) := by
  unfold updQueue
  split <;> exact h

theorem queueTrap_canonical {reason detail} (h : Canonical s) : (queueTrap reason detail s).IsCanonical := h

theorem execLqPost_canonical {sd sa sb} (h : Canonical s) : OutCanonical (execLqPost sd sa sb s) := by
  unfold execLqPost
  extract_lets q
  refine recordWord_canonical h ?_ ?_
  · split
    · exact h
    · split
      · exact trivial
      · extract_lets w
        split
        · exact (queueTrap_canonical h).some
        · split
          · exact (queueTrap_canonical h).some
          · exact trivial
  · intro bs va u h3
    extract_lets w s1
    have hs1 : Canonical s1 := putPhys_canonical h3
    split
    · exact setS_canonical h3
    · split
      · exact setS_canonical (updQueue_canonical hs1)
      · exact serveSites_canonical h3

theorem pinPages_canonical {e va len pin} (h : Canonical s) : Canonical (pinPages e va len pin s) := h

theorem placePanel_canonical {e p} (h : Canonical s) : (placePanel e p s).IsCanonical := by
  unfold placePanel
  split
  · split <;> exact h
  · exact h

theorem definePanel_canonical {l v shape} (h : Canonical s) : (definePanel l v shape s).IsCanonical := by
  unfold definePanel
  extract_lets asked
  split
  · exact trivial
  · split
    · exact serveSites_canonical h
    · exact placePanel_canonical (pinPages_canonical h)
  · exact trivial

theorem execPnlDef_canonical {sd pk sa} (h : Canonical s) : OutCanonical (execPnlDef sd pk sa s) := by
  unfold execPnlDef
  refine aWord_canonical h ?_
  extract_lets v shape
  split
  · exact h
  · split
    · exact h
    · split
      · exact h
      · exact (definePanel_canonical h).of_wait ‹_›
      · exact setP_canonical (setS_canonical ((definePanel_canonical h).of_full ‹_›))
      · exact setP_canonical (setS_canonical ((definePanel_canonical h).of_made ‹_›))

theorem blockWord_canonical {rd sa f} (h : Canonical s) (h1 : ∀ x0 x1 x2, Canonical x2 → (f x0 x1 x2).IsCanonical) :
    OutCanonical (blockWord rd sa s f) := by
  unfold blockWord
  refine aWord_canonical h ?_
  split
  · exact h
  · exact h1 _ _ _ h

theorem execKvbMap_canonical {sd pk alloc sa} (h : Canonical s) : OutCanonical (execKvbMap sd pk alloc sa s) := by
  unfold execKvbMap
  refine blockWord_canonical h ?_
  intro x0 x1 x2 h2
  split
  · exact setP_canonical (setS_canonical h2)
  · split
    · exact setP_canonical (setS_canonical h2)
    · split <;> exact setP_canonical (setS_canonical h2)

theorem updBlock_canonical {x f} (h : Canonical s) : Canonical (updBlock x f s) := h

theorem execKvbShare_canonical {sd sa sb} (h : Canonical s) : OutCanonical (execKvbShare sd sa sb s) := by
  unfold execKvbShare
  refine blockWord_canonical h ?_
  intro x0 x1 x2 h2
  split
  · exact h2
  · split
    · exact setS_canonical h2
    · split
      · exact setS_canonical h2
      · split
        · exact setS_canonical h2
        · exact setS_canonical (updBlock_canonical h2)

theorem unmapName_canonical {fn n} (h : Canonical s) : Canonical (unmapName fn n s) := by
  unfold unmapName
  split
  · exact h
  · extract_lets s1
    have hs1 : Canonical s1 := updBlock_canonical h
    exact hs1.congr rfl rfl rfl

theorem execKvbFree_canonical {sd sa} (h : Canonical s) : OutCanonical (execKvbFree sd sa s) := by
  unfold execKvbFree
  refine blockWord_canonical h ?_
  intro x0 x1 x2 h2
  split
  · exact setS_canonical h2
  · split
    · exact h2
    · exact setS_canonical (unmapName_canonical h2)

theorem execKvbInval_canonical {sd sa sb} (h : Canonical s) : OutCanonical (execKvbInval sd sa sb s) := by
  unfold execKvbInval
  refine blockWord_canonical h ?_
  intro x0 x1 x2 h2
  split
  · exact setS_canonical h2
  · split
    · exact h2
    · exact setS_canonical (updBlock_canonical h2)

theorem updEp_canonical {k f} (h : Canonical s) : Canonical (updEp k f s) := h

theorem setCnt_canonical {n x} (h : Canonical s) : Canonical (setCnt n x s) := h

theorem execNetPost_canonical {sd sa} (h : Canonical s) : OutCanonical (execNetPost sd sa s) := by
  unfold execNetPost
  refine recordWord_canonical h trivial ?_
  intro bs va u h2
  extract_lets raw w k e fn req send
  split
  · exact queueTrap_canonical h2
  · split
    · exact queueTrap_canonical h2
    · split
      · exact queueTrap_canonical h2
      · split
        · exact h2
        · split
          · split
            · exact setS_canonical h2
            · exact setS_canonical (updEp_canonical h2)
          · split
            · exact setS_canonical h2
            · exact setS_canonical (updEp_canonical h2)

theorem execNetWait_canonical {sd sa sb} (h : Canonical s) : OutCanonical (execNetWait sd sa sb s) := by
  unfold execNetWait
  refine aWord_canonical h ?_
  extract_lets n t c
  split
  · exact h
  · split
    · exact queueTrap_canonical h
    · split
      · exact setS_canonical h
      · exact h

theorem clearStatus_canonical {va} (h : Canonical s) : (clearStatus va s).IsCanonical := by
  unfold clearStatus
  extract_lets a sites
  split
  · split
    · exact h
    · exact issueAccess_canonical h
  · split
    · exact h
    · split
      · exact trivial
      · exact (writeSites_canonical h).of_stall ‹_›
      · exact noteKept_canonical ((writeSites_canonical h).of_ok ‹_›)

theorem postRecord_canonical {sd va range len writable full f} (h : Canonical s) (h1 : ∀ x, Canonical x → Canonical (f x)) :
    (postRecord sd va range len writable full s f).IsCanonical := by
  unfold postRecord
  split
  · exact h
  · split
    · exact setS_canonical h
    · split
      · exact h
      · split
        · exact h
        · exact (clearStatus_canonical h).of_stall ‹_›
        · exact setS_canonical (h1 _ ((clearStatus_canonical h).of_ok ‹_›))

theorem execMsgSend_canonical {sd sa} (h : Canonical s) : OutCanonical (execMsgSend sd sa s) := by
  unfold execMsgSend
  refine recordWord_canonical h trivial ?_
  intro bs va u h2
  extract_lets laddr len dest mbox cls
  split
  · exact queueTrap_canonical h2
  · exact postRecord_canonical h2 (fun _ h0 => h0)

theorem execMsgRecv_canonical {sd sa} (h : Canonical s) : OutCanonical (execMsgRecv sd sa s) := by
  unfold execMsgRecv
  refine recordWord_canonical h trivial ?_
  intro bs va u h2
  extract_lets buf cap mbox x
  split
  · exact queueTrap_canonical h2
  · split
    · exact queueTrap_canonical h2
    · exact postRecord_canonical h2 (fun _ h0 => h0)

end Sys2Proof.Machine
end

