-- ==== Sys2Proof/Proofs/CanonicalEvents.lean ====
section
/-! SUPPORT. The events of a core, its copy unit, the distributor and the memory processor keep the canonical form. -/

namespace Sys2Proof.Machine

open Sys2Proof

set_option Elab.async false

variable {s t : State} {k : Core}

/-! ## The canonical form in Machine/EvCopy.lean -/

theorem Core.dropCopyUnits_canonical (h : CoreCanonical k) : CoreCanonical (Core.dropCopyUnits k) := h

theorem moveBytes_canonical {va xs ys} (h : Canonical s) : Canonical (moveBytes va xs ys s).1 := by
  induction xs generalizing ys s with
  | nil => exact h
  | cons x xs ih =>
    cases ys with
    | nil => exact h
    | cons y ys => exact ih (putSites_canonical h)

theorem setRun_canonical {f} (h : Canonical s) : Canonical (setRun f s) := withCore_canonical (fun _ h1 => h1) h

theorem copied_canonical {rd wr} (h : Canonical s) : Canonical (copied rd wr s) :=
  withCore_canonical (fun _ h1 => Core.note_canonical (Core.note_canonical h1)) h

theorem pieceMoved_canonical {n} (h : Canonical s) : (pieceMoved n s).IsCanonical :=
  withCore_canonical (fun _ h2 => Core.dropCopyUnits_canonical h2) (setRun_canonical h)

theorem moveRow_canonical {src dst x} (h : Canonical s) : (moveRow src dst x s).IsCanonical := by
  unfold moveRow
  extract_lets from_ dest limit n r r1
  have hr : Canonical r.1 := by
    unfold r
    split
    · exact moveBytes_canonical h
    · exact putSites_canonical h
  have hr1 : Canonical r1.1 := copied_canonical hr
  split
  · exact serveSites_canonical h
  · split
    · exact hr1
    · split
      · split
        · exact hr1
        · split
          · exact hr1
          · exact pieceMoved_canonical hr1
      · split
        · exact hr1
        · exact pieceMoved_canonical hr1

theorem endCp_canonical {r src x} (h : Canonical s) : (endCp r src x s).IsCanonical := by
  unfold endCp
  extract_lets dst us
  split
  · exact moveRow_canonical h
  · split
    · exact h
    · split
      · exact setRun_canonical (issueAccess_canonical h)
      · split
        · exact h
        · split
          · exact withCore_canonical (fun _ h1 => Core.dropCopyUnits_canonical h1) h
          · exact pieceMoved_canonical (copied_canonical h)

theorem endToQ_canonical {q x} (h : Canonical s) : (endToQ q x s).IsCanonical := by
  unfold endToQ
  split
  · exact h
  · split
    · exact h
    · exact pieceMoved_canonical (copied_canonical (withCore_canonical (fun _ h0 => Core.append_canonical h0) h))

theorem endBolt_canonical {r srcs x} (h : Canonical s) : (endBolt r srcs x s).IsCanonical := by
  unfold endBolt
  split
  · exact h
  · extract_lets n tiles out at_ dest s1 s2
    have hs1 : Canonical s1 := putSites_canonical h
    have hs2 : Canonical s2 := copied_canonical hs1
    split
    · exact serveSites_canonical h
    · split
      · exact h
      · split
        · exact pieceMoved_canonical (withCore_canonical (fun _ h0 => Core.note_canonical h0) hs2)
        · exact hs2

theorem askPeers_canonical {srcs} (h : Canonical s) : Canonical (askPeers srcs s) := by
  unfold askPeers
  refine foldl_canonical ?_ (setRun_canonical h)
  intro u x h2
  split
  · exact issueAccess_canonical h2
  · exact h2

theorem copyPiece_canonical (h : Canonical s) : (copyPiece s).IsCanonical := by
  unfold copyPiece
  split
  · exact h
  · split
    · exact h
    · extract_lets srcs us x
      split
      · exact h
      · split
        · exact askPeers_canonical h
        · split
          · exact h
          · split
            · exact withCore_canonical (fun _ h1 => Core.dropCopyUnits_canonical h1) h
            · split
              · exact foldl_canonical (fun _ _ h1 => serveSites_canonical h1) h
              · split
                · exact endCp_canonical h
                · exact endToQ_canonical h
                · exact endBolt_canonical h

theorem copyLoop_canonical {fuel} (h : Canonical s) : (copyLoop fuel s).IsCanonical := by
  induction fuel generalizing s with
  | zero => exact h
  | succ n ih =>
    unfold copyLoop
    split
    · exact ih ((copyPiece_canonical h).of_moved ‹_›)
    · exact copyPiece_canonical h

theorem copyAdvance_canonical (h : Canonical s) : (copyAdvance s).IsCanonical := by
  unfold copyAdvance
  split
  · exact h
  · split
    · exact h
    · split
      · next s1 _ =>
        have hs1 : Canonical s1 := (copyLoop_canonical h).of_finished ‹_›
        split
        · exact hs1
        · split
          · exact hs1.setCore (semAdd_canonical hs1.core ‹_›) rfl rfl
          · exact hs1
      · exact copyLoop_canonical h

theorem onCoreEvent_canonical {core f} (h : ∀ x, Canonical x → Canonical (f x)) (h1 : Canonical s) : OutCanonical (onCoreEvent core f s) :=
  onCore_canonical h h1

theorem startCopy_canonical (h : CoreCanonical k) : CoreCanonical (startCopy k) := by
  unfold startCopy
  split
  · exact h
  · split <;> exact h

theorem execCopyStart_canonical {core} (h : Canonical s) : OutCanonical (execCopyStart core s) :=
  onCoreEvent_canonical (fun _ h1 => withCore_canonical (fun _ h2 => startCopy_canonical h2) h1) h

theorem completeCopy_canonical (h : Canonical s) : Canonical (completeCopy s) := by
  unfold completeCopy
  split
  · exact withCore_canonical (fun _ h0 => h0) ((copyAdvance_canonical h).of_finished ‹_›)
  · exact (copyAdvance_canonical h).of_wait ‹_›
  · exact (copyAdvance_canonical h).of_moved ‹_›
  · exact h

theorem execCopyCompletion_canonical {core} (h : Canonical s) : OutCanonical (execCopyCompletion core s) :=
  onCoreEvent_canonical (fun _ h1 => completeCopy_canonical h1) h

theorem metCopy_canonical {t} (h : Canonical s) : Canonical (metCopy t s) := by
  unfold metCopy
  split
  · exact metUncorrAt_canonical h
  · exact h

theorem stopCopy_canonical (h : Canonical s) : Canonical (stopCopy s) := by
  unfold stopCopy
  split
  · exact withCore_canonical (fun _ h0 => h0) (metCopy_canonical ((copyAdvance_canonical h).of_fault ‹_›))
  · exact h

theorem execCopyFault_canonical {core} (h : Canonical s) : OutCanonical (execCopyFault core s) :=
  onCoreEvent_canonical (fun _ h1 => stopCopy_canonical h1) h

/-! ## The canonical form in Machine/EvCore.lean -/

theorem Core.endSlot_canonical {w rest} (h : CoreCanonical k) : CoreCanonical (Core.endSlot k w rest) := by
  unfold Core.endSlot
  split
  · exact h
  · extract_lets g
    split
    · exact Core.setSlot_canonical h
    · split
      · exact Core.setSlot_canonical h
      · exact h

theorem Core.drainSlots_canonical {w} (h : CoreCanonical k) : CoreCanonical (Core.drainSlots k w) := by
  unfold Core.drainSlots
  split <;> exact h

theorem Core.endWord_canonical (h : CoreCanonical k) : CoreCanonical k.endWord := by
  unfold Core.endWord
  split
  · exact h
  · next w rest _ =>
    have hd : CoreCanonical ((k.endSlot w rest).drainSlots w) := Core.drainSlots_canonical (Core.endSlot_canonical h)
    extract_lets k1 u entry
    have hu : CoreCanonical u := Core.mFaultAt_canonical hd
    split
    · exact hu.congr rfl rfl
    · next j hj =>
      have hj' : CoreCanonical j := by
        split at hj
        · cases hj
          exact hd
        · exact semAdd_canonical hd hj
      exact hj'.congr rfl rfl

theorem execMWordCompletion_canonical {core} (h : Canonical s) : OutCanonical (execMWordCompletion core s) :=
  onCoreEvent_canonical (fun _ h1 => withCore_canonical (fun _ h2 => Core.endWord_canonical h2) h1) h

theorem landFlag_canonical {us} (h : CoreCanonical k) : CoreCanonical (landFlag us k) := by
  unfold landFlag
  extract_lets k1
  have hk1 : CoreCanonical k1 := by
    unfold k1
    split
    · exact Core.note_canonical h
    · exact h
  split
  · exact Core.setP_canonical hk1
  · exact hk1

theorem landReg_canonical {r x us} (h : CoreCanonical k) : CoreCanonical (landReg r x us k) := by
  unfold landReg
  split
  · exact h
  · exact Core.setS_canonical h

theorem landRead_canonical {dest us} (h : CoreCanonical k) : CoreCanonical (landRead dest us k) := by
  unfold landRead
  extract_lets bs lost
  split
  · exact landFlag_canonical (landReg_canonical h)
  · extract_lets u
    have hu : CoreCanonical u := landReg_canonical h
    exact hu.congr rfl rfl
  · exact landFlag_canonical h
  · exact h

theorem landStore_canonical {a r} (h : CoreCanonical k) : CoreCanonical (landStore a r k) := by
  unfold landStore
  extract_lets k1
  have hk1 : CoreCanonical k1 := h
  split
  · exact hk1.congr rfl rfl
  · exact hk1.congr rfl rfl
  · exact hk1.congr rfl rfl
  · exact hk1

theorem landGroup_canonical {a} (h : CoreCanonical k) : CoreCanonical (landGroup a k) := by
  unfold landGroup
  extract_lets us
  split
  · exact h
  · split
    · exact h
    · split
      · exact h
      · exact landRead_canonical h
    · split
      · exact h
      · exact landRead_canonical h
    · split
      · exact h
      · exact landRead_canonical h
    · exact h

theorem Core.answer_canonical {id r} (h : CoreCanonical k) : CoreCanonical (Core.answer id r k) := by
  unfold Core.answer
  split
  · exact h
  · split
    · exact landStore_canonical h
    · exact landGroup_canonical h

theorem execAccessCompletion_canonical {core id reply} (h : Canonical s) : OutCanonical (execAccessCompletion core id reply s) :=
  onCoreEvent_canonical (fun _ h1 => withCore_canonical (fun _ h2 => Core.answer_canonical h2) h1) h

theorem deliverTrap_canonical (h : Canonical s) : Canonical (deliverTrap s) := by
  unfold deliverTrap
  split
  · exact h
  · split
    · exact h
    · exact takeTrap_canonical (h.setCore (h.core.congr rfl rfl) rfl rfl)

theorem execTrapDelivery_canonical {core} (h : Canonical s) : OutCanonical (execTrapDelivery core s) :=
  onCoreEvent_canonical (fun _ h1 => deliverTrap_canonical h1) h

theorem Core.loadUnit_canonical {u bs poison fresh} (h : CoreCanonical k) : CoreCanonical (k.loadUnit u bs poison fresh) := by
  unfold Core.loadUnit
  extract_lets b lines k1
  split
  · exact ⟨wf_memPut _ _ _ h.1, h.2⟩
  · exact ⟨h.1, wf_memPut _ _ _ h.2⟩

theorem Core.fillFrame_canonical {u} (h : CoreCanonical k) : CoreCanonical (Core.fillFrame u k) := by
  unfold Core.fillFrame
  split
  · exact Core.loadUnit_canonical h
  · exact h

theorem execFrameFill_canonical {core unit} (h : Canonical s) : OutCanonical (execFrameFill core unit s) :=
  onCoreEvent_canonical (fun _ h1 => withCore_canonical (fun _ h2 => Core.fillFrame_canonical h2) h1) h

theorem metFrame_canonical {unit lines} (h : Canonical s) : Canonical (metFrame unit lines s) := by
  unfold metFrame
  split
  · exact metUncorrCore_canonical h
  · exact h

theorem loseSave_canonical {e code off} (h : Canonical s) : Canonical (loseSave e code off s) := loseBobbin_canonical (metFault_canonical h)

theorem saveFrame_canonical {owner unit uncorr} (h : Canonical s) : Canonical (saveFrame owner unit uncorr s) := by
  unfold saveFrame
  split
  · split
    · exact loseBobbin_canonical (metFrame_canonical h)
    · extract_lets bs
      split
      · exact loseSave_canonical h
      · exact (writeSites_canonical h).of_stall ‹_›
      · next s1 _ =>
        have hs1 : Canonical s1 := (writeSites_canonical h).of_ok ‹_›
        extract_lets s2 u
        have hs2 : Canonical s2 := updEntry_canonical hs1
        have hu : CoreCanonical u := hs2.core
        exact hs2.setCore (Core.note_canonical (hu.congr rfl rfl)) rfl rfl
  · exact h

theorem execFrameSave_canonical {core owner unit uncorr} (h : Canonical s) : OutCanonical (execFrameSave core owner unit uncorr s) :=
  onCoreEvent_canonical (fun _ h1 => saveFrame_canonical h1) h

theorem loadFrame_canonical {unit uncorr} (h : Canonical s) : Canonical (loadFrame unit uncorr s) := by
  unfold loadFrame
  split
  · exact h
  · split
    · exact h
    · split
      · exact loseSave_canonical h
      · split
        · exact loseSave_canonical h
        · exact (readSites_canonical h).of_stall ‹_›
        · exact withCore_canonical (fun _ h0 => Core.note_canonical (Core.loadUnit_canonical h0)) ((readSites_canonical h).of_ok ‹_›)

theorem execFrameLoad_canonical {core unit uncorr} (h : Canonical s) : OutCanonical (execFrameLoad core unit uncorr s) :=
  onCoreEvent_canonical (fun _ h1 => loadFrame_canonical h1) h

theorem afterStop_canonical {slot cause} (h : Canonical s) : Canonical (afterStop slot cause s) := by
  unfold afterStop
  split
  · exact updBob_canonical h
  · extract_lets s1
    have hs1 : Canonical s1 := dropMonitor_canonical h
    split
    · exact updEntry_canonical hs1
    · exact makeReady_canonical hs1

theorem leaveCore_canonical {slot x cause live} (h : Canonical s) : Canonical (leaveCore slot x cause live s) := by
  unfold leaveCore
  extract_lets frames hold u s1 s2
  have hu : CoreCanonical u := Core.unbind_canonical _
  have hs1 : Canonical s1 := h.setCore (Core.note_canonical (hu.congr rfl rfl)) rfl rfl
  have hs2 : Canonical s2 := updEntry_canonical hs1
  exact stopServed_canonical (afterStop_canonical hs2)

theorem finishStop_canonical {slot e x cause seam} (h : Canonical s) : Canonical (finishStop slot e x cause seam s) := by
  unfold finishStop
  extract_lets j
  split
  · exact h
  · split
    · next hend => exact finishA_canonical h (endFaults_canonical h hend)
    · split
      · exact loseStrand_canonical h
      · split
        · exact loseSave_canonical h
        · next hw => exact (writeSites_canonical h).of_stall hw
        · next hw => exact leaveCore_canonical (metReads_canonical ((writeSites_canonical h).of_ok hw))

theorem tryStop_canonical (h : Canonical s) : Canonical (tryStop s) := by
  unfold tryStop
  split
  · extract_lets k held
    have hk : CoreCanonical k := h.core
    split
    · exact serveSites_canonical h
    · split
      · exact loseStrand_canonical h
      · split
        · exact h
        · split
          · split
            · exact finishA_canonical h (endFaults_canonical h ‹_›)
            · split
              · exact loseStrand_canonical h
              · exact h
          · split
            · exact h
            · exact finishStop_canonical h
  · exact h

theorem execStopCompletion_canonical {core} (h : Canonical s) : OutCanonical (execStopCompletion core s) :=
  onCoreEvent_canonical (fun _ h1 => tryStop_canonical h1) h

theorem stopLate_canonical (h : Canonical s) : Canonical (stopLate s) := by
  unfold stopLate
  extract_lets k late
  have hk : CoreCanonical k := h.core
  split
  · exact loseStrand_canonical h
  · exact h

theorem execStopTimeout_canonical {core} (h : Canonical s) : OutCanonical (execStopTimeout core s) :=
  onCoreEvent_canonical (fun _ h1 => stopLate_canonical h1) h

theorem execMonitorWake_canonical {slot} (h : Canonical s) : OutCanonical (execMonitorWake slot s) := by
  unfold execMonitorWake
  split
  · exact wake_canonical (dropMonitor_canonical h)
  · exact h

theorem outState_canonical {x} (h : Canonical s) (h1 : OutCanonical x) : Canonical (outState s x) := by
  unfold outState
  split
  · exact h1
  · exact h

theorem recheck_canonical (h : Canonical s) : Canonical (recheck s) := by
  unfold recheck
  extract_lets k
  have hk : CoreCanonical k := h.core
  split
  · exact h
  · split
    · exact outState_canonical h (execWaitM_canonical h)
    · split
      · exact outState_canonical h (execGrd_canonical h)
      · exact h
    · exact h

theorem execWaitMRecheck_canonical {core} (h : Canonical s) : OutCanonical (execWaitMRecheck core s) :=
  onCoreEvent_canonical (fun _ h1 => recheck_canonical h1) h

theorem takeOffline_canonical (h : Canonical s) : Canonical (takeOffline s) := by
  unfold takeOffline
  extract_lets s1 s2 u
  have hs1 : Canonical s1 := by
    unfold s1
    split
    · exact loseBobbin_canonical h
    · exact h
  have hs2 : Canonical s2 := foldl_canonical (fun _ _ h0 => loseBobbin_canonical h0) hs1
  have hu : CoreCanonical u := Core.unbind_canonical _
  exact hs2.setCore (hu.congr rfl rfl) rfl rfl

theorem execCoreOffline_canonical {core} (h : Canonical s) : OutCanonical (execCoreOffline core s) :=
  onCoreEvent_canonical (fun _ h1 => takeOffline_canonical h1) h

/-! ## The canonical form in Machine/EvCluster.lean -/

theorem claimCore_canonical {e c} (h : Canonical s) : Canonical (claimCore e s c) :=
  onCore_canonical (fun _ h1 => withCore_canonical (fun _ h2 => h2) h1) h

theorem selectFor_canonical {e c} (h : Canonical s) : Canonical (selectFor e c s) := claimCore_canonical (updEntry_canonical h)

theorem settleReserved_canonical {e} (h : Canonical s) : Canonical (settleReserved e s) := by
  unfold settleReserved
  split
  · extract_lets u
    have hu : Canonical u := loseWith_canonical h
    exact hu.congr rfl rfl rfl
  · exact h

theorem selectNext_canonical (h : Canonical s) : Canonical (selectNext s) := by
  unfold selectNext
  split
  · exact h
  · split
    · exact h
    · exact selectFor_canonical h

theorem execDistributorSelection_canonical (h : Canonical s) : OutCanonical (execDistributorSelection s) := by
  unfold execDistributorSelection
  split
  · exact settleReserved_canonical h
  · split
    · next e _ =>
      cases chooseCore s e.bob with
      | none => exact h
      | some c => exact claimCore_canonical h
    · exact selectNext_canonical h

theorem takeHeld_canonical {slot} (h : CoreCanonical k) : CoreCanonical (takeHeld slot k) :=
  foldl_coreCanonical (fun _ _ h1 => Core.loadUnit_canonical h1) h

theorem saveHeld_canonical {slot} (h : CoreCanonical k) : CoreCanonical (saveHeld slot k) := h

theorem saveElsewhere_canonical {slot} (h : Canonical s) : Canonical (saveElsewhere slot s) :=
  ⟨h.mem, h.core, map_coreCanonical h.parked fun _ he => saveHeld_canonical he⟩

theorem loadImage_canonical {i} (h : Canonical s) : Canonical (loadImage i s) := by
  unfold loadImage
  split
  · exact h
  · exact metEngine_canonical (withCore_canonical (fun _ h0 => h0) h)

theorem firstRegs_canonical {b} (h : CoreCanonical k) : CoreCanonical (firstRegs b k) := h

theorem pageRegs_canonical {page live} (h : CoreCanonical k) : CoreCanonical (pageRegs page live k) := by
  unfold pageRegs
  extract_lets f ps
  exact ⟨h.1, h.2⟩

theorem startStrand_canonical {e seam} (h : Canonical s) : Canonical (startStrand e seam s) :=
  renewStreams_canonical (updBob_canonical (metReads_canonical (withCore_canonical (fun _ h1 => Core.note_canonical h1) h)))

theorem finishBinding_canonical {e i seam} (h : Canonical s) : Canonical (finishBinding e i seam s) := by
  unfold finishBinding
  extract_lets live
  split
  · exact startStrand_canonical (loadImage_canonical (withCore_canonical (fun _ hj => firstRegs_canonical hj) h))
  · split
    · exact loseSave_canonical h
    · next hr => exact (readSites_canonical h).of_stall hr
    · next hr =>
      exact startStrand_canonical (loadImage_canonical
        (withCore_canonical (fun _ hj => pageRegs_canonical hj) ((readSites_canonical h).of_ok hr)))

theorem bindUnits_canonical {e i seam} (h : Canonical s) : Canonical (bindUnits e i seam s) := by
  unfold bindUnits
  extract_lets s1 s2
  have hs1 : Canonical s1 := settleHold_canonical (saveElsewhere_canonical h)
  have hs2 : Canonical s2 := settleHold_canonical (withCore_canonical (fun _ h0 => takeHeld_canonical h0) hs1)
  split
  · exact hs1
  · split
    · split
      · exact finishBinding_canonical hs2
      · exact serveSites_canonical hs2
    · exact settleSaving_canonical (withCore_canonical (fun _ h0 => foldl_coreCanonical (fun _ _ h1 => Core.claimFor_canonical h1) h0) hs2)

theorem tryBind_canonical (h : Canonical s) : Canonical (tryBind s) := by
  unfold tryBind
  split
  · exact h
  · split
    · exact loseBobbin_canonical h
    · extract_lets held
      split
      · exact serveSites_canonical h
      · split
        · exact loseBobbin_canonical h
        · exact loseBobbin_canonical h
        · split
          · exact loseBobbin_canonical h
          · split
            · exact serveSites_canonical h
            · exact bindUnits_canonical (pinPages_canonical h)

theorem execBinding_canonical {core} (h : Canonical s) : OutCanonical (execBinding core s) :=
  onCoreEvent_canonical (fun _ h1 => tryBind_canonical h1) h

theorem postOn_canonical {c cause} (h : Canonical s) : Canonical (postOn c cause s) :=
  onCore_canonical (fun _ h1 => postStop_canonical h1) h

theorem execExpressPreemption_canonical (h : Canonical s) : OutCanonical (execExpressPreemption s) := by
  unfold execExpressPreemption
  split
  · exact h
  · split
    · exact h
    · split
      · exact h
      · exact postOn_canonical (updEntry_canonical h)

theorem execStarvationPreemption_canonical {slot} (h : Canonical s) : OutCanonical (execStarvationPreemption slot s) := by
  unfold execStarvationPreemption
  split
  · exact h
  · split
    · exact h
    · split
      · exact h
      · exact postOn_canonical (updEntry_canonical h)

theorem execProgressStop_canonical {slot} (h : Canonical s) : OutCanonical (execProgressStop slot s) := by
  unfold execProgressStop
  split
  · exact h
  · split
    · exact h
    · split
      · exact h
      · exact postOn_canonical (updEntry_canonical h)

/-! ## The canonical form in Machine/EvMemory.lean -/

theorem irqAction_canonical {fn vec} (h : Canonical s) : Canonical (irqAction fn vec s) := by
  unfold irqAction
  split
  · exact h
  · exact sendIrq_canonical h

theorem tellPages_canonical {fuel} (h : Canonical s) : Canonical (tellPages fuel s) := by
  induction fuel generalizing s with
  | zero => exact h
  | succ n ih =>
    unfold tellPages
    split
    · exact h
    · split
      · exact h
      · exact ih (writeEvent_canonical (updPage_canonical h))

theorem tellAll_canonical (h : Canonical s) : Canonical (tellAll s) := tellPages_canonical h

theorem clearPhys_canonical {pa n} (h : Canonical s) : Canonical (clearPhys pa n s) := by
  unfold clearPhys
  split
  · exact putPhys_canonical h
  · exact ⟨wf_memClear _ _ _ h.mem, h.core, h.parked⟩

theorem settlePage_canonical {back i} (h : Canonical s) : Canonical (settlePage back i s) := updPage_canonical h

theorem execPageResident_canonical {backing page} (h : Canonical s) : OutCanonical (execPageResident backing page s) := by
  unfold execPageResident
  split
  · extract_lets n
    split
    · exact h
    · split
      · exact settlePage_canonical (clearPhys_canonical h)
      · exact serveSites_canonical h
  · exact h

theorem updVcol_canonical {v f} (h : Canonical s) : Canonical (updVcol v f s) := h

theorem execLaneSwap_canonical {link} (h : Canonical s) : OutCanonical (execLaneSwap link s) := by
  unfold execLaneSwap
  split
  · extract_lets n
    split
    · exact updVcol_canonical h
    · exact noteDie_canonical (updVcol_canonical h)
  · extract_lets n
    split
    · exact onCore_canonical (fun _ h1 => takeOffline_canonical h1) h
    · exact noteDie_canonical h

theorem trainColumn_canonical {v k spares failed} (h : Canonical s) : Canonical (trainColumn v k spares failed s) := updVcol_canonical h

theorem execVaultColumnTraining_canonical {vault column spares failed} (h : Canonical s) :
    OutCanonical (execVaultColumnTraining vault column spares failed s) :=
  trainColumn_canonical h

theorem retrainNext_canonical (h : Canonical s) : Canonical (retrainNext s) := by
  unfold retrainNext
  split
  · exact h
  · exact trainColumn_canonical h

theorem poisonAt_canonical {pa} (h : Canonical s) : Canonical (poisonAt pa s) := by
  unfold poisonAt
  split
  · exact onCore_canonical (fun _ h0 => withCore_canonical (fun _ h1 => h1) h0) h
  · exact h

theorem execPatrolScrub_canonical {addr result} (h : Canonical s) : OutCanonical (execPatrolScrub addr result s) := by
  unfold execPatrolScrub
  split
  · exact h
  · split
    · exact h
    · exact noteDie_canonical h
    · exact metUncorr_canonical (poisonAt_canonical h)

end Sys2Proof.Machine
end

