-- ==== Sys2Proof/Proofs/CanonicalHost.lean ====
section
/-! SUPPORT. The events of the queue processor, the mailbox, boot and resets keep the canonical form. -/

namespace Sys2Proof.Machine

open Sys2Proof

set_option Elab.async false

variable {s t : State} {k : Core}

/-! ## The canonical form in Machine/EvLaunch.lean -/

theorem execWqTailWrite_canonical {by_ q value} (h : Canonical s) : OutCanonical (execWqTailWrite by_ q value s) := by
  unfold execWqTailWrite
  extract_lets w tail past
  split
  · exact h
  · exact updQueue_canonical h

theorem readHead_canonical {q} (h : Canonical s) : Canonical (readHead q s) := by
  unfold readHead
  extract_lets w d s1
  have hs1 : Canonical s1 := metEngine_canonical h
  split
  · exact updQueue_canonical hs1
  · exact updQueue_canonical (hs1.congr rfl rfl rfl)

theorem updFront_canonical {q f} (h : Canonical s) : Canonical (updFront q f s) := updQueue_canonical h

theorem writeTable_canonical {a n} (h : Canonical s) : Canonical (writeTable a n s) := h

theorem advanceHead_canonical {q l} (h : Canonical s) : Canonical (advanceHead q l s) := updQueue_canonical h

theorem passHead_canonical {q status} (h : Canonical s) : Canonical (passHead q status s) := by
  unfold passHead
  split
  · exact h
  · extract_lets l s1
    have hs1 : Canonical s1 := noteDie_canonical h
    split
    · exact advanceHead_canonical h
    · split
      · exact advanceHead_canonical hs1
      · split
        · exact advanceHead_canonical hs1
        · exact advanceHead_canonical (writeTable_canonical hs1)

theorem tryPass_canonical {q} (h : Canonical s) : Canonical (tryPass q s) := by
  unfold tryPass
  split
  · exact passHead_canonical h
  · exact h

theorem evaluate_canonical {q} (h : Canonical s) : Canonical (evaluate q s) := by
  unfold evaluate
  split
  · exact h
  · extract_lets sites holds s1
    have hs1 : Canonical s1 := metReads_canonical (serveSites_canonical h)
    split
    · exact tryPass_canonical (updQueue_canonical (updFront_canonical hs1))
    · exact updQueue_canonical hs1

theorem execConditionEvaluation_canonical {q} (h : Canonical s) : OutCanonical (execConditionEvaluation q s) := by
  unfold execConditionEvaluation
  extract_lets w
  split
  · exact evaluate_canonical h
  · exact h

theorem unpin_canonical (h : Canonical s) : Canonical (unpin s) := h

theorem dropPanels_canonical {l} (h : Canonical s) : Canonical (dropPanels l s) := unpin_canonical h

theorem freeFresh_canonical {l} (h : Canonical s) : Canonical (freeFresh l s) := h

theorem failLaunch_canonical {id status} (h : Canonical s) : Canonical (failLaunch id status s) := by
  unfold failLaunch
  split
  · exact h
  · exact updLaunch_canonical (freeFresh_canonical h)

theorem beginExtent_canonical {l p} (h : Canonical s) : Canonical (beginExtent l p s) := by
  unfold beginExtent
  split
  · exact updLaunch_canonical h
  · split
    · exact failLaunch_canonical h
    · extract_lets b u
      have hu : Canonical u := updLaunch_canonical h
      exact writeTable_canonical (hu.congr rfl rfl rfl)

theorem translateStep_canonical {l} (h : Canonical s) : Canonical (translateStep l s) := by
  unfold translateStep
  split
  · exact updLaunch_canonical h
  · split
    · exact beginExtent_canonical h
    · extract_lets n s1
      have hs1 : Canonical s1 := updLaunch_canonical h
      split
      · exact hs1
      · split
        · exact h
        · split
          · exact failLaunch_canonical h
          · exact hs1.congr rfl rfl rfl

theorem panelStep_canonical {l} (h : Canonical s) : Canonical (panelStep l s) := by
  unfold panelStep
  split
  · exact updLaunch_canonical h
  · extract_lets pb
    split
    · exact serveSites_canonical h
    · split
      · exact failLaunch_canonical (dropPanels_canonical h)
      · exact failLaunch_canonical (dropPanels_canonical ((definePanel_canonical h).of_full ‹_›))
      · exact (definePanel_canonical h).of_wait ‹_›
      · exact updLaunch_canonical (putSites_canonical ((definePanel_canonical h).of_made ‹_›))

theorem createStep_canonical {id fuel} (h : Canonical s) : Canonical (createStep id fuel s) := by
  induction fuel generalizing s with
  | zero => exact h
  | succ n ih =>
    unfold createStep
    split
    · exact h
    · split
      · exact updLaunch_canonical h
      · split
        · exact h
        · exact ih (updLaunch_canonical (createBobbin_canonical h ‹_›))

theorem countEnded_canonical (h : Canonical s) : Canonical (countEnded s) := h

theorem midStep_canonical {l} (h : Canonical s) : Canonical (midStep l s) := by
  unfold midStep
  split
  · exact translateStep_canonical h
  · exact panelStep_canonical h
  · exact createStep_canonical h
  · exact h

theorem headStep_canonical {q} (h : Canonical s) : Canonical (headStep q s) := by
  unfold headStep
  extract_lets sites
  split
  · exact serveSites_canonical h
  · split
    · exact readHead_canonical h
    · split
      · extract_lets status s1
        have hs1 : Canonical s1 := metReads_canonical h
        split
        · exact updFront_canonical hs1
        · exact passHead_canonical hs1
      · exact evaluate_canonical h
      · exact tryPass_canonical h

theorem execDispatchStep_canonical (h : Canonical s) : OutCanonical (execDispatchStep s) := by
  unfold execDispatchStep
  extract_lets s1
  have hs1 : Canonical s1 := countEnded_canonical h
  split
  · exact hs1
  · extract_lets s2
    have hs2 : Canonical s2 := hs1.congr rfl rfl rfl
    split
    · exact midStep_canonical hs2
    · exact headStep_canonical hs2

theorem cancelHead_canonical {q} (h : Canonical s) : Canonical (cancelHead q s) := by
  unfold cancelHead
  extract_lets w s1
  have hs1 : Canonical s1 := by
    unfold s1
    split
    · exact readHead_canonical h
    · exact h
  exact passHead_canonical hs1

theorem execAbort_canonical {fn q} (h : Canonical s) : OutCanonical (execAbort fn q s) := by
  unfold execAbort
  split
  · exact h
  · exact cancelHead_canonical h

theorem execWqCfgWrite_canonical {fn q value} (h : Canonical s) : OutCanonical (execWqCfgWrite fn q value s) := by
  unfold execWqCfgWrite
  extract_lets w s1 en
  have hs1 : Canonical s1 := by
    unfold s1
    split
    · exact cancelHead_canonical h
    · exact h
  split
  · exact h
  · exact updQueue_canonical hs1

theorem countErr_canonical {fn} (h : Canonical s) : Canonical (countErr fn s) := h

theorem signal_canonical {fn x} (h : Canonical s) : Canonical (signal fn x s) := by
  unfold signal
  extract_lets n put
  have hput : ∀ x0 x1, Canonical x1 → Canonical (put x0 x1) := by
    unfold put
    intro x0 x1 h2
    split
    · exact putPhys_canonical h2
    · exact countErr_canonical h2
  split
  · exact hput _ _ (metEngine_canonical h)
  · exact hput _ _ h
  · exact irqAction_canonical h
  · exact h

theorem dropPosted_canonical {id} (h : Canonical s) : Canonical (dropPosted id s) := h

theorem dropNames_canonical {fn} (h : Canonical s) : Canonical (dropNames fn s) := foldl_canonical (fun _ _ h1 => unmapName_canonical h1) h

theorem settleDrops_canonical (h : Canonical s) : Canonical (settleDrops s) := foldl_canonical (fun _ _ h1 => dropNames_canonical h1) h

theorem completeLaunch_canonical {l} (h : Canonical s) : Canonical (completeLaunch l s) := by
  unfold completeLaunch
  extract_lets s1 s2 s3
  have hs1 : Canonical s1 := freeFresh_canonical (dropPanels_canonical h)
  have hs2 : Canonical s2 := putPhys_canonical hs1
  have hs3 : Canonical s3 := by
    unfold s3
    split
    · exact signal_canonical (signal_canonical hs2)
    · exact hs2
  exact settleDrops_canonical (dropPosted_canonical (hs3.congr rfl rfl rfl))

theorem execLaunchCompletion_canonical {launch} (h : Canonical s) : OutCanonical (execLaunchCompletion launch s) := by
  unfold execLaunchCompletion
  extract_lets s1
  have hs1 : Canonical s1 := countEnded_canonical h
  split
  · exact hs1
  · split
    · exact hs1
    · split
      · exact completeLaunch_canonical hs1
      · exact serveSites_canonical hs1

/-! ## The canonical form in Machine/EvMailbox.lean -/

theorem submit_canonical {fn} (h : Canonical s) : Canonical (submit fn s) := by
  unfold submit
  extract_lets m
  split <;> exact h

theorem answer_canonical {fn code value} (h : Canonical s) : Canonical (answer fn code value s) := sendIrq_canonical (noteDie_canonical h)

theorem serve_canonical {fn cmd f} (h : ∀ x0 x1, Canonical x1 → Canonical (f x0 x1)) (h1 : Canonical s) :
    OutCanonical (serve fn cmd f s) := by
  unfold serve
  extract_lets m
  split
  · exact h1
  · split
    · exact answer_canonical h1
    · exact h _ _ h1

theorem serveUnknown_canonical (h : Canonical s) : Canonical (serveUnknown s) := by
  unfold serveUnknown
  split
  · exact h
  · extract_lets c
    split
    · exact h
    · exact answer_canonical h

theorem withHandle_canonical {fn x f} (h : Canonical s) (h1 : ∀ x0, Canonical (f x0)) : Canonical (withHandle fn x s f) := by
  unfold withHandle
  split
  · exact answer_canonical h
  · split
    · exact answer_canonical h
    · exact h1 _

theorem withPage_canonical {fn m f} (h : Canonical s) (hf : ∀ b i p, Canonical (f b i p)) : Canonical (withPage fn m s f) := by
  unfold withPage
  refine withHandle_canonical h ?_
  intro b
  split
  · exact answer_canonical h
  · exact hf _ _ _

theorem copyRange_canonical {src dst n} (h : Canonical s) : Canonical (copyRange src dst n s) := by
  unfold copyRange
  extract_lets m s1
  have hs1 : Canonical s1 := metEngine_canonical h
  split
  · exact putPhys_canonical hs1
  · exact ⟨wf_copiedMem _ _ _ _ h.mem, hs1.core, hs1.parked⟩

theorem copyOut_canonical {pa bus n} (h : Canonical s) : Canonical (copyOut pa bus n s) :=
  foldl_fst_canonical (fun _ _ h1 => copyRange_canonical h1) h

theorem copyIn_canonical {bus pa n} (h : Canonical s) : Canonical (copyIn bus pa n s) :=
  foldl_fst_canonical (fun _ _ h1 => copyRange_canonical h1) h

theorem execAlloc_canonical {fn} (h : Canonical s) : OutCanonical (execAlloc fn s) := by
  unfold execAlloc
  refine serve_canonical ?_ h
  intro x0 x1 h2
  extract_lets size code psz n place b
  split
  · exact answer_canonical h2
  · split
    · exact answer_canonical h2
    · split
      · exact answer_canonical h2
      · split
        · exact answer_canonical h2
        · exact answer_canonical (writeTable_canonical h2)

theorem execFree_canonical {fn} (h : Canonical s) : OutCanonical (execFree fn s) := by
  unfold execFree
  refine serve_canonical ?_ h
  intro x0 x1 h2
  refine withHandle_canonical h2 ?_
  intro x0
  split <;> exact answer_canonical h2

theorem execBack_canonical {fn} (h : Canonical s) : OutCanonical (execBack fn s) := by
  unfold execBack
  refine serve_canonical ?_ h
  intro x0 x1 h2
  refine withPage_canonical h2 ?_
  intro b i p
  split
  · exact answer_canonical h2
  · split
    · exact answer_canonical h2
    · exact answer_canonical (settlePage_canonical (updPage_canonical h2))

theorem execEvict_canonical {fn} (h : Canonical s) : OutCanonical (execEvict fn s) := by
  unfold execEvict
  refine serve_canonical ?_ h
  intro x0 x1 h2
  refine withPage_canonical h2 ?_
  intro b i p
  extract_lets n
  split
  · exact answer_canonical h2
  · split
    · exact answer_canonical h2
    · split
      · exact answer_canonical (updPage_canonical (copyOut_canonical h2))
      · exact serveSites_canonical h2

theorem execFetch_canonical {fn bytes} (h : Canonical s) : OutCanonical (execFetch fn bytes s) := by
  unfold execFetch
  refine serve_canonical ?_ h
  intro x0 x1 h2
  refine withPage_canonical h2 ?_
  intro b i p
  extract_lets n bus
  split
  · exact answer_canonical (settlePage_canonical (updPage_canonical (copyIn_canonical (putHost_canonical h2))))
  · exact serveSites_canonical h2

theorem execQuery_canonical {fn} (h : Canonical s) : OutCanonical (execQuery fn s) :=
  serve_canonical (fun _ _ h1 => withPage_canonical h1 (fun _ _ _ => answer_canonical h1)) h

theorem execGrant_canonical {fn} (h : Canonical s) : OutCanonical (execGrant fn s) := by
  unfold execGrant
  refine serve_canonical ?_ h
  intro x0 x1 h2
  extract_lets base size f others
  split
  · exact answer_canonical h2
  · split <;> exact answer_canonical h2

theorem repriority_canonical {q pri} (h : Canonical s) : Canonical (repriority q pri s) := h

theorem execQueue_canonical {fn} (h : Canonical s) : OutCanonical (execQueue fn s) := by
  unfold execQueue
  refine serve_canonical ?_ h
  intro x0 x1 h2
  split
  · exact answer_canonical h2
  · split
    · exact answer_canonical h2
    · extract_lets q f pri w front
      split
      · exact answer_canonical h2
      · exact answer_canonical (repriority_canonical (updQueue_canonical h2))

theorem metStaging_canonical {off n} (h : Canonical s) : Canonical (metStaging off n s) := metEngine_canonical h

theorem execAttest_canonical {fn salt} (h : Canonical s) : OutCanonical (execAttest fn salt s) :=
  serve_canonical (fun _ _ h1 => answer_canonical (putHost_canonical (metStaging_canonical h1))) h

theorem execKvclear_canonical {fn} (h : Canonical s) : OutCanonical (execKvclear fn s) := by
  unfold execKvclear
  refine serve_canonical ?_ h
  intro x0 x1 h2
  extract_lets target f
  split
  · exact answer_canonical h2
  · split
    · exact answer_canonical h2
    · exact answer_canonical (dropNames_canonical h2)

theorem execEvHeadWrite_canonical {value} (h : Canonical s) : OutCanonical (execEvHeadWrite value s) := tellAll_canonical h

/-! ## The canonical form in Machine/EvBoot.lean -/

theorem countViol_canonical (h : Canonical s) : Canonical (countViol s) := countErr_canonical h

theorem millerLoaded_canonical {x} (h : Canonical s) : Canonical (millerLoaded x s) := h

theorem millerPend_canonical {o n store} (h : Canonical s) : Canonical (millerPend o n store s) := by
  unfold millerPend
  split
  · exact millerLoaded_canonical h
  · exact h

theorem millerTcm_canonical {o n store} (h : Canonical s) : Canonical (millerTcm o n store s) := by
  unfold millerTcm
  split
  · exact millerLoaded_canonical h
  · exact h

theorem millerServe_canonical (h : Canonical s) : Canonical (millerServe s) := by
  unfold millerServe
  split
  · exact h
  · extract_lets u t
    have ht : Canonical t := h
    split
    · split
      · exact millerLoaded_canonical ((readSites_canonical ht).of_ok ‹_›)
      · next s1 _ =>
        have hs1 : Canonical s1 := (readSites_canonical ht).of_stall ‹_›
        exact hs1
      · exact millerLoaded_canonical (metUnit_canonical ht)
    · split
      · exact (writeSites_canonical ht).of_ok ‹_›
      · next s1 _ =>
        have hs1 : Canonical s1 := (writeSites_canonical ht).of_stall ‹_›
        exact hs1
      · exact ht

theorem millerDevice_canonical {a} (h : Canonical s) : Canonical (millerDevice a s) := by
  unfold millerDevice
  split
  · exact millerServe_canonical h
  · split
    · exact millerLoaded_canonical (countViol_canonical h)
    · exact countViol_canonical h

theorem execMillerAccess_canonical {addr size store} (h : Canonical s) : OutCanonical (execMillerAccess addr size store s) := by
  unfold execMillerAccess
  extract_lets a n x
  split
  · exact h
  · split
    · exact millerPend_canonical h
    · split
      · exact millerTcm_canonical h
      · split
        · split
          · exact trivial
          · exact millerDevice_canonical h
        · exact h

theorem Core.reset_canonical (phys : BitVec 8) : CoreCanonical (Core.reset phys) :=
  ⟨wf_nil, wf_nil⟩

theorem State.reset_canonical : Canonical State.reset := by
  refine ⟨wf_nil, Core.reset_canonical 0, fun e he => ?_⟩
  obtain ⟨i, _, rfl⟩ := List.mem_map.mp he
  exact Core.reset_canonical _

theorem bootGo_canonical (h : Canonical s) : Canonical (bootGo s) := by
  unfold bootGo
  split <;> exact h

theorem execBtGo_canonical (h : Canonical s) : OutCanonical (execBtGo s) := bootGo_canonical h

theorem applyMap_canonical {map} (h : Canonical s) : Canonical (applyMap map s) :=
  ⟨h.mem, h.core, map_coreCanonical h.parked fun _ he => he⟩

theorem builtInTest_canonical {r} (h : Canonical s) : Canonical (builtInTest r s) := by
  unfold builtInTest
  extract_lets cached map s1 s2 u
  have hs1 : Canonical s1 := by
    unfold s1
    split
    · exact h
    · exact metStaging_canonical h
  have hs2 : Canonical s2 := putMem_canonical (applyMap_canonical hs1)
  exact hs2.congr rfl rfl rfl

theorem identity_canonical (h : Canonical s) : Canonical (identity s) := h

theorem startMiller_canonical (h : Canonical s) : Canonical (startMiller s) := by
  unfold startMiller
  extract_lets image code u s1 u1
  have hs1 : Canonical s1 := metStaging_canonical h
  split
  · exact hs1
  · exact hs1.congr rfl rfl rfl

theorem execBootSequenceEnd_canonical {r} (h : Canonical s) : OutCanonical (execBootSequenceEnd r s) := by
  unfold execBootSequenceEnd
  split
  · exact h
  · extract_lets s1 s2 u
    have hs1 : Canonical s1 := by
      unfold s1
      split
      · exact identity_canonical (builtInTest_canonical h)
      · exact h
    have hs2 : Canonical s2 := startMiller_canonical hs1
    exact sendIrq_canonical (hs2.congr rfl rfl rfl)

theorem coldReset_canonical (h : Canonical s) : Canonical (coldReset s) :=
  ⟨wf_filter _ _ h.mem, State.reset_canonical.core, State.reset_canonical.parked⟩

theorem Core.warm_canonical (k : Core) : CoreCanonical k.warm := ⟨wf_nil, wf_nil⟩

theorem warmReset_canonical (h : Canonical s) : Canonical (warmReset s) :=
  ⟨h.mem, Core.warm_canonical _, map_coreCanonical h.parked fun _ _ => Core.warm_canonical _⟩

theorem execCold_canonical (h : Canonical s) : OutCanonical (execCold s) := coldReset_canonical h

theorem execWarm_canonical (h : Canonical s) : OutCanonical (execWarm s) := warmReset_canonical h

theorem execColdResetInput_canonical (h : Canonical s) : OutCanonical (execColdResetInput s) := coldReset_canonical h

theorem haltQueue_canonical {q} (h : Canonical s) : Canonical (haltQueue s q) := updQueue_canonical (cancelHead_canonical h)

theorem execFunctionLevelReset_canonical {fn} (h : Canonical s) : OutCanonical (execFunctionLevelReset fn s) := by
  unfold execFunctionLevelReset
  extract_lets mine s1
  have hs1 : Canonical s1 := foldl_canonical (fun _ _ h0 => haltQueue_canonical h0) h
  exact settleDrops_canonical (hs1.congr rfl rfl rfl)

theorem execPowerClamp_canonical {watts} (h : Canonical s) : OutCanonical (execPowerClamp watts s) := h

theorem execThermalClamp_canonical {layer sixteenths} (h : Canonical s) : OutCanonical (execThermalClamp layer sixteenths s) := h

theorem execEmergencyClamp_canonical {layer sixteenths} (h : Canonical s) : OutCanonical (execEmergencyClamp layer sixteenths s) := h

theorem execTemperatureSample_canonical {core sixteenths} (h : Canonical s) : OutCanonical (execTemperatureSample core sixteenths s) := by
  unfold execTemperatureSample
  split
  · exact h
  · extract_lets s1
    have hs1 : Canonical s1 := onCore_canonical (fun _ h0 => withCore_canonical (fun _ h1 => h1) h0) h
    exact hs1.congr rfl rfl rfl

theorem execClampRelease_canonical {layer} (h : Canonical s) : OutCanonical (execClampRelease layer s) := h

theorem execClockChange_canonical {layer} (h : Canonical s) : OutCanonical (execClockChange layer s) := h

end Sys2Proof.Machine
end

