-- ==== Sys2Proof/Proofs/CanonicalFabric.lean ====
section
/-! SUPPORT. The events of the network engine, the fabric unit, Selvedge and the host's registers keep the canonical form. -/

namespace Sys2Proof.Machine

open Sys2Proof

set_option Elab.async false

variable {s t : State} {k : Core}

/-! ## The canonical form in Machine/EvNet.lean -/

theorem countOk_canonical {x} (h : Canonical s) : Canonical (countOk x s) := by
  unfold countOk
  split
  · exact h
  · exact setCnt_canonical h

theorem countFail_canonical {x} (h : Canonical s) : Canonical (countFail x s) := by
  unfold countFail
  split
  · exact h
  · exact setCnt_canonical h

theorem failRequest_canonical {k ccnt status} (h : Canonical s) : Canonical (failRequest k ccnt status s) :=
  updEp_canonical (countFail_canonical h)

theorem readSource_canonical {ep req i} (h : Canonical s) : (readSource s ep req i).IsCanonical := by
  unfold readSource
  extract_lets sites row
  split
  · exact serveSites_canonical h
  · split
    · exact trivial
    · exact (readSites_canonical h).of_stall ‹_›
    · exact metFault_canonical h

theorem emitPacket_canonical {r i bs} (h : Canonical s) : Canonical (emitPacket r i bs s) := by
  unfold emitPacket
  extract_lets w e out u
  split
  · exact h
  · exact metEngine_canonical h

theorem updFlight_canonical {id f} (h : Canonical s) : Canonical (updFlight id f s) := h

theorem updPacket_canonical {id i f} (h : Canonical s) : Canonical (updPacket id i f s) := updFlight_canonical h

theorem dropFlight_canonical {id} (h : Canonical s) : Canonical (dropFlight id s) := h

theorem failFlight_canonical {r status} (h : Canonical s) : Canonical (failFlight r status s) :=
  failRequest_canonical (dropFlight_canonical h)

theorem retransmit_canonical {r i again} (h : Canonical s) : Canonical (retransmit r i again s) := by
  unfold retransmit
  split
  · exact (readSource_canonical h).of_wait ‹_›
  · exact failFlight_canonical ((readSource_canonical h).of_fail ‹_›)
  · exact updPacket_canonical (emitPacket_canonical h)

theorem popSend_canonical {k} (h : Canonical s) : Canonical (popSend k s) := updEp_canonical h

theorem firstUnread_canonical {ep req n i} {x : Source} (h : Canonical s) (e : firstUnread s ep req n i = some x) : x.IsCanonical := by
  induction n generalizing i with
  | zero => cases e
  | succ n ih =>
    unfold firstUnread at e
    split at e
    · exact ih e
    · cases e
      exact readSource_canonical h

theorem runSend_canonical {k op} (h : Canonical s) : Canonical (runSend k op s) := by
  unfold runSend
  extract_lets e u
  split
  · exact h
  · extract_lets w n openNow r s1
    have hs1 : Canonical s1 := popSend_canonical h
    split
    · exact h
    · split
      · exact (firstUnread_canonical h ‹_›).of_wait rfl
      · exact failRequest_canonical (popSend_canonical ((firstUnread_canonical h ‹_›).of_fail rfl))
      · refine foldl_canonical ?_ hs1
        intro u x h4
        split
        · exact emitPacket_canonical h4
        · exact h4

theorem execSend_canonical {ep} (h : Canonical s) : OutCanonical (execSend ep s) := runSend_canonical h

theorem execWrite_canonical {ep} (h : Canonical s) : OutCanonical (execWrite ep s) := runSend_canonical h

theorem runRecv_canonical {k op f} (h : Canonical s) (h1 : ∀ x0 x1 x2, Canonical x2 → Canonical (f x0 x1 x2)) :
    OutCanonical (runRecv k op s f) := by
  unfold runRecv
  extract_lets e
  split
  · exact h
  · extract_lets w
    split
    · exact h
    · exact h1 _ _ _ (updEp_canonical h)

theorem execRecv_canonical {ep} (h : Canonical s) : OutCanonical (execRecv ep s) := runRecv_canonical h (fun _ _ _ h1 => h1)

theorem execExpose_canonical {ep} (h : Canonical s) : OutCanonical (execExpose ep s) := by
  unfold execExpose
  refine runRecv_canonical h ?_
  intro x0 x1 x2 h2
  extract_lets others u
  split
  · exact failRequest_canonical h2
  · exact countOk_canonical h2

theorem execWithdraw_canonical {ep} (h : Canonical s) : OutCanonical (execWithdraw ep s) := by
  unfold execWithdraw
  refine runRecv_canonical h ?_
  intro x0 x1 x2 h2
  split
  · exact failRequest_canonical h2
  · exact countOk_canonical h2

theorem ackPacket_canonical {p what} (h : Canonical s) : Canonical (ackPacket p what s) := h

theorem netPlaced_canonical {ep peer ordered msg index} (h : Canonical s) : Canonical (netPlaced ep peer ordered msg index s) := by
  unfold netPlaced
  split
  · exact h
  · extract_lets placed all u s1
    have hs1 : Canonical s1 := h
    split
    · exact countOk_canonical hs1
    · exact hs1

theorem netUnkept_canonical {ep peer msg index} (h : Canonical s) : Canonical (netUnkept ep peer msg index s) := h

theorem placePacket_canonical {p r} (h : Canonical s) : Canonical (placePacket p r s) := by
  unfold placePacket
  extract_lets at_ g0
  split
  · next s1 _ =>
    have hs1 : Canonical s1 := (writeSites_canonical h).of_stall ‹_›
    split <;> exact hs1
  · exact ackPacket_canonical (metFault_canonical h)
  · exact ackPacket_canonical ((writeSites_canonical h).of_ok ‹_›)
  · next s1 _ =>
    have hs1 : Canonical s1 := (writeSites_canonical h).of_ok ‹_›
    split
    · exact netPlaced_canonical hs1
    · exact hs1

theorem takeRecv_canonical {p b} (h : Canonical s) : Canonical (takeRecv p b s) := by
  unfold takeRecv
  split <;> exact h

theorem arrive_canonical {p} (h : Canonical s) : Canonical (arrive p s) := by
  unfold arrive
  split
  · split
    · exact ackPacket_canonical h
    · exact placePacket_canonical h
  · split
    · exact ackPacket_canonical h
    · exact placePacket_canonical (takeRecv_canonical h)

theorem execPacketArrival_canonical {p} (h : Canonical s) : OutCanonical (execPacketArrival p s) := by
  unfold execPacketArrival
  extract_lets fits seen
  split
  · exact h
  · exact arrive_canonical h

theorem fastResend_canonical {x} (h : Canonical s) : Canonical (fastResend x s) := by
  unfold fastResend
  split
  · exact h
  · split
    · split
      · exact (readSource_canonical h).of_wait ‹_›
      · exact updPacket_canonical (retransmit_canonical h)
    · exact h

theorem passOver_canonical {x} (h : Canonical s) : Canonical (passOver s x) := fastResend_canonical (updPacket_canonical h)

theorem finishFlight_canonical {id} (h : Canonical s) : Canonical (finishFlight id s) := by
  unfold finishFlight
  split
  · exact h
  · split
    · exact countOk_canonical (dropFlight_canonical h)
    · exact h

theorem execPacketAcknowledgement_canonical {req index ack} (h : Canonical s) :
    OutCanonical (execPacketAcknowledgement req index ack s) := by
  unfold execPacketAcknowledgement
  split
  · exact h
  · split
    · exact failFlight_canonical h
    · exact failFlight_canonical h
    · split
      · exact h
      · split
        · exact failFlight_canonical h
        · exact updFlight_canonical h
    · split
      · exact h
      · exact finishFlight_canonical (foldl_canonical (fun _ _ h1 => passOver_canonical h1) (updPacket_canonical h))

theorem execPacketTimeout_canonical {req index} (h : Canonical s) : OutCanonical (execPacketTimeout req index s) := by
  unfold execPacketTimeout
  split
  · exact h
  · split
    · exact h
    · split
      · exact h
      · split
        · exact failFlight_canonical h
        · exact retransmit_canonical h

theorem unreadOf_canonical {r} {x : Source} (h : Canonical s) (e : unreadOf s r = some x) : x.IsCanonical := by
  obtain ⟨p, _, hp⟩ := List.exists_of_findSome?_eq_some e
  split at hp
  · cases hp
  · cases hp
    exact readSource_canonical h

theorem execNotReadyRetry_canonical {req} (h : Canonical s) : OutCanonical (execNotReadyRetry req s) := by
  unfold execNotReadyRetry
  split
  · exact h
  · split
    · exact h
    · split
      · exact h
      · split
        · exact (unreadOf_canonical h ‹_›).of_wait rfl
        · extract_lets s1
          have hs1 : Canonical s1 := updFlight_canonical h
          refine foldl_canonical ?_ hs1
          intro u x h3
          split
          · exact h3
          · exact retransmit_canonical h3

theorem execEthernetLinkStateChange_canonical {port up} (h : Canonical s) : OutCanonical (execEthernetLinkStateChange port up s) := h

/-! ## The canonical form in Machine/EvFabric.lean -/

theorem dropStripe_canonical {dst seq} (h : Canonical s) : Canonical (dropStripe dst seq s) := h

theorem recut_canonical {m} (h : Canonical s) : Canonical (recut m s) := by
  unfold recut
  extract_lets mine sent s1 u
  have hs1 : Canonical s1 := foldl_canonical (fun _ _ h0 => dropStripe_canonical h0) h
  split
  · exact h
  · exact hs1.congr rfl rfl rfl

theorem releaseOne_canonical {x} (h : Canonical s) : Canonical (releaseOne s x) := by
  unfold releaseOne
  split
  · exact h
  · split
    · exact h
    · exact emitStripe_canonical (updStripe_canonical h)

theorem releaseAnswer_canonical {x} (h : Canonical s) : Canonical (releaseAnswer s x) := by
  unfold releaseAnswer
  split
  · exact h
  · exact sendAnswer_canonical h

theorem releaseHeld_canonical (h : Canonical s) : Canonical (releaseHeld s) := by
  unfold releaseHeld
  extract_lets s1
  have hs1 : Canonical s1 := foldl_canonical (fun _ _ hu => recut_canonical hu) h
  exact foldl_canonical (fun _ _ hu => releaseAnswer_canonical hu) (foldl_canonical (fun _ _ hu => releaseOne_canonical hu) hs1)

theorem updSend_canonical {id g} (h : Canonical s) : Canonical (updSend id g s) := h

theorem dropMsgStripes_canonical {id} (h : Canonical s) : Canonical (dropMsgStripes id s) :=
  foldl_canonical (fun _ _ h1 => dropStripe_canonical h1) h

theorem endSend_canonical {id code} (h : Canonical s) : Canonical (endSend id code s) := updSend_canonical (dropMsgStripes_canonical h)

theorem tellSend_canonical {m code} (h : Canonical s) : Canonical (tellSend m code s) := by
  unfold tellSend
  extract_lets bs a done write
  have hdone : ∀ x, Canonical x → Canonical (done x) := fun _ h0 => h0
  have hwrite : ∀ x, Canonical x → Canonical (write x) := by
    unfold write
    intro x h2
    split
    · exact hdone _ (issueAccess_canonical h2)
    · split
      · exact hdone _ (noteKept_canonical ((writeSites_canonical h2).of_ok ‹_›))
      · exact (writeSites_canonical h2).of_stall ‹_›
      · exact hdone _ h2
  split
  · exact onCore_canonical hwrite h
  · exact hdone _ h

theorem tellSends_canonical (h : Canonical s) : Canonical (tellSends s) := by
  unfold tellSends
  refine foldl_canonical ?_ h
  intro u x h2
  split
  · exact tellSend_canonical h2
  · exact h2

theorem answerUnit_canonical {core id r} (h : Canonical s) : Canonical (answerUnit core id r s) :=
  onCore_canonical (fun _ h1 => withCore_canonical (fun _ h2 => Core.answer_canonical h2) h1) h

theorem noticeLoss_canonical {dst seq lost} (h : Canonical s) : Canonical (noticeLoss dst seq lost s) := sendAnswer_canonical h

theorem mctlDone_canonical {err} (h : Canonical s) : Canonical (mctlDone err s) := h

theorem stripeLost_canonical {notice st} (h : ∀ x0 x1 x2 x3, Canonical x3 → Canonical (notice x0 x1 x2 x3)) (h1 : Canonical s) :
    Canonical (stripeLost notice st s) := by
  unfold stripeLost
  split
  · extract_lets s1
    have hs1 : Canonical s1 := by
      unfold s1
      split
      · exact h _ _ _ _ h1
      · exact h1
    split
    · exact answerUnit_canonical hs1
    · exact hs1
  · exact endSend_canonical (h _ _ _ _ h1)
  · exact mctlDone_canonical h1
  · exact sendStripe_canonical h1

theorem loseStripe_canonical {st} (h : Canonical s) : Canonical (loseStripe st s) :=
  stripeLost_canonical (fun _ _ _ _ h1 => noticeLoss_canonical h1) (dropStripe_canonical h)

theorem loseFormer_canonical {e} (h : Canonical s) : Canonical (loseFormer e s) := stripeLost_canonical (fun _ _ _ _ h1 => h1) h

theorem execLinkStateChange_canonical {port up} (h : Canonical s) : OutCanonical (execLinkStateChange port up s) := by
  unfold execLinkStateChange
  split
  · exact h
  · exact releaseHeld_canonical h

theorem resetLink_canonical {n} (h : Canonical s) : Canonical (resetLink n s) := by
  unfold resetLink
  split
  · exact h
  · split
    · exact h
    · split <;> exact h

theorem execRst_canonical {port miller} (h : Canonical s) : OutCanonical (execRst port miller s) := by
  unfold execRst
  extract_lets n u
  split
  · split
    · exact resetLink_canonical h
    · exact h
  · split
    · exact h
    · split
      · exact h
      · exact resetLink_canonical h

theorem execFlitDrop_canonical {port} (h : Canonical s) : OutCanonical (execFlitDrop port s) := by
  unfold execFlitDrop
  split <;> exact h

theorem execRelabWrite_canonical {value miller} (h : Canonical s) : OutCanonical (execRelabWrite value miller s) := by
  unfold execRelabWrite
  extract_lets perm u
  split
  · exact h
  · exact releaseHeld_canonical h

theorem changeParts_canonical {f} (h : Canonical s) : Canonical (changeParts f s) := startPairs_canonical h

theorem execPfSubstWrite_canonical {k value miller} (h : Canonical s) : OutCanonical (execPfSubstWrite k value miller s) := by
  unfold execPfSubstWrite
  split
  · exact h
  · extract_lets e u f s1 u1
    have hs1 : Canonical s1 := changeParts_canonical h
    exact releaseHeld_canonical (hs1.congr rfl rfl rfl)

theorem finishStripe_canonical {src seq ack} (h : Canonical s) : Canonical (finishStripe src seq ack s) := sendAck_canonical h

theorem performUnit_canonical {lost u} (h : Canonical s) : (performUnit lost u s).IsCanonical := by
  unfold performUnit
  extract_lets who g0 broken
  split
  · exact h
  · split
    · split
      · exact (readSites_canonical h).of_ok ‹_›
      · exact (readSites_canonical h).of_stall ‹_›
      · exact metUnit_canonical h
    · split
      · exact h
      · split
        · exact (writeSites_canonical h).of_ok ‹_›
        · exact (writeSites_canonical h).of_stall ‹_›
        · exact metUnit_canonical h
    · extract_lets n sites new
      split
      · exact h
      · split
        · next s1 _ =>
          have hs1 : Canonical s1 := (rmwSites_canonical h).of_ok ‹_›
          split
          · exact h
          · exact hs1
        · exact (rmwSites_canonical h).of_stall ‹_›
        · exact metUnit_canonical h

theorem updIn_canonical {src core copy g} (h : Canonical s) : Canonical (updIn src core copy g s) := h

theorem answerSource_canonical {src u reply groups} (h : Canonical s) : Canonical (answerSource src u reply groups s) := by
  unfold answerSource
  split
  · exact finishStripe_canonical h
  · exact h

theorem serveStream_canonical {src core copy n} (h : Canonical s) : Canonical (serveStream src core copy n s) := by
  induction n generalizing s with
  | zero => exact h
  | succ n ih =>
    unfold serveStream
    extract_lets s1
    have hs1 : Canonical s1 := updIn_canonical h
    split
    · exact hs1
    · split
      · exact hs1
      · split
        · exact (performUnit_canonical hs1).of_wait ‹_›
        · exact ih (answerSource_canonical (updIn_canonical ((performUnit_canonical hs1).of_done ‹_›)))

theorem serveStreams_canonical (h : Canonical s) : Canonical (serveStreams s) := foldl_canonical (fun _ _ h1 => serveStream_canonical h1) h

theorem takeUnit_canonical {src seq core copy count since kind addr len job bytes} (h : Canonical s) :
    Canonical (takeUnit src seq core copy count since kind addr len job bytes s) :=
  serveStream_canonical (updIn_canonical h)

theorem unitNoticed_canonical {src core copy count} (h : Canonical s) : Canonical (unitNoticed src core copy count s) :=
  serveStream_canonical (updIn_canonical h)

theorem updRx_canonical {src id g} (h : Canonical s) : Canonical (updRx src id g s) := h

theorem tellRecv_canonical {r code} (h : Canonical s) : Canonical (tellRecv r code s) := by
  unfold tellRecv
  extract_lets a told
  have htold : ∀ x, Canonical x → Canonical (told x) :=
    fun _ h0 => foldl_canonical (fun _ _ h1 => finishStripe_canonical h1) (updRx_canonical h0)
  split
  · exact htold _ ((writeSites_canonical h).of_ok ‹_›)
  · exact (writeSites_canonical h).of_stall ‹_›
  · exact htold _ h

theorem tellRecvs_canonical (h : Canonical s) : Canonical (tellRecvs s) := by
  unfold tellRecvs
  refine foldl_canonical ?_ h
  intro u x h2
  split
  · split
    · exact h2
    · exact tellRecv_canonical h2
  · exact h2

theorem endRx_canonical {src id code} (h : Canonical s) : Canonical (endRx src id code s) := tellRecvs_canonical (updRx_canonical h)

theorem matchMsg_canonical {src id mbox len job} (h : Canonical s) : Canonical (matchMsg src id mbox len job s).1 := by
  unfold matchMsg
  split
  · exact h
  · split
    · exact h
    · extract_lets u f s1 s2
      have hs1 : Canonical s1 := h
      have hs2 : Canonical s2 := endRx_canonical hs1
      split
      · exact hs1
      · exact hs2

theorem stripeEnds_canonical {src seq id code} (h : Canonical s) : Canonical (stripeEnds src seq id code s) := by
  unfold stripeEnds
  extract_lets s1
  have hs1 : Canonical s1 := updRx_canonical h
  exact endRx_canonical (hs1.congr rfl rfl rfl)

theorem msgPlaced_canonical {src seq id index stripes} (h : Canonical s) : Canonical (msgPlaced src seq id index stripes s) := by
  unfold msgPlaced
  split
  · exact h
  · extract_lets placed s1
    have hs1 : Canonical s1 := updRx_canonical h
    split
    · exact stripeEnds_canonical hs1
    · exact finishStripe_canonical hs1

theorem msgFails_canonical {src seq id code} (h : Canonical s) : Canonical (msgFails src seq id code s) := by
  unfold msgFails
  split
  · exact stripeEnds_canonical h
  · exact finishStripe_canonical h

theorem placeMsg_fst_canonical {b id len index data} (h : Canonical s) (e : (placeMsg b id len index data s).1 = some t) : Canonical t := by
  unfold placeMsg at e
  split at e
  · cases e
    exact h
  · split at e
    · dsimp only at e
      split at e
      · cases e
        exact finishStripe_canonical h
      · cases e
    · split at e
      · cases e
        exact finishStripe_canonical h
      · dsimp only at e
        split at e
        · cases e
        · cases e
          exact msgFails_canonical h
        · next hw =>
          cases e
          exact msgFails_canonical ((writeSites_canonical h).of_ok hw)
        · next hw =>
          have hu := (writeSites_canonical h).of_ok hw
          split at e
          · cases e
            exact msgPlaced_canonical hu
          · cases e
            exact hu

theorem placeMsg_snd_canonical {b id len index data} (h : Canonical s) : Canonical (placeMsg b id len index data s).2 := by
  unfold placeMsg
  split
  · exact h
  · split
    · exact h
    · split
      · exact h
      · extract_lets a g0
        split
        · exact (writeSites_canonical h).of_stall ‹_›
        · exact h
        · exact (writeSites_canonical h).of_ok ‹_›
        · split
          · exact (writeSites_canonical h).of_ok ‹_›
          · exact (writeSites_canonical h).of_ok ‹_›

theorem takeNotice_canonical {src seq lost} (h : Canonical s) : Canonical (takeNotice src seq lost s) := by
  unfold takeNotice
  refine sendAck_canonical ?_
  split
  · exact unitNoticed_canonical h
  · exact endRx_canonical h

theorem execLossNotice_canonical {src seq kind number} (h : Canonical s) : OutCanonical (execLossNotice src seq kind number s) :=
  takeNotice_canonical h

theorem execLossNoticeRepeat_canonical {dst seq kind number} (h : Canonical s) :
    OutCanonical (execLossNoticeRepeat dst seq kind number s) := by
  unfold execLossNoticeRepeat
  extract_lets lost
  split
  · exact sendAnswer_canonical h
  · exact h

theorem landMgmt_canonical {src bytes} (h : Canonical s) : Canonical (landMgmt src bytes s).1 := by
  unfold landMgmt
  extract_lets base tcm entry u u1
  split <;> exact h

theorem execManagementMessageArrival_canonical {src bytes} (h : Canonical s) : OutCanonical (execManagementMessageArrival src bytes s) :=
  landMgmt_canonical h

theorem execManagementMessageSend_canonical {value} (h : Canonical s) : OutCanonical (execManagementMessageSend value s) := by
  unfold execManagementMessageSend
  extract_lets f
  split
  · exact h
  · split
    · exact h
    · exact sendStripe_canonical h

theorem landBlock_canonical {range block off bytes} (h : Canonical s) : Canonical (landBlock range block off bytes s) := by
  unfold landBlock
  split
  · split
    · exact putMem_canonical h
    · exact h

/-! ## The canonical form in Machine/EvSelvedge.lean -/

theorem execSvCfgWrite_canonical {value} (h : Canonical s) : OutCanonical (execSvCfgWrite value s) := by
  unfold execSvCfgWrite
  extract_lets v
  split <;> split <;> exact h

theorem takeParity_canonical {src seq upd} (h : Canonical s) : Canonical (takeParity src seq upd s) := by
  unfold takeParity
  split
  · exact finishStripe_canonical h
  · split
    · exact finishStripe_canonical h
    · extract_lets a s1 kept u
      have hs1 : Canonical s1 := finishStripe_canonical (putMem_canonical h)
      exact hs1.congr rfl rfl rfl

theorem execParityUpdate_canonical {src seq upd} (h : Canonical s) : OutCanonical (execParityUpdate src seq upd s) := takeParity_canonical h

theorem deferredDone_canonical {d} (h : Canonical s) : Canonical (deferredDone d s) := by
  unfold deferredDone
  split
  · exact finishStripe_canonical h
  · exact msgPlaced_canonical h
  · exact netPlaced_canonical h

theorem deferredLost_canonical {d} (h : Canonical s) : Canonical (deferredLost d s) := by
  unfold deferredLost
  split
  · exact finishStripe_canonical h
  · exact msgFails_canonical h
  · exact netUnkept_canonical h

theorem groupDone_canonical {g} (h : Canonical s) : Canonical (groupDone g s) := foldl_canonical (fun _ _ h1 => deferredDone_canonical h1) h

theorem markUnkept_canonical {g} (h : Canonical s) : Canonical (markUnkept g s) := h

theorem groupLost_canonical {p} (h : Canonical s) : Canonical (groupLost p s) := by
  unfold groupLost
  extract_lets mine u s1 s2
  have hs1 : Canonical s1 := markUnkept_canonical h
  have hs2 : Canonical s2 := foldl_canonical (fun _ _ h0 => deferredLost_canonical h0) hs1
  split
  · exact onCore_canonical (fun _ h0 => withCore_canonical (fun _ h1 => h1) h0) hs2
  · exact onCore_canonical (fun _ h0 => noteKept_canonical h0) hs2
  · exact hs2

theorem answerFreezes_canonical (h : Canonical s) : Canonical (answerFreezes s) := foldl_canonical (fun _ _ h1 => sendStripe_canonical h1) h

theorem settleUpdate_canonical {p unkept} (h : Canonical s) : Canonical (settleUpdate p unkept s) := by
  unfold settleUpdate
  extract_lets u s1 s2
  have hs1 : Canonical s1 := dropStripe_canonical h
  have hs2 : Canonical s2 := by
    unfold s2
    split
    · exact hs1
    · split
      · exact groupLost_canonical hs1
      · split
        · exact hs1
        · exact groupDone_canonical hs1
  exact answerFreezes_canonical hs2

theorem parityAnswered_canonical {dst seq refused} (h : Canonical s) : Canonical (parityAnswered dst seq refused s) := by
  unfold parityAnswered
  split
  · exact h
  · exact settleUpdate_canonical h

theorem execParityAcknowledgement_canonical {dst seq refused} (h : Canonical s) :
    OutCanonical (execParityAcknowledgement dst seq refused s) :=
  parityAnswered_canonical h

theorem execParityResend_canonical {dst seq} (h : Canonical s) : OutCanonical (execParityResend dst seq s) := by
  unfold execParityResend
  split
  · exact h
  · split
    · exact h
    · exact emitStripe_canonical (updStripe_canonical h)

theorem settleMember_canonical {g} (h : Canonical s) : Canonical (settleMember g s) :=
  foldl_canonical (fun _ _ h1 => settleUpdate_canonical h1) h

theorem memberLost_canonical {g} (h : Canonical s) : Canonical (memberLost g s) := by
  unfold memberLost
  split
  · exact h
  · exact settleMember_canonical (reportEvent_canonical h)

theorem noteCut_canonical (h : Canonical s) : Canonical (noteCut s) := h

theorem execMemberLoss_canonical {member} (h : Canonical s) : OutCanonical (execMemberLoss member s) := by
  unfold execMemberLoss
  split
  · exact memberLost_canonical h
  · exact h

theorem noteEnabled_canonical {g on} (h : Canonical s) : Canonical (noteEnabled g on s) := by
  unfold noteEnabled
  extract_lets bit_ u s1
  have hs1 : Canonical s1 := h
  split
  · exact hs1
  · exact settleMember_canonical hs1

theorem noteMember_canonical {l reset enabled} (h : Canonical s) : Canonical (noteMember l reset enabled s) := by
  unfold noteMember
  split
  · exact h
  · extract_lets s1
    have hs1 : Canonical s1 := by
      unfold s1
      split
      · exact noteEnabled_canonical (memberLost_canonical h)
      · exact h
    split
    · exact noteEnabled_canonical hs1
    · exact hs1

theorem loseToReset_canonical {st} (h : Canonical s) : Canonical (loseToReset st s) := by
  unfold loseToReset
  split
  · exact loseStripe_canonical h
  · exact loseStripe_canonical h
  · exact loseStripe_canonical h
  · exact dropStripe_canonical h

theorem formerReset_canonical {part} (h : Canonical s) : Canonical (formerReset part s) :=
  tellSends_canonical (foldl_canonical (fun _ _ h1 => loseFormer_canonical h1) h)

theorem peerReset_canonical {l} (h : Canonical s) : Canonical (peerReset l s) := by
  unfold peerReset
  extract_lets s1 s2 u
  have hs1 : Canonical s1 := foldl_canonical (fun _ _ h0 => loseToReset_canonical h0) h
  have hs2 : Canonical s2 := foldl_canonical (fun _ _ h0 => endRx_canonical h0) hs1
  exact tellSends_canonical (startPairs_canonical (hs2.congr rfl rfl rfl))

theorem execLinkStateNotice_canonical {part dim up news} (h : Canonical s) : OutCanonical (execLinkStateNotice part dim up news s) := by
  unfold execLinkStateNotice
  extract_lets others u s1 s2
  have hs1 : Canonical s1 := h
  have hs2 : Canonical s2 := by
    unfold s2
    split
    · exact formerReset_canonical hs1
    · exact hs1
  refine releaseHeld_canonical ?_
  split
  · exact hs2
  · refine noteMember_canonical ?_
    split
    · exact peerReset_canonical hs2
    · exact hs2

theorem rejoin_canonical {substitute} (h : Canonical s) : Canonical (rejoin substitute s) := by
  unfold rejoin
  split <;> exact h

theorem freezeStripe_canonical {x substitute release} (h : Canonical s) : Canonical (freezeStripe x substitute release s) := by
  unfold freezeStripe
  extract_lets v frozen
  split
  · exact h
  · split
    · split
      · exact h
      · exact rejoin_canonical h
    · exact answerFreezes_canonical h

theorem execStripeFreeze_canonical {range stripe substitute release} (h : Canonical s) :
    OutCanonical (execStripeFreeze range stripe substitute release s) :=
  freezeStripe_canonical h

theorem askOwners_canonical {release x} (h : Canonical s) : Canonical (askOwners release x s) :=
  foldl_canonical (fun _ _ h1 => sendStripe_canonical h1) h

theorem ownerFroze_canonical {src x} (h : Canonical s) : Canonical (ownerFroze src x s) := by
  unfold ownerFroze
  extract_lets a u
  split <;> exact h

theorem freezeNext_canonical (h : Canonical s) : Canonical (freezeNext s) := by
  unfold freezeNext
  split
  · exact h
  · exact foldl_canonical (fun _ _ h0 => askOwners_canonical h0) h

theorem execRebuild_canonical (h : Canonical s) : OutCanonical (execRebuild s) := by
  unfold execRebuild
  extract_lets v
  split
  · exact h
  · exact freezeNext_canonical h

theorem askBlock_canonical {x g} (h : Canonical s) : Canonical (askBlock x s g) := sendStripe_canonical h

theorem giveBlock_canonical {substitute x} (h : Canonical s) : Canonical (giveBlock substitute x s) := by
  unfold giveBlock
  extract_lets lost
  split
  · exact sendStripe_canonical (metLines_canonical h)
  · exact foldl_canonical (fun _ _ h0 => sendStripe_canonical h0) h

theorem blockCame_canonical {src x piece} (h : Canonical s) : Canonical (blockCame src x piece s) := h

theorem sendBlock_canonical {g range block bytes} (h : Canonical s) : Canonical (sendBlock g range block bytes s) :=
  foldl_canonical (fun _ _ h1 => sendStripe_canonical h1) h

theorem sendParities_canonical {x ds} (h : Canonical s) : Canonical (sendParities x ds s) := by
  unfold sendParities
  extract_lets n b other s1
  have hs1 : Canonical s1 := by
    unfold s1
    split
    · exact sendBlock_canonical h
    · exact h
  split
  · exact sendBlock_canonical hs1
  · exact hs1

theorem stripeDone_canonical {x} (h : Canonical s) : Canonical (stripeDone x s) := by
  unfold stripeDone
  extract_lets u v
  split
  · exact h
  · exact freezeNext_canonical h

theorem execStripeRebuild_canonical {range stripe blocks} (h : Canonical s) : OutCanonical (execStripeRebuild range stripe blocks s) := by
  unfold execStripeRebuild
  extract_lets x v role at_ fit lines ds own s1 u
  have hs1 : Canonical s1 := sendParities_canonical (putMem_canonical h)
  split
  · exact h
  · split
    · exact stripeDone_canonical (askOwners_canonical h)
    · refine stripeDone_canonical ?_
      split
      · exact hs1.congr rfl rfl rfl
      · exact askOwners_canonical hs1

theorem readStripe_canonical {x} (h : Canonical s) : Canonical (readStripe s x) := by
  unfold readStripe
  extract_lets asked live whole others more
  split
  · exact h
  · split
    · split
      · exact (execStripeRebuild_canonical h).of_next ‹_›
      · exact h
    · exact foldl_canonical (fun _ _ h0 => askBlock_canonical h0) h

theorem rebuildTurn_canonical (h : Canonical s) : Canonical (rebuildTurn s) := by
  unfold rebuildTurn
  split
  · exact foldl_canonical (fun _ _ h0 => readStripe_canonical h0) h
  · exact h

theorem releaseStripes_canonical (h : Canonical s) : Canonical (releaseStripes s) :=
  foldl_canonical (fun _ _ h1 => askOwners_canonical h1) h

/-! ## The canonical form in Machine/EvFragment.lean -/

theorem tryDecode_canonical {b} (h : Canonical s) : Canonical (tryDecode b s) := by
  unfold tryDecode
  split
  · exact h
  · extract_lets data free r
    have hfree : ∀ u, Canonical u → Canonical (free u) := fun _ hu => hu
    have hr : Canonical r.1 := landMgmt_canonical h
    split
    · exact takeUnit_canonical (hfree _ h)
    · split
      · next hp => exact hfree _ (placeMsg_fst_canonical h (congrArg Prod.fst hp))
      · next hp =>
        exact (placeMsg_snd_canonical h).of_snd hp
    · exact hfree _ (finishStripe_canonical hr)
    · exact hfree _ (finishStripe_canonical (landBlock_canonical h))
    · exact hfree _ (takeParity_canonical h)
    · exact hfree _ (finishStripe_canonical (freezeStripe_canonical h))
    · exact hfree _ (finishStripe_canonical (ownerFroze_canonical h))
    · split
      · exact h
      · exact hfree _ (finishStripe_canonical (giveBlock_canonical h))
    · exact hfree _ (finishStripe_canonical (blockCame_canonical h))
    · exact hfree _ (finishStripe_canonical (blockCame_canonical h))

theorem turnedAway_canonical {fr} (h : Canonical s) : Canonical (turnedAway fr s).1 := by
  unfold turnedAway
  split
  · split
    · exact matchMsg_canonical h
    · exact h
  · exact h

theorem bufferFragment_canonical {fr} (h : Canonical s) : Canonical (bufferFragment fr s) := by
  unfold bufferFragment
  split
  · split
    · exact h
    · exact tryDecode_canonical h
  · split
    · exact sendAck_canonical ((turnedAway_canonical h).of_fst ‹_›)
    · next s1 _ =>
      have hs1 : Canonical s1 := (turnedAway_canonical h).of_fst ‹_›
      split
      · exact hs1
      · exact tryDecode_canonical hs1

theorem lateFragment_canonical {fr ack} (h : Canonical s) : Canonical (lateFragment fr ack s) := by
  unfold lateFragment
  extract_lets u s1
  have hs1 : Canonical s1 := h
  split
  · exact sendAck_canonical hs1
  · exact hs1

theorem takeFragment_canonical {fr} (h : Canonical s) : Canonical (takeFragment fr s) := by
  unfold takeFragment
  split
  · exact lateFragment_canonical h
  · exact bufferFragment_canonical h

theorem execFragmentArrival_canonical {fr} (h : Canonical s) : OutCanonical (execFragmentArrival fr s) := takeFragment_canonical h

theorem execReceiverTimeout_canonical {src seq} (h : Canonical s) : OutCanonical (execReceiverTimeout src seq s) := by
  unfold execReceiverTimeout
  split
  · exact h
  · split
    · exact h
    · exact sendAnswer_canonical h

theorem execDecodeBufferFree_canonical {src seq} (h : Canonical s) : OutCanonical (execDecodeBufferFree src seq s) := by
  unfold execDecodeBufferFree
  split
  · exact h
  · split <;> exact h

theorem msgAcked_canonical {id index} (h : Canonical s) : Canonical (msgAcked id index s) := by
  unfold msgAcked
  extract_lets s1
  have hs1 : Canonical s1 := updSend_canonical h
  split
  · split
    · exact endSend_canonical hs1
    · exact hs1
  · exact hs1

theorem msgRefusedAt_canonical {id} (h : Canonical s) : Canonical (msgRefusedAt id s) := by
  unfold msgRefusedAt
  extract_lets s1
  have hs1 : Canonical s1 := dropMsgStripes_canonical h
  split
  · exact hs1
  · split
    · exact endSend_canonical hs1
    · exact updSend_canonical hs1

theorem stripeAnswered_canonical {st ack} (h : Canonical s) : Canonical (stripeAnswered st ack s) := by
  unfold stripeAnswered
  split
  · extract_lets s1
    have hs1 : Canonical s1 := dropStripe_canonical h
    split
    · exact answerUnit_canonical hs1
    · exact hs1
  · exact msgAcked_canonical (dropStripe_canonical h)
  · exact mctlDone_canonical (dropStripe_canonical h)
  · exact dropStripe_canonical h
  · exact dropStripe_canonical h
  · exact dropStripe_canonical h
  · exact dropStripe_canonical h
  · exact dropStripe_canonical h
  · exact dropStripe_canonical h
  · exact parityAnswered_canonical h
  · exact parityAnswered_canonical h
  · exact msgRefusedAt_canonical h
  · exact endSend_canonical h
  · exact mctlDone_canonical (dropStripe_canonical h)
  · exact h

theorem execStripeAcknowledgement_canonical {dst seq ack} (h : Canonical s) : OutCanonical (execStripeAcknowledgement dst seq ack s) := by
  unfold execStripeAcknowledgement
  split
  · exact h
  · split
    · exact h
    · exact tellSends_canonical (stripeAnswered_canonical h)

theorem sourceLost_canonical {m i c} (h : Canonical s) : Canonical (sourceLost m i c s) :=
  tellSends_canonical (endSend_canonical (metFault_canonical h))

theorem emitAgain_canonical {st data} (h : Canonical s) : Canonical (emitAgain st data s) := emitStripe_canonical (updStripe_canonical h)

theorem emitToPart_canonical {part st data} (h : Canonical s) : Canonical (emitToPart part st data s) := by
  unfold emitToPart
  extract_lets paths st1 frags u
  split <;> exact h

theorem resendStripe_canonical {emit st} (h : ∀ x0 x1 x2, Canonical x2 → Canonical (emit x0 x1 x2)) (h1 : Canonical s) :
    Canonical (resendStripe emit st s) := by
  unfold resendStripe
  split
  · exact h _ _ _ h1
  · extract_lets at_
    split
    · exact h _ _ _ ((readSites_canonical h1).of_ok ‹_›)
    · exact (readSites_canonical h1).of_stall ‹_›
    · exact sourceLost_canonical h1

theorem execSenderRetransmission_canonical {dst seq} (h : Canonical s) : OutCanonical (execSenderRetransmission dst seq s) := by
  unfold execSenderRetransmission
  split
  · exact h
  · split
    · exact resendStripe_canonical (fun _ _ _ h1 => emitAgain_canonical h1) h
    · exact h

theorem execRetransmissionRequest_canonical {dst seq} (h : Canonical s) : OutCanonical (execRetransmissionRequest dst seq s) := by
  unfold execRetransmissionRequest
  split
  · split
    · exact resendStripe_canonical (fun _ _ _ h1 => emitAgain_canonical h1) h
    · exact h
  · split
    · exact h
    · exact resendStripe_canonical (fun _ _ _ h1 => emitToPart_canonical h1) h
  · exact h

theorem execStripeLoss_canonical {dst seq} (h : Canonical s) : OutCanonical (execStripeLoss dst seq s) := by
  unfold execStripeLoss
  split
  · exact h
  · split
    · exact tellSends_canonical (loseStripe_canonical h)
    · exact h

theorem formerTimer_canonical {e} (h : Canonical s) : Canonical (formerTimer s e) := by
  unfold formerTimer
  extract_lets st due
  split
  · exact h
  · split
    · exact tellSends_canonical (loseFormer_canonical h)
    · split
      · exact resendStripe_canonical (fun _ _ _ h0 => emitToPart_canonical h0) h
      · split
        · exact tellSends_canonical (loseFormer_canonical h)
        · exact h

theorem execHoldExpiry_canonical {label} (h : Canonical s) : OutCanonical (execHoldExpiry label s) := by
  unfold execHoldExpiry
  extract_lets over_ late u s1
  have hs1 : Canonical s1 := h
  refine tellSends_canonical ?_
  refine foldl_canonical ?_ hs1
  intro u x h4
  split
  · split
    · exact h4
    · exact loseStripe_canonical h4
  · exact h4

theorem sendMsg_canonical {m bytes} (h : Canonical s) : Canonical (sendMsg m bytes s) :=
  foldl_canonical (fun _ _ h1 => sendStripe_canonical h1) (updSend_canonical h)

theorem readAndSend_canonical {m} (h : Canonical s) : Canonical (readAndSend m s) := by
  unfold readAndSend
  split
  · exact sendMsg_canonical ((readSites_canonical h).of_ok ‹_›)
  · exact (readSites_canonical h).of_stall ‹_›
  · exact sourceLost_canonical h

theorem execMessageEngineSend_canonical (h : Canonical s) : OutCanonical (execMessageEngineSend s) := by
  unfold execMessageEngineSend
  split
  · exact h
  · exact readAndSend_canonical h

theorem execMessageRefusalRetry_canonical {msg} (h : Canonical s) : OutCanonical (execMessageRefusalRetry msg s) := by
  unfold execMessageRefusalRetry
  split
  · exact h
  · split
    · split
      · exact readAndSend_canonical h
      · exact h
    · exact h

/-! ## The canonical form in Machine/Loader.lean -/

theorem becomeResident_canonical {code bs} (h : Canonical s) : Canonical (becomeResident code bs s) := by
  unfold becomeResident
  split
  · exact h
  · split <;> exact h

/-! ## The canonical form in Machine/EvRegister.lean -/

theorem debugWrite_canonical {off v} (h : Canonical s) : Canonical (debugWrite off v s) := by
  unfold debugWrite
  split
  · exact h
  · extract_lets k hi
    split
    · exact h
    · exact h.congr rfl rfl rfl

theorem queueWrite_canonical {fn q off v} (h : Canonical s) : Canonical (queueWrite fn q off v s) := by
  unfold queueWrite
  extract_lets w
  split
  · split
    · exact h
    · exact updQueue_canonical h
  · exact outState_canonical h (execWqCfgWrite_canonical h)
  · exact outState_canonical h (execWqTailWrite_canonical h)
  · split
    · exact h
    · exact updQueue_canonical h
  · exact h

theorem mailboxWrite_canonical {fn off v} (h : Canonical s) : Canonical (mailboxWrite fn off v s) := by
  unfold mailboxWrite
  extract_lets m r put
  have hput : ∀ x, Canonical (put x) := fun _ => h
  split
  · split
    · exact h
    · exact hput _
  · split
    · split
      · exact submit_canonical h
      · exact h
    · exact hput _
    · split <;> exact h
    · exact tellAll_canonical h
    · exact outState_canonical h (execEvHeadWrite_canonical h)
    · exact h

theorem clusterWrite_canonical {off v} (h : Canonical s) : Canonical (clusterWrite off v s) := by
  unfold clusterWrite
  split <;> exact h

theorem dieWrite_canonical {off v} (h : Canonical s) : Canonical (dieWrite off v s) := by
  unfold dieWrite
  split
  · split <;> exact h
  · exact h
  · exact h

theorem bootWrite_canonical {off v} (h : Canonical s) : Canonical (bootWrite off v s) := by
  unfold bootWrite
  extract_lets b put
  have hput : ∀ x, Canonical (put x) := fun _ => h
  split
  · split
    · exact bootGo_canonical h
    · exact h
  · exact hput _
  · exact hput _
  · split
    · exact coldReset_canonical h
    · split
      · exact warmReset_canonical h
      · exact h
  · exact hput _
  · exact hput _
  · split
    · exact hput _
    · exact h

theorem svWrite_canonical {off x} (h : Canonical s) : Canonical (svWrite off x s) := by
  unfold svWrite
  extract_lets v range base
  have hrange : ∀ x0, Canonical (range x0) := by
    unfold range
    intro x0
    split <;> exact h
  split
  · exact outState_canonical h (execSvCfgWrite_canonical h)
  · exact hrange _
  · exact hrange _
  · exact hrange _
  · exact hrange _
  · split
    · exact outState_canonical h (execRebuild_canonical h)
    · exact h
  · exact h
  · exact h

theorem fabricWrite_canonical {miller off v} (h : Canonical s) : Canonical (fabricWrite miller off v s) := by
  unfold fabricWrite
  extract_lets f put c k
  have hput : ∀ g, Canonical (put g) := fun _ => h
  exact h.ite (.ite (releaseHeld_canonical (hput _)) (.ite (outState_canonical h (execRelabWrite_canonical h)) (.ite (hput _) (.ite (hput _)
    (.ite (.ite (outState_canonical h (execRst_canonical h)) h) (.ite (hput _) (.ite (hput _)
      (.ite (outState_canonical h (execPfSubstWrite_canonical h)) (.ite (hput _)
        (.ite (outState_canonical h (execManagementMessageSend_canonical h)) (.ite (hput _) (svWrite_canonical h))))))))))))

theorem netWrite_canonical {off v} (h : Canonical s) : Canonical (netWrite off v s) := by
  unfold netWrite
  split
  · exact updEp_canonical h
  · split
    · exact setCnt_canonical h
    · exact h

theorem pfWrite_canonical {off v} (h : Canonical s) : Canonical (pfWrite off v s) := by
  unfold pfWrite
  exact .ite (clusterWrite_canonical h) (.ite (dieWrite_canonical h) (.ite (h.congr rfl rfl rfl) (.ite (h.congr rfl rfl rfl)
    (.ite (bootWrite_canonical h) (.ite (fabricWrite_canonical h) (.ite (netWrite_canonical h) (.ite (.ite (putMem_canonical h) h)
      (.ite (debugWrite_canonical h) h))))))))

theorem writeReg_canonical {fn off v} (h : Canonical s) : Canonical (writeReg fn off v s) := by
  unfold writeReg
  split
  · exact h
  · split
    · split
      · exact queueWrite_canonical h
      · exact h
    · split
      · exact mailboxWrite_canonical h
      · split
        · exact pfWrite_canonical h
        · exact h

theorem millerReg_canonical {off v} (h : Canonical s) : Canonical (millerReg off v s) := by
  unfold millerReg
  extract_lets p
  split
  · exact h
  · split
    · split
      · exact outState_canonical h (execWqTailWrite_canonical h)
      · exact h
    · split
      · exact h
      · split
        · exact h
        · split
          · exact h
          · split
            · exact fabricWrite_canonical h
            · exact h

theorem execRegisterWrite_canonical {by_ off value} (h : Canonical s) : OutCanonical (execRegisterWrite by_ off value s) := by
  unfold execRegisterWrite
  split
  · exact writeReg_canonical h
  · exact millerReg_canonical h

theorem hostGot_canonical {bs} (h : Canonical s) : Canonical (hostGot bs s) := h

theorem hostAgain_canonical {a} (h : Canonical s) : Canonical (hostAgain a s) := h

theorem hostMemRead_canonical {acc a n} (h : Canonical s) : Canonical (hostMemRead acc a n s) := by
  unfold hostMemRead
  split
  · exact hostGot_canonical h
  · split
    · exact hostGot_canonical ((readSites_canonical h).of_ok ‹_›)
    · exact hostAgain_canonical ((readSites_canonical h).of_stall ‹_›)
    · exact hostGot_canonical (metUnit_canonical h)

theorem hostMemWrite_canonical {acc a bs} (h : Canonical s) : Canonical (hostMemWrite acc a bs s) := by
  unfold hostMemWrite
  split
  · exact becomeResident_canonical (putMem_canonical h)
  · split
    · exact becomeResident_canonical ((writeSites_canonical h).of_ok ‹_›)
    · exact hostAgain_canonical ((writeSites_canonical h).of_stall ‹_›)
    · exact h

theorem hostServe_canonical (h : Canonical s) : Canonical (hostServe s) := by
  unfold hostServe
  split
  · exact h
  · exact hostMemRead_canonical h
  · exact hostMemWrite_canonical h
  · exact h

theorem execHostAccess_canonical {acc} (h : Canonical s) : OutCanonical (execHostAccess acc s) := by
  unfold execHostAccess
  split
  · split
    · exact trivial
    · exact hostServe_canonical h
  · split
    · exact trivial
    · exact hostServe_canonical h
  · exact hostGot_canonical h
  · split
    · exact putMem_canonical h
    · exact h
  · exact hostGot_canonical h
  · exact hostGot_canonical h

end Sys2Proof.Machine
end

