-- ==== Sys2Proof/Proofs/CanonicalVM.lean ====
section
/-! SUPPORT. The words of the V-stream and of the M-stream keep the canonical form. -/

namespace Sys2Proof.Machine

open Sys2Proof

set_option Elab.async false

variable {s t : State} {k : Core}

/-! ## The canonical form in Machine/MQuern.lean -/

theorem execQwin_canonical {f} (h : Canonical s) : OutCanonical (execQwin f s) := by
  unfold execQwin
  refine mWord_canonical h ?_
  intro args
  extract_lets tag c d k rd g
  have hk : CoreCanonical k := h.core
  split
  · exact trivial
  · split
    · exact trivial
    · exact h
    · exact mStore_canonical h (mNext_canonical (h.setCore (Core.setSlot_canonical hk) rfl rfl))

theorem execQscl_canonical {f} (h : Canonical s) : OutCanonical (execQscl f s) := by
  unfold execQscl
  refine mWord_canonical h ?_
  intro args
  extract_lets k c
  have hk : CoreCanonical k := h.core
  split
  · exact trivial
  · exact mStore_canonical h (mNext_canonical (h.setCore (Core.setSlot_canonical hk) rfl rfl))

theorem execQrel_canonical {f} (h : Canonical s) : OutCanonical (execQrel f s) := by
  unfold execQrel
  refine mWord_canonical h ?_
  intro args
  extract_lets k
  have hk : CoreCanonical k := h.core
  split
  · exact mNext_canonical h
  · exact mNext_canonical (h.setCore (Core.setSlot_canonical hk) rfl rfl)

theorem execQdrain_canonical {f} (h : Canonical s) : OutCanonical (execQdrain f s) := mPlain_canonical h

theorem execQskip_canonical {f} (h : Canonical s) : OutCanonical (execQskip f s) :=
  mWord_canonical h (fun _ => mNext_canonical (h.setCore (h.core.congr rfl rfl) rfl rfl))

theorem quernWord_canonical {op i4 f} (h : Canonical s) : OutCanonical (quernWord op i4 f s) := by
  unfold quernWord
  refine mWord_canonical h ?_
  intro args
  extract_lets k d y ys n e4
  have hk : CoreCanonical k := h.core
  split
  · exact trivial
  · split
    · exact trivial
    · split
      · exact h
      · split
        · exact trivial
        · extract_lets g t ps k1 k2 k3
          have hk1 : CoreCanonical k1 := Core.putY_canonical hk
          have hk2 : CoreCanonical k2 := by
            unfold k2
            split
            · exact Core.putY_canonical hk1
            · exact hk1
          have hk3 : CoreCanonical k3 := Core.note_canonical (Core.note_canonical (Core.note_canonical hk2))
          split
          · exact h
          · split
            · exact trivial
            · refine mStore_canonical h ?_
              split
              · exact trivial
              · exact mStore_canonical h (mNext_canonical (h.setCore (hk3.congr rfl rfl) rfl rfl))

theorem execQstep_canonical {f} (h : Canonical s) : OutCanonical (execQstep f s) := quernWord_canonical h

theorem execQstepI4_canonical {f} (h : Canonical s) : OutCanonical (execQstepI4 f s) := quernWord_canonical h

theorem execQnz_canonical {f} (h : Canonical s) : OutCanonical (execQnz f s) := by
  unfold execQnz
  refine mWord_canonical h ?_
  intro x
  split
  · exact trivial
  · generalize (1024 : Nat) = n
    exact mStore_canonical h (mStore_canonical h (mNext_canonical h))

theorem execQcb_canonical {f} (h : Canonical s) : OutCanonical (execQcb f s) := by
  unfold execQcb
  refine mWord_canonical h ?_
  intro args
  split
  · exact trivial
  · exact mStore_canonical h (mNext_canonical (putCore_canonical h))

theorem boltRun_canonical {b d64 src dst n i} (h : Canonical s) : Canonical (boltRun b d64 src dst n i s).1 := by
  induction n generalizing i s with
  | zero => exact h
  | succ n ih =>
    unfold boltRun
    extract_lets stride size code r s1
    have hs1 : Canonical s1 := putCore_canonical h
    split
    · exact ih (hs1.setCore (Core.note_canonical hs1.core) rfl rfl)
    · exact hs1.congr rfl rfl rfl

theorem execMBolt_canonical {f} (h : Canonical s) : OutCanonical (execMBolt f s) := by
  unfold execMBolt
  refine mWord_canonical h ?_
  intro args
  extract_lets b n size tiles rd wr r
  have hr : Canonical r.1 := boltRun_canonical h
  split
  · exact trivial
  · refine mStore_canonical h ?_
    split
    · exact mNext_canonical hr
    · exact hr

/-! ## The canonical form in Machine/VControl.lean -/

theorem vNothing_canonical {len} (h : Canonical s) : OutCanonical (vNothing len s) := vWord_canonical h h

theorem vMarker_canonical {len id} (h : Canonical s) : OutCanonical (vMarker len id s) := by
  unfold vMarker
  refine vWord_canonical h ?_
  extract_lets k passed go
  have hk : CoreCanonical k := h.core
  split
  · exact trivial
  · split
    · exact h.setCore (hk.congr rfl rfl) rfl rfl
    · exact h

theorem vHalt_canonical (h : Canonical s) : OutCanonical (vHalt s) :=
  vWord_canonical h (h.setCore (Core.note_canonical (h.core.congr rfl rfl)) rfl rfl)

theorem execVnop_canonical {f} (h : Canonical s) : OutCanonical (execVnop f s) := vNothing_canonical h

theorem execVnopShort_canonical (h : Canonical s) : OutCanonical (execVnopShort s) := vNothing_canonical h

theorem execVseam_canonical {f} (h : Canonical s) : OutCanonical (execVseam f s) := vMarker_canonical h

theorem execVseamShort_canonical {id} (h : Canonical s) : OutCanonical (execVseamShort id s) := vMarker_canonical h

theorem execVhalt_canonical {_f} (h : Canonical s) : OutCanonical (execVhalt _f s) := vHalt_canonical h

theorem execVhaltShort_canonical (h : Canonical s) : OutCanonical (execVhaltShort s) := vHalt_canonical h

theorem execVHintShort_canonical {_op _vd _va} (h : Canonical s) : OutCanonical (execVHintShort _op _vd _va s) := vNothing_canonical h

theorem execVHint_canonical {w} (h : Canonical s) : OutCanonical (execVHint w s) := vNothing_canonical h

theorem execVwait_canonical {f} (h : Canonical s) : OutCanonical (execVwait f s) := by
  unfold execVwait
  refine vWord_canonical h ?_
  split
  · exact h.setCore (h.core.congr rfl rfl) rfl rfl
  · exact h

theorem execVsig_canonical {f} (h : Canonical s) : OutCanonical (execVsig f s) := by
  unfold execVsig
  refine vWord_canonical h ?_
  extract_lets i
  split
  · next k hk =>
    have hk' : CoreCanonical k := by
      split at hk
      · cases hk
        exact h.core
      · exact semAdd_canonical h.core hk
    exact h.setCore hk' rfl rfl
  · exact trivial

theorem Core.leaveLoops_canonical {target} (h : CoreCanonical k) : CoreCanonical (Core.leaveLoops k target) := h

theorem execVjmp_canonical {f} (h : Canonical s) : OutCanonical (execVjmp f s) :=
  vWord_canonical h (h.setCore (Core.leaveLoops_canonical h.core) rfl rfl)

theorem execVloop_canonical {f} (h : Canonical s) : OutCanonical (execVloop f s) := by
  unfold execVloop
  refine vWord_canonical h ?_
  extract_lets k j n start fin age
  have hk : CoreCanonical k := h.core
  split
  · exact trivial
  · split
    · exact h
    · exact h.setCore (hk.congr rfl rfl) rfl rfl

theorem vMove_canonical {len f} (h : Canonical s) : OutCanonical (vMove len f s) := elementWord_canonical h

theorem execVmov_canonical {f} (h : Canonical s) : OutCanonical (execVmov f s) := vMove_canonical h

theorem execVmovShort_canonical {vd va} (h : Canonical s) : OutCanonical (execVmovShort vd va s) := vMove_canonical h

theorem execVpop_canonical {f} (h : Canonical s) : OutCanonical (execVpop f s) := vMove_canonical h

theorem execVpopShort_canonical {vd va} (h : Canonical s) : OutCanonical (execVpopShort vd va s) := vMove_canonical h

theorem execVmovi_canonical {f} (h : Canonical s) : OutCanonical (execVmovi f s) := elementWord_canonical h

theorem execVins_canonical {f} (h : Canonical s) : OutCanonical (execVins f s) :=
  finishV_canonical h (withRegs_canonical h (withSources_canonical h (fun _ _ h2 => putCells_canonical h2)))

theorem vSwap_canonical {len f} (h : Canonical s) : OutCanonical (vSwap len f s) :=
  finishV_canonical h (withFrames_canonical h (putReg_canonical (putReg_canonical h)))

theorem execVswap_canonical {f} (h : Canonical s) : OutCanonical (execVswap f s) := vSwap_canonical h

theorem execVswapShort_canonical {vd va} (h : Canonical s) : OutCanonical (execVswapShort vd va s) := vSwap_canonical h

theorem execVsel_canonical {f} (h : Canonical s) : OutCanonical (execVsel f s) := elementWord_canonical h

theorem execVpush_canonical {f} (h : Canonical s) : OutCanonical (execVpush f s) := by
  unfold execVpush
  extract_lets r j
  refine vWord_canonical h ?_
  refine withRegs_canonical h ?_
  split
  · exact h
  · exact withSources_canonical h (fun _ _ h0 => h0.setCore (h0.core.congr rfl rfl) rfl rfl)

theorem vQdrop_canonical {len va} (h : Canonical s) : OutCanonical (vQdrop len va s) := by
  unfold vQdrop
  refine vWord_canonical h ?_
  split
  · split
    · exact trivial
    · exact h
  · exact h.setCore (popQ_canonical h.core ‹_›) rfl rfl

theorem execVqdrop_canonical {f} (h : Canonical s) : OutCanonical (execVqdrop f s) := vQdrop_canonical h

theorem execVqdropShort_canonical {va} (h : Canonical s) : OutCanonical (execVqdropShort va s) := vQdrop_canonical h

/-! ## The canonical form in Machine/VElement.lean -/

theorem arith2_canonical {len f fi ff} (h : Canonical s) : OutCanonical (arith2 len f fi ff s) := elementWord_canonical h

theorem arith3_canonical {f fi ff} (h : Canonical s) : OutCanonical (arith3 f fi ff s) := elementWord_canonical h

theorem vAdd_canonical {len f} (h : Canonical s) : OutCanonical (vAdd len f s) := arith2_canonical h

theorem vSub_canonical {len f} (h : Canonical s) : OutCanonical (vSub len f s) := arith2_canonical h

theorem vMul_canonical {len f} (h : Canonical s) : OutCanonical (vMul len f s) := arith2_canonical h

theorem execVadd_canonical {f} (h : Canonical s) : OutCanonical (execVadd f s) := vAdd_canonical h

theorem execVsub_canonical {f} (h : Canonical s) : OutCanonical (execVsub f s) := vSub_canonical h

theorem execVmul_canonical {f} (h : Canonical s) : OutCanonical (execVmul f s) := vMul_canonical h

theorem execVaddF32Short_canonical {vd va} (h : Canonical s) : OutCanonical (execVaddF32Short vd va s) := vAdd_canonical h

theorem execVsubF32Short_canonical {vd va} (h : Canonical s) : OutCanonical (execVsubF32Short vd va s) := vSub_canonical h

theorem execVmulF32Short_canonical {vd va} (h : Canonical s) : OutCanonical (execVmulF32Short vd va s) := vMul_canonical h

theorem execVaddBf16Short_canonical {vd va} (h : Canonical s) : OutCanonical (execVaddBf16Short vd va s) := vAdd_canonical h

theorem execVsubBf16Short_canonical {vd va} (h : Canonical s) : OutCanonical (execVsubBf16Short vd va s) := vSub_canonical h

theorem execVmulBf16Short_canonical {vd va} (h : Canonical s) : OutCanonical (execVmulBf16Short vd va s) := vMul_canonical h

theorem execVaddI32Short_canonical {vd va} (h : Canonical s) : OutCanonical (execVaddI32Short vd va s) := vAdd_canonical h

theorem execVsubI32Short_canonical {vd va} (h : Canonical s) : OutCanonical (execVsubI32Short vd va s) := vSub_canonical h

theorem execVmulI32Short_canonical {vd va} (h : Canonical s) : OutCanonical (execVmulI32Short vd va s) := vMul_canonical h

theorem execVaddI16Short_canonical {vd va} (h : Canonical s) : OutCanonical (execVaddI16Short vd va s) := vAdd_canonical h

theorem execVsubI16Short_canonical {vd va} (h : Canonical s) : OutCanonical (execVsubI16Short vd va s) := vSub_canonical h

theorem execVaddI8Short_canonical {vd va} (h : Canonical s) : OutCanonical (execVaddI8Short vd va s) := vAdd_canonical h

theorem execVsubI8Short_canonical {vd va} (h : Canonical s) : OutCanonical (execVsubI8Short vd va s) := vSub_canonical h

theorem execVmulh_canonical {f} (h : Canonical s) : OutCanonical (execVmulh f s) := arith2_canonical h

theorem execVfma_canonical {f} (h : Canonical s) : OutCanonical (execVfma f s) := arith3_canonical h

theorem execVfms_canonical {f} (h : Canonical s) : OutCanonical (execVfms f s) := arith3_canonical h

theorem execVfnma_canonical {f} (h : Canonical s) : OutCanonical (execVfnma f s) := arith3_canonical h

theorem pattern2_canonical {len f op} (h : Canonical s) : OutCanonical (pattern2 len f op s) := elementWord_canonical h

theorem pattern1_canonical {len f op} (h : Canonical s) : OutCanonical (pattern1 len f op s) := elementWord_canonical h

theorem vMin_canonical {len f} (h : Canonical s) : OutCanonical (vMin len f s) := pattern2_canonical h

theorem vMax_canonical {len f} (h : Canonical s) : OutCanonical (vMax len f s) := pattern2_canonical h

theorem execVmin_canonical {f} (h : Canonical s) : OutCanonical (execVmin f s) := vMin_canonical h

theorem execVmax_canonical {f} (h : Canonical s) : OutCanonical (execVmax f s) := vMax_canonical h

theorem execVminF32Short_canonical {vd va} (h : Canonical s) : OutCanonical (execVminF32Short vd va s) := vMin_canonical h

theorem execVmaxF32Short_canonical {vd va} (h : Canonical s) : OutCanonical (execVmaxF32Short vd va s) := vMax_canonical h

theorem execVminBf16Short_canonical {vd va} (h : Canonical s) : OutCanonical (execVminBf16Short vd va s) := vMin_canonical h

theorem execVmaxBf16Short_canonical {vd va} (h : Canonical s) : OutCanonical (execVmaxBf16Short vd va s) := vMax_canonical h

theorem execVminI32Short_canonical {vd va} (h : Canonical s) : OutCanonical (execVminI32Short vd va s) := vMin_canonical h

theorem execVmaxI32Short_canonical {vd va} (h : Canonical s) : OutCanonical (execVmaxI32Short vd va s) := vMax_canonical h

theorem execVclamp_canonical {f} (h : Canonical s) : OutCanonical (execVclamp f s) := elementWord_canonical h

theorem signWord_canonical {len f sh fi fs} (h : Canonical s) : OutCanonical (signWord len f sh fi fs s) := elementWord_canonical h

theorem vAbs_canonical {len f} (h : Canonical s) : OutCanonical (vAbs len f s) := signWord_canonical h

theorem vNeg_canonical {len f} (h : Canonical s) : OutCanonical (vNeg len f s) := signWord_canonical h

theorem execVabs_canonical {f} (h : Canonical s) : OutCanonical (execVabs f s) := vAbs_canonical h

theorem execVneg_canonical {f} (h : Canonical s) : OutCanonical (execVneg f s) := vNeg_canonical h

theorem execVabsF32Short_canonical {vd va} (h : Canonical s) : OutCanonical (execVabsF32Short vd va s) := vAbs_canonical h

theorem execVnegF32Short_canonical {vd va} (h : Canonical s) : OutCanonical (execVnegF32Short vd va s) := vNeg_canonical h

theorem execVsign_canonical {f} (h : Canonical s) : OutCanonical (execVsign f s) := signWord_canonical h

theorem execVavg_canonical {f} (h : Canonical s) : OutCanonical (execVavg f s) := arith2_canonical h

theorem execVabsd_canonical {f} (h : Canonical s) : OutCanonical (execVabsd f s) := arith2_canonical h

theorem execVmulq_canonical {f} (h : Canonical s) : OutCanonical (execVmulq f s) := elementWord_canonical h

theorem vDot_canonical {g f} (h : Canonical s) : OutCanonical (vDot g f s) := elementWord_canonical h

theorem execVdot4_canonical {f} (h : Canonical s) : OutCanonical (execVdot4 f s) := vDot_canonical h

theorem execVdot2_canonical {f} (h : Canonical s) : OutCanonical (execVdot2 f s) := vDot_canonical h

theorem vWiden_canonical {f fi ff} (h : Canonical s) : OutCanonical (vWiden f fi ff s) := elementWord_canonical h

theorem execVmulw_canonical {f} (h : Canonical s) : OutCanonical (execVmulw f s) := vWiden_canonical h

theorem execVaddw_canonical {f} (h : Canonical s) : OutCanonical (execVaddw f s) := vWiden_canonical h

theorem execVunpk_canonical {f} (h : Canonical s) : OutCanonical (execVunpk f s) := elementWord_canonical h

theorem execVscale_canonical {f} (h : Canonical s) : OutCanonical (execVscale f s) := elementWord_canonical h

theorem execVrint_canonical {f} (h : Canonical s) : OutCanonical (execVrint f s) := elementWord_canonical h

theorem execVlut_canonical {f} (h : Canonical s) : OutCanonical (execVlut f s) := elementWord_canonical h

theorem execVfrexp_canonical {f} (h : Canonical s) : OutCanonical (execVfrexp f s) := pattern1_canonical h

theorem vCmp_canonical {f fi ff} (h : Canonical s) : OutCanonical (vCmp f fi ff s) := maskWord_canonical h

theorem execVcmpEq_canonical {f} (h : Canonical s) : OutCanonical (execVcmpEq f s) := vCmp_canonical h

theorem execVcmpNe_canonical {f} (h : Canonical s) : OutCanonical (execVcmpNe f s) := vCmp_canonical h

theorem execVcmpLt_canonical {f} (h : Canonical s) : OutCanonical (execVcmpLt f s) := vCmp_canonical h

theorem execVcmpLe_canonical {f} (h : Canonical s) : OutCanonical (execVcmpLe f s) := vCmp_canonical h

theorem execVcmpUnord_canonical {f} (h : Canonical s) : OutCanonical (execVcmpUnord f s) := vCmp_canonical h

theorem execVcmpOrd_canonical {f} (h : Canonical s) : OutCanonical (execVcmpOrd f s) := vCmp_canonical h

theorem execVclass_canonical {f} (h : Canonical s) : OutCanonical (execVclass f s) := maskWord_canonical h

theorem kWord_canonical {len mk op} (h : Canonical s) : OutCanonical (kWord len mk op s) :=
  vWord_canonical h (h.setCore (Core.setM_canonical h.core) rfl rfl)

theorem kAnd_canonical {len mk ma mb} (h : Canonical s) : OutCanonical (kAnd len mk ma mb s) := kWord_canonical h

theorem kOr_canonical {len mk ma mb} (h : Canonical s) : OutCanonical (kOr len mk ma mb s) := kWord_canonical h

theorem kXor_canonical {len mk ma mb} (h : Canonical s) : OutCanonical (kXor len mk ma mb s) := kWord_canonical h

theorem kNot_canonical {len mk ma} (h : Canonical s) : OutCanonical (kNot len mk ma s) := kWord_canonical h

theorem execKand_canonical {f} (h : Canonical s) : OutCanonical (execKand f s) := kAnd_canonical h

theorem execKor_canonical {f} (h : Canonical s) : OutCanonical (execKor f s) := kOr_canonical h

theorem execKxor_canonical {f} (h : Canonical s) : OutCanonical (execKxor f s) := kXor_canonical h

theorem execKnot_canonical {f} (h : Canonical s) : OutCanonical (execKnot f s) := kNot_canonical h

theorem execKandShort_canonical {mk ma} (h : Canonical s) : OutCanonical (execKandShort mk ma s) := kAnd_canonical h

theorem execKorShort_canonical {mk ma} (h : Canonical s) : OutCanonical (execKorShort mk ma s) := kOr_canonical h

theorem execKxorShort_canonical {mk ma} (h : Canonical s) : OutCanonical (execKxorShort mk ma s) := kXor_canonical h

theorem execKnotShort_canonical {mk ma} (h : Canonical s) : OutCanonical (execKnotShort mk ma s) := kNot_canonical h

theorem execKpopc_canonical {f} (h : Canonical s) : OutCanonical (execKpopc f s) := elementWord_canonical h

theorem execKfirst_canonical {f} (h : Canonical s) : OutCanonical (execKfirst f s) := kWord_canonical h

theorem execVtok_canonical {f} (h : Canonical s) : OutCanonical (execVtok f s) := maskWord_canonical h

theorem execKtov_canonical {f} (h : Canonical s) : OutCanonical (execKtov f s) := elementWord_canonical h

theorem execKset_canonical {f} (h : Canonical s) : OutCanonical (execKset f s) := by
  unfold execKset
  exact kWord_canonical h

theorem vAnd_canonical {len f} (h : Canonical s) : OutCanonical (vAnd len f s) := pattern2_canonical h

theorem vOr_canonical {len f} (h : Canonical s) : OutCanonical (vOr len f s) := pattern2_canonical h

theorem vXor_canonical {len f} (h : Canonical s) : OutCanonical (vXor len f s) := pattern2_canonical h

theorem vNot_canonical {len f} (h : Canonical s) : OutCanonical (vNot len f s) := pattern1_canonical h

theorem vAndn_canonical {len f} (h : Canonical s) : OutCanonical (vAndn len f s) := pattern2_canonical h

theorem execVand_canonical {f} (h : Canonical s) : OutCanonical (execVand f s) := vAnd_canonical h

theorem execVor_canonical {f} (h : Canonical s) : OutCanonical (execVor f s) := vOr_canonical h

theorem execVxor_canonical {f} (h : Canonical s) : OutCanonical (execVxor f s) := vXor_canonical h

theorem execVnot_canonical {f} (h : Canonical s) : OutCanonical (execVnot f s) := vNot_canonical h

theorem execVandn_canonical {f} (h : Canonical s) : OutCanonical (execVandn f s) := vAndn_canonical h

theorem execVandShort_canonical {vd va} (h : Canonical s) : OutCanonical (execVandShort vd va s) := vAnd_canonical h

theorem execVorShort_canonical {vd va} (h : Canonical s) : OutCanonical (execVorShort vd va s) := vOr_canonical h

theorem execVxorShort_canonical {vd va} (h : Canonical s) : OutCanonical (execVxorShort vd va s) := vXor_canonical h

theorem execVnotShort_canonical {vd va} (h : Canonical s) : OutCanonical (execVnotShort vd va s) := vNot_canonical h

theorem execVandnShort_canonical {vd va} (h : Canonical s) : OutCanonical (execVandnShort vd va s) := vAndn_canonical h

theorem execVbsel_canonical {f} (h : Canonical s) : OutCanonical (execVbsel f s) := elementWord_canonical h

theorem execVshl_canonical {f} (h : Canonical s) : OutCanonical (execVshl f s) := pattern2_canonical h

theorem execVshr_canonical {f} (h : Canonical s) : OutCanonical (execVshr f s) := pattern2_canonical h

theorem execVsra_canonical {f} (h : Canonical s) : OutCanonical (execVsra f s) := by
  unfold execVsra
  exact pattern2_canonical h

theorem execVclz_canonical {f} (h : Canonical s) : OutCanonical (execVclz f s) := pattern1_canonical h

theorem execVpopc_canonical {f} (h : Canonical s) : OutCanonical (execVpopc f s) := pattern1_canonical h

theorem execVbrev_canonical {f} (h : Canonical s) : OutCanonical (execVbrev f s) := pattern1_canonical h

/-! ## The canonical form in Machine/VAxis.lean -/

theorem lineMove_canonical {f whole g} (h : Canonical s) : OutCanonical (lineMove f whole g s) := elementWord_canonical h

theorem execVrot_canonical {f} (h : Canonical s) : OutCanonical (execVrot f s) := lineMove_canonical h

theorem execVshft_canonical {f} (h : Canonical s) : OutCanonical (execVshft f s) := lineMove_canonical h

theorem execVbcst_canonical {f} (h : Canonical s) : OutCanonical (execVbcst f s) := lineMove_canonical h

theorem vReduce_canonical {f e op} (h : Canonical s) : OutCanonical (vReduce f e op s) := elementWord_canonical h

theorem execVrsum_canonical {f} (h : Canonical s) : OutCanonical (execVrsum f s) := vReduce_canonical h

theorem execVrmax_canonical {f} (h : Canonical s) : OutCanonical (execVrmax f s) := vReduce_canonical h

theorem execVrmin_canonical {f} (h : Canonical s) : OutCanonical (execVrmin f s) := vReduce_canonical h

theorem execVrsumw_canonical {f} (h : Canonical s) : OutCanonical (execVrsumw f s) := elementWord_canonical h

theorem execVscan_canonical {f} (h : Canonical s) : OutCanonical (execVscan f s) := elementWord_canonical h

theorem vArgReduce_canonical {big f} (h : Canonical s) : OutCanonical (vArgReduce big f s) := elementWord_canonical h

theorem execVrmaxi_canonical {f} (h : Canonical s) : OutCanonical (execVrmaxi f s) := vArgReduce_canonical h

theorem execVrmini_canonical {f} (h : Canonical s) : OutCanonical (execVrmini f s) := vArgReduce_canonical h

theorem execVperm_canonical {f} (h : Canonical s) : OutCanonical (execVperm f s) := elementWord_canonical h

theorem execVtrn_canonical {f} (h : Canonical s) : OutCanonical (execVtrn f s) := elementWord_canonical h

theorem execVzip_canonical {f} (h : Canonical s) : OutCanonical (execVzip f s) := elementWord_canonical h

theorem execVuzp_canonical {f} (h : Canonical s) : OutCanonical (execVuzp f s) := elementWord_canonical h

theorem execVcxs_canonical {f} (h : Canonical s) : OutCanonical (execVcxs f s) := elementWord_canonical h

theorem execVcomp_canonical {f} (h : Canonical s) : OutCanonical (execVcomp f s) := elementWord_canonical h

theorem execVexpd_canonical {f} (h : Canonical s) : OutCanonical (execVexpd f s) := elementWord_canonical h

theorem execVrand_canonical {f} (h : Canonical s) : OutCanonical (execVrand f s) := elementWord_canonical h

/-! ## The canonical form in Machine/MDense.lean -/

theorem denseDone_canonical {t f as bs bitmap} (h : Canonical s) : Canonical (denseDone t f as bs bitmap s) := by
  unfold denseDone
  extract_lets y cells s1
  have hs1 : Canonical s1 := mNext_canonical (putY_canonical h)
  exact hs1.setCore (Core.note_canonical hs1.core) rfl rfl

theorem mmaWord_canonical {op t cc scaleAt masked f} (h : Canonical s) : OutCanonical (mmaWord op t cc scaleAt masked f s) := by
  unfold mmaWord
  refine mWord_canonical h ?_
  intro args
  extract_lets core c mr
  have hcore : CoreCanonical core := h.core
  split
  · extract_lets d k sr as bs
    split
    · exact trivial
    · exact mStore_canonical h (denseDone_canonical h)
  · exact trivial

theorem execMmaI8_canonical {f} (h : Canonical s) : OutCanonical (execMmaI8 f s) := mmaWord_canonical h

theorem execMmaE4m3_canonical {f} (h : Canonical s) : OutCanonical (execMmaE4m3 f s) := mmaWord_canonical h

theorem execMmaE5m2_canonical {f} (h : Canonical s) : OutCanonical (execMmaE5m2 f s) := mmaWord_canonical h

theorem execMmaBf16_canonical {f} (h : Canonical s) : OutCanonical (execMmaBf16 f s) := mmaWord_canonical h

theorem execMmaMx4_canonical {f} (h : Canonical s) : OutCanonical (execMmaMx4 f s) := mmaWord_canonical h

theorem execMmaMskI8_canonical {f} (h : Canonical s) : OutCanonical (execMmaMskI8 f s) := mmaWord_canonical h

theorem execMmaMskE4m3_canonical {f} (h : Canonical s) : OutCanonical (execMmaMskE4m3 f s) := mmaWord_canonical h

theorem execMmaMskE5m2_canonical {f} (h : Canonical s) : OutCanonical (execMmaMskE5m2 f s) := mmaWord_canonical h

theorem execMmaMskBf16_canonical {f} (h : Canonical s) : OutCanonical (execMmaMskBf16 f s) := mmaWord_canonical h

theorem execMmaMskMx4_canonical {f} (h : Canonical s) : OutCanonical (execMmaMskMx4 f s) := mmaWord_canonical h

theorem mmaGather_canonical {op ty mx f} (h : Canonical s) : OutCanonical (mmaGather op ty mx f s) := by
  unfold mmaGather
  generalize (512 : Nat) = n
  refine mWord_canonical h ?_
  intro x
  extract_lets core base c
  split
  · exact trivial
  · extract_lets k bsr
    split
    · exact trivial
    · split
      · exact trivial
      · exact h
      · next i _ =>
        refine mStore_canonical h ?_
        extract_lets idx
        refine mStore_canonical h ?_
        exact denseDone_canonical (h.setCore (Core.setSlot_canonical h.core) rfl rfl)

theorem execMmaGI8_canonical {f} (h : Canonical s) : OutCanonical (execMmaGI8 f s) := mmaGather_canonical h

theorem execMmaGE4m3_canonical {f} (h : Canonical s) : OutCanonical (execMmaGE4m3 f s) := mmaGather_canonical h

theorem execMmaGE5m2_canonical {f} (h : Canonical s) : OutCanonical (execMmaGE5m2 f s) := mmaGather_canonical h

theorem execMmaGBf16_canonical {f} (h : Canonical s) : OutCanonical (execMmaGBf16 f s) := mmaGather_canonical h

theorem execMmaGMx4_canonical {f} (h : Canonical s) : OutCanonical (execMmaGMx4 f s) := mmaGather_canonical h

theorem execMmld_canonical {f} (h : Canonical s) : OutCanonical (execMmld f s) := by
  unfold execMmld
  refine mWord_canonical h ?_
  intro args
  split
  · split
    · exact trivial
    · split
      · exact trivial
      · split
        · exact trivial
        · exact mStore_canonical h (mNext_canonical (h.setCore (h.core.congr rfl rfl) rfl rfl))
  · exact trivial

theorem execMtrn_canonical {f} (h : Canonical s) : OutCanonical (execMtrn f s) := by
  unfold execMtrn
  refine mWord_canonical h ?_
  intro args
  split
  · extract_lets a b w rows
    split
    · exact trivial
    · exact mStore_canonical h (mNext_canonical (putCore_canonical h))
  · exact trivial

/-! ## The canonical form in Machine/MAccum.lean -/

theorem tileWord_canonical {op rd compute f} (h : Canonical s) : OutCanonical (tileWord op rd compute f s) :=
  mWord_canonical h (fun _ => mStore_canonical h (mNext_canonical (putY_canonical h)))

theorem execYclr_canonical {f} (h : Canonical s) : OutCanonical (execYclr f s) := tileWord_canonical h

theorem execYmov_canonical {f} (h : Canonical s) : OutCanonical (execYmov f s) := tileWord_canonical h

theorem execYadd_canonical {f} (h : Canonical s) : OutCanonical (execYadd f s) := tileWord_canonical h

theorem execYmax_canonical {f} (h : Canonical s) : OutCanonical (execYmax f s) := tileWord_canonical h

theorem execYscl_canonical {f} (h : Canonical s) : OutCanonical (execYscl f s) := tileWord_canonical h

theorem execYswap_canonical {f} (h : Canonical s) : OutCanonical (execYswap f s) :=
  mWord_canonical h (fun _ => mStore_canonical h (mNext_canonical (putY_canonical (putY_canonical h))))

theorem execYld_canonical {f} (h : Canonical s) : OutCanonical (execYld f s) := by
  unfold execYld
  refine mWord_canonical h ?_
  intro x
  extract_lets y
  generalize (0x8000 : Nat) = n
  exact mStore_canonical h (mNext_canonical (putY_canonical h))

theorem execYst_canonical {f} (h : Canonical s) : OutCanonical (execYst f s) := by
  unfold execYst
  refine mWord_canonical h ?_
  intro x
  extract_lets y
  generalize (0x8000 : Nat) = n
  exact mStore_canonical h (mNext_canonical (putCore_canonical h))

theorem execYfill_canonical {f} (h : Canonical s) : OutCanonical (execYfill f s) :=
  mWord_canonical h (fun _ => mStore_canonical h (mNext_canonical (putY_canonical h)))

theorem execYred_canonical {f} (h : Canonical s) : OutCanonical (execYred f s) :=
  mWord_canonical h (fun _ => mStore_canonical h (mNext_canonical (putCore_canonical h)))

theorem execEpi_canonical {f} (h : Canonical s) : OutCanonical (execEpi f s) := by
  unfold execEpi
  extract_lets cols e mx
  refine mWord_canonical h ?_
  intro args
  extract_lets k dst b c brs crs cws out s1
  have hk : CoreCanonical k := h.core
  have hs1 : Canonical s1 := foldl_canonical (fun _ _ h0 => putCore_canonical h0) h
  split
  · exact trivial
  · refine mStore_canonical h ?_
    refine mNext_canonical ?_
    split
    · exact putCore_canonical hs1
    · exact hs1

/-! ## The canonical form in Machine/VConvert.lean -/

theorem execVcvt_canonical {f} (h : Canonical s) : OutCanonical (execVcvt f s) := elementWord_canonical h

theorem execVpack_canonical {f} (h : Canonical s) : OutCanonical (execVpack f s) := elementWord_canonical h

theorem execVmxq_canonical {f} (h : Canonical s) : OutCanonical (execVmxq f s) :=
  finishV_canonical h (withFrames_canonical h (withSources_canonical h (fun _ _ h2 => putCells_canonical (putCore_canonical h2))))

theorem execVmxd_canonical {f} (h : Canonical s) : OutCanonical (execVmxd f s) := elementWord_canonical h

theorem execVrq_canonical {f} (h : Canonical s) : OutCanonical (execVrq f s) :=
  finishV_canonical h (withFrames_canonical h (withSources_canonical h (fun _ _ h2 => putCells_canonical h2)))

/-! ## The canonical form in Machine/VFunction.lean -/

theorem fnWord_canonical {len f op zero inf fin} (h : Canonical s) : OutCanonical (fnWord len f op zero inf fin s) :=
  elementWord_canonical h

theorem vExp2_canonical {len f} (h : Canonical s) : OutCanonical (vExp2 len f s) := fnWord_canonical h

theorem execVexp2_canonical {f} (h : Canonical s) : OutCanonical (execVexp2 f s) := vExp2_canonical h

theorem execVexp2F32Short_canonical {vd va} (h : Canonical s) : OutCanonical (execVexp2F32Short vd va s) := vExp2_canonical h

theorem execVlog2_canonical {f} (h : Canonical s) : OutCanonical (execVlog2 f s) := fnWord_canonical h

theorem execVrcp_canonical {f} (h : Canonical s) : OutCanonical (execVrcp f s) := fnWord_canonical h

theorem execVrsq_canonical {f} (h : Canonical s) : OutCanonical (execVrsq f s) := fnWord_canonical h

theorem execVsqrt_canonical {f} (h : Canonical s) : OutCanonical (execVsqrt f s) := fnWord_canonical h

theorem execVsin_canonical {f} (h : Canonical s) : OutCanonical (execVsin f s) := fnWord_canonical h

theorem execVcos_canonical {f} (h : Canonical s) : OutCanonical (execVcos f s) := fnWord_canonical h

theorem execVtanh_canonical {f} (h : Canonical s) : OutCanonical (execVtanh f s) := fnWord_canonical h

theorem execVsigm_canonical {f} (h : Canonical s) : OutCanonical (execVsigm f s) := fnWord_canonical h

theorem execVerf_canonical {f} (h : Canonical s) : OutCanonical (execVerf f s) := fnWord_canonical h

/-! ## The canonical form in Machine/VMemory.lean -/

theorem dropUnits_canonical (h : Canonical s) : Canonical (dropUnits s) := h.setCore (h.core.congr rfl rfl) rfl rfl

theorem keptFar_canonical {a} (h : Canonical s) : Canonical (keptFar a s) := by
  unfold keptFar
  split
  · exact noteKept_canonical h
  · exact h

theorem putRunOf_canonical {run} (h : Canonical s) : Canonical (putRunOf s run) := noteKept_canonical (putSites_canonical h)

theorem putLocal_canonical {run} (h : Canonical s) : Canonical (putLocal s run) := foldl_canonical (fun _ _ h1 => putRunOf_canonical h1) h

theorem vGo_canonical {kind write fuel a} (h : Canonical s) : (vGo kind write fuel a s).IsCanonical := by
  induction fuel generalizing a s with
  | zero => exact h
  | succ n ih =>
    unfold vGo
    split
    · exact h
    · extract_lets run rest sites
      split
      · split
        · split
          · exact h
          · exact issueAccess_canonical h
        · split
          · exact h
          · split
            · exact trivial
            · exact ih (dropUnits_canonical (keptFar_canonical h))
      · split
        · exact h
        · split
          · split
            · exact trivial
            · exact (readySites_canonical h).of_stall ‹_›
            · exact ih (putLocal_canonical ((readySites_canonical h).of_ok ‹_›))
          · split
            · exact trivial
            · exact (readSites_canonical h).of_stall ‹_›
            · exact ih ((readSites_canonical h).of_ok ‹_›)

theorem vAccess_canonical {kind write begin_ finish} (h : Canonical s) (hb : ∀ v, begin_ s = .error v → v.IsCanonical)
    (hf : ∀ seen u, Canonical u → (finish seen u).IsCanonical) : (vAccess kind write begin_ s finish).IsCanonical := by
  unfold vAccess
  extract_lets go
  have hgo : ∀ a u, Canonical u → (go a u).IsCanonical := by
    unfold go
    intro a u hu
    split
    · next hv =>
      have ht := (vGo_canonical hu).of_over hv
      exact hf _ _ (ht.setCore (ht.core.congr rfl rfl) rfl rfl)
    · next hv =>
      have ht := (vGo_canonical hu).of_waiting hv
      exact ht.setCore (ht.core.congr rfl rfl) rfl rfl
    · exact trivial
  split
  · exact hgo _ _ h
  · split
    · exact hb _ ‹_›
    · split
      · exact h
      · split
        · extract_lets near
          split
          · exact trivial
          · exact (readySites_canonical h).of_stall ‹_›
          · next hr =>
            split
            · exact trivial
            · exact hgo _ _ ((readySites_canonical h).of_ok hr)
        · exact hgo _ _ h

theorem vBegin_error_canonical {f align each rd wr elems} {v : VOut} (h : Canonical s)
    (e : vBegin f align each rd wr elems s = .error v) : v.IsCanonical := by
  unfold vBegin at e
  split at e
  · cases e
    exact claimRegs_canonical h
  · split at e
    · cases e
      exact trivial
    · dsimp only at e
      split at e
      · cases e
        exact trivial
      · split at e
        · next he =>
          cases e
          unfold elemTrap at he
          split at he
          · cases he
            exact trivial
          · obtain ⟨_, _, rfl⟩ := Option.map_eq_some_iff.mp he
            exact trivial
        · cases e

theorem vLoad_canonical {f align each rd elems} (h : Canonical s) : OutCanonical (vLoad f align each rd elems s) := by
  unfold vLoad
  refine vWord_canonical h ?_
  refine vAccess_canonical h (fun _ h0 => vBegin_error_canonical h h0) ?_
  intro seen u h3
  extract_lets s1 u1
  have hs1 : Canonical s1 := putPairs_canonical h3
  have hu1 : CoreCanonical u1 := hs1.core
  exact noteMiss_canonical (hs1.setCore (hu1.congr rfl rfl) rfl rfl)

theorem vStore_canonical {f align each rd elems} (h : Canonical s) : OutCanonical (vStore f align each rd elems s) :=
  vWord_canonical h (vAccess_canonical h (fun _ h1 => vBegin_error_canonical h h1) (fun _ _ h1 => h1))

theorem execVld_canonical {f} (h : Canonical s) : OutCanonical (execVld f s) := vLoad_canonical h

theorem execVlds_canonical {f} (h : Canonical s) : OutCanonical (execVlds f s) := vLoad_canonical h

theorem execVst_canonical {f} (h : Canonical s) : OutCanonical (execVst f s) := vStore_canonical h

theorem execVsts_canonical {f} (h : Canonical s) : OutCanonical (execVsts f s) := vStore_canonical h

theorem execVldx_canonical {f} (h : Canonical s) : OutCanonical (execVldx f s) := vLoad_canonical h

theorem execVstx_canonical {f} (h : Canonical s) : OutCanonical (execVstx f s) := vStore_canonical h

theorem execVstm_canonical {f} (h : Canonical s) : OutCanonical (execVstm f s) := vStore_canonical h

theorem maskBegin_error_canonical {f} {v : VOut} (h : Canonical s) (e : maskBegin f s = .error v) : v.IsCanonical := by
  unfold maskBegin at e
  split at e
  · cases e
    exact claimRegs_canonical h
  · split at e
    · cases e
      exact trivial
    · dsimp only at e
      split at e
      · cases e
        exact trivial
      · split at e
        · cases e
          exact trivial
        · cases e

theorem execKld_canonical {f} (h : Canonical s) : OutCanonical (execKld f s) := by
  unfold execKld
  refine vWord_canonical h ?_
  refine vAccess_canonical h (fun _ h0 => maskBegin_error_canonical h h0) ?_
  intro seen u h3
  split
  · exact trivial
  · exact h3.setCore (Core.setM_canonical h3.core) rfl rfl

theorem execKst_canonical {f} (h : Canonical s) : OutCanonical (execKst f s) :=
  vWord_canonical h (vAccess_canonical h (fun _ h1 => maskBegin_error_canonical h h1) (fun _ _ h1 => h1))

end Sys2Proof.Machine
end

