-- ==== Sys2Proof/Proofs/CanonicalStep.lean ====
section
/-! Every step keeps the canonical form, and the reset state has it: what an instruction or event does,
then the sequencers, the agents, and the step. -/

namespace Sys2Proof.Machine

open Sys2Proof

set_option Elab.async false

variable {s t : State} {k : Core}

/-! ## Instructions and events -/

/-- One instruction or event keeps the canonical form. -/
theorem exec_canonical (i : Instr) (h : Canonical s) : OutCanonical (exec i s) := by
  cases i with
  | add => exact execAdd_canonical h
  | sub => exact execSub_canonical h
  | mul => exact execMul_canonical h
  | mulh => exact execMulh_canonical h
  | div => exact execDiv_canonical h
  | divu => exact execDivu_canonical h
  | rem => exact execRem_canonical h
  | remu => exact execRemu_canonical h
  | and => exact execAnd_canonical h
  | or => exact execOr_canonical h
  | xor => exact execXor_canonical h
  | shl => exact execShl_canonical h
  | shr => exact execShr_canonical h
  | sra => exact execSra_canonical h
  | min => exact execMin_canonical h
  | max => exact execMax_canonical h
  | clz => exact execClz_canonical h
  | popc => exact execPopc_canonical h
  | sextI8 => exact execSextI8_canonical h
  | sextI16 => exact execSextI16_canonical h
  | sextI32 => exact execSextI32_canonical h
  | zextN8 => exact execZextN8_canonical h
  | zextN16 => exact execZextN16_canonical h
  | zextN32 => exact execZextN32_canonical h
  | cmpEq => exact execCmpEq_canonical h
  | cmpNe => exact execCmpNe_canonical h
  | cmpLt => exact execCmpLt_canonical h
  | cmpLe => exact execCmpLe_canonical h
  | cmpLtu => exact execCmpLtu_canonical h
  | cmpLeu => exact execCmpLeu_canonical h
  | cmpAll => exact execCmpAll_canonical h
  | cmpAny => exact execCmpAny_canonical h
  | pand => exact execPand_canonical h
  | por => exact execPor_canonical h
  | sel => exact execSel_canonical h
  | amoAdd => exact execAmoAdd_canonical h
  | amoAnd => exact execAmoAnd_canonical h
  | amoOr => exact execAmoOr_canonical h
  | amoXor => exact execAmoXor_canonical h
  | amoMin => exact execAmoMin_canonical h
  | amoMax => exact execAmoMax_canonical h
  | amoMinu => exact execAmoMinu_canonical h
  | amoMaxu => exact execAmoMaxu_canonical h
  | swap => exact execSwap_canonical h
  | cas => exact execCas_canonical h
  | amoFadd => exact execAmoFadd_canonical h
  | addi => exact execAddi_canonical h
  | andi => exact execAndi_canonical h
  | ori => exact execOri_canonical h
  | xori => exact execXori_canonical h
  | shli => exact execShli_canonical h
  | shri => exact execShri_canonical h
  | srai => exact execSrai_canonical h
  | cmpiEq => exact execCmpiEq_canonical h
  | cmpiLt => exact execCmpiLt_canonical h
  | cmpiLtu => exact execCmpiLtu_canonical h
  | movi => exact execMovi_canonical h
  | lsi => exact execLsi_canonical h
  | addpc => exact execAddpc_canonical h
  | pb =>
    unfold exec
    exact execPb_canonical h
  | br => exact execBr_canonical h
  | brl => exact execBrl_canonical h
  | bloop => exact execBloop_canonical h
  | ldI8 => exact execLdI8_canonical h
  | ldN8 => exact execLdN8_canonical h
  | ldI16 => exact execLdI16_canonical h
  | ldN16 => exact execLdN16_canonical h
  | ldI32 => exact execLdI32_canonical h
  | ldN32 => exact execLdN32_canonical h
  | ldB64 => exact execLdB64_canonical h
  | ldq =>
    unfold exec
    exact execLdq_canonical h
  | stB8 => exact execStB8_canonical h
  | stB16 => exact execStB16_canonical h
  | stB32 => exact execStB32_canonical h
  | stB64 => exact execStB64_canonical h
  | fence =>
    unfold exec
    exact execFence_canonical h
  | semSig => exact execSemSig_canonical h
  | semAcq => exact execSemAcq_canonical h
  | semRd => exact execSemRd_canonical h
  | mqpush => exact execMqpush_canonical h
  | qpop => exact execQpop_canonical h
  | mqFlush => exact execMqFlush_canonical h
  | cpFlush => exact execCpFlush_canonical h
  | cp => exact execCp_canonical h
  | cpBolt => exact execCpBolt_canonical h
  | cpQ => exact execCpQ_canonical h
  | spawn => exact execSpawn_canonical h
  | suspend => exact execSuspend_canonical h
  | exit => exact execExit_canonical h
  | seam => exact execSeam_canonical h
  | waitM => exact execWaitM_canonical h
  | spin => exact execSpin_canonical h
  | pagereq => exact execPagereq_canonical h
  | crr => exact execCrr_canonical h
  | crw => exact execCrw_canonical h
  | settc => exact execSettc_canonical h
  | trap => exact execTrap_canonical h
  | grd => exact execGrd_canonical h
  | pbr =>
    unfold exec
    exact execPbr_canonical h
  | lcset => exact execLcset_canonical h
  | join => exact execJoin_canonical h
  | leave => exact execLeave_canonical h
  | barNew => exact execBarNew_canonical h
  | barArv => exact execBarArv_canonical h
  | barWt => exact execBarWt_canonical h
  | barRel => exact execBarRel_canonical h
  | mpath => exact execMpath_canonical h
  | lqPost => exact execLqPost_canonical h
  | pnlDef => exact execPnlDef_canonical h
  | kvbMap => exact execKvbMap_canonical h
  | kvbShare => exact execKvbShare_canonical h
  | kvbFree => exact execKvbFree_canonical h
  | kvbInval => exact execKvbInval_canonical h
  | netPost => exact execNetPost_canonical h
  | netWait => exact execNetWait_canonical h
  | msgSend => exact execMsgSend_canonical h
  | msgRecv => exact execMsgRecv_canonical h
  | nop =>
    unfold exec
    exact execNop_canonical h
  | vnop => exact execVnop_canonical h
  | vseam => exact execVseam_canonical h
  | vhalt =>
    unfold exec
    exact execVhalt_canonical h
  | vwait => exact execVwait_canonical h
  | vsig => exact execVsig_canonical h
  | vjmp => exact execVjmp_canonical h
  | vloop => exact execVloop_canonical h
  | vmov => exact execVmov_canonical h
  | vmovi => exact execVmovi_canonical h
  | vins => exact execVins_canonical h
  | vswap => exact execVswap_canonical h
  | vpop => exact execVpop_canonical h
  | vpush => exact execVpush_canonical h
  | vqdrop => exact execVqdrop_canonical h
  | vadd => exact execVadd_canonical h
  | vsub => exact execVsub_canonical h
  | vmul => exact execVmul_canonical h
  | vmulh => exact execVmulh_canonical h
  | vfma => exact execVfma_canonical h
  | vfms => exact execVfms_canonical h
  | vfnma => exact execVfnma_canonical h
  | vmin => exact execVmin_canonical h
  | vmax => exact execVmax_canonical h
  | vabs => exact execVabs_canonical h
  | vneg => exact execVneg_canonical h
  | vavg => exact execVavg_canonical h
  | vabsd => exact execVabsd_canonical h
  | vclamp => exact execVclamp_canonical h
  | vsign => exact execVsign_canonical h
  | vscale => exact execVscale_canonical h
  | vdot4 => exact execVdot4_canonical h
  | vdot2 => exact execVdot2_canonical h
  | vmulw => exact execVmulw_canonical h
  | vaddw => exact execVaddw_canonical h
  | vrint => exact execVrint_canonical h
  | vmulq => exact execVmulq_canonical h
  | vlut => exact execVlut_canonical h
  | vfrexp => exact execVfrexp_canonical h
  | vcmpEq => exact execVcmpEq_canonical h
  | vcmpNe => exact execVcmpNe_canonical h
  | vcmpLt => exact execVcmpLt_canonical h
  | vcmpLe => exact execVcmpLe_canonical h
  | vcmpUnord => exact execVcmpUnord_canonical h
  | vcmpOrd => exact execVcmpOrd_canonical h
  | vsel => exact execVsel_canonical h
  | vclass => exact execVclass_canonical h
  | kand => exact execKand_canonical h
  | kor => exact execKor_canonical h
  | kxor => exact execKxor_canonical h
  | knot => exact execKnot_canonical h
  | kpopc => exact execKpopc_canonical h
  | kfirst => exact execKfirst_canonical h
  | vtok => exact execVtok_canonical h
  | ktov => exact execKtov_canonical h
  | kset => exact execKset_canonical h
  | vand => exact execVand_canonical h
  | vor => exact execVor_canonical h
  | vxor => exact execVxor_canonical h
  | vnot => exact execVnot_canonical h
  | vandn => exact execVandn_canonical h
  | vbsel => exact execVbsel_canonical h
  | vshl => exact execVshl_canonical h
  | vshr => exact execVshr_canonical h
  | vsra => exact execVsra_canonical h
  | vclz => exact execVclz_canonical h
  | vpopc => exact execVpopc_canonical h
  | vbrev => exact execVbrev_canonical h
  | vcvt => exact execVcvt_canonical h
  | vpack => exact execVpack_canonical h
  | vunpk => exact execVunpk_canonical h
  | vmxq => exact execVmxq_canonical h
  | vmxd => exact execVmxd_canonical h
  | vrq => exact execVrq_canonical h
  | vexp2 => exact execVexp2_canonical h
  | vlog2 => exact execVlog2_canonical h
  | vrcp => exact execVrcp_canonical h
  | vrsq => exact execVrsq_canonical h
  | vsqrt => exact execVsqrt_canonical h
  | vsin => exact execVsin_canonical h
  | vcos => exact execVcos_canonical h
  | vtanh => exact execVtanh_canonical h
  | vsigm => exact execVsigm_canonical h
  | verf => exact execVerf_canonical h
  | vrot => exact execVrot_canonical h
  | vbcst => exact execVbcst_canonical h
  | vrsum => exact execVrsum_canonical h
  | vrmax => exact execVrmax_canonical h
  | vrmin => exact execVrmin_canonical h
  | vrmaxi => exact execVrmaxi_canonical h
  | vrmini => exact execVrmini_canonical h
  | vscan => exact execVscan_canonical h
  | vshft => exact execVshft_canonical h
  | vrsumw => exact execVrsumw_canonical h
  | vperm => exact execVperm_canonical h
  | vtrn => exact execVtrn_canonical h
  | vzip => exact execVzip_canonical h
  | vuzp => exact execVuzp_canonical h
  | vcxs => exact execVcxs_canonical h
  | vcomp => exact execVcomp_canonical h
  | vexpd => exact execVexpd_canonical h
  | vrand => exact execVrand_canonical h
  | vld => exact execVld_canonical h
  | vlds => exact execVlds_canonical h
  | vst => exact execVst_canonical h
  | vsts => exact execVsts_canonical h
  | vldx => exact execVldx_canonical h
  | vstx => exact execVstx_canonical h
  | kld => exact execKld_canonical h
  | kst => exact execKst_canonical h
  | vstm => exact execVstm_canonical h
  | vHint => exact execVHint_canonical h
  | vnopShort => exact execVnopShort_canonical h
  | vseamShort => exact execVseamShort_canonical h
  | vhaltShort => exact execVhaltShort_canonical h
  | vmovShort => exact execVmovShort_canonical h
  | vswapShort => exact execVswapShort_canonical h
  | vpopShort => exact execVpopShort_canonical h
  | vqdropShort => exact execVqdropShort_canonical h
  | vnotShort => exact execVnotShort_canonical h
  | vandShort => exact execVandShort_canonical h
  | vorShort => exact execVorShort_canonical h
  | vxorShort => exact execVxorShort_canonical h
  | vandnShort => exact execVandnShort_canonical h
  | kandShort => exact execKandShort_canonical h
  | korShort => exact execKorShort_canonical h
  | kxorShort => exact execKxorShort_canonical h
  | knotShort => exact execKnotShort_canonical h
  | vaddF32Short => exact execVaddF32Short_canonical h
  | vsubF32Short => exact execVsubF32Short_canonical h
  | vmulF32Short => exact execVmulF32Short_canonical h
  | vminF32Short => exact execVminF32Short_canonical h
  | vmaxF32Short => exact execVmaxF32Short_canonical h
  | vabsF32Short => exact execVabsF32Short_canonical h
  | vnegF32Short => exact execVnegF32Short_canonical h
  | vexp2F32Short => exact execVexp2F32Short_canonical h
  | vaddBf16Short => exact execVaddBf16Short_canonical h
  | vsubBf16Short => exact execVsubBf16Short_canonical h
  | vmulBf16Short => exact execVmulBf16Short_canonical h
  | vminBf16Short => exact execVminBf16Short_canonical h
  | vmaxBf16Short => exact execVmaxBf16Short_canonical h
  | vaddI32Short => exact execVaddI32Short_canonical h
  | vsubI32Short => exact execVsubI32Short_canonical h
  | vmulI32Short => exact execVmulI32Short_canonical h
  | vminI32Short => exact execVminI32Short_canonical h
  | vmaxI32Short => exact execVmaxI32Short_canonical h
  | vaddI16Short => exact execVaddI16Short_canonical h
  | vsubI16Short => exact execVsubI16Short_canonical h
  | vaddI8Short => exact execVaddI8Short_canonical h
  | vsubI8Short => exact execVsubI8Short_canonical h
  | vHintShort =>
    unfold exec
    exact execVHintShort_canonical h
  | mnop => exact execMnop_canonical h
  | mhalt => exact execMhalt_canonical h
  | mseam => exact execMseam_canonical h
  | mreply => exact execMreply_canonical h
  | mloop => exact execMloop_canonical h
  | mend => exact execMend_canonical h
  | mjmp => exact execMjmp_canonical h
  | mfence => exact execMfence_canonical h
  | mbrk => exact execMbrk_canonical h
  | qstep => exact execQstep_canonical h
  | qstepI4 => exact execQstepI4_canonical h
  | qdrain => exact execQdrain_canonical h
  | mBolt => exact execMBolt_canonical h
  | qcb => exact execQcb_canonical h
  | qscl => exact execQscl_canonical h
  | qwin => exact execQwin_canonical h
  | qrel => exact execQrel_canonical h
  | qskip => exact execQskip_canonical h
  | qnz => exact execQnz_canonical h
  | mmaI8 => exact execMmaI8_canonical h
  | mmaE4m3 => exact execMmaE4m3_canonical h
  | mmaE5m2 => exact execMmaE5m2_canonical h
  | mmaBf16 => exact execMmaBf16_canonical h
  | mmaMx4 => exact execMmaMx4_canonical h
  | mmaGI8 => exact execMmaGI8_canonical h
  | mmaGE4m3 => exact execMmaGE4m3_canonical h
  | mmaGE5m2 => exact execMmaGE5m2_canonical h
  | mmaGBf16 => exact execMmaGBf16_canonical h
  | mmaGMx4 => exact execMmaGMx4_canonical h
  | mmaMskI8 => exact execMmaMskI8_canonical h
  | mmaMskE4m3 => exact execMmaMskE4m3_canonical h
  | mmaMskE5m2 => exact execMmaMskE5m2_canonical h
  | mmaMskBf16 => exact execMmaMskBf16_canonical h
  | mmaMskMx4 => exact execMmaMskMx4_canonical h
  | mmld => exact execMmld_canonical h
  | yclr => exact execYclr_canonical h
  | yld => exact execYld_canonical h
  | yst => exact execYst_canonical h
  | ymov => exact execYmov_canonical h
  | yadd => exact execYadd_canonical h
  | ymax => exact execYmax_canonical h
  | yfill => exact execYfill_canonical h
  | yred => exact execYred_canonical h
  | yscl => exact execYscl_canonical h
  | yswap => exact execYswap_canonical h
  | epi => exact execEpi_canonical h
  | mtrn => exact execMtrn_canonical h
  | mHint =>
    unfold exec
    exact execMHint_canonical h
  | mWordCompletion => exact execMWordCompletion_canonical h
  | accessCompletion => exact execAccessCompletion_canonical h
  | copyStart => exact execCopyStart_canonical h
  | copyCompletion => exact execCopyCompletion_canonical h
  | copyFault => exact execCopyFault_canonical h
  | trapDelivery => exact execTrapDelivery_canonical h
  | distributorSelection => exact execDistributorSelection_canonical h
  | binding => exact execBinding_canonical h
  | expressPreemption => exact execExpressPreemption_canonical h
  | starvationPreemption => exact execStarvationPreemption_canonical h
  | progressStop => exact execProgressStop_canonical h
  | stopCompletion => exact execStopCompletion_canonical h
  | stopTimeout => exact execStopTimeout_canonical h
  | monitorWake => exact execMonitorWake_canonical h
  | waitMRecheck => exact execWaitMRecheck_canonical h
  | frameFill => exact execFrameFill_canonical h
  | frameSave => exact execFrameSave_canonical h
  | frameLoad => exact execFrameLoad_canonical h
  | coreOffline => exact execCoreOffline_canonical h
  | pageResident => exact execPageResident_canonical h
  | laneSwap => exact execLaneSwap_canonical h
  | vaultColumnTraining => exact execVaultColumnTraining_canonical h
  | patrolScrub => exact execPatrolScrub_canonical h
  | wqTailWrite => exact execWqTailWrite_canonical h
  | wqCfgWrite => exact execWqCfgWrite_canonical h
  | abort => exact execAbort_canonical h
  | dispatchStep => exact execDispatchStep_canonical h
  | conditionEvaluation => exact execConditionEvaluation_canonical h
  | launchCompletion => exact execLaunchCompletion_canonical h
  | hostAccess => exact execHostAccess_canonical h
  | alloc => exact execAlloc_canonical h
  | free => exact execFree_canonical h
  | back => exact execBack_canonical h
  | evict => exact execEvict_canonical h
  | fetch => exact execFetch_canonical h
  | query => exact execQuery_canonical h
  | grant => exact execGrant_canonical h
  | queue => exact execQueue_canonical h
  | attest => exact execAttest_canonical h
  | kvclear => exact execKvclear_canonical h
  | evHeadWrite => exact execEvHeadWrite_canonical h
  | millerAccess => exact execMillerAccess_canonical h
  | btGo => exact execBtGo_canonical h
  | bootSequenceEnd => exact execBootSequenceEnd_canonical h
  | cold => exact execCold_canonical h
  | warm => exact execWarm_canonical h
  | coldResetInput => exact execColdResetInput_canonical h
  | functionLevelReset => exact execFunctionLevelReset_canonical h
  | powerClamp => exact execPowerClamp_canonical h
  | thermalClamp => exact execThermalClamp_canonical h
  | emergencyClamp => exact execEmergencyClamp_canonical h
  | clampRelease => exact execClampRelease_canonical h
  | clockChange => exact execClockChange_canonical h
  | temperatureSample => exact execTemperatureSample_canonical h
  | send => exact execSend_canonical h
  | write => exact execWrite_canonical h
  | recv => exact execRecv_canonical h
  | expose => exact execExpose_canonical h
  | withdraw => exact execWithdraw_canonical h
  | packetArrival => exact execPacketArrival_canonical h
  | packetAcknowledgement => exact execPacketAcknowledgement_canonical h
  | packetTimeout => exact execPacketTimeout_canonical h
  | notReadyRetry => exact execNotReadyRetry_canonical h
  | linkStateChange => exact execLinkStateChange_canonical h
  | linkStateNotice => exact execLinkStateNotice_canonical h
  | rst => exact execRst_canonical h
  | relabWrite => exact execRelabWrite_canonical h
  | flitDrop => exact execFlitDrop_canonical h
  | fragmentArrival => exact execFragmentArrival_canonical h
  | stripeAcknowledgement => exact execStripeAcknowledgement_canonical h
  | receiverTimeout => exact execReceiverTimeout_canonical h
  | decodeBufferFree => exact execDecodeBufferFree_canonical h
  | senderRetransmission => exact execSenderRetransmission_canonical h
  | retransmissionRequest => exact execRetransmissionRequest_canonical h
  | stripeLoss => exact execStripeLoss_canonical h
  | lossNotice => exact execLossNotice_canonical h
  | holdExpiry => exact execHoldExpiry_canonical h
  | messageRefusalRetry => exact execMessageRefusalRetry_canonical h
  | managementMessageSend => exact execManagementMessageSend_canonical h
  | managementMessageArrival => exact execManagementMessageArrival_canonical h
  | parityUpdate => exact execParityUpdate_canonical h
  | parityAcknowledgement => exact execParityAcknowledgement_canonical h
  | parityResend => exact execParityResend_canonical h
  | memberLoss => exact execMemberLoss_canonical h
  | rebuild => exact execRebuild_canonical h
  | stripeFreeze => exact execStripeFreeze_canonical h
  | stripeRebuild => exact execStripeRebuild_canonical h
  | svCfgWrite => exact execSvCfgWrite_canonical h
  | registerWrite => exact execRegisterWrite_canonical h
  | pfSubstWrite => exact execPfSubstWrite_canonical h
  | messageEngineSend => exact execMessageEngineSend_canonical h
  | ethernetLinkStateChange => exact execEthernetLinkStateChange_canonical h
  | lossNoticeRepeat => exact execLossNoticeRepeat_canonical h

/-! ## The sequencers -/

theorem leaveExit_canonical {i} (h : Canonical s) : Canonical (leaveExit i s) := by
  unfold leaveExit
  extract_lets u left
  have hu : CoreCanonical u := h.core
  have hleft : Canonical left := by
    unfold left
    split
    · exact h
    · exact h.setCore (hu.congr rfl rfl) rfl rfl
  split
  · exact h
  · split
    · exact h
    · exact hleft
  · exact hleft

theorem runA_canonical (h : Canonical s) : OutCanonical (runA s) := by
  unfold runA
  split
  · exact finishA_canonical h h
  · split
    · exact finishA_canonical h h
    · split
      · exact finishA_canonical h h
      · exact exec_canonical _ (leaveExit_canonical h)

theorem stepA_canonical (h : Canonical s) : OutCanonical (stepA s) := by
  unfold stepA
  split
  · exact runA_canonical h
  · exact h

theorem vRefuse_canonical {code} (h : Canonical s) : Canonical (vRefuse code s) := h.setCore (Core.vStop_canonical h.core) rfl rfl

theorem runVLong_canonical {op f} (h : Canonical s) : OutCanonical (runVLong op f s) := by
  unfold runVLong
  split
  · exact execVnop_canonical h
  · exact execVseam_canonical h
  · exact execVhalt_canonical h
  · exact execVwait_canonical h
  · exact execVsig_canonical h
  · exact execVjmp_canonical h
  · exact execVloop_canonical h
  · exact execVmov_canonical h
  · exact execVmovi_canonical h
  · exact execVins_canonical h
  · exact execVswap_canonical h
  · exact execVpop_canonical h
  · exact execVpush_canonical h
  · exact execVqdrop_canonical h
  · exact execVadd_canonical h
  · exact execVsub_canonical h
  · exact execVmul_canonical h
  · exact execVmulh_canonical h
  · exact execVfma_canonical h
  · exact execVfms_canonical h
  · exact execVfnma_canonical h
  · exact execVmin_canonical h
  · exact execVmax_canonical h
  · exact execVabs_canonical h
  · exact execVneg_canonical h
  · exact execVavg_canonical h
  · exact execVabsd_canonical h
  · exact execVclamp_canonical h
  · exact execVsign_canonical h
  · exact execVscale_canonical h
  · exact execVdot4_canonical h
  · exact execVdot2_canonical h
  · exact execVmulw_canonical h
  · exact execVaddw_canonical h
  · exact execVrint_canonical h
  · exact execVmulq_canonical h
  · exact execVlut_canonical h
  · exact execVfrexp_canonical h
  · exact execVcmpEq_canonical h
  · exact execVcmpNe_canonical h
  · exact execVcmpLt_canonical h
  · exact execVcmpLe_canonical h
  · exact execVcmpUnord_canonical h
  · exact execVcmpOrd_canonical h
  · exact execVsel_canonical h
  · exact execVclass_canonical h
  · exact execKand_canonical h
  · exact execKor_canonical h
  · exact execKxor_canonical h
  · exact execKnot_canonical h
  · exact execKpopc_canonical h
  · exact execKfirst_canonical h
  · exact execVtok_canonical h
  · exact execKtov_canonical h
  · exact execKset_canonical h
  · exact execVand_canonical h
  · exact execVor_canonical h
  · exact execVxor_canonical h
  · exact execVnot_canonical h
  · exact execVandn_canonical h
  · exact execVbsel_canonical h
  · exact execVshl_canonical h
  · exact execVshr_canonical h
  · exact execVsra_canonical h
  · exact execVclz_canonical h
  · exact execVpopc_canonical h
  · exact execVbrev_canonical h
  · exact execVcvt_canonical h
  · exact execVpack_canonical h
  · exact execVunpk_canonical h
  · exact execVmxq_canonical h
  · exact execVmxd_canonical h
  · exact execVrq_canonical h
  · exact execVexp2_canonical h
  · exact execVlog2_canonical h
  · exact execVrcp_canonical h
  · exact execVrsq_canonical h
  · exact execVsqrt_canonical h
  · exact execVsin_canonical h
  · exact execVcos_canonical h
  · exact execVtanh_canonical h
  · exact execVsigm_canonical h
  · exact execVerf_canonical h
  · exact execVrot_canonical h
  · exact execVbcst_canonical h
  · exact execVrsum_canonical h
  · exact execVrmax_canonical h
  · exact execVrmin_canonical h
  · exact execVrmaxi_canonical h
  · exact execVrmini_canonical h
  · exact execVscan_canonical h
  · exact execVshft_canonical h
  · exact execVrsumw_canonical h
  · exact execVperm_canonical h
  · exact execVtrn_canonical h
  · exact execVzip_canonical h
  · exact execVuzp_canonical h
  · exact execVcxs_canonical h
  · exact execVcomp_canonical h
  · exact execVexpd_canonical h
  · exact execVrand_canonical h
  · exact execVld_canonical h
  · exact execVlds_canonical h
  · exact execVst_canonical h
  · exact execVsts_canonical h
  · exact execVldx_canonical h
  · exact execVstx_canonical h
  · exact execKld_canonical h
  · exact execKst_canonical h
  · exact execVstm_canonical h
  · exact vRefuse_canonical h

theorem runVShort_canonical {op vd va} (h : Canonical s) : OutCanonical (runVShort op vd va s) := by
  unfold runVShort
  split
  · exact execVnopShort_canonical h
  · exact execVseamShort_canonical h
  · exact execVhaltShort_canonical h
  · exact execVmovShort_canonical h
  · exact execVswapShort_canonical h
  · exact execVpopShort_canonical h
  · exact execVqdropShort_canonical h
  · exact execVnotShort_canonical h
  · exact execVandShort_canonical h
  · exact execVorShort_canonical h
  · exact execVxorShort_canonical h
  · exact execVandnShort_canonical h
  · exact execKandShort_canonical h
  · exact execKorShort_canonical h
  · exact execKxorShort_canonical h
  · exact execKnotShort_canonical h
  · exact execVaddF32Short_canonical h
  · exact execVsubF32Short_canonical h
  · exact execVmulF32Short_canonical h
  · exact execVminF32Short_canonical h
  · exact execVmaxF32Short_canonical h
  · exact execVabsF32Short_canonical h
  · exact execVnegF32Short_canonical h
  · exact execVexp2F32Short_canonical h
  · exact execVaddBf16Short_canonical h
  · exact execVsubBf16Short_canonical h
  · exact execVmulBf16Short_canonical h
  · exact execVminBf16Short_canonical h
  · exact execVmaxBf16Short_canonical h
  · exact execVaddI32Short_canonical h
  · exact execVsubI32Short_canonical h
  · exact execVmulI32Short_canonical h
  · exact execVminI32Short_canonical h
  · exact execVmaxI32Short_canonical h
  · exact execVaddI16Short_canonical h
  · exact execVsubI16Short_canonical h
  · exact execVaddI8Short_canonical h
  · exact execVsubI8Short_canonical h
  · exact vRefuse_canonical h

theorem runV_canonical {d} (h : Canonical s) : OutCanonical (runV d s) := by
  unfold runV
  split
  · split
    · exact execVHintShort_canonical h
    · exact runVShort_canonical h
  · exact runVLong_canonical h
  · exact execVHint_canonical h
  · exact vRefuse_canonical h

theorem vAtPc_canonical (h : Canonical s) : OutCanonical (vAtPc s) := by
  unfold vAtPc
  split
  · exact h.setCore (Core.vStop_canonical h.core) rfl rfl
  · split
    · exact vRefuse_canonical h
    · exact runV_canonical h

theorem stepV_canonical (h : Canonical s) : OutCanonical (stepV s) := by
  unfold stepV
  split
  · exact vAtPc_canonical h
  · exact h

theorem mRefuse_canonical {e} (h : Canonical s) : Canonical (mRefuse e s) := h.setCore (Core.mStop_canonical h.core) rfl rfl

theorem runMWord_canonical {op f} (h : Canonical s) : OutCanonical (runMWord op f s) := by
  unfold runMWord
  split
  · exact execMnop_canonical h
  · exact execMhalt_canonical h
  · exact execMseam_canonical h
  · exact execMreply_canonical h
  · exact execMloop_canonical h
  · exact execMend_canonical h
  · exact execMjmp_canonical h
  · exact execMfence_canonical h
  · exact execMbrk_canonical h
  · exact execQstep_canonical h
  · exact execQstepI4_canonical h
  · exact execQdrain_canonical h
  · exact execMBolt_canonical h
  · exact execQcb_canonical h
  · exact execQscl_canonical h
  · exact execQwin_canonical h
  · exact execQrel_canonical h
  · exact execQskip_canonical h
  · exact execQnz_canonical h
  · exact execMmaI8_canonical h
  · exact execMmaE4m3_canonical h
  · exact execMmaE5m2_canonical h
  · exact execMmaBf16_canonical h
  · exact execMmaMx4_canonical h
  · exact execMmaGI8_canonical h
  · exact execMmaGE4m3_canonical h
  · exact execMmaGE5m2_canonical h
  · exact execMmaGBf16_canonical h
  · exact execMmaGMx4_canonical h
  · exact execMmaMskI8_canonical h
  · exact execMmaMskE4m3_canonical h
  · exact execMmaMskE5m2_canonical h
  · exact execMmaMskBf16_canonical h
  · exact execMmaMskMx4_canonical h
  · exact execMmld_canonical h
  · exact execYclr_canonical h
  · exact execYld_canonical h
  · exact execYst_canonical h
  · exact execYmov_canonical h
  · exact execYadd_canonical h
  · exact execYmax_canonical h
  · exact execYfill_canonical h
  · exact execYred_canonical h
  · exact execYscl_canonical h
  · exact execYswap_canonical h
  · exact execEpi_canonical h
  · exact execMtrn_canonical h
  · exact mRefuse_canonical h

theorem runM_canonical {d} (h : Canonical s) : OutCanonical (runM d s) := by
  unfold runM
  split
  · exact runMWord_canonical h
  · exact execMHint_canonical h
  · exact mRefuse_canonical h

theorem mAtPc_canonical (h : Canonical s) : OutCanonical (mAtPc s) := by
  unfold mAtPc
  split
  · exact mRefuse_canonical h
  · exact runM_canonical h

theorem stepM_canonical (h : Canonical s) : OutCanonical (stepM s) := by
  unfold stepM
  split
  · exact mAtPc_canonical h
  · exact h

/-! ## The agents -/

theorem copyTurn_canonical (h : Canonical s) : OutCanonical (copyTurn s) := by
  unfold copyTurn
  split
  · exact execCopyFault_canonical h
  · exact execCopyCompletion_canonical h

theorem stopTurn_canonical (h : Canonical s) : OutCanonical (stopTurn s) := by
  unfold stopTurn
  extract_lets late
  split
  · exact execStopTimeout_canonical h
  · exact execStopCompletion_canonical h

theorem stepAcquire_canonical (h : Canonical s) : OutCanonical (stepAcquire s) := by
  unfold stepAcquire
  split
  · exact stepA_canonical h
  · exact h

theorem frameTurn_canonical (h : Canonical s) : OutCanonical (frameTurn s) := by
  unfold frameTurn
  split
  · exact execFrameFill_canonical h
  · split
    · exact execFrameSave_canonical h
    · split
      · exact execFrameLoad_canonical h
      · exact h

theorem scheduleTurn_canonical (h : Canonical s) : Canonical (scheduleTurn s) := by
  unfold scheduleTurn
  extract_lets s1
  have hs1 : Canonical s1 := outState_canonical h (execExpressPreemption_canonical h)
  refine foldl_canonical ?_ hs1
  intro u x h3
  split
  · exact outState_canonical h3 (execProgressStop_canonical (outState_canonical h3 (execStarvationPreemption_canonical h3)))
  · exact outState_canonical h3 (execMonitorWake_canonical h3)
  · exact h3

theorem dispatchTurn_canonical (h : Canonical s) : Canonical (dispatchTurn s) :=
  foldl_canonical (fun _ _ h1 => outState_canonical h1 (execConditionEvaluation_canonical h1)) (outState_canonical h
    (execDispatchStep_canonical h))

theorem launchTurn_canonical (h : Canonical s) : Canonical (launchTurn s) := by
  unfold launchTurn
  extract_lets s1
  have hs1 : Canonical s1 := countEnded_canonical h
  split
  · exact outState_canonical hs1 (execLaunchCompletion_canonical hs1)
  · exact hs1

theorem mailboxTurn_canonical (h : Canonical s) : Canonical (mailboxTurn s) := by
  unfold mailboxTurn
  split
  · exact h
  · split
    · exact outState_canonical h (execAlloc_canonical h)
    · exact outState_canonical h (execFree_canonical h)
    · exact outState_canonical h (execBack_canonical h)
    · exact outState_canonical h (execEvict_canonical h)
    · exact h
    · exact outState_canonical h (execQuery_canonical h)
    · exact outState_canonical h (execGrant_canonical h)
    · exact outState_canonical h (execQueue_canonical h)
    · exact h
    · exact outState_canonical h (execKvclear_canonical h)
    · exact serveUnknown_canonical h

theorem memoryTurn_canonical (h : Canonical s) : Canonical (memoryTurn s) := by
  unfold memoryTurn
  extract_lets s1
  have hs1 : Canonical s1 :=
    hostServe_canonical (millerServe_canonical (retrainNext_canonical (tellAll_canonical (settleDrops_canonical
    (mailboxTurn_canonical h)))))
  split
  · exact outState_canonical hs1 (execPageResident_canonical hs1)
  · exact hs1

theorem FabOut.land_canonical {own x} (h : Canonical s) : Canonical (FabOut.land own s x) := by
  unfold FabOut.land
  split
  · exact takeFragment_canonical h
  · exact h
  · exact outState_canonical h (execStripeAcknowledgement_canonical h)
  · exact outState_canonical h (execRetransmissionRequest_canonical h)
  · exact takeNotice_canonical h

theorem loopback_canonical (h : Canonical s) : Canonical (loopback s) := foldl_canonical (fun _ _ h1 => FabOut.land_canonical h1) h

theorem repeatNotice_canonical {n} (h : Canonical s) : Canonical (repeatNotice s n) := by
  unfold repeatNotice
  split
  · exact h
  · exact sendAnswer_canonical h

theorem fabricTimers_canonical (h : Canonical s) : Canonical (fabricTimers s) := by
  unfold fabricTimers
  extract_lets s1 s2 s3 s4 s5 s6 s7
  have hs1 : Canonical s1 := foldl_canonical
    (fun _ _ hu => outState_canonical hu (execStripeLoss_canonical (outState_canonical hu (execSenderRetransmission_canonical hu)))) h
  have hs2 : Canonical s2 := foldl_canonical (fun _ _ hu => formerTimer_canonical hu) hs1
  have hs3 : Canonical s3 := foldl_canonical
    (fun _ _ hu => outState_canonical hu (execDecodeBufferFree_canonical (outState_canonical hu (execReceiverTimeout_canonical hu)))) hs2
  have hs4 : Canonical s4 := foldl_canonical (fun _ _ hu => repeatNotice_canonical hu) hs3
  have hs5 : Canonical s5 := foldl_canonical (fun _ _ hu => outState_canonical hu (execMessageRefusalRetry_canonical hu)) hs4
  have hs6 : Canonical s6 := foldl_canonical (fun _ _ hu => outState_canonical hu (execHoldExpiry_canonical hu)) hs5
  have hs7 : Canonical s7 := foldl_canonical (fun _ _ hu => outState_canonical hu (execMemberLoss_canonical hu)) (noteCut_canonical hs6)
  exact foldl_canonical (fun _ _ hu => outState_canonical hu (execParityResend_canonical hu)) hs7

theorem messageTurn_canonical (h : Canonical s) : Canonical (messageTurn s) := by
  unfold messageTurn
  extract_lets s1 s2 s3
  have hs1 : Canonical s1 := rebuildTurn_canonical (releaseStripes_canonical (releaseHeld_canonical (loopback_canonical h)))
  have hs2 : Canonical s2 := foldl_canonical (fun _ _ hu => tryDecode_canonical hu) hs1
  have hs3 : Canonical s3 := tellRecvs_canonical (tellSends_canonical (serveStreams_canonical hs2))
  exact fabricTimers_canonical (outState_canonical hs3 (execMessageEngineSend_canonical hs3))

theorem endpointTurn_canonical {e} (h : Canonical s) : Canonical (endpointTurn s e) := by
  unfold endpointTurn
  extract_lets s1
  have hs1 : Canonical s1 := by
    unfold s1
    split
    · exact h
    · split
      · exact outState_canonical h (execSend_canonical h)
      · exact outState_canonical h (execWrite_canonical h)
  split
  · exact hs1
  · split
    · exact outState_canonical hs1 (execRecv_canonical hs1)
    · exact outState_canonical hs1 (execExpose_canonical hs1)
    · exact outState_canonical hs1 (execWithdraw_canonical hs1)

theorem placeWaiting_canonical (h : Canonical s) : Canonical (placeWaiting s) :=
  foldl_canonical (fun _ _ h1 => outState_canonical h1 (execPacketArrival_canonical h1)) h

theorem networkTurn_canonical (h : Canonical s) : Canonical (networkTurn s) := by
  unfold networkTurn
  extract_lets s1
  have hs1 : Canonical s1 := foldl_canonical (fun _ _ hu => endpointTurn_canonical hu) (placeWaiting_canonical h)
  refine foldl_canonical (fun u r hu => outState_canonical hu (execNotReadyRetry_canonical ?_)) hs1
  exact foldl_canonical (fun _ _ ht => outState_canonical ht (execPacketTimeout_canonical (fastResend_canonical ht))) hu

theorem nextCoreTurn_canonical (h : Canonical s) : Canonical (nextCoreTurn s) := by
  have hclock : ∀ l u, Canonical u → Canonical (outState s (execClockChange l u)) :=
    fun _ _ hu => outState_canonical h (execClockChange_canonical hu)
  exact focus_canonical (hclock _ _ (hclock _ _ (hclock _ _ h)))

theorem agentOf_canonical {t} (h : Canonical s) : OutCanonical (agentOf t s) := by
  unfold agentOf
  split
  · exact execTrapDelivery_canonical h
  · split
    · exact h
    · exact stepA_canonical h
  · exact stepV_canonical h
  · exact stepM_canonical h
  · exact execMWordCompletion_canonical h
  · exact execCopyStart_canonical h
  · exact copyTurn_canonical h
  · exact stepAcquire_canonical h
  · exact stopTurn_canonical h
  · exact frameTurn_canonical h
  · exact execBinding_canonical h
  · exact execDistributorSelection_canonical h
  · exact scheduleTurn_canonical h
  · exact dispatchTurn_canonical h
  · exact launchTurn_canonical h
  · exact memoryTurn_canonical h
  · exact messageTurn_canonical h
  · exact networkTurn_canonical h
  · exact nextCoreTurn_canonical h

theorem countCore_canonical {p c} (h : CoreCanonical k) : CoreCanonical (countCore p c k) := h

theorem countDie_canonical {p} (h : Canonical s) : Canonical (countDie p s) := by
  unfold countDie
  exact h.congr rfl rfl rfl

theorem tick_canonical (h : Canonical s) : Canonical (tick s) := by
  unfold tick
  extract_lets n ns mx vx vault p s1
  have hs1 : Canonical s1 := countDie_canonical h
  clear_value p s1
  exact ⟨hs1.mem, countCore_canonical hs1.core, map_coreCanonical hs1.parked fun _ he => countCore_canonical he⟩

theorem turnOf_canonical (h : Canonical s) : OutCanonical (turnOf s) := by
  have ha : OutCanonical (agentOf s.turn s) := agentOf_canonical h
  unfold turnOf
  split
  · next hn =>
    have ht := ha.of_next hn
    exact tick_canonical (ht.congr rfl rfl rfl)
  · exact ha

theorem guarded_canonical (h : Canonical s) : OutCanonical (guarded s) := by
  have hr : OutCanonical (runA s) := runA_canonical h
  unfold guarded
  split
  · exact tick_canonical (hr.of_next ‹_›)
  · exact hr

theorem happen_canonical {i rest} (h : Canonical s) : OutCanonical (happen i rest s) := by
  have he : OutCanonical (exec i { s with agenda := rest }) := exec_canonical i h
  unfold happen
  split
  · exact tick_canonical (he.of_next ‹_›)
  · exact he

/-! ## The step -/

theorem step_canonical (h : Canonical s) : OutCanonical (step s) := by
  unfold step
  split
  · exact guarded_canonical h
  · split
    · exact happen_canonical h
    · exact turnOf_canonical h

/-- Settles O60: the step is a guarded word, an event or an agent's turn, and each of them keeps the canonical form. -/
theorem stepKeepsCanonical : Obligations.StepKeepsCanonical :=
  fun _ _ h e => (step_canonical h).of_next e

/-! ## The reset state -/

/-- A register of a bank whose registers all hold one value. -/
theorem bank_replicate {α : Type} {n : Nat} (x : α) (i : BitVec n) : bank (Vector.replicate (2 ^ n) x) i = x :=
  Vector.getElem_replicate ..

theorem reset_fabRate (c : BitVec 3) : bank State.reset.fab.rate c = ⟨8, if c = 0 then 1 else 2, if c = 0 then 0 else 2⟩ := by
  revert c
  decide

theorem reset_fabPort {d : Nat} (hd : d < 10) : State.reset.fab.port[d]? = some ⟨0, 0, false⟩ := by
  revert d
  decide

/-- Settles O59: the fields of the reset state are what its definition writes, and its memories are empty. -/
theorem resetState : Obligations.ResetState := by
  unfold Obligations.ResetState
  refine ⟨⟨rfl, rfl, rfl, rfl, rfl, rfl, rfl, rfl, rfl, fun i => ⟨bank_replicate 0 i, bank_replicate 0 i, bank_replicate 0 i⟩, rfl, rfl,
    rfl, rfl, rfl, rfl, rfl, rfl, rfl, rfl, rfl, rfl, rfl, rfl, reset_fabRate, fun d hd => reset_fabPort hd, rfl⟩, State.reset_canonical⟩

end Sys2Proof.Machine
end

