-- ==== Sys2Proof/Proofs/EncodingFields.lean ====
section
/-! SUPPORT. Words cut into fields (R20 to R27): what is put together from fields gives each of them back, and so do the codes of fields that
stand for a choice. -/

namespace Sys2Proof

theorem extractLsb'_extractLsb' {n : Nat} (x : BitVec n) (a b m k : Nat) (h : b + k ≤ m) :
    (x.extractLsb' a m).extractLsb' b k = x.extractLsb' (a + b) k := by
  ext i hi
  simp [BitVec.getElem_extractLsb', Nat.add_assoc, show b + i < m by omega]

theorem getLsbD_append_of_le {n m : Nat} (x : BitVec n) (y : BitVec m) (i : Nat) (h : m ≤ i) : (x ++ y).getLsbD i = x.getLsbD (i - m) := by
  rw [BitVec.getLsbD_append, if_neg (by omega)]

theorem getLsbD_append_ofBool {n : Nat} (x : BitVec n) (b : Bool) : (x ++ BitVec.ofBool b).getLsbD 0 = b := by
  rw [BitVec.getLsbD_append, if_pos (by omega)]
  cases b <;> rfl

/-- A value cut in two and put together again. -/
theorem append_extractLsb'_self {n : Nat} (a b : Nat) (x : BitVec n) (h : n = a + b) :
    x.extractLsb' b a ++ x.extractLsb' 0 b = x.cast h := by
  subst h
  rw [BitVec.extractLsb'_append_extractLsb'_eq_extractLsb' (Nat.zero_add b).symm]
  exact BitVec.extractLsb'_eq_self

@[simp] theorem AWord.ofParcel_toParcel (a : AWord) : AWord.ofParcel a.toParcel = a := by
  obtain ⟨maj, sd, sa, sb, minor⟩ := a
  simp (disch := omega) only [AWord.toParcel, AWord.ofParcel, BitVec.extractLsb'_append_eq_of_add_le,
    BitVec.extractLsb'_append_eq_of_le, BitVec.extractLsb'_eq_self, Nat.reduceSub]

@[simp] theorem AWord.imm14_ofImm14 (maj sd sa : BitVec 6) (imm : BitVec 14) : (AWord.ofImm14 maj sd sa imm).imm14 = imm :=
  append_extractLsb'_self 6 8 imm rfl

theorem append_extractLsb'_three {n : Nat} (a b c : Nat) (x : BitVec n) (h : n = a + b + c) :
    x.extractLsb' (c + b) a ++ x.extractLsb' c b ++ x.extractLsb' 0 c = x.cast h := by
  subst h
  rw [BitVec.extractLsb'_append_extractLsb'_eq_extractLsb' rfl, BitVec.extractLsb'_append_extractLsb'_eq_extractLsb' (Nat.zero_add c).symm]
  exact BitVec.extractLsb'_eq_self

@[simp] theorem AWord.imm20_ofImm20 (maj sd : BitVec 6) (imm : BitVec 20) : (AWord.ofImm20 maj sd imm).imm20 = imm :=
  append_extractLsb'_three 6 6 8 imm rfl

@[simp] theorem AWord.sub_ofSub (maj sd sa : BitVec 6) (sub : BitVec 4) (imm : BitVec 10) : (AWord.ofSub maj sd sa sub imm).sub = sub :=
  BitVec.extractLsb'_append_eq_left

@[simp] theorem AWord.imm10_ofSub (maj sd sa : BitVec 6) (sub : BitVec 4) (imm : BitVec 10) : (AWord.ofSub maj sd sa sub imm).imm10 = imm := by
  simp only [AWord.ofSub, AWord.imm10, BitVec.extractLsb'_append_eq_right]
  exact append_extractLsb'_self 2 8 imm rfl

@[simp] theorem AWord.order_ofMem (maj sd sa : BitVec 6) (ord : BitVec 3) (off : BitVec 11) : (AWord.ofMem maj sd sa ord off).order = ord :=
  BitVec.extractLsb'_append_eq_left

@[simp] theorem AWord.off_ofMem (maj sd sa : BitVec 6) (ord : BitVec 3) (off : BitVec 11) : (AWord.ofMem maj sd sa ord off).off = off := by
  simp only [AWord.ofMem, AWord.off, BitVec.extractLsb'_append_eq_right]
  exact append_extractLsb'_self 3 8 off rfl

@[simp] theorem MemSize.ofCode_code (s : MemSize) : MemSize.ofCode s.code = s := by cases s <;> rfl

@[simp] theorem AmoOrder.ofCode_code (s : AmoOrder) : AmoOrder.ofCode s.code = s := by cases s <;> rfl

@[simp] theorem Hint.ofCode_code (s : Hint) : Hint.ofCode s.code = some s := by cases s <;> rfl

@[simp] theorem StOrder.ofCode_code (s : StOrder) : StOrder.ofCode s.code = some s := by cases s <;> rfl

@[simp] theorem FenceScope.ofCode_code (s : FenceScope) : FenceScope.ofCode s.code = some s := by cases s <;> rfl

@[simp] theorem FenceOrder.ofCode_code (s : FenceOrder) : FenceOrder.ofCode s.code = s := by cases s <;> rfl

@[simp] theorem loadOrder_code (o : LdOrder) (strict : Bool) : loadOrder (BitVec.ofBool strict ++ o.code) = some (o, strict) := by
  cases o <;> cases strict <;> rfl

@[simp] theorem flushOf_flushCode (w : Option (BitVec 2)) : flushOf (flushCode w) = some w := by
  revert w; decide

@[simp] theorem PopSrc.ofCode_code (p : PopSrc) : PopSrc.ofCode p.code = some p := by
  cases p with
  | rq => rfl
  | vq j => revert j; decide

@[simp] theorem top2_wide6 (x : BitVec 4) : top2 (wide6 x) = true := by revert x; decide

@[simp] theorem bot4_wide6 (x : BitVec 4) : bot4 (wide6 x) = x := BitVec.extractLsb'_append_eq_right

@[simp] theorem whenB_true (i : Instr) : whenB true i = some i := rfl

theorem aInstr_ofBranch (b : BitVec 3) (pk : BitVec 4) (sense : Bool) (sel : BitVec 2) (ctl : BitVec 16) :
    aInstr (AWord.ofBranch b pk sense sel ctl) =
      match sel with
      | 0#2 => whenB (ctl == 0) (.br b pk sense)
      | 1#2 => whenB (ctl.extractLsb' 6 10 == 0) (.brl b pk sense (ctl.extractLsb' 0 6))
      | 2#2 => whenB (ctl.extractLsb' 2 14 == 0) (.bloop b pk sense (ctl.extractLsb' 0 2))
      | _ => none := by
  have hc : (AWord.ofBranch b pk sense sel ctl).control = ctl := by
    simp only [AWord.ofBranch, AWord.control, BitVec.extractLsb'_append_eq_right]
    exact append_extractLsb'_three 2 6 8 ctl rfl
  show brgOf _ = _
  unfold brgOf
  rw [hc]
  simp (disch := omega) only [AWord.ofBranch, BitVec.extractLsb'_append_eq_of_add_le,
    BitVec.extractLsb'_append_eq_of_le, BitVec.extractLsb'_eq_self, Nat.reduceSub, append_extractLsb'_self 3 1 pk rfl,
    getLsbD_append_of_le, getLsbD_append_ofBool]
  rfl

theorem append_extractLsb'_four {n : Nat} (a b c d : Nat) (x : BitVec n) (h : n = a + b + c + d) :
    x.extractLsb' (d + c + b) a ++ x.extractLsb' (d + c) b ++ x.extractLsb' d c ++ x.extractLsb' 0 d = x.cast h := by
  subst h
  rw [BitVec.extractLsb'_append_extractLsb'_eq_extractLsb' rfl, BitVec.extractLsb'_append_extractLsb'_eq_extractLsb' rfl,
    BitVec.extractLsb'_append_extractLsb'_eq_extractLsb' (Nat.zero_add d).symm]
  exact BitVec.extractLsb'_eq_self

@[simp] theorem AWord.maj_ofImm14 (maj sd sa : BitVec 6) (imm : BitVec 14) : (AWord.ofImm14 maj sd sa imm).maj = maj := rfl

@[simp] theorem AWord.sd_ofImm14 (maj sd sa : BitVec 6) (imm : BitVec 14) : (AWord.ofImm14 maj sd sa imm).sd = sd := rfl

@[simp] theorem AWord.sa_ofImm14 (maj sd sa : BitVec 6) (imm : BitVec 14) : (AWord.ofImm14 maj sd sa imm).sa = sa := rfl

@[simp] theorem AWord.maj_ofImm20 (maj sd : BitVec 6) (imm : BitVec 20) : (AWord.ofImm20 maj sd imm).maj = maj := rfl

@[simp] theorem AWord.sd_ofImm20 (maj sd : BitVec 6) (imm : BitVec 20) : (AWord.ofImm20 maj sd imm).sd = sd := rfl

@[simp] theorem AWord.maj_ofSub (maj sd sa : BitVec 6) (sub : BitVec 4) (imm : BitVec 10) : (AWord.ofSub maj sd sa sub imm).maj = maj := rfl

@[simp] theorem AWord.sd_ofSub (maj sd sa : BitVec 6) (sub : BitVec 4) (imm : BitVec 10) : (AWord.ofSub maj sd sa sub imm).sd = sd := rfl

@[simp] theorem AWord.sa_ofSub (maj sd sa : BitVec 6) (sub : BitVec 4) (imm : BitVec 10) : (AWord.ofSub maj sd sa sub imm).sa = sa := rfl

@[simp] theorem AWord.maj_ofMem (maj sd sa : BitVec 6) (ord : BitVec 3) (off : BitVec 11) : (AWord.ofMem maj sd sa ord off).maj = maj := rfl

@[simp] theorem AWord.sd_ofMem (maj sd sa : BitVec 6) (ord : BitVec 3) (off : BitVec 11) : (AWord.ofMem maj sd sa ord off).sd = sd := rfl

@[simp] theorem AWord.sa_ofMem (maj sd sa : BitVec 6) (ord : BitVec 3) (off : BitVec 11) : (AWord.ofMem maj sd sa ord off).sa = sa := rfl

end Sys2Proof
end

