-- ==== Sys2Proof/Proofs/EncodingA.lean ====
section
/-! SUPPORT. The A-stream (R20 to R30): a map of fields to instructions finds the instruction that the fields were made from. The fields of a
group are read in the group's own function, so there is one lemma for each function and form; the map of major opcodes is their case split. -/

namespace Sys2Proof

theorem bot4_append (x : BitVec 2) (y : BitVec 4) : bot4 (x ++ y) = y := BitVec.extractLsb'_append_eq_right

theorem getLsbD_ofBool_zero (b : Bool) : (BitVec.ofBool b).getLsbD 0 = b := by cases b <;> rfl

theorem minor_amoWord (op : BitVec 4) (sd sa sb : BitVec 6) (size : MemSize) (ord : AmoOrder) :
    (amoWord op sd sa sb size ord).minor.extractLsb' 4 4 = op ∧ (amoWord op sd sa sb size ord).minor.extractLsb' 2 2 = size.code ∧
    (amoWord op sd sa sb size ord).minor.extractLsb' 0 2 = ord.code := by
  simp (disch := omega) only [amoWord, BitVec.extractLsb'_append_eq_of_add_le, BitVec.extractLsb'_append_eq_of_le, Nat.reduceSub,
    BitVec.extractLsb'_eq_self, and_self]

/-- The words of AMO but the floating sum. -/
theorem amoOf_amoWord (sd sa sb : BitVec 6) (size : MemSize) (ord : AmoOrder) :
    ∀ p ∈ ([(0, .amoAdd sd sa sb size ord), (1, .amoAnd sd sa sb size ord), (2, .amoOr sd sa sb size ord), (3, .amoXor sd sa sb size ord),
        (4, .amoMin sd sa sb size ord), (5, .amoMax sd sa sb size ord), (6, .amoMinu sd sa sb size ord), (7, .amoMaxu sd sa sb size ord),
        (8, .swap sd sa sb size ord), (9, .cas sd sa sb size ord)] : List (BitVec 4 × Instr)),
      amoOf (amoWord p.1 sd sa sb size ord) = some p.2 := by
  have hf (op : BitVec 4) := minor_amoWord op sd sa sb size ord
  simp only [List.forall_mem_cons, List.not_mem_nil, false_implies, implies_true, and_true, amoOf, hf, MemSize.ofCode_code,
    AmoOrder.ofCode_code]
  exact ⟨rfl, rfl, rfl, rfl, rfl, rfl, rfl, rfl, rfl, rfl⟩

theorem amoOf_fadd (sd sa sb : BitVec 6) (f32 : Bool) (ord : AmoOrder) :
    amoOf (amoWord 10 sd sa sb (if f32 then .b4 else .b2) ord) = some (.amoFadd sd sa sb f32 ord) := by
  obtain ⟨hop, hsize, hord⟩ := minor_amoWord 10 sd sa sb (if f32 then .b4 else .b2) ord
  unfold amoOf
  rw [hop, hsize, hord, MemSize.ofCode_code, AmoOrder.ofCode_code]
  cases f32 <;> rfl

/-! ### The sub-decoders on encoded fields -/
theorem whenB_wide6 (x : BitVec 4) (mk : BitVec 4 → Instr) : whenB (top2 (wide6 x)) (mk (bot4 (wide6 x))) = some (mk x) := by
  rw [top2_wide6, bot4_wide6]; rfl

theorem predOk_arWord (maj : BitVec 6) (minor : BitVec 8) (pd pa pb : BitVec 4) (inv : Bool) :
    predOk (arWord maj minor (wide6 pd) (wide6 pa) (BitVec.ofBool inv ++ 0#1 ++ pb)) = true := by
  simp (disch := omega) only [predOk, arWord, top2_wide6, BitVec.extractLsb'_append_eq_of_le, BitVec.extractLsb'_append_eq_right, Nat.reduceSub]
  rfl

theorem getLsbD_inverted (pb : BitVec 4) (inv : Bool) : (BitVec.ofBool inv ++ 0#1 ++ pb).getLsbD 5 = inv := by
  simp (disch := omega) only [getLsbD_append_of_le, Nat.reduceSub, getLsbD_ofBool_zero]

/-- The compares of CMPG. -/
theorem cmpgOf_compare (pd : BitVec 4) (sa sb : BitVec 6) :
    ∀ p ∈ ([(0x00, .cmpEq pd sa sb), (0x01, .cmpNe pd sa sb), (0x02, .cmpLt pd sa sb), (0x03, .cmpLe pd sa sb), (0x04, .cmpLtu pd sa sb),
        (0x05, .cmpLeu pd sa sb), (0x06, .cmpAll pd sa sb), (0x07, .cmpAny pd sa sb)] : List (BitVec 8 × Instr)),
      cmpgOf (arWord 0x02 p.1 (wide6 pd) sa sb) = some p.2 := by
  simp [cmpgOf, arWord]

theorem cmpgOf_pand (pd pa pb : BitVec 4) (inv : Bool) :
    cmpgOf (arWord 0x02 0x08 (wide6 pd) (wide6 pa) (BitVec.ofBool inv ++ 0#1 ++ pb)) = some (.pand pd pa pb inv) := by
  rw [cmpgOf, predOk_arWord]
  simpa [arWord, bot4_append] using getLsbD_inverted pb inv

theorem cmpgOf_por (pd pa pb : BitVec 4) (inv : Bool) :
    cmpgOf (arWord 0x02 0x09 (wide6 pd) (wide6 pa) (BitVec.ofBool inv ++ 0#1 ++ pb)) = some (.por pd pa pb inv) := by
  rw [cmpgOf, predOk_arWord]
  simpa [arWord, bot4_append] using getLsbD_inverted pb inv

theorem cmpgOf_sel (sd sa sb : BitVec 6) (pk : BitVec 4) : cmpgOf (arWord 0x02 (1#4 ++ pk) sd sa sb) = some (.sel sd pk sa sb) := by
  simp only [cmpgOf, arWord, BitVec.extractLsb'_append_eq_left, BitVec.extractLsb'_append_eq_right]

theorem shiftOf_ofImm14 (maj sd sa : BitVec 6) (n : BitVec 7) (mk : BitVec 6 → BitVec 6 → BitVec 7 → Instr) :
    shiftOf (AWord.ofImm14 maj sd sa (0#7 ++ n)) mk = some (mk sd sa n) := by
  simp only [shiftOf, AWord.imm14_ofImm14, BitVec.extractLsb'_append_eq_left, BitVec.extractLsb'_append_eq_right]
  rfl

theorem loadOf_loadWord (maj sd sa : BitVec 6) (ord : LdOrder) (strict : Bool) (off : BitVec 11)
    (mk : BitVec 6 → BitVec 6 → LdOrder → Bool → BitVec 11 → Instr) :
    loadOf (loadWord maj sd sa ord strict off) mk = some (mk sd sa ord strict off) := by simp [loadOf, loadWord]

theorem storeOf_ofMem (maj sd sa : BitVec 6) (ord : StOrder) (off : BitVec 11) (mk : BitVec 6 → BitVec 6 → StOrder → BitVec 11 → Instr) :
    storeOf (AWord.ofMem maj sd sa ord.code off) mk = some (mk sd sa ord off) := by simp [storeOf]

theorem ldqOf_ofMem (q : BitVec 4) (sa : BitVec 6) (acq strict : Bool) (off : BitVec 11) :
    ldqOf (AWord.ofMem 0x1F (wide6 q) sa (BitVec.ofBool strict ++ 0#1 ++ BitVec.ofBool acq) off) = some (.ldq q sa acq strict off) := by
  cases acq <;> cases strict <;> simp [ldqOf]

theorem syncOf_fence (scope : FenceScope) (ord : FenceOrder) (paths : BitVec 5) :
    syncOf (AWord.ofSub 0x28 0 0 0 (scope.code ++ ord.code ++ paths)) = some (.fence scope ord paths) := by
  simp (disch := omega) only [syncOf, AWord.sub_ofSub, AWord.imm10_ofSub, BitVec.extractLsb'_append_eq_of_le,
    BitVec.extractLsb'_append_eq_of_add_le, BitVec.extractLsb'_eq_self, Nat.reduceSub, FenceScope.ofCode_code, FenceOrder.ofCode_code]
  rfl

/-- The semaphore words of SYNC, whose immediate holds an 8-bit number. -/
theorem syncOf_sem (sd sa : BitVec 6) (sem : BitVec 8) :
    syncOf (AWord.ofSub 0x28 0 sa 1 (0#2 ++ sem)) = some (.semSig sem sa) ∧
    syncOf (AWord.ofSub 0x28 sd sa 2 (0#2 ++ sem)) = some (.semAcq sd sem sa) ∧
    syncOf (AWord.ofSub 0x28 sd 0 3 (0#2 ++ sem)) = some (.semRd sd sem) := by
  simp only [syncOf, AWord.sub_ofSub, AWord.imm10_ofSub, BitVec.extractLsb'_append_eq_left, BitVec.extractLsb'_append_eq_right]
  exact ⟨rfl, rfl, rfl⟩

theorem queOf_mqpush (mq : BitVec 2) (sa : BitVec 6) : queOf (arWord 0x29 0x00 (0#4 ++ mq) sa 0) = some (.mqpush mq sa) := by
  simp only [queOf, arWord, BitVec.extractLsb'_append_eq_left, BitVec.extractLsb'_append_eq_right]
  rfl

theorem queOf_qpop (sd : BitVec 6) (src : PopSrc) : queOf (arWord 0x29 0x01 sd 0 (0#3 ++ src.code)) = some (.qpop sd src) := by
  simp only [queOf, arWord, BitVec.extractLsb'_append_eq_left, BitVec.extractLsb'_append_eq_right, PopSrc.ofCode_code]
  rfl

theorem queOf_mqFlush (sd : BitVec 6) (which : Option (BitVec 2)) :
    queOf (arWord 0x29 0x02 sd 0 (0#3 ++ flushCode which)) = some (.mqFlush sd which) := by
  simp only [queOf, arWord, BitVec.extractLsb'_append_eq_left, BitVec.extractLsb'_append_eq_right, flushOf_flushCode]
  rfl

/-- The words of STR without an immediate. -/
theorem strOf_plain (sd sa : BitVec 6) :
    strOf (AWord.ofSub 0x2A sd sa 0 0) = some (.spawn sd sa) ∧ strOf (AWord.ofSub 0x2A 0 sa 1 0) = some (.suspend sa) ∧
    strOf (AWord.ofSub 0x2A 0 sa 6 0) = some (.pagereq sa) := by simp [strOf]

theorem strOf_seam (id : BitVec 22) :
    strOf (AWord.ofSub 0x2A (id.extractLsb' 16 6) (id.extractLsb' 10 6) 3 (id.extractLsb' 0 10)) = some (.seam id) := by
  simp only [strOf, AWord.sub_ofSub, AWord.imm10_ofSub]
  exact congrArg (some <| Instr.seam ·) (append_extractLsb'_three 6 6 10 id rfl)

theorem strOf_waitM (sd sa : BitVec 6) (size : MemSize) : strOf (AWord.ofSub 0x2A sd sa 4 (0#8 ++ size.code)) = some (.waitM sd sa size) := by
  simp only [strOf, AWord.sub_ofSub, AWord.imm10_ofSub, BitVec.extractLsb'_append_eq_left, BitVec.extractLsb'_append_eq_right,
    MemSize.ofCode_code]
  rfl

/-- The words of SYS whose immediate is one number. -/
theorem sysOf_plain (sd sa : BitVec 6) (n : BitVec 10) :
    sysOf (AWord.ofSub 0x2B sd 0 0 n) = some (.crr sd n) ∧ sysOf (AWord.ofSub 0x2B 0 sa 1 n) = some (.crw n sa) ∧
    sysOf (AWord.ofSub 0x2B 0 0 3 n) = some (.trap n) := by simp [sysOf]

theorem sysOf_settc (t : BitVec 4) (sa : BitVec 6) : sysOf (AWord.ofSub 0x2B 0 sa 2 (0#6 ++ t)) = some (.settc t sa) := by
  simp only [sysOf, AWord.sub_ofSub, AWord.imm10_ofSub, BitVec.extractLsb'_append_eq_left, BitVec.extractLsb'_append_eq_right]
  rfl

theorem sysOf_lcset (lc : BitVec 2) (sa : BitVec 6) : sysOf (AWord.ofSub 0x2B 0 sa 6 (0#8 ++ lc)) = some (.lcset lc sa) := by
  simp only [sysOf, AWord.sub_ofSub, AWord.imm10_ofSub, BitVec.extractLsb'_append_eq_left, BitVec.extractLsb'_append_eq_right]
  rfl

theorem sysOf_pbr (b : BitVec 3) (sa : BitVec 6) (h : Hint) :
    sysOf (AWord.ofSub 0x2B (0#3 ++ b) sa 5 (0#8 ++ h.code)) = some (.pbr b sa h) := by
  simp only [sysOf, AWord.sub_ofSub, AWord.imm10_ofSub, AWord.sd_ofSub, BitVec.extractLsb'_append_eq_left,
    BitVec.extractLsb'_append_eq_right, Hint.ofCode_code]
  rfl

theorem sysOf_grd (sense : Bool) (pk : BitVec 4) :
    sysOf (AWord.ofSub 0x2B 0 0 4 (0#5 ++ BitVec.ofBool sense ++ pk)) = some (.grd sense pk) := by
  simp (disch := omega) only [sysOf, AWord.sub_ofSub, AWord.imm10_ofSub, BitVec.extractLsb'_append_eq_of_le,
    BitVec.extractLsb'_append_eq_right, Nat.reduceSub, getLsbD_append_of_le, getLsbD_append_ofBool]
  rfl

theorem bot4_kvb (pk : BitVec 4) (al : Bool) : bot4 (0#1 ++ BitVec.ofBool al ++ pk) = pk := BitVec.extractLsb'_append_eq_right

theorem pkgOf_kvbMap (sd sa : BitVec 6) (pk : BitVec 4) (al : Bool) :
    pkgOf (arWord 0x2D 0x02 sd sa (0#1 ++ BitVec.ofBool al ++ pk)) = some (.kvbMap sd pk al sa) := by
  simp (disch := omega) only [pkgOf, arWord, bot4_kvb, BitVec.extractLsb'_append_eq_of_le, Nat.reduceSub, getLsbD_append_of_le,
    getLsbD_append_ofBool]
  rfl

theorem pbOf_encoded (b : BitVec 3) (h : Hint) (d : BitVec 21) :
    pbOf ⟨0x11, b ++ h.code ++ d.extractLsb' 20 1, d.extractLsb' 14 6, d.extractLsb' 8 6, d.extractLsb' 0 8⟩ = some (.pb b h d) := by
  simp (disch := omega) only [pbOf, BitVec.extractLsb'_append_eq_of_le, BitVec.extractLsb'_append_eq_of_add_le, BitVec.extractLsb'_eq_self,
    Nat.reduceSub, Hint.ofCode_code]
  exact congrArg (some <| Instr.pb b h ·) (append_extractLsb'_four 1 6 6 8 d rfl)

theorem brgOf_brl (b : BitVec 3) (pk : BitVec 4) (sense : Bool) (link : BitVec 6) :
    aInstr (AWord.ofBranch b pk sense 1 (0#10 ++ link)) = some (.brl b pk sense link) := by
  simp only [aInstr_ofBranch, BitVec.extractLsb'_append_eq_left, BitVec.extractLsb'_append_eq_right]
  rfl

theorem brgOf_bloop (b : BitVec 3) (pk : BitVec 4) (sense : Bool) (lc : BitVec 2) :
    aInstr (AWord.ofBranch b pk sense 2 (0#14 ++ lc)) = some (.bloop b pk sense lc) := by
  simp only [aInstr_ofBranch, BitVec.extractLsb'_append_eq_left, BitVec.extractLsb'_append_eq_right]
  rfl

/-! ### The map of the A-stream -/

/-- R26, R27: the fields of an A instruction's word name the instruction. -/
theorem aInstr_aParts {i : Instr} {a : AWord} (h : aParts i = some a) : aInstr a = some i := by
  cases i <;> cases h
  case cmpEq.refl pd sa sb | cmpNe.refl pd sa sb | cmpLt.refl pd sa sb | cmpLe.refl pd sa sb | cmpLtu.refl pd sa sb |
      cmpLeu.refl pd sa sb | cmpAll.refl pd sa sb | cmpAny.refl pd sa sb =>
    exact cmpgOf_compare pd sa sb (_, _) (by simp)
  case pand.refl => exact cmpgOf_pand ..
  case por.refl => exact cmpgOf_por ..
  case sel.refl => exact cmpgOf_sel ..
  case amoFadd.refl sd sa sb f32 ord => exact amoOf_fadd sd sa sb f32 ord
  case amoAdd.refl sd sa sb size ord | amoAnd.refl sd sa sb size ord | amoOr.refl sd sa sb size ord | amoXor.refl sd sa sb size ord |
      amoMin.refl sd sa sb size ord | amoMax.refl sd sa sb size ord | amoMinu.refl sd sa sb size ord | amoMaxu.refl sd sa sb size ord |
      swap.refl sd sa sb size ord | cas.refl sd sa sb size ord =>
    exact amoOf_amoWord sd sa sb size ord (_, _) (by simp)
  case addi.refl sd sa imm => exact congrArg (some <| Instr.addi sd sa ·) (AWord.imm14_ofImm14 ..)
  case andi.refl sd sa imm => exact congrArg (some <| Instr.andi sd sa ·) (AWord.imm14_ofImm14 ..)
  case ori.refl sd sa imm => exact congrArg (some <| Instr.ori sd sa ·) (AWord.imm14_ofImm14 ..)
  case xori.refl sd sa imm => exact congrArg (some <| Instr.xori sd sa ·) (AWord.imm14_ofImm14 ..)
  case shli.refl | shri.refl | srai.refl => exact shiftOf_ofImm14 ..
  case cmpiEq.refl pd sa imm | cmpiLt.refl pd sa imm | cmpiLtu.refl pd sa imm =>
    simp [aInstr]
  case movi.refl sd imm => exact congrArg (some <| Instr.movi sd ·) (AWord.imm20_ofImm20 ..)
  case lsi.refl sd imm => exact congrArg (some <| Instr.lsi sd ·) (AWord.imm20_ofImm20 ..)
  case addpc.refl sd imm => exact congrArg (some <| Instr.addpc sd ·) (AWord.imm20_ofImm20 ..)
  case pb.refl => exact pbOf_encoded ..
  case br.refl => exact aInstr_ofBranch ..
  case brl.refl => exact brgOf_brl ..
  case bloop.refl => exact brgOf_bloop ..
  case ldI8.refl | ldN8.refl | ldI16.refl | ldN16.refl | ldI32.refl | ldN32.refl | ldB64.refl => exact loadOf_loadWord ..
  case ldq.refl => exact ldqOf_ofMem ..
  case stB8.refl | stB16.refl | stB32.refl | stB64.refl => exact storeOf_ofMem ..
  case fence.refl => exact syncOf_fence ..
  case semSig.refl sem sa => exact (syncOf_sem 0 sa sem).1
  case semAcq.refl sd sem sa => exact (syncOf_sem sd sa sem).2.1
  case semRd.refl sd sem => exact (syncOf_sem sd 0 sem).2.2
  case mqpush.refl mq sa => exact queOf_mqpush mq sa
  case qpop.refl sd src => exact queOf_qpop sd src
  case mqFlush.refl sd which => exact queOf_mqFlush sd which
  case cpQ.refl q sa => exact whenB_wide6 q (.cpQ · sa)
  case spawn.refl sd sa => exact (strOf_plain sd sa).1
  case suspend.refl sa => exact (strOf_plain 0 sa).2.1
  case seam.refl => exact strOf_seam ..
  case waitM.refl => exact strOf_waitM ..
  case pagereq.refl sa => exact (strOf_plain 0 sa).2.2
  case crr.refl sd n => exact (sysOf_plain sd 0 n).1
  case crw.refl n sa => exact (sysOf_plain 0 sa n).2.1
  case settc.refl => exact sysOf_settc ..
  case trap.refl n => exact (sysOf_plain 0 0 n).2.2
  case grd.refl => exact sysOf_grd ..
  case pbr.refl => exact sysOf_pbr ..
  case lcset.refl => exact sysOf_lcset ..
  case barNew.refl sd pk sa => exact whenB_wide6 pk (.barNew sd · sa)
  case pnlDef.refl sd pk sa => exact whenB_wide6 pk (.pnlDef sd · sa)
  case kvbMap.refl sd pk al sa => exact pkgOf_kvbMap sd sa pk al
  case nop.refl x => exact congrArg (some <| Instr.nop ·) (append_extractLsb'_four 6 6 6 8 x rfl)
  all_goals rfl

end Sys2Proof
end

