-- ==== Sys2Proof/Proofs/Encoding.lean ====
section
/-! SUPPORT. The V- and the M-stream (R31 to R49), and the encoding as a whole: what an instruction is encoded as is decoded to the
instruction. -/

namespace Sys2Proof

theorem firstFault_eq_none {l : List (Bool × DecodeFault)} : firstFault l = none ↔ ∀ p ∈ l, p.1 = false := by
  induction l with
  | nil => simp [firstFault]
  | cons p l ih =>
    obtain ⟨bad, f⟩ := p
    cases bad <;> simp [firstFault, ih]

@[simp] theorem VTy.ofCode_code (t : VTy) : VTy.ofCode t.code = some t := by cases t <;> rfl

/-! ### Words of the V-stream -/
theorem append_parcels (x : BitVec 64) : x.extractLsb' 32 32 ++ x.extractLsb' 0 32 = x := append_extractLsb'_self 32 32 x rfl

theorem op_vWord (op : BitVec 8) (f : VFields) (len : BitVec 2) : (vWord op f len).extractLsb' 2 8 = op := by
  simp (disch := omega) only [vWord, BitVec.extractLsb'_append_eq_of_le, BitVec.extractLsb'_append_eq_of_add_le,
    BitVec.extractLsb'_eq_self, Nat.reduceSub]

theorem ty_vWord (op : BitVec 8) (f : VFields) (len : BitVec 2) : (vWord op f len).extractLsb' 10 4 = f.ty.code := by
  simp (disch := omega) only [vWord, BitVec.extractLsb'_append_eq_of_le, BitVec.extractLsb'_append_eq_of_add_le,
    BitVec.extractLsb'_eq_self, Nat.reduceSub]

theorem vb_vWord (op : BitVec 8) (f : VFields) (len : BitVec 2) : (vWord op f len).extractLsb' 41 11 = f.vb := by
  simp (disch := omega) only [vWord, BitVec.extractLsb'_append_eq_of_le, BitVec.extractLsb'_append_eq_of_add_le,
    BitVec.extractLsb'_eq_self, Nat.reduceSub]

theorem vFieldsOf_vWord (op : BitVec 8) (f : VFields) (len : BitVec 2) : vFieldsOf (vWord op f len) f.ty f.ext = f := by
  simp (disch := omega) only [vFieldsOf, vWord, BitVec.extractLsb'_append_eq_of_le, BitVec.extractLsb'_append_eq_of_add_le,
    BitVec.extractLsb'_eq_self, Nat.reduceSub, getLsbD_append_of_le, getLsbD_append_ofBool]

theorem length_vWord (op : BitVec 8) (f : VFields) (len : BitVec 2) : ((vWord op f len).extractLsb' 0 32).extractLsb' 0 2 = len := by
  rw [extractLsb'_extractLsb' _ _ _ _ _ (by omega)]
  exact BitVec.extractLsb'_append_eq_right

theorem vLength_vWord_one (op : BitVec 8) (f : VFields) : vLength ((vWord op f 1).extractLsb' 0 32) = some 2 := by
  rw [vLength, length_vWord]
  rfl

theorem vLength_vWord_two (op : BitVec 8) (f : VFields) : vLength ((vWord op f 2).extractLsb' 0 32) = some 3 := by
  rw [vLength, length_vWord]
  rfl

theorem readVLong_vWord {op : BitVec 8} {f : VFields} (len : BitVec 2) (raw : VRaw) (ho : op < 0xF0) (hf : vFault op f = none) :
    readVLong (vWord op f len) f.ext raw = .ok (.vLong op f) := by
  unfold readVLong
  rw [op_vWord, ty_vWord, VTy.ofCode_code, if_neg (by bv_omega)]
  simp only [vFieldsOf_vWord, hf, orFault]

/-- R31: the third parcel is a literal where vb names one, and the fields of a run elsewhere. -/
theorem literal_iff_of_vFault {op : BitVec 8} {f : VFields} (hf : vFault op f = none) (he : f.ext ≠ .none) :
    f.literal.isSome = (f.vb == regLit) := by
  unfold vFault at hf
  split at hf
  · have hs := firstFault_eq_none.1 hf _ (List.mem_cons_self ..)
    cases hx : f.ext <;> simp_all [VFields.literal]
  · cases hsp : vSpec op with
    | none => rw [hsp] at hf; cases hf
    | some sp =>
      rw [hsp] at hf
      have hl : (f.literal.isSome != (f.vb == regLit) && f.ext != .none, DecodeFault.illegal).1 = false :=
        firstFault_eq_none.1 hf _ (.tail _ (.tail _ (.tail _ (.head _))))
      simpa [he] using hl

theorem vExtOf_run {vb : BitVec 11} (h : (vb == regLit) = false) (vc : BitVec 11) (sb sa sd : BitVec 5) (count : BitVec 6) :
    vExtOf vb (vc ++ sb ++ sa ++ sd ++ count) = .run vc sb sa sd count := by
  simp (disch := omega) only [vExtOf, h, Bool.false_eq_true, if_false, BitVec.extractLsb'_append_eq_of_le,
    BitVec.extractLsb'_append_eq_of_add_le, BitVec.extractLsb'_eq_self, Nat.reduceSub]

/-- What is read of two parcels that hold a word of the long map. -/
theorem readV_w64 {op : BitVec 8} {f : VFields} (ho : op < 0xF0) (hf : vFault op f = none) (hx : f.ext = .none) (p2 : Parcel) :
    readV ((vWord op f 1).extractLsb' 0 32) ((vWord op f 1).extractLsb' 32 32) p2 = .ok (.vLong op f) := by
  have h := readVLong_vWord 1 (.w64 (vWord op f 1)) ho hf
  rw [hx] at h
  unfold readV
  simp only [vLength_vWord_one, append_parcels]
  exact h

/-- What is read of three. -/
theorem readV_w96 {op : BitVec 8} {f : VFields} (ho : op < 0xF0) (hf : vFault op f = none) {p2 : Parcel} (hx : f.ext = vExtOf f.vb p2) :
    readV ((vWord op f 2).extractLsb' 0 32) ((vWord op f 2).extractLsb' 32 32) p2 = .ok (.vLong op f) := by
  have h := readVLong_vWord 2 (.w96 (p2 ++ vWord op f 2)) ho hf
  rw [hx] at h
  unfold readV
  simp only [vLength_vWord_two, append_parcels, vb_vWord]
  exact h

/-- R31, R33: a word of the long map is read as its opcode and fields, whatever follows it. -/
theorem readV_vParcels {op : BitVec 8} {f : VFields} (ho : op < 0xF0) (hf : vFault op f = none) (after : List Parcel) :
    let ps := vParcels op f ++ after
    vLength (parcelAt ps 0) = some (vParcels op f).length ∧
      readV (parcelAt ps 0) (parcelAt ps 1) (parcelAt ps 2) = .ok (.vLong op f) := by
  have hl := literal_iff_of_vFault hf
  unfold vParcels
  cases hx : f.ext with
  | none => exact ⟨vLength_vWord_one op f, readV_w64 ho hf hx _⟩
  | lit v =>
    have hb : f.vb = regLit := by simpa [VFields.literal, hx] using hl
    exact ⟨vLength_vWord_two op f, readV_w96 ho hf (by rw [hx, hb]; rfl)⟩
  | run vc sb sa sd count =>
    have hb : (f.vb == regLit) = false := by simpa [VFields.literal, hx] using hl
    exact ⟨vLength_vWord_two op f, readV_w96 ho hf (hx.trans (vExtOf_run hb ..).symm)⟩

/-! ### Short cells and hint cells -/
theorem readV_vShortWord {op : BitVec 8} {vd va : BitVec 11} (hf : vShortFault op vd va = none) (p1 p2 : Parcel) :
    vLength (vShortWord op vd va) = some 1 ∧ readV (vShortWord op vd va) p1 p2 = .ok (.vShort op vd va) := by
  have hlen : vLength (vShortWord op vd va) = some 1 := by
    simp only [vLength, vShortWord, BitVec.extractLsb'_append_eq_right]
  refine ⟨hlen, ?_⟩
  simp only [readV, hlen, readVShort]
  simp (disch := omega) only [vShortWord, BitVec.extractLsb'_append_eq_of_le, BitVec.extractLsb'_append_eq_of_add_le,
    BitVec.extractLsb'_eq_self, Nat.reduceSub, hf, orFault]

theorem readVLong_hint {x : BitVec 64} (h : 0xF0 ≤ x.extractLsb' 2 8) (ext : VExt) (raw : VRaw) : readVLong x ext raw = .ok (.vHint raw) :=
  if_pos h

theorem append_parcels_low (x : BitVec 96) : x.extractLsb' 32 32 ++ x.extractLsb' 0 32 = x.extractLsb' 0 64 :=
  BitVec.extractLsb'_append_extractLsb'_eq_extractLsb' rfl

theorem append_parcels_w96 (x : BitVec 96) : x.extractLsb' 64 32 ++ (x.extractLsb' 32 32 ++ x.extractLsb' 0 32) = x := by
  rw [append_parcels_low]
  exact append_extractLsb'_self 32 64 x rfl

/-- R18: a hint cell of the long map is read as its own bits. -/
theorem readV_vRawParcels {raw : VRaw} (h : vRawOk raw = true) (after : List Parcel) :
    let ps := vRawParcels raw ++ after
    vLength (parcelAt ps 0) = some (vRawParcels raw).length ∧ readV (parcelAt ps 0) (parcelAt ps 1) (parcelAt ps 2) = .ok (.vHint raw) := by
  cases raw with
  | w64 x =>
    obtain ⟨hl, ho⟩ : x.extractLsb' 0 2 = 1 ∧ 0xF0 ≤ x.extractLsb' 2 8 := by simpa [vRawOk] using h
    have hlen : vLength (x.extractLsb' 0 32) = some 2 := by
      rw [vLength, extractLsb'_extractLsb' _ _ _ _ _ (by omega), Nat.zero_add, hl]; rfl
    refine ⟨hlen, ?_⟩
    show readV (x.extractLsb' 0 32) (x.extractLsb' 32 32) _ = _
    simp only [readV, hlen, append_parcels, readVLong_hint ho]
  | w96 x =>
    obtain ⟨hl, ho⟩ : x.extractLsb' 0 2 = 2 ∧ 0xF0 ≤ x.extractLsb' 2 8 := by simpa [vRawOk] using h
    have hlen : vLength (x.extractLsb' 0 32) = some 3 := by
      rw [vLength, extractLsb'_extractLsb' _ _ _ _ _ (by omega), Nat.zero_add, hl]; rfl
    have hop : 0xF0 ≤ (x.extractLsb' 32 32 ++ x.extractLsb' 0 32).extractLsb' 2 8 := by
      rwa [append_parcels_low, extractLsb'_extractLsb' _ _ _ _ _ (by omega), Nat.zero_add]
    refine ⟨hlen, ?_⟩
    show readV (x.extractLsb' 0 32) (x.extractLsb' 32 32) (x.extractLsb' 64 32) = _
    simp only [readV, hlen, readVLong_hint hop, append_parcels_w96]

/-! ### The maps of the V- and the M-stream -/
theorem vParts_some {i : Instr} {op : BitVec 8} {f : VFields} (h : vParts i = some (op, f)) :
    aParts i = none ∧ (Decoded.vLong op f).instr = some i ∧ op < 0xF0 := by
  unfold vParts at h
  split at h <;> cases h
  all_goals exact ⟨rfl, rfl, by decide⟩

theorem mParts_some {i : Instr} {op : BitVec 8} {f : MFields} (h : mParts i = some (op, f)) :
    aParts i = none ∧ vParts i = none ∧ vShortParts i = none ∧ (Decoded.m op f).instr = some i ∧ op < 0xF0 := by
  unfold mParts at h
  split at h <;> cases h
  all_goals exact ⟨rfl, rfl, rfl, rfl, by decide⟩

theorem low4_setWidth (x : BitVec 4) : low4 (x.setWidth 11) = x := by
  revert x; decide

theorem instr_vHintShort (op : BitVec 4) (vd va : BitVec 11) :
    (Decoded.vShort (0xF#4 ++ op) vd va).instr = some (.vHintShort op vd va) := by
  have ho : (0xF0 : BitVec 8) ≤ 0xF#4 ++ op := by revert op; decide
  rw [Decoded.instr, if_pos ho, BitVec.extractLsb'_append_eq_right]

theorem vShortParts_some {i : Instr} {op : BitVec 8} {vd va : BitVec 11} (h : vShortParts i = some (op, vd, va)) :
    aParts i = none ∧ vParts i = none ∧ mParts i = none ∧ (Decoded.vShort op vd va).instr = some i := by
  cases i <;> cases h
  all_goals refine ⟨rfl, rfl, rfl, ?_⟩
  case vseamShort.refl id => exact congrArg (some <| Instr.vseamShort ·) (append_extractLsb'_self 11 11 id rfl)
  case kandShort.refl mk ma => exact congrArg₂ (some <| Instr.kandShort · ·) (low4_setWidth mk) (low4_setWidth ma)
  case korShort.refl mk ma => exact congrArg₂ (some <| Instr.korShort · ·) (low4_setWidth mk) (low4_setWidth ma)
  case kxorShort.refl mk ma => exact congrArg₂ (some <| Instr.kxorShort · ·) (low4_setWidth mk) (low4_setWidth ma)
  case knotShort.refl mk ma => exact congrArg₂ (some <| Instr.knotShort · ·) (low4_setWidth mk) (low4_setWidth ma)
  case vHintShort.refl op => exact instr_vHintShort op vd va
  all_goals rfl

/-! ### Words of the M-stream -/
theorem op_mWord (op : BitVec 8) (f : MFields) : (mWord op f).extractLsb' 0 8 = op := BitVec.extractLsb'_append_eq_right

theorem mZeroBits_mWord (op : BitVec 8) (f : MFields) : mZeroBits (mWord op f) = true := by
  simp (disch := omega) only [mZeroBits, mWord, BitVec.extractLsb'_append_eq_of_le, BitVec.extractLsb'_append_eq_of_add_le,
    BitVec.extractLsb'_eq_self, Nat.reduceSub]
  rfl

theorem mFieldsOf_mWord (op : BitVec 8) (f : MFields) : mFieldsOf (mWord op f) = f := by
  simp (disch := omega) only [mFieldsOf, mWord, BitVec.extractLsb'_append_eq_of_le, BitVec.extractLsb'_append_eq_of_add_le,
    BitVec.extractLsb'_eq_self, Nat.reduceSub, getLsbD_append_of_le, getLsbD_append_ofBool]

/-- The six parcels of an M word hold all of it. -/
theorem bits192_mParcels (w : BitVec 192) : bits192 (mParcels w) = w := by
  apply BitVec.eq_of_toNat_eq
  have hw := w.isLt
  simp only [mParcels, List.foldr, BitVec.toNat_ofNat, BitVec.extractLsb'_toNat, Nat.shiftRight_eq_div_pow]
  omega

theorem readM_mWord {op : BitVec 8} {f : MFields} (ho : op < 0xF0) (hf : mFault op f = none) : readM (mWord op f) = .ok (.m op f) := by
  have hh : ¬ (0xF0 ≤ op) := by bv_omega
  simp only [readM, op_mWord, mZeroBits_mWord, mFieldsOf_mWord, hf, hh, if_false, Bool.not_true, Bool.false_eq_true, orFault]

/-- R18: a hint cell of the M map is read as its own bits. -/
theorem readM_hint {w : BitVec 192} (h : 0xF0 ≤ w.extractLsb' 0 8) : readM w = .ok (.mHint w) := if_pos h

/-! ### What an instruction is encoded as -/
theorem toInstr_ok {d : Decoded} {i : Instr} (h : d.instr = some i) : toInstr (.ok d) = .ok i := by rw [toInstr, h]

theorem instrFault_of_wellFormed {i : Instr} (h : i.wellFormed = true) : instrFault i = none :=
  Option.isNone_iff_eq_none.1 (Bool.and_eq_true_iff.1 h).1

/-- An instruction of the A-stream is in no other map. -/
theorem otherParts_none_of_aParts {i : Instr} (h : aParts i ≠ none) : vParts i = none ∧ mParts i = none ∧ vShortParts i = none :=
  ⟨Option.eq_none_iff_forall_ne_some.2 fun _ hv => h (vParts_some hv).1,
    Option.eq_none_iff_forall_ne_some.2 fun _ hm => h (mParts_some hm).1,
    Option.eq_none_iff_forall_ne_some.2 fun _ hs => h (vShortParts_some hs).1⟩

/-- R15, R20 to R30: the A-stream. -/
theorem decodeA_encode {i : Instr} (hw : i.wellFormed = true) (h : aParts i ≠ none) : ∃ w, encode i = [w] ∧ decodeA w = .ok i := by
  obtain ⟨hv, hm, hs⟩ := otherParts_none_of_aParts h
  obtain ⟨a, ha⟩ := Option.ne_none_iff_exists'.1 h
  have hf : aFault i = none := by simpa [instrFault, hv, hm, hs] using instrFault_of_wellFormed hw
  refine ⟨a.toParcel, by unfold encode; rw [ha], ?_⟩
  simp only [decodeA, AWord.ofParcel_toParcel, aInstr_aParts ha, hf]

/-- R15, R31 to R43: the V-stream. -/
theorem decodeV_encode {i : Instr} (hw : i.wellFormed = true) (h : vParts i ≠ none ∨ vShortParts i ≠ none ∨ ∃ x, i = .vHint x)
    (after : List Parcel) :
    let ps := encode i ++ after
    vLength (parcelAt ps 0) = some (encode i).length ∧ decodeV (parcelAt ps 0) (parcelAt ps 1) (parcelAt ps 2) = .ok i := by
  rcases h with hl | hs | ⟨x, rfl⟩
  · obtain ⟨⟨op, f⟩, hp⟩ := Option.ne_none_iff_exists'.1 hl
    obtain ⟨ha, hi, ho⟩ := vParts_some hp
    have hf : vFault op f = none := by simpa [instrFault, hp] using instrFault_of_wellFormed hw
    have he : encode i = vParcels op f := by unfold encode; rw [ha, hp]
    obtain ⟨hlen, hread⟩ := readV_vParcels ho hf after
    rw [he]
    exact ⟨hlen, by rw [decodeV, hread, toInstr_ok hi]⟩
  · obtain ⟨⟨op, vd, va⟩, hp⟩ := Option.ne_none_iff_exists'.1 hs
    obtain ⟨ha, hv, hm, hi⟩ := vShortParts_some hp
    have hf : vShortFault op vd va = none := by simpa [instrFault, hv, hm, hp] using instrFault_of_wellFormed hw
    have he : encode i = [vShortWord op vd va] := by unfold encode; rw [ha, hv, hp]
    rw [he]
    exact ⟨(readV_vShortWord hf 0 0).1, congrArg toInstr (readV_vShortWord hf _ _).2 |>.trans (toInstr_ok hi)⟩
  · obtain ⟨hlen, hread⟩ := readV_vRawParcels (Bool.and_eq_true_iff.1 hw).2 after
    exact ⟨hlen, congrArg toInstr hread⟩

/-- R15, R44 to R49: the M-stream. -/
theorem decodeM_encode {i : Instr} (hw : i.wellFormed = true) (h : mParts i ≠ none ∨ ∃ x, i = .mHint x) :
    (encode i).length = 6 ∧ decodeM (bits192 (encode i)) = .ok i := by
  rcases h with hm | ⟨x, rfl⟩
  · obtain ⟨⟨op, f⟩, hp⟩ := Option.ne_none_iff_exists'.1 hm
    obtain ⟨ha, hv, hs, hi, ho⟩ := mParts_some hp
    have hf : mFault op f = none := by simpa [instrFault, hv, hp] using instrFault_of_wellFormed hw
    have he : encode i = mParcels (mWord op f) := by unfold encode; rw [ha, hv, hs, hp]
    rw [he, bits192_mParcels, decodeM, readM_mWord ho hf, toInstr_ok hi]
    exact ⟨rfl, rfl⟩
  · have hh : 0xF0 ≤ x.extractLsb' 0 8 := of_decide_eq_true (Bool.and_eq_true_iff.1 hw).2
    have he : encode (.mHint x) = mParcels x := rfl
    rw [he, bits192_mParcels, decodeM, readM_hint hh]
    exact ⟨rfl, rfl⟩

/-- Settles O56: each stream's words are cut into the fields that they were put together from. -/
theorem decodeOfEncode : Obligations.DecodeOfEncode := fun _ hw =>
  ⟨decodeA_encode hw, decodeV_encode hw, decodeM_encode hw⟩

end Sys2Proof
end

