-- ==== Sys2Proof/Proofs/StepRefuted.lean ====
section
/-! SUPPORT. A step at a SEM.ACQ while a V trap is due: the statement has the word executed, and the model lets the turn pass, since the trap
is delivered first (R264). -/

namespace Sys2Proof.Machine

open Sys2Proof

/-- A core at a SEM.ACQ of semaphore 9 with a V trap that is not delivered yet. -/
def coreAtAcquireTrapDue : Core :=
  { placeA 0xA0000809 (Core.reset 0) with slot := some 0, vtrap := some ⟨.vArith, .v, imgBase, 0⟩ }

/-- The machine with that core at the turn of the acquires. -/
def atAcquireTrapDue : State := { State.reset with core := coreAtAcquireTrapDue, turn := .acquire }

/-- Where the A-stream stands after an outcome. -/
def pcAfter : Out → Option Word
  | .next t => some t.core.pc
  | _ => none

theorem decodeA_coreAtAcquireTrapDue : decodeA (parcelOf coreAtAcquireTrapDue.secA 0) = .ok (.semAcq 0 9 0) := by
  decide +kernel

theorem acquires_coreAtAcquireTrapDue : acquires coreAtAcquireTrapDue = true := by
  decide +kernel

theorem inSection_coreAtAcquireTrapDue : InSection coreAtAcquireTrapDue.secA coreAtAcquireTrapDue.pc 0 4 := by
  decide +kernel

/-- The step lets the turn of the acquires pass: the trap is due. -/
theorem pcAfter_step_atAcquireTrapDue : pcAfter (step atAcquireTrapDue) = some imgBase := rfl

/-- The word alone completes: the count that it needs is 0. -/
theorem pcAfter_exec_atAcquireTrapDue :
    pcAfter (thenTurn .stopDone (exec (.semAcq 0 9 0) (leaveExit (.semAcq 0 9 0) atAcquireTrapDue))) = some (imgBase + 4) := rfl

/-- Refutes O58: a SEM.ACQ whose turn comes while a V trap is due is not executed, for the model delivers the trap first (R264). The
statement's clause for the turn of the acquires has no hypothesis that no trap is due. -/
theorem not_stepRunsDecoded : ¬ Obligations.StepRunsDecoded := by
  rintro ⟨hA, -⟩
  obtain ⟨-, hturn, -⟩ := hA atAcquireTrapDue 0 .stopDone rfl rfl
  obtain ⟨hword, -⟩ := hturn rfl rfl (.inr ⟨rfl, acquires_coreAtAcquireTrapDue, rfl⟩)
  obtain ⟨hlegal, -⟩ := hword rfl inSection_coreAtAcquireTrapDue rfl
  have h := congrArg pcAfter (hlegal _ decodeA_coreAtAcquireTrapDue)
  rw [pcAfter_step_atAcquireTrapDue, pcAfter_exec_atAcquireTrapDue] at h
  exact absurd h (by decide)

end Sys2Proof.Machine
end

