-- ==== Sys2Proof/Proofs/ReservedWords.lean ====
section
/-! SUPPORT. Words that the spec works out, encodings that it reserves (R16 to R18, R26, R28, R30), and the step that meets an illegal word. -/

namespace Sys2Proof

/-! ## Reserved words -/

/-- R26: the major opcodes outside the table. -/
abbrev ReservedMajor (m : Nat) : Prop := m = 0 ∨ (0x13 ≤ m ∧ m ≤ 0x17) ∨ (0x24 ≤ m ∧ m ≤ 0x27) ∨ (0x2E ≤ m ∧ m ≤ 0x3D) ∨ m = 0x3F

theorem aInstr_reserved {a : AWord} (h : ReservedMajor a.maj.toNat) : aInstr a = none := by
  unfold aInstr
  split
  case h_38 => rfl
  all_goals
    rename_i hm
    rw [hm] at h
    exact absurd h (by decide)

theorem decodeA_reserved {w : Parcel} (h : ReservedMajor (w.extractLsb' 26 6).toNat) : decodeA w = .error .illegal := by
  rw [decodeA, aInstr_reserved h]

/-- R30: every word of major 0x3E is NOP. -/
theorem decodeA_nop {w : Parcel} (h : w.extractLsb' 26 6 = 0x3E) : decodeA w = .ok (.nop (w.extractLsb' 0 26)) := by
  have hi : aInstr (AWord.ofParcel w) = some (.nop (w.extractLsb' 0 26)) := by
    unfold aInstr
    rw [show (AWord.ofParcel w).maj = 0x3E#6 from h]
    have hw := append_extractLsb'_four 6 6 6 8 (w.extractLsb' 0 26) rfl
    simp (disch := omega) only [extractLsb'_extractLsb', Nat.zero_add] at hw
    exact congrArg (some <| Instr.nop ·) hw
  rw [decodeA, hi]
  rfl

/-- A V instruction of the length 11 names none (R31). -/
theorem decodeV_illegalLen {p : Parcel} (h : p.extractLsb' 0 2 = 3#2) (q r : Parcel) : decodeV p q r = .error .illegalLen := by
  have hl : vLength p = none := by rw [vLength, h]; rfl
  simp only [decodeV, readV, hl, toInstr]

theorem vShortFault_hint {op : BitVec 8} (h : 0xF0 ≤ op) (vd va : BitVec 11) : vShortFault op vd va = none := by
  have hn : 0xF0 ≤ op.toNat := h
  simp [vShortFault, hn]

theorem decodeV_shortHint {p : Parcel} (hl : p.extractLsb' 0 2 = 0#2) (h : 0xF0 ≤ p.extractLsb' 2 8) (q r : Parcel) :
    decodeV p q r = .ok (.vHintShort (p.extractLsb' 2 4) (p.extractLsb' 10 11) (p.extractLsb' 21 11)) := by
  have hlen : vLength p = some 1 := by rw [vLength, hl]; rfl
  simp only [decodeV, readV, hlen, readVShort, vShortFault_hint h, orFault]
  exact toInstr_ok (by rw [Decoded.instr, if_pos h, extractLsb'_extractLsb' _ _ _ _ _ (by omega)])

theorem extractLsb'_op (p q : Parcel) : (q ++ p).extractLsb' 2 8 = p.extractLsb' 2 8 :=
  BitVec.extractLsb'_append_eq_of_add_le (by omega)

theorem decodeV_hint64 {p : Parcel} (hl : p.extractLsb' 0 2 = 1#2) (h : 0xF0 ≤ p.extractLsb' 2 8) (q r : Parcel) :
    decodeV p q r = .ok (.vHint (.w64 (q ++ p))) := by
  have hlen : vLength p = some 2 := by rw [vLength, hl]; rfl
  rw [← extractLsb'_op p q] at h
  simp only [decodeV, readV, hlen, readVLong_hint h, toInstr, Decoded.instr]

theorem decodeV_hint96 {p : Parcel} (hl : p.extractLsb' 0 2 = 2#2) (h : 0xF0 ≤ p.extractLsb' 2 8) (q r : Parcel) :
    decodeV p q r = .ok (.vHint (.w96 (r ++ (q ++ p)))) := by
  have hlen : vLength p = some 3 := by rw [vLength, hl]; rfl
  rw [← extractLsb'_op p q] at h
  simp only [decodeV, readV, hlen, readVLong_hint h, toInstr, Decoded.instr]

theorem decodeM_hint {w : BitVec 192} (h : 0xF0 ≤ w.extractLsb' 0 8) : decodeM w = .ok (.mHint w) := by
  rw [decodeM, readM_hint h]
  rfl

theorem decodeM_zeroBits {w : BitVec 192} (h : w.extractLsb' 0 8 < 0xF0) (hz : w.extractLsb' 53 3 ≠ 0#3 ∨ w.extractLsb' 154 4 ≠ 0#4) :
    decodeM w = .error .illegal := by
  have hb : mZeroBits w = false := by
    rw [mZeroBits, Bool.and_eq_false_iff, beq_eq_false_iff_ne, beq_eq_false_iff_ne]
    exact hz
  have hh : ¬ (0xF0 ≤ w.extractLsb' 0 8) := by bv_omega
  simp only [decodeM, readM, hh, hb, if_false, Bool.not_false, if_true, toInstr]

/-! ## Words of SYS -/

theorem AWord.toParcel_ofSub (maj sd sa : BitVec 6) (sub : BitVec 4) (imm : BitVec 10) :
    (AWord.ofSub maj sd sa sub imm).toParcel = maj ++ sd ++ sa ++ sub ++ imm := by
  have hi : imm.extractLsb' 8 2 ++ imm.extractLsb' 0 8 = imm := append_extractLsb'_self 2 8 imm rfl
  show maj ++ sd ++ sa ++ (sub ++ imm.extractLsb' 8 2) ++ imm.extractLsb' 0 8 = _
  have h1 : maj ++ sd ++ sa ++ (sub ++ imm.extractLsb' 8 2) = maj ++ sd ++ sa ++ sub ++ imm.extractLsb' 8 2 := BitVec.append_assoc.symm
  have h2 : maj ++ sd ++ sa ++ sub ++ imm.extractLsb' 8 2 ++ imm.extractLsb' 0 8 =
      maj ++ sd ++ sa ++ sub ++ (imm.extractLsb' 8 2 ++ imm.extractLsb' 0 8) := BitVec.append_assoc
  rw [h1, h2, hi]

/-- R115: the numbers of the control registers. -/
abbrev NamesControlRegister (n : Nat) : Prop :=
  n ≤ 6 ∨ (0x10 ≤ n ∧ n ≤ 0x13) ∨ (0x18 ≤ n ∧ n ≤ 0x1B) ∨ (0x20 ≤ n ∧ n ≤ 0x2F) ∨ (0x40 ≤ n ∧ n ≤ 0x43) ∨ (0x80 ≤ n ∧ n ≤ 0x9F)

theorem isControlRegister_eq_false {n : BitVec 10} (h : ¬NamesControlRegister n.toNat) : isControlRegister n = false := by
  simp [isControlRegister, BitVec.le_def]
  omega

/-- R28: CRR and CRW of a number that names no control register. -/
theorem decodeA_noControlRegister {w : Parcel} {r : BitVec 6} {n : BitVec 10} (hn : isControlRegister n = false)
    (hw : w = 0x2B#6 ++ r ++ 0#6 ++ 0#4 ++ n ∨ w = 0x2B#6 ++ 0#6 ++ r ++ 1#4 ++ n) : decodeA w = .error .illegal := by
  rw [← AWord.toParcel_ofSub, ← AWord.toParcel_ofSub] at hw
  rcases hw with rfl | rfl
  · have hi : aInstr (AWord.ofSub 0x2B#6 r 0#6 0#4 n) = some (.crr r n) := (sysOf_plain r 0 n).1
    simp only [decodeA, AWord.ofParcel_toParcel, hi, aFault, firstFault, hn, Bool.not_false, if_true]
  · have hi : aInstr (AWord.ofSub 0x2B#6 0#6 r 1#4 n) = some (.crw n r) := (sysOf_plain 0 r n).2.1
    simp only [decodeA, AWord.ofParcel_toParcel, hi, aFault, firstFault, hn, Bool.not_false, if_true]

/-! ## The step -/

namespace Machine

/-- The word at pc is the parcel there. -/
theorem fetchA_of_inSection {k : Core} {o : Nat} (h : InSection k.secA k.pc o 4) (ha : k.pc.toNat % 4 = 0) :
    fetchA k = some (parcelOf k.secA o) := by
  obtain ⟨ho, hsize, hwf⟩ := h
  have hal : k.pc.extractLsb' 0 2 = 0 := by
    apply BitVec.eq_of_toNat_eq
    simpa using ha
  have hoff : k.secA.offset k.pc = some o := by
    have hin : (decide (k.secA.off ≤ k.secA.off + o) && decide (k.secA.off + o < k.secA.off + k.secA.size)) = true := by
      simp; omega
    simp only [Section.offset, ho, hin, if_true, Nat.add_sub_cancel_left]
  simp only [fetchA, hal, hoff, bne_self_eq_false, Bool.false_eq_true, if_false, Option.map_some, Section.read, memNat, memBytes_eq 4 o _ hwf]

/-- An A word that raises ILLEGAL ends in that trap. -/
theorem finishA_illegal (s s' : State) (x : Stream) (v : Word) : finishA s (.trap .illegal x v s') = trapsIn s s' .illegal x v := rfl

/-- A step of the A-stream at a word that is not legal. -/
theorem step_of_illegal {s : State} {w : Parcel} (hslot : s.core.slot.isSome = true) (hrun : s.core.aseq = .running)
    (hg : s.core.grd = none) (hagenda : s.agenda = []) (hturn : s.turn = .a) (hb : breakHit s s.core.pc = false)
    (hf : fetchA s.core = some w) (hd : decodeA w = .error .illegal) :
    step s = thenTurn .v (.next (trapsIn s s .illegal .a 0)) := by
  have hacq : acquires s.core = false := by simp [acquires, hf, hd]
  have hrunA : runA s = .next (trapsIn s s .illegal .a 0) := by
    rw [← finishA_illegal]
    simp [runA, hb, hf, hd, faultCode]
  simp [step, hg, hagenda, turnOf, hturn, agentOf, hacq, stepA, hslot, hrun, hrunA, Turn.following]

end Machine

/-! ## Worked words -/

theorem decodeA_of_aParts {i : Instr} {a : AWord} {w : Parcel} (h : aParts i = some a) (hf : aFault i = none) (hw : w = a.toParcel) :
    decodeA w = .ok i := by
  simp only [hw, decodeA, AWord.ofParcel_toParcel, aInstr_aParts h, hf]

theorem decodeV_of_readV {p q r : Parcel} {d : Decoded} {i : Instr} (h : readV p q r = .ok d) (hi : d.instr = some i) :
    decodeV p q r = .ok i := by
  rw [decodeV, h, toInstr_ok hi]

theorem decodeM_of_readM {w : BitVec 192} {d : Decoded} {i : Instr} (h : readM w = .ok d) (hi : d.instr = some i) : decodeM w = .ok i := by
  rw [decodeM, h, toInstr_ok hi]

namespace Machine

/-- NOP has no effect. -/
theorem completesTo_nop (x : BitVec 26) (s : State) : CompletesTo (.nop x) s s := rfl

/-- Settles O57: each worked word is what its instruction is encoded as, and each reserved encoding is followed through its reader. -/
theorem wordsAndReservedEncodings : Obligations.WordsAndReservedEncodings := by
  unfold Obligations.WordsAndReservedEncodings
  refine ⟨⟨?_, ?_, ?_, ?_, ?_, ?_, ?_, ?_, ?_, ?_, ?_, ?_, ?_, ?_, ?_, ?_, ?_, ?_, ?_, ?_, ?_, ?_⟩,
    ⟨fun _ => decodeA_reserved, fun _ => decodeA_nop, fun _ q r h => decodeV_illegalLen h q r, fun _ q r hl h => decodeV_shortHint hl h q r,
      fun _ q r hl h => decodeV_hint64 hl h q r, fun _ q r hl h => decodeV_hint96 hl h q r, fun _ => decodeM_hint, fun _ => decodeM_zeroBits⟩,
    ?_, decodeA_nop rfl, fun s _ h => ⟨decodeA_nop h, completesTo_nop _ s⟩⟩
  case refine_18 => exact decodeV_of_readV (d := .vLong 0x10 ⟨0x200, 11, 10, 200, false, 3, .f32, .none⟩) (by decide +kernel) rfl
  case refine_19 => exact decodeV_of_readV (d := .vShort 0x11 7 8) (by decide +kernel) rfl
  case refine_20 => exact decodeV_of_readV (d := .vLong 0x12 ⟨0, 1567, 301, 300, false, 0, .f32, .lit 0x3F000000⟩) (by decide +kernel) rfl
  case refine_21 =>
    exact decodeM_of_readM
      (d := .m 0x10 ⟨0, false, false, 0, 0, true, 0, 2, 0x60000001, 0x40000004, 0, false, false, false, false, false, 1, 13, 4, 12⟩)
      (by decide +kernel) rfl
  case refine_22 =>
    exact decodeM_of_readM
      (d := .m 0x05 ⟨0x60000002, false, false, 0, 0, false, 0, 0, 0, 0x01000000, 0, false, false, false, false, false, 0, 0, 0, 0⟩)
      (by decide +kernel) rfl
  case refine_23 =>
    intro s o r n hslot hrun hg hagenda hturn hb hin hal hn hw
    exact step_of_illegal hslot hrun hg hagenda hturn hb (fetchA_of_inSection hin hal)
      (decodeA_noControlRegister (isControlRegister_eq_false hn) hw)
  all_goals exact decodeA_of_aParts rfl rfl (by decide)

end Machine
end Sys2Proof
end

