-- ==== Sys2Proof/Proofs/MatrixControl.lean ====
section
/-! SUPPORT. How an M word starts and faults (R47, R222, R225, R229), once for every word, and the control words
of the M-stream (R231 to R235, R458). -/

namespace Sys2Proof.Machine

open Sys2Proof

/-! ## What the operands of a word take -/

/-- Taking an operand changes the queues alone. -/
theorem popArg_ok_core {col : LocCol} {x : BitVec 32} {k k' : Core} {a : Arg} (h : popArg col x k = .ok a k') :
    k' = { k with mq := k'.mq } := by
  unfold popArg at h
  repeat' split at h
  all_goals cases h
  all_goals rfl

theorem popArgs_ok_core {ca cb cc : LocCol} {f : MFields} {k k' : Core} {x : MArgs} (h : popArgs ca cb cc f k = .ok (x, k')) :
    k' = { k with mq := k'.mq } := by
  unfold popArgs at h
  split at h <;> [cases h; cases h; skip]
  rename_i k₁ ha
  split at h <;> [cases h; cases h; skip]
  rename_i k₂ hb
  split at h <;> [cases h; cases h; skip]
  rename_i k₃ hc
  cases h
  rw [popArg_ok_core hc, popArg_ok_core hb, popArg_ok_core ha]

/-! ## How a word ends that starts -/

theorem held_eq_false {f : MFields} {always : Bool} {s : State} (h : Starts f always s) :
    (s.core.mflight.any (fun w => w.fence || w.drain) || mWaits f s.core || !canPop f s.core ||
        ((f.rply || always) && 15 ≤ s.core.rq.length + s.core.reserved)) = false := by
  obtain ⟨hf, hw, hp, hr⟩ := h
  rw [hf, hw, hp]
  cases hx : (f.rply || always)
  · rfl
  · simpa using hr hx

/-- A word after a fence that is in flight does not start. -/
theorem mWord_fenced {op : BitVec 8} {always : Bool} {ca cb cc : LocCol} {f : MFields} {s : State} {body : MArgs → State → MEnd}
    (h : (s.core.mflight.any fun w => w.fence || w.drain) = true) : mWord op always ca cb cc f s body = .next s := by
  simp only [mWord, h, Bool.true_or, if_true]

section
variable {op : BitVec 8} {always : Bool} {ca cb cc : LocCol} {f : MFields} {s : State} {x : MArgs} {mq : Bank (List Word) 2}
  {body : MArgs → State → MEnd}

theorem mWord_started {s' : State} {w : MStart} (h : Starts f always s) (ht : Takes ca cb cc f s x mq) (hb : body x s = .start s' w) :
    mWord op always ca cb cc f s body = .next (started op f s mq w s') := by
  obtain ⟨k, hk, rfl⟩ := ht
  simp only [mWord, held_eq_false h, hk, hb]
  rfl

/-- R225: the sequencer stops with a fault entry, the operands taken. -/
def mFaulted (kind : Nat) (mq : Bank (List Word) 2) (s : State) : State :=
  { s with core := { s.core with mq := mq, rq := s.core.rq ++ [⟨true, mFaultPayload s.core.mOffset kind 0⟩], mseq := .faulted } }

theorem mStop_eq {k : Core} {kind : Nat} (hm : k.mflight = []) (hk : kind ≠ mBrk) :
    k.mStop kind 0 = { k with rq := k.rq ++ [⟨true, mFaultPayload k.mOffset kind 0⟩], mseq := .faulted } := by
  simp only [Core.mStop, hm, List.isEmpty_nil, if_true, Core.mFaultAt, hk, if_false]

theorem mWord_faulted {kind : Nat} (h : Starts f always s) (ht : Takes ca cb cc f s x mq) (hm : s.core.mflight = []) (hk : kind ≠ mBrk)
    (hb : body x s = .fault kind 0) : mWord op always ca cb cc f s body = .next (mFaulted kind mq s) := by
  obtain ⟨k, hpop, rfl⟩ := ht
  rw [popArgs_ok_core hpop] at hpop
  simp only [mWord, held_eq_false h, hpop, hb, List.isEmpty_iff.2 hm, if_true]
  rw [mStop_eq (k := { s.core with mq := k.mq }) hm hk]
  rfl

/-- A word that meets an error in what it reads. -/
theorem mWord_broke {kind : Nat} (h : Starts f always s) (ht : Takes ca cb cc f s x mq) (hm : s.core.mflight = []) (hk : kind ≠ mBrk)
    (hb : body x s = .broke kind s) : mWord op always ca cb cc f s body = .next (mFaulted kind mq s) := by
  obtain ⟨k, hpop, rfl⟩ := ht
  simp only [mWord, held_eq_false h, hpop, hb, List.isEmpty_iff.2 hm, if_true]
  rw [mStop_eq (k := { s.core with mq := k.mq }) hm hk]
  rfl

/-- R47: a popped entry that names no operand. -/
theorem mWord_badEntry {kind : Nat} {k : Core} (h : Starts f always s) (hpop : popArg ca f.locA s.core = .fault kind k)
    (hcore : k = { s.core with mq := mq }) (hm : s.core.mflight = []) (hk : kind ≠ mBrk) :
    mWord op always ca cb cc f s body = .next (mFaulted kind mq s) := by
  simp only [mWord, held_eq_false h, popArgs, hpop, hcore, List.isEmpty_iff.2 hm, if_true]
  rw [mStop_eq (k := { s.core with mq := mq }) hm hk]
  rfl
end

/-! ## Entries of the queues (R47) -/

section
variable {col : LocCol} {x : BitVec 32} {k : Core} {q : BitVec 2} {e : Word} {rest : List Word}

theorem popArg_highBits (hx : locOf x = some (.mq q)) (hq : bank k.mq q = e :: rest) (he : e.extractLsb' 32 32 ≠ 0) :
    popArg col x k = .fault mQueue { k with mq := bankSet k.mq q rest } := by
  have hb : (e.extractLsb' 32 32 != 0) = true := bne_iff_ne.2 he
  simp only [popArg, hx, hq, hb, if_true]

theorem popArg_descriptor {t : BitVec 4} (hx : locOf x = some (.mq q)) (hq : bank k.mq q = e :: rest) (he : e.extractLsb' 32 32 = 0)
    (hl : locOf (e.extractLsb' 0 32) = some (.td t)) (hc : col.t = false) :
    popArg col x k = .fault mIllegalOp { k with mq := bankSet k.mq q rest } := by
  have hb : (e.extractLsb' 32 32 != 0) = false := bne_eq_false_iff_eq.2 he
  simp only [popArg, hx, hq, hb, hl, hc, Bool.false_eq_true, if_false]

theorem popArg_misaligned {a : BitVec 21} (hx : locOf x = some (.mq q)) (hq : bank k.mq q = e :: rest) (he : e.extractLsb' 32 32 = 0)
    (hl : locOf (e.extractLsb' 0 32) = some (.csa a)) (ha : a.extractLsb' 0 6 ≠ 0) :
    popArg col x k = .fault mIllegalOp { k with mq := bankSet k.mq q rest } := by
  have hb : (e.extractLsb' 32 32 != 0) = false := bne_eq_false_iff_eq.2 he
  have hc : (col.s && a.extractLsb' 0 6 == 0) = false := by rw [beq_eq_false_iff_ne.2 ha, Bool.and_false]
  simp only [popArg, hx, hq, hb, hl, hc, Bool.false_eq_true, if_false]

end

/-! ## Ranges and tiles of the stores -/

theorem mStore_outside {rd wr : List (Nat × Nat)} {yr yw : List Nat} {s : State} {body : Unit → MEnd} {r : Nat × Nat} (hr : r ∈ rd ++ wr)
    (ho : 0x200000 < r.1 + r.2) : mStore rd wr yr yw s body = .fault mIllegalOp 0 := by
  have hall : (rd ++ wr).all inStore = false := by
    rw [List.all_eq_false]
    exact ⟨r, hr, by simpa [inStore] using ho⟩
  simp only [mStore, hall, Bool.not_false, if_true]

/-- A poisoned tile that is read (R225). -/
theorem mStore_poisonedTile {s : State} {body : Unit → MEnd} {y : Nat} (hu : s.core.units[32 + y]? = some .own)
    (hp : poisoned s.core.accPoison (y * 0x8000, 0x8000) = true) : mStore [] [] [y] [y] s body = .broke mUncorr s := by
  have hown : (unitsTouched ([] ++ []) ([y] ++ [y])).all (fun u => s.core.units[u]? == some .own) = true := by
    simp [unitsTouched, hu]
  have hfind : (s.core.csPoison.find? fun l => ([] : List (Nat × Nat)).any (poisoned [l])) = none := by simp
  simp only [mStore, hown, List.any_cons, hp, hfind]
  rfl

/-! ## Control words -/

theorem mjmp_offset (x : BitVec 24) : (24 : Word) * x.signExtend 64 = BitVec.ofInt 64 (24 * x.toInt) := by
  rw [BitVec.ofInt_mul]
  rfl

section
variable {s : State} {f : MFields} {x : MArgs} {mq : Bank (List Word) 2}

theorem mPlain_started {op : BitVec 8} {w : MStart} (h : Starts f false s) (ht : Takes colN colN colN f s x mq) :
    mPlain op w f s = .next (started op f s mq w (mNext s)) := mWord_started h ht rfl

theorem exec_mreply_started (h : Starts { f with locA := 0, locB := 0 } true s)
    (ht : Takes colN colN colN { f with locA := 0, locB := 0 } s x mq) :
    exec (.mreply f) s =
      .next (started 0x04 { f with locA := 0, locB := 0 } s mq { reply := some (f.locB ++ f.locA) } (mNext s)) := by
  show execMreply f s = _
  exact mWord_started h ht rfl

theorem exec_mjmp_started (h : Starts { f with locA := 0 } false s) (ht : Takes colN colN colN { f with locA := 0 } s x mq) :
    exec (.mjmp f) s = .next (started 0x07 { f with locA := 0 } s mq {}
      { s with core := { s.core with mpc := s.core.mpc + BitVec.ofInt 64 (24 * (f.locA.extractLsb' 0 24).toInt) } }) := by
  rw [← mjmp_offset]
  show execMjmp f s = _
  exact mWord_started h ht rfl

theorem exec_mend_again (h : Starts { f with locA := 0 } false s) (ht : Takes colN colN colN { f with locA := 0 } s x mq)
    (ha : (bank s.core.mloop (loopOf f)).active = true) (hc : bank s.core.mlc (loopOf f) ≠ 0) :
    exec (.mend f) s = .next (started 0x06 { f with locA := 0 } s mq {}
      { s with core := { s.core with
        mlc := bankSet s.core.mlc (loopOf f) (bank s.core.mlc (loopOf f) - 1), mpc := (bank s.core.mloop (loopOf f)).start } }) := by
  show execMend f s = _
  unfold execMend
  dsimp only
  refine mWord_started h ht ?_
  simp only [ha, bne_iff_ne.2 hc, Bool.not_true, Bool.false_eq_true, if_false, if_true]

theorem exec_mend_over (h : Starts { f with locA := 0 } false s) (ht : Takes colN colN colN { f with locA := 0 } s x mq)
    (ha : (bank s.core.mloop (loopOf f)).active = true) (hc : bank s.core.mlc (loopOf f) = 0) :
    exec (.mend f) s = .next (started 0x06 { f with locA := 0 } s mq {}
      (mNext { s with core := { s.core with
        mloop := bankSet s.core.mloop (loopOf f) { bank s.core.mloop (loopOf f) with active := false } } })) := by
  show execMend f s = _
  unfold execMend
  dsimp only
  refine mWord_started h ht ?_
  simp only [ha, bne_eq_false_iff_eq.2 hc, Bool.not_true, Bool.false_eq_true, if_false]

theorem exec_mend_inactive (h : Starts { f with locA := 0 } false s) (ht : Takes colN colN colN { f with locA := 0 } s x mq)
    (ha : (bank s.core.mloop (loopOf f)).active = false) (hm : s.core.mflight = []) :
    exec (.mend f) s = .next (mFaulted mIllegal mq s) := by
  show execMend f s = _
  unfold execMend
  dsimp only
  refine mWord_faulted h ht hm (by decide) ?_
  simp only [ha, Bool.not_false, if_true]

theorem exec_mloop_started (h : Starts f false s) (hl : locOf f.locC = some .none) (hn : 0 < f.count.toNat) :
    exec (.mloop f) s = .next (started 0x05 { f with rply := false } s s.core.mq {}
      { s with core := { s.core with
        mlc := bankSet s.core.mlc (loopOf f) (BitVec.ofNat 32 (f.count.toNat - 1))
        mloop := bankSet s.core.mloop (loopOf f) ⟨s.core.mpc + 24, true⟩, mpc := s.core.mpc + 24 } }) := by
  obtain ⟨hf, hw, -, -⟩ := h
  have hp : canPop { f with locA := 0, locB := 0 } s.core = true := by
    have h0 : locOf 0#32 = some .none := rfl
    simp [canPop, hl, h0]
  have hz : f.count.toNat ≠ 0 := by omega
  show execMloop f s = _
  simp only [execMloop, hf, hw, hp, loopCount, hl, hz, Bool.or_self, Bool.not_true, Bool.false_eq_true, if_false]
  rfl

theorem exec_mbrk_stops (hm : s.core.mflight = []) (hw : mWaits f s.core = false) :
    exec (.mbrk f) s = .next (mStarted (mNext { s with core := { s.core with
      rq := s.core.rq ++ [⟨true, mFaultPayload s.core.mOffset mBrk f.count.toNat⟩], mseq := .brk } })) := by
  show execMbrk f s = _
  have hf : (s.core.mflight.any fun w => w.fence || w.drain) = false := by rw [hm]; rfl
  simp only [execMbrk, hf, hw, Core.mStop, List.isEmpty_iff.2 hm, Bool.or_self, Bool.not_true, Bool.false_eq_true, if_false, if_true]
  rfl

theorem exec_mHint_next (raw : BitVec 192) (h : ¬(s.core.mflight.any fun w => w.fence || w.drain) = true) :
    exec (.mHint raw) s = .next (mStarted (mNext s)) := by
  show execMHint raw s = _
  rw [execMHint, if_neg h]

/-- R458: whether a sequencer that has passed marker `id` `passed` times passes it again. -/
def seamPasses (k : Core) (passed : Nat) (id : BitVec 22) : Bool :=
  match k.stop, k.aseq with
  | none, _ => true
  | some _, .atSeam x => x != id
  | some _, _ => passed < passages k.passA id

theorem seamPasses_of_noStop {k : Core} {n : Nat} {id : BitVec 22} (hs : k.stop = none) : seamPasses k n id = true := by
  unfold seamPasses
  rw [hs]

theorem seamPasses_of_atSeam {k : Core} {n : Nat} {x id : BitVec 22} (hs : k.stop.isSome = true) (ha : k.aseq = .atSeam x) :
    seamPasses k n id = (x != id) := by
  obtain ⟨r, hr⟩ := Option.isSome_iff_exists.1 hs
  unfold seamPasses
  rw [hr, ha]

theorem seamPasses_of_notAtSeam {k : Core} {n : Nat} {id : BitVec 22} (hs : k.stop.isSome = true) (ha : ∀ x, k.aseq ≠ .atSeam x) :
    seamPasses k n id = decide (n < passages k.passA id) := by
  obtain ⟨r, hr⟩ := Option.isSome_iff_exists.1 hs
  unfold seamPasses
  rw [hr]
  cases hx : k.aseq with
  | atSeam x => exact absurd hx (ha x)
  | idle => rfl
  | running => rfl

/-- Whether the M sequencer passes an MSEAM. -/
def mseamPasses (k : Core) (f : MFields) : Bool :=
  seamPasses k (passages k.passM (f.locA.extractLsb' 0 22)) (f.locA.extractLsb' 0 22)

theorem exec_mseam (f : MFields) (s : State) :
    exec (.mseam f) s = .next
      (if s.core.mflight.any (fun w => w.fence || w.drain) || !mseamPasses s.core f then s
       else mStarted (mNext { s with core := { s.core with
        passM := setPassages s.core.passM (f.locA.extractLsb' 0 22) (passages s.core.passM (f.locA.extractLsb' 0 22) + 1) } })) := rfl

theorem exec_mseam_passed (h : ¬(s.core.mflight.any fun w => w.fence || w.drain) = true) (hp : mseamPasses s.core f = true) :
    let id : BitVec 22 := f.locA.extractLsb' 0 22
    exec (.mseam f) s = .next (mStarted (mNext { s with core := { s.core with
      passM := setPassages s.core.passM id (passages s.core.passM id + 1) } })) := by
  rw [exec_mseam, if_neg (by rwa [hp, Bool.not_true, Bool.or_false])]

theorem exec_mseam_waits (hp : mseamPasses s.core f = false) : exec (.mseam f) s = .next s := by
  rw [exec_mseam, if_pos (by rw [hp, Bool.not_false, Bool.or_true])]

/-! ## Faults of accumulator words -/

/-- R47: a popped entry that names no operand of YLD. -/
theorem exec_yld_badEntry {q : BitVec 2} {e : Word} {rest : List Word} (h : Starts f false s) (hm : s.core.mflight = [])
    (hl : locOf f.locA = some (.mq q)) (hq : bank s.core.mq q = e :: rest) :
    (e.extractLsb' 32 32 ≠ 0 → exec (.yld f) s = .next (mFaulted mQueue (bankSet s.core.mq q rest) s)) ∧
    (∀ t, e.extractLsb' 32 32 = 0 → locOf (e.extractLsb' 0 32) = some (.td t) →
      exec (.yld f) s = .next (mFaulted mIllegalOp (bankSet s.core.mq q rest) s)) ∧
    (∀ a, e.extractLsb' 32 32 = 0 → locOf (e.extractLsb' 0 32) = some (.csa a) → a.extractLsb' 0 6 ≠ 0 →
      exec (.yld f) s = .next (mFaulted mIllegalOp (bankSet s.core.mq q rest) s)) := by
  show (_ → execYld f s = _) ∧ (∀ t, _ → _ → execYld f s = _) ∧ (∀ a, _ → _ → _ → execYld f s = _)
  unfold execYld
  exact ⟨fun he => mWord_badEntry h (popArg_highBits hl hq he) rfl hm (by decide),
    fun _ he ht => mWord_badEntry h (popArg_descriptor hl hq he ht rfl) rfl hm (by decide),
    fun _ he ha hn => mWord_badEntry h (popArg_misaligned hl hq he ha hn) rfl hm (by decide)⟩

theorem exec_yld_outside (h : Starts f false s) (hm : s.core.mflight = []) (ht : Takes colS colN colN f s x mq)
    (ho : 0x200000 < x.a.addr + 0x8000) : exec (.yld f) s = .next (mFaulted mIllegalOp mq s) := by
  show execYld f s = _
  exact mWord_faulted h ht hm (by decide) (mStore_outside (r := (x.a.addr, 0x8000)) (List.mem_append_left _ (List.mem_singleton_self _)) ho)

theorem exec_yst_outside (h : Starts f false s) (hm : s.core.mflight = []) (ht : Takes colS colN colN f s x mq)
    (ho : 0x200000 < x.a.addr + 0x8000) : exec (.yst f) s = .next (mFaulted mIllegalOp mq s) := by
  show execYst f s = _
  exact mWord_faulted h ht hm (by decide) (mStore_outside (r := (x.a.addr, 0x8000)) (List.mem_append_right _ (List.mem_singleton_self _)) ho)

theorem exec_yscl_poisoned (h : Starts f false s) (hm : s.core.mflight = []) (ht : Takes colN colN colN f s x mq)
    (hu : s.core.units[32 + f.acc.toNat]? = some .own) (hp : poisoned s.core.accPoison (f.acc.toNat * 0x8000, 0x8000) = true) :
    exec (.yscl f) s = .next (mFaulted mUncorr mq s) := by
  show execYscl f s = _
  unfold execYscl tileWord
  exact mWord_broke h ht hm (by decide) (mStore_poisonedTile hu hp)

end

/-! ## The statement -/

/-- The control words that take no operand and have no locator of their own. -/
theorem exec_plainControl (s : State) (f : MFields) :
    ∀ p ∈ ([(Instr.mnop f, 0x01, {}, mNext s), (Instr.mfence f, 0x08, { fence := true }, mNext s),
        (Instr.qdrain f, 0x12, { drain := true }, mNext s),
        (Instr.qskip f, 0x18, {}, mNext { s with core := { s.core with sigma := s.core.sigma + f.count.toNat } }),
        (Instr.mhalt f, 0x02, {}, { s with core := { s.core with mseq := .halted } })] : List (Instr × BitVec 8 × MStart × State)),
      exec p.1 s = mWord p.2.1 false colN colN colN f s fun _ _ => .start p.2.2.2 p.2.2.1 := by
  simp only [List.forall_mem_cons, List.not_mem_nil, false_implies, implies_true, and_true]
  exact ⟨rfl, rfl, rfl, rfl, rfl⟩

/-- Settles O24: each control word is a word whose start has that effect, and each fault is met before or at a word's start. -/
theorem matrixControl : Obligations.MatrixControl := by
  unfold Obligations.MatrixControl
  refine ⟨fun s f raw => ⟨fun p hp => ?_, ?_, ?_, exec_mloop_started, exec_mbrk_stops, fun hf => ⟨?_, ?_, ?_, ?_, ?_⟩⟩,
    fun s f h hm => ⟨?_, ?_, ?_⟩⟩
  · rw [exec_plainControl s f p hp]
    exact ⟨fun x mq h ht => mWord_started h ht rfl, mWord_fenced⟩
  · exact fun x mq => exec_mreply_started
  · exact fun x mq h ht => ⟨exec_mjmp_started h ht, exec_mend_again h ht, exec_mend_over h ht,
      fun ha hm => ⟨_, exec_mend_inactive h ht ha hm, rfl, rfl⟩⟩
  · exact exec_mHint_next raw hf
  · exact fun hs => exec_mseam_passed hf (seamPasses_of_noStop hs)
  · exact fun hs ha hn => exec_mseam_passed hf ((seamPasses_of_notAtSeam hs ha).trans (decide_eq_true hn))
  · exact fun hs ha hn => exec_mseam_waits ((seamPasses_of_notAtSeam hs ha).trans (decide_eq_false (Nat.not_lt.2 hn)))
  · exact fun hs ha => exec_mseam_waits ((seamPasses_of_atSeam hs ha).trans (bne_self_eq_false _))
  · exact fun q e rest => exec_yld_badEntry h hm
  · intro p hp x mq ht ho
    rcases List.mem_pair.1 hp with rfl | rfl
    · exact exec_yld_outside h hm ht ho
    · exact exec_yst_outside h hm ht ho
  · exact fun x mq => exec_yscl_poisoned h hm

end Sys2Proof.Machine
end

