-- ==== Sys2Proof/Proofs/VectorControl.lean ====
section
/-! SUPPORT. How a V instruction ends (R39, R168, R174, R262), and the control instructions of the V-stream (R173, R174, R458). -/

namespace Sys2Proof.Machine

open Sys2Proof

/-! ## The loops that end at an address (R174) -/

theorem filter_loops_nil {p : BitVec 2 → Bool} (h : ∀ j, p j = false) : [0#2, 1, 2, 3].filter p = [] := by
  simp [h]

theorem filter_loops_one {p : BitVec 2 → Bool} {j : BitVec 2} (hj : p j = true) (h : ∀ i, i ≠ j → p i = false) :
    [0#2, 1, 2, 3].filter p = [j] := by
  have hc : ∀ i : BitVec 2, i = 0#2 ∨ i = 1#2 ∨ i = 2#2 ∨ i = 3#2 := by decide
  rcases hc j with rfl | rfl | rfl | rfl <;> simp [hj, h]

theorem loopEnding_none {k : Core} {next : Word} (h : ∀ j, (bank k.vloop j).active = true → (bank k.vloop j).fin ≠ next) :
    loopEnding k next = none := by
  unfold loopEnding
  rw [filter_loops_nil fun j => by simpa using h j]
  rfl

theorem loopEnding_one {k : Core} {next : Word} {j : BitVec 2} (ha : (bank k.vloop j).active = true) (hf : (bank k.vloop j).fin = next)
    (h : ∀ i, i ≠ j → (bank k.vloop i).active = true → (bank k.vloop i).fin ≠ next) : loopEnding k next = some j := by
  unfold loopEnding
  rw [filter_loops_one (j := j) (by simp [ha, hf]) fun i hi => by simpa using h i hi]
  rfl

theorem fallThrough_of_none {k : Core} {next : Word} (fuel : Nat) (h : loopEnding k next = none) : fallThrough fuel k next = (k, next) := by
  cases fuel with
  | zero => rfl
  | succ fuel => simp only [fallThrough, h]

theorem fallThrough_again {k : Core} {next : Word} {j : BitVec 2} (fuel : Nat) (h : loopEnding k next = some j) (hc : bank k.vlc j ≠ 0) :
    fallThrough (fuel + 1) k next = ({ k with vlc := bankSet k.vlc j (bank k.vlc j - 1) }, (bank k.vloop j).start) := by
  simp only [fallThrough, h, bne_iff_ne.2 hc, if_true]

/-- A loop that is over is left, and no other ends there. -/
theorem fallThrough_over {k : Core} {next : Word} {j : BitVec 2} (fuel : Nat) (h : loopEnding k next = some j) (hc : bank k.vlc j = 0)
    (hi : ∀ i, i ≠ j → (bank k.vloop i).active = true → (bank k.vloop i).fin ≠ next) :
    fallThrough (fuel + 1) k next = ({ k with vloop := bankSet k.vloop j { bank k.vloop j with active := false } }, next) := by
  simp only [fallThrough, h, hc, bne_self_eq_false, Bool.false_eq_true, if_false]
  refine fallThrough_of_none fuel (loopEnding_none fun i => ?_)
  by_cases hij : i = j
  · subst hij
    simp [bank_set_same]
  · simpa only [bank_set_other _ _ _ _ hij] using hi i hij

/-! ## How an instruction ends (R168) -/

section
variable {s t : State} {len : Nat} {fl : VFlags}

/-- The flags that an instruction has runFlags, those of its run included. -/
def runFlags (s : State) (fl : VFlags) : VFlags := s.core.vflags ||| fl

/-- c.vexc with the flags that stick. -/
def sticky (s t : State) (fl : VFlags) : Word := t.core.vexc ||| (runFlags s fl).zeroExtend 64

/-- The core after the flags of the last repetition. -/
def flagged (s t : State) (fl : VFlags) : Core := { t.core with vexc := sticky s t fl, vrep := 0, vflags := 0 }

/-- The core after the fall through from `pc`: V_ARITH where a raised flag is enabled. -/
def afterFall (pc : Word) (fl : VFlags) (p : Core × Word) : Core :=
  if fl &&& vEnables p.1 = 0 then { p.1 with vpc := p.2 } else { p.1 with vpc := p.2 }.vTrap .vArith pc (fl.zeroExtend 64) p.2

theorem vComplete_of_fallThrough {k₀ k : Core} {next : Word}
    (h : fallThrough 5 { k₀ with vexc := k₀.vexc ||| fl.zeroExtend 64, vrep := 0, vflags := 0 } (k₀.vpc + w64 (4 * len)) = (k, next)) :
    k₀.vComplete len fl =
      if fl &&& vEnables k = 0 then { k with vpc := next } else { k with vpc := next }.vTrap .vArith k₀.vpc (fl.zeroExtend 64) next := by
  have e : k₀.vComplete len fl = afterFall k₀.vpc fl
      (fallThrough 5 { k₀ with vexc := k₀.vexc ||| fl.zeroExtend 64, vrep := 0, vflags := 0 } (k₀.vpc + w64 (4 * len))) := rfl
  rw [e, h]
  rfl

/-- With no enabled flag, what follows is the fall through. -/
theorem finishV_done {k : Core} {next : Word} (hfall : fallThrough 5 (flagged s t fl) (t.core.vpc + w64 (4 * len)) = (k, next))
    (hk : k.vexc = sticky s t fl) (hq : runFlags s fl &&& (sticky s t fl).extractLsb' 8 5 = 0) :
    finishV len true s (.done fl t) = { t with core := Core.note 4 1 { k with vpc := next } } := by
  have hc : t.core.vComplete len (runFlags s fl) = { k with vpc := next } := by
    rw [vComplete_of_fallThrough hfall, vEnables, hk, if_pos hq]
  show { t with core := (t.core.vComplete len (runFlags s fl)).note 4 1 } = _
  rw [hc]

theorem finishV_trapped {k : Core} {next : Word} (hfall : fallThrough 5 (flagged s t fl) (t.core.vpc + w64 (4 * len)) = (k, next))
    (hk : k.vexc = sticky s t fl) (hq : runFlags s fl &&& (sticky s t fl).extractLsb' 8 5 ≠ 0) :
    finishV len true s (.done fl t) = { t with
      core := Core.note 4 1 ({ k with vpc := next }.vTrap .vArith t.core.vpc ((runFlags s fl).zeroExtend 64) next) } := by
  have hc : t.core.vComplete len (runFlags s fl) = { k with vpc := next }.vTrap .vArith t.core.vpc ((runFlags s fl).zeroExtend 64) next := by
    rw [vComplete_of_fallThrough hfall, vEnables, hk, if_neg hq]
  show { t with core := (t.core.vComplete len (runFlags s fl)).note 4 1 } = _
  rw [hc]

theorem finishV_noLoop (h : ∀ j, (bank t.core.vloop j).active = true → (bank t.core.vloop j).fin ≠ t.core.vpc + w64 (4 * len)) :
    (runFlags s fl &&& (sticky s t fl).extractLsb' 8 5 = 0 →
      finishV len true s (.done fl t) =
        { t with core := Core.note 4 1 { t.core with vpc := t.core.vpc + w64 (4 * len), vexc := sticky s t fl, vrep := 0, vflags := 0 } }) ∧
    (runFlags s fl &&& (sticky s t fl).extractLsb' 8 5 ≠ 0 →
      let k := (finishV len true s (.done fl t)).core
      k.vseq = .trapped (t.core.vpc + w64 (4 * len)) ∧ k.vtrap = some ⟨.vArith, .v, t.core.vpc, (runFlags s fl).zeroExtend 64⟩ ∧
        k.vexc = sticky s t fl ∧ k.cs = t.core.cs) := by
  have hfall := fallThrough_of_none (k := flagged s t fl) 5 (loopEnding_none h)
  refine ⟨finishV_done hfall rfl, fun hq => ?_⟩
  rw [finishV_trapped hfall rfl hq]
  exact ⟨rfl, rfl, rfl, rfl⟩

theorem finishV_oneLoop {j : BitVec 2} (ha : (bank t.core.vloop j).active = true) (hf : (bank t.core.vloop j).fin = t.core.vpc + w64 (4 * len))
    (hi : ∀ i, i ≠ j → (bank t.core.vloop i).active = true → (bank t.core.vloop i).fin ≠ t.core.vpc + w64 (4 * len))
    (hq : runFlags s fl &&& (sticky s t fl).extractLsb' 8 5 = 0) :
    (bank t.core.vlc j ≠ 0 →
      finishV len true s (.done fl t) = { t with core := Core.note 4 1 { t.core with
        vpc := (bank t.core.vloop j).start, vlc := bankSet t.core.vlc j (bank t.core.vlc j - 1)
        vexc := sticky s t fl, vrep := 0, vflags := 0 } }) ∧
    (bank t.core.vlc j = 0 →
      finishV len true s (.done fl t) = { t with core := Core.note 4 1 { t.core with
        vpc := t.core.vpc + w64 (4 * len), vloop := bankSet t.core.vloop j { bank t.core.vloop j with active := false }
        vexc := sticky s t fl, vrep := 0, vflags := 0 } }) := by
  have hend : loopEnding (flagged s t fl) (t.core.vpc + w64 (4 * len)) = some j := loopEnding_one ha hf hi
  exact ⟨fun hc => finishV_done (fallThrough_again 4 hend hc) rfl hq, fun hc => finishV_done (fallThrough_over 4 hend hc hi) rfl hq⟩
end

/-! ## Control instructions -/

theorem parcelTarget_eq (k : Core) (lit : BitVec 32) : parcelTarget k lit = k.vpc + BitVec.ofInt 64 (4 * lit.toInt) := by
  rw [BitVec.ofInt_mul]
  rfl

section
variable {s : State} {f : VFields}

theorem exec_vwait_met (h : s.core.metV = true ∨ f.modifier.toNat ≤ (bank s.core.sem (f.vd.extractLsb' 0 8)).toNat) :
    exec (.vwait f) s = .next (finishV (longLen f) true s (.done 0 { s with core := { s.core with metV := false } })) := by
  show execVwait f s = _
  have hb : (s.core.metV || decide (f.modifier.toNat ≤ (bank s.core.sem (f.vd.extractLsb' 0 8)).toNat)) = true := by simpa using h
  simp only [execVwait, vWord, hb, if_true]

theorem exec_vwait_waits (hm : s.core.metV = false) (hc : (bank s.core.sem (f.vd.extractLsb' 0 8)).toNat < f.modifier.toNat) :
    exec (.vwait f) s = .next s := by
  show execVwait f s = _
  simp only [execVwait, vWord, hm, Bool.false_or, decide_eq_false (Nat.not_le.2 hc), Bool.false_eq_true, if_false, finishV]

theorem exec_vsig_zero (h : f.modifier.toNat = 0) : exec (.vsig f) s = .next (finishV (longLen f) true s (.done 0 s)) := by
  show execVsig f s = _
  simp only [execVsig, vWord, BitVec.eq_of_toNat_eq (y := 0) h, if_true]

theorem exec_vsig_adds (h : f.modifier.toNat ≠ 0) (hc : (bank s.core.sem (f.vd.extractLsb' 0 8)).toNat + f.modifier.toNat ≤ 65535) :
    let sem := f.vd.extractLsb' 0 8
    exec (.vsig f) s = .next (finishV (longLen f) true s (.done 0 { s with core := Core.note 0x1B 1 { s.core with
      sem := bankSet s.core.sem sem (BitVec.ofNat 16 ((bank s.core.sem sem).toNat + f.modifier.toNat)) } })) := by
  show execVsig f s = _
  have hn : f.modifier ≠ 0 := fun e => h (congrArg BitVec.toNat e)
  simp only [execVsig, vWord, hn, if_false, semAdd, hc, if_true]

theorem exec_vsig_overflows (hc : 65535 < (bank s.core.sem (f.vd.extractLsb' 0 8)).toNat + f.modifier.toNat) :
    exec (.vsig f) s =
      .next { s with core := Core.note 4 1 (s.core.vTrap .semOvf s.core.vpc ((f.vd.extractLsb' 0 8).zeroExtend 64) s.core.vpc) } := by
  show execVsig f s = _
  have hn : f.modifier ≠ 0 := by
    rintro h
    rw [h] at hc
    have := (bank s.core.sem (f.vd.extractLsb' 0 8)).isLt
    simp at hc
    omega
  simp only [execVsig, vWord, hn, if_false, semAdd, Nat.not_le.2 hc, finishV, Core.vStop]

theorem exec_vjmp (s : State) (f : VFields) :
    let target := s.core.vpc + BitVec.ofInt 64 (4 * (litOf f).toInt)
    exec (.vjmp f) s = .next { s with core := Core.note 4 1 { s.core with
      vloop := s.core.vloop.map (fun l => if l.start ≤ target && target < l.fin then l else { l with active := false })
      vpc := target, vrep := 0, vflags := 0 } } := by
  rw [← parcelTarget_eq]
  rfl
end

/-! ## Markers (R458) -/

section
variable {s : State} {len : Nat} {id : BitVec 22}

/-- Whether the V sequencer passes marker `id`. -/
def vseamPasses (k : Core) (id : BitVec 22) : Bool := seamPasses k (passages k.passV id) id

theorem vMarker_eq (len : Nat) (id : BitVec 22) (s : State) :
    vMarker len id s = .next (finishV len true s
      (if s.core.vloop.toList.any (·.active) then .trap .illegal 0
       else if vseamPasses s.core id then
        .done 0 { s with core := { s.core with passV := setPassages s.core.passV id (passages s.core.passV id + 1) } }
       else .stall s)) := rfl

theorem vMarker_inLoop (h : s.core.vloop.toList.any (·.active) = true) :
    vMarker len id s = .next { s with core := Core.note 4 1 (s.core.vTrap .illegal s.core.vpc 0 s.core.vpc) } := by
  rw [vMarker_eq, if_pos h]
  rfl

theorem vMarker_passed (h : s.core.vloop.toList.any (·.active) = false) (hp : vseamPasses s.core id = true) :
    vMarker len id s = .next (finishV len true s
      (.done 0 { s with core := { s.core with passV := setPassages s.core.passV id (passages s.core.passV id + 1) } })) := by
  rw [vMarker_eq, if_neg (Bool.not_eq_true _ ▸ h), if_pos hp]

theorem vMarker_waits (h : s.core.vloop.toList.any (·.active) = false) (hp : vseamPasses s.core id = false) : vMarker len id s = .next s := by
  rw [vMarker_eq, if_neg (Bool.not_eq_true _ ▸ h), if_neg (Bool.not_eq_true _ ▸ hp)]
  rfl

/-- What a marker does, by the stop and the A-stream. -/
theorem vMarker_cases (s : State) (len : Nat) (id : BitVec 22) :
    let k := s.core
    let n := passages k.passV id
    let passed : Host.Outcome State Fault Refusal :=
      .next (finishV len true s (.done 0 { s with core := { k with passV := setPassages k.passV id (n + 1) } }))
    (k.vloop.toList.any (·.active) = true → vMarker len id s = .next { s with core := Core.note 4 1 (k.vTrap .illegal k.vpc 0 k.vpc) }) ∧
    (k.vloop.toList.any (·.active) = false →
      (k.stop = none → vMarker len id s = passed) ∧
      (k.stop.isSome = true → (∀ x, k.aseq ≠ .atSeam x) → n < passages k.passA id → vMarker len id s = passed) ∧
      (k.stop.isSome = true → (∀ x, k.aseq ≠ .atSeam x) → passages k.passA id ≤ n → vMarker len id s = .next s) ∧
      (k.stop.isSome = true → k.aseq = .atSeam id → vMarker len id s = .next s) ∧
      (∀ x, k.stop.isSome = true → k.aseq = .atSeam x → x ≠ id → vMarker len id s = passed)) := by
  refine ⟨vMarker_inLoop, fun h => ⟨fun hs => ?_, fun hs ha hn => ?_, fun hs ha hn => ?_, fun hs ha => ?_, fun x hs ha hx => ?_⟩⟩
  · exact vMarker_passed h (seamPasses_of_noStop hs)
  · exact vMarker_passed h ((seamPasses_of_notAtSeam hs ha).trans (decide_eq_true hn))
  · exact vMarker_waits h ((seamPasses_of_notAtSeam hs ha).trans (decide_eq_false (Nat.not_lt.2 hn)))
  · exact vMarker_waits h ((seamPasses_of_atSeam hs ha).trans (bne_self_eq_false _))
  · exact vMarker_passed h ((seamPasses_of_atSeam hs ha).trans (bne_iff_ne.2 hx))

end

/-! ## VLOOP (R174) -/

section
variable {s : State} {f : VFields}

theorem exec_vloop_crosses (h : loopCrosses s.core (f.vd.extractLsb' 0 2) (s.core.vpc + BitVec.ofInt 64 (4 * (litOf f).toInt)) = true) :
    exec (.vloop f) s = .next { s with core := Core.note 4 1 (s.core.vTrap .illegal s.core.vpc 0 s.core.vpc) } := by
  show execVloop f s = _
  rw [← parcelTarget_eq] at h
  simp only [execVloop, vWord, h, if_true]
  rfl

theorem exec_vloop_none (h : loopCrosses s.core (f.vd.extractLsb' 0 2) (s.core.vpc + BitVec.ofInt 64 (4 * (litOf f).toInt)) = false)
    (hn : f.modifier = 0) :
    exec (.vloop f) s = .next { s with core := Core.note 4 1 { s.core with
      vpc := s.core.vpc + BitVec.ofInt 64 (4 * (litOf f).toInt), vrep := 0, vflags := 0 } } := by
  show execVloop f s = _
  rw [← parcelTarget_eq] at h ⊢
  simp only [execVloop, vWord, h, hn, Bool.false_eq_true, if_false, if_true]
  rfl

theorem exec_vloop_starts (h : loopCrosses s.core (f.vd.extractLsb' 0 2) (s.core.vpc + BitVec.ofInt 64 (4 * (litOf f).toInt)) = false)
    (hn : f.modifier ≠ 0) :
    let j := f.vd.extractLsb' 0 2
    let start := s.core.vpc + BitVec.ofNat 64 (4 * longLen f)
    let target := s.core.vpc + BitVec.ofInt 64 (4 * (litOf f).toInt)
    ∃ age, exec (.vloop f) s = .next { s with core := Core.note 4 1 { s.core with
      vpc := start, vrep := 0, vflags := 0, vlc := bankSet s.core.vlc j (f.modifier.zeroExtend 32 - 1)
      vloop := bankSet s.core.vloop j ⟨start, target, true, age⟩ } } := by
  refine ⟨s.core.vloop.toList.foldl (fun a l => max a l.age) 0 + 1, ?_⟩
  show execVloop f s = _
  rw [← parcelTarget_eq] at h
  simp only [execVloop, vWord, h, hn, Bool.false_eq_true, if_false, ← parcelTarget_eq]
  rfl

end

/-- Settles O22: each control instruction by its branches, and the end of an instruction by the loops that end there. -/
theorem vectorControl : Obligations.VectorControl := by
  unfold Obligations.VectorControl
  refine ⟨fun s f id raw op d a => ⟨rfl, rfl, rfl, ?_, ?_, ?_, ?_, exec_vjmp s f, ?_⟩, fun s t len fl => ⟨rfl, finishV_noLoop, ?_, ?_⟩⟩
  · cases raw <;> rfl
  · intro p hp
    rcases List.mem_pair.1 hp with rfl | rfl <;> rfl
  · exact ⟨exec_vwait_met, exec_vwait_waits, exec_vsig_zero, exec_vsig_adds, exec_vsig_overflows⟩
  · intro p hp
    rcases List.mem_pair.1 hp with rfl | rfl
    · exact vMarker_cases s (longLen f) (f.va ++ f.vd)
    · exact vMarker_cases s 1 id
  · refine ⟨exec_vloop_none, fun h hn => ?_, exec_vloop_crosses⟩
    obtain ⟨age, e⟩ := exec_vloop_starts h hn
    exact ⟨_, e, rfl, bank_set_same .., congrArg VLoop.start (bank_set_same ..), congrArg VLoop.fin (bank_set_same ..),
      congrArg VLoop.active (bank_set_same ..), fun i hi => ⟨bank_set_other _ _ _ _ hi, bank_set_other _ _ _ _ hi⟩, rfl⟩
  · exact fun j => finishV_oneLoop
  · exact fun code x => rfl

end Sys2Proof.Machine
end

