-- ==== Sys2Proof/Proofs/AxisCompletion.lean ====
section
/-! SUPPORT. Completion of the element instructions along an axis (R39, R168, R190 to R197), whatever the core store holds. -/

namespace Sys2Proof.Machine

open Sys2Proof

/-! ## What a write of registers changes, whatever the store holds -/

theorem putRuns_only (rs : List Run) (by_ : Option Writer) (va : Word) (s : State) (kept : Bool) (hc : ∀ r ∈ rs, r.core = some s.cur) :
    StoreOnly s (rs.foldl (fun r run => let p := putRun by_ va r.1 run; (p.1, r.2 && p.2)) (s, kept)).1 := by
  induction rs generalizing s kept with
  | nil => exact StoreOnly.refl s
  | cons r rest ih =>
    have hr : putRun by_ va s r = (putCore s.cur r.addr r.bytes s, true) := by rw [putRun, hc r (List.mem_cons_self ..)]
    have hput := putCore_only r.addr r.bytes s
    rw [List.foldl_cons, hr]
    exact hput.trans (ih _ _ fun y hy => by rw [hput.cur]; exact hc y (List.mem_cons_of_mem _ hy))

theorem putPairs_only (r : Nat) (ps : List (Nat × Byte)) (s : State) : StoreOnly s (putPairs r ps s) := by
  let qs := ps.map fun p => (r * 0x400 + p.1, p.2)
  have hsites : (ps.map fun p => Site.core s.cur (r * 0x400 + p.1)) = qs.map fun p => Site.core s.cur p.1 := by
    simp only [qs, List.map_map]
    rfl
  have hbytes : ps.map (·.2) = qs.map (·.2) := by
    simp only [qs, List.map_map]
    rfl
  have hv : (qs.map fun p => Site.core s.cur p.1).foldl validate s = s :=
    validate_foldl _ _ fun x hx => by
      obtain ⟨p, -, rfl⟩ := List.mem_map.mp hx
      exact .inr ⟨_, _, rfl⟩
  unfold putPairs
  rw [hsites, hbytes, putSites, hv]
  exact putRuns_only _ none 0 s true (runsOf_core s.cur qs).2

theorem putReg_only (t : VTy) (m : Mask) (r img : Nat) (s : State) : StoreOnly s (putReg t m r img s) := by
  unfold putReg
  split
  · exact putCore_only ..
  · exact putPairs_only ..

theorem putRegs_only (t : VTy) (m : Mask) (r : Nat) (imgs : List Nat) (s : State) : StoreOnly s (putRegs t m r imgs s) := by
  induction imgs generalizing r s with
  | nil => exact StoreOnly.refl s
  | cons img rest ih => exact (putReg_only t m r img s).trans (ih (r + 1) _)

/-! ## How an element instruction ends -/

/-- `t` is `s` but for what an element instruction writes: the core store, the entries taken, the monitors. -/
structure SameControl (s t : State) : Prop where
  vtrap : t.core.vtrap = s.core.vtrap
  pc : t.core.pc = s.core.pc
  mem : t.mem = s.mem
  vpc : t.core.vpc = s.core.vpc
  vexc : t.core.vexc = s.core.vexc
  vloop : t.core.vloop = s.core.vloop

theorem SameControl.of_storeOnly {s t : State} (h : StoreOnly s t) : SameControl s t := by
  unfold StoreOnly at h
  constructor <;> rw [h]

theorem SameControl.of_fetch3 {e : SrcEnv} {sh : VShape} {r : Rep} {s : State} {k : Core} {a b c : List Nat}
    (h : fetch3 e sh r s.core = some (a, b, c, k)) : SameControl s { s with core := k } := by
  obtain ⟨-, -, -, hk⟩ := fetch3_spec _ _ _ _ _ _ _ _ h
  rw [hk]
  exact ⟨rfl, rfl, rfl, rfl, rfl, rfl⟩

theorem SameControl.trans {s t u : State} (h : SameControl s t) (g : SameControl t u) : SameControl s u :=
  ⟨g.vtrap.trans h.vtrap, g.pc.trans h.pc, g.mem.trans h.mem, g.vpc.trans h.vpc, g.vexc.trans h.vexc, g.vloop.trans h.vloop⟩

/-- With its sources and registers at hand, an element instruction is performed. -/
theorem elementWord_done {len : Nat} {f : VFields} {sh : VShape} {compute : VIn → VRes} {s : State} {a b c : List Nat} {k : Core}
    (hf : Fetches f sh s a b c k) (hr : ElementReady f sh s) :
    ∃ fl t, elementWord len f sh compute s = .next (finishV len (repOf f s.core.vrep).last s (.done fl t)) ∧ SameControl s t := by
  obtain ⟨hregs, hpoison⟩ := hr
  have hf' : fetch3 ⟨sh.src, f.literal, bobIndex s⟩ sh (repOf f s.core.vrep) s.core = some (a, b, c, k) := hf
  let inp := inputs f s k a b c
  let m := if sh.force then BitVec.allOnes 1024 else inp.cells
  refine ⟨gather (List.replicate sh.nd (activity m sh.dst)).flatten (compute inp),
    putRegs sh.dst m (repOf f s.core.vrep).vd (images sh.dst sh.nd ((compute inp).map (·.bits))) { s with core := k }, ?_,
    (SameControl.of_fetch3 hf').trans (SameControl.of_storeOnly (putRegs_only ..))⟩
  simp only [elementWord, withFrames, hregs, hpoison, withSources, hf', Bool.not_true, Bool.false_eq_true, if_false, m, inp]

/-! ## The end of a repetition with no flag enabled -/

/-- The flags stand below the enables in c.vexc (R167). -/
theorem sticky_enables {s t : State} {fl : VFlags} (h : t.core.vexc.extractLsb' 8 5 = 0) : (sticky s t fl).extractLsb' 8 5 = 0 := by
  have hz : ∀ x : BitVec 5, (x.zeroExtend 64).extractLsb' 8 5 = 0 := by decide
  rw [sticky, BitVec.extractLsb'_or, h, hz]
  rfl

/-- What is seen of an instruction's end. -/
def Completed (len : Nat) (last : Bool) (s u : State) : Prop :=
  u.core.vtrap = s.core.vtrap ∧ u.core.pc = s.core.pc ∧ u.mem = s.mem ∧
    (last = false → u.core.vpc = s.core.vpc ∧ u.core.vrep = s.core.vrep + 1) ∧
    (last = true → u.core.vpc = s.core.vpc + w64 (4 * len) ∧ u.core.vrep = 0)

theorem finishV_completed {s t : State} {len : Nat} {fl : VFlags} (last : Bool) (hs : SameControl s t) (he : s.core.vexc.extractLsb' 8 5 = 0)
    (hl : ∀ j, (bank s.core.vloop j).active = true → (bank s.core.vloop j).fin ≠ s.core.vpc + w64 (4 * len)) :
    Completed len last s (finishV len last s (.done fl t)) := by
  rw [← hs.vexc] at he
  rw [← hs.vloop, ← hs.vpc] at hl
  cases last with
  | false => exact ⟨hs.vtrap, hs.pc, hs.mem, fun _ => ⟨hs.vpc, rfl⟩, fun h => Bool.noConfusion h⟩
  | true =>
    obtain ⟨hdone, -⟩ := finishV_noLoop (s := s) (fl := fl) hl
    rw [hdone (by rw [sticky_enables he]; exact BitVec.and_zero)]
    exact ⟨hs.vtrap, hs.pc, hs.mem, fun h => Bool.noConfusion h, fun _ => ⟨congrArg (· + w64 (4 * len)) hs.vpc, rfl⟩⟩

/-- Each instruction along an axis is an element instruction of its shape. -/
theorem exec_axis (s : State) (f : VFields) :
    let t := f.ty
    let pair : VShape := { src := t, dst := t, nb := 1, nd := 2 }
    ∀ p ∈ ([(Instr.vrot f, unaryShape t), (.vshft f, unaryShape t), (.vbcst f, unaryShape t), (.vrsum f, unaryShape t), (.vrmax f, unaryShape t),
        (.vrmin f, unaryShape t), (.vscan f, unaryShape t), (.vrsumw f, { src := t, dst := dotTy t }), (.vrmaxi f, pair), (.vrmini f, pair),
        (.vperm f, binaryShape t), (.vtrn f, unaryShape t), (.vzip f, binaryShape t), (.vuzp f, binaryShape t), (.vcxs f, pair),
        (.vcomp f, { unaryShape t with force := true }), (.vexpd f, unaryShape t)] : List (Instr × VShape)),
      ∃ compute, exec p.1 s = elementWord (longLen f) f p.2 compute s := by
  simp only [List.forall_mem_cons, List.not_mem_nil, false_implies, implies_true, and_true]
  exact ⟨⟨_, rfl⟩, ⟨_, rfl⟩, ⟨_, rfl⟩, ⟨_, rfl⟩, ⟨_, rfl⟩, ⟨_, rfl⟩, ⟨_, rfl⟩, ⟨_, rfl⟩, ⟨_, rfl⟩, ⟨_, rfl⟩, ⟨_, rfl⟩, ⟨_, rfl⟩, ⟨_, rfl⟩,
    ⟨_, rfl⟩, ⟨_, rfl⟩, ⟨_, rfl⟩, ⟨_, rfl⟩⟩

/-- Settles O20: each of them is an element instruction, which is performed and ends with no trap. -/
theorem axisCompletion : Obligations.AxisCompletion := by
  intro s f t pair next he hl p hp r ⟨a, b, c, k, hf⟩ hr hd
  obtain ⟨compute, hexec⟩ := exec_axis s f p hp
  obtain ⟨fl, t, hdone, hsame⟩ := elementWord_done (len := longLen f) (compute := compute) hf hr
  exact ⟨_, hexec.trans hdone, finishV_completed _ hsame he hl⟩

end Sys2Proof.Machine
end

