-- ==== Sys2Proof/Proofs/StrandEnds.lean ====
section
/-! SUPPORT. The pool and its slots (R62 to R68), and what the end or the loss of a strand leaves (R67, R76, R84, R131): its record, the core without it,
and memory as it was. -/

namespace Sys2Proof.Machine

open Sys2Proof

variable {s t : State} {slot : Nat}

/-! ## Lists of records -/

theorem find?_updateFirst {α : Type} {p : α → Bool} {f : α → α} (hf : ∀ x, p x = true → p (f x) = true) (l : List α) :
    (updateFirst p f l).find? p = (l.find? p).map f := by
  induction l with
  | nil => rfl
  | cons x rest ih =>
    cases hx : p x
    · simpa [updateFirst, hx] using ih
    · simp [updateFirst, hx, hf x hx]

theorem map_updateFirst {α β : Type} {p : α → Bool} {f : α → α} {g : α → β} (hg : ∀ x, g (f x) = g x) (l : List α) :
    (updateFirst p f l).map g = l.map g := by
  induction l with
  | nil => rfl
  | cons x rest ih =>
    cases hx : p x
    · simpa [updateFirst, hx] using ih
    · simp [updateFirst, hx, hg]

theorem updateFirst_append {α : Type} {p : α → Bool} {f : α → α} {l : List α} (r : List α) (h : ∀ x ∈ l, p x = false) :
    updateFirst p f (l ++ r) = l ++ updateFirst p f r := by
  induction l with
  | nil => rfl
  | cons x rest ih =>
    obtain ⟨hx, hrest⟩ := List.forall_mem_cons.1 h
    simp [updateFirst, hx, ih hrest]

/-! ## Pool slots -/

theorem poolEntry_slot {e : PoolEntry} (h : poolEntry s slot = some e) : e.slot = slot := by
  simpa using List.find?_some h

theorem poolEntry_updEntry {f : PoolEntry → PoolEntry} (hf : ∀ e, (f e).slot = e.slot) (s : State) (slot : Nat) :
    poolEntry (updEntry slot f s) slot = (poolEntry s slot).map f :=
  find?_updateFirst (fun e he => by rw [hf]; exact he) s.pool

theorem poolEntry_updBob (f : Bobbin → Bobbin) (s : State) (slot : Nat) :
    poolEntry (updBob slot f s) slot = (poolEntry s slot).map fun e => { e with bob := f e.bob } :=
  poolEntry_updEntry (f := fun e => { e with bob := f e.bob }) (fun _ => rfl) s slot

theorem poolEntry_mapped {f : PoolEntry → PoolEntry} (hf : ∀ e, (f e).slot = e.slot) (ht : t.pool = s.pool.map f) :
    poolEntry t slot = (poolEntry s slot).map f := by
  unfold poolEntry
  rw [ht, List.find?_map]
  congr 2
  funext e
  exact congrArg (· == slot) (hf e)

theorem poolEntry_congr (h : t.pool = s.pool) : poolEntry t slot = poolEntry s slot := by
  unfold poolEntry
  rw [h]

/-- The slots in use stay the same. -/
def SameSlots (s t : State) : Prop := t.pool.map (·.slot) = s.pool.map (·.slot)

theorem SameSlots.poolEntry_isSome (h : SameSlots s t) : (poolEntry t slot).isSome = (poolEntry s slot).isSome := by
  have key (u : State) : (poolEntry u slot).isSome = (u.pool.map (·.slot)).any (· == slot) := by
    rw [List.any_map, Bool.eq_iff_iff, poolEntry, List.find?_isSome, List.any_eq_true]
    rfl
  rw [key, key, h]

theorem updEntry_sameSlots {f : PoolEntry → PoolEntry} (hf : ∀ e, (f e).slot = e.slot) : SameSlots s (updEntry slot f s) :=
  map_updateFirst (f := f) (g := PoolEntry.slot) hf s.pool

/-! ## Memberships (R84) -/

/-- `t` is `s` but for the pool, in the same slots, the skeins and the barriers. -/
def SkeinsOnly (s t : State) : Prop := t = { s with pool := t.pool, skeins := t.skeins, barGen := t.barGen } ∧ SameSlots s t

theorem SkeinsOnly.refl (s : State) : SkeinsOnly s s := ⟨rfl, rfl⟩

theorem SkeinsOnly.trans {u : State} (h : SkeinsOnly s t) (g : SkeinsOnly t u) : SkeinsOnly s u := by
  obtain ⟨h, hs⟩ := h
  obtain ⟨g, gs⟩ := g
  rw [h] at g
  exact ⟨g, gs.trans hs⟩

theorem updBob_skeinsOnly (f : Bobbin → Bobbin) (s : State) (slot : Nat) : SkeinsOnly s (updBob slot f s) :=
  ⟨rfl, updEntry_sameSlots fun _ => rfl⟩

theorem putSkein_skeinsOnly (k : Skein) (s : State) : SkeinsOnly s (putSkein k s) := by
  unfold putSkein
  dsimp only
  split
  · exact ⟨rfl, rfl⟩
  · refine ⟨rfl, ?_⟩
    show (s.pool.map _).map _ = _
    rw [List.map_map]
    refine List.map_congr_left fun e _ => ?_
    simp only [Function.comp_apply]
    split <;> rfl

theorem dropRef_skeinsOnly (k : Skein) (s : State) : SkeinsOnly s (dropRef slot k s) := by
  unfold dropRef freeBarrier
  dsimp only
  repeat' split
  all_goals exact ⟨rfl, rfl⟩

theorem leaveSkein_skeinsOnly (launch : Nat) (id : BitVec 16) (s : State) : SkeinsOnly s (leaveSkein slot launch id s) := by
  unfold leaveSkein
  split
  · exact .refl s
  · rename_i k _
    refine (dropRef_skeinsOnly (slot := slot) k s).trans ?_
    dsimp only
    split
    · exact .refl _
    · split
      · exact ⟨rfl, rfl⟩
      · exact putSkein_skeinsOnly _ _

theorem dropMemberships_skeinsOnly (slot : Nat) (s : State) : SkeinsOnly s (dropMemberships slot s) := by
  have leave (b : Bool) (l : Nat) (id : BitVec 16) (s : State) : SkeinsOnly s (if b then leaveSkein slot l id s else s) := by
    cases b
    · exact .refl s
    · exact leaveSkein_skeinsOnly l id s
  unfold dropMemberships
  split
  · exact .refl s
  · exact ((leave _ _ _ _).trans (leave _ _ _ _)).trans (updBob_skeinsOnly _ _ _)

/-! ## The end of a bobbin -/

/-- A core once a bobbin has ended: it holds none of the bobbin's frames, and has no strand if that was the bobbin's (R67, R131). -/
def Core.without (slot : Nat) (k : Core) : Core :=
  let k := { k with held := k.held.filter fun h => h.owner != slot }
  if k.slot == some slot || k.claimed == some slot then { k.unbind with claimed := none } else k

theorem Core.without_bound {k : Core} (h : k.slot = some slot) :
    k.without slot = { k.unbind with claimed := none, held := k.held.filter fun h => h.owner != slot } := by
  simp only [Core.without, h, beq_self_eq_true, Bool.true_or, if_true]
  rfl

/-- A core that no strand runs on. -/
def Core.HasNoStrand (k : Core) : Prop := k.slot = none ∧ k.aseq = .idle ∧ k.vseq = .idle ∧ k.mseq = .idle

theorem Core.without_hasNoStrand {k : Core} (h : k.slot = some slot) : (k.without slot).HasNoStrand := by
  rw [Core.without_bound h]
  exact ⟨rfl, rfl, rfl, rfl⟩

/-- What `releaseCores` leaves: every core without the bobbin, and the stops that its strand covered settled. -/
theorem releaseCores_spec (slot : Nat) (s : State) :
    ∃ f : PoolEntry → PoolEntry, (∀ e, (f e).slot = e.slot ∧ (f e).bob = e.bob) ∧
      (releaseCores slot (dropMonitor slot (dropHeld slot s))).pool = s.pool.map f ∧
      (releaseCores slot (dropMonitor slot (dropHeld slot s))).core = s.core.without slot ∧
      (releaseCores slot (dropMonitor slot (dropHeld slot s))).mem = s.mem ∧
      (releaseCores slot (dropMonitor slot (dropHeld slot s))).cur = s.cur := by
  unfold releaseCores
  dsimp only
  split
  · refine ⟨_, ?_, rfl, rfl, rfl, rfl⟩
    exact fun _ => ⟨rfl, rfl⟩
  · exact ⟨id, fun _ => ⟨rfl, rfl⟩, (List.map_id _).symm, rfl, rfl, rfl⟩

/-- A bobbin that ends: its memberships dropped, its record changed by `f`, its frames and its cores free. -/
def endBobbin (slot : Nat) (f : Bobbin → Bobbin) (s : State) : State :=
  releaseCores slot (dropMonitor slot (dropHeld slot (updBob slot f s)))

theorem endBobbin_mem (f : Bobbin → Bobbin) (s : State) : (endBobbin slot f s).mem = s.mem := by
  obtain ⟨_, -, -, -, hm, -⟩ := releaseCores_spec slot (updBob slot f s)
  exact hm

theorem endBobbin_cur (f : Bobbin → Bobbin) (s : State) : (endBobbin slot f s).cur = s.cur := by
  obtain ⟨_, -, -, -, -, hc⟩ := releaseCores_spec slot (updBob slot f s)
  exact hc

theorem endBobbin_core (f : Bobbin → Bobbin) (s : State) : (endBobbin slot f s).core = s.core.without slot := by
  obtain ⟨_, -, -, hk, -⟩ := releaseCores_spec slot (updBob slot f s)
  exact hk

theorem endBobbin_record {f : Bobbin → Bobbin} (h : (poolEntry s slot).isSome = true) :
    ∃ e b, poolEntry (endBobbin slot f s) slot = some e ∧ e.bob = f b := by
  obtain ⟨e, he⟩ := Option.isSome_iff_exists.1 h
  obtain ⟨g, hg, hp, -⟩ := releaseCores_spec slot (updBob slot f s)
  refine ⟨g { e with bob := f e.bob }, e.bob, ?_, (hg _).2⟩
  exact (poolEntry_mapped (fun x => (hg x).1) hp).trans (by rw [poolEntry_updBob, he]; rfl)

section
variable {code : BitVec 10} {e : PoolEntry}

theorem loseWith_eq (h : poolEntry s slot = some e) :
    loseWith slot code s = disown slot (endBobbin slot (fun b => { b with state := .lost, fault := code, hold := 0xFF })
      (updLaunch e.launch (fun l => if l.first = 0 then { l with first := code } else l) (dropMemberships slot s))) := by
  unfold loseWith
  rw [h]
  rfl

theorem loseWith_record (h : poolEntry s slot = some e) :
    ∃ e', poolEntry (loseWith slot code s) slot = some e' ∧ e'.bob.state = .lost ∧ e'.bob.fault = code := by
  rw [loseWith_eq h]
  obtain ⟨-, hslots⟩ := dropMemberships_skeinsOnly slot s
  obtain ⟨e', b, he, hb⟩ := endBobbin_record (f := fun b => { b with state := .lost, fault := code, hold := 0xFF })
    (s := updLaunch e.launch (fun l => if l.first = 0 then { l with first := code } else l) (dropMemberships slot s)) (slot := slot)
    (hslots.poolEntry_isSome.trans (by rw [h]; rfl))
  exact ⟨e', he, by rw [hb], by rw [hb]⟩

theorem loseWith_core (h : poolEntry s slot = some e) : (loseWith slot code s).core = s.core.without slot := by
  obtain ⟨hs, -⟩ := dropMemberships_skeinsOnly slot s
  rw [loseWith_eq h]
  refine (endBobbin_core _ _).trans ?_
  rw [hs]
  rfl

@[simp] theorem loseWith_mem (slot : Nat) (code : BitVec 10) (s : State) : (loseWith slot code s).mem = s.mem := by
  cases h : poolEntry s slot with
  | none => simp only [loseWith, h]
  | some e =>
    obtain ⟨hs, -⟩ := dropMemberships_skeinsOnly slot s
    rw [loseWith_eq h]
    refine (endBobbin_mem _ _).trans ?_
    rw [hs]
    rfl

@[simp] theorem loseWith_cur (slot : Nat) (code : BitVec 10) (s : State) : (loseWith slot code s).cur = s.cur := by
  cases h : poolEntry s slot with
  | none => simp only [loseWith, h]
  | some e =>
    obtain ⟨hs, -⟩ := dropMemberships_skeinsOnly slot s
    rw [loseWith_eq h]
    refine (endBobbin_cur _ _).trans ?_
    rw [hs]
    rfl
end

section
variable {code : TrapCode} {e : PoolEntry}

theorem loseBobbin_eq (h : poolEntry s slot = some e) : loseBobbin slot code s = loseWith slot code.code (countTrapOf e.launch s) := by
  unfold loseBobbin
  rw [h]

theorem loseBobbin_record (h : poolEntry s slot = some e) :
    ∃ e', poolEntry (loseBobbin slot code s) slot = some e' ∧ e'.bob.state = .lost ∧ e'.bob.fault = code.code := by
  rw [loseBobbin_eq h]
  exact loseWith_record (s := countTrapOf e.launch s) h

theorem loseBobbin_core (h : poolEntry s slot = some e) : (loseBobbin slot code s).core = s.core.without slot := by
  rw [loseBobbin_eq h]
  exact loseWith_core (s := countTrapOf e.launch s) h

@[simp] theorem loseBobbin_mem (slot : Nat) (code : TrapCode) (s : State) : (loseBobbin slot code s).mem = s.mem := by
  unfold loseBobbin
  split
  · rfl
  · exact loseWith_mem _ _ _

@[simp] theorem loseBobbin_cur (slot : Nat) (code : TrapCode) (s : State) : (loseBobbin slot code s).cur = s.cur := by
  unfold loseBobbin
  split
  · rfl
  · exact loseWith_cur _ _ _

theorem loseStrand_eq (h : s.core.slot = some slot) : loseStrand code s = loseBobbin slot code s := by
  unfold loseStrand
  rw [h]

@[simp] theorem loseStrand_mem (code : TrapCode) (s : State) : (loseStrand code s).mem = s.mem := by
  unfold loseStrand
  split
  · exact loseBobbin_mem _ _ _
  · rfl

@[simp] theorem loseStrand_cur (code : TrapCode) (s : State) : (loseStrand code s).cur = s.cur := by
  unfold loseStrand
  split
  · exact loseBobbin_cur _ _ _
  · rfl

/-- The bound strand is lost: the core has none, and its bobbin is LOST with the code (R67). -/
theorem loseStrand_bound (hk : s.core.slot = some slot) (h : poolEntry s slot = some e) :
    (loseStrand code s).core = s.core.without slot ∧
      ∃ e', poolEntry (loseStrand code s) slot = some e' ∧ e'.bob.state = .lost ∧ e'.bob.fault = code.code := by
  rw [loseStrand_eq hk]
  exact ⟨loseBobbin_core h, loseBobbin_record h⟩
end

/-! ## Events of the selected core -/

/-- What happens on the selected core, where it leaves the selection alone. -/
theorem onCoreEvent_cur {c : BitVec 8} {f : State → State} (hc : c.toNat = s.cur) (hf : (f s).cur = s.cur) :
    onCoreEvent c f s = .next (f s) := by
  unfold onCoreEvent
  rw [hc, onCore_cur f s hf]

end Sys2Proof.Machine
end

