-- ==== Sys2Proof/Proofs/StrandWords.lean ====
section
/-! SUPPORT. Words that begin, stop, suspend and end a strand (R50, R72 to R79, R267, R458), and requests for pages (R315). -/

namespace Sys2Proof.Machine

open Sys2Proof

/-! ## Passages of a marker (R458) -/

theorem find?_removeFirst {α : Type} {p q : α → Bool} (h : ∀ x, p x = true → q x = false) (l : List α) :
    (removeFirst p l).find? q = l.find? q := by
  induction l with
  | nil => rfl
  | cons x rest ih =>
    cases hx : p x
    · simp [removeFirst, hx, List.find?_cons, ih]
    · simp [removeFirst, hx, h x hx]

theorem passages_setPassages_same (l : List (BitVec 22 × Nat)) (id : BitVec 22) (n : Nat) : passages (setPassages l id n) id = n := by
  simp [passages, setPassages]

theorem passages_setPassages_other {id x : BitVec 22} (l : List (BitVec 22 × Nat)) (n : Nat) (hx : x ≠ id) :
    passages (setPassages l id n) x = passages l x := by
  have hne : (id == x) = false := beq_eq_false_iff_ne.2 hx.symm
  have hrest := find?_removeFirst (p := fun e : BitVec 22 × Nat => e.1 == id) (q := fun e => e.1 == x)
    (fun e he => by rw [eq_of_beq he]; exact hne) l
  simp only [passages, setPassages, List.find?_cons, hne, hrest]

/-! ## SEAM and SPIN (R72, R78, R267, R458) -/

section
variable {s : State} {id : BitVec 22}

/-- The A-stream goes on through a SEAM word: the passage counts, and a spin mark of another SEAM word clears. -/
def Core.passSeam (id : BitVec 22) (k : Core) : Core :=
  { k with
    passA := setPassages k.passA id (passages k.passA id + 1)
    spin := k.spin.bind fun x => if x.1 = id then some x else none }

/-- A stop may take place at the SEAM word: one is wanted, and neither V nor M is past its marker (R458). -/
def Core.stopsAt (id : BitVec 22) (k : Core) : Bool :=
  k.stopWanted && passages k.passV id ≤ passages k.passA id && passages k.passM id ≤ passages k.passA id

theorem exec_seam_passed (h : Issues s [] []) (hgo : s.core.stopsAt id = false) :
    exec (.seam id) s = .next (wordDone { s with core := s.core.passSeam id }) := by
  show execSeam id s = _
  unfold execSeam
  rw [aWord_go h]
  unfold Core.stopsAt at hgo
  simp only [hgo, Bool.false_eq_true, if_false, Core.passSeam]
  cases s.core.spin <;> rfl

theorem exec_seam_stops (h : Issues s [] []) (hstop : s.core.stopsAt id = true) :
    exec (.seam id) s =
      .next (if s.core.mseq = .faulted then loseStrand .seamIntegrity s else { s with core := s.core.stand s.core.pc id }) := by
  show execSeam id s = _
  unfold execSeam
  rw [aWord_go h]
  unfold Core.stopsAt at hstop
  simp only [hstop, if_true, beq_iff_eq]
  split <;> rfl

theorem exec_spin_marked (h : Issues s [] []) (hx : seamBefore s.core = some id) :
    CompletesTo .spin s { s with core := { s.core with spin := some (id, (s.core.spin.map fun x => x.2).getD s.time) } } := by
  show execSpin s = _
  unfold execSpin
  rw [aWord_go h, hx]
  cases s.core.spin <;> rfl

theorem exec_spin_alone (h : Issues s [] []) (hx : seamBefore s.core = none) :
    exec .spin s = .next (trapsIn s s .illegal .a 0) := by
  show execSpin s = _
  unfold execSpin
  rw [aWord_go h, hx]
  rfl

end

/-! ## SUSPEND (R75) -/

section
variable {s : State} {slot : Nat} {a : BitVec 6}

theorem exec_suspend (h : Issues s [a] []) (hk : s.core.slot = some slot) (hm : s.core.mseq ≠ .faulted) :
    CompletesTo (.suspend a) s
      (if a = 0 then postStop 3 (dropMonitor slot s) else postStop 4 (armMonitor slot (getS s a) s)) := by
  show execSuspend a s = _
  unfold execSuspend
  rw [aWord_go h, hk]
  simp only [beq_eq_false_iff_ne.2 hm, Bool.false_eq_true, if_false]
  split <;> rfl

/-- The monitor that SUSPEND arms covers the bytes of the line (R75). -/
theorem armMonitor_covers (slot : Nat) (va : Word) (s : State) :
    ∃ m ∈ (armMonitor slot va s).monitors, m.slot = slot ∧
      m.addrs = (List.range 64).filterMap fun i => monitorAddr s ((va &&& ~~~63) + w64 i) :=
  ⟨_, List.mem_append_right _ (List.mem_singleton_self _), rfl, rfl⟩

/-- The first stop request is posted with its cause and its limit, and the bobbin is STOPPING (R67, R72). -/
theorem postStop_first (hk : s.core.slot = some slot) (hm : s.core.mseq ≠ .faulted) (hs : s.core.stop = none) (c : BitVec 4) :
    postStop c s = noteDie 4 1 { s with
      core := { s.core with stop := some ⟨c, s.time + 2000000⟩ }
      pool := updateFirst (fun e => e.slot == slot) (fun e => { e with bob := { e.bob with state := .stopping } }) s.pool } := by
  simp only [postStop, hk, hs, beq_eq_false_iff_ne.2 hm, Bool.false_eq_true, if_false, Option.isSome_none]
  rfl

end

/-! ## EXIT (R76) -/

section
variable {s : State} {slot : Nat} {e : PoolEntry}

/-- EXIT has been reached: a stop request lapses, and its limit runs (R76, R267). -/
abbrev atExit (s : State) : State :=
  { s with core := { s.core with spin := none, stop := none, exitDue := s.core.exitDue.or (some (s.time + 2000000)) } }

theorem exec_exit (h : Issues s [] []) (hv : vEnded s.core = true) (hm : mEnded s.core = true)
    (hc : s.core.copyTrap.isNone = true → copiesOver s.core = true) (ha : accessesOver (atExit s) = true) (hf : endFaults (atExit s) = none) :
    exec .exit s = .next (if queuesEmpty s.core then finishStrand (atExit s) else loseStrand .seamIntegrity (atExit s)) := by
  have hcopy : (s.core.copyTrap.isNone && !copiesOver s.core) = false := by
    cases hn : s.core.copyTrap.isNone
    · rfl
    · simp [hc hn]
  unfold atExit at ha hf
  show execExit s = _
  unfold execExit
  rw [aWord_go h]
  simp only [hv, hm, hcopy, stopLimit, ha, hf, Bool.not_true, Bool.or_self, Bool.false_eq_true, if_false]
  split <;> rfl

/-- A strand that ends: its bobbin is DONE, and the core has no strand. -/
theorem finishStrand_bound (hk : s.core.slot = some slot) (h : poolEntry s slot = some e) :
    (finishStrand s).mem = s.mem ∧
      (finishStrand s).core = Core.note 3 1 (s.core.without slot) ∧
      ∃ e', poolEntry (finishStrand s) slot = some e' ∧ e'.bob.state = .done := by
  obtain ⟨hd, hslots⟩ := dropMemberships_skeinsOnly slot s
  have heq : finishStrand s =
      withCore (Core.note 3 1) (endBobbin slot (fun b => { b with state := .done, hold := 0xFF }) (dropMemberships slot s)) := by
    unfold finishStrand
    rw [hk]
    rfl
  obtain ⟨e', b, he, hb⟩ := endBobbin_record (f := fun b => { b with state := .done, hold := 0xFF }) (s := dropMemberships slot s)
    (slot := slot) (hslots.poolEntry_isSome.trans (by rw [h]; rfl))
  rw [heq]
  refine ⟨?_, ?_, e', he, by rw [hb]⟩
  · rw [withCore_mem, endBobbin_mem, hd]
  · show Core.note 3 1 _ = _
    rw [endBobbin_core, hd]

end

/-- Settles O9, word by word: SEAM by whether a stop takes place there, SUSPEND by its register, EXIT by whether the queues are empty. -/
theorem seamsStopsAndExit : Obligations.SeamsStopsAndExit := by
  refine ⟨fun s id h => ⟨fun hgo => ?_, fun hw hm hv hq => ?_, fun e hk he hw hm hv hq => ?_, exec_spin_marked h, exec_spin_alone h⟩,
    fun s a slot h hk hm => ⟨?_, fun ha => ⟨?_, ?_⟩, fun hs c => ?_⟩, ?_⟩
  · have hno : s.core.stopsAt id = false := by
      unfold Core.stopsAt
      rcases hgo with hw | hv | hm
      · rw [hw]; rfl
      · simp [Nat.not_le.2 hv]
      · simp [Nat.not_le.2 hm]
    refine ⟨_, exec_seam_passed h hno, passages_setPassages_same _ _ _, fun x hx => passages_setPassages_other _ _ hx, ?_, rfl⟩
    intro x since hspin
    show s.core.spin.bind _ = _
    rw [hspin]
    rfl
  · rw [exec_seam_stops h (by simp [Core.stopsAt, hw, hv, hq]), if_neg hm]
    rfl
  · rw [exec_seam_stops h (by simp [Core.stopsAt, hw, hv, hq]), if_pos hm]
    obtain ⟨hcore, e', he', hlost⟩ := loseStrand_bound (code := .seamIntegrity) hk he
    obtain ⟨hslot, -⟩ := Core.without_hasNoStrand hk
    exact ⟨_, e', rfl, hcore ▸ hslot, he', hlost⟩
  · rintro rfl
    exact exec_suspend h hk hm
  · have hs := exec_suspend h hk hm
    rwa [if_neg ha] at hs
  · exact armMonitor_covers slot (getS s a) s
  · rw [postStop_first hk hm hs]
    exact ⟨rfl, rfl⟩
  · intro s slot h hk hv hm s' hc ha hf hp
    obtain ⟨e, he⟩ := Option.ne_none_iff_exists'.1 hp
    rw [exec_exit h hv hm hc ha hf]
    by_cases hq : queuesEmpty s.core = true
    · obtain ⟨hmem, hcore, e', he', hdone⟩ := finishStrand_bound (s := atExit s) hk he
      obtain ⟨hslot, hA, hV, hM⟩ : (finishStrand (atExit s)).core.HasNoStrand := hcore ▸ Core.without_hasNoStrand (k := (atExit s).core) hk
      rw [if_pos hq]
      exact ⟨_, e', rfl, hslot, hA, hV, hM, hmem, he', fun _ => hdone, fun hn => absurd (hq.symm.trans hn) (by decide)⟩
    · obtain ⟨hcore, e', he', hlost⟩ := loseStrand_bound (s := atExit s) (code := .seamIntegrity) hk he
      obtain ⟨hslot, hA, hV, hM⟩ : (loseStrand .seamIntegrity (atExit s)).core.HasNoStrand :=
        hcore ▸ Core.without_hasNoStrand (k := (atExit s).core) hk
      rw [if_neg hq]
      exact ⟨_, e', rfl, hslot, hA, hV, hM, loseStrand_mem _ _, he', fun hy => absurd hy hq, fun _ => hlost⟩

/-! ## SPAWN (R62, R74) -/

section
variable {s : State} {d a : BitVec 6} {slot : Nat}

/-- The pool entry of a bobbin that has just been created: READY at the back place, its clocks started. -/
def newEntry (slot : Nat) (b : Bobbin) (launch : Nat) (s : State) : PoolEntry :=
  ⟨slot, { b with state := .ready }, s.nextPlace, s.time, none, none, launch, 0, none⟩

/-- The part with a pool entry more, in the order of slots, at the back place. -/
def addEntry (e : PoolEntry) (s : State) : State :=
  noteDie 3 1 { s with
    pool := s.pool.takeWhile (·.slot < e.slot) ++ e :: s.pool.dropWhile (·.slot < e.slot)
    nextPlace := s.nextPlace + 1 }

theorem createBobbin_free {b : Bobbin} {launch : Nat} (hf : freeSlot s = some slot) (hn : ∀ e ∈ s.pool, e.slot ≠ slot) :
    createBobbin b launch s = some (addEntry (newEntry slot b launch s) s) := by
  have hbefore : ∀ e ∈ s.pool.takeWhile (·.slot < slot), (e.slot == slot) = false := fun e he =>
    beq_eq_false_iff_ne.2 (hn e (List.takeWhile_subset _ he))
  simp only [createBobbin, hf, Option.map_some, makeReady, updEntry, updateFirst_append _ hbefore, updateFirst, beq_self_eq_true, if_true]
  rfl

theorem poolEntry_addEntry {e : PoolEntry} (hn : ∀ x ∈ s.pool, x.slot ≠ e.slot) : poolEntry (addEntry e s) e.slot = some e := by
  have hbefore : (s.pool.takeWhile (·.slot < e.slot)).find? (fun x => x.slot == e.slot) = none :=
    List.find?_eq_none.2 fun x hx => by simpa using hn x (List.takeWhile_subset _ hx)
  show List.find? _ (_ ++ e :: _) = _
  rw [List.find?_append, hbefore, List.find?_cons_of_pos (by simp)]
  rfl

theorem exec_spawn_bad (h : Issues s (recordRegs a 5) []) (hb : spawnBad (getS s a) (getS s (a + 1)) (getS s (a + 2)) = true) :
    exec (.spawn d a) s = .next (trapsIn s s .spawnRecord .a 0) := by
  show execSpawn d a s = _
  unfold execSpawn
  rw [aWord_go h]
  simp only [hb, if_true]
  rfl

theorem exec_spawn_full (h : Issues s (recordRegs a 5) []) (hb : spawnBad (getS s a) (getS s (a + 1)) (getS s (a + 2)) = false)
    (hr : releaseWaits s = false) (hf : freeSlot s = none) : CompletesS (.spawn d a) s d 0 := by
  have hfull : createBobbin (spawned s a) s.core.launch s = none := by
    rw [createBobbin, hf]
    rfl
  refine completesS_of h (show execSpawn d a s = _ by unfold execSpawn; rfl) ?_
  simp only [hb, hr, hfull, Bool.false_eq_true, if_false]

theorem exec_spawn_created (h : Issues s (recordRegs a 5) []) (hb : spawnBad (getS s a) (getS s (a + 1)) (getS s (a + 2)) = false)
    (hr : releaseWaits s = false) (hf : freeSlot s = some slot) (hn : ∀ e ∈ s.pool, e.slot ≠ slot) :
    exec (.spawn d a) s = .next (wordDone (setS d 1 (addEntry (newEntry slot (spawned s a) s.core.launch s) s))) := by
  show execSpawn d a s = _
  unfold execSpawn
  rw [aWord_go h]
  simp only [hb, hr, createBobbin_free hf hn, Bool.false_eq_true, if_false]
  rfl

end

/-! ## WAIT.M (R77) -/

section
variable {s : State} {d a : BitVec 6} {size : MemSize} {seen : Seen}

theorem waitOver_setS (r : BitVec 6) (x : Word) (s : State) : waitOver (setS r x s) = setS r x (waitOver s) := by
  by_cases h : r = 0 <;> simp only [waitOver, setS, Core.setS, h, if_true, if_false]
  rfl

theorem waitOver_setP (p : BitVec 4) (b : Bool) (s : State) : waitOver (setP p b s) = setP p b (waitOver s) := by
  by_cases h : p = 0 <;> simp only [waitOver, setP, Core.setP, h, if_true, if_false]
  rfl

/-- WAIT.M whose bytes can be read now: it ends, or it waits on. -/
theorem exec_waitM_read (h : Issues s [a, d] []) (hal : (getS s a).toNat % size.bytes = 0) (hw : watchHit s (getS s a) = false)
    (hp : peerOf (strandSites s false false (getS s a) size.bytes) = none)
    (hl : localWaits s false false (getS s a) (strandSites s false false (getS s a) size.bytes) = false)
    (hr : readSites .load (strandSites s false false (getS s a) size.bytes) s = .ok seen s) :
    exec (.waitM d a size) s = .next (finishA s
      (if seen.miss.any id then .done (setP 14 true (setS d 0 (waitOver s)))
       else if leNat seen.bytes ≠ (getS s d).toNat % 2 ^ (8 * size.bytes) then
         .done (setP 14 false (setS d (w64 (leNat seen.bytes)) (waitOver s)))
       else waitOn .waitM s)) := by
  show execWaitM d a size s = _
  unfold execWaitM
  rw [aWord_go h]
  simp only [hal, hw, hp, hl, hr, waitOver_setP, waitOver_setS, bne_self_eq_false, Bool.false_eq_true, if_false]

/-- A wait that goes on where no stop may take place: the word is tried again. -/
theorem waitOn_retries (kind : WaitKind) (h : waitSeam s.core = none) :
    ∃ mark, waitOn kind s = .stall { s with core := { s.core with wait := mark } } := by
  unfold waitOn
  dsimp only
  rw [h]
  exact ⟨_, rfl⟩

theorem exec_waitM_missing (h : Issues s [a, d] []) (hal : (getS s a).toNat % size.bytes = 0) (hw : watchHit s (getS s a) = false)
    (hp : peerOf (strandSites s false false (getS s a) size.bytes) = none)
    (hl : localWaits s false false (getS s a) (strandSites s false false (getS s a) size.bytes) = false)
    (hr : readSites .load (strandSites s false false (getS s a) size.bytes) s = .ok seen s) (hm : seen.miss.any id = true) :
    CompletesTo (.waitM d a size) s (setP 14 true (setS d 0 (waitOver s))) := by
  show exec _ _ = _
  rw [exec_waitM_read h hal hw hp hl hr, if_pos hm]
  rfl

theorem exec_waitM_changed (h : Issues s [a, d] []) (hal : (getS s a).toNat % size.bytes = 0) (hw : watchHit s (getS s a) = false)
    (hp : peerOf (strandSites s false false (getS s a) size.bytes) = none)
    (hl : localWaits s false false (getS s a) (strandSites s false false (getS s a) size.bytes) = false)
    (hr : readSites .load (strandSites s false false (getS s a) size.bytes) s = .ok seen s) (hm : seen.miss.any id = false)
    (hx : leNat seen.bytes ≠ (getS s d).toNat % 2 ^ (8 * size.bytes)) :
    CompletesTo (.waitM d a size) s (setP 14 false (setS d (w64 (leNat seen.bytes)) (waitOver s))) := by
  show exec _ _ = _
  rw [exec_waitM_read h hal hw hp hl hr, if_neg (by simp [hm]), if_pos hx]
  rfl

end

/-! ## PAGEREQ (R315) -/

section
variable {s : State} {a : BitVec 6}

theorem exec_pagereq_fixed (h : Issues s [a] []) (hc : canonical (getS s a) = true) (hf : fixedWindow (getS s a).toNat = true) :
    CompletesTo (.pagereq a) s s := by
  show execPagereq a s = _
  unfold execPagereq
  rw [aWord_go h]
  simp only [hc, hf, Bool.and_self, if_true]
  rfl

theorem exec_pagereq_noncanonical (h : Issues s [a] []) (hc : canonical (getS s a) = false) :
    exec (.pagereq a) s = .next (trapsIn s s .prot .a (getS s a)) := by
  show execPagereq a s = _
  unfold execPagereq
  rw [aWord_go h]
  simp only [hc, Bool.false_and, Bool.false_eq_true, if_false, Bool.not_false, if_true]
  rfl

theorem exec_pagereq_outside (h : Issues s [a] []) (hc : canonical (getS s a) = true) (hf : fixedWindow (getS s a).toNat = false)
    (he : extentAt s s.core.launch (getS s a).toNat = none) : exec (.pagereq a) s = .next (trapsIn s s .prot .a (getS s a)) := by
  show execPagereq a s = _
  unfold execPagereq
  rw [aWord_go h]
  simp only [hc, hf, he, Bool.and_false, Bool.false_eq_true, if_false, Bool.not_true]
  rfl

theorem exec_pagereq_page {e : Extent} {p : Page} (h : Issues s [a] []) (hc : canonical (getS s a) = true)
    (hf : fixedWindow (getS s a).toNat = false) (he : extentAt s s.core.launch (getS s a).toNat = some e)
    (hp : pageOf s e.back (((getS s a).toNat - e.base) / pageSize e.psz) = some p) :
    exec (.pagereq a) s = .next (finishA s
      (if p.res || p.wanted.isSome then .done s
       else if Config.pageRequests ≤ pendingPages s then .stall s
       else .done (requestPage e.back (((getS s a).toNat - e.base) / pageSize e.psz) s))) := by
  show execPagereq a s = _
  unfold execPagereq
  rw [aWord_go h]
  simp only [hc, hf, he, hp, Bool.and_false, Bool.false_eq_true, if_false, Bool.not_true]

end

/-- Settles O10, word by word. -/
theorem spawnWaitAndPages : Obligations.SpawnWaitAndPages := by
  refine ⟨?_, ?_, ?_⟩
  · intro s d a h r
    refine ⟨exec_spawn_bad h, fun hb hr => ⟨exec_spawn_full h hb hr, fun slot hf hn => ?_⟩⟩
    have hother (x : BitVec 6) := getS_setS (addEntry (newEntry slot (spawned s a) s.core.launch s) s) d x 1
    refine ⟨_, newEntry slot (spawned s a) s.core.launch s, exec_spawn_created h hb hr hf hn, (hother d).trans (if_pos rfl),
      fun x hx => (hother x).trans (if_neg hx), poolEntry_addEntry (e := newEntry slot _ _ s) hn,
      rfl, rfl, rfl, rfl, rfl, rfl, rfl, rfl, rfl, rfl, ?_⟩
    show wordDone { addEntry _ s with core := s.core.setS d 1 } = _
    rw [Core.setS_writes]
    rfl
  · intro s d a size h n va sites hal hw hp hl seen hr ended write
    refine ⟨exec_waitM_missing h hal hw hp hl hr, exec_waitM_changed h hal hw hp hl hr, fun hm hx hseam => ?_⟩
    obtain ⟨mark, hmark⟩ := waitOn_retries .waitM hseam
    rw [exec_waitM_read h hal hw hp hl hr, if_neg (by simp [hm]), if_neg (not_not.2 hx), hmark]
    exact ⟨_, rfl, rfl, rfl, rfl, rfl⟩
  · intro s a h va
    refine ⟨exec_pagereq_fixed h, exec_pagereq_noncanonical h, fun hc hf => ⟨exec_pagereq_outside h hc hf, fun e he => ⟨?_, ?_⟩⟩⟩
    · intro p hp hno
      show exec _ _ = _
      rw [exec_pagereq_page h hc hf he hp, if_pos (by rcases hno with hno | hno <;> simp [hno, Option.isSome_iff_ne_none])]
      rfl
    · intro p hp hres hwant hroom
      show exec _ _ = _
      rw [exec_pagereq_page h hc hf he hp, if_neg (by simp [hres, hwant]), if_neg (by simpa using hroom)]
      rfl

end Sys2Proof.Machine
end

