-- ==== Sys2Proof/Proofs/StopRefuted.lean ====
section
/-! SUPPORT. A stop whose control page lies on the image's header (R71, R72, R120, R134): the seam table is read again after the page has been
written, and the read meets an error elsewhere. -/

namespace Sys2Proof.Machine

open Sys2Proof

/-! ## A control page on the image's header -/

/-- A strand at seam 0 of its image with a stop pending, whose s6 will stand where the header names the seam table. -/
def coreOverHeader : Core :=
  { Core.reset 0 with
    slot := some 0, launch := 1, s := bankSet (Vector.replicate _ 0) 6 0x0000000100002000#64, aseq := .atSeam 0, stop := some ⟨3, 100⟩ }

/-- Its bobbin: the image at 0x100000, the save area at 0. -/
def entryOverHeader : PoolEntry :=
  ⟨0, ⟨0x100000, 0, false, .stopping, 0, 0, 0, 0, 0, .none, .none, 0, 0, 0, 0xFF, 0⟩, 0, 0, none, none, 1, 0, none⟩

/-- The one page of the save area that is there: it holds the control page, at physical address 0x100000. -/
def pageOverHeader : Page := ⟨0x100000, 0x100000, true, false, false, none, false, 0⟩

def extentOverHeader : Extent := ⟨0, 0x240000, 0x1000, 0, 0x10, 7⟩

def launchOverHeader : Launch :=
  ⟨1, 0, 0, 0, ⟨0, 0, 0, 0, 0, 0, 0, 0, 0, 0, ⟨0, 0, false, 0, false⟩, ⟨0, 0, false, 0, false⟩, ⟨0, 0, false, 0, false⟩, ⟨0, 0, false, 0, false⟩⟩,
    .running, 0, [extentOverHeader], 0, 0, [], 1, 0, 0, 0, 0, 0⟩

/-- The image's header and its seam table: one entry, without a V and an M marker. -/
def imageUnderPage : Mem := (0x100030, 0x80) :: (0x100034, 1) :: (List.range 8).map fun i => (0x100084 + i, 0xFF)

/-- The part: a poisoned line 0x2000 above the image's base, and an event ring. -/
def stateOverHeader : State :=
  { State.reset with
    core := coreOverHeader, pool := [entryOverHeader], launches := [launchOverHeader], mem := imageUnderPage, poison := [0x102000 / 64],
    backings := [⟨7, 0, 1, 0, true, 0, false, false, [pageOverHeader]⟩], evring := ⟨0, true, false, 0, 0, 0⟩ }

/-! ### The stop completes -/

/-- Ordinary memory, where Selvedge is off, lies where its address says. -/
theorem memSite_lpddr {s : State} {pa : Nat} (write : Bool) (hpa : pa < vaultBase) (hsv : s.sv.en = false) : memSite s write pa = .mem pa := by
  have hv : ¬vaultBase ≤ pa := Nat.not_le.2 hpa
  have hh : ¬hostBase ≤ pa := fun h => absurd (Nat.lt_of_le_of_lt h hpa) (by decide)
  have hdata : svDataBlock s.sv pa = none := by simp [svDataBlock, hsv]
  simp [memSite, ungranted, columnFailed, columnBusy, hv, hh, hdata]

theorem sites_overHeader : virtSites stateOverHeader 1 false true false (0 + 0x240000#64) 4096 = memSites 0x100000 4096 := by
  refine List.map_congr_left fun i hi => ?_
  have hi : i < 4096 := List.mem_range.1 hi
  have hv : (0 + 0x240000#64 + w64 i).toNat = 0x240000 + i := by
    simp [w64]
    omega
  have hc : canonical (0 + 0x240000#64 + w64 i) = true := by
    have hz : (0 + 0x240000#64 + w64 i).extractLsb' 55 9 = 0 := by
      apply BitVec.eq_of_toNat_eq
      rw [BitVec.extractLsb'_toNat, hv, Nat.shiftRight_eq_div_pow]
      simp
      omega
    simpa [canonical] using Or.inl hz
  have hx : extentAt stateOverHeader 1 (0x240000 + i) = some extentOverHeader := by
    rw [extentAt, show launchOf stateOverHeader 1 = some launchOverHeader from rfl]
    rw [Option.bind_some, show launchOverHeader.exts = [extentOverHeader] from rfl]
    have hin : (decide (0x240000 ≤ 0x240000 + i) && decide (0x240000 + i < 0x240000 + 0x1000)) = true := by
      simp
      omega
    exact List.find?_cons_of_pos hin
  have hl : extentLost stateOverHeader 1 extentOverHeader = false := by decide +kernel
  have hpage : (0x240000 + i - extentOverHeader.base) / pageSize extentOverHeader.psz = 0 := by
    show (0x240000 + i - 0x240000) / 0x1000 = 0
    omega
  have hplace : pageOverHeader.pa + (0x240000 + i - extentOverHeader.base) % pageSize extentOverHeader.psz = 0x100000 + i := by
    show 0x100000 + (0x240000 + i - 0x240000) % 0x1000 = 0x100000 + i
    omega
  simp only [virtSite, hc, hv, Bool.not_true, Bool.false_eq_true, if_false, if_pos (show 0x240000 + i < 2 ^ 55 by omega)]
  rw [extentSite_resident hx rfl hl (by rw [hpage]; rfl) rfl rfl, hplace]
  exact memSite_lpddr true (Nat.lt_of_lt_of_le (show _ < 0x101000 by omega) (by decide)) rfl

theorem seamEntry_overHeader : seamEntry stateOverHeader 0x100000 0 = some ⟨0, none, none, 0, 0, 0⟩ := by decide +kernel

/-- The part once the control page stands over the header. -/
def writtenOverHeader : State := putMem 0x100000 (controlPage coreOverHeader) stateOverHeader

/-- The part once the seam table has been read there. -/
def readOverHeader : State := metReads (seamReads writtenOverHeader 0x100000) writtenOverHeader

theorem writeSites_overHeader : writeSites (saveSites stateOverHeader entryOverHeader true 0x240000 4096) (controlPage coreOverHeader) none 0
    stateOverHeader = .ok true writtenOverHeader := by
  have hlen : (controlPage coreOverHeader).length = 4096 := by decide +kernel
  have hsites : saveSites stateOverHeader entryOverHeader true 0x240000 4096 = memSites 0x100000 (controlPage coreOverHeader).length :=
    sites_overHeader.trans (by rw [hlen])
  rw [hsites, writeSites_mem _ _ _ _ _ (List.ne_nil_of_length_pos (by rw [hlen]; decide)), putPhys_plain _ _ _ _ _ rfl]
  rfl

theorem finishStop_overHeader (seam : SeamEntry) : finishStop 0 entryOverHeader 0 3 seam stateOverHeader = leaveCore 0 0 3 seam.live readOverHeader := by
  have hcopies : copiesOver stateOverHeader.core = true := by decide +kernel
  have haccesses : accessesOver stateOverHeader = true := by decide +kernel
  have hfill : stateOverHeader.core.units.toList.any (fun u => u == .fill) = false := by decide +kernel
  have hqueues : queuesEmpty stateOverHeader.core = true := by decide +kernel
  have hfaults : endFaults stateOverHeader = none := by rfl
  simp only [finishStop, hcopies, haccesses, hfill, hqueues, hfaults, Bool.not_true, Bool.and_false, Bool.or_false, Bool.false_eq_true, if_false]
  rw [show stateOverHeader.core = coreOverHeader from rfl, writeSites_overHeader]
  rfl

theorem tryStop_overHeader : tryStop stateOverHeader = leaveCore 0 0 3 0 readOverHeader := by
  have hheld : heldReads stateOverHeader (seamReads stateOverHeader 0x100000) = [] := by decide +kernel
  have hseq : stateOverHeader.core.aseq = .atSeam 0 := rfl
  have hstop : stateOverHeader.core.stop = some ⟨3, 100⟩ := rfl
  have hentry : boundEntry stateOverHeader = some entryOverHeader := rfl
  have hcode : entryOverHeader.bob.code.toNat = 0x100000 := rfl
  have hv : vAtMarker stateOverHeader.core 0 false = true := rfl
  have hm : mAtMarker stateOverHeader.core 0 false = true := rfl
  have hfree : (stateOverHeader.core.inHandler || stateOverHeader.core.vtrap.isSome) = false := rfl
  have hidle : (stateOverHeader.core.mseq == .brk || stateOverHeader.core.mseq == .faulted) = false := rfl
  have hflight : stateOverHeader.core.mflight.isEmpty = true := rfl
  simp only [tryStop, hseq, hstop, hentry, hcode, hheld, seamEntry_overHeader, hfree, hidle, Option.isSome_none, hv, hm, hflight,
    List.isEmpty_nil, Bool.not_true, Bool.or_self, Bool.false_eq_true, if_false]
  exact finishStop_overHeader ⟨0, none, none, 0, 0, 0⟩

theorem afterStop_frame (slot : Nat) (cause : BitVec 4) (s : State) : (afterStop slot cause s).mem = s.mem ∧ (afterStop slot cause s).cur = s.cur := by
  unfold afterStop makeReady
  dsimp only
  split
  · exact ⟨rfl, rfl⟩
  · split <;> exact ⟨rfl, rfl⟩

/-- The end of a stop writes the record, and no memory. -/
theorem leaveCore_frame (slot : Nat) (x : BitVec 22) (cause : BitVec 4) (live : BitVec 40) (s : State) :
    (leaveCore slot x cause live s).mem = s.mem ∧ (leaveCore slot x cause live s).cur = s.cur :=
  afterStop_frame slot cause _

theorem exec_stopOverHeader : exec (.stopCompletion 0) stateOverHeader = .next (leaveCore 0 0 3 0 readOverHeader) := by
  have hcur : readOverHeader.cur = 0 := by decide +kernel
  obtain ⟨-, hleave⟩ := leaveCore_frame 0 0 3 0 readOverHeader
  rw [← tryStop_overHeader] at hleave ⊢
  exact onCoreEvent_cur rfl (hleave.trans hcur)

/-- Refutes O33: the seam table is read once more after the control page has been written. Where the control page lies on the image's header,
that read goes where s6 says, here to a poisoned line, and the event of the error is written to the ring in host memory, outside the
control page. -/
theorem not_stopCompletes : ¬ Obligations.StopCompletes := by
  intro h
  have hcanon : Canonical stateOverHeader := by
    unfold Canonical CoreCanonical
    decide +kernel
  obtain ⟨t, -, ht, -, -, -, -, -, -, -, -, -, -, -, -, -, hkept, -⟩ :=
    h stateOverHeader 0 0 ⟨3, 100⟩ entryOverHeader ⟨0, none, none, 0, 0, 0⟩ rfl hcanon rfl rfl rfl rfl seamEntry_overHeader rfl rfl (by decide)
      (by decide) rfl rfl rfl (by decide +kernel) (by decide +kernel) (by decide +kernel) rfl (by decide +kernel) rfl (by decide +kernel)
      (by decide +kernel) 0x100000 sites_overHeader
  obtain rfl := Host.Outcome.next.inj (exec_stopOverHeader.symm.trans ht)
  obtain ⟨hmem, -⟩ := leaveCore_frame 0 0 3 0 readOverHeader
  have hbefore : memGet stateOverHeader.mem hostBase = 0 := by decide +kernel
  have hafter : memGet readOverHeader.mem hostBase = 3 := by decide +kernel
  have hsame := hkept hostBase (by decide)
  rw [hmem, hbefore, hafter] at hsame
  exact absurd hsame (by decide)

end Sys2Proof.Machine
end

