-- ==== Sys2Proof/Proofs/CoreEvents.lean ====
section
/-! SUPPORT. Events of a core beside its words (R67, R72, R75, R77, R142, R267, R300, R398), and that what happens on a core leaves the selection
of cores alone (assumption 5). -/

namespace Sys2Proof.Machine

open Sys2Proof

section

variable {s : State}

/-! ## The selected core stays selected (assumption 5) -/

theorem foldl_cur {α : Type} {f : State → α → State} (hf : ∀ u x, (f u x).cur = u.cur) (l : List α) (s : State) :
    (l.foldl f s).cur = s.cur := by
  induction l generalizing s with
  | nil => rfl
  | cons x rest ih => exact (ih _).trans (hf s x)

/-- A fold of changes that leave the parked cores alone. -/
theorem foldl_parked {α : Type} {f : State → α → State} (hf : ∀ u x, (f u x).parked = u.parked) (l : List α) (s : State) :
    (l.foldl f s).parked = s.parked := by
  induction l generalizing s with
  | nil => rfl
  | cons x rest ih => exact (ih _).trans (hf s x)

theorem mem_updateFirst_const {α : Type} {p : α → Bool} {y : α} (z : α) {l : List α} (h : l.find? p = some y) :
    z ∈ updateFirst p (fun _ => z) l := by
  induction l with
  | nil => cases h
  | cons x rest ih =>
    cases hx : p x
    · rw [List.find?_cons_of_neg (by simp [hx])] at h
      simp [updateFirst, hx, ih h]
    · simp [updateFirst, hx]

/-- The selected core is in place again after what happens on another one. -/
theorem onCore_keeps_cur {c : Nat} {f : State → State} (hf : ∀ u, (f u).cur = u.cur ∧ (f u).parked = u.parked) (s : State) :
    (onCore c f s).cur = s.cur := by
  by_cases hc : c = s.cur
  · subst hc
    rw [onCore_cur f s (hf s).1, (hf s).1]
  · unfold onCore
    split
    · rename_i hk
      rw [coreAt, if_neg hc, Option.isSome_map] at hk
      obtain ⟨x, hx⟩ := Option.isSome_iff_exists.1 hk
      have hback : ((updateFirst (fun e => e.1 == c) (fun _ => (s.cur, s.core)) s.parked).find? fun e => e.1 == s.cur).isSome = true := by
        rw [List.find?_isSome]
        exact ⟨_, mem_updateFirst_const _ hx, beq_self_eq_true _⟩
      obtain ⟨y, hy⟩ := Option.isSome_iff_exists.1 hback
      have hfocus : focus c s = { s with cur := c, core := x.2, parked := updateFirst (fun e => e.1 == c) (fun _ => (s.cur, s.core)) s.parked } := by
        simp only [focus, if_neg hc, hx]
      obtain ⟨hfc, hfp⟩ := hf (focus c s)
      rw [hfocus] at hfc hfp ⊢
      unfold focus
      rw [hfc, if_neg (Ne.symm hc), hfp, hy]
    · rfl

@[simp] theorem putHost_cur (bus : Nat) (bs : List Byte) (s : State) : (putHost bus bs s).cur = s.cur := by
  unfold putHost
  generalize hostRanges bus bs.length = rs
  induction rs generalizing s bs with
  | nil => rfl
  | cons r rest ih => exact (ih _ _).trans (putMem_cur _ _ _)

@[simp] theorem metUncorr_cur (pa : Nat) (s : State) : (metUncorr pa s).cur = s.cur := by
  unfold metUncorr reportEvent
  split
  · rfl
  · split
    · rfl
    · simp only [writeEvent, sendIrq, putHost_cur]

@[simp] theorem metUncorrAt_cur (l : Nat) (own : Bool) (va : Word) (s : State) : (metUncorrAt l own va s).cur = s.cur := by
  unfold metUncorrAt
  split
  · split
    · rfl
    · exact metUncorr_cur _ _
  · rfl

@[simp] theorem takeTrap_cur (code : TrapCode) (stream : Stream) (epc eval resume : Word) (s : State) :
    (takeTrap code stream epc eval resume s).cur = s.cur := by
  have hmet : (if code == .uncorr then metUncorrAt s.core.launch true eval s else s).cur = s.cur := by
    split
    · exact metUncorrAt_cur _ _ _ _
    · rfl
  unfold takeTrap
  generalize (if code == .uncorr then metUncorrAt s.core.launch true eval s else s) = u at hmet ⊢
  dsimp only
  split
  · exact (loseStrand_cur _ _).trans hmet
  · exact hmet

@[simp] theorem settleHold_cur (slot : Nat) (s : State) : (settleHold slot s).cur = s.cur := by
  unfold settleHold
  split <;> rfl

@[simp] theorem settleHold_parked (slot : Nat) (s : State) : (settleHold slot s).parked = s.parked := by
  unfold settleHold
  split <;> rfl

@[simp] theorem requestPage_cur (back i : Nat) (s : State) : (requestPage back i s).cur = s.cur := by
  unfold requestPage
  split
  · rfl
  · split <;> rfl

@[simp] theorem serveSite_cur (s : State) (x : Site) : (serveSite s x).cur = s.cur := by
  unfold serveSite
  split
  · exact requestPage_cur _ _ _
  · refine onCore_keeps_cur (fun u => ?_) s
    exact ⟨foldl_cur (fun _ _ => settleHold_cur _ _) _ _, foldl_parked (fun _ _ => settleHold_parked _ _) _ _⟩
  · split <;> rfl
  · rfl

@[simp] theorem serveSites_cur (sites : List Site) (s : State) : (serveSites sites s).cur = s.cur := foldl_cur serveSite_cur sites s

@[simp] theorem emitStripe_cur (st : StripeOut) (again : Bool) (s : State) : (emitStripe st again s).cur = s.cur := by
  unfold emitStripe
  dsimp only
  repeat' split
  all_goals rfl

@[simp] theorem issueAccess_cur (dest : AccDest) (copy : Bool) (kind : UnitKind) (va : Word) (slot off len : Nat) (data : List Byte)
    (acq strict : Bool) (s : State) : (issueAccess dest copy kind va slot off len data acq strict s).cur = s.cur := by
  refine foldl_cur (fun u x => ?_) _ _
  unfold sendUnit sendStripe
  dsimp only
  split <;> exact emitStripe_cur _ _ _

/-! ### A word that completes, waits or traps -/

/-- The state that the end of an A word starts from. -/
def AOut.state : AOut → State
  | .done s => s
  | .jump _ s => s
  | .stall s => s
  | .trap _ _ _ s => s
  | .stay s => s

theorem finishA_cur {x : AOut} (h : x.state.cur = s.cur) : (finishA s x).cur = s.cur := by
  cases x with
  | done t => exact h
  | jump a t => exact h
  | stall t => exact h
  | trap c st v t =>
    unfold finishA
    dsimp only
    split
    · rfl
    · exact (takeTrap_cur _ _ _ _ _ _).trans h
  | stay t => exact h

theorem aWord_cur {rd : List (BitVec 6)} {ps : List (BitVec 4)} {body : State → AOut} (h : (body s).state.cur = s.cur) :
    ∃ t, aWord rd ps s body = .next t ∧ t.cur = s.cur := by
  refine ⟨_, rfl, ?_⟩
  split
  · exact finishA_cur h
  · exact finishA_cur rfl
  · exact finishA_cur rfl

theorem waitOn_cur (kind : WaitKind) (s : State) : (waitOn kind s).state.cur = s.cur := by
  unfold waitOn
  dsimp only
  split
  · split
    · exact loseStrand_cur _ _
    · rfl
  · rfl

/-- The state of a read through a peer window. -/
def PeerRead.state : PeerRead → State
  | .waiting s => s
  | .got _ s => s
  | .fault _ _ s => s

theorem peerReadA_cur (va : Word) (slot off n : Nat) (acq : Bool) (s : State) : (peerReadA va slot off n acq s).state.cur = s.cur := by
  unfold peerReadA
  split
  · rfl
  · rfl
  · split
    · rfl
    · exact issueAccess_cur _ _ _ _ _ _ _ _ _ _ _

/-- What a read answers: a wait for its sites to be served, or values and no change. -/
theorem readSites_stall_eq {kind : ReadKind} {sites : List Site} {u : State} (h : readSites kind sites s = .stall u) : u = serveSites sites s := by
  unfold readSites at h
  dsimp only at h
  split at h
  · cases h
  · split at h <;> cases h
    rfl

theorem readSites_ok_eq {kind : ReadKind} {sites : List Site} {seen : Seen} {u : State} (h : readSites kind sites s = .ok seen u) : u = s := by
  unfold readSites at h
  dsimp only at h
  split at h
  · cases h
  · split at h <;> cases h
    rfl

theorem execWaitM_cur (d a : BitVec 6) (size : MemSize) (s : State) : ∃ t, execWaitM d a size s = .next t ∧ t.cur = s.cur := by
  have hfinish (seen : Seen) (e : Nat) (u : State) (hu : u.cur = s.cur) :
      (AOut.state (if seen.miss.any id then .done (waitOver (setP 14 true (setS d 0 u)))
        else if leNat seen.bytes ≠ e then .done (waitOver (setP 14 false (setS d (w64 (leNat seen.bytes)) u)))
        else waitOn .waitM u)).cur = s.cur := by
    split
    · exact hu
    · split
      · exact hu
      · exact (waitOn_cur _ _).trans hu
  refine aWord_cur ?_
  dsimp only
  split
  · rfl
  · split
    · rfl
    · split
      · rename_i slot o _
        have hread := peerReadA_cur (getS s a) slot o size.bytes true s
        split <;> rename_i hr <;> rw [hr] at hread
        · exact (waitOn_cur _ _).trans hread
        · exact hread
        · exact hfinish _ _ _ hread
      · split
        · rfl
        · split
          · rfl
          · rename_i hr
            rw [readSites_stall_eq hr]
            exact serveSites_cur _ _
          · rename_i hr
            exact hfinish _ _ _ (by rw [readSites_ok_eq hr])

end

section

variable {s : State} {c : BitVec 8} {slot : Nat} {e : PoolEntry}

/-! ## Stop timeouts (R72, R267) -/

theorem stopLate_cur (s : State) : (stopLate s).cur = s.cur := by
  unfold stopLate
  dsimp only
  split
  · exact loseStrand_cur _ _
  · rfl

theorem stopLate_due {r : StopReq} (hk : s.core.slot = some slot) (hs : s.core.stop = some r) (hd : r.due ≤ s.time)
    (hh : s.core.inHandler = false) : stopLate s = loseStrand .seamIntegrity s := by
  simp [stopLate, hk, hs, hd, hh]

theorem stopLate_none (hs : s.core.stop = none) (hx : s.core.exitDue = none) : stopLate s = s := by
  simp [stopLate, hs, hx]

/-! ## Monitors (R67, R75) -/

theorem poolEntry_makeReady (h : poolEntry s slot = some e) :
    ∃ e', poolEntry (makeReady slot s) slot = some e' ∧ e'.bob.state = .ready := by
  refine ⟨{ e with place := s.nextPlace, since := s.time, covered := none, progress := none, bob := { e.bob with state := .ready } }, ?_, rfl⟩
  show poolEntry (updEntry slot _ s) slot = _
  rw [poolEntry_updEntry (by exact fun _ => rfl), h]
  rfl

/-- A write to the line of a bobbin in WATCH: its monitor is given up, and it is READY. -/
theorem exec_monitorWake {m : Monitor} (he : poolEntry s slot = some e) (hw : e.bob.state = .watch) (hm : m ∈ s.monitors) (hs : m.slot = slot)
    (hwr : m.written = true) : exec (.monitorWake slot) s = .next (makeReady slot (dropMonitor slot s)) := by
  have hany : (s.monitors.any fun m => m.slot == slot && m.written) = true := List.any_eq_true.2 ⟨m, hm, by simp [hs, hwr]⟩
  have hdrop : poolEntry (dropMonitor slot s) slot = some e := he
  show execMonitorWake slot s = _
  simp [execMonitorWake, wake, hany, he, hw, hdrop]

/-! ## WAIT.M reads again (R77) -/

theorem recheck_waitM {w : BitVec 32} {d a : BitVec 6} {size : MemSize} (hr : s.core.aseq = .running) (hk : s.core.slot.isSome = true)
    (hv : s.core.vtrap = none) (hw : fetchA s.core = some w) (hd : decodeA w = .ok (.waitM d a size)) :
    recheck s = outState s (execWaitM d a size s) := by
  have hgo : (s.core.aseq != .running || s.core.slot.isNone || s.core.vtrap.isSome) = false := by
    obtain ⟨n, hn⟩ := Option.isSome_iff_exists.1 hk
    rw [hr, hn, hv]
    rfl
  simp only [recheck, hgo, hw, Option.map_some, hd, Bool.false_eq_true, if_false]

theorem recheck_idle (h : s.core.aseq ≠ .running ∨ s.core.slot = none ∨ s.core.vtrap.isSome = true) : recheck s = s := by
  have hno : (s.core.aseq != .running || s.core.slot.isNone || s.core.vtrap.isSome) = true := by
    rcases h with h | h | h <;> simp [h]
  simp only [recheck, hno, if_true]

theorem exec_waitMRecheck {w : BitVec 32} {d a : BitVec 6} {size : MemSize} (hc : c.toNat = s.cur) (hr : s.core.aseq = .running)
    (hk : s.core.slot.isSome = true) (hv : s.core.vtrap = none) (hw : fetchA s.core = some w) (hd : decodeA w = .ok (.waitM d a size)) :
    exec (.waitMRecheck c) s = exec (.waitM d a size) s := by
  obtain ⟨t, ht, hcur⟩ := execWaitM_cur d a size s
  have hrecheck : recheck s = t := by
    rw [recheck_waitM hr hk hv hw hd, ht]
    rfl
  show onCoreEvent c recheck s = execWaitM d a size s
  rw [onCoreEvent_cur hc (by rw [hrecheck, hcur]), hrecheck, ht]

/-! ## A core goes offline (R300) -/

theorem takeOffline_bound (hk : s.core.slot = some slot) (he : poolEntry s slot = some e) (hheld : s.core.held = []) :
    ∃ k : Core, takeOffline s = { loseBobbin slot .uncorr s with core := { k.unbind with claimed := none, offline := true } } := by
  have hcore : (loseBobbin slot .uncorr s).core = { s.core.unbind with claimed := none, held := s.core.held.filter fun h => h.owner != slot } :=
    (loseBobbin_core he).trans (Core.without_bound hk)
  have hnone : onlyHere (loseBobbin slot .uncorr s) = [] := by
    simp only [onlyHere, hcore, hheld, Option.bind_none, Option.filter_none, Option.toList_none, List.filter_nil, List.map_nil, List.append_nil,
      List.eraseDups_nil]
  refine ⟨(loseBobbin slot .uncorr s).core, ?_⟩
  simp only [takeOffline, hk, hnone, List.foldl_nil]

/-! ## Temperature samples (R142, R398) -/

theorem emergencyAt_cool (p : Power) {x : BitVec 16} (hx : x.toNat ≤ 1840) : p.emergencyAt x = p := by
  unfold Power.emergencyAt
  rw [if_pos (show x ≤ 1840 from hx)]

theorem emergencyAt_hot (p : Power) {x : BitVec 16} (hx : 1840 < x.toNat) :
    p.emergencyAt x = { p with emergency := true, mx := p.mx.heatTo 500, vx := p.vx.heatTo 500, vault := p.vault.heatTo 500 } := by
  unfold Power.emergencyAt
  rw [if_neg (show ¬x ≤ 1840 from Nat.not_le.2 hx)]

theorem exec_temperatureSample (hc : c.toNat = s.cur) (x : BitVec 16) :
    exec (.temperatureSample c x) s =
      .next { s with core := { s.core with ctemp := x.zeroExtend 64 }, power := s.power.emergencyAt x } := by
  show execTemperatureSample c x s = _
  unfold execTemperatureSample
  rw [hc, coreAt_cur]
  dsimp only
  rw [onCore_cur _ s rfl]
  rfl

/-- Settles O34, event by event. -/
theorem coreEvents : Obligations.CoreEvents := by
  intro s c hc
  refine ⟨?_, ?_, ?_, ?_, ?_, ?_, ?_⟩
  · intro r e hk he hs hd hh
    obtain ⟨hcore, e', he', hlost⟩ := loseStrand_bound (code := .seamIntegrity) hk he
    obtain ⟨hslot, -⟩ := Core.without_hasNoStrand hk
    refine ⟨stopLate s, e', onCoreEvent_cur hc (stopLate_cur s), ?_⟩
    rw [stopLate_due hk hs hd hh]
    exact ⟨hcore ▸ hslot, he', hlost⟩
  · intro hs hx
    have hsame := stopLate_none hs hx
    exact (onCoreEvent_cur hc (stopLate_cur s)).trans (congrArg _ hsame)
  · intro e m he hw hm hslot hwr
    obtain ⟨e', he', hready⟩ := poolEntry_makeReady (s := dropMonitor e.slot s) he
    refine ⟨_, e', exec_monitorWake he hw hm hslot hwr, he', hready, fun x hx => ?_⟩
    simpa using (List.mem_filter.1 hx).2
  · intro w d a size hr hk hv hw hd
    have hsame := exec_waitMRecheck hc hr hk hv hw hd
    refine ⟨hsame, fun h hal hwatch hp hl seen hread => ⟨fun hm => ?_, fun hm hx => ?_⟩⟩
    · exact hsame.trans (exec_waitM_missing h hal hwatch hp hl hread hm)
    · exact hsame.trans (exec_waitM_changed h hal hwatch hp hl hread hm hx)
  · intro hno
    have hsame := recheck_idle hno
    exact (onCoreEvent_cur (f := recheck) hc (congrArg State.cur hsame)).trans (congrArg _ hsame)
  · intro e hk he hheld _
    obtain ⟨k, hoff⟩ := takeOffline_bound hk he hheld
    obtain ⟨e', he', hlost⟩ := loseBobbin_record (code := .uncorr) he
    refine ⟨takeOffline s, e', onCoreEvent_cur hc ?_, ?_⟩
    · rw [hoff]
      exact loseBobbin_cur _ _ _
    · rw [hoff]
      exact ⟨rfl, rfl, he', hlost⟩
  · intro x
    refine ⟨_, exec_temperatureSample hc x, rfl, fun hx => ?_, fun hx => ?_⟩
    · exact emergencyAt_cool s.power hx
    · show (s.power.emergencyAt x).emergency = true ∧ _
      rw [emergencyAt_hot s.power hx]
      exact ⟨rfl, rfl, rfl, rfl⟩

end

end Sys2Proof.Machine
end

