-- ==== Sys2Proof/Proofs/Distribution.lean ====
section
/-! SUPPORT. Cores changed out of place (assumption 5), the distributor's selection (R65, R68, R280), and the stops that the scheduler posts (R80, R281 to
R284). -/

namespace Sys2Proof.Machine

open Sys2Proof

section

variable {s : State} {c : Nat} {k : Core}

/-! ## The record of least rank -/

theorem leastBy_spec {α : Type} {r : α → Nat} {l : List α} {x : α} (h : leastBy r l = some x) :
    x ∈ l ∧ ∀ y ∈ l, r x ≤ r y := by
  induction l generalizing x with
  | nil => cases h
  | cons z rest ih =>
    unfold leastBy at h
    split at h
    · rename_i hnone
      cases rest with
      | nil =>
        cases h
        simp
      | cons a l => exact absurd hnone (by unfold leastBy; split <;> [simp; (split <;> simp)])
    · rename_i w hw
      obtain ⟨hmem, hle⟩ := ih hw
      split at h <;> cases h
      · rename_i hzw
        exact ⟨.head _, fun y hy => by
          rcases List.mem_cons.1 hy with rfl | hy
          · exact le_refl _
          · exact hzw.trans (hle y hy)⟩
      · rename_i hzw
        exact ⟨.tail _ hmem, fun y hy => by
          rcases List.mem_cons.1 hy with rfl | hy
          · exact (not_le.1 hzw).le
          · exact hle y hy⟩

theorem leastBy_isSome {α : Type} {r : α → Nat} {l : List α} {x : α} (hx : x ∈ l) : ∃ y, leastBy r l = some y := by
  cases l with
  | nil => cases hx
  | cons z rest =>
    unfold leastBy
    split
    · exact ⟨_, rfl⟩
    · split <;> exact ⟨_, rfl⟩

/-- What is taken from the record of least rank, where all records that may be it agree on that. -/
theorem leastBy_map {α β : Type} {r : α → Nat} {g : α → β} {l : List α} {x : α} (hx : x ∈ l)
    (h : ∀ y ∈ l, r x < r y ∨ g y = g x) :
    (leastBy r l).map g = some (g x) := by
  obtain ⟨y, hy⟩ := leastBy_isSome (r := r) hx
  obtain ⟨hmem, hle⟩ := leastBy_spec hy
  rw [hy]
  exact congrArg some ((h y hmem).resolve_left (not_lt.2 (hle x hx)))

theorem leastBy_unique {α : Type} {r : α → Nat} {l : List α} {x : α} (hx : x ∈ l) (h : ∀ y ∈ l, r x < r y ∨ y = x) :
    leastBy r l = some x := by
  simpa using leastBy_map (g := id) hx h

/-! ## Cores in place and parked (assumption 5) -/

/-- Each core has one place. -/
def OnePlace (s : State) : Prop := (s.parked.map (·.1)).Nodup ∧ s.cur ∉ s.parked.map (·.1)

theorem mem_allCores (h : coreAt s c = some k) : (c, k) ∈ allCores s := by
  unfold coreAt at h
  split at h
  · rename_i hc
    cases h
    subst hc
    exact .head _
  · obtain ⟨x, hx, rfl⟩ := Option.map_eq_some_iff.1 h
    have hkey : x.1 = c := by simpa using List.find?_some hx
    subst hkey
    exact .tail _ (List.mem_of_find?_eq_some hx)

theorem coreAt_of_mem (hs : OnePlace s) (h : (c, k) ∈ allCores s) : coreAt s c = some k := by
  obtain ⟨hnodup, hcur⟩ := hs
  rcases List.mem_cons.1 h with heq | hmem
  · cases heq
    exact coreAt_cur s
  · have hne : c ≠ s.cur := fun heq => hcur (heq ▸ List.mem_map_of_mem (f := (·.1)) hmem)
    have hfound : (s.parked.find? fun e => e.1 == c).isSome = true := List.find?_isSome.2 ⟨_, hmem, beq_self_eq_true c⟩
    obtain ⟨x, hx⟩ := Option.isSome_iff_exists.1 hfound
    have hkey : x.1 = c := by simpa using List.find?_some hx
    have hsame := List.inj_on_of_nodup_map hnodup (List.mem_of_find?_eq_some hx) hmem hkey
    rw [coreAt, if_neg hne, hx, hsame]
    rfl

theorem updateFirst_updateFirst {α : Type} {p q : α → Bool} {f : α → α} {y : α} (hq : q y = true) (l : List α)
    (h : ∀ x ∈ l, q x = false) :
    updateFirst q f (updateFirst p (fun _ => y) l) = updateFirst p (fun _ => f y) l := by
  induction l with
  | nil => rfl
  | cons x rest ih =>
    obtain ⟨hx, hrest⟩ := List.forall_mem_cons.1 h
    cases hp : p x
    · simp [updateFirst, hp, hx, ih hrest]
    · simp [updateFirst, hp, hq]

/-- A record that alone meets `q` is found where it has been put. -/
theorem find?_updateFirst_new {α : Type} {p q : α → Bool} {y : α} {l : List α} (hp : (l.find? p).isSome = true) (hq : q y = true)
    (h : ∀ x ∈ l, q x = false) : (updateFirst p (fun _ => y) l).find? q = some y := by
  induction l with
  | nil => cases hp
  | cons x rest ih =>
    obtain ⟨hx, hrest⟩ := List.forall_mem_cons.1 h
    cases hpx : p x
    · rw [List.find?_cons_of_neg (by simp [hpx])] at hp
      simp [updateFirst, hpx, hx, ih hp hrest]
    · simp [updateFirst, hpx, hq]

theorem find?_updateFirst_other {α : Type} {p q : α → Bool} {f : α → α} {l : List α}
    (h : ∀ x ∈ l, p x = true → q x = false ∧ q (f x) = false) :
    (updateFirst p f l).find? q = l.find? q := by
  induction l with
  | nil => rfl
  | cons x rest ih =>
    obtain ⟨hx, hrest⟩ := List.forall_mem_cons.1 h
    cases hp : p x
    · simp [updateFirst, hp, List.find?_cons, ih hrest]
    · obtain ⟨h1, h2⟩ := hx hp
      simp [updateFirst, hp, h1, h2]

/-- A parked core is changed where it stands. -/
theorem onCore_parked {g : Core → Core} (hc : c ≠ s.cur) (hk : coreAt s c = some k) (hcur : s.cur ∉ s.parked.map (·.1)) :
    onCore c (withCore g) s = { s with parked := updateFirst (fun e => e.1 == c) (fun _ => (c, g k)) s.parked } := by
  have hfind : ∃ n, s.parked.find? (fun e => e.1 == c) = some (n, k) := by
    rw [coreAt, if_neg hc] at hk
    obtain ⟨x, hx, rfl⟩ := Option.map_eq_some_iff.1 hk
    exact ⟨x.1, hx⟩
  obtain ⟨n, hn⟩ := hfind
  have hnone : ∀ x ∈ s.parked, (x.1 == s.cur) = false := fun x hx =>
    beq_eq_false_iff_ne.2 fun heq => hcur (heq ▸ List.mem_map_of_mem (f := (·.1)) hx)
  have hback : (updateFirst (fun e => e.1 == c) (fun _ => (s.cur, s.core)) s.parked).find? (fun e => e.1 == s.cur) = some (s.cur, s.core) :=
    find?_updateFirst_new (by rw [hn]; rfl) (beq_self_eq_true s.cur) hnone
  have hfocus : focus c s = { s with cur := c, core := k, parked := updateFirst (fun e => e.1 == c) (fun _ => (s.cur, s.core)) s.parked } := by
    simp only [focus, if_neg hc, hn]
  simp only [onCore, hk, Option.isSome_some, if_true, hfocus]
  have hplace : updateFirst (fun e : Nat × Core => e.1 == s.cur) (fun _ => (c, g k))
      (updateFirst (fun e => e.1 == c) (fun _ => (s.cur, s.core)) s.parked) =
      updateFirst (fun e => e.1 == c) (fun _ => (c, g k)) s.parked :=
    updateFirst_updateFirst (q := fun e : Nat × Core => e.1 == s.cur) (beq_self_eq_true s.cur) _ hnone
  simp only [focus, withCore, if_neg (Ne.symm hc), hback, hplace]

/-- A core is changed, and no other core, wherever it stands. -/
theorem onCore_withCore (g : Core → Core) (hk : coreAt s c = some k) (hcur : s.cur ∉ s.parked.map (·.1)) :
    coreAt (onCore c (withCore g) s) c = some (g k) ∧ (∀ c', c' ≠ c → coreAt (onCore c (withCore g) s) c' = coreAt s c') ∧
      (onCore c (withCore g) s).mem = s.mem ∧ (onCore c (withCore g) s).pool = s.pool := by
  by_cases hc : c = s.cur
  · subst hc
    have hcore : s.core = k := Option.some.inj ((coreAt_cur s).symm.trans hk)
    rw [onCore_cur _ s rfl]
    refine ⟨by rw [← hcore]; exact coreAt_cur _, fun c' hne => ?_, rfl, rfl⟩
    show (if c' = s.cur then _ else _) = _
    rw [coreAt, if_neg hne, if_neg hne]
    rfl
  · rw [onCore_parked hc hk hcur]
    have hfind : ∃ x, s.parked.find? (fun e => e.1 == c) = some x := by
      rw [coreAt, if_neg hc] at hk
      obtain ⟨x, hx, -⟩ := Option.map_eq_some_iff.1 hk
      exact ⟨x, hx⟩
    obtain ⟨x, hx⟩ := hfind
    refine ⟨?_, fun c' hne => ?_, rfl, rfl⟩
    · simp only [coreAt, if_neg hc, find?_updateFirst (p := fun e : Nat × Core => e.1 == c) (f := fun _ => (c, g k)) (by simp), hx]
      rfl
    · have hsame : (updateFirst (fun e => e.1 == c) (fun _ => (c, g k)) s.parked).find? (fun e => e.1 == c') = s.parked.find? fun e => e.1 == c' :=
        find?_updateFirst_other fun y _ hy => by
          have hy : y.1 = c := by simpa using hy
          simp [hy, Ne.symm hne]
      simp only [coreAt, hsame]

end

section

variable {s : State} {c : Nat} {k : Core} {e : PoolEntry}

/-! ## Slots with a reserved STATE (R65) -/

theorem exec_distributorSelection_reserved (h : s.pool.find? (fun x => x.bob.state.isReserved) = some e) :
    exec .distributorSelection s = .next (settleReserved e s) := by
  show execDistributorSelection s = _
  simp only [execDistributorSelection, h]

theorem settleReserved_active (he : poolEntry s e.slot = some e) (h : ∃ l ∈ s.launches, l.q = e.bob.qid) :
    ∃ e', poolEntry (settleReserved e s) e.slot = some e' ∧ e'.bob.state = .lost ∧ (settleReserved e s).mem = s.mem := by
  obtain ⟨l, hl, hq⟩ := h
  have hany : (s.launches.any fun l => l.q == e.bob.qid) = true := List.any_eq_true.2 ⟨l, hl, beq_iff_eq.2 hq⟩
  obtain ⟨e', he', hlost, -⟩ := loseWith_record (code := TrapCode.all[Config.reservedFault s.freshVal].code) he
  rw [settleReserved, if_pos hany]
  exact ⟨e', he', hlost, loseWith_mem _ _ _⟩

theorem settleReserved_inactive (h : ∀ l ∈ s.launches, l.q ≠ e.bob.qid) :
    settleReserved e s = { s with pool := s.pool.filter fun x => x.slot ≠ e.slot } := by
  have hany : (s.launches.any fun l => l.q == e.bob.qid) = false := List.any_eq_false.2 fun l hl => by simpa using h l hl
  have hfilter : (s.pool.filter fun x => x.slot != e.slot) = s.pool.filter fun x => x.slot ≠ e.slot :=
    List.filter_congr fun x _ => by simp only [bne, beq_eq_decide, decide_not, ne_eq]
  rw [settleReserved, hany, hfilter]
  rfl

/-! ## The front bobbin (R68, R280) -/

/-- The READY bobbin `e` stands before every other. -/
def IsFront (s : State) (e : PoolEntry) : Prop :=
  ∀ x ∈ s.pool, x.bob.state = .ready → x = e ∨ x.bob.pri < e.bob.pri ∨ (x.bob.pri = e.bob.pri ∧ e.place < x.place)

theorem rankOf_lt {x : PoolEntry} (he : e.place < 2 ^ 64) (h : x.bob.pri < e.bob.pri ∨ (x.bob.pri = e.bob.pri ∧ e.place < x.place)) :
    rankOf e < rankOf x := by
  have hlt : e.bob.pri.toNat < 128 := e.bob.pri.isLt
  rcases h with h | ⟨h, hplace⟩
  · have h : x.bob.pri.toNat < e.bob.pri.toNat := h
    unfold rankOf
    omega
  · unfold rankOf
    rw [h]
    omega

theorem mem_readyBobbins {x : PoolEntry} : x ∈ readyBobbins s ↔ x ∈ s.pool ∧ x.bob.state = .ready := by
  simp [readyBobbins]

theorem front_selected (he : e ∈ s.pool) (hready : e.bob.state = .ready) (hplace : e.place < 2 ^ 64) (hfront : IsFront s e) :
    leastBy rankOf (readyBobbins s) = some e :=
  leastBy_unique (mem_readyBobbins.2 ⟨he, hready⟩) fun x hx => by
    obtain ⟨hmem, hr⟩ := mem_readyBobbins.1 hx
    exact (hfront x hmem hr).symm.imp_left (rankOf_lt hplace)

/-- The selection takes the front bobbin, where a core is idle. -/
theorem exec_distributorSelection_front (he : e ∈ s.pool) (hready : e.bob.state = .ready) (hplace : e.place < 2 ^ 64) (hfront : IsFront s e)
    (hres : ∀ x ∈ s.pool, x.bob.state.isReserved = false) (hu : unclaimed s = none) :
    exec .distributorSelection s = .next (((chooseCore s e.bob).map fun c => selectFor e c s).getD s) := by
  have hnone : s.pool.find? (fun x => x.bob.state.isReserved) = none := List.find?_eq_none.2 fun x hx => by simp [hres x hx]
  show execDistributorSelection s = _
  simp only [execDistributorSelection, hnone, hu, selectNext, front_selected he hready hplace hfront]
  cases chooseCore s e.bob <;> rfl

/-! ## The core that is claimed (R280) -/

theorem mem_idleCores (hs : OnePlace s) {x : Nat × Core} : x ∈ idleCores s ↔ coreAt s x.1 = some x.2 ∧ x.2.isIdle = true := by
  rw [idleCores, List.mem_filter]
  exact and_congr_left fun _ => ⟨fun h => coreAt_of_mem hs h, mem_allCores⟩

theorem idleCores_eq_nil (h : ∀ c ∈ allCores s, c.2.isIdle = false) : idleCores s = [] :=
  List.filter_eq_nil_iff.2 fun c hc => by simp [h c hc]

theorem chooseCore_none (h : ∀ c ∈ allCores s, c.2.isIdle = false) (b : Bobbin) : chooseCore s b = none := by
  unfold chooseCore
  rw [idleCores_eq_nil h]
  cases imageAt s b.code.toNat <;> rfl

/-- The lowest-numbered core of a list. -/
theorem leastCore {l : List (Nat × Core)} (hmem : (c, k) ∈ l) (hle : ∀ x ∈ l, c ≤ x.1) : (leastBy (·.1) l).map (·.1) = some c :=
  leastBy_map (r := (·.1)) (g := (·.1)) hmem fun x hx => (lt_or_eq_of_le (hle x hx)).imp_right Eq.symm

theorem chooseCore_held (hs : OnePlace s) (hk : coreAt s c = some k) (hi : k.isIdle = true) {b : Bobbin} (hc : c = b.hold.toNat) :
    chooseCore s b = some c := by
  have hany : (idleCores s).any (fun x => x.1 == b.hold.toNat) = true :=
    List.any_eq_true.2 ⟨(c, k), (mem_idleCores hs).2 ⟨hk, hi⟩, beq_iff_eq.2 hc⟩
  simp only [chooseCore, hany, if_true, hc]

section
variable {b : Bobbin} (hs : OnePlace s) (hheld : ∀ k', coreAt s b.hold.toNat = some k' → k'.isIdle = false)
  (hk : coreAt s c = some k) (hi : k.isIdle = true)
include hs hheld

/-- No idle core holds the frames of the bobbin. -/
theorem hold_not_idle : (idleCores s).any (fun x => x.1 == b.hold.toNat) = false :=
  List.any_eq_false.2 fun x hx heq => by
    obtain ⟨hat, hidle⟩ := (mem_idleCores hs).1 hx
    rw [beq_iff_eq.1 heq] at hat
    exact absurd hidle (by simp [hheld _ hat])

include hk hi

theorem chooseCore_image {i : Image} (himg : imageAt s b.code.toNat = some i) (hholds : k.holdsImage b.code i.gen = true)
    (hle : ∀ c' k', coreAt s c' = some k' → k'.isIdle = true → k'.holdsImage b.code i.gen = true → c ≤ c') : chooseCore s b = some c := by
  have hleast : (leastBy (·.1) ((idleCores s).filter fun x => x.2.holdsImage b.code i.gen)).map (·.1) = some c :=
    leastCore (k := k) (List.mem_filter.2 ⟨(mem_idleCores hs).2 ⟨hk, hi⟩, hholds⟩) fun x hx => by
      obtain ⟨hx, hxi⟩ := List.mem_filter.1 hx
      obtain ⟨hat, hidle⟩ := (mem_idleCores hs).1 hx
      exact hle x.1 x.2 hat hidle hxi
  simp only [chooseCore, hold_not_idle hs hheld, himg, hleast, Bool.false_eq_true, if_false, Option.some_or]

theorem chooseCore_lowest
    (hno : ∀ i, imageAt s b.code.toNat = some i → ∀ c' k', coreAt s c' = some k' → k'.isIdle = true → k'.holdsImage b.code i.gen = false)
    (hle : ∀ c' k', coreAt s c' = some k' → k'.isIdle = true → c ≤ c') : chooseCore s b = some c := by
  have hleast : (leastBy (·.1) (idleCores s)).map (·.1) = some c :=
    leastCore (k := k) ((mem_idleCores hs).2 ⟨hk, hi⟩) fun x hx => by
      obtain ⟨hat, hidle⟩ := (mem_idleCores hs).1 hx
      exact hle x.1 x.2 hat hidle
  cases himg : imageAt s b.code.toNat with
  | none => simp only [chooseCore, hold_not_idle hs hheld, himg, hleast, Bool.false_eq_true, if_false]
  | some i =>
    have hnil : ((idleCores s).filter fun x => x.2.holdsImage b.code i.gen) = [] := List.filter_eq_nil_iff.2 fun x hx => by
      obtain ⟨hat, hidle⟩ := (mem_idleCores hs).1 hx
      simp [hno i himg x.1 x.2 hat hidle]
    simp only [chooseCore, hold_not_idle hs hheld, himg, hnil, hleast, Bool.false_eq_true, if_false]
    rfl
end

/-- The bobbin is SELECTED, and the core claimed for it. -/
theorem selectFor_spec (he : poolEntry s e.slot = some e) (hk : coreAt s c = some k) (hcur : s.cur ∉ s.parked.map (·.1)) :
    poolEntry (selectFor e c s) e.slot = some { e with covered := none, progress := none, bob := { e.bob with state := .selected } } ∧
      coreAt (selectFor e c s) c = some { k with claimed := some e.slot, selPri := e.bob.pri } ∧
      (∀ c', c' ≠ c → coreAt (selectFor e c s) c' = coreAt s c') ∧ (selectFor e c s).mem = s.mem := by
  obtain ⟨hcore, hothers, hmem, hpool⟩ := onCore_withCore
    (s := updEntry e.slot (fun e => { e with covered := none, progress := none, bob := { e.bob with state := .selected } }) s)
    (fun k => { k with claimed := some e.slot, selPri := e.bob.pri }) hk hcur
  refine ⟨?_, hcore, hothers, hmem⟩
  rw [selectFor, claimCore, poolEntry_congr hpool, poolEntry_updEntry (by exact fun _ => rfl), he]
  rfl

/-! ## Posted stops (R281, R282) -/

/-- On core `c` the strand of lowest priority below `p` runs, without a stop pending. -/
def IsLowest (s : State) (p c : Nat) (k : Core) : Prop :=
  coreAt s c = some k ∧ k.slot.isSome = true ∧ k.stop = none ∧ k.selPri.toNat < p ∧
    ∀ c' k', (c', k') ∈ allCores s → k'.slot.isSome = true → k'.stop = none → k'.selPri.toNat < p →
      k.selPri < k'.selPri ∨ (k.selPri = k'.selPri ∧ c ≤ c')

theorem mem_stoppableBelow {p : Nat} {x : Nat × Core} : x ∈ (stoppable s).filter (fun c => c.2.selPri.toNat < p) ↔
    x ∈ allCores s ∧ x.2.slot.isSome = true ∧ x.2.stop = none ∧ x.2.selPri.toNat < p := by
  simp [stoppable]
  tauto

theorem victim_lowest {p : Nat} (hnum : ∀ x ∈ allCores s, x.1 < 256) (h : IsLowest s p c k) : victim s p = some c := by
  obtain ⟨hk, hslot, hstop, hp, hle⟩ := h
  have hc : (c, k) ∈ allCores s := mem_allCores hk
  refine leastBy_map (g := (·.1)) (x := (c, k)) (mem_stoppableBelow.2 ⟨hc, hslot, hstop, hp⟩) fun x hx => ?_
  obtain ⟨hx, hxslot, hxstop, hxp⟩ := mem_stoppableBelow.1 hx
  have hlt : c < 256 := hnum _ hc
  rcases hle x.1 x.2 hx hxslot hxstop hxp with hpri | ⟨hpri, hcx⟩
  · have hpri : k.selPri.toNat < x.2.selPri.toNat := hpri
    left
    show k.selPri.toNat * 256 + c < x.2.selPri.toNat * 256 + x.1
    omega
  · show k.selPri.toNat * 256 + c < x.2.selPri.toNat * 256 + x.1 ∨ x.1 = c
    rw [hpri]
    omega

theorem exec_expressPreemption (he : e ∈ s.pool) (hready : e.bob.state = .ready) (hpri : e.bob.pri = 127)
    (honly : ∀ x ∈ s.pool, x.bob.state = .ready → x.bob.pri = 127 → x = e) (hcov : stopPending s e.covered = false)
    (hidle : ∀ c ∈ allCores s, c.2.isIdle = false) (hv : victim s 127 = some c) :
    exec .expressPreemption s = .next (postOn c 1 (updEntry e.slot (fun e => { e with covered := some c }) s)) := by
  have hleast : leastBy rankOf ((readyBobbins s).filter fun e => e.bob.pri == 127 && !stopPending s e.covered) = some e :=
    leastBy_unique (List.mem_filter.2 ⟨mem_readyBobbins.2 ⟨he, hready⟩, by simp [hpri, hcov]⟩) fun x hx => by
      obtain ⟨hx, hkind⟩ := List.mem_filter.1 hx
      obtain ⟨hmem, hxready⟩ := mem_readyBobbins.1 hx
      obtain ⟨hxpri, -⟩ := (Bool.and_eq_true _ _).mp hkind
      exact .inr (honly x hmem hxready (by simpa using hxpri))
  show execExpressPreemption s = _
  simp only [execExpressPreemption, hleast, idleCores_eq_nil hidle, hv, List.isEmpty_nil, Bool.not_true, Bool.false_eq_true, if_false]

theorem exec_starvationPreemption (he : poolEntry s e.slot = some e) (hready : e.bob.state = .ready) (hpri : e.bob.pri ≠ 127)
    (hdue : e.since + 1000 * s.starv.toNat ≤ s.time) (hidle : ∀ c ∈ allCores s, c.2.isIdle = false)
    (hv : victim s e.bob.pri.toNat = some c) :
    exec (.starvationPreemption e.slot) s = .next (postOn c 2 (updEntry e.slot (fun e => { e with since := s.time }) s)) := by
  show execStarvationPreemption e.slot s = _
  simp only [execStarvationPreemption, micros, he, hready, bne_self_eq_false, beq_eq_false_iff_ne.2 hpri, not_lt.2 hdue, decide_false,
    idleCores_eq_nil hidle, hv, List.isEmpty_nil, Bool.not_true, Bool.or_false, Bool.false_eq_true, if_false]

theorem exec_starvationPreemption_early (he : poolEntry s e.slot = some e) (hearly : s.time < e.since + 1000 * s.starv.toNat) :
    exec (.starvationPreemption e.slot) s = .next s := by
  show execStarvationPreemption e.slot s = _
  simp [execStarvationPreemption, micros, he, hearly]

/-! ## Stops of the progress rule (R80, R283) -/

theorem exec_progressStop {cause : BitVec 4} (he : poolEntry s e.slot = some e) (hready : e.bob.state = .ready)
    (hpend : stopPending s e.progress = false) (hw : longestWait s e.bob.pri = some (c, cause)) :
    exec (.progressStop e.slot) s =
      .next (postOn c cause (updEntry e.slot (fun e => { e with progress := some c, since := s.time }) s)) := by
  show execProgressStop e.slot s = _
  simp [execProgressStop, he, hready, hpend, hw]

/-- The wait that the progress rule ends is a strand's own, long enough and of no higher priority. -/
theorem longestWait_eligible {p : BitVec 7} {cause : BitVec 4} (hs : OnePlace s) (h : longestWait s p = some (c, cause)) :
    ∃ k since, coreAt s c = some k ∧ k.slot.isSome = true ∧ k.selPri ≤ p ∧ coveredWait k = some (since, cause) ∧
      since + 1000 * s.prog.toNat ≤ s.time := by
  obtain ⟨w, hw, hwc⟩ := Option.map_eq_some_iff.1 h
  obtain ⟨x, hx, hxw⟩ := List.mem_filterMap.1 (leastBy_spec hw).1
  obtain ⟨hmem, hslot⟩ := List.mem_filter.1 hx
  split at hxw
  · rename_i since cause' hwait
    split at hxw
    · rename_i hok
      cases hxw
      cases hwc
      obtain ⟨hpri, hdue⟩ := (Bool.and_eq_true _ _).mp hok
      exact ⟨x.2, since, coreAt_of_mem hs hmem, hslot, of_decide_eq_true hpri, hwait, of_decide_eq_true hdue⟩
    · cases hxw
  · cases hxw

/-- A stop posted on the selected core, for a strand that has none pending (R72). -/
theorem postOn_selected {slot : Nat} (hc : s.cur = c) (hk : s.core.slot = some slot) (hs : s.core.stop = none) (hm : s.core.mseq ≠ .faulted)
    (cause : BitVec 4) : postOn c cause s = noteDie 4 1 { s with
      core := { s.core with stop := some ⟨cause, s.time + 2000000⟩ }
      pool := updateFirst (fun x => x.slot == slot) (fun x => { x with bob := { x.bob with state := .stopping } }) s.pool } := by
  have hpost := postStop_first hk hm hs cause
  have hcur : (postStop cause s).cur = s.cur := by rw [hpost]; rfl
  rw [postOn, ← hc, onCore_cur _ _ hcur, hpost]

end

/-- Settles O35: the front bobbin is the only one of least rank, and the claimed core the only one that the order of R280 leaves. -/
theorem distributionAndPostedStops : Obligations.DistributionAndPostedStops := by
  refine ⟨⟨fun s r hfind hr => ⟨fun hactive => ?_, fun hinactive => ?_⟩, ?_⟩, ?_⟩
  · obtain ⟨e', he', hlost, hmem⟩ := settleReserved_active hr hactive
    exact ⟨_, e', exec_distributorSelection_reserved hfind, he', hlost, hmem⟩
  · rw [exec_distributorSelection_reserved hfind, settleReserved_inactive hinactive]
  · intro s e hmem he hready hplace hres hu hfront
    have hexec := exec_distributorSelection_front hmem hready (hplace e hmem) hfront hres hu
    refine ⟨fun hidle => by rw [hexec, chooseCore_none hidle]; rfl, fun c k hk hi hchoice hnodup hcur => ?_⟩
    have hs : OnePlace s := ⟨hnodup, hcur⟩
    have hchoose : chooseCore s e.bob = some c := by
      rcases hchoice with hc | ⟨hheld, ⟨i, himg, hholds, hle⟩ | ⟨hno, hle⟩⟩
      · exact chooseCore_held hs hk hi hc
      · exact chooseCore_image hs hheld hk hi himg hholds hle
      · exact chooseCore_lowest hs hheld hk hi hno hle
    obtain ⟨hrec, hcore, hothers, hm⟩ := selectFor_spec he hk hcur
    exact ⟨_, _, by rw [hexec, hchoose]; rfl, hrec, rfl, hcore, hothers, hm⟩
  · intro s e hmem he hready lowest hnum hnodup hcur
    refine ⟨fun hidle => ⟨fun hpri honly hcov c k hlow => ?_, fun hpri hdue c k hlow => ?_⟩, fun _ hearly => ?_,
      fun hpend c cause hw => ⟨?_, ?_⟩, fun c cause slot hc hk hs hm => ?_⟩
    · exact exec_expressPreemption hmem hready hpri honly hcov hidle (victim_lowest hnum hlow)
    · exact exec_starvationPreemption he hready hpri hdue hidle (victim_lowest hnum hlow)
    · exact exec_starvationPreemption_early he hearly
    · exact exec_progressStop he hready hpend hw
    · exact longestWait_eligible ⟨hnodup, hcur⟩ hw
    · exact postOn_selected hc hk hs hm cause

end Sys2Proof.Machine
end

