-- ==== Sys2Proof/Proofs/Binding.lean ====
section
/-! SUPPORT. Bindings (R67, R70, R120, R133, R134): what fails, what a binding leaves, and the registers from the control page. -/

namespace Sys2Proof.Machine

open Sys2Proof

section

variable {s : State} {slot : Nat} {e : PoolEntry} {i : Image} {seam : SeamEntry}

/-! ## Pages with PIN changed (R310, R316) -/

theorem find?_updateFirst_keeps {α : Type} {p q : α → Bool} {f : α → α} (hq : ∀ x, q (f x) = q x) (l : List α) :
    (updateFirst p f l).find? q = l.find? q ∨ (updateFirst p f l).find? q = (l.find? q).map f := by
  induction l with
  | nil => exact .inl rfl
  | cons x rest ih =>
    cases hp : p x <;> cases hx : q x
    · simpa [updateFirst, hp, hx] using ih
    · simp [updateFirst, hp, hx]
    · simp [updateFirst, hp, hx, hq]
    · simp [updateFirst, hp, hx, hq]

section
variable (x : Extent) (va len : Nat) (pin : Bool) (s : State)

/-- A backing keeps its lists, and its pages all but PIN. -/
theorem backingOf_pinPages (id : Nat) : backingOf (pinPages x va len pin s) id = backingOf s id ∨
    ∃ on : Nat → Bool, backingOf (pinPages x va len pin s) id =
      (backingOf s id).map fun b => { b with pages := b.pages.mapIdx fun n p => if on n then { p with pin := pin } else p } :=
  (find?_updateFirst_keeps (p := fun b : Backing => b.id == x.back) (q := fun b => b.id == id) (by exact fun _ => rfl) s.backings).imp_right
    fun h => ⟨_, h⟩

theorem extentLost_pinPages (l : Nat) (y : Extent) : extentLost (pinPages x va len pin s) l y = extentLost s l y := by
  have hlist : (backingOf (pinPages x va len pin s) y.back).map (·.list) = (backingOf s y.back).map (·.list) := by
    rcases backingOf_pinPages x va len pin s y.back with h | ⟨on, h⟩ <;> rw [h]
    rw [Option.map_map]
    rfl
  have hany (t : State) : extentLost t l y = ((launchOf t l).any (fun z => tableLost t (z.ext.toNat + 32 * y.idx) 32) ||
      ((backingOf t y.back).map (·.list)).any fun a => tableLost t a (8 * (y.size / pageSize y.psz))) := by
    rw [Option.any_map]
    rfl
  rw [hany, hany, hlist]
  rfl

/-- A page keeps its place and its residency. -/
theorem pageOf_pinPages (back n : Nat) : pageOf (pinPages x va len pin s) back n = pageOf s back n ∨
    pageOf (pinPages x va len pin s) back n = (pageOf s back n).map fun p => { p with pin := pin } := by
  show (backingOf _ back).bind _ = (backingOf s back).bind _ ∨ (backingOf _ back).bind _ = ((backingOf s back).bind _).map _
  rcases backingOf_pinPages x va len pin s back with h | ⟨on, h⟩ <;> rw [h]
  · exact .inl rfl
  · cases backingOf s back with
    | none => exact .inl rfl
    | some b =>
      simp only [Option.map_some, Option.bind_some, List.getElem?_mapIdx]
      cases on n
      · left; simp
      · right; simp

theorem extentSite_pinPages (l : Nat) (write : Bool) (a : Nat) : extentSite (pinPages x va len pin s) l write a = extentSite s l write a := by
  unfold extentSite
  rw [show extentAt (pinPages x va len pin s) l a = extentAt s l a from rfl]
  cases extentAt s l a with
  | none => rfl
  | some y =>
    simp only [extentLost_pinPages]
    rcases pageOf_pinPages x va len pin s y.back ((a - y.base) / pageSize y.psz) with h | h <;> rw [h]
    · rfl
    · cases pageOf s y.back ((a - y.base) / pageSize y.psz) <;> rfl

end

/-- Where bytes lie depends on the pages of the extents, and on no record of the pool. -/
theorem virtSites_paged {l : Nat} {pool : List PoolEntry} {backs : List Backing}
    (hext : ∀ write a, extentSite { s with pool := pool, backings := backs } l write a = extentSite s l write a) (own write atomic : Bool)
    (v : Word) (n : Nat) : virtSites { s with pool := pool, backings := backs } l own write atomic v n = virtSites s l own write atomic v n := by
  have hcore (own : Bool) (c off : Nat) : coreSite { s with pool := pool, backings := backs } own c off = coreSite s own c off := rfl
  have hmay (c : Nat) : mayCore { s with pool := pool, backings := backs } (.launch l) c = mayCore s (.launch l) c := rfl
  have hpanel (off : Nat) : panelSite { s with pool := pool, backings := backs } (.launch l) write atomic off =
    panelSite s (.launch l) write atomic off := rfl
  have hblock (off : Nat) : blockSite { s with pool := pool, backings := backs } (.launch l) off = blockSite s (.launch l) off := rfl
  have hmem (pa : Nat) : memSite { s with pool := pool, backings := backs } false pa = memSite s false pa := rfl
  refine List.map_congr_left fun j _ => ?_
  simp only [virtSite, hext, hcore, hmay, hpanel, hblock, hmem]

/-! ## A bobbin that no core holds frames of (R133) -/

/-- No core holds a frame of the bobbin. -/
def NoneHeld (slot : Nat) (s : State) : Prop := ∀ k ∈ allCores s, ∀ h ∈ k.2.held, h.owner ≠ slot

theorem held_any_owner {k : Core} (h : ∀ x ∈ k.held, x.owner ≠ slot) (f : HeldUnit → Bool) :
    (k.held.any fun x => x.owner == slot && f x) = false :=
  List.any_eq_false.2 fun x hx => by simp [h x hx]

theorem saveHeld_none {k : Core} (h : ∀ x ∈ k.held, x.owner ≠ slot) : saveHeld slot k = k := by
  have hmap : (k.held.map fun x => if x.owner == slot then { x with saving := true } else x) = k.held :=
    (List.map_congr_left fun x hx => if_neg (by simp [h x hx])).trans (List.map_id _)
  rw [saveHeld, hmap]

theorem takeHeld_none {k : Core} (h : ∀ x ∈ k.held, x.owner ≠ slot) : takeHeld slot k = k := by
  have hmine : (k.held.filter fun x => x.owner == slot) = [] := List.filter_eq_nil_iff.2 fun x hx => by simp [h x hx]
  have hrest : (k.held.filter fun x => x.owner != slot) = k.held := List.filter_eq_self.2 fun x hx => by simp [h x hx]
  simp only [takeHeld, hmine, hrest, List.foldl_nil]

/-- HOLD says that no core holds frames of the bobbin. -/
def clearHold (slot : Nat) (s : State) : State := updBob slot (fun b => { b with hold := 0xFF }) s

section
variable (h : NoneHeld slot s)
include h

theorem settleHold_none : settleHold slot s = clearHold slot s := by
  have hany : holdsAny s slot = false := List.any_eq_false.2 fun k hk => by simp [held_any_owner (h k hk)]
  rw [settleHold, hany]
  rfl

theorem saveElsewhere_none : saveElsewhere slot s = s := by
  have hmap : (s.parked.map fun c => (c.1, saveHeld slot c.2)) = s.parked :=
    (List.map_congr_left fun c hc => by rw [saveHeld_none (h c (.tail _ hc)), id]).trans (List.map_id _)
  rw [saveElsewhere, hmap]

theorem savesPending_none : savesPending s slot = false := by
  have hparked : (s.parked.any fun c => c.2.held.any fun x => x.owner == slot) = false :=
    List.any_eq_false.2 fun c hc => by simpa using h c (.tail _ hc)
  rw [savesPending, hparked, held_any_owner (h _ (.head _))]
  rfl

theorem withCore_takeHeld_none : withCore (takeHeld slot) s = s := by
  rw [withCore, takeHeld_none (h _ (.head _))]
end

/-- A binding with its units there goes on to its last step. -/
theorem bindUnits_none (h : NoneHeld e.slot s) (hu : unitsToLoad e (liveUnits e.bob seam) s.core = [])
    (hup : heldUp s false i.code i.size = []) : bindUnits e i seam s = finishBinding e i seam (clearHold e.slot (clearHold e.slot s)) := by
  have h1 : NoneHeld e.slot (clearHold e.slot s) := h
  have hup' : heldUp (clearHold e.slot (clearHold e.slot s)) false i.code i.size = [] := hup
  have hu' : unitsToLoad e (liveUnits e.bob seam) (clearHold e.slot (clearHold e.slot s)).core = [] := hu
  simp only [bindUnits, saveElsewhere_none h, settleHold_none h, savesPending_none h1, withCore_takeHeld_none h1, settleHold_none h1, hu', hup',
    ite_self, Bool.false_eq_true, if_false]

/-! ## Bindings that fail (R67, R70, R120, R134) -/

theorem claimed_entry (hk : s.core.claimed = some e.slot) (he : poolEntry s e.slot = some e) : s.core.claimed.bind (poolEntry s) = some e := by
  rw [hk]
  exact he

theorem imageAt_code {code : Nat} (h : imageAt s code = some i) : i.code = code := by
  simpa using List.find?_some h

section
variable (hk : s.core.claimed = some e.slot) (he : poolEntry s e.slot = some e)
include hk he

theorem tryBind_noImage (hi : imageAt s e.bob.code.toNat = none) : tryBind s = loseBobbin e.slot .illegal s := by
  simp only [tryBind, claimed_entry hk he, hi]

section
variable (hi : imageAt s e.bob.code.toNat = some i) (hr : heldReads s (seamReads s e.bob.code.toNat) = [])
include hi hr

theorem tryBind_noSeam (hs : seamEntry s e.bob.code.toNat e.bob.seam = none) : tryBind s = loseBobbin e.slot .illegal s := by
  have hcode := imageAt_code hi
  simp only [tryBind, claimed_entry hk he, hi, hcode, hr, hs, List.isEmpty_nil, Bool.not_true, Bool.false_eq_true, if_false]

variable (hs : seamEntry s e.bob.code.toNat e.bob.seam = some seam)
include hs

theorem tryBind_noExtent (hx : saveExtent s e = none) : tryBind s = loseBobbin e.slot .prot s := by
  have hcode := imageAt_code hi
  simp only [tryBind, claimed_entry hk he, hi, hcode, hr, hs, hx, List.isEmpty_nil, Bool.not_true, Bool.false_eq_true, if_false]

variable {x : Extent} (hx : saveExtent s e = some x)
include hx

theorem tryBind_extentLost (hl : extentLost s e.launch x = true) : tryBind s = loseBobbin e.slot .uncorr s := by
  have hcode := imageAt_code hi
  simp only [tryBind, claimed_entry hk he, hi, hcode, hr, hs, hx, hl, List.isEmpty_nil, Bool.not_true, Bool.false_eq_true, if_false, if_true]

/-- A binding with nothing to wait for: the pages of the save area are pinned, and no unit is held. -/
theorem tryBind_ready (hl : extentLost s e.launch x = false) (hp : pagesOutside s x e.bob.save.toNat Config.saveArea = [])
    (h : NoneHeld e.slot s) (hu : unitsToLoad e (liveUnits e.bob seam) s.core = []) (hup : heldUp s false i.code i.size = []) :
    tryBind s = finishBinding e i seam (clearHold e.slot (clearHold e.slot (pinPages x e.bob.save.toNat Config.saveArea true s))) := by
  have hcode := imageAt_code hi
  rw [← bindUnits_none (s := pinPages x e.bob.save.toNat Config.saveArea true s) h hu hup]
  simp only [tryBind, claimed_entry hk he, hi, hcode, hr, hs, hx, hl, hp, List.isEmpty_nil, Bool.not_true, Bool.false_eq_true, if_false]
end
end

/-! ## The start of the strand (R70, R120) -/

/-- A core with the image in its instruction stores. -/
def Core.withImage (s : State) (i : Image) (k : Core) : Core :=
  let has := k.holdsImage (w64 i.code) i.gen
  { k with
    codeBase := if has then k.codeBase else w64 i.code, codeGen := if has then k.codeGen else i.gen,
    imgSize := if has then k.imgSize else i.size, secA := if has then k.secA else sectionOf s i.code 16,
    secV := if has then k.secV else sectionOf s i.code 24, secM := if has then k.secM else sectionOf s i.code 32 }

/-- A core whose strand stands at the markers of a seam. -/
def Core.started (s : State) (e : PoolEntry) (seam : SeamEntry) (k : Core) : Core :=
  let at_ (sec : Section) (o : Nat) : Word := imgBase + w64 (sec.off + o)
  { k with
    slot := some e.slot, claimed := none, launch := e.launch, aseq := .running, pc := at_ k.secA seam.a,
    vseq := if seam.v.isSome then .running else .idle, vpc := at_ k.secV (seam.v.getD 0),
    mseq := if seam.m.isSome then .running else .idle, mpc := at_ k.secM (seam.m.getD 0), stepNo := 0, sigma := 0,
    dbg := debugFor s e.bob.qid }.note 0x18 1

theorem loadImage_eq (hl : lostLines s i.code i.size = []) : loadImage i s = withCore (Core.withImage s i) s := by
  have hlost (k : Core) : lostLines { s with core := k } i.code i.size = [] := hl
  unfold loadImage
  cases hh : s.core.holdsImage (w64 i.code) i.gen
  · simp only [metEngine, withCore, hlost, metLines, List.isEmpty_nil, Bool.false_eq_true, if_true, if_false, Core.withImage, hh]
  · simp only [withCore, Core.withImage, hh, if_true]

theorem metReads_clean {rs : List (Nat × Nat)} (h : ∀ r ∈ rs, lostLines s r.1 r.2 = []) : metReads rs s = s := by
  induction rs with
  | nil => rfl
  | cons r rest ih =>
    obtain ⟨hr, hrest⟩ := List.forall_mem_cons.1 h
    have hmet : metEngine r.1 r.2 s = s := by
      simp only [metEngine, metLines, hr, List.isEmpty_nil, if_true]
    show metReads rest (metEngine r.1 r.2 s) = s
    rw [hmet, ih hrest]

/-- The state after a binding whose strand starts on `k`. -/
def boundState (e : PoolEntry) (i : Image) (seam : SeamEntry) (k : Core) (s : State) : State :=
  renewStreams (updBob e.slot (fun b => { b with state := .bound }) { s with core := (k.withImage s i).started s e seam })

theorem startStrand_eq (hl : lostLines s i.code i.size = []) (hr : ∀ r ∈ seamReads s e.bob.code.toNat, lostLines s r.1 r.2 = []) (k : Core) :
    startStrand e seam (loadImage i { s with core := k }) = boundState e i seam k s := by
  rw [loadImage_eq (s := { s with core := k }) hl]
  have hmet : metReads (seamReads s e.bob.code.toNat) { s with core := (k.withImage s i).started s e seam } =
      { s with core := (k.withImage s i).started s e seam } := metReads_clean hr
  show renewStreams (updBob e.slot _ (metReads (seamReads s e.bob.code.toNat) { s with core := (k.withImage s i).started s e seam })) = _
  rw [hmet]
  rfl

end

section

variable {s : State} {c : BitVec 8} {e : PoolEntry} {i : Image} {seam : SeamEntry} {x : Extent}

/-! ## What a binding leaves (R67, R70, R120) -/

/-- The state in which the strand starts: the save area pinned, HOLD none. -/
def readied (x : Extent) (e : PoolEntry) (s : State) : State :=
  clearHold e.slot (clearHold e.slot (pinPages x e.bob.save.toNat Config.saveArea true s))

theorem poolEntry_boundState (k : Core) (he : poolEntry s e.slot = some e) :
    ∃ e', poolEntry (boundState e i seam k (readied x e s)) e.slot = some e' ∧ e'.bob = { e.bob with state := .bound, hold := 0xFF } := by
  refine ⟨{ e with bob := { e.bob with state := .bound, hold := 0xFF } }, ?_, rfl⟩
  have hpinned : poolEntry (pinPages x e.bob.save.toNat Config.saveArea true s) e.slot = some e := he
  have hready : poolEntry (readied x e s) e.slot = some { e with bob := { e.bob with hold := 0xFF } } := by
    rw [readied, clearHold, poolEntry_updBob, clearHold, poolEntry_updBob, hpinned]
    rfl
  exact (poolEntry_updBob (fun b => { b with state := .bound }) _ e.slot).trans (congrArg _ hready)

theorem engineByte_readied (x : Extent) (e : PoolEntry) (s : State) : engineByte (readied x e s) = engineByte s := rfl

theorem imgField_readied (x : Extent) (e : PoolEntry) (s : State) : imgField (readied x e s) = imgField s := rfl

theorem lostLines_readied (x : Extent) (e : PoolEntry) (s : State) : lostLines (readied x e s) = lostLines s := rfl

theorem seamReads_readied (x : Extent) (e : PoolEntry) (s : State) (code : Nat) : seamReads (readied x e s) code = seamReads s code := by
  rw [seamReads, imgField_readied]
  rfl

theorem boundState_secA (k : Core) (s : State) : (boundState e i seam k s).core.secA = (k.withImage s i).secA := rfl

/-- Where the instruction stores hold the image, they stay. -/
theorem withImage_kept {k : Core} (h : k.holdsImage (w64 i.code) i.gen = true) : (k.withImage s i).secA = k.secA := by
  simp only [Core.withImage, h, if_true]

/-- Else the section for the A-stream holds the bytes that an engine reads of the image (R120). -/
theorem withImage_loaded {k : Core} (h : k.holdsImage (w64 i.code) i.gen = false) :
    (k.withImage s i).secA.size = imgField s i.code 20 4 ∧ ∀ b, b < (k.withImage s i).secA.size →
      memGet (k.withImage s i).secA.bytes b = engineByte s (i.code + imgField s i.code 16 4 + b) := by
  have hsec : (k.withImage s i).secA = sectionOf s i.code 16 := by simp only [Core.withImage, h, Bool.false_eq_true, if_false]
  rw [hsec]
  refine ⟨rfl, fun b hb => ?_⟩
  have hb : b < imgField s i.code 20 4 := hb
  show memGet (listed 0 (engineBytes s (i.code + imgField s i.code 16 4) (imgField s i.code 20 4))) b = _
  have hlen : (engineBytes s (i.code + imgField s i.code 16 4) (imgField s i.code 20 4)).length = imgField s i.code 20 4 := by
    simp [engineBytes]
  rw [memGet_listed, if_pos ⟨Nat.zero_le b, by omega⟩]
  simp [engineBytes, hb]

/-- The strand of `e` runs in `t`, at the markers of the seam, once the binding has been taken in `s`. -/
def Started (s : State) (c : BitVec 8) (e : PoolEntry) (i : Image) (seam : SeamEntry) (t : State) : Prop :=
  exec (.binding c) s = .next t ∧ t.core.slot = some e.slot ∧ t.core.claimed = none ∧ t.core.launch = e.launch ∧ t.core.aseq = .running ∧
    t.core.pc = imgBase + BitVec.ofNat 64 (t.core.secA.off + seam.a) ∧
    t.core.vseq = (if seam.v.isSome then .running else .idle) ∧ t.core.mseq = (if seam.m.isSome then .running else .idle) ∧
    (s.core.holdsImage (BitVec.ofNat 64 i.code) i.gen = true → t.core.secA = s.core.secA) ∧
    (s.core.holdsImage (BitVec.ofNat 64 i.code) i.gen = false →
      t.core.secA.size = imgField s i.code 20 4 ∧ (∀ b, b < t.core.secA.size →
        memGet t.core.secA.bytes b = engineByte s (i.code + imgField s i.code 16 4 + b))) ∧
    (∃ e', poolEntry t e.slot = some e' ∧ e'.bob = { e.bob with state := .bound, hold := 0xFF }) ∧ t.mem = s.mem

theorem started_boundState {k : Core} (hc : c.toNat = s.cur) (he : poolEntry s e.slot = some e)
    (ht : tryBind s = boundState e i seam k (readied x e s)) (hh : ∀ a g, k.holdsImage a g = s.core.holdsImage a g)
    (hsec : k.secA = s.core.secA) : Started s c e i seam (boundState e i seam k (readied x e s)) := by
  have hexec : exec (.binding c) s = .next (boundState e i seam k (readied x e s)) := by
    show onCoreEvent c tryBind s = _
    rw [onCoreEvent_cur hc (by rw [ht]; rfl), ht]
  refine ⟨hexec, rfl, rfl, rfl, rfl, rfl, rfl, rfl, fun h => ?_, fun h => ?_, poolEntry_boundState k he, rfl⟩
  · exact (withImage_kept ((hh _ _).trans h)).trans hsec
  · rw [boundState_secA, ← engineByte_readied x e s, ← imgField_readied x e s]
    exact withImage_loaded ((hh _ _).trans h)

theorem finishBinding_first (hcause : e.bob.cause = 0) (hstop : e.bob.nstop = 0) (hl : lostLines s i.code i.size = [])
    (hr : ∀ r ∈ seamReads s e.bob.code.toNat, lostLines s r.1 r.2 = []) :
    finishBinding e i seam s = boundState e i seam (firstRegs e.bob s.core) s := by
  simp only [finishBinding, hcause, hstop, decide_true, Bool.and_self, if_true]
  exact startStrand_eq hl hr _

theorem not_first (h : e.bob.cause ≠ 0 ∨ e.bob.nstop ≠ 0) : (decide (e.bob.cause = 0) && decide (e.bob.nstop = 0)) = false := by
  rcases h with h | h
  · rw [decide_eq_false h, Bool.false_and]
  · rw [decide_eq_false h, Bool.and_false]

theorem liveUnits_later (h : e.bob.cause ≠ 0 ∨ e.bob.nstop ≠ 0) : liveUnits e.bob seam = seam.live := by
  simp only [liveUnits, not_first h, Bool.false_eq_true, if_false]

theorem unitsToLoad_later {k : Core} (h : e.bob.cause ≠ 0 ∨ e.bob.nstop ≠ 0)
    (hsaved : ∀ u, u < 40 → seam.live.getLsbD u = true → e.saved.getLsbD u = false) : unitsToLoad e (liveUnits e.bob seam) k = [] :=
  List.filter_eq_nil_iff.2 fun u hu hload => by
    rw [liveUnits_later h] at hload
    obtain ⟨hboth, -⟩ := (Bool.and_eq_true _ _).mp hload
    obtain ⟨hlive, hsave⟩ := (Bool.and_eq_true _ _).mp hboth
    exact absurd hsave (by simp [hsaved u (List.mem_range.1 hu) hlive])

/-- The save area lies where it lay. -/
theorem saveSites_readied (x : Extent) (e : PoolEntry) (s : State) (off n : Nat) :
    saveSites (readied x e s) e false off n = saveSites s e false off n :=
  virtSites_paged (s := s) (pool := (readied x e s).pool) (backs := (readied x e s).backings)
    (fun write a => extentSite_pinPages x e.bob.save.toNat Config.saveArea true s e.launch write a) false false false (e.bob.save + w64 off) n

/-- The bytes of memory from an address on, where the control page lies. -/
def pageAt (m : Mem) (pa : Nat) : List Byte := (List.range 4096).map fun j => memGet m (pa + j)

/-- What a site of ordinary memory reads as, without errors. -/
def Site.plainByte (m : Mem) : Site → Byte × Bool
  | .mem a => (memGet m a, false)
  | _ => (0, false)

theorem readSites_page {pa : Nat}
    (h : ∀ j, j < 4096 → s.sv.deadLines.contains ((pa + j) / 64) = false ∧ s.poison.contains ((pa + j) / 64) = false) :
    ∃ miss, readSites .copy ((List.range 4096).map fun j => Site.mem (pa + j)) s = .ok ⟨pageAt s.mem pa, miss⟩ s := by
  have hval := readSites_values .copy ((List.range 4096).map fun j => Site.mem (pa + j)) s
    (Site.plainByte s.mem) fun y hy => by
      obtain ⟨j, hj, rfl⟩ := List.mem_map.1 hy
      obtain ⟨hd, hp⟩ := h j (List.mem_range.1 hj)
      exact readSite_mem s .copy _ hd hp
  rw [List.map_map] at hval
  exact ⟨_, hval⟩

theorem finishBinding_later {pa : Nat} (hlater : e.bob.cause ≠ 0 ∨ e.bob.nstop ≠ 0) (hl : lostLines s i.code i.size = [])
    (hr : ∀ r ∈ seamReads s e.bob.code.toNat, lostLines s r.1 r.2 = [])
    (hsites : saveSites s e false 0x240000 4096 = (List.range 4096).map fun j => Site.mem (pa + j))
    (hclean : ∀ j, j < 4096 → s.sv.deadLines.contains ((pa + j) / 64) = false ∧ s.poison.contains ((pa + j) / 64) = false) :
    finishBinding e i seam s = boundState e i seam (pageRegs (pageAt s.mem pa) seam.live s.core) s := by
  obtain ⟨miss, hread⟩ := readSites_page hclean
  simp only [finishBinding, liveUnits_later hlater, not_first hlater, hsites, hread, Bool.false_eq_true, if_false]
  exact startStrand_eq hl hr _

/-! ## Registers from the control page (R134) -/

theorem pageRegs_secA (page : List Byte) (live : BitVec 40) (k : Core) : (pageRegs page live k).secA = k.secA := by
  simp only [pageRegs]

theorem pageRegs_holdsImage (page : List Byte) (live : BitVec 40) (k : Core) (a : Word) (g : BitVec 32) :
    (pageRegs page live k).holdsImage a g = k.holdsImage a g := by
  simp only [Core.holdsImage, pageRegs]

/-- A field of `n` bytes of the control page. -/
def pageField (m : Mem) (pa off n : Nat) : Nat := leNat ((List.range n).map fun j => memGet m (pa + off + j))

section
variable (m : Mem) (pa : Nat) (live : BitVec 40) (k : Core)

theorem pageAt_field {off n : Nat} (h : off + n ≤ 4096) : leNat (((pageAt m pa).drop off).take n) = pageField m pa off n := by
  refine congrArg leNat (List.ext_getElem (by simp [pageAt]; omega) fun j _ _ => ?_)
  simp [pageAt, Nat.add_assoc]

/-- A bit of a field lies in one of its bytes. -/
theorem pageField_testBit {off n b : Nat} (h : b / 8 < n) :
    (pageField m pa off n).testBit b = (memGet m (pa + off + b / 8)).getLsbD (b % 8) := by
  rw [pageField, leNat_testBit]
  simp [h]

/-- A register of a bank that the control page holds. -/
theorem bank_page {n w off width : Nat} (r : BitVec n) (h : off + w * 2 ^ n ≤ 4096) :
    bank (bankFrom n w (pageAt m pa) off width) r = BitVec.ofNat width (pageField m pa (off + w * r.toNat) w) := by
  have hr : w * r.toNat + w ≤ w * 2 ^ n := Nat.mul_le_mul_left w r.isLt
  rw [← pageAt_field m pa (by omega)]
  simp [bank, bankFrom]

theorem pageRegs_getS {r : BitVec 6} (hr : r ≠ 0) :
    (pageRegs (pageAt m pa) live k).getS r = BitVec.ofNat 64 (pageField m pa (8 * r.toNat) 8) := by
  have hbank := bank_page (w := 8) (off := 0) (width := 64) m pa r (by decide)
  rw [Nat.zero_add] at hbank
  rw [Core.getS, if_neg hr]
  exact hbank

theorem pageRegs_getP {p : BitVec 4} (hp : p ≠ 0) :
    (pageRegs (pageAt m pa) live k).getP p = (memGet m (pa + 0x2C0 + p.toNat / 8)).getLsbD (p.toNat % 8) := by
  have hlt : p.toNat < 16 := p.isLt
  have hbank : bank (pageRegs (pageAt m pa) live k).p p = (BitVec.ofNat 16 (pageField m pa 0x2C0 2)).getLsbD p.toNat := by
    rw [← pageAt_field m pa (by decide)]
    exact Vector.getElem_ofFn _
  rw [Core.getP, if_neg hp, hbank, BitVec.getLsbD_ofNat, decide_eq_true hlt, Bool.true_and, pageField_testBit m pa (by omega)]

theorem pageRegs_tc (j : BitVec 4) :
    bank (pageRegs (pageAt m pa) live k).tc j = BitVec.ofNat 64 (pageField m pa (0x240 + 8 * j.toNat) 8) &&& tcMask := by
  rw [← bank_page m pa j (by decide)]
  simp [bank, pageRegs]

theorem pageRegs_fresh {u : Nat} (hu : u < 40) :
    (pageRegs (pageAt m pa) live k).fresh.getLsbD u = ((pageField m pa 0x2F8 5).testBit u || !live.getLsbD u) := by
  rw [← pageAt_field m pa (by decide)]
  simp only [pageRegs, BitVec.getLsbD_or, BitVec.getLsbD_not, BitVec.getLsbD_ofNat, hu, decide_true, Bool.true_and]

theorem pageRegs_getM {j : BitVec 4} (hj : j ≠ 0) :
    (pageRegs (pageAt m pa) live k).getM j = BitVec.ofNat 1024 (pageField m pa (0x800 + 128 * j.toNat) 128) := by
  rw [Core.getM, if_neg hj]
  exact bank_page m pa j (by decide)

/-- A register that is one field. -/
theorem pageAt_word {off : Nat} (h : off + 8 ≤ 4096) :
    w64 (leNat (((pageAt m pa).drop off).take 8)) = BitVec.ofNat 64 (pageField m pa off 8) := by
  rw [pageAt_field m pa h]
  rfl

/-- The core has the registers of the control page at `pa`, reserved fields left out. -/
def Core.HasPage (m : Mem) (pa : Nat) (live : BitVec 40) (k : Core) : Prop :=
  (∀ r : BitVec 6, r ≠ 0 → k.getS r = BitVec.ofNat 64 (pageField m pa (8 * r.toNat) 8)) ∧
    (∀ p : BitVec 4, p ≠ 0 → k.getP p = (memGet m (pa + 0x2C0 + p.toNat / 8)).getLsbD (p.toNat % 8)) ∧
    (∀ j : BitVec 3, bank k.b j = BitVec.ofNat 64 (pageField m pa (0x200 + 8 * j.toNat) 8)) ∧
    (∀ j : BitVec 4, bank k.tc j = BitVec.ofNat 64 (pageField m pa (0x240 + 8 * j.toNat) 8) &&& tcMask) ∧
    (∀ j : BitVec 2, bank k.lc j = BitVec.ofNat 32 (pageField m pa (0x2C8 + 4 * j.toNat) 4) ∧
      bank k.vlc j = BitVec.ofNat 32 (pageField m pa (0x2D8 + 4 * j.toNat) 4) ∧
      bank k.mlc j = BitVec.ofNat 32 (pageField m pa (0x2E8 + 4 * j.toNat) 4)) ∧
    (∀ u, u < 40 → k.fresh.getLsbD u = ((pageField m pa 0x2F8 5).testBit u || !live.getLsbD u)) ∧
    k.srkey = BitVec.ofNat 64 (pageField m pa 0x300 8) ∧ k.srctr = BitVec.ofNat 64 (pageField m pa 0x308 8) ∧
    k.aexc = BitVec.ofNat 64 (pageField m pa 0x310 8) &&& aexcMask ∧ k.vexc = BitVec.ofNat 64 (pageField m pa 0x318 8) &&& vexcMask ∧
    k.evec = BitVec.ofNat 64 (pageField m pa 0x320 8) ∧ k.ecause = BitVec.ofNat 64 (pageField m pa 0x328 8) &&& ecauseMask ∧
    k.epc = BitVec.ofNat 64 (pageField m pa 0x330 8) ∧ k.eval = BitVec.ofNat 64 (pageField m pa 0x338 8) ∧
    (∀ j : BitVec 8, bank k.sem j = BitVec.ofNat 16 (pageField m pa (0x400 + 2 * j.toNat) 2)) ∧
    ∀ j : BitVec 4, j ≠ 0 → k.getM j = BitVec.ofNat 1024 (pageField m pa (0x800 + 128 * j.toNat) 128)

theorem pageRegs_hasPage : (pageRegs (pageAt m pa) live k).HasPage m pa live :=
  ⟨fun _ hr => pageRegs_getS m pa live k hr, fun _ hp => pageRegs_getP m pa live k hp, fun j => bank_page m pa j (by decide),
    pageRegs_tc m pa live k, fun j => ⟨bank_page m pa j (by decide), bank_page m pa j (by decide), bank_page m pa j (by decide)⟩,
    fun _ hu => pageRegs_fresh m pa live k hu, pageAt_word m pa (by decide), pageAt_word m pa (by decide),
    congrArg (· &&& aexcMask) (pageAt_word m pa (by decide)), congrArg (· &&& vexcMask) (pageAt_word m pa (by decide)),
    pageAt_word m pa (by decide), congrArg (· &&& ecauseMask) (pageAt_word m pa (by decide)), pageAt_word m pa (by decide),
    pageAt_word m pa (by decide), fun j => bank_page m pa j (by decide), fun _ hj => pageRegs_getM m pa live k hj⟩

variable {live} {k}

/-- The start of the strand keeps the registers. -/
theorem Core.HasPage.started (h : k.HasPage m pa live) (s t : State) (i : Image) (e : PoolEntry) (seam : SeamEntry) :
    ((k.withImage s i).started t e seam).HasPage m pa live := h
end

/-! ## Registers of a first binding (R70) -/

theorem firstRegs_secA (b : Bobbin) (k : Core) : (firstRegs b k).secA = k.secA := rfl

theorem firstRegs_holdsImage (b : Bobbin) (k : Core) (a : Word) (g : BitVec 32) : (firstRegs b k).holdsImage a g = k.holdsImage a g := rfl

theorem firstRegs_getS (b : Bobbin) (k : Core) :
    (firstRegs b k).getS 1 = b.index ∧ (firstRegs b k).getS 2 = b.arg ∧ ∀ r, r ≠ 1 → r ≠ 2 → (firstRegs b k).getS r = 0 := by
  have hone : (1 : BitVec 6) ≠ 2 := by decide
  refine ⟨?_, ?_, fun r h1 h2 => ?_⟩
  · show bank (bankSet (bankSet _ 1 b.index) 2 b.arg) 1 = b.index
    rw [bank_set_other _ _ _ _ hone, bank_set_same]
  · exact bank_set_same _ _ _
  · show (if r = 0 then 0 else bank (bankSet (bankSet (Core.reset 0).s 1 b.index) 2 b.arg) r) = 0
    rw [bank_set_other _ _ _ _ h2, bank_set_other _ _ _ _ h1]
    exact ite_eq_left_iff.2 fun _ => bank_replicate _ r

theorem firstRegs_getP (b : Bobbin) (k : Core) (p : BitVec 4) : (firstRegs b k).getP p = decide (p = 0) := by
  unfold Core.getP
  split
  · rename_i hp
    rw [hp]
    rfl
  · rename_i hp
    rw [decide_eq_false hp]
    exact bank_replicate false p

theorem firstRegs_getM (b : Bobbin) (k : Core) (j : BitVec 4) : (firstRegs b k).getM j = if j = 0 then BitVec.allOnes 1024 else 0 := by
  unfold Core.getM
  split
  · rfl
  · exact bank_replicate 0 j

/-- The core has the registers of a first binding. -/
def Core.HasFirst (b : Bobbin) (k : Core) : Prop :=
  k.getS 1 = b.index ∧ k.getS 2 = b.arg ∧ (∀ r, r ≠ 1 → r ≠ 2 → k.getS r = 0) ∧ (∀ p, k.getP p = decide (p = 0)) ∧
    (∀ j, bank k.b j = 0) ∧ (∀ j, bank k.tc j = 0) ∧ (∀ j, bank k.lc j = 0 ∧ bank k.vlc j = 0 ∧ bank k.mlc j = 0) ∧ k.srkey = 0 ∧
    k.srctr = 0 ∧ k.evec = 0 ∧ k.ecause = 0 ∧ k.epc = 0 ∧ k.eval = 0 ∧ k.aexc = 0 ∧ k.vexc = 0 ∧ k.fresh = BitVec.allOnes 40 ∧ (∀ j, bank k.sem j = 0) ∧
    ∀ j, k.getM j = if j = 0 then BitVec.allOnes 1024 else 0

theorem firstRegs_hasFirst (b : Bobbin) (k : Core) : (firstRegs b k).HasFirst b := by
  obtain ⟨h1, h2, hr⟩ := firstRegs_getS b k
  exact ⟨h1, h2, hr, firstRegs_getP b k, bank_replicate 0, bank_replicate 0,
    fun j => ⟨bank_replicate 0 j, bank_replicate 0 j, bank_replicate 0 j⟩, rfl, rfl, rfl, rfl, rfl, rfl, rfl, rfl, rfl, bank_replicate 0,
    firstRegs_getM b k⟩

theorem Core.HasFirst.started {b : Bobbin} {k : Core} (h : k.HasFirst b) (s t : State) (i : Image) (e : PoolEntry) (seam : SeamEntry) :
    ((k.withImage s i).started t e seam).HasFirst b := h

/-! ## Bindings that wait for nothing -/

section
variable (hc : c.toNat = s.cur) (hk : s.core.claimed = some e.slot) (he : poolEntry s e.slot = some e)
  (hr : heldReads s (seamReads s e.bob.code.toNat) = []) (hclean : ∀ r ∈ seamReads s e.bob.code.toNat, lostLines s r.1 r.2 = [])
  (hi : imageAt s e.bob.code.toNat = some i) (hs : seamEntry s e.bob.code.toNat e.bob.seam = some seam) (hx : saveExtent s e = some x)
  (hl : extentLost s e.launch x = false) (hp : pagesOutside s x e.bob.save.toNat Config.saveArea = []) (hheld : NoneHeld e.slot s)
  (hup : heldUp s false i.code i.size = []) (hlines : lostLines s i.code i.size = [])
include hc hk he hr hclean hi hs hx hl hp hheld hup hlines

theorem binding_first (hcause : e.bob.cause = 0) (hstop : e.bob.nstop = 0) : ∃ t, Started s c e i seam t ∧ t.core.HasFirst e.bob := by
  have hu : unitsToLoad e (liveUnits e.bob seam) s.core = [] := List.filter_eq_nil_iff.2 fun u _ => by simp [liveUnits, hcause, hstop]
  have hfinish : finishBinding e i seam (readied x e s) = boundState e i seam (firstRegs e.bob s.core) (readied x e s) :=
    finishBinding_first hcause hstop (by rw [lostLines_readied]; exact hlines) (by rw [seamReads_readied, lostLines_readied]; exact hclean)
  exact ⟨_, started_boundState hc he ((tryBind_ready hk he hi hr hs hx hl hp hheld hu hup).trans hfinish) (firstRegs_holdsImage e.bob s.core)
    (firstRegs_secA e.bob s.core), (firstRegs_hasFirst e.bob s.core).started _ _ i e seam⟩

theorem binding_later (hlater : e.bob.cause ≠ 0 ∨ e.bob.nstop ≠ 0)
    (hsaved : ∀ u, u < 40 → seam.live.getLsbD u = true → e.saved.getLsbD u = false) {pa : Nat}
    (hsites : saveSites s e false 0x240000 4096 = (List.range 4096).map fun j => Site.mem (pa + j))
    (hmem : ∀ j, j < 4096 → s.sv.deadLines.contains ((pa + j) / 64) = false ∧ s.poison.contains ((pa + j) / 64) = false) :
    ∃ t, Started s c e i seam t ∧ t.core.HasPage s.mem pa seam.live := by
  have hu : unitsToLoad e (liveUnits e.bob seam) s.core = [] := unitsToLoad_later hlater hsaved
  have hfinish : finishBinding e i seam (readied x e s) =
      boundState e i seam (pageRegs (pageAt s.mem pa) seam.live s.core) (readied x e s) :=
    finishBinding_later hlater (by rw [lostLines_readied]; exact hlines) (by rw [seamReads_readied, lostLines_readied]; exact hclean)
      ((saveSites_readied x e s _ _).trans hsites) hmem
  exact ⟨_, started_boundState hc he ((tryBind_ready hk he hi hr hs hx hl hp hheld hu hup).trans hfinish) (pageRegs_holdsImage _ _ s.core)
    (pageRegs_secA _ _ s.core), (pageRegs_hasPage s.mem pa seam.live s.core).started s.mem pa _ _ i e seam⟩
end

end

/-- Settles O36: a binding that waits for nothing changes the pins, HOLD and the core, and so reads the image and the page as they stand. -/
theorem binding : Obligations.Binding := by
  intro s c e hc _ hk he hheld lost
  have hlost (code : TrapCode) (h : tryBind s = loseBobbin e.slot code s) : lost code := by
    obtain ⟨e', he', hstate, hfault⟩ := loseBobbin_record (code := code) he
    refine ⟨_, e', ?_, he', hstate, hfault, loseBobbin_mem _ _ _⟩
    show onCoreEvent c tryBind s = _
    rw [onCoreEvent_cur hc (by rw [h, loseBobbin_cur]), h]
  refine ⟨fun hi => hlost _ (tryBind_noImage hk he hi), fun hr hs => ?_,
    fun i seam hr hclean hi hs => ⟨fun hx => ?_, fun x hx hl => ?_, ?_⟩⟩
  · cases hi : imageAt s e.bob.code.toNat with
    | none => exact hlost _ (tryBind_noImage hk he hi)
    | some i => exact hlost _ (tryBind_noSeam hk he hi hr hs)
  · exact hlost _ (tryBind_noExtent hk he hi hr hs hx)
  · exact hlost _ (tryBind_extentLost hk he hi hr hs hx hl)
  · intro x hx hl hp hup hlines started
    exact ⟨fun hcause hstop => binding_first hc hk he hr hclean hi hs hx hl hp hheld hup hlines hcause hstop,
      fun hlater hsaved pa hsites hmem => binding_later hc hk he hr hclean hi hs hx hl hp hheld hup hlines hlater hsaved hsites hmem⟩

end Sys2Proof.Machine
end

