-- ==== Sys2Proof/Proofs/IntegerWords.lean ====
section
/-! SUPPORT. The integer, immediate, compare and select words of the A-stream (R22, R89 to R92, R116): one lemma for each shape of word, and
one for each value that the statements spell out in their own way. -/

namespace Sys2Proof.Machine

open Sys2Proof

section
variable {s : State} {i : Instr} {d a b : BitVec 6} {p q r : BitVec 4} {v : Word} {x : Bool}

/-! ## The shapes of words -/

theorem completesS_alu {f : Word → Word → Word} (h : Issues s [a, b] []) (e : exec i s = aluWord f d a b s)
    (hv : f (getS s a) (getS s b) = v) : CompletesS i s d v :=
  completesS_of h e (by rw [← hv])

theorem completesS_unary {f : Word → Word} (h : Issues s [a] []) (e : exec i s = unaryWord f d a s) (hv : f (getS s a) = v) :
    CompletesS i s d v :=
  completesS_of h e (by rw [← hv])

theorem completesS_imm {rd : List (BitVec 6)} {f : State → Word} (h : Issues s rd []) (e : exec i s = immWord rd d f s) (hv : f s = v) :
    CompletesS i s d v :=
  completesS_of h e (by rw [← hv])

theorem completesP_cmp {c : Word → Word → Bool} (h : Issues s [a, b] []) (e : exec i s = cmpWord c p a b s)
    (hx : c (getS s a) (getS s b) = x) : CompletesP i s p x :=
  completesP_of h e (by rw [← hx])

theorem completesP_cmpi {c : Word → Word → Bool} {imm : BitVec 14} (h : Issues s [a] []) (e : exec i s = cmpiWord c p a imm s)
    (hx : c (getS s a) (imm.signExtend 64) = x) : CompletesP i s p x :=
  completesP_of h e (by rw [← hx]; rfl)

theorem completesP_pred {f : Bool → Bool → Bool} {inv : Bool} (h : Issues s [] [q, r]) (e : exec i s = predWord f p q r inv s) :
    CompletesP i s p (f (getP s q) (getP s r ^^ inv)) :=
  completesP_of h e (by cases inv <;> simp)

end

/-! ## Values -/

section
variable (x y : Word) (n : Nat)

theorem shl64_eq : shl64 x n = if n < 64 then x <<< n else 0 := by
  unfold shl64
  split
  · rfl
  · exact BitVec.shiftLeft_eq_zero (by omega)

theorem shr64_eq : shr64 x n = if n < 64 then x >>> n else 0 := by
  unfold shr64
  split
  · rfl
  · exact BitVec.ushiftRight_eq_zero (by omega)

theorem sra64_eq : sra64 x n = if n < 64 then x.sshiftRight n else if x.toInt < 0 then -1 else 0 := by
  unfold sra64
  split
  · rfl
  · refine BitVec.eq_of_getLsbD_eq fun j hj => ?_
    rw [BitVec.getLsbD_sshiftRight, if_neg (by omega), BitVec.msb_eq_toInt]
    split
    · rw [show (-1 : Word) = BitVec.allOnes 64 from rfl, BitVec.getLsbD_allOnes]
      simp [*]
    · simp [*]

theorem ite_slt_left : (if y.slt x then y else x) = if x.toInt ≤ y.toInt then x else y := by
  rw [BitVec.slt_eq_decide]
  by_cases h : x.toInt ≤ y.toInt
  · simp [h]
  · simp [h, Int.not_le.1 h]

theorem ite_slt_right : (if x.slt y then y else x) = if x.toInt ≤ y.toInt then y else x := by
  rw [BitVec.slt_eq_decide]
  rcases Int.lt_trichotomy x.toInt y.toInt with h | h | h
  · simp [h, h.le]
  · simp [BitVec.eq_of_toInt_eq h]
  · simp [Int.not_le.2 h, Int.not_lt.2 h.le]

/-- The bit above decides whether the zeros go on. -/
theorem leadingZeros_succ (w n : Nat) : leadingZeros (w + 1) n = if n.testBit w then 0 else leadingZeros w n + 1 := by
  unfold leadingZeros bitsList
  rw [List.range_succ, List.map_append, List.reverse_append]
  cases h : n.testBit w <;> simp [h]

theorem leadingZeros_of_pos {w n : Nat} (hn : n ≠ 0) (hw : n < 2 ^ w) : leadingZeros w n = w - 1 - n.log2 := by
  induction w with
  | zero => omega
  | succ w ih =>
    rw [leadingZeros_succ]
    by_cases h : n < 2 ^ w
    · have := (Nat.log2_lt hn).2 h
      rw [Nat.testBit_lt_two_pow h, ih h, if_neg (by decide)]
      omega
    · have hlog : n.log2 = w := (Nat.log2_eq_iff hn).2 ⟨Nat.not_lt.1 h, hw⟩
      have htop : n.testBit w = true := hlog ▸ Nat.testBit_log2 hn
      rw [htop, if_pos rfl]
      omega

theorem leadingZeros_zero (w : Nat) : leadingZeros w 0 = w := by
  induction w with
  | zero => rfl
  | succ w ih => rw [leadingZeros_succ, ih, Nat.zero_testBit, if_neg (by decide)]

theorem clz_eq : w64 (leadingZeros 64 x.toNat) = if x = 0 then 64 else BitVec.ofNat 64 (63 - x.toNat.log2) := by
  split
  · rename_i h
    subst h
    rw [show (0 : Word).toNat = 0 from rfl, leadingZeros_zero]
    rfl
  · rename_i h
    rw [leadingZeros_of_pos (fun h0 => h (BitVec.eq_of_toNat_eq h0)) x.isLt]
    rfl

theorem popc_eq : w64 (popCount 64 x.toNat) = BitVec.ofNat 64 ((List.range 64).countP x.getLsbD) := by
  unfold popCount bitsList
  rw [← List.countP_eq_length_filter, List.countP_map]
  rfl

/-- A mask of low ones keeps the remainder. -/
theorem and_lowOnes {m : Word} {k : Nat} (hm : m.toNat = 2 ^ k - 1) : x &&& m = BitVec.ofNat 64 (x.toNat % 2 ^ k) := by
  refine BitVec.eq_of_toNat_eq ?_
  have hle := Nat.mod_le x.toNat (2 ^ k)
  have := x.isLt
  rw [BitVec.toNat_and, hm, Nat.and_two_pow_sub_one_eq_mod, BitVec.toNat_ofNat, Nat.mod_eq_of_lt (b := 2 ^ 64) (by omega)]

/-- LSI's insertion below a shifted register is a sum (R22). -/
theorem lsi_eq (imm : BitVec 20) : (x <<< 20) ||| imm.zeroExtend 64 = BitVec.ofNat 64 (x.toNat * 2 ^ 20 + imm.toNat) := by
  have hdisj : (x <<< 20) &&& imm.zeroExtend 64 = 0#64 := by
    refine BitVec.eq_of_getLsbD_eq fun j hj => ?_
    by_cases h : j < 20
    · simp [h]
    · simp [BitVec.getLsbD_of_ge imm j (by omega)]
  rw [← BitVec.add_eq_or_of_and_eq_zero _ _ hdisj]
  refine BitVec.eq_of_toNat_eq ?_
  simp [Nat.shiftLeft_eq]

/-- A displacement in words, as bytes (R22). -/
theorem four_mul_sx {w : Nat} (disp : BitVec w) : 4 * sx disp = BitVec.ofInt 64 (4 * disp.toInt) := by
  rw [BitVec.ofInt_mul]
  rfl

end
/-! ## Division (R90, R116) -/

section
variable {s : State} {i : Instr} {d a b : BitVec 6} {f : Word → Word → Word} {v : Word}

theorem completesS_div (h : Issues s [a, b] []) (e : exec i s = divWord f d a b s) (hb : getS s b ≠ 0)
    (hv : f (getS s a) (getS s b) = v) : CompletesS i s d v :=
  completesS_of h e (by dsimp only; rw [if_neg hb, hv])

theorem divWord_traps (h : Issues s [a, b] []) (hb : getS s b = 0) (hz : s.core.aexc.getLsbD 0 = true) :
    divWord f d a b s = .next (trapsIn s s .divZero .a 0) := by
  unfold divWord
  rw [aWord_go h]
  dsimp only
  rw [if_pos hb, if_pos hz]
  rfl

/-- DZF, bit 8 of c.aexc, is set (R116). -/
abbrev withDzf (s : State) : State := { s with core := { s.core with aexc := s.core.aexc ||| 0x100 } }

theorem divWord_zero (h : Issues s [a, b] []) (hb : getS s b = 0) (hz : ¬s.core.aexc.getLsbD 0 = true) :
    divWord f d a b s = .next (wordDone (setS d (f (getS s a) 0) (withDzf s))) := by
  unfold divWord
  rw [aWord_go h]
  dsimp only
  rw [if_pos hb, if_neg hz, hb]
  rfl

theorem setS_withDzf (d : BitVec 6) (v : Word) (s : State) :
    (withDzf s).core.setS d v =
      { s.core.overwrite [d] [] with s := ((withDzf s).core.setS d v).s, aexc := ((withDzf s).core.setS d v).aexc } := by
  rw [Core.setS_aexc]
  exact Core.setS_writes _ d v

theorem withDzf_aexc (s : State) :
    (withDzf s).core.aexc.getLsbD 8 = true ∧ ∀ j, j ≠ 8 → (withDzf s).core.aexc.getLsbD j = s.core.aexc.getLsbD j := by
  have hone (j : Nat) : (0x100 : Word).getLsbD j = decide (j = 8) := by
    rw [show (0x100 : Word) = BitVec.twoPow 64 8 from rfl, BitVec.getLsbD_twoPow]
    by_cases hj : j = 8 <;> simp [hj, eq_comm]
  refine ⟨?_, fun j hj => ?_⟩
  · rw [BitVec.getLsbD_or, hone]
    simp
  · rw [BitVec.getLsbD_or, hone]
    simp [hj]

end

/-- Settles O1: each word by its shape, its value by the lemma on it; a division by whether its divisor is zero. -/
theorem integerWords : Obligations.IntegerWords := by
  refine ⟨fun s d a b h => ?_, fun s d a imm amount wide => ⟨fun h => ?_, fun h => ?_, fun h => ?_⟩, fun s d a b h hb => ?_,
    fun s d a b h hb => ?_⟩
  · exact ⟨completesS_alu h rfl rfl, completesS_alu h rfl rfl, completesS_alu h rfl rfl, completesS_alu (f := mulHigh) h rfl rfl,
      completesS_alu h rfl rfl, completesS_alu h rfl rfl, completesS_alu h rfl rfl,
      completesS_alu (f := fun x y => shl64 x y.toNat) h rfl (shl64_eq _ _),
      completesS_alu (f := fun x y => shr64 x y.toNat) h rfl (shr64_eq _ _),
      completesS_alu (f := fun x y => sra64 x y.toNat) h rfl (sra64_eq _ _),
      completesS_alu (f := fun x y => if y.slt x then y else x) h rfl (ite_slt_left _ _),
      completesS_alu (f := fun x y => if x.slt y then y else x) h rfl (ite_slt_right _ _)⟩
  · exact ⟨completesS_unary (f := fun x => w64 (leadingZeros 64 x.toNat)) h rfl (clz_eq _),
      completesS_unary (f := fun x => w64 (popCount 64 x.toNat)) h rfl (popc_eq _),
      completesS_unary (f := fun x => sx (x.extractLsb' 0 8)) h rfl rfl, completesS_unary (f := fun x => sx (x.extractLsb' 0 16)) h rfl rfl,
      completesS_unary (f := fun x => sx (x.extractLsb' 0 32)) h rfl rfl, completesS_unary (f := (· &&& 0xFF)) h rfl (and_lowOnes _ rfl),
      completesS_unary (f := (· &&& 0xFFFF)) h rfl (and_lowOnes _ rfl), completesS_unary (f := (· &&& 0xFFFFFFFF)) h rfl (and_lowOnes _ rfl),
      completesS_unary (f := (· + sx imm)) h rfl rfl, completesS_unary (f := (· &&& sx imm)) h rfl rfl,
      completesS_unary (f := (· ||| sx imm)) h rfl rfl, completesS_unary (f := (· ^^^ sx imm)) h rfl rfl,
      completesS_unary (f := fun x => shl64 x amount.toNat) h rfl (shl64_eq _ _),
      completesS_unary (f := fun x => shr64 x amount.toNat) h rfl (shr64_eq _ _),
      completesS_unary (f := fun x => sra64 x amount.toNat) h rfl (sra64_eq _ _)⟩
  · exact ⟨completesS_imm (f := fun _ => sx wide) h rfl rfl,
      completesS_imm (f := fun s => s.core.pc + 4 * sx wide) h rfl (congrArg (s.core.pc + ·) (four_mul_sx wide))⟩
  · exact completesS_imm (f := fun s => (getS s d <<< 20) ||| wide.zeroExtend 64) h rfl (lsi_eq _ _)
  · exact ⟨completesS_div h rfl hb (if_neg hb), completesS_div h rfl hb (if_neg hb), completesS_div h rfl hb (if_neg hb),
      completesS_div h rfl hb (if_neg hb)⟩
  · intro p hp
    obtain ⟨f, hword, hval⟩ : ∃ f, exec p.1 s = divWord f d a b s ∧ f (getS s a) 0 = p.2 := by
      simp only [List.mem_cons, List.not_mem_nil, or_false] at hp
      rcases hp with rfl | rfl | rfl | rfl
      · exact ⟨divS, rfl, rfl⟩
      · exact ⟨divU, rfl, rfl⟩
      · exact ⟨remS, rfl, rfl⟩
      · exact ⟨remU, rfl, rfl⟩
    rw [hword]
    split
    · exact divWord_traps h hb ‹_›
    · obtain ⟨hset, hkept⟩ := withDzf_aexc s
      refine ⟨_, divWord_zero h hb ‹_›, ?_, fun r hr => ?_, ?_, fun j hj => ?_, ?_⟩
      · rw [hval]
        exact (getS_setS (withDzf s) d d p.2).trans (if_pos rfl)
      · exact (getS_setS (withDzf s) d r _).trans (if_neg hr)
      · exact (congrArg (·.getLsbD 8) (Core.setS_aexc _ _ _)).trans hset
      · exact (congrArg (·.getLsbD j) (Core.setS_aexc _ _ _)).trans (hkept j hj)
      · exact congrArg (fun k => wordDone { s with core := k }) (setS_withDzf d _ s)

/-! ## Compares (R92) -/

theorem bne_eq_decide (x y : Word) : (x != y) = decide (x ≠ y) := by
  by_cases h : x = y <;> simp [h]

/-- Settles O2, by the shape of each word. -/
theorem compareWords : Obligations.CompareWords := by
  intro s p q r d a b imm inv
  refine ⟨fun h => ?_, fun h => ?_, fun h => ?_, fun h => ?_⟩
  · exact ⟨completesP_cmp (c := fun x y => x == y) h rfl rfl, completesP_cmp (c := fun x y => x != y) h rfl (bne_eq_decide _ _),
      completesP_cmp (c := fun x y => x.slt y) h rfl BitVec.slt_eq_decide, completesP_cmp (c := fun x y => x.sle y) h rfl BitVec.sle_eq_decide,
      completesP_cmp (c := fun x y => x.ult y) h rfl BitVec.ult_eq_decide, completesP_cmp (c := fun x y => x.ule y) h rfl BitVec.ule_eq_decide,
      completesP_cmp (c := fun x y => x &&& y == y) h rfl rfl, completesP_cmp (c := fun x y => x &&& y != 0) h rfl (bne_eq_decide _ _)⟩
  · refine ⟨completesP_cmpi (c := fun x y => x == y) h rfl rfl, completesP_cmpi (c := fun x y => x.slt y) h rfl ?_,
      completesP_cmpi (c := fun x y => x.ult y) h rfl BitVec.ult_eq_decide⟩
    rw [BitVec.slt_eq_decide, BitVec.toInt_signExtend_of_le (by decide)]
  · exact ⟨completesP_pred (f := (· && ·)) h rfl, completesP_pred (f := (· || ·)) h rfl⟩
  · exact completesS_of h (show execSel d p a b s = _ by unfold execSel; rfl) rfl

end Sys2Proof.Machine
end

