-- ==== Sys2Proof/Proofs/BranchWords.lean ====
section
/-! SUPPORT. Branches, their preparation, loop counters and guards of the A-stream (R24, R29, R30, R93 to R95), and what the return from a handler
does to the stopped streams (R264, R266). -/

namespace Sys2Proof.Machine

open Sys2Proof

section
variable {s : State} {b : BitVec 3} {p : BitVec 4} {sense : Bool}

/-! ## Branches (R94) -/

theorem exec_br (h : Issues s [] [p]) :
    exec (.br b p sense) s =
      .next (if getP s p ^^ sense then { s with core := s.core.branch (bank s.core.b b) s.time } else wordDone s) := by
  show execBr b p sense s = _
  unfold execBr
  rw [aWord_go h, apply_ite (finishA s)]
  rfl

theorem exec_bloop (lc : BitVec 2) (h : Issues s [] [p]) :
    exec (.bloop b p sense lc) s =
      .next (if (getP s p ^^ sense) = true ∧ bank s.core.lc lc ≠ 0 then
          { s with core := { s.core with lc := bankSet s.core.lc lc (bank s.core.lc lc - 1) }.branch (bank s.core.b b) s.time }
        else wordDone s) := by
  show execBloop b p sense lc s = _
  unfold execBloop
  rw [aWord_go h]
  simp only [Bool.and_eq_true, bne_iff_ne (a := bank s.core.lc lc)]
  rw [apply_ite (finishA s)]
  rfl

theorem exec_brl (link : BitVec 6) (h : Issues s [] [p]) :
    exec (.brl b p sense link) s =
      .next (if getP s p ^^ sense then { s with core := (s.core.setS link (s.core.pc + 4)).branch (bank s.core.b b) s.time }
        else wordDone s) := by
  show execBrl b p sense link s = _
  unfold execBrl
  rw [aWord_go h, apply_ite (finishA s)]
  rfl

/-! ## The return from a handler (R264, R266) -/

theorem Core.branch_of_notRearmed {k : Core} (target : Word) (now : Nat) (h : k.rearmed = false) :
    k.branch target now = Core.note 3 1 { k with pc := target, grd := none } := by
  simp only [Core.branch, h, Bool.false_eq_true, if_false]

/-- The first taken branch after the re-arming leaves the handler; of the streams only what waits for a trap of its own stays stopped. -/
theorem Core.branch_of_rearmed {k : Core} (target : Word) (now : Nat) (h : k.rearmed = true) :
    (k.branch target now).pc = target ∧ (k.branch target now).inHandler = false ∧
      (k.branch target now).vseq = (if k.vtrap.isSome then k.vseq else (k.vseq.resumed k.vpc).1) ∧
      (k.branch target now).vpc = (if k.vtrap.isSome then k.vpc else (k.vseq.resumed k.vpc).2) ∧
      (k.branch target now).mseq = if k.rq.any (·.fault) then k.mseq else k.mseq.resumed := by
  simp only [Core.branch, h, if_true]
  refine ⟨rfl, rfl, ?_, ?_, rfl⟩ <;> cases hv : k.vtrap <;> simp [Core.leaveHandler, hv]

/-! ## Guards (R29) -/

theorem exec_grd_outside (h : Issues s [] [p]) (hw : fetchA { s.core with pc := s.core.pc + 4 } = none) :
    exec (.grd sense p) s = .next (trapsIn s s .illegal .a 0) := by
  show execGrd sense p s = _
  unfold execGrd
  rw [aWord_go h]
  simp only [hw]
  rfl

theorem exec_grd_unguardable {w : BitVec 32} {c : TrapCode} (h : Issues s [] [p])
    (hw : fetchA { s.core with pc := s.core.pc + 4 } = some w) (hc : guardFault w = some c) (hsoft : c ≠ .soft) :
    exec (.grd sense p) s = .next (trapsIn s s c .a 0) := by
  show execGrd sense p s = _
  unfold execGrd
  rw [aWord_go h]
  simp only [hw, hc, finishA, beq_eq_false_iff_ne.2 hsoft, Bool.false_eq_true, if_false]

theorem exec_grd_guards {w : BitVec 32} (h : Issues s [] [p]) (hw : fetchA { s.core with pc := s.core.pc + 4 } = some w)
    (hc : guardFault w = none) :
    exec (.grd sense p) s =
      .next (if getP s p ^^ sense then { s with core := { s.core with pc := s.core.pc + 4, grd := some s.core.pc } }
        else { s with core := Core.note 3 1 { s.core with pc := s.core.pc + 4 + 4, grd := none } }) := by
  show execGrd sense p s = _
  unfold execGrd
  rw [aWord_go h]
  simp only [hw, hc]
  rw [apply_ite (finishA s)]
  rfl

/-- The trap of a word that may not be guarded is one of decoding (R29). -/
theorem guardFault_ne_soft {w : BitVec 32} {c : TrapCode} (h : guardFault w = some c) : c ≠ .soft := by
  unfold guardFault at h
  rintro rfl
  split at h <;> simp_all

end

/-- Settles O3: what a branch does by whether it is taken, the core by whether its handler has re-armed, a guard by the word after it. -/
theorem branchWords : Obligations.BranchWords := by
  refine ⟨fun s b p sense link lc => ⟨fun h => ⟨exec_br h, exec_bloop lc h, exec_brl link h⟩, fun hr => ?_, fun hr => ?_⟩,
    fun s b a hint disp lc x => ⟨fun h => ⟨?_, ?_⟩, fun h => ⟨?_, ?_⟩⟩, fun s sense p h => ?_⟩
  · have hb := Core.branch_of_notRearmed (bank s.core.b b) s.time hr
    exact ⟨by rw [hb]; rfl, hb⟩
  · obtain ⟨hpc, hh, hv, hvpc, hm⟩ := Core.branch_of_rearmed (bank s.core.b b) s.time hr
    refine ⟨hpc, hh, fun ht r hs => ?_, fun ht => ?_, fun hs => ?_⟩
    · rw [hv, hvpc, ht, hs]
      exact ⟨rfl, rfl⟩
    · rw [hv, if_pos (Option.isSome_iff_ne_none.2 ht)]
    · rw [hm, hs]
      rfl
  · show execPb b hint disp s = _
    unfold execPb
    rw [aWord_go h, four_mul_sx]
    rfl
  · exact aWord_go h _
  · show execPbr b a hint s = _
    unfold execPbr
    rw [aWord_go h]
    rfl
  · show execLcset lc a s = _
    unfold execLcset
    rw [aWord_go h]
    rfl
  · intro next
    split
    · exact exec_grd_outside h ‹_›
    · split
      · exact exec_grd_unguardable h ‹_› ‹_› (guardFault_ne_soft ‹_›)
      · exact exec_grd_guards h ‹_› ‹_›

end Sys2Proof.Machine
end

