-- ==== Sys2Proof/Proofs/AccessWords.lean ====
section
/-! SUPPORT. Loads, stores and atomics of the A-stream at addresses of this part (R96, R99, R100): the word as one equation, and what it leaves in
memory where the bytes lie in ordinary memory. -/

namespace Sys2Proof.Machine

open Sys2Proof

section
variable {s : State} {d a b : BitVec 6} {off : BitVec 11} {n pa : Nat}

/-! ## Addresses -/

theorem effAddr_eq (s : State) (a : BitVec 6) (n : Nat) (off : BitVec 11) :
    effAddr s a n off = getS s a + BitVec.ofInt 64 (off.toInt * n) := by
  rw [effAddr, BitVec.ofInt_mul, BitVec.ofInt_natCast]
  rfl

/-- The order asks for no alignment, or the address has it (R96). -/
theorem not_misaligned {α : Type} [DecidableEq α] {o o' : α} {k : Nat} (h : o = o' ∨ k = 0) : (o != o' && k != 0) = false := by
  rcases h with rfl | rfl <;> simp

theorem peerOf_memSites (pa n : Nat) : peerOf (memSites pa n) = none := by
  cases n with
  | zero => rfl
  | succ n =>
    rw [memSites_succ]
    rfl

/-! ## Loads (R96) -/

theorem loadWord_local {signed strict : Bool} {ord : LdOrder} {seen : Seen} (h : Issues s [a] [])
    (hal : ord = .plain ∨ (effAddr s a n off).toNat % n = 0) (hw : watchHit s (effAddr s a n off) = false)
    (hp : peerOf (strandSites s false false (effAddr s a n off) n) = none)
    (hl : localWaits s (ord == .sc) false (effAddr s a n off) (strandSites s false false (effAddr s a n off) n) = false)
    (hr : readSites (if strict then .strict else .load) (strandSites s false false (effAddr s a n off) n) s = .ok seen s) :
    loadWord n signed d a ord strict off s =
      .next (wordDone (noteMiss (seen.miss.any id) (setP 14 (seen.miss.any id) (setS d (extended signed seen.bytes) s)))) := by
  unfold loadWord
  rw [aWord_go h]
  simp only [not_misaligned hal, hw, hp, hl, hr, Bool.false_eq_true, if_false]
  rfl

/-- A write of an s-register and of a predicate, with the register files it gives. -/
theorem Core.setP_setS_writes (k : Core) (d : BitVec 6) (v : Word) (p : BitVec 4) (x : Bool) :
    (k.setS d v).setP p x =
      { k.overwrite [d] [p] with s := ((k.setS d v).setP p x).s, p := ((k.setS d v).setP p x).p } := by
  have hs := Core.setS_writes k d v
  have hp := Core.setP_writes (k.setS d v) p x
  have hout : (k.setS d v).overwrite [] [p] = { k.overwrite [d] [p] with s := (k.setS d v).s } := by
    rw [← Core.overwrite_both k [d] [p]]
    conv_lhs => rw [hs]
    rfl
  rw [Core.setP_s]
  conv_lhs => rw [hp, hout]

@[simp] theorem getS_noteMiss (miss : Bool) (s : State) (r : BitVec 6) : getS (noteMiss miss s) r = getS s r := by
  cases miss <;> rfl

@[simp] theorem getP_noteMiss (miss : Bool) (s : State) (p : BitVec 4) : getP (noteMiss miss s) p = getP s p := by
  cases miss <;> rfl

/-- The state after a load's completion is `s` but for the register and p14. -/
theorem noteMiss_writes (miss : Bool) (d : BitVec 6) (v : Word) (s : State) :
    noteMiss miss (setP 14 miss (setS d v s)) = noteMiss miss { s with core := { s.core.overwrite [d] [14] with
      s := (noteMiss miss (setP 14 miss (setS d v s))).core.s, p := (noteMiss miss (setP 14 miss (setS d v s))).core.p } } := by
  have hk := Core.setP_setS_writes s.core d v 14 miss
  have hs : (noteMiss miss (setP 14 miss (setS d v s))).core.s = ((s.core.setS d v).setP 14 miss).s := by cases miss <;> rfl
  have hp : (noteMiss miss (setP 14 miss (setS d v s))).core.p = ((s.core.setS d v).setP 14 miss).p := by cases miss <;> rfl
  rw [hs, hp, ← hk]
  rfl

/-- What a clean byte of memory, or a byte of a page that is not resident, gives a load that is not strict (R96, R310). -/
def valueAt (s : State) : Site → Byte × Bool
  | .mem pa => (memGet s.mem pa, false)
  | .page _ _ => (0, true)
  | _ => (0, false)

/-! ## Stores (R96) -/

theorem storeWord_local {ord : StOrder} {kept : Bool} {s' : State} (h : Issues s [d, a] [])
    (hal : ord = .plain ∨ (effAddr s a n off).toNat % n = 0) (hw : watchHit s (effAddr s a n off) = false)
    (hp : peerOf (strandSites s true false (effAddr s a n off) n) = none)
    (hl : localWaits s (ord == .sc) (ord != .plain) (effAddr s a n off) (strandSites s true false (effAddr s a n off) n) = false)
    (hr : writeSites (strandSites s true false (effAddr s a n off) n) (leBytes n (getS s d).toNat) (strandWriter s) (effAddr s a n off) s =
      .ok kept s') :
    storeWord n d a ord off s = .next (wordDone (noteKept kept (effAddr s a n off) s')) := by
  unfold storeWord
  rw [aWord_go h]
  simp only [not_misaligned hal, hw, hp, hl, hr, Bool.false_eq_true, if_false]
  rfl

/-- Where Selvedge is off, a checked write of bytes that lie in memory is the write of the bytes. -/
theorem writeSites_leBytes {by_ : Option Writer} {va : Word} (x : Nat) (hn : 0 < n) (hsv : s.sv.en = false) :
    writeSites (memSites pa n) (leBytes n x) by_ va s = .ok true (putMem pa (leBytes n x) s) := by
  have hne : leBytes n x ≠ [] := List.ne_nil_of_length_pos (by rw [leBytes_length]; exact hn)
  have hw := writeSites_mem pa (leBytes n x) by_ va s hne
  rwa [leBytes_length, putPhys_plain _ _ _ _ _ hsv] at hw

/-- The bytes of a value just written to memory. -/
theorem memGet_putMem_leBytes (x : Nat) {i : Nat} (hc : Canonical s) (hi : i < n) :
    memGet (putMem pa (leBytes n x) s).mem (pa + i) = BitVec.ofNat 8 (x / 256 ^ i) := by
  rw [putMem_mem, memGet_memPut _ _ _ _ hc.mem, leBytes_length, if_pos (by omega), Nat.add_sub_cancel_left, leBytes_getElem _ _ _ hi]
  rfl

theorem memGet_putMem_outside {bs : List Byte} {y : Nat} (hc : Canonical s) (hy : ¬(pa ≤ y ∧ y < pa + bs.length)) :
    memGet (putMem pa bs s).mem y = memGet s.mem y := by
  rw [putMem_mem, memGet_memPut _ _ _ _ hc.mem, if_neg hy]

end

/-- Settles O4: every width is one word, and clean bytes of memory read as they stand. -/
theorem loadWords : Obligations.LoadWords := by
  refine ⟨fun s d a ord strict off h p hp => ?_, fun s kind sites => ⟨fun hx => ?_, fun hx => ?_⟩⟩
  · have hword : exec p.1 s = loadWord p.2.1 p.2.2 d a ord strict off s := by
      simp only [List.mem_cons, List.not_mem_nil, or_false] at hp
      rcases hp with rfl | rfl | rfl | rfl | rfl | rfl | rfl <;> rfl
    intro n va sites hal hw hpeer hl seen hr miss
    have hva : effAddr s a n off = va := effAddr_eq s a n off
    refine ⟨_, hword.trans (loadWord_local h (by rwa [hva]) (by rwa [hva]) (by rwa [hva]) (by rwa [hva]) (by rwa [hva])),
      ?_, fun r hr => ?_, ?_, fun q hq => ?_, ?_⟩
    · exact (getS_noteMiss _ _ _).trans ((getS_setP _ _ _ _).trans ((getS_setS _ _ _ _).trans (if_pos rfl)))
    · exact (getS_noteMiss _ _ _).trans ((getS_setP _ _ _ _).trans ((getS_setS _ _ _ _).trans (if_neg hr)))
    · exact (getP_noteMiss _ _ _).trans ((getP_setP _ _ _ _).trans (if_pos rfl))
    · exact (getP_noteMiss _ _ _).trans ((getP_setP _ _ _ _).trans ((if_neg hq).trans (getP_setS _ _ _ _)))
    · exact congrArg wordDone (noteMiss_writes _ _ _ _)
  · have hval : ∀ x ∈ sites, readSite s kind x = .value (valueAt s x).1 false := by
      intro x hmem
      obtain ⟨pa, rfl, hdead, hpoison⟩ := hx x hmem
      exact readSite_mem s kind pa hdead hpoison
    refine (readSites_values kind sites s (fun x => ((valueAt s x).1, false)) hval).trans ?_
    congr 2
    refine List.map_congr_left fun x hmem => ?_
    obtain ⟨pa, rfl, -⟩ := hx x hmem
    rfl
  · have hval : ∀ x ∈ sites, readSite s .load x = .value (valueAt s x).1 (valueAt s x).2 := by
      intro x hmem
      rcases hx x hmem with ⟨pa, rfl, hdead, hpoison⟩ | ⟨b, i, rfl⟩
      · exact readSite_mem s .load pa hdead hpoison
      · rfl
    refine (readSites_values .load sites s (valueAt s) hval).trans ?_
    congr 2
    · refine List.map_congr_left fun x hmem => ?_
      rcases hx x hmem with ⟨pa, rfl, -⟩ | ⟨b, i, rfl⟩ <;> rfl
    · refine List.map_congr_left fun x hmem => ?_
      rcases hx x hmem with ⟨pa, rfl, -⟩ | ⟨b, i, rfl⟩ <;> rfl

/-- Settles O5: every width is one word, and where the bytes lie in memory it is the write of the bytes. -/
theorem storeWords : Obligations.StoreWords := by
  refine ⟨fun s d a ord off h p hp => ?_, fun s d a ord off h hc hsv p hp => ?_⟩
  · have hword : exec p.1 s = storeWord p.2 d a ord off s := by
      simp only [List.mem_cons, List.not_mem_nil, or_false] at hp
      rcases hp with rfl | rfl | rfl | rfl <;> rfl
    intro n va sites hal hw hpeer hl kept s' hr
    have hva : effAddr s a n off = va := effAddr_eq s a n off
    have hstore := storeWord_local h (by rwa [hva]) (by rwa [hva]) (by rwa [hva]) (by rwa [hva]) (by rw [hva]; exact hr)
    rw [hword, hstore, hva]
  · obtain ⟨hword, hn⟩ : exec p.1 s = storeWord p.2 d a ord off s ∧ 0 < p.2 := by
      simp only [List.mem_cons, List.not_mem_nil, or_false] at hp
      rcases hp with rfl | rfl | rfl | rfl <;> exact ⟨rfl, Nat.zero_lt_succ _⟩
    intro n va pa hsites hal hw hl
    have hva : effAddr s a n off = va := effAddr_eq s a n off
    have hstore := storeWord_local (kept := true) (s' := putMem pa (leBytes n (getS s d).toNat) s) h (by rwa [hva]) (by rwa [hva])
      (by rw [hva, hsites]; exact peerOf_memSites pa n) (by rwa [hva]) (by rw [hva, hsites]; exact writeSites_leBytes _ hn hsv)
    refine ⟨_, hword.trans hstore, fun i hi => memGet_putMem_leBytes _ hc hi, fun x hx => memGet_putMem_outside hc ?_, ?_⟩
    · rwa [leBytes_length]
    · simp only [noteKept, if_true, putMem, leBytes_length]

end Sys2Proof.Machine
end

