-- ==== Sys2Proof/Proofs/AtomicWords.lean ====
section
/-! SUPPORT. Atomics of the A-stream at addresses of this part (R99, R100, R316): the old value is read and the new one written in one action. -/

namespace Sys2Proof.Machine

open Sys2Proof

section
variable {s : State} {d a b : BitVec 6} {n pa : Nat}

/-! ## Bytes read and written in one action (R100) -/

/-- The bytes of a value are the bytes that it was read from. -/
theorem leBytes_leNat (bs : List Byte) : leBytes bs.length (leNat bs) = bs := by
  induction bs with
  | nil => rfl
  | cons x rest ih =>
    have hx := x.isLt
    have hdiv : (x.toNat + 256 * leNat rest) / 256 = leNat rest := by omega
    have hlow : BitVec.ofNat 8 (x.toNat + 256 * leNat rest) = x := by
      refine BitVec.eq_of_toNat_eq ?_
      rw [BitVec.toNat_ofNat]
      omega
    simp only [List.length_cons, leNat, leBytes, hdiv, hlow, ih]

/-- The value of `n` bytes of memory. -/
abbrev valueOf (s : State) (pa n : Nat) : Nat := leNat ((List.range n).map fun i => memGet s.mem (pa + i))

theorem memGet_of_valueOf {i : Nat} (hi : i < n) : memGet s.mem (pa + i) = BitVec.ofNat 8 (valueOf s pa n / 256 ^ i) := by
  have hlen : ((List.range n).map fun i => memGet s.mem (pa + i)).length = n := by simp
  have hbytes := leBytes_leNat ((List.range n).map fun i => memGet s.mem (pa + i))
  rw [hlen] at hbytes
  have hget := leBytes_getElem n (valueOf s pa n) i hi
  rw [hbytes, List.getElem?_map, List.getElem?_range hi] at hget
  exact Option.some.inj hget

/-- No byte of the range lies in a line that cannot be read (R328, R454). -/
def CleanBytes (s : State) (pa n : Nat) : Prop :=
  ∀ i, i < n → s.sv.deadLines.contains ((pa + i) / 64) = false ∧ s.poison.contains ((pa + i) / 64) = false

theorem readSites_memSites (kind : ReadKind) (h : CleanBytes s pa n) :
    readSites kind (memSites pa n) s =
      .ok ⟨(List.range n).map fun i => memGet s.mem (pa + i), (List.range n).map fun _ => false⟩ s := by
  have hval : ∀ x ∈ memSites pa n, readSite s kind x = .value (valueAt s x).1 (valueAt s x).2 := by
    intro x hx
    obtain ⟨i, hi, rfl⟩ := List.mem_map.1 hx
    obtain ⟨hdead, hpoison⟩ := h i (List.mem_range.1 hi)
    exact readSite_mem s kind (pa + i) hdead hpoison
  refine (readSites_values kind (memSites pa n) s (valueAt s) hval).trans ?_
  simp only [memSites, List.map_map]
  rfl

/-- Memory after an atomic: the new value, where there is one. -/
def putNew (pa n : Nat) (new : Option Nat) (s : State) : State := new.elim s fun x => putMem pa (leBytes n x) s

theorem rmwSites_memSites {f : Nat → Option Nat} {by_ : Option Writer} {va : Word} (hn : 0 < n) (hsv : s.sv.en = false)
    (h : CleanBytes s pa n) :
    rmwSites (memSites pa n) f by_ va s = .ok (valueOf s pa n, true) (putNew pa n (f (valueOf s pa n)) s) := by
  unfold rmwSites
  rw [readySites_mem]
  dsimp only
  rw [validate_foldl _ _ fun x hx => .inl (memSites_mem _ _ _ hx), readSites_memSites .rmw h]
  dsimp only
  cases hf : f (leNat ((List.range n).map fun i => memGet s.mem (pa + i))) with
  | none => rfl
  | some new =>
    have hne : leBytes n new ≠ [] := List.ne_nil_of_length_pos (by rw [leBytes_length]; exact hn)
    have hput := putSites_mem pa (leBytes n new) by_ va s hne
    rw [leBytes_length, putPhys_plain _ _ _ _ _ hsv] at hput
    simp only [memSites, List.length_map, List.length_range] at hput ⊢
    rw [hput]
    rfl

theorem putNew_memGet {new : Option Nat} {i : Nat} (hc : Canonical s) (hi : i < n) :
    memGet (putNew pa n new s).mem (pa + i) = BitVec.ofNat 8 (new.getD (valueOf s pa n) / 256 ^ i) := by
  cases new with
  | none => exact memGet_of_valueOf hi
  | some x => exact memGet_putMem_leBytes x hc hi

theorem putNew_memGet_outside {new : Option Nat} {x : Nat} (hc : Canonical s) (hx : ¬(pa ≤ x ∧ x < pa + n)) :
    memGet (putNew pa n new s).mem x = memGet s.mem x := by
  cases new with
  | none => rfl
  | some y => exact memGet_putMem_outside hc (by rwa [leBytes_length])

theorem putNew_core (pa n : Nat) (new : Option Nat) (s : State) : (putNew pa n new s).core = s.core := by
  cases new <;> rfl

/-- An atomic changes its register, memory and what belongs to memory. -/
theorem setS_putNew_writes (d : BitVec 6) (v : Word) (pa n : Nat) (new : Option Nat) (s : State) :
    setS d v (putNew pa n new s) = { s with
      core := { s.core.overwrite [d] [] with s := (setS d v (putNew pa n new s)).core.s }
      mem := (setS d v (putNew pa n new s)).mem, poison := (setS d v (putNew pa n new s)).poison
      images := (setS d v (putNew pa n new s)).images, monitors := (setS d v (putNew pa n new s)).monitors } := by
  have hk := Core.setS_writes s.core d v
  cases new with
  | none => exact congrArg (fun k => { s with core := k }) hk
  | some x => exact congrArg (fun k => { putMem pa (leBytes n x) s with core := k }) hk

/-! ## The word (R99, R316) -/

/-- Outside the host windows every atomic is allowed; in one, those that become a PCI Express AtomicOp (R316). -/
theorem hostAllows {op : AmoOp} (h : pa + n ≤ hostBase ∨ hostEnd ≤ pa ∨ hostAtomic op n = true) :
    ((memSites pa n).any Site.inHost && !hostAtomic op n) = false := by
  rcases h with h | h | h
  · have hout : (memSites pa n).any Site.inHost = false := by
      simp only [memSites, List.any_map, List.any_eq_false, List.mem_range, Function.comp_apply, Site.inHost, Bool.and_eq_true,
        decide_eq_true_eq]
      omega
    rw [hout, Bool.false_and]
  · have hout : (memSites pa n).any Site.inHost = false := by
      simp only [memSites, List.any_map, List.any_eq_false, List.mem_range, Function.comp_apply, Site.inHost, Bool.and_eq_true,
        decide_eq_true_eq]
      omega
    rw [hout, Bool.false_and]
  · rw [h, Bool.not_true, Bool.and_false]

theorem hostAtomic_of_swap_add_cas {op : AmoOp} {size : MemSize} (hop : op = .add ∨ op = .swap ∨ op = .cas) (hn : 4 ≤ size.bytes) :
    hostAtomic op size.bytes = true := by
  rcases hop with rfl | rfl | rfl <;> cases size <;> simp_all [hostAtomic, MemSize.bytes]

/-- The registers that an atomic reads. -/
abbrev amoReads (op : AmoOp) (d a b : BitVec 6) : List (BitVec 6) := if op == .cas then [a, b, d] else [a, b]

theorem amoWord_memory {op : AmoOp} {size : MemSize} {ord : AmoOrder} (h : Issues s (amoReads op d a b) []) (hsv : s.sv.en = false)
    (hal : (getS s a).toNat % size.bytes = 0) (hw : watchHit s (getS s a) = false)
    (hl : localWaits s false (amoReleases ord) (getS s a) (strandSites s true true (getS s a) size.bytes) = false)
    (hsites : strandSites s true true (getS s a) size.bytes = memSites pa size.bytes)
    (hhost : pa + size.bytes ≤ hostBase ∨ hostEnd ≤ pa ∨ hostAtomic op size.bytes = true) (hclean : CleanBytes s pa size.bytes) :
    amoWord op size ord d a b s = .next (wordDone (setS d (w64 (valueOf s pa size.bytes))
      (putNew pa size.bytes (amoNew op size.bytes ((getS s b).toNat % 2 ^ (8 * size.bytes)) ((getS s d).toNat % 2 ^ (8 * size.bytes))
        (valueOf s pa size.bytes)) s))) := by
  have hpos : 0 < size.bytes := by cases size <;> decide
  rw [hsites] at hl
  unfold amoWord
  rw [aWord_go h]
  simp only [hal, hw, hl, hsites, peerOf_memSites, hostAllows hhost, rmwSites_memSites hpos hsv hclean, bne_self_eq_false,
    Bool.false_eq_true, if_false]
  rfl

end

/-- Settles O6: every word is `amoWord` with its operation, which reads the old value and leaves the new one. -/
theorem atomicWords : Obligations.AtomicWords := by
  intro s d a b size ord hc hsv va bits v cmp below p hp
  obtain ⟨op, size', hword, hrd, hn, hhost, hnew⟩ : ∃ op size', exec p.1 s = amoWord op size' ord d a b s ∧
      p.2.1 = amoReads op d a b ∧ p.2.2.2.1 = size'.bytes ∧ (p.2.2.1 = true → op = .add ∨ op = .swap ∨ op = .cas) ∧
      p.2.2.2.2 = amoNew op size'.bytes ((getS s b).toNat % 2 ^ (8 * size'.bytes)) ((getS s d).toNat % 2 ^ (8 * size'.bytes)) := by
    simp only [List.mem_cons, List.not_mem_nil, or_false] at hp
    rcases hp with rfl | rfl | rfl | rfl | rfl | rfl | rfl | rfl | rfl | rfl | rfl | rfl
    · exact ⟨.add, size, rfl, rfl, rfl, fun _ => .inl rfl, rfl⟩
    · exact ⟨.and, size, rfl, rfl, rfl, nofun, rfl⟩
    · exact ⟨.or, size, rfl, rfl, rfl, nofun, rfl⟩
    · exact ⟨.xor, size, rfl, rfl, rfl, nofun, rfl⟩
    · exact ⟨.min, size, rfl, rfl, rfl, nofun, rfl⟩
    · exact ⟨.max, size, rfl, rfl, rfl, nofun, rfl⟩
    · exact ⟨.minu, size, rfl, rfl, rfl, nofun, rfl⟩
    · exact ⟨.maxu, size, rfl, rfl, rfl, nofun, rfl⟩
    · exact ⟨.swap, size, rfl, rfl, rfl, fun _ => .inr (.inl rfl), rfl⟩
    · exact ⟨.cas, size, rfl, rfl, rfl, fun _ => .inr (.inr rfl), rfl⟩
    · exact ⟨.faddF32, .b4, rfl, rfl, rfl, nofun, rfl⟩
    · exact ⟨.faddBf16, .b2, rfl, rfl, rfl, nofun, rfl⟩
  rw [hn, hrd, hnew]
  intro n pa h hal hw hl hsites hwindow hclean old
  have hallowed : pa + n ≤ hostBase ∨ hostEnd ≤ pa ∨ hostAtomic op n = true :=
    hwindow.imp_right fun hx => hx.imp_right fun hx => hostAtomic_of_swap_add_cas (hhost hx.1) hx.2
  have hdone := amoWord_memory h hsv hal hw hl hsites hallowed hclean
  refine ⟨_, hword.trans hdone, ?_, fun r hr => ?_, fun i hi => putNew_memGet hc hi, fun x hx => putNew_memGet_outside hc hx, ?_⟩
  · exact (getS_setS _ d d _).trans (if_pos rfl)
  · exact (getS_setS _ d r _).trans ((if_neg hr).trans (congrArg (·.getS r) (putNew_core pa n _ s)))
  · exact congrArg wordDone (setS_putNew_writes d _ pa n _ s)

end Sys2Proof.Machine
end

