-- ==== Sys2Proof/Proofs/SemaphoreWords.lean ====
section
/-! SUPPORT. Semaphore words (R103, R126, R127), FENCE (R101, R102, R348, R431), and an LDQ at the limit on requests (R97, R138). -/

namespace Sys2Proof.Machine

open Sys2Proof

section
variable {s : State} {d a : BitVec 6} {sem : BitVec 8}

/-! ## Semaphores (R103) -/

theorem exec_semSig_adds (h : Issues s [a] []) (ho : openAt s (coreBase + s.cur * 0x200000) 0x200000 = false)
    (hn : (bank s.core.sem sem).toNat + (getS s a).toNat ≤ 65535) :
    CompletesTo (.semSig sem a) s { s with core := Core.note 0x1B 1 { s.core with
      sem := bankSet s.core.sem sem (BitVec.ofNat 16 ((bank s.core.sem sem).toNat + (getS s a).toNat)) } } := by
  show execSemSig sem a s = _
  unfold execSemSig semAdd
  rw [aWord_go h]
  simp only [ho, hn, Bool.false_eq_true, if_false, if_true]
  rfl

theorem exec_semSig_overflows (h : Issues s [a] []) (ho : openAt s (coreBase + s.cur * 0x200000) 0x200000 = false)
    (hn : 65535 < (bank s.core.sem sem).toNat + (getS s a).toNat) :
    exec (.semSig sem a) s = .next (trapsIn s s .semOvf .a (sem.zeroExtend 64)) := by
  show execSemSig sem a s = _
  unfold execSemSig semAdd
  rw [aWord_go h]
  simp only [ho, Nat.not_le.2 hn, Bool.false_eq_true, if_false]
  rfl

theorem exec_semAcq_takes (h : Issues s [a] []) (hn : (getS s a).toNat ≤ (bank s.core.sem sem).toNat) :
    CompletesTo (.semAcq d sem a) s (setS d (w64 ((bank s.core.sem sem).toNat - (getS s a).toNat)) { s with core := { s.core.latchWaits with
      sem := bankSet s.core.sem sem (BitVec.ofNat 16 ((bank s.core.sem sem).toNat - (getS s a).toNat)) } }) := by
  have hlt := (bank s.core.sem sem).isLt
  show execSemAcq d sem a s = _
  unfold execSemAcq
  rw [aWord_go h]
  dsimp only
  rw [if_neg (by omega), if_neg (by omega)]
  rfl

theorem exec_semAcq_overflows (h : Issues s [a] []) (hn : 65535 < (getS s a).toNat) :
    exec (.semAcq d sem a) s = .next (trapsIn s s .semOvf .a (sem.zeroExtend 64)) := by
  show execSemAcq d sem a s = _
  unfold execSemAcq
  rw [aWord_go h]
  dsimp only
  rw [if_pos hn]
  rfl

theorem exec_semAcq_waits (h : Issues s [a] []) (hc : (bank s.core.sem sem).toNat < (getS s a).toNat) (hn : (getS s a).toNat ≤ 65535) :
    exec (.semAcq d sem a) s = .next { s with core := s.core.back } := by
  show execSemAcq d sem a s = _
  unfold execSemAcq
  rw [aWord_go h]
  dsimp only
  rw [if_neg (by omega), if_pos hc]
  rfl

theorem mem_latchWaits_copyq {k : Core} {c : CopyCmd} (h : c ∈ k.copyq) :
    { c with met := c.met || decide (c.wthr ≤ bank k.sem c.wsem) } ∈ k.latchWaits.copyq :=
  List.mem_map.2 ⟨c, h, rfl⟩

end

/-! ## FENCE (R101, R102) -/

section
variable {s : State} {scope : FenceScope} {ord : FenceOrder} {paths : BitVec 5}

/-- No fault is recorded that a FENCE of the scope and paths would deliver (R101, R114, R424, R447). -/
structure NoFenceFault (scope : FenceScope) (paths : BitVec 5) (k : Core) : Prop where
  copy : paths.getLsbD 1 = true → k.copyTrap = none
  read : k.readFault = none
  store : wideScope scope = true → k.storeFaults = []
  durable : scope = .survive → k.ndur = none

theorem copyEndAt_none (h : s.core.copyTrap = none) : copyEndAt s = none := by
  simp only [copyEndAt, copyTrapAt, h, Option.map_none]

theorem exec_fence (h : Issues s [] []) (hf : NoFenceFault scope paths s.core) :
    exec (.fence scope ord paths) s = .next (finishA s
      (if fenceWaits scope paths s then .stall s else .done (if wideScope scope && paths.getLsbD 0 then renewAt s else s))) := by
  have hcopy : (if paths.getLsbD 1 then copyEndAt s else none) = none := by
    split
    · exact copyEndAt_none (hf.copy ‹_›)
    · rfl
  have hread : readFaultAt s = none := by simp only [readFaultAt, hf.read, Option.map_none]
  have hstore : (if wideScope scope then storeFaultAt s else none) = none := by
    split
    · simp only [storeFaultAt, hf.store ‹_›]
    · rfl
  have hdurable : (if scope == .survive then ndurAt s else none) = none := by
    split
    · simp only [ndurAt, hf.durable (eq_of_beq ‹_›), Option.map_none]
    · rfl
  show execFence scope ord paths s = _
  unfold execFence
  rw [aWord_go h]
  simp only [hcopy, hread, hstore, hdurable, List.findSome?_cons, List.findSome?_nil, id]

end

/-- Settles O8: each semaphore word by the count, a FENCE by whether what it covers is over. -/
theorem semaphoresAndFences : Obligations.SemaphoresAndFences := by
  refine ⟨fun s d a sem => ⟨fun h ho => ⟨exec_semSig_adds h ho, exec_semSig_overflows h ho⟩,
    fun h => ⟨exec_semAcq_takes h, exec_semAcq_overflows h, exec_semAcq_waits h⟩, ⟨rfl, rfl, fun c hc => ⟨_, mem_latchWaits_copyq hc, rfl⟩⟩,
    fun h => ?_⟩, fun s scope ord paths h hcopy hread hstore hdurable => ?_⟩
  · have hval : (bank s.core.sem sem).zeroExtend 64 = BitVec.ofNat 64 (bank s.core.sem sem).toNat := (BitVec.ofNat_toNat _ _).symm
    exact completesS_of h (show execSemRd d sem s = _ by unfold execSemRd; rfl) (by rw [hval])
  · have hfence := exec_fence (ord := ord) h ⟨hcopy, hread, hstore, hdurable⟩
    refine ⟨fun hgo => ?_, fun hl => if_pos hl, fun hl => if_neg (by simp [hl]), fun hw => ?_⟩
    · show exec _ _ = _
      rw [hfence, hgo]
      rfl
    · rw [hfence, hw]
      rfl

end Sys2Proof.Machine
end

