-- ==== Sys2Proof/Proofs/QueueWordsRefuted.lean ====
section
/-! SUPPORT. An LDQ at the limit on requests (R97, R138): the core has room for one request and not for the 16 that LDQ counts. -/

namespace Sys2Proof.Machine

open Sys2Proof

/-- LDQ whose bytes lie outside the core's own store, with fewer than 16 requests left, stalls (R138). -/
theorem exec_ldq_overLimit {s : State} {a : BitVec 6} {q : BitVec 4} {acq strict : Bool} {off : BitVec 11} (h : Issues s [a] [])
    (hal : (effAddr s a 64 off).toNat % 64 = 0) (hw : watchHit s (effAddr s a 64 off) = false) (hq : (bank s.core.q q).length < 8)
    (hcopies : s.core.copiesTo q = false) (hp : peerOf (strandSites s false false (effAddr s a 64 off) 1024) = none)
    (hfar : (strandSites s false false (effAddr s a 64 off) 1024).any (fun x => !x.ownStore s.cur) = true) (hover : overLimit s 16 = true) :
    exec (.ldq q a acq strict off) s = .next { s with core := s.core.back } := by
  show execLdq q a acq strict off s = _
  unfold execLdq
  rw [aWord_go h]
  simp only [hal, hw, Nat.not_le.2 hq, hcopies, hp, hfar, hover, bne_self_eq_false, Bool.false_eq_true, Bool.or_self, Bool.and_self,
    Bool.or_true, decide_false, if_false, if_true]
  rfl

theorem wordDone_noteMiss_pc (miss : Bool) (p : BitVec 4) (s : State) : (wordDone (noteMiss miss (setP p miss s))).core.pc = s.core.pc + 4 := by
  cases miss <;> exact congrArg (· + 4) (Core.setP_pc s.core p _)

/-! ## A core with 2,040 requests -/

/-- A peer read of four lines at another part, without a reply. -/
def readAtPeer (dest : AccDest) (id : Nat) : Access := ⟨id, id, dest, 0xFF81000000000000, 0, 256, none, false, false, false, false, false⟩

/-- The copy unit holds the 1,536 requests that it may, and the V-stream 504; s1 holds the base of the image window. -/
def coreAtLimit : Core :=
  { Core.reset 0 with
    slot := some 0, launch := 1, aseq := .running, s := bankSet (Vector.replicate _ 0) 1 (BitVec.ofNat 64 imgWin), codeBase := 0x100000
    imgSize := 1024, out := (List.range 384).map (readAtPeer .copyRead) ++ (List.range' 384 126).map (readAtPeer .blockV) }

def stateAtLimit : State := { State.reset with core := coreAtLimit, nextId := 510 }

theorem requests_atLimit : stateAtLimit.core.requests = 2040 := by decide +kernel

theorem sites_atLimit : strandSites stateAtLimit false false (BitVec.ofNat 64 imgWin) 1024 = memSites 0x100000 1024 := by decide +kernel

theorem localWaits_atLimit :
    localWaits stateAtLimit false false (BitVec.ofNat 64 imgWin) (strandSites stateAtLimit false false (BitVec.ofNat 64 imgWin) 1024) = false := by
  decide +kernel

theorem exec_ldq_atLimit : exec (.ldq 0 1 false false 0) stateAtLimit = .next { stateAtLimit with core := coreAtLimit.back } := by
  have hva : effAddr stateAtLimit 1 64 0 = BitVec.ofNat 64 imgWin := by decide +kernel
  refine exec_ldq_overLimit (by decide +kernel) ?_ ?_ (by decide) (by decide +kernel) ?_ ?_ ?_
  · rw [hva]
    decide
  · rw [hva]
    rfl
  · rw [hva, sites_atLimit]
    exact peerOf_memSites _ _
  · rw [hva, sites_atLimit]
    exact List.any_eq_true.2 ⟨_, List.mem_map_of_mem (List.mem_range.2 (show 0 < 1024 by decide)), rfl⟩
  · rw [overLimit, requests_atLimit]
    rfl

/-- Refutes O7: its clause on LDQ asks that no earlier access holds the word up, and for the limit of R138 only that one request more fits. LDQ counts
16: with 2,040 requests outstanding it stalls, and its pc stays. -/
theorem not_queueAndCopyWords : ¬ Obligations.QueueAndCopyWords := by
  intro h
  obtain ⟨hwords, -⟩ := h
  obtain ⟨hldq, -⟩ := hwords stateAtLimit 0 1 0 0 false false 0
  have hva : getS stateAtLimit 1 + BitVec.ofInt 64 ((0 : BitVec 11).toInt * 64) = BitVec.ofNat 64 imgWin := by decide +kernel
  have hclean : CleanBytes stateAtLimit 0x100000 1024 := fun i hi => ⟨rfl, rfl⟩
  have hdone := hldq (by decide +kernel) (by rw [hva]; decide) (by rw [hva]; rfl) (by decide) (by decide +kernel)
    (by rw [hva, sites_atLimit]; exact peerOf_memSites _ _) (by rw [hva]; exact localWaits_atLimit) _
    (by rw [hva, sites_atLimit]; exact readSites_memSites .load hclean)
  have hpc := congrArg (fun t => t.core.pc) (Host.Outcome.next.inj (exec_ldq_atLimit.symm.trans hdone))
  exact absurd (hpc.trans (wordDone_noteMiss_pc _ _ _)) (by decide)

end Sys2Proof.Machine
end

