-- ==== Sys2Proof/Proofs/SpecialRegisters.lean ====
section
/-! SUPPORT. Control registers (R115, R116, R140, R142, R167, R266, R412) and tile descriptors (R117). -/

namespace Sys2Proof.Machine

open Sys2Proof

/-! ## Writes (R116, R167) -/

section
variable (mask old new : Word) (i : Nat)

theorem getLsbD_writeMasked :
    (writeMasked mask old new).getLsbD i = if mask.getLsbD i then new.getLsbD i else old.getLsbD i := by
  by_cases hi : i < 64
  · rw [writeMasked, BitVec.getLsbD_or, BitVec.getLsbD_and, BitVec.getLsbD_and, BitVec.getLsbD_not, decide_eq_true hi]
    generalize mask.getLsbD i = m
    cases m <;> simp only [Bool.not_true, Bool.not_false, Bool.and_true, Bool.and_false, Bool.or_false, Bool.false_or, if_true,
      Bool.false_eq_true, if_false]
  · simp [BitVec.getLsbD_of_ge _ i (Nat.not_lt.1 hi)]

theorem getLsbD_writeClear :
    (writeClear mask old new).getLsbD i = if mask.getLsbD i then old.getLsbD i && !new.getLsbD i else old.getLsbD i := by
  by_cases hi : i < 64
  · rw [writeClear, BitVec.getLsbD_and, BitVec.getLsbD_not, BitVec.getLsbD_and, decide_eq_true hi]
    generalize mask.getLsbD i = m
    cases m <;> simp only [Bool.true_and, Bool.and_true, Bool.and_false, Bool.not_false, if_true, Bool.false_eq_true, if_false]
  · simp [BitVec.getLsbD_of_ge _ i (Nat.not_lt.1 hi)]

/-- Which bits a run of ones covers. -/
theorem getLsbD_onesFrom {m : Word} {lo n : Nat} (hm : m.toNat = (2 ^ n - 1) * 2 ^ lo) : m.getLsbD i = decide (lo ≤ i ∧ i < lo + n) := by
  rw [BitVec.getLsbD, hm, Nat.testBit_mul_two_pow, Nat.testBit_two_pow_sub_one]
  by_cases h : lo ≤ i
  · simp only [h, decide_true, Bool.true_and, true_and, decide_eq_decide]
    omega
  · simp [h]

end

/-- What CRW leaves of c.aexc: DZE plainly, DZF cleared by a 1 (R116). -/
theorem writeControl_aexc (k : Core) (x : Word) :
    k.writeControl 0x12 x = { k with aexc := (k.writeControl 0x12 x).aexc } ∧
      ∀ i, (k.writeControl 0x12 x).aexc.getLsbD i =
        if i = 8 then k.aexc.getLsbD 8 && !x.getLsbD 8 else if i = 0 then x.getLsbD 0 else k.aexc.getLsbD i := by
  refine ⟨rfl, fun i => ?_⟩
  show (writeClear 0x100 (writeMasked 1 k.aexc x) x).getLsbD i = _
  rw [getLsbD_writeClear, getLsbD_writeMasked, getLsbD_onesFrom (lo := 8) (n := 1) i rfl, getLsbD_onesFrom (lo := 0) (n := 1) i rfl]
  by_cases h8 : i = 8
  · subst h8
    simp
  · by_cases h0 : i = 0
    · subst h0
      simp
    · rw [if_neg (by simp; omega), if_neg (by simp; omega), if_neg h8, if_neg h0]

/-- What CRW leaves of c.vexc: the flags cleared by a 1, the enables plainly (R167). -/
theorem writeControl_vexc (k : Core) (x : Word) :
    k.writeControl 0x13 x = { k with vexc := (k.writeControl 0x13 x).vexc } ∧
      ∀ i, (k.writeControl 0x13 x).vexc.getLsbD i =
        if i < 5 then k.vexc.getLsbD i && !x.getLsbD i else if 8 ≤ i ∧ i < 13 then x.getLsbD i else k.vexc.getLsbD i := by
  refine ⟨rfl, fun i => ?_⟩
  show (writeClear 0x1F (writeMasked 0x1F00 k.vexc x) x).getLsbD i = _
  rw [getLsbD_writeClear, getLsbD_writeMasked, getLsbD_onesFrom (lo := 0) (n := 5) i rfl, getLsbD_onesFrom (lo := 8) (n := 5) i rfl]
  by_cases h5 : i < 5
  · have h8 : ¬(8 ≤ i ∧ i < 8 + 5) := by omega
    simp [h5, h8]
  · simp [h5]

/-- CRW completes with the register written. -/
theorem exec_crw {s : State} {a : BitVec 6} (num : BitVec 10) (h : Issues s [a] []) :
    exec (.crw num a) s = .next (wordDone { s with core := s.core.writeControl num.toNat (getS s a) }) := by
  show execCrw num a s = _
  unfold execCrw
  rw [aWord_go h]
  rfl

/-! ## Reads (R115, R142, R412) -/

/-- The bits of a label make it up. -/
theorem foldl_bits (h n : Nat) : (List.range n).foldl (fun acc i => acc + bitsOf h i 1 * 2 ^ i) 0 = h % 2 ^ n := by
  induction n with
  | zero => simp [Nat.mod_one]
  | succ n ih =>
    rw [List.range_succ, List.foldl_append, ih, List.foldl_cons, List.foldl_nil, bitsOf, Nat.shiftRight_eq_div_pow, pow_one,
      Nat.pow_succ, Nat.mod_mul, Nat.mul_comm (2 ^ n)]

/-- A part that nothing relabels has its physical label (R412). -/
theorem ownLabel_plain {f : Fabric} (hm : f.mask = 0) (hp : ∀ i, i < 10 → permAt f i = i) (hs : f.subst.toList.all (fun e => !e.en) = true) :
    ownLabel f = f.label.toNat := by
  have hnone : f.subst.toList.find? (fun e => e.en && e.phys == f.label) = none := by
    refine List.find?_eq_none.2 fun e he => ?_
    have hen := List.all_eq_true.1 hs e he
    simp_all
  have hbits : labelOfPhys f f.label.toNat = (List.range 10).foldl (fun acc i => acc + bitsOf f.label.toNat i 1 * 2 ^ i) 0 := by
    unfold labelOfPhys
    refine List.foldl_ext _ _ _ fun acc i hi => ?_
    rw [hp i (List.mem_range.1 hi), hm]
    simp [bitsOf]
  rw [ownLabel, hnone]
  dsimp only
  rw [hbits, foldl_bits, Nat.mod_eq_of_lt f.label.isLt]

/-- A temperature with the clamp's bit above it (R142). -/
theorem ctemp_fields (x : Word) (b : Bool) :
    (w64 (x.toNat % 0x10000 + bit b * 0x10000)).extractLsb' 0 16 = x.extractLsb' 0 16 ∧
      (w64 (x.toNat % 0x10000 + bit b * 0x10000)).extractLsb' 17 47 = 0#47 ∧
      (w64 (x.toNat % 0x10000 + bit b * 0x10000)).getLsbD 16 = b := by
  have hb : bit b ≤ 1 := by cases b <;> decide
  have hval : (w64 (x.toNat % 0x10000 + bit b * 0x10000)).toNat = x.toNat % 0x10000 + bit b * 0x10000 := by
    rw [w64, BitVec.toNat_ofNat, Nat.mod_eq_of_lt (by omega)]
  refine ⟨?_, ?_, ?_⟩
  · refine BitVec.eq_of_toNat_eq ?_
    rw [BitVec.extractLsb'_toNat, BitVec.extractLsb'_toNat, hval]
    simp only [Nat.shiftRight_zero]
    omega
  · refine BitVec.eq_of_toNat_eq ?_
    rw [BitVec.extractLsb'_toNat, hval, Nat.shiftRight_eq_div_pow]
    simp
    omega
  · rw [BitVec.getLsbD, hval, Nat.testBit_eq_decide_div_mod_eq]
    cases b <;> simp [bit]

/-- A bank's registers stand at consecutive numbers (R115). -/
theorem bank_number {α : Type} {n : Nat} (b : Bank α n) (lo : Nat) (i : BitVec n) : bank b (BitVec.ofNat n (lo + i.toNat - lo)) = bank b i := by
  rw [Nat.add_sub_cancel_left, BitVec.ofNat_toNat, BitVec.setWidth_eq]

/-! ## Tile descriptors (R117) -/

/-- The bits of an element by its type code; 15 is no type (R117). -/
theorem typeBits_eq {t : Nat} (h : t < 15) : typeBits t = [8, 16, 32, 64, 8, 16, 32, 64, 32, 16, 16, 8, 8, 4, 4].getD t 0 := by
  interval_cases t <;> rfl

theorem descriptorOk_iff (x : Word) :
    descriptorOk x = true ↔
      (x.extractLsb' 24 8).toNat = 0 ∧ (x.extractLsb' 11 5).toNat = 0 ∧ 1 ≤ (x.extractLsb' 48 16).toNat ∧ 1 ≤ (x.extractLsb' 32 16).toNat ∧
        (x.extractLsb' 0 11).toNat ≤ 1535 ∧
        (((x.extractLsb' 20 4).toNat = 0 ∧ (x.extractLsb' 16 4).toNat ≠ 15 ∧
            (x.extractLsb' 0 11).toNat + ((x.extractLsb' 32 16).toNat * (x.extractLsb' 48 16).toNat *
              [8, 16, 32, 64, 8, 16, 32, 64, 32, 16, 16, 8, 8, 4, 4].getD (x.extractLsb' 16 4).toNat 0 + 8191) / 8192 ≤ 1536) ∨
          ((x.extractLsb' 20 4).toNat = 1 ∧ (x.extractLsb' 16 4).toNat = 0 ∧ (x.extractLsb' 48 16).toNat = 32 ∧
            ((x.extractLsb' 32 16).toNat = 32 ∨ (x.extractLsb' 32 16).toNat = 64) ∧
            (x.extractLsb' 0 11).toNat + (steeringBytes (x.extractLsb' 32 16).toNat + 1023) / 1024 ≤ 1536)) := by
  have hty : (x.extractLsb' 16 4).toNat < 16 := (x.extractLsb' 16 4).isLt
  have hfield {w : Nat} (y : BitVec w) : (y == 0) = decide (y.toNat = 0) := by
    rw [Bool.eq_iff_iff, beq_iff_eq, decide_eq_true_eq]
    exact ⟨fun h => by simp [h], fun h => BitVec.eq_of_toNat_eq (by simpa using h)⟩
  unfold descriptorOk
  simp only [hfield]
  generalize (x.extractLsb' 24 8).toNat = z1 at *
  generalize (x.extractLsb' 11 5).toNat = z2 at *
  generalize (x.extractLsb' 48 16).toNat = cols at *
  generalize (x.extractLsb' 32 16).toNat = rows at *
  generalize (x.extractLsb' 0 11).toNat = base at *
  generalize (x.extractLsb' 20 4).toNat = kind at *
  generalize (x.extractLsb' 16 4).toNat = ty at *
  rw [tileRegs]
  by_cases h0 : kind = 0
  · rw [if_pos h0, if_neg (h0 ▸ Nat.zero_ne_one)]
    by_cases h15 : ty = 15
    · simp [h0, h15]
    · rw [typeBits_eq (by omega)]
      generalize (rows * cols * _ + 8191) / 8192 = regs
      simp [h0, h15, and_assoc]
  · by_cases h1 : kind = 1
    · generalize (rows * cols * typeBits ty + 8191) / 8192 = regs
      simp [h1, and_assoc]
    · simp [h0, h1]

/-- A control register that CRW may write, as a number in neither of the event banks: the write does nothing (R115). -/
theorem writeControl_other {k : Core} {n : Nat} {x : Word} (h10 : n ≠ 0x10) (h11 : n ≠ 0x11) (h12 : n ≠ 0x12) (h13 : n ≠ 0x13)
    (h40 : n ≠ 0x40) :
    k.writeControl n x =
      if 0x80 ≤ n ∧ n < 0x90 then { k with ev := bankSet k.ev (BitVec.ofNat 4 (n - 0x80)) x }
      else if 0x90 ≤ n ∧ n < 0xA0 then { k with evsel := bankSet k.evsel (BitVec.ofNat 4 (n - 0x90)) (x &&& 0xC0FF) }
      else k := by
  unfold Core.writeControl
  rw [if_neg h10, if_neg h11, if_neg h12, if_neg h13, if_neg h40]
  simp only [Bool.and_eq_true, decide_eq_true_eq]

/-- A number of one of the banks reads a register of that bank. -/
theorem readControl_banks (s : State) {n : Nat} (hlo : 0x18 ≤ n) (hn : n < 0x40 ∨ 0x80 ≤ n) :
    readControl s n =
      if 0x18 ≤ n ∧ n < 0x1C then (bank s.core.lc (BitVec.ofNat 2 (n - 0x18))).zeroExtend 64
      else if 0x20 ≤ n ∧ n < 0x30 then bank s.core.tc (BitVec.ofNat 4 (n - 0x20))
      else if 0x80 ≤ n ∧ n < 0x90 then bank s.core.ev (BitVec.ofNat 4 (n - 0x80))
      else if 0x90 ≤ n ∧ n < 0xA0 then bank s.core.evsel (BitVec.ofNat 4 (n - 0x90))
      else 0 := by
  have hne (m : Nat) (hm : m < 0x18 ∨ (0x40 ≤ m ∧ m < 0x80)) : n ≠ m := by omega
  unfold readControl
  simp only [hne, Nat.reduceLT, Nat.reduceLeDiff, true_or, and_true, or_true, if_false, Bool.and_eq_true, decide_eq_true_eq]

section
variable (s : State)

theorem readControl_lc (i : BitVec 2) : readControl s (0x18 + i.toNat) = (bank s.core.lc i).zeroExtend 64 := by
  have hi := i.isLt
  rw [readControl_banks s (by omega) (by omega), if_pos (by omega), bank_number]

theorem readControl_tc (i : BitVec 4) : readControl s (0x20 + i.toNat) = bank s.core.tc i := by
  have hi := i.isLt
  rw [readControl_banks s (by omega) (by omega), if_neg (by omega), if_pos (by omega), bank_number]

theorem readControl_ev (i : BitVec 4) : readControl s (0x80 + i.toNat) = bank s.core.ev i := by
  have hi := i.isLt
  rw [readControl_banks s (by omega) (by omega), if_neg (by omega), if_neg (by omega), if_pos (by omega), bank_number]

theorem readControl_evsel (i : BitVec 4) : readControl s (0x90 + i.toNat) = bank s.core.evsel i := by
  have hi := i.isLt
  rw [readControl_banks s (by omega) (by omega), if_neg (by omega), if_neg (by omega), if_neg (by omega), if_pos (by omega), bank_number]

end

/-- SETTC writes a descriptor that meets the rules, and traps at any other (R117). -/
theorem exec_settc {s : State} {a : BitVec 6} (t : BitVec 4) (h : Issues s [a] []) :
    exec (.settc t a) s = .next (finishA s
      (if descriptorOk (getS s a) then .done { s with core := { s.core with tc := bankSet s.core.tc t (getS s a) } }
        else .trap .illegalOp .a 0 s)) := by
  show execSettc t a s = _
  unfold execSettc
  rw [aWord_go h]

/-- Settles O11: each number in turn, with the flag registers bit by bit, and a descriptor by its fields. -/
theorem specialRegisterWords : Obligations.SpecialRegisterWords := by
  unfold Obligations.SpecialRegisterWords
  refine ⟨fun s d a num => ⟨?_, ?_, rfl, rfl, rfl, rfl, rfl, rfl, rfl, rfl, rfl, rfl, rfl, rfl, rfl, rfl, ?_, ?_, ?_, ?_,
    readControl_lc s, fun i => ⟨readControl_tc s i, readControl_ev s i, readControl_evsel s i⟩⟩, fun s t a h => ⟨?_, ?_, descriptorOk_iff _⟩⟩
  · exact fun h => completesS_of h (show execCrr d num s = _ by unfold execCrr; rfl) rfl
  · intro h
    refine ⟨_, exec_crw num h, ?_⟩
    dsimp only
    generalize getS s a = x
    split
    case h_1 h10 => rw [h10]; rfl
    case h_2 h11 => rw [h11]; rfl
    case h_3 h12 =>
      rw [h12]
      obtain ⟨hframe, hbits⟩ := writeControl_aexc s.core x
      refine ⟨congrArg (fun k => wordDone { s with core := k }) hframe, hbits 0, hbits 8, fun i h0 h8 => ?_⟩
      exact (hbits i).trans (by rw [if_neg h8, if_neg h0])
    case h_4 h13 =>
      rw [h13]
      obtain ⟨hframe, hbits⟩ := writeControl_vexc s.core x
      refine ⟨congrArg (fun k => wordDone { s with core := k }) hframe, fun i hi => ?_, fun i hlo hhi => ?_, fun i hi => ?_⟩
      · exact (hbits i).trans (if_pos hi)
      · exact (hbits i).trans (by rw [if_neg (by omega), if_pos ⟨hlo, hhi⟩])
      · exact (hbits i).trans (by rw [if_neg (by omega), if_neg (by omega)])
    case h_5 h40 => rw [h40]; rfl
    case h_6 h10 h11 h12 h13 h40 =>
      rw [writeControl_other h10 h11 h12 h13 h40]
      split
      · rfl
      · split <;> rfl
  · exact (ctemp_fields _ _).1
  · exact (ctemp_fields _ _).2.1
  · rw [← Bool.decide_iff (s.power.mx.clamp < s.power.mx.ftgt ∧ _), Bool.decide_and]
    exact iff_of_eq (congrArg (· = true) (ctemp_fields _ _).2.2)
  · intro hm hp hs
    show BitVec.ofNat 64 (ownLabel s.fab) = _
    rw [ownLabel_plain hm hp hs, BitVec.ofNat_toNat]
  · intro hok
    refine (exec_settc t h).trans ?_
    rw [if_pos hok]
    rfl
  · intro hbad
    refine (exec_settc t h).trans ?_
    rw [hbad]
    rfl

end Sys2Proof.Machine
end

