-- ==== Sys2Proof/Proofs/TrapEntry.lean ====
section
/-! SUPPORT. TRAP and V traps entering the handler (R118, R260 to R266, R328). -/

namespace Sys2Proof.Machine

open Sys2Proof

/-! ## Errors met in memory leave the core alone (R328) -/

@[simp] theorem putHost_core (bus : Nat) (bs : List Byte) (s : State) : (putHost bus bs s).core = s.core := by
  unfold putHost
  generalize hostRanges bus bs.length = rs
  induction rs generalizing s bs with
  | nil => rfl
  | cons r rest ih => exact (ih _ _).trans (putMem_core _ _ _)

@[simp] theorem reportEvent_core (kind arg0 arg1 : Nat) (s : State) : (reportEvent kind arg0 arg1 s).core = s.core := by
  unfold reportEvent
  split
  · rfl
  · split
    · rfl
    · simp only [writeEvent, sendIrq, putHost_core]

@[simp] theorem metUncorrAt_core (l : Nat) (own : Bool) (va : Word) (s : State) : (metUncorrAt l own va s).core = s.core := by
  unfold metUncorrAt
  split
  · split
    · rfl
    · exact reportEvent_core _ _ _ _
  · rfl

/-- With the event ring off, an error met in memory writes none (R388). -/
theorem metUncorrAt_mem {s : State} (l : Nat) (own : Bool) (va : Word) (h : s.evring.en = false) :
    (metUncorrAt l own va s).mem = s.mem := by
  unfold metUncorrAt
  split
  · split
    · rfl
    · simp only [metUncorr, reportEvent, h, Bool.not_false, if_true]
  · rfl

/-! ## Entering the handler (R265) -/

/-- A trap where c.evec is not zero: the core enters the handler, and memory is kept unless an uncorrectable error is reported. -/
theorem takeTrap_handled {s : State} (code : TrapCode) (stream : Stream) (epc eval resume : Word) (h : s.core.evec ≠ 0) :
    ∃ now, (takeTrap code stream epc eval resume s).core = s.core.enter code stream epc eval resume now ∧
      (code ≠ .uncorr ∨ s.evring.en = false → (takeTrap code stream epc eval resume s).mem = s.mem) := by
  have hcore : (if code == .uncorr then metUncorrAt s.core.launch true eval s else s).core = s.core := by
    split
    · exact metUncorrAt_core _ _ _ _
    · rfl
  have hmem (hk : code ≠ .uncorr ∨ s.evring.en = false) :
      (if code == .uncorr then metUncorrAt s.core.launch true eval s else s).mem = s.mem := by
    split
    next hc => exact metUncorrAt_mem _ _ _ (hk.resolve_left (fun hne => hne (beq_iff_eq.1 hc)))
    next => rfl
  unfold takeTrap
  generalize (if code == .uncorr then metUncorrAt s.core.launch true eval s else s) = u at hcore hmem ⊢
  refine ⟨u.time, ?_, fun hk => ?_⟩
  · rw [if_neg (by rw [hcore]; exact h)]
    exact congrArg (fun k : Core => k.enter code stream epc eval resume u.time) hcore
  · rw [if_neg (by rw [hcore]; exact h)]
    exact hmem hk

/-- The handler's first branch to b7 resumes the strand, where the handler has not written c.evec (R265, R266). -/
theorem Core.enter_return {k : Core} (code : TrapCode) (stream : Stream) (epc eval resume : Word) (now at_ : Nat) :
    ((k.enter code stream epc eval resume now).branch (bank (k.enter code stream epc eval resume now).b 7) at_).pc = resume := by
  rw [Core.branch_of_notRearmed _ _ rfl]
  exact bank_set_same _ _ _

/-! ## TRAP (R118) -/

/-- TRAP waits for the reads before it; then it is the trap SOFT, which returns to the word after it. -/
theorem exec_trap {s : State} (code : BitVec 10) (h : Issues s [] []) :
    exec (.trap code) s = .next (if s.core.readsOpen then { s with core := s.core.back } else
      takeTrap .soft .a s.core.wordAddr (code.zeroExtend 64) (s.core.pc + 4) (withCore (Core.note 3 1) s)) := by
  show execTrap code s = _
  unfold execTrap
  rw [aWord_go h]
  rfl

/-- SOFT enters the handler that c.evec names (R265). -/
theorem takeTrap_soft_handled {s : State} (epc eval resume : Word) (h : s.core.evec ≠ 0) :
    takeTrap .soft .a epc eval resume s = withCore (fun k => k.enter .soft .a epc eval resume s.time) (countTrap s) :=
  if_neg h

/-- With no handler, SOFT is the loss of the strand (R265). -/
theorem takeTrap_soft_lost {s : State} (epc eval resume : Word) (h : s.core.evec = 0) :
    takeTrap .soft .a epc eval resume s = loseStrand .soft s :=
  if_pos h

/-! ## V traps (R264) -/

/-- A pending V trap is delivered where the core is at a word and its handler is not about to return. -/
theorem deliverTrap_due {s : State} {x : PendingTrap} (hx : s.core.vtrap = some x) (hgrd : s.core.grd = none) (hrun : s.core.aseq ≠ .idle)
    (hh : (s.core.inHandler && s.core.rearmed) = false) :
    deliverTrap s = takeTrap x.code x.stream x.epc x.eval s.core.pc { s with core := { s.core with vtrap := none } } := by
  have hdue : s.core.trapDue = true := by
    unfold Core.trapDue
    rw [hx, hgrd, hh, beq_eq_false_iff_ne.2 hrun]
    rfl
  unfold deliverTrap
  rw [hx]
  simp only [hdue, Bool.not_true, Bool.false_eq_true, if_false]

theorem deliverTrap_returning {s : State} (hh : (s.core.inHandler && s.core.rearmed) = true) : deliverTrap s = s := by
  have hdue : s.core.trapDue = false := by
    unfold Core.trapDue
    rw [hh, Bool.or_true, Bool.not_true, Bool.and_false]
  unfold deliverTrap
  split
  · rfl
  · rw [if_pos (by rw [hdue]; rfl)]

@[simp] theorem deliverTrap_cur (s : State) : (deliverTrap s).cur = s.cur := by
  unfold deliverTrap
  split
  · rfl
  · split
    · rfl
    · exact takeTrap_cur _ _ _ _ _ _

/-- TRAP_DELIVERY at the selected core. -/
theorem exec_trapDelivery {s : State} {c : BitVec 8} (hc : c.toNat = s.cur) : exec (.trapDelivery c) s = .next (deliverTrap s) :=
  onCoreEvent_cur hc (deliverTrap_cur s)

/-- Settles O12: TRAP through the two outcomes of a trap, entry and loss; a V trap through its delivery. -/
theorem trapEntry : Obligations.TrapEntry := by
  unfold Obligations.TrapEntry
  constructor
  · intro s code h
    have htaken (hopen : s.core.readsOpen = false) : exec (.trap code) s =
        .next (takeTrap .soft .a s.core.wordAddr (code.zeroExtend 64) (s.core.pc + 4) (withCore (Core.note 3 1) s)) := by
      rw [exec_trap code h, hopen]
      rfl
    refine ⟨fun hopen => ?_, htaken, ?_, ?_⟩
    · rw [exec_trap code h, if_pos hopen]
    · intro hopen hevec
      refine ⟨_, (htaken hopen).trans (congrArg Host.Outcome.next (takeTrap_soft_handled _ _ _ hevec)), ?_⟩
      exact ⟨rfl, rfl, rfl, rfl, rfl, rfl, rfl, Core.enter_return .soft .a _ _ _ _ _, rfl, rfl, rfl, rfl, rfl, rfl⟩
    · intro hopen hevec slot e hslot he
      obtain ⟨hcore, e', he', hstate, hfault⟩ :=
        loseStrand_bound (s := withCore (Core.note 3 1) s) (code := .soft) (slot := slot) (e := e) hslot he
      refine ⟨_, e', (htaken hopen).trans (congrArg Host.Outcome.next (takeTrap_soft_lost _ _ _ hevec)), ?_,
        he', hstate, hfault, loseStrand_mem _ _⟩
      rw [hcore]
      exact (Core.without_hasNoStrand (k := (withCore (Core.note 3 1) s).core) hslot).1
  · intro s c x hc hx
    refine ⟨?_, ?_⟩
    · intro hh
      rw [exec_trapDelivery hc, deliverTrap_returning hh]
    · intro hh hgrd hrun hevec
      obtain ⟨now, hcore, hmem⟩ := takeTrap_handled (s := { s with core := { s.core with vtrap := none } }) x.code x.stream x.epc x.eval
        s.core.pc hevec
      refine ⟨_, (exec_trapDelivery hc).trans (congrArg Host.Outcome.next (deliverTrap_due hx hgrd hrun hh)), ?_⟩
      rw [hcore]
      exact ⟨rfl, rfl, rfl, rfl, rfl, rfl, rfl, rfl, rfl, rfl, rfl, hmem⟩

end Sys2Proof.Machine
end

