-- ==== Sys2Proof/Proofs/CopyEvents.lean ====
section
/-! SUPPORT. The events of a queued copy: its start, and the completion or the fault of one row (R107, R108, R112, R114, R259). -/

namespace Sys2Proof.Machine

open Sys2Proof

/-! ## Ranges of a row, byte by byte (R302, R313) -/

/-- Where byte `i` of a range lies that begins at `va`, in a row that begins at `row`. -/
def rowSite (s : State) (write : Bool) (va row : Word) (i : Nat) : Site :=
  let x := virtSite s s.core.launch true write false (va + w64 i)
  match if row.toNat < 2 ^ 55 then extentAt s s.core.launch row.toNat else none with
  | none => x
  | some e => if e.base ≤ (va + w64 i).toNat && (va + w64 i).toNat < e.base + e.size then x else .bad .prot

theorem Range.sites_eq (s : State) (write : Bool) (r : Range) : r.sites s write = (List.range r.len).map (rowSite s write r.va r.row) := by
  have hzip : (List.range r.len).zip (strandSites s write false r.va r.len) = (List.range r.len).map fun i =>
      (i, virtSite s s.core.launch true write false (r.va + w64 i)) := by
    rw [strandSites, virtSites, List.zip, List.zipWith_map_right, List.zipWith_self]
  unfold Range.sites rowSite
  generalize (if r.row.toNat < 2 ^ 55 then extentAt s s.core.launch r.row.toNat else none) = ext
  cases ext with
  | none => rfl
  | some e =>
    dsimp only
    rw [hzip, List.map_map]
    rfl

/-- A range whose first byte is in no peer window takes part in none. -/
theorem rangePeer_none {s : State} {write : Bool} {r : Range} (h : ∀ t o, rowSite s write r.va r.row 0 ≠ .peer t o) :
    rangePeer s write r = none := by
  unfold rangePeer
  rw [Range.sites_eq]
  cases hn : r.len with
  | zero => rfl
  | succ n =>
    rw [List.range_succ_eq_map, List.map_cons]
    unfold peerOf
    split
    next heq => exact absurd (List.cons.inj heq).1 (h _ _)
    next => rfl

/-- The first byte of a row whose bytes are known. -/
theorem rowSite_zero {s : State} {write : Bool} {va row : Word} {n : Nat} {f : Nat → Site} (hn : 1 ≤ n)
    (h : Range.sites s write ⟨va, n, row⟩ = (List.range n).map f) : rowSite s write va row 0 = f 0 := by
  rw [Range.sites_eq] at h
  exact List.map_inj_left.1 h 0 (List.mem_range.2 hn)

/-- A single range that takes part in no peer window is read where it lies. -/
theorem seeRanges_single {s : State} {r : Range} (h : rangePeer s false r = none) : seeRanges s [r] [] = seeRange s r := by
  simp only [seeRanges, h, Option.isSome_none, Bool.false_eq_true, if_false, List.append_nil, Bool.or_false]
  cases hb : (seeRange s r).bad with
  | some t => rfl
  | none =>
    dsimp only
    rw [← hb]

/-! ## Rows that do not meet -/

theorem le_foldl_min {b init : Nat} {l : List Nat} (hi : b ≤ init) (h : ∀ x ∈ l, b ≤ x) : b ≤ l.foldl min init := by
  induction l generalizing init with
  | nil => exact hi
  | cons x rest ih => exact ih (le_min hi (h x (by simp))) fun y hy => h y (List.mem_cons_of_mem _ hy)

theorem foldl_max_lt {b init : Nat} {l : List Nat} (hi : init < b) (h : ∀ x ∈ l, x < b) : l.foldl max init < b := by
  induction l generalizing init with
  | nil => exact hi
  | cons x rest ih => exact ih (max_lt hi (h x (by simp))) fun y hy => h y (List.mem_cons_of_mem _ hy)

/-- Memory below the core stores shares no byte with one of them (R304). -/
theorem sitesMeet_mem_core {pa n c off m : Nat} (h : pa + n ≤ coreBase) : sitesMeet (memSites pa n) (coreSites c off m) = false := by
  have hmem : ((memSites pa n).filterMap siteKey).foldl max 0 < coreBase := by
    refine foldl_max_lt (by decide) fun x hx => ?_
    obtain ⟨y, hy, hxy⟩ := List.mem_filterMap.1 hx
    obtain ⟨i, hi, rfl⟩ := List.mem_map.1 hy
    have := List.mem_range.1 hi
    cases hxy
    omega
  have hcore : coreBase ≤ ((coreSites c off m).filterMap siteKey).foldl min (2 ^ 48) := by
    refine le_foldl_min (by decide) fun x hx => ?_
    obtain ⟨y, hy, hxy⟩ := List.mem_filterMap.1 hx
    obtain ⟨i, hi, rfl⟩ := List.mem_map.1 hy
    cases hxy
    omega
  simp only [sitesMeet, decide_eq_false (Nat.not_le.2 (hmem.trans_le hcore)), Bool.and_false]

/-- The first row begins at the command's addresses. -/
theorem CopyCmd.srcRange_zero (x : CopyCmd) (m : Nat) : x.srcRange 0 m = ⟨x.src, m, x.src⟩ := by
  simp [CopyCmd.srcRange, CopyCmd.srcAt, w64]

theorem CopyCmd.dstRange_zero (x : CopyCmd) (m : Nat) : x.dstRange 0 m = ⟨x.dst, m, x.dst⟩ := by
  simp [CopyCmd.dstRange, CopyCmd.dstAt, w64]

theorem coreSites_ready (c off n : Nat) : firstFaulty 0 (coreSites c off n) = none ∧ (coreSites c off n).any (·.waits) = false := by
  have hsites (y : Site) (hy : y ∈ coreSites c off n) : ∃ i, y = .core c (off + i) := by
    obtain ⟨i, -, rfl⟩ := List.mem_map.1 hy
    exact ⟨i, rfl⟩
  refine ⟨firstFaulty_none _ _ fun y hy => ?_, List.any_eq_false.2 fun y hy => ?_⟩
  · obtain ⟨i, rfl⟩ := hsites y hy
    rfl
  · obtain ⟨i, rfl⟩ := hsites y hy
    exact Bool.false_ne_true

/-- Consecutive bytes written to a core's store. -/
theorem putSites_coreSites (c off : Nat) (bs : List Byte) (by_ : Option Writer) (va : Word) (s : State) :
    putSites (coreSites c off bs.length) bs by_ va s = (if bs = [] then s else putCore c off bs s, true) := by
  have hvalid : (coreSites c off bs.length).foldl validate s = s := validate_foldl _ _ fun y hy => by
    obtain ⟨i, -, rfl⟩ := List.mem_map.1 hy
    exact .inr ⟨_, _, rfl⟩
  unfold putSites
  rw [hvalid]
  split
  next hnil => subst hnil; rfl
  next hne => rw [runsOf_coreSites c bs off hne]; rfl

/-! ## One row from memory to the core's store -/

/-- The state `u` in which `n` more bytes of the first started command are moved and counted. -/
def pieceDone (n : Nat) (u : State) : State :=
  withCore Core.dropCopyUnits (setRun (fun r => { r with moved := r.moved + n, asked := false, sent := false }) (copied n n u))

/-- What the copy unit's bookkeeping leaves of a core: the store, the semaphores and the registers. -/
def SameStore (u t : State) : Prop :=
  t.core.cs = u.core.cs ∧ t.core.sem = u.core.sem ∧ t.core.s = u.core.s ∧ t.mem = u.mem ∧ t.cur = u.cur

theorem copied_sameStore (a b : Nat) (u : State) : SameStore u (copied a b u) := ⟨rfl, rfl, rfl, rfl, rfl⟩

theorem setRun_sameStore (f : CopyRun → CopyRun) (u : State) : SameStore u (setRun f u) := ⟨rfl, rfl, rfl, rfl, rfl⟩

theorem dropCopyUnits_sameStore (u : State) : SameStore u (withCore Core.dropCopyUnits u) := ⟨rfl, rfl, rfl, rfl, rfl⟩

theorem SameStore.trans {u v w : State} (h : SameStore u v) (g : SameStore v w) : SameStore u w := by
  obtain ⟨hcs, hsem, hregs, hmem, hcur⟩ := h
  unfold SameStore
  rw [← hcs, ← hsem, ← hregs, ← hmem, ← hcur]
  exact g

theorem pieceDone_sameStore (n : Nat) (u : State) : SameStore u (pieceDone n u) :=
  ((copied_sameStore n n u).trans (setRun_sameStore _ _)).trans (dropCopyUnits_sameStore _)

theorem pieceDone_run {n : Nat} {u : State} {r : CopyRun} {rest : List CopyRun} (h : u.core.copyRun = r :: rest) :
    (pieceDone n u).core.copyRun = { r with moved := r.moved + n, asked := false, sent := false } :: rest := by
  show (match u.core.copyRun with | [] => [] | r :: rest => _ :: rest) = _
  rw [h]

/-- The state once a row is moved to the store; its command is not finished yet. -/
def rowMoved (s : State) (off : Nat) (bs : List Byte) : State := pieceDone bs.length (putCore s.cur off bs s)

/-- Moving the row writes the store alone, and keeps the registers and the semaphores. -/
theorem rowMoved_frame (s : State) (off : Nat) (bs : List Byte) :
    (rowMoved s off bs).core.cs = memPut s.core.cs off bs ∧ (rowMoved s off bs).core.sem = s.core.sem ∧
      (rowMoved s off bs).core.s = s.core.s ∧ (rowMoved s off bs).mem = s.mem ∧ (rowMoved s off bs).cur = s.cur := by
  obtain ⟨hcs, hsem, hregs, hmem, hcur⟩ := pieceDone_sameStore bs.length (putCore s.cur off bs s)
  have hput := putCore_cur off bs s
  exact ⟨hcs.trans (putCore_cs off bs s), hsem.trans (by rw [hput]; rfl), hregs.trans (by rw [hput]; rfl), hmem.trans (by rw [hput]),
    hcur.trans (by rw [hput])⟩

/-- What the signal of a command that does not overflow leaves (R103, R107). -/
theorem semAdd_copy {k : Core} {x : CopyCmd} (h : (bank k.sem x.ssem).toNat + x.sinc.toNat ≤ 65535) :
    ∃ k', semAdd k x.ssem x.sinc.toNat = some k' ∧ k'.copyRun = k.copyRun ∧ k'.cs = k.cs ∧ k'.s = k.s ∧
      bank k'.sem x.ssem = bank k.sem x.ssem + x.sinc.zeroExtend 16 ∧ (∀ i, i ≠ x.ssem → bank k'.sem i = bank k.sem i) := by
  refine ⟨_, if_pos h, rfl, rfl, rfl, ?_, fun i hi => bank_set_other _ _ _ _ hi⟩
  refine (bank_set_same _ _ _).trans (BitVec.eq_of_toNat_eq ?_)
  simp

/-- A started CP of one row, nothing of it moved, from memory at `pa` to the core's own store at `off`. -/
structure LocalRow (s : State) (x : CopyCmd) (pa off : Nat) : Prop where
  run : s.core.copyRun = [⟨x, 0, false, false⟩]
  kind : x.kind = .cp
  rows : x.rows = 1
  len : 1 ≤ x.len.toNat
  out : s.core.out = []
  dst : Range.sites s true ⟨x.dst, x.len.toNat, x.dst⟩ = coreSites s.cur off x.len.toNat
  src : Range.sites s false ⟨x.src, x.len.toNat, x.src⟩ = memSites pa x.len.toNat
  below : pa + x.len.toNat ≤ coreBase

section
variable {s : State} {x : CopyCmd} {pa off : Nat} (h : LocalRow s x pa off)
include h

theorem LocalRow.total : x.total = x.len.toNat := by
  unfold CopyCmd.total
  rw [h.kind, h.rows]
  exact Nat.one_mul _

theorem LocalRow.srcPeer (m : Nat) : rangePeer s false ⟨x.src, m, x.src⟩ = none :=
  rangePeer_none fun t o => by
    rw [rowSite_zero h.len h.src]
    exact Site.noConfusion

theorem LocalRow.dstPeer (m : Nat) : rangePeer s true ⟨x.dst, m, x.dst⟩ = none :=
  rangePeer_none fun t o => by
    rw [rowSite_zero h.len h.dst]
    exact Site.noConfusion

theorem LocalRow.notDone : ¬x.total ≤ 0 := by
  have hlen := h.len
  rw [h.total]
  omega

/-- The next piece is the row. -/
theorem LocalRow.sources : CopyRun.sources s ⟨x, 0, false, false⟩ = [⟨x.src, x.len.toNat, x.src⟩] := by
  have hpiece : cpPiece s x 0 = x.len.toNat := by
    simp [cpPiece, x.srcRange_zero, x.dstRange_zero, h.srcPeer, h.dstPeer]
  unfold CopyRun.sources
  dsimp only
  rw [h.kind]
  dsimp only
  rw [hpiece, x.srcRange_zero]

/-- A core with no access under way has room for a local piece. -/
theorem LocalRow.room : copyOver s [⟨x.src, x.len.toNat, x.src⟩] = false := by
  have hfar : [(⟨x.src, x.len.toNat, x.src⟩ : Range)].filter (fun r => (rangePeer s false r).isSome) = [] := by
    rw [List.filter_cons, h.srcPeer]
    rfl
  unfold copyOver Core.requests
  dsimp only
  rw [h.out, hfar]
  split <;> rfl

/-- A row that waits for nothing is moved as far as it was read. -/
theorem LocalRow.copyPiece (hw : (seeRange s ⟨x.src, x.len.toNat, x.src⟩).waits = false) :
    copyPiece s = moveRow ⟨x.src, x.len.toNat, x.src⟩ ⟨x.dst, x.len.toNat, x.dst⟩ (seeRange s ⟨x.src, x.len.toNat, x.src⟩) s := by
  have hunits (d : AccDest) : s.core.copyUnits d = [] := by
    rw [Core.copyUnits, h.out, List.filter_nil]
  unfold Machine.copyPiece
  rw [h.run]
  dsimp only
  rw [if_neg h.notDone, h.sources, h.room, hunits]
  simp only [Bool.and_false, Bool.false_eq_true, if_false, List.any_cons, List.any_nil, h.srcPeer, Option.isSome_none, Bool.or_false,
    List.findSome?_nil, answeredBytes, List.flatMap_nil, seeRanges_single (h.srcPeer _), hw, h.kind, List.head?_cons, Option.getD_some, endCp,
    x.dstRange_zero, h.dstPeer]

/-- A row from memory to the store is written as far as it was read; no byte of it waits. -/
theorem LocalRow.moveRow {seen : CopySeen} (hn : seen.bytes.length ≤ x.len.toNat) :
    moveRow ⟨x.src, x.len.toNat, x.src⟩ ⟨x.dst, x.len.toNat, x.dst⟩ seen s =
      (let t := copied seen.bytes.length seen.bytes.length (if seen.bytes = [] then s else putCore s.cur off seen.bytes s)
      seen.bad.elim (pieceMoved x.len.toNat t) fun e => .fault e t) := by
  have htake : (coreSites s.cur off x.len.toNat).take seen.bytes.length = coreSites s.cur off seen.bytes.length := by
    rw [coreSites, ← List.map_take, List.take_range, min_eq_left hn]
  unfold Machine.moveRow
  simp only [h.src, h.dst, (coreSites_ready _ _ _).1, (coreSites_ready _ _ _).2, Option.map_none, Option.getD_none, min_eq_left hn,
    Bool.false_eq_true, if_false, sitesMeet_mem_core h.below, htake, List.take_length, putSites_coreSites, Bool.not_true]
  cases seen.bad <;> rfl

/-- What reading the row gives where no line of it is lost. -/
theorem LocalRow.seeRange_clean
    (hc : ∀ i, i < x.len.toNat → s.sv.deadLines.contains ((pa + i) / 64) = false ∧ s.poison.contains ((pa + i) / 64) = false) :
    seeRange s ⟨x.src, x.len.toNat, x.src⟩ = ⟨(List.range x.len.toNat).map fun i => memGet s.mem (pa + i), none, false⟩ := by
  have hread : (memSites pa x.len.toNat).map (readSite s .copy) =
      (List.range x.len.toNat).map fun i => ByteRead.value (memGet s.mem (pa + i)) false := by
    rw [memSites, List.map_map]
    refine List.map_congr_left fun i hi => ?_
    exact readSite_mem s .copy (pa + i) (hc i (List.mem_range.1 hi)).1 (hc i (List.mem_range.1 hi)).2
  have hstop : firstStop 0 ((List.range x.len.toNat).map fun i => ByteRead.value (memGet s.mem (pa + i)) false) = none :=
    firstStop_none _ _ fun r hr => by
      obtain ⟨i, -, rfl⟩ := List.mem_map.1 hr
      exact ⟨_, _, rfl⟩
  unfold seeRange
  dsimp only
  rw [h.src, hread, hstop]
  have hwait : ((List.range x.len.toNat).map fun i => ByteRead.value (memGet s.mem (pa + i)) false).contains .wait = false := by
    simp
  dsimp only
  rw [hwait, List.map_map]
  rfl

/-- A row whose first line is poisoned is read no further than its beginning (R329). -/
theorem LocalRow.seeRange_poisoned (hp : s.poison.contains (pa / 64) = true) (hd : s.sv.deadLines.contains (pa / 64) = false) :
    seeRange s ⟨x.src, x.len.toNat, x.src⟩ = ⟨[], some (copyFaultOf 3 x.src), false⟩ := by
  have hread : readSite s .copy (.mem pa) = .stop .uncorr := by
    show readMemByte s pa = _
    unfold readMemByte
    rw [hd, hp]
    rfl
  obtain ⟨n, hn⟩ : ∃ n, x.len.toNat = n + 1 := ⟨x.len.toNat - 1, by have := h.len; omega⟩
  unfold seeRange
  dsimp only
  rw [h.src, hn, memSites, List.range_succ_eq_map, List.map_cons, List.map_cons, Nat.add_zero, hread]
  show CopySeen.mk [] (some (copyFaultOf 3 (x.src + w64 0))) false = _
  rw [show x.src + w64 0 = x.src from BitVec.add_zero x.src]

theorem LocalRow.copyPiece_clean {bs : List Byte} (hlen : bs.length = x.len.toNat)
    (hsee : seeRange s ⟨x.src, x.len.toNat, x.src⟩ = ⟨bs, none, false⟩) : Machine.copyPiece s = .moved (rowMoved s off bs) := by
  have hne : bs ≠ [] := List.ne_nil_of_length_pos (by have := h.len; omega)
  rw [h.copyPiece (by rw [hsee]), hsee, h.moveRow (by exact hlen.le)]
  dsimp only
  rw [if_neg hne, ← hlen]
  rfl

theorem LocalRow.rowMoved_run (bs : List Byte) : (rowMoved s off bs).core.copyRun = [⟨x, bs.length, false, false⟩] := by
  refine (pieceDone_run (r := ⟨x, 0, false, false⟩) (rest := []) ?_).trans ?_
  · rw [putCore_cur]
    exact h.run
  · rw [Nat.zero_add]

/-- The command is finished once its row is moved. -/
theorem LocalRow.copyLoop_clean {bs : List Byte} (hlen : bs.length = x.len.toNat)
    (hsee : seeRange s ⟨x.src, x.len.toNat, x.src⟩ = ⟨bs, none, false⟩) : copyLoop (x.total + 1) s = .finished (rowMoved s off bs) := by
  obtain ⟨n, hn⟩ : ∃ n, x.total = n + 1 := ⟨x.total - 1, by have := h.notDone; omega⟩
  have hdone : Machine.copyPiece (rowMoved s off bs) = .finished (rowMoved s off bs) := by
    unfold Machine.copyPiece
    rw [h.rowMoved_run]
    dsimp only
    rw [if_pos (by rw [h.total, hlen])]
  rw [hn, copyLoop, h.copyPiece_clean hlen hsee]
  dsimp only
  rw [copyLoop, hdone]

/-- A completed row: the signal is given, and the command is gone. -/
theorem LocalRow.completeCopy {bs : List Byte} (hlen : bs.length = x.len.toNat)
    (hsee : seeRange s ⟨x.src, x.len.toNat, x.src⟩ = ⟨bs, none, false⟩) (htrap : s.core.copyTrap = none)
    (hsem : (bank s.core.sem x.ssem).toNat + x.sinc.toNat ≤ 65535) :
    ∃ t, completeCopy s = t ∧ t.cur = s.cur ∧ t.core.copyRun = [] ∧ t.core.cs = memPut s.core.cs off bs ∧
      bank t.core.sem x.ssem = bank s.core.sem x.ssem + x.sinc.zeroExtend 16 ∧
      (∀ i, i ≠ x.ssem → bank t.core.sem i = bank s.core.sem i) ∧ t.mem = s.mem ∧ t.core.s = s.core.s := by
  obtain ⟨hcs, hsems, hregs, hmem, hcur⟩ := rowMoved_frame s off bs
  have hrun := h.rowMoved_run bs
  have hloop := h.copyLoop_clean hlen hsee
  generalize rowMoved s off bs = u at *
  rw [← hsems, ← hregs, ← hmem, ← hcur, ← hcs]
  have hadv : copyAdvance s = if x.sinc = 0 then .finished u else
      match semAdd u.core x.ssem x.sinc.toNat with
      | some k => .finished { u with core := k }
      | none => .fault (copyFaultOf 4 0) u := by
    unfold copyAdvance
    rw [h.run, htrap]
    dsimp only
    rw [hloop]
    rfl
  unfold Machine.completeCopy
  rw [hadv]
  by_cases h0 : x.sinc = 0
  · rw [if_pos h0]
    refine ⟨_, rfl, rfl, congrArg List.tail hrun, rfl, ?_, fun i _ => rfl, rfl, rfl⟩
    rw [h0]
    exact (BitVec.add_zero _).symm
  · obtain ⟨k, hk, hkrun, hkcs, hkregs, hsame, hother⟩ := semAdd_copy (k := u.core) (x := x) (by rw [hsems]; exact hsem)
    rw [if_neg h0, hk]
    refine ⟨withCore (fun k => { k with copyRun := k.copyRun.tail }) { u with core := k }, rfl, rfl, ?_, hkcs, hsame, hother, rfl, hkregs⟩
    exact congrArg List.tail (hkrun.trans hrun)

/-- A row that cannot be read from its beginning: the copy stops, and nothing is written (R114). -/
theorem LocalRow.stopCopy {e : TrapCode × Word} (hsee : seeRange s ⟨x.src, x.len.toNat, x.src⟩ = ⟨[], some e, false⟩)
    (htrap : s.core.copyTrap = none) :
    stopCopy s = withCore (fun k => { k with copyTrap := some e }) (metCopy e (copied 0 0 s)) := by
  have hpiece : Machine.copyPiece s = .fault e (copied 0 0 s) := by
    rw [h.copyPiece (by rw [hsee]), hsee, h.moveRow (Nat.zero_le _)]
    rfl
  have hadv : copyAdvance s = .fault e (copied 0 0 s) := by
    unfold copyAdvance
    rw [h.run, htrap]
    dsimp only
    rw [copyLoop, hpiece]
    rfl
  unfold Machine.stopCopy
  rw [hadv]

end

/-! ## The obligation -/

theorem metCopy_frame (e : TrapCode × Word) (s : State) :
    (metCopy e s).core = s.core ∧ (metCopy e s).cur = s.cur ∧ (s.evring.en = false → (metCopy e s).mem = s.mem) := by
  unfold metCopy
  split
  · exact ⟨metUncorrAt_core _ _ _ _, metUncorrAt_cur _ _ _ _, metUncorrAt_mem _ _ _⟩
  · exact ⟨rfl, rfl, fun _ => rfl⟩

theorem exec_copyStart {s : State} {c : BitVec 8} {x : CopyCmd} {rest : List CopyCmd} (hc : c.toNat = s.cur) (htrap : s.core.copyTrap = none)
    (hq : s.core.copyq = x :: rest) (hready : x.met = true ∨ x.wthr.toNat ≤ (bank s.core.sem x.wsem).toNat ∨ x.wthr = 0) :
    exec (.copyStart c) s = .next { s with core := { s.core with copyq := rest, copyRun := s.core.copyRun ++ [⟨x, 0, false, false⟩] } } := by
  have hx : x.ready s.core = true := by
    simp only [CopyCmd.ready, Bool.or_eq_true, beq_iff_eq, decide_eq_true_eq, BitVec.le_def]
    tauto
  refine (onCoreEvent_cur hc rfl).trans (congrArg (fun k => Host.Outcome.next { s with core := k }) ?_)
  unfold startCopy
  rw [hq]
  dsimp only
  rw [if_neg (by rw [htrap, hx]; exact Bool.false_ne_true)]

/-- Settles O31: the start of a command, and of one row the completion and the fault, each through what reading the row gives. -/
theorem copyEvents : Obligations.CopyEvents := by
  unfold Obligations.CopyEvents
  intro s c hc htrap
  refine ⟨fun x rest hq hready => exec_copyStart hc htrap hq hready, ?_⟩
  intro x hrun hkind hrows hlen _ hout hcanon pa off _ hdst hsrc hbelow
  have hrow : LocalRow s x pa off := ⟨hrun, hkind, hrows, hlen, hout, hdst, hsrc, hbelow⟩
  constructor
  · intro hclean hsem
    obtain ⟨t, ht, hcur, hgone, hcs, hsame, hother, hmem, hregs⟩ :=
      hrow.completeCopy (by simp) (hrow.seeRange_clean hclean) htrap hsem
    have hget (y : Nat) := memGet_memPut s.core.cs off ((List.range x.len.toNat).map fun i => memGet s.mem (pa + i)) y hcanon.core.1
    rw [← hcs, List.length_map, List.length_range] at hget
    refine ⟨t, (onCoreEvent_cur hc (ht ▸ hcur)).trans (congrArg Host.Outcome.next ht), hgone, fun i hi => ?_, fun y hy => ?_, hsame, hother,
      hmem, hregs⟩
    · rw [hget, if_pos (by omega), Nat.add_sub_cancel_left]
      simp [hi]
    · rw [hget, if_neg hy]
  · intro hp hd
    have hstop := hrow.stopCopy (hrow.seeRange_poisoned hp hd) htrap
    obtain ⟨hcore, hcur, hmem⟩ := metCopy_frame (copyFaultOf 3 x.src) (copied 0 0 s)
    refine ⟨_, (onCoreEvent_cur hc (by rw [hstop]; exact hcur)).trans (congrArg Host.Outcome.next hstop), rfl, ?_, hmem⟩
    show (metCopy _ _).core.cs = _
    rw [hcore]
    rfl

end Sys2Proof.Machine
end

