-- ==== Sys2Proof/Proofs/CompletionsAndReplies.lean ====
section
/-! SUPPORT. The completion of M words (R122, R224, R225, R236, R239, R244) and the replies to outstanding accesses of one unit (R87, R97,
R423, R424). -/

namespace Sys2Proof.Machine

open Sys2Proof

/-! ## Completion of the oldest M word -/

section
variable {k : Core} {w : MFlight} {rest : List MFlight}

/-- The gather window after a word: its own slot is filled or given up, or QDRAIN empties every slot. -/
def Core.slotsAfter (k : Core) (w : MFlight) (rest : List MFlight) : Bank GatherSlot 2 := ((k.endSlot w rest).drainSlots w).gather

theorem Core.endSlot_eq (k : Core) (w : MFlight) (rest : List MFlight) : k.endSlot w rest = { k with gather := (k.endSlot w rest).gather } := by
  unfold Core.endSlot
  split
  · rfl
  · dsimp only
    split
    · rfl
    · split <;> rfl

theorem Core.drainSlots_endSlot (k : Core) (w : MFlight) (rest : List MFlight) :
    (k.endSlot w rest).drainSlots w = { k with gather := k.slotsAfter w rest } := by
  unfold Core.slotsAfter Core.drainSlots
  split
  · rw [k.endSlot_eq w rest]
  · exact k.endSlot_eq w rest

theorem Core.slotsAfter_drain (h : w.drain = true) (i : BitVec 2) : (bank (k.slotsAfter w rest) i).st = .empty := by
  simp [Core.slotsAfter, Core.drainSlots, h, bank, GatherSlot.none]

theorem Core.slotsAfter_noDrain (h : w.drain = false) : k.slotsAfter w rest = (k.endSlot w rest).gather := by
  simp [Core.slotsAfter, Core.drainSlots, h]

theorem Core.endSlot_other {i : BitVec 2} (h : w.slot ≠ some i) : bank (k.endSlot w rest).gather i = bank k.gather i := by
  unfold Core.endSlot
  split
  · rfl
  · next j hj =>
    have hij : i ≠ j := fun e => h (e ▸ hj)
    dsimp only
    split
    · exact bank_set_other _ _ _ _ hij
    · split
      · exact bank_set_other _ _ _ _ hij
      · rfl

theorem Core.endSlot_filling {i : BitVec 2} (h : w.slot = some i) (hf : (bank k.gather i).st = .filling) :
    bank (k.endSlot w rest).gather i = { bank k.gather i with st := .filled } := by
  simp only [Core.endSlot, h, hf, beq_self_eq_true, if_true]
  exact bank_set_same _ _ _

theorem Core.endSlot_releasing {i : BitVec 2} (h : w.slot = some i) (hr : (bank k.gather i).st = .releasing)
    (hu : ∀ x ∈ rest, x.slot ≠ some i) : (bank (k.endSlot w rest).gather i).st = .empty := by
  have huse : (rest.any fun x => x.slot == some i) = false := by simpa using hu
  have hf : (SlotState.releasing == SlotState.filling) = false := rfl
  simp only [Core.endSlot, h, hr, huse, hf, Bool.false_eq_true, if_false, beq_self_eq_true, Bool.not_false, Bool.and_true, if_true]
  exact congrArg GatherSlot.st (bank_set_same _ _ _)

/-- A write of what a bank holds changes nothing. -/
theorem bankSet_bank {α : Type} {n : Nat} (b : Bank α n) (i : BitVec n) : bankSet b i (bank b i) = b := by simp [bank, bankSet]

/-- The signal of a completed word, none where its increment is zero (R122). -/
theorem Core.signalled (k : Core) (i : BitVec 8) (inc : BitVec 8) (h : (bank k.sem i).toNat + inc.toNat ≤ 65535) :
    (if inc = 0 then some k else semAdd k i inc.toNat) = some { k with
      sem := bankSet k.sem i (BitVec.ofNat 16 ((bank k.sem i).toNat + inc.toNat))
      tally := if inc = 0 then k.tally else (0x1B, 1) :: k.tally } := by
  split
  · next h0 =>
    have hsame : BitVec.ofNat 16 ((bank k.sem i).toNat + inc.toNat) = bank k.sem i := by simp [h0]
    rw [hsame, bankSet_bank]
  · simp only [semAdd, h, if_true]
    rfl

/-- The entry of rq that a word's reply becomes. -/
def replyEntries : Option Word → List RqEntry
  | some x => [⟨false, x⟩]
  | none => []

/-- R224: the word completes. -/
theorem Core.endWord_completes (hf : k.mflight = w :: rest) (hn : (bank k.sem w.sigSem).toNat + w.sigInc.toNat ≤ 65535) :
    k.endWord = { k with
      mflight := rest
      sem := bankSet k.sem w.sigSem (BitVec.ofNat 16 ((bank k.sem w.sigSem).toNat + w.sigInc.toNat))
      rq := k.rq ++ replyEntries w.reply
      gather := k.slotsAfter w rest
      tally := if w.sigInc = 0 then k.tally else (0x1B, 1) :: k.tally } := by
  unfold Core.endWord
  rw [hf]
  dsimp only
  rw [k.drainSlots_endSlot, Core.signalled { k with gather := k.slotsAfter w rest } w.sigSem w.sigInc hn]
  cases w.reply <;> rfl

/-- R122, R225: a signal past 65,535 stops the sequencer. -/
theorem Core.endWord_overflows (hf : k.mflight = w :: rest) (hn : 65535 < (bank k.sem w.sigSem).toNat + w.sigInc.toNat) (h0 : w.sigInc ≠ 0) :
    k.endWord = { k with
      mflight := [], gather := k.slotsAfter w rest, mseq := .faulted, rq := k.rq ++ [⟨true, mFaultPayload w.off mSemOvf 0⟩] } := by
  have hsem : semAdd { k with gather := k.slotsAfter w rest } w.sigSem w.sigInc.toNat = none := by
    unfold semAdd
    exact if_neg (Nat.not_le.2 hn)
  unfold Core.endWord
  rw [hf]
  dsimp only
  rw [k.drainSlots_endSlot, if_neg h0, hsem]
  rfl

end

theorem exec_mWordCompletion {s : State} {c : BitVec 8} (hc : c.toNat = s.cur) :
    exec (.mWordCompletion c) s = .next { s with core := s.core.endWord } := onCoreEvent_cur hc rfl

/-! ## Replies to an access of one unit -/

/-- An outstanding access of one unit, between older and younger ones. -/
structure OneUnit (k : Core) (a : Access) (before after : List Access) : Prop where
  out : k.out = before ++ a :: after
  id : ∀ x ∈ before ++ after, x.id ≠ a.id
  group : ∀ x ∈ before ++ after, x.group ≠ a.group
  waiting : a.got = none

section
variable {k : Core} {a : Access} {before after : List Access} (h : OneUnit k a before after)
include h

theorem OneUnit.find : k.out.find? (fun x => x.id == a.id && x.got.isNone) = some a := by
  have hbefore : before.find? (fun x => x.id == a.id && x.got.isNone) = none :=
    List.find?_eq_none.2 fun x hx => by simp [h.id x (List.mem_append_left _ hx)]
  simp [h.out, List.find?_append, hbefore, h.waiting]

theorem OneUnit.others : (k.out.filter fun x => x.id != a.id) = before ++ after := by
  have hkeep (l : List Access) (hl : ∀ x ∈ l, x ∈ before ++ after) : (l.filter fun x => x.id != a.id) = l :=
    List.filter_eq_self.2 fun x hx => by simpa using h.id x (hl x hx)
  rw [h.out, List.filter_append, List.filter_cons_of_neg (by simp), hkeep _ fun x => List.mem_append_left _,
    hkeep _ fun x => List.mem_append_right _]

/-- A store leaves only the outcome of its reply (R424, R445). -/
theorem OneUnit.answer_store (hd : a.dest = .store) (r : Reply) : k.answer a.id r = landStore a r k := by
  unfold Core.answer
  rw [h.find]
  simp [hd]

theorem OneUnit.updated (f : Access → Access) : updateFirst (fun x => x.id == a.id) f k.out = before ++ f a :: after := by
  have hskip : ∀ x ∈ before, (x.id == a.id) = false := fun x hx => beq_eq_false_iff_ne.2 (h.id x (List.mem_append_left _ hx))
  rw [h.out, updateFirst_append _ hskip]
  simp [updateFirst]

/-- The units of the access's group, and of the others, whatever the reply. -/
theorem OneUnit.groups (r : Reply) :
    ((before ++ { a with got := some r } :: after).filter fun x => x.group == a.group) = [{ a with got := some r }] ∧
      ((before ++ { a with got := some r } :: after).filter fun x => x.group != a.group) = before ++ after := by
  have hnone (l : List Access) (hl : ∀ x ∈ l, x ∈ before ++ after) : (l.filter fun x => x.group == a.group) = [] :=
    List.filter_eq_nil_iff.2 fun x hx => by simpa using h.group x (hl x hx)
  have hkeep (l : List Access) (hl : ∀ x ∈ l, x ∈ before ++ after) : (l.filter fun x => x.group != a.group) = l :=
    List.filter_eq_self.2 fun x hx => by simpa using h.group x (hl x hx)
  constructor
  · rw [List.filter_append, List.filter_cons_of_pos (by simp), hnone _ fun x => List.mem_append_left _, hnone _ fun x => List.mem_append_right _]
    rfl
  · rw [List.filter_append, List.filter_cons_of_neg (by simp), hkeep _ fun x => List.mem_append_left _, hkeep _ fun x => List.mem_append_right _]

/-- The reply to a load or an atomic: a fault stays with the access, bytes land (R424). -/
theorem OneUnit.answer_read (hd : (∃ r signed, a.dest = .sreg r signed) ∨ ∃ r, a.dest = .amo r) (r : Reply) :
    k.answer a.id r = if ({ a with got := some r } : Access).fault.isSome then { k with out := before ++ { a with got := some r } :: after }
      else landRead a.dest [{ a with got := some r }] { k with out := before ++ after } := by
  obtain ⟨hmine, hothers⟩ := h.groups r
  have hns : (a.dest == .store) = false := by
    rcases hd with ⟨_, _, hd⟩ | ⟨_, hd⟩ <;> simp [hd]
  unfold Core.answer
  rw [h.find]
  simp only [hns, Bool.false_eq_true, if_false, h.updated]
  unfold landGroup
  dsimp only
  rw [hmine, hothers]
  rcases hd with ⟨_, _, hd⟩ | ⟨_, hd⟩ <;> simp [hd]

end

/-! ### What a reply writes -/

section
variable (u : Access) (k : Core)

theorem landReg_writes (r : BitVec 6) (x : Word) :
    landReg r x [u] k = { k.overwrite (if u.newer then [] else [r]) [] with s := (landReg r x [u] k).s } := by
  cases hn : u.newer
  · simpa [landReg, hn] using k.setS_writes r x
  · simp [landReg, hn, Core.overwrite_nil]

theorem landReg_getS (r y : BitVec 6) (x : Word) :
    (landReg r x [u] k).getS y = if y = r then (if r = 0 then 0 else if u.newer then k.getS r else x) else k.getS y := by
  cases hn : u.newer
  · simp [landReg, hn, Core.getS_setS]
  · have hr0 : r = 0 → k.getS r = 0 := fun e => if_pos e
    simp only [landReg, List.any_cons, hn, Bool.true_or, if_true]
    split
    · next hy =>
      subst hy
      split
      · next h0 => exact hr0 h0
      · rfl
    · rfl

/-- The core once a miss is counted (R141). -/
def Core.missCounted (miss : Bool) (k : Core) : Core := { k with tally := if miss then (0x14, 1) :: k.tally else k.tally }

theorem landFlag_eq :
    landFlag [u] k = if u.p14 && !u.newerP then (k.missCounted (unitMissed u)).setP 14 (unitMissed u) else k.missCounted (unitMissed u) := by
  have hcount : (if [u].any unitMissed then k.note 0x14 1 else k) = k.missCounted (unitMissed u) := by
    cases hm : unitMissed u <;> simp [hm, Core.missCounted, Core.note]
  unfold landFlag
  dsimp only
  rw [hcount]
  simp

theorem landFlag_writes :
    landFlag [u] k = { k.overwrite [] (if u.p14 && !u.newerP then [14] else []) with
      p := (landFlag [u] k).p, tally := if unitMissed u then (0x14, 1) :: k.tally else k.tally } := by
  rw [landFlag_eq]
  split
  · exact (k.missCounted (unitMissed u)).setP_writes 14 (unitMissed u)
  · rw [Core.overwrite_nil]
    rfl

theorem landFlag_getP (p : BitVec 4) :
    (landFlag [u] k).getP p = if p = 14 then (if u.p14 && !u.newerP then unitMissed u else k.getP 14) else k.getP p := by
  rw [landFlag_eq]
  split
  · rw [Core.getP_setP]
    rfl
  · split
    · next hp => rw [hp]; rfl
    · rfl

end

/-- A load's bytes land in its register and p14 (R96, R97). -/
theorem landRead_sreg {dest : AccDest} {r : BitVec 6} {signed : Bool} (hd : dest = .sreg r signed) (u : Access) (k : Core) {bs : List Byte}
    {miss : Bool} (hu : u.got = some (.data bs miss)) :
    ∃ t, landRead dest [u] k = t ∧
      (∀ y, t.getS y = if y = r then (if r = 0 then 0 else if u.newer then k.getS r else extended signed bs) else k.getS y) ∧
      (∀ p, t.getP p = if p = 14 then (if u.p14 && !u.newerP then miss else k.getP 14) else k.getP p) ∧
      t = { k.overwrite (if u.newer then [] else [r]) (if u.p14 && !u.newerP then [14] else []) with
        s := t.s, p := t.p, tally := if miss then (0x14, 1) :: k.tally else k.tally } := by
  have hbytes : answeredBytes [u] = bs := by simp [answeredBytes, hu]
  have hmiss : unitMissed u = miss := by simp [unitMissed, hu]
  have hreg := landReg_writes u k r (extended signed bs)
  refine ⟨landFlag [u] (landReg r (extended signed bs) [u] k), by rw [hd, ← hbytes]; rfl, fun y => ?_, fun p => ?_, ?_⟩
  · rw [← landReg_getS, landFlag_writes]
    rfl
  · rw [landFlag_getP, hreg, hmiss]
    rfl
  · rw [← Core.overwrite_both]
    generalize landReg r (extended signed bs) [u] k = k' at *
    rw [landFlag_writes, hmiss, hreg]
    rfl

/-- An atomic's old value lands in its register (R99). -/
theorem landRead_amo {dest : AccDest} {r : BitVec 6} (hd : dest = .amo r) (u : Access) (k : Core) {bs : List Byte}
    (hu : u.got = some (.data bs false)) :
    ∃ t, landRead dest [u] k = t ∧
      (∀ y, t.getS y = if y = r then (if r = 0 then 0 else if u.newer then k.getS r else w64 (leNat bs)) else k.getS y) ∧
      t = { k.overwrite (if u.newer then [] else [r]) [] with s := t.s } := by
  have hbytes : answeredBytes [u] = bs := by simp [answeredBytes, hu]
  have hreg := landReg_writes u k r (w64 (leNat bs))
  refine ⟨landReg r (w64 (leNat bs)) [u] k, ?_, fun y => landReg_getS u k r y _, hreg⟩
  subst hd
  simp only [landRead, hbytes, hu, List.find?_cons, List.find?_nil, Option.map_none, Option.or_none]
  conv_rhs => rw [hreg]
  conv_lhs => rw [hreg]
  rfl

/-! ## The obligation -/

section
variable {s : State} {c : BitVec 8} {a : Access} {before after : List Access}

theorem exec_accessCompletion (hc : c.toNat = s.cur) (id : Nat) (r : Reply) :
    exec (.accessCompletion c id r) s = .next { s with core := s.core.answer id r } := onCoreEvent_cur hc rfl

/-- A load that is not strict, or misses nothing, has no fault (R324). -/
theorem Access.fault_data {a : Access} {bs : List Byte} {miss : Bool} (h : (a.strict && miss) = false) :
    ({ a with got := some (.data bs miss) } : Access).fault = none := by
  cases miss
  · rfl
  · exact if_neg (by simpa using h)

theorem exec_storeReply (hc : c.toNat = s.cur) (h : OneUnit s.core a before after) (hd : a.dest = .store) (r : Reply) :
    exec (.accessCompletion c a.id r) s = .next { s with core := landStore a r s.core } := by
  rw [exec_accessCompletion hc, h.answer_store hd]

theorem exec_loadData (hc : c.toNat = s.cur) (h : OneUnit s.core a before after) {r : BitVec 6} {signed : Bool}
    (hd : a.dest = .sreg r signed) {bs : List Byte} {miss : Bool} (hstrict : (a.strict && miss) = false) :
    ∃ t, exec (.accessCompletion c a.id (.data bs miss)) s = .next t ∧
      getS t r = (if r = 0 then 0 else if a.newer then getS s r else extended signed bs) ∧ (∀ x, x ≠ r → getS t x = getS s x) ∧
      getP t 14 = (if a.p14 && !a.newerP then miss else getP s 14) ∧ (∀ p, p ≠ 14 → getP t p = getP s p) ∧
      t = { s with core := { ({ s.core with out := before ++ after }).overwrite (if a.newer then [] else [r])
          (if a.p14 && !a.newerP then [14] else []) with
        s := t.core.s, p := t.core.p, tally := if miss then (0x14, 1) :: s.core.tally else s.core.tally } } := by
  obtain ⟨t, ht, hs, hp, hframe⟩ := landRead_sreg hd { a with got := some (.data bs miss) } { s.core with out := before ++ after } rfl
  refine ⟨{ s with core := t }, ?_, (hs r).trans (if_pos rfl), fun x hx => (hs x).trans (if_neg hx), (hp 14).trans (if_pos rfl),
    fun p hx => (hp p).trans (if_neg hx), congrArg (fun k => { s with core := k }) hframe⟩
  rw [exec_accessCompletion hc, h.answer_read (.inl ⟨r, signed, hd⟩), Access.fault_data hstrict, ← ht]
  rfl

theorem exec_readRefused (hc : c.toNat = s.cur) (h : OneUnit s.core a before after) {r : BitVec 6} {signed : Bool}
    (hd : a.dest = .sreg r signed) :
    exec (.accessCompletion c a.id .prot) s = .next { s with core := { s.core with out := before ++ { a with got := some .prot } :: after } } := by
  rw [exec_accessCompletion hc, h.answer_read (.inl ⟨r, signed, hd⟩)]
  rfl

theorem exec_amoData (hc : c.toNat = s.cur) (h : OneUnit s.core a before after) {r : BitVec 6} (hd : a.dest = .amo r) (bs : List Byte) :
    ∃ t, exec (.accessCompletion c a.id (.data bs false)) s = .next t ∧
      getS t r = (if r = 0 then 0 else if a.newer then getS s r else w64 (leNat bs)) ∧ (∀ x, x ≠ r → getS t x = getS s x) ∧
      t = { s with core := { ({ s.core with out := before ++ after }).overwrite (if a.newer then [] else [r]) [] with s := t.core.s } } := by
  obtain ⟨t, ht, hs, hframe⟩ := landRead_amo hd { a with got := some (.data bs false) } { s.core with out := before ++ after } rfl
  refine ⟨{ s with core := t }, ?_, (hs r).trans (if_pos rfl), fun x hx => (hs x).trans (if_neg hx),
    congrArg (fun k => { s with core := k }) hframe⟩
  rw [exec_accessCompletion hc, h.answer_read (.inr ⟨r, hd⟩), Access.fault_data (Bool.and_false _), ← ht]
  rfl

end

/-- Settles O30: a word's completion by what it does to its slot, its signal and its reply; a reply by the destination of its access. -/
theorem completionsAndReplies : Obligations.CompletionsAndReplies := by
  unfold Obligations.CompletionsAndReplies
  refine ⟨fun s c w rest hc hf => ⟨fun hn h0 => ?_, fun hn => ?_⟩, fun s c a before after hc hout _ hothers hgot => ?_⟩
  · rw [exec_mWordCompletion hc, Core.endWord_overflows hf hn h0]
    exact ⟨_, rfl, rfl, rfl, rfl, rfl⟩
  · rw [exec_mWordCompletion hc, Core.endWord_completes hf hn]
    refine ⟨_, rfl, bank_set_same _ _ _, fun i hi => bank_set_other _ _ _ _ hi, fun x hx => congrArg (fun r => s.core.rq ++ replyEntries r) hx,
      fun hx => (congrArg (fun r => s.core.rq ++ replyEntries r) hx).trans (List.append_nil _), fun hd i => Core.slotsAfter_drain hd i,
      fun hd => ?_, rfl⟩
    rw [Core.slotsAfter_noDrain hd]
    exact ⟨fun i hi => Core.endSlot_other hi, fun i hi => ⟨Core.endSlot_filling hi, Core.endSlot_releasing hi⟩⟩
  · have h : OneUnit s.core a before after := ⟨hout, fun x hx => (hothers x hx).1, fun x hx => (hothers x hx).2, hgot⟩
    refine ⟨fun hd => ?_, fun r signed hd => ⟨fun bs miss hstrict => exec_loadData hc h hd hstrict, exec_readRefused hc h hd⟩,
      fun r hd bs => exec_amoData hc h hd bs⟩
    have hans (r : Reply) := exec_storeReply hc h hd r
    refine ⟨fun bs miss => ?_, ?_, ?_, ?_, ?_⟩
    all_goals
      refine (hans _).trans (congrArg (fun k => Host.Outcome.next { s with core := k }) ?_)
      simp only [landStore, h.others]

end Sys2Proof.Machine
end

