-- ==== Sys2Proof/Proofs/Frames.lean ====
section
/-! SUPPORT. Frames are filled, saved and loaded (R130, R131, R133 to R135). -/

namespace Sys2Proof.Machine

open Sys2Proof

/-! ## A unit and its store -/

theorem unitPlace_fst (u : Nat) : (unitPlace u).1 = if u < 32 then u * 0x10000 else 0x200000 + (u - 32) * 0x8000 := by
  unfold unitPlace
  split <;> rfl

theorem unitPlace_snd (u : Nat) : (unitPlace u).2 = if u < 32 then 0x10000 else 0x8000 := by
  unfold unitPlace
  split <;> rfl

theorem unitPlace_snd_pos (u : Nat) : 0 < (unitPlace u).2 := by
  rw [unitPlace_snd]
  split <;> decide

theorem Core.unitMem_wf {k : Core} (h : CoreCanonical k) (u : Nat) : Memory.wf (k.unitMem u) = true := by
  unfold Core.unitMem
  split
  · exact h.1
  · exact h.2

section
variable (k : Core) (u : Nat) (bs : List Byte) (lines : List Nat) (fresh : Bool)

theorem Core.loadUnit_units : (k.loadUnit u bs lines fresh).units = k.units.setIfInBounds u .own := by
  unfold Core.loadUnit
  dsimp only
  split <;> rfl

theorem Core.loadUnit_s : (k.loadUnit u bs lines fresh).s = k.s := by
  unfold Core.loadUnit
  dsimp only
  split <;> rfl

theorem Core.loadUnit_fresh : (k.loadUnit u bs lines fresh).fresh = if fresh then k.fresh ||| (1#40 <<< u) else k.fresh &&& ~~~(1#40 <<< u) := by
  unfold Core.loadUnit
  dsimp only
  split <;> rfl

theorem Core.loadUnit_unitMem : (k.loadUnit u bs lines fresh).unitMem u = memPut (k.unitMem u) (unitBase u) bs := by
  unfold Core.loadUnit Core.unitMem
  split <;> rfl

/-- The bytes of a unit's store once the unit is loaded. -/
theorem Core.loadUnit_get (h : CoreCanonical k) (x : Nat) :
    memGet ((k.loadUnit u bs lines fresh).unitMem u) x =
      if unitBase u ≤ x ∧ x < unitBase u + bs.length then bs[x - unitBase u]?.getD 0 else memGet (k.unitMem u) x := by
  rw [Core.loadUnit_unitMem]
  exact memGet_memPut _ _ _ _ (Core.unitMem_wf h u)

end

/-! ## Filling (R130, R272) -/

/-- A bit written as it is. -/
theorem freshBit_kept (x : BitVec 40) (u : Nat) : (if x.getLsbD u then x ||| (1#40 <<< u) else x &&& ~~~(1#40 <<< u)) = x := by
  refine BitVec.eq_of_getLsbD_eq fun i hi => ?_
  have hone : (1#40 <<< u).getLsbD i = decide (i = u) := by
    rw [BitVec.getLsbD_shiftLeft, BitVec.getLsbD_one, decide_eq_true hi, Bool.true_and, Bool.eq_iff_iff]
    simp
    omega
  by_cases hiu : i = u
  · subst hiu
    split <;> rename_i hx
    · rw [BitVec.getLsbD_or, hx, Bool.true_or]
    · simp only [BitVec.getLsbD_and, hx, Bool.false_and]
  · split
    · rw [BitVec.getLsbD_or, hone, decide_eq_false hiu, Bool.or_false]
    · rw [BitVec.getLsbD_and, BitVec.getLsbD_not, hone, decide_eq_true hi, decide_eq_false hiu, Bool.not_false, Bool.and_true, Bool.and_true]

theorem Core.fillFrame_claimed {k : Core} {u : Nat} (h : k.units[u]? = some .fill) :
    k.fillFrame u = k.loadUnit u (List.replicate (unitPlace u).2 0) [] (k.fresh.getLsbD u) := by
  simp [Core.fillFrame, h]

section
variable {s : State} {c : BitVec 8} {u : Nat}

theorem exec_frameFill (hc : c.toNat = s.cur) (hcanon : Canonical s) (hu : s.core.units[u]? = some .fill) :
    ∃ t, exec (.frameFill c u) s = .next t ∧ t.core.units = s.core.units.setIfInBounds u .own ∧
      (∀ x, memGet (t.core.unitMem u) x = if unitBase u ≤ x ∧ x < unitBase u + (unitPlace u).2 then 0 else memGet (s.core.unitMem u) x) ∧
      t.core.fresh = s.core.fresh ∧ t.mem = s.mem ∧ t.core.s = s.core.s := by
  have hexec : exec (.frameFill c u) s = .next { s with core := s.core.fillFrame u } := onCoreEvent_cur hc rfl
  rw [Core.fillFrame_claimed hu] at hexec
  refine ⟨_, hexec, Core.loadUnit_units .., fun x => ?_, (Core.loadUnit_fresh ..).trans (freshBit_kept _ _), rfl, Core.loadUnit_s ..⟩
  rw [Core.loadUnit_get _ _ _ _ _ hcanon.core, List.length_replicate]
  split
  · rw [List.getElem?_replicate]
    split <;> rfl
  · rfl

/-! ## Saving (R131) -/

/-- The frame that is saved is the owner's frame of the unit. -/
theorem find_saving {h : HeldUnit} {held : List HeldUnit} {owner : Nat} (hmem : h ∈ held)
    (huniq : ∀ x ∈ held, x.owner = owner → x.unit = u → x = h) (ho : h.owner = owner) (hu : h.unit = u) (hs : h.saving = true) :
    held.find? (fun x => x.owner == owner && x.unit == u && x.saving) = some h := by
  have hsome : (held.find? fun x => x.owner == owner && x.unit == u && x.saving).isSome = true :=
    List.find?_isSome.2 ⟨h, hmem, by simp [ho, hu, hs]⟩
  obtain ⟨x, hx⟩ := Option.isSome_iff_exists.1 hsome
  have hp := List.find?_some hx
  simp only [Bool.and_eq_true, beq_iff_eq] at hp
  obtain ⟨⟨hxo, hxu⟩, -⟩ := hp
  rw [hx, huniq x (List.mem_of_find?_eq_some hx) hxo hxu]

theorem saveFrame_written {e : PoolEntry} {h : HeldUnit} {pa : Nat} (he : poolEntry s e.slot = some e)
    (hfind : s.core.held.find? (fun x => x.owner == e.slot && x.unit == u && x.saving) = some h) (hp : h.poison = []) (hsv : s.sv.en = false)
    (hsites : saveSites s e true (unitPlace u).1 (unitPlace u).2 = memSites pa (unitPlace u).2) :
    ∃ t, saveFrame e.slot u false s = t ∧ t.cur = s.cur ∧ t.mem = memPut s.mem pa (memBytes (unitPlace u).2 0 h.data) ∧
      t.core.held = s.core.held.filter (fun x => !(x.owner == e.slot && x.unit == u)) ∧ t.core.units = s.core.units := by
  have hlen : (memBytes (unitPlace u).2 0 h.data).length = (unitPlace u).2 := memBytes_length _ _ _
  have hne : memBytes (unitPlace u).2 0 h.data ≠ [] := fun hnil => by
    have hpos := unitPlace_snd_pos u
    rw [hnil, List.length_nil] at hlen
    omega
  have hwrite := writeSites_mem pa (memBytes (unitPlace u).2 0 h.data) none 0 s hne
  rw [hlen, putPhys_plain _ _ _ _ _ hsv] at hwrite
  unfold saveFrame
  simp only [hfind, he, hp, List.isEmpty_nil, Bool.not_true, Bool.or_false, Bool.false_eq_true, if_false, hlen, hsites, hwrite]
  exact ⟨_, rfl, rfl, rfl, rfl, rfl⟩

theorem exec_frameSave {e : PoolEntry} {h : HeldUnit} {pa : Nat} (hc : c.toNat = s.cur) (hcanon : Canonical s) (he : poolEntry s e.slot = some e)
    (hfind : s.core.held.find? (fun x => x.owner == e.slot && x.unit == u && x.saving) = some h) (hp : h.poison = [])
    (hwf : Memory.wf h.data = true) (hsv : s.sv.en = false)
    (hsites : saveSites s e true (unitPlace u).1 (unitPlace u).2 = memSites pa (unitPlace u).2) :
    ∃ t, exec (.frameSave c e.slot u false) s = .next t ∧
      (∀ i, i < (unitPlace u).2 → memGet t.mem (pa + i) = memGet h.data i) ∧
      (∀ x, ¬(pa ≤ x ∧ x < pa + (unitPlace u).2) → memGet t.mem x = memGet s.mem x) ∧
      t.core.held = s.core.held.filter (fun x => !(x.owner == e.slot && x.unit == u)) ∧ t.core.units = s.core.units := by
  obtain ⟨t, ht, hcur, hmem, hheld, hunits⟩ := saveFrame_written he hfind hp hsv hsites
  have hget (x : Nat) : memGet t.mem x =
      if pa ≤ x ∧ x < pa + (unitPlace u).2 then (memBytes (unitPlace u).2 0 h.data)[x - pa]?.getD 0 else memGet s.mem x := by
    rw [hmem, memGet_memPut _ _ _ _ hcanon.1, memBytes_length]
  refine ⟨t, (onCoreEvent_cur hc (ht ▸ hcur)).trans (congrArg Host.Outcome.next ht), fun i hi => ?_, fun x hx => ?_, hheld, hunits⟩
  · rw [hget, if_pos ⟨Nat.le_add_right _ _, by omega⟩, Nat.add_sub_cancel_left, memBytes_eq _ _ _ hwf]
    simp [hi]
  · rw [hget, if_neg hx]

/-! ## Loading (R133 to R135) -/

/-! ### What an error in memory leaves as it was -/

theorem putHost_pool (bus : Nat) (bs : List Byte) (s : State) : (putHost bus bs s).pool = s.pool := by
  unfold putHost
  generalize hostRanges bus bs.length = rs
  induction rs generalizing s bs with
  | nil => rfl
  | cons r rest ih => exact (ih _ _).trans (putMem_pool _ _ _)

theorem metUncorrAt_pool (l : Nat) (own : Bool) (va : Word) (s : State) : (metUncorrAt l own va s).pool = s.pool := by
  unfold metUncorrAt
  split
  · split
    · rfl
    · unfold metUncorr reportEvent
      split
      · rfl
      · split
        · rfl
        · simp only [writeEvent, sendIrq, putHost_pool]
  · rfl

section
variable {e : PoolEntry} (hc : c.toNat = s.cur) (hclaim : s.core.claimed = some e.slot) (he : poolEntry s e.slot = some e)
  (hu : s.core.units[u]? = some .load)
include hc hclaim he hu

theorem exec_frameLoad {pa : Nat} (hcanon : Canonical s)
    (hsites : saveSites s e false (unitPlace u).1 (unitPlace u).2 = memSites pa (unitPlace u).2)
    (hclean : ∀ i, i < (unitPlace u).2 → s.sv.deadLines.contains ((pa + i) / 64) = false ∧ s.poison.contains ((pa + i) / 64) = false) :
    ∃ t, exec (.frameLoad c u false) s = .next t ∧ t.core.units = s.core.units.setIfInBounds u .own ∧
      (∀ x, memGet (t.core.unitMem u) x =
        if unitBase u ≤ x ∧ x < unitBase u + (unitPlace u).2 then memGet s.mem (pa + (x - unitBase u)) else memGet (s.core.unitMem u) x) ∧
      t.core.fresh.getLsbD u = false ∧ t.mem = s.mem := by
  have hread := readSites_memSites .copy hclean
  have hload : loadFrame u false s = withCore
      (fun k => (k.loadUnit u ((List.range (unitPlace u).2).map fun i => memGet s.mem (pa + i)) [] false).note 0x17 1) s := by
    unfold loadFrame
    simp only [hclaim, Option.bind_some, he, hu, bne_self_eq_false, Bool.false_eq_true, if_false, hsites, hread]
  refine ⟨_, (onCoreEvent_cur hc (by rw [hload]; rfl)).trans (congrArg Host.Outcome.next hload), Core.loadUnit_units .., fun x => ?_, ?_, rfl⟩
  · refine (Core.loadUnit_get _ _ _ _ _ hcanon.core x).trans ?_
    rw [List.length_map, List.length_range]
    split
    · next hx =>
      have hlt : x - unitBase u < (unitPlace u).2 := by omega
      simp [hlt]
    · rfl
  · show (s.core.loadUnit u _ [] false).fresh.getLsbD u = false
    rw [Core.loadUnit_fresh]
    by_cases h40 : u < 40 <;> simp [h40]

/-- R135: a bobbin whose save area cannot be read is lost. -/
theorem exec_frameLoad_uncorr :
    ∃ t e', exec (.frameLoad c u true) s = .next t ∧ poolEntry t e.slot = some e' ∧ e'.bob.state = .lost ∧
      e'.bob.fault = TrapCode.saveUncorr.code ∧ (s.evring.en = false → t.mem = s.mem) := by
  have hload : loadFrame u true s =
      loseBobbin e.slot .saveUncorr (metUncorrAt e.launch false (e.bob.save + w64 (unitPlace u).1) s) := by
    unfold loadFrame
    simp only [hclaim, Option.bind_some, he, hu, bne_self_eq_false, Bool.false_eq_true, if_false, if_true]
    rfl
  have hentry : poolEntry (metUncorrAt e.launch false (e.bob.save + w64 (unitPlace u).1) s) e.slot = some e :=
    (poolEntry_congr (metUncorrAt_pool _ _ _ s)).trans he
  obtain ⟨e', he', hlost, hcode⟩ := loseBobbin_record (code := .saveUncorr) hentry
  refine ⟨_, e', (onCoreEvent_cur hc (by rw [hload, loseBobbin_cur, metUncorrAt_cur])).trans (congrArg Host.Outcome.next hload), he', hlost, hcode,
    fun hoff => ?_⟩
  rw [loseBobbin_mem, metUncorrAt_mem _ _ _ hoff]

end

end

/-- Settles O32, event by event. -/
theorem frames : Obligations.Frames := by
  unfold Obligations.Frames
  intro s c u hc hcanon _
  dsimp only
  rw [← unitPlace_fst, ← unitPlace_snd]
  refine ⟨exec_frameFill hc hcanon, fun e h he hmem huniq ho hu hs hp hwf hsv pa hsites => ?_, fun e hclaim he hu => ⟨fun pa hsites hclean => ?_, ?_⟩⟩
  · exact exec_frameSave hc hcanon he (find_saving hmem huniq ho hu hs) hp hwf hsv hsites
  · exact exec_frameLoad hc hclaim he hu hcanon hsites hclean
  · exact exec_frameLoad_uncorr hc hclaim he hu

end Sys2Proof.Machine
end

