-- ==== Sys2Proof/Proofs/TileFields.lean ====
section
/-! SUPPORT. Lists given by their elements, and fields of the core store and elements of tiles as such lists. -/

namespace Sys2Proof.Machine

open Sys2Proof

/-! ## Lists given by their elements -/

section
variable {α β : Type}

theorem getElem?_map_range (f : Nat → α) {n i : Nat} (h : i < n) : ((List.range n).map f)[i]? = some (f i) := by
  rw [List.getElem?_map, List.getElem?_range h]
  rfl

theorem getElem?_map_range_none (f : Nat → α) {n i : Nat} (h : n ≤ i) : ((List.range n).map f)[i]? = none :=
  List.getElem?_eq_none (by simpa using h)

/-- A list is the list of its elements. -/
theorem eq_map_range {l : List α} {n : Nat} {f : Nat → α} (hn : l.length = n) (h : ∀ i, i < n → l[i]? = some (f i)) :
    l = (List.range n).map f := by
  refine List.ext_getElem? fun i => ?_
  by_cases hi : i < n
  · rw [h i hi, getElem?_map_range f hi]
  · rw [getElem?_map_range_none f (by omega), List.getElem?_eq_none (by omega)]

/-- Rows of equal length, one after the other. -/
theorem flatMap_map_range (g : Nat → Nat → α) (n w : Nat) :
    ((List.range n).flatMap fun j => (List.range w).map (g j)) = (List.range (n * w)).map fun i => g (i / w) (i % w) := by
  induction n with
  | zero => simp
  | succ n ih =>
    rw [List.range_succ, List.flatMap_append, ih, Nat.succ_mul, List.range_add, List.map_append, List.map_map, List.flatMap_singleton]
    refine congrArg _ (List.map_congr_left fun i hi => ?_)
    have hi := List.mem_range.1 hi
    show g n i = g ((n * w + i) / w) ((n * w + i) % w)
    rw [Nat.mul_comm n w, Nat.mul_add_div (by omega), Nat.mul_add_mod, Nat.div_eq_of_lt hi, Nat.mod_eq_of_lt hi, Nat.add_zero]

theorem take_map_range (f : Nat → α) {n k : Nat} (h : k ≤ n) : ((List.range n).map f).take k = (List.range k).map f := by
  rw [← List.map_take, List.take_range, Nat.min_eq_left h]

theorem drop_map_range (f : Nat → α) (n k : Nat) : ((List.range n).map f).drop k = (List.range (n - k)).map fun i => f (k + i) := by
  refine eq_map_range (by simp) fun i hi => ?_
  rw [List.getElem?_drop, getElem?_map_range f (by omega)]

theorem chunks_map_range (f : Nat → α) {w n len : Nat} (h : n * w ≤ len) :
    chunks w n ((List.range len).map f) = (List.range n).map fun m => (List.range w).map fun i => f (m * w + i) := by
  refine eq_map_range (chunks_length _ _ _) fun m hm => ?_
  have hle : m * w + w ≤ n * w := by
    rw [← Nat.succ_mul]
    exact Nat.mul_le_mul_right w hm
  rw [chunks_getElem _ _ _ _ hm, drop_map_range, take_map_range _ (by omega)]

theorem splitBits_eq_map (w n x : Nat) : splitBits w n x = (List.range n).map fun i => x / 2 ^ (i * w) % 2 ^ w :=
  eq_map_range (splitBits_length _ _ _) fun i hi => splitBits_getElem w n x i hi

/-- Rows turned into columns. -/
theorem transposed_map_range (g : Nat → Nat → α) (nb k : Nat) :
    transposed nb ((List.range k).map fun i => (List.range nb).map (g i)) = (List.range nb).map fun j => (List.range k).map fun i => g i j := by
  induction nb generalizing g with
  | zero => rfl
  | succ nb ih =>
    have hhead : ((List.range k).map fun i => (List.range (nb + 1)).map (g i)).filterMap List.head? = (List.range k).map fun i => g i 0 := by
      rw [List.filterMap_map, ← List.filterMap_eq_map]
      refine List.filterMap_congr fun i _ => ?_
      simp [List.range_succ_eq_map]
    have htail : ((List.range k).map fun i => (List.range (nb + 1)).map (g i)).map List.tail =
        (List.range k).map fun i => (List.range nb).map fun j => g i (j + 1) := by
      rw [List.map_map]
      refine List.map_congr_left fun i _ => ?_
      simp [List.range_succ_eq_map, Function.comp_def]
    show _ :: transposed nb _ = _
    rw [hhead, htail, ih, List.range_succ_eq_map, List.map_cons, List.map_map]
    rfl

theorem zip_map_range (f : Nat → α) (g : Nat → β) (n : Nat) :
    ((List.range n).map f).zip ((List.range n).map g) = (List.range n).map fun i => (f i, g i) := by
  rw [List.zip_map']

theorem zip_range_map (g : Nat → β) (n : Nat) : (List.range n).zip ((List.range n).map g) = (List.range n).map fun i => (i, g i) := by
  simpa using zip_map_range id g n

end

/-! ## Fields of the core store -/

/-- Bits of the value of bytes that are read one by one. -/
theorem leNat_get_testBit (m : Mem) (a : Nat) {n p : Nat} (h : p < 8 * n) :
    (leNat ((List.range n).map fun i => memGet m (a + i))).testBit p = (memGet m (a + p / 8)).getLsbD (p % 8) := by
  rw [leNat_testBit, getElem?_map_range _ (by omega)]
  rfl

/-- A field lies in the bytes that `fieldAt` reads for it. -/
theorem field_fits (t : VTy) (i : Nat) {u : Nat} (hu : u < t.bits) : i * t.bits % 8 + u < 8 * max 1 (t.bits / 8) := by
  cases t <;> simp only [VTy.bits] at hu ⊢ <;> omega

/-- Field `i` of the number that bytes of the core store make up. -/
theorem memNat_field (k : Core) (h : Memory.wf k.cs = true) (t : VTy) {a n i : Nat} (hn : (i + 1) * t.bits ≤ 8 * n) :
    memNat k.cs a n / 2 ^ (i * t.bits) % 2 ^ t.bits = fieldAt k a t.bits i := by
  rw [Nat.succ_mul] at hn
  refine Nat.eq_of_testBit_eq fun u => ?_
  unfold fieldAt memNat
  rw [Nat.testBit_mod_two_pow, Nat.testBit_mod_two_pow, Nat.testBit_div_two_pow, Nat.testBit_div_two_pow]
  by_cases hu : u < t.bits
  · have hfit := field_fits t i hu
    rw [memBytes_eq _ _ _ h, leNat_get_testBit _ _ (by omega), Nat.add_comm u (i * t.bits % 8), leNat_get_testBit _ _ hfit]
    have hbyte : a + (u + i * t.bits) / 8 = a + i * t.bits / 8 + (i * t.bits % 8 + u) / 8 := by omega
    have hbit : (u + i * t.bits) % 8 = (i * t.bits % 8 + u) % 8 := by omega
    rw [hbyte, hbit]
  · simp [hu]

/-- Rows of elements in the core store (R163, R212). -/
theorem rowsOf_eq (core : Core) (h : Memory.wf core.cs = true) (t : VTy) (a rows k : Nat) :
    rowsOf core t a rows k = (List.range rows).map fun m => (List.range k).map fun i => fieldAt core a t.bits (m * k + i) := by
  unfold rowsOf
  rw [splitBits_eq_map, chunks_map_range _ (Nat.le_refl _)]
  refine List.map_congr_left fun m hm => List.map_congr_left fun i hi => memNat_field core h t ?_
  have hm := List.mem_range.1 hm
  have hi := List.mem_range.1 hi
  have hmk : (m * k + i + 1) ≤ rows * k := calc
    m * k + i + 1 ≤ (m + 1) * k := by rw [Nat.succ_mul]; omega
    _ ≤ rows * k := Nat.mul_le_mul_right k hm
  have := Nat.mul_le_mul_right t.bits hmk
  omega

/-- Columns of a B tile, plain or transposed (R247). -/
theorem columnsOf_eq (trb : Bool) (t : VTy) (k nb x : Nat) :
    columnsOf trb t k nb x = (List.range nb).map fun j => (List.range k).map fun i =>
      x / 2 ^ (t.bits * if trb then j * k + i else i * nb + j) % 2 ^ t.bits := by
  unfold columnsOf
  cases trb
  · rw [if_neg Bool.false_ne_true, splitBits_eq_map, chunks_map_range _ (Nat.le_refl _), transposed_map_range]
    simp only [Bool.false_eq_true, if_false, Nat.mul_comm]
  · rw [if_pos rfl, splitBits_eq_map, chunks_map_range _ (Nat.le_refl _)]
    simp only [if_true, Nat.mul_comm]

/-! ## Elements of a tile -/

theorem u32s_map_range (f : Nat → Byte) (n : Nat) :
    u32s ((List.range (4 * n)).map f) = (List.range n).map fun i => leNat ((List.range 4).map fun b => f (4 * i + b)) := by
  induction n generalizing f with
  | zero => rfl
  | succ n ih =>
    have hfour : (List.range (4 * (n + 1))).map f = f 0 :: f 1 :: f 2 :: f 3 :: (List.range (4 * n)).map fun i => f (4 + i) := by
      rw [show 4 * (n + 1) = 4 + 4 * n by omega, List.range_add, List.map_append, List.map_map]
      rfl
    rw [hfour, List.range_succ_eq_map (n := n), List.map_cons, List.map_map]
    show leNat [f 0, f 1, f 2, f 3] :: u32s _ = _
    rw [ih]
    refine congrArg₂ List.cons rfl (List.map_congr_left fun i _ => ?_)
    show leNat ((List.range 4).map fun b => f (4 + (4 * i + b))) = leNat ((List.range 4).map fun b => f (4 * (i + 1) + b))
    simp only [show ∀ b, 4 + (4 * i + b) = 4 * (i + 1) + b from fun b => by omega]

/-- The elements of a tile in element order. -/
theorem getY_eq (k : Core) (h : Memory.wf k.acc = true) (y : Nat) :
    k.getY y = (List.range 8192).map fun i => elemY k y (i / 256) (i % 256) := by
  unfold Core.getY
  rw [memBytes_eq _ _ _ h, u32s_map_range _ 8192]
  refine List.map_congr_left fun i _ => ?_
  unfold elemY
  rw [Nat.div_add_mod]
  simp only [Nat.add_assoc]

theorem leBytes_eq_map (n x : Nat) : leBytes n x = (List.range n).map fun i => BitVec.ofNat 8 (x / 256 ^ i) :=
  eq_map_range (leBytes_length _ _) fun i hi => leBytes_getElem n x i hi

/-- A tile written whole holds its new elements, and no other tile changes. -/
theorem putY_writesTile (s : State) (h : Memory.wf s.core.acc = true) (y : Nat) (val : Nat → Nat → Nat) :
    WritesTile y s (putY y ((List.range 8192).map fun i => val (i / 256) (i % 256)) s) val := by
  have hbytes : ((List.range 8192).map fun i => val (i / 256) (i % 256)).flatMap (leBytes 4) =
      (List.range 32768).map fun b => BitVec.ofNat 8 (val (b / 4 / 256) (b / 4 % 256) / 256 ^ (b % 4)) := by
    simp only [List.flatMap_map, leBytes_eq_map]
    exact flatMap_map_range (fun i b => BitVec.ofNat 8 (val (i / 256) (i % 256) / 256 ^ b)) 8192 4
  have hget (x : Nat) := memGet_memPut s.core.acc (y * 0x8000)
    ((List.range 32768).map fun b => BitVec.ofNat 8 (val (b / 4 / 256) (b / 4 % 256) / 256 ^ (b % 4))) x h
  rw [← hbytes] at hget
  refine ⟨fun j m hj hm => ?_, fun x hx => ?_, rfl⟩
  · have hword : elemY (putY y ((List.range 8192).map fun i => val (i / 256) (i % 256)) s).core y j m = leNat (leBytes 4 (val j m)) := by
      unfold elemY
      rw [leBytes_eq_map]
      refine congrArg leNat (List.map_congr_left fun b hb => (hget _).trans ?_)
      have hb := List.mem_range.1 hb
      have hpos : y * 0x8000 + 4 * (256 * j + m) + b - y * 0x8000 = 4 * (256 * j + m) + b := by omega
      rw [hbytes, List.length_map, List.length_range, if_pos (by omega), hpos, getElem?_map_range _ (by omega),
        show (4 * (256 * j + m) + b) / 4 = 256 * j + m by omega, show (4 * (256 * j + m) + b) % 4 = b by omega,
        show (256 * j + m) / 256 = j by omega, show (256 * j + m) % 256 = m by omega]
      rfl
    rw [hword, leNat_leBytes, show (256 : Nat) ^ 4 = 2 ^ 32 from rfl]
  · refine (hget x).trans (if_neg ?_)
    rw [hbytes, List.length_map, List.length_range]
    exact hx

end Sys2Proof.Machine
end

