-- ==== Sys2Proof/Proofs/DenseCells.lean ====
section
/-! SUPPORT. The dense words of the M-stream: the cells of a product, and what a word makes of its tile (R159, R219 to R221, R247 to R252). -/

namespace Sys2Proof.Machine

open Sys2Proof

/-! ## Elements under their scales (R248) -/

/-- A value under the scale byte at an address, where there are scales. -/
def scaledAt (core : Core) (mx : Bool) (a : Nat) (v : Fl) : Fl := if mx then v.scaled (memGet core.cs a).toNat else v

theorem scaleRow_eq (core : Core) (h : Memory.wf core.cs = true) (c k r : Nat) :
    scaleRow core c k r = (List.range (k / 32)).map fun i => (memGet core.cs (c + r * (k / 32) + i)).toNat := by
  unfold scaleRow Core.csBytes
  rw [memBytes_eq _ _ _ h, List.map_map]
  rfl

theorem scaledRow_none (t : VTy) (k : Nat) (g : Nat → Nat) :
    scaledRow t [] ((List.range k).map g) = (List.range k).map fun i => denseVal t (g i) := by
  unfold scaledRow
  rw [List.isEmpty_nil, if_pos rfl, List.map_map]
  rfl

/-- A row under a scale for each of its blocks of 32. -/
theorem scaledRow_scales (core : Core) (h : Memory.wf core.cs = true) (t : VTy) (c r : Nat) {k : Nat} (hk : k % 32 = 0) (g : Nat → Nat) :
    scaledRow t (scaleRow core c k r) ((List.range k).map g) =
      (List.range k).map fun i => scaledAt core true (c + r * (k / 32) + i / 32) (denseVal t (g i)) := by
  obtain ⟨n, rfl⟩ : ∃ n, k = n * 32 := ⟨k / 32, by omega⟩
  rw [scaleRow_eq core h, Nat.mul_div_cancel _ (by decide)]
  by_cases hn : n = 0
  · subst hn
    rfl
  · have hsome : ((List.range n).map fun i => (memGet core.cs (c + r * n + i)).toNat).isEmpty = false := by simp [hn]
    unfold scaledRow
    rw [hsome, if_neg Bool.false_ne_true, List.length_map, List.length_range, chunks_map_range _ (Nat.le_refl _), zip_map_range, List.flatMap_map]
    simp only [List.map_map, Function.comp_def]
    rw [flatMap_map_range (fun b i => (denseVal t (g (b * 32 + i))).scaled (memGet core.cs (c + r * n + b)).toNat)]
    refine List.map_congr_left fun i _ => ?_
    show (denseVal t (g (i / 32 * 32 + i % 32))).scaled _ = (denseVal t (g i)).scaled _
    rw [Nat.div_add_mod']

/-! ## Operands -/

/-- Element (i, j) of a B operand. -/
def DenseB.val (b : DenseB) (t : VTy) (j i : Nat) : Fl :=
  denseVal t (b.bits / 2 ^ (t.bits * if b.trb then j * b.k + i else i * b.nb + j) % 2 ^ t.bits)

theorem bColumns_none (core : Core) (t : VTy) (b : DenseB) :
    bColumns core t b none = (List.range b.nb).map fun j => (List.range b.k).map fun i => b.val t j i := by
  unfold bColumns
  rw [columnsOf_eq, zip_range_map, List.map_map]
  exact List.map_congr_left fun j _ => scaledRow_none t b.k _

theorem bColumns_some (core : Core) (h : Memory.wf core.cs = true) (t : VTy) (b : DenseB) (hk : b.k % 32 = 0) (c : Nat) :
    bColumns core t b (some c) = (List.range b.nb).map fun j => (List.range b.k).map fun i =>
      scaledAt core true (c + j * (b.k / 32) + i / 32) (b.val t j i) := by
  unfold bColumns
  rw [columnsOf_eq, zip_range_map, List.map_map]
  exact List.map_congr_left fun j _ => scaledRow_scales core h t c j hk _

/-- A B tile has a shape that R247 allows. -/
theorem bTile_shapeOk {core : Core} {t : VTy} {trb : Bool} {x : Word} {p : DenseB × (Nat × Nat)} (h : bTile core t trb x = some p) :
    shapeOk p.1.k p.1.nb = true := by
  unfold bTile at h
  dsimp only at h
  generalize (if trb then ((descOf x).cols, (descOf x).rows) else ((descOf x).rows, (descOf x).cols)) = kn at h
  obtain ⟨k, nb⟩ := kn
  split at h
  · next hok =>
    cases h
    exact (Bool.and_eq_true_iff.1 hok).2
  · cases h

/-- An operand with scales is a tile, of a depth that R247 allows: the buffer holds no MX tile (R249). -/
theorem denseB_e2m1 {core : Core} {trb : Bool} {x : Arg} {b : DenseB} {br : List (Nat × Nat)} (h : denseB core .e2m1 trb x = some (b, br)) :
    b.k % 32 = 0 := by
  unfold denseB at h
  split at h
  · obtain ⟨p, hp, hb⟩ := Option.map_eq_some_iff.1 h
    cases hb
    have hok := bTile_shapeOk hp
    simp only [shapeOk, Bool.and_eq_true, beq_iff_eq] at hok
    omega
  · split at h
    · rw [show (VTy.e2m1 != VTy.e2m1) = false from rfl, Bool.and_false, if_neg Bool.false_ne_true] at h
      cases h
    · cases h
  · cases h

/-! ## Cells (R159, R221, R247, R250) -/

/-- What the cell makes of an element. -/
def Cell.result (clr : Bool) (old : Nat) : Cell → Nat
  | .add int a b => takeChunks clr old (chunkSums int a b)
  | .zeros n => takeChunks clr old (List.replicate n 0)
  | .mask => 0xFF800000
  | .keep => old

/-- The products that the cell takes (R141). -/
def Cell.macs : Cell → Nat
  | .add _ a _ => a.length
  | _ => 0

theorem denseTile_eq (clr : Bool) (old : List Nat) (cells : List Cell) :
    denseTile clr old cells = List.zipWith (fun o c => c.result clr o) old cells := by
  refine congrArg (fun g => List.zipWith g old cells) (funext fun o => funext fun c => ?_)
  cases c <;> rfl

theorem macsOf_eq_sum (cells : List Cell) : macsOf cells = (cells.map Cell.macs).sum := by
  have hfrom (n : Nat) : cells.foldl (fun n c => match c with
      | .add _ a _ => n + a.length
      | _ => n) n = n + (cells.map Cell.macs).sum := by
    induction cells generalizing n with
    | nil => rfl
    | cons c rest ih =>
      rw [List.foldl_cons, ih, List.map_cons, List.sum_cons, ← Nat.add_assoc]
      cases c <;> rfl
  exact (hfrom 0).trans (Nat.zero_add _)

theorem sum_ite_eq_countP {α : Type} (l : List α) (p : α → Bool) (k : Nat) : (l.map fun i => if p i then k else 0).sum = k * l.countP p := by
  induction l with
  | nil => rfl
  | cons x rest ih =>
    rw [List.map_cons, List.sum_cons, ih, List.countP_cons]
    cases p x
    · simp
    · simp [Nat.mul_succ, Nat.add_comm]

section
variable (int : Bool) (as bs : List (List Fl)) (bitmap : Option Nat)

theorem cellsFor_length : (cellsFor int as bs bitmap).length = 8192 := by
  unfold cellsFor
  rw [flatMap_map_range, List.length_map, List.length_range]

variable {int as bs bitmap} {j m : Nat} (hj : j < 32) (hm : m < 256)
include hj hm

theorem cellsFor_outside (h : as[m]? = none ∨ bs[j]? = none) : (cellsFor int as bs bitmap)[256 * j + m]? = some .keep := by
  unfold cellsFor
  rw [flatMap_map_range, getElem?_map_range _ (by omega), show (256 * j + m) / 256 = j by omega, show (256 * j + m) % 256 = m by omega]
  rcases h with h | h
  · simp [h]
  · cases as[m]? with
    | none => rfl
    | some a => cases a <;> simp [h]

theorem cellsFor_zeros {b : List Fl} (ha : as[m]? = some []) (hb : bs[j]? = some b) :
    (cellsFor int as bs bitmap)[256 * j + m]? = some (.zeros (b.length / 64)) := by
  unfold cellsFor
  rw [flatMap_map_range, getElem?_map_range _ (by omega), show (256 * j + m) / 256 = j by omega, show (256 * j + m) % 256 = m by omega]
  simp [ha, hb]

theorem cellsFor_product {a b : List Fl} (ha : as[m]? = some a) (hne : a ≠ []) (hb : bs[j]? = some b) :
    (cellsFor int as bs bitmap)[256 * j + m]? =
      some (if (bitmap.map fun x => x.testBit (256 * j + m)).getD true then .add int a b else .mask) := by
  obtain ⟨x, rest, rfl⟩ := List.exists_cons_of_ne_nil hne
  unfold cellsFor
  rw [flatMap_map_range, getElem?_map_range _ (by omega), show (256 * j + m) / 256 = j by omega, show (256 * j + m) % 256 = m by omega]
  simp [ha, hb]

end

/-! ## The finished word -/

section
variable {t : VTy} {f : MFields} {as bs : List (List Fl)} {bitmap : Option Nat} {s : State} {cell : Nat → Nat → Cell} {k : Nat}
  {p : Nat → Nat → Bool}

/-- The count may stand before the write of the tile. -/
theorem denseDone_eq :
    denseDone t f as bs bitmap s = mNext (putY f.acc.toNat (denseTile f.clr (s.core.getY f.acc.toNat) (cellsFor (!t.isFloat) as bs bitmap))
      { s with core := s.core.note 0x12 (macsOf (cellsFor (!t.isFloat) as bs bitmap)) }) := rfl

/-- The word writes its tile cell by cell and counts its products; `p` says which cells take `k` of them. -/
theorem denseDone_writes (hacc : Memory.wf s.core.acc = true)
    (hcell : ∀ j m, j < 32 → m < 256 → (cellsFor (!t.isFloat) as bs bitmap)[256 * j + m]? = some (cell j m))
    (hmacs : ∀ j m, (cell j m).macs = if p j m then k else 0) :
    ∃ s', denseDone t f as bs bitmap s = mNext s' ∧
      WritesTile f.acc.toNat { s with core := s.core.note 0x12 (k * (List.range 8192).countP fun i => p (i / 256) (i % 256)) } s'
        fun j m => (cell j m).result f.clr (elemY s.core f.acc.toNat j m) := by
  have hcells : cellsFor (!t.isFloat) as bs bitmap = (List.range 8192).map fun i => cell (i / 256) (i % 256) := by
    refine eq_map_range (cellsFor_length _ _ _ _) fun i hi => ?_
    rw [← hcell (i / 256) (i % 256) (by omega) (by omega), Nat.div_add_mod]
  have htile : denseTile f.clr (s.core.getY f.acc.toNat) (cellsFor (!t.isFloat) as bs bitmap) =
      (List.range 8192).map fun i => (cell (i / 256) (i % 256)).result f.clr (elemY s.core f.acc.toNat (i / 256) (i % 256)) := by
    rw [denseTile_eq, getY_eq _ hacc, hcells, List.zipWith_map_left, List.zipWith_map_right, List.zipWith_self]
  have hcount : macsOf (cellsFor (!t.isFloat) as bs bitmap) = k * (List.range 8192).countP fun i => p (i / 256) (i % 256) := by
    rw [macsOf_eq_sum, hcells, List.map_map, ← sum_ite_eq_countP]
    exact congrArg List.sum (List.map_congr_left fun i _ => hmacs _ _)
  refine ⟨_, ?_, putY_writesTile { s with core := s.core.note 0x12 (k * (List.range 8192).countP fun i => p (i / 256) (i % 256)) } hacc
    f.acc.toNat fun j m => (cell j m).result f.clr (elemY s.core f.acc.toNat j m)⟩
  rw [denseDone_eq, htile, hcount]

end

/-! ## A product of a row and a column (R143, R159) -/

/-- The chunks of 64 products of `a` and `b`, each rounded once; a sum of integers that is zero is +0. -/
def dotChunks (t : VTy) (k : Nat) (a b : Nat → Fl) : List Nat :=
  (List.range (k / 64)).map fun h =>
    let x := Fl.sum false ((List.range 64).map fun i => (a (64 * h + i)).mul (b (64 * h + i)))
    fp32.rne (if t.isFloat = false ∧ x.isZero = true then .fin false 0 0 else x)

theorem chunkSums_eq (t : VTy) (k : Nat) (a b : Nat → Fl) :
    chunkSums (!t.isFloat) ((List.range k).map a) ((List.range k).map b) = dotChunks t k a b := by
  unfold chunkSums dotChunks
  rw [List.zipWith_map_left, List.zipWith_map_right, List.zipWith_self, List.length_map, List.length_range,
    chunks_map_range _ (Nat.div_mul_le_self k 64), List.map_map]
  refine List.map_congr_left fun h _ => ?_
  simp only [Function.comp_apply, chunkSum, Nat.mul_comm h 64, Bool.and_eq_true, Bool.not_eq_true']

/-! ## The cells of a product -/

section
variable (t : VTy) (k nb : Nat) (av bv : Nat → Nat → Fl)

/-- A cell of MMA or MMA.MSK: a product inside the operands where no mask bit is clear (R221, R247, R251). -/
def mmaCell (rows : Nat) (masked : Nat → Nat → Bool) (j m : Nat) : Cell :=
  if m < rows ∧ j < nb then
    if masked j m then .mask else .add (!t.isFloat) ((List.range k).map (av m)) ((List.range k).map (bv j))
  else .keep

/-- A cell of MMA.G: a product, or zeros in a lane without an index (R220, R250). -/
def gatherCell (idx : Nat → Nat) (j m : Nat) : Cell :=
  if nb ≤ j then .keep
  else if idx m = 0xFFFF ∨ k = 0 then .zeros (k / 64)
  else .add (!t.isFloat) ((List.range k).map (av m)) ((List.range k).map (bv j))

variable {rows : Nat} {masked : Nat → Nat → Bool} {idx : Nat → Nat} (clr : Bool) (old : Nat) (j m : Nat)

theorem mmaCell_result : (mmaCell t k nb av bv rows masked j m).result clr old =
    if m < rows ∧ j < nb then if masked j m then 0xFF800000 else takeChunks clr old (dotChunks t k (av m) (bv j)) else old := by
  unfold mmaCell
  split
  · split
    · rfl
    · rw [← chunkSums_eq]
      rfl
  · rfl

theorem mmaCell_macs : (mmaCell t k nb av bv rows masked j m).macs =
    if decide (m < rows) && decide (j < nb) && !masked j m then k else 0 := by
  unfold mmaCell
  by_cases hin : m < rows ∧ j < nb
  · obtain ⟨hm, hj⟩ := hin
    cases masked j m <;> simp [hm, hj, Cell.macs]
  · rw [if_neg hin, ← Bool.decide_and, decide_eq_false hin]
    rfl

theorem gatherCell_result : (gatherCell t k nb av bv idx j m).result clr old =
    if nb ≤ j then old
    else if idx m = 0xFFFF then takeChunks clr old (List.replicate (k / 64) 0)
    else takeChunks clr old (dotChunks t k (av m) (bv j)) := by
  unfold gatherCell
  split
  · rfl
  · by_cases hi : idx m = 0xFFFF
    · rw [if_pos (.inl hi), if_pos hi]
      rfl
    · rw [if_neg hi]
      by_cases hk : k = 0
      · subst hk
        rw [if_pos (.inr rfl)]
        rfl
      · rw [if_neg (not_or.2 ⟨hi, hk⟩), ← chunkSums_eq]
        rfl

theorem gatherCell_macs : (gatherCell t k nb av bv idx j m).macs = if decide (j < nb) && decide (idx m ≠ 0xFFFF) then k else 0 := by
  unfold gatherCell
  by_cases hj : nb ≤ j
  · rw [if_pos hj, decide_eq_false (Nat.not_lt.2 hj)]
    rfl
  · rw [if_neg hj, decide_eq_true (Nat.not_le.1 hj), Bool.true_and]
    by_cases hi : idx m = 0xFFFF
    · rw [if_pos (.inl hi), decide_eq_false (not_not.2 hi)]
      rfl
    · by_cases hk : k = 0
      · rw [if_pos (.inr hk), hk, ite_self]
        rfl
      · rw [if_neg (not_or.2 ⟨hi, hk⟩), decide_eq_true hi, if_pos rfl]
        simp [Cell.macs]

variable {j m} (hj : j < 32) (hm : m < 256)
include hj hm

theorem cellsFor_mma {bitmap : Option Nat} (hk : k ≠ 0)
    (hmask : (bitmap.map fun x => x.testBit (256 * j + m)).getD true = !masked j m) :
    (cellsFor (!t.isFloat) ((List.range rows).map fun m => (List.range k).map (av m)) ((List.range nb).map fun j => (List.range k).map (bv j))
      bitmap)[256 * j + m]? = some (mmaCell t k nb av bv rows masked j m) := by
  unfold mmaCell
  by_cases hin : m < rows ∧ j < nb
  · have hne : (List.range k).map (av m) ≠ [] := by simpa using hk
    rw [if_pos hin, cellsFor_product hj hm (getElem?_map_range _ hin.1) hne (getElem?_map_range _ hin.2), hmask]
    cases masked j m <;> rfl
  · rw [if_neg hin]
    refine cellsFor_outside hj hm ?_
    by_cases hr : m < rows
    · exact .inr (getElem?_map_range_none _ (Nat.not_lt.1 fun hn => hin ⟨hr, hn⟩))
    · exact .inl (getElem?_map_range_none _ (Nat.not_lt.1 hr))

theorem cellsFor_gather :
    (cellsFor (!t.isFloat) ((List.range 256).map fun m => if idx m = 0xFFFF then [] else (List.range k).map (av m))
      ((List.range nb).map fun j => (List.range k).map (bv j)) none)[256 * j + m]? = some (gatherCell t k nb av bv idx j m) := by
  unfold gatherCell
  have hrow := getElem?_map_range (fun m => if idx m = 0xFFFF then [] else (List.range k).map (av m)) hm
  by_cases hn : nb ≤ j
  · rw [if_pos hn]
    exact cellsFor_outside hj hm (.inr (getElem?_map_range_none _ hn))
  · have hcol := getElem?_map_range (fun j => (List.range k).map (bv j)) (Nat.not_le.1 hn)
    rw [if_neg hn]
    by_cases hzero : idx m = 0xFFFF ∨ k = 0
    · have hempty : (if idx m = 0xFFFF then [] else (List.range k).map (av m)) = [] := by
        rcases hzero with h | h <;> simp [h]
      rw [if_pos hzero, cellsFor_zeros hj hm (hrow.trans (congrArg some hempty)) hcol, List.length_map, List.length_range]
    · obtain ⟨hi, hk⟩ := not_or.1 hzero
      have hne : (List.range k).map (av m) ≠ [] := by simpa using hk
      rw [if_neg hzero, cellsFor_product hj hm (hrow.trans (congrArg some (if_neg hi))) hne hcol]
      rfl

end

/-! ## Ranges that are ready (R130, R225, R229) -/

/-- A word whose ranges and tiles are ready has its effect. -/
theorem mStore_ready {rd wr : List (Nat × Nat)} {yr yw : List Nat} {s : State} (h : StoreReady rd wr yr yw s) (body : Unit → MEnd) :
    mStore rd wr yr yw s body = body () := by
  obtain ⟨hin, hown, hclean, hytile⟩ := h
  have h1 : (rd ++ wr).all inStore = true := List.all_eq_true.2 fun r hr => decide_eq_true (hin r hr)
  have h2 : (unitsTouched (rd ++ wr) (yr ++ yw)).all (fun u => s.core.units[u]? == some .own) = true :=
    List.all_eq_true.2 fun u hu => beq_iff_eq.2 (hown u hu)
  have h3 : rd.any (poisoned s.core.csPoison) = false := List.any_eq_false.2 fun r hr => by simp [hclean r hr]
  have h4 : yr.any (fun y => poisoned s.core.accPoison (y * 0x8000, 0x8000)) = false := List.any_eq_false.2 fun y hy => by simp [hytile y hy]
  simp only [mStore, h1, h2, h3, h4, Bool.not_true, Bool.or_self, Bool.false_eq_true, if_false]

/-- The slots below one, and then it. -/
theorem slots_split (i : BitVec 2) :
    [0#2, 1, 2, 3] = [0#2, 1, 2, 3].takeWhile (· < i) ++ i :: ([0#2, 1, 2, 3].dropWhile (· < i)).tail := by
  revert i
  decide

/-- R237: the lowest EMPTY slot. -/
theorem freeSlotOf_lowest {k : Core} {i : BitVec 2} (he : (bank k.gather i).st = .empty) (hlow : ∀ i', i' < i → (bank k.gather i').st ≠ .empty) :
    freeSlotOf k = .some i := by
  have hfind : [0#2, 1, 2, 3].find? (fun i => (bank k.gather i).st == .empty) = some i := by
    refine List.find?_eq_some_iff_append.2 ⟨beq_iff_eq.2 he, _, _, slots_split i, fun a ha => ?_⟩
    have hlt : a < i := by simpa using List.mem_takeWhile_imp ha
    rw [beq_eq_false_iff_ne.2 (hlow a hlt)]
    rfl
  unfold freeSlotOf
  rw [hfind]

end Sys2Proof.Machine
end

