-- ==== Sys2Proof/Proofs/DenseProducts.lean ====
section
/-! SUPPORT. The dense products: MMA, MMA.MSK and MMA.G (R219 to R221, R247, R248, R250, R251). -/

namespace Sys2Proof.Machine

open Sys2Proof

/-! ## MMA and MMA.MSK (R247, R248, R251) -/

section
variable {op : BitVec 8} {t : VTy} {cc : LocCol} {so : Option Nat} {masked : Bool} {f : MFields} {s : State} {x : MArgs}
  {mq : Bank (List Word) 2} {b : DenseB} {br : List (Nat × Nat)} {ax : Word}

/-- Element i of row m of A, under its scale where there are scales from `o` on. -/
def mmaA (core : Core) (t : VTy) (mx : Bool) (o k a m i : Nat) : Fl :=
  scaledAt core mx (o + k + m * (k / 32) + i / 32) (denseVal t (fieldAt core a t.bits (m * k + i)))

/-- Element i of column j of B, under its scale. -/
def mmaB (core : Core) (t : VTy) (mx : Bool) (o : Nat) (b : DenseB) (j i : Nat) : Fl :=
  scaledAt core mx (o + j * (b.k / 32) + i / 32) (b.val t j i)

/-- Whether the bitmap at `c` has a clear bit for an element. -/
def maskedOut (core : Core) (masked : Bool) (c j m : Nat) : Bool := masked && !(memGet core.cs (c + 32 * j + m / 8)).getLsbD (m % 8)

theorem rowsOf_scaled (core : Core) (h : Memory.wf core.cs = true) (t : VTy) (a rows k : Nat) {F : Nat × List Nat → List Fl} {av : Nat → Nat → Fl}
    (hF : ∀ m, F (m, (List.range k).map fun i => fieldAt core a t.bits (m * k + i)) = (List.range k).map (av m)) :
    ((List.range rows).zip (rowsOf core t a rows k)).map F = (List.range rows).map fun m => (List.range k).map (av m) := by
  rw [rowsOf_eq core h, zip_range_map, List.map_map]
  exact List.map_congr_left fun m _ => hF m

theorem bitmap_testBit (core : Core) (h : Memory.wf core.cs = true) (c : Nat) {j m : Nat} (hj : j < 32) (hm : m < 256) :
    ((if masked then some (memNat core.cs c 1024) else none).map fun x => x.testBit (256 * j + m)).getD true = !maskedOut core masked c j m := by
  cases masked
  · rfl
  · show (memNat core.cs c 1024).testBit (256 * j + m) = !(true && !_)
    unfold memNat
    rw [memBytes_eq _ _ _ h, leNat_get_testBit _ _ (by omega), Bool.true_and, Bool.not_not,
      show (256 * j + m) / 8 = 32 * j + m / 8 by omega, show (256 * j + m) % 8 = m % 8 by omega, Nat.add_assoc]

/-- The word takes the sums of its chunks into its tile. -/
theorem mmaWord_writes (hcanon : Canonical s) (hst : Starts f false s) (ht : Takes colT colTN cc f s x mq) (hxa : x.a = .tile ax)
    (hb : denseB s.core t f.trb x.b = some (b, br)) (hso : so.isSome = true → t = .e2m1) (hdata : (descOf ax).isData = true)
    (hty : (descOf ax).ty = t.code.toNat) (hcols : (descOf ax).cols = b.k) (hrows : (descOf ax).rows ≤ 256)
    (hready : StoreReady ((descOf ax).range :: br ++
        (if so.isSome then [(x.c.addr + so.getD 0, b.nb * (b.k / 32)), (x.c.addr + so.getD 0 + b.k, (descOf ax).rows * (b.k / 32))] else []) ++
        (if masked then [(x.c.addr, 1024)] else [])) [] (denseReads f) [f.acc.toNat] s) :
    let o := x.c.addr + so.getD 0
    let rows := (descOf ax).rows
    let out (j m : Nat) : Bool := maskedOut s.core masked x.c.addr j m
    ∃ s', mmaWord op t cc so masked f s = .next (started op f s mq {} (mNext s')) ∧
      WritesTile f.acc.toNat
        { s with core := s.core.note 0x12 (b.k * (List.range 8192).countP fun i =>
          decide (i % 256 < rows) && decide (i / 256 < b.nb) && !out (i / 256) (i % 256)) } s' fun j m =>
        if m < rows ∧ j < b.nb then
          if out j m then 0xFF800000
          else takeChunks f.clr (elemY s.core f.acc.toNat j m)
            (dotChunks t b.k (mmaA s.core t so.isSome o b.k (descOf ax).range.1 m) (mmaB s.core t so.isSome o b j))
        else elemY s.core f.acc.toNat j m := by
  intro o rows out
  have hwf := hcanon.core.1
  have hk : b.k ≠ 0 := by
    rw [← hcols]
    simp only [Desc.isData, Bool.and_eq_true, bne_iff_ne] at hdata
    obtain ⟨⟨-, hcolumns⟩, -⟩ := hdata
    exact hcolumns
  obtain ⟨s', hs', hw⟩ := denseDone_writes (t := t) (f := f) (s := s) (k := b.k) (p := fun j m => decide (m < rows) && decide (j < b.nb) && !out j m)
    hcanon.core.2 (fun j m hj hm => cellsFor_mma t b.k b.nb (mmaA s.core t so.isSome o b.k (descOf ax).range.1) (mmaB s.core t so.isSome o b) hj hm hk
      (bitmap_testBit s.core hwf x.c.addr hj hm)) (mmaCell_macs t b.k b.nb _ _)
  simp only [mmaCell_result] at hw
  refine ⟨s', ?_, hw⟩
  rw [← hs']
  refine mWord_started hst ht ?_
  have hok : (!(descOf ax).isData || (descOf ax).ty != t.code.toNat || (descOf ax).cols != b.k || decide (256 < (descOf ax).rows)) = false := by
    simp [hdata, hty, hcols, hrows]
  simp only [hxa, hb]
  rw [hok, if_neg Bool.false_ne_true]
  cases so with
  | none =>
    refine (mStore_ready hready _).trans ?_
    dsimp only
    rw [rowsOf_scaled s.core hwf t (descOf ax).range.1 (descOf ax).rows b.k (fun m => scaledRow_none t b.k _), Option.map_none, bColumns_none]
    rfl
  | some d =>
    have hk32 : b.k % 32 = 0 := denseB_e2m1 (hso rfl ▸ hb)
    refine (mStore_ready hready _).trans ?_
    dsimp only
    rw [rowsOf_scaled s.core hwf t (descOf ax).range.1 (descOf ax).rows b.k (fun m => scaledRow_scales s.core hwf t _ m hk32 _), Option.map_some,
      bColumns_some s.core hwf t b hk32]
    rfl

/-! ## MMA.G (R220, R250) -/

/-- The index of lane m at `c`. -/
def laneIdx (core : Core) (c m : Nat) : Nat := (memGet core.cs (c + 2 * m)).toNat + 256 * (memGet core.cs (c + 2 * m + 1)).toNat

/-- Element n of the row of lane m, under its scale. -/
def gatherA (core : Core) (t : VTy) (mx : Bool) (base c k m n : Nat) : Fl :=
  scaledAt core mx (c + 512 + k + laneIdx core c m * (k / 32) + n / 32)
    (denseVal t (fieldAt core (base + laneIdx core c m * (k * t.bits / 8)) t.bits n))

/-- The ranges of the rows and scales that the lanes' indices reach. -/
def laneRanges (core : Core) (t : VTy) (mx : Bool) (base c k : Nat) : List (Nat × Nat) :=
  (List.range 256).flatMap fun m =>
    if laneIdx core c m = 0xFFFF then []
    else (base + laneIdx core c m * (k * t.bits / 8), k * t.bits / 8) ::
      if mx then [(c + 512 + k + laneIdx core c m * (k / 32), k / 32)] else []

theorem laneIndices_eq (core : Core) (h : Memory.wf core.cs = true) (c : Nat) :
    (List.range 256).map (laneIndex core c) = (List.range 256).map (laneIdx core c) := by
  refine List.map_congr_left fun m _ => ?_
  unfold laneIndex memNat laneIdx
  rw [memBytes_eq _ _ _ h]
  simp [List.range_succ, leNat]

theorem rowsOf_single (core : Core) (h : Memory.wf core.cs = true) (t : VTy) (a k : Nat) :
    (rowsOf core t a 1 k).flatten = (List.range k).map (fieldAt core a t.bits) := by
  rw [rowsOf_eq core h]
  simp

theorem mmaGather_writes {mx : Bool} {i : BitVec 2} (hcanon : Canonical s) (hst : Starts f false s) (ht : Takes colS colTN colS f s x mq)
    (hb : denseB s.core t f.trb x.b = some (b, br)) (hmx : mx = true → t = .e2m1) (he : (bank s.core.gather i).st = .empty)
    (hlow : ∀ i', i' < i → (bank s.core.gather i').st ≠ .empty) (hidx : StoreReady [(x.c.addr, 512)] [] [] [] s)
    (hready : StoreReady (br ++ (if mx then [(x.c.addr + 512, b.nb * (b.k / 32))] else []) ++ laneRanges s.core t mx x.a.addr x.c.addr b.k) []
      (denseReads f) [f.acc.toNat] s) :
    let idx (m : Nat) : Nat := laneIdx s.core x.c.addr m
    ∃ s', mmaGather op t mx f s = .next (started op f s mq { slot := some i } (mNext s')) ∧
      WritesTile f.acc.toNat
        { s with core := (s.core.setSlot i { GatherSlot.none with st := .releasing }).note 0x12 (b.k * (List.range 8192).countP fun i =>
          decide (i / 256 < b.nb) && decide (idx (i % 256) ≠ 0xFFFF)) } s' fun j m =>
        if b.nb ≤ j then elemY s.core f.acc.toNat j m
        else if idx m = 0xFFFF then takeChunks f.clr (elemY s.core f.acc.toNat j m) (List.replicate (b.k / 64) 0)
        else takeChunks f.clr (elemY s.core f.acc.toNat j m)
          (dotChunks t b.k (gatherA s.core t mx x.a.addr x.c.addr b.k m) (mmaB s.core t mx (x.c.addr + 512) b j)) := by
  intro idx
  have hwf := hcanon.core.1
  obtain ⟨s', hs', hw⟩ := denseDone_writes (t := t) (f := f) (k := b.k) (p := fun j m => decide (j < b.nb) && decide (idx m ≠ 0xFFFF))
    (s := { s with core := s.core.setSlot i { GatherSlot.none with st := .releasing } }) hcanon.core.2
    (fun j m hj hm => cellsFor_gather t b.k b.nb (gatherA s.core t mx x.a.addr x.c.addr b.k) (mmaB s.core t mx (x.c.addr + 512) b) (idx := idx) hj hm)
    (gatherCell_macs t b.k b.nb _ _)
  simp only [gatherCell_result] at hw
  refine ⟨s', ?_, hw⟩
  rw [← hs']
  refine mWord_started hst ht ?_
  have hin : ((x.c.addr, 512) :: br ++ if mx then [(x.c.addr + 512, b.nb * (b.k / 32))] else []).all inStore = true := by
    refine List.all_eq_true.2 fun r hr => decide_eq_true ?_
    rcases List.mem_cons.1 hr with rfl | hr
    · exact hidx.1 _ (by simp)
    · exact hready.1 r (List.mem_append_left _ (List.mem_append_left _ hr))
  simp only [hb]
  rw [hin, Bool.not_true, if_neg Bool.false_ne_true, freeSlotOf_lowest he hlow]
  refine (mStore_ready hidx _).trans ?_
  rw [laneIndices_eq s.core hwf, List.flatMap_map]
  refine (mStore_ready hready _).trans ?_
  simp only [rowsOf_single s.core hwf, List.map_map]
  have hrows (m : Nat) : (if laneIdx s.core x.c.addr m = 0xFFFF then []
      else scaledRow t (if mx then scaleRow s.core (x.c.addr + 512 + b.k) b.k (laneIdx s.core x.c.addr m) else [])
        ((List.range b.k).map (fieldAt s.core (x.a.addr + laneIdx s.core x.c.addr m * (b.k * t.bits / 8)) t.bits))) =
      if idx m = 0xFFFF then [] else (List.range b.k).map (gatherA s.core t mx x.a.addr x.c.addr b.k m) := by
    refine ite_congr rfl (fun _ => rfl) fun _ => ?_
    cases mx with
    | false => exact scaledRow_none t b.k _
    | true => exact scaledRow_scales s.core hwf t _ _ (denseB_e2m1 (hmx rfl ▸ hb)) _
  have hcols : bColumns s.core t b (if mx then some (x.c.addr + 512) else none) =
      (List.range b.nb).map fun j => (List.range b.k).map (mmaB s.core t mx (x.c.addr + 512) b j) := by
    cases mx with
    | false => exact bColumns_none s.core t b
    | true => exact bColumns_some s.core hwf t b (denseB_e2m1 (hmx rfl ▸ hb)) _
  rw [hcols]
  simp only [Function.comp_def, hrows]

end

/-! ## The obligation -/

/-- Settles O27: every dense product is MMA or MMA.G with its type, scales and bitmap. -/
theorem denseProducts : Obligations.DenseProducts := by
  unfold Obligations.DenseProducts
  intro s f x mq b br hcanon hst
  dsimp only
  refine ⟨fun p hp ax ht hxa hb hdata hty hcols hrows hready => ?_, fun p hp i ht hb he hlow hidx hready => ?_⟩
  · have hword : exec p.1 s = mmaWord p.2.1 p.2.2.1 p.2.2.2.1 p.2.2.2.2.1 p.2.2.2.2.2 f s ∧ (p.2.2.2.2.1.isSome = true → p.2.2.1 = .e2m1) := by
      simp only [List.mem_cons, List.not_mem_nil, or_false] at hp
      rcases hp with rfl | rfl | rfl | rfl | rfl | rfl | rfl | rfl | rfl | rfl <;> exact ⟨rfl, by simp⟩
    obtain ⟨hexec, hso⟩ := hword
    rw [hexec]
    exact mmaWord_writes hcanon hst ht hxa hb hso hdata hty hcols hrows hready
  · have hword : exec p.1 s = mmaGather p.2.1 p.2.2.1 p.2.2.2 f s ∧ (p.2.2.2 = true → p.2.2.1 = .e2m1) := by
      simp only [List.mem_cons, List.not_mem_nil, or_false] at hp
      rcases hp with rfl | rfl | rfl | rfl | rfl <;> exact ⟨rfl, by simp⟩
    obtain ⟨hexec, hmx⟩ := hword
    rw [hexec]
    exact mmaGather_writes hcanon hst ht hb hmx he hlow hidx hready

end Sys2Proof.Machine
end

