-- ==== Sys2Proof/Proofs/VectorElements.lean ====
section
/-! SUPPORT. Element instructions of the V-stream: sources as the lists of their elements, and what a computation that runs over
them makes of each element (R163, R177). -/

namespace Sys2Proof.Machine

open Sys2Proof

/-! ## Sources as lists of elements -/

theorem eq_map_getD {α : Type} (l : List α) (d : α) : l = (List.range l.length).map fun j => l[j]?.getD d :=
  eq_map_range rfl fun j hj => by rw [List.getElem?_eq_getElem hj, Option.getD_some]

theorem els_eq_map (t : VTy) (l : List Nat) {n : Nat} (h : l.length = n) :
    els t l = (List.range (n * t.lanes)).map fun j => (els t l)[j]?.getD 0 := by
  rw [← h, ← els_length]
  exact eq_map_getD _ 0

/-- A second or third source, which reads as zeros where the instruction has none. -/
theorem optionalSource_eq (t : VTy) (l : List Nat) {n : Nat} (h : l.length = 0 ∨ l.length = n) (xs : List Nat) (hx : xs.length = n * t.lanes) :
    (if l.isEmpty then xs.map fun _ => 0 else els t l) = (List.range (n * t.lanes)).map fun j => (els t l)[j]?.getD 0 := by
  by_cases hl : l = []
  · subst hl
    refine eq_map_range (by simpa using hx) fun j hj => ?_
    simp [els, hx, hj]
  · have hn : l.length = n := h.resolve_left (by simpa using hl)
    rw [if_neg (by simpa using hl), ← els_eq_map t l hn]

theorem triples_eq (t : VTy) (inp : VIn) {n : Nat} (ha : inp.a.length = n) (hb : inp.b.length = 0 ∨ inp.b.length = n)
    (hc : inp.c.length = 0 ∨ inp.c.length = n) :
    triples t inp = (List.range (n * t.lanes)).map fun j => (j, srcA t inp j, srcB t inp j, srcC t inp j) := by
  have hlen : (els t inp.a).length = n * t.lanes := by rw [els_length, ha]
  unfold triples
  dsimp only
  rw [optionalSource_eq t inp.b hb _ hlen, optionalSource_eq t inp.c hc _ hlen, hlen, els_eq_map t inp.a ha, zip_map_range, zip_map_range,
    zip_range_map]

/-! ## Computations over the elements -/

section
variable {i : Instr} {len : Nat} {f : VFields} {sh : VShape} {s : State} {val : VIn → Nat → El}

/-- An instruction that makes of elements j of its sources element j of its destination. -/
theorem triples_computes {g : VIn → Nat × Nat × Nat × Nat → El}
    (he : exec i s = elementWord len f sh (fun inp => (triples sh.src inp).map (g inp)) s)
    (hb : sh.nb = 0 ∨ sh.nb = sh.na) (hc : sh.nc = 0 ∨ sh.nc = sh.na) (hn : sh.na * sh.src.lanes = sh.nd * sh.dst.lanes)
    (h : ∀ inp j, g inp (j, srcA sh.src inp j, srcB sh.src inp j, srcC sh.src inp j) = val inp j) : ComputesElements i len f sh s val :=
  elementWord_spec he fun inp ha hb' hc' => by
    rw [triples_eq sh.src inp ha (by rwa [hb']) (by rwa [hc']), hn, List.map_map]
    exact List.map_congr_left fun j _ => h inp j

/-- The same of one source. -/
theorem elements_computes {g : VIn → Nat → El} (he : exec i s = elementWord len f sh (fun inp => (els sh.src inp.a).map (g inp)) s)
    (hn : sh.na * sh.src.lanes = sh.nd * sh.dst.lanes) (h : ∀ inp j, g inp (srcA sh.src inp j) = val inp j) :
    ComputesElements i len f sh s val :=
  elementWord_spec he fun inp ha _ _ => by
    rw [els_eq_map sh.src inp.a ha, hn, List.map_map]
    exact List.map_congr_left fun j _ => h inp j

theorem pattern1_computes {op : Nat → Nat} (he : exec i s = pattern1 len f op s) (h : ∀ inp j, El.quiet (op (srcA f.ty inp j)) = val inp j) :
    ComputesElements i len f (unaryShape f.ty) s val := elements_computes he rfl h

theorem pattern2_computes {op : Nat → Nat → Nat} (he : exec i s = pattern2 len f op s)
    (h : ∀ inp j, El.quiet (op (srcA f.ty inp j) (srcB f.ty inp j)) = val inp j) : ComputesElements i len f (binaryShape f.ty) s val :=
  triples_computes he (.inr rfl) (.inl rfl) rfl h

end

end Sys2Proof.Machine
end

