-- ==== Sys2Proof/Proofs/VectorPatterns.lean ====
section
/-! SUPPORT. Moves, minima, logic, shifts, counts, selects and masks as elements (R145, R147, R175, R177, R180, R183, R184). -/

namespace Sys2Proof.Machine

open Sys2Proof

/-! ## Bits of an element -/

theorem popCount_eq (w x : Nat) : popCount w x = (List.range w).countP x.testBit := by
  unfold popCount bitsList
  rw [← List.countP_eq_length_filter, List.countP_map]
  rfl

theorem joinBits_map_range (w : Nat) (g : Nat → Nat) (n : Nat) :
    joinBits w ((List.range n).map g) = ((List.range n).map fun i => g i % 2 ^ w * 2 ^ (w * i)).sum := by
  induction n generalizing g with
  | zero => rfl
  | succ n ih =>
    rw [List.range_succ_eq_map, List.map_cons, List.map_map, List.map_cons, List.map_map, List.sum_cons, joinBits, ih, ← List.sum_map_mul_left,
      Nat.mul_zero, Nat.pow_zero, Nat.mul_one]
    refine congrArg _ (congrArg List.sum (List.map_congr_left fun i _ => ?_))
    show 2 ^ w * (g (i + 1) % 2 ^ w * 2 ^ (w * i)) = g (i + 1) % 2 ^ w * 2 ^ (w * (i + 1))
    rw [Nat.mul_succ, Nat.pow_add, Nat.mul_left_comm, Nat.mul_comm (2 ^ w)]

theorem bit_testBit (x i : Nat) : x / 2 ^ i % 2 = bit (x.testBit i) := by
  rw [Nat.testBit_eq_decide_div_mod_eq]
  unfold bit
  rcases Nat.mod_two_eq_zero_or_one (x / 2 ^ i) with h | h <;> simp [h]

theorem reverseBits_eq (n x : Nat) : reverseBits n x = ((List.range n).map fun i => bit (x.testBit (n - 1 - i)) * 2 ^ i).sum := by
  have hrev : (splitBits 1 n x).reverse = (List.range n).map fun i => bit (x.testBit (n - 1 - i)) := by
    rw [splitBits_eq_map]
    refine eq_map_range (by simp) fun i hi => ?_
    rw [List.getElem?_reverse (by simpa using hi), List.length_map, List.length_range, getElem?_map_range _ (by omega), Nat.mul_one, pow_one,
      bit_testBit]
  unfold reverseBits
  rw [hrev, joinBits_map_range]
  refine congrArg List.sum (List.map_congr_left fun i _ => ?_)
  rw [Nat.one_mul, pow_one, Nat.mod_eq_of_lt]
  unfold bit
  split <;> decide

section
variable (s : State) (f : VFields)

/-! ## Counts, shifts and look-up (R145, R180, R184) -/

theorem vpopc_computes : ComputesElements (.vpopc f) (longLen f) f (unaryShape f.ty) s
    fun inp j => ⟨(List.range f.ty.bits).countP (srcA f.ty inp j).testBit, 0⟩ :=
  pattern1_computes rfl fun _ _ => congrArg El.quiet (popCount_eq _ _)

theorem vbrev_computes : ComputesElements (.vbrev f) (longLen f) f (unaryShape f.ty) s fun inp j =>
    ⟨((List.range f.ty.bits).map fun i => bit ((srcA f.ty inp j).testBit (f.ty.bits - 1 - i)) * 2 ^ i).sum, 0⟩ :=
  pattern1_computes rfl fun _ _ => congrArg El.quiet (reverseBits_eq _ _)

theorem vfrexp_computes : ComputesElements (.vfrexp f) (longLen f) f (unaryShape f.ty) s fun inp j =>
    let w := f.ty.bits
    let v := (vfmt f.ty).val (srcA f.ty inp j)
    ⟨patternOf w (if v.isNan || v.isInf then 2 ^ (w - 1) - 1 else if v.isZero then -2 ^ (w - 1) else v.log2), 0⟩ :=
  elements_computes (sh := unaryShape f.ty) rfl rfl fun _ _ => rfl

theorem vshl_computes : ComputesElements (.vshl f) (longLen f) f (binaryShape f.ty) s fun inp j =>
    let n := shiftAmount f.ty (srcB f.ty inp j)
    ⟨if f.ty.bits ≤ n then 0 else srcA f.ty inp j * 2 ^ n % 2 ^ f.ty.bits, 0⟩ := by
  simp only [← Nat.shiftLeft_eq]
  exact triples_computes rfl (.inr rfl) (.inl rfl) rfl fun _ _ => rfl

theorem vshr_computes : ComputesElements (.vshr f) (longLen f) f (binaryShape f.ty) s fun inp j =>
    let n := shiftAmount f.ty (srcB f.ty inp j)
    ⟨if f.ty.bits ≤ n then 0 else srcA f.ty inp j / 2 ^ n, 0⟩ := by
  simp only [← Nat.shiftRight_eq_div_pow]
  exact triples_computes rfl (.inr rfl) (.inl rfl) rfl fun _ _ => rfl

theorem vsra_computes : ComputesElements (.vsra f) (longLen f) f (binaryShape f.ty) s fun inp j =>
    let w := f.ty.bits
    ⟨patternOf w (signedOf w (srcA f.ty inp j) / 2 ^ min (shiftAmount f.ty (srcB f.ty inp j)) (w - 1)), 0⟩ := by
  have hdiv (x : Int) (n : Nat) : x / 2 ^ n = x >>> n := by rw [Int.shiftRight_eq_div_pow, Nat.cast_pow]; rfl
  simp only [hdiv]
  exact triples_computes rfl (.inr rfl) (.inl rfl) rfl fun _ _ => rfl

theorem elNot_n64 (x : Nat) : elNot .n64 x = 2 ^ 64 - 1 - x := congrArg (fun w => 2 ^ w - 1 - x) (show VTy.bits .n64 = 64 from rfl)

theorem vnotShort_computes (d a : BitVec 11) : ComputesElements (.vnotShort d a) 1 (shortUnary .n64 d a) (unaryShape .n64) s
    fun inp j => ⟨2 ^ 64 - 1 - srcA .n64 inp j, 0⟩ :=
  pattern1_computes (op := elNot .n64) rfl fun _ _ => congrArg El.quiet (elNot_n64 _)

theorem vandnShort_computes (d a : BitVec 11) : ComputesElements (.vandnShort d a) 1 (shortBinary .n64 d a) (binaryShape .n64) s
    fun inp j => ⟨srcA .n64 inp j &&& (2 ^ 64 - 1 - srcB .n64 inp j), 0⟩ :=
  pattern2_computes (op := fun x y => x &&& elNot .n64 y) rfl fun _ _ => congrArg (fun y => El.quiet (_ &&& y)) (elNot_n64 _)

/-- R180: the table is the first source, which every element of the second one indexes. -/
theorem vlut_computes : ComputesElements (.vlut f) (longLen f) f (binaryShape f.ty) s
    fun inp j => ⟨srcA f.ty inp (srcB f.ty inp j % 256 % f.ty.lanes), 0⟩ := by
  refine elementWord_spec rfl fun inp _ hb _ => ?_
  dsimp only
  rw [els_eq_map f.ty inp.b hb, List.map_map]
  rfl

/-! ## Selects and masks (R175, R183) -/

/-- R175: every element is written, from the first source where its mask bit is set, else from the second. -/
theorem vsel_computes : ComputesElements (.vsel f) (longLen f) f { src := f.ty, dst := f.ty, nb := 1, force := true } s
    fun inp j => ⟨if isActive inp.cells f.ty j then srcA f.ty inp j else srcB f.ty inp j, 0⟩ := by
  refine elementWord_spec rfl fun inp ha hb _ => ?_
  rw [els_eq_map f.ty inp.a ha, els_eq_map f.ty inp.b hb, show (1 : Nat) * f.ty.lanes = f.ty.lanes from Nat.one_mul _, activity, zip_map_range,
    zip_map_range, List.map_map]
  rfl

theorem vmovi_computes : ComputesElements (.vmovi f) (longLen f) f { src := f.ty, dst := f.ty, na := 0 } s fun _ _ => ⟨litVal f.ty (litOf f), 0⟩ := by
  refine elementWord_spec rfl fun inp _ _ _ => ?_
  rw [List.map_const', List.length_range, Nat.one_mul]
  rfl

theorem ktov_computes : ComputesElements (.ktov f) (longLen f) f { src := f.ty, dst := f.ty, na := 0 } s
    fun _ j => ⟨if isActive (s.core.getM (maskField f.va)) f.ty j then 2 ^ f.ty.bits - 1 else 0, 0⟩ := by
  refine elementWord_spec rfl fun inp _ _ _ => ?_
  rw [activity, List.map_map, Nat.one_mul]
  rfl

theorem kpopc_computes : ComputesElements (.kpopc f) (longLen f) f { src := f.ty, dst := .n32, na := 0 } s
    fun _ _ => ⟨(List.range f.ty.lanes).countP (isActive (s.core.getM (maskField f.va)) f.ty), 0⟩ := by
  refine elementWord_spec rfl fun inp _ _ _ => ?_
  rw [List.map_const', List.length_range, activity, ← List.countP_eq_length_filter, List.countP_map]
  exact congrArg₂ List.replicate (show 256 = 1 * VTy.lanes .n32 by decide) rfl

end

end Sys2Proof.Machine
end

