-- ==== Sys2Proof/Proofs/VectorConversions.lean ====
section
/-! SUPPORT. Sign changes, dot products, widening, conversions, packing and the reading of block formats (R152, R177 to R180, R185 to R187). -/

namespace Sys2Proof.Machine

open Sys2Proof

/-! ## Widths -/

/-- A type of `n` times the width has as many elements in `n` registers. -/
theorem lanes_of_bits {t o : VTy} {n : Nat} (h : n * t.bits = o.bits) : t.lanes = n * o.lanes := by
  refine Nat.eq_of_mul_eq_mul_right (bits_pos t) ?_
  rw [bits_lanes, ← bits_lanes o, ← h, Nat.mul_comm n o.lanes, Nat.mul_assoc]

theorem dotTy_bits (t : VTy) : (dotTy t).bits = 32 := by cases t <;> rfl

theorem dotTy_lanes (t : VTy) : (dotTy t).lanes = 256 := by cases t <;> rfl

/-- A conversion takes as many elements as it gives. -/
theorem convert_lanes (t o : VTy) : max 1 (t.bits / o.bits) * t.lanes = max 1 (o.bits / t.bits) * o.lanes := by
  cases t <;> cases o <;> rfl

/-- A type of whole bytes has 1,024 elements in as many registers as it has bytes. -/
theorem byteLanes {t : VTy} (h : 8 ≤ t.bits) : t.bits / 8 * t.lanes = 1024 := by
  revert h
  cases t <;> decide

section
variable {i : Instr} {len : Nat} {f : VFields} {s : State} {val : VIn → Nat → El}

/-! ## Signs (R177) -/

/-- An integer operation, or a change of the sign bit. -/
def signEl (t : VTy) (fi : Int → Int → Int) (fs : Bool → Bool → Bool) (inp : VIn) (j : Nat) : El :=
  let x := srcA t inp j
  let y := srcB t inp j
  if t.isFloat then
    if ((vfmt t).val x).isNan then ⟨(vfmt t).nan.getD 0, 0⟩
    else ⟨(vfmt t).signed (fs (x.testBit (t.bits - 1)) (y.testBit (t.bits - 1))) (x % 2 ^ (t.bits - 1)), 0⟩
  else wrapped t inp (fi (intVal t x) (intVal t y))

theorem signWord_computes {nb : Nat} {fi : Int → Int → Int} {fs : Bool → Bool → Bool} (hb : nb = 0 ∨ nb = 1)
    (he : exec i s = signWord len f { src := f.ty, dst := f.ty, nb := nb } fi fs s) :
    ComputesElements i len f { src := f.ty, dst := f.ty, nb := nb } s (signEl f.ty fi fs) := by
  refine triples_computes he hb (.inl rfl) rfl fun inp j => ?_
  have hbit (x n : Nat) : (x / 2 ^ n % 2 == 1) = x.testBit n := by rw [Nat.testBit_eq_decide_div_mod_eq, beq_eq_decide]
  cases hf : f.ty.isFloat <;> simp [signEl, elNan, hf, hbit, El.quiet, Rounding.int]

theorem vAbs_computes (he : exec i s = vAbs len f s) :
    ComputesElements i len f (unaryShape f.ty) s (signEl f.ty (fun x _ => x.natAbs) fun _ _ => false) := signWord_computes (.inl rfl) he

theorem vNeg_computes (he : exec i s = vNeg len f s) :
    ComputesElements i len f (unaryShape f.ty) s (signEl f.ty (fun x _ => -x) fun n _ => !n) := signWord_computes (.inl rfl) he

theorem vsign_computes :
    ComputesElements (.vsign f) (longLen f) f (binaryShape f.ty) s
      (signEl f.ty (fun x y => if 0 < y then x else if y = 0 then 0 else -x) fun _ n => n) := signWord_computes (.inr rfl) rfl

/-! ## Dot products (R178) -/

/-- `g` products and an addend, summed exactly and finished once. -/
def dotEl (g : Nat) (t : VTy) (inp : VIn) (j : Nat) : El :=
  let o := dotTy t
  let xs := (List.range g).map fun i => srcA t inp (g * j + i)
  let ys := (List.range g).map fun i => srcB t inp (g * j + i)
  if t.isFloat then
    let x := xs.map (operand t inp)
    let y := ys.map (operand t inp)
    let z := fp32.read inp.rnd.vm.ftz (srcC o inp j)
    rounded o inp j (x.any Fl.isNan || y.any Fl.isNan || z.isNan) (Fl.sum inp.down (z :: List.zipWith Fl.mul x y))
  else wrapped o inp ((List.zipWith (fun p q => intVal t p * intVal t q) xs ys).foldl (· + ·) (intVal o (srcC o inp j)))

theorem vDot_computes {g : Nat} (hg : f.ty.bits * g = 32) (he : exec i s = vDot g f s) :
    ComputesElements i (longLen f) f { src := f.ty, dst := dotTy f.ty, nb := 1, nc := 1 } s (dotEl g f.ty) := by
  refine elementWord_spec he fun inp ha hb hc => ?_
  have hlanes : f.ty.lanes = 256 * g := by
    rw [lanes_of_bits (o := dotTy f.ty) (n := g) (by rw [dotTy_bits, Nat.mul_comm, hg]), dotTy_lanes, Nat.mul_comm]
  have hpieces (l : List Nat) (hl : l.length = 1) : chunks g 256 (els f.ty l) =
      (List.range 256).map fun j => (List.range g).map fun i => (els f.ty l)[g * j + i]?.getD 0 := by
    rw [els_eq_map f.ty l hl, chunks_map_range _ (by omega)]
    simp only [Nat.mul_comm g]
    rw [← els_eq_map f.ty l hl]
  dsimp only
  rw [hpieces _ ha, hpieces _ hb, els_eq_map (dotTy f.ty) inp.c hc, dotTy_lanes, Nat.one_mul, zip_map_range, zip_map_range, zip_range_map,
    List.map_map]
  rfl

/-! ## Widening (R179) -/

/-- An operation on the exact values of two elements, in the widened type. -/
def wideEl (t : VTy) (fi : Int → Int → Int) (ff : Bool → Fl → Fl → Fl) (inp : VIn) (j : Nat) : El :=
  if t.isFloat then
    let x := operand t inp (srcA t inp j)
    let y := operand t inp (srcB t inp j)
    rounded (widened t) inp j (x.isNan || y.isNan) (ff inp.down x y)
  else wrapped (widened t) inp (fi (intVal t (srcA t inp j)) (intVal t (srcB t inp j)))

theorem vWiden_computes {fi : Int → Int → Int} {ff : Bool → Fl → Fl → Fl} (hw : 2 * f.ty.bits = (widened f.ty).bits)
    (he : exec i s = vWiden f fi ff s) :
    ComputesElements i (longLen f) f { src := f.ty, dst := widened f.ty, nb := 1, nd := 2 } s (wideEl f.ty fi ff) :=
  triples_computes (sh := wideShape f.ty 1) he (.inr rfl) (.inl rfl) ((Nat.one_mul _).trans (lanes_of_bits hw)) fun _ _ => rfl

theorem vunpk_computes (hw : 2 * f.ty.bits = (widened f.ty).bits) :
    ComputesElements (.vunpk f) (longLen f) f { src := f.ty, dst := widened f.ty, nd := 2 } s
      fun inp j => ⟨patternOf (widened f.ty).bits (intVal f.ty (srcA f.ty inp j)), 0⟩ :=
  elements_computes (sh := wideShape f.ty 0) rfl ((Nat.one_mul _).trans (lanes_of_bits hw)) fun _ _ => rfl

theorem vmulw_computes (hw : 2 * f.ty.bits = (widened f.ty).bits) :
    ComputesElements (.vmulw f) (longLen f) f { src := f.ty, dst := widened f.ty, nb := 1, nd := 2 } s (wideEl f.ty (· * ·) fun _ => Fl.mul) :=
  vWiden_computes hw rfl

theorem vaddw_computes (hw : 2 * f.ty.bits = (widened f.ty).bits) :
    ComputesElements (.vaddw f) (longLen f) f { src := f.ty, dst := widened f.ty, nb := 1, nd := 2 } s (wideEl f.ty (· + ·) flAdd) :=
  vWiden_computes hw rfl

/-! ## Scaling and rounding to integral values (R180) -/

theorem satInt_eq (x lo hi : Int) (h : lo ≤ hi) : satInt x lo hi = max lo (min hi x) := by
  unfold satInt
  split
  · omega
  · split <;> omega

theorem vscale_computes :
    ComputesElements (.vscale f) (longLen f) f (binaryShape f.ty) s fun inp j =>
      let x := operand f.ty inp (srcA f.ty inp j)
      rounded f.ty inp j x.isNan (x.scale (max (-1000) (min 1000 (signedOf f.ty.bits (srcB f.ty inp j))))) := by
  refine triples_computes rfl (.inr rfl) (.inl rfl) rfl fun _ _ => ?_
  rw [← satInt_eq _ _ _ (by decide)]
  rfl

theorem vrint_computes :
    ComputesElements (.vrint f) (longLen f) f (unaryShape f.ty) s fun inp j =>
      rintEl (vfmt f.ty) (inp.rnd.at j) (operand f.ty inp (srcA f.ty inp j)) :=
  triples_computes rfl (.inl rfl) (.inl rfl) rfl fun _ _ => rfl

/-! ## Conversions and packing (R152, R185, R186) -/

theorem vcvt_computes :
    let o := fmtOf f.vb
    ComputesElements (.vcvt f) (longLen f) f
      { src := f.ty, dst := o, na := max 1 (f.ty.bits / o.bits), nd := max 1 (o.bits / f.ty.bits) } s
      fun inp j => convertEl f.ty o inp.rnd j (srcA f.ty inp j) :=
  triples_computes rfl (.inl rfl) (.inl rfl) (convert_lanes _ _) fun _ _ => rfl

theorem append_map_range {α : Type} (g h : Nat → α) (n m : Nat) :
    (List.range n).map g ++ (List.range m).map h = (List.range (n + m)).map fun j => if j < n then g j else h (j - n) := by
  refine eq_map_range (by simp) fun j hj => ?_
  by_cases hn : j < n
  · rw [List.getElem?_append_left (by simpa using hn), getElem?_map_range _ hn, if_pos hn]
  · rw [List.getElem?_append_right (by simpa using Nat.not_lt.1 hn), List.length_map, List.length_range, getElem?_map_range _ (by omega), if_neg hn]

theorem vpack_computes (hw : 2 * (halved f.ty).bits = f.ty.bits) :
    ComputesElements (.vpack f) (longLen f) f { src := f.ty, dst := halved f.ty, nb := 1 } s
      fun inp j => wrapped (halved f.ty) inp (intVal f.ty (if j < f.ty.lanes then srcA f.ty inp j else srcB f.ty inp (j - f.ty.lanes))) := by
  refine elementWord_spec rfl fun inp ha hb _ => ?_
  have hlanes := lanes_of_bits hw
  rw [els_eq_map f.ty inp.a ha, els_eq_map f.ty inp.b hb, append_map_range, List.map_map]
  dsimp only
  rw [Nat.one_mul, Nat.one_mul, hlanes, Nat.two_mul]
  rfl

/-! ## Block formats (R187) -/

theorem vmxd_computes (ht : 8 ≤ f.ty.bits) :
    let t := f.ty
    let o := fmtOf f.vb
    ComputesElements (.vmxd f) (longLen f) f { src := t, dst := t, na := 2, nd := t.bits / 8 } s fun inp j =>
      let scale := inp.a[1]?.getD 0 / 2 ^ (8 * (j / 32)) % 256
      let v := operand o inp (inp.a[0]?.getD 0 / 2 ^ (o.bits * j) % 2 ^ o.bits)
      if scale = 0xFF then ⟨(vfmt t).nan.getD 0, 0⟩ else rounded t inp j v.isNan (v.scaled scale) := by
  intro t o
  refine elementWord_spec rfl fun inp _ _ _ => ?_
  dsimp only
  rw [splitBits_eq_map (fmtOf f.vb).bits, zip_range_map, List.map_map, byteLanes ht]
  refine List.map_congr_left fun j hj => ?_
  have hj := List.mem_range.1 hj
  have hscale : (splitBits 8 32 (inp.a[1]?.getD 0))[j / 32]?.getD 0 = inp.a[1]?.getD 0 / 2 ^ (8 * (j / 32)) % 256 := by
    rw [splitBits_getElem _ _ _ _ (by omega), Nat.mul_comm]
    rfl
  show (if (splitBits 8 32 (inp.a[1]?.getD 0))[j / 32]?.getD 0 = 0xFF then _ else _) = _
  rw [hscale, Nat.mul_comm o.bits]
  rfl

end

/-! ## The obligation -/

/-- Settles O17: every instruction runs over the elements of its sources. -/
theorem vectorPatternsAndConversions : Obligations.VectorPatternsAndConversions := by
  unfold Obligations.VectorPatternsAndConversions
  refine ⟨fun s f d a => ?_, fun s f d a => ?_⟩
  · intro t w no amount un bin ter
    simp only [List.forall_mem_cons, List.not_mem_nil, false_implies, implies_true, and_true]
    exact ⟨⟨elements_computes rfl rfl fun _ _ => rfl, elements_computes rfl rfl fun _ _ => rfl, pattern1_computes rfl fun _ _ => rfl,
        pattern1_computes rfl fun _ _ => rfl, vpopc_computes s f, vbrev_computes s f, vfrexp_computes s f⟩,
      ⟨pattern2_computes rfl fun _ _ => rfl, pattern2_computes rfl fun _ _ => rfl, pattern2_computes rfl fun _ _ => rfl,
        pattern2_computes rfl fun _ _ => rfl, pattern2_computes rfl fun _ _ => rfl,
        triples_computes rfl (.inr rfl) (.inl rfl) rfl fun _ _ => rfl, vshl_computes s f, vshr_computes s f, vsra_computes s f, vlut_computes s f⟩,
      ⟨triples_computes rfl (.inr rfl) (.inr rfl) rfl fun _ _ => rfl, triples_computes rfl (.inr rfl) (.inr rfl) rfl fun _ _ => rfl⟩,
      vsel_computes s f, vmovi_computes s f, ktov_computes s f, kpopc_computes s f,
      ⟨elements_computes rfl rfl fun _ _ => rfl, elements_computes rfl rfl fun _ _ => rfl, vnotShort_computes s d a⟩,
      pattern2_computes rfl fun _ _ => rfl, pattern2_computes rfl fun _ _ => rfl, pattern2_computes rfl fun _ _ => rfl,
      vandnShort_computes s d a, pattern2_computes rfl fun _ _ => rfl, pattern2_computes rfl fun _ _ => rfl,
      pattern2_computes rfl fun _ _ => rfl, pattern2_computes rfl fun _ _ => rfl, pattern2_computes rfl fun _ _ => rfl,
      pattern2_computes rfl fun _ _ => rfl⟩
  · intro t down sign un
    simp only [List.forall_mem_cons, List.not_mem_nil, false_implies, implies_true, and_true]
    exact ⟨⟨vAbs_computes rfl, vNeg_computes rfl, vrint_computes⟩, vAbs_computes rfl, vNeg_computes rfl, vsign_computes, vscale_computes,
      ⟨fun h => vDot_computes h rfl, fun h => vDot_computes h rfl⟩,
      fun hw => ⟨vmulw_computes hw, vaddw_computes hw, vunpk_computes hw⟩, vcvt_computes,
      fun hw => vpack_computes hw, fun _ ht => vmxd_computes ht⟩

end Sys2Proof.Machine
end

