-- ==== Sys2Proof/Proofs/VectorFunctions.lean ====
section
/-! SUPPORT. Functions of one operand and random bits (R150, R189, R198). -/

namespace Sys2Proof.Machine

open Sys2Proof

section
variable {i : Instr} {len : Nat} {f : VFields} {s : State}

/-- R189: a function by its values at zeros, infinities and other operands; a NaN gives the canonical NaN and raises nothing. -/
def fnEl (t : VTy) (op : BitVec 8) (zero inf : Bool → Approx) (fin : Bool → Nat → Int → Approx) (inp : VIn) (j : Nat) : El :=
  match operand t inp (srcA t inp j) with
  | .nan => ⟨((vfmt t).ofFl .rne false .nan).bits, 0⟩
  | .inf neg => finishFn t op inp.rnd j (srcA t inp j) (inf neg)
  | .fin neg m e => finishFn t op inp.rnd j (srcA t inp j) (if m = 0 then zero neg else fin neg m e)

theorem fnWord_computes {op : BitVec 8} {zero inf : Bool → Approx} {fin : Bool → Nat → Int → Approx}
    (he : exec i s = fnWord len f op zero inf fin s) : ComputesElements i len f (unaryShape f.ty) s (fnEl f.ty op zero inf fin) := by
  refine triples_computes he (.inl rfl) (.inl rfl) rfl fun inp j => ?_
  show finishFn f.ty op inp.rnd j (srcA f.ty inp j) (match operand f.ty inp (srcA f.ty inp j) with
    | .nan => .special .nan 0
    | .inf neg => inf neg
    | .fin neg m e => if m = 0 then zero neg else fin neg m e) = _
  unfold fnEl
  cases operand f.ty inp (srcA f.ty inp j) <;> rfl

/-- R198: lane L of the generator gives elements 4L to 4L + 3. -/
theorem vrand_computes :
    ComputesElements (.vrand f) (longLen f) f { src := .n32, dst := .n32, na := 0 } s fun inp j =>
      ⟨srOut inp.rnd.key inp.rnd.ctr (inp.rnd.base + j / 4) (f.modifier.extractLsb' 0 8).toNat / 2 ^ (32 * (j % 4)) % 2 ^ 32, 0⟩ := by
  refine elementWord_spec rfl fun inp _ _ _ => ?_
  simp only [splitBits_eq_map]
  rw [flatMap_map_range (fun l i => srOut inp.rnd.key inp.rnd.ctr (inp.rnd.base + l) (f.modifier.extractLsb' 0 8).toNat / 2 ^ (i * 32) % 2 ^ 32),
    quietEls, List.map_map]
  simp only [Nat.mul_comm 32]
  exact congrArg (List.map _) (congrArg List.range (show 64 * 4 = 1 * VTy.lanes .n32 by decide))

end

end Sys2Proof.Machine
end

