-- ==== Sys2Proof/Proofs/VectorQuantisation.lean ====
section
/-! SUPPORT. Block quantisation and requantisation (R162, R185, R186, R188): registers written by bytes, and read back by elements. -/

namespace Sys2Proof.Machine

open Sys2Proof

/-! ## Effects on registers that are ready -/

theorem withFrames_ready {rs checked : List Nat} {s : State} (h : RegsReady s rs checked) (body : State → VOut) :
    withFrames rs checked s body = body s := by
  obtain ⟨hregs, hpoison⟩ := h
  simp only [withFrames, hregs, hpoison, Bool.not_true, Bool.false_eq_true, if_false]

theorem withSources_fetched {f : VFields} {sh : VShape} {s : State} {a b c : List Nat} {k : Core} (h : Fetches f sh s a b c k)
    (body : VIn → State → VOut) :
    withSources f sh (repOf f s.core.vrep) s body = body (inputs f s k a b c) { s with core := k } := by
  have h' : fetch3 ⟨sh.src, f.literal, bobIndex s⟩ sh (repOf f s.core.vrep) s.core = some (a, b, c, k) := h
  simp only [withSources, h']

/-- Taking the sources leaves the core store. -/
theorem fetches_cs {f : VFields} {sh : VShape} {s : State} {a b c : List Nat} {k : Core} (h : Fetches f sh s a b c k) : k.cs = s.core.cs := by
  obtain ⟨-, -, -, hk⟩ := fetch3_spec _ _ _ _ _ _ _ _ h
  rw [hk]

/-! ## Bytes of one register -/

theorem find_eq_none_of_outside {l : List (Nat × Byte)} {r x n : Nat} (hl : ∀ p ∈ l, p.1 < n) (hx : ¬(r * 0x400 ≤ x ∧ x < r * 0x400 + n)) :
    (l.find? fun p => r * 0x400 + p.1 == x) = none := by
  refine List.find?_eq_none.2 fun p hp => ?_
  have := hl p hp
  simp only [beq_iff_eq]
  omega

/-- Bytes written at the given cells of a register. -/
theorem putCells_spec (r : Nat) (cells : List Nat) (bs : List Byte) (s : State) (hw : Memory.wf s.core.cs = true) (hn : bs.length ≤ 1024) :
    StoreOnly s (putCells r cells bs s) ∧ Memory.wf (putCells r cells bs s).core.cs = true ∧
      ∀ x, memGet (putCells r cells bs s).core.cs x =
        if r * 0x400 ≤ x ∧ x < r * 0x400 + bs.length ∧ cells.contains (x - r * 0x400) = true then bs[x - r * 0x400]?.getD 0
        else memGet s.core.cs x := by
  have hzip : (List.range 1024).zip bs = (List.range bs.length).zip bs := by
    rw [List.zip_eq_zip_take_min, List.length_range, Nat.min_eq_right hn, List.take_range, Nat.min_eq_left hn, List.take_length]
  have hlt : ∀ p ∈ ((List.range bs.length).zip bs).filter (fun p => cells.contains p.1), p.1 < bs.length := fun p hp =>
    List.mem_range.1 (List.of_mem_zip (List.mem_of_mem_filter hp)).1
  have hdistinct : (((List.range bs.length).zip bs).filter fun p => cells.contains p.1).Pairwise fun p q => p.1 ≠ q.1 := by
    refine List.Pairwise.filter _ ?_
    have hfst : (((List.range bs.length).zip bs).map Prod.fst).Pairwise (· ≠ ·) := by
      rw [List.map_fst_zip (by simp)]
      exact List.pairwise_lt_range.imp Nat.ne_of_lt
    exact List.pairwise_map.mp hfst
  unfold putCells
  rw [hzip]
  obtain ⟨honly, hwf, hget⟩ := putPairs_spec r _ s hw hdistinct
  refine ⟨honly, hwf, fun x => ?_⟩
  rw [hget]
  by_cases hx : r * 0x400 ≤ x ∧ x < r * 0x400 + bs.length
  · have hcell : (fun p : Nat × Byte => r * 0x400 + p.1 == x) = fun p => p.1 == x - r * 0x400 := by
      funext p
      rw [beq_eq_decide, beq_eq_decide, decide_eq_decide]
      omega
    rw [hcell, find_range_filter bs bs.length _ _ (by omega) rfl]
    by_cases hc : cells.contains (x - r * 0x400) = true
    · rw [if_pos hc, if_pos ⟨hx.1, hx.2, hc⟩, List.getElem?_eq_getElem (by omega)]
      rfl
    · rw [if_neg hc, if_neg fun h => hc h.2.2]
      rfl
  · rw [find_eq_none_of_outside hlt hx, if_neg fun h => hx ⟨h.1, h.2.1⟩]
    rfl

/-- A register whose bytes are those of an image. -/
def HoldsImage (k : Core) (r img : Nat) : Prop := ∀ n, n < 1024 → memGet k.cs (r * 0x400 + n) = BitVec.ofNat 8 (img / 256 ^ n)

theorem HoldsImage.testBit {k : Core} {r img p : Nat} (h : HoldsImage k r img) (hw : Memory.wf k.cs = true) (hp : p < 8192) :
    (k.getV r).toNat.testBit p = img.testBit p := by
  rw [getV_testBit _ _ _ hw hp, h _ (by omega), byte_testBit]

/-- A field of a register whose bytes are those of fields put together. -/
theorem HoldsImage.field {k : Core} {r w j : Nat} {xs : List Nat} (h : HoldsImage k r (joinBits w xs)) (hw : Memory.wf k.cs = true)
    (hj : (j + 1) * w ≤ 8192) : (k.getV r).toNat / 2 ^ (j * w) % 2 ^ w = xs[j]?.getD 0 % 2 ^ w := by
  rw [Nat.succ_mul] at hj
  refine Nat.eq_of_testBit_eq fun u => ?_
  rw [Nat.testBit_mod_two_pow, Nat.testBit_mod_two_pow, Nat.testBit_div_two_pow]
  by_cases hu : u < w
  · rw [Nat.add_comm u, h.testBit hw (by omega), joinBits_testBit _ _ _ _ hu]
  · simp [hu]

theorem holdsImage_putCore (r img : Nat) (s : State) (hw : Memory.wf s.core.cs = true) :
    HoldsImage (putCore s.cur (r * 0x400) (leBytes 1024 img) s).core r img := fun n hn => by
  rw [putCore_cs, memGet_memPut _ _ _ _ hw, leBytes_length, if_pos (by omega), Nat.add_sub_cancel_left, leBytes_getElem _ _ _ hn]
  rfl

/-- `s'` is `s` after the sources were taken (core `k`) with bytes of `n` registers from `r` on written; every other byte of the core store is
as before. -/
def WritesWithin (r n : Nat) (k : Core) (s s' : State) : Prop :=
  (∀ x, ¬(r * 0x400 ≤ x ∧ x < (r + n) * 0x400) → memGet s'.core.cs x = memGet s.core.cs x) ∧
  s' = { s with
    core := { k with cs := s'.core.cs, csPoison := s'.core.csPoison, fresh := s'.core.fresh }
    monitors := s'.monitors }

section
variable {f : VFields} {s : State} {a b c : List Nat} {k : Core}

/-! ## VMXQ (R155, R187) -/

/-- Block `n` of the source elements. -/
def mxqBlock (t d : VTy) (inp : VIn) (n : Nat) : Nat × List El × VFlags :=
  mxBlock d inp.rnd (32 * n) ((List.range 32).map fun i => operand t inp (srcA t inp (32 * n + i)))

/-- Element j of the array that VMXQ writes. -/
def mxqElem (t d : VTy) (inp : VIn) (j : Nat) : Nat := ((mxqBlock t d inp (j / 32)).2.1[j % 32]?.map (·.bits)).getD 0

theorem mxqBlock_length (t d : VTy) (inp : VIn) (n : Nat) : (mxqBlock t d inp n).2.1.length = 32 := by
  simp [mxqBlock, mxBlock]

theorem mxqBlocks_eq (d : VTy) {t : VTy} {inp : VIn} (ha : inp.a.length = t.bits / 8) (ht : 8 ≤ t.bits) :
    (((List.range 32).zip (chunks 32 32 ((els t inp.a).map ((vfmt t).read inp.rnd.vm.ftz)))).map fun (n, vs) => mxBlock d inp.rnd (32 * n) vs) =
      (List.range 32).map (mxqBlock t d inp) := by
  rw [els_eq_map t inp.a ha, byteLanes ht, List.map_map, chunks_map_range _ (by decide), zip_range_map, List.map_map]
  simp only [Nat.mul_comm _ 32]
  rfl

theorem mxqArray_eq (t d : VTy) (inp : VIn) :
    (((List.range 32).map (mxqBlock t d inp)).flatMap fun b => b.2.1.map (·.bits)) = (List.range 1024).map (mxqElem t d inp) := by
  have hblock (n : Nat) : (mxqBlock t d inp n).2.1.map (·.bits) =
      (List.range 32).map fun i => ((mxqBlock t d inp n).2.1[i]?.map (·.bits)).getD 0 := by
    conv_lhs => rw [eq_map_getD ((mxqBlock t d inp n).2.1.map (·.bits)) 0, List.length_map, mxqBlock_length]
    simp only [List.getElem?_map]
  rw [List.flatMap_map]
  simp only [hblock]
  exact flatMap_map_range (fun n i => ((mxqBlock t d inp n).2.1[i]?.map (·.bits)).getD 0) 32 32

theorem vmxq_writes (hw : Memory.wf s.core.cs = true) :
    let t := f.ty
    let d := fmtOf f.vb
    let r := repOf f s.core.vrep
    let inp := inputs f s k a b c
    Fetches f { src := t, dst := d, na := t.bits / 8, nd := 2 } s a b c k →
    RegsReady s (regsAt r.va (t.bits / 8) ++ regsAt r.vd 2) (checkedRegs f true (fun r => regsAt r.va (t.bits / 8)) (fun r => [r.vd]) s.core) →
    8 ≤ t.bits → d.bits ≤ 8 →
    ∃ s', exec (.vmxq f) s =
        .next (finishV (longLen f) r.last s (.done ((List.range 32).foldl (fun fl n => fl ||| (mxqBlock t d inp n).2.2) 0) s')) ∧
      (∀ j, j < 1024 → (s'.core.getV r.vd).toNat / 2 ^ (d.bits * j) % 2 ^ d.bits = mxqElem t d inp j % 2 ^ d.bits) ∧
      (∀ n, n < 32 → memGet s'.core.cs ((r.vd + 1) * 0x400 + n) = BitVec.ofNat 8 (mxqBlock t d inp n).1) ∧
      (∀ n, 32 ≤ n → n < 0x400 → memGet s'.core.cs ((r.vd + 1) * 0x400 + n) = memGet s.core.cs ((r.vd + 1) * 0x400 + n)) ∧
      WritesWithin r.vd 2 k s s' := by
  intro t d r inp hf hr ht hd
  obtain ⟨ha, -, -, -⟩ := fetch3_spec _ _ _ _ _ _ _ _ hf
  let array := joinBits d.bits ((List.range 1024).map (mxqElem t d inp))
  let scales := (List.range 32).map fun n => BitVec.ofNat 8 (mxqBlock t d inp n).1
  let s₁ : State := { s with core := k }
  let s₂ := putCore s₁.cur (r.vd * 0x400) (leBytes 1024 array) s₁
  have hw₁ : Memory.wf s₁.core.cs = true := (congrArg Memory.wf (fetches_cs hf)).trans hw
  have hw₂ : Memory.wf s₂.core.cs = true := by rw [putCore_cs]; exact wf_memPut _ _ _ hw₁
  have hscales : scales.length = 32 := by simp [scales]
  obtain ⟨honly, hw₃, hget⟩ := putCells_spec (r.vd + 1) (List.range 32) scales s₂ hw₂ (by omega)
  rw [hscales] at hget
  have hget₂ (x : Nat) (hx : ¬(r.vd * 0x400 ≤ x ∧ x < r.vd * 0x400 + 1024)) : memGet s₂.core.cs x = memGet s.core.cs x := by
    rw [putCore_cs, memGet_memPut _ _ _ _ hw₁, leBytes_length, if_neg hx, ← (fetches_cs hf)]
  refine ⟨putCells (r.vd + 1) (List.range 32) scales s₂, ?_, fun j hj => ?_, fun n hn => ?_, fun n hn hn' => ?_, fun x hx => ?_,
    (putCore_only _ _ s₁).trans honly⟩
  · show execVmxq f s = _
    unfold execVmxq
    dsimp only
    rw [withFrames_ready hr, withSources_fetched hf, mxqBlocks_eq d ha ht, mxqArray_eq, List.foldl_map, List.map_map]
    rfl
  · have himage : HoldsImage (putCells (r.vd + 1) (List.range 32) scales s₂).core r.vd array := fun n hn => by
      rw [hget, if_neg (by omega)]
      exact holdsImage_putCore r.vd array s₁ hw₁ n hn
    have hfit : (j + 1) * d.bits ≤ 8192 := (Nat.mul_le_mul (show j + 1 ≤ 1024 by omega) hd).trans (by decide)
    rw [Nat.mul_comm, himage.field hw₃ hfit, getElem?_map_range _ hj]
    rfl
  · rw [hget, if_pos ⟨by omega, by omega, by simp [hn]⟩, Nat.add_sub_cancel_left, getElem?_map_range _ hn]
    rfl
  · rw [hget, if_neg (by omega), hget₂ _ (by omega)]
  · rw [hget, if_neg fun h => hx ⟨by omega, by omega⟩, hget₂ _ fun h => hx ⟨h.1, by omega⟩]

/-! ## VRQ (R162, R188) -/

theorem zip_map_range_le {α β : Type} (g : Nat → α) (h : Nat → β) {n m : Nat} (hnm : n ≤ m) :
    ((List.range n).map g).zip ((List.range m).map h) = (List.range n).map fun i => (g i, h i) :=
  eq_map_range (by simpa using hnm) fun i hi =>
    List.getElem?_zip_eq_some.2 ⟨getElem?_map_range g hi, getElem?_map_range h (by omega)⟩

theorem patternOf_lt (w : Nat) (x : Int) : patternOf w x < 2 ^ w := by
  have hpos : (0 : Int) < 2 ^ w := by positivity
  have hlt := Int.emod_lt_of_pos x hpos
  have hnonneg := Int.emod_nonneg x hpos.ne'
  unfold patternOf
  zify
  rw [Int.toNat_of_nonneg hnonneg]
  exact_mod_cast hlt

/-- Element j as VRQ computes it, with its flags (log 25). -/
def requantEl (t : VTy) (inp : VIn) (j : Nat) : El :=
  let v := fp32.val (srcA .f32 inp j)
  let m := signedOf 32 (srcB .i32 inp j)
  let sh := srcC .n32 inp j % 64
  ⟨patternOf t.bits (requant v m sh (-2 ^ (t.bits - 1)) (2 ^ (t.bits - 1) - 1)), requantFlags v m sh (-2 ^ (t.bits - 1)) (2 ^ (t.bits - 1) - 1)⟩

/-- Element j of the destination after VRQ. -/
def vrqElem (t : VTy) (inp : VIn) (k : Core) (r j : Nat) : Nat :=
  if j < 256 then if isActive inp.cells .f32 j then (requantEl t inp j).bits else elemAt k t r j else 0

/-- What VRQ puts together for its destination. -/
theorem vrqOut_eq {t : VTy} {inp : VIn} {r : Nat} (ha : inp.a.length = 1) (hb : inp.b.length = 1) (hc : inp.c.length = 1) (ht : 256 ≤ t.lanes) :
    let new := ((els .f32 inp.a).zip ((els .i32 inp.b).zip (els .n32 inp.c))).map fun (a, b, c) =>
      (⟨patternOf t.bits (requant (fp32.val a) (signedOf 32 b) (c % 64) (intMin true t.bits) (intMax true t.bits)),
        requantFlags (fp32.val a) (signedOf 32 b) (c % 64) (intMin true t.bits) (intMax true t.bits)⟩ : El)
    new = (List.range 256).map (requantEl t inp) ∧
      ((activity inp.cells .f32).zip (new.zip (els t [(k.getV r).toNat]))).map (fun p => if p.1 then p.2.1.bits else p.2.2) ++
        List.replicate (t.lanes - 256) 0 = (List.range t.lanes).map (vrqElem t inp k r) := by
  intro new
  have hnew : new = (List.range 256).map (requantEl t inp) := by
    show (((els .f32 inp.a).zip ((els .i32 inp.b).zip (els .n32 inp.c))).map _) = _
    rw [els_eq_map .f32 inp.a ha, els_eq_map .i32 inp.b hb, els_eq_map .n32 inp.c hc,
      show 1 * VTy.lanes .f32 = 256 by decide, show 1 * VTy.lanes .i32 = 256 by decide, show 1 * VTy.lanes .n32 = 256 by decide,
      zip_map_range, zip_map_range, List.map_map]
    rfl
  have hold : els t [(k.getV r).toNat] = (List.range t.lanes).map (elemAt k t r) := by
    rw [els, List.flatMap_singleton, splitBits_eq_map]
    rfl
  refine ⟨hnew, ?_⟩
  rw [hnew, hold, zip_map_range_le _ _ ht, activity, show VTy.lanes .f32 = 256 by decide, zip_map_range, List.map_map, ← List.length_range (n := t.lanes - 256),
    ← List.map_const', append_map_range, Nat.add_sub_cancel' ht]
  rfl

/-- The byte cells that VRQ writes: those with an active element, and all that hold elements from 256 upwards (log 98). -/
def vrqCells (w : Nat) (m : Mask) : List Nat :=
  (List.range 1024).filter fun j =>
    256 ≤ j * (8 / w) || (List.range (8 / w)).any fun n => (activity m .f32)[j * (8 / w) + n]?.getD false

/-- An element of a byte that VRQ leaves is not active. -/
theorem inactive_of_not_vrqCell {w : Nat} {m : Mask} {n u : Nat} (hw : w = 4 ∨ w = 8) (hn : n < 1024) (hu : u < 8)
    (h : (vrqCells w m).contains n = false) : (8 * n + u) / w < 256 ∧ isActive m .f32 ((8 * n + u) / w) = false := by
  have hcell := h
  simp only [vrqCells, List.contains_eq_mem, List.mem_filter, List.mem_range, hn, true_and, decide_eq_false_iff_not, Bool.or_eq_true,
    decide_eq_true_eq, not_or, Nat.not_le, List.any_eq_true, not_exists, not_and, Bool.not_eq_true] at hcell
  obtain ⟨hlow, hoff⟩ := hcell
  have hpos : (8 * n + u) / w = n * (8 / w) + u / w ∧ u / w < 8 / w ∧ (8 * n + u) / w < 256 := by
    rcases hw with rfl | rfl <;> omega
  obtain ⟨heq, hlt, h256⟩ := hpos
  have hbit := hoff (u / w) hlt
  rw [← heq, activity, getElem?_map_range _ (show _ < VTy.lanes .f32 from h256)] at hbit
  exact ⟨h256, hbit⟩

theorem elemAt_testBit (k : Core) (t : VTy) (r j u : Nat) (hw : Memory.wf k.cs = true) (hu : u < t.bits) (hj : j * t.bits + u < 8192) :
    (elemAt k t r j).testBit u = (memGet k.cs (r * 0x400 + (j * t.bits + u) / 8)).getLsbD ((j * t.bits + u) % 8) := by
  rw [elemAt, Nat.testBit_mod_two_pow, decide_eq_true hu, Bool.true_and, Nat.testBit_div_two_pow, Nat.add_comm u, getV_testBit _ _ _ hw hj]

/-- A byte that VRQ leaves is that of the image all the same. -/
theorem vrqImage_byte {t : VTy} {inp : VIn} {r n : Nat} (hw : Memory.wf k.cs = true) (ht : t.bits = 4 ∨ t.bits = 8) (hn : n < 1024)
    (h : (vrqCells t.bits inp.cells).contains n = false) :
    memGet k.cs (r * 0x400 + n) = BitVec.ofNat 8 (joinBits t.bits ((List.range t.lanes).map (vrqElem t inp k r)) / 256 ^ n) := by
  refine BitVec.eq_of_getLsbD_eq fun u hu => ?_
  obtain ⟨h256, hoff⟩ := inactive_of_not_vrqCell ht hn hu h
  have hpos : 8 * n + u = (8 * n + u) / t.bits * t.bits + (8 * n + u) % t.bits := (Nat.div_add_mod' _ _).symm
  have hrem : (8 * n + u) % t.bits < t.bits := Nat.mod_lt _ (bits_pos t)
  have hlanes : 256 ≤ t.lanes := by
    have := bits_lanes t
    rcases ht with h | h <;> rw [h] at this <;> omega
  have hbyte := byte_testBit (joinBits t.bits ((List.range t.lanes).map (vrqElem t inp k r))) (8 * n + u)
  rw [show (8 * n + u) / 8 = n by omega, show (8 * n + u) % 8 = u by omega] at hbyte
  rw [hbyte, hpos, joinBits_testBit _ _ _ _ hrem, getElem?_map_range _ (by omega), Option.getD_some, vrqElem, if_pos h256, if_neg (by simp [hoff]),
    elemAt_testBit _ _ _ _ _ hw hrem (by omega), ← hpos, show (8 * n + u) / 8 = n by omega, show (8 * n + u) % 8 = u by omega]

theorem vrq_writes (hw : Memory.wf s.core.cs = true) (ht : f.ty.bits = 4 ∨ f.ty.bits = 8) :
    let t := f.ty
    let r := repOf f s.core.vrep
    let inp := inputs f s k a b c
    Fetches f (ternaryShape t) s a b c k →
    RegsReady s (readsOf (ternaryShape t) r ++ [r.vd]) (checkedRegs f false (readsOf (ternaryShape t)) (fun _ => []) s.core) →
    ∃ s', exec (.vrq f) s = .next (finishV (longLen f) r.last s (.done (flagsOf inp.cells .f32 256 (requantEl t inp)) s')) ∧
      (∀ j, j < t.lanes → elemAt s'.core t r.vd j = vrqElem t inp s.core r.vd j % 2 ^ t.bits) ∧ WritesWithin r.vd 1 k s s' := by
  intro t r inp hf hr
  obtain ⟨ha, hb, hc, -⟩ := fetch3_spec _ _ _ _ _ _ _ _ hf
  have hlanes : 256 ≤ t.lanes := by
    have := bits_lanes t
    rcases ht with h | h <;> rw [show t.bits = _ from h] at this <;> omega
  let img := joinBits t.bits ((List.range t.lanes).map (vrqElem t inp k r.vd))
  let s₁ : State := { s with core := k }
  have hw₁ : Memory.wf s₁.core.cs = true := (congrArg Memory.wf (fetches_cs hf)).trans hw
  obtain ⟨honly, hw₂, hget⟩ := putCells_spec r.vd (vrqCells t.bits inp.cells) (leBytes 1024 img) s₁ hw₁ (by rw [leBytes_length])
  rw [leBytes_length] at hget
  obtain ⟨hnew, hout⟩ := vrqOut_eq (inp := inp) (k := k) (r := r.vd) ha hb hc hlanes
  refine ⟨putCells r.vd (vrqCells t.bits inp.cells) (leBytes 1024 img) s₁, ?_, fun j hj => ?_, fun x hx => ?_, honly⟩
  · show execVrq f s = _
    unfold execVrq
    dsimp only
    rw [withFrames_ready hr, withSources_fetched hf]
    refine congrArg (fun z => Host.Outcome.next (finishV (longLen f) r.last s z)) (congrArg₂ VOut.done ?_ ?_)
    · refine (congrArg (gather (activity inp.cells .f32)) hnew).trans ?_
      have hgather := gather_eq inp.cells .f32 1 ((List.range 256).map (requantEl t inp)) (requantEl t inp) rfl
      rw [List.replicate_one, List.flatten_singleton, show 1 * VTy.lanes .f32 = 256 by decide] at hgather
      exact hgather
    · exact congrArg (fun out => putCells r.vd (vrqCells t.bits inp.cells) (leBytes 1024 (joinBits t.bits out)) s₁) hout
  · have himage : HoldsImage (putCells r.vd (vrqCells t.bits inp.cells) (leBytes 1024 img) s₁).core r.vd img := fun n hn => by
      rw [hget, Nat.add_sub_cancel_left]
      by_cases hcell : (vrqCells t.bits inp.cells).contains n = true
      · rw [if_pos ⟨by omega, by omega, hcell⟩, leBytes_getElem _ _ _ hn]
        rfl
      · rw [if_neg fun h => hcell h.2.2]
        exact vrqImage_byte hw₁ ht hn (Bool.eq_false_iff.2 hcell)
    have hfit : (j + 1) * t.bits ≤ 8192 := bits_lanes t ▸ Nat.mul_le_mul_right t.bits hj
    rw [elemAt, himage.field hw₂ hfit, getElem?_map_range _ hj]
    unfold vrqElem elemAt Core.getV
    rw [fetches_cs hf]
    rfl
  · rw [hget, if_neg fun h => hx ⟨h.1, by omega⟩]
    exact congrArg (memGet · x) (fetches_cs hf)

end

/-! ## The obligation -/

/-- Settles O18: the functions run over the elements of one source; VMXQ and VRQ write their registers byte by byte. -/
theorem vectorFunctionsAndQuantisation : Obligations.VectorFunctionsAndQuantisation := by
  unfold Obligations.VectorFunctionsAndQuantisation
  refine ⟨fun s f d a => ?_, fun s f hw => ⟨fun a b c k hf hr _ ht hd => ?_, fun a b c k hf hr _ ht => ?_⟩⟩
  · intro fn one zero infty bad exp2
    simp only [List.forall_mem_cons, List.not_mem_nil, false_implies, implies_true, and_true]
    exact ⟨⟨fnWord_computes rfl, fnWord_computes rfl, fnWord_computes rfl, fnWord_computes rfl, fnWord_computes rfl, fnWord_computes rfl,
      fnWord_computes rfl, fnWord_computes rfl, fnWord_computes rfl, fnWord_computes rfl⟩, fnWord_computes rfl, vrand_computes⟩
  · obtain ⟨s', hexec, harray, hscales, hrest, hframe, heq⟩ := vmxq_writes hw hf hr (by omega) (by omega)
    exact ⟨s', hexec, ⟨harray, hscales, hrest⟩, hframe, heq⟩
  · obtain ⟨s', hexec, helem, hframe, heq⟩ := vrq_writes hw ht hf hr
    have hlanes : 256 ≤ f.ty.lanes := by
      have := bits_lanes f.ty
      rcases ht with h | h <;> rw [h] at this <;> omega
    refine ⟨s', hexec, ⟨fun j hj => ?_, fun j hj hj' => ?_⟩, hframe, heq⟩
    · rw [helem j (by omega), vrqElem, if_pos hj, Nat.mod_eq_of_lt]
      · rfl
      · split
        · exact patternOf_lt _ _
        · exact Nat.mod_lt _ (Nat.two_pow_pos _)
    · rw [helem j hj', vrqElem, if_neg (by omega), Nat.zero_mod]

end Sys2Proof.Machine
end

