-- ==== Sys2Proof/Proofs/LineKeys.lean ====
section
/-! SUPPORT. The order of elements (R143, R147), the winner of a set of keys (R193) and the compare-exchange of two elements (R196). -/

namespace Sys2Proof.Machine

open Sys2Proof

/-! ## The order of values (R147) -/

/-- The values of floats that are no NaNs, with both infinities, and +0 above −0. -/
abbrev ValueOrder : Type := WithBot (WithTop ℚ) ×ₗ Bool

/-- The rational number that a finite value is. -/
def ratOf (neg : Bool) (m : Nat) (e : Int) : ℚ := (if neg then -(m : ℚ) else m) * 2 ^ e

/-- The place of a rational number with a sign. -/
def valuePlace (x : ℚ) (neg : Bool) : ValueOrder := toLex (((x : WithTop ℚ) : WithBot (WithTop ℚ)), !neg)

/-- The place of a value in the order. -/
def Fl.rank : Fl → ValueOrder
  | .nan => toLex (⊥, false)
  | .inf neg => toLex (if neg then ⊥ else ((⊤ : WithTop ℚ) : WithBot (WithTop ℚ)), !neg)
  | .fin neg m e => valuePlace (ratOf neg m e) neg

theorem units_eq (neg : Bool) (m : Nat) {e e0 : Int} (h : e0 ≤ e) : ((Fl.fin neg m e).units e0 : ℚ) * 2 ^ e0 = ratOf neg m e := by
  obtain ⟨n, rfl⟩ := Int.le.dest h
  have hpow : (2 : ℚ) ^ (e0 + (n : Int)) = 2 ^ n * 2 ^ e0 := by rw [zpow_add₀ (by norm_num), zpow_natCast, mul_comm]
  rw [ratOf, hpow]
  cases neg <;> simp [Fl.units, mul_assoc]

theorem fin_lt_iff (n n' : Bool) (m m' : Nat) (e e' : Int) : (Fl.fin n m e).lt (.fin n' m' e') = true ↔ ratOf n m e < ratOf n' m' e' := by
  have hpos : (0 : ℚ) < 2 ^ min e e' := by positivity
  show decide ((Fl.fin n m e).units (min e e') < (Fl.fin n' m' e').units (min e e')) = true ↔ _
  rw [decide_eq_true_iff, ← units_eq n m (min_le_left e e'), ← units_eq n' m' (min_le_right e e'), mul_lt_mul_iff_left₀ hpos, Int.cast_lt]

theorem valuePlace_lt {a b : ℚ} {n n' : Bool} : valuePlace a n < valuePlace b n' ↔ a < b ∨ a = b ∧ n = true ∧ n' = false := by
  rw [valuePlace, valuePlace, Prod.Lex.toLex_lt_toLex, WithBot.coe_lt_coe, WithTop.coe_lt_coe, WithBot.coe_inj, WithTop.coe_inj, Bool.lt_iff]
  simp

theorem valuePlace_lt_top (a : ℚ) (n n' : Bool) : valuePlace a n < toLex (((⊤ : WithTop ℚ) : WithBot (WithTop ℚ)), n') :=
  Prod.Lex.toLex_lt_toLex.2 (.inl (WithBot.coe_lt_coe.2 (WithTop.coe_lt_top a)))

theorem bot_lt_valuePlace (a : ℚ) (n n' : Bool) : toLex ((⊥ : WithBot (WithTop ℚ)), n') < valuePlace a n :=
  Prod.Lex.toLex_lt_toLex.2 (.inl (WithBot.bot_lt_coe _))

/-- Below is the order by value, and by sign among zeros. -/
theorem below_iff {a b : Fl} (ha : a.isNan = false) (hb : b.isNan = false) : a.below b = true ↔ a.rank < b.rank := by
  cases a with
  | nan => exact absurd ha (by decide)
  | inf x =>
    cases b with
    | nan => exact absurd hb (by decide)
    | inf y => cases x <;> cases y <;> simp [Fl.below, Fl.lt, Fl.eq, Fl.isNan, Fl.neg, Fl.rank, Prod.Lex.toLex_lt_toLex]
    | fin n m e =>
      cases x
      · simpa [Fl.below, Fl.lt, Fl.eq, Fl.rank] using (valuePlace_lt_top (ratOf n m e) n true).le
      · simpa [Fl.below, Fl.lt, Fl.rank] using bot_lt_valuePlace (ratOf n m e) n false
  | fin n m e =>
    cases b with
    | nan => exact absurd hb (by decide)
    | inf y =>
      cases y
      · simpa [Fl.below, Fl.lt, Fl.rank] using valuePlace_lt_top (ratOf n m e) n true
      · simpa [Fl.below, Fl.lt, Fl.eq, Fl.rank] using (bot_lt_valuePlace (ratOf n m e) n false).le
    | fin n' m' e' =>
      have hab := fin_lt_iff n n' m m' e e'
      have hba := fin_lt_iff n' n m' m e' e
      simp only [Fl.rank, valuePlace_lt, Fl.below, Fl.eq, Fl.isNan, Fl.neg, Bool.or_eq_true, Bool.and_eq_true, Bool.not_eq_true', Bool.not_false,
        true_and, ← Bool.not_eq_true, hab, hba]
      rw [not_lt, not_lt]
      constructor
      · rintro (h | ⟨⟨⟨h, h'⟩, hn⟩, hn'⟩)
        · exact .inl h
        · exact .inr ⟨le_antisymm h' h, hn, by simpa using hn'⟩
      · rintro (h | ⟨h, hn, hn'⟩)
        · exact .inl h
        · exact .inr ⟨⟨⟨h.ge, h.le⟩, hn⟩, by simp [hn']⟩

/-! ## The order of elements (R147, R177) -/

/-- The place of an element in the order of its type. -/
def elPlace (t : VTy) (x : Nat) : ValueOrder := if t.isFloat then ((vfmt t).val x).rank else valuePlace (intVal t x) false

theorem elBelow_iff {t : VTy} {x y : Nat} (hx : elNan t x = false) (hy : elNan t y = false) :
    elBelow t x y = true ↔ elPlace t x < elPlace t y := by
  unfold elBelow elPlace
  by_cases ht : t.isFloat = true
  · simp only [elNan, ht, Bool.true_and] at hx hy
    simp only [ht, if_true, below_iff hx hy]
  · simp only [ht, Bool.false_eq_true, if_false, decide_eq_true_iff, valuePlace_lt, Int.cast_lt, false_and, and_false, or_false]

/-! ## The winner of a set (R193) -/

/-- A key that takes part. -/
def Keyed.valid (t : VTy) (x : Keyed) : Prop := x.on = true ∧ elNan t x.key = false

/-- The place of a key among the keys of a set, the winner's first: by value upwards (VRMINI) or downwards (VRMAXI), then by index. -/
def Keyed.placeUp (t : VTy) (x : Keyed) : ValueOrder ×ₗ Nat := toLex (elPlace t x.key, x.idx)
def Keyed.placeDown (t : VTy) (x : Keyed) : ValueOrderᵒᵈ ×ₗ Nat := toLex (OrderDual.toDual (elPlace t x.key), x.idx)

section
variable {t : VTy}

theorem beats_min_iff {x y : Keyed} (hx : x.valid t) (hy : y.valid t) : beats t false x y = true ↔ x.placeUp t < y.placeUp t := by
  rw [Keyed.placeUp, Keyed.placeUp, Prod.Lex.toLex_lt_toLex']
  simp only [beats, Bool.false_eq_true, if_false, Bool.or_eq_true, Bool.and_eq_true, Bool.not_eq_true', ← Bool.not_eq_true,
    elBelow_iff hx.2 hy.2, elBelow_iff hy.2 hx.2, decide_eq_true_iff, not_lt]
  constructor
  · rintro (h | ⟨h, hi⟩)
    · exact ⟨h.le, fun he => absurd he h.ne⟩
    · exact ⟨h, fun _ => hi⟩
  · rintro ⟨h, hi⟩
    exact h.lt_or_eq.imp_right fun he => ⟨h, hi he⟩

theorem beats_max_iff {x y : Keyed} (hx : x.valid t) (hy : y.valid t) : beats t true x y = true ↔ x.placeDown t < y.placeDown t := by
  rw [Keyed.placeDown, Keyed.placeDown, Prod.Lex.toLex_lt_toLex']
  simp only [beats, if_true, Bool.or_eq_true, Bool.and_eq_true, Bool.not_eq_true', ← Bool.not_eq_true,
    elBelow_iff hx.2 hy.2, elBelow_iff hy.2 hx.2, decide_eq_true_iff, not_lt, OrderDual.toDual_le_toDual, OrderDual.toDual_inj]
  constructor
  · rintro (h | ⟨h, hi⟩)
    · exact ⟨h.le, fun he => absurd he h.ne'⟩
    · exact ⟨h, fun _ => hi⟩
  · rintro ⟨h, hi⟩
    exact h.lt_or_eq.imp_right fun he => ⟨h, hi he.symm⟩

variable {big : Bool}

theorem valid_iff (a : Keyed) : (a.on && !elNan t a.key) = true ↔ a.valid t := by simp [Keyed.valid]

theorem winner_eq_none_iff (l : List Keyed) : winner t big l = none ↔ ∀ x ∈ l, ¬x.valid t := by
  induction l with
  | nil => simp [winner]
  | cons a rest ih =>
    rw [winner, List.forall_mem_cons, ← ih]
    cases hw : winner t big rest with
    | none => simp [Keyed.valid]
    | some b => simp only [reduceCtorEq, and_false, iff_false]; split <;> simp

/-- The winner takes part, and stands first among the keys that do. -/
theorem winner_least {β : Type} [LinearOrder β] {place : Keyed → β}
    (hplace : ∀ x y : Keyed, x.valid t → y.valid t → (beats t big x y = true ↔ place x < place y)) {l : List Keyed} {x : Keyed}
    (h : winner t big l = some x) : x ∈ l ∧ x.valid t ∧ ∀ y ∈ l, y.valid t → place x ≤ place y := by
  induction l generalizing x with
  | nil => exact absurd h (by simp [winner])
  | cons a rest ih =>
    rw [winner] at h
    cases hw : winner t big rest with
    | none =>
      simp only [hw, valid_iff, Option.ite_none_right_eq_some, Option.some.injEq] at h
      obtain ⟨ha, rfl⟩ := h
      refine ⟨List.mem_cons_self, ha, fun y hy hv => ?_⟩
      rcases List.mem_cons.1 hy with rfl | hy
      · exact le_rfl
      · exact absurd hv ((winner_eq_none_iff rest).1 hw y hy)
    | some b =>
      obtain ⟨hb, hbv, hmin⟩ := ih hw
      simp only [hw] at h
      split at h <;> obtain rfl := Option.some.inj h
      next hab =>
        rw [Bool.and_eq_true_iff, valid_iff] at hab
        have hlt := (hplace _ _ hab.1 hbv).1 hab.2
        refine ⟨List.mem_cons_self, hab.1, fun y hy hv => ?_⟩
        rcases List.mem_cons.1 hy with rfl | hy
        · exact le_rfl
        · exact hlt.le.trans (hmin y hy hv)
      next hab =>
        rw [Bool.and_eq_true_iff, valid_iff] at hab
        refine ⟨List.mem_cons_of_mem _ hb, hbv, fun y hy hv => ?_⟩
        rcases List.mem_cons.1 hy with rfl | hy
        · exact not_lt.1 fun hlt => hab ⟨hv, (hplace _ _ hv hbv).2 hlt⟩
        · exact hmin y hy hv

/-- No key that takes part beats the winner. -/
theorem winner_unbeaten {l : List Keyed} {x : Keyed} (h : winner t big l = some x) :
    x ∈ l ∧ x.valid t ∧ ∀ y ∈ l, y.valid t → beats t big y x = false := by
  cases big with
  | false =>
    obtain ⟨hx, hv, hle⟩ := winner_least (fun _ _ => beats_min_iff) h
    exact ⟨hx, hv, fun y hy hyv => by simpa [← Bool.not_eq_true, beats_min_iff hyv hv] using hle y hy hyv⟩
  | true =>
    obtain ⟨hx, hv, hle⟩ := winner_least (fun _ _ => beats_max_iff) h
    exact ⟨hx, hv, fun y hy hyv => by simpa [← Bool.not_eq_true, beats_max_iff hyv hv] using hle y hy hyv⟩

/-- What it means for a key not to beat another. -/
theorem beats_eq_false {x y : Keyed} (h : beats t big y x = false) :
    (if big then elBelow t x.key y.key else elBelow t y.key x.key) = false ∧
      (elBelow t x.key y.key = false → elBelow t y.key x.key = false → x.idx ≤ y.idx) := by
  cases big <;> simp_all [beats]

theorem winnerOf_none {l : List Keyed} (h : ∀ x ∈ l, x.on = false ∨ elNan t x.key = true) :
    winnerOf t big l = (if big then maxIdentity t else minIdentity t, 2 ^ 32 - 1) := by
  have hn : winner t big l = none := (winner_eq_none_iff l).2 fun x hx hv => by
    rcases h x hx with h | h
    · exact absurd hv.1 (by simp [h])
    · exact absurd hv.2 (by simp [h])
  simp only [winnerOf, hn]

theorem winnerOf_some {l : List Keyed} (h : ∃ x ∈ l, x.on = true ∧ elNan t x.key = false) :
    ∃ x, winner t big l = some x ∧ winnerOf t big l = (x.key, x.idx) := by
  obtain ⟨y, hy, hv⟩ := h
  cases hw : winner t big l with
  | none => exact absurd hv ((winner_eq_none_iff l).1 hw y hy)
  | some x => exact ⟨x, rfl, by simp only [winnerOf, hw]⟩

end

/-! ## Compare-exchange (R196) -/

section
variable {t : VTy}

/-- A key stands before another: by value, NaNs last and equal. -/
theorem keyBelow_iff (x y : Nat) : keyBelow t x y = true ↔ elNan t x = false ∧ (elNan t y = true ∨ elBelow t x y = true) := by
  unfold keyBelow
  cases elNan t x <;> simp

theorem keyBelow_asymm {x y : Nat} (h : keyBelow t x y = true) : ¬keyBelow t y x = true := by
  rw [keyBelow_iff] at h ⊢
  obtain ⟨hx, h⟩ := h
  rintro ⟨hy, h'⟩
  have hlt := (elBelow_iff hx hy).1 (h.resolve_left (by simp [hy]))
  have hgt := (elBelow_iff hy hx).1 (h'.resolve_left (by simp [hx]))
  exact hlt.asymm hgt

/-- A stage orders the pair with `up` upwards, else downwards. -/
def outOfOrder (t : VTy) (up : Bool) (a b : Nat) : Bool := if up then keyBelow t b a else keyBelow t a b

theorem outOfOrder_asymm {up : Bool} {a b : Nat} (h : outOfOrder t up a b = true) : ¬outOfOrder t up b a = true := by
  cases up <;> exact keyBelow_asymm h

/-- Whether a stage exchanges a pair. -/
def exchanges (t : VTy) (up : Bool) (x y : Cx) : Bool := x.on && y.on && outOfOrder t up x.key y.key

theorem swap_eq_exchanges (up : Bool) (x y : Cx) :
    (x.on && y.on && ((up && keyBelow t y.key x.key) || (!up && keyBelow t x.key y.key))) = exchanges t up x y := by
  cases up <;> simp [exchanges, outOfOrder]

/-- The direction of a stage at the lesser position of a pair. -/
def stageUp (sBit p : Nat) : Bool := sBit == 15 || !p.testBit sBit

variable {k sBit : Nat} {l : List Cx} {p : Nat}

theorem cxAt_first {x y : Cx} (hp : p < p ^^^ 2 ^ k) (hy : l[p ^^^ 2 ^ k]? = some y) :
    cxAt t k sBit l p x = if exchanges t (stageUp sBit p) x y then y else x := by
  unfold cxAt
  simp only [hy, hp, if_true, min_eq_left hp.le, ← swap_eq_exchanges, stageUp]

theorem cxAt_second {x y : Cx} (hp : p < p ^^^ 2 ^ k) (hx : l[p]? = some x) :
    cxAt t k sBit l (p ^^^ 2 ^ k) y = if exchanges t (stageUp sBit p) x y then x else y := by
  unfold cxAt
  simp only [Nat.xor_assoc, Nat.xor_self, Nat.xor_zero, hx, hp.not_gt, if_false, min_eq_right hp.le, ← swap_eq_exchanges, stageUp]

theorem cxAt_alone (x : Cx) (h : l.length ≤ p ^^^ 2 ^ k) : cxAt t k sBit l p x = x := by
  unfold cxAt
  simp only [List.getElem?_eq_none h]

/-- Both elements of a pair, exchanged or kept, stand in the stage's order if they take part. -/
theorem cxAt_pair {x y : Cx} (hp : p < p ^^^ 2 ^ k) (hx : l[p]? = some x) (hy : l[p ^^^ 2 ^ k]? = some y) :
    let e := exchanges t (stageUp sBit p) x y
    let first := cxAt t k sBit l p x
    let second := cxAt t k sBit l (p ^^^ 2 ^ k) y
    (e = true → first = y ∧ second = x) ∧ (¬e = true → first = x ∧ second = y) ∧
      (x.on = true → y.on = true → ¬outOfOrder t (stageUp sBit p) first.key second.key = true) := by
  intro e first second
  have h1 : first = if e then y else x := cxAt_first hp hy
  have h2 : second = if e then x else y := cxAt_second hp hx
  by_cases he : e = true
  · simp only [he, if_true] at h1 h2
    refine ⟨fun _ => ⟨h1, h2⟩, fun h => absurd he h, fun _ _ => ?_⟩
    rw [h1, h2]
    exact outOfOrder_asymm (Bool.and_eq_true_iff.1 he).2
  · simp only [he, Bool.false_eq_true, if_false] at h1 h2
    refine ⟨fun h => absurd h he, fun _ => ⟨h1, h2⟩, fun hox hoy => ?_⟩
    rw [h1, h2]
    simpa [e, exchanges, hox, hoy] using he

end

end Sys2Proof.Machine
end

