-- ==== Sys2Proof/Proofs/LineElements.lean ====
section
/-! SUPPORT. Lines of registers: what an instruction that runs over lines makes of each element (R163, R190), and computations that are
stated for active elements alone. -/

namespace Sys2Proof.Machine

open Sys2Proof

/-! ## Computations stated for active elements -/

section
variable {i : Instr} {len : Nat} {f : VFields} {sh : VShape} {s : State}

theorem zip_take_length {α β : Type} (as : List α) (bs : List β) : as.zip (bs.take as.length) = as.zip bs := by
  induction as generalizing bs with
  | nil => rfl
  | cons a as ih =>
    cases bs with
    | nil => rfl
    | cons b bs => exact congrArg ((a, b) :: ·) (ih bs)

theorem gather_take (act : List Bool) (xs : VRes) : gather act (xs.take act.length) = gather act xs := by
  rw [gather, gather, zip_take_length]

theorem chunks_take {α : Type} (w n : Nat) (xs : List α) : chunks w n (xs.take (n * w)) = chunks w n xs := by
  refine List.ext_getElem? fun k => ?_
  by_cases hk : k < n
  · have hle : w ≤ n * w - k * w := by
      rw [← Nat.sub_mul]
      exact Nat.le_mul_of_pos_left w (by omega)
    rw [chunks_getElem _ _ _ _ hk, chunks_getElem _ _ _ _ hk, List.drop_take, List.take_take, Nat.min_eq_left hle]
  · rw [List.getElem?_eq_none (by rw [chunks_length]; omega), List.getElem?_eq_none (by rw [chunks_length]; omega)]

/-- Elements beyond those of the destination registers count for nothing. -/
theorem elementWord_take (compute : VIn → VRes) :
    elementWord len f sh (fun inp => (compute inp).take (sh.nd * sh.dst.lanes)) s = elementWord len f sh compute s := by
  have hact : ∀ m, (List.replicate sh.nd (activity m sh.dst)).flatten.length = sh.nd * sh.dst.lanes := fun m => by simp [activity]
  unfold elementWord
  refine congrArg (fun body => Host.Outcome.next (finishV len _ s (withFrames _ _ s body))) (funext fun s' => ?_)
  refine congrArg (withSources f sh _ s') (funext fun inp => funext fun s'' => ?_)
  dsimp only
  rw [← hact (if sh.force then BitVec.allOnes 1024 else inp.cells), gather_take, hact, images, images, List.map_take, chunks_take]

/-- The elements that an instruction writes whatever its mask says, or at active elements. -/
abbrev written (sh : VShape) (inp : VIn) (j : Nat) : Prop :=
  isActive (if sh.force then BitVec.allOnes 1024 else inp.cells) sh.dst (j % sh.dst.lanes) = true

theorem flagsOf_congr {m : Mask} {d : VTy} {n : Nat} {v w : Nat → El} (h : ∀ j < n, isActive m d (j % d.lanes) = true → v j = w j) :
    flagsOf m d n v = flagsOf m d n w := by
  refine List.foldl_ext _ _ _ fun fl j hj => ?_
  split
  next ha => rw [h j (List.mem_range.1 hj) ha]
  next => rfl

/-- An instruction computes its elements if its computation gives them at active elements, and some element at the others. -/
theorem elementWord_written {compute : VIn → VRes} {val : VIn → Nat → El} (e : exec i s = elementWord len f sh compute s)
    (hc : ∀ inp : VIn, inp.a.length = sh.na → inp.b.length = sh.nb → ∀ j < sh.nd * sh.dst.lanes,
      ∃ x, (compute inp)[j]? = some x ∧ (written sh inp j → x = val inp j)) : ComputesElements i len f sh s val := by
  intro a b c k hf hr hd hw inp m
  obtain ⟨ha, hb, -, -⟩ := fetch3_spec _ _ _ _ _ _ _ _ hf
  have hspec : ComputesElements i len f sh s fun inp j => (compute inp)[j]?.getD (.quiet 0) :=
    elementWord_spec (e.trans (elementWord_take compute).symm) fun inp ha hb _ => by
      refine eq_map_range ?_ fun j hj => ?_
      · rw [List.length_take, Nat.min_eq_left]
        by_contra hlt
        obtain ⟨x, hx, -⟩ := hc inp ha hb _ (not_le.1 hlt)
        simp at hx
      · obtain ⟨x, hx, -⟩ := hc inp ha hb j hj
        rw [List.getElem?_take_of_lt hj, hx]
        rfl
  have hval : ∀ j < sh.nd * sh.dst.lanes, isActive m sh.dst (j % sh.dst.lanes) = true → (compute inp)[j]?.getD (.quiet 0) = val inp j := by
    intro j hj hact
    obtain ⟨x, hx, hv⟩ := hc inp ha hb j hj
    rw [hx]
    exact hv hact
  obtain ⟨s', hexec, hregs, hrest⟩ := hspec a b c k hf hr hd hw
  refine ⟨s', hexec.trans ?_, fun n p hn hp => (hregs n p hn hp).trans ?_, hrest⟩
  · rw [flagsOf_congr hval]
  · refine ite_congr rfl (fun hact => ?_) fun _ => rfl
    have hj : n * sh.dst.lanes + p < sh.nd * sh.dst.lanes := by
      have := Nat.mul_le_mul_right sh.dst.lanes hn
      rw [Nat.succ_mul] at this
      omega
    have hmod : (n * sh.dst.lanes + p) % sh.dst.lanes = p := by rw [Nat.mul_add_mod_self_right, Nat.mod_eq_of_lt hp]
    exact congrArg (fun x : El => x.bits % 2 ^ sh.dst.bits) (hval _ hj (by rwa [hmod]))

end

/-! ## The elements of a line -/

/-- Elements of a line of an axis. -/
def lineLen (t : VTy) (col whole : Bool) : Nat := if whole then t.lanes else if col then 16 else rowLen t

/-- The element at position `q` of the line that element `p` stands in. -/
def lineIndex (t : VTy) (col whole : Bool) (p q : Nat) : Nat :=
  if whole then q else if col then q * rowLen t + p % rowLen t else p / rowLen t * rowLen t + q

theorem rowLen_pos (t : VTy) : 0 < rowLen t := by cases t <;> decide
theorem rows_rowLen (t : VTy) : 16 * rowLen t = t.lanes := by cases t <;> decide
theorem lineLen_even (t : VTy) (col whole : Bool) : lineLen t col whole % 2 = 0 := by
  cases whole <;> cases col <;> cases t <;> decide

section
variable {α β : Type} {t : VTy} {col whole : Bool} {p : Nat}

theorem row_lt (hp : p < t.lanes) : p / rowLen t < 16 :=
  (Nat.div_lt_iff_lt_mul (rowLen_pos t)).2 (by rwa [rows_rowLen])

theorem posOf_lt (hp : p < t.lanes) : posOf t col whole p < lineLen t col whole := by
  cases whole
  · cases col
    · exact Nat.mod_lt _ (rowLen_pos t)
    · exact row_lt hp
  · exact hp

theorem lineIndex_posOf : lineIndex t col whole p (posOf t col whole p) = p := by
  cases whole
  · cases col
    · exact Nat.div_add_mod' _ _
    · exact Nat.div_add_mod' _ _
  · rfl

theorem lineIndex_lt {q : Nat} (hp : p < t.lanes) (hq : q < lineLen t col whole) : lineIndex t col whole p q < t.lanes := by
  have hbound : ∀ {r c : Nat}, r < 16 → c < rowLen t → r * rowLen t + c < t.lanes := fun {r c} hr hc => by
    have := Nat.mul_le_mul_right (rowLen t) (show r + 1 ≤ 16 from hr)
    rw [rows_rowLen, Nat.succ_mul] at this
    omega
  cases whole
  · cases col
    · exact hbound (row_lt hp) hq
    · exact hbound hq (Nat.mod_lt _ (rowLen_pos t))
  · exact hq

/-- The line of an element, element by element. -/
theorem lineOf_eq (x : Nat → α) (hp : p < t.lanes) :
    Sys2Proof.lineOf t col whole ((List.range t.lanes).map x) p = (List.range (lineLen t col whole)).map fun q => x (lineIndex t col whole p q) := by
  cases whole
  · cases col
    · have hle : p / rowLen t * rowLen t + rowLen t ≤ t.lanes := by
        rw [← Nat.succ_mul, ← rows_rowLen]
        exact Nat.mul_le_mul_right _ (row_lt hp)
      show ((List.map x _).drop _).take _ = _
      rw [drop_map_range, take_map_range _ (by omega)]
      rfl
    · simp only [Sys2Proof.lineOf, lineLen, lineIndex, Bool.false_eq_true, if_false, if_true]
      rw [← congrFun List.filterMap_eq_map (List.range 16)]
      refine List.filterMap_congr fun q hq => getElem?_map_range x ?_
      exact lineIndex_lt (col := true) (whole := false) hp (List.mem_range.1 hq)
  · rfl

/-! ## Operations on lines -/

variable {f : VFields} {g : List α → List β}

theorem linesOf_rows (x : Nat → α) :
    linesOf t false ((List.range t.lanes).map x) = (List.range 16).map fun r => (List.range (rowLen t)).map fun c => x (r * rowLen t + c) :=
  chunks_map_range x (rows_rowLen t).le

theorem linesOf_cols (x : Nat → α) :
    linesOf t true ((List.range t.lanes).map x) = (List.range (rowLen t)).map fun c => (List.range 16).map fun r => x (r * rowLen t + c) := by
  rw [← transposed_map_range fun r c => x (r * rowLen t + c)]
  exact congrArg (transposed (rowLen t)) (linesOf_rows x)

/-- An operation on lines makes of each element what it makes of its line, at its position in it. -/
theorem onLines_eq (d : β) (x : Nat → α)
    (hg : ∀ l, l.length = lineLen f.ty (colAxis f) whole → (g l).length = lineLen f.ty (colAxis f) whole) :
    onLines f whole g ((List.range f.ty.lanes).map x) = (List.range f.ty.lanes).map fun p =>
      (g (Sys2Proof.lineOf f.ty (colAxis f) whole ((List.range f.ty.lanes).map x) p))[posOf f.ty (colAxis f) whole p]?.getD d := by
  have hline : ∀ r, (g ((List.range (lineLen f.ty (colAxis f) whole)).map r)) = (List.range (lineLen f.ty (colAxis f) whole)).map fun q =>
      (g ((List.range (lineLen f.ty (colAxis f) whole)).map r))[q]?.getD d := fun r => by
    refine (eq_map_getD _ d).trans ?_
    rw [hg _ (by simp)]
  have helem : (List.range f.ty.lanes).map (fun p =>
      (g (Sys2Proof.lineOf f.ty (colAxis f) whole ((List.range f.ty.lanes).map x) p))[posOf f.ty (colAxis f) whole p]?.getD d) =
      (List.range f.ty.lanes).map fun p => (g ((List.range (lineLen f.ty (colAxis f) whole)).map fun q =>
        x (lineIndex f.ty (colAxis f) whole p q)))[posOf f.ty (colAxis f) whole p]?.getD d :=
    List.map_congr_left fun p hp => by rw [lineOf_eq x (List.mem_range.1 hp)]
  rw [helem]
  unfold onLines
  cases whole
  · rw [if_neg (by simp)]
    cases hcol : colAxis f <;> rw [hcol] at hline
    · have hrows : (linesOf f.ty false ((List.range f.ty.lanes).map x)).map g = (List.range 16).map fun r =>
          (List.range (rowLen f.ty)).map fun q => (g ((List.range (rowLen f.ty)).map fun c => x (r * rowLen f.ty + c)))[q]?.getD d := by
        rw [linesOf_rows, List.map_map]
        exact List.map_congr_left fun r _ => hline _
      rw [hrows, ofLines, if_neg (by simp), ← List.flatMap_def, flatMap_map_range, rows_rowLen]
      rfl
    · have hcols : (linesOf f.ty true ((List.range f.ty.lanes).map x)).map g = (List.range (rowLen f.ty)).map fun c =>
          (List.range 16).map fun q => (g ((List.range 16).map fun r => x (r * rowLen f.ty + c)))[q]?.getD d := by
        rw [linesOf_cols, List.map_map]
        exact List.map_congr_left fun c _ => hline _
      rw [hcols, ofLines, if_pos rfl, transposed_map_range, ← List.flatMap_def, flatMap_map_range, rows_rowLen]
      rfl
  · exact hline x

end

/-! ## Lines of two sources with their activity -/

section
variable {t : VTy} {col whole : Bool} {inp : VIn} {p : Nat}

theorem lineOf_lanes_length (hp : p < t.lanes) : (Sys2Proof.lineOf t col whole (lanesOf t inp) p).length = lineLen t col whole := by
  rw [lanesOf, lineOf_eq _ hp]
  simp

theorem lineOf_lanes_posOf (hp : p < t.lanes) : (Sys2Proof.lineOf t col whole (lanesOf t inp) p)[posOf t col whole p]? =
    some ⟨isActive inp.cells t p, srcA t inp p, srcB t inp p⟩ := by
  rw [lanesOf, lineOf_eq _ hp, getElem?_map_range _ (posOf_lt hp), lineIndex_posOf]

theorem lineOf_lanes_map {β : Type} (h : Lane → β) (hp : p < t.lanes) :
    Sys2Proof.lineOf t col whole ((lanesOf t inp).map h) p = (Sys2Proof.lineOf t col whole (lanesOf t inp) p).map h := by
  rw [lanesOf, List.map_map, lineOf_eq _ hp, lineOf_eq _ hp, List.map_map]
  rfl

theorem sourceA_eq (ha : inp.a.length = 1) : els t inp.a = (lanesOf t inp).map (·.a) := by
  rw [els_eq_map t inp.a ha, lanesOf, List.map_map, Nat.one_mul]
  rfl

theorem activity_zip (ha : inp.a.length = 1) : (activity inp.cells t).zip (els t inp.a) = (lanesOf t inp).map fun x => (x.on, x.a) := by
  rw [els_eq_map t inp.a ha, Nat.one_mul, activity, zip_map_range, lanesOf, List.map_map]
  rfl

theorem sources_zip (ha : inp.a.length = 1) (hb : inp.b.length = 1) : (els t inp.a).zip (els t inp.b) = (lanesOf t inp).map fun x => (x.a, x.b) := by
  rw [els_eq_map t inp.a ha, els_eq_map t inp.b hb, zip_map_range, lanesOf, List.map_map, Nat.one_mul]
  rfl

theorem keys_zip {γ : Type} (h : Bool × Nat × Nat → γ) (ha : inp.a.length = 1) (hb : inp.b.length = 1) :
    ((activity inp.cells t).zip ((els t inp.a).zip (els t inp.b))).map h = (lanesOf t inp).map fun x => h (x.on, x.a, x.b) := by
  rw [els_eq_map t inp.a ha, els_eq_map t inp.b hb, zip_map_range, activity, Nat.one_mul, zip_map_range, lanesOf, List.map_map, List.map_map]
  rfl

theorem withIdentity_lanes (e : Nat) (h : Nat → Nat) (ha : inp.a.length = 1) :
    withIdentity e (activity inp.cells t) ((els t inp.a).map h) = (lanesOf t inp).map fun x => if x.on then h x.a else e := by
  rw [withIdentity, els_eq_map t inp.a ha, Nat.one_mul, activity, lanesOf, List.map_map, List.map_map, List.zipWith_map, List.zipWith_self]
  rfl

variable {β γ : Type} {f : VFields} {h : Lane → β} {g : List β → List γ}

theorem onLines_lanes (d : γ)
    (hg : ∀ l, l.length = lineLen f.ty (colAxis f) whole → (g l).length = lineLen f.ty (colAxis f) whole) :
    onLines f whole g ((lanesOf f.ty inp).map h) = (List.range f.ty.lanes).map fun p =>
      (g ((Sys2Proof.lineOf f.ty (colAxis f) whole (lanesOf f.ty inp) p).map h))[posOf f.ty (colAxis f) whole p]?.getD d := by
  rw [lanesOf, List.map_map, onLines_eq d _ hg]
  refine List.map_congr_left fun p hp => ?_
  rw [← List.map_map, ← lanesOf, lineOf_lanes_map h (List.mem_range.1 hp)]

/-- An instruction along lines makes of each element what it makes of its line, at its position in it. -/
theorem line_computes {i : Instr} {sh : VShape} {s : State} {compute : VIn → VRes} {out : γ → El} {v : List Lane → Nat → γ}
    (he : exec i s = elementWord (longLen f) f sh compute s) (hd : sh.dst = f.ty) (hnd : sh.nd = 1)
    (hcomp : ∀ inp : VIn, inp.a.length = sh.na → inp.b.length = sh.nb →
      compute inp = (onLines f whole g ((lanesOf f.ty inp).map h)).map out)
    (hlen : ∀ l, l.length = lineLen f.ty (colAxis f) whole → (g l).length = lineLen f.ty (colAxis f) whole)
    (hval : ∀ (l : List Lane) (q : Nat) (x : Lane), l.length = lineLen f.ty (colAxis f) whole → l[q]? = some x → (sh.force = false → x.on = true) →
      (g (l.map h))[q]? = some (v l q)) :
    ComputesElements i (longLen f) f sh s fun inp j =>
      out (v (Sys2Proof.lineOf f.ty (colAxis f) whole (lanesOf f.ty inp) j) (posOf f.ty (colAxis f) whole j)) :=
  elementWord_written he fun inp ha hb j hj => by
    rw [hnd, hd, Nat.one_mul] at hj
    have hline := lineOf_lanes_length (col := colAxis f) (whole := whole) (inp := inp) hj
    have hpos := lineOf_lanes_posOf (col := colAxis f) (whole := whole) (inp := inp) hj
    rw [hcomp inp ha hb, onLines_lanes (v [] 0) hlen, List.map_map, getElem?_map_range _ hj]
    refine ⟨_, rfl, fun hw => congrArg out ?_⟩
    have hon : sh.force = false → isActive inp.cells f.ty j = true := fun hf => by
      rw [written, hf, hd, Nat.mod_eq_of_lt hj] at hw
      exact hw
    exact Option.getD_eq_iff.2 (.inl (hval _ _ _ hline hpos hon))

/-- The same of an instruction that writes two registers, of pairs. -/
theorem pairs_compute {i : Instr} {s : State} {compute : VIn → VRes} {fst snd : γ → Nat} {v : List Lane → Nat → γ}
    (he : exec i s = elementWord (longLen f) f { src := f.ty, dst := f.ty, nb := 1, nd := 2 } compute s)
    (hcomp : ∀ inp : VIn, inp.a.length = 1 → inp.b.length = 1 → compute inp =
      quietEls ((onLines f whole g ((lanesOf f.ty inp).map h)).map fst ++ (onLines f whole g ((lanesOf f.ty inp).map h)).map snd))
    (hlen : ∀ l, l.length = lineLen f.ty (colAxis f) whole → (g l).length = lineLen f.ty (colAxis f) whole)
    (hval : ∀ (l : List Lane) (q : Nat) (x : Lane), l.length = lineLen f.ty (colAxis f) whole → l[q]? = some x → (g (l.map h))[q]? = some (v l q)) :
    ComputesElements i (longLen f) f { src := f.ty, dst := f.ty, nb := 1, nd := 2 } s fun inp j =>
      let r := v (Sys2Proof.lineOf f.ty (colAxis f) whole (lanesOf f.ty inp) (j % f.ty.lanes)) (posOf f.ty (colAxis f) whole (j % f.ty.lanes))
      ⟨if j < f.ty.lanes then fst r else snd r, 0⟩ :=
  elementWord_spec he fun inp ha hb _ => by
    have hlines : onLines f whole g ((lanesOf f.ty inp).map h) = (List.range f.ty.lanes).map fun p =>
        v (Sys2Proof.lineOf f.ty (colAxis f) whole (lanesOf f.ty inp) p) (posOf f.ty (colAxis f) whole p) := by
      rw [onLines_lanes (v [] 0) hlen]
      refine List.map_congr_left fun p hp => ?_
      have hp := List.mem_range.1 hp
      rw [hval _ _ _ (lineOf_lanes_length hp) (lineOf_lanes_posOf hp), Option.getD_some]
    rw [hcomp inp ha hb, hlines, List.map_map, List.map_map, append_map_range, quietEls, List.map_map, ← Nat.two_mul]
    refine List.map_congr_left fun j hj => ?_
    have hj : j < 2 * f.ty.lanes := List.mem_range.1 hj
    by_cases hlt : j < f.ty.lanes
    · simp only [Function.comp_apply, hlt, if_true, Nat.mod_eq_of_lt hlt]
      rfl
    · have hmod : j % f.ty.lanes = j - f.ty.lanes := by rw [Nat.mod_eq_sub_mod (not_lt.1 hlt), Nat.mod_eq_of_lt (by omega)]
      simp only [Function.comp_apply, hlt, if_false, hmod]
      rfl

end

end Sys2Proof.Machine
end

