-- ==== Sys2Proof/Proofs/VectorLines.lean ====
section
/-! OBLIGATION. VectorLines: reductions, scans, permutations and sorts along the lines of a register (R160, R163, R190 to R197). -/

namespace Sys2Proof.Machine

open Sys2Proof

/-! ## Moves along lines (R191) -/

/-- The element at a position of a line of the first source. -/
def Lanes.at (l : List Lane) (q : Nat) : Nat := (l[q]?.map (·.a)).getD 0

theorem Lanes.getD_map (l : List Lane) (q : Nat) : (l.map (·.a))[q]?.getD 0 = Lanes.at l q := by rw [Lanes.at, List.getElem?_map]

theorem Lanes.getElem?_map {l : List Lane} {q : Nat} (h : q < l.length) : (l.map (·.a))[q]? = some (Lanes.at l q) := by
  rw [Lanes.at, List.getElem?_map, List.getElem?_eq_getElem h]
  rfl

section
variable {s : State} {f : VFields}

/-- An instruction that moves the elements of the first source along lines. -/
theorem lineMove_computes {i : Instr} {whole : Bool} {g : List Nat → List Nat} {v : List Lane → Nat → Nat} (he : exec i s = lineMove f whole g s)
    (hlen : ∀ l, l.length = lineLen f.ty (colAxis f) whole → (g l).length = lineLen f.ty (colAxis f) whole)
    (hval : ∀ (l : List Lane) (q : Nat), l.length = lineLen f.ty (colAxis f) whole → q < l.length → (g (l.map (·.a)))[q]? = some (v l q)) :
    ComputesElements i (longLen f) f (unaryShape f.ty) s fun inp j =>
      .quiet (v (Sys2Proof.lineOf f.ty (colAxis f) whole (lanesOf f.ty inp) j) (posOf f.ty (colAxis f) whole j)) :=
  line_computes he rfl rfl (fun inp ha _ => by rw [sourceA_eq ha]; rfl) hlen fun l q _ hl hq _ => hval l q hl (List.getElem?_eq_some_iff.1 hq).1

/-- Element q of a line that is rotated by k places. -/
def rotated (k : Nat) (l : List Lane) (q : Nat) : Nat := Lanes.at l ((q + (l.length - k)) % l.length)

theorem vrot_computes (hk : amount10 f < if colAxis f then 16 else rowLen f.ty) :
    ComputesElements (.vrot f) (longLen f) f (unaryShape f.ty) s fun inp j =>
      .quiet (rotated (amount10 f) (Sys2Proof.lineOf f.ty (colAxis f) false (lanesOf f.ty inp) j) (posOf f.ty (colAxis f) false j)) := by
  refine lineMove_computes (whole := false) rfl (fun l _ => ?_) fun l q hl hq => ?_
  · simp only [List.length_append, List.length_drop, List.length_take]
    omega
  · have hk : amount10 f < l.length := hl ▸ hk
    rw [List.length_map, List.getElem?_append, List.length_drop, List.length_map, List.getElem?_drop, rotated]
    split
    next h => rw [Lanes.getElem?_map (by omega), Nat.mod_eq_of_lt (by omega), Nat.add_comm]
    next h =>
      have hmod : (q + (l.length - amount10 f)) % l.length = q - amount10 f := by
        rw [Nat.mod_eq_sub_mod (by omega), Nat.mod_eq_of_lt (by omega)]
        omega
      rw [hmod, List.getElem?_take_of_lt (by omega), show q - (l.length - (l.length - amount10 f)) = q - amount10 f by omega,
        Lanes.getElem?_map (by omega)]

/-- Element q of a line that is shifted by k places, down or up. -/
def shifted (down : Bool) (k : Nat) (l : List Lane) (q : Nat) : Nat :=
  if down then Lanes.at l (q + k) else if q < k then 0 else Lanes.at l (q - k)

/-- What VSHFT makes of a line. -/
def shiftLine (down : Bool) (k : Nat) (l : List Nat) : List Nat :=
  if down then l.drop k ++ List.replicate k 0 else List.replicate k 0 ++ l.take (l.length - k)

theorem shiftLine_length {down : Bool} {k : Nat} {l : List Nat} (h : k ≤ l.length) : (shiftLine down k l).length = l.length := by
  cases down <;> simp [shiftLine] <;> omega

theorem shiftLine_getElem (down : Bool) {k q : Nat} {l : List Lane} (hk : k ≤ l.length) (hq : q < l.length) :
    (shiftLine down k (l.map (·.a)))[q]? = some (shifted down k l q) := by
  cases down
  · rw [shiftLine, if_neg (by simp), shifted, if_neg (by simp), List.getElem?_append, List.length_replicate]
    split
    next h => rw [List.getElem?_replicate_of_lt h]
    next h => rw [List.length_map, List.getElem?_take_of_lt (by omega), Lanes.getElem?_map (by omega)]
  · rw [shiftLine, if_pos rfl, shifted, if_pos rfl, List.getElem?_append, List.length_drop, List.length_map, List.getElem?_drop]
    split
    next h => rw [Lanes.getElem?_map (by omega), Nat.add_comm]
    next h =>
      rw [List.getElem?_replicate_of_lt (by omega), Lanes.at, List.getElem?_eq_none (by omega)]
      rfl

/-- A line that is shifted by more than its length is all zeros. -/
theorem shiftLine_far {down : Bool} {k : Nat} {l : List Nat} (h : l.length ≤ k) : shiftLine down k l = List.replicate k 0 := by
  cases down <;> simp [shiftLine, h]

theorem shifted_far {down : Bool} {k q : Nat} {l : List Lane} (h : l.length ≤ k) (hq : q < l.length) : shifted down k l q = 0 := by
  cases down
  · rw [shifted, if_neg (by simp), if_pos (by omega)]
  · rw [shifted, if_pos rfl, Lanes.at, List.getElem?_eq_none (by omega)]
    rfl

theorem transposed_zeros {n m k : Nat} (h : n ≤ k) : transposed n (List.replicate m (List.replicate k 0)) = List.replicate n (List.replicate m 0) := by
  induction n generalizing k with
  | zero => rfl
  | succ n ih =>
    obtain ⟨k, rfl⟩ := Nat.exists_eq_add_of_le' (show 1 ≤ k by omega)
    show (List.replicate m (List.replicate (k + 1) 0)).filterMap List.head? :: transposed n ((List.replicate m (List.replicate (k + 1) 0)).map List.tail) = _
    rw [List.filterMap_replicate_of_some (f := List.head?) (b := 0) rfl, List.map_replicate]
    exact congrArg (_ :: ·) (ih (by omega))

theorem onLines_zeros {k p : Nat} (x : Nat → Nat) (hk : lineLen f.ty (colAxis f) false ≤ k) (hp : p < f.ty.lanes) :
    (onLines f false (fun _ => List.replicate k 0) ((List.range f.ty.lanes).map x))[p]? = some 0 := by
  unfold onLines
  rw [if_neg (by simp), List.map_const']
  cases hcol : colAxis f <;> rw [hcol] at hk
  · have hlt : p < 16 * k := (hp.trans_eq (rows_rowLen f.ty).symm).trans_le (Nat.mul_le_mul_left _ hk)
    rw [linesOf_rows, ofLines, if_neg (by simp), List.flatten_replicate_replicate, List.length_map, List.length_range,
      List.getElem?_replicate_of_lt hlt]
  · rw [linesOf_cols, ofLines, if_pos rfl, transposed_zeros (n := 16) hk, List.flatten_replicate_replicate, List.length_map, List.length_range,
      rows_rowLen, List.getElem?_replicate_of_lt hp]

theorem onLines_congr {α β : Type} {g g' : List α → List β} (x : Nat → α)
    (h : ∀ l, l.length = lineLen f.ty (colAxis f) false → g l = g' l) :
    onLines f false g ((List.range f.ty.lanes).map x) = onLines f false g' ((List.range f.ty.lanes).map x) := by
  unfold onLines
  rw [if_neg (by simp), if_neg (by simp)]
  refine congrArg _ (List.map_congr_left fun l hl => h l ?_)
  cases hcol : colAxis f <;> rw [hcol] at hl
  · rw [linesOf_rows] at hl
    obtain ⟨r, -, rfl⟩ := List.mem_map.1 hl
    simp [lineLen]
  · rw [linesOf_cols] at hl
    obtain ⟨c, -, rfl⟩ := List.mem_map.1 hl
    simp [lineLen]

theorem vshft_computes : ComputesElements (.vshft f) (longLen f) f (unaryShape f.ty) s fun inp j =>
    .quiet (shifted (f.modifier.getLsbD 10) (amount10 f) (Sys2Proof.lineOf f.ty (colAxis f) false (lanesOf f.ty inp) j)
      (posOf f.ty (colAxis f) false j)) := by
  have he : exec (.vshft f) s = lineMove f false (shiftLine (f.modifier.getLsbD 10) (amount10 f)) s := rfl
  rcases le_total (amount10 f) (lineLen f.ty (colAxis f) false) with hk | hk
  · exact lineMove_computes he (fun l hl => (shiftLine_length (hl ▸ hk)).trans hl) fun l q hl hq => shiftLine_getElem _ (hl ▸ hk) hq
  · refine elementWord_written he fun inp ha _ j hj => ⟨.quiet 0, ?_, fun _ => ?_⟩
    · have hj : j < f.ty.lanes := by simpa [unaryShape] using hj
      rw [quietEls, List.getElem?_map, els_eq_map f.ty inp.a (n := 1) ha, Nat.one_mul, onLines_congr _ fun l hl => shiftLine_far (hl.trans_le hk),
        onLines_zeros _ hk hj]
      rfl
    · have hj : j < f.ty.lanes := by simpa [unaryShape] using hj
      have hlen := lineOf_lanes_length (col := colAxis f) (whole := false) (inp := inp) hj
      rw [shifted_far (hlen.trans_le hk) (by rw [hlen]; exact posOf_lt hj)]

theorem vbcst_computes : ComputesElements (.vbcst f) (longLen f) f (unaryShape f.ty) s fun inp j =>
    .quiet (Lanes.at (Sys2Proof.lineOf f.ty (colAxis f) (f.modifier.getLsbD 10) (lanesOf f.ty inp) j) (amount10 f)) := by
  refine lineMove_computes (whole := f.modifier.getLsbD 10) (v := fun l _ => Lanes.at l (amount10 f)) rfl (fun l hl => ?_) fun l q _ hq => ?_
  · rw [List.length_replicate, hl]
  · rw [List.getElem?_replicate_of_lt (by rwa [List.length_map]), Lanes.getD_map]

end

/-! ## Permutations (R195) -/

section
variable {s : State} {f : VFields}

/-- The element at position q of the second source, modulo the length of the line. -/
def permuted (l : List Lane) (q : Nat) : Nat := Lanes.at l ((l[q]?.map (·.b)).getD 0 % l.length)

theorem vperm_computes : ComputesElements (.vperm f) (longLen f) f (binaryShape f.ty) s fun inp j =>
    .quiet (permuted (Sys2Proof.lineOf f.ty (colAxis f) (bitW f) (lanesOf f.ty inp) j) (posOf f.ty (colAxis f) (bitW f) j)) := by
  refine line_computes (whole := bitW f) (v := permuted) rfl rfl rfl (fun inp ha hb => by rw [sources_zip ha hb]; rfl) (fun l hl => ?_)
    fun l q x _ hx _ => ?_
  · rw [List.length_map, hl]
  · simp only [permuted, Lanes.at, List.getElem?_map, hx, Option.map_some, List.map_map, List.length_map, Option.getD_some, Function.comp_def]

/-- Pairs one after the other. -/
theorem flatMap_pairs_getElem (l : List (Nat × Nat)) (q : Nat) :
    (l.flatMap fun p => [p.1, p.2])[q]? = l[q / 2]?.map fun p => if q % 2 = 0 then p.1 else p.2 := by
  induction l generalizing q with
  | nil => simp
  | cons p l ih =>
    match q with
    | 0 => rfl
    | 1 => rfl
    | q + 2 =>
      rw [List.flatMap_cons, show (q + 2) / 2 = q / 2 + 1 by omega, Nat.add_mod_right, List.getElem?_cons_succ, ← ih]
      rfl

/-- Element q of the zipped halves of a line. -/
def zipped (upper : Bool) (l : List Lane) (q : Nat) : Nat :=
  let x := l[q / 2 + if upper then l.length / 2 else 0]?.getD ⟨false, 0, 0⟩
  if q % 2 = 0 then x.a else x.b

theorem vzip_computes : ComputesElements (.vzip f) (longLen f) f (binaryShape f.ty) s fun inp j =>
    .quiet (zipped (bitW f) (Sys2Proof.lineOf f.ty (colAxis f) false (lanesOf f.ty inp) j) (posOf f.ty (colAxis f) false j)) := by
  have heven := lineLen_even f.ty (colAxis f) false
  refine line_computes (whole := false) (v := zipped (bitW f)) rfl rfl rfl (fun inp ha hb => by rw [sources_zip ha hb]; rfl) (fun l hl => ?_)
    fun l q x hl hx _ => ?_
  · cases bitW f <;> simp [List.length_flatMap] <;> omega
  · have hq : q < l.length := (List.getElem?_eq_some_iff.1 hx).1
    cases bitW f
    · have hx : l[q / 2]? = some l[q / 2] := List.getElem?_eq_getElem (by omega)
      rw [flatMap_pairs_getElem, if_neg (by simp), List.length_map, List.getElem?_take_of_lt (by omega), List.getElem?_map, hx]
      simp only [zipped, Bool.false_eq_true, if_false, Nat.add_zero, hx, Option.map_some, Option.getD_some]
    · have hx : l[q / 2 + l.length / 2]? = some l[q / 2 + l.length / 2] := List.getElem?_eq_getElem (by omega)
      rw [flatMap_pairs_getElem, if_pos rfl, List.length_map, List.getElem?_drop, List.getElem?_map, Nat.add_comm, hx]
      simp only [zipped, if_true, hx, Option.map_some, Option.getD_some]

theorem evens_getElem {α : Type} (l : List α) (q : Nat) : (evens l)[q]? = l[2 * q]? := by
  induction l using evens.induct generalizing q with
  | case1 => simp [evens]
  | case2 x => cases q <;> simp [evens]
  | case3 x y rest ih =>
    cases q with
    | zero => rfl
    | succ q => rw [evens, List.getElem?_cons_succ, ih, Nat.mul_succ, List.getElem?_cons_succ, List.getElem?_cons_succ]

theorem evens_length {α : Type} (l : List α) : (evens l).length = (l.length + 1) / 2 := by
  induction l using evens.induct with
  | case1 => simp [evens]
  | case2 x => simp [evens]
  | case3 x y rest ih =>
    rw [evens, List.length_cons, ih]
    simp only [List.length_cons]
    omega

/-- Element q of the line whose halves are the even, or odd, positions of the two sources. -/
def unzipped (odd : Bool) (l : List Lane) (q : Nat) : Nat :=
  let n := l.length / 2
  let x := l[2 * (q % n) + if odd then 1 else 0]?.getD ⟨false, 0, 0⟩
  if q < n then x.a else x.b

theorem vuzp_computes : ComputesElements (.vuzp f) (longLen f) f (binaryShape f.ty) s fun inp j =>
    .quiet (unzipped (bitW f) (Sys2Proof.lineOf f.ty (colAxis f) false (lanesOf f.ty inp) j) (posOf f.ty (colAxis f) false j)) := by
  have heven := lineLen_even f.ty (colAxis f) false
  refine line_computes (whole := false) (v := unzipped (bitW f)) rfl rfl rfl (fun inp ha hb => by rw [sources_zip ha hb]; rfl) (fun l hl => ?_)
    fun l q x hl hx _ => ?_
  · cases bitW f <;> simp [evens_length] <;> omega
  · have hq : q < l.length := (List.getElem?_eq_some_iff.1 hx).1
    have hsource : ∀ (h : Nat × Nat → Nat) (r : Nat), r < l.length / 2 →
        ((evens (if bitW f then (l.map fun x => (x.a, x.b)).drop 1 else l.map fun x => (x.a, x.b))).map h)[r]? =
          (l[2 * r + if bitW f then 1 else 0]?.map fun x => h (x.a, x.b)) := fun h r _ => by
      rw [List.getElem?_map, evens_getElem]
      cases bitW f
      · simp only [Bool.false_eq_true, if_false, Nat.add_zero, List.getElem?_map, Option.map_map, Function.comp_def]
      · simp only [if_true, List.getElem?_drop, Nat.add_comm 1, List.getElem?_map, Option.map_map, Function.comp_def]
    have hhalf : (evens (if bitW f then (l.map fun x => (x.a, x.b)).drop 1 else l.map fun x => (x.a, x.b))).length = l.length / 2 := by
      rw [evens_length]
      cases bitW f <;> simp <;> omega
    have hget : ∀ r, r < l.length / 2 → ∃ y, l[2 * r + if bitW f then 1 else 0]? = some y := fun r hr =>
      ⟨_, List.getElem?_eq_getElem (by split <;> omega)⟩
    rw [List.getElem?_append, List.length_map, hhalf]
    by_cases hlow : q < l.length / 2
    · obtain ⟨y, hy⟩ := hget q hlow
      rw [if_pos hlow, hsource _ _ hlow, hy]
      simp only [unzipped, hlow, if_true, Nat.mod_eq_of_lt hlow, hy, Option.map_some, Option.getD_some]
    · have hmod : q % (l.length / 2) = q - l.length / 2 := by
        rw [Nat.mod_eq_sub_mod (not_lt.1 hlow), Nat.mod_eq_of_lt (by omega)]
      obtain ⟨y, hy⟩ := hget (q - l.length / 2) (by omega)
      rw [if_neg hlow, hsource _ _ (by omega), hy]
      simp only [unzipped, hlow, if_false, hmod, hy, Option.map_some, Option.getD_some]

/-! ## Compress and expand (R197) -/

/-- The active elements of a line, closed up. -/
def compressed (l : List Lane) (q : Nat) : Nat := Lanes.at (l.filter (·.on)) q

theorem vcomp_computes : ComputesElements (.vcomp f) (longLen f) f { unaryShape f.ty with force := true } s fun inp j =>
    .quiet (compressed (Sys2Proof.lineOf f.ty (colAxis f) (bitW f) (lanesOf f.ty inp) j) (posOf f.ty (colAxis f) (bitW f) j)) := by
  refine line_computes (whole := bitW f) (v := compressed) rfl rfl rfl (fun inp ha _ => by rw [activity_zip ha]; rfl) (fun l hl => ?_)
    fun l q x hl hx _ => ?_
  · have hle := List.length_filter_le (fun p : Bool × Nat => p.1) l
    simp only [List.length_append, List.length_map, List.length_replicate]
    omega
  · have hq : q < l.length := (List.getElem?_eq_some_iff.1 hx).1
    have hfilter : ((l.map fun x => (x.on, x.a)).filter (·.1)).map (·.2) = (l.filter (·.on)).map (·.a) := by
      rw [List.filter_map, List.map_map]
      rfl
    rw [hfilter, List.getElem?_append, List.length_map, List.length_map, compressed]
    split
    next h => exact Lanes.getElem?_map h
    next h =>
      rw [List.getElem?_replicate_of_lt (by omega), Lanes.at, List.getElem?_eq_none (not_lt.1 h)]
      rfl

/-- Element q of a line whose active positions take the elements in turn. -/
def expanded (l : List Lane) (q : Nat) : Nat := Lanes.at l ((l.take q).countP (·.on))

theorem expandInto_length (act : List Bool) (xs : List Nat) : (expandInto act xs).length = act.length := by
  induction act, xs using expandInto.induct with
  | case1 => rfl
  | case2 act xs ih => exact congrArg Nat.succ ih
  | case3 act ih => exact congrArg Nat.succ ih
  | case4 act x xs ih => exact congrArg Nat.succ ih

/-- An active position takes the item whose number is that of the active positions before it. -/
theorem expandInto_getElem {act : List Bool} {xs : List Nat} {q : Nat} (h : act[q]? = some true) :
    (expandInto act xs)[q]? = some (xs[(act.take q).countP id]?.getD 0) := by
  induction act, xs using expandInto.induct generalizing q with
  | case1 => simp at h
  | case2 act xs ih =>
    cases q with
    | zero => simp at h
    | succ q => simpa [expandInto] using ih (by simpa using h)
  | case3 act ih =>
    cases q with
    | zero => rfl
    | succ q => simpa [expandInto] using ih (by simpa using h)
  | case4 act x xs ih =>
    cases q with
    | zero => rfl
    | succ q => simpa [expandInto] using ih (by simpa using h)

theorem vexpd_computes : ComputesElements (.vexpd f) (longLen f) f (unaryShape f.ty) s fun inp j =>
    .quiet (expanded (Sys2Proof.lineOf f.ty (colAxis f) (bitW f) (lanesOf f.ty inp) j) (posOf f.ty (colAxis f) (bitW f) j)) := by
  refine line_computes (whole := bitW f) (v := expanded) rfl rfl rfl (fun inp ha _ => by rw [activity_zip ha]; rfl) (fun l hl => ?_)
    fun l q x hl hx hon => ?_
  · rw [expandInto_length, List.length_map, hl]
  · have hact : (l.map (·.on))[q]? = some true := by rw [List.getElem?_map, hx, Option.map_some, hon rfl]
    rw [List.map_map, List.map_map]
    refine (expandInto_getElem hact).trans (congrArg some ?_)
    rw [← List.map_take, List.countP_map, expanded, ← Lanes.getD_map]
    rfl

end

/-! ## Reductions and scans (R160, R192, R194) -/

section
variable {s : State} {f : VFields}

/-- The elements of a line, the identity for those that are not active. -/
def kept (e : Nat) (l : List Lane) : List Nat := l.map fun x => if x.on then x.a else e

/-- The reduction of the rows of a register and then of their results. -/
def reducedRows (op : Nat → Nat → El) (rows : List (List Nat)) : El :=
  let rs := rows.map (treeOf op 12)
  let r := treeOf op 5 (rs.map (·.bits))
  ⟨r.bits, rs.foldl (fun fl x => fl ||| x.fl) r.fl⟩

/-- The row of a register. -/
def rowOf (t : VTy) (xs : List Nat) (r : Nat) : List Nat := (xs.drop (r * rowLen t)).take (rowLen t)

/-- The reduction of a line, or with W of the register by rows. -/
def reduced (f : VFields) (op : Nat → Nat → El) (xs : List Nat) : El :=
  if bitW f then reducedRows op ((List.range 16).map (rowOf f.ty xs)) else treeOf op 12 xs

theorem linesOf_eq_rows (t : VTy) (xs : List Nat) : linesOf t false xs = (List.range 16).map (rowOf t xs) :=
  eq_map_range (chunks_length _ _ _) fun _ hr => chunks_getElem _ _ _ _ hr

theorem withIdentity_kept {inp : VIn} (t : VTy) (e : Nat) (ha : inp.a.length = 1) :
    withIdentity e (activity inp.cells t) (els t inp.a) = kept e (lanesOf t inp) := by
  simpa [kept] using withIdentity_lanes e id ha

theorem vReduce_computes {i : Instr} {e : Nat} {op : Nat → Nat → El} (he : exec i s = vReduce f e op s) :
    ComputesElements i (longLen f) f (unaryShape f.ty) s fun inp j =>
      reduced f op (kept e (Sys2Proof.lineOf f.ty (colAxis f) (bitW f) (lanesOf f.ty inp) j)) := by
  by_cases hw : bitW f = true
  · refine elementWord_spec he fun inp ha _ _ => ?_
    simp only [reduceEls, hw, if_true, spread, withIdentity_kept f.ty e ha, linesOf_eq_rows]
    refine eq_map_range (by simp [unaryShape]) fun j hj => ?_
    rw [List.getElem?_replicate_of_lt (by simpa [unaryShape] using hj), reduced, if_pos hw]
    rfl
  · have hw := Bool.eq_false_of_not_eq_true hw
    rw [hw]
    refine line_computes (whole := false) (out := id) (h := fun x => if x.on then x.a else e) (g := fun l => spread l.length (treeOf op 12 l))
      (v := fun l _ => reduced f op (kept e l)) he rfl rfl (fun inp ha _ => ?_) (fun l hl => ?_) fun l q x hl hx _ => ?_
    · simp only [reduceEls, hw, Bool.false_eq_true, if_false, withIdentity_kept f.ty e ha, List.map_id]
      rfl
    · rw [spread, List.length_replicate, hl]
    · have hq : q < l.length := (List.getElem?_eq_some_iff.1 hx).1
      rw [spread, List.getElem?_replicate_of_lt (by rwa [List.length_map]), reduced, if_neg (by simp [hw])]
      rfl

theorem scanFrom_length (t : VTy) (acc : Nat) (xs : List Nat) : (scanFrom t acc xs).length = xs.length := by
  induction xs generalizing acc with
  | nil => rfl
  | cons x xs ih => exact congrArg Nat.succ (ih _)

/-- Element q of the prefix sums of a line. -/
def scanned (t : VTy) (l : List Lane) (q : Nat) : El := (scanFrom t (sumIdentity t) (kept (sumIdentity t) l))[q]?.getD ⟨0, 0⟩

theorem vscan_computes : ComputesElements (.vscan f) (longLen f) f (unaryShape f.ty) s fun inp j =>
    scanned f.ty (Sys2Proof.lineOf f.ty (colAxis f) (bitW f) (lanesOf f.ty inp) j) (posOf f.ty (colAxis f) (bitW f) j) := by
  refine line_computes (whole := bitW f) (out := id) (h := fun x => if x.on then x.a else sumIdentity f.ty)
    (g := scanFrom f.ty (sumIdentity f.ty)) (v := scanned f.ty) rfl rfl rfl (fun inp ha _ => ?_) (fun l hl => ?_) fun l q x hl hx _ => ?_
  · simp only [withIdentity_kept f.ty _ ha, List.map_id]
    rfl
  · rw [scanFrom_length, hl]
  · have hq : q < (scanFrom f.ty (sumIdentity f.ty) (kept (sumIdentity f.ty) l)).length := by
      rw [scanFrom_length, kept, List.length_map]
      exact (List.getElem?_eq_some_iff.1 hx).1
    rw [scanned, List.getElem?_eq_getElem hq, Option.getD_some]
    exact List.getElem?_eq_getElem hq

/-- The elements of a row in the 32-bit type, the identity for those that are not active. -/
def wideRow (t : VTy) (l : List Lane) (r : Nat) : List Nat :=
  ((l.drop (r * rowLen t)).take (rowLen t)).map fun x => if x.on then widen32 t x.a else sumIdentity (dotTy t)

/-- The sum of the rows, or with W of the whole register, in the 32-bit type. -/
def wideSum (f : VFields) (l : List Lane) (j : Nat) : El :=
  if bitW f then reducedRows (sumEl (dotTy f.ty)) ((List.range 16).map (wideRow f.ty l))
  else treeOf (sumEl (dotTy f.ty)) 12 (wideRow f.ty l (j / 16))

theorem vrsumw_computes : ComputesElements (.vrsumw f) (longLen f) f { src := f.ty, dst := dotTy f.ty } s fun inp j =>
    wideSum f (lanesOf f.ty inp) j := by
  refine elementWord_spec rfl fun inp ha _ _ => ?_
  have hrows : linesOf f.ty false (withIdentity (sumIdentity (dotTy f.ty)) (activity inp.cells f.ty) ((els f.ty inp.a).map (widen32 f.ty))) =
      (List.range 16).map (wideRow f.ty (lanesOf f.ty inp)) := by
    rw [withIdentity_lanes _ _ ha, linesOf_eq_rows]
    refine List.map_congr_left fun r _ => ?_
    rw [rowOf, wideRow, List.map_take, List.map_drop]
  simp only [hrows, dotTy_lanes, Nat.one_mul]
  by_cases hw : bitW f = true
  · simp only [hw, if_true]
    refine eq_map_range (List.length_replicate ..) fun j hj => ?_
    rw [spread, List.getElem?_replicate_of_lt hj, wideSum, if_pos hw]
    rfl
  · have hspread : ∀ r, spread 16 r = (List.range 16).map fun _ => r := fun r => by rw [spread, List.map_const', List.length_range]
    simp only [hw, Bool.false_eq_true, if_false, List.map_map, List.flatMap_map, hspread, Function.comp_apply]
    rw [flatMap_map_range]
    refine List.map_congr_left fun j _ => ?_
    rw [wideSum, if_neg hw]

end

/-! ## Keys with an index, and compare-exchange (R193, R196) -/

section
variable {s : State} {f : VFields}

theorem els_congr {t u : VTy} (h : t.bits = u.bits) : els t = els u := by
  funext imgs
  unfold els VTy.lanes
  rw [h]

/-- The keys of a line. -/
def keysOf (l : List Lane) : List Keyed := l.map fun x => ⟨x.on, x.a, x.b⟩

theorem vArgReduce_computes {i : Instr} {big : Bool} (ht : f.ty.bits = 32) (he : exec i s = vArgReduce big f s) :
    ComputesElements i (longLen f) f { src := f.ty, dst := f.ty, nb := 1, nd := 2 } s fun inp j =>
      let r := winnerOf f.ty big (keysOf (Sys2Proof.lineOf f.ty (colAxis f) (bitW f) (lanesOf f.ty inp) (j % f.ty.lanes)))
      ⟨if j < f.ty.lanes then r.1 else r.2, 0⟩ := by
  refine pairs_compute (whole := bitW f) (h := fun x => (⟨x.on, x.a, x.b⟩ : Keyed)) (g := fun l => List.replicate l.length (winnerOf f.ty big l))
    (v := fun l _ => winnerOf f.ty big (keysOf l)) he (fun inp ha hb => ?_) (fun l hl => ?_)
    fun l q x hl hx => ?_
  · rw [els_congr (t := .n32) (u := f.ty) ht.symm, keys_zip _ ha hb]
  · rw [List.length_replicate, hl]
  · rw [List.getElem?_replicate_of_lt (by rw [List.length_map]; exact (List.getElem?_eq_some_iff.1 hx).1)]
    rfl

/-- The positions of a line of VCXS. -/
def sortLine (l : List Lane) : List Cx := l.map fun x => ⟨x.on, x.a, x.b⟩

/-- What a stage makes of a line. -/
def sortStage (f : VFields) (l : List Cx) : List Cx :=
  ((List.range l.length).zip l).map fun x => cxAt f.ty (f.modifier.extractLsb' 0 4).toNat (f.modifier.extractLsb' 4 4).toNat l x.1 x.2

/-- What a stage makes of position q of a line. -/
def sortedAt (f : VFields) (l : List Lane) (q : Nat) : Cx :=
  cxAt f.ty (f.modifier.extractLsb' 0 4).toNat (f.modifier.extractLsb' 4 4).toNat (sortLine l) q ((sortLine l)[q]?.getD ⟨false, 0, 0⟩)

theorem vcxs_computes : ComputesElements (.vcxs f) (longLen f) f { src := f.ty, dst := f.ty, nb := 1, nd := 2 } s fun inp j =>
    let r := sortedAt f (Sys2Proof.lineOf f.ty (colAxis f) false (lanesOf f.ty inp) (j % f.ty.lanes)) (posOf f.ty (colAxis f) false (j % f.ty.lanes))
    ⟨if j < f.ty.lanes then r.key else r.load, 0⟩ := by
  refine pairs_compute (whole := false) (h := fun x => (⟨x.on, x.a, x.b⟩ : Cx)) (g := sortStage f) (v := sortedAt f) rfl
    (fun inp ha hb => ?_) (fun l hl => ?_) fun l q x hl hx => ?_
  · rw [keys_zip _ ha hb]
    rfl
  · rw [sortStage, List.length_map, List.length_zip, List.length_range, Nat.min_self, hl]
  · have hx : (sortLine l)[q]? = some ⟨x.on, x.a, x.b⟩ := by rw [sortLine, List.getElem?_map, hx, Option.map_some]
    have hq : q < (sortLine l).length := (List.getElem?_eq_some_iff.1 hx).1
    have hzip : ((List.range (sortLine l).length).zip (sortLine l))[q]? = some (q, ⟨x.on, x.a, x.b⟩) :=
      List.getElem?_zip_eq_some.2 ⟨List.getElem?_range hq, hx⟩
    rw [sortedAt, sortStage, ← sortLine, hx, List.getElem?_map, hzip]
    rfl

end

/-! ## Transposed blocks (R195) -/

section
variable {s : State} {f : VFields}

/-- Element j of the register whose blocks of 16 rows by 16 positions are transposed. -/
def blockTransposed (t : VTy) (inp : VIn) (j : Nat) : Nat :=
  srcA t inp (j % rowLen t % 16 * rowLen t + j % rowLen t / 16 * 16 + j / rowLen t)

theorem rowLen_blocks {t : VTy} (h8 : 8 ≤ t.bits) (h32 : t.bits ≤ 32) : t.lanes / 256 * 16 = rowLen t := by
  cases t <;> simp_all [VTy.bits, VTy.lanes, rowLen]

theorem vtrn_computes (h8 : 8 ≤ f.ty.bits) (h32 : f.ty.bits ≤ 32) :
    ComputesElements (.vtrn f) (longLen f) f (unaryShape f.ty) s fun inp j => .quiet (blockTransposed f.ty inp j) := by
  refine elementWord_spec rfl fun inp ha _ _ => ?_
  have hblocks := rowLen_blocks h8 h32
  have hrows : ((linesOf f.ty false (els f.ty inp.a)).map fun r => chunks 16 (f.ty.lanes / 256) r) = (List.range 16).map fun r =>
      (List.range (f.ty.lanes / 256)).map fun b => (List.range 16).map fun c => srcA f.ty inp (r * rowLen f.ty + (b * 16 + c)) := by
    rw [els_eq_map f.ty inp.a (n := 1) ha, Nat.one_mul, linesOf_rows, List.map_map]
    exact List.map_congr_left fun r _ => chunks_map_range _ hblocks.le
  simp only [hrows]
  have htrans : ((List.range (f.ty.lanes / 256)).map fun b => (List.range 16).map fun r => (List.range 16).map fun c =>
      srcA f.ty inp (r * rowLen f.ty + (b * 16 + c))).map (transposed 16) = (List.range (f.ty.lanes / 256)).map fun b =>
        (List.range 16).map fun c => (List.range 16).map fun r => srcA f.ty inp (r * rowLen f.ty + (b * 16 + c)) := by
    rw [List.map_map]
    exact List.map_congr_left fun b _ => transposed_map_range _ _ _
  rw [transposed_map_range fun r b => (List.range 16).map fun c => srcA f.ty inp (r * rowLen f.ty + (b * 16 + c)), htrans,
    transposed_map_range fun b c => (List.range 16).map fun r => srcA f.ty inp (r * rowLen f.ty + (b * 16 + c)), ← List.flatMap_def, flatMap_map_range,
    ← List.flatMap_def, flatMap_map_range, Nat.mul_assoc, hblocks, rows_rowLen, quietEls, List.map_map]
  rw [show (unaryShape f.ty).nd * (unaryShape f.ty).dst.lanes = f.ty.lanes from Nat.one_mul _]
  refine List.map_congr_left fun j _ => congrArg (fun q => El.quiet (srcA f.ty inp q)) ?_
  have hmod : j % rowLen f.ty = j % 16 + 16 * (j / 16 % (f.ty.lanes / 256)) := by rw [← hblocks, Nat.mul_comm, Nat.mod_mul]
  have hdiv : j / rowLen f.ty = j / 16 / (f.ty.lanes / 256) := by rw [← hblocks, Nat.mul_comm, Nat.div_div_eq_div_mul]
  have hc : (j % 16 + 16 * (j / 16 % (f.ty.lanes / 256))) % 16 = j % 16 := by rw [Nat.add_mul_mod_self_left, Nat.mod_mod]
  have hb : (j % 16 + 16 * (j / 16 % (f.ty.lanes / 256))) / 16 = j / 16 % (f.ty.lanes / 256) := by
    rw [Nat.add_mul_div_left _ _ (by omega), Nat.div_eq_of_lt (Nat.mod_lt _ (by omega)), Nat.zero_add]
  rw [hmod, hdiv, hc, hb, Nat.add_assoc]

end

/-! ## The obligation -/

/-- R196: a compare-exchange orders the two elements of a pair, and exchanges nothing else. -/
theorem cxAt_orders (t : VTy) (k sBit : Nat) (l : List Cx) (p : Nat) (x y : Cx) :
    let q := p ^^^ 2 ^ k
    let up := sBit = 15 ∨ p.testBit sBit = false
    let less (a b : Nat) : Prop := elNan t a = false ∧
      (elNan t b = true ∨ if t.isFloat then ((vfmt t).val a).below ((vfmt t).val b) = true else intVal t a < intVal t b)
    let exchanged := x.on = true ∧ y.on = true ∧ ((up ∧ less y.key x.key) ∨ (¬up ∧ less x.key y.key))
    let first := cxAt t k sBit l p x
    let second := cxAt t k sBit l q y
    p < q → l[p]? = some x → l[q]? = some y →
      (exchanged → first = y ∧ second = x) ∧ (¬exchanged → first = x ∧ second = y) ∧
      (x.on = true → y.on = true → (up → ¬less second.key first.key) ∧ (¬up → ¬less first.key second.key)) := by
  intro q up less exchanged first second hp hx hy
  have hup : stageUp sBit p = true ↔ up := by simp [stageUp, up]
  have hless : ∀ a b, less a b ↔ keyBelow t a b = true := fun a b => by
    rw [keyBelow_iff, elBelow]
    by_cases ht : t.isFloat = true <;> simp [less, ht]
  have hout : ∀ a b, outOfOrder t (stageUp sBit p) a b = true ↔ (up ∧ less b a) ∨ (¬up ∧ less a b) := fun a b => by
    rw [hless, hless, outOfOrder, ← hup]
    by_cases h : stageUp sBit p = true <;> simp [h]
  have hexch : exchanges t (stageUp sBit p) x y = true ↔ exchanged := by
    rw [exchanges, Bool.and_eq_true_iff, Bool.and_eq_true_iff, hout, and_assoc]
  obtain ⟨hswap, hkeep, horder⟩ := cxAt_pair (t := t) (sBit := sBit) hp hx hy
  refine ⟨fun h => hswap (hexch.2 h), fun h => hkeep (mt hexch.1 h), fun hox hoy => ⟨fun hu h => ?_, fun hu h => ?_⟩⟩
  · exact horder hox hoy ((hout _ _).2 (.inl ⟨hu, h⟩))
  · exact horder hox hoy ((hout _ _).2 (.inr ⟨hu, h⟩))

/-- Settles O19: each element takes what its instruction makes of its line; the winner of a set stands first in the order of keys, and a
compare-exchange orders its pair, both since the order of elements is a linear one. -/
theorem vectorLines : Obligations.VectorLines := by
  unfold Obligations.VectorLines
  refine ⟨fun s f => ?_, fun t big l h => winnerOf_none h, fun t big l h => winnerOf_some h, fun t big l x h => ?_, cxAt_orders,
    fun t k sBit l p x h => cxAt_alone x h⟩
  · intro t col w k at_ keep line quiet reduce
    refine ⟨fun hk => vrot_computes hk, ?_, fun h32 h8 => vtrn_computes h8 h32, fun _ _ _ => vrsumw_computes, fun ht => ?_, vcxs_computes⟩
    · simp only [List.forall_mem_cons, List.not_mem_nil, false_implies, implies_true, and_true]
      exact ⟨vshft_computes, vbcst_computes, vReduce_computes rfl, vReduce_computes rfl, vReduce_computes rfl, vscan_computes, vperm_computes,
        vzip_computes, vuzp_computes, vcomp_computes, vexpd_computes⟩
    · simp only [List.forall_mem_cons, List.not_mem_nil, false_implies, implies_true, and_true]
      exact ⟨vArgReduce_computes ht rfl, vArgReduce_computes ht rfl⟩
  · obtain ⟨hx, ⟨hon, hnan⟩, hbeats⟩ := winner_unbeaten h
    refine ⟨hx, hon, hnan, fun y hy hyon hynan => ?_⟩
    have hb := hbeats y hy ⟨hyon, hynan⟩
    exact ⟨.inl hb, beats_eq_false hb⟩

end Sys2Proof.Machine
end

