-- ==== Sys2Proof/Proofs/SteeredSums.lean ====
section
/-! SUPPORT. What the Quern sums of a tile that the Bolter made (R158, R205 to R209). -/

namespace Sys2Proof.Machine

open Sys2Proof

/-! ## Fields put together -/

theorem joinBits_field (w : Nat) (xs : List Nat) (i : Nat) : joinBits w xs / 2 ^ (i * w) % 2 ^ w = xs[i]?.getD 0 % 2 ^ w := by
  refine Nat.eq_of_testBit_eq fun u => ?_
  rw [Nat.testBit_mod_two_pow, Nat.testBit_mod_two_pow, Nat.testBit_div_two_pow]
  by_cases hu : u < w
  · rw [Nat.add_comm u, joinBits_testBit _ _ _ _ hu]
  · simp [hu]

theorem joinBits_lt (w : Nat) (xs : List Nat) : joinBits w xs < 2 ^ (w * xs.length) := by
  induction xs with
  | nil => simp [joinBits]
  | cons x rest ih =>
    have hx := Nat.mod_lt x (Nat.two_pow_pos w)
    calc x % 2 ^ w + 2 ^ w * joinBits w rest < 2 ^ w * (joinBits w rest + 1) := by rw [Nat.mul_succ]; omega
      _ ≤ 2 ^ w * 2 ^ (w * rest.length) := Nat.mul_le_mul_left _ ih
      _ = 2 ^ (w * (x :: rest).length) := by rw [← Nat.pow_add, List.length_cons, Nat.mul_succ, Nat.add_comm]

/-! ## Segments and boundaries (R207, R208) -/

/-- The rows of code `c`, ascending. -/
def rowsOfCode (codes : List Nat) (c : Nat) : List Nat := (List.range codes.length).filter fun r => codes[r]?.getD 0 == c

theorem segments_eq (book codes : List Nat) :
    segments book codes = (List.range 8).map fun c => if book[c]?.getD 0 = 0 then [] else rowsOfCode codes c := by
  refine List.map_congr_left fun c _ => ite_congr rfl (fun _ => rfl) fun _ => ?_
  conv_lhs => rw [eq_map_getD codes 0, List.length_map, List.length_range, zip_range_map, List.filter_map, List.map_map]
  exact List.map_id _

theorem mem_segments {book codes : List Nat} {seg : List Nat} (h : seg ∈ segments book codes) :
    seg = [] ∨ ∃ c, c < 8 ∧ seg = rowsOfCode codes c := by
  rw [segments_eq, List.mem_map] at h
  obtain ⟨c, hc, rfl⟩ := h
  split
  · exact .inl rfl
  · exact .inr ⟨c, List.mem_range.1 hc, rfl⟩

theorem mem_segments_flatten {book codes : List Nat} {r : Nat} (h : r ∈ (segments book codes).flatten) : r < codes.length := by
  obtain ⟨seg, hseg, hr⟩ := List.mem_flatten.1 h
  rcases mem_segments hseg with rfl | ⟨c, -, rfl⟩
  · simp at hr
  · exact List.mem_range.1 (List.mem_of_mem_filter hr)

/-- No row stands in two segments, so a record has room for them all. -/
theorem segments_length_le (book codes : List Nat) : (segments book codes).flatten.length ≤ codes.length := by
  have hnodup : (segments book codes).flatten.Nodup := by
    rw [segments_eq]
    refine List.nodup_flatten.2 ⟨fun seg hseg => ?_, ?_⟩
    · obtain ⟨c, -, rfl⟩ := List.mem_map.1 hseg
      split
      · exact List.nodup_nil
      · exact List.nodup_range.filter _
    · refine List.pairwise_map.2 (List.nodup_range.imp fun {c c'} hne => ?_)
      intro r hr hr'
      split at hr
      next => exact absurd hr List.not_mem_nil
      next =>
        split at hr'
        next => exact absurd hr' List.not_mem_nil
        next =>
          have h := List.of_mem_filter hr
          have h' := List.of_mem_filter hr'
          exact hne ((beq_iff_eq.1 h).symm.trans (beq_iff_eq.1 h'))
  have hsub : (segments book codes).flatten ⊆ List.range codes.length := fun r hr => List.mem_range.2 (mem_segments_flatten hr)
  simpa using (hnodup.subperm hsub).length_le

/-- The rows before segment `c`. -/
def before (segs : List (List Nat)) (c : Nat) : Nat := ((segs.map List.length).take c).sum

theorem bounds_getElem (segs : List (List Nat)) {n c : Nat} (h : c < segs.length) : (bounds n segs)[c]? = some (n + before segs (c + 1)) := by
  induction segs generalizing n c with
  | nil => simp at h
  | cons s rest ih =>
    cases c with
    | zero => simp [bounds, before]
    | succ c =>
      rw [bounds, List.getElem?_cons_succ, ih (by simpa using h)]
      simp [before, Nat.add_assoc]

theorem bounds_length (segs : List (List Nat)) (n : Nat) : (bounds n segs).length = segs.length := by
  induction segs generalizing n with
  | nil => rfl
  | cons s rest ih => simp [bounds, ih]

theorem before_le (segs : List (List Nat)) (c : Nat) : before segs c ≤ segs.flatten.length := by
  rw [List.length_flatten]
  exact (List.take_sublist c _).sum_le_sum fun _ _ => Nat.zero_le _

/-- A column record as it is read: its boundaries, and row indices that begin with the segments in turn. -/
def ReadsSegments (segs : List (List Nat)) (col : List Nat × List Nat) : Prop :=
  (∀ c, c < 8 → col.1[c]?.getD 0 = before segs (c + 1)) ∧ col.2.take segs.flatten.length = segs.flatten

/-- The entries of code `c` are its segment. -/
theorem ReadsSegments.entriesOf {segs : List (List Nat)} {col : List Nat × List Nat} {c : Nat} (h : ReadsSegments segs col) (hlen : segs.length = 8)
    (hc : c < 8) : entriesOf col c = segs[c]?.getD [] := by
  obtain ⟨hbound, hrows⟩ := h
  have hlo : (if c = 0 then 0 else col.1[c - 1]?.getD 0) = before segs c := by
    by_cases h0 : c = 0
    · rw [if_pos h0, h0]
      rfl
    · rw [if_neg h0, hbound _ (by omega), Nat.sub_add_cancel (by omega)]
  have htake : col.2.take (before segs (c + 1)) = segs.flatten.take (before segs (c + 1)) := by
    rw [← hrows, List.take_take, Nat.min_eq_left (before_le segs _)]
  unfold Sys2Proof.Machine.entriesOf
  dsimp only
  rw [hlo, hbound c hc, ← List.drop_take, htake, before, before, List.drop_take_succ_flatten_eq_getElem segs c (by omega),
    List.getElem?_eq_getElem (by omega)]
  rfl

/-! ## A column record (R207) -/

/-- What a column record says. -/
def recordValue (w : Nat) (segs : List (List Nat)) : Nat := joinBits 7 (bounds 0 segs) + 2 ^ 56 * joinBits w segs.flatten

/-- Fields of the low 56 bits. -/
theorem low_field (x y : Nat) {c : Nat} (hc : c < 8) : (x + 2 ^ 56 * y) / 2 ^ (c * 7) % 2 ^ 7 = x / 2 ^ (c * 7) % 2 ^ 7 := by
  obtain ⟨n, hn⟩ : ∃ n, 56 = c * 7 + (7 + n) := ⟨56 - c * 7 - 7, by omega⟩
  rw [hn, Nat.pow_add, Nat.mul_assoc, Nat.add_mul_div_left _ _ (Nat.two_pow_pos _), Nat.pow_add 2 7 n, Nat.mul_assoc, Nat.add_mul_mod_self_left]

theorem recordValue_reads {d w : Nat} {segs : List (List Nat)} (hlen : segs.length = 8) (hroom : segs.flatten.length ≤ d) (hd : d ≤ 64)
    (hrows : ∀ r ∈ segs.flatten, r < 2 ^ w) :
    ReadsSegments segs (splitBits 7 8 (recordValue w segs), splitBits w d (recordValue w segs >>> 56)) := by
  have hlow : joinBits 7 (bounds 0 segs) < 2 ^ 56 := by
    have := joinBits_lt 7 (bounds 0 segs)
    rwa [bounds_length, hlen] at this
  have hhigh : recordValue w segs >>> 56 = joinBits w segs.flatten := by
    rw [recordValue, Nat.shiftRight_eq_div_pow, Nat.add_mul_div_left _ _ (Nat.two_pow_pos _), Nat.div_eq_of_lt hlow, Nat.zero_add]
  refine ⟨fun c hc => ?_, ?_⟩
  · have hle := before_le segs (c + 1)
    rw [splitBits_getElem _ _ _ _ hc, Option.getD_some, recordValue, low_field _ _ hc, joinBits_field, bounds_getElem _ (by omega), Option.getD_some,
      Nat.zero_add, Nat.mod_eq_of_lt (by omega)]
  · dsimp only
    rw [hhigh, splitBits_eq_map, take_map_range _ hroom]
    refine (eq_map_range rfl fun i hi => ?_).symm
    rw [joinBits_field, List.getElem?_eq_getElem hi, Option.getD_some, Nat.mod_eq_of_lt (hrows _ (List.getElem_mem hi))]

theorem recordValue_lt {d w : Nat} {segs : List (List Nat)} (hlen : segs.length = 8) (hroom : segs.flatten.length ≤ d)
    (hfit : 56 + w * d ≤ 8 * d) : recordValue w segs < 256 ^ d := by
  have hlow := joinBits_lt 7 (bounds 0 segs)
  rw [bounds_length, hlen] at hlow
  have hhigh := joinBits_lt w segs.flatten
  calc recordValue w segs < 2 ^ 56 * (joinBits w segs.flatten + 1) := by unfold recordValue; omega
    _ ≤ 2 ^ 56 * 2 ^ (w * d) := Nat.mul_le_mul_left _ (Nat.succ_le_of_lt (hhigh.trans_le (Nat.pow_le_pow_right (by decide) (Nat.mul_le_mul_left _ hroom))))
    _ = 2 ^ (56 + w * d) := (Nat.pow_add _ _ _).symm
    _ ≤ 2 ^ (8 * d) := Nat.pow_le_pow_right (by decide) hfit
    _ = 256 ^ d := by rw [Nat.pow_mul]

/-! ## The tile of the Bolter (R206) -/

/-- The segments of column `j`. -/
abbrev columnSegs (b : Nat) (tiles : List (List Byte)) (j : Nat) : List (List Nat) :=
  segments (bookOf b (tiles.head?.getD []) j) (allCodes b tiles j)

theorem flatMap_length_const {α β : Type} (l : List α) (g : α → List β) (n : Nat) (h : ∀ x ∈ l, (g x).length = n) :
    (l.flatMap g).length = l.length * n := by
  rw [List.length_flatMap, List.map_congr_left h, List.map_const', List.sum_replicate, smul_eq_mul]

theorem allCodes_length (b : Nat) (tiles : List (List Byte)) (j : Nat) : (allCodes b tiles j).length = 32 * tiles.length := by
  rw [allCodes, flatMap_length_const _ (codesOf b · j) 32 fun _ _ => splitBits_length _ _ _, Nat.mul_comm]

theorem allCodes_lt {b : Nat} {tiles : List (List Byte)} {j x : Nat} (h : x ∈ allCodes b tiles j) : x < 2 ^ b := by
  obtain ⟨t, -, hx⟩ := List.mem_flatMap.1 h
  rw [codesOf, splitBits_eq_map] at hx
  obtain ⟨i, -, rfl⟩ := List.mem_map.1 hx
  exact Nat.mod_lt _ (Nat.two_pow_pos b)

/-- A codebook entry, zero for the codes that the width does not have. -/
def bookByte (b : Nat) (tiles : List (List Byte)) (j c : Nat) : Nat := (bookOf b (tiles.head?.getD []) j)[c]?.getD 0

theorem bookByte_lt (b : Nat) (tiles : List (List Byte)) (j c : Nat) : bookByte b tiles j c < 256 := by
  unfold bookByte bookOf
  by_cases hc : c < 2 ^ b
  · rw [getElem?_map_range _ hc]
    exact BitVec.isLt _
  · rw [getElem?_map_range_none _ (by omega)]
    decide

theorem boltTile_eq {b d : Nat} {tiles : List (List Byte)} (hd : d = if tiles.length = 2 then 64 else 32) :
    ∃ mid : List Byte, mid.length = 768 ∧ boltTile b tiles =
      ((List.range 256).map fun i => BitVec.ofNat 8 (bookByte b tiles (i / 8) (i % 8))) ++ mid ++
        (List.range (32 * d)).map fun i =>
          BitVec.ofNat 8 (recordValue (if d = 64 then 6 else 5) (columnSegs b tiles (i / d)) / 256 ^ (i % d)) := by
  have hrecord (j : Nat) : columnRecord d (columnSegs b tiles j) =
      (List.range d).map fun i => BitVec.ofNat 8 (recordValue (if d = 64 then 6 else 5) (columnSegs b tiles j) / 256 ^ i) := leBytes_eq_map _ _
  have hparts : ∃ (x y : Byte) (nz : Nat), boltTile b tiles =
      ((List.range 32).flatMap fun j => (List.range 8).map fun c => BitVec.ofNat 8 (bookByte b tiles j c)) ++ [x, y] ++ leBytes 2 nz ++
        List.replicate 764 0 ++ ((List.range 32).map (columnSegs b tiles)).flatMap (columnRecord d) := by
    rw [hd]
    exact ⟨_, _, _, rfl⟩
  obtain ⟨x, y, nz, hparts⟩ := hparts
  refine ⟨[x, y] ++ leBytes 2 nz ++ List.replicate 764 0, ?_, ?_⟩
  · rw [List.length_append, List.length_append, leBytes_length, List.length_replicate]
    rfl
  · rw [hparts, List.flatMap_map]
    simp only [hrecord]
    rw [flatMap_map_range (fun j c => BitVec.ofNat 8 (bookByte b tiles j c)),
      flatMap_map_range (fun j i => BitVec.ofNat 8 (recordValue (if d = 64 then 6 else 5) (columnSegs b tiles j) / 256 ^ i))]
    simp only [List.append_assoc]

/-- The fields of the tile that the Quern reads: codebooks, and column records. -/
theorem steerOf_boltTile {b d : Nat} {tiles : List (List Byte)} (hd : d = 32 * tiles.length) (hlen : tiles.length = 1 ∨ tiles.length = 2)
    {j : Nat} (hj : j < 32) :
    let x := steerOf d (boltTile b tiles)
    x.books[j]?.getD [] = (List.range 8).map (bookByte b tiles j) ∧ ReadsSegments (columnSegs b tiles j) (x.cols[j]?.getD ([], [])) := by
  have hd' : d = if tiles.length = 2 then 64 else 32 := by rcases hlen with h | h <;> simp [hd, h]
  obtain ⟨mid, hmid, hT⟩ := boltTile_eq (b := b) hd'
  unfold steerOf
  dsimp only
  rw [getElem?_map_range _ hj, getElem?_map_range _ hj, Option.getD_some, Option.getD_some, hT]
  constructor
  · refine List.map_congr_left fun c hc => ?_
    have hc := List.mem_range.1 hc
    unfold byteAt
    rw [List.append_assoc, List.getElem?_append_left (by simp; omega), getElem?_map_range _ (by omega), Option.getD_some, BitVec.toNat_ofNat,
      Nat.mod_eq_of_lt (bookByte_lt _ _ _ _), show (8 * j + c) / 8 = j by omega, show (8 * j + c) % 8 = c by omega]
  · have hcodes : (allCodes b tiles j).length = d := (allCodes_length b tiles j).trans hd.symm
    have hroom : (columnSegs b tiles j).flatten.length ≤ d := (segments_length_le _ _).trans_eq hcodes
    have hdepth : 2 ^ (if d = 64 then 6 else 5) = d := by rcases hlen with h | h <;> rw [hd, h] <;> rfl
    have hrows : ∀ r ∈ (columnSegs b tiles j).flatten, r < 2 ^ if d = 64 then 6 else 5 := fun r hr =>
      (mem_segments_flatten hr).trans_eq (hcodes.trans hdepth.symm)
    have hslice : ∀ pre : List Byte, pre.length = 1024 → ((pre ++ (List.range (32 * d)).map fun i => BitVec.ofNat 8
        (recordValue (if d = 64 then 6 else 5) (columnSegs b tiles (i / d)) / 256 ^ (i % d))).drop (1024 + d * j)).take d =
          leBytes d (recordValue (if d = 64 then 6 else 5) (columnSegs b tiles j)) := fun pre hpre => by
      have hroom : d * j + d ≤ 32 * d := by nlinarith
      rw [← hpre, List.drop_length_add_append, drop_map_range, take_map_range _ (by omega), leBytes_eq_map]
      refine List.map_congr_left fun i hi => ?_
      have hi := List.mem_range.1 hi
      rw [Nat.mul_add_div (by omega), Nat.mul_add_mod, Nat.div_eq_of_lt hi, Nat.mod_eq_of_lt hi, Nat.add_zero]
    unfold columnOf
    rw [hslice _ (by simp [hmid]), leNat_leBytes, Nat.mod_eq_of_lt (recordValue_lt (by simp [segments]) hroom ?_)]
    · exact recordValue_reads (by simp [segments]) hroom (by omega) hrows
    · rcases hlen with h | h <;> simp [hd, h]

/-! ## Sums of a column (R158) -/

section
variable {lanes l : Nat}

theorem addLanes_length {a b : List Int} (ha : a.length = lanes) (hb : b.length = lanes) : (addLanes a b).length = lanes := by
  simp [addLanes, ha, hb]

theorem addLanes_getElem {a b : List Int} (ha : a.length = lanes) (hb : b.length = lanes) (hl : l < lanes) :
    (addLanes a b)[l]?.getD 0 = a[l]?.getD 0 + b[l]?.getD 0 := by
  simp [addLanes, ha, hb, hl]

/-- A fold whose every step adds a term to lane l. -/
theorem foldl_lane {ι : Type} (step : List Int → ι → List Int) (term : ι → Int) (is : List ι)
    (hstep : ∀ i ∈ is, ∀ acc : List Int, acc.length = lanes →
      (step acc i).length = lanes ∧ (step acc i)[l]?.getD 0 = acc[l]?.getD 0 + term i)
    (z : List Int) (hz : z.length = lanes) :
    (is.foldl step z).length = lanes ∧ (is.foldl step z)[l]?.getD 0 = z[l]?.getD 0 + (is.map term).sum := by
  induction is generalizing z with
  | nil => simp [hz]
  | cons i is ih =>
    obtain ⟨hlen, hadd⟩ := hstep i (List.mem_cons_self ..) z hz
    obtain ⟨hlen', hsum⟩ := ih (fun j hj => hstep j (List.mem_cons_of_mem _ hj)) (step z i) hlen
    exact ⟨hlen', by rw [List.foldl_cons, hsum, hadd, List.map_cons, List.sum_cons, Int.add_assoc]⟩

/-- Lane l of a row. -/
def laneAt (rows : List (List Int)) (l r : Nat) : Int := (rows[r]?.getD [])[l]?.getD 0

/-- What code `c` adds to the sums of a column. -/
def codeStep (e4 : Bool) (rows : List (List Int)) (lanes : Nat) (book : List Nat) (col : List Nat × List Nat) (acc : List Int) (c : Nat) : List Int :=
  let w := codeword e4 (book[c]?.getD 0)
  let es := entriesOf col c
  if w = 0 || es.isEmpty then acc
  else
    let bucket := es.foldl (fun b r => addLanes b (rows[r]?.getD [])) (List.replicate lanes 0)
    addLanes acc (bucket.map (· * w))

theorem codeStep_lane {e4 : Bool} {rows : List (List Int)} {book : List Nat} {col : List Nat × List Nat} {acc : List Int} {c : Nat}
    (hrows : ∀ r ∈ entriesOf col c, (rows[r]?.getD []).length = lanes) (hl : l < lanes) (hacc : acc.length = lanes) :
    (codeStep e4 rows lanes book col acc c).length = lanes ∧ (codeStep e4 rows lanes book col acc c)[l]?.getD 0 =
      acc[l]?.getD 0 + codeword e4 (book[c]?.getD 0) * ((entriesOf col c).map (laneAt rows l)).sum := by
  unfold codeStep
  dsimp only
  split
  · next hskip =>
    refine ⟨hacc, ?_⟩
    rcases Bool.or_eq_true_iff.1 hskip with h | h
    · rw [of_decide_eq_true h, Int.zero_mul, Int.add_zero]
    · rw [List.isEmpty_iff.1 h, List.map_nil, List.sum_nil, Int.mul_zero, Int.add_zero]
  · obtain ⟨hb, hbucket⟩ := foldl_lane (l := l) (fun b r => addLanes b (rows[r]?.getD [])) (laneAt rows l) (entriesOf col c)
      (fun r hr b hb => ⟨addLanes_length hb (hrows r hr), addLanes_getElem hb (hrows r hr) hl⟩) (List.replicate lanes 0) List.length_replicate
    rw [List.getElem?_replicate, if_pos hl, Option.getD_some, Int.zero_add] at hbucket
    refine ⟨addLanes_length hacc (by rw [List.length_map, hb]), ?_⟩
    rw [addLanes_getElem hacc (by rw [List.length_map, hb]) hl, ← hbucket, Int.mul_comm, List.getElem?_map, List.getElem?_eq_getElem (hl.trans_eq hb.symm)]
    rfl

/-- A column sums, for each code, its codeword times its entries' rows. -/
theorem columnSums_lane {e4 : Bool} {rows : List (List Int)} {book : List Nat} {col : List Nat × List Nat}
    (hrows : ∀ c, c < 8 → ∀ r ∈ entriesOf col c, (rows[r]?.getD []).length = lanes) (hl : l < lanes) :
    (columnSums e4 rows lanes book col)[l]? =
      some (((List.range 8).map fun c => codeword e4 (book[c]?.getD 0) * ((entriesOf col c).map (laneAt rows l)).sum).sum) := by
  obtain ⟨hlen, hsum⟩ := foldl_lane (l := l) (codeStep e4 rows lanes book col)
    (fun c => codeword e4 (book[c]?.getD 0) * ((entriesOf col c).map (laneAt rows l)).sum) (List.range 8)
    (fun c hc acc hacc => codeStep_lane (hrows c (List.mem_range.1 hc)) hl hacc) (List.replicate lanes 0) List.length_replicate
  have hcol : columnSums e4 rows lanes book col = (List.range 8).foldl (codeStep e4 rows lanes book col) (List.replicate lanes 0) := rfl
  rw [List.getElem?_replicate, if_pos hl, Option.getD_some, Int.zero_add] at hsum
  rw [← hsum, hcol, List.getElem?_eq_getElem (by omega)]
  rfl

end

/-! ## Sums by code -/

theorem foldl_range_eq_sum (g : Nat → Int) (n : Nat) : (List.range n).foldl (fun acc r => acc + g r) 0 = ∑ r ∈ Finset.range n, g r := by
  induction n with
  | zero => rfl
  | succ n ih => rw [List.range_succ, List.foldl_append, ih, Finset.sum_range_succ]; rfl

theorem map_range_sum (g : Nat → Int) (n : Nat) : ((List.range n).map g).sum = ∑ c ∈ Finset.range n, g c := by
  induction n with
  | zero => rfl
  | succ n ih => rw [List.range_succ, List.map_append, List.sum_append, ih, Finset.sum_range_succ]; simp

theorem rowsOfCode_sum (codes : List Nat) (c : Nat) (g : Nat → Int) :
    ((rowsOfCode codes c).map g).sum = ∑ r ∈ Finset.range codes.length with codes[r]?.getD 0 = c, g r := by
  unfold rowsOfCode
  induction codes.length with
  | zero => rfl
  | succ n ih =>
    rw [List.range_succ, List.filter_append, List.map_append, List.sum_append, ih, Finset.range_add_one, Finset.filter_insert]
    by_cases h : codes[n]?.getD 0 = c <;> simp [h, Int.add_comm]

/-- A byte of zero has the value zero. -/
theorem codeword_zero (e4 : Bool) : codeword e4 0 = 0 := by cases e4 <;> decide

/-- The entries of each code add up to the rows' elements times the codewords of their codes. -/
theorem codeSums_eq (w : Nat → Int) (x : Nat → Int) {codes : List Nat} {n : Nat} (h : ∀ c ∈ codes, c < n) :
    ((List.range n).map fun c => w c * ((rowsOfCode codes c).map x).sum).sum = ∑ r ∈ Finset.range codes.length, w (codes[r]?.getD 0) * x r := by
  have hcode : ∀ r ∈ Finset.range codes.length, codes[r]?.getD 0 ∈ Finset.range n := fun r hr => by
    rw [List.getElem?_eq_getElem (Finset.mem_range.1 hr)]
    exact Finset.mem_range.2 (h _ (List.getElem_mem _))
  rw [map_range_sum, ← Finset.sum_fiberwise_of_maps_to hcode]
  refine Finset.sum_congr rfl fun c _ => ?_
  rw [rowsOfCode_sum, Finset.mul_sum]
  refine Finset.sum_congr rfl fun r hr => ?_
  rw [(Finset.mem_filter.1 hr).2]

/-! ## The obligation -/

/-- Settles O26: the tile's segments hold each row under its code, and the column sums take every row times its codeword. -/
theorem steeredSums : Obligations.SteeredSums := by
  unfold Obligations.SteeredSums
  intro b tiles e4 rows lanes j l _ hb hlen _ _ d hrows hlanes hj hl x book
  obtain ⟨hbook, hcol⟩ := steerOf_boltTile (b := b) (show d = 32 * tiles.length from rfl) hlen hj
  have hsegs (c : Nat) (hc : c < 8) : (columnSegs b tiles j)[c]?.getD [] = if bookByte b tiles j c = 0 then [] else rowsOfCode (allCodes b tiles j) c := by
    rw [columnSegs, segments_eq, getElem?_map_range _ hc]
    rfl
  have hentries (c : Nat) (hc : c < 8) := (hcol.entriesOf (by simp [segments]) hc).trans (hsegs c hc)
  have hdepth : (allCodes b tiles j).length = d := allCodes_length b tiles j
  have hcodes : ∀ c ∈ allCodes b tiles j, c < 8 := fun c hc =>
    (allCodes_lt hc).trans_le (Nat.pow_le_pow_right (n := 2) (by decide) hb)
  rw [hbook, columnSums_lane (fun c hc r hr => ?_) hl, foldl_range_eq_sum]
  · have hterm : ((List.range 8).map fun c => codeword e4 (((List.range 8).map (bookByte b tiles j))[c]?.getD 0) *
          ((entriesOf (x.cols[j]?.getD ([], [])) c).map (laneAt rows l)).sum) =
        (List.range 8).map fun c => codeword e4 (bookByte b tiles j c) * ((rowsOfCode (allCodes b tiles j) c).map (laneAt rows l)).sum := by
      refine List.map_congr_left fun c hc => ?_
      have hc := List.mem_range.1 hc
      rw [getElem?_map_range _ hc, Option.getD_some, hentries c hc]
      split
      · next h => rw [h, codeword_zero, Int.zero_mul, Int.zero_mul]
      · rfl
    rw [hterm, codeSums_eq _ _ hcodes, hdepth]
    rfl
  · rw [hentries c hc] at hr
    split at hr
    · simp at hr
    · have hr := List.mem_range.1 (List.mem_of_mem_filter hr)
      rw [hdepth, ← hrows] at hr
      rw [List.getElem?_eq_getElem hr]
      exact hlanes _ (List.getElem_mem hr)

end Sys2Proof.Machine
end

