-- ==== Sys2Proof/Proofs/Epilogue.lean ====
section
/-! SUPPORT. The epilogue (R161, R162, R255, R256): the rows that it writes, and their elements read back. -/

namespace Sys2Proof.Machine

open Sys2Proof

/-! ## Bytes of fields put together -/

theorem leBytes_add (n k x y : Nat) : leBytes (n + k) (x % 256 ^ n + 256 ^ n * y) = leBytes n x ++ leBytes k y := by
  induction n generalizing x with
  | zero => simp [leBytes, Nat.mod_one]
  | succ n ih =>
    have hlow : x % 256 ^ (n + 1) + 256 ^ (n + 1) * y = x % 256 + 256 * (x / 256 % 256 ^ n + 256 ^ n * y) := by
      rw [Nat.pow_succ', Nat.mod_mul, Nat.mul_add, Nat.mul_assoc, Nat.add_assoc]
    have hbyte : BitVec.ofNat 8 (x % 256 + 256 * (x / 256 % 256 ^ n + 256 ^ n * y)) = BitVec.ofNat 8 x := by
      refine BitVec.eq_of_toNat_eq ?_
      simp only [BitVec.toNat_ofNat]
      omega
    rw [hlow, Nat.add_right_comm, leBytes, hbyte, show (x % 256 + 256 * (x / 256 % 256 ^ n + 256 ^ n * y)) / 256 = x / 256 % 256 ^ n + 256 ^ n * y by
      omega, ih]
    rfl

theorem flatMap_leBytes (n : Nat) (xs : List Nat) : xs.flatMap (leBytes n) = leBytes (n * xs.length) (joinBits (8 * n) xs) := by
  induction xs with
  | nil => rfl
  | cons x rest ih =>
    rw [List.flatMap_cons, ih, List.length_cons, Nat.mul_succ, Nat.add_comm, joinBits, Nat.pow_mul]
    exact (leBytes_add n _ x _).symm

theorem map_ofNat_bytes (xs : List Nat) : xs.map (BitVec.ofNat 8) = leBytes xs.length (joinBits 8 xs) := by
  have h := flatMap_leBytes 1 xs
  rw [Nat.one_mul, Nat.mul_one] at h
  rw [← h, List.map_eq_flatMap]
  rfl

/-! ## Fields of the core store -/

theorem fieldAt_byte (k : Core) (a i : Nat) : fieldAt k a 8 i = (memGet k.cs (a + i)).toNat := by
  have hlt := (memGet k.cs (a + i)).isLt
  simp [fieldAt, leNat, Nat.mod_eq_of_lt hlt]

theorem fieldAt_word (k : Core) (a i : Nat) : fieldAt k a 32 i = leNat ((List.range 4).map fun n => memGet k.cs (a + 4 * i + n)) := by
  have hlt := leNat_lt ((List.range 4).map fun n => memGet k.cs (a + 4 * i + n))
  rw [List.length_map, List.length_range] at hlt
  unfold fieldAt
  rw [show i * 32 / 8 = 4 * i by omega, show i * 32 % 8 = 0 by omega, Nat.pow_zero, Nat.div_one, show max 1 (32 / 8) = 4 by decide]
  exact Nat.mod_eq_of_lt hlt

/-- Words of the core store as values. -/
theorem csWords_eq (k : Core) (h : Memory.wf k.cs = true) (a n : Nat) : u32s (k.csBytes a (4 * n)) = (List.range n).map (fieldAt k a 32) := by
  rw [Core.csBytes, memBytes_eq _ _ _ h, u32s_map_range]
  refine List.map_congr_left fun i _ => ?_
  rw [fieldAt_word]
  simp only [Nat.add_assoc]

/-- Fields put together that stand in the core store are read back. -/
theorem fieldAt_joinBits {k : Core} (hwf : Memory.wf k.cs = true) (t : VTy) {a n i : Nat} {xs : List Nat} (hlen : xs.length * t.bits = 8 * n)
    (hbytes : ∀ u, u < n → memGet k.cs (a + u) = (leBytes n (joinBits t.bits xs))[u]?.getD 0) (hi : i < xs.length) :
    fieldAt k a t.bits i = xs[i]?.getD 0 % 2 ^ t.bits := by
  have hnat : memNat k.cs a n = joinBits t.bits xs := by
    have hread : memBytes n a k.cs = leBytes n (joinBits t.bits xs) := by
      rw [memBytes_eq _ _ _ hwf]
      refine (eq_map_range (leBytes_length _ _) fun u hu => ?_).symm
      rw [hbytes u hu, leBytes_getElem _ _ _ hu]
      rfl
    rw [memNat, hread, leNat_leBytes, Nat.mod_eq_of_lt]
    have hlt := joinBits_lt t.bits xs
    rwa [Nat.mul_comm, hlen, Nat.pow_mul] at hlt
  have hfit : (i + 1) * t.bits ≤ 8 * n := hlen ▸ Nat.mul_le_mul_right t.bits hi
  rw [← memNat_field k hwf t hfit, hnat, joinBits_field]

/-! ## Rows written one after the other -/

/-- Rows of `n` bytes every `stride` bytes, from offset `off` of each on. -/
def rowsAt (stride off : Nat) (row : Nat → List Byte) (m : Nat) : List (Nat × List Byte) := (List.range m).map fun j => (stride * j + off, row j)

theorem putRows_spec {stride off n : Nat} {row : Nat → List Byte} (hrow : ∀ j, (row j).length = n) (hfit : off + n ≤ stride) (dst m : Nat) (s : State)
    (hwf : Memory.wf s.core.cs = true) :
    let t := (rowsAt stride off row m).foldl (fun s p => putCore s.cur (dst + p.1) p.2 s) s
    StoreOnly s t ∧ Memory.wf t.core.cs = true ∧
      (∀ j u, j < m → u < n → memGet t.core.cs (dst + (stride * j + off) + u) = (row j)[u]?.getD 0) ∧
      ∀ x, ¬(dst ≤ x ∧ x < dst + stride * m) → memGet t.core.cs x = memGet s.core.cs x := by
  induction m with
  | zero => exact ⟨StoreOnly.refl s, hwf, fun j u hj => absurd hj (Nat.not_lt_zero j), fun x _ => rfl⟩
  | succ m ih =>
    obtain ⟨honly, hwf', hrows, hrest⟩ := ih
    rw [rowsAt, List.range_succ, List.map_append, List.foldl_append]
    generalize hs' : ((List.range m).map fun j => (stride * j + off, row j)).foldl (fun s p => putCore s.cur (dst + p.1) p.2 s) s = s'
    rw [rowsAt, hs'] at honly hwf' hrows hrest
    have hget (x : Nat) := memGet_memPut s'.core.cs (dst + (stride * m + off)) (row m) x hwf'
    simp only [hrow] at hget
    refine ⟨honly.trans (putCore_only _ _ s'), ?_, fun j u hj hu => ?_, fun x hx => ?_⟩
    · show Memory.wf (putCore s'.cur _ _ s').core.cs = true
      rw [putCore_cs]
      exact wf_memPut _ _ _ hwf'
    · show memGet (putCore s'.cur _ _ s').core.cs _ = _
      rw [putCore_cs, hget]
      by_cases hjm : j = m
      · subst hjm
        rw [if_pos ⟨by omega, by omega⟩, Nat.add_sub_cancel_left]
      · have hbelow : stride * j + stride ≤ stride * m := by rw [← Nat.mul_succ]; exact Nat.mul_le_mul_left _ (by omega)
        rw [if_neg (by omega), hrows j u (by omega) hu]
    · show memGet (putCore s'.cur _ _ s').core.cs _ = _
      rw [Nat.mul_succ] at hx
      rw [putCore_cs, hget, if_neg (by omega), hrest x (by omega)]

/-! ## The values of a tile (R161, R162) -/

section
variable (f : MFields) (b c : Nat) (k : Core)

/-- Element (j, m) times the scales that are present. -/
def epiVal (j m : Nat) : Fl :=
  let v := fp32.val (elemY k f.acc.toNat j m)
  let v := if f.rs then v.mul (fp32.val (fieldAt k b 32 m)) else v
  if f.cs then v.mul (fp32.val (fieldAt k (b + if f.rs then 1024 else 0) 32 j)) else v

theorem scale_getElem {on : Bool} (h : Memory.wf k.cs = true) (a : Nat) {n i : Nat} (hi : i < n) (v : Fl) :
    (if on then v.mul ((if on then (u32s (k.csBytes a (4 * n))).map fp32.val else [])[i]?.getD .nan) else v) =
      if on then v.mul (fp32.val (fieldAt k a 32 i)) else v := by
  cases on
  · rfl
  · rw [csWords_eq k h, List.map_map, if_pos rfl, if_pos rfl, if_pos rfl, getElem?_map_range _ hi]
    rfl

theorem epiVals_eq (hcs : Memory.wf k.cs = true) (hacc : Memory.wf k.acc = true) :
    epiVals f b k = (List.range 32).map fun j => (List.range 256).map (epiVal f b k j) := by
  have hrows : chunks 256 32 (k.getY f.acc.toNat) = (List.range 32).map fun j => (List.range 256).map (elemY k f.acc.toNat j) := by
    rw [getY_eq k hacc, chunks_map_range _ (by decide)]
    refine List.map_congr_left fun j _ => List.map_congr_left fun m hm => ?_
    have hm := List.mem_range.1 hm
    rw [show (j * 256 + m) / 256 = j by omega, show (j * 256 + m) % 256 = m by omega]
  unfold epiVals
  dsimp only
  rw [hrows, zip_range_map, List.map_map]
  refine List.map_congr_left fun j hj => ?_
  dsimp only [Function.comp]
  rw [zip_range_map, List.map_map]
  refine List.map_congr_left fun m hm => ?_
  dsimp only [Function.comp]
  rw [scale_getElem k hcs b (List.mem_range.1 hm), scale_getElem k hcs _ (List.mem_range.1 hj)]
  rfl

/-- Element (j, m) as an integer of `w` bits, by the parameters of row j. -/
def epiInt (w j m : Nat) : Nat :=
  patternOf w (requant (epiVal f b k j m) (signedOf 32 (fieldAt k (c + 8 * j) 32 0)) (fieldAt k (c + 8 * j) 8 4 % 64) (-2 ^ (w - 1)) (2 ^ (w - 1) - 1))

theorem epiInts_eq (hcs : Memory.wf k.cs = true) (w : Nat) {j : Nat} (hj : j < 32) :
    epiInts (-2 ^ (w - 1)) (2 ^ (w - 1) - 1) w (k.csBytes c 256) j ((List.range 256).map (epiVal f b k j)) = (List.range 256).map (epiInt f b c k w j) := by
  have hparams : (k.csBytes c 256).drop (8 * j) = (List.range (256 - 8 * j)).map fun i => memGet k.cs (c + 8 * j + i) := by
    rw [Core.csBytes, memBytes_eq _ _ _ hcs, drop_map_range]
    simp only [Nat.add_assoc]
  have hmult : leNat (((k.csBytes c 256).drop (8 * j)).take 4) = fieldAt k (c + 8 * j) 32 0 := by
    rw [hparams, take_map_range _ (by omega), fieldAt_word]
    rfl
  have hshift : byteAt ((k.csBytes c 256).drop (8 * j)) 4 = fieldAt k (c + 8 * j) 8 4 := by
    rw [byteAt, hparams, getElem?_map_range _ (by omega), fieldAt_byte]
    rfl
  unfold epiInts
  dsimp only
  rw [hmult, hshift, List.map_map]
  rfl

/-! ## What the epilogue writes (R255, R256) -/

/-- The scale byte of lane m. -/
def epiScale (fm : Fmt) (m : Nat) : Nat := mxScale fm ((List.range 32).map fun j => epiVal f b k j m)

/-- A row of 256 elements of `w` bits. -/
def packedRow (w : Nat) (g : Nat → Nat → Nat) (j : Nat) : List Byte := leBytes (32 * w) (joinBits w ((List.range 256).map (g j)))

/-- Element (j, m) of a block format, and of a floating format. -/
def epiBlockElem (fm : Fmt) (j m : Nat) : Nat := (mxElem fm (epiMode f k (256 * j + m)) (epiScale f b k fm m) (epiVal f b k j m)).bits
def epiFloatElem (fm : Fmt) (j m : Nat) : Nat := (fm.ofFl (epiMode f k (256 * j + m)) f.sat (epiVal f b k j m)).bits

variable {f} (hcs : Memory.wf k.cs = true) (hacc : Memory.wf k.acc = true)
include hcs hacc

theorem epiOut_int8 (he : f.epi.toNat = 2) : epiOut f b c k = (rowsAt 256 0 (packedRow 8 (epiInt f b c k 8)) 32, []) := by
  unfold epiOut
  dsimp only
  rw [if_pos he, epiVals_eq f b k hcs hacc, zip_range_map, List.map_map]
  refine congrArg (·, []) (List.map_congr_left fun j hj => ?_)
  have hrow := epiInts_eq f b c k hcs 8 (List.mem_range.1 hj)
  show (256 * j, (epiInts (-128) 127 8 (k.csBytes c 256) j ((List.range 256).map (epiVal f b k j))).map (BitVec.ofNat 8)) = _
  rw [map_ofNat_bytes]
  exact congrArg (fun row : List Nat => (256 * j, leBytes row.length (joinBits 8 row))) hrow |>.trans (by rw [List.length_map, List.length_range]; rfl)

theorem epiOut_int4 (he : f.epi.toNat = 3) :
    epiOut f b c k = (rowsAt 256 (if f.count.getLsbD 0 then 128 else 0) (packedRow 4 (epiInt f b c k 4)) 32, []) := by
  unfold epiOut
  dsimp only
  rw [if_neg (by omega), if_pos he, epiVals_eq f b k hcs hacc, zip_range_map, List.map_map]
  refine congrArg (·, []) (List.map_congr_left fun j hj => ?_)
  have hrow := epiInts_eq f b c k hcs 4 (List.mem_range.1 hj)
  exact congrArg (fun row : List Nat => (256 * j + if f.count.getLsbD 0 then 128 else 0, leBytes 128 (joinBits 4 row))) hrow

theorem epiOut_block (he : f.epi.toNat = 8 ∨ f.epi.toNat = 9) {fm : Fmt} (hfm : epiFmt f.epi.toNat = fm) :
    epiOut f b c k = (rowsAt 256 0 (packedRow fm.bits (epiBlockElem f b k fm)) 32, (List.range 256).map fun m => BitVec.ofNat 8 (epiScale f b k fm m)) := by
  have hscales : (transposed 256 (epiVals f b k)).map (mxScale fm) = (List.range 256).map (epiScale f b k fm) := by
    rw [epiVals_eq f b k hcs hacc, transposed_map_range, List.map_map]
    rfl
  have hvals : ((List.range 32).zip (epiVals f b k)).map (·.2) = epiVals f b k :=
    List.map_snd_zip (by rw [epiVals_eq f b k hcs hacc]; simp)
  unfold epiOut
  dsimp only
  rw [if_neg (by omega), if_neg (by omega), if_pos he, hfm, hvals, hscales, epiVals_eq f b k hcs hacc, zip_range_map, List.map_map, List.map_map]
  refine congrArg₂ Prod.mk (List.map_congr_left fun j _ => ?_) rfl
  dsimp only [Function.comp]
  rw [zip_map_range, zip_range_map, List.map_map]
  refine congrArg (256 * j, ·) ?_
  rcases he with h | h
  · rw [if_pos h]
    rw [← hfm, h]
    rfl
  · rw [if_neg (by omega), map_ofNat_bytes, List.length_map, List.length_range]
    rw [← hfm, h]
    rfl

theorem epiOut_float (he : f.epi.toNat ∉ [2, 3, 8, 9]) {fm : Fmt} (hfm : epiFmt f.epi.toNat = fm) {n : Nat} (hn : fm.bits = 8 * n) :
    epiOut f b c k = (rowsAt (32 * fm.bits) 0 (packedRow fm.bits (epiFloatElem f b k fm)) 32, []) := by
  simp only [List.mem_cons, List.not_mem_nil, or_false, not_or] at he
  obtain ⟨h2, h3, h8, h9⟩ := he
  unfold epiOut
  dsimp only
  rw [if_neg h2, if_neg h3, if_neg (by omega), epiVals_eq f b k hcs hacc, zip_range_map, List.map_map]
  refine congrArg (·, []) (List.map_congr_left fun j _ => ?_)
  dsimp only [Function.comp]
  have hrow : (List.range 256).flatMap (fun m => leBytes n (epiFloatElem f b k fm j m)) = packedRow (8 * n) (epiFloatElem f b k fm) j := by
    rw [← List.flatMap_map (f := epiFloatElem f b k fm j), flatMap_leBytes, List.length_map, List.length_range, packedRow,
      show 32 * (8 * n) = n * 256 by omega]
  rw [zip_range_map, List.flatMap_map, hfm, hn, ← hrow, Nat.mul_div_cancel_left _ (by decide), show 256 * n = 32 * (8 * n) by omega]
  rfl

end

/-! ## The word (R255) -/

section
variable {f : MFields} {s : State} {x : MArgs} {mq : Bank (List Word) 2}

/-- Ranges and tiles that the epilogue reads, ranges that it writes. -/
def EpiReady (f : MFields) (b c dst : Nat) (s : State) : Prop :=
  let e := f.epi.toNat
  StoreReady ((if f.rs || f.cs then [(b, (if f.rs then 1024 else 0) + if f.cs then 128 else 0)] else []) ++
      if decide (e = 2 ∨ e = 3) then [(c, 256)] else [])
    ((dst, epiSpan e) :: if decide (e = 8 ∨ e = 9) then [(c, 256)] else []) [f.acc.toNat] [] s

/-- The rows of the output written, and then the scale bytes. -/
def epiDone (dst c : Nat) (mx : Bool) (out : List (Nat × List Byte) × List Byte) (s : State) : State :=
  let s := out.1.foldl (fun s p => putCore s.cur (dst + p.1) p.2 s) s
  if mx then putCore s.cur c out.2 s else s

theorem exec_epi (hst : Starts f false s) (ht : Takes colS (epiCols f).1 (epiCols f).2 f s x mq)
    (hready : EpiReady f x.b.addr x.c.addr x.a.addr s)
    (hapart : f.epi.toNat = 8 ∨ f.epi.toNat = 9 → rangesMeet (x.a.addr, epiSpan f.epi.toNat) (x.c.addr, 256) = false) :
    exec (.epi f) s = .next (started 0x4A f s mq {} (mNext
      (epiDone x.a.addr x.c.addr (decide (f.epi.toNat = 8 ∨ f.epi.toNat = 9)) (epiOut f x.b.addr x.c.addr s.core) s))) := by
  have hor (m n : Nat) : (f.epi.toNat == m || f.epi.toNat == n) = decide (f.epi.toNat = m ∨ f.epi.toNat = n) := by
    rw [Bool.decide_or, beq_eq_decide, beq_eq_decide]
  have hno : (decide (f.epi.toNat = 8 ∨ f.epi.toNat = 9) && rangesMeet (x.a.addr, epiSpan f.epi.toNat) (x.c.addr, 256)) = false := by
    by_cases h : f.epi.toNat = 8 ∨ f.epi.toNat = 9
    · rw [hapart h, Bool.and_false]
    · rw [decide_eq_false h, Bool.false_and]
  show execEpi f s = _
  unfold execEpi
  dsimp only
  refine mWord_started hst ht ?_
  simp only [hor]
  rw [hno, if_neg Bool.false_ne_true]
  exact mStore_ready hready _

/-- What the store holds after rows of elements of type `t` are written, and scale bytes of a block format. -/
theorem epiDone_spec {t : VTy} {stride off dst c : Nat} {g : Nat → Nat → Nat} {mx : Bool} {scales : List Byte} (hwf : Memory.wf s.core.cs = true)
    (hfit : off + 32 * t.bits ≤ stride) (hscales : mx = true → scales.length = 256)
    (hapart : mx = true → rangesMeet (dst, stride * 32) (c, 256) = false) :
    let s' := epiDone dst c mx (rowsAt stride off (packedRow t.bits g) 32, scales) s
    StoreOnly s s' ∧
      (∀ n, ¬(dst ≤ n ∧ n < dst + stride * 32) → ¬(mx = true ∧ c ≤ n ∧ n < c + 256) → memGet s'.core.cs n = memGet s.core.cs n) ∧
      (∀ j m, j < 32 → m < 256 → fieldAt s'.core (dst + (stride * j + off)) t.bits m = g j m % 2 ^ t.bits) ∧
      (mx = true → ∀ m, m < 256 → memGet s'.core.cs (c + m) = scales[m]?.getD 0) := by
  obtain ⟨honly, hwf₁, hrows, hrest⟩ := putRows_spec (row := packedRow t.bits g) (fun j => leBytes_length _ _) hfit dst 32 s hwf
  have hfield {k : Core} (hk : Memory.wf k.cs = true) {j m : Nat} (hm : m < 256)
      (hbytes : ∀ u, u < 32 * t.bits → memGet k.cs (dst + (stride * j + off) + u) = (packedRow t.bits g j)[u]?.getD 0) :
      fieldAt k (dst + (stride * j + off)) t.bits m = g j m % 2 ^ t.bits := by
    rw [fieldAt_joinBits hk t (xs := (List.range 256).map (g j)) (by simp; omega) hbytes (by simpa using hm), getElem?_map_range _ hm]
    rfl
  unfold epiDone
  dsimp only
  generalize (rowsAt stride off (packedRow t.bits g) 32).foldl (fun s p => putCore s.cur (dst + p.1) p.2 s) s = s₁ at *
  cases mx with
  | false => exact ⟨honly, fun n hn _ => hrest n (by omega), fun j m hj hm => hfield hwf₁ hm fun u hu => hrows j u hj hu, fun h => Bool.noConfusion h⟩
  | true =>
    have hget (n : Nat) := memGet_memPut s₁.core.cs c scales n hwf₁
    rw [hscales rfl] at hget
    have hmeet := hapart rfl
    simp only [rangesMeet, Bool.and_eq_false_iff, decide_eq_false_iff_not, Nat.not_lt] at hmeet
    have hcs : (putCore s₁.cur c scales s₁).core.cs = memPut s₁.core.cs c scales := putCore_cs c scales s₁
    rw [if_pos rfl]
    refine ⟨honly.trans (putCore_only _ _ s₁), fun n hn hc => ?_, fun j m hj hm => hfield (hcs ▸ wf_memPut _ _ _ hwf₁) hm fun u hu => ?_,
      fun _ m hm => ?_⟩
    · rw [hcs, hget, if_neg fun h => hc ⟨rfl, h.1, h.2⟩, hrest n hn]
    · have hin : stride * j + stride ≤ stride * 32 := by
        rw [← Nat.mul_succ]
        exact Nat.mul_le_mul_left _ hj
      rw [hcs, hget, if_neg (by omega), hrows j u hj hu]
    · rw [hcs, hget, if_pos ⟨by omega, by omega⟩, Nat.add_sub_cancel_left]

end

/-! ## The obligation -/

theorem fmt_bits_eq {fm : Fmt} {n : Nat} (h : (n, fm) ∈ ([(1, fp32), (4, bf16), (5, fp16), (6, e4m3), (7, e5m2)] : List (Nat × Fmt))) :
    epiFmt n = fm ∧ n ∉ [2, 3, 8, 9] ∧ epiSpan n = 32 * fm.bits * 32 ∧ ∃ t : VTy, t.bits = fm.bits ∧ fm.bits = 8 * (fm.bits / 8) := by
  simp only [List.mem_cons, List.not_mem_nil, or_false, Prod.mk.injEq] at h
  rcases h with ⟨rfl, rfl⟩ | ⟨rfl, rfl⟩ | ⟨rfl, rfl⟩ | ⟨rfl, rfl⟩ | ⟨rfl, rfl⟩
  · exact ⟨rfl, by decide, by decide, .f32, by decide⟩
  · exact ⟨rfl, by decide, by decide, .bf16, by decide⟩
  · exact ⟨rfl, by decide, by decide, .f16, by decide⟩
  · exact ⟨rfl, by decide, by decide, .e4m3, by decide⟩
  · exact ⟨rfl, by decide, by decide, .e5m2, by decide⟩

/-- Settles O29: each kind of output is rows of elements, which `epiDone` writes. -/
theorem epilogue : Obligations.Epilogue := by
  unfold Obligations.Epilogue
  intro s f x mq hcanon hst ht k e dst b c span mx rq rn h1 h9 hready hapart val mode int scale
  obtain ⟨⟨hwf, hacc⟩, -⟩ := hcanon.2
  have hwrites {t : VTy} {stride off : Nat} {g : Nat → Nat → Nat} {scales : List Byte}
      (hout : epiOut f b c k = (rowsAt stride off (packedRow t.bits g) 32, scales)) (hfit : off + 32 * t.bits ≤ stride)
      (hspan : stride * 32 = span) (hscales : mx = true → scales.length = 256) :
      ∃ s', exec (.epi f) s = .next (started 0x4A f s mq {} (mNext s')) ∧ StoreOnly s s' ∧
        (∀ n, ¬(dst ≤ n ∧ n < dst + span) → ¬(mx = true ∧ c ≤ n ∧ n < c + 256) → memGet s'.core.cs n = memGet k.cs n) ∧
        (∀ j m, j < 32 → m < 256 → fieldAt s'.core (dst + (stride * j + off)) t.bits m = g j m % 2 ^ t.bits) ∧
        (mx = true → ∀ m, m < 256 → memGet s'.core.cs (c + m) = scales[m]?.getD 0) := by
    refine ⟨_, (exec_epi hst ht hready fun h => hapart (decide_eq_true h)).trans (by rw [hout]), ?_⟩
    rw [← hspan]
    exact epiDone_spec hwf hfit hscales fun h => by rw [hspan]; exact hapart h
  have hint (w j m : Nat) : epiInt f b c k w j m % 2 ^ w = int w j m := Nat.mod_eq_of_lt (patternOf_lt _ _)
  have hfloat : ∀ p ∈ ([(1, fp32), (4, bf16), (5, fp16), (6, e4m3), (7, e5m2)] : List (Nat × Fmt)), e = p.1 →
      epiFmt e = p.2 ∧ e ∉ [2, 3, 8, 9] := fun p hp he => by
    obtain ⟨hfmt, hother, -⟩ := fmt_bits_eq hp
    exact he ▸ ⟨hfmt, hother⟩
  by_cases h2 : e = 2
  · obtain ⟨s', hexec, honly, hframe, hfield, -⟩ := hwrites (t := .i8) (epiOut_int8 b c k hwf hacc h2) (by decide)
      (by simp only [span, h2]; rfl) (by simp [mx, h2])
    refine ⟨s', hexec, hframe, fun j m hj hm => ⟨fun _ => (hfield j m hj hm).trans (hint 8 j m), fun h => by omega, fun h => by omega, fun h => by omega,
      fun p hp he => absurd (by simp [h2]) (hfloat p hp he).2⟩, honly⟩
  by_cases h3 : e = 3
  · obtain ⟨s', hexec, honly, hframe, hfield, -⟩ := hwrites (t := .i4) (epiOut_int4 b c k hwf hacc h3) (by split <;> decide)
      (by simp only [span, h3]; rfl) (by simp [mx, h3])
    refine ⟨s', hexec, hframe, fun j m hj hm => ⟨fun h => by omega, fun _ => ?_, fun h => by omega, fun h => by omega,
      fun p hp he => absurd (by simp [h3]) (hfloat p hp he).2⟩, honly⟩
    rw [Nat.add_assoc]
    exact (hfield j m hj hm).trans (hint 4 j m)
  by_cases h8 : e = 8
  · obtain ⟨s', hexec, honly, hframe, hfield, hscale⟩ := hwrites (t := .e2m1)
      (epiOut_block b c k hwf hacc (.inl h8) (fm := e2m1) (congrArg epiFmt h8)) (by decide) (by simp only [span, h8]; rfl) (by simp)
    refine ⟨s', hexec, hframe, fun j m hj hm => ⟨fun h => by omega, fun h => by omega, fun _ => ⟨hfield j m hj hm, ?_⟩, fun h => by omega,
      fun p hp he => absurd (by simp [h8]) (hfloat p hp he).2⟩, honly⟩
    rw [fieldAt_byte, hscale (by simp [mx, h8]) m hm, getElem?_map_range _ hm]
    rfl
  by_cases h9 : e = 9
  · obtain ⟨s', hexec, honly, hframe, hfield, hscale⟩ := hwrites (t := .e4m3)
      (epiOut_block b c k hwf hacc (.inr h9) (fm := e4m3) (congrArg epiFmt h9)) (by decide) (by simp only [span, h9]; rfl) (by simp)
    refine ⟨s', hexec, hframe, fun j m hj hm => ⟨fun h => by omega, fun h => by omega, fun h => by omega, fun _ => ⟨hfield j m hj hm, ?_⟩,
      fun p hp he => absurd (by simp [h9]) (hfloat p hp he).2⟩, honly⟩
    rw [fieldAt_byte, hscale (by simp [mx, h9]) m hm, getElem?_map_range _ hm]
    rfl
  · have hmem : ∃ p ∈ ([(1, fp32), (4, bf16), (5, fp16), (6, e4m3), (7, e5m2)] : List (Nat × Fmt)), e = p.1 := by
      have : e = 1 ∨ e = 4 ∨ e = 5 ∨ e = 6 ∨ e = 7 := by omega
      simpa using this
    obtain ⟨⟨n, fm⟩, hp, hn⟩ := hmem
    obtain ⟨hfmt, hother, hspan, t, ht, hbytes⟩ := fmt_bits_eq hp
    have hen : f.epi.toNat = n := hn
    have hout := epiOut_float b c k hwf hacc (hen ▸ hother) (hen ▸ hfmt) hbytes
    rw [← ht] at hout hspan
    obtain ⟨s', hexec, honly, hframe, hfield, -⟩ := hwrites hout (by omega) (by show _ = epiSpan f.epi.toNat; rw [hen, hspan])
      (by simp [mx, h8, h9])
    refine ⟨s', hexec, hframe, fun j m hj hm => ⟨fun h => by omega, fun h => by omega, fun h => by omega, fun h => by omega, fun p hp he => ?_⟩, honly⟩
    have hfm : fm = p.2 := hfmt.symm.trans ((congrArg epiFmt hn).symm.trans (hfloat p hp he).1)
    have hf := hfield j m hj hm
    rw [ht, Nat.add_zero] at hf
    rw [← hfm, show 256 * (fm.bits / 8) = 32 * fm.bits by omega]
    exact hf

end Sys2Proof.Machine
end
